-- ==== Sys2Proof/Word.lean ====
section
/-! DEFINITION. The word types of the XD9 (00, R4) and the data that the device's events carry. -/

namespace Sys2Proof

/-- A dword, the width of a scalar register (R4, R36). -/
abbrev Word := BitVec 64

/-- A byte (R4). -/
abbrev Byte := BitVec 8

/-- The kind of an access (R313). -/
inductive AccessKind where
  | read | write | execute
  deriving DecidableEq, Repr

/-- The operations of amo and vamo (R205), in the order of their codes, and cas. -/
inductive AmoOp where
  | add | and | or | xor | min | max | minu | maxu | swap | fadd | cas
  deriving DecidableEq, Repr

/-- A TLB (R315): of a core, of a crew or of a die. -/
inductive TlbUnit where
  | core (k : Nat) | crew (k : Nat) | die (k : Nat)
  deriving DecidableEq, Repr

/-- What a cache or TLB eviction drops (R186, R243, R315). -/
inductive Evicted where
  /-- the untracked MGD copy of a line on a die -/
  | mgdCopy (die line : Nat)
  /-- a tracked line of a cache: no value changes (R235) -/
  | tracked (die line : Nat)
  /-- a memory-side cache cascade of up to three neighbours on a stack (R243) -/
  | cascade (stack lines : Nat)
  /-- a line of an L1's coordinate partition, after so many hits (R150) -/
  | coordinate (core hits : Nat)
  /-- a translation of a TLB -/
  | translation (unit : TlbUnit) (parcel vpage : Nat)
  deriving DecidableEq, Repr

/-- What an arriving fabric request asks for (R323, R366). -/
inductive ArrivingOp where
  | load (n : Nat)
  | store (data mask : List (BitVec 8))
  /-- a store of n bytes of poisoned data (R350) -/
  | poison (n : Nat)
  | amo (op : AmoOp) (dword : Bool) (value expected : BitVec 64)
  | credit (post bytes : Nat)
  deriving DecidableEq, Repr

/-- An arriving fabric request (R325, R326): the port that receives it, its tenant header, or its absence, the offset it names and its
operation. -/
structure Arriving where
  port : Nat
  header : Option (BitVec 160)
  offset : Nat
  op : ArrivingOp
  deriving DecidableEq, Repr

/-- The operation of an extension packet (R328). -/
inductive ExtOp where
  | load | store | vamo | vamoRet
  deriving DecidableEq, Repr

/-- An extension packet (R328): the port that receives it, its tenant header, the header of R328, and offsets or data in element
order. -/
structure ExtPacket where
  port : Nat
  header : BitVec 160
  head : BitVec 128
  offsets : List (BitVec 32)
  data : List (BitVec 64)
  deriving DecidableEq, Repr

/-- The header of a management request (R390), and the hubs that receive it (R391). -/
structure ReqHead where
  h0 : Bool
  h1 : Bool
  word : BitVec 64
  deriving DecidableEq, Repr

/-- The context store that firmware reserves (R348): its first frame, how many frames it has, and the contexts that they hold. -/
structure ContextStore where
  first : Nat
  frames : Nat
  room : Nat
  deriving DecidableEq, Repr

/-- A link whose training is reported (R323, R334). -/
inductive Link where
  | port (k : Nat)
  | fyzozor
  deriving DecidableEq, Repr

/-- What a scrub or a read finds of a line's tag (R246): the first read matches, only the second does, or neither does; or that
the stack reports an on-die ECC correction of a line that matches (R244). -/
inductive TagCheck where
  | good | second | bad | corrected
  deriving DecidableEq, Repr

/-- Where an error strikes (R349). -/
inductive EccPlace where
  /-- a clean cache line: dropped and read again -/
  | cleanLine (die line : Nat)
  /-- a dirty cache line: its whole line is poisoned -/
  | dirtyLine (line : Nat)
  /-- a word of a thread's register file: file code of R351, register, 64-bit word index, pair or row -/
  | register (tid file reg index : Nat)
  /-- a 64-bit word of a crew's scratchpad -/
  | scratch (crew offset : Nat)
  /-- the hub buffer that holds a fabric request on its way -/
  | hubBuffer (id : Nat)
  /-- a line in DRAM, with what a read of it finds (R246) -/
  | dram (line : Nat) (tags : TagCheck)
  deriving DecidableEq, Repr

/-- Why a core is fenced in service (R357). -/
inductive FenceCause where
  | control | starved (tid : Nat) | matrixUnit
  deriving DecidableEq, Repr

/-- What the hubs and the firmware find of an image and of the parts they train, and the context store that it reserves (R388). -/
structure FirmwareReport where
  crcOk : Bool
  versionOk : Bool
  stacksOk : Bool
  linksOk : Bool
  failedCores : List Nat
  failedUnits : List Nat
  store : ContextStore
  deriving DecidableEq, Repr

/-- What step 7 of bring-up finds of the external links (R388): the width of each port that trained, and the Fyzozor link. -/
structure LinkReport where
  ports : List Nat
  fyzozorWidth : Nat
  fyzozorVersion : Nat
  deriving DecidableEq, Repr

end Sys2Proof
end

