-- ==== Sys2Proof/Syntax.lean ====
section
/-! DEFINITION. The syntax of every step of the XD9: one constructor of `Instr` per row of spec/opcode_table.json.
The first 278 rows with an encoding are instructions of the instruction set (02, R32) and the row MFSR_CTAGS; the
others are the device's events, which carry as arguments what the spec lets the outside world or the hardware's timing choose. -/

namespace Sys2Proof

/-- Every step of the device. Operand names are the table's: d destination field, a and b the source fields s1 and s2,
c and e their chain bits. -/
inductive Instr where
  /-- CHUNK_LIMIT_END (R176). The hardware's instruction or footprint limit ends an implicit chunk. -/
  | chunkLimitEnd (tid : Nat)
  /-- CHUNK_COMMIT (R179). A landing gives a chunk its place in the device order, making its stores visible and forking its engines. -/
  | chunkCommit (tid : Nat)
  /-- PRIORITY_COMMIT_REQUEST (R277). A chunk whose squash count reaches its threshold enters its landing's priority queue. -/
  | priorityCommitRequest (tid : Nat)
  /-- PRIORITY_TICKET_PASS (R278). The priority ticket passes to the next landing, which grants it to its oldest request. -/
  | priorityTicketPass
  /-- PERSISTENT_REQUEST (R185). A token request that has failed four times becomes persistent. -/
  | persistentRequest (tid line : Nat)
  /-- FAR_OP_PERFORM (R282). A home slice performs the next far atomic from its queue. -/
  | farOpPerform (slice : Nat)
  /-- DEFERRED_LOAD_REPLY (R189). The reply of a deferred load arrives and writes its register. -/
  | deferredLoadReply (id : Nat)
  /-- FABRIC_REPLY (R327). A reply code arrives for a fabric request and completes it. -/
  | fabricReply (id port : Nat) (codes : List Nat) (data : List (BitVec 8))
  /-- ASYNC_TRAP (R345). A pending asynchronous error record is taken at a chunk boundary or a read of the failed register. -/
  | asyncTrap (tid : Nat)
  /-- TRAP_ENTRY (R340). Writes the trap registers, sets aside loop and VP state, and enters the handler at privileged level. -/
  | trapEntry (tid : Nat)
  /-- TILE_OP_PERFORM (R155). A queued tile operation of a committed chunk is performed on the tile in program order. -/
  | tileOpPerform (tid : Nat)
  /-- MATRIX_DRAIN (R169). A drain engine writes tile rows to the scratchpad and completes its tag. -/
  | matrixDrain (id n : Nat)
  /-- COPY_START (R284). A forked copy takes its element slots in issue order once they are free. -/
  | copyStart (core : Nat)
  /-- COPY_ELEMENT (R219). An engine reads and writes one copy element, clipped or zero-filled as stated. -/
  | copyElement (id n : Nat)
  /-- COPY_COMPLETE (R224). A copy completes and lowers its tag count, setting the tag bit at zero. -/
  | copyComplete (id : Nat)
  /-- BARRIER_CREDIT (R229). A portion of a copy's bytes is credited to its barrier as one unit. -/
  | barrierCredit (id bytes : Nat)
  /-- STREAM_REFILL (R230). The refill engine fetches further elements of a stream's sequence. -/
  | streamRefill (tid v n : Nat)
  /-- POST (R365). The bucking engine performs one post of a traverse. -/
  | post (parcel j : Nat)
  /-- POST_CREDIT (R366). A receive record credits an incoming post once, by its bitmap bit. -/
  | postCredit (parcel j : Nat)
  /-- TRAVERSE_DONE (R370). The last post completes; the cursor reads done and the tag completes. -/
  | traverseDone (parcel : Nat)
  /-- TRAVERSE_STOP (R370). After a failed post the traverse drains in-flight posts, writes its cursor and completes the tag with a fault. -/
  | traverseStop (parcel : Nat)
  /-- PLACE_THREAD (R263). The dispatcher places a thread or gang set on a core, reconfiguring and restoring its context. -/
  | placeThread (tids cores slots : List Nat)
  /-- PREEMPT (R266). The dispatcher squashes a victim's open chunk and saves its context. -/
  | preempt (tid : Nat)
  /-- PLACEMENT_AGING (R265). A Placement-ready thread waiting over 2^20 cycles takes effective band 5. -/
  | placementAging (tid : Nat)
  /-- BLOCKED_EVICTION_AGE (R266). A thread blocked over 2^16 cycles becomes a first-choice pre-emption victim. -/
  | blockedEvictionAge (tid : Nat)
  /-- STRIP_GRANT (R272). The sequencer grants one strip to a thread by band and deficit round, charging it. -/
  | stripGrant (core tid : Nat)
  /-- STRIP_AGING (R273). A Run-ready thread whose strip has waited over 2^20 cycles takes band 5. -/
  | stripAging (tid : Nat)
  /-- WAIT_SATISFIED (R255). A blocked thread's wait condition is met and it becomes ready. -/
  | waitSatisfied (tid : Nat)
  /-- PAUSE_END (R306). A paused thread resumes after 1,024 cycles or a write to a line it read. -/
  | pauseEnd (tid : Nat)
  /-- CACHE_EVICTION (R186). A cache evicts a line, writing back dirty bytes. -/
  | cacheEviction (what : Evicted)
  /-- MGD_WRITEBACK_ARRIVAL (R187). An MGD write-back replaces the masked bytes at home as one unit. -/
  | mgdWritebackArrival (n : Nat)
  /-- PAGE_WALK (R312). A walk slot walks the page tables for a miss and reports to attached accesses. -/
  | pageWalk (die parcel : Nat) (va : BitVec 64) (kind : AccessKind)
  /-- FABRIC_REQUEST_ARRIVAL (R326). A receiving port key-checks an arriving request and admits or refuses it. -/
  | fabricRequestArrival (r : Arriving)
  /-- EXTENSION_PACKET_ARRIVAL (R329). A vector extension packet is checked per element and expanded at the target. -/
  | extensionPacketArrival (p : ExtPacket)
  /-- FABRIC_COMBINE (R291). A fetch-and-add meets a waiting partner at a butterfly stage and combines. -/
  | fabricCombine (stage first second : Nat)
  /-- COMBINE_WINDOW_EXPIRY (R291). A request waiting 64 cycles without a partner passes on uncombined. -/
  | combineWindowExpiry (id : Nat)
  /-- REPLY_SPLIT (R292). A stage splits a combined reply among its constituents in split order. -/
  | replySplit (id : Nat)
  /-- IDLE_FLIT (R353). A port with nothing to send for 1 µs sends an idle flit. -/
  | idleFlit (port : Nat)
  /-- LINK_DOWN (R353). A port that receives no flit for 8 µs declares its link down and retrains. -/
  | linkDown (port : Nat)
  /-- LINK_TRAINED (R323). A UALink port or the Fyzozor link completes training. -/
  | linkTrained (link : Link) (width version : Nat)
  /-- HEARTBEAT (R354). The device sends a heartbeat on the management channel each 1 µs. -/
  | heartbeat
  /-- PEER_LOST (R354). No heartbeat from a device for 8 µs marks it lost and floods a down notice. -/
  | peerLost (dev : Nat)
  /-- DOWN_NOTICE_RECEIVED (R354). A received down notice marks the named device lost. -/
  | downNoticeReceived (dev : Nat)
  /-- HOST_WRITE (R335). A host write of up to one line enters the order as one unit between chunks. -/
  | hostWrite (pa : Nat) (data : List (BitVec 8))
  /-- HOST_ATOMIC (R335). A host atomic to device memory is performed as one unit between chunks. -/
  | hostAtomic (pa : Nat) (op : AmoOp) (dword : Bool) (value expected : BitVec 64)
  /-- HOST_READ (R335). A host read returns device values at some place in the order. -/
  | hostRead (pa n : Nat)
  /-- ECC_ERROR (R349). An SRAM SECDED error is corrected, reread or poisons its data. -/
  | eccError (double : Bool) (place : EccPlace)
  /-- CORE_FENCE (R358). A core with an uncorrectable control error or a starved strip is fenced and its threads saved or removed. -/
  | coreFence (core : Nat) (cause : FenceCause) (corrupt : List Nat)
  /-- REFRESH_DUE (R245). A bank's refresh falls due and is performed or postponed. -/
  | refreshDue (stack bank : Nat) (burst : Bool)
  /-- REFRESH_POSTPONE_LIMIT (R245). At the postponement limit the controller closes the row, refreshes and reopens it. -/
  | refreshPostponeLimit (stack bank : Nat)
  /-- SCRUB_PASS_START (R249). A stack begins a patrol scrub pass when its period expires. -/
  | scrubPassStart (stack : Nat)
  /-- SCRUB_LINE (R249). The scrubber reads, checks, re-encrypts and writes one live line indivisibly. -/
  | scrubLine (stack : Nat) (tags : TagCheck)
  /-- SCRUB_PASS_END (R250). A scrub pass ends, retiring the old key version and logging completion. -/
  | scrubPassEnd (stack : Nat)
  /-- LOG_WRAP_CLEAR (R394). A write of 1 to a log status clears its wrap bit. -/
  | logWrapClear (stack : Nat)
  /-- POWER_WINDOW (R395). At the end of each 10 ms window the clock steps down or up against the power limit. -/
  | powerWindow (watts : Nat)
  /-- CREW_CLOCK_GATE (R395). A crew with no resident thread for 2^16 cycles is clock-gated. -/
  | crewClockGate (crew : Nat)
  /-- THERMAL_THROTTLE (R396). A die above 105 °C drops the clock to 875 MHz. -/
  | thermalThrottle (die celsius : Nat)
  /-- THERMAL_TRIP (R396). A die above 115 °C stops all work and holds the module in reset. -/
  | thermalTrip (die celsius : Nat)
  /-- RESET_PIN_RELEASE (R388). Release of the reset pin starts bring-up and the hubs wait for a firmware image. -/
  | resetPinRelease
  /-- RESET_PIN_ASSERT (R388). Assertion of the reset pin restarts the module after a failed bring-up. -/
  | resetPinAssert
  /-- LOAD_FIRMWARE_IMAGE (R388). Request 0x01 checks the image and, when accepted, runs stack and link training and core self-tests. -/
  | loadFirmwareImage (h : ReqHead) (image : FirmwareReport)
  /-- WRITE_PARCEL_DESCRIPTOR (R296). Request 0x02 writes or updates a parcel descriptor, creating the parcel when free. -/
  | writeParcelDescriptor (h : ReqHead) (desc : BitVec 512)
  /-- CREATE_ROOT_THREAD (R260). Request 0x03 creates a parcel's root thread. -/
  | createRootThread (h : ReqHead) (entry args config : BitVec 64)
  /-- REMOVE_LAUNCH (R356). Request 0x04 removes every thread and engine operation of one launch. -/
  | removeLaunch (h : ReqHead) (launch : Nat)
  /-- END_PARCEL (R299). Request 0x05 removes a parcel's threads, engines, regions, keys, TLB entries, frames and crews. -/
  | endParcel (h : ReqHead)
  /-- ASSIGN_FRAMES (R314). Request 0x06 assigns or unassigns frames, marking them dead and invalidating translations. -/
  | assignFrames (h : ReqHead) (first count owner : Nat)
  /-- WRITE_ROUTE_ENTRY (R321). Request 0x07 writes a routing-table entry in both hubs. -/
  | writeRouteEntry (h : ReqHead) (dev : Nat) (entry : BitVec 32)
  /-- SET_DEVICE_NUMBER (R320). Request 0x08 sets the device number during bring-up. -/
  | setDeviceNumber (h : ReqHead) (number : Nat)
  /-- CLEAR_LOST_MARK (R354). Request 0x09 clears a device's lost mark. -/
  | clearLostMark (h : ReqHead) (dev : Nat)
  /-- REQUEST_KEY_ROTATION (R250). Request 0x0A requests a memory key rotation for a parcel. -/
  | requestKeyRotation (h : ReqHead)
  /-- SET_SCRUB_PERIOD (R249). Request 0x0B sets the patrol scrub period in hours. -/
  | setScrubPeriod (h : ReqHead) (hours : Nat)
  /-- SET_POWER_LIMIT (R395). Request 0x0C sets the power limit in watts. -/
  | setPowerLimit (h : ReqHead) (watts : Nat)
  /-- WRITE_HOST_APERTURE (R298). Request 0x0D writes a host aperture and invalidates host-window translations. -/
  | writeHostAperture (h : ReqHead) (index : Nat) (aperture : BitVec 64)
  /-- ASSIGN_BLOCKS (R314). Request 0x0E assigns or unassigns 512 MiB blocks. -/
  | assignBlocks (h : ReqHead) (first count owner : Nat)
  /-- CONFIGURATION_COMPLETE (R388). Request 0x0F ends step 6, trains the external links and ends reset. -/
  | configurationComplete (h : ReqHead) (links : LinkReport)
  /-- ILLEGAL_INSTRUCTION (R34). A fetched word that is no assigned instruction (all-zero word, major 0x3D-0x3F, absent minor, nonzero reserved bit or out-of-range register) traps 0x01. -/
  | illegalInstruction (w : BitVec 32)
  /-- LANE_FAILURE (R334). A lane of the Fyzozor link fails, taking the link down to retrain at a narrower width, during which host-window accesses complete with code 5. -/
  | laneFailure (link : Link)
  /-- HEARTBEAT_RECEIVED (R354). A heartbeat from device n arrives on the management channel and restarts its 8 µs silence count. -/
  | heartbeatReceived (dev : Nat)
  /-- IDLE_FLIT_RECEIVED (R353). An idle flit arrives on a UALink port, restarting its 8 µs silence count and returning credits. -/
  | idleFlitReceived (port : Nat)
  /-- THERMAL_RECOVERY (R396). Once every die is below 100 °C, the clock leaves the thermal hold at 875 MHz and follows the power-window rule again. -/
  | thermalRecovery (celsius : List Nat)
  /-- UNKNOWN_REQUEST (R390). A management request with an unassigned code is answered with status 3 and changes nothing. -/
  | unknownRequest (h : ReqHead)
  /-- ECALL (R303). Completes, then takes trap 0x12 with trapval 0 once its chunk has committed. -/
  | ecall
  /-- ERET (R304). Resumes at trappc and the recorded level, and restores the loop stack, rrb and the VP PC array. -/
  | eret
  /-- TLBI (R305). Invalidates every TLB entry of the parcel that translates one virtual address. -/
  | tlbi (a : BitVec 6)
  /-- TLBIA (R305). Invalidates every TLB entry of the parcel. -/
  | tlbia
  /-- PKSET (R308). Writes the selected fabric key-table slot, or the outgoing key, from pkidx, pkeylo and pkeyhi. -/
  | pkset
  /-- PKCLR (R308). Clears the selected fabric key-table slot, or the outgoing key. -/
  | pkclr
  /-- PAUSE (R306). Commits its chunk, then issues nothing further for the thread until 1,024 cycles pass or a line it read is written. -/
  | pause
  /-- NOP (R306). Has no effect. -/
  | nop
  /-- MODE (R29). Copies guard, types, rounding, saturation, scale register and block length into the mode register. -/
  | mode (g : BitVec 4) (s : BitVec 5) (r : BitVec 3) (t : Bool) (c : BitVec 6) (b : BitVec 2) (d : BitVec 5)
  /-- ADD (R51). Writes the 64-bit wrapped sum of two scalar registers. -/
  | add (d a b : BitVec 6)
  /-- SUB (R51). Writes the 64-bit wrapped difference of two scalar registers. -/
  | sub (d a b : BitVec 6)
  /-- AND (R51). Writes the bitwise AND of two scalar registers. -/
  | and (d a b : BitVec 6)
  /-- OR (R51). Writes the bitwise OR of two scalar registers. -/
  | or (d a b : BitVec 6)
  /-- XOR (R51). Writes the bitwise XOR of two scalar registers. -/
  | xor (d a b : BitVec 6)
  /-- SLL (R51). Writes a scalar register shifted left by the low six bits of another. -/
  | sll (d a b : BitVec 6)
  /-- SRL (R51). Writes a scalar register shifted right logically. -/
  | srl (d a b : BitVec 6)
  /-- SRA (R51). Writes a scalar register shifted right arithmetically. -/
  | sra (d a b : BitVec 6)
  /-- SLT (R51). Writes 1 when the first register is the smaller as signed, else 0. -/
  | slt (d a b : BitVec 6)
  /-- SLTU (R51). Writes 1 when the first register is the smaller as unsigned, else 0. -/
  | sltu (d a b : BitVec 6)
  /-- MUL (R51). Writes the low 64 bits of the product. -/
  | mul (d a b : BitVec 6)
  /-- MULH (R51). Writes the high 64 bits of the signed product. -/
  | mulh (d a b : BitVec 6)
  /-- MULHU (R51). Writes the high 64 bits of the unsigned product. -/
  | mulhu (d a b : BitVec 6)
  /-- DIV (R52). Writes the signed quotient truncated toward zero, never trapping. -/
  | div (d a b : BitVec 6)
  /-- DIVU (R52). Writes the unsigned quotient, never trapping. -/
  | divu (d a b : BitVec 6)
  /-- REM (R52). Writes the signed remainder with the sign of the dividend. -/
  | rem (d a b : BitVec 6)
  /-- REMU (R52). Writes the unsigned remainder. -/
  | remu (d a b : BitVec 6)
  /-- MIN (R51). Writes the signed smaller of two registers. -/
  | min (d a b : BitVec 6)
  /-- MAX (R51). Writes the signed larger of two registers. -/
  | max (d a b : BitVec 6)
  /-- MINU (R51). Writes the unsigned smaller of two registers. -/
  | minu (d a b : BitVec 6)
  /-- MAXU (R51). Writes the unsigned larger of two registers. -/
  | maxu (d a b : BitVec 6)
  /-- ADDI (R53). Adds a sign-extended 14-bit immediate to a register. -/
  | addi (d a : BitVec 6) (i : BitVec 14)
  /-- ANDI (R53). ANDs a register with a sign-extended immediate. -/
  | andi (d a : BitVec 6) (i : BitVec 14)
  /-- ORI (R53). ORs a register with a sign-extended immediate. -/
  | ori (d a : BitVec 6) (i : BitVec 14)
  /-- XORI (R53). XORs a register with a sign-extended immediate. -/
  | xori (d a : BitVec 6) (i : BitVec 14)
  /-- SLLI (R54). Shifts a register left by an immediate count. -/
  | slli (d a n : BitVec 6)
  /-- SRLI (R54). Shifts a register right logically by an immediate count. -/
  | srli (d a n : BitVec 6)
  /-- SRAI (R54). Shifts a register right arithmetically by an immediate count. -/
  | srai (d a n : BitVec 6)
  /-- LIH (R55). Loads a 20-bit immediate times 2^14, sign-extended. -/
  | lih (d : BitVec 6) (i : BitVec 20)
  /-- PCREL (R55). Writes the pc plus a 20-bit immediate times 2^14. -/
  | pcrel (d : BitVec 6) (i : BitVec 20)
  /-- BEQ (R56). Branches when two registers are equal. -/
  | beq (a b : BitVec 6) (o : BitVec 14)
  /-- BNE (R56). Branches when two registers differ. -/
  | bne (a b : BitVec 6) (o : BitVec 14)
  /-- BLT (R56). Branches when the first register is less, as signed. -/
  | blt (a b : BitVec 6) (o : BitVec 14)
  /-- BGE (R56). Branches when the first register is greater or equal, as signed. -/
  | bge (a b : BitVec 6) (o : BitVec 14)
  /-- BLTU (R56). Branches when the first register is less, as unsigned. -/
  | bltu (a b : BitVec 6) (o : BitVec 14)
  /-- BGEU (R56). Branches when the first register is greater or equal, as unsigned. -/
  | bgeu (a b : BitVec 6) (o : BitVec 14)
  /-- JAL (R57). Writes the return address and jumps by a 20-bit word offset. -/
  | jal (d : BitVec 6) (o : BitVec 20)
  /-- JALR (R57). Writes the return address and jumps to a register plus an offset. -/
  | jalr (d a : BitVec 6) (i : BitVec 14)
  /-- LOOP (R66). Pushes a counted hardware loop entry, or skips the body when the count is 0. -/
  | loop (c : BitVec 6) (l : BitVec 12)
  /-- LOOPR (R66). Pushes a rotating software-pipelined loop entry and initialises rrb and p8 to p15. -/
  | loopr (c : BitVec 6) (l : BitVec 12)
  /-- VFETCH (R122). Sets every active VP's PC to a block of up to 32 instructions. -/
  | vfetch (n : BitVec 5) (o : BitVec 19)
  /-- VPBR (R123). Branches a VP to a target when its element is nonzero, diverging it. -/
  | vpbr (v : BitVec 6) (o : BitVec 18)
  /-- VPSTOP (R123). Makes the executing VP idle. -/
  | vpstop
  /-- VPSYNC (R125). Waits until every VP is idle. -/
  | vpsync
  /-- LD_B (R194). Loads a sign-extended byte. -/
  | ldB (d a : BitVec 6) (o : BitVec 11)
  /-- LD_H (R194). Loads a sign-extended half. -/
  | ldH (d a : BitVec 6) (o : BitVec 11)
  /-- LD_W (R194). Loads a sign-extended word. -/
  | ldW (d a : BitVec 6) (o : BitVec 11)
  /-- LD_D (R194). Loads a dword. -/
  | ldD (d a : BitVec 6) (o : BitVec 11)
  /-- LD_BU (R194). Loads a zero-extended byte. -/
  | ldBu (d a : BitVec 6) (o : BitVec 11)
  /-- LD_HU (R194). Loads a zero-extended half. -/
  | ldHu (d a : BitVec 6) (o : BitVec 11)
  /-- LD_WU (R194). Loads a zero-extended word. -/
  | ldWu (d a : BitVec 6) (o : BitVec 11)
  /-- ST_B (R194). Stores the low byte of a register. -/
  | stB (d a : BitVec 6) (o : BitVec 11)
  /-- ST_H (R194). Stores the low half of a register. -/
  | stH (d a : BitVec 6) (o : BitVec 11)
  /-- ST_W (R194). Stores the low word of a register. -/
  | stW (d a : BitVec 6) (o : BitVec 11)
  /-- ST_D (R194). Stores a register as a dword. -/
  | stD (d a : BitVec 6) (o : BitVec 11)
  /-- AMO_ADD (R205). Atomically adds to a word or dword in memory and returns the old value. -/
  | amoAdd (d a b : BitVec 6) (z : Bool)
  /-- AMO_AND (R205). Atomically ANDs into memory and returns the old value. -/
  | amoAnd (d a b : BitVec 6) (z : Bool)
  /-- AMO_OR (R205). Atomically ORs into memory and returns the old value. -/
  | amoOr (d a b : BitVec 6) (z : Bool)
  /-- AMO_XOR (R205). Atomically XORs into memory and returns the old value. -/
  | amoXor (d a b : BitVec 6) (z : Bool)
  /-- AMO_MIN (R205). Atomically stores the signed minimum and returns the old value. -/
  | amoMin (d a b : BitVec 6) (z : Bool)
  /-- AMO_MAX (R205). Atomically stores the signed maximum and returns the old value. -/
  | amoMax (d a b : BitVec 6) (z : Bool)
  /-- AMO_MINU (R205). Atomically stores the unsigned minimum and returns the old value. -/
  | amoMinu (d a b : BitVec 6) (z : Bool)
  /-- AMO_MAXU (R205). Atomically stores the unsigned maximum and returns the old value. -/
  | amoMaxu (d a b : BitVec 6) (z : Bool)
  /-- AMO_SWAP (R205). Atomically swaps a register with memory. -/
  | amoSwap (d a b : BitVec 6) (z : Bool)
  /-- AMO_FADD (R206). Atomically adds a floating value with rne and returns the old value. -/
  | amoFadd (d a b : BitVec 6) (z : Bool)
  /-- CAS (R205). Atomically compares memory with the old xd and writes xs2 on a match, returning the old value. -/
  | cas (d a b : BitVec 6) (z : Bool)
  /-- FENCE (R211). Forms a chunk alone and performs the scope action of R190, including the vector drain. -/
  | fence (s : BitVec 2)
  /-- ACQ (R211). Optionally loads a dword, then performs the acquire action of its scope. -/
  | acq (d a : BitVec 6) (s : BitVec 2)
  /-- REL (R211). Performs the release action of its scope, then optionally stores a dword at commit. -/
  | rel (a b : BitVec 6) (s : BitVec 2)
  /-- PREF (R212). Fetches a line toward the L1 without trapping or ordering. -/
  | pref (a : BitVec 6)
  /-- SETVL (R59). Sets vl to the lesser of a register and the limit of the current types, and returns it. -/
  | setvl (d a : BitVec 6)
  /-- SETVLI (R59). Sets vl to the lesser of an immediate and the limit of the current types. -/
  | setvli (d : BitVec 6) (n : BitVec 12)
  /-- MFSR (R59). Reads a system register named by number into a scalar register. -/
  | mfsr (d : BitVec 6) (r : BitVec 12)
  /-- MFSR_FFLAGS (R156). Reads fflags as a tile observer, first ending a chunk that holds tile operations and waiting for them. -/
  | mfsrFflags (d : BitVec 6)
  /-- MFSR_MSAT (R156). Reads msat as a tile observer, first ending a chunk that holds tile operations and waiting for them. -/
  | mfsrMsat (d : BitVec 6)
  /-- MTSR (R61). Writes a system register that has no behaviour of its own, leaving ro fields and reserved bits unchanged. -/
  | mtsr (a : BitVec 6) (r : BitVec 12)
  /-- MTSR_MODE (R61). Writes the mode register with the checks of a mode word. -/
  | mtsrMode (a : BitVec 6)
  /-- MTSR_FMT (R78). Writes a narrow format register, trapping 0x02 on an invalid format. -/
  | mtsrFmt (a : BitVec 6) (f : BitVec 3)
  /-- MTSR_FFLAGS (R156). Writes fflags as a tile observer after earlier tile operations have been performed. -/
  | mtsrFflags (a : BitVec 6)
  /-- MTSR_FPROG (R135). Stores the fibre progress tag and state, zeroing the reserved bits of that tag's layout. -/
  | mtsrFprog (a : BitVec 6)
  /-- MTSR_CTAGS (R61). Clears each copy-tag bit written as 1. -/
  | mtsrCtags (a : BitVec 6)
  /-- MTSR_MSAT (R156). Writes msat as a tile observer after earlier tile operations have been performed. -/
  | mtsrMsat (a : BitVec 6)
  /-- MTSR_PTROOT (R301). Writes the parcel's page-table root, taking effect parcel-wide at commit. -/
  | mtsrPtroot (a : BitVec 6)
  /-- MTSR_TRAPVEC (R301). Writes the parcel's trap vector, taking effect parcel-wide at commit. -/
  | mtsrTrapvec (a : BitVec 6)
  /-- MTSR_PSHARE (R301). Writes the parcel's requested link weight, taking effect parcel-wide at commit. -/
  | mtsrPshare (a : BitVec 6)
  /-- VIDX (R104). Writes start plus i times step into each active element. -/
  | vidx (d : BitVec 6) (s : BitVec 12) (p : BitVec 8)
  /-- VADD (R102). Adds two integer vectors elementwise with wrap or saturation. -/
  | vadd (d a b : BitVec 6) (c e : Bool)
  /-- VADD_VX (R102). Adds a scalar to an integer vector elementwise. -/
  | vaddVx (d a b : BitVec 6) (c : Bool)
  /-- VSUB (R102). Subtracts two integer vectors elementwise. -/
  | vsub (d a b : BitVec 6) (c e : Bool)
  /-- VSUB_VX (R102). Subtracts a scalar from an integer vector elementwise. -/
  | vsubVx (d a b : BitVec 6) (c : Bool)
  /-- VMUL (R102). Multiplies two integer vectors elementwise. -/
  | vmul (d a b : BitVec 6) (c e : Bool)
  /-- VMUL_VX (R102). Multiplies an integer vector by a scalar. -/
  | vmulVx (d a b : BitVec 6) (c : Bool)
  /-- VMULH (R102). Writes the high half of elementwise integer products. -/
  | vmulh (d a b : BitVec 6) (c e : Bool)
  /-- VMULH_VX (R102). Writes the high half of products with a scalar. -/
  | vmulhVx (d a b : BitVec 6) (c : Bool)
  /-- VMACC (R102). Adds elementwise integer products into the destination. -/
  | vmacc (d a b : BitVec 6) (c e : Bool)
  /-- VMACC_VX (R102). Adds products with a scalar into the destination. -/
  | vmaccVx (d a b : BitVec 6) (c : Bool)
  /-- VDIV (R103). Divides integer vectors elementwise, never trapping. -/
  | vdiv (d a b : BitVec 6) (c e : Bool)
  /-- VDIV_VX (R103). Divides an integer vector by a scalar, never trapping. -/
  | vdivVx (d a b : BitVec 6) (c : Bool)
  /-- VREM (R103). Writes elementwise integer remainders. -/
  | vrem (d a b : BitVec 6) (c e : Bool)
  /-- VREM_VX (R103). Writes remainders by a scalar. -/
  | vremVx (d a b : BitVec 6) (c : Bool)
  /-- VMIN (R102). Writes the elementwise integer minimum. -/
  | vmin (d a b : BitVec 6) (c e : Bool)
  /-- VMIN_VX (R102). Writes the elementwise minimum with a scalar. -/
  | vminVx (d a b : BitVec 6) (c : Bool)
  /-- VMAX (R102). Writes the elementwise integer maximum. -/
  | vmax (d a b : BitVec 6) (c e : Bool)
  /-- VMAX_VX (R102). Writes the elementwise maximum with a scalar. -/
  | vmaxVx (d a b : BitVec 6) (c : Bool)
  /-- VAND (R102). Writes the elementwise bitwise AND. -/
  | vand (d a b : BitVec 6) (c e : Bool)
  /-- VAND_VX (R102). Writes the elementwise AND with a scalar. -/
  | vandVx (d a b : BitVec 6) (c : Bool)
  /-- VOR (R102). Writes the elementwise bitwise OR. -/
  | vor (d a b : BitVec 6) (c e : Bool)
  /-- VOR_VX (R102). Writes the elementwise OR with a scalar. -/
  | vorVx (d a b : BitVec 6) (c : Bool)
  /-- VXOR (R102). Writes the elementwise bitwise XOR. -/
  | vxor (d a b : BitVec 6) (c e : Bool)
  /-- VXOR_VX (R102). Writes the elementwise XOR with a scalar. -/
  | vxorVx (d a b : BitVec 6) (c : Bool)
  /-- VSLL (R102). Shifts elements left by elementwise counts. -/
  | vsll (d a b : BitVec 6) (c e : Bool)
  /-- VSLL_VX (R102). Shifts elements left by a scalar count. -/
  | vsllVx (d a b : BitVec 6) (c : Bool)
  /-- VSRL (R102). Shifts elements right logically. -/
  | vsrl (d a b : BitVec 6) (c e : Bool)
  /-- VSRL_VX (R102). Shifts elements right logically by a scalar count. -/
  | vsrlVx (d a b : BitVec 6) (c : Bool)
  /-- VSRA (R102). Shifts elements right arithmetically. -/
  | vsra (d a b : BitVec 6) (c e : Bool)
  /-- VSRA_VX (R102). Shifts elements right arithmetically by a scalar count. -/
  | vsraVx (d a b : BitVec 6) (c : Bool)
  /-- VRNG (R105). Writes counter-based random numbers mixed from a counter and rngkey. -/
  | vrng (d a : BitVec 6)
  /-- VFADD (R106). Adds floating vectors with one rounding. -/
  | vfadd (d a b : BitVec 6) (c e : Bool)
  /-- VFADD_VX (R106). Adds a floating scalar to a vector. -/
  | vfaddVx (d a b : BitVec 6) (c : Bool)
  /-- VFSUB (R106). Subtracts floating vectors with one rounding. -/
  | vfsub (d a b : BitVec 6) (c e : Bool)
  /-- VFSUB_VX (R106). Subtracts a floating scalar from a vector. -/
  | vfsubVx (d a b : BitVec 6) (c : Bool)
  /-- VFMUL (R106). Multiplies floating vectors with one rounding. -/
  | vfmul (d a b : BitVec 6) (c e : Bool)
  /-- VFMUL_VX (R106). Multiplies a floating vector by a scalar. -/
  | vfmulVx (d a b : BitVec 6) (c : Bool)
  /-- VFMA (R106). Computes x × y + c fused with one rounding. -/
  | vfma (d a b : BitVec 6) (c e : Bool)
  /-- VFMA_VX (R106). Computes x × scalar + c fused. -/
  | vfmaVx (d a b : BitVec 6) (c : Bool)
  /-- VFMS (R106). Computes x × y − c fused. -/
  | vfms (d a b : BitVec 6) (c e : Bool)
  /-- VFMS_VX (R106). Computes x × scalar − c fused. -/
  | vfmsVx (d a b : BitVec 6) (c : Bool)
  /-- VFNMA (R106). Computes −(x × y) − c fused. -/
  | vfnma (d a b : BitVec 6) (c e : Bool)
  /-- VFNMA_VX (R106). Computes −(x × scalar) − c fused. -/
  | vfnmaVx (d a b : BitVec 6) (c : Bool)
  /-- VFNMS (R106). Computes −(x × y) + c fused. -/
  | vfnms (d a b : BitVec 6) (c e : Bool)
  /-- VFNMS_VX (R106). Computes −(x × scalar) + c fused. -/
  | vfnmsVx (d a b : BitVec 6) (c : Bool)
  /-- VFDIV (R106). Divides floating vectors with one rounding. -/
  | vfdiv (d a b : BitVec 6) (c e : Bool)
  /-- VFDIV_VX (R106). Divides a floating vector by a scalar. -/
  | vfdivVx (d a b : BitVec 6) (c : Bool)
  /-- VFSQRT (R106). Writes correctly rounded square roots. -/
  | vfsqrt (d a : BitVec 6) (c : Bool)
  /-- VFREC (R106). Writes correctly rounded reciprocals. -/
  | vfrec (d a : BitVec 6) (c : Bool)
  /-- VFMIN (R107). Writes the floating minimum, with −0 below +0 and NaNs set aside. -/
  | vfmin (d a b : BitVec 6) (c e : Bool)
  /-- VFMIN_VX (R107). Writes the floating minimum with a scalar. -/
  | vfminVx (d a b : BitVec 6) (c : Bool)
  /-- VFMAX (R107). Writes the floating maximum. -/
  | vfmax (d a b : BitVec 6) (c e : Bool)
  /-- VFMAX_VX (R107). Writes the floating maximum with a scalar. -/
  | vfmaxVx (d a b : BitVec 6) (c : Bool)
  /-- VFABS (R107). Writes absolute values rounded into dtype. -/
  | vfabs (d a : BitVec 6) (c : Bool)
  /-- VFNEG (R107). Writes negated values rounded into dtype. -/
  | vfneg (d a : BitVec 6) (c : Bool)
  /-- VFRINT (R108). Rounds each element to an integral value under the mode. -/
  | vfrint (d a : BitVec 6) (c : Bool)
  /-- VFEXP2 (R109). Writes correctly rounded 2^x for |x| ≤ 0.5. -/
  | vfexp2 (d a : BitVec 6) (c : Bool)
  /-- VFSCALE (R110). Multiplies by a power of two given elementwise, with one rounding. -/
  | vfscale (d a b : BitVec 6) (c e : Bool)
  /-- VFSCALE_VX (R110). Multiplies by 2 to a scalar power, with one rounding. -/
  | vfscaleVx (d a b : BitVec 6) (c : Bool)
  /-- VFCLASS (R111). Writes a one-hot class mask for each element. -/
  | vfclass (d a : BitVec 6) (c : Bool)
  /-- VCMP_EQ (R113). Writes a predicate of elementwise equality. -/
  | vcmpEq (d a b : BitVec 6) (c e : Bool)
  /-- VCMP_NE (R113). Writes a predicate of elementwise inequality. -/
  | vcmpNe (d a b : BitVec 6) (c e : Bool)
  /-- VCMP_LT (R113). Writes a predicate of elementwise less-than. -/
  | vcmpLt (d a b : BitVec 6) (c e : Bool)
  /-- VCMP_LE (R113). Writes a predicate of elementwise less-or-equal. -/
  | vcmpLe (d a b : BitVec 6) (c e : Bool)
  /-- VCMP_GT (R113). Writes a predicate of elementwise greater-than. -/
  | vcmpGt (d a b : BitVec 6) (c e : Bool)
  /-- VCMP_GE (R113). Writes a predicate of elementwise greater-or-equal. -/
  | vcmpGe (d a b : BitVec 6) (c e : Bool)
  /-- VCMP_UN (R113). Writes a predicate of elementwise unordered floating comparison. -/
  | vcmpUn (d a b : BitVec 6) (c e : Bool)
  /-- PAND (R114). Writes the AND of two predicates below vl. -/
  | pand (d a b : BitVec 6)
  /-- POR (R114). Writes the OR of two predicates below vl. -/
  | por (d a b : BitVec 6)
  /-- PXOR (R114). Writes the XOR of two predicates below vl. -/
  | pxor (d a b : BitVec 6)
  /-- PANDN (R114). Writes the first predicate AND NOT the second below vl. -/
  | pandn (d a b : BitVec 6)
  /-- PNOT (R114). Writes the complement of a predicate below vl. -/
  | pnot (d a : BitVec 6)
  /-- PWHILE (R114). Sets predicate bit i while xs1 + i < xs2. -/
  | pwhile (d a b : BitVec 6)
  /-- PCNT (R115). Counts the active set bits of a predicate into a scalar. -/
  | pcnt (d a : BitVec 6)
  /-- PFIRST (R115). Writes the index of the first active set bit, or all ones. -/
  | pfirst (d a : BitVec 6)
  /-- VCVT (R116). Converts each element from stype to dtype. -/
  | vcvt (d a : BitVec 6) (c : Bool)
  /-- VQNT (R117). Quantises wide floating elements to a scaled narrow type using block scales. -/
  | vqnt (d a : BitVec 6) (c : Bool)
  /-- VDQNT (R117). Dequantises scaled narrow elements to a wide floating type. -/
  | vdqnt (d a : BitVec 6) (c : Bool)
  /-- VBSCALE (R118). Writes each block's E8M0 scale byte into the scale register. -/
  | vbscale (d a : BitVec 6) (c : Bool)
  /-- VBSMAX (R118). Writes each block's largest magnitude into the destination. -/
  | vbsmax (d a : BitVec 6) (c : Bool)
  /-- VREDO (R91). Sums active elements in ascending index order into a scalar. -/
  | vredo (d a b : BitVec 6) (c : Bool)
  /-- VREDT (R92). Sums active elements by the fixed binary tree into a scalar. -/
  | vredt (d a b : BitVec 6) (c : Bool)
  /-- VREDMIN (R119). Writes the least of init and the active elements. -/
  | vredmin (d a b : BitVec 6) (c : Bool)
  /-- VREDMAX (R119). Writes the greatest of init and the active elements. -/
  | vredmax (d a b : BitVec 6) (c : Bool)
  /-- VSLIDEUP (R121). Moves elements up by n positions. -/
  | vslideup (d a b : BitVec 6) (c : Bool)
  /-- VSLIDEDN (R121). Moves elements down by n positions, filling with 0. -/
  | vslidedn (d a b : BitVec 6) (c : Bool)
  /-- VGATH (R121). Gathers elements by an index vector. -/
  | vgath (d a b : BitVec 6) (c e : Bool)
  /-- VCOMPRESS (R121). Packs the elements selected by a predicate to the bottom. -/
  | vcompress (d a b : BitVec 6) (c : Bool)
  /-- VEXPAND (R121). Spreads consecutive elements to the positions a predicate selects. -/
  | vexpand (d a b : BitVec 6) (c : Bool)
  /-- VBCAST (R121). Broadcasts a scalar to every active element. -/
  | vbcast (d a : BitVec 6)
  /-- VEXT (R121). Extracts element n into a scalar. -/
  | vext (d a b : BitVec 6) (c : Bool)
  /-- VINS (R121). Inserts a scalar at element n. -/
  | vins (d a b : BitVec 6)
  /-- VMV (R121). Copies active elements of a vector. -/
  | vmv (d a : BitVec 6) (c : Bool)
  /-- VLD (R199). Loads active elements at unit stride. -/
  | vld (d a : BitVec 6)
  /-- VLD_S (R199). Loads active elements at a byte stride. -/
  | vldS (d a b : BitVec 6)
  /-- VLD_X (R199). Loads active elements at indexed offsets. -/
  | vldX (d a b : BitVec 6) (e : Bool)
  /-- VST (R199). Stores active elements at unit stride. -/
  | vst (d a : BitVec 6)
  /-- VST_S (R199). Stores active elements at a byte stride. -/
  | vstS (d a b : BitVec 6)
  /-- VST_X (R199). Stores active elements at indexed offsets, higher index winning. -/
  | vstX (d a b : BitVec 6) (e : Bool)
  /-- VAMO_ADD (R209). Atomically adds elements at indexed locations, in serial element order. -/
  | vamoAdd (d a b : BitVec 6) (e : Bool)
  /-- VAMO_ADD_RET (R209). Vector atomic add that returns the old values. -/
  | vamoAddRet (d a b : BitVec 6) (e : Bool)
  /-- VAMO_AND (R209). Vector atomic AND. -/
  | vamoAnd (d a b : BitVec 6) (e : Bool)
  /-- VAMO_AND_RET (R209). Vector atomic AND that returns the old values. -/
  | vamoAndRet (d a b : BitVec 6) (e : Bool)
  /-- VAMO_OR (R209). Vector atomic OR. -/
  | vamoOr (d a b : BitVec 6) (e : Bool)
  /-- VAMO_OR_RET (R209). Vector atomic OR that returns the old values. -/
  | vamoOrRet (d a b : BitVec 6) (e : Bool)
  /-- VAMO_XOR (R209). Vector atomic XOR. -/
  | vamoXor (d a b : BitVec 6) (e : Bool)
  /-- VAMO_XOR_RET (R209). Vector atomic XOR that returns the old values. -/
  | vamoXorRet (d a b : BitVec 6) (e : Bool)
  /-- VAMO_MIN (R209). Vector atomic signed minimum. -/
  | vamoMin (d a b : BitVec 6) (e : Bool)
  /-- VAMO_MIN_RET (R209). Vector atomic signed minimum that returns the old values. -/
  | vamoMinRet (d a b : BitVec 6) (e : Bool)
  /-- VAMO_MAX (R209). Vector atomic signed maximum. -/
  | vamoMax (d a b : BitVec 6) (e : Bool)
  /-- VAMO_MAX_RET (R209). Vector atomic signed maximum that returns the old values. -/
  | vamoMaxRet (d a b : BitVec 6) (e : Bool)
  /-- VAMO_MINU (R209). Vector atomic unsigned minimum. -/
  | vamoMinu (d a b : BitVec 6) (e : Bool)
  /-- VAMO_MINU_RET (R209). Vector atomic unsigned minimum that returns the old values. -/
  | vamoMinuRet (d a b : BitVec 6) (e : Bool)
  /-- VAMO_MAXU (R209). Vector atomic unsigned maximum. -/
  | vamoMaxu (d a b : BitVec 6) (e : Bool)
  /-- VAMO_MAXU_RET (R209). Vector atomic unsigned maximum that returns the old values. -/
  | vamoMaxuRet (d a b : BitVec 6) (e : Bool)
  /-- VAMO_SWAP (R209). Vector atomic swap. -/
  | vamoSwap (d a b : BitVec 6) (e : Bool)
  /-- VAMO_SWAP_RET (R209). Vector atomic swap that returns the old values. -/
  | vamoSwapRet (d a b : BitVec 6) (e : Bool)
  /-- VAMO_FADD (R209). Vector atomic floating add, rounding rne per step. -/
  | vamoFadd (d a b : BitVec 6) (e : Bool)
  /-- VAMO_FADD_RET (R209). Vector atomic floating add that returns the old values. -/
  | vamoFaddRet (d a b : BitVec 6) (e : Bool)
  /-- VDRAIN (R203). Holds later accesses until every earlier vector and fibre memory element has been performed. -/
  | vdrain
  /-- VPREF (R204). Prefetches the lines that a unit-stride vld would read. -/
  | vpref (a : BitVec 6)
  /-- FLD (R138). Loads n pairs from memory into a fibre, checking ascending coordinates. -/
  | fld (d a b : BitVec 6)
  /-- FST (R139). Stores the pairs of a fibre to memory. -/
  | fst (d a : BitVec 6)
  /-- FWALK (R142). Emits the children of a parent position of a compressed level as a fibre, restartably. -/
  | fwalk (d a b : BitVec 6)
  /-- FINTER (R144). Writes the intersection of two fibres with a combine operation. -/
  | finter (d a b : BitVec 6) (k : BitVec 3)
  /-- FUNION (R145). Writes one pass of the union of two fibres, recording cursors in fprog when full. -/
  | funion (d a b : BitVec 6) (k : BitVec 3)
  /-- FMERGE (R146). Writes one pass of the merge of two to four fibres. -/
  | fmerge (d a b : BitVec 6) (k : BitVec 3)
  /-- FCOMPACT (R147). Packs selected vector elements into a fibre, restartably. -/
  | fcompact (d a b : BitVec 6) (c : Bool)
  /-- FEXPAND (R148). Writes a dense vector from a fibre. -/
  | fexpand (d a : BitVec 6)
  /-- FGATH (R149). Gathers values from a dense array at a fibre's coordinates. -/
  | fgath (d a : BitVec 6)
  /-- FSCAT (R149). Scatters a fibre's values into a dense array. -/
  | fscat (d a : BitVec 6)
  /-- FLEN (R140). Writes a fibre's occupancy into a scalar. -/
  | flen (d a : BitVec 6)
  /-- FCLR (R140). Sets a fibre's occupancy to 0. -/
  | fclr (d : BitVec 6)
  /-- FCOPY (R140). Copies one fibre register to another. -/
  | fcopy (d a : BitVec 6)
  /-- MATTACH (R152). Forms a chunk alone and grants accumulator rows as tiles, zeroing them. -/
  | mattach (d a : BitVec 6)
  /-- MDETACH (R153). Releases the thread's accumulator rows after earlier tile operations. -/
  | mdetach
  /-- MMODE (R159). Writes the matrix mode and returns the previous one. -/
  | mmode (d a : BitVec 6)
  /-- MZERO (R162). Queues a tile operation that zeroes a tile. -/
  | mzero (t : BitVec 2)
  /-- MOP_VV (R166). Queues one K-group of products from two vector operands into a tile. -/
  | mopVv (p : BitVec 4) (t : BitVec 2) (a b : BitVec 6) (c e : Bool)
  /-- MOP_SV (R166). Queues one K-group with A from the crew scratchpad and B from a vector. -/
  | mopSv (p : BitVec 4) (t : BitVec 2) (a b : BitVec 6) (e : Bool)
  /-- MOP_SS (R166). Queues one K-group with both operands from the crew scratchpad. -/
  | mopSs (p : BitVec 4) (t : BitVec 2) (a b : BitVec 6)
  /-- MLDA_V (R169). Queues a load of tile rows from a vector register. -/
  | mldaV (t : BitVec 2) (a b : BitVec 6) (c : Bool)
  /-- MLDA_S (R169). Queues a load of tile rows from the crew scratchpad. -/
  | mldaS (t : BitVec 2) (a b : BitVec 6)
  /-- MSTA_V (R169). Copies tile rows into a vector register as a tile observer. -/
  | mstaV (t : BitVec 2) (a b : BitVec 6)
  /-- MSTA_S (R169). Issues a matrix-unit drain of tile rows to the crew scratchpad. -/
  | mstaS (t : BitVec 2) (a b : BitVec 6)
  /-- MPRUNE (R170). Compresses a dense vector to 4:8 sparsity and writes its metadata predicate. -/
  | mprune (d a b : BitVec 6) (c : Bool)
  /-- CPY (R218). Checks a copy record, grants a strip and issues an asynchronous copy. -/
  | cpy (d a b : BitVec 6)
  /-- CPYM (R223). Issues a multicast copy to every member of a stand. -/
  | cpym (d a b : BitVec 6)
  /-- SMODE (R230). Puts a register among v56 to v63 into stream mode from a stream record. -/
  | smode (d a : BitVec 6)
  /-- SSTOP (R233). Ends stream mode for a register and zeroes it. -/
  | sstop (d : BitVec 6)
  /-- TWAIT_ANY (R225). Waits until any masked copy tag is set. -/
  | twaitAny (d a : BitVec 6)
  /-- TWAIT_ALL (R225). Waits until all masked copy tags are set. -/
  | twaitAll (d a : BitVec 6)
  /-- TFFR (R225). Writes the lowest set masked tag index without waiting. -/
  | tffr (d a : BitVec 6)
  /-- BARINIT (R227). Initialises a transaction barrier with a quorum. -/
  | barinit (a b : BitVec 6)
  /-- BAREXP (R227). Announces bytes that the current round owes. -/
  | barexp (a b : BitVec 6)
  /-- BARARR (R227). Records one arrival at a barrier and returns the round. -/
  | bararr (d a : BitVec 6)
  /-- BARWAIT (R227). Waits until the barrier's round differs from a given one. -/
  | barwait (d a b : BitVec 6)
  /-- RWB (R242). Writes back dirty bytes of untracked MGD copies in a range, keeping them. -/
  | rwb (a b : BitVec 6)
  /-- RINV (R242). Writes back and drops untracked MGD copies in a range. -/
  | rinv (a b : BitVec 6)
  /-- RGNDECL (R240). Declares a managed region on the die from a plat. -/
  | rgndecl (d a : BitVec 6)
  /-- RGNFREE (R241). Writes back and drops a region's copies and frees its entry. -/
  | rgnfree (a : BitVec 6)
  /-- CWAYS (R239). Moves pool units between the L1 and the scratchpad portion at commit. -/
  | cways (d a : BitVec 6)
  /-- LIVE (R247). Marks dead blocks of a range live, zero-filled. -/
  | live (a b : BitVec 6)
  /-- DEAD (R247). Zeroes a range as one unit and marks its blocks dead. -/
  | dead (a b : BitVec 6)
  /-- CHKBEG (R213). Ends the open chunk and opens an explicit chunk. -/
  | chkbeg
  /-- CHKEND (R213). Closes the explicit chunk for commit. -/
  | chkend
  /-- CHKSTAT (R214). Writes explicit-chunk status: squashes, priority and inside flag. -/
  | chkstat (d : BitVec 6)
  /-- LAUNCH (R257). Checks a launch record and creates its threads when the chunk commits. -/
  | launch (d a : BitVec 6)
  /-- TEXIT (R259). Ends the thread at commit, releasing its resources and stand memberships. -/
  | texit
  /-- TYIELD (R261). Ends the chunk and yields the sequencer or core slot to a waiting peer. -/
  | tyield
  /-- SBAR (R268). Arrives at a stand barrier and waits for the phase to advance. -/
  | sbar (d a : BitVec 6)
  /-- SARRIVE (R268). Arrives at a stand barrier at commit without waiting. -/
  | sarrive (d a : BitVec 6)
  /-- SWAIT (R268). Waits until a stand's phase differs from a given one. -/
  | swait (d a b : BitVec 6)
  /-- STEST (R268). Reads a stand's phase and the thread's arrival bit. -/
  | stest (d a : BitVec 6)
  /-- BKSTART (R369). Checks two plats, derives the traverse, writes the cursor and forks the traverse at commit. -/
  | bkstart (d a b : BitVec 6)
  /-- BKRESUME (R371). Resumes a stopped traverse from its cursor. -/
  | bkresume (d a b : BitVec 6)
  /-- BKSTAT (R372). Reports whether the parcel's active traverse uses a cursor, and its next index. -/
  | bkstat (d a : BitVec 6)
  /-- FADD (R63). Adds two scalar floating values with one rounding. -/
  | fadd (d a b : BitVec 6)
  /-- FSUB (R63). Subtracts two scalar floating values. -/
  | fsub (d a b : BitVec 6)
  /-- FMUL (R63). Multiplies two scalar floating values. -/
  | fmul (d a b : BitVec 6)
  /-- FDIV (R63). Divides two scalar floating values. -/
  | fdiv (d a b : BitVec 6)
  /-- FSQRT (R63). Writes the scalar floating square root. -/
  | fsqrt (d a : BitVec 6)
  /-- FCVT (R64). Converts a scalar from type T to mode.dtype. -/
  | fcvt (d a b : BitVec 6)
  /-- MFSR_CTAGS (R222). An mfsr of ctags reads the tag bits as an observer, joining the tagged copies and trapping on a recorded copy fault. -/
  | mfsrCtags (d : BitVec 6)
  deriving DecidableEq, Repr

end Sys2Proof
end

