-- ==== Sys2Proof/WellFormed.lean ====
section
/-! DEFINITION. What an instruction's operands must satisfy beyond their widths (R27, R36 and the instructions' own
rules). A word whose instruction is not well formed traps 0x01 (R34). -/

namespace Sys2Proof

/-- A predicate operand (R27). -/
def predOk (p : BitVec 6) : Bool := p < 16

/-- A predicate destination: p0 is none (R36). -/
def predDest (p : BitVec 6) : Bool := p < 16 && p != 0

/-- A fibre operand (R27). -/
def fibreOk (f : BitVec 6) : Bool := f < 16

/-- The system registers of R37 that mfsr names without a row of its own. -/
def sysRead (r : BitVec 12) : Bool :=
  r ≤ 0x002 || (0x008 ≤ r && r ≤ 0x00F) || r == 0x011 || r == 0x012 || r == 0x014 || (0x016 ≤ r && r ≤ 0x020)
    || (0x100 ≤ r && r ≤ 0x105) || (0x108 ≤ r && r ≤ 0x10B)

/-- The system registers of R37 that mtsr names without a row of its own. -/
def sysWrite (r : BitVec 12) : Bool :=
  r ≤ 0x001 || r == 0x011 || r == 0x014 || (0x016 ≤ r && r ≤ 0x020)
    || r == 0x100 || (0x103 ≤ r && r ≤ 0x105) || (0x108 ≤ r && r ≤ 0x10A)

/-- An arrival's data are what its packet can carry (R323), and what it writes lies in device memory. -/
def Arriving.wf (r : Arriving) : Bool :=
  r.port < 32 && r.offset < 2 ^ 39 && match r.op with
  | .load n => 1 ≤ n && n ≤ 128 && r.offset % 128 + n ≤ 128
  | .store data mask => 1 ≤ data.length && r.offset % 128 + data.length ≤ 128 && mask.length == data.length
      && mask.all fun m => m == 0 || m == 255
  | .poison n => 1 ≤ n && r.offset % 128 + n ≤ 128
  | .amo _ dword _ _ => r.offset % (if dword then 8 else 4) == 0
  | .credit post _ => r.offset % 16 == 0 && r.offset + 16 + post / 8 < 2 ^ 39

/-! The header of an extension packet (R328). -/

def ExtPacket.base (p : ExtPacket) : Nat := (p.head.extractLsb' 64 64).toNat
def ExtPacket.stride (p : ExtPacket) : Int := (p.head.extractLsb' 32 32).toInt
def ExtPacket.n (p : ExtPacket) : Nat := (p.head.extractLsb' 20 6).toNat + 1
def ExtPacket.esize (p : ExtPacket) : Nat := (p.head.extractLsb' 16 4).toNat
def ExtPacket.opCode (p : ExtPacket) : Nat := (p.head.extractLsb' 12 4).toNat
def ExtPacket.aopCode (p : ExtPacket) : Nat := (p.head.extractLsb' 8 4).toNat
def ExtPacket.form (p : ExtPacket) : Nat := (p.head.extractLsb' 4 4).toNat
def ExtPacket.reserved (p : ExtPacket) : Bool := p.head.extractLsb' 26 6 != 0 || p.head.extractLsb' 0 4 != 0

def ExtPacket.op (p : ExtPacket) : ExtOp :=
  match p.opCode with
  | 0 => .load
  | 1 => .store
  | 2 => .vamo
  | _ => .vamoRet

/-- The operation of a packet's atomics, by the codes of R209. -/
def ExtPacket.aop (p : ExtPacket) : AmoOp :=
  match p.aopCode with
  | 0 => .add
  | 1 => .and
  | 2 => .or
  | 3 => .xor
  | 4 => .min
  | 5 => .max
  | 6 => .minu
  | 7 => .maxu
  | 8 => .swap
  | _ => .fadd

/-- Where element k of an extension packet lies (R328). -/
def ExtPacket.element (p : ExtPacket) (k : Nat) : Int :=
  p.base + (if p.form = 1 then (p.offsets[k]?.getD 0).toInt else p.stride * k)

/-- What R328 asks of a packet's headers, its counts, and the place and alignment of its elements. -/
def ExtPacket.wf (p : ExtPacket) : Bool :=
  p.port < 32 && !p.reserved && p.base < 2 ^ 39 && p.esize ≤ 3 && p.opCode ≤ 3 && p.form ≤ 1
    && (if p.form = 1 then p.stride == 0 && p.offsets.length == p.n else p.offsets.isEmpty)
    && (match p.op with
        | .load => p.data.isEmpty
        | .store => p.data.length == p.n
        | .vamo | .vamoRet => p.data.length == p.n && 2 ≤ p.esize && p.aopCode ≤ 9)
    && (List.range p.n).all fun k => 0 ≤ p.element k && p.element k < 2 ^ 39 && p.element k % 2 ^ p.esize == 0

/-- Whether the operands are in range for their roles. -/
def Instr.wf : Instr → Bool
  | .loop _ l => l != 0
  | .loopr _ l => l != 0
  | .acq d a _ => a != 0 || d == 0
  | .rel a b _ => a != 0 || b == 0
  | .mfsr _ r => sysRead r
  | .mtsr _ r => sysWrite r
  | .vcmpEq d _ _ _ _ => predDest d
  | .vcmpNe d _ _ _ _ => predDest d
  | .vcmpLt d _ _ _ _ => predDest d
  | .vcmpLe d _ _ _ _ => predDest d
  | .vcmpGt d _ _ _ _ => predDest d
  | .vcmpGe d _ _ _ _ => predDest d
  | .vcmpUn d _ _ _ _ => predDest d
  | .pand d a b => predDest d && predOk a && predOk b
  | .por d a b => predDest d && predOk a && predOk b
  | .pxor d a b => predDest d && predOk a && predOk b
  | .pandn d a b => predDest d && predOk a && predOk b
  | .pnot d a => predDest d && predOk a
  | .pwhile d _ _ => predDest d
  | .pcnt _ a => predOk a
  | .pfirst _ a => predOk a
  | .vcompress _ _ b _ => predOk b
  | .vexpand _ _ b _ => predOk b
  | .fld d _ _ => fibreOk d
  | .fst d _ => fibreOk d
  | .fwalk d _ _ => fibreOk d
  | .finter d a b k => fibreOk d && fibreOk a && fibreOk b && k < 6
  | .funion d a b k => fibreOk d && fibreOk a && fibreOk b && k < 6 && d != a && d != b
  | .fmerge d a b k =>
    fibreOk d && fibreOk a && fibreOk b && k < 6 && 1 ≤ b.toNat - a.toNat && b.toNat - a.toNat ≤ 3
      && !(a ≤ d && d ≤ b)
  | .fcompact d _ b _ => fibreOk d && predOk b
  | .fexpand _ a => fibreOk a
  | .fgath d _ => fibreOk d
  | .fscat d _ => fibreOk d
  | .flen _ a => fibreOk a
  | .fclr d => fibreOk d
  | .fcopy d a => fibreOk d && fibreOk a
  | .mopSv _ _ a _ _ => a != 63
  | .mopSs _ _ a b => a != 63 && b != 63
  | .mprune _ _ b _ => predDest b
  | .fcvt _ _ b => b < 12
  | .smode d _ => 56 ≤ d
  | .fabricRequestArrival r => r.wf
  | .extensionPacketArrival p => p.wf
  | _ => true

end Sys2Proof
end

