-- ==== Sys2Proof/Decode.lean ====
section
/-! DEFINITION. Decoding and encoding of the instruction word (02, R26 to R34). Every word is decoded to an
instruction or rejected by name; what R27, R36 and the instructions' own rules say of register ranges and
combinations is Instr.wf, and a word whose instruction breaks it is illegal too (R34). -/

namespace Sys2Proof

/-- Why a word is no assigned instruction (R34). -/
inductive Reject where
  | allZero | reservedMajor | permanentlyIllegal | absentMinor | reservedField
  deriving DecidableEq, Repr

/-! The fields of the forms (R26). -/

def fOp (w : BitVec 32) : BitVec 6 := w.extractLsb' 26 6
def fD (w : BitVec 32) : BitVec 6 := w.extractLsb' 20 6
def fA (w : BitVec 32) : BitVec 6 := w.extractLsb' 14 6
def fB (w : BitVec 32) : BitVec 6 := w.extractLsb' 8 6
def fC (w : BitVec 32) : Bool := w.getLsbD 7
def fE (w : BitVec 32) : Bool := w.getLsbD 6
def fFn (w : BitVec 32) : BitVec 6 := w.extractLsb' 0 6
def fImm14 (w : BitVec 32) : BitVec 14 := w.extractLsb' 0 14
def fImm20 (w : BitVec 32) : BitVec 20 := w.extractLsb' 0 20
def fLen (w : BitVec 32) : BitVec 12 := w.extractLsb' 8 12
def fLow8 (w : BitVec 32) : BitVec 8 := w.extractLsb' 0 8
def fSub (w : BitVec 32) : BitVec 2 := w.extractLsb' 24 2
def fLow24 (w : BitVec 32) : BitVec 24 := w.extractLsb' 0 24

/-! Fields within the immediates and operand fields, as the Minor column of R32 divides them. -/

def fK2 (w : BitVec 32) : BitVec 2 := (fImm14 w).extractLsb' 12 2
def fR6 (w : BitVec 32) : BitVec 6 := (fImm14 w).extractLsb' 6 6
def fNum (w : BitVec 32) : BitVec 12 := (fImm14 w).extractLsb' 0 12
def fNumHi (w : BitVec 32) : BitVec 9 := (fNum w).extractLsb' 3 9
def fK3 (w : BitVec 32) : BitVec 3 := (fImm14 w).extractLsb' 11 3
def fOff11 (w : BitVec 32) : BitVec 11 := (fImm14 w).extractLsb' 0 11
def fFlags7 (w : BitVec 32) : BitVec 7 := (fLow8 w).extractLsb' 1 7
def fFlag (w : BitVec 32) : Bool := (fLow8 w).getLsbD 0
def fScope (w : BitVec 32) : BitVec 2 := (fFn w).extractLsb' 0 2
def fHi4 (w : BitVec 32) : BitVec 4 := (fFn w).extractLsb' 2 4
def fComb (w : BitVec 32) : BitVec 3 := (fFn w).extractLsb' 3 3
def fLow3 (w : BitVec 32) : BitVec 3 := (fFn w).extractLsb' 0 3
def fP (w : BitVec 32) : BitVec 4 := (fD w).extractLsb' 2 4
def fT (w : BitVec 32) : BitVec 2 := (fD w).extractLsb' 0 2
def fTop3 (w : BitVec 32) : BitVec 3 := (fD w).extractLsb' 3 3
def fMem (w : BitVec 32) : Bool := (fD w).getLsbD 2
def fN5 (w : BitVec 32) : BitVec 5 := (fLow24 w).extractLsb' 19 5
def fOff19 (w : BitVec 32) : BitVec 19 := (fLow24 w).extractLsb' 0 19
def fV (w : BitVec 32) : BitVec 6 := (fLow24 w).extractLsb' 18 6
def fOff18 (w : BitVec 32) : BitVec 18 := (fLow24 w).extractLsb' 0 18

/-! The mode word (R26, form M). -/

def fGuard (w : BitVec 32) : BitVec 4 := w.extractLsb' 22 4
def fStype (w : BitVec 32) : BitVec 5 := w.extractLsb' 17 5
def fRnd (w : BitVec 32) : BitVec 3 := w.extractLsb' 14 3
def fSat (w : BitVec 32) : Bool := w.getLsbD 13
def fScale (w : BitVec 32) : BitVec 6 := w.extractLsb' 7 6
def fBlk (w : BitVec 32) : BitVec 2 := w.extractLsb' 5 2
def fLow5 (w : BitVec 32) : BitVec 5 := w.extractLsb' 0 5

/-- An instruction whose reserved fields must be zero (R34). -/
def want (ok : Bool) (i : Instr) : Except Reject Instr :=
  if ok then .ok i else .error .reservedField

/-- Major 0x00 (R32). -/
noncomputable def decodeSystem (w : BitVec 32) : Except Reject Instr :=
  match fFn w with
  | 0x01#6 => want (fD w == 0 && fA w == 0 && fB w == 0 && !fC w && !fE w) (.ecall)
  | 0x02#6 => want (fD w == 0 && fA w == 0 && fB w == 0 && !fC w && !fE w) (.eret)
  | 0x03#6 => want (fD w == 0 && fB w == 0 && !fC w && !fE w) (.tlbi (fA w))
  | 0x04#6 => want (fD w == 0 && fA w == 0 && fB w == 0 && !fC w && !fE w) (.tlbia)
  | 0x05#6 => want (fD w == 0 && fA w == 0 && fB w == 0 && !fC w && !fE w) (.pkset)
  | 0x06#6 => want (fD w == 0 && fA w == 0 && fB w == 0 && !fC w && !fE w) (.pkclr)
  | 0x07#6 => want (fD w == 0 && fA w == 0 && fB w == 0 && !fC w && !fE w) (.pause)
  | 0x08#6 => want (fD w == 0 && fA w == 0 && fB w == 0 && !fC w && !fE w) (.nop)
  | _ => .error .absentMinor

/-- Major 0x02 (R32). -/
noncomputable def decodeAlu (w : BitVec 32) : Except Reject Instr :=
  match fFn w with
  | 0x00#6 => want (!fC w && !fE w) (.add (fD w) (fA w) (fB w))
  | 0x01#6 => want (!fC w && !fE w) (.sub (fD w) (fA w) (fB w))
  | 0x02#6 => want (!fC w && !fE w) (.and (fD w) (fA w) (fB w))
  | 0x03#6 => want (!fC w && !fE w) (.or (fD w) (fA w) (fB w))
  | 0x04#6 => want (!fC w && !fE w) (.xor (fD w) (fA w) (fB w))
  | 0x05#6 => want (!fC w && !fE w) (.sll (fD w) (fA w) (fB w))
  | 0x06#6 => want (!fC w && !fE w) (.srl (fD w) (fA w) (fB w))
  | 0x07#6 => want (!fC w && !fE w) (.sra (fD w) (fA w) (fB w))
  | 0x08#6 => want (!fC w && !fE w) (.slt (fD w) (fA w) (fB w))
  | 0x09#6 => want (!fC w && !fE w) (.sltu (fD w) (fA w) (fB w))
  | 0x0a#6 => want (!fC w && !fE w) (.mul (fD w) (fA w) (fB w))
  | 0x0b#6 => want (!fC w && !fE w) (.mulh (fD w) (fA w) (fB w))
  | 0x0c#6 => want (!fC w && !fE w) (.mulhu (fD w) (fA w) (fB w))
  | 0x0d#6 => want (!fC w && !fE w) (.div (fD w) (fA w) (fB w))
  | 0x0e#6 => want (!fC w && !fE w) (.divu (fD w) (fA w) (fB w))
  | 0x0f#6 => want (!fC w && !fE w) (.rem (fD w) (fA w) (fB w))
  | 0x10#6 => want (!fC w && !fE w) (.remu (fD w) (fA w) (fB w))
  | 0x11#6 => want (!fC w && !fE w) (.min (fD w) (fA w) (fB w))
  | 0x12#6 => want (!fC w && !fE w) (.max (fD w) (fA w) (fB w))
  | 0x13#6 => want (!fC w && !fE w) (.minu (fD w) (fA w) (fB w))
  | 0x14#6 => want (!fC w && !fE w) (.maxu (fD w) (fA w) (fB w))
  | _ => .error .absentMinor

/-- Major 0x07 (R32). -/
noncomputable def decodeShift (w : BitVec 32) : Except Reject Instr :=
  if fR6 w == 0 then
    match fK2 w with
    | 0x0#2 => .ok (.slli (fD w) (fA w) (fFn w))
    | 0x1#2 => .ok (.srli (fD w) (fA w) (fFn w))
    | 0x2#2 => .ok (.srai (fD w) (fA w) (fFn w))
    | _ => .error .absentMinor
  else .error .reservedField

/-- Major 0x12 (R32). -/
noncomputable def decodeLoop (w : BitVec 32) : Except Reject Instr :=
  if fFlags7 w == 0 then (if fFlag w then .ok (.loopr (fD w) (fLen w)) else .ok (.loop (fD w) (fLen w))) else .error .reservedField

/-- Major 0x13 (R32). -/
noncomputable def decodeVp (w : BitVec 32) : Except Reject Instr :=
  match fSub w with
  | 0x0#2 => .ok (.vfetch (fN5 w) (fOff19 w))
  | 0x1#2 => .ok (.vpbr (fV w) (fOff18 w))
  | 0x2#2 => want (fLow24 w == 0) .vpstop
  | _ => want (fLow24 w == 0) .vpsync

/-- Major 0x14 (R32). -/
noncomputable def decodeLoad (w : BitVec 32) : Except Reject Instr :=
  match fK3 w with
  | 0x0#3 => .ok (.ldB (fD w) (fA w) (fOff11 w))
  | 0x1#3 => .ok (.ldH (fD w) (fA w) (fOff11 w))
  | 0x2#3 => .ok (.ldW (fD w) (fA w) (fOff11 w))
  | 0x3#3 => .ok (.ldD (fD w) (fA w) (fOff11 w))
  | 0x4#3 => .ok (.ldBu (fD w) (fA w) (fOff11 w))
  | 0x5#3 => .ok (.ldHu (fD w) (fA w) (fOff11 w))
  | 0x6#3 => .ok (.ldWu (fD w) (fA w) (fOff11 w))
  | _ => .error .absentMinor

/-- Major 0x15 (R32). -/
noncomputable def decodeStore (w : BitVec 32) : Except Reject Instr :=
  match fK3 w with
  | 0x0#3 => .ok (.stB (fD w) (fA w) (fOff11 w))
  | 0x1#3 => .ok (.stH (fD w) (fA w) (fOff11 w))
  | 0x2#3 => .ok (.stW (fD w) (fA w) (fOff11 w))
  | 0x3#3 => .ok (.stD (fD w) (fA w) (fOff11 w))
  | _ => .error .absentMinor

/-- Major 0x16 (R32). -/
noncomputable def decodeAmo (w : BitVec 32) : Except Reject Instr :=
  if fE w then .error .reservedField else
  match fFn w with
  | 0x00#6 => .ok (.amoAdd (fD w) (fA w) (fB w) (fC w))
  | 0x01#6 => .ok (.amoAnd (fD w) (fA w) (fB w) (fC w))
  | 0x02#6 => .ok (.amoOr (fD w) (fA w) (fB w) (fC w))
  | 0x03#6 => .ok (.amoXor (fD w) (fA w) (fB w) (fC w))
  | 0x04#6 => .ok (.amoMin (fD w) (fA w) (fB w) (fC w))
  | 0x05#6 => .ok (.amoMax (fD w) (fA w) (fB w) (fC w))
  | 0x06#6 => .ok (.amoMinu (fD w) (fA w) (fB w) (fC w))
  | 0x07#6 => .ok (.amoMaxu (fD w) (fA w) (fB w) (fC w))
  | 0x08#6 => .ok (.amoSwap (fD w) (fA w) (fB w) (fC w))
  | 0x09#6 => .ok (.amoFadd (fD w) (fA w) (fB w) (fC w))
  | 0x10#6 => .ok (.cas (fD w) (fA w) (fB w) (fC w))
  | _ => .error .absentMinor

/-- Major 0x17 (R32). -/
noncomputable def decodeFence (w : BitVec 32) : Except Reject Instr :=
  if fC w || fE w then .error .reservedField else
  match fHi4 w with
  | 0x0#4 => want (fD w == 0 && fA w == 0 && fB w == 0) (.fence (fScope w))
  | 0x1#4 => want (fB w == 0) (.acq (fD w) (fA w) (fScope w))
  | 0x2#4 => want (fD w == 0) (.rel (fA w) (fB w) (fScope w))
  | 0x3#4 => if fScope w == 0 then want (fD w == 0 && fB w == 0) (.pref (fA w)) else .error .absentMinor
  | _ => .error .absentMinor

/-- Major 0x18 (R32). -/
noncomputable def decodeVl (w : BitVec 32) : Except Reject Instr :=
  match fK2 w with
  | 0x0#2 => want (fNum w == 0) (.setvl (fD w) (fA w))
  | 0x1#2 => want (fA w == 0) (.setvli (fD w) (fNum w))
  | 0x2#2 =>
    want (fA w == 0)
      (if fNum w == 0x010 then .mfsrFflags (fD w)
       else if fNum w == 0x013 then .mfsrCtags (fD w)
       else if fNum w == 0x015 then .mfsrMsat (fD w)
       else .mfsr (fD w) (fNum w))
  | _ =>
    want (fD w == 0)
      (if fNum w == 0x002 then .mtsrMode (fA w)
       else if fNumHi w == 0x001 then .mtsrFmt (fA w) (fLow3 w)
       else if fNum w == 0x010 then .mtsrFflags (fA w)
       else if fNum w == 0x012 then .mtsrFprog (fA w)
       else if fNum w == 0x013 then .mtsrCtags (fA w)
       else if fNum w == 0x015 then .mtsrMsat (fA w)
       else if fNum w == 0x101 then .mtsrPtroot (fA w)
       else if fNum w == 0x102 then .mtsrTrapvec (fA w)
       else if fNum w == 0x10B then .mtsrPshare (fA w)
       else .mtsr (fA w) (fNum w))

/-- Major 0x1a (R32). -/
noncomputable def decodeVAdd (w : BitVec 32) : Except Reject Instr :=
  match fFn w with
  | 0x00#6 => .ok (.vadd (fD w) (fA w) (fB w) (fC w) (fE w))
  | 0x01#6 => .ok (.vsub (fD w) (fA w) (fB w) (fC w) (fE w))
  | 0x02#6 => .ok (.vmul (fD w) (fA w) (fB w) (fC w) (fE w))
  | 0x03#6 => .ok (.vmulh (fD w) (fA w) (fB w) (fC w) (fE w))
  | 0x04#6 => .ok (.vmacc (fD w) (fA w) (fB w) (fC w) (fE w))
  | 0x20#6 => want (!fE w) (.vaddVx (fD w) (fA w) (fB w) (fC w))
  | 0x21#6 => want (!fE w) (.vsubVx (fD w) (fA w) (fB w) (fC w))
  | 0x22#6 => want (!fE w) (.vmulVx (fD w) (fA w) (fB w) (fC w))
  | 0x23#6 => want (!fE w) (.vmulhVx (fD w) (fA w) (fB w) (fC w))
  | 0x24#6 => want (!fE w) (.vmaccVx (fD w) (fA w) (fB w) (fC w))
  | _ => .error .absentMinor

/-- Major 0x1b (R32). -/
noncomputable def decodeVDiv (w : BitVec 32) : Except Reject Instr :=
  match fFn w with
  | 0x00#6 => .ok (.vdiv (fD w) (fA w) (fB w) (fC w) (fE w))
  | 0x01#6 => .ok (.vrem (fD w) (fA w) (fB w) (fC w) (fE w))
  | 0x20#6 => want (!fE w) (.vdivVx (fD w) (fA w) (fB w) (fC w))
  | 0x21#6 => want (!fE w) (.vremVx (fD w) (fA w) (fB w) (fC w))
  | _ => .error .absentMinor

/-- Major 0x1c (R32). -/
noncomputable def decodeVMin (w : BitVec 32) : Except Reject Instr :=
  match fFn w with
  | 0x00#6 => .ok (.vmin (fD w) (fA w) (fB w) (fC w) (fE w))
  | 0x01#6 => .ok (.vmax (fD w) (fA w) (fB w) (fC w) (fE w))
  | 0x20#6 => want (!fE w) (.vminVx (fD w) (fA w) (fB w) (fC w))
  | 0x21#6 => want (!fE w) (.vmaxVx (fD w) (fA w) (fB w) (fC w))
  | _ => .error .absentMinor

/-- Major 0x1d (R32). -/
noncomputable def decodeVLogic (w : BitVec 32) : Except Reject Instr :=
  match fFn w with
  | 0x00#6 => .ok (.vand (fD w) (fA w) (fB w) (fC w) (fE w))
  | 0x01#6 => .ok (.vor (fD w) (fA w) (fB w) (fC w) (fE w))
  | 0x02#6 => .ok (.vxor (fD w) (fA w) (fB w) (fC w) (fE w))
  | 0x20#6 => want (!fE w) (.vandVx (fD w) (fA w) (fB w) (fC w))
  | 0x21#6 => want (!fE w) (.vorVx (fD w) (fA w) (fB w) (fC w))
  | 0x22#6 => want (!fE w) (.vxorVx (fD w) (fA w) (fB w) (fC w))
  | _ => .error .absentMinor

/-- Major 0x1e (R32). -/
noncomputable def decodeVShift (w : BitVec 32) : Except Reject Instr :=
  match fFn w with
  | 0x00#6 => .ok (.vsll (fD w) (fA w) (fB w) (fC w) (fE w))
  | 0x01#6 => .ok (.vsrl (fD w) (fA w) (fB w) (fC w) (fE w))
  | 0x02#6 => .ok (.vsra (fD w) (fA w) (fB w) (fC w) (fE w))
  | 0x20#6 => want (!fE w) (.vsllVx (fD w) (fA w) (fB w) (fC w))
  | 0x21#6 => want (!fE w) (.vsrlVx (fD w) (fA w) (fB w) (fC w))
  | 0x22#6 => want (!fE w) (.vsraVx (fD w) (fA w) (fB w) (fC w))
  | _ => .error .absentMinor

/-- Major 0x1f (R32). -/
noncomputable def decodeVRng (w : BitVec 32) : Except Reject Instr :=
  match fFn w with
  | 0x00#6 => want (fB w == 0 && !fC w && !fE w) (.vrng (fD w) (fA w))
  | _ => .error .absentMinor

/-- Major 0x20 (R32). -/
noncomputable def decodeVFAdd (w : BitVec 32) : Except Reject Instr :=
  match fFn w with
  | 0x00#6 => .ok (.vfadd (fD w) (fA w) (fB w) (fC w) (fE w))
  | 0x01#6 => .ok (.vfsub (fD w) (fA w) (fB w) (fC w) (fE w))
  | 0x02#6 => .ok (.vfmul (fD w) (fA w) (fB w) (fC w) (fE w))
  | 0x20#6 => want (!fE w) (.vfaddVx (fD w) (fA w) (fB w) (fC w))
  | 0x21#6 => want (!fE w) (.vfsubVx (fD w) (fA w) (fB w) (fC w))
  | 0x22#6 => want (!fE w) (.vfmulVx (fD w) (fA w) (fB w) (fC w))
  | _ => .error .absentMinor

/-- Major 0x21 (R32). -/
noncomputable def decodeVFma (w : BitVec 32) : Except Reject Instr :=
  match fFn w with
  | 0x00#6 => .ok (.vfma (fD w) (fA w) (fB w) (fC w) (fE w))
  | 0x01#6 => .ok (.vfms (fD w) (fA w) (fB w) (fC w) (fE w))
  | 0x02#6 => .ok (.vfnma (fD w) (fA w) (fB w) (fC w) (fE w))
  | 0x03#6 => .ok (.vfnms (fD w) (fA w) (fB w) (fC w) (fE w))
  | 0x20#6 => want (!fE w) (.vfmaVx (fD w) (fA w) (fB w) (fC w))
  | 0x21#6 => want (!fE w) (.vfmsVx (fD w) (fA w) (fB w) (fC w))
  | 0x22#6 => want (!fE w) (.vfnmaVx (fD w) (fA w) (fB w) (fC w))
  | 0x23#6 => want (!fE w) (.vfnmsVx (fD w) (fA w) (fB w) (fC w))
  | _ => .error .absentMinor

/-- Major 0x22 (R32). -/
noncomputable def decodeVFDiv (w : BitVec 32) : Except Reject Instr :=
  match fFn w with
  | 0x00#6 => .ok (.vfdiv (fD w) (fA w) (fB w) (fC w) (fE w))
  | 0x01#6 => want (fB w == 0 && !fE w) (.vfsqrt (fD w) (fA w) (fC w))
  | 0x02#6 => want (fB w == 0 && !fE w) (.vfrec (fD w) (fA w) (fC w))
  | 0x20#6 => want (!fE w) (.vfdivVx (fD w) (fA w) (fB w) (fC w))
  | _ => .error .absentMinor

/-- Major 0x23 (R32). -/
noncomputable def decodeVFMin (w : BitVec 32) : Except Reject Instr :=
  match fFn w with
  | 0x00#6 => .ok (.vfmin (fD w) (fA w) (fB w) (fC w) (fE w))
  | 0x01#6 => .ok (.vfmax (fD w) (fA w) (fB w) (fC w) (fE w))
  | 0x02#6 => want (fB w == 0 && !fE w) (.vfabs (fD w) (fA w) (fC w))
  | 0x03#6 => want (fB w == 0 && !fE w) (.vfneg (fD w) (fA w) (fC w))
  | 0x20#6 => want (!fE w) (.vfminVx (fD w) (fA w) (fB w) (fC w))
  | 0x21#6 => want (!fE w) (.vfmaxVx (fD w) (fA w) (fB w) (fC w))
  | _ => .error .absentMinor

/-- Major 0x24 (R32). -/
noncomputable def decodeVFRint (w : BitVec 32) : Except Reject Instr :=
  match fFn w with
  | 0x00#6 => want (fB w == 0 && !fE w) (.vfrint (fD w) (fA w) (fC w))
  | 0x01#6 => want (fB w == 0 && !fE w) (.vfexp2 (fD w) (fA w) (fC w))
  | 0x02#6 => .ok (.vfscale (fD w) (fA w) (fB w) (fC w) (fE w))
  | 0x22#6 => want (!fE w) (.vfscaleVx (fD w) (fA w) (fB w) (fC w))
  | _ => .error .absentMinor

/-- Major 0x25 (R32). -/
noncomputable def decodeVFClass (w : BitVec 32) : Except Reject Instr :=
  match fFn w with
  | 0x00#6 => want (fB w == 0 && !fE w) (.vfclass (fD w) (fA w) (fC w))
  | _ => .error .absentMinor

/-- Major 0x26 (R32). -/
noncomputable def decodePred (w : BitVec 32) : Except Reject Instr :=
  match fFn w with
  | 0x00#6 => .ok (.vcmpEq (fD w) (fA w) (fB w) (fC w) (fE w))
  | 0x01#6 => .ok (.vcmpNe (fD w) (fA w) (fB w) (fC w) (fE w))
  | 0x02#6 => .ok (.vcmpLt (fD w) (fA w) (fB w) (fC w) (fE w))
  | 0x03#6 => .ok (.vcmpLe (fD w) (fA w) (fB w) (fC w) (fE w))
  | 0x04#6 => .ok (.vcmpGt (fD w) (fA w) (fB w) (fC w) (fE w))
  | 0x05#6 => .ok (.vcmpGe (fD w) (fA w) (fB w) (fC w) (fE w))
  | 0x06#6 => .ok (.vcmpUn (fD w) (fA w) (fB w) (fC w) (fE w))
  | 0x10#6 => want (!fC w && !fE w) (.pand (fD w) (fA w) (fB w))
  | 0x11#6 => want (!fC w && !fE w) (.por (fD w) (fA w) (fB w))
  | 0x12#6 => want (!fC w && !fE w) (.pxor (fD w) (fA w) (fB w))
  | 0x13#6 => want (!fC w && !fE w) (.pandn (fD w) (fA w) (fB w))
  | 0x14#6 => want (fB w == 0 && !fC w && !fE w) (.pnot (fD w) (fA w))
  | 0x15#6 => want (!fC w && !fE w) (.pwhile (fD w) (fA w) (fB w))
  | 0x16#6 => want (fB w == 0 && !fC w && !fE w) (.pcnt (fD w) (fA w))
  | 0x17#6 => want (fB w == 0 && !fC w && !fE w) (.pfirst (fD w) (fA w))
  | _ => .error .absentMinor

/-- Major 0x27 (R32). -/
noncomputable def decodeConvert (w : BitVec 32) : Except Reject Instr :=
  match fFn w with
  | 0x00#6 => want (fB w == 0 && !fE w) (.vcvt (fD w) (fA w) (fC w))
  | 0x01#6 => want (fB w == 0 && !fE w) (.vqnt (fD w) (fA w) (fC w))
  | 0x02#6 => want (fB w == 0 && !fE w) (.vdqnt (fD w) (fA w) (fC w))
  | 0x03#6 => want (fB w == 0 && !fE w) (.vbscale (fD w) (fA w) (fC w))
  | 0x04#6 => want (fB w == 0 && !fE w) (.vbsmax (fD w) (fA w) (fC w))
  | _ => .error .absentMinor

/-- Major 0x28 (R32). -/
noncomputable def decodeReduce (w : BitVec 32) : Except Reject Instr :=
  match fFn w with
  | 0x00#6 => want (!fE w) (.vredo (fD w) (fA w) (fB w) (fC w))
  | 0x01#6 => want (!fE w) (.vredt (fD w) (fA w) (fB w) (fC w))
  | 0x02#6 => want (!fE w) (.vredmin (fD w) (fA w) (fB w) (fC w))
  | 0x03#6 => want (!fE w) (.vredmax (fD w) (fA w) (fB w) (fC w))
  | _ => .error .absentMinor

/-- Major 0x29 (R32). -/
noncomputable def decodePermute (w : BitVec 32) : Except Reject Instr :=
  match fFn w with
  | 0x00#6 => want (!fE w) (.vslideup (fD w) (fA w) (fB w) (fC w))
  | 0x01#6 => want (!fE w) (.vslidedn (fD w) (fA w) (fB w) (fC w))
  | 0x02#6 => .ok (.vgath (fD w) (fA w) (fB w) (fC w) (fE w))
  | 0x03#6 => want (!fE w) (.vcompress (fD w) (fA w) (fB w) (fC w))
  | 0x04#6 => want (!fE w) (.vexpand (fD w) (fA w) (fB w) (fC w))
  | 0x05#6 => want (fB w == 0 && !fC w && !fE w) (.vbcast (fD w) (fA w))
  | 0x06#6 => want (!fE w) (.vext (fD w) (fA w) (fB w) (fC w))
  | 0x07#6 => want (!fC w && !fE w) (.vins (fD w) (fA w) (fB w))
  | 0x08#6 => want (fB w == 0 && !fE w) (.vmv (fD w) (fA w) (fC w))
  | _ => .error .absentMinor

/-- Major 0x2a (R32). -/
noncomputable def decodeVLoad (w : BitVec 32) : Except Reject Instr :=
  match fFn w with
  | 0x00#6 => want (fB w == 0 && !fC w && !fE w) (.vld (fD w) (fA w))
  | 0x01#6 => want (!fC w && !fE w) (.vldS (fD w) (fA w) (fB w))
  | 0x02#6 => want (!fC w) (.vldX (fD w) (fA w) (fB w) (fE w))
  | _ => .error .absentMinor

/-- Major 0x2b (R32). -/
noncomputable def decodeVStore (w : BitVec 32) : Except Reject Instr :=
  match fFn w with
  | 0x00#6 => want (fB w == 0 && !fC w && !fE w) (.vst (fD w) (fA w))
  | 0x01#6 => want (!fC w && !fE w) (.vstS (fD w) (fA w) (fB w))
  | 0x02#6 => want (!fC w) (.vstX (fD w) (fA w) (fB w) (fE w))
  | _ => .error .absentMinor

/-- Major 0x2c (R32). -/
noncomputable def decodeVAmo (w : BitVec 32) : Except Reject Instr :=
  match fFn w with
  | 0x00#6 => want (!fC w) (.vamoAdd (fD w) (fA w) (fB w) (fE w))
  | 0x01#6 => want (!fC w) (.vamoAnd (fD w) (fA w) (fB w) (fE w))
  | 0x02#6 => want (!fC w) (.vamoOr (fD w) (fA w) (fB w) (fE w))
  | 0x03#6 => want (!fC w) (.vamoXor (fD w) (fA w) (fB w) (fE w))
  | 0x04#6 => want (!fC w) (.vamoMin (fD w) (fA w) (fB w) (fE w))
  | 0x05#6 => want (!fC w) (.vamoMax (fD w) (fA w) (fB w) (fE w))
  | 0x06#6 => want (!fC w) (.vamoMinu (fD w) (fA w) (fB w) (fE w))
  | 0x07#6 => want (!fC w) (.vamoMaxu (fD w) (fA w) (fB w) (fE w))
  | 0x08#6 => want (!fC w) (.vamoSwap (fD w) (fA w) (fB w) (fE w))
  | 0x09#6 => want (!fC w) (.vamoFadd (fD w) (fA w) (fB w) (fE w))
  | 0x20#6 => want (!fC w) (.vamoAddRet (fD w) (fA w) (fB w) (fE w))
  | 0x21#6 => want (!fC w) (.vamoAndRet (fD w) (fA w) (fB w) (fE w))
  | 0x22#6 => want (!fC w) (.vamoOrRet (fD w) (fA w) (fB w) (fE w))
  | 0x23#6 => want (!fC w) (.vamoXorRet (fD w) (fA w) (fB w) (fE w))
  | 0x24#6 => want (!fC w) (.vamoMinRet (fD w) (fA w) (fB w) (fE w))
  | 0x25#6 => want (!fC w) (.vamoMaxRet (fD w) (fA w) (fB w) (fE w))
  | 0x26#6 => want (!fC w) (.vamoMinuRet (fD w) (fA w) (fB w) (fE w))
  | 0x27#6 => want (!fC w) (.vamoMaxuRet (fD w) (fA w) (fB w) (fE w))
  | 0x28#6 => want (!fC w) (.vamoSwapRet (fD w) (fA w) (fB w) (fE w))
  | 0x29#6 => want (!fC w) (.vamoFaddRet (fD w) (fA w) (fB w) (fE w))
  | _ => .error .absentMinor

/-- Major 0x2d (R32). -/
noncomputable def decodeVDrain (w : BitVec 32) : Except Reject Instr :=
  match fFn w with
  | 0x00#6 => want (fD w == 0 && fA w == 0 && fB w == 0 && !fC w && !fE w) (.vdrain)
  | 0x01#6 => want (fD w == 0 && fB w == 0 && !fC w && !fE w) (.vpref (fA w))
  | _ => .error .absentMinor

/-- Major 0x2e (R32). -/
noncomputable def decodeFibreMem (w : BitVec 32) : Except Reject Instr :=
  match fFn w with
  | 0x00#6 => want (!fC w && !fE w) (.fld (fD w) (fA w) (fB w))
  | 0x01#6 => want (fB w == 0 && !fC w && !fE w) (.fst (fD w) (fA w))
  | 0x02#6 => want (!fC w && !fE w) (.fwalk (fD w) (fA w) (fB w))
  | _ => .error .absentMinor

/-- Major 0x2f (R32). -/
noncomputable def decodeJoin (w : BitVec 32) : Except Reject Instr :=
  if fC w || fE w then .error .reservedField else
  match fLow3 w with
  | 0x0#3 => if fComb w == 6 || fComb w == 7 then .error .absentMinor else .ok (.finter (fD w) (fA w) (fB w) (fComb w))
  | 0x1#3 => if fComb w == 6 || fComb w == 7 then .error .absentMinor else .ok (.funion (fD w) (fA w) (fB w) (fComb w))
  | 0x2#3 => if fComb w == 6 || fComb w == 7 then .error .absentMinor else .ok (.fmerge (fD w) (fA w) (fB w) (fComb w))
  | _ => .error .absentMinor

/-- Major 0x30 (R32). -/
noncomputable def decodeFibreDense (w : BitVec 32) : Except Reject Instr :=
  match fFn w with
  | 0x00#6 => want (!fE w) (.fcompact (fD w) (fA w) (fB w) (fC w))
  | 0x01#6 => want (fB w == 0 && !fC w && !fE w) (.fexpand (fD w) (fA w))
  | 0x02#6 => want (fB w == 0 && !fC w && !fE w) (.fgath (fD w) (fA w))
  | 0x03#6 => want (fB w == 0 && !fC w && !fE w) (.fscat (fD w) (fA w))
  | _ => .error .absentMinor

/-- Major 0x31 (R32). -/
noncomputable def decodeFibreHouse (w : BitVec 32) : Except Reject Instr :=
  match fFn w with
  | 0x00#6 => want (fB w == 0 && !fC w && !fE w) (.flen (fD w) (fA w))
  | 0x01#6 => want (fA w == 0 && fB w == 0 && !fC w && !fE w) (.fclr (fD w))
  | 0x02#6 => want (fB w == 0 && !fC w && !fE w) (.fcopy (fD w) (fA w))
  | _ => .error .absentMinor

/-- Major 0x32 (R32). -/
noncomputable def decodeAttach (w : BitVec 32) : Except Reject Instr :=
  match fFn w with
  | 0x00#6 => want (fB w == 0 && !fC w && !fE w) (.mattach (fD w) (fA w))
  | 0x01#6 => want (fD w == 0 && fA w == 0 && fB w == 0 && !fC w && !fE w) (.mdetach)
  | 0x02#6 => want (fB w == 0 && !fC w && !fE w) (.mmode (fD w) (fA w))
  | _ => .error .absentMinor

/-- Major 0x33 (R32). -/
noncomputable def decodeMop (w : BitVec 32) : Except Reject Instr :=
  match fFn w with
  | 0x00#6 => want (fP w == 0 && fA w == 0 && fB w == 0 && !fC w && !fE w) (.mzero (fT w))
  | 0x01#6 => .ok (.mopVv (fP w) (fT w) (fA w) (fB w) (fC w) (fE w))
  | 0x02#6 => want (!fC w) (.mopSv (fP w) (fT w) (fA w) (fB w) (fE w))
  | 0x03#6 => want (!fC w && !fE w) (.mopSs (fP w) (fT w) (fA w) (fB w))
  | _ => .error .absentMinor

/-- Major 0x34 (R32). -/
noncomputable def decodeTileMove (w : BitVec 32) : Except Reject Instr :=
  if fTop3 w != 0 || fE w then .error .reservedField else
  match fFn w with
  | 0x00#6 => if fMem w then want (!fC w) (.mldaS (fT w) (fA w) (fB w)) else .ok (.mldaV (fT w) (fA w) (fB w) (fC w))
  | 0x01#6 => want (!fC w) (if fMem w then .mstaS (fT w) (fA w) (fB w) else .mstaV (fT w) (fA w) (fB w))
  | _ => .error .absentMinor

/-- Major 0x35 (R32). -/
noncomputable def decodePrune (w : BitVec 32) : Except Reject Instr :=
  match fFn w with
  | 0x00#6 => want (!fE w) (.mprune (fD w) (fA w) (fB w) (fC w))
  | _ => .error .absentMinor

/-- Major 0x36 (R32). -/
noncomputable def decodeCopy (w : BitVec 32) : Except Reject Instr :=
  match fFn w with
  | 0x00#6 => want (!fC w && !fE w) (.cpy (fD w) (fA w) (fB w))
  | 0x01#6 => want (!fC w && !fE w) (.cpym (fD w) (fA w) (fB w))
  | 0x02#6 => want (fB w == 0 && !fC w && !fE w) (.smode (fD w) (fA w))
  | 0x03#6 => want (fA w == 0 && fB w == 0 && !fC w && !fE w) (.sstop (fD w))
  | _ => .error .absentMinor

/-- Major 0x37 (R32). -/
noncomputable def decodeTags (w : BitVec 32) : Except Reject Instr :=
  match fFn w with
  | 0x00#6 => want (fB w == 0 && !fC w && !fE w) (.twaitAny (fD w) (fA w))
  | 0x01#6 => want (fB w == 0 && !fC w && !fE w) (.twaitAll (fD w) (fA w))
  | 0x02#6 => want (fB w == 0 && !fC w && !fE w) (.tffr (fD w) (fA w))
  | 0x03#6 => want (fD w == 0 && !fC w && !fE w) (.barinit (fA w) (fB w))
  | 0x04#6 => want (fD w == 0 && !fC w && !fE w) (.barexp (fA w) (fB w))
  | 0x05#6 => want (fB w == 0 && !fC w && !fE w) (.bararr (fD w) (fA w))
  | 0x06#6 => want (!fC w && !fE w) (.barwait (fD w) (fA w) (fB w))
  | _ => .error .absentMinor

/-- Major 0x38 (R32). -/
noncomputable def decodeRange (w : BitVec 32) : Except Reject Instr :=
  match fFn w with
  | 0x00#6 => want (fD w == 0 && !fC w && !fE w) (.rwb (fA w) (fB w))
  | 0x01#6 => want (fD w == 0 && !fC w && !fE w) (.rinv (fA w) (fB w))
  | 0x02#6 => want (fB w == 0 && !fC w && !fE w) (.rgndecl (fD w) (fA w))
  | 0x03#6 => want (fD w == 0 && fB w == 0 && !fC w && !fE w) (.rgnfree (fA w))
  | 0x04#6 => want (fB w == 0 && !fC w && !fE w) (.cways (fD w) (fA w))
  | 0x05#6 => want (fD w == 0 && !fC w && !fE w) (.live (fA w) (fB w))
  | 0x06#6 => want (fD w == 0 && !fC w && !fE w) (.dead (fA w) (fB w))
  | _ => .error .absentMinor

/-- Major 0x39 (R32). -/
noncomputable def decodeChunk (w : BitVec 32) : Except Reject Instr :=
  match fFn w with
  | 0x00#6 => want (fD w == 0 && fA w == 0 && fB w == 0 && !fC w && !fE w) (.chkbeg)
  | 0x01#6 => want (fD w == 0 && fA w == 0 && fB w == 0 && !fC w && !fE w) (.chkend)
  | 0x02#6 => want (fA w == 0 && fB w == 0 && !fC w && !fE w) (.chkstat (fD w))
  | _ => .error .absentMinor

/-- Major 0x3a (R32). -/
noncomputable def decodeThread (w : BitVec 32) : Except Reject Instr :=
  match fFn w with
  | 0x00#6 => want (fB w == 0 && !fC w && !fE w) (.launch (fD w) (fA w))
  | 0x01#6 => want (fD w == 0 && fA w == 0 && fB w == 0 && !fC w && !fE w) (.texit)
  | 0x02#6 => want (fD w == 0 && fA w == 0 && fB w == 0 && !fC w && !fE w) (.tyield)
  | 0x03#6 => want (fB w == 0 && !fC w && !fE w) (.sbar (fD w) (fA w))
  | 0x04#6 => want (fB w == 0 && !fC w && !fE w) (.sarrive (fD w) (fA w))
  | 0x05#6 => want (!fC w && !fE w) (.swait (fD w) (fA w) (fB w))
  | 0x06#6 => want (fB w == 0 && !fC w && !fE w) (.stest (fD w) (fA w))
  | _ => .error .absentMinor

/-- Major 0x3b (R32). -/
noncomputable def decodeBucking (w : BitVec 32) : Except Reject Instr :=
  match fFn w with
  | 0x00#6 => want (!fC w && !fE w) (.bkstart (fD w) (fA w) (fB w))
  | 0x01#6 => want (!fC w && !fE w) (.bkresume (fD w) (fA w) (fB w))
  | 0x02#6 => want (fB w == 0 && !fC w && !fE w) (.bkstat (fD w) (fA w))
  | _ => .error .absentMinor

/-- Major 0x3c (R32). -/
noncomputable def decodeFloat (w : BitVec 32) : Except Reject Instr :=
  match fFn w with
  | 0x00#6 => want (!fC w && !fE w) (.fadd (fD w) (fA w) (fB w))
  | 0x01#6 => want (!fC w && !fE w) (.fsub (fD w) (fA w) (fB w))
  | 0x02#6 => want (!fC w && !fE w) (.fmul (fD w) (fA w) (fB w))
  | 0x03#6 => want (!fC w && !fE w) (.fdiv (fD w) (fA w) (fB w))
  | 0x04#6 => want (fB w == 0 && !fC w && !fE w) (.fsqrt (fD w) (fA w))
  | 0x05#6 => want (!fC w && !fE w) (.fcvt (fD w) (fA w) (fB w))
  | _ => .error .absentMinor

/-- The instruction a word holds (R26, R32, R34): the major alone decides the form. -/
noncomputable def decode (w : BitVec 32) : Except Reject Instr :=
  if w == 0 then .error .allZero else
  match fOp w with
  | 0x00#6 => decodeSystem w
  | 0x01#6 => .ok (.mode (fP w) (fStype w) (fRnd w) (fSat w) (fScale w) (fBlk w) (fLow5 w))
  | 0x02#6 => decodeAlu w
  | 0x03#6 => .ok (.addi (fD w) (fA w) (fImm14 w))
  | 0x04#6 => .ok (.andi (fD w) (fA w) (fImm14 w))
  | 0x05#6 => .ok (.ori (fD w) (fA w) (fImm14 w))
  | 0x06#6 => .ok (.xori (fD w) (fA w) (fImm14 w))
  | 0x07#6 => decodeShift w
  | 0x08#6 => .ok (.lih (fD w) (fImm20 w))
  | 0x09#6 => .ok (.pcrel (fD w) (fImm20 w))
  | 0x0a#6 => .ok (.beq (fD w) (fA w) (fImm14 w))
  | 0x0b#6 => .ok (.bne (fD w) (fA w) (fImm14 w))
  | 0x0c#6 => .ok (.blt (fD w) (fA w) (fImm14 w))
  | 0x0d#6 => .ok (.bge (fD w) (fA w) (fImm14 w))
  | 0x0e#6 => .ok (.bltu (fD w) (fA w) (fImm14 w))
  | 0x0f#6 => .ok (.bgeu (fD w) (fA w) (fImm14 w))
  | 0x10#6 => .ok (.jal (fD w) (fImm20 w))
  | 0x11#6 => .ok (.jalr (fD w) (fA w) (fImm14 w))
  | 0x12#6 => decodeLoop w
  | 0x13#6 => decodeVp w
  | 0x14#6 => decodeLoad w
  | 0x15#6 => decodeStore w
  | 0x16#6 => decodeAmo w
  | 0x17#6 => decodeFence w
  | 0x18#6 => decodeVl w
  | 0x19#6 => .ok (.vidx (fD w) (fLen w) (fLow8 w))
  | 0x1a#6 => decodeVAdd w
  | 0x1b#6 => decodeVDiv w
  | 0x1c#6 => decodeVMin w
  | 0x1d#6 => decodeVLogic w
  | 0x1e#6 => decodeVShift w
  | 0x1f#6 => decodeVRng w
  | 0x20#6 => decodeVFAdd w
  | 0x21#6 => decodeVFma w
  | 0x22#6 => decodeVFDiv w
  | 0x23#6 => decodeVFMin w
  | 0x24#6 => decodeVFRint w
  | 0x25#6 => decodeVFClass w
  | 0x26#6 => decodePred w
  | 0x27#6 => decodeConvert w
  | 0x28#6 => decodeReduce w
  | 0x29#6 => decodePermute w
  | 0x2a#6 => decodeVLoad w
  | 0x2b#6 => decodeVStore w
  | 0x2c#6 => decodeVAmo w
  | 0x2d#6 => decodeVDrain w
  | 0x2e#6 => decodeFibreMem w
  | 0x2f#6 => decodeJoin w
  | 0x30#6 => decodeFibreDense w
  | 0x31#6 => decodeFibreHouse w
  | 0x32#6 => decodeAttach w
  | 0x33#6 => decodeMop w
  | 0x34#6 => decodeTileMove w
  | 0x35#6 => decodePrune w
  | 0x36#6 => decodeCopy w
  | 0x37#6 => decodeTags w
  | 0x38#6 => decodeRange w
  | 0x39#6 => decodeChunk w
  | 0x3a#6 => decodeThread w
  | 0x3b#6 => decodeBucking w
  | 0x3c#6 => decodeFloat w
  | 0x3f#6 => .error .permanentlyIllegal
  | _ => .error .reservedMajor

/-! The forms as words (R26). -/

def encVS (op d a b : BitVec 6) (c e : Bool) (fn : BitVec 6) : BitVec 32 :=
  op ++ d ++ a ++ b ++ BitVec.ofBool c ++ BitVec.ofBool e ++ fn

def encI (op d a : BitVec 6) (imm : BitVec 14) : BitVec 32 := op ++ d ++ a ++ imm

def encU (op d : BitVec 6) (imm : BitVec 20) : BitVec 32 := op ++ d ++ imm

def encL (op d : BitVec 6) (len : BitVec 12) (low : BitVec 8) : BitVec 32 := op ++ d ++ len ++ low

def encF (sub : BitVec 2) (low : BitVec 24) : BitVec 32 := 0x13#6 ++ sub ++ low

def encMode (g : BitVec 4) (s : BitVec 5) (r : BitVec 3) (t : Bool) (c : BitVec 6) (b : BitVec 2) (d : BitVec 5) :
    BitVec 32 := 0x01#6 ++ g ++ s ++ r ++ BitVec.ofBool t ++ c ++ b ++ d

/-- The word of an instruction (R26, R32). An event has no word and is given 0, which is no instruction's. -/
def encode : Instr → BitVec 32
  | .chunkLimitEnd _ => 0
  | .chunkCommit _ => 0
  | .priorityCommitRequest _ => 0
  | .priorityTicketPass => 0
  | .persistentRequest _ _ => 0
  | .farOpPerform _ => 0
  | .deferredLoadReply _ => 0
  | .fabricReply _ _ _ _ => 0
  | .asyncTrap _ => 0
  | .trapEntry _ => 0
  | .tileOpPerform _ => 0
  | .matrixDrain _ _ => 0
  | .copyStart _ => 0
  | .copyElement _ _ => 0
  | .copyComplete _ => 0
  | .barrierCredit _ _ => 0
  | .streamRefill _ _ _ => 0
  | .post _ _ => 0
  | .postCredit _ _ => 0
  | .traverseDone _ => 0
  | .traverseStop _ => 0
  | .placeThread _ _ _ => 0
  | .preempt _ => 0
  | .placementAging _ => 0
  | .blockedEvictionAge _ => 0
  | .stripGrant _ _ => 0
  | .stripAging _ => 0
  | .waitSatisfied _ => 0
  | .pauseEnd _ => 0
  | .cacheEviction _ => 0
  | .mgdWritebackArrival _ => 0
  | .pageWalk _ _ _ _ => 0
  | .fabricRequestArrival _ => 0
  | .extensionPacketArrival _ => 0
  | .fabricCombine _ _ _ => 0
  | .combineWindowExpiry _ => 0
  | .replySplit _ => 0
  | .idleFlit _ => 0
  | .linkDown _ => 0
  | .linkTrained _ _ _ => 0
  | .heartbeat => 0
  | .peerLost _ => 0
  | .downNoticeReceived _ => 0
  | .hostWrite _ _ => 0
  | .hostAtomic _ _ _ _ _ => 0
  | .hostRead _ _ => 0
  | .eccError _ _ => 0
  | .coreFence _ _ _ => 0
  | .refreshDue _ _ _ => 0
  | .refreshPostponeLimit _ _ => 0
  | .scrubPassStart _ => 0
  | .scrubLine _ _ => 0
  | .scrubPassEnd _ => 0
  | .logWrapClear _ => 0
  | .powerWindow _ => 0
  | .crewClockGate _ => 0
  | .thermalThrottle _ _ => 0
  | .thermalTrip _ _ => 0
  | .resetPinRelease => 0
  | .resetPinAssert => 0
  | .loadFirmwareImage _ _ => 0
  | .writeParcelDescriptor _ _ => 0
  | .createRootThread _ _ _ _ => 0
  | .removeLaunch _ _ => 0
  | .endParcel _ => 0
  | .assignFrames _ _ _ _ => 0
  | .writeRouteEntry _ _ _ => 0
  | .setDeviceNumber _ _ => 0
  | .clearLostMark _ _ => 0
  | .requestKeyRotation _ => 0
  | .setScrubPeriod _ _ => 0
  | .setPowerLimit _ _ => 0
  | .writeHostAperture _ _ _ => 0
  | .assignBlocks _ _ _ _ => 0
  | .configurationComplete _ _ => 0
  | .illegalInstruction w => w
  | .laneFailure _ => 0
  | .heartbeatReceived _ => 0
  | .idleFlitReceived _ => 0
  | .thermalRecovery _ => 0
  | .unknownRequest _ => 0
  | .ecall => encVS 0x00 0 0 0 false false 0x01
  | .eret => encVS 0x00 0 0 0 false false 0x02
  | .tlbi a => encVS 0x00 0 a 0 false false 0x03
  | .tlbia => encVS 0x00 0 0 0 false false 0x04
  | .pkset => encVS 0x00 0 0 0 false false 0x05
  | .pkclr => encVS 0x00 0 0 0 false false 0x06
  | .pause => encVS 0x00 0 0 0 false false 0x07
  | .nop => encVS 0x00 0 0 0 false false 0x08
  | .mode g s r t c b d => encMode g s r t c b d
  | .add d a b => encVS 0x02 d a b false false 0x00
  | .sub d a b => encVS 0x02 d a b false false 0x01
  | .and d a b => encVS 0x02 d a b false false 0x02
  | .or d a b => encVS 0x02 d a b false false 0x03
  | .xor d a b => encVS 0x02 d a b false false 0x04
  | .sll d a b => encVS 0x02 d a b false false 0x05
  | .srl d a b => encVS 0x02 d a b false false 0x06
  | .sra d a b => encVS 0x02 d a b false false 0x07
  | .slt d a b => encVS 0x02 d a b false false 0x08
  | .sltu d a b => encVS 0x02 d a b false false 0x09
  | .mul d a b => encVS 0x02 d a b false false 0x0a
  | .mulh d a b => encVS 0x02 d a b false false 0x0b
  | .mulhu d a b => encVS 0x02 d a b false false 0x0c
  | .div d a b => encVS 0x02 d a b false false 0x0d
  | .divu d a b => encVS 0x02 d a b false false 0x0e
  | .rem d a b => encVS 0x02 d a b false false 0x0f
  | .remu d a b => encVS 0x02 d a b false false 0x10
  | .min d a b => encVS 0x02 d a b false false 0x11
  | .max d a b => encVS 0x02 d a b false false 0x12
  | .minu d a b => encVS 0x02 d a b false false 0x13
  | .maxu d a b => encVS 0x02 d a b false false 0x14
  | .addi d a i => encI 0x03 d a i
  | .andi d a i => encI 0x04 d a i
  | .ori d a i => encI 0x05 d a i
  | .xori d a i => encI 0x06 d a i
  | .slli d a n => encI 0x07 d a (0x0#2 ++ 0#6 ++ n)
  | .srli d a n => encI 0x07 d a (0x1#2 ++ 0#6 ++ n)
  | .srai d a n => encI 0x07 d a (0x2#2 ++ 0#6 ++ n)
  | .lih d i => encU 0x08 d i
  | .pcrel d i => encU 0x09 d i
  | .beq a b o => encI 0x0a a b o
  | .bne a b o => encI 0x0b a b o
  | .blt a b o => encI 0x0c a b o
  | .bge a b o => encI 0x0d a b o
  | .bltu a b o => encI 0x0e a b o
  | .bgeu a b o => encI 0x0f a b o
  | .jal d o => encU 0x10 d o
  | .jalr d a i => encI 0x11 d a i
  | .loop c l => encL 0x12 c l 0x00
  | .loopr c l => encL 0x12 c l 0x01
  | .vfetch n o => encF 0x0 (n ++ o)
  | .vpbr v o => encF 0x1 (v ++ o)
  | .vpstop => encF 0x2 0
  | .vpsync => encF 0x3 0
  | .ldB d a o => encI 0x14 d a (0x0#3 ++ o)
  | .ldH d a o => encI 0x14 d a (0x1#3 ++ o)
  | .ldW d a o => encI 0x14 d a (0x2#3 ++ o)
  | .ldD d a o => encI 0x14 d a (0x3#3 ++ o)
  | .ldBu d a o => encI 0x14 d a (0x4#3 ++ o)
  | .ldHu d a o => encI 0x14 d a (0x5#3 ++ o)
  | .ldWu d a o => encI 0x14 d a (0x6#3 ++ o)
  | .stB d a o => encI 0x15 d a (0x0#3 ++ o)
  | .stH d a o => encI 0x15 d a (0x1#3 ++ o)
  | .stW d a o => encI 0x15 d a (0x2#3 ++ o)
  | .stD d a o => encI 0x15 d a (0x3#3 ++ o)
  | .amoAdd d a b z => encVS 0x16 d a b z false 0x00
  | .amoAnd d a b z => encVS 0x16 d a b z false 0x01
  | .amoOr d a b z => encVS 0x16 d a b z false 0x02
  | .amoXor d a b z => encVS 0x16 d a b z false 0x03
  | .amoMin d a b z => encVS 0x16 d a b z false 0x04
  | .amoMax d a b z => encVS 0x16 d a b z false 0x05
  | .amoMinu d a b z => encVS 0x16 d a b z false 0x06
  | .amoMaxu d a b z => encVS 0x16 d a b z false 0x07
  | .amoSwap d a b z => encVS 0x16 d a b z false 0x08
  | .amoFadd d a b z => encVS 0x16 d a b z false 0x09
  | .cas d a b z => encVS 0x16 d a b z false 0x10
  | .fence s => encVS 0x17 0 0 0 false false (0x0#4 ++ s)
  | .acq d a s => encVS 0x17 d a 0 false false (0x1#4 ++ s)
  | .rel a b s => encVS 0x17 0 a b false false (0x2#4 ++ s)
  | .pref a => encVS 0x17 0 a 0 false false 0x0c
  | .setvl d a => encI 0x18 d a (0x0#2 ++ 0x000#12)
  | .setvli d n => encI 0x18 d 0 (0x1#2 ++ n)
  | .mfsr d r => encI 0x18 d 0 (0x2#2 ++ r)
  | .mfsrFflags d => encI 0x18 d 0 (0x2#2 ++ 0x010#12)
  | .mfsrMsat d => encI 0x18 d 0 (0x2#2 ++ 0x015#12)
  | .mtsr a r => encI 0x18 0 a (0x3#2 ++ r)
  | .mtsrMode a => encI 0x18 0 a (0x3#2 ++ 0x002#12)
  | .mtsrFmt a f => encI 0x18 0 a (0x3#2 ++ (0x001#9 ++ f))
  | .mtsrFflags a => encI 0x18 0 a (0x3#2 ++ 0x010#12)
  | .mtsrFprog a => encI 0x18 0 a (0x3#2 ++ 0x012#12)
  | .mtsrCtags a => encI 0x18 0 a (0x3#2 ++ 0x013#12)
  | .mtsrMsat a => encI 0x18 0 a (0x3#2 ++ 0x015#12)
  | .mtsrPtroot a => encI 0x18 0 a (0x3#2 ++ 0x101#12)
  | .mtsrTrapvec a => encI 0x18 0 a (0x3#2 ++ 0x102#12)
  | .mtsrPshare a => encI 0x18 0 a (0x3#2 ++ 0x10b#12)
  | .vidx d s p => encL 0x19 d s p
  | .vadd d a b c e => encVS 0x1a d a b c e 0x00
  | .vaddVx d a b c => encVS 0x1a d a b c false 0x20
  | .vsub d a b c e => encVS 0x1a d a b c e 0x01
  | .vsubVx d a b c => encVS 0x1a d a b c false 0x21
  | .vmul d a b c e => encVS 0x1a d a b c e 0x02
  | .vmulVx d a b c => encVS 0x1a d a b c false 0x22
  | .vmulh d a b c e => encVS 0x1a d a b c e 0x03
  | .vmulhVx d a b c => encVS 0x1a d a b c false 0x23
  | .vmacc d a b c e => encVS 0x1a d a b c e 0x04
  | .vmaccVx d a b c => encVS 0x1a d a b c false 0x24
  | .vdiv d a b c e => encVS 0x1b d a b c e 0x00
  | .vdivVx d a b c => encVS 0x1b d a b c false 0x20
  | .vrem d a b c e => encVS 0x1b d a b c e 0x01
  | .vremVx d a b c => encVS 0x1b d a b c false 0x21
  | .vmin d a b c e => encVS 0x1c d a b c e 0x00
  | .vminVx d a b c => encVS 0x1c d a b c false 0x20
  | .vmax d a b c e => encVS 0x1c d a b c e 0x01
  | .vmaxVx d a b c => encVS 0x1c d a b c false 0x21
  | .vand d a b c e => encVS 0x1d d a b c e 0x00
  | .vandVx d a b c => encVS 0x1d d a b c false 0x20
  | .vor d a b c e => encVS 0x1d d a b c e 0x01
  | .vorVx d a b c => encVS 0x1d d a b c false 0x21
  | .vxor d a b c e => encVS 0x1d d a b c e 0x02
  | .vxorVx d a b c => encVS 0x1d d a b c false 0x22
  | .vsll d a b c e => encVS 0x1e d a b c e 0x00
  | .vsllVx d a b c => encVS 0x1e d a b c false 0x20
  | .vsrl d a b c e => encVS 0x1e d a b c e 0x01
  | .vsrlVx d a b c => encVS 0x1e d a b c false 0x21
  | .vsra d a b c e => encVS 0x1e d a b c e 0x02
  | .vsraVx d a b c => encVS 0x1e d a b c false 0x22
  | .vrng d a => encVS 0x1f d a 0 false false 0x00
  | .vfadd d a b c e => encVS 0x20 d a b c e 0x00
  | .vfaddVx d a b c => encVS 0x20 d a b c false 0x20
  | .vfsub d a b c e => encVS 0x20 d a b c e 0x01
  | .vfsubVx d a b c => encVS 0x20 d a b c false 0x21
  | .vfmul d a b c e => encVS 0x20 d a b c e 0x02
  | .vfmulVx d a b c => encVS 0x20 d a b c false 0x22
  | .vfma d a b c e => encVS 0x21 d a b c e 0x00
  | .vfmaVx d a b c => encVS 0x21 d a b c false 0x20
  | .vfms d a b c e => encVS 0x21 d a b c e 0x01
  | .vfmsVx d a b c => encVS 0x21 d a b c false 0x21
  | .vfnma d a b c e => encVS 0x21 d a b c e 0x02
  | .vfnmaVx d a b c => encVS 0x21 d a b c false 0x22
  | .vfnms d a b c e => encVS 0x21 d a b c e 0x03
  | .vfnmsVx d a b c => encVS 0x21 d a b c false 0x23
  | .vfdiv d a b c e => encVS 0x22 d a b c e 0x00
  | .vfdivVx d a b c => encVS 0x22 d a b c false 0x20
  | .vfsqrt d a c => encVS 0x22 d a 0 c false 0x01
  | .vfrec d a c => encVS 0x22 d a 0 c false 0x02
  | .vfmin d a b c e => encVS 0x23 d a b c e 0x00
  | .vfminVx d a b c => encVS 0x23 d a b c false 0x20
  | .vfmax d a b c e => encVS 0x23 d a b c e 0x01
  | .vfmaxVx d a b c => encVS 0x23 d a b c false 0x21
  | .vfabs d a c => encVS 0x23 d a 0 c false 0x02
  | .vfneg d a c => encVS 0x23 d a 0 c false 0x03
  | .vfrint d a c => encVS 0x24 d a 0 c false 0x00
  | .vfexp2 d a c => encVS 0x24 d a 0 c false 0x01
  | .vfscale d a b c e => encVS 0x24 d a b c e 0x02
  | .vfscaleVx d a b c => encVS 0x24 d a b c false 0x22
  | .vfclass d a c => encVS 0x25 d a 0 c false 0x00
  | .vcmpEq d a b c e => encVS 0x26 d a b c e 0x00
  | .vcmpNe d a b c e => encVS 0x26 d a b c e 0x01
  | .vcmpLt d a b c e => encVS 0x26 d a b c e 0x02
  | .vcmpLe d a b c e => encVS 0x26 d a b c e 0x03
  | .vcmpGt d a b c e => encVS 0x26 d a b c e 0x04
  | .vcmpGe d a b c e => encVS 0x26 d a b c e 0x05
  | .vcmpUn d a b c e => encVS 0x26 d a b c e 0x06
  | .pand d a b => encVS 0x26 d a b false false 0x10
  | .por d a b => encVS 0x26 d a b false false 0x11
  | .pxor d a b => encVS 0x26 d a b false false 0x12
  | .pandn d a b => encVS 0x26 d a b false false 0x13
  | .pnot d a => encVS 0x26 d a 0 false false 0x14
  | .pwhile d a b => encVS 0x26 d a b false false 0x15
  | .pcnt d a => encVS 0x26 d a 0 false false 0x16
  | .pfirst d a => encVS 0x26 d a 0 false false 0x17
  | .vcvt d a c => encVS 0x27 d a 0 c false 0x00
  | .vqnt d a c => encVS 0x27 d a 0 c false 0x01
  | .vdqnt d a c => encVS 0x27 d a 0 c false 0x02
  | .vbscale d a c => encVS 0x27 d a 0 c false 0x03
  | .vbsmax d a c => encVS 0x27 d a 0 c false 0x04
  | .vredo d a b c => encVS 0x28 d a b c false 0x00
  | .vredt d a b c => encVS 0x28 d a b c false 0x01
  | .vredmin d a b c => encVS 0x28 d a b c false 0x02
  | .vredmax d a b c => encVS 0x28 d a b c false 0x03
  | .vslideup d a b c => encVS 0x29 d a b c false 0x00
  | .vslidedn d a b c => encVS 0x29 d a b c false 0x01
  | .vgath d a b c e => encVS 0x29 d a b c e 0x02
  | .vcompress d a b c => encVS 0x29 d a b c false 0x03
  | .vexpand d a b c => encVS 0x29 d a b c false 0x04
  | .vbcast d a => encVS 0x29 d a 0 false false 0x05
  | .vext d a b c => encVS 0x29 d a b c false 0x06
  | .vins d a b => encVS 0x29 d a b false false 0x07
  | .vmv d a c => encVS 0x29 d a 0 c false 0x08
  | .vld d a => encVS 0x2a d a 0 false false 0x00
  | .vldS d a b => encVS 0x2a d a b false false 0x01
  | .vldX d a b e => encVS 0x2a d a b false e 0x02
  | .vst d a => encVS 0x2b d a 0 false false 0x00
  | .vstS d a b => encVS 0x2b d a b false false 0x01
  | .vstX d a b e => encVS 0x2b d a b false e 0x02
  | .vamoAdd d a b e => encVS 0x2c d a b false e 0x00
  | .vamoAddRet d a b e => encVS 0x2c d a b false e 0x20
  | .vamoAnd d a b e => encVS 0x2c d a b false e 0x01
  | .vamoAndRet d a b e => encVS 0x2c d a b false e 0x21
  | .vamoOr d a b e => encVS 0x2c d a b false e 0x02
  | .vamoOrRet d a b e => encVS 0x2c d a b false e 0x22
  | .vamoXor d a b e => encVS 0x2c d a b false e 0x03
  | .vamoXorRet d a b e => encVS 0x2c d a b false e 0x23
  | .vamoMin d a b e => encVS 0x2c d a b false e 0x04
  | .vamoMinRet d a b e => encVS 0x2c d a b false e 0x24
  | .vamoMax d a b e => encVS 0x2c d a b false e 0x05
  | .vamoMaxRet d a b e => encVS 0x2c d a b false e 0x25
  | .vamoMinu d a b e => encVS 0x2c d a b false e 0x06
  | .vamoMinuRet d a b e => encVS 0x2c d a b false e 0x26
  | .vamoMaxu d a b e => encVS 0x2c d a b false e 0x07
  | .vamoMaxuRet d a b e => encVS 0x2c d a b false e 0x27
  | .vamoSwap d a b e => encVS 0x2c d a b false e 0x08
  | .vamoSwapRet d a b e => encVS 0x2c d a b false e 0x28
  | .vamoFadd d a b e => encVS 0x2c d a b false e 0x09
  | .vamoFaddRet d a b e => encVS 0x2c d a b false e 0x29
  | .vdrain => encVS 0x2d 0 0 0 false false 0x00
  | .vpref a => encVS 0x2d 0 a 0 false false 0x01
  | .fld d a b => encVS 0x2e d a b false false 0x00
  | .fst d a => encVS 0x2e d a 0 false false 0x01
  | .fwalk d a b => encVS 0x2e d a b false false 0x02
  | .finter d a b k => encVS 0x2f d a b false false (k ++ 0x0#3)
  | .funion d a b k => encVS 0x2f d a b false false (k ++ 0x1#3)
  | .fmerge d a b k => encVS 0x2f d a b false false (k ++ 0x2#3)
  | .fcompact d a b c => encVS 0x30 d a b c false 0x00
  | .fexpand d a => encVS 0x30 d a 0 false false 0x01
  | .fgath d a => encVS 0x30 d a 0 false false 0x02
  | .fscat d a => encVS 0x30 d a 0 false false 0x03
  | .flen d a => encVS 0x31 d a 0 false false 0x00
  | .fclr d => encVS 0x31 d 0 0 false false 0x01
  | .fcopy d a => encVS 0x31 d a 0 false false 0x02
  | .mattach d a => encVS 0x32 d a 0 false false 0x00
  | .mdetach => encVS 0x32 0 0 0 false false 0x01
  | .mmode d a => encVS 0x32 d a 0 false false 0x02
  | .mzero t => encVS 0x33 (0#4 ++ t) 0 0 false false 0x00
  | .mopVv p t a b c e => encVS 0x33 (p ++ t) a b c e 0x01
  | .mopSv p t a b e => encVS 0x33 (p ++ t) a b false e 0x02
  | .mopSs p t a b => encVS 0x33 (p ++ t) a b false false 0x03
  | .mldaV t a b c => encVS 0x34 (0x0#4 ++ t) a b c false 0x00
  | .mldaS t a b => encVS 0x34 (0x1#4 ++ t) a b false false 0x00
  | .mstaV t a b => encVS 0x34 (0x0#4 ++ t) a b false false 0x01
  | .mstaS t a b => encVS 0x34 (0x1#4 ++ t) a b false false 0x01
  | .mprune d a b c => encVS 0x35 d a b c false 0x00
  | .cpy d a b => encVS 0x36 d a b false false 0x00
  | .cpym d a b => encVS 0x36 d a b false false 0x01
  | .smode d a => encVS 0x36 d a 0 false false 0x02
  | .sstop d => encVS 0x36 d 0 0 false false 0x03
  | .twaitAny d a => encVS 0x37 d a 0 false false 0x00
  | .twaitAll d a => encVS 0x37 d a 0 false false 0x01
  | .tffr d a => encVS 0x37 d a 0 false false 0x02
  | .barinit a b => encVS 0x37 0 a b false false 0x03
  | .barexp a b => encVS 0x37 0 a b false false 0x04
  | .bararr d a => encVS 0x37 d a 0 false false 0x05
  | .barwait d a b => encVS 0x37 d a b false false 0x06
  | .rwb a b => encVS 0x38 0 a b false false 0x00
  | .rinv a b => encVS 0x38 0 a b false false 0x01
  | .rgndecl d a => encVS 0x38 d a 0 false false 0x02
  | .rgnfree a => encVS 0x38 0 a 0 false false 0x03
  | .cways d a => encVS 0x38 d a 0 false false 0x04
  | .live a b => encVS 0x38 0 a b false false 0x05
  | .dead a b => encVS 0x38 0 a b false false 0x06
  | .chkbeg => encVS 0x39 0 0 0 false false 0x00
  | .chkend => encVS 0x39 0 0 0 false false 0x01
  | .chkstat d => encVS 0x39 d 0 0 false false 0x02
  | .launch d a => encVS 0x3a d a 0 false false 0x00
  | .texit => encVS 0x3a 0 0 0 false false 0x01
  | .tyield => encVS 0x3a 0 0 0 false false 0x02
  | .sbar d a => encVS 0x3a d a 0 false false 0x03
  | .sarrive d a => encVS 0x3a d a 0 false false 0x04
  | .swait d a b => encVS 0x3a d a b false false 0x05
  | .stest d a => encVS 0x3a d a 0 false false 0x06
  | .bkstart d a b => encVS 0x3b d a b false false 0x00
  | .bkresume d a b => encVS 0x3b d a b false false 0x01
  | .bkstat d a => encVS 0x3b d a 0 false false 0x02
  | .fadd d a b => encVS 0x3c d a b false false 0x00
  | .fsub d a b => encVS 0x3c d a b false false 0x01
  | .fmul d a b => encVS 0x3c d a b false false 0x02
  | .fdiv d a b => encVS 0x3c d a b false false 0x03
  | .fsqrt d a => encVS 0x3c d a 0 false false 0x04
  | .fcvt d a b => encVS 0x3c d a b false false 0x05
  | .mfsrCtags d => encI 0x18 d 0 (0x2#2 ++ 0x013#12)

/-- The rows of the opcode table that are the device's own steps and have no word: events, and the step that a word which is no
instruction makes (R34). -/
def Instr.isEvent (i : Instr) : Bool :=
  encode i == 0 || match i with | .illegalInstruction _ => true | _ => false

/-- Four bytes at rising addresses as an instruction word (R5, R26). -/
def wordOfBytes (b0 b1 b2 b3 : Byte) : BitVec 32 := b3 ++ b2 ++ b1 ++ b0

/-- The bytes of an instruction word at rising addresses (R5). -/
def bytesOfWord (w : BitVec 32) : List Byte :=
  [w.extractLsb' 0 8, w.extractLsb' 8 8, w.extractLsb' 16 8, w.extractLsb' 24 8]

/-- Decode from the front of a byte list: the instruction and the bytes after it. -/
noncomputable def decodeBytes : List Byte → Option (Except Reject Instr × List Byte)
  | b0 :: b1 :: b2 :: b3 :: rest => some (decode (wordOfBytes b0 b1 b2 b3), rest)
  | _ => none

/-- What the decoder reads from an instruction of the opcode table whose bits are w. Every instruction is one word. -/
noncomputable def decodeTableWord (nbits w : Nat) : Option Instr :=
  if nbits ≤ 32 then
    match decodeBytes (bytesOfWord (BitVec.ofNat 32 w)) with
    | some (.ok i, _) => some i
    | _ => none
  else none

end Sys2Proof
end

