-- ==== Sys2Proof/Config.lean ====
section
/-! DEFINITION. What the spec leaves to an implementation or to timing: constants with no body, applied to the counter State.draws or
to what they depend on, so that no proof can rest on a value of theirs (log entry 1). -/

namespace Sys2Proof.Config

/-- The main-clock cycles that a step of the default schedule takes: timing, which the spec does not state (R72). -/
opaque turnCycles : Nat → Nat

/-- How far a die's count of cycles is ahead of the device's; R37 bounds it by 2 between dies, and the model reads it
modulo 3. -/
opaque cycleSkew : Nat → Nat

/-- The value of the counter at a dword of the local register window: which counter has which number is not
architectural (R394). -/
opaque counterNumber : Nat → Nat

/-- The flags that a floating atomic raises at another device when it returns no old value: its operands are known there
alone, and the spec states no report of them (R206, R327). DZ is never among them. -/
opaque remoteFlags : Nat → BitVec 5

/-- The input of a later stage of a hub's butterfly at which a request arrives, by stage, earlier input and output port: R332 says
that the output port fixes the way, and not how. -/
opaque stageInput : Nat → Nat

/-- The slice of its home die that a line is homed on (R235), and the pseudo-channel of its stack that it lies in (R251): fixed
functions of the address that the spec does not give. -/
opaque homeSlice : Nat → Nat
opaque pseudoChannel : Nat → Nat

end Sys2Proof.Config
end

