-- ==== Sys2Proof/Machine/Table.lean ====
section
/-! DEFINITION. Sparse maps from natural numbers, as lists of key and value pairs in strictly rising key order. A memory
is such a map in which no entry holds the value that an unlisted key has. -/

namespace Sys2Proof.Machine

/-- A sparse map: keys strictly rising. -/
abbrev Table (α : Type) := List (Nat × α)

/-- The entry of a key. -/
def tfind {α : Type} (k : Nat) : Table α → Option α
  | [] => none
  | (j, v) :: r => if j = k then some v else if k < j then none else tfind k r

/-- Enter a value under a key. -/
def tput {α : Type} (k : Nat) (v : α) : Table α → Table α
  | [] => [(k, v)]
  | (j, u) :: r => if k < j then (k, v) :: (j, u) :: r else if j = k then (k, v) :: r else (j, u) :: tput k v r

/-- Drop the entry of a key. -/
def tdrop {α : Type} (k : Nat) : Table α → Table α
  | [] => []
  | (j, u) :: r => if k < j then (j, u) :: r else if j = k then r else (j, u) :: tdrop k r

/-- The value of a key where unlisted keys have the value d. -/
def tget {α : Type} (d : α) (k : Nat) (m : Table α) : α := (tfind k m).getD d

/-- Set the value of a key, keeping values equal to d unlisted. -/
def tset {α : Type} [DecidableEq α] (d : α) (k : Nat) (v : α) (m : Table α) : Table α :=
  if v = d then tdrop k m else tput k v m

/-- Change the entry of a key, if there is one. -/
def tmod {α : Type} (k : Nat) (f : α → α) (m : Table α) : Table α :=
  match tfind k m with
  | some v => tput k (f v) m
  | none => m

/-- Drop every key of lo .. hi - 1. -/
def tclear {α : Type} (lo hi : Nat) (m : Table α) : Table α := m.filter fun e => e.1 < lo || hi ≤ e.1

/-- Keys strictly rise from a bound. -/
def sortedFrom {α : Type} (lo : Nat) : Table α → Bool
  | [] => true
  | (k, _) :: r => lo ≤ k && sortedFrom (k + 1) r

/-- A sparse map is in its form: keys strictly rising. -/
def tsorted {α : Type} (m : Table α) : Bool := sortedFrom 0 m

/-- A memory: bytes by location; an unlisted location reads 0 (R247). -/
abbrev Memory := Table Byte

/-- The form of a memory: locations strictly rising and no entry equal to what an unlisted location reads as. -/
abbrev Memory.wf (m : Memory) : Bool := tsorted m && m.all fun e => e.2 != 0

/-- One byte (R247: unwritten memory reads as zeros). -/
def Memory.byte (m : Memory) (a : Nat) : Byte := tget 0 a m

/-- Write one byte. -/
def Memory.setByte (m : Memory) (a : Nat) (b : Byte) : Memory := tset 0 a b m

/-- n bytes at rising locations. -/
def Memory.bytes (m : Memory) (a : Nat) : Nat → List Byte
  | 0 => []
  | n + 1 => m.byte a :: Memory.bytes m (a + 1) n

/-- Write bytes at rising locations. -/
def Memory.setBytes (m : Memory) (a : Nat) : List Byte → Memory
  | [] => m
  | b :: r => Memory.setBytes (m.setByte a b) (a + 1) r

/-- A sorted set of numbers, as used for marks. -/
abbrev Marks := List Nat

/-- Enter a number in a set. -/
def mput (k : Nat) : Marks → Marks
  | [] => [k]
  | j :: r => if k < j then k :: j :: r else if j = k then j :: r else j :: mput k r

/-- Take a number from a set. -/
def mdrop (k : Nat) (m : Marks) : Marks := m.filter (· != k)

/-- Bytes at rising addresses as a number, little-endian (R5). -/
def natOfBytes : List Byte → Nat
  | [] => 0
  | b :: r => b.toNat + 256 * natOfBytes r

/-- The low n bytes of a number, little-endian (R5). -/
def bytesOfNat (x : Nat) : Nat → List Byte
  | 0 => []
  | n + 1 => BitVec.ofNat 8 x :: bytesOfNat (x / 256) n

/-- Bits hi .. lo of a number, numbered from 0 at the least significant end (R5). -/
def field (hi lo x : Nat) : Nat := x / 2 ^ lo % 2 ^ (hi + 1 - lo)

/-- The low n bits of b as a two's complement integer (R41, sext). -/
def sextNat (b n : Nat) : Int :=
  let u := b % 2 ^ n
  if n = 0 then 0 else if u < 2 ^ (n - 1) then u else (u : Int) - 2 ^ n

/-- An integer as 64 bits, wrapping (R41, wrap). -/
def word (x : Int) : Word := BitVec.ofInt 64 x

end Sys2Proof.Machine
end

