-- ==== Sys2Proof/Machine/Flags.lean ====
section
/-! DEFINITION. Number formats, rounding and the flags that rounding raises (04). -/

namespace Sys2Proof.Machine

/-- The flags of fflags (R37, R89). -/
abbrev Flags := BitVec 5

def fNV : Flags := 16
def fDZ : Flags := 8
def fOF : Flags := 4
def fUF : Flags := 2
def fNX : Flags := 1

/-- A floating format (R74, R76): nan is 0 none, 1 all bits below the sign set, 2 IEEE-like; quiet tells that every NaN is
quiet (R77). -/
structure Fmt where
  sgn : Bool
  e : Nat
  m : Nat
  bias : Int
  nan : Nat
  inf : Bool
  satc : Bool
  quiet : Bool
  deriving DecidableEq, Repr

/-- fp64, fp32, fp16 and bf16 (R74). -/
def fp64 : Fmt := { sgn := true, e := 11, m := 52, bias := 1023, nan := 2, inf := true, satc := false, quiet := false }
def fp32 : Fmt := { sgn := true, e := 8, m := 23, bias := 127, nan := 2, inf := true, satc := false, quiet := false }
def fp16 : Fmt := { sgn := true, e := 5, m := 10, bias := 15, nan := 2, inf := true, satc := false, quiet := false }
def bf16 : Fmt := { sgn := true, e := 8, m := 7, bias := 127, nan := 2, inf := true, satc := false, quiet := false }

/-- The format that a format register describes (R76). -/
def fmtOf (w : Word) : Fmt :=
  { sgn := w.getLsbD 8, e := field 6 4 w.toNat, m := field 2 0 w.toNat, bias := sextNat (field 23 16 w.toNat) 8,
    nan := field 10 9 w.toNat, inf := w.getLsbD 11, satc := w.getLsbD 12, quiet := true }

def Fmt.width (f : Fmt) : Nat := (if f.sgn then 1 else 0) + f.e + f.m

/-- An exact value (R41): NaN, infinity, or (-1)^neg * m * 2^e; a zero keeps its sign. -/
inductive Val where
  | nan (signalling : Bool)
  | inf (neg : Bool)
  | fin (neg : Bool) (m : Nat) (e : Int)
  deriving DecidableEq, Repr

def Val.isNan : Val → Bool
  | .nan _ => true
  | _ => false

def Val.snan : Val → Bool
  | .nan s => s
  | _ => false

def Val.isZero : Val → Bool
  | .fin _ m _ => m == 0
  | _ => false

def Val.negative : Val → Bool
  | .nan _ => false
  | .inf s => s
  | .fin s _ _ => s

def Val.negate : Val → Val
  | .nan s => .nan s
  | .inf s => .inf (!s)
  | .fin s m e => .fin (!s) m e

/-- The value of a code (R77; R74 by the same rows). -/
def Fmt.value (f : Fmt) (b : Nat) : Val :=
  let body := b % 2 ^ (f.e + f.m)
  let s := f.sgn && b / 2 ^ (f.e + f.m) % 2 = 1
  let E := body / 2 ^ f.m
  let M := body % 2 ^ f.m
  if f.nan = 1 && body = 2 ^ (f.e + f.m) - 1 then .nan false
  else if f.nan = 2 && E = 2 ^ f.e - 1 && M ≠ 0 then .nan (!f.quiet && M < 2 ^ (f.m - 1))
  else if f.inf && E = 2 ^ f.e - 1 && M = 0 then .inf s
  else if E = 0 then .fin s M (1 - f.bias - f.m)
  else .fin s (2 ^ f.m + M) (E - f.bias - f.m)

/-- A result: its code and the flags it raises. -/
abbrev Rounded := Nat × Flags

def Fmt.sign (f : Fmt) (neg : Bool) : Nat := if f.sgn && neg then 2 ^ (f.e + f.m) else 0

/-- The code below the sign of the largest finite value (R76, R77). -/
def Fmt.maxCode (f : Fmt) : Nat :=
  if f.nan = 2 then (2 ^ f.e - 1) * 2 ^ f.m - 1 else if f.nan = 1 then 2 ^ (f.e + f.m) - 2 else 2 ^ (f.e + f.m) - 1

/-- canonical_nan (R75, R77): a format without NaN gives +0 with NV. -/
def Fmt.canonicalNan (f : Fmt) : Rounded :=
  if f.nan = 0 then (0, fNV)
  else if f.nan = 1 then (2 ^ (f.e + f.m) - 1, 0)
  else ((2 ^ f.e - 1) * 2 ^ f.m + 2 ^ (f.m - 1), 0)

def Fmt.nanWith (f : Fmt) (fl : Flags) : Rounded := (f.canonicalNan.1, f.canonicalNan.2 ||| fl)

/-- An infinity as a result (R86): sat tells a saturating target. -/
def Fmt.infinity (f : Fmt) (neg sat : Bool) : Rounded :=
  if !f.sgn && neg then (0, fNV)
  else if f.inf then (f.sign neg + (2 ^ f.e - 1) * 2 ^ f.m, 0)
  else if f.nan = 1 then (if sat || f.satc then (f.sign neg + f.maxCode, 0) else f.nanWith fNV)
  else (f.sign neg + f.maxCode, fNV)

/-- Rounding modes (R29). -/
abbrev Rnd := Nat

/-- Whether the upper neighbour is chosen (R84): r of d is the discarded part and its unit, sticky tells a further positive
part, odd tells an odd lower code, z is the 32-bit draw of rsr (R88). -/
def roundUp (rnd : Rnd) (neg odd : Bool) (r d : Nat) (sticky : Bool) (z : Nat) : Bool :=
  if r = 0 && !sticky then false else
  let above := d < 2 * r || (d = 2 * r && sticky)
  let tie := d = 2 * r && !sticky
  match rnd with
  | 0 => above || (tie && odd)
  | 1 => false
  | 2 => neg
  | 3 => !neg
  | 4 => above || tie
  | _ => 2 ^ 32 ≤ r * 2 ^ 32 / d + z

/-- m * 2^e in units of 2^q: the quotient, the remainder and its unit. -/
def inUnits (m : Nat) (e q : Int) : Nat × Nat × Nat :=
  if q ≤ e then (m * 2 ^ (e - q).toNat, 0, 1) else (m / 2 ^ (q - e).toNat, m % 2 ^ (q - e).toNat, 2 ^ (q - e).toNat)

/-- The result of an overflow (R85). -/
def Fmt.overflow (f : Fmt) (rnd : Rnd) (neg sat : Bool) : Nat :=
  let toInf := rnd = 0 || 4 ≤ rnd || (rnd = 2 && neg) || (rnd = 3 && !neg)
  if sat || f.satc then f.sign neg + f.maxCode
  else if f.inf then (if toInf then f.sign neg + (2 ^ f.e - 1) * 2 ^ f.m else f.sign neg + f.maxCode)
  else if f.nan = 1 then (if toInf then f.canonicalNan.1 else f.sign neg + f.maxCode)
  else f.sign neg + f.maxCode

/-- round_to of a finite value of magnitude m * 2^e, and a little more where sticky (R84 to R88). Where the format has no mantissa
bits a tie goes to the even exponent field, with the exponent range unbounded too (R84, R87). -/
def Fmt.roundFin (f : Fmt) (rnd : Rnd) (sat : Bool) (z : Nat) (neg : Bool) (m : Nat) (e : Int) (sticky : Bool) : Rounded :=
  if m = 0 && !sticky then (f.sign neg, 0)
  else if !f.sgn && neg then (0, fNV)
  else
    let qmin : Int := 1 - f.bias - f.m
    let top : Int := e + m.log2
    let q : Int := max qmin (top - f.m)
    let u := inUnits m e q
    let lo := ((q - qmin).toNat) * 2 ^ f.m + u.1
    let inexact := u.2.1 ≠ 0 || sticky
    let code := if roundUp rnd neg (lo % 2 = 1) u.2.1 u.2.2 sticky z then lo + 1 else lo
    if f.maxCode < code then (f.overflow rnd neg sat, fOF ||| fNX)
    else if !inexact then (f.sign neg + code, 0)
    else
      let v := inUnits m e (top - f.m)
      let odd := if f.m = 0 then (top + f.bias) % 2 = 1 else v.1 % 2 = 1
      let n := if roundUp rnd neg odd v.2.1 v.2.2 sticky z then v.1 + 1 else v.1
      let tiny := f.e ≠ 0 && (if f.m ≤ top + f.bias - 1 + f.m then decide (n * 2 ^ (top + f.bias - 1).toNat < 2 ^ f.m)
        else decide (n < 2 ^ f.m * 2 ^ (1 - f.bias - top).toNat))
      (f.sign neg + code, if tiny then fNX ||| fUF else fNX)

/-- round_to (R41). -/
def Fmt.round (f : Fmt) (rnd : Rnd) (sat : Bool) (z : Nat) (v : Val) : Rounded :=
  match v with
  | .nan s => f.nanWith (if s then fNV else 0)
  | .inf s => f.infinity s sat
  | .fin s m e => f.roundFin rnd sat z s m e false

/-! ## Exact arithmetic (R63, R75) -/

/-- A signed magnitude at a scale, as an integer. -/
def sint (neg : Bool) (m : Nat) : Int := if neg then -(m : Int) else m

/-- The exact sum of two finite values, with the sign of a zero sum by R75. -/
def addFin (rnd : Rnd) (s1 : Bool) (m1 : Nat) (e1 : Int) (s2 : Bool) (m2 : Nat) (e2 : Int) : Val :=
  if m1 = 0 && m2 = 0 then .fin (if s1 == s2 then s1 else rnd == 2) 0 0
  else if m1 = 0 then .fin s2 m2 e2
  else if m2 = 0 then .fin s1 m1 e1
  else
    let e := min e1 e2
    let x := sint s1 (m1 * 2 ^ (e1 - e).toNat) + sint s2 (m2 * 2 ^ (e2 - e).toNat)
    if x = 0 then .fin (rnd == 2) 0 0 else .fin (decide (x < 0)) x.natAbs e

/-- The exact sum, with NV for an infinity less an infinity and for a signalling NaN. -/
def Val.add (rnd : Rnd) (a b : Val) : Val × Flags :=
  match a, b with
  | .nan s, y => (.nan false, if s || y.snan then fNV else 0)
  | x, .nan s => (.nan false, if s || x.snan then fNV else 0)
  | .inf s, .inf t => if s == t then (.inf s, 0) else (.nan false, fNV)
  | .inf s, _ => (.inf s, 0)
  | _, .inf t => (.inf t, 0)
  | .fin s1 m1 e1, .fin s2 m2 e2 => (addFin rnd s1 m1 e1 s2 m2 e2, 0)

/-- The exact product. -/
def Val.mul (a b : Val) : Val × Flags :=
  match a, b with
  | .nan s, y => (.nan false, if s || y.snan then fNV else 0)
  | x, .nan s => (.nan false, if s || x.snan then fNV else 0)
  | .inf s, y => if y.isZero then (.nan false, fNV) else (.inf (s != y.negative), 0)
  | x, .inf t => if x.isZero then (.nan false, fNV) else (.inf (x.negative != t), 0)
  | .fin s1 m1 e1, .fin s2 m2 e2 => (.fin (s1 != s2) (m1 * m2) (e1 + e2), 0)

/-- The greatest r with r * r at most x, from the bits i - 1 .. 0 above r0. -/
def isqrtFrom (x : Nat) : Nat → Nat → Nat
  | 0, r => r
  | i + 1, r => isqrtFrom x i (if (r + 2 ^ i) * (r + 2 ^ i) ≤ x then r + 2 ^ i else r)

def isqrt (x : Nat) : Nat := isqrtFrom x (x.log2 / 2 + 1) 0

/-- The rounded quotient (R63): invalid cases give the canonical NaN with NV, a finite value over zero a signed infinity with
DZ. -/
def Fmt.div (f : Fmt) (rnd : Rnd) (sat : Bool) (z : Nat) (a b : Val) : Rounded :=
  match a, b with
  | .nan s, y => f.nanWith (if s || y.snan then fNV else 0)
  | x, .nan s => f.nanWith (if s || x.snan then fNV else 0)
  | .inf _, .inf _ => f.nanWith fNV
  | .inf s, y => f.infinity (s != y.negative) sat
  | x, .inf t => (f.sign (x.negative != t), 0)
  | .fin s1 m1 e1, .fin s2 m2 e2 =>
    let s := s1 != s2
    if m2 = 0 then
      if m1 = 0 then f.nanWith fNV else let r := f.infinity s sat; (r.1, r.2 ||| fDZ)
    else
      let k := 192 + m2.log2
      f.roundFin rnd sat z s (m1 * 2 ^ k / m2) (e1 - e2 - k) (m1 * 2 ^ k % m2 ≠ 0)

/-- The rounded square root (R63). -/
def Fmt.sqrt (f : Fmt) (rnd : Rnd) (sat : Bool) (z : Nat) (a : Val) : Rounded :=
  match a with
  | .nan s => f.nanWith (if s then fNV else 0)
  | .inf s => if s then f.nanWith fNV else f.infinity false sat
  | .fin s m e =>
    if m = 0 then (f.sign s, 0)
    else if s then f.nanWith fNV
    else
      let k : Nat := if (e - 200) % 2 = 0 then 200 else 201
      let x := m * 2 ^ k
      let r := isqrt x
      f.roundFin rnd sat z false r ((e - k) / 2) (r * r ≠ x)

/-- The rounded fused multiply-add a * b + c. -/
def Fmt.fma (f : Fmt) (rnd : Rnd) (sat : Bool) (z : Nat) (a b c : Val) : Rounded :=
  let p := a.mul b
  let q := p.1.add rnd c
  let r := f.round rnd sat z q.1
  (r.1, r.2 ||| p.2 ||| q.2 ||| (if c.snan then fNV else 0))

/-- A value rounded to an integer (R64): the integer and whether it differs from the value. -/
def roundInt (rnd : Rnd) (z : Nat) (neg : Bool) (m : Nat) (e : Int) : Int × Bool :=
  let u := inUnits m e 0
  let n := if roundUp rnd neg (u.1 % 2 = 1) u.2.1 u.2.2 false z then u.1 + 1 else u.1
  (sint neg n, u.2.1 ≠ 0)

/-- fp32 and fp64 addition under rne, as the atomics use it (R206). -/
def addRne (dword : Bool) (a b : Nat) : Rounded :=
  let f := if dword then fp64 else fp32
  let q := (f.value a).add 0 (f.value b)
  let r := f.round 0 false 0 q.1
  (r.1, r.2 ||| q.2)

/-! ## Element types (R30) -/

/-- The type codes: 0 to 3 s8 to s64, 4 to 7 n8 to n64, 8 fp16, 9 bf16, 10 fp32, 11 fp64, 12 to 19 fmt0 to fmt7, 20 s4. -/
abbrev TypeCode := Nat

def isFloat (t : TypeCode) : Bool := 8 ≤ t && t ≤ 19
def isInt (t : TypeCode) : Bool := t ≤ 7 || t == 20
def isSigned (t : TypeCode) : Bool := t ≤ 3 || t == 20
def isFmt (t : TypeCode) : Bool := 12 ≤ t && t ≤ 19

/-- The format of a floating type. -/
def floatFmt (fmt : Vector Word 8) (t : TypeCode) : Fmt :=
  match t with
  | 8 => fp16
  | 9 => bf16
  | 10 => fp32
  | 11 => fp64
  | t => fmtOf (fmt[t - 12]?.getD 0)

/-- width(t) (R41): an fmt type has the width that its format register gives, packed with no padding (R80), as the register
stands where it is read (R81). -/
def typeWidth (fmt : Vector Word 8) (t : TypeCode) : Nat :=
  match t with
  | 0 | 4 => 8
  | 1 | 5 | 8 | 9 => 16
  | 2 | 6 | 10 => 32
  | 3 | 7 | 11 => 64
  | 20 => 4
  | t => (floatFmt fmt t).width

/-- The least of 4, 8, 16, 32, 64 not below a width (R59). -/
def slotWidth (w : Nat) : Nat := if w ≤ 4 then 4 else if w ≤ 8 then 8 else if w ≤ 16 then 16 else if w ≤ 32 then 32 else 64

/-- The integer that bits of an integer type hold. -/
def intValue (t : TypeCode) (w b : Nat) : Int := if isSigned t then sextNat b w else (b % 2 ^ w : Nat)

/-- wrap and saturate (R41, R73), as bits of the type. -/
def wrapTo (w : Nat) (x : Int) : Nat := (x % 2 ^ w).toNat
def intMin (t : TypeCode) (w : Nat) : Int := if isSigned t then -(2 ^ (w - 1) : Nat) else 0
def intMax (t : TypeCode) (w : Nat) : Int := if isSigned t then (2 ^ (w - 1) : Nat) - 1 else (2 ^ w : Nat) - 1
def saturateTo (t : TypeCode) (w : Nat) (x : Int) : Nat := wrapTo w (max (intMin t w) (min (intMax t w) x))
def narrow (sat : Bool) (t : TypeCode) (w : Nat) (x : Int) : Nat := if sat then saturateTo t w x else wrapTo w x

/-- An integer as an exact value. -/
def Val.ofInt (x : Int) : Val := .fin (decide (x < 0)) x.natAbs 0

/-- A floating value to an integer type, always saturating (R64): rounded first, and judged on the rounded integer. -/
def toIntSat (rnd : Rnd) (z : Nat) (t : TypeCode) (w : Nat) (v : Val) : Rounded :=
  match v with
  | .nan _ => (0, fNV)
  | .inf s => (wrapTo w (if s then intMin t w else intMax t w), fNV)
  | .fin s m e =>
    let (n, nx) := roundInt rnd z s m e
    if n < intMin t w || intMax t w < n then (saturateTo t w n, fNV) else (wrapTo w n, if nx then fNX else 0)

/-- The counter mix (R88). -/
def mix (k key : Word) : Word :=
  let z := k + key * 0x9E3779B97F4A7C15
  let z := (z ^^^ (z >>> 30)) * 0xBF58476D1CE4E5B9
  let z := (z ^^^ (z >>> 27)) * 0x94D049BB133111EB
  z ^^^ (z >>> 31)

/-- The 32 bits that rsr adds for element i (R88). -/
def rsrDraw (rngkey : Word) (i : Nat) : Nat := (mix (rngkey + BitVec.ofNat 64 i) 0).toNat / 2 ^ 32

end Sys2Proof.Machine
end

