-- ==== Sys2Proof/Machine/State.lean ====
section
/-! DEFINITION. The state of the XD9 as plain data: everything the spec gives the device, and the schedule of its agents.
Reset values that the spec does not give are named in log entries 2 and 3. -/

namespace Sys2Proof.Machine

/-! ## A thread's context -/

/-- A vector register: at most 4,096 elements of 32 bits (R18, R36). -/
abbrev VReg := BitVec 131072

/-- A predicate register: one bit per element index, at most 32,768 of 4 bits (R18, R36, R99). -/
abbrev PReg := BitVec 32768

/-- A tile row: 1 KiB, 256 elements of 32 bits (R19, R151). -/
abbrev Row := BitVec 8192

/-- A fibre register: its pairs of coordinate and value code, as many as its occupancy (R127). -/
abbrev Fibre := List (BitVec 32 × BitVec 32)

/-- An entry of the loop stack (R65). -/
structure LoopEntry where
  start : Word
  last : Word
  left : Nat
  rotating : Bool
  n : Nat
  e : Nat
  done : Nat
  deriving DecidableEq, Repr

/-- A non-idle entry of the VP PC array (R122): its pc, and the address of its block's last word, if any. -/
structure VpPc where
  pc : Word
  last : Option Word
  deriving DecidableEq, Repr

/-- A set-aside frame (R342). -/
structure Frame where
  loops : List LoopEntry
  rrb : Nat
  vps : Table VpPc
  deriving DecidableEq, Repr

/-- A register in stream mode: its pattern and position (R230), the width of its type as its smode found it (R81), the level
of its smode (R192), and the number that tells this smode from others. -/
structure Stream where
  id : Nat
  base : Word
  count : List Nat
  stride : List Int
  type : Nat
  width : Nat
  pos : Nat
  priv : Bool
  deriving DecidableEq, Repr

/-- The context that a squash restores (R175) and a pre-emption saves (R347). -/
structure Ctx where
  x : Vector Word 64
  pc : Word
  priv : Bool
  v : Vector VReg 64
  p : Vector PReg 16
  f : Vector Fibre 16
  vl : Nat
  mode : BitVec 26
  fmt : Vector Word 8
  fflags : BitVec 5
  estart : Word
  fprog : Word
  rngkey : Word
  msat : Bool
  mmode : Word
  loops : List LoopEntry
  rrb : Nat
  vps : Table VpPc
  userFrame : Frame
  privFrame : Frame
  trapcause : Word
  trappc : Word
  trapval : Word
  pkidx : Word
  pkeylo : Word
  pkeyhi : Word
  streams : Table Stream
  deriving DecidableEq, Repr

/-! ## Translation and fabric requests -/

/-- A TLB entry (R315): its parcel, the page's first virtual address, its size and its leaf entry. -/
structure TlbEntry where
  parcel : Nat
  va : Nat
  big : Bool
  leaf : Word
  deriving DecidableEq, Repr

/-- Where an element of a register lies. -/
inductive Dest where
  | x (r : Nat)
  /-- element i of w bits of physical vector register r -/
  | v (r i w : Nat)
  | none
  deriving DecidableEq, Repr

/-- How a loaded value enters a scalar register (R194, R205). -/
inductive Ext where
  | sign | zero
  deriving DecidableEq, Repr

/-- A deferred load whose reply is outstanding (R189). open_ tells that its issuing chunk is still open. -/
structure Deferred where
  id : Nat
  dest : Dest
  va : Word
  pa : Nat
  n : Nat
  ext : Ext
  vector : Bool
  inChunk : Bool
  deriving DecidableEq, Repr

/-- What the reply of a fabric request does at its source. -/
inductive ReplyTo where
  /-- a load that its thread, or a VP of it, waits for (R188) -/
  | load (tid : Nat) (vp : Option Nat)
  /-- a deferred load -/
  | deferred (tid id : Nat)
  /-- a store or an atomic that returns nothing -/
  | ack (tid : Nat) (vector : Bool)
  /-- an atomic that returns the old value into a register -/
  | atomic (tid : Nat) (dest : Dest) (ext : Ext) (vector : Bool)
  /-- piece n of a copy: the read of its source, or the write of its destination -/
  | copyRead (copy n : Nat)
  | copyWrite (copy n : Nat)
  /-- the bit of a failed member in a copy's emask (R223) -/
  | copyMask (copy member : Nat)
  /-- piece n of post j of a parcel's traverse: the read of its source, the write of its destination; or the post's credit -/
  | postRead (parcel j n : Nat)
  | postWrite (parcel j n : Nat)
  | postCredit (parcel j : Nat)
  /-- a combined request, whose own answer is split (R291, R292) -/
  | combined
  deriving DecidableEq, Repr

/-- How elements of a vector instruction travel together: in one read of a line (R324), or in an extension packet, by byte stride or
by offsets (R328). -/
inductive BatchForm where
  | line | strided (stride : Int) | indexed
  deriving DecidableEq, Repr

/-- The transaction that an element's request travels in with others: its number and form, and the element's index. -/
structure Batch where
  id : Nat
  form : BatchForm
  elem : Nat
  deriving DecidableEq, Repr

/-- A fabric request that its core has issued, with no reply yet (R322 to R327). -/
structure FabricReq where
  id : Nat
  parcel : Nat
  die : Nat
  dev : Nat
  off : Nat
  /-- the tenant header (R325) -/
  header : BitVec 160
  op : ArrivingOp
  va : Word
  reply : ReplyTo
  port : Nat
  /-- it has left its core (R322) -/
  sent : Bool
  batch : Option Batch
  /-- the offset of the lowest element that it travels with, which chooses the port (R322) -/
  lead : Nat
  /-- the requests folded into it, in split order with their addends and input ports (R291, R292) -/
  parts : List Nat
  /-- folded into another request: never sent by itself -/
  folded : Bool
  issued : Nat
  stage : Nat
  /-- whether it waits in its stage's buffer for a partner, and the first and last of its constituents in the order of R292: input
  port and number of arrival -/
  waiting : Bool
  first : Nat × Nat
  last : Nat × Nat
  /-- the reply of a combined request, to be split (R292) -/
  answer : Option (Nat × List Byte)
  deriving DecidableEq, Repr

/-- A fabric reply that a thread, or a VP of it, waits for: the request's address and size, its code and its data. -/
structure Reply where
  vp : Option Nat
  pa : Nat
  n : Nat
  code : Nat
  data : List Byte
  deriving DecidableEq, Repr

/-! ## Matrix operations -/

/-- How the products of a K-group enter a tile: one fused step each (R94), through a window (R95), or as integers, wrapping or
saturating (R96). -/
inductive MopKind where
  | fused | window
  | integer (sat : Bool)
  deriving DecidableEq, Repr

/-- A matrix drain of msta (R169): its span in the crew scratchpad, its tag, the rows that it has read, each with its poison, and
the elements that it has written. -/
structure Drain where
  id : Nat
  tid : Nat
  parcel : Nat
  crew : Nat
  base : Nat
  pitch : Nat
  tag : Nat
  rows : List (Row × Bool)
  done : Marks
  deriving DecidableEq, Repr

/-- A queued tile operation (R155): its operands as read at its own point. -/
inductive TileOp where
  | zero (tile : Nat)
  /-- a K-group of length g, operand values with their block scales applied (R163, R166), and the kept positions -/
  | mop (tile g : Nat) (a b : Array Val) (keep : Option PReg) (kind : MopKind)
  | load (tile row0 : Nat) (rows : List Row)
  /-- the place at which a drain reads n rows -/
  | drain (tile row0 n : Nat) (d : Drain)
  deriving DecidableEq, Repr

/-! ## Engines -/

/-- A trap: code, subcode and value (R338, R339). -/
structure Trap where
  code : Nat
  sub : Nat
  val : Word
  deriving DecidableEq, Repr

/-- A plat's addressing, as a copy's elements use it (R359 to R361): the byte address of element 0, the width, the byte steps
of dimensions 1 upward, and the extents. -/
structure Layout where
  base : Word
  width : Nat
  steps : List Nat
  ext : List Nat
  zfill : Bool
  deriving DecidableEq, Repr

/-- A copy or multicast (R219): issued, and forked once its chunk has committed. -/
structure Copy where
  id : Nat
  tid : Nat
  core : Nat
  parcel : Nat
  priv : Bool
  cast : Bool
  stand : Nat
  src : Layout
  dst : Layout
  ssp : Bool
  dsp : Bool
  scrd : List Int
  dcrd : List Int
  ext : List Nat
  tag : Nat
  /-- location of the barrier, translated at issue (R217) -/
  bar : Option Nat
  emask : Word
  slots : Nat
  /-- an entry of the thread's own sixteen, else one of the shared (R221) -/
  own : Bool
  forked : Bool
  started : Bool
  /-- members by index with the crew that holds a scratchpad destination, and failed members (R223) -/
  members : List (Nat × Nat)
  failed : Marks
  /-- source pieces read (two to an element at most), and destination pieces written -/
  held : Table Nat
  done : Marks
  /-- failed members whose bit of emask has been set, or has failed to be (R223) -/
  masked : Marks
  credited : Nat
  fault : Option Trap
  deriving DecidableEq, Repr

/-- A plat's fields (R359, R363), with the width of its elements as its reader's format registers give it (R30). -/
structure Plat where
  etype : Nat
  width : Nat
  rank : Nat
  ovl : Bool
  zfill : Bool
  naxes : Nat
  m : List Nat
  shard : List Nat
  ext : List Nat
  blk : List Nat
  pitch : Nat
  stride : List Nat
  base : Word
  deriving DecidableEq, Repr

/-- An entry of a base table (R360). -/
structure BaseEntry where
  dev : Nat
  rrec : Word
  addr : Word
  deriving DecidableEq, Repr

/-- A post in flight (R370): source pieces read and destination pieces written, whether its credit is on its way, and whether it
has failed, its requests to be answered yet. -/
structure Post where
  j : Nat
  held : Table Nat
  done : Marks
  crediting : Bool
  failed : Bool
  deriving DecidableEq, Repr

/-- A traverse (R365, R369): the parcel's slot. The cursor's location is that of its translation at issue. -/
structure Traverse where
  tid : Nat
  tag : Nat
  core : Nat
  priv : Bool
  cursor : Word
  cursorLoc : Nat
  src : Plat
  dst : Plat
  srcTable : List BaseEntry
  dstTable : List BaseEntry
  /-- the device's own ranks -/
  srank : Option Nat
  drank : Option Nat
  nout : Nat
  nin : Nat
  next : Nat
  done : BitVec 64
  inflight : List Post
  stop : Option (Trap × Word)
  deriving DecidableEq, Repr

/-- What a forked engine keeps besides its own record: the translations it has taken (R318), and which bits of poisoned lines it
has written, by line (R350). -/
structure EngineSt where
  pages : List TlbEntry
  covers : Table (BitVec 1024)
  deriving DecidableEq, Repr

/-! ## Chunks and threads -/

/-- A launch made in an open chunk (R257), or committed. -/
structure Stand where
  members : Marks
  live : Nat
  arrived : Nat
  phase : Nat
  bits : Marks
  deriving DecidableEq, Repr

/-- A launch (R257, R267), with its gang sets as its stands make them (R264). -/
structure Launch where
  parcel : Nat
  count : Nat
  stands : List Stand
  sets : List Marks
  gang : Bool
  root : Bool
  entry : Word
  args : Word
  chunkhint : Nat
  part : BitVec 32
  prio : Nat
  cls : Nat
  /-- threads not yet placed for the first time (R258) -/
  unplaced : Nat
  deriving DecidableEq, Repr

/-- A parcel-wide register written in an open chunk (R301): 0 ptroot, 1 trapvec, 2 pshare. -/
structure ParcelWrite where
  which : Nat
  value : Word
  deriving DecidableEq, Repr

/-- A poison mark (R349, R351): file 0 scalar, 1 vector, 2 predicate, 3 fibre, 4 tile; register; 64-bit word, pair or row. -/
structure PoisonMark where
  file : Nat
  reg : Nat
  index : Nat
  deriving DecidableEq, Repr

/-- An open chunk (R175). The context and the poison marks are those at its opening (R347). Stores are held by location, as a mask and data; lines are locations divided by 128. -/
structure Chunk where
  start : Ctx
  poison : List PoisonMark
  explicit : Bool
  priority : Bool
  icount : Nat
  stores : Table (Byte × Byte)
  reads : Marks
  writes : Marks
  pages : List TlbEntry
  tileOps : List TileOp
  launches : Table Launch
  arrivals : List Nat
  fabricOut : List FabricReq
  parcelWrites : List ParcelWrite
  /-- the traverse that takes the parcel's slot at commit (R369) -/
  traverse : Option Traverse
  /-- copies and traverses issued, by tag (R224) -/
  issues : List Nat
  tagsAtOpen : Word
  tagsDone : Word
  /-- lines of atomics placed near and far (R207, R208), and whether elements are performed only after commit (R202) -/
  nearLines : List Nat
  farLines : List Nat
  late : Bool
  /-- the chunk has ended and is offered for commit; texit and tyield act at its commit (R259, R261) -/
  ended : Bool
  exits : Bool
  yields : Bool
  deriving DecidableEq, Repr

/-- What a blocked thread waits for (R254). -/
inductive Wait where
  | tagsAny (mask : Word)
  | tagsAll (mask : Word)
  | barrier (va : Word) (round : Nat)
  | phase (stand phase : Nat)
  | copyEntry
  | launchEntry
  deriving DecidableEq, Repr

/-- The state of a thread (R254). -/
inductive TState where
  | placementReady | runReady
  | runBlocked (w : Wait)
  | savedBlocked (w : Wait)
  deriving DecidableEq, Repr

/-- The pending asynchronous record (R345). -/
structure Pending where
  trap : Trap
  more : Bool
  deriving DecidableEq, Repr

/-- pause in progress (R306): the cycle it began at and the lines of the previous chunk. -/
structure Pause where
  since : Nat
  lines : Marks
  deriving DecidableEq, Repr

/-- A control thread (R254, R347). -/
structure Thread where
  tid : Nat
  parcel : Nat
  cls : Nat
  part : BitVec 32
  prio : Nat
  gang : Bool
  chunkhint : Nat
  st : List Nat
  ctx : Ctx
  state : TState
  /-- core within the device (R13), while resident, and the first quarter of its slot there (R263) -/
  core : Option Nat
  slot : Nat
  deficit : Int
  /-- cycle at which the present wait for placement, residence, blocking or strip began (R265, R266, R273) -/
  waitSince : Nat
  /-- its place among the threads that wait for placement (R258, R265) -/
  waitOrder : Nat
  residentSince : Nat
  stripSince : Option Nat
  /-- the strip granted to it (R272): for VPs those of the group that have still to execute, and the group last served (R285) -/
  strip : Option (List Nat)
  vpGroup : Option Nat
  /-- has waited too long: for placement (R265), blocked while resident (R266), for a strip (R273) -/
  aged : Bool
  evictable : Bool
  stripAged : Bool
  chunk : Option Chunk
  /-- consecutive squashes of the chunk opening here, and the instruction limit of the next attempt (R277) -/
  squashes : Nat
  limit : Nat
  squashesAtOne : Nat
  /-- token requests for a line that have failed since the last commit or trap, by line (R185) -/
  failures : Table Nat
  /-- chkstat's squashes field, and whether a chkbeg resets it (R214, R277) -/
  statSquashes : Nat
  statFresh : Bool
  /-- the lines that the thread's previous chunk read (R306) -/
  lastReads : Marks
  ctags : Word
  /-- the cycle in which the device last set a tag's bit (R6), by tag -/
  tagSet : Table Nat
  tagCounts : Table Nat
  tagFaults : Table Trap
  pending : Option Pending
  /-- a synchronous trap whose truncated chunk has still to commit (R340), and the VP it was taken from -/
  pendTrap : Option (Trap × Option Nat)
  /-- registers whose failed reply waits to be reported (R345) -/
  failedRegs : List Dest
  /-- the stand, phase and pc of an sbar that has arrived and still waits (R268) -/
  arrivedIn : Option (Nat × Nat × Word)
  /-- that of the level which a trap has left, by level -/
  userArrived : Option (Nat × Nat × Word)
  privArrived : Option (Nat × Nat × Word)
  mgrant : Nat
  tiles : Nat
  rows : Table Row
  tileQueue : List TileOp
  deferred : List Deferred
  replies : List Reply
  /-- stream data fetched ahead, by physical register and element: its location and code (R230, R231) -/
  refill : Table (Table (Nat × Nat))
  poison : List PoisonMark
  pause : Option Pause
  placed : Bool
  deriving DecidableEq, Repr

/-! ## Parcels and the device -/

/-- A parcel descriptor (R296) and the parcel's live registers (R301, R307, R298). -/
structure Parcel where
  crews : BitVec 96
  trapvec0 : Word
  ptroot0 : Word
  rquota : Nat
  kcount : Nat
  kfirst : Nat
  wlim : Nat
  kver : Nat
  ceiling : Nat
  state : Nat
  version : Nat
  ptroot : Word
  trapvec : Word
  pshare : Word
  outkey : BitVec 128
  apertures : Vector Word 8
  /-- the root thread that lives (R260) -/
  root : Option Nat
  /-- key rotations asked for and not begun, and the version being retired (R250) -/
  rotations : Bool
  retiring : Option Nat
  /-- the stacks whose pass has still to re-encrypt for that rotation -/
  toScrub : List Nat
  deriving DecidableEq, Repr

/-- An untracked MGD copy of a line on a die (R186). -/
structure MgdCopy where
  data : BitVec 1024
  dirty : BitVec 128
  deriving DecidableEq, Repr

/-- A write-back that has left its die and has not reached home (R187). -/
structure WriteBack where
  die : Nat
  line : Nat
  data : BitVec 1024
  mask : BitVec 128
  poison : Bool
  deriving DecidableEq, Repr

/-- A region-table entry (R240): region number, parcel, first and last line of virtual address, and the thread that declared it. -/
structure Region where
  tid : Nat
  parcel : Nat
  num : Nat
  first : Nat
  last : Nat
  deriving DecidableEq, Repr

/-- A fabric key entry (R307). -/
structure KeyEntry where
  key : BitVec 128
  localParcel : Nat
  stag : Nat
  sdev : Nat
  deriving DecidableEq, Repr

/-- A core (R17, R208, R272, R357). -/
structure CoreSt where
  part : BitVec 32
  fenced : Bool
  /-- contention predictor, most recently used first: line and count (R208) -/
  predictor : List (Nat × Nat)
  lastGranted : Nat
  deriving DecidableEq, Repr

/-- A persistent request (R185, R281). -/
structure Persistent where
  die : Nat
  tid : Nat
  line : Nat
  deriving DecidableEq, Repr

/-- A stack's state besides memory (R249 to R252, R244). -/
structure StackSt where
  log : Table (BitVec 128)
  next : Nat
  wrap : Bool
  /-- the cycle in which the device last set wrap (R6) -/
  wrapAt : Option Nat
  scrubHours : Nat
  /-- the time at which the present or last pass began, the next line that the pass may visit, and the parcels for which it
  re-encrypts -/
  passStart : Nat
  scrubbing : Option Nat
  rotating : List Nat
  postponed : Table Nat
  deriving DecidableEq, Repr

/-- The bring-up phase (R388): held by the reset pin; the step the sequence stands at; run after step 8; failed names a failed
step; tripped is the reset that follows a thermal trip (R396). -/
inductive Phase where
  | held | step (n : Nat) | run | failed (n : Nat) | tripped
  deriving DecidableEq, Repr

/-- A management message sent to the host (R390): code, parcel, sequence number, status, payload bytes and payload. -/
structure Message where
  code : Nat
  parcel : Nat
  seq : BitVec 8
  status : Nat
  len : Nat
  payload : Nat
  deriving DecidableEq, Repr

/-- What the device answers to another device's request (R327, R329), or to a read or atomic of the host (R335), whose device is
none: the port that it leaves by (R322), a code for each element, and data. -/
structure Answer where
  dev : Option Nat
  port : Option Nat
  codes : List Nat
  data : List Byte
  deriving DecidableEq, Repr

/-- Counters (R394), by name; their numbering is not architectural. -/
structure Counters where
  squashes : Nat
  falsePositives : Nat
  commits : Nat
  cascades : Nat
  deadReads : Nat
  refusals : Table Nat
  unownedRefusals : Nat
  corrected : Nat
  farPlacements : Nat
  nearPlacements : Nat
  postponements : Nat
  tlbHits : Nat
  tlbMisses : Nat
  partitionHits : Nat
  partitionEvictions : Nat
  deriving DecidableEq, Repr

/-! ## The schedule (log entry 1) -/

/-- Whose move a turn is. -/
inductive Mover where
  | thread (tid : Nat)
  | vp (tid i : Nat)
  | event (i : Instr)
  /-- the first of the requests that wait at a hub's management endpoint is taken up (R391) -/
  | endpoint (hub : Nat)
  deriving DecidableEq, Repr

/-- A turn: who moves, the cycles that have passed, whether a load that may be deferred is (R189), the element at which a chunk
ends inside a vector memory instruction, if it does (R178), squashes by false positives, and token requests that fail. -/
structure Turn where
  mover : Mover
  cycles : Nat
  defer : Bool
  cut : Option Nat
  /-- threads whose open chunks are squashed by signatures that meet though their lines do not (R180) -/
  falseHits : List Nat
  /-- token requests that fail: the thread and the line (R180, R185) -/
  refused : List (Nat × Nat)
  deriving DecidableEq, Repr

/-- The agent that executes the present instruction. -/
inductive Actor where
  | none
  | thread (tid : Nat)
  | vp (tid i : Nat)
  deriving DecidableEq, Repr

/-- The state of the device. -/
structure State where
  /-- schedule: the turns to come, the present agent, its fetched word and the translation it was fetched through, whether
  deferral is taken, where a vector memory instruction is cut, and the counter that free values are applied to (log entry 1) -/
  turns : List Turn
  actor : Actor
  fetched : BitVec 32
  fetchPage : Option TlbEntry
  defer : Bool
  cut : Option Nat
  draws : Nat
  /-- the movers that the default schedule has offered and not served, in the order of their waiting -/
  rota : List Mover
  phase : Phase
  devnum : Option Nat
  cycle : Nat
  /-- time since reset, in units of which a microsecond has 45,045,000, so that a cycle of every clock of R395 is a whole number
  of them (the model's own field) -/
  time : Nat
  clock : Nat
  /-- when the present window of 10 ms began (R395) -/
  windowStart : Nat
  powerLimit : Nat
  thermalHold : Bool
  mem : Memory
  /-- lines of live 4 KiB blocks (R247), poisoned lines (R246, R350), and key versions of lines where not 0 (R246) -/
  live : Marks
  poisoned : Marks
  lineKver : Table Nat
  scratchPoison : Marks
  frameOwner : Table Nat
  blockOwner : Table Nat
  parcels : Vector Parcel 64
  keys : Table KeyEntry
  routes : Table (BitVec 32)
  lost : Marks
  /-- width of each UALink port, 0 down (R323), and of the Fyzozor link with its version (R334) -/
  ports : Vector Nat 32
  fyzWidth : Nat
  fyzVersion : Nat
  /-- lanes at which the Fyzozor link may still train (R334) -/
  fyzMax : Nat
  /-- times: when each port last received and last sent a flit (R353), and when heartbeats were last sent and heard (R354) -/
  portHeard : Vector Nat 32
  portSent : Vector Nat 32
  beatSent : Nat
  beatHeard : Table Nat
  /-- what the device has answered to other devices and to the host -/
  answers : List Answer
  cores : Vector CoreSt 384
  regions : Vector (List Region) 8
  tlb : List (TlbUnit × TlbEntry)
  copiesMgd : Table MgdCopy
  writeBacks : List WriteBack
  threads : Table Thread
  launches : Table Launch
  nextLaunch : Nat
  nextId : Nat
  persistent : List Persistent
  ticketDie : Nat
  ticket : Option Nat
  priorityQueues : Vector (List Nat) 8
  /-- far operations at each home slice, by slice, and those that wait at their cores for a full queue (R282): line, thread, core -/
  farQueues : Table (List (Nat × Nat × Nat))
  farWaits : List (Nat × Nat × Nat × Nat)
  copies : List Copy
  drains : List Drain
  /-- what engines keep, by copy, drain or stream, and by 2^64 and a parcel for its traverse -/
  engines : Table EngineSt
  /-- threads that have left the device with drains of theirs still to read their rows (R283) -/
  departed : Table Thread
  traverses : Table Traverse
  /-- the parcel whose traverse last started a post (R370) -/
  lastPoster : Nat
  fabric : List FabricReq
  hbm : Vector StackSt 8
  /-- crews that are clock-gated, the cycle at which a crew last had a resident thread (R395), and crews that have left a parcel
  and are not cleared yet, by crew (R300) -/
  gated : Marks
  busy : Table Nat
  leaving : Table Nat
  counters : Counters
  sent : List Message
  /-- requests that wait at each hub, in the order of their arrival, and whether they have begun (R391) -/
  requests : List (Nat × Instr × Bool)
  /-- the context store (R348) -/
  store : ContextStore
  deriving DecidableEq, Repr

/-- Why the machine stops. -/
inductive Fault where
  /-- Raised by a meaning of the instruction set when State.actor names no thread that may execute: no thread of the
  device executes anything then. Safe: the hardware executes no instruction either. -/
  | noThread
  deriving DecidableEq, Repr

/-- Why the model gives no outcome. -/
inductive Refusal where
  /-- Raised by an arm of exec whose instruction has no meaning yet. Safe: nothing is claimed of it. -/
  | notModelled (mnemonic : String)
  deriving DecidableEq, Repr

/-! ## Reset (R388) -/

/-- The default partition word (R16). -/
def defaultPart : BitVec 32 := 0x12841088

def Frame.empty : Frame := { loops := [], rrb := 0, vps := [] }

/-- A free parcel (R296). -/
def Parcel.free : Parcel :=
  { crews := 0, trapvec0 := 0, ptroot0 := 0, rquota := 0, kcount := 0, kfirst := 0, wlim := 0, kver := 0, ceiling := 0,
    state := 0, version := 0, ptroot := 0, trapvec := 0, pshare := 0, outkey := 0, apertures := Vector.replicate 8 0,
    root := none, rotations := false, retiring := none, toScrub := [] }

def CoreSt.reset : CoreSt := { part := defaultPart, fenced := false, predictor := [], lastGranted := 0 }

def StackSt.reset : StackSt :=
  { log := [], next := 0, wrap := false, wrapAt := none, scrubHours := 8, passStart := 0, scrubbing := none, rotating := [], postponed := [] }

/-- The context store of a device out of reset: the last 4,096 frames, with room for a context of every resident (log entry 74). -/
def ContextStore.reset : ContextStore := { first := 2 ^ 23 - 4096, frames := 4096, room := 6144 }

def Counters.zero : Counters :=
  { squashes := 0, falsePositives := 0, commits := 0, cascades := 0, deadReads := 0, refusals := [], unownedRefusals := 0,
    corrected := 0, farPlacements := 0, nearPlacements := 0, postponements := 0, tlbHits := 0, tlbMisses := 0,
    partitionHits := 0, partitionEvictions := 0 }

/-- The device at the end of bring-up step 8 (R388), with no parcel created. -/
def State.reset : State :=
  { turns := [], actor := .none, fetched := 0, fetchPage := none, defer := false, cut := none, draws := 0, rota := [],
    phase := .run, devnum := some 0, cycle := 0, time := 0, clock := 1750, windowStart := 0, powerLimit := 2400, thermalHold := false,
    mem := [], live := [], poisoned := [], lineKver := [], scratchPoison := [],
    frameOwner := [], blockOwner := [], parcels := Vector.replicate 64 Parcel.free, keys := [], routes := [], lost := [],
    ports := Vector.replicate 32 4, fyzWidth := 32, fyzVersion := 1, fyzMax := 32,
    portHeard := Vector.replicate 32 0, portSent := Vector.replicate 32 0, beatSent := 0, beatHeard := [], answers := [], cores := Vector.replicate 384 CoreSt.reset,
    regions := Vector.replicate 8 [], tlb := [], copiesMgd := [], writeBacks := [], threads := [], launches := [],
    nextLaunch := 0, nextId := 0, persistent := [], ticketDie := 0, ticket := none,
    priorityQueues := Vector.replicate 8 [], farQueues := [], farWaits := [], copies := [], drains := [], engines := [], departed := [],
    traverses := [], lastPoster := 0, fabric := [], hbm := Vector.replicate 8 StackSt.reset, gated := [], busy := [], leaving := [], counters := Counters.zero,
    sent := [], requests := [], store := ContextStore.reset }

end Sys2Proof.Machine
end

