-- ==== Sys2Proof/Machine/Memory.lean ====
section
/-! DEFINITION. Memory as the device sees it: locations, units of the order and the squashes they cause (08), translation
and its checks (14). -/

namespace Sys2Proof.Machine

/-! ## Locations

A location names one byte that a chunk or an engine reads or writes: a physical address, a byte of a crew's scratchpad, or
a byte of a die's own view of a managed line (R172, R186, R236). A line is a location divided by 128. -/

def scratchBase : Nat := 2 ^ 52
def viewBase : Nat := 2 ^ 56

def scratchLoc (crew off : Nat) : Nat := scratchBase + crew * 2 ^ 23 + off
def viewLoc (die pa : Nat) : Nat := (die + 1) * viewBase + pa

/-- The address that the byte of a view stands for. -/
def viewPa (loc : Nat) : Nat := loc % viewBase
def viewDie (loc : Nat) : Nat := loc / viewBase - 1

/-- Pseudo-lines for state that is read and written like memory: a stand's phase (R268) and a traverse slot (R369). -/
def standLine (launch stand : Nat) : Nat := 2 ^ 80 + launch * 256 + stand
def slotLine (parcel : Nat) : Nat := 2 ^ 79 + parcel

def crewOf (core : Nat) : Nat := core / 4
def dieOf (core : Nat) : Nat := core / 48

/-- The die whose stack holds a physical address (R234). -/
def homeDie (pa : Nat) : Option Nat := if pa < 2 ^ 39 then some (pa / 2 ^ 36) else none

def distinct (l : List Nat) : Marks := l.foldl (fun m k => mput k m) []

def State.core (s : State) (c : Nat) : CoreSt := s.cores[c]?.getD CoreSt.reset
def State.parcel (s : State) (p : Nat) : Parcel := s.parcels[p]?.getD Parcel.free
def State.setParcel (s : State) (p : Nat) (q : Parcel) : State := { s with parcels := s.parcels.setIfInBounds p q }
def State.setCore (s : State) (c : Nat) (q : CoreSt) : State := { s with cores := s.cores.setIfInBounds c q }
def State.setThread (s : State) (t : Thread) : State := { s with threads := tput t.tid t s.threads }
def State.stack (s : State) (k : Nat) : StackSt := s.hbm[k]?.getD StackSt.reset
def State.setStack (s : State) (k : Nat) (q : StackSt) : State := { s with hbm := s.hbm.setIfInBounds k q }
def State.regionsOf (s : State) (d : Nat) : List Region := s.regions[d]?.getD []
def State.setRegions (s : State) (d : Nat) (r : List Region) : State := { s with regions := s.regions.setIfInBounds d r }
def State.count (s : State) (f : Counters → Counters) : State := { s with counters := f s.counters }
def State.send (s : State) (m : Message) : State := { s with sent := s.sent ++ [m] }

/-! Fields of the partition word (R14). -/

def partRf (w : BitVec 32) : Nat := (w.extractLsb' 0 5).toNat
def partFib (w : BitVec 32) : Nat := (w.extractLsb' 5 5).toNat
def partAcc (w : BitVec 32) : Nat := (w.extractLsb' 10 5).toNat
def partScr (w : BitVec 32) : Nat := (w.extractLsb' 15 5).toNat
def partL1 (w : BitVec 32) : Nat := (w.extractLsb' 20 5).toNat
def partFcap (w : BitVec 32) : Nat := (w.extractLsb' 25 4).toNat

/-- A valid partition word (R15). -/
def partOk (w : BitVec 32) : Bool :=
  w.extractLsb' 29 3 == 0 && partRf w + partFib w + partAcc w + partScr w + partL1 w == 32
    && (partRf w == 4 || partRf w == 8 || partRf w == 16) && partFib w ≤ 4 && partAcc w ≤ 4 && 4 ≤ partL1 w
    && partFcap w ≤ 9 && (if partFib w == 0 then partFcap w == 0 else 2 ^ (partFcap w + 2) * 128 ≤ partFib w * 65536)

/-- VLMAX for 32-bit elements (R18): the class's share of the register file divided by 256 bytes. -/
def vlmaxOf (part : BitVec 32) (cls : Nat) : Nat :=
  partRf part * 256 / (match cls with | 0 => 32 | 1 => 16 | 2 => 2 | _ => 1)

/-- FCAP in pairs, 0 where fibre registers are absent (R14, R15). -/
def fcapOf (part : BitVec 32) : Nat := if partFib part = 0 then 0 else 2 ^ (partFcap part + 2)

/-- Bytes of scratchpad that a core contributes (R20); a fenced core's portion does not exist (R358). -/
def portion (c : CoreSt) : Nat := if c.fenced then 0 else partScr c.part * 65536

/-- Whether a crew-scratchpad offset lies in the current portions (R20). -/
def State.scratchOk (s : State) (crew off : Nat) : Bool :=
  off < 2 ^ 23 && off % 2 ^ 21 < portion (s.core (crew * 4 + off / 2 ^ 21))

/-- The region of a die that holds a parcel's virtual address (R240). -/
def State.inRegion (s : State) (die parcel va : Nat) : Bool :=
  (s.regionsOf die).any fun r => r.parcel == parcel && r.first ≤ va / 128 && va / 128 ≤ r.last

/-! ## Squashes -/

/-- The instruction limit that hardware chooses for a thread's implicit chunks (R176, R277). -/
def baseLimit (chunkhint : Nat) : Nat := if chunkhint = 0 then 16384 else min 16384 (max 16 chunkhint)

/-- ctags after a squash (R224): a bit reads 1 if nothing with that tag is outstanding and it was set at the chunk's
opening or completed during the chunk. -/
def squashTags (counts : Table Nat) (c : Chunk) : Word :=
  (List.range 64).foldl (fun w i =>
    if tget 0 i counts = 0 && (c.tagsAtOpen ||| c.tagsDone).getLsbD i then w ||| (1#64 <<< i) else w) 0

/-- Drop one issue of each tag listed. -/
def dropIssues (counts : Table Nat) (tags : List Nat) : Table Nat :=
  tags.foldl (fun m i => tset 0 i (tget 0 i m - 1) m) counts

/-- A thread whose open chunk is squashed (R175, R180, R277): its context and the poison marks of its registers are those at the
opening (R347); tile rows are as they are (R157). -/
def Thread.squashed (t : Thread) (c : Chunk) : Thread :=
  let counts := dropIssues t.tagCounts c.issues
  let n := t.squashes + 1
  { t with
    ctx := c.start, poison := c.poison.filter (·.file != 4) ++ t.poison.filter (·.file == 4),
    chunk := none, pendTrap := none, strip := none, stripSince := none, tagCounts := counts, ctags := squashTags counts c,
    deferred := t.deferred.filter (!·.inChunk), replies := [], squashes := n,
    limit := if c.explicit || n < 4 then t.limit else max 1 (t.limit / 2),
    squashesAtOne := if !c.explicit && t.limit = 1 then t.squashesAtOne + 1 else t.squashesAtOne,
    statSquashes := if c.explicit then t.statSquashes + 1 else t.statSquashes }

/-- What a squash takes from the device: operations issued and not forked (R23), loads whose value is discarded (R188). -/
def State.dropIssued (s : State) (tids : List Nat) : State :=
  { s with
    copies := s.copies.filter fun c => c.forked || !tids.contains c.tid
    fabric := s.fabric.filter fun q =>
      match q.reply with
      | .load tid _ => !tids.contains tid
      | .deferred tid id =>
        !(tids.contains tid && ((tfind tid s.threads).any fun t => t.deferred.any fun d => d.id == id && d.inChunk))
      | _ => true }

/-! ## The contention predictor (R208): entries most recently used first -/

/-- The predictor after a use of a line. -/
def CoreSt.touch (c : CoreSt) (line : Nat) : CoreSt :=
  match c.predictor.find? fun e => e.1 == line with
  | some e => { c with predictor := e :: c.predictor.filter fun e => e.1 != line }
  | none => c

def CoreSt.predicted (c : CoreSt) (line : Nat) : Nat :=
  match c.predictor.find? fun e => e.1 == line with | some e => e.2 | none => 0

/-- A near atomic to the line was squashed or refused. -/
def CoreSt.heat (c : CoreSt) (line : Nat) : CoreSt :=
  let rest := c.predictor.filter fun e => e.1 != line
  { c with predictor := ((line, min 3 (c.predicted line + 1)) :: rest).take 64 }

/-- A far atomic found no other core's request waiting. -/
def CoreSt.cool (c : CoreSt) (line : Nat) : CoreSt :=
  { c with predictor := c.predictor.map fun e => if e.1 == line then (e.1, e.2 - 1) else e }

/-- A chunk with near atomics is squashed by a conflict on these lines (R208). -/
def State.heatFor (s : State) (who : Option Nat) (lines : Marks) : State :=
  s.threads.foldl (fun s e =>
    match e.2.chunk, e.2.core with
    | some c, some k => if some e.1 = who then s else (c.nearLines.filter (lines.contains ·)).foldl (fun s l => s.setCore k ((s.core k).heat l)) s
    | _, _ => s) s

/-- Squash the open chunks of the threads that a test picks. -/
def State.squashIf (s : State) (p : Thread → Chunk → Bool) : State :=
  let hit (t : Thread) : Bool := match t.chunk with | some c => p t c | none => false
  let tids := (s.threads.filter fun e => hit e.2).map (·.1)
  if tids.isEmpty then s else
  let s := s.dropIssued tids
  { s with
    threads := s.threads.map fun (k, t) => (k, match t.chunk with | some c => if p t c then t.squashed c else t | none => t)
    persistent := s.persistent.filter fun q => !tids.contains q.tid
    counters := { s.counters with squashes := s.counters.squashes + tids.length } }

/-- A chunk's footprint meets a set of lines (R180). -/
def Chunk.meets (c : Chunk) (lines : Marks) : Bool := lines.any fun l => c.reads.contains l || c.writes.contains l

/-- An access of these lines conflicts with what a chunk has read or written (R171, R184): a write with either, a read with a
write. -/
def Chunk.clash (c : Chunk) (reads writes : Marks) : Bool := c.meets writes || reads.any c.writes.contains

/-- The open chunk that holds the priority ticket is one that a test picks, and no other agent may squash it (R279). -/
def State.pins (s : State) (who : Option Nat) (p : Thread → Chunk → Bool) : Bool :=
  match s.ticket with
  | some h => some h != who && ((tfind h s.threads).any fun t => t.chunk.any (p t))
  | none => false

/-- The chunk that holds the priority ticket stands in the way of another agent's write of these lines (R279). -/
def State.held (s : State) (who : Option Nat) (lines : Marks) : Bool := s.pins who fun _ c => c.meets lines

/-- A thread's accesses wait for these lines: the chunk under the priority ticket holds one (R279); the first of the persistent
requests for one is another thread's; or it is the thread's own, and another chunk has still to give up its tokens (R185, R281).
The ticket's holder is served before every persistent request. -/
def State.barred (s : State) (tid : Nat) (reads writes : Marks) : Bool :=
  s.pins (some tid) (fun _ c => c.clash reads writes) ||
    (s.ticket != some tid && (reads ++ writes).any fun l =>
      match s.persistent.find? (·.line == l) with
      | none => false
      | some q =>
        q.tid != tid || s.threads.any fun e => e.1 != tid &&
          e.2.chunk.any (·.clash (reads.filter (· == l)) (writes.filter (· == l))))

/-- The tokens of lines that the ticket's holder accesses go to it: the other chunks that hold them are squashed (R279). -/
def State.yieldTokens (s : State) (tid : Nat) (reads writes : Marks) : State :=
  if s.ticket != some tid then s else s.squashIf fun t c => t.tid != tid && c.clash reads writes

/-- A thread's token request for a line fails while a conflicting chunk holds it (R180): its chunk is squashed, the failure is
counted towards a persistent request (R185), and the contention predictor hears of an atomic's (R208). The ticket's holder never
fails (R279). -/
def State.refuse (s : State) (tid line : Nat) : State :=
  match tfind tid s.threads with
  | none => s
  | some t =>
    let mine (c : Chunk) : Bool := s.threads.any fun e =>
      e.1 != tid && e.2.chunk.any (·.clash (c.reads.filter (· == line)) (c.writes.filter (· == line)))
    match t.chunk with
    | none => s
    | some c =>
      if s.ticket == some tid || !mine c then s else
      let k := t.core.getD 0
      let s := if c.nearLines.contains line then s.setCore k ((s.core k).heat line) else s
      let s := s.setThread { t with failures := tset 0 line (tget 0 line t.failures + 1) t.failures }
      s.squashIf fun u _ => u.tid == tid

/-- The lines of a die's own views of lines at home. -/
def viewLines (die : Nat) (lines : List Nat) : List Nat := lines.map fun l => viewLoc die (l * 128) / 128

/-! ## Late values (R189, R345) -/

/-- A loaded value of n bytes as a register takes it. -/
def extend (e : Ext) (n x : Nat) : Word :=
  match e with
  | .sign => word (sextNat x (8 * n))
  | .zero => BitVec.ofNat 64 x

/-- Enter an error in a thread's pending record (R345): a later one only sets more. -/
def Thread.record (t : Thread) (f : Trap) : Thread :=
  match t.pending with
  | none => { t with pending := some { trap := f, more := false } }
  | some p => { t with pending := some { p with more := true } }

/-- Write w bits as element i of a vector register (R41, elem). -/
def setElem (v : VReg) (i w x : Nat) : VReg :=
  (v &&& ~~~((BitVec.ofNat 131072 (2 ^ w - 1)) <<< (i * w))) ||| ((BitVec.ofNat 131072 (x % 2 ^ w)) <<< (i * w))

/-- Element i of w bits of a vector register (R41, elem). -/
def getElem (v : VReg) (i w : Nat) : Nat := v.toNat / 2 ^ (i * w) % 2 ^ w

/-- Write a scalar register; x0 discards (R36). -/
def Ctx.setX (c : Ctx) (r : Nat) (w : Word) : Ctx := if r = 0 then c else { c with x := c.x.setIfInBounds r w }

def Ctx.setV (c : Ctx) (r : Nat) (v : VReg) : Ctx := { c with v := c.v.setIfInBounds r v }

/-- Put a late value into a context. -/
def Ctx.putDest (c : Ctx) (d : Dest) (ext : Ext) (n x : Nat) : Ctx :=
  match d with
  | .x r => c.setX r (extend ext n x)
  | .v r i w => c.setV r (setElem (c.v[r]?.getD 0) i w x)
  | .none => c

/-- Poison marks that a late value's write clears (R351): those of a scalar register, or of a 64-bit word that it covers whole. -/
def Dest.clears (d : Dest) (m : List PoisonMark) : List PoisonMark :=
  match d with
  | .x r => m.filter (· != { file := 0, reg := r, index := 0 })
  | .v r i w => if w = 64 then m.filter (· != { file := 1, reg := r, index := i }) else m
  | .none => m

/-- Put a late value into a thread: into its context, and into the context that a squash of its open chunk restores, unless
the value belongs to that chunk. It clears the poison that it replaces. -/
def Thread.putLate (t : Thread) (d : Dest) (ext : Ext) (n x : Nat) (inChunk : Bool) : Thread :=
  { t with
    ctx := t.ctx.putDest d ext n x
    poison := d.clears t.poison
    chunk := if inChunk then t.chunk else t.chunk.map fun c =>
      { c with start := c.start.putDest d ext n x, poison := d.clears c.poison } }

/-! ## Units of the order -/

/-- One byte written under a mask: location, mask, data. -/
abbrev Write := Nat × Byte × Byte

/-- Lay one byte over a line's data. -/
def overByte (data : BitVec 1024) (k : Nat) (b : Byte) : BitVec 1024 :=
  (data &&& ~~~((255#1024) <<< (k * 8))) ||| ((b.setWidth 1024) <<< (k * 8))

/-- The line that a fill brings from home (R186), with the die's own write-backs that are still on their way over it. -/
def State.fillData (s : State) (die line : Nat) : BitVec 1024 :=
  (s.writeBacks.filter fun w => w.die == die && w.line == line).foldl (fun data w =>
    (List.range 128).foldl (fun data k => if w.mask.getLsbD k then overByte data k (w.data.extractLsb' (k * 8) 8) else data) data)
    (BitVec.ofNat 1024 (natOfBytes (s.mem.bytes (line * 128) 128)))

/-- The copy that a die holds of a line, or the one that a fill brings (R186). -/
def State.copyOf (s : State) (die line : Nat) : MgdCopy :=
  (tfind (die * 2 ^ 48 + line) s.copiesMgd).getD { data := s.fillData die line, dirty := 0 }

def State.hasCopy (s : State) (die line : Nat) : Bool := (tfind (die * 2 ^ 48 + line) s.copiesMgd).isSome

/-- Fill a die's copy of a line from home (R186). -/
def State.takeCopy (s : State) (die line : Nat) : State :=
  { s with
    copiesMgd := tput (die * 2 ^ 48 + line) (s.copyOf die line) s.copiesMgd
    poisoned := if s.poisoned.contains line then mput (viewLoc die (line * 128) / 128) s.poisoned else s.poisoned }

/-- One byte at a location: home memory, scratchpad or a die's view. -/
def State.byteAt (s : State) (loc : Nat) : Byte :=
  if loc < viewBase then s.mem.byte loc
  else (s.copyOf (viewDie loc) (viewPa loc / 128)).data.extractLsb' (loc % 128 * 8) 8

def State.readObj (s : State) (loc n : Nat) : Nat := natOfBytes ((List.range n).map fun i => s.byteAt (loc + i))

/-- A read of a dead block is counted (R248). -/
def State.countDead (s : State) (loc : Nat) : State :=
  if loc < 2 ^ 39 && !s.live.contains (loc / 4096) then s.count fun k => { k with deadReads := k.deadReads + 1 } else s

/-- A deferred load that waits for a die's copy of a line (R189). -/
def Deferred.waitsFor (d : Deferred) (die line : Nat) : Bool :=
  viewBase ≤ d.pa && viewDie d.pa == die && viewPa d.pa / 128 == line

/-- A deferred load is performed: the bytes of its die's copy, or its poison, reported late (R345). -/
def Deferred.perform (s : State) (bad : Bool) (t : Thread) (d : Deferred) : Thread :=
  if bad then { t.record { code := 12, sub := 0, val := d.va } with failedRegs := d.dest :: t.failedRegs }
  else t.putLate d.dest d.ext d.n (s.readObj d.pa d.n) d.inChunk

/-- A thread whose deferred loads that waited for a die's copy of a line are performed. -/
def Thread.performLate (s : State) (bad : Bool) (die line : Nat) (t : Thread) : Thread :=
  { (t.deferred.filter (·.waitsFor die line)).foldl (Deferred.perform s bad) t with
    deferred := t.deferred.filter (!·.waitsFor die line) }

/-- The deferred loads that waited for a die's copy of a line are performed as it is filled, before any later access of the die
to the line (R186, R189). -/
def State.performLate (s : State) (die line : Nat) : State :=
  if s.threads.any fun e => e.2.deferred.any (·.waitsFor die line) then
    let bad := s.poisoned.contains (viewLoc die (line * 128) / 128)
    { s with threads := s.threads.map fun e => (e.1, e.2.performLate s bad die line) }
  else s

/-- Fill a die's copy of a line from home, if it holds none (R186). -/
def State.fillCopy (s : State) (die line : Nat) : State :=
  if s.hasCopy die line then s else ((s.takeCopy die line).countDead (line * 128)).performLate die line

/-- A die drops its copy of a line, and the poison of the copy with it. -/
def State.dropCopy (s : State) (die line : Nat) : State :=
  { s with
    copiesMgd := tdrop (die * 2 ^ 48 + line) s.copiesMgd
    poisoned := mdrop (viewLoc die (line * 128) / 128) s.poisoned }

/-- A line whose data is poisoned (R350): a die's copy holds poison of its own. -/
def State.poisonedAt (s : State) (loc : Nat) : Bool :=
  if loc < scratchBase then s.poisoned.contains (loc / 128)
  else if loc < viewBase then false
  else s.poisoned.contains (if s.hasCopy (viewDie loc) (viewPa loc / 128) then loc / 128 else viewPa loc / 128)

/-- The newest key version of the owner of a line of device memory (R246). -/
def State.kverOf (s : State) (line : Nat) : Nat :=
  match tfind (line / 512) s.frameOwner with
  | some p => (s.parcel p).kver
  | none => 0

/-- Write one byte under its mask. -/
def State.putByte (s : State) (w : Write) : State :=
  let (loc, mask, b) := w
  if loc < viewBase then
    let v := (s.mem.byte loc &&& ~~~mask) ||| (b &&& mask)
    { s with mem := s.mem.setByte loc v }
  else
    let d := viewDie loc
    let line := viewPa loc / 128
    let s := s.fillCopy d line
    let c := s.copyOf d line
    let k := loc % 128
    let v := (c.data.extractLsb' (k * 8) 8 &&& ~~~mask) ||| (b &&& mask)
    { s with copiesMgd := tput (d * 2 ^ 48 + line) { data := overByte c.data k v, dirty := c.dirty ||| (1#128 <<< k) } s.copiesMgd }

/-- A dead block becomes live, its lines under their owner's newest key version (R247, R248). -/
def State.revive (s : State) (block : Nat) : State :=
  if s.live.contains block then s else
  { s with
    live := mput block s.live
    lineKver := (List.range 32).foldl (fun m k => tset 0 (block * 32 + k) (s.kverOf (block * 32 + k)) m) s.lineKver }

/-- What a unit of the order does to a line besides its bytes: a block of device memory becomes live (R248), its key
version is the owner's newest (R246), and a wholly written line is poisoned no longer (R350). -/
def State.lineWritten (s : State) (whole : Bool) (line : Nat) : State :=
  let s := if line < 2 ^ 32 then
      let s := s.revive (line / 32)
      { s with lineKver := tset 0 line (s.kverOf line) s.lineKver } else s
  if whole then { s with poisoned := mdrop line s.poisoned } else s

/-- Threads in pause that wait on a line leave it (R306). -/
def State.wake (s : State) (who : Option Nat) (lines : Marks) : State :=
  { s with threads := s.threads.map fun (k, t) =>
      (k, match t.pause with
          | some q => if some k != who && q.lines.any (lines.contains ·) then { t with pause := none } else t
          | none => t) }

/-- Write bytes as one unit of the order (R181): every other open chunk whose footprint meets a written line is squashed. -/
def State.unit (s : State) (who : Option Nat) (ws : List Write) : State :=
  let lines := distinct (ws.map (·.1 / 128))
  let s := s.heatFor who lines
  let s := s.squashIf fun t c => some t.tid != who && c.meets lines
  let s := ws.foldl State.putByte s
  let s := lines.foldl (fun s l => s.lineWritten ((ws.filter fun (w : Write) => w.1 / 128 == l && w.2.1 == 255).length == 128) l) s
  let s := { s with scratchPoison := s.scratchPoison.filter fun k =>
      (ws.filter fun (w : Write) => scratchBase + k * 8 ≤ w.1 && w.1 < scratchBase + k * 8 + 8 && w.2.1 == 255).length != 8 }
  s.wake who lines

/-- Whole bytes at rising locations, as writes. -/
def writesOf (loc : Nat) : List Byte → List Write
  | [] => []
  | b :: r => (loc, 255, b) :: writesOf (loc + 1) r

/-- n bits at bit offset bit from a location, as masked writes. -/
def writesOfBits (loc bit n x : Nat) : List Write :=
  let lo := bit % 8
  let bytes := (lo + n + 7) / 8
  let mask := (2 ^ n - 1) * 2 ^ lo
  let data := x % 2 ^ n * 2 ^ lo
  (List.range bytes).map fun i => (loc + bit / 8 + i, BitVec.ofNat 8 (mask / 256 ^ i), BitVec.ofNat 8 (data / 256 ^ i))

/-- Poison a line of memory (R349, R350). -/
def State.poisonLine (s : State) (line : Nat) : State := { s with poisoned := mput line s.poisoned }

/-- The write-back of a copy's dirty bytes as it leaves its die. -/
def State.outgoing (s : State) (die line : Nat) (c : MgdCopy) : WriteBack :=
  { die, line, data := c.data, mask := c.dirty, poison := s.poisoned.contains (viewLoc die (line * 128) / 128) }

/-- A write-back replaces its bytes at home as one unit (R187); that of a poisoned copy poisons its line (R349). -/
def State.arriveHome (s : State) (w : WriteBack) : State :=
  let s := s.unit none ((List.range 128).filterMap fun k =>
    if w.mask.getLsbD k then some (w.line * 128 + k, (255 : Byte), w.data.extractLsb' (k * 8) 8) else none)
  if w.poison then s.poisonLine w.line else s

/-- A die writes back the dirty bytes of a copy as one unit at home (R187), and keeps it clean or drops it. -/
def State.writeBack (s : State) (die line : Nat) (drop : Bool) : State :=
  match tfind (die * 2 ^ 48 + line) s.copiesMgd with
  | none => s
  | some c =>
    let s := if c.dirty = 0 then s else s.arriveHome (s.outgoing die line c)
    if drop then s.dropCopy die line
    else { s with copiesMgd := tput (die * 2 ^ 48 + line) { c with dirty := 0 } s.copiesMgd }

/-- The lines of which a die holds a copy. -/
def State.copyLines (s : State) (die : Nat) : List Nat :=
  (s.copiesMgd.filter fun e => e.1 / 2 ^ 48 == die).map (·.1 % 2 ^ 48)

/-- Chunks of a die that read or wrote a copy that is dropped are squashed, so that a chunk sees one view. -/
def State.squashView (s : State) (die line : Nat) : State :=
  s.squashIf fun _ c => c.meets [(viewLoc die (line * 128)) / 128]

/-- Write-backs of a die that are on their way to home, performed now (R187). -/
def State.settle (s : State) (p : WriteBack → Bool) : State :=
  let go := s.writeBacks.filter p
  let s := { s with writeBacks := s.writeBacks.filter (!p ·) }
  go.foldl State.arriveHome s

/-! ## Translation (R310 to R318) -/

/-- A window of the physical address space (R319). -/
inductive Window where
  | device | registers | scratch | host | fabric
  deriving DecidableEq, Repr

/-- The window that holds a whole page. -/
def windowOf (pa size : Nat) : Option Window :=
  if pa + size ≤ 2 ^ 39 then some .device
  else if 2 ^ 40 ≤ pa && pa + size ≤ 2 ^ 41 then some .registers
  else if 2 ^ 41 ≤ pa && pa + size ≤ 2 ^ 41 + 2 ^ 23 then some .scratch
  else if 2 ^ 44 ≤ pa && pa + size ≤ 2 ^ 45 then some .host
  else if 2 ^ 51 ≤ pa && pa + size ≤ 2 ^ 51 + 2 ^ 49 then some .fabric
  else none

/-- The permissions that an access needs, and the subcode of its page faults (R313). -/
structure Need where
  r : Bool
  w : Bool
  x : Bool
  sub : Nat
  deriving DecidableEq, Repr

def Need.load : Need := { r := true, w := false, x := false, sub := 1 }
def Need.store : Need := { r := false, w := true, x := false, sub := 2 }
def Need.amo : Need := { r := true, w := true, x := false, sub := 2 }
def Need.fetch : Need := { r := false, w := false, x := true, sub := 3 }

/-- A translated access. -/
structure Access where
  va : Nat
  pa : Nat
  cls : Nat
  window : Window
  entry : TlbEntry
  deriving DecidableEq, Repr

/-! Fields of a page-table entry (R311). -/

def pteV (e : Word) : Bool := e.getLsbD 0
def pteR (e : Word) : Bool := e.getLsbD 2
def pteW (e : Word) : Bool := e.getLsbD 3
def pteX (e : Word) : Bool := e.getLsbD 4
def pteU (e : Word) : Bool := e.getLsbD 5
def pteClass (e : Word) : Nat := (e.extractLsb' 6 2).toNat
def pteLeaf (e : Word) : Bool := e.getLsbD 8
def ptePpn (e : Word) : Nat := (e.extractLsb' 16 36).toNat
def pteReserved (e : Word) : Bool := e.extractLsb' 52 12 != 0 || e.extractLsb' 9 7 != 0 || e.getLsbD 1

def TlbEntry.size (e : TlbEntry) : Nat := if e.big then 2 ^ 29 else 2 ^ 16
def TlbEntry.covers (e : TlbEntry) (va : Nat) : Bool := e.va ≤ va && va < e.va + e.size

/-- The levels below a table at t (R312). -/
def walkLevels (s : State) (parcel va sub : Nat) : List Nat → Nat → Except Trap TlbEntry
  | [], _ => .error { code := 4, sub, val := word va }
  | lvl :: rest, t =>
    if 2 ^ 39 ≤ t || tfind (t / 65536) s.frameOwner != some parcel then .error { code := 5, sub := 0, val := word va } else
    let a := t + 8 * (va / 2 ^ (42 - 13 * lvl) % 2 ^ 13)
    if s.poisonedAt a then .error { code := 12, sub := 0, val := word va } else
    let e : Word := BitVec.ofNat 64 (natOfBytes (s.mem.bytes a 8))
    let fault : Except Trap TlbEntry := .error { code := 4, sub, val := word va }
    if !pteV e || pteReserved e then fault
    else if !pteLeaf e then
      if lvl = 2 || e.extractLsb' 2 6 != 0 then fault else walkLevels s parcel va sub rest (ptePpn e * 65536)
    else if lvl = 0 || (lvl = 1 && ptePpn e % 2 ^ 13 != 0) then fault
    else
      let size := if lvl = 1 then 2 ^ 29 else 2 ^ 16
      .ok { parcel, va := va - va % size, big := lvl = 1, leaf := e }

/-- A walk (R312). -/
def State.walk (s : State) (parcel va sub : Nat) : Except Trap TlbEntry :=
  if 2 ^ 55 ≤ va then .error { code := 4, sub, val := word va }
  else walkLevels s parcel va sub [0, 1, 2] (field 51 16 (s.parcel parcel).ptroot.toNat * 65536)

/-- The whole page lies within one valid host aperture of the parcel (R298). -/
def apertureOk (p : Parcel) (pa size : Nat) : Bool :=
  p.apertures.toList.any fun a =>
    a.getLsbD 63 && field 27 0 a.toNat * 65536 + 2 ^ 44 ≤ pa
      && pa + size ≤ (field 27 0 a.toNat + field 56 28 a.toNat) * 65536 + 2 ^ 44

/-- The checks of R313 on a valid leaf. -/
def State.checkLeaf (s : State) (priv : Bool) (need : Need) (va : Nat) (e : TlbEntry) : Except Trap Access :=
  let base := ptePpn e.leaf * 65536
  let cls := pteClass e.leaf
  let pa := base + va % e.size
  let no : Except Trap Access := .error { code := 5, sub := 0, val := word va }
  if (need.r && !pteR e.leaf) || (need.w && !pteW e.leaf) || (need.x && (!pteX e.leaf || 1 < cls)) then no
  else if !priv && !pteU e.leaf then no
  else
    match windowOf base e.size with
    | none => no
    | some w =>
      let fits := match cls, w with
        | 0, .device | 0, .host | 0, .scratch | 1, .device | 1, .host => true
        | 2, .device | 2, .registers | 2, .host => true
        | 3, .fabric => true
        | _, _ => false
      let owned := match w with
        | .device => if e.big then tfind (base / 2 ^ 29) s.blockOwner == some e.parcel
                     else tfind (base / 2 ^ 16) s.frameOwner == some e.parcel
        | .host => apertureOk (s.parcel e.parcel) base e.size
        | _ => true
      if fits && owned then .ok { va, pa, cls, window := w, entry := e } else no

/-- The TLBs that an access of a core looks in (R315). -/
def tlbChain (core : Nat) : List TlbUnit := [.core core, .crew (crewOf core), .die (dieOf core)]

/-- The entries that a TLB holds at most (R315). -/
def tlbSize : TlbUnit → Nat
  | .core _ => 256
  | .crew _ => 4096
  | .die _ => 16384

/-- The entry of a TLB for a parcel's address. -/
def State.lookup (s : State) (parcel va : Nat) (u : TlbUnit) : Option TlbEntry :=
  (s.tlb.find? fun e => e.1 == u && e.2.parcel == parcel && e.2.covers va).map (·.2)

/-- A TLB takes an entry; a full one gives up its oldest. -/
def State.enterTlb (s : State) (u : TlbUnit) (e : TlbEntry) : State :=
  let mine := (s.tlb.filter (·.1 == u)).take (tlbSize u - 1)
  { s with tlb := (u, e) :: mine ++ s.tlb.filter (·.1 != u) }

/-- Translate and check for a core (R310 to R315): the nearest TLB entry of the parcel is used while it stands; else a walk. -/
def State.translate (s : State) (core parcel : Nat) (priv : Bool) (need : Need) (va : Nat) : Except Trap (Access × Bool) :=
  match (tlbChain core).findSome? (s.lookup parcel va) with
  | some e => (s.checkLeaf priv need va e).map (·, true)
  | none =>
    match s.walk parcel va need.sub with
    | .error f => .error f
    | .ok e => (s.checkLeaf priv need va e).map (·, false)

/-- A walk reads an entry in a dead block (R248). -/
def deadEntry (s : State) (va : Nat) : List Nat → Nat → Bool
  | [], _ => false
  | lvl :: rest, t =>
    let a := t + 8 * (va / 2 ^ (42 - 13 * lvl) % 2 ^ 13)
    let e : Word := BitVec.ofNat 64 (natOfBytes (s.mem.bytes a 8))
    a < 2 ^ 39 && (!s.live.contains (a / 4096) || (pteV e && !pteLeaf e && deadEntry s va rest (ptePpn e * 65536)))

/-- A translation that ends in a fault counts too (R394): a hit of the TLBs, or a miss, whose walk may have read a dead block. -/
def State.missed (s : State) (core parcel va : Nat) : State :=
  if ((tlbChain core).findSome? (s.lookup parcel va)).isSome then s.count fun c => { c with tlbHits := c.tlbHits + 1 }
  else
    let dead := deadEntry s va [0, 1, 2] (field 51 16 (s.parcel parcel).ptroot.toNat * 65536)
    s.count fun c => { c with tlbMisses := c.tlbMisses + 1, deadReads := c.deadReads + (if dead then 1 else 0) }

/-- Keep the translation in each of the core's TLBs that lacks it (R315), and count the hit or miss. -/
def State.keepEntry (s : State) (core : Nat) (a : Access) (hit : Bool) : State :=
  let s := (tlbChain core).foldl (fun s u => if (s.lookup a.entry.parcel a.va u).isSome then s else s.enterTlb u a.entry) s
  if hit then s.count fun c => { c with tlbHits := c.tlbHits + 1 } else s.count fun c => { c with tlbMisses := c.tlbMisses + 1 }

/-- Drop TLB entries, squashing every open chunk that has used one (R318). -/
def State.dropTlb (s : State) (p : TlbEntry → Bool) : State :=
  let s := s.squashIf fun _ c => c.pages.any p
  { s with tlb := s.tlb.filter (!p ·.2) }

/-- Where a checked access goes (R172, R173, R319, R336). -/
inductive Place where
  | loc (l : Nat)
  | dev (pa : Nat)
  | registers (off : Nat)
  | fabric (dev off : Nat)
  deriving DecidableEq, Repr

/-- The place of an access made from a core, or home for an engine (R173, R187, R192): a device page of class MGD is the
die's own view only inside a region of the die and away from home. -/
def State.placeOf (s : State) (core : Option Nat) (crew parcel : Nat) (a : Access) : Except Trap Place :=
  match a.window with
  | .registers => .ok (.registers (a.pa - 2 ^ 40))
  | .fabric => .ok (.fabric ((a.pa - 2 ^ 51) / 2 ^ 39) (a.pa % 2 ^ 39))
  | .scratch =>
    let off := a.pa - 2 ^ 41
    if s.scratchOk crew off then .ok (.loc (scratchLoc crew off)) else .error { code := 5, sub := 0, val := word a.va }
  | .host => .ok (if a.cls = 2 then .dev a.pa else .loc a.pa)
  | .device =>
    if a.cls = 2 then .ok (.dev a.pa)
    else
      match core with
      | some c =>
        let d := dieOf c
        if a.cls = 1 && homeDie a.pa != some d && s.inRegion d parcel a.va then .ok (.loc (viewLoc d a.pa))
        else .ok (.loc a.pa)
      | none => .ok (.loc a.pa)

end Sys2Proof.Machine
end

