-- ==== Sys2Proof/Machine/Fabric.lean ====
section
/-! DEFINITION. Fabric requests: leaving, arriving and completing (15, 16), and the errors that arrive later (R345). -/

namespace Sys2Proof.Machine

/-! ## Atomic operations (R205, R206) -/

/-- The new value that an atomic writes over m, in n bytes, and the flags it raises. -/
def amoApply (op : AmoOp) (n m v : Nat) : Nat × BitVec 5 :=
  let bits := 8 * n
  let sm := sextNat m bits
  let sv := sextNat v bits
  match op with
  | .add => ((m + v) % 2 ^ bits, 0)
  | .and => (m &&& v, 0)
  | .or => (m ||| v, 0)
  | .xor => (m ^^^ v, 0)
  | .min => (if sm ≤ sv then m else v, 0)
  | .max => (if sm ≤ sv then v else m, 0)
  | .minu => (min m v, 0)
  | .maxu => (max m v, 0)
  | .swap | .cas => (v, 0)
  | .fadd => addRne (n == 8) m v

/-- How an atomic's old value enters a register (R205): minu, maxu and fadd zero-extend a word. -/
def amoExt : AmoOp → Ext
  | .minu | .maxu | .fadd => .zero
  | _ => .sign

/-! ## Errors (R327, R339, R345) -/

/-- The trap that reports a reply code to the source parcel (R327, R339). -/
def replyTrap (code : Nat) (va : Word) : Trap :=
  if code ≤ 3 then { code := 6, sub := code, val := va }
  else if code = 4 then { code := 12, sub := 2, val := va }
  else { code := 13, sub := code, val := va }

/-- The flags of a floating atomic at a target, once its old value is known (R206). -/
def FabricReq.flags (q : FabricReq) (old : Nat) : BitVec 5 :=
  match q.op with
  | .amo .fadd dword v _ => (amoApply .fadd (if dword then 8 else 4) old (v.toNat % 2 ^ (if dword then 64 else 32))).2
  | _ => 0

def FabricReq.isFadd (q : FabricReq) : Bool := match q.op with | .amo .fadd _ _ _ => true | _ => false

/-- Raise flags late, so that a squash of the open chunk keeps them. -/
def Thread.raiseLate (t : Thread) (f : BitVec 5) : Thread :=
  { t with
    ctx := { t.ctx with fflags := t.ctx.fflags ||| f }
    chunk := t.chunk.map fun c => { c with start := { c.start with fflags := c.start.fflags ||| f } } }

/-- What stands for the code of a poisoned element between its read and its write (R350). -/
def poisonCode : Nat := 2 ^ 200

/-- A copy's element met an error: the copy stops in error (R222, R355). -/
def Copy.fail (c : Copy) (f : Trap) : Copy := if c.fault.isSome then c else { c with fault := some f }

def State.modCopy (s : State) (id : Nat) (f : Copy → Copy) : State :=
  { s with copies := s.copies.map fun c => if c.id == id then f c else c }

def Traverse.modPost (v : Traverse) (j : Nat) (f : Post → Post) : Traverse :=
  { v with inflight := v.inflight.map fun p => if p.j == j then f p else p }

/-- A post's element or credit met an error (R370): the post has failed, and the traverse stops. -/
def Traverse.failPost (v : Traverse) (j : Nat) (f : Trap) (va : Word) : Traverse :=
  { v.modPost j fun p => { p with failed := true } with stop := if v.stop.isSome then v.stop else some (f, va) }

/-- Post j has completed (R368): next rises over completed posts, and done lists the others from next upward. -/
def Traverse.advance (v : Traverse) : Nat → Traverse
  | 0 => v
  | k + 1 =>
    if v.done.getLsbD 0 then Traverse.advance { v with next := v.next + 1, done := v.done >>> 1 } k else v

def Traverse.complete (v : Traverse) (j : Nat) : Traverse :=
  { v with inflight := v.inflight.filter (·.j != j), done := v.done ||| (1#64 <<< (j - v.next)) }.advance 64

/-- The reply of a fabric request at its source (R188, R345): code 0 performs what the reply is for. -/
def State.finish (s : State) (q : FabricReq) (code : Nat) (data : List Byte) : State :=
  let s := { s with fabric := s.fabric.filter (·.id != q.id) }
  let f := replyTrap code q.va
  let onThread (tid : Nat) (g : Thread → Thread) : State := { s with threads := tmod tid g s.threads }
  match q.reply with
  | .load tid vp =>
    let n := match q.op with | .load n => n | _ => 0
    onThread tid fun t => { t with replies := { vp, pa := q.dev * 2 ^ 39 + q.off, n, code, data } :: t.replies }
  | .deferred tid id =>
    onThread tid fun t =>
      match t.deferred.find? (·.id == id) with
      | none => t
      | some d =>
        let t := { t with deferred := t.deferred.filter (·.id != id) }
        if code = 0 then t.putLate d.dest d.ext d.n (natOfBytes data) d.inChunk
        else { t.record f with failedRegs := d.dest :: t.failedRegs }
  | .ack tid _ =>
    if code = 0 && q.isFadd then
      if data.isEmpty then { onThread tid (·.raiseLate (Config.remoteFlags s.draws &&& 0x17)) with draws := s.draws + 1 }
      else onThread tid (·.raiseLate (q.flags (natOfBytes data)))
    else onThread tid fun t => if code = 0 then t else t.record f
  | .atomic tid d ext _ =>
    onThread tid fun t =>
      if code = 0 then (t.putLate d ext data.length (natOfBytes data) false).raiseLate (q.flags (natOfBytes data))
      else { t.record f with failedRegs := d :: t.failedRegs }
  | .copyRead id n =>
    if code = 0 then s.modCopy id fun c => { c with held := tput n (natOfBytes data) c.held }
    else if code = 4 then s.modCopy id fun c => { c with held := tput n poisonCode c.held }
    else s.modCopy id (·.fail f)
  | .copyMask id t =>
    (if code = 0 then s else s.modCopy id (·.fail f)).modCopy id fun c => { c with masked := mput t c.masked }
  | .copyWrite id n =>
    if code = 0 then s.modCopy id fun c => { c with done := mput n c.done } else s.modCopy id (·.fail f)
  | .postRead p j n =>
    { s with traverses := tmod p (fun v =>
        if code = 0 || code = 4 then
          v.modPost j fun e => { e with held := tput n (if code = 4 then poisonCode else natOfBytes data) e.held }
        else v.failPost j f q.va) s.traverses }
  | .postWrite p j n =>
    { s with traverses := tmod p (fun v =>
        if code = 0 then v.modPost j fun e => { e with done := mput n e.done }
        else v.failPost j f q.va) s.traverses }
  | .postCredit p j =>
    { s with traverses := tmod p (fun v => if code = 0 then v.complete j else v.failPost j f q.va) s.traverses }
  | .combined => s

/-! ## Tenant headers (R325) -/

/-- A tenant header of version 1. -/
def tenantHeader (key : BitVec 128) (stag sdev : Nat) : BitVec 160 :=
  key ++ BitVec.ofNat 6 stag ++ BitVec.ofNat 10 sdev ++ 0#8 ++ 1#8

def headerKey (h : BitVec 160) : BitVec 128 := h.extractLsb' 32 128
def headerStag (h : BitVec 160) : Nat := (h.extractLsb' 26 6).toNat
def headerSdev (h : BitVec 160) : Nat := (h.extractLsb' 16 10).toNat

/-- A header of another version, or with a nonzero reserved field, counts as none (the model's choice, log entry 75). -/
def headerOk (h : BitVec 160) : Bool := h.extractLsb' 0 16 == 1

/-! ## Leaving (R320 to R322, R353, R355) -/

/-- The thread that a request belongs to, unless an engine issued it. -/
def FabricReq.tid (q : FabricReq) : Option Nat :=
  match q.reply with
  | .load t _ => some t
  | .deferred t _ => some t
  | .ack t _ => some t
  | .atomic t _ _ _ => some t
  | _ => none

/-- Request m must be performed before request l: the same thread issued it earlier, to the same line (R196). -/
def FabricReq.precedes (m l : FabricReq) : Bool :=
  m.id < l.id && m.tid.isSome && m.tid == l.tid && m.dev == l.dev && m.off / 128 == l.off / 128

/-- The code with which a request completes at its source without being sent, if any. -/
def State.unsent (s : State) (dev off : Nat) : Option Nat :=
  if s.devnum = some dev then none
  else if s.lost.contains dev then some 6
  else
    match tfind dev s.routes with
    | none => some 5
    | some e =>
      if !e.getLsbD 31 then some 5 else
      let j := off / 128 % ((e.extractLsb' 20 2).toNat + 1)
      if s.ports[(e.extractLsb' (5 * j) 5).toNat]?.getD 0 = 0 then some 5 else none

/-- The port that a route gives (R322). -/
def State.routePort (s : State) (dev off : Nat) : Nat :=
  let e := tget 0 dev s.routes
  (e.extractLsb' (5 * (off / 128 % ((e.extractLsb' 20 2).toNat + 1))) 5).toNat

/-- The port that a request leaves through (R322); 32 stands for the turn-round at H0 of the device's own number (R320). -/
def State.portFor (s : State) (dev off : Nat) : Nat := if s.devnum = some dev then 32 else s.routePort dev off

/-- A request to another device that negotiated the vector-request extension, or to the device itself (R321, R324). -/
def State.extTo (s : State) (dev : Nat) : Bool := s.devnum = some dev || (tget 0 dev s.routes).getLsbD 30

/-- The addend and size of an integer fetch-and-add (R291). -/
def FabricReq.addend (q : FabricReq) : Option (Bool × Nat) :=
  match q.op with
  | .amo .add dword v _ => some (dword, v.toNat % 2 ^ (if dword then 64 else 32))
  | _ => none

/-- A request that may combine stands at a stage of its hub's butterfly: the stages are 0, 1 and 2 (R291, R332). -/
def FabricReq.standsAt (q : FabricReq) (stage : Nat) : Bool :=
  q.sent && !q.folded && q.answer.isNone && q.batch.isNone && q.addend.isSome && q.stage == stage && stage < 3 && q.port < 32

/-- It waits there for a partner. -/
def FabricReq.waitsAt (q : FabricReq) (stage : Nat) : Bool := q.waiting && q.standsAt stage

/-- A stage's buffer of 64 has room (R291). -/
def State.bufferFree (s : State) (stage port : Nat) : Bool :=
  (s.fabric.filter fun m => m.waitsAt stage && m.port / 16 == port / 16).length < 64

/-- The input of a stage at which a request arrives (R332): its die's at the first; elsewhere as the way to its output port fixes it,
which the spec does not give. -/
def stageInput (stage input port : Nat) : Nat := if stage = 0 then input else Config.stageInput (stage * 1024 + input * 32 + port) % 8

/-- A request must wait at its core: an earlier one of its thread, to its line, has left or will leave by another port (R322). -/
def State.waitsToLeave (s : State) (q : FabricReq) : Bool := s.fabric.any fun m => m.precedes q && m.port != q.port

/-- A request leaves its core with its tenant header, or completes at once in error. -/
def State.depart (s : State) (q : FabricReq) : State :=
  let port := s.portFor q.dev q.lead
  let q := { q with
    port, sent := true, issued := s.cycle, stage := 0, waiting := s.bufferFree 0 port, first := (q.die, q.id), last := (q.die, q.id) }
  match s.unsent q.dev q.lead with
  | some code => s.finish q code []
  | none =>
    { s with fabric := s.fabric.filter (·.id != q.id) ++ [q], portSent := s.portSent.setIfInBounds port s.time }

/-- A request is issued, with the parcel's outgoing key (R325). -/
def State.sendReq (s : State) (q : FabricReq) : State :=
  let q := { q with
    id := s.nextId, header := tenantHeader (s.parcel q.parcel).outkey q.parcel (s.devnum.getD 0), port := s.portFor q.dev q.lead }
  let s := { s with nextId := s.nextId + 1 }
  if s.waitsToLeave q then { s with fabric := s.fabric ++ [q] } else s.depart q

/-- Requests that travel together are issued at once, under one number (R324, R328). -/
def State.sendAll (s : State) (qs : List FabricReq) : State :=
  let tagged := qs.map fun q => { q with batch := q.batch.map fun b => { b with id := s.nextId } }
  tagged.foldl State.sendReq s

/-! ## Arriving (R326, R327, R366) -/

/-- Credit bytes to a transaction barrier (R228, R229). The barrier is a 128-bit object at a location. -/
def barField (o hi lo : Nat) : Nat := field hi lo o

/-- A barrier after its balance has changed: a balance of 0 completes the round (R228). -/
def barBalance (o : Nat) (bal : Int) : Nat :=
  let quorum := field 79 64 o
  let round := field 95 80 o
  let b : Nat := ((bal % 2 ^ 64 + 2 ^ 64) % 2 ^ 64).toNat
  let top := o / 2 ^ 96
  if b = 0 then quorum * 2 ^ 48 + quorum * 2 ^ 64 + (round + 1) % 2 ^ 16 * 2 ^ 80 + top * 2 ^ 96
  else b + quorum * 2 ^ 64 + round * 2 ^ 80 + top * 2 ^ 96

/-- A barrier with a failure recorded (R229): first names the failed member, or 0xFF_FFFF for a copy fault. -/
def barFail (o first : Nat) : Nat :=
  if field 127 127 o = 1 then (if field 126 126 o = 1 then o else o + 2 ^ 126)
  else o % 2 ^ 102 + first % 2 ^ 24 * 2 ^ 102 + field 126 126 o * 2 ^ 126 + 2 ^ 127

def barCredit (o bytes : Nat) : Nat := barBalance o (sextNat o 64 - bytes)

/-- A unit that replaces n bytes at a location. -/
def State.unitObj (s : State) (loc n x : Nat) : State := s.unit none (writesOf loc (bytesOfNat x n))

/-- Perform an admitted access at its home (R326, R327): the new state, the reply code and its data. -/
def State.performArrival (s : State) (off : Nat) (op : ArrivingOp) : State × Nat × List Byte :=
  match op with
  | .load n => if s.poisonedAt off then (s, 4, []) else (s.countDead off, 0, s.mem.bytes off n)
  | .store data mask =>
    let ws := (writesOf off data).zipWith (fun w m => (w.1, m, w.2.2)) mask
    (s.unit none (ws.filter (·.2.1 != 0)), 0, [])
  | .poison n => ((s.unit none (writesOf off (List.replicate n 0))).poisonLine (off / 128), 0, [])
  | .amo op dword value expected =>
    if s.poisonedAt off then (s, 4, []) else
    let n := if dword then 8 else 4
    let m := natOfBytes (s.mem.bytes off n)
    let v := value.toNat % 2 ^ (8 * n)
    let writes := op != .cas || m == expected.toNat % 2 ^ (8 * n)
    let s := s.countDead off
    ((if writes then s.unitObj off n (amoApply op n m v).1 else s), 0, bytesOfNat m n)
  | .credit post bytes =>
    let bit := off + 16 + post / 8
    if (s.mem.byte bit).getLsbD (post % 8) then (s, 0, [])
    else
      let o := barCredit (natOfBytes (s.mem.bytes off 16)) bytes
      (s.unit none (writesOf off (bytesOfNat o 16) ++ [(bit, 1#8 <<< (post % 8), 1#8 <<< (post % 8))]), 0, [])

/-- The frames that an arriving access touches: a credit's bitmap byte may lie in another than its barrier. -/
def arrivalFrames (off : Nat) (op : ArrivingOp) : List Nat :=
  match op with
  | .credit post _ => distinct [off / 65536, (off + 16 + post / 8) / 65536]
  | _ => [off / 65536]

/-- The check of R326 for one frame: the code with which it refuses, and the parcel that owns the frame. -/
def State.refusal (s : State) (h : BitVec 160) (frame : Nat) : Option (Nat × Option Nat) :=
  match tfind frame s.frameOwner with
  | none => some (1, none)
  | some q =>
    if s.lost.contains (headerSdev h) then some (2, some q) else
    match s.keys.find? fun e => e.2.localParcel == q && e.2.sdev == headerSdev h && e.2.stag == headerStag h with
    | none => some (2, some q)
    | some e => if e.2.key ≠ headerKey h then some (3, some q) else none

/-- A refusal raises the refusal counter of the frame's parcel, or that of unowned frames (R327). -/
def State.countRefusal (s : State) (q : Option Nat) : State :=
  s.count fun c => match q with
    | some p => { c with refusals := tset 0 p (tget 0 p c.refusals + 1) c.refusals }
    | none => { c with unownedRefusals := c.unownedRefusals + 1 }

/-- The check of a receiving port (R326), then the access. A request without the tenant header is refused with code 2 whatever its
frame (R323). A refusal changes only the refusal counters (R327). -/
def State.arrive (s : State) (header : Option (BitVec 160)) (off : Nat) (op : ArrivingOp) : State × Nat × List Byte :=
  match header.filter headerOk with
  | none => (s.countRefusal (tfind (off / 65536) s.frameOwner), 2, [])
  | some h =>
    match (arrivalFrames off op).findSome? (s.refusal h) with
    | some (code, q) => (s.countRefusal q, code, [])
    | none => s.performArrival off op

end Sys2Proof.Machine
end

