-- ==== Sys2Proof/Machine/Layout.lean ====
section
/-! DEFINITION. Tensor layouts (17, R359 to R364): plats and their checks, element addresses, and the traverse that two plats
derive. -/

namespace Sys2Proof.Machine

/-- Digits of n in a mixed radix, the first fastest. -/
def digits : List Nat → Nat → List Nat
  | [], _ => []
  | e :: r, n => n % e :: digits r (n / e)

def product (l : List Nat) : Nat := l.foldl (· * ·) 1

def ceilDiv (a b : Nat) : Nat := (a + b - 1) / b

/-! ## Element addresses (R361) -/

/-- Bytes from element 0 to the element of local indices c, and its bit within its first byte. -/
def Layout.offset (l : Layout) (c : List Nat) : Nat × Nat :=
  let bit := c.headD 0 * l.width
  (bit / 8 + ((c.drop 1).zip l.steps).foldl (fun acc e => acc + e.1 * e.2) 0, bit % 8)

/-- The address of an element, exact from a base in two's complement (R219). -/
def Layout.addr (l : Layout) (c : List Nat) : Int := l.base.toInt + (l.offset c).1

/-- The bytes that an element covers from its address. -/
def Layout.bytes (l : Layout) (c : List Nat) : Nat := ((l.offset c).2 + l.width + 7) / 8

/-- A corner's address overflows 64-bit two's complement or lies outside [0, 2^55) (R219). -/
def Layout.overflows (l : Layout) (c : List Nat) : Bool :=
  ((c.drop 1).zip l.steps).any (fun e => 2 ^ 63 ≤ e.1 * e.2) || l.addr c < 0 || 2 ^ 55 ≤ l.addr c

/-- A span of bytes in pieces that lie within one line each. -/
def pieces (a n : Nat) : List (Nat × Nat) :=
  let k := 128 - a % 128
  if n ≤ k then [(a, n)] else [(a, k), (a + k, n - k)]

/-! ## Plats (R359 to R362) -/

/-- A plat's fields from its 1,024 bits; the width of its elements is that of etype for its reader. -/
def Plat.decode (fmt : Vector Word 8) (o : Nat) : Plat :=
  { etype := field 12 8 o, width := typeWidth fmt (field 12 8 o), rank := field 15 13 o, ovl := field 16 16 o = 1,
    zfill := field 17 17 o = 1, naxes := field 22 20 o,
    m := (List.range 4).map fun a => field (74 + 11 * a) (64 + 11 * a) o,
    shard := (List.range 6).map fun k => field (130 + 3 * k) (128 + 3 * k) o,
    ext := (List.range 6).map fun k => field (351 + 32 * k) (320 + 32 * k) o,
    blk := (List.range 6).map fun k => field (543 + 32 * k) (512 + 32 * k) o,
    pitch := field 767 720 o,
    stride := (List.range 4).map fun k => field (815 + 48 * k) (768 + 48 * k) o,
    base := BitVec.ofNat 64 (field 1023 960 o) }

/-- The field of a dimension or an axis. -/
def nth (l : List Nat) (k : Nat) : Nat := l.getD k 0

/-- The byte step of dimension k, 1 upward. -/
def Plat.step (p : Plat) (k : Nat) : Nat := if k = 1 then p.pitch else nth p.stride (k - 2)

/-- P (R360). -/
def Plat.ranks (p : Plat) : Nat := product (p.m.take p.naxes)

/-- L_k (R361). -/
def Plat.local_ (p : Plat) (k : Nat) : Nat :=
  let s := nth p.shard k
  if s = 0 then nth p.ext k
  else nth p.blk k * ceilDiv (ceilDiv (nth p.ext k) (nth p.blk k)) (nth p.m (s - 1))

def Plat.dims (p : Plat) : List Nat := List.range p.rank

/-- The alignment of R362 (6): max(1, w / 8). -/
def Plat.align (p : Plat) : Nat := max 1 (p.width / 8)

/-- A plat breaks the reason of R362; reason 5 is judged apart. -/
def Plat.breaks (p : Plat) (o va : Nat) : Nat → Bool
  | 1 => field 7 0 o ≠ 1
  | 2 => p.rank = 0 || 6 < p.rank
  | 3 => 21 ≤ p.etype
  | 4 => (List.range 6).any fun k =>
      if k < p.rank then nth p.ext k = 0
      else nth p.ext k ≠ 0 || nth p.blk k ≠ 0 || nth p.shard k ≠ 0 || (k ≠ 0 && p.step k ≠ 0)
  | 5 => !p.ovl && ((2 ≤ p.rank && p.pitch < ceilDiv (p.local_ 0 * p.width) 8)
      || (3 ≤ p.rank && nth p.stride 0 < p.pitch * p.local_ 1)
      || [3, 4, 5].any fun k => k < p.rank && p.step k < p.step (k - 1) * p.local_ (k - 1))
  | 6 => (if p.naxes = 0 then p.base.toNat % p.align ≠ 0 else p.base.toNat % 32 ≠ 0)
      || [1, 2, 3, 4, 5].any fun k => p.step k % p.align ≠ 0
  | 7 => 4 < p.naxes || ((List.range 4).any fun a => (nth p.m a = 0) == decide (a < p.naxes)) || 1024 < p.ranks
  | 8 => p.dims.any fun k =>
      let s := nth p.shard k
      s ≠ 0 && s ≤ 4 && p.dims.any fun j => j < k && nth p.shard j = s
  | 9 => p.dims.any fun k =>
      let s := nth p.shard k
      if s = 0 then nth p.blk k ≠ 0 else 4 < s || p.naxes < s || nth p.blk k = 0
  | 10 => field 719 704 o ≠ 0 || field 319 146 o ≠ 0 || field 127 108 o ≠ 0 || field 63 23 o ≠ 0 || field 19 18 o ≠ 0
  | 11 => va % 128 ≠ 0
  | _ => false

/-- The smallest reason of 1 to 11 that applies (R362): reason 5 only where none of 7, 8 and 9 does. -/
def Plat.reason (p : Plat) (o va : Nat) : Option Nat :=
  let bad (k : Nat) : Bool := p.breaks o va k
  [1, 2, 3, 4, 5, 6, 7, 8, 9, 10, 11].find? fun k => bad k && !(k == 5 && (bad 7 || bad 8 || bad 9))

/-- The addressing of a shard of a plat from its element 0. -/
def Plat.layout (p : Plat) (base : Word) : Layout :=
  { base, width := p.width, steps := (List.range (p.rank - 1)).map fun k => p.step (k + 1), ext := p.ext.take p.rank,
    zfill := p.zfill }

/-- The last byte of a shard's span (R361). -/
def Plat.spanEnd (p : Plat) (base : Word) : Nat :=
  let l := p.layout base
  let c := p.dims.map fun k => p.local_ k - 1
  base.toNat + (l.offset c).1 + l.bytes c - 1

/-- An entry of a base table, and whether its reserved field is zero (R360). -/
def BaseEntry.decode (o : Nat) : BaseEntry :=
  { dev := field 137 128 o, rrec := BitVec.ofNat 64 (field 127 64 o), addr := BitVec.ofNat 64 (field 63 0 o) }

/-! ## The traverse (R363, R364) -/

/-- The coordinates of a rank. -/
def Plat.coords (p : Plat) (r : Nat) : List Nat := digits (p.m.take p.naxes) r

def Plat.rankOf (p : Plat) (c : List Nat) : Nat :=
  ((c.zip p.m).foldr (fun e acc => e.1 + e.2 * acc) 0)

def Plat.owner (p : Plat) (k g : Nat) : Nat := g / nth p.blk k % nth p.m (nth p.shard k - 1)

/-- The local index of a global index (R361). -/
def Plat.index (p : Plat) (k g : Nat) : Nat :=
  let b := nth p.blk k
  if nth p.shard k = 0 then g else g / (b * nth p.m (nth p.shard k - 1)) * b + g % b

/-- A run: its first index and the index after its last. -/
abbrev Run := Nat × Nat

/-- The runs of dimension k. -/
def runsOf (src dst : Plat) (k : Nat) : List Run :=
  let cut (p : Plat) (g : Nat) : Bool := nth p.shard k ≠ 0 && g % nth p.blk k = 0
  let e := nth src.ext k
  let starts := (List.range e).filter fun g => g = 0 || cut src g || cut dst g
  starts.zip (starts.drop 1 ++ [e])

/-- The cells, dimension rank - 1 most significant. -/
def cellsOf (src dst : Plat) : List (List Run) :=
  src.dims.foldl (fun acc k => (runsOf src dst k).flatMap fun r => acc.map fun c => c ++ [r]) [[]]

/-- The dimension sharded over an axis. -/
def Plat.sharding (p : Plat) (a : Nat) : Option Nat := p.dims.find? fun k => nth p.shard k = a + 1

def startOf (c : List Run) (k : Nat) : Nat := (c.getD k (0, 0)).1

/-- The source rank of a cell. -/
def Plat.sourceOf (p : Plat) (c : List Run) : Nat :=
  p.rankOf ((List.range p.naxes).map fun a => match p.sharding a with | some k => p.owner k (startOf c k) | none => 0)

/-- Whether a destination rank receives a cell. -/
def Plat.receives (p : Plat) (c : List Run) (t : Nat) : Bool :=
  ((List.range p.naxes).zip (p.coords t)).all fun (a, x) =>
    match p.sharding a with | some k => x == p.owner k (startOf c k) | none => true

/-- A post: its cell, its destination rank, and its index in that rank's incoming list. -/
structure PostOf where
  cell : List Run
  rank : Nat
  index : Nat
  deriving DecidableEq, Repr

/-- The incoming list of destination rank t: source ranks and cells. -/
def incoming (src dst : Plat) (t : Nat) : List (Nat × List Run) :=
  let cs := (cellsOf src dst).filter fun c => dst.receives c t
  (List.range src.ranks).flatMap fun s => (cs.filter fun c => src.sourceOf c == s).map fun c => (s, c)

/-- The outgoing list of source rank s. -/
def outgoing (src dst : Plat) (s : Nat) : List PostOf :=
  (List.range dst.ranks).flatMap fun t =>
    let l := incoming src dst t
    ((List.range l.length).zip l).filterMap fun (i, e) => if e.1 == s then some { cell := e.2, rank := t, index := i } else none

def cellCount (c : List Run) : Nat := product (c.map fun r => r.2 - r.1)

/-- A post's bytes (R363). -/
def cellBytes (p : Plat) (c : List Run) : Nat := ceilDiv (cellCount c * p.width) 8

/-- The local indices of element n of a cell, in a plat's shard. -/
def Plat.indices (p : Plat) (c : List Run) (n : Nat) : List Nat :=
  let y := digits (c.map fun r => r.2 - r.1) n
  ((p.dims.zip (c.zip y)).map fun (k, r, j) => p.index k (r.1 + j))

/-! ## Cursor records (R368) -/

/-- Masked writes of fields of a cursor record: first bit, width and value of each. -/
def cursorWrites (loc : Nat) (fs : List (Nat × Nat × Nat)) : List Write := fs.flatMap fun (lo, n, x) => writesOfBits loc lo n x

def cursorState (x : Nat) : Nat × Nat × Nat := (152, 8, x)

/-! ## Copies (R219, R223) -/

/-- What a copy does with one element of its box. -/
inductive Spot where
  | none
  | zero (d : List Nat)
  | move (s d : List Nat)
  deriving DecidableEq, Repr

def inside (c : List Int) (ext : List Nat) : Bool := (c.zip ext).all fun (x, e) => 0 ≤ x && x < e

/-- Element n of the box (R219). -/
def Copy.spot (c : Copy) (n : Nat) : Spot :=
  let y := digits c.ext n
  let at_ (l : List Int) : List Int := (l.zip y).map fun (x, j) => x + j
  let s := at_ c.scrd
  let d := at_ c.dcrd
  if !inside d c.dst.ext then .none
  else if !inside s c.src.ext then (if c.src.zfill then .zero (d.map Int.toNat) else .none)
  else .move (s.map Int.toNat) (d.map Int.toNat)

/-- Whether a crew's portions cover every surviving destination offset (R223). -/
def State.covers (s : State) (c : Copy) (crew : Nat) : Bool :=
  (List.range c.slots).all fun n =>
    match c.spot n with
    | .move _ d => (List.range (c.dst.bytes d)).all fun k => s.scratchOk crew ((c.dst.addr d).toNat + k)
    | _ => true

end Sys2Proof.Machine
end

