-- ==== Sys2Proof/Machine/Commit.lean ====
section
/-! DEFINITION. Threads' lives and chunks' commits: creation, removal, stands (12), commit at the landings (08, 13). -/

namespace Sys2Proof.Machine

/-! ## Threads -/

/-- The format registers at thread creation (R79). -/
def fmtReset : Vector Word 8 :=
  #v[0x00070343, 0x000F0D52, 0x00010121, 0x00030132, 0x00010123, 0x00070343, 0x00070343, 0x00070343]

/-- The mode register at thread creation (R29). -/
def modeReset : BitVec 26 := 0x14000A

/-- The context of a newly created thread (R36, R37, R40). -/
def Ctx.fresh (entry args : Word) (index count : Nat) : Ctx :=
  { x := (((Vector.replicate 64 (0 : Word)).set 4 args).set 5 (BitVec.ofNat 64 index)).set 6 (BitVec.ofNat 64 count),
    pc := entry, priv := false, v := Vector.replicate 64 0, p := Vector.replicate 16 0, f := Vector.replicate 16 [],
    vl := 0, mode := modeReset, fmt := fmtReset, fflags := 0, estart := 0, fprog := 0, rngkey := 0, msat := false, mmode := 0,
    loops := [], rrb := 0, vps := [], userFrame := Frame.empty, privFrame := Frame.empty, trapcause := 0, trappc := 0,
    trapval := 0, pkidx := 0, pkeylo := 0, pkeyhi := 0, streams := [] }

/-- The stands that thread i of a launch belongs to, as st0 to st3 list them (R49). -/
def Launch.standsOf (l : Launch) (i : Nat) : List Nat :=
  ((List.range l.stands.length).zip l.stands).filterMap fun (k, st) => if st.members.contains i then some k else none

/-- Thread i of launch n as it is created (R257, R260): its launch waits for placement from that place in the order. -/
def newThread (n : Nat) (l : Launch) (i now order : Nat) : Thread :=
  { tid := n * 2 ^ 24 + i, parcel := l.parcel, cls := l.cls, part := l.part, prio := l.prio, gang := l.gang,
    chunkhint := l.chunkhint, st := l.standsOf i, ctx := Ctx.fresh l.entry l.args i l.count, state := .placementReady,
    core := none, slot := 0, deficit := 0, waitSince := now, waitOrder := order + i, residentSince := 0, stripSince := none, strip := none,
    vpGroup := none, aged := false,
    evictable := false, stripAged := false, chunk := none, squashes := 0, failures := [],
    limit := baseLimit l.chunkhint, squashesAtOne := 0, statSquashes := 0, statFresh := false, lastReads := [], ctags := 0, tagSet := [],
    tagCounts := [], tagFaults := [], pending := none, pendTrap := none, failedRegs := [], arrivedIn := none, userArrived := none,
    privArrived := none, mgrant := 0,
    tiles := 1, rows := [], tileQueue := [], deferred := [], replies := [], refill := [], poison := [], pause := none, placed := false }

def launchOf (tid : Nat) : Nat := tid / 2 ^ 24
def indexOf (tid : Nat) : Nat := tid % 2 ^ 24

/-- Launches of a parcel that hold an entry of its launch queue (R258). -/
def State.queued (s : State) (parcel : Nat) : Nat :=
  (s.launches.filter fun e => e.2.parcel == parcel && e.2.unplaced ≠ 0).length

/-- With n more launches in a parcel's queue, an open chunk of the parcel would not find the entries that its launches have found free
(R258). -/
def State.crowds (s : State) (parcel n : Nat) (t : Thread) (c : Chunk) : Bool :=
  t.parcel == parcel && !c.launches.isEmpty && 4096 < s.queued parcel + n + c.launches.length

/-- Enter a launch and create its threads (R257). Open chunks that it leaves without an entry are squashed: executed again, their
launches find the queue full (R258). -/
def State.createLaunch (s : State) (n : Nat) (l : Launch) : State :=
  let l := { l with stands := l.stands.map fun (st : Stand) => { st with live := st.members.length } }
  let s := { s with
    launches := tput n l s.launches
    nextId := s.nextId + l.count
    threads := (List.range l.count).foldl (fun m i => tput (n * 2 ^ 24 + i) (newThread n l i s.cycle s.nextId) m) s.threads }
  s.squashIf (s.crowds l.parcel 0)

/-! ## Stands (R267 to R270) -/

/-- Advance a stand's phase when every live member has arrived. -/
def Stand.settle (st : Stand) : Stand :=
  if 1 ≤ st.live && st.arrived == st.live then { st with phase := (st.phase + 1) % 2 ^ 16, arrived := 0, bits := [] } else st

def Stand.arrive (st : Stand) (i : Nat) : Stand :=
  if st.bits.contains i then st else { st with arrived := st.arrived + 1, bits := mput i st.bits }.settle

/-- A member's exit (R270). -/
def Stand.leave (st : Stand) (i : Nat) : Stand :=
  if !st.members.contains i then st else
  { st with
    arrived := if st.bits.contains i then st.arrived - 1 else st.arrived
    bits := mdrop i st.bits, members := mdrop i st.members, live := st.live - 1 }.settle

/-- Change a launch's stands as one unit of the order: chunks that read a phase that advances are squashed (R268). -/
def State.modStands (s : State) (n : Nat) (who : Option Nat) (f : Nat → Stand → Stand) : State :=
  match tfind n s.launches with
  | none => s
  | some l =>
    let new := ((List.range l.stands.length).zip l.stands).map fun (k, st) => f k st
    let moved := ((List.range l.stands.length).zip (l.stands.zip new)).filterMap fun (k, a, b) =>
      if a.phase != b.phase then some (standLine n k) else none
    let s := if moved.isEmpty then s else s.squashIf fun t c => some t.tid != who && c.meets moved
    { s with launches := tput n { l with stands := new } s.launches }

/-- A thread arrives at stands of its launch (R268). -/
def State.arriveAt (s : State) (tid : Nat) (ks : List Nat) : State :=
  if ks.isEmpty then s else
  s.modStands (launchOf tid) (some tid) fun k st => if ks.contains k then st.arrive (indexOf tid) else st

/-! ## Engines that end (R222, R224, R370) -/

/-- What an engine keeps. -/
def State.engine (s : State) (eng : Nat) : EngineSt := (tfind eng s.engines).getD { pages := [], covers := [] }

/-- An engine has come to its end. -/
def State.dropEngine (s : State) (eng : Nat) : State := { s with engines := tdrop eng s.engines }

/-- A tag's operation has completed (R224): its count falls, and its bit is set at zero. -/
def Thread.tagDone (t : Thread) (now tag : Nat) (f : Option Trap) : Thread :=
  let n := tget 0 tag t.tagCounts - 1
  let bit : Word := if n = 0 then 1#64 <<< tag else 0
  { t with
    tagCounts := tset 0 tag n t.tagCounts
    ctags := t.ctags ||| bit
    tagSet := if n = 0 then tput tag now t.tagSet else t.tagSet
    chunk := t.chunk.map fun c => { c with tagsDone := c.tagsDone ||| bit }
    tagFaults := match f, tfind tag t.tagFaults with | some f, none => tput tag f t.tagFaults | _, _ => t.tagFaults }

def State.tagDone (s : State) (tid tag : Nat) (f : Option Trap) : State :=
  { s with threads := tmod tid (fun t => t.tagDone s.cycle tag f) s.threads }

/-- The number under which a parcel's traverse keeps its engine's record. -/
def traverseEngine (parcel : Nat) : Nat := 2 ^ 64 + parcel

/-- A location of the host's own memory (R319). -/
def ofHost (loc : Nat) : Bool := 2 ^ 44 ≤ loc && loc < 2 ^ 45

/-- The engine writes fields of a traverse's cursor as one unit, frees the slot and completes the tag (R370). A cursor in host memory
cannot be written while the link is down (R334): the tag then records a fault, as a stop's does (log entry 73). -/
def State.endTraverse (s : State) (parcel : Nat) (v : Traverse) (fs : List (Nat × Nat × Nat)) (f : Option Trap) : State :=
  let down := ofHost v.cursorLoc && s.fyzWidth = 0
  let s := if down then s else s.unit none (cursorWrites v.cursorLoc fs)
  let s := s.squashIf fun _ c => c.meets [slotLine parcel]
  ({ s with traverses := tdrop parcel s.traverses }.dropEngine (traverseEngine parcel)).tagDone v.tid v.tag
    (if down then some { code := 16, sub := 0, val := v.cursor } else f)

/-- A traverse whose posts have all completed (R370). -/
def State.finishTraverse (s : State) (parcel : Nat) (v : Traverse) : State :=
  s.endTraverse parcel v [cursorState 2, (128, 24, v.nout)] none

/-- A traverse that has stopped leaves its place and its cause in its cursor (R370). -/
def State.stopTraverse (s : State) (parcel : Nat) (v : Traverse) (f : Trap) (va : Word) : State :=
  s.endTraverse parcel v
    [cursorState 3, (128, 24, v.next), (256, 64, v.done.toNat), (184, 8, f.code), (216, 8, f.sub), (512, 64, va.toNat)]
    (some { code := 16, sub := 0, val := v.cursor })

/-- The place at which a drain reads its rows, which is no tile operation (R155, R169). -/
def TileOp.isDrain : TileOp → Bool
  | .drain _ _ _ _ => true
  | _ => false

/-! ## Removal (R254, R259, R299, R343, R356) -/

/-- The ticket passes on when its holder commits or leaves priority commit (R278, R280). -/
def State.releaseTicket (s : State) (tid : Nat) : State :=
  let s := { s with priorityQueues := s.priorityQueues.map fun q => q.filter (· != tid),
                    persistent := s.persistent.filter (·.tid != tid) }
  if s.ticket = some tid then { s with ticket := none, ticketDie := (s.ticketDie + 1) % 8 } else s

/-- A thread leaves the device: its chunk's issues are dropped, its resources released, and its stands lose it (R270). Committed
tile operations that a drain of it waits for are still performed (R283). -/
def State.removeThread (s : State) (tid : Nat) : State :=
  match tfind tid s.threads with
  | none => s
  | some t =>
    let s := (s.dropIssued [tid]).releaseTicket tid
    let s := { s with
      threads := tdrop tid s.threads
      departed := if t.tileQueue.any (·.isDrain) then tput tid { t with chunk := none } s.departed else s.departed
      engines := s.engines.filter fun e => !t.ctx.streams.any (·.2.id == e.1) }
    let s := s.modStands (launchOf tid) (some tid) fun _ st => st.leave (indexOf tid)
    let p := s.parcel t.parcel
    let s := if p.root = some tid then s.setParcel t.parcel { p with root := none } else s
    let n := launchOf tid
    if s.threads.any fun e => launchOf e.1 == n then
      if t.placed then s else { s with launches := tmod n (fun l => { l with unplaced := l.unplaced - 1 }) s.launches }
    else { s with launches := tdrop n s.launches }

/-! ## Commit (R179) -/

/-- A parcel-wide register takes its value at commit (R301). -/
def Parcel.write (p : Parcel) (w : ParcelWrite) : Parcel :=
  match w.which with
  | 0 => { p with ptroot := w.value }
  | 1 => { p with trapvec := w.value }
  | _ => { p with pshare := w.value }

/-- The members of a multicast as its fork fixes them, each with its crew (R223): with a scratchpad destination a member fails
that is not resident, or whose crew's portions do not cover a surviving offset. -/
def State.castMembers (s : State) (c : Copy) : Copy :=
  let ms := match tfind (launchOf c.tid) s.launches with
    | some l => match l.stands[c.stand]? with | some st => st.members | none => []
    | none => []
  let at_ (i : Nat) : Option Nat := (tfind (launchOf c.tid * 2 ^ 24 + i) s.threads).bind (·.core)
  { c with
    members := ms.map fun i => (i, match at_ i with | some k => crewOf k | none => 96)
    failed := if c.dsp then ms.filter fun i => match at_ i with | some k => !s.covers c (crewOf k) | none => true else [] }

/-- Engines forked by a thread's commit (R23, R192): its copies join the others in the order of the forks. -/
def State.forkAll (s : State) (tid : Nat) : State :=
  let new := s.copies.filter fun c => c.tid == tid && !c.forked
  if new.isEmpty then s else
  { s with
    copies := (s.copies.filter fun c => !(c.tid == tid && !c.forked)) ++
      new.map fun c => if c.cast then s.castMembers { c with forked := true } else { c with forked := true } }

/-- A chunk's traverse takes its parcel's slot (R369): other open chunks that have read or claimed the slot are squashed. One without
posts completes at its fork. -/
def State.forkTraverse (s : State) (tid parcel : Nat) : Option Traverse → State
  | some v =>
    let s := s.squashIf fun t c => t.tid != tid && c.meets [slotLine parcel]
    if v.nout = 0 then s.finishTraverse parcel v else { s with traverses := tput parcel v s.traverses }
  | none => s

/-- The home slice of a line, or the slice of the executing die that serves a line of its own view (R207, R235). -/
def sliceOf (core line : Nat) : Nat :=
  let die := (homeDie (line * 128)).getD (dieOf core)
  die * 96 + Config.homeSlice (viewPa (line * 128) / 128) % 96

/-- A far operation joins the queue of its line's home slice, of 128; it waits at its core while the queue is full (R282). -/
def State.queueFar (s : State) (tid core line : Nat) : State :=
  let k := sliceOf core line
  let q := tget [] k s.farQueues
  if q.length < 128 then { s with farQueues := tput k (q ++ [(line, tid, core)]) s.farQueues }
  else { s with farWaits := s.farWaits ++ [(k, line, tid, core)] }

/-- A write of a parcel-wide register takes effect (R301). -/
def State.writeParcel (s : State) (parcel : Nat) (w : ParcelWrite) : State := s.setParcel parcel ((s.parcel parcel).write w)

/-- A thread's open chunk takes its place in the order, with everything it holds (R179, R175): none where a holder of the
priority ticket stands in its way (R279). The thread is given as it stands; the state's own entry for it is replaced. -/
def State.commit (s : State) (t : Thread) : Option (State × Thread) :=
  match t.chunk with
  | none => some (s, t)
  | some c =>
    let stands := if c.exits then t.st else c.arrivals
    let slot := if c.traverse.isSome then [slotLine t.parcel] else []
    if s.held (some t.tid) (c.writes ++ stands.map (standLine (launchOf t.tid)) ++ slot)
        || (!c.launches.isEmpty && s.pins (some t.tid) (s.crowds t.parcel c.launches.length)) then none else
    let t := { t with
      chunk := none, lastReads := c.reads, tileQueue := t.tileQueue ++ c.tileOps, squashes := 0, squashesAtOne := 0, failures := [],
      limit := baseLimit t.chunkhint, statFresh := t.statFresh || c.explicit,
      deferred := t.deferred.map fun d => { d with inChunk := false }, replies := [] }
    let s := s.setThread t
    let s := s.unit (some t.tid) (c.stores.map fun e => (e.1, e.2.1, e.2.2))
    let s := s.count fun k => { k with commits := k.commits + 1 }
    let s := c.launches.foldl (fun s e => s.createLaunch e.1 e.2) s
    let s := c.parcelWrites.foldl (fun s w => s.writeParcel t.parcel w) s
    let s := s.forkAll t.tid
    let s := s.forkTraverse t.tid t.parcel c.traverse
    let s := s.arriveAt t.tid c.arrivals
    let s := c.farLines.foldl (fun s l => s.queueFar t.tid (t.core.getD 0) l) s
    let s := c.fabricOut.foldl State.sendReq s
    let s := s.releaseTicket t.tid
    match tfind t.tid s.threads with
    | some t => some (s, t)
    | none => some (s, t)

end Sys2Proof.Machine
end

