-- ==== Sys2Proof/Machine/Place.lean ====
section
/-! DEFINITION. The room of cores and gang sets, as launch, the dispatcher and a yield judge them, and how a thread leaves its
core (12, R261 to R266). -/

namespace Sys2Proof.Machine

/-- A resident of a crew that its parcel no longer has (R300). -/
def State.stray (s : State) (t : Thread) : Bool := t.core.any fun k => !(s.parcel t.parcel).crews.getLsbD (crewOf k)

/-- A priority's band (R265, R272). -/
def band (prio : Nat) : Nat := prio / 8

/-! ## Gang sets (R264) and a core's room (R263) -/

/-- The stands of a launch that share members with a set of threads, taken transitively: fuel bounds the rounds. -/
def gangFrom (stands : List Marks) : Nat → Marks → Marks
  | 0, ms => ms
  | fuel + 1, ms =>
    let new := stands.foldl (fun acc st => if st.any (acc.contains ·) then st.foldl (fun m k => mput k m) acc else acc) ms
    if new.length = ms.length then ms else gangFrom stands fuel new

/-- The gang sets of a stand table: the lowest stand of each, and its members. -/
def gangSets (stands : List Marks) : List (Nat × Marks) :=
  ((List.range stands.length).zip stands).filterMap fun (k, st) =>
    if st.isEmpty then none
    else
      let g := gangFrom stands stands.length st
      if ((List.range stands.length).zip stands).any fun (j, u) => j < k && u.any (g.contains ·) then none else some (k, g)

/-- Fibre contexts of a core under a partition word (R129); without fibre storage there is no bound. -/
def fibreContexts (part : BitVec 32) : Nat :=
  if partFib part = 0 then 16 else partFib part * 65536 / (fcapOf part * 128)

/-- Threads of one class and word that one core holds at once (R263). -/
def perCore (part : BitVec 32) (cls : Nat) : Nat :=
  min (match cls with | 0 => 16 | 1 => 16 | 2 => 2 | _ => 1) (fibreContexts part)

/-- The cores of a parcel's crews that are not fenced. -/
def State.coresOf (s : State) (p : Parcel) : List Nat :=
  (List.range 384).filter fun k => p.crews.getLsbD (crewOf k) && !(s.core k).fenced

/-- The threads resident on a core. -/
def State.residents (s : State) (core : Nat) : List Thread := (s.threads.filter fun e => e.2.core == some core).map (·.2)

/-- Quarters of lane clusters that a class takes (R263). -/
def quarters : Nat → Nat
  | 0 => 1
  | 1 => 2
  | 2 => 16
  | _ => 32

/-- A slot of n quarters at a quarter's number is one of the class's positions: clusters have four quarters each (R263). -/
def slotOk (n q : Nat) : Bool := q % n = 0 && q + n ≤ 32

/-- The slots of two threads do not overlap (R263). -/
def apart (n q : Nat) (u : Thread) : Bool := q + n ≤ u.slot || u.slot + quarters u.cls ≤ q

/-- Whether a thread may join the residents of a core at a slot (R263): at most 16 with it, its partition word the core's, a fibre context
for it, and a free slot. -/
def fitsCore (c : CoreSt) (here : List Thread) (t : Thread) (q : Nat) : Bool :=
  here.length < 16 && t.part == c.part && here.length < fibreContexts c.part
    && slotOk (quarters t.cls) q && here.all (apart (quarters t.cls) q)

/-- The threads placed together with a thread (R264): the live members of its gang set, or itself. -/
def State.gangOf (s : State) (t : Thread) : List Nat :=
  match (tfind (launchOf t.tid) s.launches).bind fun l => if l.gang then l.sets.find? (·.contains (indexOf t.tid)) else none with
  | some g => (g.map (launchOf t.tid * 2 ^ 24 + ·)).filter fun k => (tfind k s.threads).isSome
  | none => [t.tid]

/-! ## Matrix rows (R152, R158) -/

/-- The rows that other threads hold, of those that a test picks. -/
def State.rowsOf (s : State) (tid : Nat) (p : Nat → Bool) : Nat :=
  ((s.threads.filter fun e => e.1 != tid && e.2.core.any p).map (·.2.mgrant)).sum

/-- The grant of R152. -/
def State.grantFor (s : State) (t : Thread) (most least tiles : Nat) : Nat :=
  let k := t.core.getD 0
  let own := partAcc t.part * 64 - s.rowsOf t.tid (· == k)
  let crew := 512 - s.rowsOf t.tid fun c => crewOf c == crewOf k
  let g := min (most * 16) (min own crew)
  let g := g - g % (16 * tiles)
  if g < least * 16 then 0 else g

/-- Rows that the crew of a core can still give a thread of that core, held grants apart (R152, R158). -/
def State.canRegrant (s : State) (t : Thread) (core : Nat) : Bool :=
  t.mgrant = 0 ||
    s.grantFor { t with core := some core, mgrant := 0 } (t.mgrant / 16) (t.mgrant / 16) t.tiles == t.mgrant

/-! ## Pre-emption (R266, R346, R347) -/

/-- The band in which the dispatcher serves a waiting thread (R265). -/
def Thread.placementBand (t : Thread) : Nat := if t.aged then 5 else band t.prio

/-- A thread that pre-emption may take now: no ticket, and every committed tile operation performed (R158, R279). -/
def State.takable (s : State) (t : Thread) : Bool := t.core.isSome && s.ticket != some t.tid && t.tileQueue.isEmpty

/-- Whether the context store has room for n more contexts (R348): it holds those of the threads that have been placed and stand on no
core. -/
def State.hasRoom (s : State) (n : Nat) : Bool :=
  (s.threads.filter fun e => e.2.placed && e.2.core.isNone).length + n ≤ s.store.room

/-- A thread begins to wait for placement (R258, R265). -/
def State.enqueue (s : State) (t : Thread) : State :=
  { s with nextId := s.nextId + 1 }.setThread { t with waitSince := s.cycle, waitOrder := s.nextId }

/-- One thread leaves its core at a chunk boundary: its open chunk is squashed and its context saved (R255, R347). -/
def State.takeOff (s : State) (tid : Nat) : State :=
  match tfind tid s.threads with
  | none => s
  | some t =>
    let s := ((s.squashIf fun u _ => u.tid == tid)).releaseTicket tid
    let t := (tfind tid s.threads).getD t
    s.enqueue { t with
      core := none, refill := [], stripSince := none, strip := none, evictable := false, stripAged := false,
      state := match t.state with | .runBlocked w => .savedBlocked w | .runReady => .placementReady | x => x }

/-- Pre-empt a thread with every resident member of its gang set (R264), where the context store has room for them (R348). -/
def State.preempt (s : State) (tid : Nat) : State :=
  match tfind tid s.threads with
  | none => s
  | some t =>
    let set := (s.gangOf t).filter fun k => (tfind k s.threads).any (·.core.isSome)
    if (set.all fun k => (tfind k s.threads).any s.takable) && s.hasRoom set.length then set.foldl State.takeOff s else s

/-! ## Placement (R263 to R265) -/

/-- A chunk that has used a core's scratchpad bytes from lo to hi - 1 of its portion. -/
def portionUser (core lo hi : Nat) (_ : Thread) (c : Chunk) : Bool :=
  let at_ (k : Nat) : Nat := scratchLoc (crewOf core) (core % 4 * 2 ^ 21 + k)
  (c.reads ++ c.writes).any fun l => at_ lo ≤ l * 128 && l * 128 < at_ hi

/-- A core's scratchpad bytes from lo to hi - 1 of its portion begin as zeros or cease to exist, as one unit. -/
def State.wipeScratch (s : State) (core lo hi : Nat) : State :=
  let at_ (k : Nat) : Nat := scratchLoc (crewOf core) (core % 4 * 2 ^ 21 + k)
  let s := s.squashIf (portionUser core lo hi)
  { s with
    mem := tclear (at_ lo) (at_ hi) s.mem
    scratchPoison := s.scratchPoison.filter fun k => scratchBase + k * 8 < at_ lo || at_ hi ≤ scratchBase + k * 8 }

/-- An empty core is reconfigured to a partition word (R17): its scratchpad portion begins as zeros. Its contention predictor is
emptied: the model's choice (log entry 72). -/
def State.reconfigure (s : State) (core : Nat) (part : BitVec 32) : State :=
  let c := s.core core
  if c.part == part then s else
  let s := s.wipeScratch core 0 (max (partScr c.part) (partScr part) * 65536)
  s.setCore core { s.core core with part := part, predictor := [] }

/-- A crew that has left another parcel is cleared before a thread of this one is placed on it (R300): none while threads of
another parcel stand there or its copies and drains run. -/
def State.clearCrew (s : State) (crew parcel : Nat) : Option State :=
  match tfind crew s.leaving with
  | none => some s
  | some q =>
    let t := { s with leaving := tdrop crew s.leaving }
    if q = parcel then some t
    else if (s.threads.any fun e => e.2.core.any (crewOf · == crew) && e.2.parcel != parcel)
        || (s.copies.any fun c => c.forked && crewOf c.core == crew) || s.drains.any (·.crew == crew) then none
    else some ((List.range 4).foldl (fun s k => s.wipeScratch (crew * 4 + k) 0 (2 ^ 21)) t)

/-- A reconfiguration would squash the chunk that holds the priority ticket (R279). -/
def State.pinsPortion (s : State) (core : Nat) (part : BitVec 32) : Bool :=
  (s.core core).part != part && s.pins none (portionUser core 0 (2 ^ 21))

/-- A thread resumes on the die where it has declared regions that still stand, while its parcel has a core there: elsewhere the
instructions that name them would not reach them (R240, R241, R380; log entry 76). -/
def State.anchored (s : State) (t : Thread) (core : Nat) : Bool :=
  let cores := s.coresOf (s.parcel t.parcel)
  (List.range 8).all fun d =>
    d == dieOf core || !(s.regionsOf d).any (·.tid == t.tid) || !cores.any (dieOf · == d)

/-- A thread that waits for placement, or a Saved-blocked member of a stand, which its gang set is placed with (R255, R264). -/
def Thread.placeable (t : Thread) : Bool :=
  t.core.isNone && match t.state with
    | .placementReady => true
    | .savedBlocked _ => t.gang && !t.st.isEmpty
    | _ => false

/-- Place one thread on a core at a slot, if R263 allows it there; a gated crew wakes (R395). -/
def State.placeOne (s : State) (tid core slot : Nat) : Option State :=
  match tfind tid s.threads with
  | none => none
  | some t =>
    let p := s.parcel t.parcel
    let here := s.residents core
    let c := if here.isEmpty then { s.core core with part := t.part } else s.core core
    if !(p.state = 1 && t.placeable && core < 384 && p.crews.getLsbD (crewOf core) && !c.fenced && fitsCore c here t slot
        && s.canRegrant t core && s.anchored t core) || (here.isEmpty && s.pinsPortion core t.part) then none
    else
      (s.clearCrew (crewOf core) t.parcel).map fun s =>
        let s := { s with gated := mdrop (crewOf core) s.gated }
        let s := if here.isEmpty then s.reconfigure core t.part else s
        let s := s.setThread { t with
          core := some core, slot, placed := true, aged := false, prio := min t.prio p.ceiling, waitSince := s.cycle,
          residentSince := s.cycle, stripSince := none,
          state := match t.state with | .savedBlocked w => .runBlocked w | _ => .runReady }
        if t.placed then s
        else { s with launches := tmod (launchOf tid) (fun l => { l with unplaced := l.unplaced - 1 }) s.launches }

/-- Place a thread on a core, at its first free slot there. -/
def State.placeAt (s : State) (tid core : Nat) : Option State := (List.range 32).findSome? (s.placeOne tid core)

/-- Place threads together, each on the first core that takes it: the choice among cores is not architectural (R263). -/
def State.placeAll : List Nat → State → Option State
  | [], s => some s
  | tid :: rest, s =>
    let cores := match tfind tid s.threads with | some t => s.coresOf (s.parcel t.parcel) | none => []
    (cores.findSome? (s.placeAt tid)).bind (State.placeAll rest)

/-- A Placement-ready thread can be placed now, with its gang set. -/
def State.canPlace (s : State) (t : Thread) : Bool := (State.placeAll (s.gangOf t) s).isSome

/-- The dispatcher serves a thread before another: the higher effective band first, and within a band the longer wait (R265). -/
def Thread.ahead (u t : Thread) : Bool :=
  t.placementBand < u.placementBand || (t.placementBand == u.placementBand && u.waitOrder < t.waitOrder)

/-- The threads of a parcel that wait for placement. -/
def State.waiting (s : State) (parcel : Nat) : List Thread :=
  (s.threads.filter fun e => e.2.parcel == parcel && e.2.state == .placementReady).map (·.2)

/-- Threads are served now (R265): no other waiting thread of their parcel comes ahead of all of them and can be placed. -/
def State.served (s : State) (tids : List Nat) : Bool :=
  let ts := tids.filterMap fun k => tfind k s.threads
  let mine := ts.filter (·.state == .placementReady)
  !mine.isEmpty && mine.all fun t => (s.waiting t.parcel).all fun u =>
    tids.contains u.tid || !(mine.all u.ahead) || !s.canPlace u

/-- Place threads together, or none of them (R264): every live member of a gang set, or one thread, in the order of service. -/
def State.place (s : State) (tids cores slots : List Nat) : State :=
  let whole := match tids with
    | tid :: _ => (tfind tid s.threads).any fun t => distinct (s.gangOf t) == distinct tids
    | [] => false
  if !whole || tids.length != cores.length || tids.length != slots.length || !s.served tids then s else
  ((tids.zip (cores.zip slots)).foldl (fun (o : Option State) (e : Nat × Nat × Nat) => o.bind fun s => s.placeOne e.1 e.2.1 e.2.2)
    (some s)).getD s

/-! ## Yielding (R261) -/

/-- The band in which the sequencer serves a thread, and its weight (R272, R273). -/
def Thread.stripBand (t : Thread) : Nat := if t.stripAged then 5 else band t.prio
def Thread.weight (t : Thread) : Nat := if t.stripAged then 1 else t.prio % 8 + 1

/-- A waiting thread takes a core's slot, its gang set with it. -/
def State.fill (s : State) (core : Nat) (u : Thread) : Option State :=
  (s.placeAt u.tid core).bind (State.placeAll ((s.gangOf u).filter (· != u.tid)))

/-- The waiting thread in whose favour a slot of a core is given up (R261, R265): of those of a band or a higher one that would take it,
the one served first. -/
def State.favoured (s : State) (t : Thread) (core : Nat) : Option State :=
  let able := (s.waiting t.parcel).filter fun u => u.tid != t.tid && band t.prio ≤ u.placementBand && (s.fill core u).isSome
  (able.find? fun u => able.all fun v => !v.ahead u).bind (s.fill core)

/-- What a yield does at its commit (R261): the deficit falls to 0 when another Run-ready thread of the same or a higher band
stands on the core; the thread is pre-empted in favour of a waiting thread of such a band that its slot would fill. -/
def State.yield (s : State) (t : Thread) : State :=
  let rival := s.threads.any fun e =>
    e.2.tid != t.tid && e.2.core == t.core && e.2.state == .runReady && band t.prio ≤ e.2.stripBand
  let s := s.setThread (if rival then { t with deficit := 0 } else t)
  match t.core with
  | none => s
  | some core =>
    let gone := s.preempt t.tid
    if (tfind t.tid gone.threads).any (·.core.isNone) then (gone.favoured t core).getD s else s

end Sys2Proof.Machine
end

