-- ==== Sys2Proof/Machine/Ops.lean ====
section
/-! DEFINITION. How a thread executes: registers, chunks, taking a trap and returning from one (16), and the shape that every
instruction's meaning has. -/

namespace Sys2Proof.Machine

/-- What a meaning answers when it executes nothing: no thread stands to execute it. -/
abbrev Result := Host.Outcome State Fault Refusal

/-- The device with the executing thread taken out. -/
structure Running where
  s : State
  t : Thread
  /-- the VP that executes, if it is not the control thread -/
  vp : Option Nat
  /-- strips popped from stream registers by this instruction (R231) -/
  popped : Table VReg
  /-- the chunk ends after this instruction (R176) -/
  ends : Bool
  /-- element-beats of its strip that only its execution shows (R271) -/
  beats : Nat
  /-- the element group that it is at, and the translations that the group has made (R317) -/
  group : Nat × List TlbEntry
  deriving DecidableEq, Repr

/-- Why an instruction does not complete. -/
inductive Halt where
  /-- it traps, with what it has performed so far (R177) -/
  | trap (f : Trap)
  /-- the pending asynchronous record is taken before it (R345) -/
  | async
  /-- it cannot go on yet and is executed again at the thread's next turn -/
  | stall
  /-- it waits for fabric replies that must first be asked for (R188) -/
  | request (qs : List FabricReq)
  /-- it waits at a chunk's opening (R176, R254) -/
  | wait (w : Wait)
  /-- the open chunk ends before it; in an explicit chunk it traps 0x0A with this reason (R176, R183) -/
  | boundary (why : Nat)
  deriving DecidableEq, Repr

/-- The part of an instruction that a meaning states. -/
abbrev Exec := EStateM Halt Running

/-- Where a completed instruction goes: to the next word by the end test, or to a target (R67, R68). -/
inductive Next where
  | seq
  | goto (pc : Word)
  deriving DecidableEq, Repr

/-! ## Access to the thread -/

def getC : Exec Ctx := do return (← get).t.ctx
def getT : Exec Thread := do return (← get).t
def getS : Exec State := do return (← get).s
def modC (f : Ctx → Ctx) : Exec Unit := modify fun r => { r with t := { r.t with ctx := f r.t.ctx } }
def modT (f : Thread → Thread) : Exec Unit := modify fun r => { r with t := f r.t }
def modS (f : State → State) : Exec Unit := modify fun r => { r with s := f r.s }
def modChunk (f : Chunk → Chunk) : Exec Unit := modT fun t => { t with chunk := t.chunk.map f }
def trap {α : Type} (code : Nat) (val : Word) : Exec α := throw (.trap { code, sub := 0, val })
def trapOf {α : Type} (f : Trap) : Exec α := throw (.trap f)
def explicitChunk : Exec Bool := do return (← getT).chunk.any (·.explicit)
/-- Instructions have been executed in the open chunk. -/
def begun : Exec Bool := do return (← getT).chunk.any (0 < ·.icount)
def endAfter : Exec Unit := modify fun r => { r with ends := true }
/-- End the open chunk before the instruction unless it stands at the chunk's opening (R176). -/
def atOpening (why : Nat) : Exec Unit := do
  if (← explicitChunk) then throw (.boundary why)
  if (← begun) then throw (.boundary why)

def coreNum : Exec Nat := do return (← getT).core.getD 0
def dieNum : Exec Nat := do return dieOf (← coreNum)
def crewNum : Exec Nat := do return crewOf (← coreNum)

/-! ## Scalar registers -/

/-- The value that trapval takes for a poisoned register (R351). -/
def poisonVal (file reg index : Nat) : Word := BitVec.ofNat 64 (2 ^ 63 + file * 2 ^ 60 + index * 2 ^ 8 + reg)

/-- A fetch-returning fabric atomic of the thread, its reply outstanding, writes a destination that a test picks (R188). -/
def Running.awaits (r : Running) (p : Dest → Bool) : Bool :=
  let mine (q : FabricReq) : Bool := match q.reply with | .atomic tid d _ _ => tid == r.t.tid && p d | _ => false
  r.s.fabric.any mine || r.t.chunk.any fun c => c.fabricOut.any mine

/-- A register whose deferred load has no reply yet holds its reader (R195); one whose reply failed takes the pending
record first (R345). -/
def awaitX (r : Nat) : Exec Unit := do
  let t ← getT
  if t.deferred.any (·.dest == .x r) || (← get).awaits (· == .x r) then throw .stall
  if t.failedRegs.contains (.x r) && t.pending.isSome then throw .async

def Ctx.xAt (c : Ctx) (r : BitVec 6) : Word := if r = 0 then 0 else c.x[r.toNat]'r.isLt

/-- Read a scalar register: x0 reads 0 (R36); a poisoned one traps 0x0C (R351). -/
def rdX (r : BitVec 6) : Exec Word := do
  if r = 0 then return 0
  awaitX r.toNat
  let t ← getT
  if t.poison.contains { file := 0, reg := r.toNat, index := 0 } then trapOf { code := 12, sub := 1, val := poisonVal 0 r.toNat 0 }
  return t.ctx.xAt r

/-- Write a scalar register: x0 discards (R36); poison is cleared (R351). -/
def wrX (r : BitVec 6) (w : Word) : Exec Unit := do
  if r = 0 then return
  awaitX r.toNat
  modT fun t => { t with
    ctx := t.ctx.setX r.toNat w
    poison := t.poison.filter (· != { file := 0, reg := r.toNat, index := 0 })
    failedRegs := t.failedRegs.filter (· != .x r.toNat) }

/-- Raise flags (R41): NV 16, DZ 8, OF 4, UF 2, NX 1 (R37). -/
def raise (f : BitVec 5) : Exec Unit := modC fun c => { c with fflags := c.fflags ||| f }

/-! ## Loops (R65 to R70) -/

def allOnes : PReg := ~~~0

def Ctx.setP (c : Ctx) (k : Nat) (v : PReg) : Ctx := { c with p := c.p.setIfInBounds k v }
def Ctx.pAt (c : Ctx) (k : Nat) : PReg := if k = 0 then allOnes else c.p[k]?.getD 0

/-- The rotation of a loopr's end test (R70): more tells whether another kernel iteration follows. -/
def Ctx.rotate (c : Ctx) (more : Bool) : Ctx :=
  let q := [9, 10, 11, 12, 13, 14, 15].foldr (fun k (d : Ctx) => d.setP k (c.pAt (k - 1))) c
  { q.setP 8 (if more then allOnes else 0) with rrb := (c.rrb + 31) % 32 }

/-- The end test of R67 for the instruction at a. -/
def endTest (a : Word) (c : Ctx) : List LoopEntry → Ctx
  | [] => { c with loops := [], pc := a + 4 }
  | e :: rest =>
    if e.last != a then { c with loops := e :: rest, pc := a + 4 }
    else
      let d := e.done + 1
      let c := if e.rotating then c.rotate (d < e.n) else c
      if 1 < e.left then { c with loops := { e with left := e.left - 1, done := d } :: rest, pc := e.start }
      else endTest a c rest

/-- Every entry whose end is a is popped (R68, last slot). -/
def popLast (a : Word) (l : List LoopEntry) : List LoopEntry := l.filter (·.last != a)

/-- Entries whose body holds a and not the target, from the top (R68, elsewhere). -/
def popLeft (a target : Word) : List LoopEntry → List LoopEntry
  | [] => []
  | e :: rest =>
    if e.start ≤ a && a ≤ e.last && !(e.start ≤ target && target ≤ e.last) then popLeft a target rest else e :: rest

/-- Loop entries after a taken transfer at a (R68): in the last slot every entry that ends there is popped; elsewhere a
call pops nothing, and another transfer pops the entries whose body it leaves. -/
def popFor (call : Bool) (a target : Word) (l : List LoopEntry) : List LoopEntry :=
  if l.head?.any (·.last == a) then popLast a l else if call then l else popLeft a target l

/-! ## Taking a trap and returning from one (R338 to R343, R303, R304) -/

def level (c : Ctx) : Nat := if c.priv then 1 else 0

/-- The cause register of a trap (R338). -/
def causeWord (f : Trap) (vp async prev more : Bool) : Word :=
  let b (x : Bool) (k : Nat) : Nat := if x then 2 ^ k else 0
  BitVec.ofNat 64 (f.code % 256 + f.sub % 16 * 256 + b async 14 + b vp 15 + b prev 16 + b more 17)

/-- Whether a trap at privileged level stands at the handler's own entry (R343). -/
def doubleFault (trapvec : Word) (c : Ctx) (trappc : Word) : Bool := c.priv && trappc == (trapvec &&& ~~~3)

/-- Trap entry on a context (R340, R71, R294): the trap registers, the frame of the level left, the handler's empty loop stack, rrb and
VP array, privileged level and the handler's address. -/
def Ctx.enterTrap (c : Ctx) (trapvec : Word) (f : Trap) (trappc : Word) (vp async more : Bool) : Ctx :=
  let frame : Frame := { loops := c.loops, rrb := c.rrb, vps := c.vps }
  { c with
    trapcause := causeWord f vp async c.priv more, trappc := trappc, trapval := f.val,
    userFrame := if c.priv then c.userFrame else frame, privFrame := if c.priv then frame else c.privFrame,
    loops := [], rrb := 0, vps := [], priv := true, pc := trapvec &&& ~~~3 }

/-- The return from a trap on a context (R304, R342): the level of trapcause.prev, its frame, and trappc. After a VP's trap the
control thread too goes on at trappc, the VP's pc: the frame holds no other pc (the model's reading, log entry 71). -/
def Ctx.eret (c : Ctx) : Ctx :=
  let prev := c.trapcause.getLsbD 16
  let frame := if prev then c.privFrame else c.userFrame
  { c with pc := c.trappc, priv := prev, loops := frame.loops, rrb := frame.rrb, vps := frame.vps }

/-- Trap entry of a thread with no open chunk (R340); a trap at the handler's own entry removes the thread and is recorded
(R343). The thread's counts of squashes begin anew (R277), it leaves priority commit (R280), and an sbar that waits is set aside with its
level (R268). -/
def State.enterTrap (s : State) (t : Thread) (f : Trap) (trappc : Word) (vp async more : Bool) : State :=
  let tv := (s.parcel t.parcel).trapvec
  if doubleFault tv t.ctx trappc then
    let cause := causeWord f vp async t.ctx.priv more
    ((s.setThread t).removeThread t.tid).send
      { code := 0x80, parcel := t.parcel, seq := 0, status := 0, len := 16, payload := t.tid + cause.toNat * 2 ^ 64 }
  else
    (s.setThread { t with ctx := t.ctx.enterTrap tv f trappc vp async more, squashes := 0, statFresh := true, failures := [],
                          strip := none, stripSince := none, arrivedIn := none,
                          userArrived := if t.ctx.priv then t.userArrived else t.arrivedIn,
                          privArrived := if t.ctx.priv then t.arrivedIn else t.privArrived,
                          limit := baseLimit t.chunkhint, squashesAtOne := 0 }).releaseTicket t.tid

/-- The asynchronous report of a thread at a chunk boundary (R345). -/
def State.takeAsync (s : State) (t : Thread) : State :=
  match t.pending with
  | none => s.setThread t
  | some p =>
    let at_ := t.ctx.pc
    s.enterTrap { t with pending := none, failedRegs := [] } p.trap at_ false true p.more

/-- A thread whose explicit chunk is squashed whole by an event of its own, with the device around it (R183, R394). -/
def State.abandon (s : State) (t : Thread) (c : Chunk) : State × Thread :=
  (((s.setThread t).dropIssued [t.tid]).count fun k => { k with squashes := k.squashes + 1 }, t.squashed c)

/-- Trap entry at the commit of the truncated chunk (R340): for a VP's trap, trappc is the VP's pc and estart its index
(R126). The trap waits where the commit must (R279). An asynchronous record that is pending at that boundary is served first, and
the instruction meets its trap again (R341). -/
def State.enterPending (s : State) (t : Thread) : State :=
  match t.pendTrap with
  | none => s.setThread t
  | some (f, vp) =>
    match s.commit { t with pendTrap := none } with
    | none => s.setThread t
    | some (s, u) =>
      if u.pending.isSome then s.takeAsync u else
      match vp with
      | some i =>
        let at_ := ((tfind i u.ctx.vps).map (·.pc)).getD u.ctx.pc
        s.enterTrap { u with ctx := { u.ctx with estart := BitVec.ofNat 64 i } } f at_ true false false
      | none => s.enterTrap u f u.ctx.pc false false false

/-- A synchronous trap (R340): an explicit chunk is squashed whole and the trap reported at its chkbeg (R183), after an asynchronous
record that waits at that boundary (R341); otherwise the open chunk is truncated and commits first (R177). -/
def Running.takeTrap (r : Running) (f : Trap) : State :=
  let t := r.t
  match t.chunk with
  | some c =>
    if c.explicit then
      let (s, u) := r.s.abandon t c
      if u.pending.isSome then s.takeAsync u else s.enterTrap u f u.ctx.pc false false false
    else r.s.enterPending { t with chunk := some { c with ended := true }, pendTrap := some (f, r.vp) }
  | none => r.s.enterPending { t with pendTrap := some (f, r.vp) }

/-! ## Chunks (R175, R176) -/

def Running.openChunk (r : Running) (explicit : Bool) : Running :=
  match r.t.chunk with
  | some _ => r
  | none =>
    { r with t := { r.t with chunk := some {
        start := r.t.ctx, poison := r.t.poison, explicit, priority := r.s.ticket == some r.t.tid, icount := 0, stores := [], reads := [], writes := [],
        pages := r.s.fetchPage.toList, tileOps := [], launches := [], arrivals := [], fabricOut := [], parcelWrites := [], traverse := none, issues := [],
        tagsAtOpen := r.t.ctags, tagsDone := 0, nearLines := [], farLines := [], late := false, ended := false, exits := false, yields := false } } }

/-- Commit the open chunk and let texit and tyield act (R259, R261). None where the commit must wait. -/
def State.close (s : State) (t : Thread) : Option State :=
  match s.commit t with
  | none => none
  | some (s, u) =>
    match t.chunk with
    | some c => if c.exits then some ((s.setThread u).removeThread u.tid) else if c.yields then some (s.yield u) else some (s.setThread u)
    | none => some (s.setThread u)

/-- A chunk that has ended and had to wait is offered for commit again, with the trap that ended it, if one did. -/
def State.resume (s : State) (t : Thread) : State :=
  if t.pendTrap.isSome then s.enterPending t else (s.close t).getD s

/-- Limits of an explicit chunk (R182, R183): the reason that it breaks one, if it does. Where one instruction breaks several the
lowest reason is reported, and an instruction that itself traps reports its own trap: R183 orders neither (the model's choice, log
entry 63). -/
def Chunk.overflow (c : Chunk) : Option Nat :=
  let lines (m : Marks) : Nat := (m.filter (· < 2 ^ 79)).length
  if 2048 < c.icount then some 1
  else if 512 < lines c.writes then some 2
  else if 2048 < lines c.reads then some 3
  else none

/-- A completed instruction's chunk: counted (R182, R213), overflowed, or ended where R176 ends it. -/
def Running.retire (r : Running) (counts : Bool) : State :=
  match r.t.chunk with
  | none => r.s.setThread r.t
  | some c =>
    let c := if counts then { c with icount := c.icount + 1 } else c
    let t := { r.t with chunk := some c }
    if c.explicit && !r.ends then
      match c.overflow with
      | some why => { r with t }.takeTrap { code := 10, sub := 0, val := BitVec.ofNat 64 why }
      | none => r.s.setThread t
    else if r.ends || t.limit ≤ c.icount then
      let t := { t with chunk := some { c with ended := true } }
      (r.s.close t).getD (r.s.setThread t)
    else r.s.setThread t

/-- The thread waits at the opening of its next chunk (R254, R255); its persistent requests are not made until it goes on. -/
def Running.block (r : Running) (w : Wait) : State :=
  { r.s with persistent := r.s.persistent.filter (·.tid != r.t.tid) }.setThread
    { r.t with chunk := none, state := .runBlocked w, waitSince := r.s.cycle, strip := none, stripSince := none }

/-! ## The shape of a meaning -/

/-- How an instruction stands among its thread's chunks (R176). -/
inductive Rule where
  | inside | alone | before
  deriving DecidableEq, Repr

/-- What holds of an instruction before its own effect: whether it waits for idle VPs (R125), whether it is privileged (R32),
its chunk rule, and the reason with which an explicit chunk forbids it (R183). -/
structure Form where
  waits : Bool := true
  priv : Bool := false
  rule : Rule := .inside
  counts : Bool := true
  ban : Nat := 4
  deriving DecidableEq, Repr

/-- The thread, or VP, that is to execute (R254): Run-ready, resident, not in pause, and on a device out of reset. -/
def State.acting (s : State) : Option Running :=
  let ready (tid : Nat) (vp : Option Nat) : Option Running :=
    match tfind tid s.threads with
    | some t =>
      if t.state == .runReady && t.core.isSome && t.pause.isNone && s.phase == .run then
        some { s, t, vp, popped := [], ends := false, beats := 0, group := (0, []) }
      else none
    | none => none
  match s.actor with
  | .none => none
  | .thread tid => ready tid none
  | .vp tid i => (ready tid (some i)).filter fun r => (tfind i r.t.ctx.vps).isSome

/-- The thread's chunk has ended, and its commit has had to wait (R176, R279). -/
def Running.ended (r : Running) : Bool := r.t.chunk.any (·.ended)

/-- End the open chunk at a boundary before the instruction. -/
def Running.boundary (r : Running) : Option Running :=
  match r.s.commit r.t with
  | some (s, t) => some { r with s, t }
  | none => none

/-- The asynchronous record, met at a register that a failed reply was to write (R345): the open chunk is truncated before the
instruction; an explicit one is squashed whole (R183, R340). -/
def Running.report (r : Running) : State :=
  match r.t.chunk with
  | some c =>
    if c.explicit then
      let (s, u) := r.s.abandon r.t c
      s.takeAsync u
    else match r.boundary with
      | some r => r.s.takeAsync r.t
      | none => r.s.setThread r.t
  | none => r.s.takeAsync r.t

/-- Lines of a set that are not in another. -/
def newLines (old new : Marks) : Marks := new.filter (!old.contains ·)

/-- The lines that an instruction reads and writes for the first time in its chunk, before and after it. -/
def Running.reached (r r' : Running) : Marks × Marks :=
  let old := r.t.chunk
  let rs (c : Option Chunk) : Marks := match c with | some c => c.reads | none => []
  let ws (c : Option Chunk) : Marks := match c with | some c => c.writes | none => []
  (newLines (rs old) (rs r'.t.chunk), newLines (ws old) (ws r'.t.chunk))

/-- The strip that a thread has issued is over (R271, R272): its next one is to be granted anew. -/
def Running.spent (r : Running) (left : Option (List Nat)) : Thread :=
  { r.t with strip := left, stripSince := none, deficit := r.t.deficit - r.beats }

/-- The pc after a control-thread instruction. -/
def Running.goOn (r : Running) : Next → Running
  | .seq => { r with t := { r.spent none with ctx := endTest r.t.ctx.pc r.t.ctx r.t.ctx.loops } }
  | .goto pc => { r with t := { r.spent none with ctx := { r.t.ctx with pc } } }

/-- The VPs of a granted strip that have still to execute, after one of them has (R285). -/
def stripLeft (i : Nat) (l : Option (List Nat)) : Option (List Nat) :=
  (l.map (·.filter (· != i))).filter (!·.isEmpty)

/-- The pc of a VP after its instruction (R123): idle once it has executed the word at end. -/
def vpStep (e : VpPc) (i : Nat) (m : Table VpPc) : Next → Table VpPc
  | .seq => if e.last == some e.pc then tdrop i m else tput i { e with pc := e.pc + 4 } m
  | .goto pc => tput i { pc, last := none } m

def Running.goOnVp (r : Running) (i : Nat) (n : Next) : Running :=
  match tfind i r.t.ctx.vps with
  | some e => { r with t := { r.spent (stripLeft i r.t.strip) with ctx := { r.t.ctx with vps := vpStep e i r.t.ctx.vps n } } }
  | none => { r with t := r.spent (stripLeft i r.t.strip) }

/-- Replies that the executing agent waited for have been used up by its instruction (R195). -/
def Running.usedUp (r : Running) : Running := { r with t := { r.t with replies := r.t.replies.filter (·.vp != r.vp) } }

/-- Run a meaning's own part with the chunk open. It waits where another chunk's claim on a line that it reaches comes first
(R279, R281). A trap leaves stream positions unchanged (R231); a boundary that it asks for is made once and the part is run again. -/
def Running.attempt (body : Exec Next) (f : Form) : Nat → Running → State
  | fuel, r =>
    match body (r.openChunk false) with
    | .ok n r' =>
      let new := r.reached r'
      if r.s.barred r.t.tid new.1 new.2 then r.s.setThread r.t
      else
        let r' := { r' with s := r'.s.yieldTokens r.t.tid new.1 new.2 }.usedUp
        match r'.vp with
        | some i => (r'.goOnVp i n).retire f.counts
        | none => { (r'.goOn n) with ends := r'.ends || f.rule == Rule.alone }.retire f.counts
    | .error (.trap c) r' =>
      { r' with t := { r'.t with ctx := { r'.t.ctx with streams := r.t.ctx.streams } } }.takeTrap c
    | .error .async _ => r.report
    | .error .stall _ => r.s.setThread r.t
    | .error (.request qs) _ => (r.s.setThread r.t).sendAll qs
    | .error (.wait w) r' => r'.block w
    | .error (.boundary why) _ =>
      if r.t.chunk.any (·.explicit) then
        r.takeTrap { code := 10, sub := 0, val := BitVec.ofNat 64 why }
      else
        match fuel with
        | 0 => r.s.setThread r.t
        | fuel + 1 =>
          match r.boundary with
          | some r => if r.t.pending.isSome then r.s.takeAsync r.t else Running.attempt body f fuel r
          | none => r.s.setThread r.t

/-- Checks that come before an instruction's own effect, in the order of R35, and its chunk rule. An asynchronous record that is
pending at the boundary before the instruction is served there (R341). -/
def Running.execute (r : Running) (f : Form) (body : Exec Next) : State :=
  let trapNow (code : Nat) (val : Word) : State := r.takeTrap { code, sub := 0, val }
  if f.priv && !r.t.ctx.priv then trapNow 5 (r.s.fetched.setWidth 64)
  else if f.rule != .inside && r.t.chunk.any (·.explicit) then trapNow 10 (BitVec.ofNat 64 f.ban)
  else if f.rule != .inside && r.t.chunk.isSome then
    match r.boundary with
    | some r => if r.t.pending.isSome then r.s.takeAsync r.t else r.attempt body f 1
    | none => r.s.setThread r.t
  else r.attempt body f 1

/-- An instruction of the control thread alone: a VP that meets it traps 0x01 (R123). -/
def control (f : Form) (body : Exec Next) (s : State) : Result :=
  match s.acting with
  | none => .fault .noThread
  | some r =>
    if r.ended then .next (s.resume r.t)
    else if r.vp.isSome then .next (r.takeTrap { code := 1, sub := 0, val := s.fetched.setWidth 64 })
    else if f.waits && !r.t.ctx.vps.isEmpty then .next s
    else .next (r.execute f body)

/-- An instruction that VPs may execute too (R123). -/
def shared (f : Form) (body : Exec Next) (s : State) : Result :=
  match s.acting with
  | none => .fault .noThread
  | some r =>
    if r.ended then .next (s.resume r.t)
    else if r.vp.isNone && f.waits && !r.t.ctx.vps.isEmpty then .next s
    else .next (r.execute f body)

/-- An instruction that only VPs execute: in the control thread it traps 0x01 (R123). -/
def vpOnly (body : Exec Next) (s : State) : Result :=
  shared {} (do
    if (← get).vp.isNone then trap 1 ((← getS).fetched.setWidth 64)
    body) s

/-- An instruction that completes and goes to the next word. -/
def seq (body : Exec Unit) : Exec Next := do
  body
  return .seq

end Sys2Proof.Machine
end

