-- ==== Sys2Proof/Machine/Access.lean ====
section
/-! DEFINITION. A thread's accesses to memory: by class (08, R172), with the thread's own earlier stores (R196). -/

namespace Sys2Proof.Machine

/-- Translate an access of the executing thread, keep the translation and note it in the chunk (R315, R318). -/
def xlateAt (priv : Bool) (need : Need) (va : Nat) : Exec Access := do
  let r ← get
  match r.s.translate (r.t.core.getD 0) r.t.parcel priv need va with
  | .error f =>
    modS fun s => s.missed (r.t.core.getD 0) r.t.parcel va
    trapOf f
  | .ok (a, hit) =>
    modS (·.keepEntry (r.t.core.getD 0) a hit)
    modChunk fun c => if c.pages.contains a.entry then c else { c with pages := a.entry :: c.pages }
    return a

/-- Translate an access at the thread's own level. -/
def xlate (need : Need) (va : Nat) : Exec Access := do xlateAt (← getC).priv need va

/-- The translations that the group of element i has made so far. -/
def groupKnown (g : Nat × List TlbEntry) (i : Nat) : List TlbEntry := if g.1 = i / 16 + 1 then g.2 else []

/-- Translate a byte of an element: once for each page and group of 16 elements (R317), at the thread's own level. -/
def groupXlate (i : Nat) (need : Need) (va : Nat) : Exec Access := do
  let r ← get
  let known := groupKnown r.group i
  match known.find? (·.covers va) with
  | some e =>
    match r.s.checkLeaf r.t.ctx.priv need va e with
    | .error f => trapOf f
    | .ok a => return a
  | none =>
    let a ← xlate need va
    modify fun r => { r with group := (i / 16 + 1, a.entry :: known) }
    return a

/-- Where a translated access of the executing thread goes, or of an engine of its own, whose MGD accesses are at home (R192);
a host page whose link is down answers with reply code 5 (R334). -/
def placeFor (engine : Bool) (a : Access) : Exec Place := do
  let r ← get
  let core := r.t.core.getD 0
  if a.window == .host && r.s.fyzWidth = 0 then trapOf (replyTrap 5 (word a.va))
  match r.s.placeOf (if engine then none else some core) (crewOf core) r.t.parcel a with
  | .error f => trapOf f
  | .ok p => return p

/-- Where a translated access of the executing thread goes. -/
def placeA (a : Access) : Exec Place := placeFor false a

def linesFrom (loc n : Nat) : List Nat := (List.range ((loc + n - 1) / 128 - loc / 128 + 1)).map (· + loc / 128)

/-- One byte with the stores of the open chunk over it (R196). -/
def overlay (stores : Table (Byte × Byte)) (loc : Nat) (b : Byte) : Byte :=
  match tfind loc stores with
  | some (m, d) => (b &&& ~~~m) ||| (d &&& m)
  | none => b

/-- Poison that a read of n bytes meets (R351): the trap, if any. -/
def State.poisonTrap (s : State) (va : Nat) (loc n : Nat) : Option Trap :=
  if scratchBase ≤ loc && loc < viewBase then
    let ks := (List.range ((loc + n - 1) / 8 - loc / 8 + 1)).map (· + loc / 8 - scratchBase / 8)
    match ks.find? (s.scratchPoison.contains ·) with
    | some k => some { code := 12, sub := 1, val := poisonVal 5 0 (k * 8 % 2 ^ 23) }
    | none => none
  else if (linesFrom loc n).any fun l => s.poisonedAt (l * 128) then some { code := 12, sub := 0, val := word va }
  else none

/-- A deferred load of the thread's own to one of these lines is performed first. -/
def afterLate (lines : List Nat) : Exec Unit := do
  if (← getT).deferred.any fun d => viewBase ≤ d.pa && lines.contains (d.pa / 128) then throw .stall

/-- The chunk has stored every byte of the granules, of 128 bytes or 8 of a scratchpad, that a read of n bytes meets (R351). -/
def Chunk.whole (c : Chunk) (loc n : Nat) : Bool :=
  let size := if scratchBase ≤ loc && loc < viewBase then 8 else 128
  (List.range ((loc + n - 1) / size - loc / size + 1)).all fun k =>
    (c.stores.filter fun e => e.1 / size == loc / size + k && e.2.1 == 255).length == size

/-- Read n bytes at a location as accesses of the open chunk (R179, R186). -/
def readLoc (va loc n : Nat) : Exec (List Byte) := do
  afterLate (linesFrom loc n)
  let r ← get
  match r.s.poisonTrap va loc n with
  | some f => if !r.t.chunk.any (·.whole loc n) then trapOf f
  | none => pure ()
  if viewBase ≤ loc then
    for l in linesFrom loc n do modS fun s => s.fillCopy (viewDie loc) (l * 128 % viewBase / 128)
  modS fun s => s.countDead loc
  modChunk fun c => { c with reads := (linesFrom loc n).foldl (fun m l => mput l m) c.reads }
  let r ← get
  let stores := match r.t.chunk with | some c => c.stores | none => []
  return (List.range n).map fun i => overlay stores (loc + i) (r.s.byteAt (loc + i))

/-- Enter stores in the open chunk (R175): visible to the thread at once and to others at its commit. -/
def writeLoc (ws : List Write) : Exec Unit := do
  afterLate (ws.map (·.1 / 128))
  modChunk fun c => ws.foldl (fun c w =>
    let (l, m, b) := w
    let old := (tfind l c.stores).getD (0, 0)
    { c with stores := tput l (old.1 ||| m, (old.2 &&& ~~~m) ||| (b &&& m)) c.stores, writes := mput (l / 128) c.writes }) c

/-- An access that stands alone (R176): inside an explicit chunk a DEV access traps 0x11; else the chunk ends before it and
after it. -/
def alone (va : Nat) : Exec Unit := do
  if (← explicitChunk) then trap 17 (word va)
  if (← begun) then throw (.boundary 4)
  endAfter

/-- A request of the executing thread (R325). -/
def fabricReq (dev off : Nat) (op : ArrivingOp) (va : Nat) (reply : ReplyTo) : Exec FabricReq := do
  let t ← getT
  return { id := 0, parcel := t.parcel, die := dieOf (t.core.getD 0), dev, off, header := 0, op, va := word va, reply, port := 0,
           sent := false, batch := none, lead := off, parts := [], folded := false, issued := 0, stage := 0, waiting := false,
           first := (0, 0), last := (0, 0), answer := none }

/-- A request of a thread that is not a load (R196). -/
def FabricReq.isAfter (q : FabricReq) (tid : Nat) : Bool :=
  match q.reply with
  | .ack t _ => t == tid
  | .atomic t _ _ _ => t == tid
  | _ => false

/-- A fabric load waits for the thread's earlier fabric stores and atomics to its line (R196). -/
def fabricOrder (dev off : Nat) : Exec Unit := do
  let r ← get
  if (r.t.chunk.any fun c => c.fabricOut.any fun q => q.dev == dev && q.off / 128 == off / 128) then throw (.boundary 5)
  if r.s.fabric.any fun q => q.isAfter r.t.tid && q.dev == dev && q.off / 128 == off / 128 then throw .stall

/-- Read n bytes of another device's memory (R188): the reply is asked for once, with the requests that travel with it, and the
instruction goes on when it has arrived. -/
def fabricRead (dev off n va : Nat) (ask : FabricReq → Exec (List FabricReq) := fun q => pure [q]) : Exec (List Byte) := do
  if (← explicitChunk) then throw (.boundary 5)
  fabricOrder dev off
  let r ← get
  match r.t.replies.find? fun p => p.vp == r.vp && p.pa == dev * 2 ^ 39 + off && p.n == n with
  | some p => if p.code = 0 then return p.data else trapOf (replyTrap p.code (word va))
  | none =>
    if r.s.fabric.any fun q => q.reply == .load r.t.tid r.vp && q.dev == dev && q.off == off then throw .stall
    throw (.request (← ask (← fabricReq dev off (.load n) va (.load r.t.tid r.vp))))

/-- A load that misses on its die, or a fabric load, put off until its reply (R189). The line of the first is read by the chunk:
among the die's own chunks it is serial (R186). -/
def deferLoad (d : Dest) (va : Nat) (pa n : Nat) (ext : Ext) (fabric : Option (Nat × Nat)) (vector : Bool)
    (join : FabricReq → Exec FabricReq := pure) : Exec Unit := do
  let r ← get
  let id := r.s.nextId
  modT fun t => { t with deferred := { id, dest := d, va := word va, pa, n, ext, vector, inChunk := true } :: t.deferred }
  modS fun s => { s with nextId := id + 1 }
  match fabric with
  | some (dev, off) =>
    fabricOrder dev off
    let q ← fabricReq dev off (.load n) va (.deferred r.t.tid id)
    let q ← join q
    modS fun s => s.sendReq q
  | none => modChunk fun c => { c with reads := mput (pa / 128) c.reads }

/-- A load that may be deferred, where this turn defers it (R189): no MGD copy on the die, or a fabric page with a route, and
not inside an explicit chunk, whose accesses take one place (R182). -/
def mayDefer (p : Place) : Exec Bool := do
  let s ← getS
  if (← explicitChunk) then return false
  match p with
  | .loc l => return s.defer && viewBase ≤ l && !s.hasCopy (viewDie l) (viewPa l / 128)
      && !((← getT).chunk.any fun c => c.writes.contains (l / 128))
  | .fabric dev off => return s.defer && (s.unsent dev off).isNone
  | _ => return false

/-! ## The local register window (R393, R394) -/

/-- A write of 1 clears the wrap bit, unless the device has set it in the same cycle (R6, R252). -/
def StackSt.clearWrap (k : StackSt) (now : Nat) : StackSt := if k.wrapAt = some now then k else { k with wrap := false }

/-- A dword of an error log entry or a log status of a stack, as a parcel reads it. -/
def StackSt.read (k : StackSt) (parcel off : Nat) : Nat :=
  if off < 0x1000 then
    let e := (tget 0 (off / 16) k.log).toNat
    if e ≠ 0 && field 55 50 e ≠ parcel then 0 else e / 2 ^ (64 * (off / 8 % 2)) % 2 ^ 64
  else if off = 0x1000 then k.next + (if k.wrap then 2 ^ 16 else 0)
  else 0

/-- The counter that a dword of the window names, as a parcel reads it: key refusals of another parcel read as zero. Which
number names which counter is not architectural (R394). -/
def Counters.value (c : Counters) (parcel : Nat) : Nat → Nat
  | 0 => c.squashes
  | 1 => c.falsePositives
  | 2 => c.commits
  | 3 => c.cascades
  | 4 => c.deadReads
  | 5 => tget 0 parcel c.refusals
  | 6 => c.unownedRefusals
  | 7 => c.corrected
  | 8 => c.farPlacements
  | 9 => c.nearPlacements
  | 10 => c.postponements
  | 11 => c.tlbHits
  | 12 => c.tlbMisses
  | 13 => c.partitionHits
  | 14 => c.partitionEvictions
  | _ => 0

/-- A dword of the local register window (R393); offsets that it does not place read as zero (R7). -/
def State.windowRead (s : State) (parcel off : Nat) : Nat :=
  if off < 0x10000 then (s.stack (off / 0x2000)).read parcel (off % 0x2000)
  else if 0x20000 ≤ off && off < 0x20030 then
    ((List.range 64).map fun k => if (s.core ((off - 0x20000) * 8 + k)).fenced then 2 ^ k else 0).sum
  else if off = 0x20040 then s.devnum.getD 0
  else if off = 0x20048 then s.clock + s.powerLimit * 2 ^ 32
  else if 0x100000 ≤ off then s.counters.value parcel (Config.counterNumber ((off - 0x100000) / 8))
  else 0

/-- A write to the window: a 1 to the wrap bit of a log status clears it, and nothing else changes (R394). -/
def State.windowWrite (s : State) (off x : Nat) : State :=
  if off < 0x10000 && off % 0x2000 = 0x1000 && x / 2 ^ 16 % 2 = 1 then
    s.setStack (off / 0x2000) ((s.stack (off / 0x2000)).clearWrap s.cycle)
  else s

/-! ## Scalar accesses (R194, R195) -/

/-- A scalar load of n bytes into a register. -/
def loadX (rd : BitVec 6) (n : Nat) (ext : Ext) (va : Word) : Exec Unit := do
  let a := va.toNat
  if a % n ≠ 0 then trap 3 va
  let acc ← xlate .load a
  let p ← placeA acc
  if (← mayDefer p) then
    awaitX rd.toNat
    let f := match p with | .fabric dev off => some (dev, off) | _ => none
    deferLoad (if rd = 0 then .none else .x rd.toNat) a (match p with | .loc l => l | _ => 0) n ext f false
  else
    match p with
    | .loc l => wrX rd (extend ext n (natOfBytes (← readLoc a l n)))
    | .dev pa =>
      alone a
      match (← getS).poisonTrap a pa n with
      | some f => trapOf f
      | none =>
        modS (·.countDead pa)
        wrX rd (extend ext n (natOfBytes ((← getS).mem.bytes pa n)))
    | .registers off =>
      if n ≠ 8 || !(← getC).priv then trap 5 va
      alone a
      wrX rd (BitVec.ofNat 64 ((← getS).windowRead (← getT).parcel off))
    | .fabric dev off => wrX rd (extend ext n (natOfBytes (← fabricRead dev off n a)))

/-- A unit of the executing thread's own, outside its chunk. -/
def ownUnit (ws : List Write) : Exec Unit := do
  let t ← getT
  if (← getS).held (some t.tid) (ws.map (·.1 / 128)) then throw .stall
  modS (·.unit (some t.tid) ws)

/-- A scalar store of the low n bytes of a value. -/
def storeX (n : Nat) (x : Word) (va : Word) : Exec Unit := do
  let a := va.toNat
  if a % n ≠ 0 then trap 3 va
  let acc ← xlate .store a
  let bytes := bytesOfNat x.toNat n
  match (← placeA acc) with
  | .loc l => writeLoc (writesOf l bytes)
  | .dev pa =>
    alone a
    ownUnit (writesOf pa bytes)
  | .registers off =>
    if n ≠ 8 || !(← getC).priv then trap 5 va
    alone a
    modS (·.windowWrite off x.toNat)
  | .fabric dev off =>
    if (← explicitChunk) then throw (.boundary 5)
    let q ← fabricReq dev off (.store bytes (List.replicate n 255)) a (.ack (← getT).tid false)
    modChunk fun c => { c with fabricOut := c.fabricOut ++ [q] }

/-- Bytes of a record, page by page: ORD accesses of the chunk (R215, R257, R362). -/
def readPages : Nat → Nat → Nat → Exec (List Byte)
  | 0, _, _ => return []
  | fuel + 1, va, n => do
    if n = 0 then return []
    let k := min n (2 ^ 16 - va % 2 ^ 16)
    match (← placeFor true (← xlate .load va)) with
    | .loc l =>
      let b ← readLoc va l k
      return b ++ (← readPages fuel (va + k) (n - k))
    | _ => trap 5 (word va)

/-- A read of a record, a plat, a table or a bitmap. -/
def readRec (va n : Nat) : Exec Nat := do return natOfBytes (← readPages (n / 2 ^ 16 + 2) va n)

/-- The location that a store to a record reaches (R368): pages other than memory trap 0x05. -/
def recPlace (need : Need) (va : Nat) : Exec Nat := do
  match (← placeA (← xlate need va)) with
  | .loc l => return l
  | _ => trap 5 (word va)

end Sys2Proof.Machine
end

