-- ==== Sys2Proof/Machine/Operands.lean ====
section
/-! DEFINITION. Operand forms: the mode register's fields (R29), element types, vector, predicate and stream operands
(R28, R36, R70, R83, R231), and system registers (R37, R38). -/

namespace Sys2Proof.Machine

/-! ## The mode register (R29) -/

def modeGuard (m : BitVec 26) : Nat := (m.extractLsb' 22 4).toNat
def modeStype (m : BitVec 26) : TypeCode := (m.extractLsb' 17 5).toNat
def modeRnd (m : BitVec 26) : Rnd := (m.extractLsb' 14 3).toNat
def modeSat (m : BitVec 26) : Bool := m.getLsbD 13
def modeScale (m : BitVec 26) : Nat := (m.extractLsb' 7 6).toNat
def modeBlk (m : BitVec 26) : Nat := 16 * 2 ^ (m.extractLsb' 5 2).toNat
def modeDtype (m : BitVec 26) : TypeCode := (m.extractLsb' 0 5).toNat

def getMode : Exec (BitVec 26) := do return (← getC).mode
def modeWord : Exec Word := do return (← getMode).setWidth 64
/-- A mode that the instruction cannot use traps 0x02 with the mode register (R31, R62). -/
def modeTrap {α : Type} : Exec α := do trap 2 (← modeWord)
def needMode (ok : Bool) : Exec Unit := do if !ok then modeTrap

def widthOf (t : TypeCode) : Exec Nat := do return typeWidth (← getC).fmt t

/-- VLMAX of the thread's class for 32-bit elements (R18, R37). -/
def Thread.vlmax (t : Thread) : Nat := vlmaxOf t.part t.cls

/-- The limit on vl of R59 for the wider of two widths. -/
def vlLimit (vlmax w : Nat) : Nat := vlmax * 32 / slotWidth w

/-- The check of R60: vl above the limit of the instruction's own types traps 0x02 with vl. -/
def checkVl (w : Nat) : Exec Unit := do
  let t ← getT
  if vlLimit t.vlmax w < t.ctx.vl then trap 2 (BitVec.ofNat 64 t.ctx.vl)

/-! ## Vector registers -/

/-- The physical register that a name denotes (R70). -/
def Ctx.phys (c : Ctx) (k : Nat) : Nat :=
  if 32 ≤ k && c.loops.any (·.rotating) then 32 + (k - 32 + c.rrb) % 32 else k

/-- Poison in a predicate register (R351). -/
def checkPoisonP (k : Nat) : Exec Unit := do
  let t ← getT
  if !t.poison.isEmpty then
    match t.poison.find? fun q => q.file == 2 && q.reg == k with
    | some q => trapOf { code := 12, sub := 1, val := poisonVal 2 k (q.index * 64) }
    | none => pure ()

/-- Elements that an instruction acts on (R41, active; R123): those below vl that the guard lets through, or a VP's own. -/
def activeElems : Exec (List Nat) := do
  let r ← get
  match r.vp with
  | some i => return [i]
  | none =>
    let c := r.t.ctx
    let g := modeGuard c.mode
    if g ≠ 0 then checkPoisonP g
    let p := c.pAt g
    return (List.range c.vl).filter p.getLsbD

/-- A register that a deferred load is still to write holds its users (R189, R202); one whose reply failed takes the pending
record first (R345). -/
def awaitV (k : Nat) : Exec Unit := do
  let t ← getT
  let named (d : Dest) : Bool := match d with | .v r _ _ => r == k | _ => false
  if (t.deferred.any fun d => named d.dest) || (← get).awaits named then throw .stall
  if t.pending.isSome && t.failedRegs.any named then throw .async

/-- Poison in the elements read of a vector register (R351). -/
def checkPoisonV (k w : Nat) (es : List Nat) : Exec Unit := do
  let t ← getT
  if !t.poison.isEmpty then
    match es.find? fun i => t.poison.contains { file := 1, reg := k, index := i * w / 64 } with
    | some i => trapOf { code := 12, sub := 1, val := poisonVal 1 k i }
    | none => pure ()

/-- Element q of a stream's sequence (R230): its address. -/
def Stream.addr (p : Stream) (q : Nat) : Word :=
  let go := (p.count.zip p.stride).foldl (fun (acc : Nat × Int) (e : Nat × Int) =>
    (acc.1 / e.1, acc.2 + (acc.1 % e.1 : Nat) * e.2)) (q, 0)
  p.base + word go.2

def Stream.length (p : Stream) : Nat := p.count.foldl (· * ·) 1

/-- One element of a stream, as its pop reads it (R231): the value that the refill engine has fetched, or one read now, where
misaligned traps 0x03, a fault its own code and a DEV page 0x05. The line of either counts toward an explicit chunk's. -/
def popElem (n : Nat) (p : Stream) (b q : Nat) : Exec Nat := do
  if p.length ≤ q then return 0
  match (tfind n (← getT).refill).bind (tfind q) with
  | some (l, x) =>
    modChunk fun c => if c.explicit then { c with reads := mput (l / 128) c.reads } else c
    return x
  | none =>
  let va := (p.addr q).toNat
  if va % b ≠ 0 then trap 3 (word va)
  match (← placeFor true (← xlateAt p.priv .load va)) with
  | .loc l => return natOfBytes (← readLoc va l b)
  | .fabric dev off => return natOfBytes (← fabricRead dev off b va)
  | _ => trap 5 (word va)

/-- A vector source named k, read at width w for c elements (R231): a register in stream mode is popped once for the whole
instruction. -/
def srcV (k : BitVec 6) (w c : Nat) : Exec VReg := do
  let r ← get
  let n := r.t.ctx.phys k.toNat
  match tfind n r.t.ctx.streams with
  | none =>
    awaitV n
    return r.t.ctx.v[n]?.getD 0
  | some p =>
    if r.vp.isSome then trap 1 (r.s.fetched.setWidth 64)
    if p.width ≠ w then trap 2 (BitVec.ofNat 64 n)
    match tfind n r.popped with
    | some v => return v
    | none =>
      let es ← (List.range c).mapM fun i => popElem n p (w / 8) (p.pos + i)
      let v := BitVec.ofNat 131072 (es.foldr (fun x acc => x + acc * 2 ^ w) 0)
      modC fun c' => { c' with streams := tput n { p with pos := p.pos + c } c'.streams }
      modify fun r => { r with popped := tput n v r.popped }
      return v

/-- A vector source with the poison of the elements read checked; a pop replaces what its register held. -/
def srcElems (k : BitVec 6) (w c : Nat) (es : List Nat) : Exec VReg := do
  let n := (← getC).phys k.toNat
  let pops := (tfind n (← getC).streams).isSome
  let v ← srcV k w c
  if !pops then checkPoisonV n w es
  return v

/-- A VP instruction that names a stream-mode register traps 0x01 (R231). -/
def vpStreams (ks : List (BitVec 6)) : Exec Unit := do
  let r ← get
  if r.vp.isSome && ks.any fun k => (tfind (r.t.ctx.phys k.toNat) r.t.ctx.streams).isSome then
    trap 1 (r.s.fetched.setWidth 64)

/-- Sources in stream mode must have the width that they are read at, before anything is popped (R231). -/
def checkSrcs (srcs : List (BitVec 6 × Nat)) : Exec Unit := do
  let c ← getC
  for e in srcs do
    let n := c.phys e.1.toNat
    match tfind n c.streams with
    | some p => if p.width ≠ e.2 then trap 2 (BitVec.ofNat 64 n)
    | none => pure ()

/-- The physical register of a vector destination (R231): a register in stream mode traps 0x02. -/
def dstV (k : BitVec 6) : Exec Nat := do
  let r ← get
  let n := r.t.ctx.phys k.toNat
  if (tfind n r.t.ctx.streams).isSome then
    if r.vp.isSome then trap 1 (r.s.fetched.setWidth 64) else trap 2 (BitVec.ofNat 64 n)
  awaitV n
  return n

/-- Poison marks of a vector register that a write of elements clears: those 64-bit words that it covers whole (R351). -/
def clearPoisonV (k w : Nat) (es : List Nat) (m : List PoisonMark) : List PoisonMark :=
  m.filter fun q => !(q.file == 1 && q.reg == k && 64 ≤ w * (es.filter fun i => i * w / 64 == q.index).length)

/-- Write elements of w bits of a physical vector register (R98): every other element keeps its value. -/
def wrElems (n w : Nat) (es : List (Nat × Nat)) : Exec Unit := do
  let old := (← getC).v[n]?.getD 0
  modT fun t => { t with
    ctx := t.ctx.setV n (es.foldl (fun v e => setElem v e.1 w e.2) old)
    poison := if t.poison.isEmpty then [] else clearPoisonV n w (es.map (·.1)) t.poison }

/-- The second operand of an elementwise instruction. -/
inductive Arg where
  | none
  | v (k : BitVec 6)
  | x (k : BitVec 6)
  deriving DecidableEq, Repr

def Arg.regs : Arg → List (BitVec 6)
  | .v k => [k]
  | _ => []

/-- A subnormal code of a format (R74, R76). -/
def Fmt.subnormal (f : Fmt) (b : Nat) : Bool := f.e ≠ 0 && b / 2 ^ f.m % 2 ^ f.e = 0 && b % 2 ^ f.m ≠ 0

/-- Element i of an operand is a subnormal value of its type; popped are the elements that the instruction took from streams. -/
def Ctx.subnormalAt (c : Ctx) (popped : Table VReg) (i : Nat) (e : Arg × TypeCode) : Bool :=
  let w := typeWidth c.fmt e.2
  let code := match e.1 with
    | .none => 0
    | .x k => (c.xAt k).toNat % 2 ^ w
    | .v k => getElem ((tfind (c.phys k.toNat) popped).getD (c.v[c.phys k.toNat]?.getD 0)) i w
  isFloat e.2 && (floatFmt c.fmt e.2).subnormal code

/-- The extra charge of a strip whose sources, at the elements es, are those of the context before it and whose results, at the elements
ds, stand now: 16 for each element group that holds a subnormal operand or result (R90, R271). A VP's instruction is charged as such. -/
def chargePasses (c : Ctx) (es : List Nat) (srcs : List (Arg × TypeCode)) (dst : List (Arg × TypeCode)) (ds : List Nat := es) : Exec Unit :=
  modify fun r =>
    let hits := (es.filter fun i => srcs.any (c.subnormalAt r.popped i)) ++ ds.filter fun i => dst.any (r.t.ctx.subnormalAt [] i)
    if r.vp.isSome then r else { r with beats := r.beats + 16 * (distinct (hits.map (· / 16))).length }

/-- An elementwise instruction (R97, R98): every source is read before the destination is written, active elements of wd bits
are written, and the flags of all of them are raised. f takes the element's index and the codes of the destination and of the
two sources; a scalar operand's code is its low bits. -/
def elementwise (d : BitVec 6) (wd : Nat) (reads : Bool) (a : BitVec 6) (w : Nat) (b : Arg) (wb : Nat)
    (f : Nat → Nat → Nat → Nat → Rounded) : Exec Unit := do
  let x ← match b with | .x k => rdX k | _ => pure 0
  let n ← dstV d
  checkSrcs ((a, w) :: b.regs.map (·, wb))
  let es ← activeElems
  let vl := (← getC).vl
  let va ← srcElems a w vl es
  let vb ← match b with | .v k => srcElems k wb vl es | _ => pure 0
  if reads then checkPoisonV n wd es
  let old := (← getC).v[n]?.getD 0
  let code (i : Nat) : Nat := match b with | .x _ => x.toNat % 2 ^ wb | _ => getElem vb i wb
  let out := es.map fun i => (i, f i (getElem old i wd) (getElem va i w) (code i))
  wrElems n wd (out.map fun e => (e.1, e.2.1))
  raise (out.foldl (fun fl e => fl ||| e.2.2) 0)

/-! ## Predicates -/

/-- Read a predicate register: p0 reads all ones (R36). -/
def rdP (k : Nat) : Exec PReg := do
  if k ≠ 0 then checkPoisonP k
  return (← getC).pAt k

/-- Write a whole predicate register. -/
def wrP (k : Nat) (v : PReg) : Exec Unit :=
  modT fun t => { t with ctx := t.ctx.setP k v, poison := t.poison.filter fun q => !(q.file == 2 && q.reg == k) }

/-! ## Block scales (R82, R83) -/

/-- The types that block scales apply to (R83). -/
def scalable (t : TypeCode) : Bool := t == 20 || t == 0 || t == 4 || isFmt t

/-- The byte of the scale register that serves element i of physical register n of width w (R83). -/
def scaleSlot (th : Thread) (n w : Nat) (i : Nat) : Nat :=
  let L := modeBlk th.ctx.mode
  let sw := slotWidth w
  let E := th.vlmax * 32 / sw
  let g := min 8 (sw * L / 8)
  n % g * E / L + i / L

/-- The scale byte of element i of physical register n of width w (R83). -/
def Thread.scaleByte (th : Thread) (vS : VReg) (n w : Nat) (i : Nat) : Nat := getElem vS (scaleSlot th n w i) 8

/-- The register of block scales that the mode names, none where it names none (R29, R83); one in stream mode traps 0x02
(R231). -/
def scaleReg : Exec (Option VReg) := do
  let c ← getC
  let k := modeScale c.mode
  if k = 0 then return none
  let n := c.phys k
  if (tfind n c.streams).isSome then modeTrap
  awaitV n
  return some (c.v[n]?.getD 0)

/-- A scaled value (R82): a NaN scale makes a NaN. -/
def scaleVal (v : Val) (s : Nat) : Val :=
  if s = 255 then .nan true
  else match v with
    | .fin g m e => .fin g m (e + s - 127)
    | v => v

/-! ## System registers (R37, R38, R61) -/

/-- A register of the privileged view (R37, R38). -/
def privNumber (r : BitVec 12) : Bool := 0x100 ≤ r

/-- The dies' cycle counters (R37): 0 with the device's count, and ahead of it afterwards by what timing gives the die, at
most 2. -/
def State.dieCycle (s : State) (die : Nat) : Word := BitVec.ofNat 64 (s.cycle + min (Config.cycleSkew die % 3) s.cycle)

/-- A parcel-wide register as its thread reads it: its own uncommitted write first (R301). -/
def parcelReg (which : Nat) : Exec Word := do
  let r ← get
  let p := r.s.parcel r.t.parcel
  let own := match r.t.chunk with | some c => (c.parcelWrites.filter fun (w : ParcelWrite) => w.which == which).getLast? | none => none
  match own with
  | some w => return w.value
  | none => return if which = 0 then p.ptroot else if which = 1 then p.trapvec else p.pshare

def chkcapWord : Word := 0x0000080002000800

/-- Register st0 to st3 of a thread: the number of its stand with bit 8 set, or 0 (R37, R49). -/
def Thread.standWord (t : Thread) (k : Nat) : Word := match t.st[k]? with | some n => BitVec.ofNat 64 (256 + n) | none => 0

/-- The value of a system register (R37). -/
def readSys (r : BitVec 12) : Exec Word := do
  let run ← get
  let t := run.t
  let c := t.ctx
  match r.toNat with
  | 0x000 => return BitVec.ofNat 64 c.vl
  | 0x001 => return BitVec.ofNat 64 t.vlmax
  | 0x002 => return c.mode.setWidth 64
  | 0x010 => return c.fflags.setWidth 64
  | 0x011 => return c.estart
  | 0x012 => return c.fprog
  | 0x013 => return t.ctags
  | 0x014 => return BitVec.ofNat 64 t.mgrant
  | 0x015 => return if c.msat then 1 else 0
  | 0x016 => return chkcapWord
  | 0x017 => return BitVec.ofNat 64 t.tid
  | 0x018 => return BitVec.ofNat 64 (crewOf (t.core.getD 0))
  | 0x019 => return BitVec.ofNat 64 (dieOf (t.core.getD 0))
  | 0x01A => return run.s.dieCycle (dieOf (t.core.getD 0))
  | 0x01B => return c.rngkey
  | 0x01C | 0x01D | 0x01E | 0x01F =>
    return t.standWord (r.toNat - 0x1C)
  | 0x020 => return 1
  | 0x100 => return BitVec.ofNat 64 t.parcel
  | 0x101 => parcelReg 0
  | 0x102 => parcelReg 1
  | 0x103 => return c.trapcause
  | 0x104 => return c.trappc
  | 0x105 => return c.trapval
  | 0x108 => return c.pkidx
  | 0x109 => return c.pkeylo
  | 0x10A => return c.pkeyhi
  | 0x10B => parcelReg 2
  | n => return c.fmt[n - 8]?.getD 0

/-- A format register's value obeys R78. -/
def fmtOk (w : Word) : Bool :=
  let f := fmtOf w
  1 ≤ f.e + f.m && f.width ≤ 8 && f.nan ≠ 3 && (f.inf == (f.nan == 2)) && (f.nan != 2 || (2 ≤ f.e && 1 ≤ f.m))
    && (f.nan != 1 || (1 ≤ f.e && 2 ≤ f.e + f.m))

/-- The written value with the reserved bits of trapcause, ptroot, trapvec, pshare, pkidx, fprog and the formats dropped. -/
def fmtMask : Word := 0x00FF1F77
def causeMask : Word := 0x3CFFF
def ptrootMask : Word := 0x000FFFFFFFFF0000
def trapvecMask : Word := 0x007FFFFFFFFFFFFC
def pkidxMask : Word := 0xFFFF00013F

end Sys2Proof.Machine
end

