-- ==== Sys2Proof/Machine/LoadStore.lean ====
section
/-! DEFINITION. Scalar loads, stores and atomics, fences, acquires and releases, and the chunk instructions (09, R194, R195,
R205 to R208, R211 to R214; 08, R190). -/

namespace Sys2Proof.Machine

/-! ## Loads and stores (R194) -/

/-- The address of a scalar access of n bytes (R194). -/
def scalarAddr (b : Word) (o : BitVec 11) (n : Nat) : Word := b + word (o.toInt * n)

def loadAt (n : Nat) (ext : Ext) (d a : BitVec 6) (o : BitVec 11) (s : State) : Result :=
  control {} (seq do loadX d n ext (scalarAddr (← rdX a) o n)) s

def storeAt (n : Nat) (d a : BitVec 6) (o : BitVec 11) (s : State) : Result :=
  control {} (seq do
    let b ← rdX a
    let x ← rdX d
    storeX n x (scalarAddr b o n)) s

/-- ld.b (R194). -/
def execLdB (d a : BitVec 6) (o : BitVec 11) (s : State) : Result := loadAt 1 .sign d a o s
/-- ld.h (R194). -/
def execLdH (d a : BitVec 6) (o : BitVec 11) (s : State) : Result := loadAt 2 .sign d a o s
/-- ld.w (R194). -/
def execLdW (d a : BitVec 6) (o : BitVec 11) (s : State) : Result := loadAt 4 .sign d a o s
/-- ld.d (R194). -/
def execLdD (d a : BitVec 6) (o : BitVec 11) (s : State) : Result := loadAt 8 .zero d a o s
/-- ld.bu (R194). -/
def execLdBu (d a : BitVec 6) (o : BitVec 11) (s : State) : Result := loadAt 1 .zero d a o s
/-- ld.hu (R194). -/
def execLdHu (d a : BitVec 6) (o : BitVec 11) (s : State) : Result := loadAt 2 .zero d a o s
/-- ld.wu (R194). -/
def execLdWu (d a : BitVec 6) (o : BitVec 11) (s : State) : Result := loadAt 4 .zero d a o s
/-- st.b (R194). -/
def execStB (d a : BitVec 6) (o : BitVec 11) (s : State) : Result := storeAt 1 d a o s
/-- st.h (R194). -/
def execStH (d a : BitVec 6) (o : BitVec 11) (s : State) : Result := storeAt 2 d a o s
/-- st.w (R194). -/
def execStW (d a : BitVec 6) (o : BitVec 11) (s : State) : Result := storeAt 4 d a o s
/-- st.d (R194). -/
def execStD (d a : BitVec 6) (o : BitVec 11) (s : State) : Result := storeAt 8 d a o s

/-! ## What a synchronising instruction waits for -/

/-- Deferred scalar loads are replied to before an atomic, fence, acquire, release or wait (R195). -/
def awaitScalars : Exec Unit := do
  if (← getT).deferred.any fun d => !d.vector then throw .stall

/-- A request of a thread's vector and fibre memory instructions, its reply outstanding (R202, R203). -/
def FabricReq.isVectorOf (q : FabricReq) (tid : Nat) : Bool :=
  match q.reply with
  | .ack t v => t == tid && v
  | .atomic t _ _ v => t == tid && v
  | _ => false

/-- The vector drain (R203): every element access of earlier vector and fibre memory instructions has been performed. -/
def drainVectors : Exec Unit := do
  let r ← get
  if (r.t.deferred.any (·.vector)) || r.s.fabric.any (·.isVectorOf r.t.tid) then throw .stall

/-- The fabric stores and atomics of the thread have been performed at their targets (R190, system scope). -/
def awaitFabric : Exec Unit := do
  let r ← get
  if r.s.fabric.any (·.isAfter r.t.tid) then throw .stall

/-! ## Scope actions (R190) -/

/-- A die's dirty bytes go home, and with drop its copies go too; write-backs already on their way arrive first. -/
def State.flushDie (s : State) (die : Nat) (drop : Bool) : State :=
  let s := s.settle (·.die == die)
  (s.copyLines die).foldl (fun s l => (if drop then s.squashView die l else s).writeBack die l drop) s

/-- The scope action of rel, acq (drop) or fence. A line of the ticket holder's holds it up (R279). -/
def scopeAction (sc : BitVec 2) (drop release : Bool) : Exec Unit := do
  let r ← get
  let die := dieOf (r.t.core.getD 0)
  if 2 ≤ sc then
    let ls := r.s.copyLines die
    if r.s.held (some r.t.tid) (ls ++ (if drop then viewLines die ls else [])) then throw .stall
    modS (·.flushDie die drop)
  if sc = 3 && release then awaitFabric

/-- fence (R211, R190). -/
def execFence (sc : BitVec 2) (s : State) : Result :=
  control { rule := .alone } (seq do
    awaitScalars
    drainVectors
    scopeAction sc true true) s

/-- The dword access of acq and rel: xb misaligned traps 0x03, a DEV page 0x05 (R211). -/
def syncPlace (need : Need) (va : Word) : Exec Place := do
  if va.toNat % 8 ≠ 0 then trap 3 va
  match (← placeA (← xlate need va.toNat)) with
  | .dev _ | .registers _ => trap 5 va
  | p => return p

/-- acq (R211, R191): the load stands before the action. -/
def execAcq (d a : BitVec 6) (sc : BitVec 2) (s : State) : Result :=
  control { rule := .alone } (seq do
    awaitScalars
    if a ≠ 0 then
      let va ← rdX a
      match (← syncPlace .load va) with
      | .loc l => wrX d (BitVec.ofNat 64 (natOfBytes (← readLoc va.toNat l 8)))
      | .fabric dev off => wrX d (BitVec.ofNat 64 (natOfBytes (← fabricRead dev off 8 va.toNat)))
      | _ => pure ()
    scopeAction sc true false) s

/-- rel (R211, R191): the store stands after the action. -/
def execRel (a b : BitVec 6) (sc : BitVec 2) (s : State) : Result :=
  control { rule := .alone } (seq do
    awaitScalars
    if a = 0 then
      drainVectors
      scopeAction sc false true
    else
      let va ← rdX a
      let x ← rdX b
      let p ← syncPlace .store va
      drainVectors
      scopeAction sc false true
      match p with
      | .loc l => writeLoc (writesOf l (bytesOfNat x.toNat 8))
      | .fabric dev off =>
        let q ← fabricReq dev off (.store (bytesOfNat x.toNat 8) (List.replicate 8 255)) va.toNat (.ack (← getT).tid false)
        modChunk fun c => { c with fabricOut := c.fabricOut ++ [q] }
      | _ => pure ()) s

/-- pref (R212): timing only. -/
def execPref (a : BitVec 6) (s : State) : Result := control {} (seq do let _ ← rdX a) s

/-! ## Scalar atomics (R205 to R208) -/

/-- Where an ORD or MGD atomic is placed (R207, R208, R279): far when the predictor says so, outside explicit chunks and
priority commit. -/
def placeAtomic (loc : Nat) (returns : Bool) : Exec Unit := do
  let r ← get
  let line := loc / 128
  let k := r.t.core.getD 0
  let pinned := r.t.chunk.any fun c => c.explicit || c.priority
  let far := !pinned && 2 ≤ (r.s.core k).predicted line && (loc < scratchBase || viewBase ≤ loc)
  modS fun s => (s.setCore k ((s.core k).touch line)).count fun c =>
    if far then { c with farPlacements := c.farPlacements + 1 } else { c with nearPlacements := c.nearPlacements + 1 }
  if far then
    modChunk fun c => { c with farLines := c.farLines ++ [line] }
    if returns then endAfter
  else modChunk fun c => { c with nearLines := line :: c.nearLines }

/-- One location's read-modify-write in the open chunk: the old value. -/
def atomicLoc (op : AmoOp) (n va loc v expected : Nat) : Exec Nat := do
  let m := natOfBytes (← readLoc va loc n)
  if op != .cas || m == expected % 2 ^ (8 * n) then
    let r := amoApply op n m (v % 2 ^ (8 * n))
    writeLoc (writesOf loc (bytesOfNat r.1 n))
    raise r.2
  return m

/-- A floating atomic to a device without the extension traps 0x05 at issue (R324). -/
def checkExt (op : AmoOp) (dev va : Nat) : Exec Unit := do
  if op == .fadd && !(← getS).extTo dev then trap 5 (word va)

/-- amo and cas (R205). -/
def atomicX (op : AmoOp) (d a b : BitVec 6) (dword : Bool) : Exec Unit := do
  let n := if dword then 8 else 4
  let base ← rdX a
  let v ← rdX b
  let expected ← if op == .cas then rdX d else pure 0
  let va := base.toNat
  if va % n ≠ 0 then trap 3 base
  let p ← placeA (← xlate .amo va)
  awaitScalars
  awaitX d.toNat
  match p with
  | .loc l =>
    let m ← atomicLoc op n va l v.toNat expected.toNat
    placeAtomic l (d != 0)
    wrX d (extend (amoExt op) n m)
  | .dev pa =>
    alone va
    match (← getS).poisonTrap va pa n with
    | some f => trapOf f
    | none =>
      modS (·.countDead pa)
      let m := natOfBytes ((← getS).mem.bytes pa n)
      if op != .cas || m == expected.toNat % 2 ^ (8 * n) then
        let r := amoApply op n m (v.toNat % 2 ^ (8 * n))
        ownUnit (writesOf pa (bytesOfNat r.1 n))
        raise r.2
      wrX d (extend (amoExt op) n m)
  | .registers _ => trap 5 base
  | .fabric dev off =>
    checkExt op dev va
    if (← explicitChunk) then throw (.boundary 5)
    let tid := (← getT).tid
    let reply : ReplyTo := if d = 0 then .ack tid false else .atomic tid (.x d.toNat) (amoExt op) false
    let q ← fabricReq dev off (.amo op dword v expected) va reply
    modChunk fun c => { c with fabricOut := c.fabricOut ++ [q] }
    if d ≠ 0 then endAfter

/-- amo.add (R205). -/
def execAmoAdd (d a b : BitVec 6) (z : Bool) (s : State) : Result := control {} (seq do atomicX .add d a b z) s

/-- amo.and (R205). -/
def execAmoAnd (d a b : BitVec 6) (z : Bool) (s : State) : Result := control {} (seq do atomicX .and d a b z) s

/-- amo.or (R205). -/
def execAmoOr (d a b : BitVec 6) (z : Bool) (s : State) : Result := control {} (seq do atomicX .or d a b z) s

/-- amo.xor (R205). -/
def execAmoXor (d a b : BitVec 6) (z : Bool) (s : State) : Result := control {} (seq do atomicX .xor d a b z) s

/-- amo.min (R205). -/
def execAmoMin (d a b : BitVec 6) (z : Bool) (s : State) : Result := control {} (seq do atomicX .min d a b z) s

/-- amo.max (R205). -/
def execAmoMax (d a b : BitVec 6) (z : Bool) (s : State) : Result := control {} (seq do atomicX .max d a b z) s

/-- amo.minu (R205). -/
def execAmoMinu (d a b : BitVec 6) (z : Bool) (s : State) : Result := control {} (seq do atomicX .minu d a b z) s

/-- amo.maxu (R205). -/
def execAmoMaxu (d a b : BitVec 6) (z : Bool) (s : State) : Result := control {} (seq do atomicX .maxu d a b z) s

/-- amo.swap (R205). -/
def execAmoSwap (d a b : BitVec 6) (z : Bool) (s : State) : Result := control {} (seq do atomicX .swap d a b z) s

/-- amo.fadd (R205, R206). -/
def execAmoFadd (d a b : BitVec 6) (z : Bool) (s : State) : Result := control {} (seq do atomicX .fadd d a b z) s

/-- cas (R205). -/
def execCas (d a b : BitVec 6) (z : Bool) (s : State) : Result := control {} (seq do atomicX .cas d a b z) s

/-! ## Chunk instructions (R213, R214) -/

/-- chkbeg (R213, R183): ends the open chunk and opens an explicit one here. -/
def execChkbeg (s : State) : Result :=
  control { counts := false } (seq do
    atOpening 6
    modChunk fun c => { c with explicit := true }
    modT fun t => if t.statFresh then { t with statSquashes := 0, statFresh := false } else t) s

/-- chkend (R213). -/
def execChkend (s : State) : Result := control { counts := false } (seq endAfter) s

/-- chkstat (R214). -/
def execChkstat (d : BitVec 6) (s : State) : Result :=
  control {} (seq do
    let t ← getT
    let inside := t.chunk.any (·.explicit)
    let prio := inside && t.chunk.any (·.priority)
    wrX d (BitVec.ofNat 64 (min 65535 t.statSquashes * 2 ^ 16 + (if prio then 2 else 0) + (if inside then 1 else 0)))) s

end Sys2Proof.Machine
end

