-- ==== Sys2Proof/Machine/ScalarFloat.lean ====
section
/-! DEFINITION. The scalar floating instructions (03, R62 to R64). -/

namespace Sys2Proof.Machine

/-- The mode's format and rounding for a scalar operation: dtype fp16, bf16, fp32 or fp64 and no rsr, or trap 0x02 (R62). -/
def scalarMode : Exec (Fmt × Rnd) := do
  let c ← getC
  let t := modeDtype c.mode
  needMode (8 ≤ t && t ≤ 11 && modeRnd c.mode != 5)
  return (floatFmt c.fmt t, modeRnd c.mode)

/-- A floating result enters a scalar register zero-extended, and its flags enter fflags (R62). -/
def wrRounded (d : BitVec 6) (r : Rounded) : Exec Unit := do
  wrX d (BitVec.ofNat 64 r.1)
  raise r.2

/-- A sum or product, rounded once, with the flags of its invalid cases (R63). -/
def roundVal (f : Fmt) (rnd : Rnd) (sat : Bool) (z : Nat) (v : Val × Flags) : Rounded :=
  let r := f.round rnd sat z v.1
  (r.1, r.2 ||| v.2)

/-- A scalar operation on two values (R63). -/
def scalarBin (op : Fmt → Rnd → Val → Val → Rounded) (d a b : BitVec 6) (s : State) : Result :=
  control {} (seq do
    let (f, rnd) ← scalarMode
    let x ← rdX a
    let y ← rdX b
    wrRounded d (op f rnd (f.value (x.toNat % 2 ^ f.width)) (f.value (y.toNat % 2 ^ f.width)))) s

/-- fadd (R63). -/
def execFadd (d a b : BitVec 6) (s : State) : Result :=
  scalarBin (fun f rnd x y => roundVal f rnd false 0 (x.add rnd y)) d a b s

/-- fsub (R63). -/
def execFsub (d a b : BitVec 6) (s : State) : Result :=
  scalarBin (fun f rnd x y => roundVal f rnd false 0 (x.add rnd y.negate)) d a b s

/-- fmul (R63). -/
def execFmul (d a b : BitVec 6) (s : State) : Result :=
  scalarBin (fun f rnd x y => roundVal f rnd false 0 (x.mul y)) d a b s

/-- fdiv (R63). -/
def execFdiv (d a b : BitVec 6) (s : State) : Result :=
  scalarBin (fun f rnd x y => f.div rnd false 0 x y) d a b s

/-- fsqrt (R63). -/
def execFsqrt (d a : BitVec 6) (s : State) : Result :=
  control {} (seq do
    let (f, rnd) ← scalarMode
    let x ← rdX a
    wrRounded d (f.sqrt rnd false 0 (f.value (x.toNat % 2 ^ f.width)))) s

/-- fcvt (R64): the conversion of the low bits of x from type t to type u. -/
def convert (fmt : Vector Word 8) (rnd : Rnd) (t u : TypeCode) (x : Nat) : Word × Flags :=
  let wt := typeWidth fmt t
  let wu := typeWidth fmt u
  if isInt t then
    let r := (floatFmt fmt u).round rnd false 0 (Val.ofInt (intValue t wt x))
    (BitVec.ofNat 64 r.1, r.2)
  else
    let v := (floatFmt fmt t).value (x % 2 ^ wt)
    if isInt u then
      let r := toIntSat rnd 0 u wu v
      (word (intValue u wu r.1), r.2)
    else
      let r := (floatFmt fmt u).round rnd false 0 v
      (BitVec.ofNat 64 r.1, r.2)

/-- fcvt (R64). -/
def execFcvt (d a b : BitVec 6) (s : State) : Result :=
  control {} (seq do
    let c ← getC
    let u := modeDtype c.mode
    let t : TypeCode := b.toNat
    needMode (u < 12 && modeRnd c.mode != 5 && !(isInt t && isInt u))
    let x ← rdX a
    let r := convert c.fmt (modeRnd c.mode) t u x.toNat
    wrX d r.1
    raise r.2) s

end Sys2Proof.Machine
end

