-- ==== Sys2Proof/Machine/VecFloat.lean ====
section
/-! DEFINITION. The vector floating instructions (05, R106 to R111). -/

namespace Sys2Proof.Machine

/-- The formats, rounding and random key of a vector floating instruction. -/
structure FloatOp where
  f : Fmt
  g : Fmt
  rnd : Rnd
  key : Word
  deriving DecidableEq, Repr

/-- The 32 bits that rounding draws for an element (R88). -/
def FloatOp.draw (o : FloatOp) (i : Nat) : Nat := if o.rnd = 5 then rsrDraw o.key i else 0

/-- round_to into the destination's format; arithmetic never saturates by the mode (R85, R100). -/
def FloatOp.out (o : FloatOp) (i : Nat) (v : Val × Flags) : Rounded := roundVal o.g o.rnd false (o.draw i) v

/-- A vector floating instruction (R100, R106): the operation takes the element's index, the values x and y in stype and c in
dtype, and the code of the second operand; num: that operand holds values of stype (vfscale's holds integers). -/
def vecFloat (reads : Bool) (f : FloatOp → Nat → Val → Val → Val → Nat → Rounded) (d a : BitVec 6) (b : Arg) (s : State)
    (num : Bool := true) : Result :=
  shared {} (seq do
    let c ← getC
    let t := modeStype c.mode
    let u := modeDtype c.mode
    let w := typeWidth c.fmt t
    let wd := typeWidth c.fmt u
    vpStreams (d :: a :: b.regs)
    needMode (isFloat t && isFloat u && w ≤ wd && modeScale c.mode == 0)
    checkVl (max w wd)
    let o : FloatOp := { f := floatFmt c.fmt t, g := floatFmt c.fmt u, rnd := modeRnd c.mode, key := c.rngkey }
    elementwise d wd reads a w b w fun i z x y => f o i (o.f.value x) (o.f.value y) (o.g.value z) y
    chargePasses c (← activeElems) ((.v a, t) :: (if num then b else .none, t) :: (if reads then [(.v d, u)] else []))
      [(.v d, u)]) s

/-! Results (R106 to R110). -/

def opVfadd (o : FloatOp) (i : Nat) (x y _ : Val) (_ : Nat) : Rounded := o.out i (x.add o.rnd y)
def opVfsub (o : FloatOp) (i : Nat) (x y _ : Val) (_ : Nat) : Rounded := o.out i (x.add o.rnd y.negate)
def opVfmul (o : FloatOp) (i : Nat) (x y _ : Val) (_ : Nat) : Rounded := o.out i (x.mul y)
def opVfma (o : FloatOp) (i : Nat) (x y c : Val) (_ : Nat) : Rounded := o.g.fma o.rnd false (o.draw i) x y c
def opVfms (o : FloatOp) (i : Nat) (x y c : Val) (_ : Nat) : Rounded := o.g.fma o.rnd false (o.draw i) x y c.negate
def opVfnma (o : FloatOp) (i : Nat) (x y c : Val) (_ : Nat) : Rounded := o.g.fma o.rnd false (o.draw i) x.negate y c.negate
def opVfnms (o : FloatOp) (i : Nat) (x y c : Val) (_ : Nat) : Rounded := o.g.fma o.rnd false (o.draw i) x.negate y c
def opVfdiv (o : FloatOp) (i : Nat) (x y _ : Val) (_ : Nat) : Rounded := o.g.div o.rnd false (o.draw i) x y
def opVfsqrt (o : FloatOp) (i : Nat) (x _ _ : Val) (_ : Nat) : Rounded := o.g.sqrt o.rnd false (o.draw i) x
def opVfrec (o : FloatOp) (i : Nat) (x _ _ : Val) (_ : Nat) : Rounded := o.g.div o.rnd false (o.draw i) (.fin false 1 0) x

/-- The order of values that are no NaN, with -0 below +0 (R107). -/
def Val.below : Val → Val → Bool
  | .inf s, .inf t => s && !t
  | .inf s, _ => s
  | _, .inf t => !t
  | .fin s1 m1 e1, .fin s2 m2 e2 =>
    if m1 = 0 && m2 = 0 then s1 && !s2
    else
      let e := min e1 e2
      decide (sint s1 (m1 * 2 ^ (e1 - e).toNat) < sint s2 (m2 * 2 ^ (e2 - e).toNat))
  | _, _ => false

/-- The smaller or larger of two values, a NaN set aside where the other is none (R107). -/
def Val.pick (least : Bool) (x y : Val) : Val :=
  if x.isNan then y else if y.isNan then x
  else if least then (if y.below x then y else x) else (if x.below y then y else x)

/-- NV for a signalling operand, and the chosen value rounded (R107). -/
def pickRounded (g : Fmt) (rnd : Rnd) (z : Nat) (least : Bool) (x y : Val) : Rounded :=
  let fl := if x.snan || y.snan then fNV else 0
  if x.isNan && y.isNan then g.nanWith fl else let r := g.round rnd false z (Val.pick least x y); (r.1, r.2 ||| fl)

def opVfmin (o : FloatOp) (i : Nat) (x y _ : Val) (_ : Nat) : Rounded := pickRounded o.g o.rnd (o.draw i) true x y
def opVfmax (o : FloatOp) (i : Nat) (x y _ : Val) (_ : Nat) : Rounded := pickRounded o.g o.rnd (o.draw i) false x y

/-- vfabs and vfneg of a value: a NaN raises nothing of its own (R107). -/
def signRounded (o : FloatOp) (i : Nat) (x : Val) : Rounded :=
  if x.isNan then o.g.canonicalNan else o.g.round o.rnd false (o.draw i) x

def opVfabs (o : FloatOp) (i : Nat) (x _ _ : Val) (_ : Nat) : Rounded := signRounded o i (if x.negative then x.negate else x)
def opVfneg (o : FloatOp) (i : Nat) (x _ _ : Val) (_ : Nat) : Rounded := signRounded o i x.negate

/-- vfrint (R108): the sign of a zero result is that of x. -/
def opVfrint (o : FloatOp) (i : Nat) (x _ _ : Val) (_ : Nat) : Rounded :=
  match x with
  | .fin s m e =>
    let n := roundInt o.rnd (o.draw i) s m e
    let r := o.g.round o.rnd false (o.draw i) (.fin s n.1.natAbs 0)
    (r.1, if n.2 then r.2 ||| fNX else r.2)
  | x => o.g.round o.rnd false (o.draw i) x

/-! 2^x for a magnitude of at most one half, in units of 2^-512 (log entry 20). -/

/-- The sum of 2^512 / (k * 2^k) for k from 1 up: ln 2. -/
def ln2Sum : Nat → Nat
  | 0 => 0
  | k + 1 => ln2Sum k + 2 ^ 512 / ((k + 1) * 2 ^ (k + 1))

def ln2Fixed : Nat := ln2Sum 512

/-- The sum of y^k / k! from the term for k on. -/
def expSum (y : Int) : Nat → Nat → Int → Int
  | 0, _, _ => 0
  | n + 1, k, t => t + expSum y n (k + 1) (t * y / 2 ^ 512 / (k + 1 : Nat))

/-- floor(2^x * 2^448) for x = (-1)^s * m * 2^e with m ≠ 0 and a magnitude of at most one half; 2^x itself is irrational. -/
def exp2Fixed (s : Bool) (m : Nat) (e : Int) : Nat :=
  if e + m.log2 < -200 then (if s then 2 ^ 448 - 1 else 2 ^ 448)
  else
    let y := sint s (inUnits (m * ln2Fixed) e 0).1
    (expSum y 110 0 (2 ^ 512) / 2 ^ 64).toNat

/-- vfexp2 (R109). -/
def opVfexp2 (o : FloatOp) (i : Nat) (x _ _ : Val) (_ : Nat) : Rounded :=
  match x with
  | .nan sg => o.g.nanWith (if sg then fNV else 0)
  | .inf _ => o.g.nanWith fNV
  | .fin s m e =>
    if m = 0 then o.g.round o.rnd false (o.draw i) (.fin false 1 0)
    else if 1 ≤ e + m.log2 + 1 || (e + m.log2 = -1 && m ≠ 2 ^ m.log2) then o.g.nanWith fNV
    else o.g.roundFin o.rnd false (o.draw i) false (exp2Fixed s m e) (-448) true

/-- x * 2^n with one rounding (R110). Beyond 5,000 every n gives the same result: an overflow, or a value below half the least
one. -/
def scaleRounded (o : FloatOp) (i : Nat) (x : Val) (n : Int) : Rounded :=
  let n := max (-5000) (min 5000 n)
  o.g.round o.rnd false (o.draw i) (match x with | .fin s m e => .fin s m (e + n) | x => x)

/-- vfscale (R110): n is the second operand's code as a signed integer of stype's width. -/
def opVfscale (o : FloatOp) (i : Nat) (x _ _ : Val) (y : Nat) : Rounded := scaleRounded o i x (sextNat y o.f.width)

/-- vfscale.vx (R110): n is the whole scalar, as a signed dword, and not its low bits. -/
def execVfscaleVx (d a b : BitVec 6) (_c : Bool) (s : State) : Result :=
  shared {} (seq do
    let c ← getC
    let t := modeStype c.mode
    let u := modeDtype c.mode
    let w := typeWidth c.fmt t
    let wd := typeWidth c.fmt u
    vpStreams [d, a]
    needMode (isFloat t && isFloat u && w ≤ wd && modeScale c.mode == 0)
    checkVl (max w wd)
    let n ← rdX b
    let o : FloatOp := { f := floatFmt c.fmt t, g := floatFmt c.fmt u, rnd := modeRnd c.mode, key := c.rngkey }
    elementwise d wd false a w .none w fun i _ x _ => scaleRounded o i (o.f.value x) n.toInt
    chargePasses c (← activeElems) [(.v a, t)] [(.v d, u)]) s

/-- vfadd (R106). -/
def execVfadd (d a b : BitVec 6) (_c _e : Bool) (s : State) : Result := vecFloat false opVfadd d a (.v b) s

/-- vfadd.vx (R33, R106). -/
def execVfaddVx (d a b : BitVec 6) (_c : Bool) (s : State) : Result := vecFloat false opVfadd d a (.x b) s

/-- vfsub (R106). -/
def execVfsub (d a b : BitVec 6) (_c _e : Bool) (s : State) : Result := vecFloat false opVfsub d a (.v b) s

/-- vfsub.vx (R33, R106). -/
def execVfsubVx (d a b : BitVec 6) (_c : Bool) (s : State) : Result := vecFloat false opVfsub d a (.x b) s

/-- vfmul (R106). -/
def execVfmul (d a b : BitVec 6) (_c _e : Bool) (s : State) : Result := vecFloat false opVfmul d a (.v b) s

/-- vfmul.vx (R33, R106). -/
def execVfmulVx (d a b : BitVec 6) (_c : Bool) (s : State) : Result := vecFloat false opVfmul d a (.x b) s

/-- vfma (R106). -/
def execVfma (d a b : BitVec 6) (_c _e : Bool) (s : State) : Result := vecFloat true opVfma d a (.v b) s

/-- vfma.vx (R33, R106). -/
def execVfmaVx (d a b : BitVec 6) (_c : Bool) (s : State) : Result := vecFloat true opVfma d a (.x b) s

/-- vfms (R106). -/
def execVfms (d a b : BitVec 6) (_c _e : Bool) (s : State) : Result := vecFloat true opVfms d a (.v b) s

/-- vfms.vx (R33, R106). -/
def execVfmsVx (d a b : BitVec 6) (_c : Bool) (s : State) : Result := vecFloat true opVfms d a (.x b) s

/-- vfnma (R106). -/
def execVfnma (d a b : BitVec 6) (_c _e : Bool) (s : State) : Result := vecFloat true opVfnma d a (.v b) s

/-- vfnma.vx (R33, R106). -/
def execVfnmaVx (d a b : BitVec 6) (_c : Bool) (s : State) : Result := vecFloat true opVfnma d a (.x b) s

/-- vfnms (R106). -/
def execVfnms (d a b : BitVec 6) (_c _e : Bool) (s : State) : Result := vecFloat true opVfnms d a (.v b) s

/-- vfnms.vx (R33, R106). -/
def execVfnmsVx (d a b : BitVec 6) (_c : Bool) (s : State) : Result := vecFloat true opVfnms d a (.x b) s

/-- vfdiv (R106). -/
def execVfdiv (d a b : BitVec 6) (_c _e : Bool) (s : State) : Result := vecFloat false opVfdiv d a (.v b) s

/-- vfdiv.vx (R33, R106). -/
def execVfdivVx (d a b : BitVec 6) (_c : Bool) (s : State) : Result := vecFloat false opVfdiv d a (.x b) s

/-- vfmin (R107). -/
def execVfmin (d a b : BitVec 6) (_c _e : Bool) (s : State) : Result := vecFloat false opVfmin d a (.v b) s

/-- vfmin.vx (R33, R107). -/
def execVfminVx (d a b : BitVec 6) (_c : Bool) (s : State) : Result := vecFloat false opVfmin d a (.x b) s

/-- vfmax (R107). -/
def execVfmax (d a b : BitVec 6) (_c _e : Bool) (s : State) : Result := vecFloat false opVfmax d a (.v b) s

/-- vfmax.vx (R33, R107). -/
def execVfmaxVx (d a b : BitVec 6) (_c : Bool) (s : State) : Result := vecFloat false opVfmax d a (.x b) s

/-- vfscale (R110). -/
def execVfscale (d a b : BitVec 6) (_c _e : Bool) (s : State) : Result := vecFloat false opVfscale d a (.v b) s false

/-- vfsqrt (R106). -/
def execVfsqrt (d a : BitVec 6) (_c : Bool) (s : State) : Result := vecFloat false opVfsqrt d a .none s

/-- vfrec (R106). -/
def execVfrec (d a : BitVec 6) (_c : Bool) (s : State) : Result := vecFloat false opVfrec d a .none s

/-- vfabs (R107). -/
def execVfabs (d a : BitVec 6) (_c : Bool) (s : State) : Result := vecFloat false opVfabs d a .none s

/-- vfneg (R107). -/
def execVfneg (d a : BitVec 6) (_c : Bool) (s : State) : Result := vecFloat false opVfneg d a .none s

/-- vfrint (R108). -/
def execVfrint (d a : BitVec 6) (_c : Bool) (s : State) : Result := vecFloat false opVfrint d a .none s

/-- vfexp2 (R109). -/
def execVfexp2 (d a : BitVec 6) (_c : Bool) (s : State) : Result := vecFloat false opVfexp2 d a .none s

/-- The class mask of a code (R111). -/
def classMask (f : Fmt) (b : Nat) : Nat :=
  match f.value b with
  | .nan sg => if sg then 256 else 512
  | .inf s => if s then 1 else 128
  | .fin s m _ =>
    let sub := b / 2 ^ f.m % 2 ^ f.e = 0
    if m = 0 then (if s then 8 else 16) else if sub then (if s then 4 else 32) else (if s then 2 else 64)

/-- vfclass (R111). -/
def execVfclass (d a : BitVec 6) (_c : Bool) (s : State) : Result :=
  shared {} (seq do
    let c ← getC
    let t := modeStype c.mode
    let u := modeDtype c.mode
    let w := typeWidth c.fmt t
    let wd := typeWidth c.fmt u
    vpStreams [d, a]
    needMode (isFloat t && isInt u && 16 ≤ wd && modeScale c.mode == 0)
    checkVl (max w wd)
    elementwise d wd false a w .none w fun _ _ x _ => (classMask (floatFmt c.fmt t) x, 0)
    chargePasses c (← activeElems) [(.v a, t)] []) s

end Sys2Proof.Machine
end

