-- ==== Sys2Proof/Machine/System.lean ====
section
/-! DEFINITION. The system instructions of major 0x00 (14, R302 to R308), the mode word (02, R29, R31) and the illegal
instruction (02, R34). -/

namespace Sys2Proof.Machine

/-- A word that is no assigned instruction traps 0x01 with the word (R34, R339). -/
def execIllegalInstruction (w : BitVec 32) (s : State) : Result :=
  shared { waits := false } (trap 1 (w.setWidth 64)) s

/-- ecall (R303): completes, and then takes trap 0x12 at the pc that follows its completion. -/
def execEcall (s : State) : Result :=
  control { rule := .alone } (do
    let r ← get
    let r := r.goOn .seq
    modify fun _ => r
    trap 0x12 0) s

/-- eret (R304). It goes back to an sbar that waits as to one that has arrived (R268). -/
def execEret (s : State) : Result :=
  control { rule := .alone, priv := true } (do
    modC Ctx.eret
    modT fun t => { t with arrivedIn := (if t.ctx.priv then t.privArrived else t.userArrived).filter (·.2.2 == t.ctx.pc) }
    return .goto (← getC).pc) s

/-- Translations are dropped (R305, R318); a chunk under the priority ticket that has used one is waited for (R279). -/
def dropPages (p : TlbEntry → Bool) : Exec Unit := do
  if (← getS).pins (some (← getT).tid) fun _ c => c.pages.any p then throw .stall
  modS (·.dropTlb p)

/-- tlbi (R305, R318). -/
def execTlbi (a : BitVec 6) (s : State) : Result :=
  control { rule := .alone, priv := true } (seq do
    let va := (← rdX a).toNat
    let p := (← getT).parcel
    dropPages fun e => e.parcel == p && e.covers va) s

/-- tlbia (R305, R318). -/
def execTlbia (s : State) : Result :=
  control { rule := .alone, priv := true } (seq do
    let p := (← getT).parcel
    dropPages fun e => e.parcel == p) s

/-! Fields of pkidx (R307). -/

def pkSlot (w : Word) : Nat := field 5 0 w.toNat
def pkOut (w : Word) : Bool := w.getLsbD 8
def pkStag (w : Word) : Nat := field 29 24 w.toNat
def pkSdev (w : Word) : Nat := field 39 30 w.toNat

/-- pkset (R308). -/
def execPkset (s : State) : Result :=
  control { rule := .alone, priv := true } (seq do
    let c ← getC
    let s ← getS
    let n := (← getT).parcel
    let p := s.parcel n
    let key : BitVec 128 := c.pkeyhi ++ c.pkeylo
    let q : Parcel := { p with outkey := key }
    if pkOut c.pkidx then modS (·.setParcel n q)
    else
      let k := pkSlot c.pkidx
      if p.kcount ≤ k then trap 2 (BitVec.ofNat 64 k)
      match (List.range p.kcount).find? fun j =>
          j != k && ((tfind (p.kfirst + j) s.keys).any fun e => e.sdev == pkSdev c.pkidx && e.stag == pkStag c.pkidx) with
      | some j => trap 2 (BitVec.ofNat 64 j)
      | none =>
        let e : KeyEntry := { key := key, localParcel := n, stag := pkStag c.pkidx, sdev := pkSdev c.pkidx }
        modS fun s => { s with keys := tput (p.kfirst + k) e s.keys }) s

/-- pkclr (R308). -/
def execPkclr (s : State) : Result :=
  control { rule := .alone, priv := true } (seq do
    let c ← getC
    let n := (← getT).parcel
    let p := (← getS).parcel n
    let q : Parcel := { p with outkey := 0 }
    if pkOut c.pkidx then modS (·.setParcel n q)
    else
      let k := pkSlot c.pkidx
      if p.kcount ≤ k then trap 2 (BitVec.ofNat 64 k)
      modS fun s => { s with keys := tdrop (p.kfirst + k) s.keys }) s

/-- pause (R306): the thread issues nothing until 1,024 cycles have passed or a line that its previous chunk read is
written. -/
def execPause (s : State) : Result :=
  control { rule := .alone } (seq do
    let now := (← getS).cycle
    modT fun t => { t with pause := some { since := now, lines := t.lastReads } }) s

/-- nop (R306). -/
def execNop (s : State) : Result := control {} (seq (pure ())) s

/-- Whether a mode word's fields hold no reserved value (R29, R31). -/
def modeOk (m : BitVec 26) : Bool :=
  m.extractLsb' 14 3 ≤ 5 && m.extractLsb' 5 2 != 3 && m.extractLsb' 17 5 ≤ 20 && m.extractLsb' 0 5 ≤ 20

/-- mode (R29, R31): a reserved value traps 0x02 with the word. -/
def execMode (g : BitVec 4) (sc : BitVec 5) (r : BitVec 3) (t : Bool) (c : BitVec 6) (b : BitVec 2) (d : BitVec 5)
    (s : State) : Result :=
  control {} (seq do
    let m : BitVec 26 := g ++ sc ++ r ++ BitVec.ofBool t ++ c ++ b ++ d
    if !modeOk m then trap 2 ((encMode g sc r t c b d).setWidth 64)
    modC fun c => { c with mode := m }) s

end Sys2Proof.Machine
end

