-- ==== Sys2Proof/Machine/VlSys.lean ====
section
/-! DEFINITION. Vector length, and the reads and writes of system registers (03, R59 to R61; 02, R37, R38; 07, R156). -/

namespace Sys2Proof.Machine

/-- The limit on vl under the mode's two types (R59). -/
def modeLimit : Exec Nat := do
  let t ← getT
  let m := t.ctx.mode
  return vlLimit t.vlmax (max (typeWidth t.ctx.fmt (modeStype m)) (typeWidth t.ctx.fmt (modeDtype m)))

def setVl (d : BitVec 6) (n : Nat) : Exec Unit := do
  let v := min n (← modeLimit)
  modC fun c => { c with vl := v }
  wrX d (BitVec.ofNat 64 v)

/-- setvl (R59). -/
def execSetvl (d a : BitVec 6) (s : State) : Result :=
  control {} (seq do setVl d (← rdX a).toNat) s

/-- setvli (R59). -/
def execSetvli (d : BitVec 6) (n : BitVec 12) (s : State) : Result :=
  control {} (seq do setVl d n.toNat) s

/-- The mfsr numbers that do not wait for the VPs: tid, crew, die and cycle (R125). -/
def freeNumber (r : BitVec 12) : Bool := 0x017 ≤ r && r ≤ 0x01A

/-- A privileged number used at user level traps 0x05 with the word (R32, R38). -/
def checkNumber (r : BitVec 12) : Exec Unit := do
  if privNumber r && !(← getC).priv then trap 5 ((← getS).fetched.setWidth 64)

/-- mfsr (R38, R59, R61). -/
def execMfsr (d : BitVec 6) (r : BitVec 12) (s : State) : Result :=
  control { waits := !freeNumber r } (seq do
    checkNumber r
    wrX d (← readSys r)) s

/-- A tile observer (R156): a chunk that holds a tile operation ends first; then every earlier tile operation is waited for. -/
def observeTiles : Exec Unit := do
  let t ← getT
  if t.chunk.any fun c => c.tileOps.any (!·.isDrain) then throw (.boundary 4)
  if t.tileQueue.any (!·.isDrain) then throw .stall

/-- mfsr of fflags (R156). -/
def execMfsrFflags (d : BitVec 6) (s : State) : Result :=
  control {} (seq do
    observeTiles
    wrX d (← readSys 0x010)) s

/-- mfsr of msat (R156). -/
def execMfsrMsat (d : BitVec 6) (s : State) : Result :=
  control {} (seq do
    observeTiles
    wrX d (← readSys 0x015)) s

/-- mtsr (R38, R61): a read-only register keeps its value. -/
def execMtsr (a : BitVec 6) (r : BitVec 12) (s : State) : Result :=
  control {} (seq do
    checkNumber r
    let w ← rdX a
    modC fun c => match r.toNat with
      | 0x011 => { c with estart := w }
      | 0x01B => { c with rngkey := w }
      | 0x103 => { c with trapcause := w &&& causeMask }
      | 0x104 => { c with trappc := w }
      | 0x105 => { c with trapval := w }
      | 0x108 => { c with pkidx := w &&& pkidxMask }
      | 0x109 => { c with pkeylo := w }
      | 0x10A => { c with pkeyhi := w }
      | _ => c) s

/-- mtsr of mode (R31, R61): a reserved value traps 0x02 with the whole register and changes nothing. -/
def execMtsrMode (a : BitVec 6) (s : State) : Result :=
  control {} (seq do
    let w ← rdX a
    let m : BitVec 26 := w.setWidth 26
    if !modeOk m then trap 2 w
    modC fun c => { c with mode := m }) s

/-- mtsr of a format register (R78): an invalid format traps 0x02 with the value written. -/
def execMtsrFmt (a : BitVec 6) (f : BitVec 3) (s : State) : Result :=
  control {} (seq do
    let w ← rdX a
    if !fmtOk w then trap 2 w
    modC fun c => { c with fmt := c.fmt.setIfInBounds f.toNat (w &&& fmtMask) }) s

/-- mtsr of fflags (R156). -/
def execMtsrFflags (a : BitVec 6) (s : State) : Result :=
  control {} (seq do
    observeTiles
    let w ← rdX a
    modC fun c => { c with fflags := w.setWidth 5 }) s

/-- The bits of fprog that a tag's layout does not reserve (R135). -/
def fprogMask (w : Word) : Word :=
  match field 63 61 w.toNat with
  | 1 => 0xE0000000FFFFFFFF
  | 2 => 0xFFFF000000FFFFFF
  | 4 => 0xE0000000FFFFFFFF
  | _ => ~~~0

/-- mtsr of fprog (R135). -/
def execMtsrFprog (a : BitVec 6) (s : State) : Result :=
  control {} (seq do
    let w ← rdX a
    modC fun c => { c with fprog := w &&& fprogMask w }) s

/-- The tags whose bits the device has set in a cycle (R6). -/
def Thread.freshTags (t : Thread) (cycle : Nat) : Word :=
  BitVec.ofNat 64 ((t.tagSet.map fun e => if e.2 = cycle then 2 ^ e.1 else 0).sum)

/-- mtsr of ctags (R61): each 1 clears its bit, unless the device has set it in the same cycle (R6). -/
def execMtsrCtags (a : BitVec 6) (s : State) : Result :=
  control {} (seq do
    let w ← rdX a
    let now := (← getS).cycle
    modT fun t => { t with ctags := t.ctags &&& ~~~(w &&& ~~~t.freshTags now) }) s

/-- mtsr of msat (R156). -/
def execMtsrMsat (a : BitVec 6) (s : State) : Result :=
  control {} (seq do
    observeTiles
    let w ← rdX a
    modC fun c => { c with msat := w.getLsbD 0 }) s

/-- A write of a parcel-wide register enters the chunk (R301). -/
def parcelWrite (which : Nat) (r : BitVec 12) (mask : Word) (a : BitVec 6) (s : State) : Result :=
  control {} (seq do
    checkNumber r
    let w ← rdX a
    let e : ParcelWrite := { which := which, value := w &&& mask }
    modChunk fun c => { c with parcelWrites := c.parcelWrites ++ [e] }) s

/-- mtsr of ptroot (R301). -/
def execMtsrPtroot (a : BitVec 6) (s : State) : Result := parcelWrite 0 0x101 ptrootMask a s

/-- mtsr of trapvec (R301). -/
def execMtsrTrapvec (a : BitVec 6) (s : State) : Result := parcelWrite 1 0x102 trapvecMask a s

/-- mtsr of pshare (R301). -/
def execMtsrPshare (a : BitVec 6) (s : State) : Result := parcelWrite 2 0x10B 0xFF a s

end Sys2Proof.Machine
end

