-- ==== Sys2Proof/Machine/Matrix.lean ====
section
/-! DEFINITION. The crew matrix unit (07): attachment, tile operations, their performance (04, R94 to R96), and pruning. -/

namespace Sys2Proof.Machine

/-! ## Attachment (R151 to R154) -/

/-- mattach (R152, R154). -/
def execMattach (d a : BitVec 6) (s : State) : Result :=
  control { rule := .alone } (seq do
    let w ← rdX a
    let x := w.toNat
    let most := field 4 0 x
    let least := field 12 8 x
    let code := field 17 16 x
    if field 63 18 x ≠ 0 || field 15 13 x ≠ 0 || field 7 5 x ≠ 0 || code = 3 || most = 0 || 16 < most || 16 < least
        || most < least then trap 2 w
    let t ← getT
    if t.mgrant ≠ 0 then trap 2 (BitVec.ofNat 64 t.mgrant)
    let g := (← getS).grantFor t most least (2 ^ code)
    if g ≠ 0 then modT fun t => { t with tiles := 2 ^ code, rows := [] }
    modT fun t => { t with mgrant := g }
    wrX d (BitVec.ofNat 64 g)) s

/-- A thread's rows are released (R153). -/
def Thread.detach (t : Thread) : Thread :=
  { t with mgrant := 0, rows := [], poison := t.poison.filter (·.file != 4) }

/-- mdetach (R153, R154): after every earlier tile operation. -/
def execMdetach (s : State) : Result :=
  control { rule := .alone } (seq do
    if !(← getT).tileQueue.isEmpty then throw .stall
    modT Thread.detach) s

/-! ## The matrix mode (R159) -/

def mmG (m : Word) : Nat := match (m.extractLsb' 0 2).toNat with | 0 => 1 | 1 => 16 | 2 => 32 | _ => 64
def mmSat (m : Word) : Bool := m.getLsbD 3
def mmBtype (m : Word) : TypeCode := (m.extractLsb' 4 5).toNat
def mmBsep (m : Word) : Bool := m.getLsbD 9

/-- mmode (R159). -/
def execMmode (d a : BitVec 6) (s : State) : Result :=
  control {} (seq do
    let w ← rdX a
    if field 63 10 w.toNat ≠ 0 || w.getLsbD 2 || (mmBsep w && 21 ≤ mmBtype w) then trap 2 w
    let old := (← getC).mmode
    modC fun c => { c with mmode := w }
    wrX d old) s

/-! ## Shared checks (R160) -/

/-- A tile's number and rows: no grant traps 0x02 with 0, a tile beyond T with its number. -/
def tileRows (t : BitVec 2) : Exec Nat := do
  let th ← getT
  if th.mgrant = 0 then trap 2 0
  if th.tiles ≤ t.toNat then trap 2 (t.setWidth 64)
  return th.mgrant / th.tiles

def queueTile (op : TileOp) : Exec Unit := modChunk fun c => { c with tileOps := c.tileOps ++ [op] }

/-- mzero (R162). -/
def execMzero (t : BitVec 2) (s : State) : Result :=
  control {} (seq do
    let _ ← tileRows t
    queueTile (.zero t.toNat)) s

/-! ## Operands of a mop (R161 to R165) -/

/-- A mop's types: those of A and B, and the group length and kind. -/
structure MopType where
  ta : TypeCode
  tb : TypeCode
  g : Nat
  kind : MopKind
  deriving DecidableEq, Repr

def isNarrowInt (t : TypeCode) : Bool := t == 20 || t == 0 || t == 4

/-- The types of R161 from the mode and the matrix mode. -/
def mopType (mode : BitVec 26) (mm : Word) : Option MopType :=
  let ta := modeStype mode
  let tb := if mmBsep mm then mmBtype mm else ta
  let g := mmG mm
  let u := modeDtype mode
  if (ta == 8 || ta == 9) && tb == ta && u == 10 then some { ta, tb, g, kind := .fused }
  else if isFmt ta && isFmt tb && u == 10 then some { ta, tb, g, kind := if g = 1 then .fused else .window }
  else if isNarrowInt ta && isNarrowInt tb && u == 2 then some { ta, tb, g, kind := .integer (mmSat mm) }
  else none

/-- An operand of a mop: a vector register, or a scratchpad span named by a pair of scalar registers. -/
inductive MopArg where
  | v (k : BitVec 6)
  | s (k : BitVec 6)
  deriving DecidableEq, Repr

/-- A scratchpad operand's descriptor (R164). -/
structure Span where
  base : Nat
  rowpitch : Nat
  tilepitch : Nat
  rot : Nat
  deriving DecidableEq, Repr

/-- The first register of a descriptor: its reserved bits, then alignment (R164). -/
def spanFirst (w : Word) : Exec (Nat × Nat) := do
  if field 63 56 w.toNat ≠ 0 || field 31 23 w.toNat ≠ 0 then trap 2 w
  return (field 22 0 w.toNat, field 55 32 w.toNat)

def aligned4 (x : Nat) : Exec Unit := do if x % 4 ≠ 0 then trap 3 (BitVec.ofNat 64 x)

/-- The descriptor pair (R164): reserved fields of both registers, then alignment. -/
def readSpan (k : BitVec 6) : Exec Span := do
  let w ← rdX k
  let y ← rdX (k + 1)
  let (base, rowpitch) ← spanFirst w
  if field 63 28 y.toNat ≠ 0 || 7 < field 27 24 y.toNat then trap 2 y
  let tilepitch := field 23 0 y.toNat
  aligned4 base
  aligned4 rowpitch
  aligned4 tilepitch
  return { base, rowpitch, tilepitch, rot := field 27 24 y.toNat }

/-- The bit address of element q of w bits (R164): byte, bit offset. -/
def Span.place (d : Span) (w q : Nat) : Nat × Nat :=
  let l := q / 256
  let byte := d.base + l * d.rowpitch + q % 256 / 64 * d.tilepitch
  let slot := (q % 64 + 8 * d.rot * l) % 64
  (byte + slot * w / 8, slot * w % 8)

/-- An offset outside the crew's portions traps 0x05 with the offset (R164). -/
def checkScratch (off n : Nat) : Exec Unit := do
  let r ← get
  match (List.range n).find? fun k => !r.s.scratchOk (crewOf (r.t.core.getD 0)) (off + k) with
  | some k => trap 5 (BitVec.ofNat 64 (off + k))
  | none => pure ()

/-- Bytes of the crew scratchpad, as accesses of the chunk (R155). -/
def scratchRead (off n : Nat) : Exec (List Byte) := do readLoc off (scratchLoc (← crewNum) off) n

def spanBytes (w bit : Nat) : Nat := (bit + w + 7) / 8

/-- Check every byte of a scratchpad operand (R164). Of several bytes outside the portions the first in ascending operand index, and
there the lowest, is reported: the model's choice (log entry 70). -/
def checkSpan (d : Span) (w count : Nat) : Exec Unit := do
  for q in List.range count do
    let p := d.place w q
    checkScratch p.1 (spanBytes w p.2)

/-- The codes of a scratchpad operand. -/
def readSpanCodes (d : Span) (w count : Nat) : Exec (List Nat) :=
  (List.range count).mapM fun q => do
    let p := d.place w q
    return natOfBytes (← scratchRead p.1 (spanBytes w p.2)) / 2 ^ p.2 % 2 ^ w

/-- Register capacity (R163): too many bits traps 0x02 with their count. -/
def checkCapacity (arg : MopArg) (w count : Nat) : Exec Unit := do
  match arg with
  | .v _ => if (← getT).vlmax * 32 < count * w then trap 2 (BitVec.ofNat 64 (count * w))
  | .s _ => pure ()

/-- The exact value of an operand code under its block scale (R82, R163). -/
def operandValue (fmt : Vector Word 8) (t : TypeCode) (w x : Nat) (scale : Option Nat) : Val :=
  let v := if isInt t then Val.ofInt (intValue t w x) else (floatFmt fmt t).value x
  match scale with | some s => scaleVal v s | none => v

/-- The scale bytes of a vector operand's elements, where the mode names a scale register (R163). -/
def operandScales (arg : MopArg) (w count : Nat) : Exec (Nat → Option Nat) := do
  match arg with
  | .s _ => return fun _ => none
  | .v k =>
    match (← scaleReg) with
    | none => return fun _ => none
    | some vS =>
      let t ← getT
      let n := t.ctx.phys k.toNat
      checkPoisonV (t.ctx.phys (modeScale t.ctx.mode)) 8 ((List.range count).map (scaleSlot t n w))
      return fun q => some (t.scaleByte vS n w q)

def MopArg.regs (w : Nat) : MopArg → List (BitVec 6 × Nat)
  | .v k => [(k, w)]
  | .s _ => []

/-- The elements that a pop of operand a takes (R231): its own count, or the greater of the two where both operands name the
register. -/
def popCount (c : Ctx) (a b : MopArg) (n m : Nat) : Nat :=
  match a, b with
  | .v j, .v k => if c.phys j.toNat = c.phys k.toNat then max n m else n
  | _, _ => n

/-- An operand's values, element by element; a pop takes pop elements. -/
def readOperand (arg : MopArg) (span : Option Span) (t : TypeCode) (w count pop : Nat) : Exec (Array Val) := do
  let c ← getC
  let sc ← operandScales arg w count
  let codes ← match arg, span with
    | .v k, _ => do
      let v ← srcElems k w pop (List.range count)
      pure ((List.range count).map fun q => getElem v q w)
    | .s _, some d => readSpanCodes d w count
    | .s _, none => pure []
  return ((List.range count).zip codes).toArray.map fun e => operandValue c.fmt t w e.2 (sc e.1)

def argSpan (arg : MopArg) : Exec (Option Span) := do
  match arg with
  | .v _ => return none
  | .s k => return some (← readSpan k)

/-- The metadata check (R165): the first group of eight bits without exactly four ones. -/
def badGroup (p : PReg) (bits : Nat) : Option Nat :=
  ((List.range (bits / 8)).find? fun h => ((List.range 8).filter fun j => p.getLsbD (8 * h + j)).length != 4).map (8 * ·)

/-- mop (R161 to R167): its checks in the order of R35 and R167, then its operands; the operation is queued. -/
def mopInto (pm : BitVec 4) (t : BitVec 2) (a b : MopArg) (s : State) : Result :=
  control {} (seq do
    let c ← getC
    match mopType c.mode c.mmode with
    | none => modeTrap
    | some m =>
      let scaled := modeScale c.mode != 0
      let vv := match a, b with | .v _, .v _ => true | _, _ => false
      needMode (!scaled || (m.ta != 8 && m.ta != 9 && vv))
      if pm ≠ 0 && m.g = 1 then trap 2 c.mmode
      let H ← tileRows t
      let wa := typeWidth c.fmt m.ta
      let wb := typeWidth c.fmt m.tb
      let na := if pm = 0 then H * m.g else H * m.g / 2
      let nb := m.g * 256
      checkCapacity a wa na
      checkCapacity b wb nb
      if pm ≠ 0 && (← getT).vlmax * 8 < H * m.g then trap 2 (BitVec.ofNat 64 (H * m.g))
      let da ← argSpan a
      (match da with | some d => checkSpan d wa na | none => pure ())
      let db ← argSpan b
      (match db with | some d => checkSpan d wb nb | none => pure ())
      let p ← rdP pm.toNat
      if pm ≠ 0 then
        match badGroup p (H * m.g) with
        | some k => trap 9 (BitVec.ofNat 64 k)
        | none => pure ()
      checkSrcs (a.regs wa ++ b.regs wb)
      let va ← readOperand a da m.ta wa na (popCount c a b na nb)
      let vb ← readOperand b db m.tb wb nb (popCount c b a nb na)
      queueTile (.mop t.toNat m.g va vb (if pm = 0 then none else some p) m.kind)) s

/-- mop.vv (R166). -/
def execMopVv (p : BitVec 4) (t : BitVec 2) (a b : BitVec 6) (_c _e : Bool) (s : State) : Result := mopInto p t (.v a) (.v b) s
/-- mop.sv (R166). -/
def execMopSv (p : BitVec 4) (t : BitVec 2) (a b : BitVec 6) (_e : Bool) (s : State) : Result := mopInto p t (.s a) (.v b) s
/-- mop.ss (R166). -/
def execMopSs (p : BitVec 4) (t : BitVec 2) (a b : BitVec 6) (s : State) : Result := mopInto p t (.s a) (.s b) s

/-! ## Performance (04, R94 to R96; R155, R157, R166) -/

/-- What a group does to one tile element: its new code, the flags raised and whether msat is set. -/
structure Entered where
  code : Nat
  flags : Flags
  msat : Bool
  deriving DecidableEq, Repr

/-- One fused step per product (R94). -/
def enterFused (acc : Nat) (ps : List (Val × Val)) : Entered :=
  ps.foldl (fun e p => let r := fp32.fma 0 false 0 p.1 p.2 (fp32.value e.code); { e with code := r.1, flags := e.flags ||| r.2 })
    { code := acc, flags := 0, msat := false }

/-- The window sum q of a group (R95), and its flags. -/
def windowSum (ps : List Val) : Val × Flags :=
  let up := ps.any fun v => v == .inf false
  let down := ps.any fun v => v == .inf true
  if ps.any (·.isNan) || (up && down) then (.nan false, fNV)
  else if up || down then (.inf down, 0)
  else if ps.all (·.isZero) then (.fin (ps.all (·.negative)) 0 0, 0)
  else
    let tops := (ps.filter (!·.isZero)).map Val.top'
    let emax := tops.foldl max (tops.headD 0)
    let us := ps.map fun v => match v with
      | .fin s m e => (s, inUnits m e (emax - 55))
      | _ => (false, (0, 0, 1))
    let sticky := us.any fun u => u.2.2.1 != 0
    let S := us.foldl (fun acc u => acc + sint u.1 u.2.1) (0 : Int)
    let V := if sticky then 2 * S + (if S < 0 then -1 else 1) else 2 * S
    let r := fp32.round 0 false 0 (.fin (decide (V < 0)) V.natAbs (emax - 56))
    (fp32.value r.1, r.2 ||| (if sticky then fNX else 0))
where
  /-- floor(log2) of a finite nonzero value. -/
  Val.top' : Val → Int
    | .fin _ m e => e + m.log2
    | _ => 0

/-- A window group enters a tile element (R95): 0 times an infinity is a NaN product. -/
def enterWindow (acc : Nat) (ps : List (Val × Val)) : Entered :=
  let q := windowSum (ps.map fun p => (p.1.mul p.2).1)
  let r := roundVal fp32 0 false 0 ((fp32.value acc).add 0 q.1)
  { code := r.1, flags := q.2 ||| r.2, msat := false }

/-- The exact sum of finite values, rounded to an integer by rne (R96). -/
def sumInt (vs : List Val) : Int :=
  let low := (vs.map fun v => match v with | .fin _ _ e => e | _ => 0).foldl min 0
  let S := (vs.map fun v => match v with | .fin s m e => sint s (m * 2 ^ (e - low).toNat) | _ => 0).foldl (· + ·) (0 : Int)
  (roundInt 0 0 (decide (S < 0)) S.natAbs low).1

/-- An integer group enters a tile element (R96): NaN-scaled products contribute nothing and set msat. -/
def enterInt (sat : Bool) (acc : Nat) (ps : List (Val × Val)) : Entered :=
  let vs := ps.map fun p => (p.1.mul p.2).1
  let x := intValue 2 32 acc + sumInt vs
  let out := x < intMin 2 32 || intMax 2 32 < x
  { code := narrow sat 2 32 x, flags := 0, msat := (vs.any (·.isNan)) || (sat && out) }

def enterGroup (k : MopKind) (acc : Nat) (ps : List (Val × Val)) : Entered :=
  match k with
  | .fused => enterFused acc ps
  | .window => enterWindow acc ps
  | .integer sat => enterInt sat acc ps

/-- The positions of row r (R165, R166): each with the index of its A element. -/
def keptOf (g r : Nat) (keep : Option PReg) : List (Nat × Nat) :=
  match keep with
  | none => (List.range g).map fun k => (k, r * g + k)
  | some p =>
    let ks := (List.range g).filter fun k => p.getLsbD (r * g + k)
    ks.zip ((List.range ks.length).map (· + r * (g / 2)))

def rowCode (row : Row) (c : Nat) : Nat := (row.extractLsb' (c * 32) 32).toNat

def rowOf (codes : List Nat) : Row := BitVec.ofNat 8192 (codes.foldr (fun x acc => x % 2 ^ 32 + acc * 2 ^ 32) 0)

/-- A K-group on one row of the tile. -/
def mopRow (g : Nat) (a b : Array Val) (keep : Option PReg) (kind : MopKind) (r : Nat) (row : Row) : List Entered :=
  let ks := keptOf g r keep
  (List.range 256).map fun c =>
    enterGroup kind (rowCode row c) (ks.map fun k => (a.getD k.2 (.nan true), b.getD (k.1 * 256 + c) (.nan true)))

def Thread.setRow (t : Thread) (i : Nat) (row : Row) : Thread := { t with rows := tset 0 i row t.rows }
def Thread.row (t : Thread) (i : Nat) : Row := tget 0 i t.rows

/-- msat set late, so that a squash keeps it (R157). -/
def Thread.satLate (t : Thread) : Thread :=
  { t with
    ctx := { t.ctx with msat := true }
    chunk := t.chunk.map fun c => { c with start := { c.start with msat := true } } }

/-- Poison of a tile row (R349). -/
def Thread.rowPoison (t : Thread) (tile row : Nat) : Bool := t.poison.contains { file := 4, reg := tile, index := row }

def Thread.cleanRows (t : Thread) (tile row0 n : Nat) : Thread :=
  { t with poison := t.poison.filter fun q => !(q.file == 4 && q.reg == tile && row0 ≤ q.index && q.index < row0 + n) }

/-- Perform one tile operation (R155); a drain's rows are read here (R169). -/
def performTile (t : Thread) (op : TileOp) : Thread × Option Drain :=
  let H := t.mgrant / t.tiles
  match op with
  | .zero k =>
    (((List.range H).foldl (fun t i => t.setRow (k * H + i) 0) t).cleanRows k 0 H, none)
  | .mop k g a b keep kind =>
    ((List.range H).foldl (fun t r =>
      let es := mopRow g a b keep kind r (t.row (k * H + r))
      let t := (t.setRow (k * H + r) (rowOf (es.map (·.code)))).raiseLate (es.foldl (fun fl e => fl ||| e.flags) 0)
      if es.any (·.msat) then t.satLate else t) t, none)
  | .load k row0 rows =>
    ((((List.range rows.length).zip rows).foldl (fun t e => t.setRow (k * H + row0 + e.1) e.2) t).cleanRows k row0 rows.length,
      none)
  | .drain k row0 n d =>
    (t, some { d with rows := (List.range n).map fun i => (t.row (k * H + row0 + i), t.rowPoison k (row0 + i)) })

/-! ## Moving tile rows (R168, R169) -/

/-- The fields of xs2 (R168): n, row0 and tag. -/
def moveFields (b : BitVec 6) (tagged : Bool) (H : Nat) : Exec (Nat × Nat × Nat) := do
  let w ← rdX b
  let x := w.toNat
  let n := field 24 16 x
  let row0 := field 7 0 x
  let tag := field 37 32 x
  if field 63 38 x ≠ 0 || field 31 25 x ≠ 0 || field 15 8 x ≠ 0 || (!tagged && tag ≠ 0) || n = 0 || H < row0 + n then trap 2 w
  return (n, row0, tag)

/-- n rows of a vector register's capacity (R168). -/
def vectorRows (n : Nat) : Exec Unit := do if (← getT).vlmax < n * 256 then trap 2 (BitVec.ofNat 64 n)

/-- The scratchpad span of a move (R168): reserved bits, alignment, bounds. -/
def moveSpan (a : BitVec 6) (n : Nat) : Exec (Nat × Nat) := do
  let (base, pitch) ← spanFirst (← rdX a)
  aligned4 base
  aligned4 pitch
  for i in List.range n do checkScratch (base + i * pitch) 1024
  return (base, pitch)

/-- mlda from a vector register (R169). -/
def execMldaV (t : BitVec 2) (a b : BitVec 6) (_c : Bool) (s : State) : Result :=
  control {} (seq do
    let H ← tileRows t
    let (n, row0, _) ← moveFields b false H
    vectorRows n
    checkSrcs [(a, 32)]
    let v ← srcElems a 32 (n * 256) (List.range (n * 256))
    queueTile (.load t.toNat row0 ((List.range n).map fun i => v.extractLsb' (i * 8192) 8192))) s

/-- mlda from the crew scratchpad (R169): read at issue. -/
def execMldaS (t : BitVec 2) (a b : BitVec 6) (s : State) : Result :=
  control {} (seq do
    let H ← tileRows t
    let (n, row0, _) ← moveFields b false H
    let (base, pitch) ← moveSpan a n
    let rows ← (List.range n).mapM fun i => do
      return BitVec.ofNat 8192 (natOfBytes (← scratchRead (base + i * pitch) 1024))
    queueTile (.load t.toNat row0 rows)) s

/-- msta to a vector register, an observer (R156, R169). -/
def execMstaV (t : BitVec 2) (a b : BitVec 6) (s : State) : Result :=
  control {} (seq do
    observeTiles
    let H ← tileRows t
    let (n, row0, _) ← moveFields b false H
    vectorRows n
    let k ← dstV a
    let th ← getT
    match (List.range n).find? fun i => th.rowPoison t.toNat (row0 + i) with
    | some i => trapOf { code := 12, sub := 1, val := poisonVal 4 t.toNat (row0 + i) }
    | none =>
      wrElems k 32 ((List.range (n * 256)).map fun q =>
        (q, rowCode (th.row (t.toNat * H + row0 + q / 256)) (q % 256)))) s

/-- Take a tag for an operation of the chunk (R224): its count rises and its bit falls. -/
def takeTag (tag : Nat) : Exec Unit := do
  modT fun t => { t with
    tagCounts := tset 0 tag (tget 0 tag t.tagCounts + 1) t.tagCounts
    ctags := t.ctags &&& ~~~(1#64 <<< tag) }
  modChunk fun c => { c with issues := c.issues ++ [tag] }

/-- msta to the crew scratchpad: a drain engine, forked at the chunk's commit (R169). -/
def execMstaS (t : BitVec 2) (a b : BitVec 6) (s : State) : Result :=
  control {} (seq do
    let H ← tileRows t
    let (n, row0, tag) ← moveFields b true H
    let (base, pitch) ← moveSpan a n
    if pitch < 1024 && 1 < n then trap 2 (← rdX a)
    takeTag tag
    let id := (← getS).nextId
    modS fun s => { s with nextId := id + 1 }
    let d : Drain := { id := id, tid := (← getT).tid, parcel := (← getT).parcel, crew := ← crewNum, base := base, pitch := pitch, tag := tag, rows := [], done := [] }
    queueTile (.drain t.toNat row0 n d)) s

/-! ## Pruning (R170) -/

/-- A magnitude is greater than another, with every NaN above the infinities. -/
def magGt (x y : Val) : Bool :=
  let abs (v : Val) : Val := if v.negative then v.negate else v
  if x.isNan then !y.isNan else !y.isNan && (abs y).below (abs x)

/-- The kept indices of the group of eight from lo, ascending. -/
def keepFour (v : Nat → Val) (lo : Nat) : List Nat :=
  let es := (List.range 8).map (· + lo)
  es.filter fun e => (es.filter fun f => magGt (v f) (v e) || (!magGt (v e) (v f) && f < e)).length < 4

/-- mprune (R170). -/
def execMprune (d a b : BitVec 6) (_c : Bool) (s : State) : Result :=
  control {} (seq do
    let c ← getC
    let t := modeStype c.mode
    let w := typeWidth c.fmt t
    needMode (modeGuard c.mode == 0 && w ≤ 32 && modeScale c.mode == 0)
    if c.vl % 8 ≠ 0 then trap 2 (BitVec.ofNat 64 c.vl)
    checkVl w
    let n ← dstV d
    checkSrcs [(a, w)]
    let va ← srcElems a w c.vl (List.range c.vl)
    let val (i : Nat) : Val := operandValue c.fmt t w (getElem va i w) none
    let kept := (List.range (c.vl / 8)).flatMap fun g => keepFour val (8 * g)
    wrElems n w ((List.range kept.length).zip (kept.map fun i => getElem va i w))
    wrP b.toNat (kept.foldl (fun p i => p ||| (1 <<< i)) 0)) s

end Sys2Proof.Machine
end

