-- ==== Sys2Proof/Machine/Copies.lean ====
section
/-! DEFINITION. Copies, streams, copy tags and transaction barriers (10), as a thread issues, waits for and uses them. -/

namespace Sys2Proof.Machine

/-! ## Plats as instructions read them (R362) -/

/-- A plat read and judged by reasons 1 to 11 (R362). -/
def readPlat (va : Word) : Exec Plat := do
  let o ← readRec va.toNat 128
  let p := Plat.decode (← getC).fmt o
  match p.reason o va.toNat with
  | some k => trap 7 (BitVec.ofNat 64 k)
  | none => return p

def readEntry (p : Plat) (r : Nat) : Exec Nat := readRec (p.base.toNat + 32 * r) 32

/-- A plat that a copy or rgndecl reads, with the address of its element 0 (R360): entry 0 of a mesh of one device; a larger
mesh is turned away by its reader. An entry's rrec is read in a destination plat only. -/
def readLocal (dest : Bool) (va : Word) : Exec (Plat × Word) := do
  let p ← readPlat va
  if p.naxes = 0 then return (p, p.base)
  if p.ranks ≠ 1 then return (p, 0)
  let e := BaseEntry.decode (← readEntry p 0)
  if e.addr.toNat % p.align ≠ 0 || (dest && e.rrec.toNat % 16 ≠ 0) then trap 7 6
  return (p, e.addr)

/-! ## Tags (R222, R224, R225) -/

/-- An observer of tags (R222): the lowest tag of the mask with a recorded fault is reported at a chunk's opening, and its record
removed. -/
def observeTags (mask : Word) : Exec Unit := do
  let t ← getT
  match t.tagFaults.find? fun e => mask.getLsbD e.1 with
  | some (tag, f) =>
    if !(← explicitChunk) && (← begun) then throw (.boundary 4)
    modT fun t => { t with tagFaults := tdrop tag t.tagFaults }
    trapOf f
  | none => pure ()

/-- mfsr of ctags, an observer of every tag (R222). -/
def execMfsrCtags (d : BitVec 6) (s : State) : Result :=
  control {} (seq do
    observeTags (~~~0)
    wrX d (← getT).ctags) s

/-- twait.any (R225). -/
def execTwaitAny (d a : BitVec 6) (s : State) : Result :=
  control {} (seq do
    atOpening 4
    let m ← rdX a
    if m = 0 then trap 2 0
    awaitScalars
    observeTags m
    let x := (← getT).ctags &&& m
    if x = 0 then throw (.wait (.tagsAny m))
    wrX d x) s

/-- twait.all (R225). -/
def execTwaitAll (d a : BitVec 6) (s : State) : Result :=
  control {} (seq do
    atOpening 4
    let m ← rdX a
    awaitScalars
    observeTags m
    let x := (← getT).ctags &&& m
    if x ≠ m then throw (.wait (.tagsAll m))
    wrX d x) s

/-- tffr (R225). -/
def execTffr (d a : BitVec 6) (s : State) : Result :=
  control {} (seq do
    let m ← rdX a
    observeTags m
    let x := (← getT).ctags &&& m
    wrX d (BitVec.ofNat 64 (((List.range 64).find? x.getLsbD).getD 64))) s

/-! ## Transaction barriers (R226 to R228) -/

/-- A barrier's location, with the checks of R227 on its address. -/
def barPlace (need : Need) (va : Word) : Exec Nat := do
  if va.toNat % 16 ≠ 0 then trap 3 va
  let a ← xlate need va.toNat
  let r ← get
  let core := r.t.core.getD 0
  if 2 ≤ a.cls || a.window == .host || (a.cls = 1 && r.s.inRegion (dieOf core) r.t.parcel a.va) then trap 5 va
  match r.s.placeOf (some core) (crewOf core) r.t.parcel a with
  | .ok (.loc l) => return l
  | _ => trap 5 va

/-- The barrier that an instruction acts on. A nonzero reserved field makes it invalid (R7, R226); the trap is the model's choice,
0x02 with the barrier's address (log entry 64). -/
def readBar (va : Word) (loc : Nat) : Exec Nat := do
  let o := natOfBytes (← readLoc va.toNat loc 16)
  if field 101 96 o ≠ 0 then trap 2 va
  return o
def writeBar (loc o : Nat) : Exec Unit := writeLoc (writesOf loc (bytesOfNat o 16))

/-- A new barrier that owes m arrivals in every round (R227). -/
def barNew (m : Nat) : Nat := m * 2 ^ 48 + m * 2 ^ 64

/-- Arrivals the round still owes (R226). -/
def barOwed (o : Nat) : Int := (sextNat o 64 + 2 ^ 47) / 2 ^ 48

def barRound (o : Nat) : Nat := field 95 80 o

/-- barinit (R227). -/
def execBarinit (a b : BitVec 6) (s : State) : Result :=
  control {} (seq do
    let va ← rdX a
    let m ← rdX b
    let l ← barPlace .amo va
    if m.toNat ≥ 2 ^ 16 || m = 0 then trap 2 m
    modChunk fun c => { c with reads := mput (l / 128) c.reads }
    writeBar l (barNew m.toNat)) s

/-- barexp (R227). -/
def execBarexp (a b : BitVec 6) (s : State) : Result :=
  control {} (seq do
    let va ← rdX a
    let n ← rdX b
    let l ← barPlace .amo va
    if n.toNat ≥ 2 ^ 47 then trap 2 n
    let o ← readBar va l
    writeBar l (barBalance o (sextNat o 64 + n.toNat))) s

/-- bararr (R227). -/
def execBararr (d a : BitVec 6) (s : State) : Result :=
  control {} (seq do
    let va ← rdX a
    let l ← barPlace .amo va
    let o ← readBar va l
    if barOwed o ≤ 0 then trap 2 va
    writeBar l (barBalance o (sextNat o 64 - 2 ^ 48))
    wrX d (BitVec.ofNat 64 (barRound o))) s

/-- barwait (R227). -/
def execBarwait (d a b : BitVec 6) (s : State) : Result :=
  control {} (seq do
    atOpening 4
    let va ← rdX a
    let k ← rdX b
    let l ← barPlace .load va
    awaitScalars
    let o ← readBar va l
    if barRound o = k.toNat % 2 ^ 16 then throw (.wait (.barrier va (barRound o)))
    wrX d (BitVec.ofNat 64 (field 127 102 o * 2 ^ 16 + barRound o))) s

/-! ## Issuing a copy (R215 to R223) -/

/-- A corner of the copy record, sign-extended. -/
def crdOf (o lo k : Nat) : Int := sextNat (field (lo + 31 + 32 * k) (lo + 32 * k) o) 32

/-- The corners of the surviving box (R219): the least and the greatest coordinates y, or none where it is empty. -/
def surviving (ext : List Nat) (scrd dcrd : List Int) (sx dx : List Nat) : Option (List Int × List Int) :=
  let dims := ext.zip (scrd.zip (dcrd.zip (sx.zip dx)))
  let lo := dims.map fun (_, s, d, _, _) => max 0 (max (-s) (-d))
  let hi := dims.map fun (e, s, d, x, y) => min (e : Int) (min ((x : Int) - s) ((y : Int) - d)) - 1
  if (lo.zip hi).all fun (a, b) => a ≤ b then some (lo, hi) else none

def addCrd (c y : List Int) : List Nat := (c.zip y).map fun (a, b) => (a + b).toNat

/-- Checks 6 and 7 of R217 on one plat of a copy. -/
def checkCorners (va : Word) (l : Layout) (lo hi : List Nat) : Exec Unit := do
  if l.overflows lo || l.overflows hi then trap 8 va

def checkOffsets (scratch : Bool) (l : Layout) (lo hi : List Nat) : Exec Unit := do
  if scratch then
    if 2 ^ 23 ≤ l.addr lo then trap 5 (word (l.addr lo))
    if 2 ^ 23 ≤ l.addr hi then trap 5 (word (l.addr hi))

/-- Element slots and entries of a core's copy unit (R218, R221). -/
def copySlots : Nat := 1048576

def State.copiesOf (s : State) (core : Nat) : List Copy := s.copies.filter (·.core == core)

/-- Slots that no copy issued and not yet complete holds (R218). -/
def State.freeSlots (s : State) (core : Nat) : Nat := copySlots - (((s.copiesOf core).map (·.slots)).sum)

/-- A free copy-unit entry for a thread (R221): one of its own sixteen (true), else one of the 256 shared (false). -/
def State.copyEntry (s : State) (core tid : Nat) : Option Bool :=
  let l := s.copiesOf core
  if (l.filter fun c => c.tid == tid && c.own).length < 16 then some true
  else if (l.filter (!·.own)).length < 256 then some false
  else none

/-- The strip granted (R218). -/
def grantStrip (free n E : Nat) : Nat := if n = 0 then 0 else min n (max 1 (free / E))

/-- The member count that a stand index names in the thread's launch (R217, R223). -/
def standCount (s : State) (tid k : Nat) : Nat :=
  match (tfind (launchOf tid) s.launches).bind (·.stands[k]?) with
  | some st => st.members.length
  | none => 0

/-- cpy and cpym: the checks of R217 in their order, the entry of R221 and the grant of R218. -/
def issueCopy (cast : Bool) (d a b : BitVec 6) (s : State) : Result :=
  control {} (seq do
    let va ← rdX a
    let req ← rdX b
    if va.toNat % 128 ≠ 0 then trap 3 va
    let o ← readRec va.toNat 128
    let bar := BitVec.ofNat 64 (field 767 704 o)
    let emask := BitVec.ofNat 64 (field 831 768 o)
    if bar.toNat % 16 ≠ 0 then trap 3 bar
    if emask.toNat % 8 ≠ 0 then trap 3 emask
    let q := req.toNat
    if field 1023 832 o ≠ 0 || field 703 674 o ≠ 0 || (!cast && emask ≠ 0) then trap 2 va
    if field 63 48 q ≠ 0 || field 39 38 q ≠ 0 || (!cast && field 47 40 q ≠ 0) then trap 2 req
    let splat := BitVec.ofNat 64 (field 63 0 o)
    let dplat := BitVec.ofNat 64 (field 127 64 o)
    let (sp, sbase) ← readLocal false splat
    let (dp, dbase) ← readLocal true dplat
    if sp.rank ≠ dp.rank || sp.width ≠ dp.width || sp.ranks ≠ 1 then trap 2 splat
    if dp.ranks ≠ 1 || dp.ovl then trap 2 dplat
    let r := sp.rank
    let ext1 (k : Nat) : Nat := field (511 + 32 * k) (480 + 32 * k) o
    let bad (k : Nat) : Bool := if k < r then ext1 k = 0 else ext1 k ≠ 0
    let stray (k : Nat) : Bool := r ≤ k && (crdOf o 128 k ≠ 0 || crdOf o 320 k ≠ 0)
    if [1, 2, 3, 4, 5].any bad || (List.range 6).any stray then trap 2 va
    let scrd := (List.range r).map (crdOf o 128)
    let dcrd := (List.range r).map (crdOf o 320)
    let rest := (List.range (r - 1)).map fun k => ext1 (k + 1)
    let n := field 31 0 q
    let ssp := field 672 672 o = 1
    let dsp := field 673 673 o = 1
    let src := sp.layout sbase
    let dst := dp.layout dbase
    match surviving (n :: rest) scrd dcrd src.ext dst.ext with
    | none => pure ()
    | some (lo, hi) =>
      checkCorners splat src (addCrd scrd lo) (addCrd scrd hi)
      checkCorners dplat dst (addCrd dcrd lo) (addCrd dcrd hi)
      checkOffsets ssp src (addCrd scrd lo) (addCrd scrd hi)
      checkOffsets dsp dst (addCrd dcrd lo) (addCrd dcrd hi)
    let barLoc ← if bar = 0 then pure none else some <$> barPlace .amo bar
    let t ← getT
    let stand := field 47 40 q
    if cast && standCount (← getS) t.tid stand = 0 then trap 15 (BitVec.ofNat 64 stand)
    let core ← coreNum
    match (← getS).copyEntry core t.tid with
    | none =>
      atOpening 7
      throw (.wait .copyEntry)
    | some own =>
      let s ← getS
      let E := product rest
      let g := grantStrip (s.freeSlots core) n E
      let tag := field 37 32 q
      let c : Copy := {
        id := s.nextId, tid := t.tid, core := core, parcel := t.parcel, priv := t.ctx.priv, cast := cast, stand := stand,
        src := src, dst := dst, ssp := ssp, dsp := dsp, scrd := scrd, dcrd := dcrd, ext := g :: rest, tag := tag,
        bar := barLoc, emask := emask, slots := g * E, own := own, forked := false, started := false, members := [],
        failed := [], held := [], done := [], masked := [], credited := 0, fault := none }
      modS fun s => { s with nextId := s.nextId + 1, copies := s.copies ++ [c] }
      takeTag tag
      wrX d (BitVec.ofNat 64 g)
      modC fun c => { c with vl := g }) s

/-- cpy (R216). -/
def execCpy (d a b : BitVec 6) (s : State) : Result := issueCopy false d a b s

/-- cpym (R216, R223). -/
def execCpym (d a b : BitVec 6) (s : State) : Result := issueCopy true d a b s

/-! ## Streams (R230, R233) -/

/-- The pattern of a stream record (R230). -/
def Stream.decode (id width : Nat) (priv : Bool) (o : Nat) : Stream :=
  { id, width, base := BitVec.ofNat 64 (field 63 0 o), count := (List.range 4).map fun k => field (95 + 64 * k) (64 + 64 * k) o,
    stride := (List.range 4).map fun k => sextNat (field (127 + 64 * k) (96 + 64 * k) o) 32, type := field 324 320 o, pos := 0,
    priv := priv }

/-- smode (R230). -/
def execSmode (d a : BitVec 6) (s : State) : Result :=
  control {} (seq do
    let n := (← getC).phys d.toNat
    if n < 56 then trap 2 (BitVec.ofNat 64 n)
    let va ← rdX a
    if va.toNat % 64 ≠ 0 then trap 3 va
    let o ← readRec va.toNat 64
    let c ← getC
    let w := typeWidth c.fmt (field 324 320 o)
    let id := (← getS).nextId
    let p := Stream.decode id w c.priv o
    if field 511 325 o ≠ 0 || 21 ≤ p.type || !(w == 8 || w == 16 || w == 32 || w == 64) || p.count.contains 0 then trap 2 va
    modS fun s => { s with nextId := id + 1 }
    modT fun t => { t with ctx := { t.ctx with streams := tput n p t.ctx.streams }, refill := tdrop n t.refill }) s

/-- sstop (R233). -/
def execSstop (d : BitVec 6) (s : State) : Result :=
  control {} (seq do
    let n := (← getC).phys d.toNat
    if (tfind n (← getC).streams).isSome then
      awaitV n
      modT fun t => { t with
        ctx := { t.ctx.setV n 0 with streams := tdrop n t.ctx.streams }
        refill := tdrop n t.refill
        poison := t.poison.filter fun q => !(q.file == 1 && q.reg == n) }) s

end Sys2Proof.Machine
end

