-- ==== Sys2Proof/Machine/Bucking.lean ====
section
/-! DEFINITION. The bucking instructions (17, R367 to R372). -/

namespace Sys2Proof.Machine

/-! ## Plats with their base tables (R360, R362) -/

/-- The smallest reason that an entry of a base table gives, after those before it (R362). -/
def entryReason (dest : Bool) (align : Nat) (before : List BaseEntry) (o : Nat) : Option Nat :=
  let e := BaseEntry.decode o
  if e.addr.toNat % align ≠ 0 || (dest && e.rrec.toNat % 16 ≠ 0) then some 6
  else if field 255 138 o ≠ 0 || before.any (·.dev == e.dev) then some 12
  else none

def minReason : Option Nat → Option Nat → Option Nat
  | some a, some b => some (min a b)
  | some a, none => some a
  | none, b => b

/-- A plat with every entry of its base table, judged by all its reasons. -/
def readMesh (dest : Bool) (va : Word) : Exec (Plat × List BaseEntry) := do
  let p ← readPlat va
  if p.naxes = 0 then return (p, [])
  let (es, why) ← (List.range p.ranks).foldlM (fun (acc : List BaseEntry × Option Nat) r => do
    let o ← readEntry p r
    return (acc.1 ++ [BaseEntry.decode o], minReason acc.2 (entryReason dest p.align acc.1 o))) ([], none)
  match why with
  | some k => trap 7 (BitVec.ofNat 64 k)
  | none => return (p, es)

/-- The address of element 0 of a rank's shard. -/
def shardBase (p : Plat) (es : List BaseEntry) (r : Nat) : Word :=
  if p.naxes = 0 then p.base else (es[r]?.map (·.addr)).getD 0

/-- The rank that a device holds (R364). -/
def ownRank (p : Plat) (es : List BaseEntry) (dev : Option Nat) : Option Nat :=
  if p.naxes = 0 then some 0 else (List.range es.length).find? fun r => (es[r]?.map (·.dev)) == dev

/-- What a traverse's two plats derive for a device. -/
structure Derived where
  src : Plat
  dst : Plat
  srcTable : List BaseEntry
  dstTable : List BaseEntry
  srank : Option Nat
  drank : Option Nat
  out : List PostOf
  inc : List (List Run)
  deriving DecidableEq, Repr

def Derived.outbytes (d : Derived) : Nat := (d.out.map fun p => cellBytes d.src p.cell).sum
def Derived.inbytes (d : Derived) : Nat := (d.inc.map (cellBytes d.src)).sum

def rankField : Option Nat → Nat
  | some r => r
  | none => 0x3FF

/-- Two spans of bytes meet. -/
def spansMeet (a b c d : Nat) : Bool := a ≤ d && c ≤ b

/-- Checks 3 to 9 of R369, from the addresses of the two plats. -/
def deriveTraverse (splat dplat : Word) : Exec Derived := do
  let (sp, st) ← readMesh false splat
  let (dp, dt) ← readMesh true dplat
  if sp.etype ≠ dp.etype || sp.rank ≠ dp.rank || sp.ext ≠ dp.ext then trap 16 3
  if dp.ovl then trap 16 7
  let me := (← getS).devnum
  let srank := ownRank sp st me
  let drank := ownRank dp dt me
  if sp.naxes ≠ 0 && dp.naxes ≠ 0 && srank.isNone && drank.isNone then trap 16 4
  if (sp.naxes = 0) != (dp.naxes = 0) then trap 16 8
  let wide (p : Plat) (es : List BaseEntry) : Bool :=
    (List.range p.ranks).any fun r => 2 ^ 55 ≤ p.spanEnd (shardBase p es r)
  if wide sp st then trap 8 splat
  if wide dp dt then trap 8 dplat
  match srank, drank with
  | some r, some q =>
    let b := shardBase sp st r
    let c := shardBase dp dt q
    if spansMeet b.toNat (sp.spanEnd b) c.toNat (dp.spanEnd c) then trap 16 2
  | _, _ => pure ()
  let out := match srank with | some r => outgoing sp dp r | none => []
  let inc := match drank with | some q => (incoming sp dp q).map (·.2) | none => []
  if 2 ^ 24 < out.length || 2 ^ 24 < inc.length then trap 16 6
  return { src := sp, dst := dp, srcTable := st, dstTable := dt, srank := srank, drank := drank, out := out, inc := inc }

/-! ## Cursor records (R368) -/

/-- The fields that every start of a traverse clears (R369, R371). -/
def cursorClear : List (Nat × Nat × Nat) := [(184, 8, 0), (216, 8, 0), (512, 64, 0)]

/-- The fields that bkstart writes besides. -/
def Derived.fields (d : Derived) : List (Nat × Nat × Nat) :=
  [(128, 24, 0), (256, 64, 0), (160, 24, d.out.length), (192, 24, d.inc.length), (448, 64, d.outbytes), (384, 64, d.inbytes),
   (224, 10, rankField d.srank), (240, 10, rankField d.drank)]

/-! ## The instructions -/

/-- The parcel's traverse slot as the chunk sees it: its own claim, or the device's (R369). -/
def slotOf : Exec (Option Traverse) := do
  let r ← get
  modChunk fun c => { c with reads := mput (slotLine r.t.parcel) c.reads }
  match r.t.chunk.bind (·.traverse) with
  | some v => return some v
  | none => return tfind r.t.parcel r.s.traverses

/-- The parcel has no active traverse, as its slot says (R369, check 10). -/
def slotFree : Exec Unit := do if (← slotOf).isSome then trap 16 1

/-- Claim the slot for a traverse that starts at next with the posts of done behind it (R369). -/
def claim (d : Derived) (tag : Nat) (cursor : Word) (loc next : Nat) (done : BitVec 64) : Exec Unit := do
  let t ← getT
  let v : Traverse := {
    tid := t.tid, tag := tag, core := t.core.getD 0, priv := t.ctx.priv, cursor := cursor,
    cursorLoc := if viewBase ≤ loc then viewPa loc else loc, src := d.src, dst := d.dst, srcTable := d.srcTable,
    dstTable := d.dstTable, srank := d.srank, drank := d.drank, nout := d.out.length, nin := d.inc.length, next := next,
    done := done, inflight := [], stop := none }
  takeTag tag
  modChunk fun c => { c with traverse := some (v.advance 64), writes := mput (slotLine t.parcel) c.writes }

/-- bkstart (R369). -/
def execBkstart (d a b : BitVec 6) (s : State) : Result :=
  control {} (seq do
    let va ← rdX a
    let req ← rdX b
    if va.toNat % 128 ≠ 0 then trap 3 va
    if field 63 38 req.toNat ≠ 0 || field 31 1 req.toNat ≠ 0 then trap 2 req
    let o ← readRec va.toNat 128
    let v ← deriveTraverse (BitVec.ofNat 64 (field 63 0 o)) (BitVec.ofNat 64 (field 127 64 o))
    let plan := req.getLsbD 0
    if !plan then slotFree
    let loc ← recPlace .store va.toNat
    let rrec := match v.drank with | some q => (v.dstTable[q]?.map (·.rrec)).getD 0 | none => 0
    let announce := !plan && v.inbytes ≠ 0 && rrec ≠ 0
    let bar ← if announce then some <$> barPlace .amo rrec else pure none
    match bar with
    | some l =>
      if 2 ^ 47 ≤ v.inbytes then trap 2 (BitVec.ofNat 64 v.inbytes)
      let o ← readBar rrec l
      writeBar l (barBalance o (sextNat o 64 + v.inbytes))
    | none => pure ()
    writeLoc (cursorWrites loc (cursorState (if plan then 4 else 1) :: cursorClear ++ v.fields))
    if !plan then claim v (field 37 32 req.toNat) va loc 0 0
    wrX d (BitVec.ofNat 64 v.out.length)) s

/-- bkresume (R371). -/
def execBkresume (d a b : BitVec 6) (s : State) : Result :=
  control {} (seq do
    let va ← rdX a
    let req ← rdX b
    if va.toNat % 128 ≠ 0 then trap 3 va
    if field 63 38 req.toNat ≠ 0 || field 31 0 req.toNat ≠ 0 then trap 2 req
    let o ← readRec va.toNat 128
    let v ← deriveTraverse (BitVec.ofNat 64 (field 63 0 o)) (BitVec.ofNat 64 (field 127 64 o))
    let nout := v.out.length
    let next := field 151 128 o
    let done := field 319 256 o
    if field 159 152 o ≠ 3 || field 183 160 o ≠ nout || field 215 192 o ≠ v.inc.length || field 233 224 o ≠ rankField v.srank
        || field 249 240 o ≠ rankField v.drank || nout < next || done / 2 ^ (nout - next) ≠ 0 then trap 16 5
    slotFree
    let loc ← recPlace .store va.toNat
    writeLoc (cursorWrites loc (cursorState 1 :: cursorClear))
    claim v (field 37 32 req.toNat) va loc next (BitVec.ofNat 64 done)
    wrX d (BitVec.ofNat 64 (((List.range (nout - next)).filter fun k => !done.testBit k).length))) s

/-- bkstat (R372). -/
def execBkstat (d a : BitVec 6) (s : State) : Result :=
  control {} (seq do
    let va ← rdX a
    match (← slotOf) with
    | some v => wrX d (if v.cursor = va then BitVec.ofNat 64 (v.next * 2 ^ 16 + 1) else 0)
    | none => wrX d 0) s

end Sys2Proof.Machine
end

