-- ==== Sys2Proof/Machine/Control.lean ====
section
/-! DEFINITION. Branches, jumps and hardware loops (03, R56, R57, R65 to R70). -/

namespace Sys2Proof.Machine

/-- A transfer to a target (R68): loop entries are popped as it leaves them. -/
def transfer (call : Bool) (target : Word) : Exec Next := do
  let a := (← getC).pc
  modC fun c => { c with loops := popFor call a target c.loops }
  return .goto target

/-- A branch (R56): taken to pc + 4 * offset, else on to the next word. -/
def branch (p : Word → Word → Bool) (a b : BitVec 6) (o : BitVec 14) (s : State) : Result :=
  control { waits := false } (do
    let x ← rdX a
    let y ← rdX b
    if p x y then transfer false ((← getC).pc + word (o.toInt * 4)) else return .seq) s

/-- beq (R56). -/
def execBeq (a b : BitVec 6) (o : BitVec 14) (s : State) : Result := branch (fun a b => a == b) a b o s

/-- bne (R56). -/
def execBne (a b : BitVec 6) (o : BitVec 14) (s : State) : Result := branch (fun a b => a != b) a b o s

/-- blt (R56). -/
def execBlt (a b : BitVec 6) (o : BitVec 14) (s : State) : Result := branch (fun a b => a.slt b) a b o s

/-- bge (R56). -/
def execBge (a b : BitVec 6) (o : BitVec 14) (s : State) : Result := branch (fun a b => !a.slt b) a b o s

/-- bltu (R56). -/
def execBltu (a b : BitVec 6) (o : BitVec 14) (s : State) : Result := branch (fun a b => a.ult b) a b o s

/-- bgeu (R56). -/
def execBgeu (a b : BitVec 6) (o : BitVec 14) (s : State) : Result := branch (fun a b => !a.ult b) a b o s

/-- jal (R57). -/
def execJal (d : BitVec 6) (o : BitVec 20) (s : State) : Result :=
  control { waits := false } (do
    let pc := (← getC).pc
    wrX d (pc + 4)
    transfer (d != 0) (pc + word (o.toInt * 4))) s

/-- jalr (R57): the base is read before the link is written; a target that is no word address traps 0x03. -/
def execJalr (d a : BitVec 6) (i : BitVec 14) (s : State) : Result :=
  control { waits := false } (do
    let t := (← rdX a) + i.signExtend 64
    if t &&& 3 != 0 then trap 3 t
    wrX d ((← getC).pc + 4)
    transfer (d != 0) t) s

/-- The condition under which a loop instruction at pc with end last traps 0x0E (R69): the smallest trapval. -/
def loopTrap (rotating : Bool) (pc last : Word) (l : List LoopEntry) : Option Nat :=
  if rotating && l.any (·.rotating) then some 1
  else if l.head?.any fun e => e.start ≤ pc && pc ≤ e.last && e.last < last then some 2
  else if 4 ≤ l.length then some 4
  else none

/-- loop and loopr (R66, R69): a count of 0 skips the body. -/
def pushLoop (rotating : Bool) (c : BitVec 6) (len : BitVec 12) (s : State) : Result :=
  control {} (do
    let x := (← rdX c).toNat
    let n := if rotating then x % 2 ^ 48 else 0
    let e := if rotating then x / 2 ^ 48 % 8 else 0
    let count := if rotating then n + e else x
    let pc := (← getC).pc
    let last := pc + BitVec.ofNat 64 (4 * len.toNat)
    if count = 0 then return .goto (last + 4)
    match loopTrap rotating pc last (← getC).loops with
    | some v => trap 0x0E (BitVec.ofNat 64 v)
    | none =>
      let entry : LoopEntry := { start := pc + 4, last := last, left := count, rotating := rotating, n := n, e := e, done := 0 }
      modC fun c => { c with loops := entry :: c.loops }
      if rotating then
        modC fun c =>
          let c := [9, 10, 11, 12, 13, 14, 15].foldl (fun (c : Ctx) k => c.setP k 0) c
          { c.setP 8 (if 0 < n then allOnes else 0) with rrb := 0 }
      return .goto (pc + 4)) s

/-- loop (R66). -/
def execLoop (c : BitVec 6) (l : BitVec 12) (s : State) : Result := pushLoop false c l s

/-- loopr (R66). -/
def execLoopr (c : BitVec 6) (l : BitVec 12) (s : State) : Result := pushLoop true c l s

end Sys2Proof.Machine
end

