-- ==== Sys2Proof/Machine/Convert.lean ====
section
/-! DEFINITION. Conversion, quantisation and block summaries (05, R116 to R118; 04, R82, R83). -/

namespace Sys2Proof.Machine

/-- The types of a conversion. -/
structure Conv where
  t : TypeCode
  u : TypeCode
  w : Nat
  wd : Nat
  rnd : Rnd
  sat : Bool
  fmt : Vector Word 8
  key : Word
  deriving DecidableEq, Repr

def getConv : Exec Conv := do
  let c ← getC
  let t := modeStype c.mode
  let u := modeDtype c.mode
  return { t, u, w := typeWidth c.fmt t, wd := typeWidth c.fmt u, rnd := modeRnd c.mode, sat := modeSat c.mode, fmt := c.fmt,
           key := c.rngkey }

def Conv.draw (o : Conv) (i : Nat) : Nat := if o.rnd = 5 then rsrDraw o.key i else 0

/-- The exact value of a source code; an integer is its own value. -/
def Conv.value (o : Conv) (x : Nat) : Val :=
  if isInt o.t then Val.ofInt (intValue o.t o.w x) else (floatFmt o.fmt o.t).value x

/-- A value into dtype (R116, R117): an integer target always saturates, a floating one under mode.sat. R85 has a narrowing
conversion saturate and R116 names floating to floating alone: that every conversion into a floating type under mode.sat does, from
an integer and to a wider type too, is the model's choice (log entry 68). -/
def Conv.put (o : Conv) (i : Nat) (v : Val) : Rounded :=
  if isInt o.u then toIntSat o.rnd (o.draw i) o.u o.wd v else (floatFmt o.fmt o.u).round o.rnd o.sat (o.draw i) v

/-- vcvt of one code (R116). -/
def Conv.convert (o : Conv) (i x : Nat) : Rounded :=
  if isInt o.t && isInt o.u then (narrow o.sat o.u o.wd (intValue o.t o.w x), 0) else o.put i (o.value x)

/-- vcvt (R116). -/
def execVcvt (d a : BitVec 6) (_c : Bool) (s : State) : Result :=
  shared {} (seq do
    let o ← getConv
    let c ← getC
    vpStreams [d, a]
    needMode (modeScale c.mode == 0)
    checkVl (max o.w o.wd)
    elementwise d o.wd false a o.w .none o.w fun i _ x _ => o.convert i x
    chargePasses c (← activeElems) [(.v a, o.t)] [(.v d, o.u)]) s

/-- fp16, bf16, fp32 and fp64. -/
def wideFloat (t : TypeCode) : Bool := 8 ≤ t && t ≤ 11

/-- The scale register's value (R29, R83), with the poison of the bytes read checked. -/
def scaleOf (n w : Nat) (es : List Nat) : Exec (Nat → Nat) := do
  match (← scaleReg) with
  | none => modeTrap
  | some vS =>
    let t ← getT
    checkPoisonV (t.ctx.phys (modeScale t.ctx.mode)) 8 (es.map (scaleSlot t n w))
    return t.scaleByte vS n w

/-- vqnt (R117). -/
def execVqnt (d a : BitVec 6) (_c : Bool) (s : State) : Result :=
  shared {} (seq do
    let o ← getConv
    let c ← getC
    vpStreams [d, a]
    needMode (wideFloat o.t && scalable o.u && modeScale c.mode != 0)
    checkVl (max o.w o.wd)
    let n ← dstV d
    let sc ← scaleOf n o.wd (← activeElems)
    elementwise d o.wd false a o.w .none o.w fun i _ x _ =>
      let v := o.value x
      o.put i (if sc i = 255 then .nan true else match v with | .fin g m e => .fin g m (e - sc i + 127) | v => v)
    chargePasses c (← activeElems) [(.v a, o.t)] [(.v d, o.u)]) s

/-- vdqnt (R117): the target never saturates, since the family does not read mode.sat (R100). -/
def execVdqnt (d a : BitVec 6) (_c : Bool) (s : State) : Result :=
  shared {} (seq do
    let o ← getConv
    let o := { o with sat := false }
    let c ← getC
    vpStreams [d, a]
    needMode (scalable o.t && wideFloat o.u && modeScale c.mode != 0)
    checkVl (max o.w o.wd)
    let sc ← scaleOf ((← getC).phys a.toNat) o.w (← activeElems)
    elementwise d o.wd false a o.w .none o.w fun i _ x _ => o.put i (scaleVal (o.value x) (sc i))
    chargePasses c (← activeElems) [(.v a, o.t)] [(.v d, o.u)]) s

/-- The blocks of L elements that vl reaches, each with its active elements (R118). -/
def blocksOf (L vl : Nat) (es : List Nat) : List (Nat × List Nat) :=
  (List.range ((vl + L - 1) / L)).map fun j => (j, es.filter fun i => i / L == j)

/-- floor(log2) of a finite nonzero value. -/
def Val.top : Val → Int
  | .fin _ m e => e + m.log2
  | _ => 0

/-- floor(log2) of a type's largest finite value (R118). -/
def emaxOf (fmt : Vector Word 8) (u : TypeCode) (wd : Nat) : Int :=
  if isInt u then (intMax u wd).toNat.log2 else let f := floatFmt fmt u; (f.value f.maxCode).top

/-- The scale byte of a block's active values (R118). -/
def blockScale (emax : Int) (vs : List Val) : Nat :=
  if vs.any fun v => v.isNan || (match v with | .inf _ => true | _ => false) then 255
  else
    match (vs.filter (!·.isZero)).map Val.top with
    | [] => 127
    | e :: r => (max 0 (min 254 (r.foldl max e - emax + 127))).toNat

/-- vbscale (R118): the bytes that vqnt will read for vd are written; vd is not. In a VP the byte of the block is written from its own
element alone: the model's choice (log entry 69). -/
def execVbscale (d a : BitVec 6) (_c : Bool) (s : State) : Result :=
  shared {} (seq do
    let o ← getConv
    vpStreams [d, a]
    needMode (wideFloat o.t && scalable o.u && modeScale (← getMode) != 0)
    checkVl (max o.w o.wd)
    let _ ← scaleReg
    checkSrcs [(a, o.w)]
    let es ← activeElems
    let c ← getC
    let va ← srcElems a o.w c.vl es
    let t ← getT
    let L := modeBlk c.mode
    let n := c.phys d.toNat
    let bs := (blocksOf L c.vl es).filter (!·.2.isEmpty)
    let val (i : Nat) : Val := o.value (getElem va i o.w)
    wrElems (c.phys (modeScale c.mode)) 8
      (bs.map fun b => (scaleSlot t n o.wd (b.1 * L), blockScale (emaxOf o.fmt o.u o.wd) (b.2.map val)))
    raise (if es.any fun i => (val i).snan then fNV else 0)
    chargePasses c es [(.v a, o.t)] []) s

/-- vbsmax of a block's active values (R118). -/
def blockMax (g : Fmt) (rnd : Rnd) (z : Nat) (vs : List Val) : Rounded :=
  if vs.any (·.isNan) then g.nanWith (if vs.any (·.snan) then fNV else 0)
  else g.round rnd false z ((vs.map fun v => if v.negative then v.negate else v).foldl (Val.pick false) (.fin false 0 0))

/-- vbsmax (R118). A VP writes no element but its own (R98). -/
def execVbsmax (d a : BitVec 6) (_c : Bool) (s : State) : Result :=
  shared {} (seq do
    let o ← getConv
    vpStreams [d, a]
    needMode (isFloat o.t && isFloat o.u && modeScale (← getMode) == 0)
    checkVl (max o.w o.wd)
    let n ← dstV d
    checkSrcs [(a, o.w)]
    let es ← activeElems
    let c ← getC
    let va ← srcElems a o.w c.vl es
    let vp := (← get).vp
    let bs := (blocksOf (modeBlk c.mode) c.vl es).filter fun b => vp.isNone || vp == some b.1
    let out := bs.map fun b =>
      (b.1, blockMax (floatFmt o.fmt o.u) o.rnd (o.draw b.1) (b.2.map fun i => o.value (getElem va i o.w)))
    wrElems n o.wd (out.map fun e => (e.1, e.2.1))
    raise (out.foldl (fun fl e => fl ||| e.2.2) 0)
    chargePasses c es [(.v a, o.t)] [(.v d, o.u)] (out.map (·.1))) s

end Sys2Proof.Machine
end

