-- ==== Sys2Proof/Machine/Engines.lean ====
section
/-! DEFINITION. What the engines do by themselves: tile operations and drains (07), copies and streams (10), traverses (17).
An event that cannot take place leaves the state as it is. -/

namespace Sys2Proof.Machine

/-- An event of a device that is out of reset. -/
def event (f : State → State) (s : State) : Result := .next (if s.phase == .run then f s else s)

/-! ## The crew matrix unit (R155, R169) -/

/-- The next queued tile operation of a thread is performed: of one that is resident, or of one that has left the device and has
drains to come (R283). -/
def State.tileOp (s : State) (tid : Nat) : State :=
  match tfind tid s.threads with
  | some t =>
    match t.tileQueue with
    | op :: rest =>
      if t.core.isNone then s else
      let (u, d) := performTile { t with tileQueue := rest } op
      { s.setThread u with drains := s.drains ++ d.toList }
    | [] => s
  | none =>
    match tfind tid s.departed with
    | some t =>
      match t.tileQueue with
      | op :: rest =>
        let (u, d) := performTile { t with tileQueue := rest } op
        { s with departed := if rest.isEmpty then tdrop tid s.departed else tput tid u s.departed, drains := s.drains ++ d.toList }
      | [] => s
    | none => s

/-- TILE_OP_PERFORM (R155). -/
def execTileOpPerform (tid : Nat) (s : State) : Result := event (·.tileOp tid) s

/-! ## Element accesses of engines (R192, R219, R365) -/

/-- Who moves an element: the engine, the core that it translates for, its parcel and its level. -/
structure Agent where
  eng : Nat
  core : Nat
  parcel : Nat
  priv : Bool
  deriving DecidableEq, Repr

/-- An engine keeps a translation that it has taken (R318). -/
def State.takePage (s : State) (eng : Nat) (e : TlbEntry) : State :=
  let k := s.engine eng
  if k.pages.contains e then s else { s with engines := tput eng { k with pages := e :: k.pages } s.engines }

/-- The translation of an engine's access: one that it has taken, or a new one, which it keeps (R318). -/
def State.engineXlate (s : State) (g : Agent) (need : Need) (va : Nat) : Except Trap (State × Access) :=
  match (s.engine g.eng).pages.find? fun e => e.parcel == g.parcel && e.covers va with
  | some e => (s.checkLeaf g.priv need va e).map (s, ·)
  | none =>
    match s.translate g.core g.parcel g.priv need va with
    | .error f => .error f
    | .ok (a, hit) => .ok ((s.keepEntry g.core a hit).takePage g.eng a.entry, a)

/-- Where an engine's access lies: a byte of a crew's scratchpad by offset, or through a page; MGD is at home (R192), and a DEV
page an error (R222). -/
def State.reach (s : State) (g : Agent) (need : Need) (scratch : Option Nat) (va n : Nat) : Except Trap (State × Place) :=
  match scratch with
  | some crew =>
    match (List.range n).find? fun k => !s.scratchOk crew (va + k) with
    | some k => .error { code := 5, sub := 0, val := BitVec.ofNat 64 (va + k) }
    | none => .ok (s, .loc (scratchLoc crew va))
  | none =>
    match s.engineXlate g need va with
    | .error f => .error f
    | .ok (s, a) =>
      if a.window == .host && s.fyzWidth = 0 then .error (replyTrap 5 (word va)) else
      match s.placeOf none (crewOf g.core) g.parcel a with
      | .error f => .error f
      | .ok (.loc l) => .ok (s, .loc l)
      | .ok (.fabric dev off) => .ok (s, .fabric dev off)
      | .ok _ => .error { code := 5, sub := 0, val := word va }

/-- The state after an engine's access whose translation has failed, which is counted (R394). -/
def State.unreached (s : State) (g : Agent) (scratch : Option Nat) (va : Nat) : State :=
  if scratch.isSome || (s.engine g.eng).pages.any (fun e => e.parcel == g.parcel && e.covers va) then s
  else s.missed g.core g.parcel va

/-- Bytes at a location are poisoned (R350). -/
def State.poisonAt (s : State) (loc n : Nat) : Bool := (s.poisonTrap 0 loc n).isSome

/-- What moving an element does to its engine's record: pieces read and written, and an error at an element's address. -/
structure Job where
  agent : Agent
  get : State → Nat → Option Nat
  put : Nat → Nat → State → State
  did : State → Nat → Bool
  mark : Nat → State → State
  fail : Trap → Nat → State → State
  ask : Nat → ReplyTo
  ack : Nat → ReplyTo

/-- A request of an engine (R325). -/
def Agent.request (g : Agent) (dev off : Nat) (op : ArrivingOp) (va : Nat) (reply : ReplyTo) : FabricReq :=
  { id := 0, parcel := g.parcel, die := dieOf g.core, dev, off, header := 0, op, va := word va, reply, port := 0, sent := false,
    batch := none, lead := off, parts := [], folded := false, issued := 0, stage := 0, waiting := false, first := (0, 0), last := (0, 0),
    answer := none }

/-- The pieces of a span, numbered for element n. -/
def keyed (n : Nat) (l : List (Nat × Nat)) : List (Nat × Nat × Nat) := ((List.range l.length).zip l).map fun (k, e) => (2 * n + k, e)

/-- A request whose reply is of this kind is on its way. -/
def State.asked (s : State) (r : ReplyTo) : Bool := s.fabric.any (·.reply == r)

/-- Read the pieces of an element's source that have not been read (R220): memory now, the fabric by a request. The element lies
at elem. -/
def Job.read (w : Job) (scratch : Option Nat) (elem : Nat) : List (Nat × Nat × Nat) → State → State
  | [], s => s
  | (key, va, n) :: rest, s =>
    if (w.get s key).isSome || s.asked (w.ask key) then w.read scratch elem rest s else
    match s.reach w.agent .load scratch va n with
    | .error f => w.fail f elem (s.unreached w.agent scratch va)
    | .ok (s, .loc l) => w.read scratch elem rest (w.put key (if s.poisonAt l n then poisonCode else s.readObj l n) (s.countDead l))
    | .ok (s, .fabric dev off) => w.read scratch elem rest (s.sendReq (w.agent.request dev off (.load n) elem (w.ask key)))
    | .ok (s, _) => s

/-- The words of a scratchpad span are poisoned. -/
def State.poisonScratch (s : State) (loc n : Nat) : State :=
  let words := (List.range ((loc + n - 1) / 8 - loc / 8 + 1)).map (· + (loc / 8 - scratchBase / 8))
  { s with scratchPoison := words.foldl (fun m k => mput k m) s.scratchPoison }

/-- The bits of a line that writes replace. -/
def lineBits (line : Nat) (ws : List Write) : BitVec 1024 :=
  BitVec.ofNat 1024 ((ws.filter (·.1 / 128 == line)).foldl (fun m w => m ||| w.2.1.toNat * 2 ^ (w.1 % 128 * 8)) 0)

/-- A line holds poison: that of memory, or of a word of scratchpad. -/
def State.linePoison (s : State) (line : Nat) : Bool :=
  if scratchBase ≤ line * 128 && line * 128 < viewBase then s.scratchPoison.any fun k => (scratchBase + k * 8) / 128 == line
  else s.poisoned.contains line

/-- An engine has written bits of a poisoned line: poison goes once the engine's writes have replaced the whole line of memory, or the
whole word of scratchpad (R350, R351). -/
def State.coverLine (s : State) (eng line : Nat) (bits : BitVec 1024) : State :=
  let k := s.engine eng
  let m := tget 0 line k.covers ||| bits
  let s := { s with engines := tput eng { k with covers := tput line m k.covers } s.engines }
  if scratchBase ≤ line * 128 && line * 128 < viewBase then
    { s with scratchPoison := s.scratchPoison.filter fun k =>
        (scratchBase + k * 8) / 128 != line || m.extractLsb' ((scratchBase + k * 8) % 128 * 8) 64 != ~~~(0#64) }
  else if m = ~~~0 then { s with poisoned := mdrop line s.poisoned }
  else s

/-- Bits of a line that an engine has written poisoned no longer count as replaced. -/
def State.uncover (s : State) (eng line : Nat) (bits : BitVec 1024) : State :=
  let k := s.engine eng
  { s with engines := tput eng { k with covers := tput line (tget 0 line k.covers &&& ~~~bits) k.covers } s.engines }

/-- A store of an engine's element: the writes of a piece, and whether what it stores is poisoned. -/
def State.engineUnit (s : State) (eng : Nat) (ws : List Write) (bad : Bool) : State :=
  let lines := distinct (ws.map (·.1 / 128))
  let s := s.unit none ws
  if bad then
    let s := lines.foldl (fun s l => s.uncover eng l (lineBits l ws)) s
    ws.foldl (fun s (w : Write) =>
      if scratchBase ≤ w.1 && w.1 < viewBase then s.poisonScratch w.1 1 else s.poisonLine (w.1 / 128)) s
  else lines.foldl (fun s l => if s.linePoison l then s.coverLine eng l (lineBits l ws) else s) s

/-- Write one piece that has not been written: bytes with their masks. -/
def Job.writePiece (w : Job) (scratch : Option Nat) (elem : Nat) (bad : Bool) (key va : Nat) (bs : List (Byte × Byte)) (s : State) :
    State :=
  if w.did s key || s.asked (w.ack key) then s else
  match s.reach w.agent .store scratch va bs.length with
  | .error f => w.fail f elem (s.unreached w.agent scratch va)
  | .ok (s, .loc l) =>
    if s.held none (linesFrom l bs.length) then s else
    w.mark key (s.engineUnit w.agent.eng (((List.range bs.length).zip bs).map fun (i, m, b) => (l + i, m, b)) bad)
  | .ok (s, .fabric dev off) =>
    let op := if bad then ArrivingOp.poison bs.length else .store (bs.map (·.2)) (bs.map (·.1))
    s.sendReq (w.agent.request dev off op elem (w.ack key))
  | .ok (s, _) => s

/-- The number of a piece among those of the c-th place that a copy writes (R223). -/
def pieceAt (c key : Nat) : Nat := c * 2 ^ 40 + key

/-- Write an element of w bits at its address: its pieces in turn, at each of the crews given, or through its page. -/
def Job.write (w : Job) (crews : List (Option Nat)) (n va bit width : Nat) (bad : Bool) (code : Nat) (s : State) : State :=
  let bs := (writesOfBits 0 bit width code).map (·.2)
  ((List.range crews.length).zip crews).foldl (fun s e =>
    (keyed n (pieces va bs.length)).foldl (fun s (key, a, k) =>
      w.writePiece e.2 va bad (pieceAt e.1 key) a ((bs.drop (a - va)).take k) s) s) s

/-- The value of an element whose source pieces have been read, or none; poison in any piece poisons it. -/
def Job.value (w : Job) (n bit width : Nat) (ps : List (Nat × Nat)) (s : State) : Option (Bool × Nat) :=
  let vs := (keyed n ps).map fun (key, _, k) => (w.get s key).map fun x => (x, k)
  if vs.any (·.isNone) then none else
  let xs := vs.filterMap id
  let raw := xs.foldr (fun (x, k) acc => x + acc * 256 ^ k) 0
  some (xs.any (fun e => poisonCode ≤ e.1), raw / 2 ^ bit % 2 ^ width)

/-! ## Drains (R169) -/

/-- The elements of a drain's rows. -/
def Drain.size (d : Drain) : Nat := d.rows.length * 256

/-- Element n of a drain is written as a unit; the drain completes its tag after the last (R169). An element outside the portions ends
it with a fault against the tag (R222). -/
def State.drainElem (s : State) (id n : Nat) : State :=
  match s.drains.find? (·.id == id) with
  | none => s
  | some d =>
    let gone (s : State) (f : Option Trap) : State :=
      ({ s with drains := s.drains.filter (·.id != id) }.dropEngine id).tagDone d.tid d.tag f
    match d.rows[n / 256]? with
    | none => if d.rows.isEmpty then gone s none else s
    | some (row, bad) =>
      if d.done.contains n then s else
      let off := d.base + n / 256 * d.pitch + n % 256 * 4
      match (List.range 4).find? fun k => !s.scratchOk d.crew (off + k) with
      | some k => gone s (some { code := 5, sub := 0, val := BitVec.ofNat 64 (off + k) })
      | none =>
        let loc := scratchLoc d.crew off
        if s.held none (linesFrom loc 4) then s else
        let s := s.engineUnit id (writesOf loc (bytesOfNat (rowCode row (n % 256)) 4)) bad
        let e : Drain := { d with done := mput n d.done }
        if e.done.length = e.size then gone s none
        else { s with drains := s.drains.map fun x => if x.id == id then e else x }

/-- MATRIX_DRAIN (R169). -/
def execMatrixDrain (id n : Nat) (s : State) : Result := event (·.drainElem id n) s

/-! ## Copies (R219 to R224, R229, R284) -/

/-- The number of a destination's pieces, 1 where nothing is written. -/
def Copy.destPieces (c : Copy) (n : Nat) : Nat :=
  match c.spot n with
  | .none => 1
  | .zero d | .move _ d => (pieces (c.dst.addr d).toNat (c.dst.bytes d)).length

/-- The crews whose scratchpads a copy writes, or its page (R223). -/
def Copy.crews (c : Copy) : List (Option Nat) :=
  if !c.dsp then [none]
  else if !c.cast then [some (crewOf c.core)]
  else (distinct ((c.members.filter fun m => !c.failed.contains m.1).map (·.2))).map some

/-- The places at which an element is written, one where it is written nowhere. -/
def Copy.places (c : Copy) (n : Nat) : Nat := match c.spot n with | .none => 1 | _ => max 1 c.crews.length

def Copy.elemDone (c : Copy) (n : Nat) : Bool :=
  (List.range (c.places n)).all fun i => (List.range (c.destPieces n)).all fun k => c.done.contains (pieceAt i (2 * n + k))

def Copy.performed (c : Copy) : Nat := ((List.range c.slots).filter c.elemDone).length

def Copy.job (c : Copy) : Job :=
  { agent := { eng := c.id, core := c.core, parcel := c.parcel, priv := c.priv }
    get := fun s k => (s.copies.find? (·.id == c.id)).bind fun c => tfind k c.held
    put := fun k x s => s.modCopy c.id fun c => { c with held := tput k x c.held }
    did := fun s k => (s.copies.find? (·.id == c.id)).any fun c => c.done.contains k
    mark := fun k s => s.modCopy c.id fun c => { c with done := mput k c.done }
    fail := fun f _ s => s.modCopy c.id (·.fail f)
    ask := fun k => .copyRead c.id k
    ack := fun k => .copyWrite c.id k }

/-- One stage of an element: its source is read, or its destination written. -/
def Copy.move (c : Copy) (n : Nat) (s : State) : State :=
  let w := c.job
  let write (d : List Nat) (bad : Bool) (code : Nat) (s : State) : State :=
    if c.crews.isEmpty then (List.range 2).foldl (fun s k => w.mark (pieceAt 0 (2 * n + k)) s) s
    else w.write c.crews n (c.dst.addr d).toNat (c.dst.offset d).2 c.dst.width bad code s
  match c.spot n with
  | .none => w.mark (pieceAt 0 (2 * n)) s
  | .zero d => write d false 0 s
  | .move a d =>
    let ps := pieces (c.src.addr a).toNat (c.src.bytes a)
    match w.value n (c.src.offset a).2 c.src.width ps s with
    | none => w.read (if c.ssp then some (crewOf c.core) else none) (c.src.addr a).toNat (keyed n ps) s
    | some (bad, code) => write d bad code s

/-- Element n stands in the section that a copy is performing: those of the sections before it have been performed (R284). -/
def Copy.inSection (c : Copy) (n : Nat) : Bool := (List.range (n / copySlots * copySlots)).all c.elemDone

def State.copyElement (s : State) (id n : Nat) : State :=
  match s.copies.find? (·.id == id) with
  | some c =>
    if c.forked && c.started && c.fault.isNone && n < c.slots && !c.elemDone n && c.inSection n then c.move n s else s
  | none => s

/-- COPY_ELEMENT (R219). -/
def execCopyElement (id n : Nat) (s : State) : Result := event (·.copyElement id n) s

/-- The first forked copy of a core that has not started takes its slots, whole, once they are free; a large one waits for an
empty unit (R284). -/
def State.copyStart (s : State) (core : Nat) : State :=
  let l := (s.copiesOf core).filter (·.forked)
  match l.find? (!·.started) with
  | none => s
  | some c =>
    let held := ((l.filter (·.started)).map (·.slots)).sum
    if (if copySlots < c.slots then held = 0 else held + c.slots ≤ copySlots) then
      s.modCopy c.id fun c => { c with started := true }
    else s

/-- COPY_START (R284). -/
def execCopyStart (core : Nat) (s : State) : Result := event (·.copyStart core) s

def Copy.memberCount (c : Copy) : Nat := if c.cast then c.members.length else 1

/-- The bytes that a copy credits in all (R229). -/
def Copy.total (c : Copy) : Nat := ceilDiv (c.slots * c.dst.width) 8 * c.memberCount

/-- The bytes that it may have credited once its present elements have been performed. -/
def Copy.creditable (c : Copy) : Nat :=
  if c.performed = c.slots then c.total else c.performed * c.dst.width / 8 * c.memberCount

/-- A credit at a barrier, with failures recorded (R229), as one unit; a scratchpad location that has ceased to exist takes
none. -/
def State.credit (s : State) (loc bytes : Nat) (fails : List Nat) : State :=
  if scratchBase ≤ loc && loc < viewBase && !s.scratchOk ((loc - scratchBase) / 2 ^ 23) ((loc - scratchBase) % 2 ^ 23) then s else
  s.unitObj loc 16 (barCredit (fails.foldl barFail (s.readObj loc 16)) bytes)

def State.barrierCredit (s : State) (id bytes : Nat) : State :=
  match s.copies.find? (·.id == id) with
  | some c =>
    match c.bar with
    | some l =>
      if c.forked && c.started && 0 < bytes && c.credited + bytes ≤ c.creditable && !s.held none [l / 128] then
        (s.credit l bytes []).modCopy id fun c => { c with credited := c.credited + bytes }
      else s
    | none => s
  | none => s

/-- BARRIER_CREDIT (R229). -/
def execBarrierCredit (id bytes : Nat) (s : State) : Result := event (·.barrierCredit id bytes) s

/-- The bit of a failed member in emask (R223), by an atomic OR, on this device or another; an address that faults is the copy's
error. -/
def State.maskMember (s : State) (c : Copy) (t : Nat) : State :=
  let va := c.emask.toNat + t / 8
  let done (s : State) : State := s.modCopy c.id fun c => { c with masked := mput t c.masked }
  if s.asked (.copyMask c.id t) then s else
  match s.reach c.job.agent .amo none va 1 with
  | .error f => done ((s.unreached c.job.agent none va).modCopy c.id (·.fail f))
  | .ok (s, .loc l) =>
    if s.held none [l / 128] then s else done (s.unit none [(l, 1#8 <<< (t % 8), 1#8 <<< (t % 8))])
  | .ok (s, .fabric dev off) =>
    s.sendReq (c.job.agent.request dev (off - off % 8) (.amo .or true (1#64 <<< (off % 8 * 8 + t % 8)) 0) va (.copyMask c.id t))
  | .ok (s, _) => s

def FabricReq.isCopy (q : FabricReq) (id : Nat) : Bool :=
  match q.reply with
  | .copyRead c _ => c == id
  | .copyWrite c _ => c == id
  | .copyMask c _ => c == id
  | _ => false

/-- The members whose bit of emask has still to be set (R223). -/
def Copy.unmasked (c : Copy) : List Nat := if c.emask = 0 then [] else c.failed.filter (!c.masked.contains ·)

/-- A copy completes (R222 to R224): what it has not credited is credited, with its failures, and its tag completes. -/
def State.copyEnd (s : State) (c : Copy) : State :=
  if c.bar.any (fun l => s.held none [l / 128]) then s else
  let fails := c.failed ++ (if c.fault.isSome then [0xFFFFFF] else [])
  let s := match c.bar with
    | some l => if c.total - c.credited = 0 && fails.isEmpty then s else s.credit l (c.total - c.credited) fails
    | none => s
  ({ s with copies := s.copies.filter (·.id != c.id) }.dropEngine c.id).tagDone c.tid c.tag c.fault

/-- A copy whose elements have been performed, or that has stopped, marks its failed members (R223), and completes once every reply has
come. -/
def State.copyComplete (s : State) (id : Nat) : State :=
  match s.copies.find? (·.id == id) with
  | none => s
  | some c =>
    if !c.forked || !c.started || s.fabric.any (·.isCopy id) || (c.fault.isNone && c.performed ≠ c.slots) then s else
    let s := c.unmasked.foldl (fun s t => s.maskMember c t) s
    match s.copies.find? (·.id == id) with
    | some c => if c.unmasked.isEmpty then s.copyEnd c else s
    | none => s

/-- COPY_COMPLETE (R224). -/
def execCopyComplete (id : Nat) (s : State) : Result := event (·.copyComplete id) s

/-! ## Streams (R230, R231) -/

/-- An element of a stream fetched ahead, where it can be (R231). -/
def State.fetchElem (s : State) (t : Thread) (v : Nat) (p : Stream) (q : Nat) : State :=
  let b := p.width / 8
  let va := (p.addr q).toNat
  if p.length ≤ q || va % b ≠ 0 then s else
  match s.reach { eng := p.id, core := t.core.getD 0, parcel := t.parcel, priv := p.priv } .load none va b with
  | .ok (s, .loc l) =>
    if s.poisonAt l b then s else
    let s := s.countDead l
    { s with threads := tmod t.tid (fun t => { t with
        refill := tput v (tput q (l, s.readObj l b) ((tfind v t.refill).getD [])) t.refill }) s.threads }
  | _ => s

/-- The refill engine of a committed smode fetches n further elements (R230): a chunk that is open has not replaced it. -/
def State.streamRefill (s : State) (tid v n : Nat) : State :=
  match tfind tid s.threads with
  | none => s
  | some t =>
    match tfind v t.ctx.streams with
    | none => s
    | some p =>
      if t.core.isNone || !(t.chunk.all fun c => (tfind v c.start.streams).any (·.id == p.id)) then s else
      let got := (tfind v t.refill).getD []
      let from_ := (got.map (·.1)).foldl (fun m k => max m (k + 1)) p.pos
      (List.range n).foldl (fun s i => s.fetchElem t v p (from_ + i)) s

/-- STREAM_REFILL (R230). -/
def execStreamRefill (tid v n : Nat) (s : State) : Result := event (·.streamRefill tid v n) s

/-! ## Traverses (R365, R366, R370) -/

def State.modTraverse (s : State) (p : Nat) (f : Traverse → Traverse) : State := { s with traverses := tmod p f s.traverses }

def Traverse.agent (v : Traverse) (parcel : Nat) : Agent :=
  { eng := traverseEngine parcel, core := v.core, parcel := parcel, priv := v.priv }

/-- The outgoing post of index j. -/
def Traverse.postOf (v : Traverse) (j : Nat) : Option PostOf := v.srank.bind fun r => (outgoing v.src v.dst r)[j]?

/-- A post's element: the addresses of its source and destination with their bits. -/
def Traverse.element (v : Traverse) (p : PostOf) (n : Nat) : (Nat × Nat × Nat) × (Nat × Nat × Nat) :=
  let a := v.src.layout (shardBase v.src v.srcTable (v.srank.getD 0))
  let b := v.dst.layout (shardBase v.dst v.dstTable p.rank)
  let i := v.src.indices p.cell n
  let j := v.dst.indices p.cell n
  (((a.addr i).toNat, (a.offset i).2, a.bytes i), ((b.addr j).toNat, (b.offset j).2, b.bytes j))

def Traverse.job (v : Traverse) (parcel j : Nat) : Job :=
  let post (s : State) : Option Post := (tfind parcel s.traverses).bind fun v => v.inflight.find? (·.j == j)
  { agent := v.agent parcel
    get := fun s k => (post s).bind fun p => tfind k p.held
    put := fun k x s => s.modTraverse parcel (·.modPost j fun p => { p with held := tput k x p.held })
    did := fun s k => (post s).any fun p => p.done.contains k
    mark := fun k s => s.modTraverse parcel (·.modPost j fun p => { p with done := mput k p.done })
    fail := fun f elem s => s.modTraverse parcel (·.failPost j f (word elem))
    ask := fun k => .postRead parcel j k
    ack := fun k => .postWrite parcel j k }

/-- An element of a post has been performed. -/
def Traverse.elemDone (v : Traverse) (p : PostOf) (q : Post) (n : Nat) : Bool :=
  let d := (v.element p n).2
  (keyed n (pieces d.1 d.2.2)).all fun (k, _) => q.done.contains k

/-- Requests of an element are on their way. -/
def State.elemAsked (s : State) (parcel j n : Nat) : Bool :=
  [2 * n, 2 * n + 1].any fun k => s.asked (.postRead parcel j k) || s.asked (.postWrite parcel j k)

/-- One stage of an element of a post. -/
def Traverse.move (v : Traverse) (parcel : Nat) (p : PostOf) (j n : Nat) (s : State) : State :=
  let w := v.job parcel j
  let (a, d) := v.element p n
  match w.value n a.2.1 v.src.width (pieces a.1 a.2.2) s with
  | none => w.read none a.1 (keyed n (pieces a.1 a.2.2)) s
  | some (bad, code) => w.write [none] n d.1 d.2.1 v.dst.width bad code s

/-- Post j may start: one of the 64 from next that has neither completed nor started, of a traverse that has not stopped (R370). -/
def Traverse.startable (v : Traverse) (j : Nat) : Bool :=
  v.stop.isNone && v.next ≤ j && j < v.next + 64 && j < v.nout && !v.done.getLsbD (j - v.next) && !v.inflight.any (·.j == j)

def Traverse.startsAny (v : Traverse) : Bool := (List.range 64).any fun k => v.startable (v.next + k)

/-- The parcel whose turn it is to start a post: the next after the last one, in ascending rotation (R370). -/
def State.nextPoster (s : State) : Option Nat :=
  let ps := (s.traverses.filter fun e => e.2.startsAny).map (·.1)
  match ps.find? (s.lastPoster < ·) with
  | some p => some p
  | none => ps.head?

/-- A post is started, or its next element moves on (R370); one that has failed does not. -/
def State.post (s : State) (parcel j : Nat) : State :=
  match tfind parcel s.traverses with
  | none => s
  | some v =>
    match v.inflight.find? (·.j == j), v.postOf j with
    | none, some _ =>
      if v.startable j && s.nextPoster == some parcel then
        State.modTraverse { s with lastPoster := parcel } parcel fun v =>
          { v with inflight := v.inflight ++ [{ j := j, held := [], done := [], crediting := false, failed := false }] }
      else s
    | some q, some p =>
      if q.failed then s else
      match (List.range (cellCount p.cell)).find? fun n => !v.elemDone p q n && !s.elemAsked parcel j n with
      | some n => v.move parcel p j n s
      | none => s
    | _, none => s

/-- POST (R365). -/
def execPost (parcel j : Nat) (s : State) : Result := event (·.post parcel j) s

/-- A credit at a receive record of the device's own (R366): the bitmap's byte and the barrier are one unit. -/
def State.creditRecord (s : State) (bar byte bit bytes : Nat) : State :=
  if (s.byteAt byte).getLsbD bit then s
  else
    s.unit none (writesOf bar (bytesOfNat (barCredit (s.readObj bar 16) bytes) 16) ++ [(byte, 1#8 <<< bit, 1#8 <<< bit)])

/-- A post whose elements have all been performed credits its destination's receive record, and completes (R365, R366). -/
def State.postCredit (s : State) (parcel j : Nat) : State :=
  match tfind parcel s.traverses with
  | none => s
  | some v =>
    match v.inflight.find? (·.j == j), v.postOf j with
    | some q, some p =>
      if q.failed || q.crediting || !(List.range (cellCount p.cell)).all (v.elemDone p q) then s else
      let rrec := (v.dstTable[p.rank]?.map (·.rrec)).getD 0
      if rrec = 0 then s.modTraverse parcel (·.complete j) else
      let fail (f : Trap) : State := s.modTraverse parcel (·.failPost j f rrec)
      let g := v.agent parcel
      let bytes := cellBytes v.src p.cell
      match s.reach g .amo none rrec.toNat 16 with
      | .error f => fail f
      | .ok (s, .loc l) =>
        match s.reach g .amo none (rrec.toNat + 16 + p.index / 8) 1 with
        | .ok (s, .loc k) =>
          if s.held none [l / 128, k / 128] then s
          else (s.creditRecord l k (p.index % 8) bytes).modTraverse parcel (·.complete j)
        | .ok _ => fail { code := 5, sub := 0, val := rrec }
        | .error f => fail f
      | .ok (s, .fabric dev off) =>
        let s := s.modTraverse parcel (·.modPost j fun q => { q with crediting := true })
        s.sendReq (g.request dev off (.credit p.index bytes) rrec.toNat (.postCredit parcel j))
      | .ok _ => s
    | _, _ => s

/-- POST_CREDIT (R366). -/
def execPostCredit (parcel j : Nat) (s : State) : Result := event (·.postCredit parcel j) s

/-- The engine may write a traverse's cursor and free its slot: no chunk under the priority ticket stands in the way (R279). -/
def State.mayEnd (s : State) (parcel : Nat) (v : Traverse) : Bool := !s.held none [v.cursorLoc / 128, slotLine parcel]

def State.traverseDone (s : State) (parcel : Nat) : State :=
  match tfind parcel s.traverses with
  | some v =>
    if v.stop.isNone && v.inflight.isEmpty && v.next = v.nout && s.mayEnd parcel v then s.finishTraverse parcel v else s
  | none => s

/-- TRAVERSE_DONE (R370). -/
def execTraverseDone (parcel : Nat) (s : State) : Result := event (·.traverseDone parcel) s

def FabricReq.isPost (q : FabricReq) (parcel : Nat) : Bool :=
  match q.reply with
  | .postRead p _ _ => p == parcel
  | .postWrite p _ _ => p == parcel
  | .postCredit p _ => p == parcel
  | _ => false

/-- A stopped traverse ends once each post in flight has completed or failed, with no request on its way (R370). -/
def State.traverseStop (s : State) (parcel : Nat) : State :=
  match tfind parcel s.traverses with
  | some v =>
    match v.stop with
    | some (f, va) =>
      if v.inflight.all (·.failed) && !s.fabric.any (·.isPost parcel) && s.mayEnd parcel v then s.stopTraverse parcel v f va
      else s
    | none => s
  | none => s

/-- TRAVERSE_STOP (R370). -/
def execTraverseStop (parcel : Nat) (s : State) : Result := event (·.traverseStop parcel) s

end Sys2Proof.Machine
end

