-- ==== Sys2Proof/Machine/VecMem.lean ====
section
/-! DEFINITION. Vector loads, stores and atomics, vdrain and vpref (09, R197 to R204, R209, R210; 08, R177, R178). -/

namespace Sys2Proof.Machine

/-- The addressing of a vector memory instruction (R199). -/
inductive VForm where
  | unit
  | strided (b : BitVec 6)
  | indexed (b : BitVec 6)
  deriving DecidableEq, Repr

def VForm.isUnit : VForm → Bool
  | .unit => true
  | _ => false

def VForm.isIndexed : VForm → Bool
  | .indexed _ => true
  | _ => false

def VForm.reg : VForm → List (BitVec 6)
  | .indexed b => [b]
  | _ => []

/-- The widths of stype and of the index type, after the mode's checks (R198, R60). -/
def vmemTypes (form : VForm) (ok : TypeCode → Bool) : Exec (Nat × Nat) := do
  let c ← getC
  let t := modeStype c.mode
  let u := modeDtype c.mode
  let w := typeWidth c.fmt t
  let wi := typeWidth c.fmt u
  needMode (modeScale c.mode == 0 && (form.isUnit || 8 ≤ w) && (!form.isIndexed || isInt u) && ok t)
  checkVl (if form.isIndexed then max w wi else w)
  return (w, wi)

/-- The active elements from estart up (R199, R200); a VP's instruction ignores estart. -/
def vmemElems : Exec (List Nat) := do
  let r ← get
  let es ← activeElems
  if r.vp.isSome then return es
  let e := r.t.ctx.estart.toNat
  if e ≠ 0 && r.t.ctx.vl ≤ e then trap 2 r.t.ctx.estart
  return es.filter (e ≤ ·)

/-- Where element i lies (R199): its address, and its bit offset there. -/
def elemAddr (form : VForm) (base : Word) (stride : Word) (u : TypeCode) (w wi : Nat) (idx : VReg) (i : Nat) : Word × Nat :=
  match form with
  | .unit => if w < 8 then (base + BitVec.ofNat 64 (i * w / 8), i * w % 8) else (base + BitVec.ofNat 64 (i * (w / 8)), 0)
  | .strided _ => (base + word (i * stride.toInt), 0)
  | .indexed _ => (base + word (intValue u wi (getElem idx i wi) * (w / 8 : Nat)), 0)

/-- The element at which the chunk ends inside the instruction, where this turn ends it there (R176, R178). -/
def cutPoint (es : List Nat) : Exec (Option Nat) := do
  let r ← get
  match r.s.cut with
  | some k => return if r.vp.isNone && !r.t.chunk.any (·.explicit) && es.any (· < k) && es.any (k ≤ ·) then some k else none
  | none => return none

/-- Perform elements in ascending index (R200): a trap leaves those below performed and estart at the element. A chunk that ends
inside the instruction leaves estart there and executes it again (R178), unless it must be performed whole. -/
def runElems (streams : Table Stream) (es : List Nat) (perform : Nat → Exec Unit) (whole : Bool := false) : Exec Next := do
  let control := (← get).vp.isNone
  let cut ← if whole then pure none else cutPoint es
  let now := match cut with | some k => es.filter (· < k) | none => es
  for i in now do
    if control then modC fun c => { c with estart := BitVec.ofNat 64 i }
    perform i
  match cut with
  | some k =>
    modC fun c => { c with estart := BitVec.ofNat 64 k, streams := streams }
    endAfter
    return .goto (← getC).pc
  | none =>
    modC fun c => { c with estart := 0 }
    return .seq

/-- The place of an element's translated byte: a DEV page traps 0x05 with the element's address (R174, R200). -/
def elemAt (acc : Access) (elem : Word) : Exec Place := do
  match (← placeA acc) with
  | .dev _ | .registers _ => trap 5 elem
  | p => return p

/-- The place of a byte of element i (R200, R317). -/
def elemPlace (i : Nat) (need : Need) (va elem : Word) : Exec Place := do elemAt (← groupXlate i need va.toNat) elem

/-- The pages that a sub-byte element's bytes lie on: all are translated, then their classes are checked, before any is
accessed (R200). -/
def subPlaces (i : Nat) (need : Need) (a : Word) (n : Nat) : Exec (List (Nat × Place)) :=
  (List.range n).mapM (fun k => groupXlate i need (a + BitVec.ofNat 64 k).toNat) >>= fun accs =>
    accs.mapM fun acc => do return (acc.va, ← elemAt acc a)

/-- The aligned place of an element of whole bytes (R200). -/
def wholePlace (i : Nat) (need : Need) (a : Word) (n : Nat) : Exec Place := do
  if a.toNat % n ≠ 0 then trap 3 a
  elemPlace i need a a

def readPlace (va : Nat) (p : Place) (n : Nat) (ask : FabricReq → Exec (List FabricReq) := fun q => pure [q]) : Exec (List Byte) :=
  match p with
  | .loc l => readLoc va l n
  | .fabric dev off => fabricRead dev off n va ask
  | _ => pure []

/-! How elements travel to another device (R324, R328, R329). -/

/-- What carries the elements of an instruction to a device: extension packets where the route has the extension and the form is strided
or indexed (R328), else one access of each line (R324). -/
def VForm.carrier (f : VForm) (stride : Word) (ext : Bool) : BatchForm :=
  match f with
  | .unit => .line
  | .strided _ => if ext then .strided stride.toInt else .line
  | .indexed _ => if ext then .indexed else .line

/-- A number that 32 signed bits hold. -/
def fits32 (x : Int) : Bool := -(2 ^ 31) ≤ x && x < 2 ^ 31

/-- The request of the instruction that element i's joins, if one does: in one access of its line, or in the packet of the active element
before it (R329). -/
def joinable (form : BatchForm) (mine : List FabricReq) (q : FabricReq) (i : Nat) (prev : Option Nat) : Option FabricReq :=
  let line := mine.find? fun m => m.dev == q.dev && m.off / 128 == q.off / 128
  let packet (ok : FabricReq → FabricReq → Batch → Bool) : Option FabricReq :=
    match mine.getLast? with
    | none => none
    | some l =>
      match l.batch with
      | none => none
      | some b =>
        let all := mine.filter fun m => m.batch.any (·.id == b.id)
        match all.head? with
        | none => none
        | some h => if l.dev == q.dev && prev == some b.elem && all.length < 64 && ok h l b then some h else none
  match form with
  | .line => line
  | .strided d => packet fun _ l b => fits32 d && i == b.elem + 1 && (q.off : Int) == l.off + d
  | .indexed => packet fun h _ _ => fits32 (q.off - h.off)

/-- Element i's request with its transaction: one that an earlier request of the instruction began, or one of its own. -/
def carried (form : BatchForm) (mine : List FabricReq) (id i : Nat) (prev : Option Nat) (q : FabricReq) : FabricReq :=
  match (joinable form mine q i prev).bind fun h => h.batch.map fun b => (b.id, h.lead) with
  | some (n, lead) => { q with batch := some { id := n, form, elem := i }, lead }
  | none => { q with batch := some { id, form, elem := i } }

/-- The fabric place of n bytes, if it is one that may be read now: no store of the open chunk to its line stands before it (R196). -/
def Running.fabricAt (r : Running) (va n : Nat) : Option (Nat × Nat) :=
  if va % n ≠ 0 then none else
  match r.s.translate (r.t.core.getD 0) r.t.parcel r.t.ctx.priv .load va with
  | .error _ => none
  | .ok (a, _) =>
    let dev := (a.pa - 2 ^ 51) / 2 ^ 39
    let off := a.pa % 2 ^ 39
    if a.window == .fabric && !(r.t.chunk.any fun c => c.fabricOut.any fun m => m.dev == dev && m.off / 128 == off / 128)
    then some (dev, off) else none

/-- The pieces of a load that are asked for together with the first: those that lie in its line, or the packet that it begins. -/
def gather (r : Running) (form : BatchForm) (like : FabricReq) : List (Nat × Nat × Nat) → Option Nat → List FabricReq → List FabricReq
  | [], _, mine => mine
  | (i, va, n) :: rest, prev, mine =>
    let next := (r.fabricAt va n).bind fun (dev, off) =>
      let q := { like with dev, off, lead := off, op := .load n, va := BitVec.ofNat 64 va }
      if (joinable form mine q i prev).isSome then some (carried form mine 0 i prev q) else none
    match next, form with
    | some q, _ => gather r form like rest (some i) (mine ++ [q])
    | none, .line => gather r form like rest (some i) mine
    | none, _ => mine

/-- The requests that leave at the chunk's commit. -/
def pendingOut : Exec (List FabricReq) := do return match (← getT).chunk with | some c => c.fabricOut | none => []

def setPendingOut (qs : List FabricReq) : Exec Unit := modChunk fun c => { c with fabricOut := qs, late := true }

/-- A number for a transaction. -/
def freshId : Exec Nat := do
  let n := (← getS).nextId
  modS fun s => { s with nextId := n + 1 }
  return n

/-- Requests to a device use the vector-request extension (R328). -/
def usesExt (dev : Nat) : Exec Bool := do
  let s ← getS
  return s.devnum != some dev && s.extTo dev

/-- The active element before element i. -/
def prevOf (es : List Nat) (i : Nat) : Option Nat := (es.filter (· < i)).getLast?

/-- An element's own request, to leave at commit; since counts the requests that the chunk held before the instruction. -/
def sendElem (form : VForm) (stride : Word) (since i : Nat) (prev : Option Nat) (dev off : Nat) (op : ArrivingOp) (va : Nat)
    (reply : ReplyTo) : Exec Unit := do
  let q ← fabricReq dev off op va reply
  let qs ← pendingOut
  if !form.isUnit && (← usesExt dev) then
    let id ← freshId
    setPendingOut (qs ++ [carried (form.carrier stride true) (qs.drop since) id i prev q])
  else setPendingOut (qs ++ [q])

/-- A store's bytes laid over a line's, with their masks. -/
def layOver (k : Nat) (data mask : List Byte) (ds ms : List Byte) : List Byte × List Byte :=
  let at_ (i : Nat) (l : List Byte) (old : Byte) : Byte := if k ≤ i then l[i - k]?.getD old else old
  ((List.range 128).map fun i =>
      let m := at_ i mask 0
      (ds[i]?.getD 0 &&& ~~~m) ||| (at_ i data 0 &&& m),
    (List.range 128).map fun i => ms[i]?.getD 0 ||| at_ i mask 0)

/-- An element's store joins the write of its line (R324). -/
def storeLine (since dev off va : Nat) (data mask : List Byte) : Exec Unit := do
  let base := off - off % 128
  let qs ← pendingOut
  let joins (e : FabricReq × Nat) : Bool := since ≤ e.2 && e.1.dev == dev && e.1.off == base
  match qs.zipIdx.find? joins with
  | some (q, i) =>
    match q.op with
    | .store ds ms =>
      let r := layOver (off % 128) data mask ds ms
      setPendingOut (qs.set i { q with op := .store r.1 r.2 })
    | _ => pure ()
  | none =>
    let r := layOver (off % 128) data mask [] []
    let q ← fabricReq dev base (.store r.1 r.2) va (.ack (← getT).tid true)
    setPendingOut (qs ++ [q])

/-- A store of bytes of element i under bit masks (R199): to another device as a request that leaves at commit (R188). The bits of a
byte that the element does not cover are merged at the target, as part of the store (log entry 77). -/
def writePlace (form : VForm) (stride : Word) (since i : Nat) (prev : Option Nat) (va : Nat) (p : Place) (data mask : List Byte) :
    Exec Unit := do
  match p with
  | .loc l => writeLoc (((writesOf l data).zip mask).map fun e => (e.1.1, e.2, e.1.2.2))
  | .fabric dev off =>
    if (← explicitChunk) then throw (.boundary 5)
    if !form.isUnit && (← usesExt dev) then
      sendElem form stride since i prev dev off (.store data mask) va (.ack (← getT).tid true)
    else storeLine since dev off va data mask
  | _ => pure ()

/-- How a load's elements are read from another device: the form and stride, the instruction's active elements and the pieces that they
read, and the number of the first request that it may issue. -/
structure Fetching where
  form : VForm
  stride : Word
  es : List Nat
  pieces : List (Nat × Nat × Nat)
  since : Nat
  deriving DecidableEq, Repr

/-- The requests asked for with the one at an address, which waits for its reply (R324, R328). -/
def Fetching.ask (l : Fetching) (i va : Nat) (q : FabricReq) : Exec (List FabricReq) := do
  let form := l.form.carrier l.stride (← usesExt q.dev)
  let first := carried form [] 0 i none q
  return gather (← get) form first ((l.pieces.dropWhile (·.2.1 != va)).drop 1) (some i) [first]

/-- The request of a deferred element, with its transaction. -/
def Fetching.join (l : Fetching) (i : Nat) (q : FabricReq) : Exec FabricReq := do
  let form := l.form.carrier l.stride (← usesExt q.dev)
  let s ← getS
  let t ← getT
  let mine := s.fabric.filter fun m => l.since ≤ m.id && m.tid == some t.tid
  return carried form mine s.nextId i (prevOf l.es i) q

/-- Load element i into register n (R199, R202). -/
def loadElem (l : Fetching) (n w : Nat) (a : Word) (bit i : Nat) : Exec Unit := do
  if w < 8 then
    let k := (bit + w + 7) / 8
    let ps ← subPlaces i .load a k
    let bs ← ps.mapM fun e => readPlace e.1 e.2 1 (l.ask i e.1)
    wrElems n w [(i, natOfBytes bs.flatten / 2 ^ bit)]
  else
    let p ← wholePlace i .load a (w / 8)
    if (← mayDefer p) then
      deferLoad (.v n i w) a.toNat (match p with | .loc l => l | _ => 0) (w / 8) .zero
        (match p with | .fabric dev off => some (dev, off) | _ => none) true (l.join i)
    else wrElems n w [(i, natOfBytes (← readPlace a.toNat p (w / 8) (l.ask i a.toNat)))]

/-- Store w bits of element i's data at a bit offset (R199). -/
def storeElem (form : VForm) (stride : Word) (es : List Nat) (since w : Nat) (a : Word) (bit x i : Nat) : Exec Unit := do
  if w < 8 then
    let k := (bit + w + 7) / 8
    let ps ← subPlaces i .store a k
    let data := bytesOfNat (x * 2 ^ bit) k
    let mask := bytesOfNat ((2 ^ w - 1) * 2 ^ bit) k
    for e in ps.zip (data.zip mask) do writePlace form stride since i (prevOf es i) e.1.1 e.1.2 [e.2.1] [e.2.2]
  else
    let p ← wholePlace i .store a (w / 8)
    writePlace form stride since i (prevOf es i) a.toNat p (bytesOfNat x (w / 8)) (List.replicate (w / 8) 255)

/-- The stride or the index vector (R199). -/
def formOperands (form : VForm) (wi : Nat) (es : List Nat) : Exec (Word × VReg) := do
  match form with
  | .unit => return (0, 0)
  | .strided b => return (← rdX b, 0)
  | .indexed b => return (0, ← srcElems b wi (← getC).vl es)

/-- A vector load (R199 to R202). -/
def vecLoad (form : VForm) (d a : BitVec 6) (s : State) : Result :=
  shared {} (do
    vpStreams (d :: form.reg)
    let (w, wi) ← vmemTypes form fun _ => true
    let c ← getC
    let base ← rdX a
    let n ← dstV d
    checkSrcs (form.reg.map (·, wi))
    let es ← vmemElems
    let (stride, idx) ← formOperands form wi es
    let at_ (i : Nat) : Word × Nat := elemAddr form base stride (modeDtype c.mode) w wi idx i
    let pieces := es.flatMap fun i => if w < 8 then
        (List.range (((at_ i).2 + w + 7) / 8)).map fun k => (i, ((at_ i).1 + BitVec.ofNat 64 k).toNat, 1)
      else [(i, (at_ i).1.toNat, w / 8)]
    let l : Fetching := { form, stride, es, pieces, since := (← getS).nextId }
    let r ← runElems c.streams es fun i => loadElem l n w (at_ i).1 (at_ i).2 i
    modT fun t => { t with poison := if t.poison.isEmpty then [] else clearPoisonV n w es t.poison }
    return r) s

/-- A vector store (R199 to R202). -/
def vecStore (form : VForm) (d a : BitVec 6) (s : State) : Result :=
  shared {} (do
    vpStreams (d :: form.reg)
    let (w, wi) ← vmemTypes form fun _ => true
    let c ← getC
    let base ← rdX a
    checkSrcs ((d, w) :: form.reg.map (·, wi))
    let es ← vmemElems
    let data ← srcElems d w c.vl es
    let (stride, idx) ← formOperands form wi es
    let since := (← pendingOut).length
    runElems c.streams es fun i =>
      let e := elemAddr form base stride (modeDtype c.mode) w wi idx i
      storeElem form stride es since w e.1 e.2 (getElem data i w) i) s

/-- vld (R199). -/
def execVld (d a : BitVec 6) (s : State) : Result := vecLoad .unit d a s
/-- vld.s (R199). -/
def execVldS (d a b : BitVec 6) (s : State) : Result := vecLoad (.strided b) d a s
/-- vld.x (R199). -/
def execVldX (d a b : BitVec 6) (_e : Bool) (s : State) : Result := vecLoad (.indexed b) d a s
/-- vst (R199). -/
def execVst (d a : BitVec 6) (s : State) : Result := vecStore .unit d a s
/-- vst.s (R199). -/
def execVstS (d a b : BitVec 6) (s : State) : Result := vecStore (.strided b) d a s
/-- vst.x (R199). -/
def execVstX (d a b : BitVec 6) (_e : Bool) (s : State) : Result := vecStore (.indexed b) d a s

/-! ## Vector atomics (R209, R210) -/

/-- The types that a vector atomic works on (R209). -/
def vamoType (op : AmoOp) (t : TypeCode) : Bool :=
  if op == .fadd then t == 10 || t == 11 else t == 2 || t == 3 || t == 6 || t == 7

/-- One element's atomic (R209): the line it touches, where it is not another device's. -/
def vamoElem (op : AmoOp) (ret : Bool) (form : VForm) (es : List Nat) (since n w : Nat) (a : Word) (x i : Nat) : Exec Unit := do
  let b := w / 8
  match (← wholePlace i .amo a b) with
  | .loc l =>
    let m ← atomicLoc op b a.toNat l x 0
    if ret then wrElems n w [(i, m)]
  | .fabric dev off =>
    checkExt op dev a.toNat
    if (← explicitChunk) then throw (.boundary 5)
    let tid := (← getT).tid
    let reply : ReplyTo := if ret then .atomic tid (.v n i w) .zero true else .ack tid true
    sendElem form 0 since i (prevOf es i) dev off (.amo op (b == 8) (BitVec.ofNat 64 x) 0) a.toNat reply
    if ret then endAfter
  | _ => pure ()

/-- Whether a vamo is performed at home (R210, R279): more than vl / 8 distinct lines, outside explicit chunks and priority
commit. -/
def performedAtHome (lines vl : Nat) : Exec Bool := do
  let t ← getT
  return !(t.chunk.any fun c => c.explicit || c.priority) && vl < 8 * lines

/-- An address on a fabric page, where a vamo's elements are not idempotent and no chunk ends inside it (R172, R178). -/
def reachesFabric (need : Need) (va : Word) : Exec Bool := do
  let r ← get
  match r.s.translate (r.t.core.getD 0) r.t.parcel r.t.ctx.priv need va.toNat with
  | .ok (a, _) => return a.window == .fabric
  | .error _ => return false

/-- vamo (R209, R210). -/
def vecAtomic (op : AmoOp) (ret : Bool) (d a b : BitVec 6) (s : State) : Result :=
  shared {} (do
    vpStreams [d, b]
    let (w, wi) ← vmemTypes (.indexed b) (vamoType op)
    let c ← getC
    let base ← rdX a
    let n ← if ret then dstV d else pure (c.phys d.toNat)
    checkSrcs (if ret then [(b, wi)] else [(d, w), (b, wi)])
    let es ← vmemElems
    let data ← srcElems d w c.vl es
    let idx ← srcElems b wi c.vl es
    let at_ (i : Nat) : Word := (elemAddr (.indexed b) base 0 (modeDtype c.mode) w wi idx i).1
    let before := (← getT).chunk.any fun c => c.late
    let since := (← pendingOut).length
    let whole ← es.anyM fun i => reachesFabric .amo (at_ i)
    let r ← runElems c.streams es (fun i => vamoElem op ret (.indexed b) es since n w (at_ i) (getElem data i w) i) whole
    let lines := (distinct (es.map fun i => (at_ i).toNat / 128)).length
    let fabric := (← getT).chunk.any fun c => c.late && !before
    if !fabric && (← performedAtHome lines c.vl) then
      modChunk fun c => { c with late := true, farLines := c.farLines ++ es.map fun i => (at_ i).toNat / 128 }
      if ret then endAfter
    return r) s

/-- vamo.add (R209). -/
def execVamoAdd (d a b : BitVec 6) (_e : Bool) (s : State) : Result := vecAtomic .add false d a b s

/-- vamo.add.ret (R209). -/
def execVamoAddRet (d a b : BitVec 6) (_e : Bool) (s : State) : Result := vecAtomic .add true d a b s

/-- vamo.and (R209). -/
def execVamoAnd (d a b : BitVec 6) (_e : Bool) (s : State) : Result := vecAtomic .and false d a b s

/-- vamo.and.ret (R209). -/
def execVamoAndRet (d a b : BitVec 6) (_e : Bool) (s : State) : Result := vecAtomic .and true d a b s

/-- vamo.or (R209). -/
def execVamoOr (d a b : BitVec 6) (_e : Bool) (s : State) : Result := vecAtomic .or false d a b s

/-- vamo.or.ret (R209). -/
def execVamoOrRet (d a b : BitVec 6) (_e : Bool) (s : State) : Result := vecAtomic .or true d a b s

/-- vamo.xor (R209). -/
def execVamoXor (d a b : BitVec 6) (_e : Bool) (s : State) : Result := vecAtomic .xor false d a b s

/-- vamo.xor.ret (R209). -/
def execVamoXorRet (d a b : BitVec 6) (_e : Bool) (s : State) : Result := vecAtomic .xor true d a b s

/-- vamo.min (R209). -/
def execVamoMin (d a b : BitVec 6) (_e : Bool) (s : State) : Result := vecAtomic .min false d a b s

/-- vamo.min.ret (R209). -/
def execVamoMinRet (d a b : BitVec 6) (_e : Bool) (s : State) : Result := vecAtomic .min true d a b s

/-- vamo.max (R209). -/
def execVamoMax (d a b : BitVec 6) (_e : Bool) (s : State) : Result := vecAtomic .max false d a b s

/-- vamo.max.ret (R209). -/
def execVamoMaxRet (d a b : BitVec 6) (_e : Bool) (s : State) : Result := vecAtomic .max true d a b s

/-- vamo.minu (R209). -/
def execVamoMinu (d a b : BitVec 6) (_e : Bool) (s : State) : Result := vecAtomic .minu false d a b s

/-- vamo.minu.ret (R209). -/
def execVamoMinuRet (d a b : BitVec 6) (_e : Bool) (s : State) : Result := vecAtomic .minu true d a b s

/-- vamo.maxu (R209). -/
def execVamoMaxu (d a b : BitVec 6) (_e : Bool) (s : State) : Result := vecAtomic .maxu false d a b s

/-- vamo.maxu.ret (R209). -/
def execVamoMaxuRet (d a b : BitVec 6) (_e : Bool) (s : State) : Result := vecAtomic .maxu true d a b s

/-- vamo.swap (R209). -/
def execVamoSwap (d a b : BitVec 6) (_e : Bool) (s : State) : Result := vecAtomic .swap false d a b s

/-- vamo.swap.ret (R209). -/
def execVamoSwapRet (d a b : BitVec 6) (_e : Bool) (s : State) : Result := vecAtomic .swap true d a b s

/-- vamo.fadd (R209). -/
def execVamoFadd (d a b : BitVec 6) (_e : Bool) (s : State) : Result := vecAtomic .fadd false d a b s

/-- vamo.fadd.ret (R209). -/
def execVamoFaddRet (d a b : BitVec 6) (_e : Bool) (s : State) : Result := vecAtomic .fadd true d a b s

/-- vdrain (R203): a chunk with elements that are performed only after commit ends first; then the drain is waited for. -/
def execVdrain (s : State) : Result :=
  control {} (seq do
    let t ← getT
    if t.chunk.any fun c => c.late && !c.explicit then throw (.boundary 4)
    drainVectors) s

/-- vpref (R204): timing only; the mode is checked as for a vld (R198), and no address is. -/
def execVpref (a : BitVec 6) (s : State) : Result :=
  control {} (seq do
    let _ ← vmemTypes .unit fun _ => true
    let _ ← rdX a) s

end Sys2Proof.Machine
end

