-- ==== Sys2Proof/Machine/Fibres.lean ====
section
/-! DEFINITION. The fibre instructions (06). -/

namespace Sys2Proof.Machine

/-! ## Fibre registers (R127, R131, R351) -/

/-- FCAP of the thread; without fibre storage every fibre instruction traps 0x01 (R15, R131). -/
def fibreCap : Exec Nat := do
  let r ← get
  if partFib r.t.part = 0 then trap 1 (r.s.fetched.setWidth 64)
  return fcapOf r.t.part

def Ctx.fAt (c : Ctx) (k : Nat) : Fibre := c.f[k]?.getD []

/-- Poison in the pairs of a fibre (R351); those at or beyond its occupancy are not read (R127). -/
def checkPoisonF (k : Nat) : Exec Unit := do
  let t ← getT
  match t.poison.find? fun q => q.file == 3 && q.reg == k && q.index < (t.ctx.fAt k).length with
  | some q => trapOf { code := 12, sub := 1, val := poisonVal 3 k q.index }
  | none => pure ()

def rdF (k : BitVec 6) : Exec Fibre := do
  checkPoisonF k.toNat
  return (← getC).fAt k.toNat

def wrF (k : BitVec 6) (f : Fibre) : Exec Unit :=
  modT fun t => { t with
    ctx := { t.ctx with f := t.ctx.f.setIfInBounds k.toNat f }
    poison := t.poison.filter fun q => !(q.file == 3 && q.reg == k.toNat) }

/-- A read of n bytes by a fibre instruction, as part of its pair i (R132): on a fabric page it is asked for with those of the
instruction's reads that follow it in its line (R324). A fibre's loads are never deferred: R189 and R202 allow it, and the model does
not take it (log entry 65). -/
def fibreRead (i : Nat) (va : Word) (n : Nat) (pieces : List (Nat × Nat × Nat) := []) : Exec Nat := do
  let p ← elemPlace i .load va va
  let l : Fetching := { form := .unit, stride := 0, es := [], pieces, since := 0 }
  return natOfBytes (← readPlace va.toNat p n (l.ask i va.toNat))

/-- What a fibre pass is charged beyond the least charge: the pairs that it reads and writes (R271). -/
def chargePairs (n : Nat) : Exec Unit := modify fun r => { r with beats := r.beats + (n - 16) }

/-- A walk of pairs, each read, and written where the instruction writes it too, charged as far as it has come. -/
def walkRun (es : List Nat) (each : Nat) (perform : Nat → Exec Unit) : Exec Next := do
  let n ← runElems (← getC).streams es perform
  let e := (← getC).estart.toNat
  chargePairs (each * (if e = 0 then es else es.filter (· < e)).length)
  return n

/-! ## Loading, storing and housekeeping (R138 to R140) -/

/-- The first pair whose coordinate is not above the one before it (R128). -/
def firstUnordered : Nat → Option (BitVec 32) → List (BitVec 32) → Option Nat
  | _, _, [] => none
  | j, q, c :: r =>
    if (match q with | some p => decide (c ≤ p) | none => false) then some j else firstUnordered (j + 1) (some c) r

/-- fld (R138): every read and every fault comes before the order check. -/
def execFld (d a b : BitVec 6) (s : State) : Result :=
  control {} (seq do
    let cap ← fibreCap
    let va ← rdX a
    let n := (← rdX b).toNat
    if va.toNat % 8 ≠ 0 then trap 3 va
    if cap < n then trap 2 (BitVec.ofNat 64 n)
    let at_ (j : Nat) : Word := va + BitVec.ofNat 64 (8 * j)
    let pieces := (List.range n).map fun j => (j, (at_ j).toNat, 8)
    let ps ← (List.range n).mapM fun j => fibreRead j (at_ j) 8 pieces
    let f : Fibre := ps.map fun x => (BitVec.ofNat 32 x, BitVec.ofNat 32 (x / 2 ^ 32))
    match firstUnordered 0 none (f.map (·.1)) with
    | some j => trap 0x0B (BitVec.ofNat 64 j)
    | none =>
      wrF d f
      chargePairs n) s

/-- The pairs that a restartable store or gather walks (R132). -/
def walkPairs (occ : Nat) : Exec (List Nat) := do
  let e := (← getC).estart.toNat
  if e ≠ 0 && occ ≤ e then trap 2 (← getC).estart
  return (List.range occ).filter (e ≤ ·)

/-- fst (R139). A poisoned source, then a misaligned base, then estart are reported in this order, which R132 and R139 leave open (log
entry 66). -/
def execFst (d a : BitVec 6) (s : State) : Result :=
  control {} (do
    let _ ← fibreCap
    let va ← rdX a
    let f ← rdF d
    if va.toNat % 8 ≠ 0 then trap 3 va
    let es ← walkPairs f.length
    let since := (← pendingOut).length
    walkRun es 1 fun j => do
      let e := f[j]?.getD (0, 0)
      let at_ := va + BitVec.ofNat 64 (8 * j)
      let p ← wholePlace j .store at_ 8
      writePlace .unit 0 since j none at_.toNat p (bytesOfNat (e.2.toNat * 2 ^ 32 + e.1.toNat) 8) (List.replicate 8 255)) s

/-- flen (R140). -/
def execFlen (d a : BitVec 6) (s : State) : Result :=
  control {} (seq do
    let _ ← fibreCap
    wrX d (BitVec.ofNat 64 ((← getC).fAt a.toNat).length)) s

/-- fclr (R140). -/
def execFclr (d : BitVec 6) (s : State) : Result :=
  control {} (seq do
    let _ ← fibreCap
    wrF d []) s

/-- fcopy (R140). -/
def execFcopy (d a : BitVec 6) (s : State) : Result :=
  control {} (seq do
    let _ ← fibreCap
    let f ← rdF a
    wrF d f
    chargePairs (2 * f.length)) s

/-! ## The progress register (R135, R136) -/

def fprogTag (w : Word) : Nat := field 63 61 w.toNat

/-- The progress value of a tag and its fields. -/
def progress (tag state : Nat) : Word := BitVec.ofNat 64 (tag * 2 ^ 61 + state)

/-- A pass's start (R136): whether it continues; another instruction's tag traps 0x02 with fprog. -/
def passStart (tag : Nat) : Exec Bool := do
  let w := (← getC).fprog
  if fprogTag w = 0 then return false
  if fprogTag w ≠ tag then trap 2 w
  return true

def setProgress (w : Word) : Exec Unit := modC fun c => { c with fprog := w }

/-! ## Walking a compressed level (R141, R142) -/

/-- fwalk (R142): its checks stand in the rule's order. Of several misaligned addresses ptr is reported before crd, and crd before
val (log entry 66). -/
def execFwalk (d a b : BitVec 6) (s : State) : Result :=
  control {} (seq do
    let cap ← fibreCap
    let xr ← rdX a
    let p ← rdX b
    if xr.toNat % 32 ≠ 0 then trap 3 xr
    let rec_ ← fibreRead 0 xr 32
    if field 255 192 rec_ ≠ 0 then trap 2 xr
    let val : Word := BitVec.ofNat 64 (field 191 128 rec_)
    let crd : Word := BitVec.ofNat 64 (field 127 64 rec_)
    let ptr : Word := BitVec.ofNat 64 rec_
    let c ← getC
    let w := typeWidth c.fmt (modeStype c.mode)
    if val ≠ 0 then needMode ((w == 8 || w == 16 || w == 32) && modeScale c.mode == 0)
    if ptr.toNat % 4 ≠ 0 then trap 3 ptr
    if crd.toNat % 4 ≠ 0 then trap 3 crd
    if val ≠ 0 && val.toNat % (w / 8) ≠ 0 then trap 3 val
    let on ← passStart 1
    let lo ← fibreRead 0 (ptr + 4 * p) 4 [(0, (ptr + 4 * p).toNat, 4), (0, (ptr + 4 * p + 4).toNat, 4)]
    let hi ← fibreRead 0 (ptr + 4 * p + 4) 4
    if hi < lo then trap 2 p
    let k := if on then field 31 0 c.fprog.toNat else 0
    if hi - lo < k then trap 2 c.fprog
    let m := min cap (hi - lo - k)
    let crdVa (j : Nat) : Word := crd + BitVec.ofNat 64 (4 * j)
    let valVa (j : Nat) : Word := val + BitVec.ofNat 64 (j * (w / 8))
    let pieces := (List.range (m + 1)).flatMap fun n =>
      let j := lo + k + n - 1
      [(n - 1, (crdVa j).toNat, 4)] ++ (if val = 0 then [] else [(n - 1, (valVa j).toNat, w / 8)])
    let crdAt (n j : Nat) : Exec (BitVec 32) := do return BitVec.ofNat 32 (← fibreRead n (crdVa j) 4 pieces)
    let prev : Option (BitVec 32) ← if k = 0 then pure none else some <$> crdAt 0 (lo + k - 1)
    let f : Fibre ← (List.range m).mapM fun n => do
      let j := lo + k + n
      let q ← crdAt n j
      let v ← if val = 0 then pure j else fibreRead n (valVa j) (w / 8) pieces
      return (q, BitVec.ofNat 32 v)
    match firstUnordered (lo + k) prev (f.map (·.1)) with
    | some j => trap 0x0B (BitVec.ofNat 64 j)
    | none =>
      wrF d f
      chargePairs m
      setProgress (if lo + k + m < hi then progress 1 ((k + m) % 2 ^ 32) else 0)) s

/-! ## Joins (R143 to R146) -/

/-- An exact value of a join: an integer or a floating value. -/
inductive JVal where
  | int (x : Int)
  | val (v : Val)
  deriving DecidableEq, Repr

/-- The value that a join's result holds (R146). -/
def Conv.result (o : Conv) (x : Nat) : JVal :=
  if isInt o.u then .int (intValue o.u o.wd x) else .val ((floatFmt o.fmt o.u).value x)

/-- The value of a pair's code, read in stype. -/
def Conv.source (o : Conv) (x : BitVec 32) : JVal :=
  if isInt o.t then .int (intValue o.t o.w x.toNat) else .val ((floatFmt o.fmt o.t).value (x.toNat % 2 ^ o.w))

/-- A value at a coordinate that one input holds (R143): narrowed or converted. -/
def Conv.lone (o : Conv) : JVal → Rounded
  | .int x => (narrow o.sat o.u o.wd x, 0)
  | .val v => (floatFmt o.fmt o.u).round o.rnd o.sat 0 v

/-- combine (R143). -/
def Conv.combine (o : Conv) (k : Nat) (a b : JVal) : Rounded :=
  match a, b with
  | .int x, .int y =>
    (narrow o.sat o.u o.wd
      (match k with | 0 => x * y | 1 => x + y | 2 => min x y | 3 => max x y | 4 => x | _ => y), 0)
  | .val x, .val y =>
    let g := floatFmt o.fmt o.u
    match k with
    | 0 => roundVal g o.rnd false 0 (x.mul y)
    | 1 => roundVal g o.rnd false 0 (x.add o.rnd y)
    | 2 => pickRounded g o.rnd 0 true x y
    | 3 => pickRounded g o.rnd 0 false x y
    | 4 => o.lone a
    | _ => o.lone b
  | _, _ => (0, 0)

/-- The values present at a coordinate, combined in ascending register number (R146). -/
def Conv.joinAll (o : Conv) (k : Nat) : List JVal → Rounded
  | [] => (0, 0)
  | [a] => o.lone a
  | a :: b :: r =>
    r.foldl (fun acc v => let q := o.combine k (o.result acc.1) v; (q.1, acc.2 ||| q.2)) (o.combine k a b)

/-- The checks of R134 on a join's mode. -/
def joinMode : Exec Conv := do
  let o ← getConv
  needMode (isInt o.t == isInt o.u && o.w ≤ 32 && o.wd ≤ 32 && o.rnd != 5 && modeScale (← getMode) == 0)
  return o

/-- finter (R144): one pair for each coordinate that both inputs hold. -/
def execFinter (d a b : BitVec 6) (k : BitVec 3) (s : State) : Result :=
  control {} (seq do
    let _ ← fibreCap
    let o ← joinMode
    let f ← rdF a
    let g ← rdF b
    let out := f.filterMap fun e => (g.find? (·.1 == e.1)).map fun e' =>
      (e.1, o.combine k.toNat (o.source e.2) (o.source e'.2))
    wrF d (out.map fun e => (e.1, BitVec.ofNat 32 e.2.1))
    chargePairs (f.length + g.length + out.length)
    raise (out.foldl (fun fl e => fl ||| e.2.2) 0)) s

/-- The least coordinate among the inputs' current pairs. -/
def leastCrd (ins : List Fibre) : Option (BitVec 32) :=
  (ins.filterMap fun f => f.head?.map (·.1)).foldl
    (fun acc c => match acc with | none => some c | some b => some (if c < b then c else b)) none

/-- A merge of the inputs into at most n pairs: the pairs, their flags, and what is left of the inputs (R145, R146). -/
def mergePass (o : Conv) (k : Nat) : Nat → List Fibre → Fibre × Flags × List Fibre
  | 0, ins => ([], 0, ins)
  | n + 1, ins =>
    match leastCrd ins with
    | none => ([], 0, ins)
    | some c =>
      let here (f : Fibre) : Bool := f.head?.any (·.1 == c)
      let vs := ins.filterMap fun f => if here f then f.head?.map fun e => o.source e.2 else none
      let v := o.joinAll k vs
      let r := mergePass o k n (ins.map fun f => if here f then f.tail else f)
      ((c, BitVec.ofNat 32 v.1) :: r.1, v.2 ||| r.2.1, r.2.2)

/-- One pass over inputs from their cursors (R136): the output, and the new cursors where output remains. -/
def joinPass (o : Conv) (k cap : Nat) (d : BitVec 6) (ins : List (Fibre × Nat)) : Exec (Option (List Nat)) := do
  let r := mergePass o k cap (ins.map fun e => e.1.drop e.2)
  wrF d r.1
  chargePairs (((ins.map fun e => (e.1.drop e.2).length).sum - (r.2.2.map (·.length)).sum) + r.1.length)
  raise r.2.1
  if r.2.2.all (·.isEmpty) then return none
  return some ((ins.zip r.2.2).map fun e => e.1.1.length - e.2.length)

/-- funion (R145). The source fibres' poison is met before the cursors are checked (log entry 66); oc wraps in its field (log entry
67). -/
def execFunion (d a b : BitVec 6) (k : BitVec 3) (s : State) : Result :=
  control {} (seq do
    let cap ← fibreCap
    let o ← joinMode
    let on ← passStart 2
    let w := (← getC).fprog
    let f ← rdF a
    let g ← rdF b
    let ia := if on then field 11 0 w.toNat else 0
    let ib := if on then field 23 12 w.toNat else 0
    let oc := if on then field 60 48 w.toNat else 0
    if f.length < ia || g.length < ib then trap 2 w
    match (← joinPass o k.toNat cap d [(f, ia), (g, ib)]) with
    | some [x, y] => setProgress (progress 2 ((oc + cap) % 2 ^ 13 * 2 ^ 48 + y * 2 ^ 12 + x))
    | _ => setProgress 0) s

/-- fmerge (R146); poison and oc as for funion. -/
def execFmerge (d a b : BitVec 6) (k : BitVec 3) (s : State) : Result :=
  control {} (seq do
    let cap ← fibreCap
    let o ← joinMode
    let on ← passStart 3
    let w := (← getC).fprog
    let n := b.toNat - a.toNat + 1
    let fs ← (List.range n).mapM fun j => rdF (a + BitVec.ofNat 6 j)
    let cur (j : Nat) : Nat := if on then field (12 * j + 11) (12 * j) w.toNat else 0
    let oc := if on then field 60 48 w.toNat else 0
    let ins := fs.zip ((List.range n).map cur)
    if (ins.any fun e => e.1.length < e.2) || ((List.range 4).any fun j => n ≤ j && cur j ≠ 0) then trap 2 w
    match (← joinPass o k.toNat cap d ins) with
    | some cs => setProgress (progress 3 ((oc + cap) % 2 ^ 13 * 2 ^ 48 + cs.foldr (fun c acc => c + acc * 2 ^ 12) 0))
    | none => setProgress 0) s

/-! ## Dense vectors and arrays (R147 to R149) -/

/-- The mode's checks of fcompact and fexpand (R134, R60). -/
def denseMode : Exec Nat := do
  let c ← getC
  let w := typeWidth c.fmt (modeStype c.mode)
  needMode (w ≤ 32 && modeScale c.mode == 0)
  checkVl w
  return w

/-- fcompact (R147); oc wraps in its field (log entry 67). -/
def execFcompact (d a b : BitVec 6) (_c : Bool) (s : State) : Result :=
  control {} (seq do
    let cap ← fibreCap
    let w ← denseMode
    let on ← passStart 4
    let c ← getC
    let i := if on then field 15 0 c.fprog.toNat else 0
    let oc := if on then field 31 16 c.fprog.toNat else 0
    if c.vl < i then trap 2 c.fprog
    let p ← rdP b.toNat
    checkSrcs [(a, w)]
    let es := (← activeElems).filter fun e => i ≤ e && p.getLsbD e
    let va ← srcElems a w c.vl (es.take cap)
    wrF d ((es.take cap).map fun e => (BitVec.ofNat 32 e, BitVec.ofNat 32 (getElem va e w)))
    chargePairs (es.take cap).length
    match es.drop cap with
    | [] => setProgress 0
    | e :: _ => setProgress (progress 4 ((oc + cap) % 2 ^ 16 * 2 ^ 16 + e))) s

/-- fexpand (R148). -/
def execFexpand (d a : BitVec 6) (s : State) : Result :=
  control {} (seq do
    let _ ← fibreCap
    let w ← denseMode
    let f ← rdF a
    let n ← dstV d
    wrElems n w ((← activeElems).map fun i =>
      (i, match f.find? (·.1.toNat == i) with | some e => e.2.toNat % 2 ^ w | none => 0))
    chargePairs f.length) s

/-- The element bytes of a fibre's dense array, and its base (R149). -/
def arrayBase (a : BitVec 6) : Exec (Nat × Word) := do
  let c ← getC
  let w := typeWidth c.fmt (modeStype c.mode)
  needMode ((w == 8 || w == 16 || w == 32) && modeScale c.mode == 0)
  let va ← rdX a
  if va.toNat % (w / 8) ≠ 0 then trap 3 va
  return (w / 8, va)

/-- fgath (R149), its checks in the order of fst (log entry 66). -/
def execFgath (d a : BitVec 6) (s : State) : Result :=
  control {} (do
    let _ ← fibreCap
    let (b, va) ← arrayBase a
    let f ← rdF d
    let es ← walkPairs f.length
    let at_ (j : Nat) : Word := va + BitVec.ofNat 64 ((f[j]?.getD (0, 0)).1.toNat * b)
    let pieces := es.map fun j => (j, (at_ j).toNat, b)
    walkRun es 2 fun j => do
      let e := f[j]?.getD (0, 0)
      let x ← fibreRead j (at_ j) b pieces
      modC fun c => { c with f := c.f.setIfInBounds d.toNat ((c.fAt d.toNat).set j (e.1, BitVec.ofNat 32 x)) }) s

/-- fscat (R149), its checks in the order of fst (log entry 66). -/
def execFscat (d a : BitVec 6) (s : State) : Result :=
  control {} (do
    let _ ← fibreCap
    let (b, va) ← arrayBase a
    let f ← rdF d
    let es ← walkPairs f.length
    let since := (← pendingOut).length
    walkRun es 1 fun j => do
      let e := f[j]?.getD (0, 0)
      let at_ := va + BitVec.ofNat 64 (e.1.toNat * b)
      let p ← wholePlace j .store at_ b
      writePlace .unit 0 since j none at_.toNat p (bytesOfNat e.2.toNat b) (List.replicate b 255)) s

end Sys2Proof.Machine
end

