-- ==== Sys2Proof/Machine/Links.lean ====
section
/-! DEFINITION. The fabric and the host link (15), combining (13, R291, R292) and silence on the fabric (16, R353 to R355). An
event that cannot take place leaves the state as it is. -/

namespace Sys2Proof.Machine

/-- A microsecond, in the units of State.time. -/
def microsecond : Nat := 45045000

/-! ## Outstanding requests -/

def State.request (s : State) (id : Nat) : Option FabricReq := s.fabric.find? (·.id == id)

/-- The requests folded into one, at any depth, with itself (R291). -/
def State.within (s : State) : Nat → Nat → List FabricReq
  | 0, _ => []
  | fuel + 1, id =>
    match s.request id with
    | some q => q :: q.parts.flatMap (s.within fuel)
    | none => []

def State.family (s : State) (q : FabricReq) : List FabricReq := s.within (s.fabric.length + 1) q.id

/-- The requests as their threads issued them, in split order. -/
def State.leaves (s : State) (q : FabricReq) : List FabricReq := (s.family q).filter (·.parts.isEmpty)

/-- Some request outside a family must be performed before one inside it. -/
def State.waitsFor (s : State) (family : List FabricReq) : List FabricReq :=
  s.fabric.filter fun m => m.parts.isEmpty && !family.any (·.id == m.id) && family.any fun l => l.parts.isEmpty && m.precedes l

/-- A request is complete at its source: it and what is folded into it leave the table, each constituent with its code. -/
def State.failRequest (s : State) (q : FabricReq) (code : Nat) : State :=
  let fam := s.family q
  let s := (s.leaves q).foldl (fun s l => s.finish l code []) s
  { s with fabric := s.fabric.filter fun m => !fam.any (·.id == m.id) }

/-- Outstanding requests that a test picks complete with a code; one whose reply has arrived is split as it stands. -/
def State.failAll (s : State) (code : Nat) (p : FabricReq → Bool) : State :=
  (s.fabric.filter fun q => !q.folded && q.answer.isNone && p q).foldl (fun s q => s.failRequest q code) s

/-! ## Replies (R327) -/

/-- The lines of device memory that an arriving access may write. -/
def arrivalLines (off : Nat) (op : ArrivingOp) : List Nat :=
  match op with
  | .load _ => []
  | .credit post _ => distinct [off / 128, (off + 16 + post / 8) / 128]
  | _ => [off / 128]

/-- A request wants a returned value: a combined one when any of its constituents does (R291). -/
def State.wants (s : State) (q : FabricReq) : Bool :=
  (s.leaves q).any fun l => match l.reply with | .atomic _ _ _ _ => true | _ => false

/-- The bytes that a request is answered with under code 0. -/
def State.sizeOf (s : State) (q : FabricReq) : Nat :=
  match q.op with
  | .load n => n
  | .amo _ dword _ _ => if s.wants q then (if dword then 8 else 4) else 0
  | _ => 0

/-- A request's reply: a combined request's waits to be split. -/
def State.replied (s : State) (q : FabricReq) (code : Nat) (data : List Byte) : State :=
  if q.parts.isEmpty then s.finish q code data
  else { s with fabric := s.fabric.map fun m => if m.id == q.id then { m with answer := some (code, data) } else m }

/-- The requests that travel with one (R324, R328). -/
def State.mates (s : State) (q : FabricReq) : List FabricReq :=
  match q.batch with
  | some b => s.fabric.filter fun m => m.batch.any (·.id == b.id)
  | none => [q]

/-- The replies of requests that travel together (R329), a code for each, or none where they do not fit them. -/
def State.packetReplies (s : State) : List FabricReq → List Nat → List Byte → Option State
  | [], [], [] => some s
  | q :: qs, code :: codes, data =>
    let n := if code = 0 then s.sizeOf q else 0
    if 4 < code || data.length < n then none
    else (s.replied q code (data.take n)).packetReplies qs codes (data.drop n)
  | _, _, _ => none

/-- The codes of requests that travel together: one read of a line has one code, a packet one for each element. -/
def spreadCodes (mates : List FabricReq) (codes : List Nat) : List Nat :=
  match mates, codes with
  | q :: _, [code] => if q.batch.any (·.form == .line) then List.replicate mates.length code else codes
  | _, _ => codes

/-- Requests to the device's own number are performed by the device (R320). -/
def State.turnRound (s : State) (qs : List FabricReq) : State :=
  qs.foldl (fun s q =>
    let r := s.arrive (some q.header) q.off q.op
    r.1.replied q r.2.1 r.2.2) s

/-- A flit has been received on a port (R353). -/
def State.heard (s : State) (port : Nat) : State := { s with portHeard := s.portHeard.setIfInBounds port s.time }

/-- The reply of an outstanding request, or of those that travel with it. Requests that have had to wait at their core leave it first
(R322). What another device answers is the event's, with the port on which it arrives (R322). -/
def State.fabricReply (s : State) (id port : Nat) (codes : List Nat) (data : List Byte) : State :=
  match s.request id with
  | none => s
  | some q =>
    let mates := s.mates q
    if q.folded || q.answer.isSome then s
    else if mates.any (!·.sent) then (if mates.any s.waitsToLeave then s else (mates.filter (!·.sent)).foldl State.depart s)
    else if !(s.waitsFor (mates.flatMap s.family)).isEmpty then s
    else if s.devnum = some q.dev then
      if s.held none (mates.flatMap fun m => arrivalLines m.off m.op) then s else s.turnRound mates
    else if s.ports[port]?.getD 0 = 0 then s
    else ((s.heard port).packetReplies mates (spreadCodes mates codes) data).getD s

/-- FABRIC_REPLY (R327). -/
def execFabricReply (id port : Nat) (codes : List Nat) (data : List (BitVec 8)) (s : State) : Result :=
  event (·.fabricReply id port codes data) s

/-! ## Requests from other devices (R326 to R329) -/

/-- The device's response goes by its own routing table toward the source device (R322); one to a request without a tenant header goes
back by the port that it came from. -/
def State.respond (s : State) (port : Nat) (header : Option (BitVec 160)) (off : Nat) (codes : List Nat) (data : List Byte) : State :=
  let a : Answer := match header.filter headerOk with
    | some h => { dev := some (headerSdev h), port := some (s.routePort (headerSdev h) off), codes, data }
    | none => { dev := none, port := some port, codes, data }
  { s with answers := s.answers ++ [a] }

/-- One arriving access, checked and performed (R326). -/
def State.arrival (s : State) (r : Arriving) : State :=
  if !r.wf || s.ports[r.port]?.getD 0 = 0 || s.held none (arrivalLines r.offset r.op) then s else
  let a := (s.heard r.port).arrive r.header r.offset r.op
  a.1.respond r.port r.header r.offset [a.2.1] a.2.2

/-- FABRIC_REQUEST_ARRIVAL (R326). -/
def execFabricRequestArrival (r : Arriving) (s : State) : Result := event (·.arrival r) s

/-- The access that element k of an extension packet stands for (R329). -/
def packetAccess (p : ExtPacket) (k : Nat) : ArrivingOp :=
  let n := 2 ^ p.esize
  let x : Word := p.data[k]?.getD 0
  match p.op with
  | .load => .load n
  | .store => .store (bytesOfNat x.toNat n) (List.replicate n 255)
  | .vamo | .vamoRet => .amo p.aop (p.esize == 3) x 0

/-- The elements of a packet in ascending index, each checked by itself: codes and returned data (R329). -/
def packetExpand (p : ExtPacket) : Nat → Nat → State → State × List Nat × List Byte
  | 0, _, s => (s, [], [])
  | fuel + 1, k, s =>
    let a := s.arrive (some p.header) (p.element k).toNat (packetAccess p k)
    let rest := packetExpand p fuel (k + 1) a.1
    let data := if p.op == .vamo then [] else a.2.2
    (rest.1, a.2.1 :: rest.2.1, data ++ rest.2.2)

def State.packet (s : State) (p : ExtPacket) : State :=
  if !p.wf || s.ports[p.port]?.getD 0 = 0
      || s.held none (distinct ((List.range p.n).flatMap fun k => arrivalLines (p.element k).toNat (packetAccess p k))) then s
  else
    let a := packetExpand p p.n 0 (s.heard p.port)
    a.1.respond p.port (some p.header) (p.element 0).toNat a.2.1 a.2.2

/-- EXTENSION_PACKET_ARRIVAL (R329). -/
def execExtensionPacketArrival (p : ExtPacket) (s : State) : Result := event (·.packet p) s

/-! ## Combining (R291, R292) -/

/-- One place before another in the split order of a stage: by input port, then by arrival there (R292). -/
def before (a b : Nat × Nat) : Bool := a.1 < b.1 || (a.1 == b.1 && a.2 < b.2)

/-- Requests that meet at a stage may combine in this order (R291, R292). -/
def State.mayFold (s : State) (stage : Nat) (a b : FabricReq) : Bool :=
  let la := s.leaves a
  let lb := s.leaves b
  a.waitsAt stage && b.waitsAt stage && a.id != b.id && a.dev == b.dev && a.off == b.off && a.parcel == b.parcel
    && a.port == b.port && a.header == b.header && a.addend.map (·.1) == b.addend.map (·.1)
    && s.cycle ≤ a.issued + 64 && s.cycle ≤ b.issued + 64 && before a.last b.first
    && (la.all fun l => lb.all fun m => !m.precedes l)

/-- A request that stands for two others. -/
def FabricReq.fold (a b : FabricReq) (id : Nat) (dword : Bool) (sum : Nat) : FabricReq :=
  { a with id, op := .amo .add dword (BitVec.ofNat 64 sum) 0, reply := .combined, parts := [a.id, b.id],
           issued := min a.issued b.issued, last := b.last }

/-- The requests that one must wait for, and those that these wait for: whether it comes back to itself. -/
def State.circular (s : State) : Nat → List FabricReq → Bool
  | 0, _ => false
  | fuel + 1, family =>
    let before := s.waitsFor family
    let more := (s.fabric.filter fun q => !q.folded && before.any fun m => (s.family q).any (·.id == m.id)).flatMap s.family
    if more.any fun m => family.any (·.id == m.id) then true
    else if more.all fun m => family.any (·.id == m.id) then false
    else s.circular fuel (family ++ more)

def State.combine (s : State) (stage first second : Nat) : State :=
  match s.request first, s.request second with
  | some a, some b =>
    match a.addend, b.addend with
    | some (dword, x), some (_, y) =>
      if !s.mayFold stage a b then s else
      let q := a.fold b s.nextId dword ((x + y) % 2 ^ (if dword then 64 else 32))
      let marked := s.fabric.map fun m => if m.id == first || m.id == second then { m with folded := true } else m
      let u := { s with nextId := s.nextId + 1, fabric := marked ++ [q] }
      if u.circular (u.fabric.length + 1) (u.family q) then s else u
    | _, _ => s
  | _, _ => s

/-- FABRIC_COMBINE (R291). -/
def execFabricCombine (stage first second : Nat) (s : State) : Result := event (·.combine stage first second) s

/-- COMBINE_WINDOW_EXPIRY (R291): a request has waited 64 cycles at its stage, or found the buffer there full, and passes on to the next
stage. -/
def State.passStage (s : State) (id : Nat) : State :=
  match s.request id with
  | none => s
  | some q =>
    if q.standsAt q.stage && (!q.waiting || q.issued + 64 ≤ s.cycle) then
      let place := (stageInput (q.stage + 1) q.first.1 q.port, s.nextId)
      { s with
        nextId := s.nextId + 1
        fabric := s.fabric.map fun m =>
          if m.id == id then
            { m with stage := q.stage + 1, issued := s.cycle, waiting := s.bufferFree (q.stage + 1) q.port, first := place, last := place }
          else m }
    else s

def execCombineWindowExpiry (id : Nat) (s : State) : Result := event (·.passStage id) s

/-- The replies of a combined request's constituents in split order (R292). -/
def State.split (s : State) (code : Nat) (dword : Bool) : Nat → List Nat → State
  | _, [] => s
  | running, id :: rest =>
    match s.request id with
    | none => s.split code dword running rest
    | some q =>
      let n := if dword then 8 else 4
      let data := if code = 0 && s.wants q then bytesOfNat running n else []
      let y := match q.addend with | some e => e.2 | none => 0
      (s.replied q code data).split code dword ((running + y) % 2 ^ (8 * n)) rest

def State.splitReply (s : State) (id : Nat) : State :=
  match s.request id with
  | none => s
  | some q =>
    match q.answer, q.addend with
    | some (code, data), some (dword, _) =>
      let s := { s with fabric := s.fabric.filter (·.id != id) }
      s.split code dword (natOfBytes data) q.parts
    | _, _ => s

/-- REPLY_SPLIT (R292). -/
def execReplySplit (id : Nat) (s : State) : Result := event (·.splitReply id) s

/-! ## Links (R323, R334, R353, R392) -/

/-- A port's width as the link-status record codes it. -/
def widthCode (w : Nat) : Nat := if w = 1 then 1 else if w = 2 then 2 else if w = 4 then 3 else 0

def fyzCode (w : Nat) : Nat := if w = 8 then 1 else if w = 16 then 2 else if w = 32 then 3 else 0

/-- The payload of the link-status record (R392). -/
def State.linkStatus (s : State) : Nat :=
  let ports := ((List.range 32).zip s.ports.toList).foldl (fun x e => x + widthCode e.2 * 4 ^ e.1) 0
  ports + fyzCode s.fyzWidth * 2 ^ 66 + (if s.fyzWidth = 0 then 0 else s.fyzVersion) * 2 ^ 68

def State.sendLinkStatus (s : State) : State :=
  s.send { code := 0x85, parcel := 0, seq := 0, status := 0, len := 16, payload := s.linkStatus }

def State.portWidth (s : State) (k : Nat) : Nat := s.ports[k]?.getD 0

/-- IDLE_FLIT (R353). -/
def execIdleFlit (port : Nat) (s : State) : Result :=
  event (fun s =>
    if s.portWidth port ≠ 0 && (s.portSent[port]?.getD 0) + microsecond ≤ s.time then
      { s with portSent := s.portSent.setIfInBounds port s.time } else s) s

/-- IDLE_FLIT_RECEIVED (R353). -/
def execIdleFlitReceived (port : Nat) (s : State) : Result :=
  event (·.heard port) s

/-- LINK_DOWN (R353): requests sent on the port and not answered complete with code 5. -/
def State.portDown (s : State) (port : Nat) : State :=
  if s.portWidth port ≠ 0 && (s.portHeard[port]?.getD 0) + 8 * microsecond ≤ s.time then
    ({ s with ports := s.ports.setIfInBounds port 0 }.failAll 5 fun q => q.sent && q.port == port).sendLinkStatus
  else s

def execLinkDown (port : Nat) (s : State) : Result := event (·.portDown port) s

/-- A link completes training (R323, R334): the XD9 implements version 1 of the Fyzozor link alone. -/
def State.trained (s : State) (link : Link) (width version : Nat) : State :=
  match link with
  | .port k =>
    if k < 32 && s.portWidth k = 0 && (width = 1 || width = 2 || width = 4) then
      { s with ports := s.ports.setIfInBounds k width, portHeard := s.portHeard.setIfInBounds k s.time }.sendLinkStatus
    else s
  | .fyzozor =>
    if s.fyzWidth = 0 && (width = 8 || width = 16 || width = 32) && width ≤ s.fyzMax && version = 1 then
      { s with fyzWidth := width, fyzVersion := 1 }.sendLinkStatus
    else s

/-- LINK_TRAINED (R323). -/
def execLinkTrained (link : Link) (width version : Nat) (s : State) : Result := event (·.trained link width version) s

/-- LANE_FAILURE (R334): the Fyzozor link goes down, to train again at the next narrower width. Open chunks with stores to host memory,
which cannot be performed now, are squashed: executed again, the stores meet the link as it is (log entry 73). -/
def State.laneFails (s : State) (link : Link) : State :=
  match link with
  | .port _ => s
  | .fyzozor =>
    if s.fyzWidth = 0 then s else
    let s := s.squashIf fun _ c => c.stores.any fun e => ofHost e.1
    { s with fyzWidth := 0, fyzMax := if s.fyzWidth = 32 then 16 else if s.fyzWidth = 16 then 8 else 0 }.sendLinkStatus

def execLaneFailure (link : Link) (s : State) : Result := event (·.laneFails link) s

/-! ## Heartbeats (R354, R355) -/

/-- HEARTBEAT (R354). -/
def execHeartbeat (s : State) : Result :=
  event (fun s => if s.beatSent + microsecond ≤ s.time then { s with beatSent := s.time } else s) s

/-- HEARTBEAT_RECEIVED (R354). -/
def execHeartbeatReceived (dev : Nat) (s : State) : Result :=
  event (fun s => if dev < 1024 then { s with beatHeard := tput dev s.time s.beatHeard } else s) s

/-- A device is marked lost (R355): every outstanding request to it completes with code 6. -/
def State.markLost (s : State) (dev : Nat) : State :=
  { s with lost := mput dev s.lost }.failAll 6 (·.dev == dev)

/-- A device that may be marked: another one, not marked yet. -/
def State.mayLose (s : State) (dev : Nat) : Bool := dev < 1024 && s.devnum != some dev && !s.lost.contains dev

/-- PEER_LOST (R354): silence of 8 µs; the down notice goes out, to the host too (R352, R391). -/
def execPeerLost (dev : Nat) (s : State) : Result :=
  event (fun s =>
    if s.mayLose dev && tget 0 dev s.beatHeard + 8 * microsecond ≤ s.time then
      (s.markLost dev).send { code := 0x82, parcel := 0, seq := 0, status := 0, len := 8, payload := dev }
    else s) s

/-- DOWN_NOTICE_RECEIVED (R354). -/
def execDownNoticeReceived (dev : Nat) (s : State) : Result :=
  event (fun s => if s.mayLose dev then s.markLost dev else s) s

/-! ## The host's own accesses (R335) -/

/-- n bytes that the host may reach at once: of one line, in device memory over the link, or in its own memory. -/
def State.hostReach (s : State) (pa n : Nat) : Bool :=
  1 ≤ n && pa % 128 + n ≤ 128 && ((pa + n ≤ 2 ^ 39 && s.fyzWidth ≠ 0) || (2 ^ 44 ≤ pa && pa + n ≤ 2 ^ 45))

/-- HOST_WRITE (R335). -/
def execHostWrite (pa : Nat) (data : List (BitVec 8)) (s : State) : Result :=
  event (fun s =>
    if s.hostReach pa data.length && !s.held none [pa / 128] then s.unit none (writesOf pa data) else s) s

/-- What the host reads, marked poisoned where it is (R350). -/
def State.hostAnswer (s : State) (pa n : Nat) : Answer :=
  { dev := none, port := none, codes := [if s.poisonedAt pa then 4 else 0], data := s.mem.bytes pa n }

/-- HOST_ATOMIC (R335). Poisoned data are not changed, as for the fabric (R327). -/
def State.hostAmo (s : State) (pa : Nat) (op : AmoOp) (dword : Bool) (value expected : Word) : State :=
  let n := if dword then 8 else 4
  if !s.hostReach pa n || pa % n ≠ 0 || 2 ^ 39 ≤ pa || s.held none [pa / 128] then s else
  let a := s.hostAnswer pa n
  let u := (s.performArrival pa (.amo op dword value expected)).1
  { u with answers := u.answers ++ [a] }

def execHostAtomic (pa : Nat) (op : AmoOp) (dword : Bool) (value expected : BitVec 64) (s : State) : Result :=
  event (·.hostAmo pa op dword value expected) s

/-- HOST_READ (R335). -/
def execHostRead (pa n : Nat) (s : State) : Result :=
  event (fun s =>
    if s.hostReach pa n then { s.countDead pa with answers := s.answers ++ [s.hostAnswer pa n] } else s) s

end Sys2Proof.Machine
end

