-- ==== Sys2Proof/Machine/Regions.lean ====
section
/-! DEFINITION. The instructions of major 0x38 (11, R237 to R242, R247): managed regions, cache ways, and live and dead blocks. -/

namespace Sys2Proof.Machine

/-! ## Ranges (R238) -/

/-- The pieces of a range page by page: virtual address and bytes. -/
def pagesOf : Nat → Nat → Nat → List (Nat × Nat)
  | 0, _, _ => []
  | fuel + 1, a, n =>
    let k := min n (2 ^ 16 - a % 2 ^ 16)
    (a, k) :: (if n ≤ k then [] else pagesOf fuel (a + k) (n - k))

/-- The checks of R238, and the range's pages with their bytes; none where the range is empty. -/
def rangePages (need : Need) (blocks : Bool) (a n : Word) : Exec (List (Access × Nat)) := do
  if n = 0 then return []
  if 2 ^ 55 < a.toNat + n.toNat then trap 2 n
  if blocks && a.toNat % 4096 ≠ 0 then trap 3 a
  if blocks && n.toNat % 4096 ≠ 0 then trap 3 n
  let ps ← (pagesOf (n.toNat / 2 ^ 16 + 2) a.toNat n.toNat).mapM fun e => do return (← xlate need e.1, e.2)
  match ps.find? fun e => blocks && (2 ≤ e.1.cls || e.1.window == .host) with
  | some e => trap 5 (word e.1.va)
  | none => return ps

/-- The lines of device memory that a range's pages cover. -/
def deviceLines (ps : List (Access × Nat)) : List Nat :=
  ps.flatMap fun e => if e.1.window == .device then linesFrom e.1.pa e.2 else []

/-- A write of these lines that the priority ticket's holder stands in the way of waits (R279). -/
def awaitHeld (lines : List Nat) : Exec Unit := do
  if (← getS).held (some (← getT).tid) lines then throw .stall

/-- A squash that would take the priority ticket's holder waits (R279). -/
def awaitPinned (p : Thread → Chunk → Bool) : Exec Unit := do
  if (← getS).pins (some (← getT).tid) p then throw .stall

/-! ## Write-back and invalidation (R242) -/

/-- The lines of a range of which the executing die holds untracked copies, its write-backs on their way performed. -/
def heldCopies (a b : BitVec 6) : Exec (Nat × List Nat) := do
  let va ← rdX a
  let n ← rdX b
  let ps ← rangePages .load false va n
  let die ← dieNum
  let ls := deviceLines ps
  awaitHeld (ls ++ viewLines die ls)
  modS fun s => s.settle fun w => w.die == die && ls.contains w.line
  let s ← getS
  return (die, ls.filter (s.hasCopy die))

/-- rwb (R242). -/
def execRwb (a b : BitVec 6) (s : State) : Result :=
  control { rule := .alone } (seq do
    let (die, ls) ← heldCopies a b
    modS fun s => ls.foldl (fun s l => s.writeBack die l false) s) s

/-- rinv (R242). -/
def execRinv (a b : BitVec 6) (s : State) : Result :=
  control { rule := .alone } (seq do
    let (die, ls) ← heldCopies a b
    modS fun s => ls.foldl (fun s l => (s.squashView die l).writeBack die l true) s) s

/-! ## Managed regions (R240, R241) -/

def Region.meets (r : Region) (first last : Nat) : Bool := r.first ≤ last && first ≤ r.last

/-- An open chunk has touched a span of virtual lines through an MGD page. -/
def Chunk.usesSpan (c : Chunk) (first last : Nat) : Bool :=
  c.pages.any fun e => pteClass e.leaf = 1 && (c.reads ++ c.writes).any fun l =>
    let base := ptePpn e.leaf * 65536
    let pa := l * 128 % viewBase
    base ≤ pa && pa < base + e.size && first ≤ (e.va + pa - base) / 128 && (e.va + pa - base) / 128 ≤ last

/-- A chunk of another thread of a die and parcel that has touched a span of managed lines. -/
def spanUser (tid die parcel first last : Nat) (t : Thread) (c : Chunk) : Bool :=
  t.tid != tid && t.parcel == parcel && t.core.any (dieOf · == die) && c.usesSpan first last

/-- A region of a die begins or ends: other chunks of the die and parcel that have touched its span are squashed, since the
die gives up the tokens that they hold. -/
def State.squashSpan (s : State) (tid die parcel first last : Nat) : State := s.squashIf (spanUser tid die parcel first last)

/-- The lowest region number that a parcel does not use on a die. -/
def lowestFree (used : List Nat) : Nat := ((List.range 257).find? fun k => !used.contains k).getD 256

/-- rgndecl (R240). -/
def execRgndecl (d a : BitVec 6) (s : State) : Result :=
  control { rule := .alone } (seq do
    let va ← rdX a
    let (p, base) ← readLocal false va
    if p.ranks ≠ 1 then trap 2 va
    if 2 ^ 55 ≤ p.spanEnd base then trap 8 va
    let first := base.toNat / 128
    let last := p.spanEnd base / 128
    let die ← dieNum
    let t ← getT
    let own := ((← getS).regionsOf die).filter (·.parcel == t.parcel)
    let hit := (own.filter (·.meets first last)).map (·.num)
    match hit with
    | k :: r => trap 2 (BitVec.ofNat 64 (r.foldl min k))
    | [] =>
      if ((← getS).parcel t.parcel).rquota ≤ own.length then trap 2 256
      awaitPinned (spanUser t.tid die t.parcel first last)
      let num := lowestFree (own.map (·.num))
      modS fun s => s.squashSpan t.tid die t.parcel first last
      modS fun s => s.setRegions die ({ tid := t.tid, parcel := t.parcel, num := num, first := first, last := last } :: s.regionsOf die)
      wrX d (BitVec.ofNat 64 num)) s

/-- The physical lines of device memory that a span of a parcel's virtual lines maps, page by page. -/
def State.spanHas (s : State) (parcel first last line : Nat) : Bool :=
  (pagesOf (last / 512 - first / 512 + 1) (first * 128) ((last - first + 1) * 128)).any fun e =>
    match s.walk parcel e.1 1 with
    | .ok leaf =>
      let pa := ptePpn leaf.leaf * 65536 + e.1 % leaf.size
      pa / 128 ≤ line && line ≤ (pa + e.2 - 1) / 128
    | .error _ => false

/-- The copies that a die drops when it frees a region (R241): those that the region's span maps, and those that no other
region of the parcel reaches. -/
def State.regionCopies (s : State) (die parcel num : Nat) : List Nat :=
  let rs := (s.regionsOf die).filter (·.parcel == parcel)
  (s.copyLines die).filter fun l =>
    tfind (l / 512) s.frameOwner == some parcel &&
      ((rs.any fun r => r.num == num && s.spanHas parcel r.first r.last l)
        || !(rs.any fun r => r.num != num && s.spanHas parcel r.first r.last l))

/-- rgnfree (R241). -/
def execRgnfree (a : BitVec 6) (s : State) : Result :=
  control { rule := .alone } (seq do
    let k ← rdX a
    let die ← dieNum
    let t ← getT
    match ((← getS).regionsOf die).find? fun r => r.parcel == t.parcel && r.num == k.toNat with
    | none => trap 2 k
    | some r =>
      let ls := (← getS).regionCopies die t.parcel r.num
      awaitHeld (ls ++ viewLines die ls)
      awaitPinned (spanUser t.tid die t.parcel r.first r.last)
      modS fun s => s.settle fun w => w.die == die
      modS fun s => ls.foldl (fun s l => (s.squashView die l).writeBack die l true) s
      modS fun s => s.squashSpan t.tid die t.parcel r.first r.last
      modS fun s => s.setRegions die ((s.regionsOf die).filter (· != r))) s

/-! ## Cache ways (R239) -/

/-- The partition word with other l1 and scr fields. -/
def partSplit (w : BitVec 32) (l1 scr : Nat) : BitVec 32 :=
  (w &&& ~~~(0x01FF8000 : BitVec 32)) ||| (BitVec.ofNat 32 scr <<< 15) ||| (BitVec.ofNat 32 l1 <<< 20)

/-- cways (R239). -/
def execCways (d a : BitVec 6) (s : State) : Result :=
  control { rule := .alone } (seq do
    let w ← rdX a
    let l := w.toNat
    let core ← coreNum
    let c := (← getS).core core
    let l1 := partL1 c.part
    let scr := partScr c.part
    if l < 4 || l1 + scr < l then trap 2 w
    let new := l1 + scr - l
    awaitPinned (portionUser core (min scr new * 65536) (max scr new * 65536))
    modS fun s => s.wipeScratch core (min scr new * 65536) (max scr new * 65536)
    modS fun s => s.setCore core { s.core core with part := partSplit c.part l new }
    wrX d (BitVec.ofNat 64 l1)) s

/-! ## Live and dead blocks (R247, R248) -/

/-- Lines whose bytes become zero as one unit of the order, with their blocks dead (R247). A die given drops its own copies. -/
def State.kill (s : State) (who : Option Nat) (die : Option Nat) (lines : List Nat) : State :=
  let s := match die with
    | some d =>
      let s := s.settle fun w => w.die == d && lines.contains w.line
      let s := lines.foldl (fun (s : State) l => s.squashView d l) s
      lines.foldl (fun (s : State) l => s.dropCopy d l) s
    | none => s
  let s := s.heatFor who lines
  let s := s.squashIf fun t c => some t.tid != who && c.meets lines
  let s := { s with
    mem := lines.foldl (fun m l => tclear (l * 128) (l * 128 + 128) m) s.mem
    poisoned := s.poisoned.filter (!lines.contains ·)
    live := s.live.filter fun b => !lines.any (· / 32 == b)
    lineKver := s.lineKver.filter fun e => !lines.contains e.1 }
  s.wake who lines

/-- dead (R247). -/
def execDead (a b : BitVec 6) (s : State) : Result :=
  control { rule := .alone } (seq do
    let va ← rdX a
    let n ← rdX b
    let ls := deviceLines (← rangePages .store true va n)
    let die ← dieNum
    awaitHeld (ls ++ viewLines die ls)
    let t ← getT
    modS fun s => s.kill (some t.tid) (some die) ls) s

/-- live (R247). -/
def execLive (a b : BitVec 6) (s : State) : Result :=
  control { rule := .alone } (seq do
    let va ← rdX a
    let n ← rdX b
    let ls := deviceLines (← rangePages .store true va n)
    modS fun s => (distinct (ls.map (· / 32))).foldl State.revive s) s

end Sys2Proof.Machine
end

