-- ==== Sys2Proof/Machine/Schedule.lean ====
section
/-! DEFINITION. Whose move the next step is (log entry 1), the fetch of an instruction word (R26, R313), and the strips that wait to be
granted (R271). -/

namespace Sys2Proof.Machine

/-- A chunk that must run under priority commit waits for the ticket without executing (R277, R278). -/
def Thread.needsTicket (t : Thread) : Bool :=
  t.chunk.isNone && ((8 ≤ t.statSquashes && !t.statFresh) || (t.limit = 1 && 4 ≤ t.squashesAtOne))

/-- What a turn comes to. -/
inductive Move where
  | over (s : State)
  | event (i : Instr) (s : State)
  | run (w : BitVec 32) (s : State)
  /-- a hub's management endpoint takes up its first request (R391) -/
  | endpoint (hub : Nat) (s : State)
  deriving Repr

/-- The word at a thread's pc (R26): a pc that is no word address traps 0x03; a translation or protection failure, a host page whose link
is down (R334), or poison, is the fetch's own trap (R313, R351). The bytes are those that stand in the order. The answer gives the word's
location too. -/
def State.fetch (s : State) (t : Thread) (pc : Word) : Except Trap (BitVec 32 × Nat × Access × Bool) :=
  let va := pc.toNat
  let core := t.core.getD 0
  if va % 4 ≠ 0 then .error { code := 3, sub := 0, val := pc } else
  match s.translate core t.parcel t.ctx.priv Need.fetch va with
  | .error f => .error f
  | .ok (a, hit) =>
    if a.window == .host && s.fyzWidth = 0 then .error (replyTrap 5 pc) else
    match s.placeOf t.core (crewOf core) t.parcel a with
    | .error f => .error f
    | .ok (.loc l) =>
      match s.poisonTrap va l 4 with
      | some f => .error f
      | none => .ok (BitVec.ofNat 32 (natOfBytes ((List.range 4).map fun i => s.byteAt (l + i))), l, a, hit)
    | .ok _ => .error { code := 5, sub := 0, val := pc }

/-- A fetch that fails is counted where it was translated (R394). -/
def State.missedFetch (s : State) (t : Thread) (pc : Word) : State :=
  if pc.toNat % 4 ≠ 0 then s else s.missed (t.core.getD 0) t.parcel pc.toNat

/-! ## Strips that wait (R271 to R273) -/

def major (w : BitVec 32) : Nat := (w.extractLsb' 26 6).toNat

/-- The major code of a strip (R271). -/
def isStrip (m : Nat) : Bool := m = 0x13 || (0x19 ≤ m && m ≤ 0x3B)

def Thread.ready (t : Thread) : Bool := t.state == .runReady && t.core.isSome

/-- The word that a thread's next strip executes, if a strip not granted yet is what it waits for: its own, or any while its VPs
execute. -/
def State.nextStrip (s : State) (t : Thread) : Option (BitVec 32) :=
  if !t.ready || t.pause.isSome || t.pendTrap.isSome || t.strip.isSome || (t.needsTicket && s.ticket != some t.tid) then none
  else if !t.ctx.vps.isEmpty then some (0x13#6 ++ 0#26)
  else match s.fetch t t.ctx.pc with
    | .ok (w, _) => if isStrip (major w) then some w else none
    | .error _ => none

/-- The wait of a thread's strip begins with the first turn at which it is not granted (R273). -/
def State.noteStrip (s : State) (t : Thread) : State :=
  if t.stripSince.isSome then s else s.setThread { t with stripSince := some s.cycle }

/-! ## A turn -/

/-- An agent's turn to execute an instruction: trap entry, an asynchronous report and a chunk's end come first (R341), and a strip waits
for its grant (R271, R285). -/
def State.turnOf (s : State) (a : Actor) : Move :=
  match { s with actor := a }.acting with
  | none => .over s
  | some r =>
    if r.t.pendTrap.isSome then .event (.trapEntry r.t.tid) s
    else if r.t.pending.isSome && r.t.chunk.isNone then .event (.asyncTrap r.t.tid) s
    else if r.t.needsTicket && s.ticket != some r.t.tid then .over s
    else if r.ended then .over (r.s.resume r.t)
    else if r.vp.any fun i => !r.t.strip.any (·.contains i) then .over (r.s.noteStrip r.t)
    else
      let pc := match r.vp with | some i => ((tfind i r.t.ctx.vps).map (·.pc)).getD 0 | none => r.t.ctx.pc
      match s.fetch r.t pc with
      | .error f => .over ({ r with s := r.s.missedFetch r.t pc }.takeTrap f)
      | .ok (w, l, acc, hit) =>
        if r.vp.isNone && isStrip (major w) && r.t.ctx.vps.isEmpty && r.t.strip.isNone then .over (r.s.noteStrip r.t) else
        let s := (r.s.keepEntry (r.t.core.getD 0) acc hit).countDead l
        let t := { r.t with chunk := r.t.chunk.map fun c =>
          if c.pages.contains acc.entry then c else { c with pages := acc.entry :: c.pages } }
        .run w { s.setThread t with fetched := w, fetchPage := some acc.entry }

/-! ## The default schedule -/

/-- What the default schedule offers a thread that is to be placed: the first cores that take it and its gang set, or else what makes
room. -/
def State.placements (s : State) (k : Nat) (t : Thread) : List Instr :=
  let set := s.gangOf t
  match State.placeAll set s with
  | some u =>
    let there := set.filterMap fun j => tfind j u.threads
    [.placeThread set (there.map (·.core.getD 0)) (there.map (·.slot))]
  | none => .placementAging k :: (s.threads.filter fun e => e.2.core.isSome && e.2.parcel == t.parcel).flatMap
      fun e => [.blockedEvictionAge e.1, .preempt e.1]

/-- The lines for which a thread may make a persistent request (R185, R279). -/
def Thread.persistLines (t : Thread) : List Nat := (t.failures.filter (4 ≤ ·.2)).map (·.1)

/-- What the default schedule offers a thread: its instruction, its VPs', or what it waits for. -/
def State.offers (s : State) (k : Nat) (t : Thread) : List Mover :=
  let tiles := if t.tileQueue.isEmpty || t.core.isNone then [] else [Instr.tileOpPerform k]
  let late := (t.deferred.filter fun d => viewBase ≤ d.pa).map fun d => Instr.deferredLoadReply d.id
  let ticket := if t.needsTicket then [Instr.priorityCommitRequest k, .priorityTicketPass] else []
  let lines := t.persistLines.map fun l => Instr.persistentRequest k l
  let strips := match t.core with
    | some c => if (s.nextStrip t).isSome then [Instr.stripGrant c k, .stripAging k] else []
    | none => []
  let own := match t.state with
    | .runReady =>
      if t.core.isNone then []
      else if t.pause.isSome then [Mover.event (.pauseEnd k)]
      else .thread k :: t.ctx.vps.map fun (i, _) => .vp k i
    | .runBlocked _ => [.event (.waitSatisfied k)]
    | .savedBlocked _ => [.event (.waitSatisfied k)]
    | .placementReady => (s.placements k t).map .event
  let out := if s.stray t then [Instr.preempt k] else []
  own ++ (out ++ tiles ++ late ++ ticket ++ lines ++ strips).map .event

/-- The first element of a copy that has still to be performed and waits for no reply. -/
def State.nextElem (s : State) (c : Copy) : Option Nat :=
  (List.range c.slots).find? fun n => !c.elemDone n && !s.fabric.any fun q =>
    match q.reply with
    | .copyRead id k => id == c.id && k / 2 == n
    | .copyWrite id k => id == c.id && k % 2 ^ 40 / 2 == n
    | _ => false

/-- What it offers the engines, the fabric and the home slices. -/
def State.engineMoves (s : State) : List Instr :=
  s.departed.map (fun e => .tileOpPerform e.1)
  ++ (s.copies.filter (·.forked)).flatMap (fun c =>
    if c.started then .copyComplete c.id :: (s.nextElem c).toList.map (.copyElement c.id ·) else [.copyStart c.core])
  ++ s.drains.map (fun d => .matrixDrain d.id (((List.range d.size).find? fun n => !d.done.contains n).getD 0))
  ++ s.traverses.flatMap (fun (p, v) =>
    [.traverseDone p, .traverseStop p] ++ (((List.range 64).map (v.next + ·)).find? v.startable).toList.map (.post p ·)
      ++ v.inflight.flatMap fun e => [.post p e.j, .postCredit p e.j])
  ++ (s.fabric.filter fun q => !q.sent || s.devnum == some q.dev).map (.fabricReply ·.id 32 [] [])
  ++ (s.fabric.filter fun q => !q.folded && q.answer.isSome).map (.replySplit ·.id)
  ++ (if s.writeBacks.isEmpty then [] else [.mgdWritebackArrival 0])
  ++ (s.farQueues.filter fun e => !e.2.isEmpty).map fun e => .farOpPerform e.1

/-- The moves of the default schedule, which goes on where State.turns ends. -/
def State.candidates (s : State) : List Mover :=
  s.threads.flatMap (fun (k, t) => s.offers k t) ++ s.engineMoves.map .event
    ++ (distinct (s.requests.map (·.1))).map .endpoint

/-- Open chunks squashed by signatures that meet though their lines do not (R180); the priority ticket's holder is spared
(R279). -/
def State.falseHit (s : State) (tids : List Nat) : State :=
  let hit (t : Thread) : Bool := tids.contains t.tid && s.ticket != some t.tid
  let n := (s.threads.filter fun e => hit e.2 && e.2.chunk.isSome).length
  (s.squashIf fun t _ => hit t).count fun c => { c with falsePositives := c.falsePositives + n }

/-- Cycles pass (R37, R395): time goes on by what they last at the present clock, and crews with residents are in use. -/
def State.pass (s : State) (n : Nat) : State :=
  let now := s.cycle + n
  { s with
    cycle := now
    time := s.time + n * (45045000 / s.clock)
    busy := s.threads.foldl (fun m e => match e.2.core with | some k => tput (crewOf k) now m | none => m) s.busy }

/-- The order in which the default schedule serves what it offers: what has waited longest comes first, so that a move that goes on being
offered is made (R253, R276). -/
def State.inTurn (s : State) : List Mover :=
  let offered := s.candidates
  s.rota.filter (offered.contains ·) ++ offered.filter (!s.rota.contains ·)

/-- The next turn: the first of State.turns, or the default schedule's. -/
def State.nextTurn (s : State) : Option Mover × State :=
  match s.turns with
  | t :: rest =>
    let s := t.refused.foldl (fun s e => s.refuse e.1 e.2) (s.falseHit t.falseHits)
    (some t.mover, { s.pass t.cycles with turns := rest, defer := t.defer, cut := t.cut, actor := .none })
  | [] =>
    let s' := { s.pass (Config.turnCycles s.draws) with draws := s.draws + 1, defer := false, cut := none, actor := .none }
    match s.inTurn with
    | [] => (none, { s' with rota := [] })
    | m :: rest => (some m, { s' with rota := rest })

/-- What the next step does. -/
def State.move (s : State) : Move :=
  match s.nextTurn with
  | (none, s) => .over s
  | (some (.event i), s) => .event i s
  | (some (.endpoint hub), s) => .endpoint hub s
  | (some (.thread k), s) => { s with actor := .thread k }.turnOf (.thread k)
  | (some (.vp k i), s) => { s with actor := .vp k i }.turnOf (.vp k i)

end Sys2Proof.Machine
end

