-- ==== Sys2Proof/Machine/Threads.lean ====
section
/-! DEFINITION. Launching, ending and yielding, and stand barriers (12, R256 to R270). -/

namespace Sys2Proof.Machine

/-! ## The launch record (02, R47, R48) -/

/-- A failing field of the second row of R48, the lowest in the record: its byte offset and its value. -/
def badLaunchField (o : Nat) : Option (Nat × Nat) :=
  let nstands := field 25 17 o
  let checks : List (Bool × Nat × Nat) := [
    (field 7 0 o ≠ 1, 0, field 7 0 o),
    (47 < field 15 10 o, 1, field 15 10 o),
    (256 < nstands, 2, nstands),
    (field 31 26 o ≠ 0, 3, field 31 26 o),
    (field 55 32 o = 0, 4, field 55 32 o),
    (field 63 56 o ≠ 0, 7, field 63 56 o),
    (field 255 192 o ≠ 0 && nstands = 0, 24, field 255 192 o),
    (field 511 320 o ≠ 0, 40, field 511 320 o)]
  (checks.find? (·.1)).map (·.2)

/-- The members that a stand-table entry gives, or none where it is invalid (R49); bitmap is the map's contents. -/
def standMembers (count e bitmap : Nat) : Option Marks :=
  let map := field 127 64 e
  let n := field 63 40 e
  let stride := field 39 24 e
  let first := field 23 0 e
  if map ≠ 0 then
    if n ≠ 0 || stride ≠ 0 || first ≠ 0 then none else some ((List.range count).filter fun t => bitmap.testBit t)
  else if n = 0 then (if first ≠ 0 || stride ≠ 0 then none else some [])
  else if stride = 0 || count ≤ first + (n - 1) * stride then none
  else some ((List.range n).map fun k => first + k * stride)

/-- Some thread of an entry already belongs to four of the entries before it (R49). -/
def fifth (before : List Marks) (ms : Marks) : Bool :=
  ms.any fun t => 4 ≤ (before.filter (·.contains t)).length

/-- The stand table, entry by entry: the first offending one traps 0x0F with its index (R48, R49). -/
def readStands (base count : Nat) (n : Nat) : Exec (List Marks) :=
  (List.range n).foldlM (fun acc k => do
    let e ← readRec (base + 16 * k) 16
    let map := field 127 64 e
    let bad : Exec (List Marks) := trap 15 (BitVec.ofNat 64 k)
    if map ≠ 0 && e % 2 ^ 64 ≠ 0 then bad
    else do
      let bitmap ← if map = 0 then pure 0 else readRec map ((count + 7) / 8)
      match standMembers count e bitmap with
      | none => bad
      | some ms => if fifth acc ms then bad else return acc ++ [ms]) []

/-! ## Launch (R257, R258) -/

/-- launch (R257). -/
def execLaunch (d a : BitVec 6) (s : State) : Result :=
  control {} (seq do
    let va ← rdX a
    if va.toNat % 64 ≠ 0 then trap 3 va
    let o ← readRec va.toNat 64
    let entry := BitVec.ofNat 64 (field 191 128 o)
    let table := BitVec.ofNat 64 (field 255 192 o)
    if entry.toNat % 4 ≠ 0 then trap 3 entry
    if table.toNat % 16 ≠ 0 then trap 3 table
    match badLaunchField o with
    | some (off, v) => trap 2 (BitVec.ofNat 64 ((off + 1) * 2 ^ 32 + v % 2 ^ 32))
    | none => pure ()
    let part : BitVec 32 := BitVec.ofNat 32 (field 95 64 o)
    if part ≠ 0 && !partOk part then trap 2 (part.setWidth 64)
    let word := if part = 0 then defaultPart else part
    let count := field 55 32 o
    let cls := field 9 8 o
    let members ← readStands table.toNat count (field 25 17 o)
    let t ← getT
    let p := (← getS).parcel t.parcel
    let gang := field 16 16 o = 1
    if gang then
      let room := ((← getS).coresOf p).length * perCore word cls
      match (gangSets members).find? fun g => room < g.2.length with
      | some g => trap 15 (BitVec.ofNat 64 g.1)
      | none => pure ()
    if p.crews = 0 then trap 2 0
    let waiting := match t.chunk with | some c => c.launches.length | none => 0
    if 4096 ≤ (← getS).queued t.parcel + waiting then
      atOpening 8
      throw (.wait .launchEntry)
    let n := (← getS).nextLaunch
    let l : Launch := {
      parcel := t.parcel, count := count,
      stands := members.map fun ms => { members := ms, live := ms.length, arrived := 0, phase := 0, bits := [] },
      sets := (gangSets members).map (·.2), gang := gang, root := false, entry := entry, args := BitVec.ofNat 64 (field 319 256 o), chunkhint := field 127 96 o,
      part := word, prio := min (field 15 10 o) p.ceiling, cls := cls, unplaced := count }
    modS fun s => { s with nextLaunch := n + 1 }
    modChunk fun c => { c with launches := tput n l c.launches }
    wrX d (BitVec.ofNat 64 n)) s

/-! ## Ending and yielding (R259, R261) -/

/-- A request of a thread whose reply has not arrived (R345). -/
def FabricReq.isOf (q : FabricReq) (tid : Nat) : Bool :=
  match q.reply with
  | .load t _ => t == tid
  | .deferred t _ => t == tid
  | .ack t _ => t == tid
  | .atomic t _ _ _ => t == tid
  | _ => false

/-- texit (R259): a recorded copy fault or a pending error is reported instead; the chunk commits once every reply has arrived
and every tile operation has been performed (R345, R155). -/
def execTexit (s : State) : Result :=
  control {} (seq do
    if (← explicitChunk) then throw (.boundary 4)
    observeTags (~~~0)
    let r ← get
    if r.t.chunk.any fun c => !c.fabricOut.isEmpty || !c.tileOps.isEmpty then throw (.boundary 4)
    if r.s.fabric.any (·.isOf r.t.tid) || !r.t.tileQueue.isEmpty then throw .stall
    if r.t.pending.isSome then throw .async
    modChunk fun c => { c with exits := true }
    endAfter) s

/-- tyield (R261). It waits for committed tile operations, which a pre-emption would have to perform first (R158). -/
def execTyield (s : State) : Result :=
  control {} (seq do
    if (← explicitChunk) then throw (.boundary 4)
    let t ← getT
    if t.chunk.any fun c => !c.tileOps.isEmpty then throw (.boundary 4)
    if !t.tileQueue.isEmpty then throw .stall
    modChunk fun c => { c with yields := true }
    endAfter) s

/-! ## Stand barriers (R267, R268) -/

/-- The stand that an operand names (R268): one of the thread's own. -/
def readStand (a : BitVec 6) : Exec (Nat × Stand) := do
  let k ← rdX a
  let t ← getT
  match (tfind (launchOf t.tid) (← getS).launches).bind (·.stands[k.toNat]?) with
  | some st => if t.st.contains k.toNat then return (k.toNat, st) else trap 15 k
  | none => trap 15 k

/-- The thread's arrival bit as it sees it: its own sarrive of the open chunk counts (R268). -/
def arrived (k : Nat) (st : Stand) : Exec Bool := do
  let t ← getT
  return st.bits.contains (indexOf t.tid) || t.chunk.any (·.arrivals.contains k)

/-- The phase and the arrival bit are reads of the chunk (R268). -/
def touchStand (k : Nat) : Exec Unit := do
  let l := standLine (launchOf (← getT).tid) k
  modChunk fun c => { c with reads := mput l c.reads }

/-- sarrive (R268): the arrival is performed at the chunk's commit. -/
def execSarrive (d a : BitVec 6) (s : State) : Result :=
  control {} (seq do
    let (k, st) ← readStand a
    touchStand k
    if (← arrived k st) then trap 15 (BitVec.ofNat 64 k)
    modChunk fun c => { c with arrivals := c.arrivals ++ [k] }
    wrX d (BitVec.ofNat 64 st.phase)) s

/-- stest (R268). -/
def execStest (d a : BitVec 6) (s : State) : Result :=
  control {} (seq do
    let (k, st) ← readStand a
    touchStand k
    wrX d (BitVec.ofNat 64 (st.phase + (if (← arrived k st) then 2 ^ 16 else 0)))) s

/-- swait (R268). -/
def execSwait (d a b : BitVec 6) (s : State) : Result :=
  control {} (seq do
    atOpening 4
    let (k, st) ← readStand a
    let want := (← rdX b).toNat % 2 ^ 16
    awaitScalars
    touchStand k
    if st.phase = want then throw (.wait (.phase k want))
    wrX d (BitVec.ofNat 64 st.phase)) s

/-- The phase in which an sbar arrives: that of its own arrival where it has made it, else the present one, in which it arrives
now as a unit of its own (R268). -/
def arriveOnce (k : Nat) (st : Stand) : Exec Nat := do
  let t ← getT
  match t.arrivedIn with
  | some (j, ph, pc) => if j = k && pc = t.ctx.pc then return ph else fresh t
  | none => fresh t
where
  fresh (t : Thread) : Exec Nat := do
    if (← arrived k st) then trap 15 (BitVec.ofNat 64 k)
    if (← getS).held (some t.tid) [standLine (launchOf t.tid) k] then throw .stall
    modT fun u => { u with arrivedIn := some (k, st.phase, t.ctx.pc) }
    modS fun s => s.arriveAt t.tid [k]
    return st.phase

/-- sbar (R268): arrives, and waits for the phase to advance. Its chunk ends with it, so that no squash takes the thread back
behind an arrival that has been performed. -/
def execSbar (d a : BitVec 6) (s : State) : Result :=
  control {} (seq do
    atOpening 4
    let (k, st) ← readStand a
    awaitScalars
    let ph ← arriveOnce k st
    let (_, now) ← readStand a
    if now.phase = ph then throw (.wait (.phase k ph))
    modT fun t => { t with arrivedIn := none }
    wrX d (BitVec.ofNat 64 now.phase)
    endAfter) s

end Sys2Proof.Machine
end

