-- ==== Sys2Proof/Machine/Progress.lean ====
section
/-! DEFINITION. The device's own steps for its threads: chunk ends, commits and the priority ticket (08, 13), placement,
pre-emption and the sequencer (12), waits, caches and page walks (11, 14). An event that cannot take place leaves the state as
it is. -/

namespace Sys2Proof.Machine

/-- Change a thread, where it stands as a test asks. -/
def State.onThread (s : State) (tid : Nat) (p : Thread → Bool) (f : Thread → State) : State :=
  match tfind tid s.threads with
  | some t => if p t then f t else s
  | none => s

/-! ## Chunks (R176, R179, R340, R345) -/

/-- CHUNK_LIMIT_END (R176): the hardware's limit ends an implicit chunk, which is then offered for commit. -/
def execChunkLimitEnd (tid : Nat) (s : State) : Result :=
  event (fun s => s.onThread tid (fun t => t.ready && t.chunk.any (!·.explicit)) fun t =>
    s.setThread { t with chunk := t.chunk.map fun c => { c with ended := true } }) s

/-- CHUNK_COMMIT (R179): a chunk that has ended takes its place, with the trap entry or the exit that belongs to it. -/
def execChunkCommit (tid : Nat) (s : State) : Result :=
  event (fun s => s.onThread tid (fun t => t.ready && t.chunk.any (·.ended)) s.resume) s

/-- TRAP_ENTRY (R340): the trap that ended a truncated chunk is taken with its commit. -/
def execTrapEntry (tid : Nat) (s : State) : Result :=
  event (fun s => s.onThread tid (fun t => t.ready && t.pendTrap.isSome) s.enterPending) s

/-- ASYNC_TRAP (R345): a pending error is taken at a chunk boundary. -/
def execAsyncTrap (tid : Nat) (s : State) : Result :=
  event (fun s => s.onThread tid (fun t => t.ready && t.chunk.isNone && t.pending.isSome) s.takeAsync) s

/-! ## Priority commit and persistent requests (R185, R277 to R281) -/

/-- PRIORITY_COMMIT_REQUEST (R277, R278): a thread whose next chunk must run under the ticket joins its landing's queue of 48. -/
def execPriorityCommitRequest (tid : Nat) (s : State) : Result :=
  event (fun s => s.onThread tid (fun t => t.ready && t.needsTicket && s.ticket != some tid) fun t =>
    let d := dieOf (t.core.getD 0)
    let q := s.priorityQueues[d]?.getD []
    if q.contains tid || 48 ≤ q.length then s
    else { s with priorityQueues := s.priorityQueues.setIfInBounds d (q ++ [tid]) }) s

/-- The landing that holds the ticket grants it to its oldest request, or passes it on (R278). -/
def State.passTicket (s : State) : State :=
  if s.ticket.isSome then s else
  match s.priorityQueues[s.ticketDie]?.getD [] with
  | [] => { s with ticketDie := (s.ticketDie + 1) % 8 }
  | tid :: rest => { s with ticket := some tid, priorityQueues := s.priorityQueues.setIfInBounds s.ticketDie rest }

/-- PRIORITY_TICKET_PASS (R278). -/
def execPriorityTicketPass (s : State) : Result := event State.passTicket s

/-- A thread makes a persistent request for a line once its token requests for it have failed four times (R185); the ticket's holder
makes one for any line that it needs (R279). -/
def State.mayPersist (s : State) (line : Nat) (t : Thread) : Bool :=
  t.ready && (4 ≤ tget 0 line t.failures || s.ticket == some t.tid)

/-- A persistent request (R185, R281) joins those of the device in the order in which they reach the line's home slice. Its die's table
holds 48: with none free it waits, and is made again. Other implicit chunks that hold the line end at their next instruction
boundary. -/
def State.persist (s : State) (tid line : Nat) (t : Thread) : State :=
  let die := dieOf (t.core.getD 0)
  if 48 ≤ (s.persistent.filter (·.die == die)).length || s.persistent.contains { die, tid, line } then s else
  { s with
    persistent := s.persistent ++ [{ die, tid, line }]
    threads := s.threads.map fun (k, u) => (k,
      if k == tid then u
      else { u with chunk := u.chunk.map fun c => if !c.explicit && !c.priority && c.meets [line] then { c with ended := true } else c }) }

/-- PERSISTENT_REQUEST (R185). -/
def execPersistentRequest (tid line : Nat) (s : State) : Result :=
  event (fun s => s.onThread tid (s.mayPersist line) (s.persist tid line)) s

/-- The first far operation that waits at its core for a slice's queue joins it (R282). -/
def State.admitFar (s : State) (slice : Nat) (q : List (Nat × Nat × Nat)) : State :=
  match s.farWaits.find? (·.1 == slice) with
  | none => { s with farQueues := tset [] slice q s.farQueues }
  | some w => { s with farQueues := tset [] slice (q ++ [w.2]) s.farQueues, farWaits := s.farWaits.erase w }

/-- A home slice performs the next far operation of its queue (R282): its value is its chunk's already; the predictor learns
whether another core's request for the line waits (R208). -/
def State.farOp (s : State) (slice : Nat) : State :=
  match tget [] slice s.farQueues with
  | [] => s
  | (line, _, core) :: rest =>
    let others := (rest.any fun e => e.1 == line && e.2.2 != core)
      || s.farWaits.any fun w => w.1 == slice && w.2.1 == line && w.2.2.2 != core
    let s := s.admitFar slice rest
    if others then s else s.setCore core ((s.core core).cool line)

/-- FAR_OP_PERFORM (R282). -/
def execFarOpPerform (slice : Nat) (s : State) : Result := event (·.farOp slice) s

/-! ## Deferred loads (R189) -/

/-- The reply of a deferred MGD load: its die's copy of the line is filled, and it is performed. -/
def State.deferredReply (s : State) (id : Nat) : State :=
  match (s.threads.flatMap (·.2.deferred)).find? fun d => d.id == id && viewBase ≤ d.pa with
  | none => s
  | some d => s.fillCopy (viewDie d.pa) (viewPa d.pa / 128)

/-- DEFERRED_LOAD_REPLY (R189). -/
def execDeferredLoadReply (id : Nat) (s : State) : Result := event (·.deferredReply id) s

/-! ## Placement (R263 to R265) -/

/-- PLACE_THREAD (R263, R264). -/
def execPlaceThread (tids cores slots : List Nat) (s : State) : Result := event (·.place tids cores slots) s

/-- PLACEMENT_AGING (R265): after 2^20 cycles of waiting a thread's effective band is 5. -/
def execPlacementAging (tid : Nat) (s : State) : Result :=
  event (fun s => s.onThread tid (fun t => t.state == .placementReady && t.waitSince + 2 ^ 20 < s.cycle) fun t =>
    s.setThread { t with aged := true }) s

/-! ## Pre-emption (R266, R346, R347) -/

/-- The categories of victims of R266 for a waiter: residents long blocked, residents of lower bands, and, for an aged waiter, those of
its band that have been resident for 2^20 cycles. -/
def State.category (s : State) (w : Thread) (n : Nat) (t : Thread) : Bool :=
  match n with
  | 0 => t.evictable
  | 1 => band t.prio < w.placementBand
  | _ => w.aged && band t.prio = w.placementBand && t.residentSince + 2 ^ 20 ≤ s.cycle

/-- The waiter could be placed with its gang set once these threads were pre-empted. -/
def State.freedBy (s : State) (w : Thread) (ts : List Thread) : Bool := (ts.foldl (fun s t => s.preempt t.tid) s).canPlace w

/-- Residents of a waiter's parcel in a category that stand on a core where those of the category would leave it a fitting slot, or all of
them where only together they do. -/
def State.victimsIn (s : State) (w : Thread) (n : Nat) : List Thread :=
  let l := (s.threads.map (·.2)).filter fun t => t.core.isSome && t.parcel == w.parcel && t.tid != w.tid && s.category w n t
  match l.filter fun t => s.freedBy w (l.filter (·.core == t.core)) with
  | [] => if s.freedBy w l then l else []
  | some_ => some_

/-- A thread is a victim that R266 lets the dispatcher take for a waiter that cannot be placed: one of the first category that frees a
fitting slot, the longest resident first in the third. -/
def State.victimFor (s : State) (w t : Thread) : Bool :=
  match (List.range 3).find? fun n => !(s.victimsIn w n).isEmpty with
  | none => false
  | some n =>
    let l := s.victimsIn w n
    (l.any (·.tid == t.tid)) && (n != 2 || l.all fun u => t.residentSince ≤ u.residentSince)

/-- Some waiting thread of the parcel cannot be placed, and a resident is a victim for it (R266). -/
def State.victim (s : State) (t : Thread) : Bool := (s.waiting t.parcel).any fun w => !s.canPlace w && s.victimFor w t

/-- PREEMPT (R266, R300). -/
def execPreempt (tid : Nat) (s : State) : Result :=
  event (fun s => s.onThread tid (fun t => t.core.isSome && (s.victim t || s.stray t)) fun _ => s.preempt tid) s

/-- BLOCKED_EVICTION_AGE (R266): after 2^16 cycles blocked a thread is a first choice of victim. -/
def execBlockedEvictionAge (tid : Nat) (s : State) : Result :=
  event (fun s => s.onThread tid
    (fun t => t.core.isSome && (match t.state with | .runBlocked _ => true | _ => false) && t.waitSince + 2 ^ 16 < s.cycle)
    fun t => s.setThread { t with evictable := true }) s

/-! ## The vector sequencer (R271 to R273, R285) -/

/-- The elements that a strip of the thread processes (R271): those below vl that its guard lets through. -/
def Thread.stripElems (t : Thread) : Nat :=
  let c := t.ctx
  ((List.range c.vl).filter (c.pAt (modeGuard c.mode)).getLsbD).length

/-- The charge of a strip as its grant knows it (R271), in element-beats: the passes of subnormal groups, and the pairs of a fibre pass,
are charged with the strip's execution. -/
def Thread.stripCharge (t : Thread) (vps : List Nat) (w : BitVec 32) : Nat :=
  let m := major w
  let c := t.ctx
  let wide := max (typeWidth c.fmt (modeStype c.mode)) (typeWidth c.fmt (modeDtype c.mode))
  if !vps.isEmpty then 16 * vps.length
  else if 0x19 ≤ m && m ≤ 0x2C then max 16 (t.stripElems * ceilDiv wide 32)
  else 16

/-- The deficit after a refill (R272). -/
def Thread.refilled (t : Thread) : Int := min (t.deficit + t.weight * 1024) (2 * t.weight * 1024)

/-- The first thread after the one last granted, in ascending rotation. -/
def nextAfter (last : Nat) (ts : List Thread) : Option Thread :=
  match ts.find? fun t => last < t.tid with
  | some t => some t
  | none => ts.head?

/-- The group of 16 VPs that a thread's next VP strip serves (R285): the next above the last one that holds a VP that is not idle, or
the lowest. -/
def Thread.nextGroup (t : Thread) : Option Nat :=
  let gs := distinct (t.ctx.vps.map (·.1 / 16))
  match t.vpGroup.bind fun g => gs.find? (g < ·) with
  | some g => some g
  | none => gs.head?

/-- A strip is granted: charged, and for VPs one instruction of each of a group (R271, R272, R285). -/
def Thread.granted (t : Thread) (w : BitVec 32) : Thread :=
  let g := t.nextGroup
  let vps := ((t.ctx.vps.map (·.1)).filter fun i => g == some (i / 16))
  { t with
    deficit := t.deficit - t.stripCharge vps w, strip := some vps, stripSince := none, stripAged := false,
    vpGroup := if g.isSome then g else t.vpGroup }

/-- One grant slot of a core's sequencer (R272): the highest band of those that wait for a strip, and the next of its threads with a
deficit in rotation. A round is over, and the band's Run-ready threads are refilled, when none that waits has a deficit left: a thread
that waits for no strip does not keep the others from theirs (log entry 78). -/
def State.grant (s : State) (core tid : Nat) : State :=
  let ready := (s.residents core).filter fun t => t.ready && t.pause.isNone
  let waiting := ready.filter fun t => (s.nextStrip t).isSome
  let top := waiting.foldl (fun m t => max m t.stripBand) 0
  let E := waiting.filter fun t => t.stripBand == top && 0 < t.deficit
  let s := if E.isEmpty then
      (ready.filter fun t => t.stripBand == top).foldl (fun s t => s.setThread { t with deficit := t.refilled }) s else s
  let E := if E.isEmpty then
      (waiting.filter fun t => t.stripBand == top).filterMap fun t => (tfind t.tid s.threads).filter (0 < ·.deficit) else E
  match nextAfter (s.core core).lastGranted E with
  | none => s
  | some t =>
    match s.nextStrip t with
    | none => s
    | some w =>
      if t.tid != tid then s
      else (s.setCore core { s.core core with lastGranted := tid }).setThread (t.granted w)

/-- STRIP_GRANT (R272). -/
def execStripGrant (core tid : Nat) (s : State) : Result := event (·.grant core tid) s

/-- STRIP_AGING (R273): after 2^20 cycles of waiting a thread's strip is served in band 5. -/
def execStripAging (tid : Nat) (s : State) : Result :=
  event (fun s => s.onThread tid
    (fun t => (s.nextStrip t).isSome && t.stripSince.any fun c => c + 2 ^ 20 < s.cycle)
    fun t => s.setThread { t with stripAged := true }) s

/-! ## Waits and pauses (R254, R255, R306) -/

/-- The round of a barrier as a thread sees it, or none where its address does not reach one. -/
def State.roundAt (s : State) (t : Thread) (va : Word) : Option Nat :=
  let core := t.core.getD 0
  match s.translate core t.parcel t.ctx.priv .load va.toNat with
  | .ok (a, _) =>
    match s.placeOf (some core) (crewOf core) t.parcel a with
    | .ok (.loc l) => some (barRound (s.readObj l 16))
    | _ => none
  | .error _ => none

/-- Whether a thread's wait is over: its condition holds, or the waiting instruction would trap (R255). -/
def State.satisfied (s : State) (t : Thread) : Wait → Bool
  | .tagsAny m => t.ctags &&& m != 0 || t.tagFaults.any fun e => m.getLsbD e.1
  | .tagsAll m => t.ctags &&& m == m || t.tagFaults.any fun e => m.getLsbD e.1
  | .barrier va r => s.roundAt t va != some r
  | .phase k p =>
    match (tfind (launchOf t.tid) s.launches).bind (·.stands[k]?) with
    | some st => st.phase != p
    | none => true
  | .copyEntry => (s.copyEntry (t.core.getD 0) t.tid).isSome
  | .launchEntry => s.queued t.parcel < 4096

/-- WAIT_SATISFIED (R255). -/
def execWaitSatisfied (tid : Nat) (s : State) : Result :=
  event (fun s => s.onThread tid (fun _ => true) fun t =>
    match t.state with
    | .runBlocked w =>
      if s.satisfied t w then
        s.setThread { t with state := .runReady, waitSince := s.cycle, strip := none, stripSince := none, evictable := false }
      else s
    | .savedBlocked w => if s.satisfied t w then s.enqueue { t with state := .placementReady } else s
    | _ => s) s

/-- PAUSE_END (R306): 1,024 cycles have passed; a write to a line that the thread read ends its pause with the write. -/
def execPauseEnd (tid : Nat) (s : State) : Result :=
  event (fun s => s.onThread tid (fun t => t.pause.any fun q => q.since + 1024 ≤ s.cycle) fun t =>
    s.setThread { t with pause := none }) s

/-! ## Caches and page walks (R150, R186, R187, R235, R243, R312, R315) -/

/-- An eviction. A tracked line's changes no value (R235); a managed copy's drops it, its dirty bytes on their way home
(R186). -/
def State.evict (s : State) : Evicted → State
  | .mgdCopy die line =>
    match tfind (die * 2 ^ 48 + line) s.copiesMgd with
    | none => s
    | some c =>
      if s.held none (viewLines die [line]) then s else
      let s := s.squashView die line
      let out := if c.dirty = 0 then [] else [s.outgoing die line c]
      { s.dropCopy die line with writeBacks := s.writeBacks ++ out }
  | .tracked _ _ => s
  | .cascade _ lines => if 1 ≤ lines && lines ≤ 3 then s.count fun c => { c with cascades := c.cascades + 1 } else s
  | .coordinate _ hits =>
    s.count fun c => { c with partitionHits := c.partitionHits + hits, partitionEvictions := c.partitionEvictions + 1 }
  | .translation unit parcel page =>
    { s with tlb := s.tlb.filter fun e => !(e.1 == unit && e.2.parcel == parcel && e.2.covers (page * 65536)) }

/-- CACHE_EVICTION (R186). -/
def execCacheEviction (what : Evicted) (s : State) : Result := event (·.evict what) s

/-- A write-back reaches home as one unit (R187), after those of its die to the line that left before it. -/
def State.writeBackArrives (s : State) (n : Nat) : State :=
  match s.writeBacks[n]? with
  | none => s
  | some w =>
    if (s.writeBacks.take n).any (fun v => v.die == w.die && v.line == w.line) || s.held none [w.line] then s else
    { s with writeBacks := s.writeBacks.eraseIdx n }.arriveHome w

/-- MGD_WRITEBACK_ARRIVAL (R187). -/
def execMgdWritebackArrival (n : Nat) (s : State) : Result := event (·.writeBackArrives n) s

def kindSub : AccessKind → Nat
  | .read => 1
  | .write => 2
  | .execute => 3

/-- A walk for a miss of a die's TLB fills it (R312, R315); a walk that fails fills nothing. -/
def State.pageWalk (s : State) (die parcel : Nat) (va : Word) (kind : AccessKind) : State :=
  if 8 ≤ die || (s.parcel parcel).state != 1 || (s.lookup parcel va.toNat (.die die)).isSome then s
  else match s.walk parcel va.toNat (kindSub kind) with
    | .ok e => s.enterTlb (.die die) e
    | .error _ => s

/-- PAGE_WALK (R312). -/
def execPageWalk (die parcel : Nat) (va : BitVec 64) (kind : AccessKind) (s : State) : Result :=
  event (·.pageWalk die parcel va kind) s

end Sys2Proof.Machine
end

