-- ==== Sys2Proof/Machine/Upkeep.lean ====
section
/-! DEFINITION. What the device does to keep itself in order: memory errors, fences, refresh, scrub and the error log (11, 16),
power and heat (21). An event that cannot take place leaves the state as it is. -/

namespace Sys2Proof.Machine

/-! ## The error log (R251, R252) -/

/-- A log entry. -/
def logEntry (cycle pch parcel kind line : Nat) : BitVec 128 :=
  BitVec.ofNat 128 (cycle % 2 ^ 64 * 2 ^ 64 + pch % 256 * 2 ^ 56 + parcel % 64 * 2 ^ 50 + kind % 16 * 2 ^ 46 + line % 2 ^ 45)

/-- A stack's ring takes an entry: the oldest is overwritten once it is full. -/
def StackSt.enter (k : StackSt) (now : Nat) (e : BitVec 128) : StackSt :=
  let full := (tfind k.next k.log).isSome
  { k with log := tput k.next e k.log, next := (k.next + 1) % 256, wrap := k.wrap || full, wrapAt := if full then some now else k.wrapAt }

/-- The owner of a line of device memory, 0 where none is (R246). -/
def State.ownerOf (s : State) (line : Nat) : Nat := (tfind (line / 512) s.frameOwner).getD 0

/-- An entry of a line's stack, under the pseudo-channel that the line lies in: one of the stack's 160 (R251). -/
def State.logLine (s : State) (kind line : Nat) : State :=
  let k := line / 2 ^ 29
  s.setStack k ((s.stack k).enter s.cycle (logEntry s.cycle (Config.pseudoChannel line % 160) (s.ownerOf line) kind line))

/-- What a read of a line in DRAM finds (R246): a mismatch that a second read mends is logged, one that it does not poisons the
line; an on-die correction is logged (R244). -/
def State.readLine (s : State) (line : Nat) (tags : TagCheck) : State :=
  match tags with
  | .good => s
  | .corrected => s.logLine 1 line
  | .second => s.logLine 2 line
  | .bad => (s.poisonLine line).logLine 3 line

/-! ## Errors (R349) -/

/-- A die drops its clean copy of a line, which is read again from below; a tracked line's bytes are the same there (R235). It waits
for the chunk under the priority ticket (R279). -/
def State.dropClean (s : State) (die line : Nat) : State :=
  match tfind (die * 2 ^ 48 + line) s.copiesMgd with
  | none => s
  | some c => if c.dirty ≠ 0 || s.held none (viewLines die [line]) then s else (s.squashView die line).dropCopy die line

/-- The data of a request in a hub's buffer are poisoned: a store stores poison, and any other request is answered with the code of
poisoned data (R327, R349, R350; log entry 79). -/
def State.strikeRequest (s : State) (id : Nat) : State :=
  match s.request id with
  | none => s
  | some q =>
    if q.folded || q.answer.isSome || !q.sent then s else
    match q.op with
    | .store data _ => { s with fabric := s.fabric.map fun m => if m.id == id then { m with op := .poison data.length } else m }
    | .poison _ => s
    | _ => s.failRequest q 4

/-- A double-bit error poisons what it strikes; a clean line is read again. -/
def State.strike (s : State) (place : EccPlace) : State :=
  match place with
  | .cleanLine die line => s.dropClean die line
  | .hubBuffer id => s.strikeRequest id
  | .dirtyLine line => s.poisonLine line
  | .register tid file reg index =>
    if 4 < file then s else
    { s with threads := tmod tid (fun t =>
        let m : PoisonMark := { file, reg, index }
        let hit (l : List PoisonMark) : List PoisonMark := if l.contains m then l else m :: l
        { t with poison := hit t.poison, chunk := t.chunk.map fun c => { c with poison := hit c.poison } }) s.threads }
  | .scratch crew offset =>
    if crew < 96 && offset < 2 ^ 23 then { s with scratchPoison := mput ((crew * 2 ^ 23 + offset) / 8) s.scratchPoison } else s
  | .dram _ _ => s

/-- ECC_ERROR (R349): a single-bit error is corrected and counted; an error of a live line in DRAM is what R246 says. -/
def execEccError (double : Bool) (place : EccPlace) (s : State) : Result :=
  event (fun s =>
    match place with
    | .dram line tags => if line < 2 ^ 32 && s.live.contains (line / 32) then s.readLine line tags else s
    | _ => if double then s.strike place else s.count fun c => { c with corrected := c.corrected + 1 }) s

/-! ## Fencing (R357, R358) -/

/-- Committed tile operations of a thread are performed before it is saved (R158). -/
def State.runTiles (s : State) (tid : Nat) : Nat → State
  | 0 => s
  | n + 1 => (s.tileOp tid).runTiles tid n

/-- A resident of a fenced core is saved, or removed when its context does not read back clean. -/
def State.fenceThread (s : State) (corrupt : List Nat) (tid : Nat) : State :=
  match tfind tid s.threads with
  | none => s
  | some t => if corrupt.contains tid || !t.poison.isEmpty then s.removeThread tid else (s.runTiles tid t.tileQueue.length).takeOff tid

/-- Dwords as one payload, the first lowest. -/
def packed : List Nat → Nat
  | [] => 0
  | x :: r => x % 2 ^ 64 + 2 ^ 64 * packed r

/-- The parcel that a core's crew is allocated to; where none is, that of its residents, if any (R358). -/
def State.tenantOf (s : State) (core : Nat) : Nat :=
  match (List.range 64).find? fun p => (s.parcel p).crews.getLsbD (crewOf core) with
  | some p => p
  | none => match s.residents core with | t :: _ => t.parcel | [] => 0

/-- The traverses that a core's threads started stop with its fence (R370). -/
def Traverse.fenced (v : Traverse) (core : Nat) : Traverse :=
  if v.core == core && v.stop.isNone then { v with stop := some ({ code := 12, sub := 3, val := 0 }, 0) } else v

/-- The fence of one core (R358). -/
def State.fence (s : State) (core : Nat) (corrupt : List Nat) : State :=
  let here := s.residents core
  let parcel := s.tenantOf core
  let s := here.foldl (fun s t => s.fenceThread corrupt t.tid) s
  let gone := (here.map (·.tid)).filter fun k => (tfind k s.threads).isNone
  let stop (c : Copy) : Copy := if c.core == core then { c.fail { code := 12, sub := 3, val := 0 } with started := true } else c
  let s := { s with copies := s.copies.map stop, traverses := s.traverses.map fun e : Nat × Traverse => (e.1, e.2.fenced core) }
  let s := s.wipeScratch core 0 (2 ^ 21)
  let s := s.setCore core { s.core core with fenced := true }
  s.send { code := 0x81, parcel, seq := 0, status := 0, len := 8 * (gone.length + 1), payload := packed (core :: gone) }

/-- The condition on which a core in service is fenced (R357). -/
def State.mayFence (s : State) (core : Nat) (cause : FenceCause) : Bool :=
  core < 384 && !(s.core core).fenced && match cause with
    | .control | .matrixUnit => true
    | .starved tid => (tfind tid s.threads).any fun t =>
        t.core == some core && (s.nextStrip t).isSome && t.stripSince.any fun c => c + 2 ^ 24 ≤ s.cycle

/-- CORE_FENCE (R358). It waits for a priority commit that uses the scratchpad portions but not the cores (R279). -/
def execCoreFence (core : Nat) (cause : FenceCause) (corrupt : List Nat) (s : State) : Result :=
  event (fun s =>
    let cores := if cause == .matrixUnit then (List.range 4).map (crewOf core * 4 + ·) else [core]
    let cores := cores.filter fun k => !(s.core k).fenced
    if s.mayFence core cause && !cores.any (fun k => s.pins none fun t c => !cores.any (t.core == some ·) && portionUser k 0 (2 ^ 21) t c) then
      cores.foldl (fun s k => s.fence k corrupt) s
    else s) s

/-! ## Refresh (R244, R245) -/

/-- REFRESH_DUE (R245): while a burst holds a row open the refresh is postponed, at most four times. -/
def execRefreshDue (stack bank : Nat) (burst : Bool) (s : State) : Result :=
  event (fun s =>
    let k := s.stack stack
    let n := tget 0 bank k.postponed
    if !burst then s.setStack stack { k with postponed := tset 0 bank 0 k.postponed }
    else if n < 4 && stack < 8 then
      (s.setStack stack { k with postponed := tset 0 bank (n + 1) k.postponed }).count fun c =>
        { c with postponements := c.postponements + 1 }
    else s) s

/-- REFRESH_POSTPONE_LIMIT (R245): the row is closed, the bank refreshed and the row opened again. -/
def execRefreshPostponeLimit (stack bank : Nat) (s : State) : Result :=
  event (fun s =>
    let k := s.stack stack
    if tget 0 bank k.postponed = 4 then s.setStack stack { k with postponed := tset 0 bank 0 k.postponed } else s) s

/-! ## Patrol scrub and key rotation (R249, R250) -/

/-- The lowest live line of a stack at or above a line. -/
def State.nextLive (s : State) (stack line : Nat) : Option Nat :=
  (s.live.find? fun b => b / 2 ^ 24 == stack && line < b * 32 + 32).map fun b => max line (b * 32)

/-- A parcel's rotation begins: its newest version rises, and every stack has still to pass over its lines (R250). -/
def Parcel.rotate (p : Parcel) : Parcel :=
  if p.rotations && p.retiring.isNone && p.state == 1 then
    { p with rotations := false, retiring := some p.kver, kver := (p.kver + 1) % 16, toScrub := List.range 8 }
  else p

/-- SCRUB_PASS_START (R249, R250). -/
def State.passStarts (s : State) (stack : Nat) : State :=
  let k := s.stack stack
  if 8 ≤ stack || k.scrubbing.isSome || s.time < k.passStart + k.scrubHours * 3600000000 * microsecond then s else
  let ps := s.parcels.map Parcel.rotate
  let mine := (List.range 64).filter fun p => (ps[p]?.any fun q => q.toScrub.contains stack)
  { s with parcels := ps }.setStack stack
    { k with passStart := s.time, scrubbing := some (stack * 2 ^ 29), rotating := mine }

def execScrubPassStart (stack : Nat) (s : State) : Result := event (·.passStarts stack) s

/-- SCRUB_LINE (R249): the next live line is read, checked, encrypted anew where its version is an older one, and written. -/
def State.scrub (s : State) (stack : Nat) (tags : TagCheck) : State :=
  let k := s.stack stack
  match k.scrubbing.bind (s.nextLive stack) with
  | none => s
  | some line =>
    let s := s.readLine line tags
    { s with lineKver := tset 0 line (s.kverOf line) s.lineKver }.setStack stack { s.stack stack with scrubbing := some (line + 1) }

def execScrubLine (stack : Nat) (tags : TagCheck) (s : State) : Result := event (·.scrub stack tags) s

/-- A stack's pass has ended for a parcel: its older version is retired once every stack has passed (R250). -/
def Parcel.scrubbed (p : Parcel) (stack : Nat) : Parcel :=
  let rest := p.toScrub.filter (· != stack)
  { p with toScrub := rest, retiring := if rest.isEmpty then none else p.retiring }

/-- SCRUB_PASS_END (R250, R251): no live line is left to visit. A pass that ends a rotation is logged. -/
def State.passEnds (s : State) (stack : Nat) : State :=
  let k := s.stack stack
  match k.scrubbing with
  | none => s
  | some line =>
    if (s.nextLive stack line).isSome then s else
    let e : StackSt := { k with scrubbing := none, rotating := [] }
    let e := if k.rotating.isEmpty then e else e.enter s.cycle (logEntry s.cycle 0 0 4 0)
    k.rotating.foldl (fun s p => s.setParcel p ((s.parcel p).scrubbed stack)) (s.setStack stack e)

def execScrubPassEnd (stack : Nat) (s : State) : Result := event (·.passEnds stack) s

/-- LOG_WRAP_CLEAR (R252, R394). -/
def execLogWrapClear (stack : Nat) (s : State) : Result :=
  event (fun s => s.setStack stack ((s.stack stack).clearWrap s.cycle)) s

/-! ## Power and heat (R395, R396) -/

/-- The clock after a window, in MHz (R395); a thermal hold keeps it at 875 (R396). -/
def nextClock (clock limit watts : Nat) (held : Bool) : Nat :=
  if held then 875
  else if limit < watts then max 875 (clock - 125)
  else if watts * 100 < limit * 95 then min 1750 (clock + 125)
  else clock

/-- POWER_WINDOW (R395): a window of 10 ms ends. -/
def execPowerWindow (watts : Nat) (s : State) : Result :=
  event (fun s =>
    if s.windowStart + 10000 * microsecond ≤ s.time then
      { s with windowStart := s.windowStart + 10000 * microsecond, clock := nextClock s.clock s.powerLimit watts s.thermalHold }
    else s) s

/-- CREW_CLOCK_GATE (R395). -/
def execCrewClockGate (crew : Nat) (s : State) : Result :=
  event (fun s =>
    if crew < 96 && !(s.threads.any fun e => e.2.core.any (crewOf · == crew)) && tget 0 crew s.busy + 2 ^ 16 ≤ s.cycle then
      { s with gated := mput crew s.gated }
    else s) s

/-- THERMAL_THROTTLE (R396). -/
def execThermalThrottle (die celsius : Nat) (s : State) : Result :=
  event (fun s => if die < 8 && 105 < celsius then { s with clock := 875, thermalHold := true } else s) s

/-- THERMAL_RECOVERY (R396): every die is below 100 °C. -/
def execThermalRecovery (celsius : List Nat) (s : State) : Result :=
  event (fun s => if celsius.length = 8 && celsius.all (· < 100) then { s with thermalHold := false } else s) s

/-- Every thread and engine stops without being saved (R396). -/
def State.halt (s : State) : State :=
  { s with
    threads := [], launches := [], persistent := [], ticket := none, priorityQueues := Vector.replicate 8 [],
    farQueues := [], farWaits := [], copies := [], drains := [], engines := [], departed := [], traverses := [], fabric := [] }

/-- THERMAL_TRIP (R396). -/
def execThermalTrip (die celsius : Nat) (s : State) : Result :=
  event (fun s =>
    if die < 8 && 115 < celsius then
      { s.halt.send { code := 0x84, parcel := 0, seq := 0, status := 0, len := 8, payload := die } with phase := .tripped }
    else s) s

end Sys2Proof.Machine
end

