-- ==== Sys2Proof/Machine/Management.lean ====
section
/-! DEFINITION. Bring-up and the requests of the management path (21; 14, R296 to R300, R314; 12, R260; 16, R356). Every request is
answered once; one that must wait for an engine is performed, and answered, at a later event. -/

namespace Sys2Proof

/-! The header of a request (R390). Its reserved bits and its status are ignored (log entry 80). -/

def ReqHead.len (h : ReqHead) : Nat := (h.word.extractLsb' 48 16).toNat
def ReqHead.parcel (h : ReqHead) : Nat := (h.word.extractLsb' 32 6).toNat
def ReqHead.seq (h : ReqHead) : BitVec 8 := h.word.extractLsb' 24 8
def ReqHead.code (h : ReqHead) : Nat := (h.word.extractLsb' 0 8).toNat

/-- Frames that the context store holds (R348). -/
def ContextStore.overlaps (k : ContextStore) (first count : Nat) : Bool := first < k.first + k.frames && k.first < first + count

end Sys2Proof

namespace Sys2Proof.Machine

/-! ## Requests and responses (R389 to R391) -/

/-- The header of a message of the device's (R390). -/
def Message.header (m : Message) : BitVec 64 :=
  BitVec.ofNat 16 m.len ++ 0#10 ++ BitVec.ofNat 6 m.parcel ++ m.seq ++ BitVec.ofNat 8 m.status ++ 0#8 ++ BitVec.ofNat 8 m.code

/-- The response to a request (R390): its code, its parcel and its sequence number, and a status. -/
def State.reply (s : State) (h : ReqHead) (status : Nat) : State :=
  s.send { code := h.code, parcel := h.parcel, seq := h.seq, status, len := 0, payload := 0 }

/-- The phases in which a request is performed (R389). -/
def readyFor (code : Nat) (p : Phase) : Bool :=
  match code with
  | 0x01 => p == .step 2
  | 0x0F => p == .step 6
  | 0x06 | 0x07 | 0x08 | 0x0E => p == .run || p == .step 6
  | _ => p == .run

/-- The payload's length is that of the request (R390, R391): each of its numbers is a dword (log entry 80). -/
def lengthOk (code len : Nat) : Bool :=
  match code with
  | 0x01 => len % 8 = 0
  | 0x02 => len = 64
  | 0x03 | 0x06 | 0x0E => len = 24
  | 0x07 | 0x0D => len = 16
  | 0x04 | 0x08 | 0x09 | 0x0B | 0x0C => len = 8
  | 0x05 | 0x0A | 0x0F => len = 0
  | _ => true

/-- The codes that R391 assigns. -/
def assigned (code : Nat) : Bool := 1 ≤ code && code ≤ 15

/-- What performing a request comes to: its response with a status, and what follows the response; or it must wait, with what it has
done so far. -/
inductive Served where
  | answer (status : Nat) (s : State) (after : State → State)
  | wait (s : State)

/-- A request refused with a status changes nothing. -/
def refused (s : State) (status : Nat) : Served := .answer status s id
def performed (s : State) : Served := .answer 0 s id

/-! ## Bring-up (R388) -/

/-- The module held in reset: what lies outside it stays, the host's own memory among it. -/
def State.cold (s : State) : State :=
  { State.reset with
    turns := s.turns, draws := s.draws, sent := s.sent, answers := s.answers, mem := s.mem.filter fun e => ofHost e.1,
    poisoned := s.poisoned.filter fun l => ofHost (l * 128), phase := .held, devnum := none,
    ports := Vector.replicate 32 0, fyzWidth := 0, fyzVersion := 0 }

/-- RESET_PIN_ASSERT (R388). -/
def execResetPinAssert (s : State) : Result := .next s.cold

/-- RESET_PIN_RELEASE (R388, step 1): the endpoints wait for an image. -/
def execResetPinRelease (s : State) : Result := .next (if s.phase == .held then { s with phase := .step 2 } else s)

/-- A step fails: the bring-up record names it, and the module stays in reset. -/
def State.failStep (s : State) (n : Nat) : State :=
  { s with phase := .failed n }.send { code := 0x83, parcel := 0, seq := 0, status := 0, len := 8, payload := n }

/-- Cores fenced by their self-tests (R357, R388): those that failed, and every core of a crew whose matrix unit failed. -/
def State.selfTest (s : State) (r : FirmwareReport) : State :=
  { s with cores := s.cores.zipIdx.map fun (c, k) =>
      { c with fenced := r.failedCores.contains k || r.failedUnits.contains (crewOf k) } }

/-- Steps 3 to 5 after an image that was accepted, and the context store that step 6 begins by reserving (R348). -/
def State.train (s : State) (r : FirmwareReport) : State :=
  if !r.stacksOk then s.failStep 3
  else if !r.linksOk then s.failStep 4
  else { s.selfTest r with phase := .step 6, store := r.store }

/-- The image, checked by each hub (R388, step 2). -/
def State.loadImage (s : State) (image : FirmwareReport) : Served :=
  if !image.crcOk || !image.versionOk then refused s 1 else .answer 0 s (·.train image)

/-- Steps 7 and 8: the external links as training left them, and the end of reset. -/
def State.finishReset (s : State) (r : LinkReport) : State :=
  let ok (w : Nat) : Nat := if w = 1 || w = 2 || w = 4 then w else 0
  let fyz := if r.fyzozorVersion = 1 && (r.fyzozorWidth = 8 || r.fyzozorWidth = 16 || r.fyzozorWidth = 32) then r.fyzozorWidth else 0
  { s with
    ports := Vector.ofFn fun k => ok (r.ports[k.val]?.getD 0), fyzWidth := fyz, fyzVersion := if fyz = 0 then 0 else 1,
    fyzMax := if fyz = 0 then 32 else fyz, cycle := 0, time := 0, windowStart := 0, phase := .run,
    portHeard := Vector.replicate 32 0, portSent := Vector.replicate 32 0, beatSent := 0, beatHeard := [] }.sendLinkStatus

/-- Configuration is complete (R388, steps 6 to 8): without a device number the sequence ends. -/
def State.complete (s : State) (links : LinkReport) : Served :=
  if s.devnum.isNone then .answer 1 s (·.failStep 6) else .answer 0 s (·.finishReset links)

/-! ## Parcel descriptors (R296, R297, R300) -/

/-- Whether a ptroot or trapvec value keeps the layouts of R301. -/
def ptrootOk (x : Nat) : Bool := field 63 52 x = 0 && field 15 0 x = 0
def trapvecOk (x : Nat) : Bool := field 63 55 x = 0 && field 1 0 x = 0

/-- The descriptor that a request writes, over what the parcel holds. -/
def Parcel.described (p : Parcel) (d : Nat) : Parcel :=
  { p with
    crews := BitVec.ofNat 96 (field 415 320 d), trapvec0 := BitVec.ofNat 64 (field 319 256 d),
    ptroot0 := BitVec.ofNat 64 (field 255 192 d), rquota := field 63 55 d, kcount := field 54 48 d, kfirst := field 37 32 d,
    wlim := field 31 24 d, ceiling := field 17 12 d, version := field 7 0 d }

/-- A parcel as its creation leaves it (R297). -/
def Parcel.created (p : Parcel) : Parcel :=
  { p with state := 1, ptroot := p.ptroot0, trapvec := p.trapvec0, pshare := BitVec.ofNat 64 p.wlim }

/-- Two ranges of key entries share one (R296). -/
def sharesKeys (a b : Parcel) : Bool :=
  a.kcount ≠ 0 && b.kcount ≠ 0 && a.kfirst < b.kfirst + b.kcount && b.kfirst < a.kfirst + a.kcount

/-- A descriptor that R296 refuses for parcel p. -/
def State.badDescriptor (s : State) (p : Nat) (q : Parcel) : Bool :=
  let others := ((List.range 64).filter (· != p)).map s.parcel
  let live := others.filter (·.state != 0)
  (s.parcel p).state = 2 || q.version ≠ 1 || 47 < q.ceiling || !ptrootOk q.ptroot0.toNat || !trapvecOk q.trapvec0.toNat
    || 256 < q.rquota || 256 < q.rquota + (live.map (·.rquota)).sum || 64 < q.kfirst + q.kcount
    || others.any (fun o => o.crews &&& q.crews != 0) || live.any (sharesKeys q)

/-- Crews that leave a parcel are to be cleared, and crews that come back to it are not (R300). -/
def State.moveCrews (s : State) (p : Nat) (old new : BitVec 96) : State :=
  { s with leaving := (List.range 96).foldl (fun m c =>
      if old.getLsbD c && !new.getLsbD c && (tfind c m).isNone then tput c p m
      else if new.getLsbD c && tfind c m == some p then tdrop c m
      else m) s.leaving }

/-- Key-table entries of a parcel are cleared. -/
def State.clearKeys (s : State) (p : Nat) : State := { s with keys := s.keys.filter fun e => e.2.localParcel != p }

/-- A descriptor is written (R296, R297). -/
def State.describe (s : State) (p : Nat) (desc : BitVec 512) : Served :=
  let old := s.parcel p
  let q := old.described desc.toNat
  if s.badDescriptor p q then refused s 1 else
  let s := if old.state ≠ 0 && (old.kfirst ≠ q.kfirst || old.kcount ≠ q.kcount) then s.clearKeys p else s
  performed ((s.moveCrews p old.crews q.crews).setParcel p (if old.state = 0 then q.created else q))

/-! ## Root threads and launches (R260, R356) -/

/-- The launch of a root thread. -/
def rootLaunch (p : Nat) (q : Parcel) (entry args : Word) (cls : Nat) (part : BitVec 32) : Launch :=
  { parcel := p, count := 1, stands := [], sets := [], gang := false, root := true, entry, args, chunkhint := 0,
    part := if part = 0 then defaultPart else part, prio := q.ceiling, cls, unplaced := 1 }

/-- A root thread is created (R260); it waits for a priority commit that its launch would crowd (R279). -/
def State.createRoot (s : State) (p : Nat) (entry args config : Word) : Served :=
  if config.extractLsb' 2 30 ≠ 0 then refused s 3 else
  let q := s.parcel p
  let part : BitVec 32 := config.extractLsb' 32 32
  if q.state ≠ 1 || q.root.isSome || (part ≠ 0 && !partOk part) then refused s 1 else
  if s.pins none (s.crowds p 1) then .wait s else
  let n := s.nextLaunch
  performed (({ s with nextLaunch := n + 1 }.setParcel p { q with root := some (n * 2 ^ 24) }).createLaunch n
    (rootLaunch p q entry args (config.toNat % 4) part))

/-- Steps 1 and 2 of R299 for the threads of a list: they are removed with their engine operations, whose
cursors say how far they came (R370), and the replies of their requests will be discarded. -/
def State.stopThreads (s : State) (tids : List Nat) : State :=
  let mine (tid : Nat) : Bool := tids.contains tid
  let copies := (s.copies.filter fun c => mine c.tid).map (·.id)
  let slots := (s.traverses.filter fun e => mine e.2.tid).map (·.1)
  let dead (q : FabricReq) : Bool :=
    q.tid.any mine || (match q.reply with
      | .copyRead c _ => copies.contains c
      | .copyWrite c _ => copies.contains c
      | .copyMask c _ => copies.contains c
      | .postRead p _ _ => slots.contains p
      | .postWrite p _ _ => slots.contains p
      | .postCredit p _ => slots.contains p
      | _ => false)
  let s := tids.foldl State.removeThread s
  let s := (s.traverses.filter fun e => mine e.2.tid).foldl (fun s e => s.stopTraverse e.1 e.2 { code := 0, sub := 0, val := 0 } 0) s
  let ended := copies ++ (s.drains.filter fun d => mine d.tid).map (·.id)
  { s with
    copies := s.copies.filter fun c => !mine c.tid
    drains := s.drains.filter fun d => !mine d.tid
    departed := s.departed.filter fun e => !mine e.1
    engines := s.engines.filter fun e => !ended.contains e.1
    farQueues := s.farQueues.map fun e => (e.1, e.2.filter fun f => !mine f.2.1)
    farWaits := s.farWaits.filter fun w => !mine w.2.2.1
    fabric := s.fabric.map fun q => if dead q then { q with reply := .combined } else q }

/-- A parcel's threads that still live, or whose operations run on after their exit (R259). -/
def State.tidsOf (s : State) (parcel : Nat) : List Nat :=
  distinct ((s.threads.filter fun e => e.2.parcel == parcel).map (·.1) ++ (s.copies.filter (·.parcel == parcel)).map (·.tid)
    ++ (s.drains.filter (·.parcel == parcel)).map (·.tid) ++ (s.departed.filter fun e => e.2.parcel == parcel).map (·.1)
    ++ (s.traverses.filter (·.1 == parcel)).map (·.2.tid) ++ (s.fabric.filter (·.parcel == parcel)).filterMap FabricReq.tid)

/-- A launch is removed (R356). It waits for a priority commit that uses the cursor of a traverse that it stops (R279). -/
def State.removeLaunch (s : State) (parcel launch : Nat) : Served :=
  let tids := (s.tidsOf parcel).filter (launchOf · == launch)
  if s.traverses.any fun e => tids.contains e.2.tid && !s.mayEnd e.1 e.2 then .wait s else performed (s.stopThreads tids)

/-! ## Owners (R314, R299) -/

/-- The lines of frames. -/
def frameLines (frames : List Nat) : List Nat := frames.flatMap fun f => (List.range 512).map (f * 512 + ·)

/-- Some translation maps a byte between two physical addresses. -/
def TlbEntry.maps (lo hi : Nat) (e : TlbEntry) : Bool := ptePpn e.leaf * 65536 < hi && lo < ptePpn e.leaf * 65536 + e.size

/-- A copy or a traverse keeps a translation that a test picks (R318). -/
def State.engineHolds (s : State) (p : TlbEntry → Bool) : Bool :=
  s.engines.any fun e =>
    (s.copies.any (·.id == e.1) || s.traverses.any fun v => traverseEngine v.1 == e.1) && e.2.pages.any p

/-- An engine element or an access on its way that holds a translation of a byte between two physical addresses has not been
performed (R314). -/
def State.holdsPlace (s : State) (lo hi : Nat) : Bool :=
  let inside (pa : Nat) : Bool := lo ≤ pa && pa < hi
  s.engineHolds (·.maps lo hi)
    || (s.copies.any fun c => c.forked && c.bar.any inside) || (s.traverses.any fun e => inside e.2.cursorLoc)
    || s.threads.any fun e => e.2.deferred.any fun d => viewBase ≤ d.pa && inside (viewPa d.pa)

/-- The refill engines keep no translation that a test picks: what they fetch with one is fetched at once. -/
def State.dropPages (s : State) (p : TlbEntry → Bool) : State :=
  { s with engines := s.engines.map fun e => (e.1, { e.2 with pages := e.2.pages.filter (!p ·) }) }

/-- Stream data fetched ahead from a place are dropped, with the translations of it that refill engines keep. -/
def State.dropRefill (s : State) (lo hi : Nat) : State :=
  let s := s.dropPages (·.maps lo hi)
  let keep (e : Nat × Nat × Nat) : Bool := e.2.1 < lo || hi ≤ e.2.1
  { s with threads := s.threads.map fun e => (e.1, { e.2 with refill := e.2.refill.map fun r => (r.1, r.2.filter keep) }) }

/-- No die keeps a copy, nor a write-back on its way, of lines that change owner. -/
def State.forget (s : State) (lines : List Nat) : State :=
  let s := (s.copiesMgd.filter fun e => lines.contains (e.1 % 2 ^ 48)).foldl (fun s e =>
    (s.squashView (e.1 / 2 ^ 48) (e.1 % 2 ^ 48)).dropCopy (e.1 / 2 ^ 48) (e.1 % 2 ^ 48)) s
  { s with writeBacks := s.writeBacks.filter fun w => !lines.contains w.line }

/-- Frames change owner as one unit of the order (R314). -/
def State.setFrames (s : State) (frames : List Nat) (owner : Option Nat) : State :=
  let lines := frameLines frames
  let s := s.dropTlb fun e => frames.any fun f => e.maps (f * 65536) (f * 65536 + 65536)
  let s := (s.forget lines).kill none none lines
  { s with frameOwner := frames.foldl (fun m f => match owner with | some p => tput f p m | none => tdrop f m) s.frameOwner }

/-- Whether a change of owner would squash the chunk that holds the priority ticket (R279). -/
def State.pinsPlace (s : State) (lo hi : Nat) : Bool :=
  s.pins none fun _ c => (c.pages.any fun e => e.maps lo hi) || (c.reads ++ c.writes).any fun l =>
    let pa := if l * 128 < viewBase then l * 128 else viewPa (l * 128)
    lo ≤ pa && pa < hi

/-- The owner that a request names: none to unassign; or the status with which it is turned away. -/
def State.ownerFor (s : State) (owner : Nat) : Except Nat (Option Nat) :=
  if owner = 0xFF then .ok none
  else if 64 ≤ owner then .error 3
  else if (s.parcel owner).state = 2 then .error 1
  else .ok (some owner)

/-- Frames are assigned or lose their owner (R314); those of the context store never have one (R348). -/
def State.giveFrames (s : State) (first count owner : Nat) : Served :=
  match s.ownerFor owner with
  | .error st => refused s st
  | .ok o =>
    if 2 ^ 23 < first + count then refused s 3
    else if s.store.overlaps first count || s.blockOwner.any fun b => b.1 * 8192 < first + count && first < b.1 * 8192 + 8192 then
      refused s 1
    else
      let lo := first * 65536
      let hi := (first + count) * 65536
      if s.holdsPlace lo hi || s.pinsPlace lo hi then .wait s
      else performed ((s.dropRefill lo hi).setFrames ((List.range count).map (first + ·)) o)

/-- A block may be given to a parcel: every frame of it names the parcel. -/
def State.blockFull (s : State) (b p : Nat) : Bool :=
  (s.frameOwner.filter fun e => e.1 / 8192 == b && e.2 == p).length == 8192

/-- Blocks change owner (R314). -/
def State.setBlocks (s : State) (blocks : List Nat) (owner : Option Nat) : State :=
  { s with blockOwner := blocks.foldl (fun m b => match owner with | some p => tput b p m | none => tdrop b m) s.blockOwner }

/-- Blocks are assigned or lose their owner (R314). -/
def State.giveBlocks (s : State) (first count owner : Nat) : Served :=
  match s.ownerFor owner with
  | .error st => refused s st
  | .ok o =>
    let blocks := (List.range count).map (first + ·)
    if 1024 < first + count then refused s 3
    else if o.any fun p => blocks.any fun b => !s.blockFull b p then refused s 1
    else
      let lo := first * 2 ^ 29
      let hi := (first + count) * 2 ^ 29
      let mine (e : TlbEntry) : Bool := e.big && e.maps lo hi
      if s.engineHolds mine || s.pins none fun _ c => c.pages.any mine then .wait s
      else
        let s := (s.dropRefill lo hi).dropTlb mine
        performed (s.setBlocks blocks o)

/-- Step 3 of R299: a parcel's regions on every die. -/
def State.freeRegions (s : State) (p : Nat) : State :=
  { s with regions := s.regions.map fun rs => rs.filter fun r => r.parcel != p }

/-- The crews of a parcel that has ended are cleared and released (R300), those that have left it before among them; one that still stands
to be cleared of an earlier parcel was never used by this one. -/
def State.releaseCrews (s : State) (p : Nat) (crews : BitVec 96) : State :=
  let mine := (List.range 96).filter fun c => tfind c s.leaving == some p || (crews.getLsbD c && (tfind c s.leaving).isNone)
  let s := mine.foldl (fun s c => (List.range 4).foldl (fun s k => s.wipeScratch (c * 4 + k) 0 (2 ^ 21)) s) s
  { s with leaving := s.leaving.filter (·.2 != p) }

/-- Steps 1 to 5 of a parcel's end (R299), in its order. The descriptor reads state 2 from now on. -/
def State.beginEnd (s : State) (p : Nat) : State :=
  let s := s.setParcel p { s.parcel p with state := 2 }
  let s := (s.stopThreads (s.tidsOf p)).freeRegions p
  let silent (q : FabricReq) : FabricReq := if q.parcel == p then { q with reply := .combined } else q
  let s := { s with
    copies := s.copies.filter (·.parcel != p), fabric := s.fabric.map silent }
  let s := (s.clearKeys p).setParcel p { s.parcel p with outkey := 0 }
  s.dropTlb fun e => e.parcel == p

/-- Steps 6 and 7 of a parcel's end (R299). -/
def State.endParcel (s : State) (p : Nat) : State :=
  let frames := (s.frameOwner.filter fun e => e.2 == p).map (·.1)
  let s := s.setFrames frames none
  let s := { s with blockOwner := s.blockOwner.filter fun e => e.2 != p }
  (s.releaseCrews p (s.parcel p).crews).setParcel p Parcel.free

/-- A parcel ends (R299), in two turns of its hub's endpoint: in between it is ending. A chunk of another parcel never uses its frames or
crews, so that no priority commit is in the way. -/
def State.endRequest (s : State) (p : Nat) (begun : Bool) : Served :=
  if begun then performed (s.endParcel p)
  else if (s.parcel p).state ≠ 1 then refused s 1
  else .wait (s.beginEnd p)

/-! ## The other requests -/

/-- A routing-table entry is written (R321): reserved bits stay 0. -/
def State.setRoute (s : State) (dev : Nat) (entry : BitVec 32) : Served :=
  if 1024 ≤ dev then refused s 3 else performed { s with routes := tset 0 dev (entry &&& 0xC03FFFFF) s.routes }

/-- The device number (R320, R391): accepted only in step 6. -/
def State.setNumber (s : State) (number : Nat) : Served :=
  if s.phase == .run then refused s 1
  else if 1024 ≤ number then refused s 3
  else performed { s with devnum := some number }

/-- A lost mark is cleared (R354). -/
def State.clearLost (s : State) (dev : Nat) : Served :=
  if 1024 ≤ dev then refused s 3 else performed { s with lost := mdrop dev s.lost }

/-- A key rotation is asked for (R250): it begins with the next pass. -/
def State.askRotation (s : State) (parcel : Nat) : Served :=
  if (s.parcel parcel).state ≠ 1 then refused s 1
  else performed (s.setParcel parcel { s.parcel parcel with rotations := true })

/-- The scrub period of every stack (R249). -/
def State.setPeriod (s : State) (hours : Nat) : Served :=
  if hours = 0 || 255 < hours then refused s 3
  else performed { s with hbm := s.hbm.map fun k => { k with scrubHours := hours } }

/-- The power limit (R395). -/
def State.setPower (s : State) (watts : Nat) : Served :=
  if watts < 600 || 2400 < watts then refused s 1 else performed { s with powerLimit := watts }

/-- An aperture that R298 refuses. -/
def badAperture (a : Word) : Bool :=
  field 62 57 a.toNat ≠ 0 || (a.getLsbD 63 && (field 56 28 a.toNat = 0 || 2 ^ 28 < field 27 0 a.toNat + field 56 28 a.toNat))

/-- A host aperture is written (R298). -/
def State.setAperture (s : State) (p k : Nat) (a : Word) : Served :=
  if 8 ≤ k then refused s 3
  else if badAperture a then refused s 1
  else
    let mine (e : TlbEntry) : Bool := e.parcel == p && e.maps (2 ^ 44) (2 ^ 45)
    if s.engineHolds mine || (s.traverses.any fun e => e.1 == p && ofHost e.2.cursorLoc) || s.pins none fun _ c => c.pages.any mine then
      .wait s
    else
      let q := s.parcel p
      performed (((s.dropPages mine).dropTlb mine).setParcel p { q with apertures := q.apertures.setIfInBounds k a })

/-! ## The endpoints (R391) -/

/-- The header of a request. -/
def headOf : Instr → ReqHead
  | .loadFirmwareImage h _ => h
  | .writeParcelDescriptor h _ => h
  | .createRootThread h _ _ _ => h
  | .removeLaunch h _ => h
  | .endParcel h => h
  | .assignFrames h _ _ _ => h
  | .writeRouteEntry h _ _ => h
  | .setDeviceNumber h _ => h
  | .clearLostMark h _ => h
  | .requestKeyRotation h => h
  | .setScrubPeriod h _ => h
  | .setPowerLimit h _ => h
  | .writeHostAperture h _ _ => h
  | .assignBlocks h _ _ _ => h
  | .configurationComplete h _ => h
  | .unknownRequest h => h
  | _ => { h0 := false, h1 := false, word := 0 }

/-- A request's own rule. -/
def State.obey (s : State) (begun : Bool) (p : Nat) : Instr → Served
  | .loadFirmwareImage _ image => s.loadImage image
  | .writeParcelDescriptor _ desc => s.describe p desc
  | .createRootThread _ entry args config => s.createRoot p entry args config
  | .removeLaunch _ launch => s.removeLaunch p launch
  | .endParcel _ => s.endRequest p begun
  | .assignFrames _ first count owner => s.giveFrames first count owner
  | .writeRouteEntry _ dev entry => s.setRoute dev entry
  | .setDeviceNumber _ number => s.setNumber number
  | .clearLostMark _ dev => s.clearLost dev
  | .requestKeyRotation _ => s.askRotation p
  | .setScrubPeriod _ hours => s.setPeriod hours
  | .setPowerLimit _ watts => s.setPower watts
  | .writeHostAperture _ index aperture => s.setAperture p index aperture
  | .assignBlocks _ first count owner => s.giveBlocks first count owner
  | .configurationComplete _ links => s.complete links
  | _ => refused s 3

/-- A request is taken up: answered with status 2 where the device is not ready for it, with 3 where its length is not its code's, and
else by its own rule (R389, R390). -/
def State.takeUp (s : State) (begun : Bool) (i : Instr) : Served :=
  let h := headOf i
  if !readyFor h.code s.phase then refused s 2
  else if !lengthOk h.code h.len then refused s 3
  else s.obey begun h.parcel i

/-- The first request that waits at a hub is performed, or goes on waiting (R391). -/
def State.serve (s : State) (hub : Nat) : State :=
  match s.requests.find? (·.1 == hub) with
  | none => s
  | some e =>
    match s.takeUp e.2.2 e.2.1 with
    | .wait u => { u with requests := u.requests.replace e (hub, e.2.1, true) }
    | .answer status u after => after ({ u with requests := u.requests.erase e }.reply (headOf e.2.1) status)

/-- A request arrives (R391): at H0 where both hubs receive it. It is performed at once where none waits there before it. -/
def receive (ok : Nat → Bool) (i : Instr) (s : State) : Result :=
  let h := headOf i
  let hub := if h.h0 then 0 else 1
  .next (
    if !ok h.code || !(h.h0 || h.h1) then s
    else if s.requests.any (·.1 == hub) then { s with requests := s.requests ++ [(hub, i, false)] }
    else { s with requests := s.requests ++ [(hub, i, false)] }.serve hub)

/-- LOAD_FIRMWARE_IMAGE (R388, step 2). -/
def execLoadFirmwareImage (h : ReqHead) (image : FirmwareReport) (s : State) : Result :=
  receive (· == 1) (.loadFirmwareImage h image) s

/-- WRITE_PARCEL_DESCRIPTOR (R296). -/
def execWriteParcelDescriptor (h : ReqHead) (desc : BitVec 512) (s : State) : Result :=
  receive (· == 2) (.writeParcelDescriptor h desc) s

/-- CREATE_ROOT_THREAD (R260). -/
def execCreateRootThread (h : ReqHead) (entry args config : BitVec 64) (s : State) : Result :=
  receive (· == 3) (.createRootThread h entry args config) s

/-- REMOVE_LAUNCH (R356). -/
def execRemoveLaunch (h : ReqHead) (launch : Nat) (s : State) : Result := receive (· == 4) (.removeLaunch h launch) s

/-- END_PARCEL (R299). -/
def execEndParcel (h : ReqHead) (s : State) : Result := receive (· == 5) (.endParcel h) s

/-- ASSIGN_FRAMES (R314). -/
def execAssignFrames (h : ReqHead) (first count owner : Nat) (s : State) : Result :=
  receive (· == 6) (.assignFrames h first count owner) s

/-- WRITE_ROUTE_ENTRY (R321). -/
def execWriteRouteEntry (h : ReqHead) (dev : Nat) (entry : BitVec 32) (s : State) : Result :=
  receive (· == 7) (.writeRouteEntry h dev entry) s

/-- SET_DEVICE_NUMBER (R320, R391). -/
def execSetDeviceNumber (h : ReqHead) (number : Nat) (s : State) : Result := receive (· == 8) (.setDeviceNumber h number) s

/-- CLEAR_LOST_MARK (R354). -/
def execClearLostMark (h : ReqHead) (dev : Nat) (s : State) : Result := receive (· == 9) (.clearLostMark h dev) s

/-- REQUEST_KEY_ROTATION (R250). -/
def execRequestKeyRotation (h : ReqHead) (s : State) : Result := receive (· == 10) (.requestKeyRotation h) s

/-- SET_SCRUB_PERIOD (R249). -/
def execSetScrubPeriod (h : ReqHead) (hours : Nat) (s : State) : Result := receive (· == 11) (.setScrubPeriod h hours) s

/-- SET_POWER_LIMIT (R395). -/
def execSetPowerLimit (h : ReqHead) (watts : Nat) (s : State) : Result := receive (· == 12) (.setPowerLimit h watts) s

/-- WRITE_HOST_APERTURE (R298). -/
def execWriteHostAperture (h : ReqHead) (index : Nat) (aperture : BitVec 64) (s : State) : Result :=
  receive (· == 13) (.writeHostAperture h index aperture) s

/-- ASSIGN_BLOCKS (R314). -/
def execAssignBlocks (h : ReqHead) (first count owner : Nat) (s : State) : Result :=
  receive (· == 14) (.assignBlocks h first count owner) s

/-- CONFIGURATION_COMPLETE (R388, steps 6 to 8). -/
def execConfigurationComplete (h : ReqHead) (links : LinkReport) (s : State) : Result :=
  receive (· == 15) (.configurationComplete h links) s

/-- UNKNOWN_REQUEST (R390): an unassigned code. -/
def execUnknownRequest (h : ReqHead) (s : State) : Result := receive (!assigned ·) (.unknownRequest h) s

end Sys2Proof.Machine
end

