-- ==== Sys2Proof/Machine/Permute.lean ====
section
/-! DEFINITION. The permutes (05, R121). -/

namespace Sys2Proof.Machine

/-- stype, its width, and the mode's check of a permute (R100). -/
def permType (ok : TypeCode → TypeCode → Bool) : Exec (TypeCode × Nat) := do
  let c ← getC
  let t := modeStype c.mode
  needMode (ok t (modeDtype c.mode) && modeScale c.mode == 0)
  return (t, typeWidth c.fmt t)

/-- A permute of one vector source into a vector destination: f gives, from its other operand, the codes of the source, vl and
the active elements, the elements to write. -/
def permute {α : Type} (p0 : Bool) (d a : BitVec 6) (x : Exec α) (f : α → (Nat → Nat) → Nat → List Nat → List (Nat × Nat)) :
    Exec Unit := do
  let (_, w) ← permType (fun _ _ => true)
  if p0 then needMode (modeGuard (← getMode) == 0)
  checkVl w
  let y ← x
  let n ← dstV d
  checkSrcs [(a, w)]
  let es ← activeElems
  let vl := (← getC).vl
  let va ← srcElems a w vl (List.range vl)
  wrElems n w (f y (fun i => getElem va i w) vl es)

def rdNat (b : BitVec 6) : Exec Nat := do return (← rdX b).toNat

/-- vslideup (R121). -/
def execVslideup (d a b : BitVec 6) (_c : Bool) (s : State) : Result :=
  control {} (seq do
    permute false d a (rdNat b) fun n v _ es => (es.filter (n ≤ ·)).map fun i => (i, v (i - n))) s

/-- vslidedn (R121). -/
def execVslidedn (d a b : BitVec 6) (_c : Bool) (s : State) : Result :=
  control {} (seq do
    permute false d a (rdNat b) fun n v vl es => es.map fun i => (i, if i + n < vl then v (i + n) else 0)) s

/-- vgath (R121): the indices are read in dtype. -/
def execVgath (d a b : BitVec 6) (_c _e : Bool) (s : State) : Result :=
  control {} (seq do
    let (_, w) ← permType (fun _ u => 4 ≤ u && u ≤ 7)
    let wi ← widthOf (modeDtype (← getMode))
    checkVl (max w wi)
    let n ← dstV d
    checkSrcs [(a, w), (b, wi)]
    let es ← activeElems
    let vl := (← getC).vl
    let vi ← srcElems b wi vl es
    let va ← srcElems a w vl ((es.map fun i => getElem vi i wi).filter (· < vl))
    wrElems n w (es.map fun i =>
      let j := getElem vi i wi
      (i, if j < vl then getElem va j w else 0))) s

/-- The indices below vl whose bit of a predicate is set. -/
def chosen (p : PReg) (vl : Nat) : List Nat := (List.range vl).filter p.getLsbD

/-- vcompress (R121). -/
def execVcompress (d a b : BitVec 6) (_c : Bool) (s : State) : Result :=
  control {} (seq do
    permute true d a (rdP b.toNat) fun p v vl _ => let l := chosen p vl; (List.range l.length).zip (l.map v)) s

/-- vexpand (R121). -/
def execVexpand (d a b : BitVec 6) (_c : Bool) (s : State) : Result :=
  control {} (seq do
    permute true d a (rdP b.toNat) fun p v vl _ => let l := chosen p vl; l.zip ((List.range l.length).map v)) s

/-- vbcast (R121). -/
def execVbcast (d a : BitVec 6) (s : State) : Result :=
  control {} (seq do
    let (_, w) ← permType (fun _ _ => true)
    checkVl w
    let x ← rdX a
    let n ← dstV d
    wrElems n w ((← activeElems).map fun i => (i, x.toNat))) s

/-- vext (R121): the element extended as R119 states for stype; the guard is not read. -/
def execVext (d a b : BitVec 6) (_c : Bool) (s : State) : Result :=
  control {} (seq do
    let (t, w) ← permType (fun _ _ => true)
    checkVl w
    let n := (← rdX b).toNat
    checkSrcs [(a, w)]
    let vl := (← getC).vl
    let va ← srcElems a w vl (if n < vl then [n] else [])
    let x := if n < vl then getElem va n w else 0
    wrX d (if isInt t then word (intValue t w x) else BitVec.ofNat 64 x)) s

/-- vins (R121): the guard is not read. -/
def execVins (d a b : BitVec 6) (s : State) : Result :=
  control {} (seq do
    let (_, w) ← permType (fun _ _ => true)
    checkVl w
    let x ← rdX a
    let i := (← rdX b).toNat
    let n ← dstV d
    if i < (← getC).vl then wrElems n w [(i, x.toNat)]) s

/-- vmv (R121). -/
def execVmv (d a : BitVec 6) (_c : Bool) (s : State) : Result :=
  control {} (seq do permute false d a (pure ()) fun _ v _ es => es.map fun i => (i, v i)) s

end Sys2Proof.Machine
end

