-- ==== Sys2Proof/Machine/Predicate.lean ====
section
/-! DEFINITION. Compares and predicate logic (05, R113 to R115). -/

namespace Sys2Proof.Machine

/-- A set of element indices as predicate bits. -/
def bitsOf (es : List Nat) : PReg := es.foldl (fun p i => p ||| (1 <<< i)) 0

/-- Write a predicate destination (R98): whole by the control thread, with 0 outside the elements acted on; a VP writes its own
bit (R123). -/
def wrPred (d : BitVec 6) (es on : List Nat) : Exec Unit := do
  if (← get).vp.isSome then
    modC fun c => c.setP d.toNat ((c.pAt d.toNat &&& ~~~bitsOf es) ||| bitsOf on)
  else wrP d.toNat (bitsOf on)

/-- A compare (R113): its integer relation, its floating relation on less, equal and unordered, and whether a quiet NaN raises
NV. -/
structure Cmp where
  int : Int → Int → Bool
  float : Bool → Bool → Bool → Bool
  quietNV : Bool
  needsFloat : Bool

/-- vcmp (R100, R113). -/
def vecCmp (k : Cmp) (d a b : BitVec 6) (s : State) : Result :=
  shared {} (seq do
    let c ← getC
    let t := modeStype c.mode
    let w := typeWidth c.fmt t
    let f := floatFmt c.fmt t
    vpStreams [a, b]
    needMode (modeScale c.mode == 0 && (!k.needsFloat || isFloat t))
    checkVl w
    checkSrcs [(a, w), (b, w)]
    let es ← activeElems
    let va ← srcElems a w c.vl es
    let vb ← srcElems b w c.vl es
    let test (i : Nat) : Bool × Flags :=
      if isInt t then (k.int (intValue t w (getElem va i w)) (intValue t w (getElem vb i w)), 0)
      else
        let x := f.value (getElem va i w)
        let y := f.value (getElem vb i w)
        let un := x.isNan || y.isNan
        let zeros := x.isZero && y.isZero
        let lt := !un && !zeros && x.below y
        let eq := !un && (zeros || (!x.below y && !y.below x))
        (k.float lt eq un, if x.snan || y.snan || (k.quietNV && un) then fNV else 0)
    let out := es.map fun i => (i, test i)
    wrPred d es ((out.filter (·.2.1)).map (·.1))
    raise (out.foldl (fun fl e => fl ||| e.2.2) 0)
    chargePasses c es [(.v a, t), (.v b, t)] []) s

/-- vcmp.eq (R113). -/
def execVcmpEq (d a b : BitVec 6) (_c _e : Bool) (s : State) : Result :=
  vecCmp { int := (· == ·), float := fun _ eq _ => eq, quietNV := false, needsFloat := false } d a b s

/-- vcmp.ne (R113). -/
def execVcmpNe (d a b : BitVec 6) (_c _e : Bool) (s : State) : Result :=
  vecCmp { int := (· != ·), float := fun _ eq _ => !eq, quietNV := false, needsFloat := false } d a b s

/-- vcmp.lt (R113). -/
def execVcmpLt (d a b : BitVec 6) (_c _e : Bool) (s : State) : Result :=
  vecCmp { int := (· < ·), float := fun lt _ _ => lt, quietNV := true, needsFloat := false } d a b s

/-- vcmp.le (R113). -/
def execVcmpLe (d a b : BitVec 6) (_c _e : Bool) (s : State) : Result :=
  vecCmp { int := (· ≤ ·), float := fun lt eq _ => lt || eq, quietNV := true, needsFloat := false } d a b s

/-- vcmp.gt (R113). -/
def execVcmpGt (d a b : BitVec 6) (_c _e : Bool) (s : State) : Result :=
  vecCmp { int := (· > ·), float := fun lt eq un => !lt && !eq && !un, quietNV := true, needsFloat := false } d a b s

/-- vcmp.ge (R113). -/
def execVcmpGe (d a b : BitVec 6) (_c _e : Bool) (s : State) : Result :=
  vecCmp { int := (· ≥ ·), float := fun lt _ un => !lt && !un, quietNV := true, needsFloat := false } d a b s

/-- vcmp.un (R113). -/
def execVcmpUn (d a b : BitVec 6) (_c _e : Bool) (s : State) : Result :=
  vecCmp { int := fun _ _ => false, float := fun _ _ un => un, quietNV := false, needsFloat := true } d a b s

/-- The elements of predicate logic: every one below vl, or a VP's own (R114, R123). -/
def allElems : Exec (List Nat) := do
  let r ← get
  match r.vp with
  | some i => return [i]
  | none => return List.range r.t.ctx.vl

/-- Predicate logic (R114): no mode field is read, and the guard is ignored. -/
def predLogic (f : Bool → Bool → Bool) (d a b : BitVec 6) (s : State) : Result :=
  shared {} (seq do
    let p ← rdP a.toNat
    let q ← rdP b.toNat
    let es ← allElems
    wrPred d es (es.filter fun i => f (p.getLsbD i) (q.getLsbD i))) s

/-- pand (R114). -/
def execPand (d a b : BitVec 6) (s : State) : Result := predLogic (fun p q => p && q) d a b s

/-- por (R114). -/
def execPor (d a b : BitVec 6) (s : State) : Result := predLogic (fun p q => p || q) d a b s

/-- pxor (R114). -/
def execPxor (d a b : BitVec 6) (s : State) : Result := predLogic (fun p q => p != q) d a b s

/-- pandn (R114). -/
def execPandn (d a b : BitVec 6) (s : State) : Result := predLogic (fun p q => p && !q) d a b s

/-- pnot (R114). -/
def execPnot (d a : BitVec 6) (s : State) : Result := predLogic (fun p _ => !p) d a a s

/-- pwhile (R114): the comparison is exact. -/
def execPwhile (d a b : BitVec 6) (s : State) : Result :=
  shared {} (seq do
    let x ← rdX a
    let y ← rdX b
    let es ← allElems
    wrPred d es (es.filter fun i => decide (x.toInt + i < y.toInt))) s

/-- The active elements whose bit of a predicate is set (R115). -/
def setElems (a : BitVec 6) : Exec (List Nat) := do
  let p ← rdP a.toNat
  return (← activeElems).filter p.getLsbD

/-- pcnt (R115). -/
def execPcnt (d a : BitVec 6) (s : State) : Result :=
  control {} (seq do wrX d (BitVec.ofNat 64 (← setElems a).length)) s

/-- pfirst (R115). -/
def execPfirst (d a : BitVec 6) (s : State) : Result :=
  control {} (seq do
    wrX d (match (← setElems a).head? with | some i => BitVec.ofNat 64 i | none => ~~~0)) s

end Sys2Proof.Machine
end

