-- ==== Sys2Proof/Machine/Reduce.lean ====
section
/-! DEFINITION. The reductions (05, R119, R120) and their sum orders (04, R91 to R93). -/

namespace Sys2Proof.Machine

/-- A running result and the flags so far. -/
abbrev Acc := Nat × Flags

/-- One addition of a value to a code, rounded (R91). -/
def addTo (g : Fmt) (rnd : Rnd) (a : Acc) (v : Val) : Acc :=
  let r := roundVal g rnd false 0 ((g.value a.1).add rnd v)
  (r.1, a.2 ||| r.2)

/-- One level of the tree of R92: neighbours are added, a node whose neighbour is absent goes up unchanged. -/
def treeLevel (g : Fmt) (rnd : Rnd) : List (Option Val) → List (Option Val) × Flags
  | some a :: some b :: r =>
    let q := roundVal g rnd false 0 (a.add rnd b)
    let t := treeLevel g rnd r
    (some (g.value q.1) :: t.1, q.2 ||| t.2)
  | some a :: none :: r => let t := treeLevel g rnd r; (some a :: t.1, t.2)
  | none :: b :: r => let t := treeLevel g rnd r; (b :: t.1, t.2)
  | [a] => ([a], 0)
  | [] => ([], 0)

/-- The tree sum of R92 over at most 2^fuel nodes. -/
def treeSum (g : Fmt) (rnd : Rnd) : Nat → List (Option Val) → Option Val × Flags
  | 0, l => (l.head?.getD none, 0)
  | n + 1, l =>
    if l.length ≤ 1 then (l.head?.getD none, 0)
    else
      let t := treeLevel g rnd l
      let r := treeSum g rnd n t.1
      (r.1, t.2 ||| r.2)

/-- The kind of a reduction. -/
inductive Red where
  | ordered | tree | least | greatest
  deriving DecidableEq, Repr

/-- An integer reduction: exact, then narrowed once (R93). -/
def reduceInt (k : Red) (o : Conv) (init : Nat) (xs : List Nat) : Nat :=
  let i := intValue o.u o.wd init
  let vs := xs.map (intValue o.t o.w)
  narrow o.sat o.u o.wd (match k with
    | .ordered | .tree => vs.foldl (· + ·) i
    | .least => vs.foldl min i
    | .greatest => vs.foldl max i)

/-- A floating reduction over elements 0 .. vl - 1, absent where inactive. -/
def reduceFloat (k : Red) (o : Conv) (init : Nat) (xs : List (Option Val)) : Rounded :=
  let g := floatFmt o.fmt o.u
  let vs := xs.filterMap id
  match k with
  | .ordered => vs.foldl (addTo g o.rnd) (init, 0)
  | .tree =>
    let t := treeSum g o.rnd 17 xs
    match t.1 with
    | none => (init, 0)
    | some v => let r := roundVal g o.rnd false 0 ((g.value init).add o.rnd v); (r.1, t.2 ||| r.2)
  | .least | .greatest =>
    let i := g.value init
    let fl := if i.snan || vs.any (·.snan) then fNV else 0
    if vs.isEmpty then (init, fl)
    else
      let best := vs.foldl (Val.pick (k == .least)) i
      if best.isNan then g.nanWith fl
      else
        let r := g.round o.rnd false 0 best
        (r.1, r.2 ||| fl)

/-- A reduction into a scalar register (R100, R119). -/
def reduce (k : Red) (d a b : BitVec 6) (s : State) : Result :=
  control {} (seq do
    let o ← getConv
    needMode (isInt o.t == isInt o.u && o.w ≤ o.wd && o.rnd != 5 && modeScale (← getMode) == 0)
    checkVl (max o.w o.wd)
    let init := (← rdX b).toNat % 2 ^ o.wd
    checkSrcs [(a, o.w)]
    let es ← activeElems
    let c ← getC
    let va ← srcElems a o.w c.vl es
    if isInt o.u then
      let r := if es.isEmpty then init else reduceInt k o init (es.map fun i => getElem va i o.w)
      wrX d (word (intValue o.u o.wd r))
    else
      let p := bitsIn es c.vl
      let r := reduceFloat k o init (p.map fun (i, on) => if on then some (o.value (getElem va i o.w)) else none)
      wrX d (BitVec.ofNat 64 r.1)
      raise r.2
      chargePasses c es [(.v a, o.t)] []) s
where
  /-- Every index below vl, and whether it is active. -/
  bitsIn (es : List Nat) (vl : Nat) : List (Nat × Bool) := (List.range vl).map fun i => (i, es.contains i)

/-- vredo (R91, R119). -/
def execVredo (d a b : BitVec 6) (_c : Bool) (s : State) : Result := reduce .ordered d a b s

/-- vredt (R92, R119). -/
def execVredt (d a b : BitVec 6) (_c : Bool) (s : State) : Result := reduce .tree d a b s

/-- vredmin (R119, R120). -/
def execVredmin (d a b : BitVec 6) (_c : Bool) (s : State) : Result := reduce .least d a b s

/-- vredmax (R119, R120). -/
def execVredmax (d a b : BitVec 6) (_c : Bool) (s : State) : Result := reduce .greatest d a b s

end Sys2Proof.Machine
end

