-- ==== Sys2Proof/Machine/Scalar.lean ====
section
/-! DEFINITION. The scalar integer instructions (03, R50 to R55). -/

namespace Sys2Proof.Machine

/-- Division never traps (R52): the quotient truncated toward zero, all ones by zero; -2^63 by -1 gives -2^63. -/
def divS (a b : Word) : Word := if b = 0 then ~~~0 else word (a.toInt.tdiv b.toInt)
def divU (a b : Word) : Word := if b = 0 then ~~~0 else BitVec.ofNat 64 (a.toNat / b.toNat)
/-- The remainder with the sign of the dividend (R51, R52): the dividend by zero. -/
def remS (a b : Word) : Word := if b = 0 then a else word (a.toInt.tmod b.toInt)
def remU (a b : Word) : Word := if b = 0 then a else BitVec.ofNat 64 (a.toNat % b.toNat)

/-- The register form (R51): both operands are read before the destination is written. -/
def aluRR (f : Word → Word → Word) (d a b : BitVec 6) (s : State) : Result :=
  control { waits := false } (seq do
    let x ← rdX a
    let y ← rdX b
    wrX d (f x y)) s

/-- The immediate forms (R53, R54). -/
def aluRI (f : Word → Word) (d a : BitVec 6) (s : State) : Result :=
  control { waits := false } (seq do
    let x ← rdX a
    wrX d (f x)) s

/-- add (R51). -/
def execAdd (d a b : BitVec 6) (s : State) : Result := aluRR (fun a b => a + b) d a b s

/-- sub (R51). -/
def execSub (d a b : BitVec 6) (s : State) : Result := aluRR (fun a b => a - b) d a b s

/-- and (R51). -/
def execAnd (d a b : BitVec 6) (s : State) : Result := aluRR (fun a b => a &&& b) d a b s

/-- or (R51). -/
def execOr (d a b : BitVec 6) (s : State) : Result := aluRR (fun a b => a ||| b) d a b s

/-- xor (R51). -/
def execXor (d a b : BitVec 6) (s : State) : Result := aluRR (fun a b => a ^^^ b) d a b s

/-- sll (R51). -/
def execSll (d a b : BitVec 6) (s : State) : Result := aluRR (fun a b => a <<< (b.toNat % 64)) d a b s

/-- srl (R51). -/
def execSrl (d a b : BitVec 6) (s : State) : Result := aluRR (fun a b => a >>> (b.toNat % 64)) d a b s

/-- sra (R51). -/
def execSra (d a b : BitVec 6) (s : State) : Result := aluRR (fun a b => a.sshiftRight (b.toNat % 64)) d a b s

/-- slt (R51). -/
def execSlt (d a b : BitVec 6) (s : State) : Result := aluRR (fun a b => if a.slt b then 1 else 0) d a b s

/-- sltu (R51). -/
def execSltu (d a b : BitVec 6) (s : State) : Result := aluRR (fun a b => if a.ult b then 1 else 0) d a b s

/-- mul (R51). -/
def execMul (d a b : BitVec 6) (s : State) : Result := aluRR (fun a b => a * b) d a b s

/-- mulh (R51). -/
def execMulh (d a b : BitVec 6) (s : State) : Result := aluRR (fun a b => word (a.toInt * b.toInt / 2 ^ 64)) d a b s

/-- mulhu (R51). -/
def execMulhu (d a b : BitVec 6) (s : State) : Result := aluRR (fun a b => BitVec.ofNat 64 (a.toNat * b.toNat / 2 ^ 64)) d a b s

/-- div (R51). -/
def execDiv (d a b : BitVec 6) (s : State) : Result := aluRR (fun a b => divS a b) d a b s

/-- divu (R51). -/
def execDivu (d a b : BitVec 6) (s : State) : Result := aluRR (fun a b => divU a b) d a b s

/-- rem (R51). -/
def execRem (d a b : BitVec 6) (s : State) : Result := aluRR (fun a b => remS a b) d a b s

/-- remu (R51). -/
def execRemu (d a b : BitVec 6) (s : State) : Result := aluRR (fun a b => remU a b) d a b s

/-- min (R51). -/
def execMin (d a b : BitVec 6) (s : State) : Result := aluRR (fun a b => if a.slt b then a else b) d a b s

/-- max (R51). -/
def execMax (d a b : BitVec 6) (s : State) : Result := aluRR (fun a b => if a.slt b then b else a) d a b s

/-- minu (R51). -/
def execMinu (d a b : BitVec 6) (s : State) : Result := aluRR (fun a b => if a.ult b then a else b) d a b s

/-- maxu (R51). -/
def execMaxu (d a b : BitVec 6) (s : State) : Result := aluRR (fun a b => if a.ult b then b else a) d a b s

/-- addi (R53). -/
def execAddi (d a : BitVec 6) (i : BitVec 14) (s : State) : Result := aluRI (fun x => x + i.signExtend 64) d a s

/-- andi (R53). -/
def execAndi (d a : BitVec 6) (i : BitVec 14) (s : State) : Result := aluRI (fun x => x &&& i.signExtend 64) d a s

/-- ori (R53). -/
def execOri (d a : BitVec 6) (i : BitVec 14) (s : State) : Result := aluRI (fun x => x ||| i.signExtend 64) d a s

/-- xori (R53). -/
def execXori (d a : BitVec 6) (i : BitVec 14) (s : State) : Result := aluRI (fun x => x ^^^ i.signExtend 64) d a s

/-- slli (R54). -/
def execSlli (d a n : BitVec 6) (s : State) : Result := aluRI (fun x => x <<< n.toNat) d a s

/-- srli (R54). -/
def execSrli (d a n : BitVec 6) (s : State) : Result := aluRI (fun x => x >>> n.toNat) d a s

/-- srai (R54). -/
def execSrai (d a n : BitVec 6) (s : State) : Result := aluRI (fun x => x.sshiftRight n.toNat) d a s

/-- lih (R55). -/
def execLih (d : BitVec 6) (i : BitVec 20) (s : State) : Result :=
  control { waits := false } (seq (wrX d (word (i.toInt * 2 ^ 14)))) s

/-- pcrel (R55): the pc is the address of the pcrel word itself. -/
def execPcrel (d : BitVec 6) (i : BitVec 20) (s : State) : Result :=
  control { waits := false } (seq do wrX d ((← getC).pc + word (i.toInt * 2 ^ 14))) s

end Sys2Proof.Machine
end

