-- ==== Sys2Proof/Machine/VecInt.lean ====
section
/-! DEFINITION. The vector integer instructions, vidx and vrng (05, R102 to R105). -/

namespace Sys2Proof.Machine

/-- The types of a vector integer instruction: source and destination types, their widths, and saturation. -/
structure IntOp where
  t : TypeCode
  u : TypeCode
  w : Nat
  wd : Nat
  sat : Bool
  deriving DecidableEq, Repr

/-- The code of an integer in the destination type (R102, narrow). -/
def IntOp.narrow (o : IntOp) (x : Int) : Nat := Sys2Proof.Machine.narrow o.sat o.u o.wd x

/-- A vector integer instruction (R100, R102): free tells that dtype may differ from stype, reads that vd is read. The
operation takes the values a and b in stype and c in dtype. -/
def vecInt (free reads : Bool) (f : IntOp → Int → Int → Int → Nat) (d a : BitVec 6) (b : Arg) (s : State) : Result :=
  shared {} (seq do
    let c ← getC
    let t := modeStype c.mode
    let u := modeDtype c.mode
    let o : IntOp := { t := t, u := u, w := typeWidth c.fmt t, wd := typeWidth c.fmt u, sat := modeSat c.mode }
    vpStreams (d :: a :: b.regs)
    needMode (isInt t && isInt u && (free || t == u) && modeScale c.mode == 0)
    checkVl (max o.w o.wd)
    elementwise d o.wd reads a o.w b o.w fun _ z x y =>
      (f o (intValue t o.w x) (intValue t o.w y) (intValue u o.wd z), 0)) s

/-! Results (R102, R103). -/

def opVadd (o : IntOp) (a b _ : Int) : Nat := o.narrow (a + b)
def opVsub (o : IntOp) (a b _ : Int) : Nat := o.narrow (a - b)
def opVmul (o : IntOp) (a b _ : Int) : Nat := o.narrow (a * b)
def opVmulh (o : IntOp) (a b _ : Int) : Nat := wrapTo o.w (a * b / 2 ^ o.w)
def opVmacc (o : IntOp) (a b c : Int) : Nat := o.narrow (c + a * b)
def opVdiv (o : IntOp) (a b _ : Int) : Nat := if b = 0 then 2 ^ o.wd - 1 else o.narrow (a.tdiv b)
def opVrem (o : IntOp) (a b _ : Int) : Nat := wrapTo o.wd (if b = 0 then a else a.tmod b)
def opVmin (o : IntOp) (a b _ : Int) : Nat := wrapTo o.w (min a b)
def opVmax (o : IntOp) (a b _ : Int) : Nat := wrapTo o.w (max a b)
def opVand (o : IntOp) (a b _ : Int) : Nat := wrapTo o.w a &&& wrapTo o.w b
def opVor (o : IntOp) (a b _ : Int) : Nat := wrapTo o.w a ||| wrapTo o.w b
def opVxor (o : IntOp) (a b _ : Int) : Nat := wrapTo o.w a ^^^ wrapTo o.w b
def opVsll (o : IntOp) (a b _ : Int) : Nat := wrapTo o.w (a * (2 ^ (wrapTo o.w b % o.w) : Nat))
def opVsrl (o : IntOp) (a b _ : Int) : Nat := wrapTo o.w a / 2 ^ (wrapTo o.w b % o.w)
def opVsra (o : IntOp) (a b _ : Int) : Nat := wrapTo o.w (sextNat (wrapTo o.w a) o.w / (2 ^ (wrapTo o.w b % o.w) : Nat))

/-- vadd (R102). -/
def execVadd (d a b : BitVec 6) (_c _e : Bool) (s : State) : Result := vecInt true false opVadd d a (.v b) s

/-- vadd.vx (R33, R102). -/
def execVaddVx (d a b : BitVec 6) (_c : Bool) (s : State) : Result := vecInt true false opVadd d a (.x b) s

/-- vsub (R102). -/
def execVsub (d a b : BitVec 6) (_c _e : Bool) (s : State) : Result := vecInt true false opVsub d a (.v b) s

/-- vsub.vx (R33, R102). -/
def execVsubVx (d a b : BitVec 6) (_c : Bool) (s : State) : Result := vecInt true false opVsub d a (.x b) s

/-- vmul (R102). -/
def execVmul (d a b : BitVec 6) (_c _e : Bool) (s : State) : Result := vecInt true false opVmul d a (.v b) s

/-- vmul.vx (R33, R102). -/
def execVmulVx (d a b : BitVec 6) (_c : Bool) (s : State) : Result := vecInt true false opVmul d a (.x b) s

/-- vmulh (R102). -/
def execVmulh (d a b : BitVec 6) (_c _e : Bool) (s : State) : Result := vecInt false false opVmulh d a (.v b) s

/-- vmulh.vx (R33, R102). -/
def execVmulhVx (d a b : BitVec 6) (_c : Bool) (s : State) : Result := vecInt false false opVmulh d a (.x b) s

/-- vmacc (R102). -/
def execVmacc (d a b : BitVec 6) (_c _e : Bool) (s : State) : Result := vecInt true true opVmacc d a (.v b) s

/-- vmacc.vx (R33, R102). -/
def execVmaccVx (d a b : BitVec 6) (_c : Bool) (s : State) : Result := vecInt true true opVmacc d a (.x b) s

/-- vdiv (R103). -/
def execVdiv (d a b : BitVec 6) (_c _e : Bool) (s : State) : Result := vecInt false false opVdiv d a (.v b) s

/-- vdiv.vx (R33, R103). -/
def execVdivVx (d a b : BitVec 6) (_c : Bool) (s : State) : Result := vecInt false false opVdiv d a (.x b) s

/-- vrem (R103). -/
def execVrem (d a b : BitVec 6) (_c _e : Bool) (s : State) : Result := vecInt false false opVrem d a (.v b) s

/-- vrem.vx (R33, R103). -/
def execVremVx (d a b : BitVec 6) (_c : Bool) (s : State) : Result := vecInt false false opVrem d a (.x b) s

/-- vmin (R102). -/
def execVmin (d a b : BitVec 6) (_c _e : Bool) (s : State) : Result := vecInt false false opVmin d a (.v b) s

/-- vmin.vx (R33, R102). -/
def execVminVx (d a b : BitVec 6) (_c : Bool) (s : State) : Result := vecInt false false opVmin d a (.x b) s

/-- vmax (R102). -/
def execVmax (d a b : BitVec 6) (_c _e : Bool) (s : State) : Result := vecInt false false opVmax d a (.v b) s

/-- vmax.vx (R33, R102). -/
def execVmaxVx (d a b : BitVec 6) (_c : Bool) (s : State) : Result := vecInt false false opVmax d a (.x b) s

/-- vand (R102). -/
def execVand (d a b : BitVec 6) (_c _e : Bool) (s : State) : Result := vecInt false false opVand d a (.v b) s

/-- vand.vx (R33, R102). -/
def execVandVx (d a b : BitVec 6) (_c : Bool) (s : State) : Result := vecInt false false opVand d a (.x b) s

/-- vor (R102). -/
def execVor (d a b : BitVec 6) (_c _e : Bool) (s : State) : Result := vecInt false false opVor d a (.v b) s

/-- vor.vx (R33, R102). -/
def execVorVx (d a b : BitVec 6) (_c : Bool) (s : State) : Result := vecInt false false opVor d a (.x b) s

/-- vxor (R102). -/
def execVxor (d a b : BitVec 6) (_c _e : Bool) (s : State) : Result := vecInt false false opVxor d a (.v b) s

/-- vxor.vx (R33, R102). -/
def execVxorVx (d a b : BitVec 6) (_c : Bool) (s : State) : Result := vecInt false false opVxor d a (.x b) s

/-- vsll (R102). -/
def execVsll (d a b : BitVec 6) (_c _e : Bool) (s : State) : Result := vecInt false false opVsll d a (.v b) s

/-- vsll.vx (R33, R102). -/
def execVsllVx (d a b : BitVec 6) (_c : Bool) (s : State) : Result := vecInt false false opVsll d a (.x b) s

/-- vsrl (R102). -/
def execVsrl (d a b : BitVec 6) (_c _e : Bool) (s : State) : Result := vecInt false false opVsrl d a (.v b) s

/-- vsrl.vx (R33, R102). -/
def execVsrlVx (d a b : BitVec 6) (_c : Bool) (s : State) : Result := vecInt false false opVsrl d a (.x b) s

/-- vsra (R102). -/
def execVsra (d a b : BitVec 6) (_c _e : Bool) (s : State) : Result := vecInt false false opVsra d a (.v b) s

/-- vsra.vx (R33, R102). -/
def execVsraVx (d a b : BitVec 6) (_c : Bool) (s : State) : Result := vecInt false false opVsra d a (.x b) s

/-- Write the active elements of a vector register from their indices alone (R104, R105). -/
def fillElems (d : BitVec 6) (w : Nat) (f : Nat → Nat) : Exec Unit := do
  let n ← dstV d
  let es ← activeElems
  wrElems n w (es.map fun i => (i, f i))

/-- vidx (R104). -/
def execVidx (d : BitVec 6) (st : BitVec 12) (p : BitVec 8) (s : State) : Result :=
  shared {} (seq do
    let c ← getC
    let u := modeDtype c.mode
    let w := typeWidth c.fmt u
    vpStreams [d]
    needMode (isInt u && modeScale c.mode == 0)
    checkVl w
    fillElems d w fun i => narrow (modeSat c.mode) u w (st.toInt + i * p.toInt)) s

/-- vrng (R105). -/
def execVrng (d a : BitVec 6) (s : State) : Result :=
  shared {} (seq do
    let c ← getC
    let u := modeDtype c.mode
    let w := typeWidth c.fmt u
    vpStreams [d]
    needMode ((u == 2 || u == 6 || u == 3 || u == 7) && modeScale c.mode == 0)
    checkVl w
    let k ← rdX a
    fillElems d w fun i =>
      let z := (mix (k + BitVec.ofNat 64 i) c.rngkey).toNat
      if w = 32 then z / 2 ^ 32 else z) s

end Sys2Proof.Machine
end

