-- ==== Sys2Proof/Machine/Vp.lean ====
section
/-! DEFINITION. The virtual processors' own instructions (05, R122, R123, R125). -/

namespace Sys2Proof.Machine

/-- vfetch (R122): every active VP gets the block's first word and its last; every other VP is idle. -/
def execVfetch (n : BitVec 5) (o : BitVec 19) (s : State) : Result :=
  control {} (seq do
    let es ← activeElems
    let pc := (← getC).pc + word (o.toInt * 4)
    let e : VpPc := { pc := pc, last := some (pc + BitVec.ofNat 64 (4 * n.toNat)) }
    modC fun c => { c with vps := es.map fun i => (i, e) }) s

/-- vpbr (R123): taken where the VP's own element is not zero; a stream-mode register traps 0x01 (R231). -/
def execVpbr (v : BitVec 6) (o : BitVec 18) (s : State) : Result :=
  vpOnly (do
    vpStreams [v]
    let c ← getC
    let w := typeWidth c.fmt (modeStype c.mode)
    checkVl w
    let i := (← get).vp.getD 0
    let x ← srcElems v w c.vl [i]
    if getElem x i w = 0 then return .seq
    else return .goto (((tfind i c.vps).map (·.pc)).getD 0 + word (o.toInt * 4))) s

/-- vpstop (R123): the VP becomes idle. -/
def execVpstop (s : State) : Result :=
  vpOnly (do
    let i := (← get).vp.getD 0
    modC fun c => { c with vps := tdrop i c.vps }
    return .seq) s

/-- vpsync (R125): completes once every VP is idle. -/
def execVpsync (s : State) : Result := control {} (seq (pure ())) s

end Sys2Proof.Machine
end

