-- ==== Sys2Proof/Machine/Dispatch.lean ====
section
/-! DEFINITION. The dispatch of every constructor of Instr to its meaning. -/

namespace Sys2Proof.Machine

/-- One step's instruction or event. -/
def exec (i : Instr) (s : State) : Host.Outcome State Fault Refusal :=
  match i with
  | .chunkLimitEnd tid => Sys2Proof.Machine.execChunkLimitEnd tid s
  | .chunkCommit tid => Sys2Proof.Machine.execChunkCommit tid s
  | .priorityCommitRequest tid => Sys2Proof.Machine.execPriorityCommitRequest tid s
  | .priorityTicketPass => Sys2Proof.Machine.execPriorityTicketPass s
  | .persistentRequest tid line => Sys2Proof.Machine.execPersistentRequest tid line s
  | .farOpPerform slice => Sys2Proof.Machine.execFarOpPerform slice s
  | .deferredLoadReply id => Sys2Proof.Machine.execDeferredLoadReply id s
  | .fabricReply id port codes data => Sys2Proof.Machine.execFabricReply id port codes data s
  | .asyncTrap tid => Sys2Proof.Machine.execAsyncTrap tid s
  | .trapEntry tid => Sys2Proof.Machine.execTrapEntry tid s
  | .tileOpPerform tid => Sys2Proof.Machine.execTileOpPerform tid s
  | .matrixDrain id n => Sys2Proof.Machine.execMatrixDrain id n s
  | .copyStart core => Sys2Proof.Machine.execCopyStart core s
  | .copyElement id n => Sys2Proof.Machine.execCopyElement id n s
  | .copyComplete id => Sys2Proof.Machine.execCopyComplete id s
  | .barrierCredit id bytes => Sys2Proof.Machine.execBarrierCredit id bytes s
  | .streamRefill tid v n => Sys2Proof.Machine.execStreamRefill tid v n s
  | .post parcel j => Sys2Proof.Machine.execPost parcel j s
  | .postCredit parcel j => Sys2Proof.Machine.execPostCredit parcel j s
  | .traverseDone parcel => Sys2Proof.Machine.execTraverseDone parcel s
  | .traverseStop parcel => Sys2Proof.Machine.execTraverseStop parcel s
  | .placeThread tids cores slots => Sys2Proof.Machine.execPlaceThread tids cores slots s
  | .preempt tid => Sys2Proof.Machine.execPreempt tid s
  | .placementAging tid => Sys2Proof.Machine.execPlacementAging tid s
  | .blockedEvictionAge tid => Sys2Proof.Machine.execBlockedEvictionAge tid s
  | .stripGrant core tid => Sys2Proof.Machine.execStripGrant core tid s
  | .stripAging tid => Sys2Proof.Machine.execStripAging tid s
  | .waitSatisfied tid => Sys2Proof.Machine.execWaitSatisfied tid s
  | .pauseEnd tid => Sys2Proof.Machine.execPauseEnd tid s
  | .cacheEviction what => Sys2Proof.Machine.execCacheEviction what s
  | .mgdWritebackArrival n => Sys2Proof.Machine.execMgdWritebackArrival n s
  | .pageWalk die parcel va kind => Sys2Proof.Machine.execPageWalk die parcel va kind s
  | .fabricRequestArrival r => Sys2Proof.Machine.execFabricRequestArrival r s
  | .extensionPacketArrival p => Sys2Proof.Machine.execExtensionPacketArrival p s
  | .fabricCombine stage first second => Sys2Proof.Machine.execFabricCombine stage first second s
  | .combineWindowExpiry id => Sys2Proof.Machine.execCombineWindowExpiry id s
  | .replySplit id => Sys2Proof.Machine.execReplySplit id s
  | .idleFlit port => Sys2Proof.Machine.execIdleFlit port s
  | .linkDown port => Sys2Proof.Machine.execLinkDown port s
  | .linkTrained link width version => Sys2Proof.Machine.execLinkTrained link width version s
  | .heartbeat => Sys2Proof.Machine.execHeartbeat s
  | .peerLost dev => Sys2Proof.Machine.execPeerLost dev s
  | .downNoticeReceived dev => Sys2Proof.Machine.execDownNoticeReceived dev s
  | .hostWrite pa data => Sys2Proof.Machine.execHostWrite pa data s
  | .hostAtomic pa op dword value expected => Sys2Proof.Machine.execHostAtomic pa op dword value expected s
  | .hostRead pa n => Sys2Proof.Machine.execHostRead pa n s
  | .eccError double place => Sys2Proof.Machine.execEccError double place s
  | .coreFence core cause corrupt => Sys2Proof.Machine.execCoreFence core cause corrupt s
  | .refreshDue stack bank burst => Sys2Proof.Machine.execRefreshDue stack bank burst s
  | .refreshPostponeLimit stack bank => Sys2Proof.Machine.execRefreshPostponeLimit stack bank s
  | .scrubPassStart stack => Sys2Proof.Machine.execScrubPassStart stack s
  | .scrubLine stack tags => Sys2Proof.Machine.execScrubLine stack tags s
  | .scrubPassEnd stack => Sys2Proof.Machine.execScrubPassEnd stack s
  | .logWrapClear stack => Sys2Proof.Machine.execLogWrapClear stack s
  | .powerWindow watts => Sys2Proof.Machine.execPowerWindow watts s
  | .crewClockGate crew => Sys2Proof.Machine.execCrewClockGate crew s
  | .thermalThrottle die celsius => Sys2Proof.Machine.execThermalThrottle die celsius s
  | .thermalTrip die celsius => Sys2Proof.Machine.execThermalTrip die celsius s
  | .resetPinRelease => Sys2Proof.Machine.execResetPinRelease s
  | .resetPinAssert => Sys2Proof.Machine.execResetPinAssert s
  | .loadFirmwareImage h image => Sys2Proof.Machine.execLoadFirmwareImage h image s
  | .writeParcelDescriptor h desc => Sys2Proof.Machine.execWriteParcelDescriptor h desc s
  | .createRootThread h entry args config => Sys2Proof.Machine.execCreateRootThread h entry args config s
  | .removeLaunch h launch => Sys2Proof.Machine.execRemoveLaunch h launch s
  | .endParcel h => Sys2Proof.Machine.execEndParcel h s
  | .assignFrames h first count owner => Sys2Proof.Machine.execAssignFrames h first count owner s
  | .writeRouteEntry h dev entry => Sys2Proof.Machine.execWriteRouteEntry h dev entry s
  | .setDeviceNumber h number => Sys2Proof.Machine.execSetDeviceNumber h number s
  | .clearLostMark h dev => Sys2Proof.Machine.execClearLostMark h dev s
  | .requestKeyRotation h => Sys2Proof.Machine.execRequestKeyRotation h s
  | .setScrubPeriod h hours => Sys2Proof.Machine.execSetScrubPeriod h hours s
  | .setPowerLimit h watts => Sys2Proof.Machine.execSetPowerLimit h watts s
  | .writeHostAperture h index aperture => Sys2Proof.Machine.execWriteHostAperture h index aperture s
  | .assignBlocks h first count owner => Sys2Proof.Machine.execAssignBlocks h first count owner s
  | .configurationComplete h links => Sys2Proof.Machine.execConfigurationComplete h links s
  | .illegalInstruction w => Sys2Proof.Machine.execIllegalInstruction w s
  | .laneFailure link => Sys2Proof.Machine.execLaneFailure link s
  | .heartbeatReceived dev => Sys2Proof.Machine.execHeartbeatReceived dev s
  | .idleFlitReceived port => Sys2Proof.Machine.execIdleFlitReceived port s
  | .thermalRecovery celsius => Sys2Proof.Machine.execThermalRecovery celsius s
  | .unknownRequest h => Sys2Proof.Machine.execUnknownRequest h s
  | .ecall => Sys2Proof.Machine.execEcall s
  | .eret => Sys2Proof.Machine.execEret s
  | .tlbi a => Sys2Proof.Machine.execTlbi a s
  | .tlbia => Sys2Proof.Machine.execTlbia s
  | .pkset => Sys2Proof.Machine.execPkset s
  | .pkclr => Sys2Proof.Machine.execPkclr s
  | .pause => Sys2Proof.Machine.execPause s
  | .nop => Sys2Proof.Machine.execNop s
  | .mode g sc r t c b d => Sys2Proof.Machine.execMode g sc r t c b d s
  | .add d a b => Sys2Proof.Machine.execAdd d a b s
  | .sub d a b => Sys2Proof.Machine.execSub d a b s
  | .and d a b => Sys2Proof.Machine.execAnd d a b s
  | .or d a b => Sys2Proof.Machine.execOr d a b s
  | .xor d a b => Sys2Proof.Machine.execXor d a b s
  | .sll d a b => Sys2Proof.Machine.execSll d a b s
  | .srl d a b => Sys2Proof.Machine.execSrl d a b s
  | .sra d a b => Sys2Proof.Machine.execSra d a b s
  | .slt d a b => Sys2Proof.Machine.execSlt d a b s
  | .sltu d a b => Sys2Proof.Machine.execSltu d a b s
  | .mul d a b => Sys2Proof.Machine.execMul d a b s
  | .mulh d a b => Sys2Proof.Machine.execMulh d a b s
  | .mulhu d a b => Sys2Proof.Machine.execMulhu d a b s
  | .div d a b => Sys2Proof.Machine.execDiv d a b s
  | .divu d a b => Sys2Proof.Machine.execDivu d a b s
  | .rem d a b => Sys2Proof.Machine.execRem d a b s
  | .remu d a b => Sys2Proof.Machine.execRemu d a b s
  | .min d a b => Sys2Proof.Machine.execMin d a b s
  | .max d a b => Sys2Proof.Machine.execMax d a b s
  | .minu d a b => Sys2Proof.Machine.execMinu d a b s
  | .maxu d a b => Sys2Proof.Machine.execMaxu d a b s
  | .addi d a imm => Sys2Proof.Machine.execAddi d a imm s
  | .andi d a imm => Sys2Proof.Machine.execAndi d a imm s
  | .ori d a imm => Sys2Proof.Machine.execOri d a imm s
  | .xori d a imm => Sys2Proof.Machine.execXori d a imm s
  | .slli d a n => Sys2Proof.Machine.execSlli d a n s
  | .srli d a n => Sys2Proof.Machine.execSrli d a n s
  | .srai d a n => Sys2Proof.Machine.execSrai d a n s
  | .lih d imm => Sys2Proof.Machine.execLih d imm s
  | .pcrel d imm => Sys2Proof.Machine.execPcrel d imm s
  | .beq a b o => Sys2Proof.Machine.execBeq a b o s
  | .bne a b o => Sys2Proof.Machine.execBne a b o s
  | .blt a b o => Sys2Proof.Machine.execBlt a b o s
  | .bge a b o => Sys2Proof.Machine.execBge a b o s
  | .bltu a b o => Sys2Proof.Machine.execBltu a b o s
  | .bgeu a b o => Sys2Proof.Machine.execBgeu a b o s
  | .jal d o => Sys2Proof.Machine.execJal d o s
  | .jalr d a imm => Sys2Proof.Machine.execJalr d a imm s
  | .loop c l => Sys2Proof.Machine.execLoop c l s
  | .loopr c l => Sys2Proof.Machine.execLoopr c l s
  | .vfetch n o => Sys2Proof.Machine.execVfetch n o s
  | .vpbr v o => Sys2Proof.Machine.execVpbr v o s
  | .vpstop => Sys2Proof.Machine.execVpstop s
  | .vpsync => Sys2Proof.Machine.execVpsync s
  | .ldB d a o => Sys2Proof.Machine.execLdB d a o s
  | .ldH d a o => Sys2Proof.Machine.execLdH d a o s
  | .ldW d a o => Sys2Proof.Machine.execLdW d a o s
  | .ldD d a o => Sys2Proof.Machine.execLdD d a o s
  | .ldBu d a o => Sys2Proof.Machine.execLdBu d a o s
  | .ldHu d a o => Sys2Proof.Machine.execLdHu d a o s
  | .ldWu d a o => Sys2Proof.Machine.execLdWu d a o s
  | .stB d a o => Sys2Proof.Machine.execStB d a o s
  | .stH d a o => Sys2Proof.Machine.execStH d a o s
  | .stW d a o => Sys2Proof.Machine.execStW d a o s
  | .stD d a o => Sys2Proof.Machine.execStD d a o s
  | .amoAdd d a b z => Sys2Proof.Machine.execAmoAdd d a b z s
  | .amoAnd d a b z => Sys2Proof.Machine.execAmoAnd d a b z s
  | .amoOr d a b z => Sys2Proof.Machine.execAmoOr d a b z s
  | .amoXor d a b z => Sys2Proof.Machine.execAmoXor d a b z s
  | .amoMin d a b z => Sys2Proof.Machine.execAmoMin d a b z s
  | .amoMax d a b z => Sys2Proof.Machine.execAmoMax d a b z s
  | .amoMinu d a b z => Sys2Proof.Machine.execAmoMinu d a b z s
  | .amoMaxu d a b z => Sys2Proof.Machine.execAmoMaxu d a b z s
  | .amoSwap d a b z => Sys2Proof.Machine.execAmoSwap d a b z s
  | .amoFadd d a b z => Sys2Proof.Machine.execAmoFadd d a b z s
  | .cas d a b z => Sys2Proof.Machine.execCas d a b z s
  | .fence sc => Sys2Proof.Machine.execFence sc s
  | .acq d a sc => Sys2Proof.Machine.execAcq d a sc s
  | .rel a b sc => Sys2Proof.Machine.execRel a b sc s
  | .pref a => Sys2Proof.Machine.execPref a s
  | .setvl d a => Sys2Proof.Machine.execSetvl d a s
  | .setvli d n => Sys2Proof.Machine.execSetvli d n s
  | .mfsr d r => Sys2Proof.Machine.execMfsr d r s
  | .mfsrFflags d => Sys2Proof.Machine.execMfsrFflags d s
  | .mfsrMsat d => Sys2Proof.Machine.execMfsrMsat d s
  | .mtsr a r => Sys2Proof.Machine.execMtsr a r s
  | .mtsrMode a => Sys2Proof.Machine.execMtsrMode a s
  | .mtsrFmt a f => Sys2Proof.Machine.execMtsrFmt a f s
  | .mtsrFflags a => Sys2Proof.Machine.execMtsrFflags a s
  | .mtsrFprog a => Sys2Proof.Machine.execMtsrFprog a s
  | .mtsrCtags a => Sys2Proof.Machine.execMtsrCtags a s
  | .mtsrMsat a => Sys2Proof.Machine.execMtsrMsat a s
  | .mtsrPtroot a => Sys2Proof.Machine.execMtsrPtroot a s
  | .mtsrTrapvec a => Sys2Proof.Machine.execMtsrTrapvec a s
  | .mtsrPshare a => Sys2Proof.Machine.execMtsrPshare a s
  | .vidx d sc p => Sys2Proof.Machine.execVidx d sc p s
  | .vadd d a b c e => Sys2Proof.Machine.execVadd d a b c e s
  | .vaddVx d a b c => Sys2Proof.Machine.execVaddVx d a b c s
  | .vsub d a b c e => Sys2Proof.Machine.execVsub d a b c e s
  | .vsubVx d a b c => Sys2Proof.Machine.execVsubVx d a b c s
  | .vmul d a b c e => Sys2Proof.Machine.execVmul d a b c e s
  | .vmulVx d a b c => Sys2Proof.Machine.execVmulVx d a b c s
  | .vmulh d a b c e => Sys2Proof.Machine.execVmulh d a b c e s
  | .vmulhVx d a b c => Sys2Proof.Machine.execVmulhVx d a b c s
  | .vmacc d a b c e => Sys2Proof.Machine.execVmacc d a b c e s
  | .vmaccVx d a b c => Sys2Proof.Machine.execVmaccVx d a b c s
  | .vdiv d a b c e => Sys2Proof.Machine.execVdiv d a b c e s
  | .vdivVx d a b c => Sys2Proof.Machine.execVdivVx d a b c s
  | .vrem d a b c e => Sys2Proof.Machine.execVrem d a b c e s
  | .vremVx d a b c => Sys2Proof.Machine.execVremVx d a b c s
  | .vmin d a b c e => Sys2Proof.Machine.execVmin d a b c e s
  | .vminVx d a b c => Sys2Proof.Machine.execVminVx d a b c s
  | .vmax d a b c e => Sys2Proof.Machine.execVmax d a b c e s
  | .vmaxVx d a b c => Sys2Proof.Machine.execVmaxVx d a b c s
  | .vand d a b c e => Sys2Proof.Machine.execVand d a b c e s
  | .vandVx d a b c => Sys2Proof.Machine.execVandVx d a b c s
  | .vor d a b c e => Sys2Proof.Machine.execVor d a b c e s
  | .vorVx d a b c => Sys2Proof.Machine.execVorVx d a b c s
  | .vxor d a b c e => Sys2Proof.Machine.execVxor d a b c e s
  | .vxorVx d a b c => Sys2Proof.Machine.execVxorVx d a b c s
  | .vsll d a b c e => Sys2Proof.Machine.execVsll d a b c e s
  | .vsllVx d a b c => Sys2Proof.Machine.execVsllVx d a b c s
  | .vsrl d a b c e => Sys2Proof.Machine.execVsrl d a b c e s
  | .vsrlVx d a b c => Sys2Proof.Machine.execVsrlVx d a b c s
  | .vsra d a b c e => Sys2Proof.Machine.execVsra d a b c e s
  | .vsraVx d a b c => Sys2Proof.Machine.execVsraVx d a b c s
  | .vrng d a => Sys2Proof.Machine.execVrng d a s
  | .vfadd d a b c e => Sys2Proof.Machine.execVfadd d a b c e s
  | .vfaddVx d a b c => Sys2Proof.Machine.execVfaddVx d a b c s
  | .vfsub d a b c e => Sys2Proof.Machine.execVfsub d a b c e s
  | .vfsubVx d a b c => Sys2Proof.Machine.execVfsubVx d a b c s
  | .vfmul d a b c e => Sys2Proof.Machine.execVfmul d a b c e s
  | .vfmulVx d a b c => Sys2Proof.Machine.execVfmulVx d a b c s
  | .vfma d a b c e => Sys2Proof.Machine.execVfma d a b c e s
  | .vfmaVx d a b c => Sys2Proof.Machine.execVfmaVx d a b c s
  | .vfms d a b c e => Sys2Proof.Machine.execVfms d a b c e s
  | .vfmsVx d a b c => Sys2Proof.Machine.execVfmsVx d a b c s
  | .vfnma d a b c e => Sys2Proof.Machine.execVfnma d a b c e s
  | .vfnmaVx d a b c => Sys2Proof.Machine.execVfnmaVx d a b c s
  | .vfnms d a b c e => Sys2Proof.Machine.execVfnms d a b c e s
  | .vfnmsVx d a b c => Sys2Proof.Machine.execVfnmsVx d a b c s
  | .vfdiv d a b c e => Sys2Proof.Machine.execVfdiv d a b c e s
  | .vfdivVx d a b c => Sys2Proof.Machine.execVfdivVx d a b c s
  | .vfsqrt d a c => Sys2Proof.Machine.execVfsqrt d a c s
  | .vfrec d a c => Sys2Proof.Machine.execVfrec d a c s
  | .vfmin d a b c e => Sys2Proof.Machine.execVfmin d a b c e s
  | .vfminVx d a b c => Sys2Proof.Machine.execVfminVx d a b c s
  | .vfmax d a b c e => Sys2Proof.Machine.execVfmax d a b c e s
  | .vfmaxVx d a b c => Sys2Proof.Machine.execVfmaxVx d a b c s
  | .vfabs d a c => Sys2Proof.Machine.execVfabs d a c s
  | .vfneg d a c => Sys2Proof.Machine.execVfneg d a c s
  | .vfrint d a c => Sys2Proof.Machine.execVfrint d a c s
  | .vfexp2 d a c => Sys2Proof.Machine.execVfexp2 d a c s
  | .vfscale d a b c e => Sys2Proof.Machine.execVfscale d a b c e s
  | .vfscaleVx d a b c => Sys2Proof.Machine.execVfscaleVx d a b c s
  | .vfclass d a c => Sys2Proof.Machine.execVfclass d a c s
  | .vcmpEq d a b c e => Sys2Proof.Machine.execVcmpEq d a b c e s
  | .vcmpNe d a b c e => Sys2Proof.Machine.execVcmpNe d a b c e s
  | .vcmpLt d a b c e => Sys2Proof.Machine.execVcmpLt d a b c e s
  | .vcmpLe d a b c e => Sys2Proof.Machine.execVcmpLe d a b c e s
  | .vcmpGt d a b c e => Sys2Proof.Machine.execVcmpGt d a b c e s
  | .vcmpGe d a b c e => Sys2Proof.Machine.execVcmpGe d a b c e s
  | .vcmpUn d a b c e => Sys2Proof.Machine.execVcmpUn d a b c e s
  | .pand d a b => Sys2Proof.Machine.execPand d a b s
  | .por d a b => Sys2Proof.Machine.execPor d a b s
  | .pxor d a b => Sys2Proof.Machine.execPxor d a b s
  | .pandn d a b => Sys2Proof.Machine.execPandn d a b s
  | .pnot d a => Sys2Proof.Machine.execPnot d a s
  | .pwhile d a b => Sys2Proof.Machine.execPwhile d a b s
  | .pcnt d a => Sys2Proof.Machine.execPcnt d a s
  | .pfirst d a => Sys2Proof.Machine.execPfirst d a s
  | .vcvt d a c => Sys2Proof.Machine.execVcvt d a c s
  | .vqnt d a c => Sys2Proof.Machine.execVqnt d a c s
  | .vdqnt d a c => Sys2Proof.Machine.execVdqnt d a c s
  | .vbscale d a c => Sys2Proof.Machine.execVbscale d a c s
  | .vbsmax d a c => Sys2Proof.Machine.execVbsmax d a c s
  | .vredo d a b c => Sys2Proof.Machine.execVredo d a b c s
  | .vredt d a b c => Sys2Proof.Machine.execVredt d a b c s
  | .vredmin d a b c => Sys2Proof.Machine.execVredmin d a b c s
  | .vredmax d a b c => Sys2Proof.Machine.execVredmax d a b c s
  | .vslideup d a b c => Sys2Proof.Machine.execVslideup d a b c s
  | .vslidedn d a b c => Sys2Proof.Machine.execVslidedn d a b c s
  | .vgath d a b c e => Sys2Proof.Machine.execVgath d a b c e s
  | .vcompress d a b c => Sys2Proof.Machine.execVcompress d a b c s
  | .vexpand d a b c => Sys2Proof.Machine.execVexpand d a b c s
  | .vbcast d a => Sys2Proof.Machine.execVbcast d a s
  | .vext d a b c => Sys2Proof.Machine.execVext d a b c s
  | .vins d a b => Sys2Proof.Machine.execVins d a b s
  | .vmv d a c => Sys2Proof.Machine.execVmv d a c s
  | .vld d a => Sys2Proof.Machine.execVld d a s
  | .vldS d a b => Sys2Proof.Machine.execVldS d a b s
  | .vldX d a b e => Sys2Proof.Machine.execVldX d a b e s
  | .vst d a => Sys2Proof.Machine.execVst d a s
  | .vstS d a b => Sys2Proof.Machine.execVstS d a b s
  | .vstX d a b e => Sys2Proof.Machine.execVstX d a b e s
  | .vamoAdd d a b e => Sys2Proof.Machine.execVamoAdd d a b e s
  | .vamoAddRet d a b e => Sys2Proof.Machine.execVamoAddRet d a b e s
  | .vamoAnd d a b e => Sys2Proof.Machine.execVamoAnd d a b e s
  | .vamoAndRet d a b e => Sys2Proof.Machine.execVamoAndRet d a b e s
  | .vamoOr d a b e => Sys2Proof.Machine.execVamoOr d a b e s
  | .vamoOrRet d a b e => Sys2Proof.Machine.execVamoOrRet d a b e s
  | .vamoXor d a b e => Sys2Proof.Machine.execVamoXor d a b e s
  | .vamoXorRet d a b e => Sys2Proof.Machine.execVamoXorRet d a b e s
  | .vamoMin d a b e => Sys2Proof.Machine.execVamoMin d a b e s
  | .vamoMinRet d a b e => Sys2Proof.Machine.execVamoMinRet d a b e s
  | .vamoMax d a b e => Sys2Proof.Machine.execVamoMax d a b e s
  | .vamoMaxRet d a b e => Sys2Proof.Machine.execVamoMaxRet d a b e s
  | .vamoMinu d a b e => Sys2Proof.Machine.execVamoMinu d a b e s
  | .vamoMinuRet d a b e => Sys2Proof.Machine.execVamoMinuRet d a b e s
  | .vamoMaxu d a b e => Sys2Proof.Machine.execVamoMaxu d a b e s
  | .vamoMaxuRet d a b e => Sys2Proof.Machine.execVamoMaxuRet d a b e s
  | .vamoSwap d a b e => Sys2Proof.Machine.execVamoSwap d a b e s
  | .vamoSwapRet d a b e => Sys2Proof.Machine.execVamoSwapRet d a b e s
  | .vamoFadd d a b e => Sys2Proof.Machine.execVamoFadd d a b e s
  | .vamoFaddRet d a b e => Sys2Proof.Machine.execVamoFaddRet d a b e s
  | .vdrain => Sys2Proof.Machine.execVdrain s
  | .vpref a => Sys2Proof.Machine.execVpref a s
  | .fld d a b => Sys2Proof.Machine.execFld d a b s
  | .fst d a => Sys2Proof.Machine.execFst d a s
  | .fwalk d a b => Sys2Proof.Machine.execFwalk d a b s
  | .finter d a b k => Sys2Proof.Machine.execFinter d a b k s
  | .funion d a b k => Sys2Proof.Machine.execFunion d a b k s
  | .fmerge d a b k => Sys2Proof.Machine.execFmerge d a b k s
  | .fcompact d a b c => Sys2Proof.Machine.execFcompact d a b c s
  | .fexpand d a => Sys2Proof.Machine.execFexpand d a s
  | .fgath d a => Sys2Proof.Machine.execFgath d a s
  | .fscat d a => Sys2Proof.Machine.execFscat d a s
  | .flen d a => Sys2Proof.Machine.execFlen d a s
  | .fclr d => Sys2Proof.Machine.execFclr d s
  | .fcopy d a => Sys2Proof.Machine.execFcopy d a s
  | .mattach d a => Sys2Proof.Machine.execMattach d a s
  | .mdetach => Sys2Proof.Machine.execMdetach s
  | .mmode d a => Sys2Proof.Machine.execMmode d a s
  | .mzero t => Sys2Proof.Machine.execMzero t s
  | .mopVv p t a b c e => Sys2Proof.Machine.execMopVv p t a b c e s
  | .mopSv p t a b e => Sys2Proof.Machine.execMopSv p t a b e s
  | .mopSs p t a b => Sys2Proof.Machine.execMopSs p t a b s
  | .mldaV t a b c => Sys2Proof.Machine.execMldaV t a b c s
  | .mldaS t a b => Sys2Proof.Machine.execMldaS t a b s
  | .mstaV t a b => Sys2Proof.Machine.execMstaV t a b s
  | .mstaS t a b => Sys2Proof.Machine.execMstaS t a b s
  | .mprune d a b c => Sys2Proof.Machine.execMprune d a b c s
  | .cpy d a b => Sys2Proof.Machine.execCpy d a b s
  | .cpym d a b => Sys2Proof.Machine.execCpym d a b s
  | .smode d a => Sys2Proof.Machine.execSmode d a s
  | .sstop d => Sys2Proof.Machine.execSstop d s
  | .twaitAny d a => Sys2Proof.Machine.execTwaitAny d a s
  | .twaitAll d a => Sys2Proof.Machine.execTwaitAll d a s
  | .tffr d a => Sys2Proof.Machine.execTffr d a s
  | .barinit a b => Sys2Proof.Machine.execBarinit a b s
  | .barexp a b => Sys2Proof.Machine.execBarexp a b s
  | .bararr d a => Sys2Proof.Machine.execBararr d a s
  | .barwait d a b => Sys2Proof.Machine.execBarwait d a b s
  | .rwb a b => Sys2Proof.Machine.execRwb a b s
  | .rinv a b => Sys2Proof.Machine.execRinv a b s
  | .rgndecl d a => Sys2Proof.Machine.execRgndecl d a s
  | .rgnfree a => Sys2Proof.Machine.execRgnfree a s
  | .cways d a => Sys2Proof.Machine.execCways d a s
  | .live a b => Sys2Proof.Machine.execLive a b s
  | .dead a b => Sys2Proof.Machine.execDead a b s
  | .chkbeg => Sys2Proof.Machine.execChkbeg s
  | .chkend => Sys2Proof.Machine.execChkend s
  | .chkstat d => Sys2Proof.Machine.execChkstat d s
  | .launch d a => Sys2Proof.Machine.execLaunch d a s
  | .texit => Sys2Proof.Machine.execTexit s
  | .tyield => Sys2Proof.Machine.execTyield s
  | .sbar d a => Sys2Proof.Machine.execSbar d a s
  | .sarrive d a => Sys2Proof.Machine.execSarrive d a s
  | .swait d a b => Sys2Proof.Machine.execSwait d a b s
  | .stest d a => Sys2Proof.Machine.execStest d a s
  | .bkstart d a b => Sys2Proof.Machine.execBkstart d a b s
  | .bkresume d a b => Sys2Proof.Machine.execBkresume d a b s
  | .bkstat d a => Sys2Proof.Machine.execBkstat d a s
  | .fadd d a b => Sys2Proof.Machine.execFadd d a b s
  | .fsub d a b => Sys2Proof.Machine.execFsub d a b s
  | .fmul d a b => Sys2Proof.Machine.execFmul d a b s
  | .fdiv d a b => Sys2Proof.Machine.execFdiv d a b s
  | .fsqrt d a => Sys2Proof.Machine.execFsqrt d a s
  | .fcvt d a b => Sys2Proof.Machine.execFcvt d a b s
  | .mfsrCtags d => Sys2Proof.Machine.execMfsrCtags d s

end Sys2Proof.Machine
end

