-- ==== Sys2Proof/Machine/Load.lean ====
section
/-! DEFINITION. How a program comes to be loaded (log entry 6): what the management path, the host and the dispatcher do to
make one thread Run-ready, as one change of the state. -/

namespace Sys2Proof.Machine

/-- Where the loaded program's page tables and page lie: physical frames 1 to 4 of stack 0. -/
def loadTables : List (Nat × Nat) :=
  [(0x10000, 0x20001), (0x20000, 0x30001), (0x30000 + 8 * 4, 0x4013D)]

def loadEntry : Word := 0x40000

/-- Parcel 0 as the load leaves it: active, with every crew of die 0 and the page tables' root. -/
def loadParcel : Parcel :=
  { Parcel.free with crews := 0xFFF, ptroot0 := 0x10000, ptroot := 0x10000, ceiling := 47, state := 1, version := 1,
                     rquota := 16, kcount := 8, wlim := 255, pshare := 255, trapvec0 := 0x40800, trapvec := 0x40800,
                     root := some 0 }

def loadLaunch : Launch :=
  { parcel := 0, count := 1, stands := [], sets := [], gang := false, root := true, entry := loadEntry, args := 0, chunkhint := 0,
    part := defaultPart, prio := 47, cls := 3, unplaced := 0 }

/-- A device with a program of the given bytes loaded: parcel 0, frames 1 to 4 its own, a root thread on core 0. -/
def State.loadProgram (s : State) (bytes : List Byte) : State :=
  let t := newThread 0 loadLaunch 0 s.cycle s.nextId
  let mem := loadTables.foldl (fun m (e : Nat × Nat) => m.setBytes e.1 (bytesOfNat e.2 8)) s.mem
  { s with
    turns := [], rota := [], persistent := [], phase := .run, mem := mem.setBytes 0x40000 bytes,
    live := [0x10, 0x20, 0x30, 0x40].foldl (fun m k => mput k m) s.live,
    frameOwner := [1, 2, 3, 4].foldl (fun m k => tput k 0 m) s.frameOwner,
    parcels := s.parcels.set 0 loadParcel, tlb := [],
    launches := tput 0 loadLaunch s.launches,
    threads := [(0, { t with state := .runReady, core := some 0, placed := true, strip := some [] })],
    nextLaunch := max 1 s.nextLaunch }

end Sys2Proof.Machine
end

