-- ==== Sys2Proof/Machine/Step.lean ====
section
/-! DEFINITION. One step of the device: the next turn's agent executes the instruction that its word decodes to, or an event
takes place. -/

namespace Sys2Proof.Machine

/-- The instruction that a fetched word stands for: a word that decodes to none, or to one that is not well formed, is
illegal (R34). -/
noncomputable def instrOf (w : BitVec 32) : Instr :=
  match decode w with
  | .ok i => if i.wf then i else .illegalInstruction w
  | .error _ => .illegalInstruction w

/-- One step. -/
noncomputable def step (s : State) : Host.Outcome State Fault Refusal :=
  match s.move with
  | .over s => .next s
  | .event i s => exec i s
  | .endpoint hub s => .next (s.serve hub)
  | .run w s => exec (instrOf w) s

/-- The instruction of the opcode table whose bits are w, stored where the next step fetches. -/
def State.withFetchWord (s : State) (nbits w : Nat) : State :=
  s.loadProgram (bytesOfWord (BitVec.ofNat 32 (w % 2 ^ nbits)))

end Sys2Proof.Machine
end

