-- ==== Sys2Proof/Safety.lean ====
section
/-! DEFINITION. What counts as a safe run of the device, and the words in which statements speak of one instruction: the
states in which a thread's next instruction completes inside its chunk, and the state after it. -/

namespace Sys2Proof

/-- A step that answers a next state. -/
def Goes (s t : Machine.State) : Prop := Machine.step s = .next t

/-- A run of the device from s to t. -/
inductive Reaches : Machine.State → Machine.State → Prop where
  | refl (s : Machine.State) : Reaches s s
  | step {s t u : Machine.State} : Reaches s t → Goes t u → Reaches s u

/-- No state that a run from s comes to stops. -/
def Safe (s : Machine.State) : Prop := ∀ t, Reaches s t → ∃ u, Goes t u

end Sys2Proof

namespace Sys2Proof.Machine

/-- The executing thread with the device around it, before its instruction. -/
def Running.of (s : State) (t : Thread) : Running := { s, t, vp := none, popped := [], ends := false, beats := 0, group := (0, []) }

/-- Thread t is the one to execute, and none of its VPs runs: it is Run-ready, resident, not in pause, on a device out of
reset, its chunk, if it has one open, has not ended, and no trap of its own is still to be entered. -/
structure Ready (s : State) (t : Thread) : Prop where
  actor : s.actor = .thread t.tid
  entry : tfind t.tid s.threads = some t
  runs : t.state = .runReady
  core : t.core.isSome = true
  pause : t.pause = none
  phase : s.phase = .run
  vps : t.ctx.vps = []
  unended : t.chunk.all (!·.ended) = true
  pend : t.pendTrap = none

/-- Nothing holds a register of the thread: no poison, and no load or atomic whose value is still to come or to be used. -/
structure Calm (s : State) (t : Thread) : Prop where
  poison : t.poison = []
  deferred : t.deferred = []
  failed : t.failedRegs = []
  replies : t.replies = []
  awaits : ∀ p, (Running.of s t).awaits p = false

/-- No other chunk's claim on a line comes before the thread's, and the thread holds no priority ticket, to which the other chunks
would yield their tokens (R279, R281). -/
structure Free (s : State) (t : Thread) : Prop where
  claims : ∀ reads writes, s.barred t.tid reads writes = false
  ticket : s.ticket ≠ some t.tid

/-- The chunk that the thread's next instruction stands in: the open one, or the one that it opens (R176). -/
def opened (s : State) (t : Thread) : Chunk :=
  t.chunk.getD
    { start := t.ctx, poison := t.poison, explicit := false, priority := s.ticket == some t.tid, icount := 0, stores := [], reads := [],
      writes := [], pages := s.fetchPage.toList, tileOps := [], launches := [], arrivals := [], fabricOut := [],
      parcelWrites := [], traverse := none, issues := [], tagsAtOpen := t.ctags, tagsDone := 0, nearLines := [],
      farLines := [], late := false, ended := false, exits := false, yields := false }

/-- The executing thread as a meaning's own part finds it, its chunk open (R176). -/
def atBody (s : State) (t : Thread) : Running :=
  { s, t := { t with chunk := some (opened s t) }, vp := none, popped := [], ends := false, beats := 0, group := (0, []) }

/-- A chunk that has executed one instruction more. -/
def Chunk.counted (c : Chunk) : Chunk := { c with icount := c.icount + 1 }

/-- A chunk that its limits do not end (R176, R182): an explicit one within its three limits, an implicit one below the
thread's instruction limit. -/
def Chunk.goesOn (limit : Nat) (c : Chunk) : Bool := if c.explicit then c.overflow.isNone else c.icount < limit

/-- An instruction of the thread that keeps its chunk's footprint leaves the chunk open. -/
structure Quiet (s : State) (t : Thread) : Prop extends Ready s t, Calm s t where
  room : (opened s t).counted.goesOn t.limit = true

/-- The context after a control-thread instruction that goes on to the next word: the end test of R67. -/
def Ctx.next (c : Ctx) : Ctx := endTest c.pc c c.loops

/-- The context after a control-thread instruction: at the next word, or at a target. -/
def Ctx.follow (c : Ctx) : Next → Ctx
  | .seq => c.next
  | .goto pc => { c with pc }

/-- A scalar register written: x0 discards (R36). -/
def Ctx.put (c : Ctx) (d : BitVec 6) (w : Word) : Ctx := 
  if d = 0 then c else { c with x := c.x.setIfInBounds d.toNat w }

/-- Flags raised (R41). -/
def Ctx.flag (c : Ctx) (f : BitVec 5) : Ctx := { c with fflags := c.fflags ||| f }

/-- The thread once the strip that it was granted is over (R272). -/
def Thread.past (t : Thread) : Thread := { t with strip := none, stripSince := none }

/-- The thread charged n element-beats that only the strip's execution has shown (R271). -/
def Thread.charged (t : Thread) (n : Nat) : Thread := { t with deficit := t.deficit - n }

/-- The device after an instruction of the thread that stays inside its chunk: the thread has context c, its strip is over and its
chunk is k with one instruction more; everything else is as in s. -/
def went (s : State) (t : Thread) (c : Ctx) (k : Chunk) : State :=
  s.setThread { t.past with ctx := c, chunk := some k.counted }

/-- The device after an instruction that changes the context of its thread alone and goes on to the next word. -/
def wrote (s : State) (t : Thread) (c : Ctx) : State := went s t c.next (opened s t)

/-- The elements that the thread's vector instructions act on: those below vl that the guard predicate lets through (R41). -/
def Ctx.active (c : Ctx) : List Nat := (List.range c.vl).filter (c.pAt (modeGuard c.mode)).getLsbD

/-- The vector register that a name denotes (R70). -/
def Ctx.vAt (c : Ctx) (k : BitVec 6) : VReg := c.v[c.phys k.toNat]?.getD 0

/-- A named vector register written (R70). -/
def Ctx.putV (c : Ctx) (k : BitVec 6) (v : VReg) : Ctx := c.setV (c.phys k.toNat) v

/-- Elements of w bits laid over a register (R98): the elements not listed keep their values. -/
def fill (v : VReg) (w : Nat) (es : List (Nat × Nat)) : VReg := es.foldl (fun v e => setElem v e.1 w e.2) v

/-- The widths of the thread's source and destination types. -/
def Ctx.sw (c : Ctx) : Nat := typeWidth c.fmt (modeStype c.mode)
def Ctx.dw (c : Ctx) : Nat := typeWidth c.fmt (modeDtype c.mode)

/-- vl is within the limit of elements of w bits (R60). -/
def Thread.vlFits (t : Thread) (w : Nat) : Bool := t.ctx.vl ≤ vlLimit t.vlmax w

/-- The context after a vector instruction that gives each active element a result of w bits and flags. -/
def Ctx.putElems (c : Ctx) (d : BitVec 6) (w : Nat) (res : Nat → Rounded) : Ctx :=
  (c.putV d (fill (c.vAt d) w (c.active.map fun i => (i, (res i).1)))).flag
    (c.active.foldl (fun f i => f ||| (res i).2) 0)

/-- The code that an elementwise instruction takes for its second operand at element i: an element of a register, or the low
bits of a scalar (R33). -/
def Ctx.argAt (c : Ctx) (b : Arg) (w i : Nat) : Nat :=
  match b with
  | .none => 0
  | .v k => getElem (c.vAt k) i w
  | .x k => (c.xAt k).toNat % 2 ^ w

/-- What the strip of a vector instruction that leaves context c' is charged beyond its grant (R271): 16 for each element group with a
subnormal value among its sources, or among its results at the elements ds. -/
def Ctx.slowPasses (c c' : Ctx) (srcs dst : List (Arg × TypeCode)) (ds : List Nat := c.active) : Nat :=
  16 * (distinct (((c.active.filter fun i => srcs.any (c.subnormalAt [] i)) ++ ds.filter fun i => dst.any (c'.subnormalAt [] i)).map
    (· / 16))).length

/-- The device after a vector instruction that changes the context of its thread alone, its strip charged so. -/
def passed (s : State) (t : Thread) (c : Ctx) (srcs dst : List (Arg × TypeCode)) (ds : List Nat := t.ctx.active) : State :=
  went s (t.charged (t.ctx.slowPasses c srcs dst ds)) c.next (opened s t)

/-- A predicate register written by the control thread: 1 at the indices listed, 0 at every other (R98). -/
def Ctx.putPred (c : Ctx) (d : BitVec 6) (on : List Nat) : Ctx := c.setP d.toNat (bitsOf on)

/-- The types, widths and controls of a vector integer instruction under the thread's mode. -/
def Ctx.intOp (c : Ctx) : IntOp :=
  { t := modeStype c.mode, u := modeDtype c.mode, w := c.sw, wd := c.dw, sat := modeSat c.mode }

/-- The formats and controls of a vector floating instruction under the thread's mode. -/
def Ctx.floatOp (c : Ctx) : FloatOp :=
  { f := floatFmt c.fmt (modeStype c.mode), g := floatFmt c.fmt (modeDtype c.mode), rnd := modeRnd c.mode, key := c.rngkey }

/-- The types and controls of a conversion or a reduction under the thread's mode. -/
def Ctx.conv (c : Ctx) : Conv :=
  { t := modeStype c.mode, u := modeDtype c.mode, w := c.sw, wd := c.dw, rnd := modeRnd c.mode, sat := modeSat c.mode,
    fmt := c.fmt, key := c.rngkey }

/-- The register of block scales that the thread's mode names (R83). -/
def Ctx.scales (c : Ctx) : VReg := c.v[c.phys (modeScale c.mode)]?.getD 0

/-- The scale byte of element i of a named register whose elements have w bits (R83). -/
def Thread.scaleOf (t : Thread) (k : BitVec 6) (w i : Nat) : Nat := t.scaleByte t.ctx.scales (t.ctx.phys k.toNat) w i

/-- What a compare finds at element i (R113): its bit and its flags. -/
def Ctx.cmpAt (c : Ctx) (k : Cmp) (a b : BitVec 6) (i : Nat) : Bool × Flags :=
  let t := modeStype c.mode
  let x := getElem (c.vAt a) i c.sw
  let y := getElem (c.vAt b) i c.sw
  if isInt t then (k.int (intValue t c.sw x) (intValue t c.sw y), 0)
  else
    let v := (floatFmt c.fmt t).value x
    let u := (floatFmt c.fmt t).value y
    let un := v.isNan || u.isNan
    let zeros := v.isZero && u.isZero
    let lt := !un && !zeros && v.below u
    let eq := !un && (zeros || (!v.below u && !u.below v))
    (k.float lt eq un, if v.snan || u.snan || (k.quietNV && un) then fNV else 0)

/-- The thread has no vector register in stream mode. -/
structure VecQuiet (s : State) (t : Thread) : Prop extends Quiet s t where
  streams : t.ctx.streams = []

/-- The core of the thread, and its die. -/
def Thread.coreNum (t : Thread) : Nat := t.core.getD 0
def Thread.die (t : Thread) : Nat := dieOf t.coreNum

/-- An access of the thread at its own level translates to the place p: the page is mapped with the permissions needed, and the
access is a byte of memory, of a scratchpad or of the die's own view of a managed line, or one of the other places (R172, R313). -/
structure Lands (s : State) (t : Thread) (need : Need) (va : Nat) (a : Access) (hit : Bool) (p : Place) : Prop where
  ok : s.translate t.coreNum t.parcel t.ctx.priv need va = .ok (a, hit)
  place : s.placeOf (some t.coreNum) (crewOf t.coreNum) t.parcel a = .ok p
  host : a.window = .host → s.fyzWidth ≠ 0

/-- A chunk that has used a translation (R318). -/
def Chunk.notePage (c : Chunk) (e : TlbEntry) : Chunk := if c.pages.contains e then c else { c with pages := e :: c.pages }

/-- A chunk that has read n bytes at a location (R179). -/
def Chunk.noteRead (c : Chunk) (loc n : Nat) : Chunk :=
  { c with reads := (linesFrom loc n).foldl (fun m l => mput l m) c.reads }

/-- A chunk that has stored bytes under masks (R175). -/
def Chunk.store (c : Chunk) (ws : List Write) : Chunk :=
  ws.foldl (fun c w =>
    { c with
      stores := tput w.1 (((tfind w.1 c.stores).getD (0, 0)).1 ||| w.2.1,
        (((tfind w.1 c.stores).getD (0, 0)).2 &&& ~~~w.2.1) ||| (w.2.2 &&& w.2.1)) c.stores
      writes := mput (w.1 / 128) c.writes }) c

/-- What a chunk reads at a location: its own stores over the device's bytes (R196). -/
def Chunk.sees (c : Chunk) (s : State) (loc n : Nat) : List Byte :=
  (List.range n).map fun i => overlay c.stores (loc + i) (s.byteAt (loc + i))

/-- The device after a read of n bytes: a die's view of a managed line is filled from home where the die holds no copy (R186),
and a read of a block that is not live is counted (R248). -/
def State.noteRead (s : State) (loc n : Nat) : State :=
  (if viewBase ≤ loc then
    (linesFrom loc n).foldl (fun s l => s.fillCopy (viewDie loc) (l * 128 % viewBase / 128)) s
   else s).countDead loc

/-- An atomic of the thread is placed near (R208): its chunk is explicit or under priority commit, the contention predictor has
less than 2 for the line, or the location is a scratchpad's. -/
def Chunk.near (c : Chunk) (s : State) (core loc : Nat) : Bool :=
  c.explicit || c.priority || (s.core core).predicted (loc / 128) < 2 || (scratchBase ≤ loc && loc < viewBase)

/-- The device after a near placement: the predictor's entry for the line, if there is one, is the most recently used, and the
placement is counted (R208, R394). -/
def State.placedNear (s : State) (core loc : Nat) : State :=
  (s.setCore core ((s.core core).touch (loc / 128))).count fun c => { c with nearPlacements := c.nearPlacements + 1 }

/-- The device after a far placement (R208, R394). -/
def State.placedFar (s : State) (core loc : Nat) : State :=
  (s.setCore core ((s.core core).touch (loc / 128))).count fun c => { c with farPlacements := c.farPlacements + 1 }

/-- A request of the thread to another device, as it enters the chunk or is sent (R322, R325). -/
def Thread.ask (t : Thread) (dev off : Nat) (op : ArrivingOp) (va : Word) (reply : ReplyTo) : FabricReq :=
  { id := 0, parcel := t.parcel, die := t.die, dev, off, header := 0, op, va, reply, port := 0, sent := false, batch := none, lead := off,
    parts := [], folded := false, issued := 0, stage := 0, waiting := false, first := (0, 0), last := (0, 0), answer := none }

/-- The thread has no chunk open and nothing issued that its next commit would fork: its next instruction opens a chunk, and an
instruction that stands alone commits a chunk that holds nothing. -/
structure Idle (s : State) (t : Thread) : Prop extends Ready s t, Calm s t where
  chunk : t.chunk = none
  pending : t.pending = none
  forked : ∀ c ∈ s.copies, c.tid = t.tid → c.forked = true

/-- A thread after the commit of a chunk that read the given lines and left nothing else in it (R177, R306). -/
def Thread.settled (t : Thread) (reads : Marks) : Thread :=
  { t with chunk := none, lastReads := reads, squashes := 0, squashesAtOne := 0, failures := [], limit := baseLimit t.chunkhint,
           replies := [], pendTrap := none }

/-- A thread after the commit of chunk k (R177, R214): its tile operations join the thread's others (R155). -/
def Thread.closed (t : Thread) (k : Chunk) : Thread :=
  { t.settled k.reads with statFresh := t.statFresh || k.explicit, tileQueue := t.tileQueue ++ k.tileOps }

/-- The device after the commit of chunk k of the thread, as Spare has it: its stores are performed as one unit of the
order (R179, R181), the commit is counted, its writes of parcel registers take effect (R301), its far atomics queue at the home slices of
their lines (R282), and the priority ticket passes on if the thread held it (R280). -/
def settledWith (s : State) (t : Thread) (k : Chunk) : State :=
  let s := ((s.setThread (t.closed k)).unit (some t.tid) (k.stores.map fun e => (e.1, e.2.1, e.2.2))).count fun k =>
    { k with commits := k.commits + 1 }
  let s := k.parcelWrites.foldl (fun s w => s.writeParcel t.parcel w) s
  (k.farLines.foldl (fun s l => s.queueFar t.tid t.coreNum l) s).releaseTicket t.tid

/-- The device after the commit of chunk k of the thread, whatever the chunk holds (R179): its stores as one unit, its launches, its writes of
parcel registers, its engines, its arrivals at stands, its far atomics and its requests to other devices, in that order. -/
def committed (s : State) (t : Thread) (k : Chunk) : State :=
  let s := ((s.setThread (t.closed k)).unit (some t.tid) (k.stores.map fun e => (e.1, e.2.1, e.2.2))).count fun k =>
    { k with commits := k.commits + 1 }
  let s := k.launches.foldl (fun s e => s.createLaunch e.1 e.2) s
  let s := k.parcelWrites.foldl (fun s w => s.writeParcel t.parcel w) s
  let s := ((s.forkAll t.tid).forkTraverse t.tid t.parcel k.traverse).arriveAt t.tid k.arrivals
  let s := k.farLines.foldl (fun s l => s.queueFar t.tid t.coreNum l) s
  (k.fabricOut.foldl State.sendReq s).releaseTicket t.tid

/-- Nothing that the ticket holder has touched stands in the way of the commit (R279). -/
def State.letsCommit (s : State) (t : Thread) (k : Chunk) : Bool :=
  !s.held (some t.tid) (k.writes ++ k.arrivals.map (standLine (launchOf t.tid)) ++ if k.traverse.isSome then [slotLine t.parcel] else [])
    && (k.launches.isEmpty || !s.pins (some t.tid) (s.crowds t.parcel k.launches.length))

/-- The device after the commit of a chunk of the thread that held nothing. -/
def settled (s : State) (t : Thread) (reads : Marks) : State :=
  ((s.setThread (t.settled reads)).count fun k => { k with commits := k.commits + 1 }).releaseTicket t.tid

/-! What a thread's reads and stores of memory come to, piece by piece: none where a piece is not a byte of memory that it may
read or write, or is poisoned. -/

/-- The element group that an instruction is at, and the translations that the group has made (R317). -/
abbrev Group := Nat × List TlbEntry

/-- The translation of a byte of element i: one that its group of 16 has made, or a new one (R313, R315, R317). -/
def Thread.reach (t : Thread) (need : Need) (i va : Nat) (s : State) (k : Chunk) (g : Group) : Option (Access × State × Chunk × Group) :=
  let known := groupKnown g i
  match known.find? (·.covers va) with
  | some e => match s.checkLeaf t.ctx.priv need va e with | .ok a => some (a, s, k, g) | .error _ => none
  | none =>
    match s.translate t.coreNum t.parcel t.ctx.priv need va with
    | .ok (a, hit) => some (a, s.keepEntry t.coreNum a hit, k.notePage a.entry, (i / 16 + 1, a.entry :: known))
    | .error _ => none

/-- The byte of memory that a translated access of the thread reaches. -/
def Thread.spot (t : Thread) (s : State) (a : Access) : Option Nat :=
  if a.window = .host ∧ s.fyzWidth = 0 then none else
  match s.placeOf (some t.coreNum) (crewOf t.coreNum) t.parcel a with
  | .ok (.loc l) => some l
  | _ => none

/-- The translations of an element's pieces, one after another. -/
def Thread.reachEach (t : Thread) (need : Need) (i : Nat) :
    List Nat → State → Chunk → Group → Option (List Access × State × Chunk × Group)
  | [], s, k, g => some ([], s, k, g)
  | va :: rest, s, k, g =>
    (t.reach need i va s k g).bind fun (a, s, k, g) =>
      (t.reachEach need i rest s k g).map fun (as, s, k, g) => (a :: as, s, k, g)

/-- Where an element's pieces lie: every one is translated before the place of any is found (R200). -/
def Thread.land (t : Thread) (need : Need) (i : Nat) (vas : List Nat) (s : State) (k : Chunk) (g : Group) :
    Option (List Nat × State × Chunk × Group) :=
  (t.reachEach need i vas s k g).bind fun (as, s, k, g) => (as.mapM (t.spot s)).map fun ls => (ls, s, k, g)

/-- A read of n bytes meets no poison (R351). -/
def Chunk.readable (k : Chunk) (s : State) (va l n : Nat) : Bool := (s.poisonTrap va l n).isNone || k.whole l n

/-- A read of n bytes at a location (R179, R196). -/
def lookAt (va l n : Nat) (s : State) (k : Chunk) : Option (List Byte × State × Chunk) :=
  if k.readable s va l n then some (k.sees (s.noteRead l n) l n, s.noteRead l n, k.noteRead l n) else none

/-- Reads of n bytes each at addresses whose locations are known. -/
def lookEach (n : Nat) : List (Nat × Nat) → State → Chunk → Option (List Byte × State × Chunk)
  | [], s, k => some ([], s, k)
  | (va, l) :: rest, s, k =>
    (lookAt va l n s k).bind fun (b, s, k) =>
      (lookEach n rest s k).map fun (bs, s, k) => (b ++ bs, s, k)

/-- A read of a datum of element i that lies in pieces of n bytes at the given addresses. -/
def Thread.see (t : Thread) (need : Need) (i n : Nat) (vas : List Nat) (s : State) (k : Chunk) (g : Group) :
    Option (List Byte × State × Chunk × Group) :=
  (t.land need i vas s k g).bind fun (ls, s, k, g) => (lookEach n (vas.zip ls) s k).map fun (b, s, k) => (b, s, k, g)

/-- Reads of data one after another, each of an element. -/
def Thread.seeAll (t : Thread) (need : Need) :
    List (Nat × Nat × List Nat) → State → Chunk → Group → Option (List (List Byte) × State × Chunk × Group)
  | [], s, k, g => some ([], s, k, g)
  | (i, n, vas) :: rest, s, k, g =>
    (t.see need i n vas s k g).bind fun (b, s, k, g) =>
      (t.seeAll need rest s k g).map fun (bs, s, k, g) => (b :: bs, s, k, g)

/-- The pieces of an element of w bits at an address and a bit offset there (R200): the bytes of one that is narrower than a byte,
or the whole of another. -/
def elemPieces (w : Nat) (a : Word) (bit : Nat) : Nat × List Nat :=
  if w < 8 then (1, (List.range ((bit + w + 7) / 8)).map fun j => (a + BitVec.ofNat 64 j).toNat) else (w / 8, [a.toNat])

/-- Bytes laid under bit masks at rising locations. -/
def maskedWrites (l : Nat) (data mask : List Byte) : List Write := ((writesOf l data).zip mask).map fun e => (e.1.1, e.2, e.1.2.2)

/-- The writes of an element of w bits at a bit offset, its pieces at the given locations (R199). -/
def elemWrites (w bit x : Nat) (ls : List Nat) : List Write :=
  if w < 8 then
    (ls.zip ((bytesOfNat (x * 2 ^ bit) ((bit + w + 7) / 8)).zip
      (bytesOfNat ((2 ^ w - 1) * 2 ^ bit) ((bit + w + 7) / 8)))).flatMap fun e => maskedWrites e.1 [e.2.1] [e.2.2]
  else ls.flatMap fun l => maskedWrites l (bytesOfNat x (w / 8)) (List.replicate (w / 8) 255)

/-- Stores of elements of w bits one after another, each an index, an address, a bit offset there and data: the device, the chunk and
the group after them. -/
def Thread.putAll (t : Thread) (w : Nat) :
    List (Nat × Word × Nat × Nat) → State → Chunk → Group → Option (State × Chunk × Group)
  | [], s, k, g => some (s, k, g)
  | (i, a, bit, x) :: rest, s, k, g =>
    (t.land .store i (elemPieces w a bit).2 s k g).bind fun (ls, s, k, g) =>
      t.putAll w rest s (k.store (elemWrites w bit x ls)) g

/-- Atomics of n bytes one after another, each an element's index, its address and its operand (R205, R209): the old values, the
flags, and the device, the chunk and the group after them. -/
def Thread.amoAll (t : Thread) (op : AmoOp) (n : Nat) :
    List (Nat × Word × Nat) → State → Chunk → Group → Option (List (Nat × Nat) × Flags × State × Chunk × Group)
  | [], s, k, g => some ([], 0, s, k, g)
  | (i, a, x) :: rest, s, k, g =>
    (t.reach .amo i a.toNat s k g).bind fun (acc, s, k, g) =>
      (t.spot s acc).bind fun l =>
        (lookAt a.toNat l n s k).bind fun (b, s, k) =>
          let v := amoApply op n (natOfBytes b) (x % 2 ^ (8 * n))
          (t.amoAll op n rest s (k.store (writesOf l (bytesOfNat v.1 n))) g).map fun (ms, f, s, k, g) =>
            ((i, natOfBytes b) :: ms, v.2 ||| f, s, k, g)

/-- Where element i of a vector memory instruction lies under a thread's mode and registers (R199). -/
def Ctx.elemAt (c : Ctx) (form : VForm) (a : BitVec 6) (i : Nat) : Word × Nat :=
  elemAddr form (c.xAt a) (match form with | .strided b => c.xAt b | _ => 0) (modeDtype c.mode) c.sw c.dw
    (match form with | .indexed b => c.vAt b | _ => 0) i

/-- The elements that a vector memory instruction performs: the active ones from estart up (R199, R200). -/
def Ctx.fromEstart (c : Ctx) : List Nat := c.active.filter (c.estart.toNat ≤ ·)

/-- The elements of a vector atomic, with their addresses and operands. -/
def Ctx.amoElems (c : Ctx) (d a b : BitVec 6) : List (Nat × Word × Nat) :=
  c.fromEstart.map fun i => (i, (c.elemAt (.indexed b) a i).1, getElem (c.vAt d) i c.sw)

/-- A vector atomic is performed at home (R210): more than vl / 8 distinct lines, outside explicit chunks and priority commit. -/
def Ctx.atHome (c : Ctx) (k : Chunk) (d a b : BitVec 6) : Bool :=
  !(k.explicit || k.priority) && c.vl < 8 * (distinct ((c.amoElems d a b).map fun e => e.2.1.toNat / 128)).length

/-- The chunk after a vector atomic that is performed at home: its elements queue at the home slices of their lines (R210, R282). -/
def Ctx.homed (c : Ctx) (k : Chunk) (d a b : BitVec 6) : Chunk :=
  { k with late := true, farLines := k.farLines ++ (c.amoElems d a b).map fun e => e.2.1.toNat / 128 }

/-- The context after a vector atomic: the old values where it returns them, and flags. -/
def Ctx.amoDone (c : Ctx) (ret : Bool) (d : BitVec 6) (ms : List (Nat × Nat)) (f : Flags) : Ctx :=
  { (if ret then c.putV d (fill (c.vAt d) c.sw ms) else c).flag f with estart := 0 }

/-- The mode and vl let a vector memory instruction of a form run (R198, R60), and estart is an element or 0 (R200). -/
structure Thread.memReady (t : Thread) (form : VForm) (types : TypeCode → Bool) : Prop where
  mode : (modeScale t.ctx.mode == 0 && (form.isUnit || 8 ≤ t.ctx.sw) && (!form.isIndexed || isInt (modeDtype t.ctx.mode))
    && types (modeStype t.ctx.mode)) = true
  fits : t.vlFits (if form.isIndexed then max t.ctx.sw t.ctx.dw else t.ctx.sw) = true
  start : t.ctx.estart = 0 ∨ t.ctx.estart.toNat < t.ctx.vl
  streams : t.ctx.streams = []

/-- On this turn no load is put off (R189) and no chunk ends inside an instruction (R178). -/
structure Whole (s : State) : Prop where
  defer : s.defer = false
  cut : s.cut = none

/-- A thread after the deferred loads of some line have been performed (R186, R345): what they write, and nothing else. -/
structure Thread.Late (t u : Thread) : Prop where
  same : u = { t with ctx := u.ctx, poison := u.poison, chunk := u.chunk, pending := u.pending, failedRegs := u.failedRegs,
                      deferred := u.deferred }
  idle : t.deferred = [] → u = t
  chunk : ∀ c, t.chunk = some c → ∃ d, u.chunk = some d ∧ d = { c with start := d.start, poison := d.poison }

/-- What reads alone leave of the device (R186, R315, R394): kept translations, counters, copies filled from home, and the deferred
loads of any thread that waited for such a fill. -/
structure Looked (s s' : State) (k k' : Chunk) : Prop where
  state : s' = { s with tlb := s'.tlb, counters := s'.counters, copiesMgd := s'.copiesMgd, poisoned := s'.poisoned,
                        threads := s'.threads }
  threads : ∀ j, (tfind j s'.threads).isSome = (tfind j s.threads).isSome
  late : ∀ j t u, tfind j s.threads = some t → tfind j s'.threads = some u → t.Late u
  chunk : k' = { k with pages := k'.pages, reads := k'.reads }
  kept : ∀ j c, tfind j s.copiesMgd = some c → tfind j s'.copiesMgd = some c
  filled : ∀ j c, tfind j s'.copiesMgd = some c → tfind j s.copiesMgd = some c ∨
    ∃ die line, j = die * 2 ^ 48 + line ∧ c = { data := s.fillData die line, dirty := 0 }

/-- The executing thread at its own part, with the device, a context and a chunk. -/
def Thread.on (t : Thread) (s : State) (c : Ctx) (k : Chunk) (g : Group := (0, [])) : Running :=
  { s, t := { t with ctx := c, chunk := some k }, vp := none, popped := [], ends := false, beats := 0, group := g }

/-- The thread reads by m, with its own context: from the device s and chunk k it answers a, and leaves s' and k'. -/
def Thread.reads {α : Type} (t : Thread) (m : Exec α) (s : State) (k : Chunk) (a : α) (s' : State) (k' : Chunk) : Prop :=
  m (t.on s t.ctx k) = .ok a (t.on s' t.ctx k')

/-- Whether an atomic writes (R205): cas alone may not. -/
def amoWrites (op : AmoOp) (n m expected : Nat) : Bool := op != .cas || m == expected % 2 ^ (8 * n)

/-- The context and the chunk with an atomic on memory performed in it, before its register is written and it is placed (R205). -/
def amoFlagged (op : AmoOp) (n m v expected : Nat) (c : Ctx) : Ctx :=
  if amoWrites op n m expected then c.flag (amoApply op n m (v % 2 ^ (8 * n))).2 else c

def amoTouched (op : AmoOp) (n loc m v expected : Nat) (k : Chunk) : Chunk :=
  if amoWrites op n m expected then (k.noteRead loc n).store (writesOf loc (bytesOfNat (amoApply op n m (v % 2 ^ (8 * n))).1 n))
  else k.noteRead loc n

/-- The context that an atomic on memory leaves, and the chunk where it is placed near or far (R208). -/
def amoCtx (op : AmoOp) (n : Nat) (d : BitVec 6) (m v expected : Nat) (c : Ctx) : Ctx :=
  (amoFlagged op n m v expected c).put d (extend (amoExt op) n m)

def amoChunk (op : AmoOp) (n loc m v expected : Nat) (k : Chunk) : Chunk :=
  let k := amoTouched op n loc m v expected k
  { k with nearLines := loc / 128 :: k.nearLines }

def amoFar (op : AmoOp) (n loc m v expected : Nat) (k : Chunk) : Chunk :=
  let k := amoTouched op n loc m v expected k
  { k with farLines := k.farLines ++ [loc / 128] }

/-- A thread after elements have entered rows of a tile, which are then rs: the flags of them all are raised and msat is set where one
sets it, late, so that no squash takes them back (R157). -/
def Thread.entered (t : Thread) (rs : Table Row) (es : List Entered) : Thread :=
  { t with
    rows := rs
    ctx := { t.ctx with fflags := t.ctx.fflags ||| es.foldl (fun fl e => fl ||| e.flags) 0, msat := t.ctx.msat || es.any (·.msat) }
    chunk := t.chunk.map fun c => { c with start := { c.start with
      fflags := c.start.fflags ||| es.foldl (fun fl e => fl ||| e.flags) 0, msat := c.start.msat || es.any (·.msat) } } }

/-- A chunk that holds no more than its footprint, stores, tile operations, writes of parcel registers and far atomics. -/
structure Spare (k : Chunk) : Prop where
  launches : k.launches = []
  arrivals : k.arrivals = []
  fabricOut : k.fabricOut = []
  traverse : k.traverse = none
  exits : k.exits = false
  yields : k.yields = false

/-- A chunk that holds nothing: what an instruction that stands alone leaves in the chunk that it opens. -/
structure Bare (k : Chunk) : Prop extends Spare k where
  explicit : k.explicit = false
  stores : k.stores = []
  writes : k.writes = []
  tileOps : k.tileOps = []
  parcelWrites : k.parcelWrites = []
  farLines : k.farLines = []

/-- The context after a transfer to a target (R68). -/
def Ctx.leave (c : Ctx) (call : Bool) (target : Word) : Ctx :=
  { c with loops := popFor call c.pc target c.loops, pc := target }

/-- The predicates at the opening of a rotating loop with n kernel iterations (R66). -/
def openPreds (n : Nat) (p : Vector PReg 16) : Vector PReg 16 :=
  ([9, 10, 11, 12, 13, 14, 15].foldl (fun p k => p.setIfInBounds k 0) p).setIfInBounds 8 (if 0 < n then allOnes else 0)

/-- What a scope action waits for is not there: no line of the ticket holder's in its way, and at system scope, where it
releases, no fabric store or atomic of the thread unanswered (R190, R279). -/
structure ScopeFree (s : State) (t : Thread) (sc : BitVec 2) (drop release : Bool) : Prop where
  held : 2 ≤ sc → s.held (some t.tid) (s.copyLines t.die ++ (if drop then viewLines t.die (s.copyLines t.die) else [])) = false
  fabric : sc = 3 → release = true → (s.fabric.any (·.isAfter t.tid)) = false

/-- The device after a scope action (R190). -/
def State.scoped (s : State) (die : Nat) (sc : BitVec 2) (drop : Bool) : State := if 2 ≤ sc then s.flushDie die drop else s

/-- What chkbeg does to chkstat's count (R214). -/
def Thread.beginStat (t : Thread) : Thread := if t.statFresh then { t with statSquashes := 0, statFresh := false } else t

/-- The limit on vl under the thread's mode (R59). -/
def Thread.vlLim (t : Thread) : Nat :=
  vlLimit t.vlmax (max (typeWidth t.ctx.fmt (modeStype t.ctx.mode)) (typeWidth t.ctx.fmt (modeDtype t.ctx.mode)))

/-- No tile operation of the thread is pending. -/
def Thread.tilesDone (t : Thread) : Bool := t.tileQueue.isEmpty && !t.chunk.any (!·.tileOps.isEmpty)

/-- The mode lets a scalar floating instruction run (R62). -/
def scalarFloatOk (m : BitVec 26) : Bool := 8 ≤ modeDtype m && modeDtype m ≤ 11 && modeRnd m != 5

/-- The key that pkset writes (R307, R308). -/
def Ctx.pkey (c : Ctx) : BitVec 128 := c.pkeyhi ++ c.pkeylo

/-- VP i of thread t is the one to execute, its entry of the PC array e; the thread is as Ready has it besides. -/
structure VpReady (s : State) (t : Thread) (i : Nat) (e : VpPc) : Prop where
  actor : s.actor = .vp t.tid i
  entry : tfind t.tid s.threads = some t
  runs : t.state = .runReady
  core : t.core.isSome = true
  pause : t.pause = none
  phase : s.phase = .run
  unended : t.chunk.all (!·.ended) = true
  slot : tfind i t.ctx.vps = some e

/-- The context after an instruction of VP i, whose entry was e (R123). -/
def Ctx.vpNext (c : Ctx) (i : Nat) (e : VpPc) (n : Next) : Ctx := { c with vps := vpStep e i c.vps n }

/-- The thread after an instruction of VP i: of the strip that it was granted, the other VPs of the group are left (R285). -/
def Thread.pastVp (t : Thread) (i : Nat) : Thread := { t with strip := stripLeft i t.strip, stripSince := none }

/-- The device after an instruction of VP i that stays inside its chunk and changes the context of its thread alone. -/
def wentVp (s : State) (t : Thread) (i : Nat) (c : Ctx) : State :=
  s.setThread { t.pastVp i with ctx := c, chunk := some (opened s t).counted }

/-- The pairs that a pass over inputs from their cursors reads and writes, where m is what it gives (R271). -/
def passPairs (ins : List (Fibre × Nat)) (m : Fibre × Flags × List Fibre) : Nat :=
  (ins.map fun e => (e.1.drop e.2).length).sum - (m.2.2.map (·.length)).sum + m.1.length

/-- The context after a VP's elementwise instruction, which acts on the VP's own element alone (R123). -/
def Ctx.putElem (c : Ctx) (i : Nat) (d : BitVec 6) (w : Nat) (res : Rounded) : Ctx :=
  (c.putV d (setElem (c.vAt d) i w res.1)).flag res.2

/-- A fibre register written (R127). -/
def Ctx.putF (c : Ctx) (d : BitVec 6) (f : Fibre) : Ctx := { c with f := c.f.setIfInBounds d.toNat f }

/-- The pairs that a fibre store or gather walks: from estart up (R132). -/
def Ctx.pairsFrom (c : Ctx) (n : Nat) : List Nat := (List.range n).filter (c.estart.toNat ≤ ·)

/-- estart is a pair of the fibre, or 0 (R132). -/
def Ctx.startsIn (c : Ctx) (n : Nat) : Prop := c.estart = 0 ∨ c.estart.toNat < n

/-- The mode lets a join run (R134). -/
def Ctx.joins (c : Ctx) : Bool :=
  isInt (modeStype c.mode) == isInt (modeDtype c.mode) && c.sw ≤ 32 && c.dw ≤ 32 && modeRnd c.mode != 5 && modeScale c.mode == 0

/-- The mode and vl let an instruction on a dense vector run (R134, R60). -/
def Thread.denseReady (t : Thread) : Bool := t.ctx.sw ≤ 32 && modeScale t.ctx.mode == 0 && t.vlFits t.ctx.sw

/-- The mode lets a gather or a scatter run (R149). -/
def Ctx.arrays (c : Ctx) : Bool := (c.sw == 8 || c.sw == 16 || c.sw == 32) && modeScale c.mode == 0

/-- A pass of an instruction with a progress tag may start, and whether it goes on with an earlier one (R136). -/
def Ctx.passes (c : Ctx) (tag : Nat) : Prop := fprogTag c.fprog = 0 ∨ fprogTag c.fprog = tag
def Ctx.goingOn (c : Ctx) : Bool := fprogTag c.fprog != 0

/-- A gather's pairs take their values (R149): each listed pair keeps the coordinate that it has in f. -/
def gathered (f : Fibre) (es : List (Nat × List Byte)) (g : Fibre) : Fibre :=
  es.foldl (fun g e => g.set e.1 ((f[e.1]?.getD (0, 0)).1, BitVec.ofNat 32 (natOfBytes e.2))) g

/-- The pairs that a walk reads at positions of a compressed level (R141), each with its index in the fibre: a coordinate each, and a value of b bytes, or the
position itself where the level has no values. -/
def Thread.walkAll (t : Thread) (crd val : Word) (b : Nat) :
    List (Nat × Nat) → State → Chunk → Group → Option (Fibre × State × Chunk × Group)
  | [], s, k, g => some ([], s, k, g)
  | (i, j) :: rest, s, k, g =>
    (t.see .load i 4 [(crd + BitVec.ofNat 64 (4 * j)).toNat] s k g).bind fun (c, s, k, g) =>
      (if val = 0 then some (j, s, k, g)
       else (t.see .load i b [(val + BitVec.ofNat 64 (j * b)).toNat] s k g).map fun (v, s, k, g) => (natOfBytes v, s, k, g)).bind
        fun (v, s, k, g) =>
          (t.walkAll crd val b rest s k g).map fun (f, s, k, g) => ((BitVec.ofNat 32 (natOfBytes c), BitVec.ofNat 32 v) :: f, s, k, g)

/-- A level's record (R141), as fwalk reads it: the addresses of its pointers, coordinates and values. -/
structure Level where
  ptr : Word
  crd : Word
  val : Word
  deriving DecidableEq, Repr

def Level.of (x : Nat) : Level :=
  { ptr := BitVec.ofNat 64 x, crd := BitVec.ofNat 64 (field 127 64 x), val := BitVec.ofNat 64 (field 191 128 x) }

/-- The level's addresses are aligned, and the mode has a value type where it has values (R142). -/
structure Level.ok (l : Level) (c : Ctx) : Prop where
  mode : l.val = 0 ∨ ((c.sw == 8 || c.sw == 16 || c.sw == 32) && modeScale c.mode == 0) = true
  ptr : l.ptr.toNat % 4 = 0
  crd : l.crd.toNat % 4 = 0
  val : l.val = 0 ∨ l.val.toNat % (c.sw / 8) = 0

/-- The fields of mattach's request (R152), and that they are ones it takes. -/
def attachMost (w : Word) : Nat := field 4 0 w.toNat
def attachLeast (w : Word) : Nat := field 12 8 w.toNat
def attachCode (w : Word) : Nat := field 17 16 w.toNat
def attachOk (w : Word) : Bool :=
  field 63 18 w.toNat == 0 && field 15 13 w.toNat == 0 && field 7 5 w.toNat == 0 && attachCode w != 3 && attachMost w != 0
    && attachMost w ≤ 16 && attachLeast w ≤ attachMost w

/-- The thread's grant has a tile of this number (R160). -/
def Thread.hasTile (t : Thread) (k : BitVec 2) : Bool := t.mgrant != 0 && k.toNat < t.tiles

/-- The rows of each of the thread's tiles. -/
def Thread.tileHeight (t : Thread) : Nat := t.mgrant / t.tiles

/-- A chunk with one tile operation more (R155). -/
def Chunk.queued (k : Chunk) (op : TileOp) : Chunk := { k with tileOps := k.tileOps ++ [op] }

/-- The fields of a tile move's second operand (R168), and that they are ones that it takes for tiles of H rows. -/
def moveN (w : Word) : Nat := field 24 16 w.toNat
def moveRow0 (w : Word) : Nat := field 7 0 w.toNat
def moveTag (w : Word) : Nat := field 37 32 w.toNat
def moveOk (w : Word) (tagged : Bool) (H : Nat) : Bool :=
  field 63 38 w.toNat == 0 && field 31 25 w.toNat == 0 && field 15 8 w.toNat == 0 && (tagged || moveTag w == 0)
    && moveN w != 0 && moveRow0 w + moveN w ≤ H

/-- The first register of a scratchpad span (R164, R168), and that it is one that is taken. -/
def spanBase (w : Word) : Nat := field 22 0 w.toNat
def spanPitch (w : Word) : Nat := field 55 32 w.toNat
def spanOk (w : Word) : Bool :=
  field 63 56 w.toNat == 0 && field 31 23 w.toNat == 0 && spanBase w % 4 == 0 && spanPitch w % 4 == 0

/-- n bytes from an offset lie in the portions of the thread's crew (R164). -/
def Thread.scratchFits (t : Thread) (s : State) (off n : Nat) : Prop :=
  ∀ k < n, s.scratchOk (crewOf t.coreNum) (off + k) = true

/-- Reads of the thread's crew scratchpad, each an offset and bytes. -/
def Thread.scratchAll (t : Thread) : List (Nat × Nat) → State → Chunk → Option (List Nat × State × Chunk)
  | [], s, k => some ([], s, k)
  | (off, n) :: rest, s, k =>
    (lookAt off (scratchLoc (crewOf t.coreNum) off) n s k).bind fun (b, s, k) =>
      (t.scratchAll rest s k).map fun (bs, s, k) => (natOfBytes b :: bs, s, k)

/-- The descriptor of a scratchpad operand from its two registers (R164), and that it is one that is taken. -/
def Ctx.spanOf (c : Ctx) (k : BitVec 6) : Span :=
  { base := spanBase (c.xAt k), rowpitch := spanPitch (c.xAt k), tilepitch := field 23 0 (c.xAt (k + 1)).toNat,
    rot := field 27 24 (c.xAt (k + 1)).toNat }
def Ctx.spanTaken (c : Ctx) (k : BitVec 6) : Bool :=
  spanOk (c.xAt k) && field 63 28 (c.xAt (k + 1)).toNat == 0 && (c.spanOf k).rot ≤ 7 && (c.spanOf k).tilepitch % 4 == 0

/-- An operand of a mop is one that is taken (R163, R164): a register within its capacity, or a span within the crew's portions. -/
def Thread.argTaken (t : Thread) (s : State) (arg : MopArg) (w count : Nat) : Prop :=
  match arg with
  | .v _ => count * w ≤ t.vlmax * 32
  | .s k => t.ctx.spanTaken k = true ∧
      ∀ q < count, t.scratchFits s ((t.ctx.spanOf k).place w q).1 (spanBytes w ((t.ctx.spanOf k).place w q).2)

/-- The codes of an operand of a mop, with the device and the chunk after they are read. -/
def Thread.argCodes (t : Thread) (arg : MopArg) (w count : Nat) (s : State) (k : Chunk) : Option (List Nat × State × Chunk) :=
  match arg with
  | .v r => some ((List.range count).map fun q => getElem (t.ctx.vAt r) q w, s, k)
  | .s r =>
    let d := t.ctx.spanOf r
    (t.scratchAll ((List.range count).map fun q => ((d.place w q).1, spanBytes w (d.place w q).2)) s k).map fun (xs, s, k) =>
      (((List.range count).zip xs).map fun e => e.2 / 2 ^ (d.place w e.1).2 % 2 ^ w, s, k)

/-- The block scale of element q of an operand of a mop, if it has one (R163). -/
def Thread.argScale (t : Thread) (arg : MopArg) (w q : Nat) : Option Nat :=
  match arg with
  | .v r => if modeScale t.ctx.mode = 0 then none else some (t.scaleOf r w q)
  | .s _ => none

/-- An operand's values from its codes (R163). -/
def Thread.argValues (t : Thread) (arg : MopArg) (ty : TypeCode) (w : Nat) (codes : List Nat) : Array Val :=
  ((List.range codes.length).zip codes).toArray.map fun e => operandValue t.ctx.fmt ty w e.2 (t.argScale arg w e.1)

/-- Whether both operands of a mop are vector registers, and the descriptor of an operand that is a scratchpad span. -/
def MopArg.bothV (a b : MopArg) : Bool := match a, b with | .v _, .v _ => true | _, _ => false
def Ctx.spanIn (c : Ctx) (arg : MopArg) : Option Span := match arg with | .v _ => none | .s k => some (c.spanOf k)

/-- What a mop takes (R160, R163, R165): a tile, block scales with vector operands of formats or integers only, a predicate with
four kept positions in each group of eight. na and nb are the elements that its operands hold. -/
structure Thread.mopReady (t : Thread) (s : State) (pm : BitVec 4) (k : BitVec 2) (a b : MopArg) (m : MopType) (na nb : Nat) :
    Prop where
  type : mopType t.ctx.mode t.ctx.mmode = some m
  scale : modeScale t.ctx.mode = 0 ∨ (m.ta ≠ 8 ∧ m.ta ≠ 9 ∧ a.bothV b = true)
  group : pm = 0 ∨ m.g ≠ 1
  tile : t.hasTile k = true
  rows : na = if pm = 0 then t.tileHeight * m.g else t.tileHeight * m.g / 2
  cols : nb = m.g * 256
  first : t.argTaken s a (typeWidth t.ctx.fmt m.ta) na
  second : t.argTaken s b (typeWidth t.ctx.fmt m.tb) nb
  bits : pm = 0 ∨ t.tileHeight * m.g ≤ t.vlmax * 8
  groups : pm = 0 ∨ badGroup (t.ctx.pAt pm.toNat) (t.tileHeight * m.g) = none
  streams : t.ctx.streams = []

/-- A thread and a chunk after an operation with a tag has been issued (R224): the tag's count is one more and its bit clear. -/
def Thread.tagged (t : Thread) (tag : Nat) : Thread :=
  { t with tagCounts := tset 0 tag (tget 0 tag t.tagCounts + 1) t.tagCounts, ctags := t.ctags &&& ~~~(1#64 <<< tag) }
def Chunk.issued (k : Chunk) (tag : Nat) : Chunk := { k with issues := k.issues ++ [tag] }

/-! Copies (10). -/

/-- The fields of a copy record (R215). -/
def copySplat (o : Nat) : Word := BitVec.ofNat 64 (field 63 0 o)
def copyDplat (o : Nat) : Word := BitVec.ofNat 64 (field 127 64 o)
def copyBar (o : Nat) : Word := BitVec.ofNat 64 (field 767 704 o)
def copyMask (o : Nat) : Word := BitVec.ofNat 64 (field 831 768 o)
def copyExt (o k : Nat) : Nat := field (511 + 32 * k) (480 + 32 * k) o
def copyRest (o r : Nat) : List Nat := (List.range (r - 1)).map fun k => copyExt o (k + 1)
def copyFrom (o r : Nat) : List Int := (List.range r).map (crdOf o 128)
def copyTo (o r : Nat) : List Int := (List.range r).map (crdOf o 320)
def copyScratchFrom (o : Nat) : Bool := field 672 672 o = 1
def copyScratchTo (o : Nat) : Bool := field 673 673 o = 1
def copyCount (req : Word) : Nat := field 31 0 req.toNat
def copyTag (req : Word) : Nat := field 37 32 req.toNat
def copyStand (req : Word) : Nat := field 47 40 req.toNat

/-- One plat of a copy reaches no element outside the address space, nor outside the crew's scratchpad where it stands there,
between two corners (R217). -/
def cornersFit (scratch : Bool) (l : Layout) (lo hi : List Nat) : Prop :=
  l.overflows lo = false ∧ l.overflows hi = false ∧ (scratch = true → l.addr lo < 2 ^ 23 ∧ l.addr hi < 2 ^ 23)

/-- What cpy and cpym take (R217): record o at va, request req, and its plats with the addresses of their elements 0. -/
structure CopyTakes (cast : Bool) (va req : Word) (o : Nat) (sp dp : Plat) (sbase dbase : Word) : Prop where
  aligned : va.toNat % 128 = 0
  barAligned : (copyBar o).toNat % 16 = 0
  maskAligned : (copyMask o).toNat % 8 = 0
  zeros : field 1023 832 o = 0 ∧ field 703 674 o = 0 ∧ (cast = true ∨ copyMask o = 0)
  request : field 63 48 req.toNat = 0 ∧ field 39 38 req.toNat = 0 ∧ (cast = true ∨ copyStand req = 0)
  source : sp.rank = dp.rank ∧ sp.width = dp.width ∧ sp.ranks = 1
  target : dp.ranks = 1 ∧ dp.ovl = false
  extents : ∀ k ∈ [1, 2, 3, 4, 5], if k < sp.rank then copyExt o k ≠ 0 else copyExt o k = 0
  corners : ∀ k < 6, sp.rank ≤ k → crdOf o 128 k = 0 ∧ crdOf o 320 k = 0
  inside : ∀ lo hi, surviving (copyCount req :: copyRest o sp.rank) (copyFrom o sp.rank) (copyTo o sp.rank) (sp.layout sbase).ext
      (dp.layout dbase).ext = some (lo, hi) →
    cornersFit (copyScratchFrom o) (sp.layout sbase) (addCrd (copyFrom o sp.rank) lo) (addCrd (copyFrom o sp.rank) hi) ∧
    cornersFit (copyScratchTo o) (dp.layout dbase) (addCrd (copyTo o sp.rank) lo) (addCrd (copyTo o sp.rank) hi)

/-- A copy's barrier: none where its record names address 0. -/
def copyBarrier (bar : Word) : Exec (Option Nat) := if bar = 0 then pure none else some <$> barPlace .amo bar

/-- The strip that a copy is granted (R218). -/
def copyGrant (s : State) (core o r : Nat) (req : Word) : Nat :=
  grantStrip (s.freeSlots core) (copyCount req) (product (copyRest o r))

/-- The copy that an issue enters (R215, R218, R221). -/
def copyIssued (s : State) (t : Thread) (cast own : Bool) (o : Nat) (req : Word) (sp dp : Plat) (sbase dbase : Word)
    (bar : Option Nat) : Copy :=
  { id := s.nextId, tid := t.tid, core := t.coreNum, parcel := t.parcel, priv := t.ctx.priv, cast := cast, stand := copyStand req,
    src := sp.layout sbase, dst := dp.layout dbase, ssp := copyScratchFrom o, dsp := copyScratchTo o, scrd := copyFrom o sp.rank,
    dcrd := copyTo o sp.rank, ext := copyGrant s t.coreNum o sp.rank req :: copyRest o sp.rank, tag := copyTag req, bar := bar,
    emask := copyMask o, slots := copyGrant s t.coreNum o sp.rank req * product (copyRest o sp.rank), own := own, forked := false,
    started := false, members := [], failed := [], held := [], done := [], masked := [], credited := 0, fault := none }

/-- A stream record is one that smode takes (R230). -/
def streamTaken (fmt : Vector Word 8) (p : Stream) (o : Nat) : Bool :=
  field 511 325 o == 0 && p.type < 21 && [8, 16, 32, 64].contains (typeWidth fmt p.type) && !p.count.contains 0

/-- The thread stands at a chunk's opening, outside explicit chunks (R176). -/
def Opening (s : State) (t : Thread) : Prop := (opened s t).explicit = false ∧ (opened s t).icount = 0

/-- No fault is recorded on a tag of the mask (R222). -/
def Thread.tagsClear (t : Thread) (mask : Word) : Bool := t.tagFaults.all fun e => !mask.getLsbD e.1

/-- A chunk that has read a line of its own accord. -/
def Chunk.marked (k : Chunk) (line : Nat) : Chunk := { k with reads := mput line k.reads }

/-- A die's write-backs of these lines that are on their way to home, performed now (R187). -/
def State.settleCopies (s : State) (die : Nat) (ls : List Nat) : State := s.settle fun w => w.die == die && ls.contains w.line

/-! Launches and stands (12). -/

/-- The fields of a launch record (R47). -/
def launchEntry (o : Nat) : Word := BitVec.ofNat 64 (field 191 128 o)
def launchTable (o : Nat) : Word := BitVec.ofNat 64 (field 255 192 o)
def launchPart (o : Nat) : BitVec 32 := BitVec.ofNat 32 (field 95 64 o)
def launchWord (o : Nat) : BitVec 32 := if launchPart o = 0 then defaultPart else launchPart o
def launchCount (o : Nat) : Nat := field 55 32 o
def launchClass (o : Nat) : Nat := field 9 8 o
def launchGang (o : Nat) : Bool := field 16 16 o = 1

/-- What launch takes (R48): record o, and the members of its stands. -/
structure LaunchTakes (s : State) (t : Thread) (o : Nat) (members : List Marks) : Prop where
  entry : (launchEntry o).toNat % 4 = 0
  table : (launchTable o).toNat % 16 = 0
  fields : badLaunchField o = none
  part : launchPart o = 0 ∨ partOk (launchPart o) = true
  gang : launchGang o = true → ((gangSets members).find? fun g =>
    ((s.coresOf (s.parcel t.parcel)).length * perCore (launchWord o) (launchClass o)) < g.2.length) = none
  crews : (s.parcel t.parcel).crews ≠ 0

/-- The launch that a record gives (R257, R273). -/
def launchIssued (s : State) (t : Thread) (o : Nat) (members : List Marks) : Launch :=
  { parcel := t.parcel, count := launchCount o
    stands := members.map fun ms => { members := ms, live := ms.length, arrived := 0, phase := 0, bits := [] }
    sets := (gangSets members).map (·.2), gang := launchGang o, root := false, entry := launchEntry o, args := BitVec.ofNat 64 (field 319 256 o)
    chunkhint := field 127 96 o, part := launchWord o, prio := min (field 15 10 o) (s.parcel t.parcel).ceiling
    cls := launchClass o, unplaced := launchCount o }

/-- A chunk that has launched. -/
def Chunk.launching (k : Chunk) (n : Nat) (l : Launch) : Chunk := { k with launches := tput n l k.launches }

/-- The thread's stand k is st (R268). -/
def StandIs (s : State) (t : Thread) (k : Nat) (st : Stand) : Prop :=
  ((tfind (launchOf t.tid) s.launches).bind (·.stands[k]?)) = some st ∧ t.st.contains k = true

/-- The thread's arrival bit in a stand as it sees it (R268). -/
def Thread.hasArrived (t : Thread) (c : Chunk) (k : Nat) (st : Stand) : Bool :=
  st.bits.contains (indexOf t.tid) || c.arrivals.contains k

/-! Traverses (17). -/

/-- The two plats that a cursor record names (R368). -/
def cursorSplat (o : Nat) : Word := BitVec.ofNat 64 (field 63 0 o)
def cursorDplat (o : Nat) : Word := BitVec.ofNat 64 (field 127 64 o)

/-- The parcel has no active traverse, as the chunk sees it (R369). -/
def SlotFree (s : State) (t : Thread) (k : Chunk) : Prop := k.traverse = none ∧ tfind t.parcel s.traverses = none

/-- The device's own receive record in the destination's base table (R369). -/
def Derived.rrec (v : Derived) : Word := match v.drank with | some q => (v.dstTable[q]?.map (·.rrec)).getD 0 | none => 0

/-- A receive record where it is announced to: its location and what it holds. -/
def announceTo (yes : Bool) (rrec : Word) : Exec (Option (Nat × Nat)) :=
  if yes then barPlace .amo rrec >>= fun l => readBar rrec l >>= fun o => pure (some (l, o)) else pure none

/-- A chunk after the arrivals of a traverse are announced (R227, R369). -/
def Chunk.announced (k : Chunk) (n : Nat) : Option (Nat × Nat) → Chunk
  | some (l, o) => k.store (writesOf l (bytesOfNat (barBalance o (sextNat o 64 + n)) 16))
  | none => k

/-- The traverse that a claim gives (R369). -/
def claimed (t : Thread) (d : Derived) (tag : Nat) (cursor : Word) (loc next : Nat) (done : BitVec 64) : Traverse :=
  let v : Traverse := {
    tid := t.tid, tag := tag, core := t.coreNum, priv := t.ctx.priv, cursor := cursor,
    cursorLoc := if viewBase ≤ loc then viewPa loc else loc, src := d.src, dst := d.dst, srcTable := d.srcTable,
    dstTable := d.dstTable, srank := d.srank, drank := d.drank, nout := d.out.length, nin := d.inc.length, next := next,
    done := done, inflight := [], stop := none }
  v.advance 64

/-- A chunk that has claimed its parcel's slot. -/
def Chunk.claiming (k : Chunk) (parcel : Nat) (v : Traverse) : Chunk :=
  { k with traverse := some v, writes := mput (slotLine parcel) k.writes }

/-- What bkstat answers of the parcel's slot (R372). -/
def statWord (cursor : Word) : Option Traverse → Word
  | some v => if v.cursor = cursor then BitVec.ofNat 64 (v.next * 2 ^ 16 + 1) else 0
  | none => 0

/-- A cursor record is one that bkresume goes on with (R371). -/
def resumable (o : Nat) (v : Derived) : Prop :=
  field 159 152 o = 3 ∧ field 183 160 o = v.out.length ∧ field 215 192 o = v.inc.length ∧ field 233 224 o = rankField v.srank ∧
    field 249 240 o = rankField v.drank ∧ field 151 128 o ≤ v.out.length ∧
    field 319 256 o / 2 ^ (v.out.length - field 151 128 o) = 0

/-! ## Where the device's own events can take place -/

/-- The thread after a return from a trap (R304): an sbar that waited there goes on as one that has arrived (R268). -/
def Thread.returned (t : Thread) : Thread :=
  { t with ctx := t.ctx.eret,
           arrivedIn := (if t.ctx.eret.priv then t.privArrived else t.userArrived).filter (·.2.2 == t.ctx.eret.pc) }

/-- Where element n of a drain is written (R169). -/
def Drain.off (d : Drain) (n : Nat) : Nat := d.base + n / 256 * d.pitch + n % 256 * 4

/-- A forked copy that has started moves one of its elements. -/
structure Copy.Moves (c : Copy) (s : State) (id n : Nat) : Prop where
  found : s.copies.find? (·.id == id) = some c
  forked : c.forked = true
  started : c.started = true
  fault : c.fault = none
  slot : n < c.slots
  undone : c.elemDone n = false
  inside : c.inSection n = true

/-- A post has been performed. -/
structure Traverse.Performed (v : Traverse) (s : State) (parcel j : Nat) (p : PostOf) (q : Post) : Prop where
  found : tfind parcel s.traverses = some v
  flying : v.inflight.find? (·.j == j) = some q
  post : v.postOf j = some p
  calm : q.crediting = false
  standing : q.failed = false
  done : (List.range (cellCount p.cell)).all (v.elemDone p q) = true

/-- A request that has not been answered and is not folded into another. -/
def FabricReq.Answerable (q : FabricReq) : Prop := q.folded = false ∧ q.answer = none

/-- Another core's operation on a line waits for a slice, in its queue or at its core. -/
def State.farOthers (s : State) (slice line core : Nat) (rest : List (Nat × Nat × Nat)) : Bool :=
  (rest.any fun e => e.1 == line && e.2.2 != core) || s.farWaits.any fun w => w.1 == slice && w.2.1 == line && w.2.2.2 != core

/-- The device after a drain has ended, its tag completed with a fault or without (R169, R224). -/
def State.drainOver (s : State) (d : Drain) (f : Option Trap) : State :=
  ({ s with drains := s.drains.filter (·.id != d.id) }.dropEngine d.id).tagDone d.tid d.tag f

/-- The device after a copy has ended, its tag completed (R224). -/
def State.copyOver (s : State) (c : Copy) : State :=
  ({ s with copies := s.copies.filter (·.id != c.id) }.dropEngine c.id).tagDone c.tid c.tag c.fault

/-- A mark joins those of a register file, of the thread and of what its open chunk would restore (R347). -/
def hitBy (m : PoisonMark) (l : List PoisonMark) : List PoisonMark := if l.contains m then l else m :: l

/-! ## The management path (R390, R391) -/

/-- The hub that takes a request up: H0 where both receive it. -/
def hubOf (h : ReqHead) : Nat := if h.h0 then 0 else 1

/-- A request of a code that a hub receives with no other waiting there, of its code's length. -/
structure Posted (s : State) (h : ReqHead) (code : Nat) : Prop where
  named : h.code = code
  sent : (h.h0 || h.h1) = true
  first : s.requests.any (·.1 == hubOf h) = false
  length : lengthOk code h.len = true

/-- The device with a request at its hub. -/
def State.asking (s : State) (i : Instr) : State := { s with requests := s.requests ++ [(hubOf (headOf i), i, false)] }

/-- The device after a request has been answered. -/
def State.answered (s : State) (i : Instr) (status : Nat) : State :=
  { s with requests := s.requests.erase (hubOf (headOf i), i, false) }.reply (headOf i) status

/-- The device after a request has been taken up and has to wait. -/
def State.deferring (s : State) (i : Instr) : State :=
  { s with requests := s.requests.replace (hubOf (headOf i), i, false) (hubOf (headOf i), i, true) }

end Sys2Proof.Machine
end

