-- ==== Sys2Proof/Safety/Numbers.lean ====
section
/-! DEFINITION. What the claims about number formats and rounding are stated with: exact values as real numbers, the value grid of a
format, and the conditions of R84 to R88 on a rounded result. -/

namespace Sys2Proof.Machine

/-- The magnitude of the code k below the sign, by the subnormal and normal rows of R77, with the exponent range unbounded above and no
code withheld (R84). -/
noncomputable def Fmt.grid (f : Fmt) (k : Nat) : ℝ :=
  if k / 2 ^ f.m = 0 then (k % 2 ^ f.m : Nat) * (2 : ℝ) ^ (1 - f.bias - f.m)
  else (2 ^ f.m + k % 2 ^ f.m : Nat) * (2 : ℝ) ^ ((k / 2 ^ f.m : Nat) - f.bias - f.m)

/-- The real number that a finite value stands for. -/
noncomputable def Val.real : Val → ℝ
  | .fin s m e => (if s then -1 else 1) * (m * (2 : ℝ) ^ e)
  | _ => 0

/-- The choice between the neighbours lo and hi of a value (R84): neg tells a negative value, odd that lo's last mantissa bit is odd,
z is the 32-bit draw of rsr (R88), and p, between 0 and 1, tells how far from lo to hi the magnitude lies. -/
def PicksHi (rnd : Rnd) (neg odd : Prop) (z : Nat) (p : ℝ) : Prop :=
  match rnd with
  | 0 => 1 / 2 < p ∨ (p = 1 / 2 ∧ odd)
  | 1 => False
  | 2 => neg
  | 3 => ¬ neg
  | 4 => 1 / 2 ≤ p
  | _ => 2 ^ 32 ≤ ⌊p * 2 ^ 32⌋₊ + z

/-- The formats that R74 and R78 admit, as far as their NaN and infinity go. -/
structure Fmt.Sound (f : Fmt) : Prop where
  nan : f.nan ≤ 2
  inf : f.inf = true ↔ f.nan = 2
  ieee : f.nan = 2 → 2 ≤ f.e ∧ 1 ≤ f.m
  ones : f.nan = 1 → 1 ≤ f.e ∧ 2 ≤ f.e + f.m
  some : 1 ≤ f.e + f.m

/-- A value whose exact magnitude is x, its sign neg, rounded to the format (R84 to R88): r holds the code and the flags. -/
structure RoundsTo (f : Fmt) (rnd : Rnd) (sat : Bool) (z : Nat) (neg : Bool) (x : ℝ) (r : Rounded) : Prop where
  /-- a zero keeps its sign (R84, R86) -/
  zero : x = 0 → r = (f.sign neg, 0)
  /-- a negative value has no code in an unsigned format (R86) -/
  unsigned : x ≠ 0 → f.sgn = false → neg = true → r = (0, fNV)
  /-- a representable value is the result, and no flag is raised (R84, R87) -/
  exact : ∀ k ≤ f.maxCode, x ≠ 0 → (f.sgn = true ∨ neg = false) → x = f.grid k → r = (f.sign neg + k, 0)
  /-- a value of the grid beyond the largest finite one overflows (R85) -/
  beyond : ∀ k, f.maxCode < k → (f.sgn = true ∨ neg = false) → x = f.grid k → r = (f.overflow rnd neg sat, fOF ||| fNX)
  /-- between two neighbours the mode chooses: a choice beyond the largest finite value overflows (R85); otherwise NX is raised -/
  between : ∀ k, (f.sgn = true ∨ neg = false) → f.grid k < x → x < f.grid (k + 1) → ∀ c,
    (PicksHi rnd (neg = true) (k % 2 = 1) z ((x - f.grid k) / (f.grid (k + 1) - f.grid k)) → c = k + 1) →
    (¬ PicksHi rnd (neg = true) (k % 2 = 1) z ((x - f.grid k) / (f.grid (k + 1) - f.grid k)) → c = k) →
    (f.maxCode < c → r = (f.overflow rnd neg sat, fOF ||| fNX)) ∧
    (c ≤ f.maxCode → r = (f.sign neg + c, fNX) ∨ r = (f.sign neg + c, fNX ||| fUF))
  /-- with NX and no OF, UF exactly where the format has exponent bits and x, rounded by the mode to the precision of the format with
  the exponent range unbounded below, is smaller than the smallest normal value (R87) -/
  tiny : r.2 = fNX ∨ r.2 = fNX ||| fUF → ∀ (n : Nat) (p : ℤ), 2 ^ f.m ≤ n → n < 2 ^ (f.m + 1) → n * (2 : ℝ) ^ p ≤ x → x < (n + 1 : ℕ) * (2 : ℝ) ^ p → ∀ c : Nat,
    (x ≠ n * (2 : ℝ) ^ p ∧ PicksHi rnd (neg = true) (if f.m = 0 then (p + f.bias) % 2 = 1 else n % 2 = 1) z ((x - n * (2 : ℝ) ^ p) / (2 : ℝ) ^ p) → c = n + 1) →
    (¬ (x ≠ n * (2 : ℝ) ^ p ∧ PicksHi rnd (neg = true) (if f.m = 0 then (p + f.bias) % 2 = 1 else n % 2 = 1) z ((x - n * (2 : ℝ) ^ p) / (2 : ℝ) ^ p)) → c = n) →
    (r.2 = fNX ||| fUF ↔ f.e ≠ 0 ∧ c * (2 : ℝ) ^ p < (2 : ℝ) ^ (1 - f.bias))

/-- A product of a window group, truncated toward zero to the window's unit 2^(emax - 55) (R95). -/
noncomputable def windowCut (emax : ℤ) (p : ℝ) : ℝ := Real.sign p * (2 ^ (emax - 55) * ⌊|p| / 2 ^ (emax - 55)⌋₊)

/-- The sum of a window group (R95): the truncated products, and half a unit more, away from zero, where a product lost something. -/
noncomputable def windowTotal (emax : ℤ) (ps : List ℝ) (sticky : Bool) : ℝ :=
  let S := (ps.map (windowCut emax)).sum
  if sticky then S + (if S < 0 then -1 else 1) * 2 ^ (emax - 56) else S

end Sys2Proof.Machine
end

