-- ==== Sys2Proof/Certificates/Slice0/Obligations.lean ====
section
/-! DEFINITION. The statements about the device, each from the numbered rules of the manual that it cites. -/

open Sys2Proof Sys2Proof.Machine

/-- After reset memory reads as zeros and no parcel or thread exists (that bring-up has ended, no core fenced, and each
core's partition are log entries 2 and 4) (R247, R388, 21_bring_up_power.md, 14_parcels_privilege_translation.md). -/
def Obligations.ResetDevice : Prop :=
  (  (∀ a, State.reset.byteAt a = 0) ∧ (∀ b, State.reset.live.contains b = false) ∧ State.reset.mem.wf = true ∧
      (∀ k < 64, (State.reset.parcel k).state = 0 ∧ (State.reset.parcel k).crews = 0 ∧ (State.reset.parcel k).apertures = Vector.replicate 8 0) ∧
      State.reset.nextLaunch = 0 ∧ State.reset.threads = [] ∧ State.reset.launches = [] ∧ State.reset.copies = [] ∧ State.reset.traverses = [] ∧
      State.reset.fabric = [] ∧ State.reset.tlb = [] ∧ State.reset.copiesMgd = [] ∧ State.reset.keys = [] ∧ State.reset.cycle = 0 ∧
      State.reset.phase = .run ∧ State.reset.powerLimit = 2400 ∧ State.reset.clock = 1750 ∧
      (∀ k < 384, (State.reset.core k).part = 0x12841088 ∧ (State.reset.core k).fenced = false))

/-- A created thread has the registers that the manual gives at thread creation (R36, R37, R40, R65, R79, R257,
12_threads_stands_scheduling.md). -/
def Obligations.NewThread : Prop :=
  (∀ (n : Nat) (l : Launch) (i now o : Nat),
      i < 2 ^ 24 →
      ∃ c, (newThread n l i now o).ctx = c ∧ c.pc = l.entry ∧ c.priv = false ∧ c.xAt 4 = l.args ∧ c.xAt 5 = BitVec.ofNat 64 i ∧
      c.xAt 6 = BitVec.ofNat 64 l.count ∧ (∀ k : BitVec 6, k ≠ 4 → k ≠ 5 → k ≠ 6 → c.xAt k = 0) ∧ (∀ k, c.vAt k = 0) ∧
      (∀ k : BitVec 4, k ≠ 0 → c.pAt k.toNat = 0) ∧ (∀ k : Fin 16, c.f[k] = []) ∧ c.vl = 0 ∧ c.mode = 0x014000A ∧
      c.fmt = #v[0x70343, 0xF0D52, 0x10121, 0x30132, 0x10123, 0x70343, 0x70343, 0x70343] ∧ c.fflags = 0 ∧ c.estart = 0 ∧ c.fprog = 0 ∧
      c.rngkey = 0 ∧ c.msat = false ∧ c.loops = [] ∧ c.rrb = 0 ∧ c.vps = [] ∧ c.trapcause = 0 ∧ c.trappc = 0 ∧ c.trapval = 0 ∧
      c.pkidx = 0 ∧ c.pkeylo = 0 ∧ c.pkeyhi = 0 ∧ c.streams = [] ∧ (newThread n l i now o).ctags = 0 ∧ (newThread n l i now o).mgrant = 0 ∧
      launchOf (newThread n l i now o).tid = n ∧ indexOf (newThread n l i now o).tid = i)

/-- Words written out from the encodings of the manual decode to the instructions that they stand for (R26, R27, R32, R34). -/
def Obligations.DecodeWords : Prop :=
  (  (decode (0b011000#6 ++ 0#6 ++ 0#6 ++ 0b01#2 ++ 64#12) = .ok (.setvli 0 64)) ∧
      (decode (0b011000#6 ++ 7#6 ++ 0#6 ++ 0b10#2 ++ 0x01A#12) = .ok (.mfsr 7 0x01A)) ∧
      (decode (0b010010#6 ++ 11#6 ++ 8#12 ++ 1#8) = .ok (.loopr 11 8)) ∧
      (decode (0b000011#6 ++ 9#6 ++ 9#6 ++ 256#14) = .ok (.addi 9 9 256)) ∧
      (decode (0b000001#6 ++ 3#4 ++ 9#5 ++ 0#3 ++ 0#1 ++ 0#6 ++ 1#2 ++ 10#5) = .ok (.mode 3 9 0 false 0 1 10)) ∧
      (decode (0b000010#6 ++ 5#6 ++ 6#6 ++ 7#6 ++ 0#2 ++ 1#6) = .ok (.sub 5 6 7)) ∧
      (decode (0b001010#6 ++ 1#6 ++ 2#6 ++ 3#14) = .ok (.beq 1 2 3)) ∧
      (decode (0b011010#6 ++ 34#6 ++ 33#6 ++ 10#6 ++ 1#1 ++ 0#1 ++ 0x20#6) = .ok (.vaddVx 34 33 10 true)) ∧
      (decode (0b110111#6 ++ 14#6 ++ 9#6 ++ 0#6 ++ 0#2 ++ 5#6) = .ok (.bararr 14 9)) ∧
      (decode (0b111011#6 ++ 9#6 ++ 8#6 ++ 10#6 ++ 0#2 ++ 0#6) = .ok (.bkstart 9 8 10)) ∧
      (∃ e, decode 0#32 = .error e) ∧
      (∀ x : BitVec 26, (∃ e, decode (0b111101#6 ++ x) = .error e) ∧ (∃ e, decode (0b111110#6 ++ x) = .error e) ∧ (∃ e, decode (0b111111#6 ++ x) = .error e)))

/-- Decoding the encoding of a well-formed instruction gives the instruction back, with every operand that it admits (R26,
R27, R28, R32). -/
def Obligations.EncodeDecode : Prop :=
  (∀ (i : Instr),
      i.wf = true → i.isEvent = false →
      decode (encode i) = .ok i)

/-- A step of a ready thread fetches the four bytes at its pc and executes the instruction that they encode (R26, R34, R271,
R313, R341, R391, 02_instruction_words.md). -/
def Obligations.StepRuns : Prop :=
  (∀ (s u : State) (t : Thread) (w : BitVec 32) (a : Access) (hit : Bool) (l : Nat),
      s.nextTurn = (some (.thread t.tid), u) → Ready { u with actor := .thread t.tid } t →
      (t.pending = none ∨ t.chunk.isSome = true) → t.needsTicket = false → t.ctx.pc.toNat % 4 = 0 →
      u.translate t.coreNum t.parcel t.ctx.priv Need.fetch t.ctx.pc.toNat = .ok (a, hit) →
      (a.window = .host → u.fyzWidth ≠ 0) → u.placeOf t.core (crewOf t.coreNum) t.parcel a = .ok (.loc l) →
      u.poisonTrap t.ctx.pc.toNat l 4 = none → (natOfBytes ((List.range 4).map fun k => u.byteAt (l + k)) = w.toNat) →
      (isStrip (major w) = true ∧ t.strip = none → step s = .next ({ u with actor := .thread t.tid }.noteStrip t)) ∧
      (¬ (isStrip (major w) = true ∧ t.strip = none) → ∃ v, v = { (({ u with actor := .thread t.tid }.keepEntry t.coreNum a hit).countDead l).setThread { t with chunk := t.chunk.map fun (c : Chunk) => c.notePage a.entry } with
      fetched := w, fetchPage := some a.entry } ∧ (∀ i, decode w = .ok i → i.wf = true → step s = exec i v) ∧
      ((∀ i, decode w = .ok i → i.wf = false) → step s = exec (.illegalInstruction w) v))) ∧
  (∀ (s u : State) (i : Instr),
      s.nextTurn = (some (.event i), u) →
      step s = exec i u) ∧
  (∀ (s u : State) (hub : Nat),
      s.nextTurn = (some (.endpoint hub), u) →
      step s = .next (u.serve hub))

/-- Taking a trap writes the three trap registers and the frame of the level left, and enters the handler at privileged
level (R177, R183, R268, R277, R280, R338, R340, R342, R343, 16_traps_preemption_errors.md). -/
def Obligations.TrapEntry : Prop :=
  (∀ (c : Ctx) (tv : Word) (f : Trap) (pc : Word) (vp async more : Bool),
      f.code < 256 → f.sub < 16 →
      ∃ d, c.enterTrap tv f pc vp async more = d ∧ d.trappc = pc ∧ d.trapval = f.val ∧ d.trapcause.toNat % 256 = f.code ∧
      d.trapcause.toNat / 256 % 16 = f.sub ∧ d.trapcause.getLsbD 14 = async ∧ d.trapcause.getLsbD 15 = vp ∧ d.trapcause.getLsbD 16 = c.priv ∧
      d.trapcause.getLsbD 17 = more ∧ d.trapcause.toNat < 2 ^ 18 ∧ d.loops = [] ∧ d.rrb = 0 ∧ d.vps = [] ∧ d.priv = true ∧ d.pc = tv &&& ~~~3 ∧
      (c.priv = false → d.userFrame = { loops := c.loops, rrb := c.rrb, vps := c.vps } ∧ d.privFrame = c.privFrame) ∧
      (c.priv = true → d.privFrame = { loops := c.loops, rrb := c.rrb, vps := c.vps } ∧ d.userFrame = c.userFrame) ∧
      d.x = c.x ∧ d.v = c.v ∧ d.p = c.p ∧ d.f = c.f ∧ d.vl = c.vl ∧ d.mode = c.mode ∧ d.fmt = c.fmt ∧ d.fflags = c.fflags ∧ d.estart = c.estart ∧
      d.fprog = c.fprog ∧ d.rngkey = c.rngkey ∧ d.msat = c.msat ∧ d.mmode = c.mmode ∧ d.pkidx = c.pkidx ∧ d.pkeylo = c.pkeylo ∧
      d.pkeyhi = c.pkeyhi ∧ d.streams = c.streams) ∧
  (∀ (s : State) (t : Thread) (f : Trap) (pc : Word) (vp async more : Bool),
      ¬ (t.ctx.priv = true ∧ pc = (s.parcel t.parcel).trapvec &&& ~~~3) →
      s.enterTrap t f pc vp async more = (s.setThread { t with
      ctx := t.ctx.enterTrap (s.parcel t.parcel).trapvec f pc vp async more, squashes := 0, limit := baseLimit t.chunkhint, squashesAtOne := 0,
      statFresh := true, failures := [], strip := none, stripSince := none, arrivedIn := none,
      userArrived := if t.ctx.priv then t.userArrived else t.arrivedIn, privArrived := if t.ctx.priv then t.arrivedIn else t.privArrived }).releaseTicket t.tid) ∧
  (∀ (r : Running) (k : Chunk) (f : Trap),
      r.t.chunk = some k → k.explicit = false → Spare k → r.vp = none → r.t.deferred = [] → r.t.pending = none →
      (∀ c ∈ r.s.copies, c.tid = r.t.tid → c.forked = true) → r.s.held (some r.t.tid) k.writes = false →
      r.takeTrap f = (settledWith r.s r.t k).enterTrap (r.t.closed k) f r.t.ctx.pc false false false) ∧
  (∀ (r : Running) (k : Chunk) (f : Trap),
      r.t.chunk = some k → k.explicit = true → r.t.pending = none →
      r.takeTrap f = (((r.s.setThread r.t).dropIssued [r.t.tid]).count fun k => { k with squashes := k.squashes + 1 }).enterTrap
      (r.t.squashed k) f k.start.pc false false false)

/-- ecall traps 0x12 with the pc that follows its completion, and eret returns to the level and frame of the trap (R303,
R304, R340, R342, 14_parcels_privilege_translation.md). -/
def Obligations.SystemCall : Prop :=
  (∀ (s : State) (t : Thread),
      Idle s t →
      exec .ecall s = .next ((settled s { t.past with ctx := t.ctx.next } []).enterTrap
        (({ t.past with ctx := t.ctx.next } : Thread).settled []) { code := 0x12, sub := 0, val := 0 } t.ctx.next.pc false false false)) ∧
  (∀ (s : State) (t : Thread),
      Idle s t → t.ctx.priv = true →
      exec .eret s = .next (settled s t.returned.past [])) ∧
  (∀ (c : Ctx),
      ∃ d, c.eret = d ∧ d.pc = c.trappc ∧ d.priv = c.trapcause.getLsbD 16 ∧
      (∀ fr, fr = (if c.trapcause.getLsbD 16 then c.privFrame else c.userFrame) → d.loops = fr.loops ∧ d.rrb = fr.rrb ∧ d.vps = fr.vps) ∧
      d.x = c.x ∧ d.v = c.v ∧ d.p = c.p ∧ d.f = c.f ∧ d.vl = c.vl ∧ d.mode = c.mode ∧ d.fmt = c.fmt ∧ d.fflags = c.fflags ∧ d.estart = c.estart ∧
      d.fprog = c.fprog ∧ d.rngkey = c.rngkey ∧ d.msat = c.msat ∧ d.mmode = c.mmode ∧ d.pkidx = c.pkidx ∧ d.pkeylo = c.pkeylo ∧ d.pkeyhi = c.pkeyhi ∧
      d.streams = c.streams ∧ d.trapcause = c.trapcause ∧ d.trappc = c.trappc ∧ d.trapval = c.trapval ∧ d.userFrame = c.userFrame ∧ d.privFrame = c.privFrame)

/-- A word that encodes no instruction traps 0x01 with the word, and a read of a poisoned register 0x0C with the register
(R34, R338, R340, R351, 16_traps_preemption_errors.md). -/
def Obligations.IllegalTraps : Prop :=
  (∀ (s : State) (t : Thread) (w : BitVec 32),
      Ready s t →
      exec (.illegalInstruction w) s = .next ((atBody s t).takeTrap { code := 1, sub := 0, val := w.setWidth 64 })) ∧
  (∀ (s : State) (t : Thread) (f : Trap),
      Idle s t →
      (atBody s t).takeTrap f = (settled s t []).enterTrap (t.settled []) f t.ctx.pc false false false) ∧
  (∀ (s : State) (t : Thread) (d a b : BitVec 6) (i : BitVec 14) (k : BitVec 12) (o : BitVec 11) (e : Instr),
      Ready s t → t.deferred = [] → t.failedRegs = [] → (∀ p, (Running.of s t).awaits p = false) → a ≠ 0 →
      t.poison.contains { file := 0, reg := a.toNat, index := 0 } = true →
      e ∈ [.add d a b, .sub d a b, .and d a b, .or d a b, .xor d a b, .sll d a b, .srl d a b, .sra d a b, .slt d a b, .sltu d a b, .mul d a b, .mulh d a b,
        .mulhu d a b, .div d a b, .divu d a b, .rem d a b, .remu d a b, .min d a b, .max d a b, .minu d a b, .maxu d a b, .addi d a i, .andi d a i, .ori d a i,
        .xori d a i, .slli d a b, .srli d a b, .srai d a b, .beq a b i, .bne a b i, .blt a b i, .bge a b i, .bltu a b i, .bgeu a b i, .jalr d a i, .setvl d a,
        .loop a k, .loopr a k, .ldB d a o, .ldH d a o, .ldW d a o, .ldD d a o, .ldBu d a o, .ldHu d a o, .ldWu d a o, .stB d a o, .stH d a o, .stW d a o,
        .stD d a o] →
      exec e s = .next ((atBody s t).takeTrap { code := 12, sub := 1, val := BitVec.ofNat 64 (2 ^ 63 + a.toNat) })) ∧
  (∀ (s : State) (t : Thread) (d a b : BitVec 6) (i : BitVec 14) (o : BitVec 11) (e : Instr),
      Ready s t → t.deferred = [] → t.failedRegs = [] → (∀ p, (Running.of s t).awaits p = false) →
      (a = 0 ∨ t.poison.contains { file := 0, reg := a.toNat, index := 0 } = false) → b ≠ 0 →
      t.poison.contains { file := 0, reg := b.toNat, index := 0 } = true →
      e ∈ [.add d a b, .sub d a b, .and d a b, .or d a b, .xor d a b, .sll d a b, .srl d a b, .sra d a b, .slt d a b, .sltu d a b, .mul d a b, .mulh d a b,
        .mulhu d a b, .div d a b, .divu d a b, .rem d a b, .remu d a b, .min d a b, .max d a b, .minu d a b, .maxu d a b, .beq a b i, .bne a b i, .blt a b i,
        .bge a b i, .bltu a b i, .bgeu a b i, .stB b a o, .stH b a o, .stW b a o, .stD b a o] →
      exec e s = .next ((atBody s t).takeTrap { code := 12, sub := 1, val := BitVec.ofNat 64 (2 ^ 63 + b.toNat) })) ∧
  (∀ (r : Running) (a : BitVec 6),
      r.t.deferred = [] → r.t.failedRegs = [] → (∀ p, r.awaits p = false) →
      (a ≠ 0 → r.t.poison.contains { file := 0, reg := a.toNat, index := 0 } = true →
       rdX a r = .error (.trap { code := 12, sub := 1, val := BitVec.ofNat 64 (2 ^ 63 + a.toNat) }) r) ∧
      ((a = 0 ∨ r.t.poison.contains { file := 0, reg := a.toNat, index := 0 } = false) → rdX a r = .ok (r.t.ctx.xAt a) r))

/-- The scalar register instructions write xd with the manual's arithmetic on their operands (R36, R50, R51,
03_scalar_and_control.md). -/
def Obligations.ScalarArithmetic : Prop :=
  (∀ (s : State) (t : Thread) (d a b : BitVec 6) (e : (BitVec 6 → BitVec 6 → BitVec 6 → Instr) × (Word → Word → Word)),
      Quiet s t →
      (e ∈ [
        (Instr.add, fun x y => word (x.toInt + y.toInt)), (Instr.sub, fun x y => word (x.toInt - y.toInt)),
        (Instr.and, fun x y => x &&& y), (Instr.or, fun x y => x ||| y), (Instr.xor, fun x y => x ^^^ y),
        (Instr.sll, fun x y => BitVec.ofNat 64 (x.toNat * 2 ^ (y.toNat % 64))), (Instr.srl, fun x y => BitVec.ofNat 64 (x.toNat / 2 ^ (y.toNat % 64))),
        (Instr.sra, fun x y => word (x.toInt / 2 ^ (y.toNat % 64))), (Instr.slt, fun x y => if x.toInt < y.toInt then 1 else 0),
        (Instr.sltu, fun x y => if x.toNat < y.toNat then 1 else 0), (Instr.mul, fun x y => word (x.toInt * y.toInt)),
        (Instr.mulh, fun x y => word (x.toInt * y.toInt / 2 ^ 64)), (Instr.mulhu, fun x y => BitVec.ofNat 64 (x.toNat * y.toNat / 2 ^ 64)),
        (Instr.min, fun x y => word (min x.toInt y.toInt)), (Instr.max, fun x y => word (max x.toInt y.toInt)),
        (Instr.minu, fun x y => BitVec.ofNat 64 (min x.toNat y.toNat)), (Instr.maxu, fun x y => BitVec.ofNat 64 (max x.toNat y.toNat))]) →
      exec (e.1 d a b) s = .next (wrote s t (t.ctx.put d (e.2 (t.ctx.xAt a) (t.ctx.xAt b)))))

/-- Division never traps, and gives the manual's quotients and remainders, the borderline cases included (R52). -/
def Obligations.Division : Prop :=
  (∀ (s : State) (t : Thread) (d a b : BitVec 6) (x y : Word),
      Quiet s t → x = t.ctx.xAt a → y = t.ctx.xAt b →
      ∃ qs qu rs ru : Word, exec (.div d a b) s = .next (wrote s t (t.ctx.put d qs)) ∧ exec (.divu d a b) s = .next (wrote s t (t.ctx.put d qu)) ∧
      exec (.rem d a b) s = .next (wrote s t (t.ctx.put d rs)) ∧ exec (.remu d a b) s = .next (wrote s t (t.ctx.put d ru)) ∧
      (y = 0 → qs.toInt = -1 ∧ qu.toNat = 2 ^ 64 - 1 ∧ rs = x ∧ ru = x) ∧
      (x.toInt = -2 ^ 63 → y.toInt = -1 → qs.toInt = -2 ^ 63 ∧ rs = 0) ∧
      (y ≠ 0 → x.toNat = qu.toNat * y.toNat + ru.toNat ∧ ru.toNat < y.toNat) ∧
      (y ≠ 0 → ¬ (x.toInt = -2 ^ 63 ∧ y.toInt = -1) → x.toInt = qs.toInt * y.toInt + rs.toInt ∧ rs.toInt.natAbs < y.toInt.natAbs ∧
        (rs ≠ 0 → (rs.toInt < 0 ↔ x.toInt < 0)) ∧ qs.toInt.natAbs = x.toInt.natAbs / y.toInt.natAbs ∧ 0 ≤ qs.toInt * (x.toInt * y.toInt)))

/-- The immediate forms compute as the register forms do, with the sign-extended immediate or the shift count as the second
operand (R51, R53, R54, 03_scalar_and_control.md). -/
def Obligations.ScalarImmediates : Prop :=
  (∀ (s : State) (t : Thread) (d a : BitVec 6) (i : BitVec 14) (e : (BitVec 6 → BitVec 6 → BitVec 14 → Instr) × (Word → Word → Word)),
      Quiet s t →
      (e ∈ [
        (Instr.addi, fun x y => word (x.toInt + y.toInt)), (Instr.andi, fun x y => x &&& y), (Instr.ori, fun x y => x ||| y),
        (Instr.xori, fun x y => x ^^^ y)]) →
      exec (e.1 d a i) s = .next (wrote s t (t.ctx.put d (e.2 (t.ctx.xAt a) (word i.toInt))))) ∧
  (∀ (s : State) (t : Thread) (d a n : BitVec 6),
      Quiet s t →
      exec (.slli d a n) s = .next (wrote s t (t.ctx.put d (BitVec.ofNat 64 ((t.ctx.xAt a).toNat * 2 ^ n.toNat)))) ∧
        exec (.srli d a n) s = .next (wrote s t (t.ctx.put d (BitVec.ofNat 64 ((t.ctx.xAt a).toNat / 2 ^ n.toNat)))) ∧
        exec (.srai d a n) s = .next (wrote s t (t.ctx.put d (word ((t.ctx.xAt a).toInt / 2 ^ n.toNat)))))

/-- lih and pcrel write the shifted immediate, pcrel relative to its own address (R55). -/
def Obligations.LihPcrel : Prop :=
  (∀ (s : State) (t : Thread) (d : BitVec 6) (i : BitVec 20),
      Quiet s t →
      exec (.lih d i) s = .next (wrote s t (t.ctx.put d (word (i.toInt * 2 ^ 14)))) ∧
        exec (.pcrel d i) s = .next (wrote s t (t.ctx.put d (word (t.ctx.pc.toInt + i.toInt * 2 ^ 14)))))

/-- A scalar register instruction changes no memory, no other thread and no other register; predicates, the loop stack and
rrb are unchanged where no loop entry ends at the instruction, and otherwise follow the end test (EndTest) (R36, R50,
R51, R53, R54, R55). -/
def Obligations.RegisterFrame : Prop :=
  (∀ (s : State) (t : Thread) (d a b : BitVec 6) (i : BitVec 14) (j : BitVec 20) (e : Instr),
      Quiet s t →
      e ∈ [.add d a b, .sub d a b, .and d a b, .or d a b, .xor d a b, .sll d a b,
        .srl d a b, .sra d a b, .slt d a b, .sltu d a b, .mul d a b, .mulh d a b, .mulhu d a b, .div d a b, .divu d a b, .rem d a b, .remu d a b,
        .min d a b, .max d a b, .minu d a b, .maxu d a b, .addi d a i, .andi d a i, .ori d a i, .xori d a i, .slli d a b, .srli d a b, .srai d a b,
        .lih d j, .pcrel d j] →
      ∃ u v, exec e s = .next u ∧ (∀ p, u.byteAt p = s.byteAt p) ∧ (∀ n, n ≠ t.tid → tfind n u.threads = tfind n s.threads) ∧
      tfind t.tid u.threads = some v ∧ (∀ k, k ≠ d → v.ctx.xAt k = t.ctx.xAt k) ∧ v.ctx.xAt 0 = 0 ∧ v.ctx.vl = t.ctx.vl ∧ v.ctx.mode = t.ctx.mode ∧
      v.ctx.fflags = t.ctx.fflags ∧ v.ctx.estart = t.ctx.estart ∧ v.ctx.fprog = t.ctx.fprog ∧ v.ctx.fmt = t.ctx.fmt ∧ v.ctx.v = t.ctx.v ∧
      v.ctx.f = t.ctx.f ∧ v.ctx.trapcause = t.ctx.trapcause ∧ v.ctx.trappc = t.ctx.trappc ∧ v.ctx.trapval = t.ctx.trapval ∧ v.ctx.priv = t.ctx.priv ∧
      v.ctx.userFrame = t.ctx.userFrame ∧ v.ctx.privFrame = t.ctx.privFrame ∧ v.ctx.pkidx = t.ctx.pkidx ∧ v.ctx.pkeylo = t.ctx.pkeylo ∧
      v.ctx.pkeyhi = t.ctx.pkeyhi ∧ v.ctx.rngkey = t.ctx.rngkey ∧ v.ctx.msat = t.ctx.msat ∧ v.ctx.streams = t.ctx.streams ∧ v.ctags = t.ctags ∧ v.st = t.st ∧
      v.ctx.vps = t.ctx.vps ∧ v.ctx.mmode = t.ctx.mmode ∧ ((∀ l ∈ t.ctx.loops.head?, l.last ≠ t.ctx.pc) →
        v.ctx.pc = t.ctx.pc + 4 ∧ v.ctx.loops = t.ctx.loops ∧ v.ctx.rrb = t.ctx.rrb ∧ v.ctx.p = t.ctx.p))

/-- A branch goes to pc + 4 * offset where its condition holds, leaving loops as it leaves their bodies, and on to the next
word where not (R56, R67, R68, 03_scalar_and_control.md). -/
def Obligations.Branches : Prop :=
  (∀ (s : State) (t : Thread) (a b : BitVec 6) (o : BitVec 14) (e : (BitVec 6 → BitVec 6 → BitVec 14 → Instr) × (Word → Word → Prop)),
      Quiet s t →
      (e ∈ [
        (Instr.beq, fun x y => x = y), (Instr.bne, fun x y => x ≠ y), (Instr.blt, fun x y => x.toInt < y.toInt), (Instr.bge, fun x y => y.toInt ≤ x.toInt), (Instr.bltu, fun x y => x.toNat < y.toNat), (Instr.bgeu, fun x y => y.toNat ≤ x.toNat)]) →
      (e.2 (t.ctx.xAt a) (t.ctx.xAt b) → exec (e.1 a b o) s = .next (went s t (t.ctx.leave false (t.ctx.pc + word (o.toInt * 4))) (opened s t))) ∧
      (¬ e.2 (t.ctx.xAt a) (t.ctx.xAt b) → exec (e.1 a b o) s = .next (wrote s t t.ctx)))

/-- jal and jalr write the link and go to their targets; a jalr target that is no word address traps 0x03 and leaves xd
(R57, R68, R340, 03_scalar_and_control.md). -/
def Obligations.Jumps : Prop :=
  (∀ (s : State) (t : Thread) (d : BitVec 6) (o : BitVec 20),
      Quiet s t →
      exec (.jal d o) s =
        .next (went s t ((t.ctx.put d (t.ctx.pc + 4)).leave (d != 0) (t.ctx.pc + word (o.toInt * 4))) (opened s t))) ∧
  (∀ (s : State) (t : Thread) (d a : BitVec 6) (i : BitVec 14),
      Quiet s t → (t.ctx.xAt a + i.signExtend 64) &&& 3 = 0 →
      exec (.jalr d a i) s =
        .next (went s t ((t.ctx.put d (t.ctx.pc + 4)).leave (d != 0) (t.ctx.xAt a + i.signExtend 64)) (opened s t))) ∧
  (∀ (s : State) (t : Thread) (d a : BitVec 6) (i : BitVec 14),
      Quiet s t → (t.ctx.xAt a + i.signExtend 64) &&& 3 ≠ 0 →
      exec (.jalr d a i) s = .next ((atBody s t).takeTrap { code := 3, sub := 0, val := t.ctx.xAt a + i.signExtend 64 })) ∧
  (∀ (c : Ctx) (call : Bool) (target : Word),
      c.leave call target = { c with loops := popFor call c.pc target c.loops, pc := target }) ∧
  (∀ (call : Bool) (a target : Word) (e : LoopEntry) (rest : List LoopEntry),
      e.last = a →
      popFor call a target (e :: rest) = rest.filter (·.last != a)) ∧
  (∀ (a target : Word) (l : List LoopEntry),
      (∀ e ∈ l.head?, e.last ≠ a) →
      popFor true a target l = l) ∧
  (∀ (a target : Word) (l : List LoopEntry) (leaves : LoopEntry → Prop),
      (∀ e ∈ l.head?, e.last ≠ a) →
      (leaves = fun e => (e.start ≤ a ∧ a ≤ e.last) ∧ ¬ (e.start ≤ target ∧ target ≤ e.last)) →
      ∃ k, popFor false a target l = l.drop k ∧ (∀ e ∈ l.take k, leaves e) ∧ ∀ e ∈ (l.drop k).head?, ¬ leaves e)

/-- loop and loopr push one entry with the count of xc, or skip the body for a count of 0 (R66, 03_scalar_and_control.md). -/
def Obligations.Loops : Prop :=
  (∀ (s : State) (t : Thread) (k : BitVec 6) (len : BitVec 12),
      Quiet s t → t.ctx.xAt k = 0 →
      exec (.loop k len) s = .next (went s t { t.ctx with pc := t.ctx.pc + BitVec.ofNat 64 (4 * len.toNat) + 4 } (opened s t))) ∧
  (∀ (s : State) (t : Thread) (k : BitVec 6) (len : BitVec 12),
      Quiet s t → t.ctx.xAt k ≠ 0 →
      loopTrap false t.ctx.pc (t.ctx.pc + BitVec.ofNat 64 (4 * len.toNat)) t.ctx.loops = none →
      exec (.loop k len) s = .next (went s t
        { t.ctx with loops := { start := t.ctx.pc + 4, last := t.ctx.pc + BitVec.ofNat 64 (4 * len.toNat), left := (t.ctx.xAt k).toNat, rotating := false, n := 0, e := 0, done := 0 } :: t.ctx.loops,
                     pc := t.ctx.pc + 4 } (opened s t))) ∧
  (∀ (s : State) (t : Thread) (k : BitVec 6) (len : BitVec 12),
      Quiet s t → (t.ctx.xAt k).toNat % 2 ^ 48 + (t.ctx.xAt k).toNat / 2 ^ 48 % 8 = 0 →
      exec (.loopr k len) s = .next (went s t { t.ctx with pc := t.ctx.pc + BitVec.ofNat 64 (4 * len.toNat) + 4 } (opened s t))) ∧
  (∀ (s : State) (t : Thread) (k : BitVec 6) (len : BitVec 12) (n e : Nat),
      Quiet s t → n = (t.ctx.xAt k).toNat % 2 ^ 48 → e = (t.ctx.xAt k).toNat / 2 ^ 48 % 8 → n + e ≠ 0 →
      loopTrap true t.ctx.pc (t.ctx.pc + BitVec.ofNat 64 (4 * len.toNat)) t.ctx.loops = none →
      exec (.loopr k len) s = .next (went s t
        { t.ctx with
            p := openPreds n t.ctx.p, rrb := 0
            loops := { start := t.ctx.pc + 4, last := t.ctx.pc + BitVec.ofNat 64 (4 * len.toNat), left := n + e,
                       rotating := true, n, e, done := 0 } :: t.ctx.loops
            pc := t.ctx.pc + 4 } (opened s t)))

/-- A loop or loopr with a nonzero count traps 0x0E before it pushes in the three cases of the manual, the smallest trapval
first (R69). -/
def Obligations.LoopTraps : Prop :=
  (∀ (rot : Bool) (pc last : Word) (l : List LoopEntry),
      (rot = true ∧ (∃ e ∈ l, e.rotating = true) → loopTrap rot pc last l = some 1) ∧
      (¬ (rot = true ∧ ∃ e ∈ l, e.rotating = true) → (∃ e rest, l = e :: rest ∧ e.start ≤ pc ∧ pc ≤ e.last ∧ e.last < last) → loopTrap rot pc last l = some 2) ∧
      (¬ (rot = true ∧ ∃ e ∈ l, e.rotating = true) → ¬ (∃ e rest, l = e :: rest ∧ e.start ≤ pc ∧ pc ≤ e.last ∧ e.last < last) →
      loopTrap rot pc last l = if 4 ≤ l.length then some 4 else none)) ∧
  (∀ (s : State) (t : Thread) (k : BitVec 6) (len : BitVec 12) (v : Nat),
      Quiet s t → t.ctx.xAt k ≠ 0 →
      loopTrap false t.ctx.pc (t.ctx.pc + BitVec.ofNat 64 (4 * len.toNat)) t.ctx.loops = some v →
      exec (.loop k len) s = .next ((atBody s t).takeTrap { code := 0x0E, sub := 0, val := BitVec.ofNat 64 v })) ∧
  (∀ (s : State) (t : Thread) (k : BitVec 6) (len : BitVec 12) (v : Nat),
      Quiet s t → (t.ctx.xAt k).toNat % 2 ^ 48 + (t.ctx.xAt k).toNat / 2 ^ 48 % 8 ≠ 0 →
      loopTrap true t.ctx.pc (t.ctx.pc + BitVec.ofNat 64 (4 * len.toNat)) t.ctx.loops = some v →
      exec (.loopr k len) s = .next ((atBody s t).takeTrap { code := 0x0E, sub := 0, val := BitVec.ofNat 64 v }))

/-- The end test counts the top loop entry down at its last word, goes back to its start while iterations remain, and pops
it when they are exhausted (R67, R70, 03_scalar_and_control.md). -/
def Obligations.EndTest : Prop :=
  (∀ (a : Word) (c : Ctx),
      endTest a c [] = { c with loops := [], pc := a + 4 }) ∧
  (∀ (a : Word) (c : Ctx) (e : LoopEntry) (rest : List LoopEntry),
      e.last ≠ a →
      endTest a c (e :: rest) = { c with loops := e :: rest, pc := a + 4 }) ∧
  (∀ (a : Word) (c : Ctx) (e : LoopEntry) (rest : List LoopEntry),
      e.last = a → 1 < e.left → e.rotating = false →
      endTest a c (e :: rest) = { c with loops := { e with left := e.left - 1, done := e.done + 1 } :: rest, pc := e.start }) ∧
  (∀ (a : Word) (c : Ctx) (e : LoopEntry) (rest : List LoopEntry),
      e.last = a → 1 < e.left → e.rotating = true →
      endTest a c (e :: rest) = { c.rotate (e.done + 1 < e.n) with loops := { e with left := e.left - 1, done := e.done + 1 } :: rest, pc := e.start }) ∧
  (∀ (a : Word) (c : Ctx) (e : LoopEntry) (rest : List LoopEntry),
      e.last = a → e.left ≤ 1 →
      endTest a c (e :: rest) = endTest a (if e.rotating then c.rotate (e.done + 1 < e.n) else c) rest) ∧
  (∀ (c : Ctx) (more : Bool),
      ∃ d, c.rotate more = d ∧ d.rrb = (c.rrb + 31) % 32 ∧ d.pAt 8 = (if more then allOnes else 0) ∧
      (∀ k, 9 ≤ k → k < 16 → d.pAt k = c.pAt (k - 1)) ∧ (∀ k < 8, d.pAt k = c.pAt k) ∧ d.x = c.x ∧ d.v = c.v ∧ d.pc = c.pc)

/-- setvl and setvli set vl to the request cut to the limit of the mode's wider type, and write it to xd (R59, R18,
03_scalar_and_control.md). -/
def Obligations.VectorLength : Prop :=
  (∀ (s : State) (t : Thread) (d a : BitVec 6),
      Quiet s t →
      exec (.setvl d a) s = .next (wrote s t
        (({ t.ctx with vl := min (t.ctx.xAt a).toNat t.vlLim } : Ctx).put d (BitVec.ofNat 64 (min (t.ctx.xAt a).toNat t.vlLim))))) ∧
  (∀ (s : State) (t : Thread) (d : BitVec 6) (n : BitVec 12),
      Quiet s t →
      exec (.setvli d n) s = .next (wrote s t
        (({ t.ctx with vl := min n.toNat t.vlLim } : Ctx).put d (BitVec.ofNat 64 (min n.toNat t.vlLim))))) ∧
  (∀ (t : Thread),
      t.vlLim = t.vlmax * 32 / slotWidth (max (typeWidth t.ctx.fmt (modeStype t.ctx.mode)) (typeWidth t.ctx.fmt (modeDtype t.ctx.mode))) ∧
      (∀ w, w ≤ 64 → w ≤ slotWidth w ∧ slotWidth w ∈ [4, 8, 16, 32, 64] ∧ ∀ u ∈ [4, 8, 16, 32, 64], w ≤ u → slotWidth w ≤ u))

/-- mfsr writes the value of the system register that its number names, a privileged one at privileged level only (R37, R38,
R49, R59, R61, R222, R301, 02_instruction_words.md). -/
def Obligations.ReadSystem : Prop :=
  (∀ (s : State) (t : Thread) (d : BitVec 6) (e : BitVec 12 × Word),
      Quiet s t →
      e ∈ [
        (0x000#12, BitVec.ofNat 64 t.ctx.vl), (0x001#12, BitVec.ofNat 64 t.vlmax), (0x002#12, t.ctx.mode.setWidth 64), (0x011#12, t.ctx.estart),
        (0x012#12, t.ctx.fprog), (0x014#12, BitVec.ofNat 64 t.mgrant), (0x016#12, 0x0000080002000800), (0x017#12, BitVec.ofNat 64 t.tid),
        (0x018#12, BitVec.ofNat 64 (crewOf t.coreNum)), (0x019#12, BitVec.ofNat 64 t.die), (0x01B#12, t.ctx.rngkey), (0x01C#12, t.standWord 0),
        (0x01D#12, t.standWord 1), (0x01E#12, t.standWord 2), (0x01F#12, t.standWord 3), (0x020#12, 1),
        (0x100#12, BitVec.ofNat 64 t.parcel), (0x103#12, t.ctx.trapcause), (0x104#12, t.ctx.trappc), (0x105#12, t.ctx.trapval),
        (0x108#12, t.ctx.pkidx), (0x109#12, t.ctx.pkeylo), (0x10A#12, t.ctx.pkeyhi)] →
      (e.1 < 0x100#12 ∨ t.ctx.priv = true) →
      exec (.mfsr d e.1) s = .next (wrote s t (t.ctx.put d e.2))) ∧
  (∀ (s : State) (t : Thread) (d : BitVec 6) (k : Fin 8),
      Quiet s t →
      exec (.mfsr d (0x008#12 + BitVec.ofNat 12 k.val)) s = .next (wrote s t (t.ctx.put d t.ctx.fmt[k]))) ∧
  (∀ (s : State) (t : Thread) (d : BitVec 6),
      Quiet s t →
      ∃ k ≤ 2, exec (.mfsr d 0x01A) s = .next (wrote s t (t.ctx.put d (BitVec.ofNat 64 (s.cycle + k))))) ∧
  (∀ (s : State) (t : Thread) (d : BitVec 6),
      Quiet s t → t.ctx.priv = true → (opened s t).parcelWrites = [] →
      exec (.mfsr d 0x101) s = .next (wrote s t (t.ctx.put d (s.parcel t.parcel).ptroot)) ∧ exec (.mfsr d 0x102) s = .next (wrote s t (t.ctx.put d (s.parcel t.parcel).trapvec)) ∧
        exec (.mfsr d 0x10B) s = .next (wrote s t (t.ctx.put d (s.parcel t.parcel).pshare))) ∧
  (∀ (s : State) (t : Thread) (d : BitVec 6),
      Quiet s t → t.tilesDone = true →
      exec (.mfsrFflags d) s = .next (wrote s t (t.ctx.put d (t.ctx.fflags.setWidth 64)))) ∧
  (∀ (s : State) (t : Thread) (d : BitVec 6),
      Quiet s t → t.tilesDone = true →
      exec (.mfsrMsat d) s = .next (wrote s t (t.ctx.put d (if t.ctx.msat then 1 else 0)))) ∧
  (∀ (s : State) (t : Thread) (d : BitVec 6),
      Quiet s t → t.tagsClear (~~~0) = true →
      exec (.mfsrCtags d) s = .next (wrote s t (t.ctx.put d t.ctags)))

/-- mtsr writes its register, its reserved bits staying zero; a read-only register keeps its value and does not trap (R37,
R38, R61, R78, R135, R301, 02_instruction_words.md). -/
def Obligations.WriteSystem : Prop :=
  (∀ (s : State) (t : Thread) (a : BitVec 6) (w : Word) (e : BitVec 12 × Ctx),
      Quiet s t → w = t.ctx.xAt a →
      e ∈ [
        (0x011#12, { t.ctx with estart := w }), (0x01B#12, { t.ctx with rngkey := w }),
        (0x103#12, { t.ctx with trapcause := w &&& causeMask }), (0x104#12, { t.ctx with trappc := w }),
        (0x105#12, { t.ctx with trapval := w }), (0x108#12, { t.ctx with pkidx := w &&& pkidxMask }),
        (0x109#12, { t.ctx with pkeylo := w }), (0x10A#12, { t.ctx with pkeyhi := w })] →
      (e.1 < 0x100#12 ∨ t.ctx.priv = true) →
      exec (.mtsr a e.1) s = .next (wrote s t e.2)) ∧
  (∀ (s : State) (t : Thread) (a : BitVec 6) (n : BitVec 12),
      Quiet s t →
      n ∈ [0x000#12, 0x001#12, 0x014#12, 0x016#12, 0x017#12, 0x018#12, 0x019#12, 0x01A#12, 0x01C#12, 0x01D#12, 0x01E#12, 0x01F#12, 0x020#12, 0x100#12] →
      (n < 0x100#12 ∨ t.ctx.priv = true) →
      exec (.mtsr a n) s = .next (wrote s t t.ctx)) ∧
  (∀ (s : State) (t : Thread) (a : BitVec 6) (f : BitVec 3),
      Quiet s t → fmtOk (t.ctx.xAt a) = true →
      exec (.mtsrFmt a f) s = .next (wrote s t { t.ctx with fmt := t.ctx.fmt.setIfInBounds f.toNat (t.ctx.xAt a &&& fmtMask) })) ∧
  (∀ (s : State) (t : Thread) (a : BitVec 6) (f : BitVec 3),
      Quiet s t → fmtOk (t.ctx.xAt a) = false →
      exec (.mtsrFmt a f) s = .next ((atBody s t).takeTrap { code := 2, sub := 0, val := t.ctx.xAt a })) ∧
  (∀ (s : State) (t : Thread) (a : BitVec 6),
      Quiet s t → t.tilesDone = true →
      exec (.mtsrFflags a) s = .next (wrote s t { t.ctx with fflags := (t.ctx.xAt a).setWidth 5 })) ∧
  (∀ (s : State) (t : Thread) (a : BitVec 6),
      Quiet s t → t.tilesDone = true →
      exec (.mtsrMsat a) s = .next (wrote s t { t.ctx with msat := (t.ctx.xAt a).getLsbD 0 })) ∧
  (∀ (s : State) (t : Thread) (a : BitVec 6),
      Quiet s t →
      exec (.mtsrFprog a) s = .next (wrote s t { t.ctx with fprog := t.ctx.xAt a &&& fprogMask (t.ctx.xAt a) })) ∧
  (∀ (s : State) (t : Thread) (a : BitVec 6),
      Quiet s t →
      exec (.mtsrCtags a) s = .next (went s { t with ctags := t.ctags &&& ~~~(t.ctx.xAt a &&& ~~~ t.freshTags s.cycle) } t.ctx.next
        (opened s t))) ∧
  (∀ (s : State) (t : Thread) (a : BitVec 6) (e : Instr × Nat × Word),
      Quiet s t → t.ctx.priv = true →
      e ∈ [(.mtsrPtroot a, 0, ptrootMask), (.mtsrTrapvec a, 1, trapvecMask), (.mtsrPshare a, 2, 0xFF)] →
      exec e.1 s = .next (went s t t.ctx.next
        { opened s t with parcelWrites := (opened s t).parcelWrites ++ [{ which := e.2.1, value := t.ctx.xAt a &&& e.2.2 }] }))

/-- A privileged instruction or register number at user level traps 0x05 with the instruction word (R32, R34, R35, R38,
14_parcels_privilege_translation.md). -/
def Obligations.PrivilegedTraps : Prop :=
  (∀ (s : State) (t : Thread) (a : BitVec 6) (n : BitVec 12) (e : Instr),
      Quiet s t → 0x100#12 ≤ n → t.ctx.priv = false →
      e ∈ [.mfsr a n, .mtsr a n, .mtsrPtroot a, .mtsrTrapvec a, .mtsrPshare a] →
      exec e s = .next ((atBody s t).takeTrap { code := 5, sub := 0, val := s.fetched.setWidth 64 })) ∧
  (∀ (s : State) (t : Thread) (a : BitVec 6) (e : Instr),
      Ready s t → t.ctx.priv = false → e ∈ [.eret, .tlbi a, .tlbia, .pkset, .pkclr] →
      exec e s = .next ((Running.of s t).takeTrap { code := 5, sub := 0, val := s.fetched.setWidth 64 }))

/-- A mode word or mtsr of mode replaces the mode register, and one with a reserved value traps 0x02 and leaves it (R29,
R30, R31, R61). -/
def Obligations.ModeRegister : Prop :=
  (∀ (s : State) (t : Thread) (g : BitVec 4) (sc : BitVec 5) (r : BitVec 3) (z : Bool) (c : BitVec 6) (b : BitVec 2) (d : BitVec 5),
      Quiet s t → modeOk (g ++ sc ++ r ++ BitVec.ofBool z ++ c ++ b ++ d) = true →
      exec (.mode g sc r z c b d) s = .next (wrote s t { t.ctx with mode := g ++ sc ++ r ++ BitVec.ofBool z ++ c ++ b ++ d })) ∧
  (∀ (s : State) (t : Thread) (g : BitVec 4) (sc : BitVec 5) (r : BitVec 3) (z : Bool) (c : BitVec 6) (b : BitVec 2) (d : BitVec 5),
      Quiet s t → modeOk (g ++ sc ++ r ++ BitVec.ofBool z ++ c ++ b ++ d) = false →
      exec (.mode g sc r z c b d) s =
        .next ((atBody s t).takeTrap { code := 2, sub := 0, val := (encMode g sc r z c b d).setWidth 64 })) ∧
  (∀ (s : State) (t : Thread) (a : BitVec 6),
      Quiet s t → modeOk ((t.ctx.xAt a).setWidth 26) = true →
      exec (.mtsrMode a) s = .next (wrote s t { t.ctx with mode := (t.ctx.xAt a).setWidth 26 })) ∧
  (∀ (s : State) (t : Thread) (a : BitVec 6),
      Quiet s t → modeOk ((t.ctx.xAt a).setWidth 26) = false →
      exec (.mtsrMode a) s = .next ((atBody s t).takeTrap { code := 2, sub := 0, val := t.ctx.xAt a })) ∧
  (∀ (g : BitVec 4) (sc : BitVec 5) (r : BitVec 3) (z : Bool) (c : BitVec 6) (b : BitVec 2) (d : BitVec 5),
      ∃ m, m = g ++ sc ++ r ++ BitVec.ofBool z ++ c ++ b ++ d ∧ modeGuard m = g.toNat ∧ modeStype m = sc.toNat ∧ modeRnd m = r.toNat ∧ modeSat m = z ∧
      modeScale m = c.toNat ∧ modeBlk m = 16 * 2 ^ b.toNat ∧ modeDtype m = d.toNat ∧ (modeOk m = true ↔ r.toNat < 6 ∧ b.toNat < 3 ∧ sc.toNat < 21 ∧ d.toNat < 21))

/-- The scalar floating instructions and fcvt round the exact result once into the mode's format and raise their flags (R62,
R63, R64, R77, 04_number_formats.md). -/
def Obligations.ScalarFloat : Prop :=
  (∀ (s : State) (t : Thread) (d a b : BitVec 6) (f : Fmt) (x y : Val) (r : Rnd) (e : Instr × Rounded),
      Quiet s t → scalarFloatOk t.ctx.mode = true → f = floatFmt t.ctx.fmt (modeDtype t.ctx.mode) →
      x = f.value ((t.ctx.xAt a).toNat % 2 ^ f.width) → y = f.value ((t.ctx.xAt b).toNat % 2 ^ f.width) →
      r = modeRnd t.ctx.mode →
      e ∈ [
        (.fadd d a b, roundVal f r false 0 (x.add r y)), (.fsub d a b, roundVal f r false 0 (x.add r y.negate)),
        (.fmul d a b, roundVal f r false 0 (x.mul y)), (.fdiv d a b, f.div r false 0 x y), (.fsqrt d a, f.sqrt r false 0 x)] →
      exec e.1 s = .next (wrote s t ((t.ctx.put d (BitVec.ofNat 64 e.2.1)).flag e.2.2))) ∧
  (∀ (s : State) (t : Thread) (d a b : BitVec 6) (e : Instr),
      Quiet s t → scalarFloatOk t.ctx.mode = false →
      e ∈ [.fadd d a b, .fsub d a b, .fmul d a b, .fdiv d a b, .fsqrt d a] →
      exec e s = .next ((atBody s t).takeTrap { code := 2, sub := 0, val := t.ctx.mode.setWidth 64 })) ∧
  (∀ (s : State) (t : Thread) (d a b : BitVec 6) (v : Word × Flags),
      Quiet s t →
      (modeDtype t.ctx.mode < 12 && modeRnd t.ctx.mode != 5 && !(isInt b.toNat && isInt (modeDtype t.ctx.mode))) = true →
      v = convert t.ctx.fmt (modeRnd t.ctx.mode) b.toNat (modeDtype t.ctx.mode) (t.ctx.xAt a).toNat →
      exec (.fcvt d a b) s = .next (wrote s t ((t.ctx.put d v.1).flag v.2))) ∧
  (∀ (fmt : Vector Word 8) (r : Rnd) (T u : TypeCode) (x : Nat),
      (isInt T = true → convert fmt r T u x = (BitVec.ofNat 64 ((floatFmt fmt u).round r false 0 (Val.ofInt (intValue T (typeWidth fmt T) x))).1,
        ((floatFmt fmt u).round r false 0 (Val.ofInt (intValue T (typeWidth fmt T) x))).2)) ∧
      (isInt T = false → isInt u = false → convert fmt r T u x = (BitVec.ofNat 64 ((floatFmt fmt u).round r false 0 ((floatFmt fmt T).value (x % 2 ^ typeWidth fmt T))).1,
        ((floatFmt fmt u).round r false 0 ((floatFmt fmt T).value (x % 2 ^ typeWidth fmt T))).2)) ∧
      (isInt T = false → isInt u = true → convert fmt r T u x = (word (intValue u (typeWidth fmt u) (toIntSat r 0 u (typeWidth fmt u) ((floatFmt fmt T).value (x % 2 ^ typeWidth fmt T))).1),
        (toIntSat r 0 u (typeWidth fmt u) ((floatFmt fmt T).value (x % 2 ^ typeWidth fmt T))).2)))

/-- tlbi, tlbia, pkset and pkclr drop translations and write the parcel's keys at a chunk of their own (R296, R305, R307,
R308, R318, 14_parcels_privilege_translation.md). -/
def Obligations.PrivilegedEffects : Prop :=
  (∀ (s : State) (t : Thread) (a : BitVec 6) (p : TlbEntry → Bool),
      Idle s t → t.ctx.priv = true → (p = fun e => e.parcel == t.parcel && e.covers (t.ctx.xAt a).toNat) →
      s.pins (some t.tid) (fun _ c => c.pages.any p) = false →
      exec (.tlbi a) s = .next (settled (s.dropTlb p) { t.past with ctx := t.ctx.next } [])) ∧
  (∀ (s : State) (t : Thread) (p : TlbEntry → Bool),
      Idle s t → t.ctx.priv = true → (p = fun e => e.parcel == t.parcel) →
      s.pins (some t.tid) (fun _ c => c.pages.any p) = false →
      exec .tlbia s = .next (settled (s.dropTlb p) { t.past with ctx := t.ctx.next } [])) ∧
  (∀ (s : State) (t : Thread),
      Idle s t → t.ctx.priv = true → pkOut t.ctx.pkidx = true →
      exec .pkset s = .next (settled (s.setParcel t.parcel { s.parcel t.parcel with outkey := t.ctx.pkey }) { t.past with ctx := t.ctx.next } [])) ∧
  (∀ (s : State) (t : Thread),
      Idle s t → t.ctx.priv = true → pkOut t.ctx.pkidx = true →
      exec .pkclr s = .next (settled (s.setParcel t.parcel { s.parcel t.parcel with outkey := 0 }) { t.past with ctx := t.ctx.next } [])) ∧
  (∀ (s : State) (t : Thread),
      Idle s t → t.ctx.priv = true → pkOut t.ctx.pkidx = false → pkSlot t.ctx.pkidx < (s.parcel t.parcel).kcount →
      (∀ j < (s.parcel t.parcel).kcount, j ≠ pkSlot t.ctx.pkidx →
        ∀ e, tfind ((s.parcel t.parcel).kfirst + j) s.keys = some e → ¬ (e.sdev = pkSdev t.ctx.pkidx ∧ e.stag = pkStag t.ctx.pkidx)) →
      exec .pkset s = .next (settled
        { s with keys := tput ((s.parcel t.parcel).kfirst + pkSlot t.ctx.pkidx) (KeyEntry.mk t.ctx.pkey t.parcel
            (pkStag t.ctx.pkidx) (pkSdev t.ctx.pkidx)) s.keys }
        { t.past with ctx := t.ctx.next } [])) ∧
  (∀ (s : State) (t : Thread),
      Idle s t → t.ctx.priv = true → pkOut t.ctx.pkidx = false → pkSlot t.ctx.pkidx < (s.parcel t.parcel).kcount →
      exec .pkclr s = .next (settled { s with keys := tdrop ((s.parcel t.parcel).kfirst + pkSlot t.ctx.pkidx) s.keys }
        { t.past with ctx := t.ctx.next } [])) ∧
  (∀ (s : State) (t : Thread) (e : Instr),
      Idle s t → t.ctx.priv = true → pkOut t.ctx.pkidx = false → (s.parcel t.parcel).kcount ≤ pkSlot t.ctx.pkidx →
      e ∈ [.pkset, .pkclr] →
      exec e s = .next ((settled s t []).enterTrap (t.settled []) { code := 2, sub := 0, val := BitVec.ofNat 64 (pkSlot t.ctx.pkidx) } t.ctx.pc false false false))

/-- A scalar load writes xd with the n bytes at its address, extended, a store puts n bytes into its chunk; DEV pages, the
window, other devices and late loads (R175, R179, R186, R188, R189, R194, R195, R196, R313, R340, R393,
09_memory_access_and_synchronisation.md). -/
def Obligations.LoadsAndStores : Prop :=
  (∀ (s : State) (t : Thread) (d b : BitVec 6) (o : BitVec 11) (e : (BitVec 6 → BitVec 6 → BitVec 11 → Instr) × Nat × (Nat → Word)) (va : Word) (a : Access) (hit : Bool) (l : Nat) (k : Chunk) (u : State),
      Ready s t → Calm s t → Free s t →
      (e ∈ [
        (Instr.ldB, 1, fun x => word (sextNat x 8)), (Instr.ldH, 2, fun x => word (sextNat x 16)), (Instr.ldW, 4, fun x => word (sextNat x 32)), (Instr.ldD, 8, fun x => BitVec.ofNat 64 x),
        (Instr.ldBu, 1, fun x => BitVec.ofNat 64 x), (Instr.ldHu, 2, fun x => BitVec.ofNat 64 x), (Instr.ldWu, 4, fun x => BitVec.ofNat 64 x)]) →
      va = t.ctx.xAt b + word (o.toInt * e.2.1) → va.toNat % e.2.1 = 0 → Lands s t .load va.toNat a hit (.loc l) →
      (s.defer = false ∨ l < viewBase) → s.poisonTrap va.toNat l e.2.1 = none → k = (opened s t).notePage a.entry →
      (k.noteRead l e.2.1).counted.goesOn t.limit = true → u = (s.keepEntry t.coreNum a hit).noteRead l e.2.1 →
      exec (e.1 d b o) s = .next (went u t (t.ctx.put d (e.2.2 (natOfBytes (k.sees u l e.2.1)))).next (k.noteRead l e.2.1))) ∧
  (∀ (s : State) (t : Thread) (d b : BitVec 6) (o : BitVec 11) (e : (BitVec 6 → BitVec 6 → BitVec 11 → Instr) × Nat) (va : Word) (a : Access) (hit : Bool) (l : Nat) (k : Chunk),
      Ready s t → Calm s t → Free s t → e ∈ [(Instr.stB, 1), (Instr.stH, 2), (Instr.stW, 4), (Instr.stD, 8)] →
      va = t.ctx.xAt b + word (o.toInt * e.2) → va.toNat % e.2 = 0 → Lands s t .store va.toNat a hit (.loc l) →
      k = ((opened s t).notePage a.entry).store (writesOf l (bytesOfNat (t.ctx.xAt d).toNat e.2)) →
      k.counted.goesOn t.limit = true →
      exec (e.1 d b o) s = .next (went (s.keepEntry t.coreNum a hit) t t.ctx.next k) ∧ (∀ p, (went (s.keepEntry t.coreNum a hit) t t.ctx.next k).byteAt p = s.byteAt p)) ∧
  (∀ (s : State) (t : Thread) (d b : BitVec 6) (o : BitVec 11) (e : (BitVec 6 → BitVec 6 → BitVec 11 → Instr) × Nat) (va : Word),
      Quiet s t →
      e ∈ [(Instr.ldH, 2), (Instr.ldW, 4), (Instr.ldD, 8),
        (Instr.ldHu, 2), (Instr.ldWu, 4), (Instr.stH, 2), (Instr.stW, 4), (Instr.stD, 8)] →
      va = t.ctx.xAt b + word (o.toInt * e.2) → va.toNat % e.2 ≠ 0 →
      exec (e.1 d b o) s = .next ((atBody s t).takeTrap { code := 3, sub := 0, val := va })) ∧
  (∀ (s : State) (t : Thread) (d b : BitVec 6) (o : BitVec 11) (e : (BitVec 6 → BitVec 6 → BitVec 11 → Instr) × Nat × (Nat → Word)) (va : Word) (a : Access) (hit : Bool) (pa : Nat),
      Idle s t → Free s t →
      (e ∈ [
        (Instr.ldB, 1, fun x => word (sextNat x 8)), (Instr.ldH, 2, fun x => word (sextNat x 16)), (Instr.ldW, 4, fun x => word (sextNat x 32)), (Instr.ldD, 8, fun x => BitVec.ofNat 64 x),
        (Instr.ldBu, 1, fun x => BitVec.ofNat 64 x), (Instr.ldHu, 2, fun x => BitVec.ofNat 64 x), (Instr.ldWu, 4, fun x => BitVec.ofNat 64 x)]) →
      va = t.ctx.xAt b + word (o.toInt * e.2.1) → va.toNat % e.2.1 = 0 → Lands s t .load va.toNat a hit (.dev pa) →
      s.poisonTrap va.toNat pa e.2.1 = none →
      exec (e.1 d b o) s = .next (settled ((s.keepEntry t.coreNum a hit).countDead pa) { t.past with ctx := (t.ctx.put d (e.2.2 (natOfBytes (s.mem.bytes pa e.2.1)))).next } [])) ∧
  (∀ (s : State) (t : Thread) (d b : BitVec 6) (o : BitVec 11) (e : (BitVec 6 → BitVec 6 → BitVec 11 → Instr) × Nat) (va : Word) (a : Access) (hit : Bool) (pa : Nat) (ws : List Write),
      Idle s t → Free s t → e ∈ [(Instr.stB, 1), (Instr.stH, 2), (Instr.stW, 4), (Instr.stD, 8)] →
      va = t.ctx.xAt b + word (o.toInt * e.2) → va.toNat % e.2 = 0 → Lands s t .store va.toNat a hit (.dev pa) →
      ws = writesOf pa (bytesOfNat (t.ctx.xAt d).toNat e.2) →
      (s.keepEntry t.coreNum a hit).held (some t.tid) (ws.map (·.1 / 128)) = false →
      exec (e.1 d b o) s = .next (settled ((s.keepEntry t.coreNum a hit).unit (some t.tid) ws) { t.past with ctx := t.ctx.next } [])) ∧
  (∀ (s : State) (t : Thread) (d b : BitVec 6) (o : BitVec 11) (va : Word) (a : Access) (hit : Bool) (off : Nat),
      Idle s t → Free s t → t.ctx.priv = true → va = t.ctx.xAt b + word (o.toInt * 8) → va.toNat % 8 = 0 →
      Lands s t .load va.toNat a hit (.registers off) →
      exec (.ldD d b o) s = .next (settled (s.keepEntry t.coreNum a hit) { t.past with ctx := (t.ctx.put d (BitVec.ofNat 64 ((s.keepEntry t.coreNum a hit).windowRead t.parcel off))).next } [])) ∧
  (∀ (s : State) (t : Thread) (d b : BitVec 6) (o : BitVec 11) (va : Word) (a : Access) (hit : Bool) (off : Nat),
      Idle s t → Free s t → t.ctx.priv = true → va = t.ctx.xAt b + word (o.toInt * 8) → va.toNat % 8 = 0 →
      Lands s t .store va.toNat a hit (.registers off) →
      exec (.stD d b o) s = .next (settled ((s.keepEntry t.coreNum a hit).windowWrite off (t.ctx.xAt d).toNat) { t.past with ctx := t.ctx.next } [])) ∧
  (∀ (s : State) (t : Thread) (d b : BitVec 6) (o : BitVec 11) (e : (BitVec 6 → BitVec 6 → BitVec 11 → Instr) × Nat) (va : Word) (a : Access) (hit : Bool) (dev off : Nat) (k k2 : Chunk),
      Ready s t → Calm s t → Free s t → e ∈ [(Instr.stB, 1), (Instr.stH, 2), (Instr.stW, 4), (Instr.stD, 8)] →
      va = t.ctx.xAt b + word (o.toInt * e.2) → va.toNat % e.2 = 0 →
      Lands s t .store va.toNat a hit (.fabric dev off) → (opened s t).explicit = false →
      k = (opened s t).notePage a.entry →
      k2 = { k with fabricOut := k.fabricOut ++ [t.ask dev off (.store (bytesOfNat (t.ctx.xAt d).toNat e.2) (List.replicate e.2 255)) va (.ack t.tid false)] } →
      k2.counted.goesOn t.limit = true →
      exec (e.1 d b o) s = .next (went (s.keepEntry t.coreNum a hit) t t.ctx.next k2)) ∧
  (∀ (s : State) (t : Thread) (d b : BitVec 6) (o : BitVec 11) (e : (BitVec 6 → BitVec 6 → BitVec 11 → Instr) × Nat × (Nat → Word)) (va : Word) (a : Access) (hit : Bool) (dev off : Nat),
      Ready s t → Calm s t →
      (e ∈ [
        (Instr.ldB, 1, fun x => word (sextNat x 8)), (Instr.ldH, 2, fun x => word (sextNat x 16)), (Instr.ldW, 4, fun x => word (sextNat x 32)), (Instr.ldD, 8, fun x => BitVec.ofNat 64 x),
        (Instr.ldBu, 1, fun x => BitVec.ofNat 64 x), (Instr.ldHu, 2, fun x => BitVec.ofNat 64 x), (Instr.ldWu, 4, fun x => BitVec.ofNat 64 x)]) →
      va = t.ctx.xAt b + word (o.toInt * e.2.1) → va.toNat % e.2.1 = 0 →
      Lands s t .load va.toNat a hit (.fabric dev off) → (opened s t).explicit = false → s.defer = false →
      (((opened s t).fabricOut.any fun q => q.dev == dev && q.off / 128 == off / 128) = false) →
      ((s.fabric.any fun q => q.isAfter t.tid && q.dev == dev && q.off / 128 == off / 128) = false) →
      ((s.fabric.any fun q => q.reply == .load t.tid none && q.dev == dev && q.off == off) = false) →
      exec (e.1 d b o) s = .next (s.sendReq (t.ask dev off (.load e.2.1) va (.load t.tid none)))) ∧
  (∀ (s : State) (t : Thread) (d b : BitVec 6) (o : BitVec 11) (e : (BitVec 6 → BitVec 6 → BitVec 11 → Instr) × Nat × (Nat → Word)) (va : Word) (a : Access) (hit : Bool) (dev off : Nat) (data : List Byte) (k : Chunk),
      Ready s t → Free s t →
      (e ∈ [
        (Instr.ldB, 1, fun x => word (sextNat x 8)), (Instr.ldH, 2, fun x => word (sextNat x 16)), (Instr.ldW, 4, fun x => word (sextNat x 32)), (Instr.ldD, 8, fun x => BitVec.ofNat 64 x),
        (Instr.ldBu, 1, fun x => BitVec.ofNat 64 x), (Instr.ldHu, 2, fun x => BitVec.ofNat 64 x), (Instr.ldWu, 4, fun x => BitVec.ofNat 64 x)]) →
      va = t.ctx.xAt b + word (o.toInt * e.2.1) → va.toNat % e.2.1 = 0 →
      Lands s t .load va.toNat a hit (.fabric dev off) → (opened s t).explicit = false → s.defer = false →
      (((opened s t).fabricOut.any fun q => q.dev == dev && q.off / 128 == off / 128) = false) →
      ((s.fabric.any fun q => q.isAfter t.tid && q.dev == dev && q.off / 128 == off / 128) = false) →
      t.replies = [{ vp := none, pa := dev * 2 ^ 39 + off, n := e.2.1, code := 0, data := data }] →
      Calm s { t with replies := [] } → k = (opened s t).notePage a.entry → k.counted.goesOn t.limit = true →
      exec (e.1 d b o) s = .next (went (s.keepEntry t.coreNum a hit) { t with replies := [] } (t.ctx.put d (e.2.2 (natOfBytes data))).next k)) ∧
  (∀ (s : State) (t : Thread) (d b : BitVec 6) (o : BitVec 11) (e : (BitVec 6 → BitVec 6 → BitVec 11 → Instr) × Nat × Ext) (va : Word) (a : Access) (hit : Bool) (l : Nat) (k : Chunk),
      Ready s t → Calm s t → Free s t →
      e ∈ [(Instr.ldB, 1, Ext.sign), (Instr.ldH, 2, Ext.sign), (Instr.ldW, 4, Ext.sign), (Instr.ldD, 8, Ext.zero),
        (Instr.ldBu, 1, Ext.zero), (Instr.ldHu, 2, Ext.zero), (Instr.ldWu, 4, Ext.zero)] →
      va = t.ctx.xAt b + word (o.toInt * e.2.1) → va.toNat % e.2.1 = 0 → Lands s t .load va.toNat a hit (.loc l) →
      (opened s t).explicit = false → s.defer = true → viewBase ≤ l → s.hasCopy (viewDie l) (viewPa l / 128) = false →
      (opened s t).writes.contains (l / 128) = false → k = ((opened s t).notePage a.entry).marked (l / 128) →
      k.counted.goesOn t.limit = true →
      exec (e.1 d b o) s = .next (went { s.keepEntry t.coreNum a hit with nextId := s.nextId + 1 } { t with deferred := [{ id := s.nextId, dest := (if d = 0 then .none else .x d.toNat), va := va, pa := l, n := e.2.1, ext := e.2.2, vector := false, inChunk := true }] } t.ctx.next k))

/-- An atomic reads its old value into xd and puts the new one into its chunk, placed near or at the home slice of the line
(R205, R206, R208, R196, R313, 09_memory_access_and_synchronisation.md). -/
def Obligations.Atomics : Prop :=
  (∀ (s : State) (t : Thread) (d a b : BitVec 6) (z : Bool) (e : (BitVec 6 → BitVec 6 → BitVec 6 → Bool → Instr) × AmoOp) (n : Nat) (acc : Access) (hit : Bool) (l : Nat) (u : State) (m x : Nat) (k : Chunk),
      Ready s t → Calm s t → Free s t →
      e ∈ [
        (Instr.amoAdd, AmoOp.add), (Instr.amoAnd, AmoOp.and), (Instr.amoOr, AmoOp.or), (Instr.amoXor, AmoOp.xor), (Instr.amoMin, AmoOp.min),
        (Instr.amoMax, AmoOp.max), (Instr.amoMinu, AmoOp.minu), (Instr.amoMaxu, AmoOp.maxu), (Instr.amoSwap, AmoOp.swap), (Instr.amoFadd, AmoOp.fadd), (Instr.cas, AmoOp.cas)] →
      (n = if z then 8 else 4) → (t.ctx.xAt a).toNat % n = 0 → Lands s t .amo (t.ctx.xAt a).toNat acc hit (.loc l) →
      s.poisonTrap (t.ctx.xAt a).toNat l n = none → (opened s t).near s t.coreNum l = true →
      u = (s.keepEntry t.coreNum acc hit).noteRead l n →
      m = natOfBytes (((opened s t).notePage acc.entry).sees u l n) →
      (x = if e.2 = .cas then (t.ctx.xAt d).toNat else 0) →
      k = amoChunk e.2 n l m (t.ctx.xAt b).toNat x ((opened s t).notePage acc.entry) →
      k.counted.goesOn t.limit = true →
      exec (e.1 d a b z) s = .next (went (u.placedNear t.coreNum l) t (amoCtx e.2 n d m (t.ctx.xAt b).toNat x t.ctx).next k)) ∧
  (∀ (s : State) (t : Thread) (a b : BitVec 6) (z : Bool) (e : (BitVec 6 → BitVec 6 → BitVec 6 → Bool → Instr) × AmoOp) (n : Nat) (acc : Access) (hit : Bool) (l : Nat) (u : State) (m : Nat) (k : Chunk),
      Ready s t → Calm s t → Free s t →
      e ∈ [
        (Instr.amoAdd, AmoOp.add), (Instr.amoAnd, AmoOp.and), (Instr.amoOr, AmoOp.or), (Instr.amoXor, AmoOp.xor), (Instr.amoMin, AmoOp.min),
        (Instr.amoMax, AmoOp.max), (Instr.amoMinu, AmoOp.minu), (Instr.amoMaxu, AmoOp.maxu), (Instr.amoSwap, AmoOp.swap), (Instr.amoFadd, AmoOp.fadd), (Instr.cas, AmoOp.cas)] →
      (n = if z then 8 else 4) → (t.ctx.xAt a).toNat % n = 0 → Lands s t .amo (t.ctx.xAt a).toNat acc hit (.loc l) →
      s.poisonTrap (t.ctx.xAt a).toNat l n = none → ((opened s t).explicit = false ∧ (opened s t).priority = false) →
      2 ≤ (s.core t.coreNum).predicted (l / 128) → (l < scratchBase ∨ viewBase ≤ l) →
      u = (s.keepEntry t.coreNum acc hit).noteRead l n →
      m = natOfBytes (((opened s t).notePage acc.entry).sees u l n) →
      k = amoFar e.2 n l m (t.ctx.xAt b).toNat 0 ((opened s t).notePage acc.entry) → k.counted.goesOn t.limit = true →
      exec (e.1 0 a b z) s = .next (went (u.placedFar t.coreNum l) t (amoCtx e.2 n 0 m (t.ctx.xAt b).toNat 0 t.ctx).next k)) ∧
  (∀ (s : State) (t : Thread) (d a b : BitVec 6) (z : Bool) (e : (BitVec 6 → BitVec 6 → BitVec 6 → Bool → Instr) × AmoOp) (n : Nat) (acc : Access) (hit : Bool) (l : Nat) (u : State) (m x : Nat) (k : Chunk),
      Ready s t → Calm s t → Free s t → d ≠ 0 →
      e ∈ [
        (Instr.amoAdd, AmoOp.add), (Instr.amoAnd, AmoOp.and), (Instr.amoOr, AmoOp.or), (Instr.amoXor, AmoOp.xor), (Instr.amoMin, AmoOp.min),
        (Instr.amoMax, AmoOp.max), (Instr.amoMinu, AmoOp.minu), (Instr.amoMaxu, AmoOp.maxu), (Instr.amoSwap, AmoOp.swap), (Instr.amoFadd, AmoOp.fadd), (Instr.cas, AmoOp.cas)] →
      (n = if z then 8 else 4) → (t.ctx.xAt a).toNat % n = 0 → Lands s t .amo (t.ctx.xAt a).toNat acc hit (.loc l) →
      s.poisonTrap (t.ctx.xAt a).toNat l n = none → ((opened s t).explicit = false ∧ (opened s t).priority = false) →
      2 ≤ (s.core t.coreNum).predicted (l / 128) → (l < scratchBase ∨ viewBase ≤ l) →
      u = (s.keepEntry t.coreNum acc hit).noteRead l n →
      m = natOfBytes (((opened s t).notePage acc.entry).sees u l n) →
      (x = if e.2 = .cas then (t.ctx.xAt d).toNat else 0) →
      k = amoFar e.2 n l m (t.ctx.xAt b).toNat x ((opened s t).notePage acc.entry) → Spare k →
      (∀ c ∈ s.copies, c.tid = t.tid → c.forked = true) → u.held (some t.tid) k.writes = false →
      exec (e.1 d a b z) s = .next (settledWith (u.placedFar t.coreNum l) { t.past with ctx := (amoCtx e.2 n d m (t.ctx.xAt b).toNat x t.ctx).next } k)) ∧
  (∀ (n m v x : Nat),
      amoApply .cas n m v = (v, 0) ∧ amoWrites .cas n m x = decide (m = x % 2 ^ (8 * n)) ∧ ∀ op, op ≠ .cas → amoWrites op n m x = true) ∧
  (∀ (n m v : Nat) (f : Fmt),
      (f = if n = 8 then fp64 else fp32) →
      amoApply .fadd n m v = roundVal f 0 false 0 ((f.value m).add 0 (f.value v)) ∧
      ∀ s1 s2 m1 m2 e1 e2, f.value m = .fin s1 m1 e1 → f.value v = .fin s2 m2 e2 → ∃ neg x, RoundsTo f 0 false 0 neg x (amoApply .fadd n m v) ∧
        (if neg then -1 else 1) * x = (Val.fin s1 m1 e1).real + (Val.fin s2 m2 e2).real) ∧
  (∀ (n m v : Nat) (x y : Int),
      (n = 4 ∨ n = 8) → m < 2 ^ (8 * n) → v < 2 ^ (8 * n) → x = sextNat m (8 * n) → y = sextNat v (8 * n) →
      amoApply .add n m v = ((m + v) % 2 ^ (8 * n), 0) ∧ amoApply .and n m v = (m &&& v, 0) ∧ amoApply .or n m v = (m ||| v, 0) ∧
      amoApply .xor n m v = (m ^^^ v, 0) ∧ amoApply .swap n m v = (v, 0) ∧ amoApply .minu n m v = (min m v, 0) ∧ amoApply .maxu n m v = (max m v, 0) ∧
      sextNat (amoApply .min n m v).1 (8 * n) = min x y ∧ sextNat (amoApply .max n m v).1 (8 * n) = max x y ∧ (∀ w op, op ∈ [.min, .max] → (amoApply op n m v).1 = w → w = m ∨ w = v))

/-- fence, acq and rel stand alone, make the access, act on the die's views and commit; nop does nothing, and pause commits
and waits (R176, R190, R191, R211, R279, R305, R306, 09_memory_access_and_synchronisation.md,
14_parcels_privilege_translation.md). -/
def Obligations.OrderingInstructions : Prop :=
  (∀ (s : State) (t : Thread) (sc : BitVec 2),
      Idle s t → (s.fabric.any (·.isVectorOf t.tid)) = false → ScopeFree s t sc true true →
      exec (.fence sc) s = .next (settled (s.scoped t.die sc true) { t.past with ctx := t.ctx.next } [])) ∧
  (∀ (s : State) (t : Thread) (d : BitVec 6) (sc : BitVec 2),
      Idle s t → ScopeFree s t sc true false →
      exec (.acq d 0 sc) s = .next (settled (s.scoped t.die sc true) { t.past with ctx := t.ctx.next } [])) ∧
  (∀ (s : State) (t : Thread) (d a : BitVec 6) (sc : BitVec 2) (acc : Access) (hit : Bool) (l : Nat) (s' : State) (k : Chunk),
      Idle s t → Free s t → a ≠ 0 → (t.ctx.xAt a).toNat % 8 = 0 →
      Lands s t .load (t.ctx.xAt a).toNat acc hit (.loc l) → s.poisonTrap (t.ctx.xAt a).toNat l 8 = none →
      s' = (s.keepEntry t.coreNum acc hit).noteRead l 8 → ScopeFree s' t sc true false →
      k = (opened s t).notePage acc.entry →
      exec (.acq d a sc) s = .next (settled (s'.scoped t.die sc true)
        { t.past with ctx := (t.ctx.put d (BitVec.ofNat 64 (natOfBytes (k.sees s' l 8)))).next } (k.noteRead l 8).reads)) ∧
  (∀ (s : State) (t : Thread) (b : BitVec 6) (sc : BitVec 2),
      Idle s t → (s.fabric.any (·.isVectorOf t.tid)) = false → ScopeFree s t sc false true →
      exec (.rel 0 b sc) s = .next (settled (s.scoped t.die sc false) { t.past with ctx := t.ctx.next } [])) ∧
  (∀ (s : State) (t : Thread) (a b : BitVec 6) (sc : BitVec 2) (acc : Access) (hit : Bool) (l : Nat) (s' : State) (k : Chunk),
      Idle s t → Free s t → a ≠ 0 → (t.ctx.xAt a).toNat % 8 = 0 →
      Lands s t .store (t.ctx.xAt a).toNat acc hit (.loc l) → (s.fabric.any (·.isVectorOf t.tid)) = false →
      ScopeFree (s.keepEntry t.coreNum acc hit) t sc false true →
      s' = (s.keepEntry t.coreNum acc hit).scoped t.die sc false →
      k = ((opened s t).notePage acc.entry).store (writesOf l (bytesOfNat (t.ctx.xAt b).toNat 8)) →
      s'.held (some t.tid) k.writes = false →
      exec (.rel a b sc) s = .next (settledWith s' { t.past with ctx := t.ctx.next } k)) ∧
  (∀ (s : State) (t : Thread) (a : BitVec 6),
      Quiet s t →
      exec (.pref a) s = .next (wrote s t t.ctx)) ∧
  (∀ (s : State) (t : Thread),
      Quiet s t → ((opened s t).late = false ∨ (opened s t).explicit = true) →
      (s.fabric.any (·.isVectorOf t.tid)) = false →
      exec .vdrain s = .next (wrote s t t.ctx)) ∧
  (∀ (s : State) (t : Thread),
      Quiet s t →
      exec .nop s = .next (wrote s t t.ctx)) ∧
  (∀ (s : State) (t : Thread),
      Idle s t →
      exec .pause s = .next (settled s { t.past with ctx := t.ctx.next, pause := some { since := s.cycle, lines := t.lastReads } } []))

/-- chkbeg opens an explicit chunk, chkend commits one with all that it holds, and chkstat tells of it and of its squashes
(R177, R179, R213, R214, R279, 09_memory_access_and_synchronisation.md). -/
def Obligations.ExplicitChunks : Prop :=
  (∀ (s : State) (t : Thread),
      Idle s t →
      exec .chkbeg s = .next (s.setThread
        { t.beginStat.past with ctx := t.ctx.next, chunk := some { opened s t with explicit := true } })) ∧
  (∀ (s : State) (t : Thread) (k : Chunk),
      Ready s t → t.replies = [] → k = opened s t → Spare k → t.deferred = [] →
      (∀ c ∈ s.copies, c.tid = t.tid → c.forked = true) → s.held (some t.tid) k.writes = false →
      exec .chkend s = .next (settledWith s { t.past with ctx := t.ctx.next } k)) ∧
  (∀ (s : State) (t : Thread) (k : Chunk),
      Ready s t → t.replies = [] → k = opened s t → k.exits = false → k.yields = false → t.deferred = [] →
      s.letsCommit t k = true →
      exec .chkend s = .next (committed s { t.past with ctx := t.ctx.next } k)) ∧
  (∀ (s : State) (n : Nat) (l m : Launch),
      (m = { l with stands := l.stands.map fun (st : Stand) => { st with live := st.members.length } }) →
      tfind n (s.createLaunch n l).launches = some m ∧
      (∀ i < l.count, tfind (n * 2 ^ 24 + i) (s.createLaunch n l).threads = some (newThread n m i s.cycle s.nextId)) ∧
      (∀ k t, (∀ i < l.count, k ≠ n * 2 ^ 24 + i) → t.chunk = none → tfind k s.threads = some t → tfind k (s.createLaunch n l).threads = some t)) ∧
  (∀ (st : Stand) (i : Nat),
      (st.bits.contains i = true → st.arrive i = st) ∧
      (st.bits.contains i = false → 1 ≤ st.live → st.arrived + 1 = st.live →
        st.arrive i = { st with phase := (st.phase + 1) % 2 ^ 16, arrived := 0, bits := [] }) ∧
      (st.bits.contains i = false → st.arrived + 1 ≠ st.live → st.arrive i = { st with arrived := st.arrived + 1, bits := mput i st.bits })) ∧
  (∀ (s : State) (q r : FabricReq) (u : State),
      r = { q with
        id := s.nextId, header := tenantHeader (s.parcel q.parcel).outkey q.parcel (s.devnum.getD 0), port := s.portFor q.dev q.lead } →
      u = { s with nextId := s.nextId + 1 } →
      (u.waitsToLeave r = true → s.sendReq q = { u with fabric := s.fabric ++ [r] }) ∧
      (u.waitsToLeave r = false → s.unsent q.dev q.lead = none → (s.sendReq q).fabric = s.fabric.filter (·.id != s.nextId) ++
        [{ r with sent := true, issued := s.cycle, stage := 0, waiting := s.bufferFree 0 r.port, first := (q.die, s.nextId), last := (q.die, s.nextId) }]) ∧
      (∀ code, u.waitsToLeave r = false → s.unsent q.dev q.lead = some code → s.sendReq q = u.finish { r with
        sent := true, issued := s.cycle, stage := 0, waiting := s.bufferFree 0 r.port, first := (q.die, s.nextId), last := (q.die, s.nextId) } code [])) ∧
  (∀ (s : State) (t : Thread) (d : BitVec 6),
      Quiet s t →
      exec (.chkstat d) s = .next (wrote s t (t.ctx.put d (BitVec.ofNat 64 (min 65535 t.statSquashes * 2 ^ 16
        + (if (opened s t).explicit && (opened s t).priority then 2 else 0) + (if (opened s t).explicit then 1 else 0))))))

/-- Memory is a canonical list, a unit of the order changes only the bytes it writes, and a chunk reads its own stores over
the device's (R5, R179, R181, R196, R247, 08_chunk_order.md, 09_memory_access_and_synchronisation.md). -/
def Obligations.UnitsOfTheOrder : Prop :=
  (∀ (s : State) (who : Option Nat) (ws : List Write),
      s.mem.wf = true →
      (s.unit who ws).mem.wf = true ∧ ∀ a, (∀ w ∈ ws, w.1 ≠ a) → (s.unit who ws).mem.byte a = s.mem.byte a) ∧
  (∀ (s : State) (l : Nat) (mask b : Byte),
      s.mem.wf = true → l < viewBase →
      (s.putByte (l, mask, b)).mem.byte l = (s.mem.byte l &&& ~~~mask) ||| (b &&& mask)) ∧
  (∀ (s : State) (k : Chunk) (l : Nat) (b : List Byte),
      (k.store (writesOf l b)).sees s l b.length = b) ∧
  (∀ (s : State) (k : Chunk) (l p n : Nat) (b : List Byte),
      (p + n ≤ l ∨ l + b.length ≤ p) →
      (k.store (writesOf l b)).sees s p n = k.sees s p n) ∧
  (∀ (m : Memory) (a : Nat) (b : Byte),
      m.wf = true →
      (m.setByte a b).byte a = b ∧ (∀ c, c ≠ a → (m.setByte a b).byte c = m.byte c) ∧ (m.setByte a b).wf = true) ∧
  (∀ (m n : Memory),
      m.wf = true → n.wf = true → (∀ a, m.byte a = n.byte a) →
      m = n)

/-- Every step keeps the canonical form of device memory: addresses strictly rising and no entry zero, which is what an
unlisted byte reads as after reset (R5, R181, R247, 08_chunk_order.md, 09_memory_access_and_synchronisation.md). -/
def Obligations.StepKeepsMemory : Prop :=
  (∀ (s u : State),
      s.mem.wf = true → step s = .next u →
      u.mem.wf = true) ∧
  (  State.reset.mem.wf = true)

/-- A vector integer instruction, vidx or vrng writes each active element with its arithmetic, narrowed as the mode says,
and no other (R31, R33, R60, R97, R98, R102, R103, R104, R105, 05_vector_arithmetic.md). -/
def Obligations.VectorInteger : Prop :=
  (∀ (s : State) (t : Thread) (d a b : BitVec 6) (c g : Bool) (e : (BitVec 6 → BitVec 6 → BitVec 6 → Bool → Bool → Instr) × (BitVec 6 → BitVec 6 → BitVec 6 → Bool → Instr) × Bool × (IntOp → Int → Int → Int → Nat)) (o : IntOp),
      VecQuiet s t →
      (e ∈ [
        (Instr.vadd, Instr.vaddVx, true, fun o x y _ => o.narrow (x + y)),
        (Instr.vsub, Instr.vsubVx, true, fun o x y _ => o.narrow (x - y)),
        (Instr.vmul, Instr.vmulVx, true, fun o x y _ => o.narrow (x * y)),
        (Instr.vmacc, Instr.vmaccVx, true, fun o x y z => o.narrow (z + x * y)),
        (Instr.vmulh, Instr.vmulhVx, false, fun o x y _ => wrapTo o.w (x * y / 2 ^ o.w)),
        (Instr.vdiv, Instr.vdivVx, false, fun o x y _ => if y = 0 then 2 ^ o.wd - 1 else o.narrow (x.tdiv y)),
        (Instr.vrem, Instr.vremVx, false, fun o x y _ => wrapTo o.wd (if y = 0 then x else x.tmod y)),
        (Instr.vmin, Instr.vminVx, false, fun o x y _ => wrapTo o.w (min x y)),
        (Instr.vmax, Instr.vmaxVx, false, fun o x y _ => wrapTo o.w (max x y)),
        (Instr.vand, Instr.vandVx, false, fun o x y _ => wrapTo o.w x &&& wrapTo o.w y),
        (Instr.vor, Instr.vorVx, false, fun o x y _ => wrapTo o.w x ||| wrapTo o.w y),
        (Instr.vxor, Instr.vxorVx, false, fun o x y _ => wrapTo o.w x ^^^ wrapTo o.w y),
        (Instr.vsll, Instr.vsllVx, false, fun o x y _ => wrapTo o.w (x * (2 ^ (wrapTo o.w y % o.w) : Nat))),
        (Instr.vsrl, Instr.vsrlVx, false, fun o x y _ => wrapTo o.w x / 2 ^ (wrapTo o.w y % o.w)),
        (Instr.vsra, Instr.vsraVx, false, fun o x y _ => wrapTo o.w (sextNat (wrapTo o.w x) o.w / (2 ^ (wrapTo o.w y % o.w) : Nat)))]) →
      o = t.ctx.intOp → (isInt o.t && isInt o.u && (e.2.2.1 || o.t == o.u) && modeScale t.ctx.mode == 0) = true →
      t.vlFits (max o.w o.wd) = true →
      exec (e.1 d a b c g) s = .next (wrote s t (t.ctx.putElems d o.wd fun i => (e.2.2.2 o (intValue o.t o.w (getElem (t.ctx.vAt a) i o.w))
          (intValue o.t o.w (getElem (t.ctx.vAt b) i o.w)) (intValue o.u o.wd (getElem (t.ctx.vAt d) i o.wd)), 0))) ∧
        exec (e.2.1 d a b c) s = .next (wrote s t (t.ctx.putElems d o.wd fun i => (e.2.2.2 o (intValue o.t o.w (getElem (t.ctx.vAt a) i o.w))
          (intValue o.t o.w ((t.ctx.xAt b).toNat % 2 ^ o.w)) (intValue o.u o.wd (getElem (t.ctx.vAt d) i o.wd)), 0)))) ∧
  (∀ (s : State) (t : Thread) (d a b : BitVec 6) (c g : Bool) (e : (BitVec 6 → BitVec 6 → BitVec 6 → Bool → Bool → Instr) × (BitVec 6 → BitVec 6 → BitVec 6 → Bool → Instr) × Bool × (IntOp → Int → Int → Int → Nat)) (o : IntOp) (w : Word),
      VecQuiet s t →
      (e ∈ [
        (Instr.vadd, Instr.vaddVx, true, fun o x y _ => o.narrow (x + y)),
        (Instr.vsub, Instr.vsubVx, true, fun o x y _ => o.narrow (x - y)),
        (Instr.vmul, Instr.vmulVx, true, fun o x y _ => o.narrow (x * y)),
        (Instr.vmacc, Instr.vmaccVx, true, fun o x y z => o.narrow (z + x * y)),
        (Instr.vmulh, Instr.vmulhVx, false, fun o x y _ => wrapTo o.w (x * y / 2 ^ o.w)),
        (Instr.vdiv, Instr.vdivVx, false, fun o x y _ => if y = 0 then 2 ^ o.wd - 1 else o.narrow (x.tdiv y)),
        (Instr.vrem, Instr.vremVx, false, fun o x y _ => wrapTo o.wd (if y = 0 then x else x.tmod y)),
        (Instr.vmin, Instr.vminVx, false, fun o x y _ => wrapTo o.w (min x y)),
        (Instr.vmax, Instr.vmaxVx, false, fun o x y _ => wrapTo o.w (max x y)),
        (Instr.vand, Instr.vandVx, false, fun o x y _ => wrapTo o.w x &&& wrapTo o.w y),
        (Instr.vor, Instr.vorVx, false, fun o x y _ => wrapTo o.w x ||| wrapTo o.w y),
        (Instr.vxor, Instr.vxorVx, false, fun o x y _ => wrapTo o.w x ^^^ wrapTo o.w y),
        (Instr.vsll, Instr.vsllVx, false, fun o x y _ => wrapTo o.w (x * (2 ^ (wrapTo o.w y % o.w) : Nat))),
        (Instr.vsrl, Instr.vsrlVx, false, fun o x y _ => wrapTo o.w x / 2 ^ (wrapTo o.w y % o.w)),
        (Instr.vsra, Instr.vsraVx, false, fun o x y _ => wrapTo o.w (sextNat (wrapTo o.w x) o.w / (2 ^ (wrapTo o.w y % o.w) : Nat)))]) →
      o = t.ctx.intOp →
      ¬ ((isInt o.t && isInt o.u && (e.2.2.1 || o.t == o.u) && modeScale t.ctx.mode == 0) = true ∧ t.vlFits (max o.w o.wd) = true) →
      (w = if (isInt o.t && isInt o.u && (e.2.2.1 || o.t == o.u) && modeScale t.ctx.mode == 0) then BitVec.ofNat 64 t.ctx.vl else t.ctx.mode.setWidth 64) →
      exec (e.1 d a b c g) s = .next ((atBody s t).takeTrap { code := 2, sub := 0, val := w }) ∧
        exec (e.2.1 d a b c) s = .next ((atBody s t).takeTrap { code := 2, sub := 0, val := w })) ∧
  (∀ (s : State) (t : Thread) (d : BitVec 6) (st : BitVec 12) (p : BitVec 8),
      VecQuiet s t → (isInt (modeDtype t.ctx.mode) && modeScale t.ctx.mode == 0) = true → t.vlFits t.ctx.dw = true →
      exec (.vidx d st p) s = .next (wrote s t (t.ctx.putV d (fill (t.ctx.vAt d) t.ctx.dw (t.ctx.active.map fun i =>
        (i, narrow (modeSat t.ctx.mode) (modeDtype t.ctx.mode) t.ctx.dw (st.toInt + i * p.toInt))))))) ∧
  (∀ (s : State) (t : Thread) (d a : BitVec 6),
      VecQuiet s t →
      ((modeDtype t.ctx.mode == 2 || modeDtype t.ctx.mode == 6 || modeDtype t.ctx.mode == 3 || modeDtype t.ctx.mode == 7)
        && modeScale t.ctx.mode == 0) = true →
      t.vlFits t.ctx.dw = true →
      exec (.vrng d a) s = .next (wrote s t (t.ctx.putV d (fill (t.ctx.vAt d) t.ctx.dw (t.ctx.active.map fun i =>
        (i, if t.ctx.dw = 32 then (mix (t.ctx.xAt a + BitVec.ofNat 64 i) t.ctx.rngkey).toNat / 2 ^ 32
            else (mix (t.ctx.xAt a + BitVec.ofNat 64 i) t.ctx.rngkey).toNat))))))

/-- A vector floating instruction rounds each active element's exact result once into the destination format, and raises the
flags of all of them (R33, R60, R98, R106, R107, R108, R109, R110, R111, 05_vector_arithmetic.md, 04_number_formats.md). -/
def Obligations.VectorFloat : Prop :=
  (∀ (s : State) (t : Thread) (d a b : BitVec 6) (c g : Bool) (e : (BitVec 6 → BitVec 6 → BitVec 6 → Bool → Bool → Instr) × (BitVec 6 → BitVec 6 → BitVec 6 → Bool → Instr) × Bool × (FloatOp → Nat → Val → Val → Val → Rounded)) (o : FloatOp),
      VecQuiet s t →
      (e ∈ [
        (Instr.vfadd, Instr.vfaddVx, false, fun o i x y _ => o.out i (x.add o.rnd y)),
        (Instr.vfsub, Instr.vfsubVx, false, fun o i x y _ => o.out i (x.add o.rnd y.negate)),
        (Instr.vfmul, Instr.vfmulVx, false, fun o i x y _ => o.out i (x.mul y)),
        (Instr.vfma, Instr.vfmaVx, true, fun o i x y c => o.g.fma o.rnd false (o.draw i) x y c),
        (Instr.vfms, Instr.vfmsVx, true, fun o i x y c => o.g.fma o.rnd false (o.draw i) x y c.negate),
        (Instr.vfnma, Instr.vfnmaVx, true, fun o i x y c => o.g.fma o.rnd false (o.draw i) x.negate y c.negate),
        (Instr.vfnms, Instr.vfnmsVx, true, fun o i x y c => o.g.fma o.rnd false (o.draw i) x.negate y c),
        (Instr.vfdiv, Instr.vfdivVx, false, fun o i x y _ => o.g.div o.rnd false (o.draw i) x y),
        (Instr.vfmin, Instr.vfminVx, false, fun o i x y c => opVfmin o i x y c 0),
        (Instr.vfmax, Instr.vfmaxVx, false, fun o i x y c => opVfmax o i x y c 0)]) →
      (isFloat (modeStype t.ctx.mode) && isFloat (modeDtype t.ctx.mode) && t.ctx.sw ≤ t.ctx.dw && modeScale t.ctx.mode == 0) = true →
      t.vlFits (max t.ctx.sw t.ctx.dw) = true → o = t.ctx.floatOp →
      exec (e.1 d a b c g) s = .next (passed s t (t.ctx.putElems d t.ctx.dw fun i => e.2.2.2 o i (o.f.value (getElem (t.ctx.vAt a) i t.ctx.sw))
          (o.f.value (getElem (t.ctx.vAt b) i t.ctx.sw)) (o.g.value (getElem (t.ctx.vAt d) i t.ctx.dw)))
          ((.v a, modeStype t.ctx.mode) :: (.v b, modeStype t.ctx.mode) :: (if e.2.2.1 then [(.v d, modeDtype t.ctx.mode)] else [])) [(.v d, modeDtype t.ctx.mode)]) ∧
        exec (e.2.1 d a b c) s = .next (passed s t (t.ctx.putElems d t.ctx.dw fun i => e.2.2.2 o i (o.f.value (getElem (t.ctx.vAt a) i t.ctx.sw))
          (o.f.value ((t.ctx.xAt b).toNat % 2 ^ t.ctx.sw)) (o.g.value (getElem (t.ctx.vAt d) i t.ctx.dw)))
          ((.v a, modeStype t.ctx.mode) :: (.x b, modeStype t.ctx.mode) :: (if e.2.2.1 then [(.v d, modeDtype t.ctx.mode)] else [])) [(.v d, modeDtype t.ctx.mode)])) ∧
  (∀ (s : State) (t : Thread) (d a : BitVec 6) (c : Bool) (e : (BitVec 6 → BitVec 6 → Bool → Instr) × (FloatOp → Nat → Val → Rounded)) (o : FloatOp),
      VecQuiet s t →
      (e ∈ [
        (Instr.vfsqrt, fun o i x => o.g.sqrt o.rnd false (o.draw i) x),
        (Instr.vfrec, fun o i x => o.g.div o.rnd false (o.draw i) (.fin false 1 0) x),
        (Instr.vfabs, fun o i x => signRounded o i (if x.negative then x.negate else x)),
        (Instr.vfneg, fun o i x => signRounded o i x.negate),
        (Instr.vfrint, fun o i x => opVfrint o i x x x 0),
        (Instr.vfexp2, fun o i x => opVfexp2 o i x x x 0)]) →
      (isFloat (modeStype t.ctx.mode) && isFloat (modeDtype t.ctx.mode) && t.ctx.sw ≤ t.ctx.dw && modeScale t.ctx.mode == 0) = true →
      t.vlFits (max t.ctx.sw t.ctx.dw) = true → o = t.ctx.floatOp →
      exec (e.1 d a c) s = .next (passed s t (t.ctx.putElems d t.ctx.dw fun i => e.2 o i (o.f.value (getElem (t.ctx.vAt a) i t.ctx.sw)))
        [(.v a, modeStype t.ctx.mode), (.none, modeStype t.ctx.mode)] [(.v d, modeDtype t.ctx.mode)])) ∧
  (∀ (s : State) (t : Thread) (d a b : BitVec 6) (c g : Bool) (o : FloatOp),
      VecQuiet s t →
      (isFloat (modeStype t.ctx.mode) && isFloat (modeDtype t.ctx.mode) && t.ctx.sw ≤ t.ctx.dw && modeScale t.ctx.mode == 0) = true →
      t.vlFits (max t.ctx.sw t.ctx.dw) = true → o = t.ctx.floatOp →
      exec (.vfscale d a b c g) s = .next (passed s t (t.ctx.putElems d t.ctx.dw fun i => scaleRounded o i (o.f.value (getElem (t.ctx.vAt a) i t.ctx.sw))
          (sextNat (getElem (t.ctx.vAt b) i t.ctx.sw) o.f.width))
          [(.v a, modeStype t.ctx.mode), (.none, modeStype t.ctx.mode)] [(.v d, modeDtype t.ctx.mode)]) ∧
        exec (.vfscaleVx d a b c) s = .next (passed s t (t.ctx.putElems d t.ctx.dw fun i => scaleRounded o i (o.f.value (getElem (t.ctx.vAt a) i t.ctx.sw))
          (t.ctx.xAt b).toInt)
          [(.v a, modeStype t.ctx.mode)] [(.v d, modeDtype t.ctx.mode)])) ∧
  (∀ (s : State) (t : Thread) (d a : BitVec 6) (c : Bool),
      VecQuiet s t →
      (isFloat (modeStype t.ctx.mode) && isInt (modeDtype t.ctx.mode) && 16 ≤ t.ctx.dw && modeScale t.ctx.mode == 0) = true →
      t.vlFits (max t.ctx.sw t.ctx.dw) = true →
      exec (.vfclass d a c) s = .next (passed s t
        (t.ctx.putElems d t.ctx.dw fun i => (classMask t.ctx.floatOp.f (getElem (t.ctx.vAt a) i t.ctx.sw), 0))
        [(.v a, modeStype t.ctx.mode)] []))

/-- A vector compare writes a predicate: the compare's bit at each active index and 0 at every other (R60, R98, R113,
05_vector_arithmetic.md). -/
def Obligations.VectorCompare : Prop :=
  (∀ (s : State) (t : Thread) (d a b : BitVec 6) (c g : Bool) (e : (BitVec 6 → BitVec 6 → BitVec 6 → Bool → Bool → Instr) × Cmp),
      VecQuiet s t →
      (e ∈ [
        (Instr.vcmpEq, { int := fun x y => x == y, float := fun _ eq _ => eq, quietNV := false, needsFloat := false }),
        (Instr.vcmpNe, { int := fun x y => x != y, float := fun _ eq _ => !eq, quietNV := false, needsFloat := false }),
        (Instr.vcmpLt, { int := fun x y => x < y, float := fun lt _ _ => lt, quietNV := true, needsFloat := false }),
        (Instr.vcmpLe, { int := fun x y => x ≤ y, float := fun lt eq _ => lt || eq, quietNV := true, needsFloat := false }),
        (Instr.vcmpGt, { int := fun x y => x > y, float := fun lt eq un => !lt && !eq && !un, quietNV := true, needsFloat := false }),
        (Instr.vcmpGe, { int := fun x y => x ≥ y, float := fun lt _ un => !lt && !un, quietNV := true, needsFloat := false }),
        (Instr.vcmpUn, { int := fun _ _ => false, float := fun _ _ un => un, quietNV := false, needsFloat := true })]) →
      (modeScale t.ctx.mode == 0 && (!e.2.needsFloat || isFloat (modeStype t.ctx.mode))) = true →
      t.vlFits t.ctx.sw = true →
      exec (e.1 d a b c g) s = .next (passed s t ((t.ctx.putPred d (t.ctx.active.filter fun i => (t.ctx.cmpAt e.2 a b i).1)).flag
        (t.ctx.active.foldl (fun f i => f ||| (t.ctx.cmpAt e.2 a b i).2) 0))
        [(.v a, modeStype t.ctx.mode), (.v b, modeStype t.ctx.mode)] []))

/-- Predicate logic, pwhile, pcnt and pfirst act on the bits below vl (R36, R98, R114, R115, 05_vector_arithmetic.md). -/
def Obligations.Predicates : Prop :=
  (∀ (s : State) (t : Thread) (d a b : BitVec 6) (e : (BitVec 6 → BitVec 6 → BitVec 6 → Instr) × (Bool → Bool → Bool)),
      VecQuiet s t →
      (e ∈ [(Instr.pand, fun x y => x && y), (Instr.por, fun x y => x || y), (Instr.pxor, fun x y => x != y), (Instr.pandn, fun x y => x && !y)]) →
      exec (e.1 d a b) s = .next (wrote s t (t.ctx.putPred d ((List.range t.ctx.vl).filter fun i =>
          e.2 ((t.ctx.pAt a.toNat).getLsbD i) ((t.ctx.pAt b.toNat).getLsbD i)))) ∧
        exec (.pnot d a) s = .next (wrote s t (t.ctx.putPred d ((List.range t.ctx.vl).filter fun i => !(t.ctx.pAt a.toNat).getLsbD i)))) ∧
  (∀ (s : State) (t : Thread) (d a b : BitVec 6),
      VecQuiet s t →
      exec (.pwhile d a b) s = .next (wrote s t (t.ctx.putPred d ((List.range t.ctx.vl).filter fun i =>
        decide ((t.ctx.xAt a).toInt + i < (t.ctx.xAt b).toInt))))) ∧
  (∀ (s : State) (t : Thread) (d a : BitVec 6),
      VecQuiet s t →
      exec (.pcnt d a) s = .next (wrote s t (t.ctx.put d
        (BitVec.ofNat 64 (t.ctx.active.filter (t.ctx.pAt a.toNat).getLsbD).length)))) ∧
  (∀ (s : State) (t : Thread) (d a : BitVec 6),
      VecQuiet s t →
      exec (.pfirst d a) s = .next (wrote s t (t.ctx.put d
        (match (t.ctx.active.filter (t.ctx.pAt a.toNat).getLsbD).head? with | some i => BitVec.ofNat 64 i | none => ~~~0))))

/-- vcvt converts between any two types, and the block-scale instructions quantise, dequantise and compute scales (R60, R82,
R83, R98, R116, R117, R118, 05_vector_arithmetic.md, 04_number_formats.md). -/
def Obligations.Conversions : Prop :=
  (∀ (s : State) (t : Thread) (d a : BitVec 6) (c : Bool),
      VecQuiet s t → (modeScale t.ctx.mode == 0) = true → t.vlFits (max t.ctx.sw t.ctx.dw) = true →
      exec (.vcvt d a c) s = .next (passed s t
        (t.ctx.putElems d t.ctx.dw fun i => t.ctx.conv.convert i (getElem (t.ctx.vAt a) i t.ctx.sw))
        [(.v a, modeStype t.ctx.mode)] [(.v d, modeDtype t.ctx.mode)])) ∧
  (∀ (s : State) (t : Thread) (d a : BitVec 6) (c : Bool),
      VecQuiet s t →
      (wideFloat (modeStype t.ctx.mode) && scalable (modeDtype t.ctx.mode) && modeScale t.ctx.mode != 0) = true →
      t.vlFits (max t.ctx.sw t.ctx.dw) = true →
      exec (.vqnt d a c) s = .next (passed s t (t.ctx.putElems d t.ctx.dw fun i =>
        t.ctx.conv.put i (if t.scaleOf d t.ctx.dw i = 255 then .nan true
          else match t.ctx.conv.value (getElem (t.ctx.vAt a) i t.ctx.sw) with
            | .fin g m e => .fin g m (e - t.scaleOf d t.ctx.dw i + 127)
            | v => v))
        [(.v a, modeStype t.ctx.mode)] [(.v d, modeDtype t.ctx.mode)])) ∧
  (∀ (s : State) (t : Thread) (d a : BitVec 6) (c : Bool),
      VecQuiet s t →
      (scalable (modeStype t.ctx.mode) && wideFloat (modeDtype t.ctx.mode) && modeScale t.ctx.mode != 0) = true →
      t.vlFits (max t.ctx.sw t.ctx.dw) = true →
      exec (.vdqnt d a c) s = .next (passed s t (t.ctx.putElems d t.ctx.dw fun i =>
        ({ t.ctx.conv with sat := false } : Conv).put i
          (scaleVal (t.ctx.conv.value (getElem (t.ctx.vAt a) i t.ctx.sw)) (t.scaleOf a t.ctx.sw i)))
        [(.v a, modeStype t.ctx.mode)] [(.v d, modeDtype t.ctx.mode)])) ∧
  (∀ (s : State) (t : Thread) (d a : BitVec 6) (c : Bool) (val : Nat → Val) (bs : List (Nat × List Nat)),
      VecQuiet s t →
      (wideFloat (modeStype t.ctx.mode) && scalable (modeDtype t.ctx.mode) && modeScale t.ctx.mode != 0) = true →
      t.vlFits (max t.ctx.sw t.ctx.dw) = true → (val = fun i => t.ctx.conv.value (getElem (t.ctx.vAt a) i t.ctx.sw)) →
      bs = (blocksOf (modeBlk t.ctx.mode) t.ctx.vl t.ctx.active).filter (!·.2.isEmpty) →
      exec (.vbscale d a c) s = .next (passed s t ((t.ctx.setV (t.ctx.phys (modeScale t.ctx.mode))
        (fill t.ctx.scales 8 (bs.map fun b => (scaleSlot t (t.ctx.phys d.toNat) t.ctx.dw (b.1 * modeBlk t.ctx.mode),
          blockScale (emaxOf t.ctx.fmt (modeDtype t.ctx.mode) t.ctx.dw) (b.2.map val))))).flag
        (if t.ctx.active.any fun i => (val i).snan then fNV else 0)) [(.v a, modeStype t.ctx.mode)] [])) ∧
  (∀ (s : State) (t : Thread) (d a : BitVec 6) (c : Bool) (out : List (Nat × Rounded)),
      VecQuiet s t →
      (isFloat (modeStype t.ctx.mode) && isFloat (modeDtype t.ctx.mode) && modeScale t.ctx.mode == 0) = true →
      t.vlFits (max t.ctx.sw t.ctx.dw) = true →
      (out = (blocksOf (modeBlk t.ctx.mode) t.ctx.vl t.ctx.active).map fun b =>
        (b.1, blockMax (floatFmt t.ctx.fmt (modeDtype t.ctx.mode)) (modeRnd t.ctx.mode) (t.ctx.conv.draw b.1)
          (b.2.map fun i => t.ctx.conv.value (getElem (t.ctx.vAt a) i t.ctx.sw)))) →
      exec (.vbsmax d a c) s = .next (passed s t ((t.ctx.putV d (fill (t.ctx.vAt d) t.ctx.dw (out.map fun e => (e.1, e.2.1)))).flag
        (out.foldl (fun f e => f ||| e.2.2) 0)) [(.v a, modeStype t.ctx.mode)] [(.v d, modeDtype t.ctx.mode)] (out.map (·.1))))

/-- A reduction combines the active elements and xs2 into xd, in the manual's fixed order (R60, R91, R92, R93, R107, R119,
R120, 05_vector_arithmetic.md, 04_number_formats.md). -/
def Obligations.Reductions : Prop :=
  (∀ (s : State) (t : Thread) (d a b : BitVec 6) (c : Bool) (e : (BitVec 6 → BitVec 6 → BitVec 6 → Bool → Instr) × Red) (o : Conv),
      VecQuiet s t →
      e ∈ [(Instr.vredo, Red.ordered), (Instr.vredt, Red.tree),
        (Instr.vredmin, Red.least), (Instr.vredmax, Red.greatest)] →
      o = t.ctx.conv → isInt o.u = true →
      (isInt o.t == isInt o.u && o.w ≤ o.wd && o.rnd != 5 && modeScale t.ctx.mode == 0) = true →
      t.vlFits (max o.w o.wd) = true →
      exec (e.1 d a b c) s = .next (wrote s t (t.ctx.put d (word (intValue o.u o.wd (if t.ctx.active.isEmpty then (t.ctx.xAt b).toNat % 2 ^ o.wd
        else reduceInt e.2 o ((t.ctx.xAt b).toNat % 2 ^ o.wd) (t.ctx.active.map fun i => getElem (t.ctx.vAt a) i o.w))))))) ∧
  (∀ (s : State) (t : Thread) (d a b : BitVec 6) (c : Bool) (e : (BitVec 6 → BitVec 6 → BitVec 6 → Bool → Instr) × Red) (o : Conv) (v : Rounded),
      VecQuiet s t →
      e ∈ [(Instr.vredo, Red.ordered), (Instr.vredt, Red.tree),
        (Instr.vredmin, Red.least), (Instr.vredmax, Red.greatest)] →
      o = t.ctx.conv → isInt o.u = false →
      (isInt o.t == isInt o.u && o.w ≤ o.wd && o.rnd != 5 && modeScale t.ctx.mode == 0) = true →
      t.vlFits (max o.w o.wd) = true →
      (v = reduceFloat e.2 o ((t.ctx.xAt b).toNat % 2 ^ o.wd) ((List.range t.ctx.vl).map fun i =>
        if t.ctx.active.contains i then some (o.value (getElem (t.ctx.vAt a) i o.w)) else none)) →
      exec (e.1 d a b c) s = .next (passed s t ((t.ctx.put d (BitVec.ofNat 64 v.1)).flag v.2) [(.v a, o.t)] [])) ∧
  (∀ (o : Conv) (init : Nat),
      reduceFloat .ordered o init [] = (init, 0)) ∧
  (∀ (o : Conv) (init : Nat) (xs : List (Option Val)),
      reduceFloat .ordered o init (xs ++ [none]) = reduceFloat .ordered o init xs) ∧
  (∀ (o : Conv) (init : Nat) (xs : List (Option Val)) (v : Val) (g : Fmt) (s q : Rounded),
      g = floatFmt o.fmt o.u → s = reduceFloat .ordered o init xs →
      q = roundVal g o.rnd false 0 ((g.value s.1).add o.rnd v) →
      reduceFloat .ordered o init (xs ++ [some v]) = (q.1, s.2 ||| q.2)) ∧
  (∀ (g : Fmt) (rnd : Rnd) (l : List (Option Val)) (k : Nat) (a b : Option Val),
      2 * k < l.length → a = l[2 * k]?.getD none → b = l[2 * k + 1]?.getD none →
      (treeLevel g rnd l).1.length = (l.length + 1) / 2 ∧ (a = none → (treeLevel g rnd l).1[k]? = some b) ∧ (b = none → (treeLevel g rnd l).1[k]? = some a) ∧
      ∀ x y, a = some x → b = some y → (treeLevel g rnd l).1[k]? = some (some (g.value (roundVal g rnd false 0 (x.add rnd y)).1))) ∧
  (∀ (g : Fmt) (rnd : Rnd) (a b : Option Val) (r : List (Option Val)),
      (a = none ∨ b = none → (treeLevel g rnd (a :: b :: r)).2 = (treeLevel g rnd r).2) ∧
      (∀ x y, a = some x → b = some y → (treeLevel g rnd (a :: b :: r)).2 = (roundVal g rnd false 0 (x.add rnd y)).2 ||| (treeLevel g rnd r).2) ∧
      (treeLevel g rnd [a]).2 = 0 ∧ (treeLevel g rnd []).2 = 0) ∧
  (∀ (g : Fmt) (rnd : Rnd) (l : List (Option Val)) (t : List (Option Val) × Flags),
      1 < l.length → l.length ≤ 2 ^ 17 → t = treeLevel g rnd l →
      treeSum g rnd 17 l = ((treeSum g rnd 17 t.1).1, t.2 ||| (treeSum g rnd 17 t.1).2)) ∧
  (∀ (g : Fmt) (rnd : Rnd) (a : Option Val),
      treeSum g rnd 17 [a] = (a, 0) ∧ treeSum g rnd 17 [] = (none, 0)) ∧
  (∀ (o : Conv) (init : Nat) (xs : List (Option Val)) (fl : Flags),
      treeSum (floatFmt o.fmt o.u) o.rnd 17 xs = (none, fl) →
      reduceFloat .tree o init xs = (init, 0)) ∧
  (∀ (o : Conv) (init : Nat) (xs : List (Option Val)) (v : Val) (fl : Flags) (g : Fmt) (q : Rounded),
      g = floatFmt o.fmt o.u → treeSum g o.rnd 17 xs = (some v, fl) →
      q = roundVal g o.rnd false 0 ((g.value init).add o.rnd v) →
      reduceFloat .tree o init xs = (q.1, fl ||| q.2)) ∧
  (∀ (o : Conv) (init : Nat) (xs : List Nat) (k : Red),
      (k = .ordered ∨ k = .tree) →
      reduceInt k o init xs = narrow o.sat o.u o.wd (intValue o.u o.wd init + (xs.map (intValue o.t o.w)).sum)) ∧
  (∀ (o : Conv) (init : Nat) (xs : List Nat) (all : List Int),
      all = intValue o.u o.wd init :: xs.map (intValue o.t o.w) →
      (∃ v ∈ all, (∀ x ∈ all, v ≤ x) ∧ reduceInt .least o init xs = narrow o.sat o.u o.wd v) ∧
      (∃ v ∈ all, (∀ x ∈ all, x ≤ v) ∧ reduceInt .greatest o init xs = narrow o.sat o.u o.wd v)) ∧
  (∀ (o : Conv) (init : Nat) (xs ys : List Nat) (k : Red),
      xs.Perm ys →
      reduceInt k o init xs = reduceInt k o init ys) ∧
  (∀ (o : Conv) (init : Nat) (xs : List (Option Val)) (vs : List Val) (i : Val) (g : Fmt) (fl : Flags) (k : Red) (least : Bool) (best : Val),
      vs = xs.filterMap id → g = floatFmt o.fmt o.u → i = g.value init →
      (fl = if i.snan || vs.any (·.snan) then fNV else 0) →
      (k = .least ∧ least = true ∨ k = .greatest ∧ least = false) → best = vs.foldl (Val.pick least) i →
      (vs = [] → reduceFloat k o init xs = (init, fl)) ∧
      (vs ≠ [] → best.isNan = true → reduceFloat k o init xs = g.nanWith fl) ∧
      (vs ≠ [] → best.isNan = false → reduceFloat k o init xs = ((g.round o.rnd false 0 best).1, (g.round o.rnd false 0 best).2 ||| fl))) ∧
  (∀ (x y : Val) (s1 s2 : Bool) (m1 m2 : Nat) (e1 e2 : Int),
      (x.isNan = true → x.pick true y = y ∧ x.pick false y = y) ∧
      (x.isNan = false → y.isNan = true → x.pick true y = x ∧ x.pick false y = x) ∧
      ((Val.fin s1 m1 e1).pick true (.fin s2 m2 e2)).real = min (Val.fin s1 m1 e1).real (Val.fin s2 m2 e2).real ∧
      ((Val.fin s1 m1 e1).pick false (.fin s2 m2 e2)).real = max (Val.fin s1 m1 e1).real (Val.fin s2 m2 e2).real ∧
      (Val.fin s1 0 e1).pick true (.fin s2 0 e2) = (if s2 && !s1 then .fin s2 0 e2 else .fin s1 0 e1) ∧
      (Val.fin s1 0 e1).pick false (.fin s2 0 e2) = (if s1 && !s2 then .fin s2 0 e2 else .fin s1 0 e1))

/-- The permutes copy element codes of the source type's width by index, count or predicate (R60, R75, R98, R121,
05_vector_arithmetic.md). -/
def Obligations.Permutes : Prop :=
  (∀ (s : State) (t : Thread) (d a b : BitVec 6) (c : Bool) (n : Nat),
      VecQuiet s t → modeScale t.ctx.mode = 0 → t.vlFits t.ctx.sw = true → n = (t.ctx.xAt b).toNat →
      exec (.vslideup d a b c) s = .next (wrote s t (t.ctx.putV d (fill (t.ctx.vAt d) t.ctx.sw ((t.ctx.active.filter (n ≤ ·)).map fun i =>
          (i, getElem (t.ctx.vAt a) (i - n) t.ctx.sw))))) ∧
        exec (.vslidedn d a b c) s = .next (wrote s t (t.ctx.putV d (fill (t.ctx.vAt d) t.ctx.sw (t.ctx.active.map fun i =>
          (i, if i + n < t.ctx.vl then getElem (t.ctx.vAt a) (i + n) t.ctx.sw else 0))))) ∧
        exec (.vmv d a c) s = .next (wrote s t (t.ctx.putV d (fill (t.ctx.vAt d) t.ctx.sw (t.ctx.active.map fun i => (i, getElem (t.ctx.vAt a) i t.ctx.sw)))))) ∧
  (∀ (s : State) (t : Thread) (d a b : BitVec 6) (c : Bool) (l : List Nat),
      VecQuiet s t → modeScale t.ctx.mode = 0 → t.vlFits t.ctx.sw = true → modeGuard t.ctx.mode = 0 →
      l = (List.range t.ctx.vl).filter (t.ctx.pAt b.toNat).getLsbD →
      exec (.vcompress d a b c) s = .next (wrote s t (t.ctx.putV d (fill (t.ctx.vAt d) t.ctx.sw ((List.range l.length).zip
          (l.map fun i => getElem (t.ctx.vAt a) i t.ctx.sw))))) ∧
        exec (.vexpand d a b c) s = .next (wrote s t (t.ctx.putV d (fill (t.ctx.vAt d) t.ctx.sw (l.zip
          ((List.range l.length).map fun i => getElem (t.ctx.vAt a) i t.ctx.sw)))))) ∧
  (∀ (s : State) (t : Thread) (d a b : BitVec 6) (c e : Bool),
      VecQuiet s t → (4 ≤ modeDtype t.ctx.mode && modeDtype t.ctx.mode ≤ 7 && modeScale t.ctx.mode == 0) = true →
      t.vlFits (max t.ctx.sw t.ctx.dw) = true →
      exec (.vgath d a b c e) s = .next (wrote s t (t.ctx.putV d (fill (t.ctx.vAt d) t.ctx.sw (t.ctx.active.map fun i =>
        (i, if getElem (t.ctx.vAt b) i t.ctx.dw < t.ctx.vl then getElem (t.ctx.vAt a) (getElem (t.ctx.vAt b) i t.ctx.dw) t.ctx.sw
            else 0)))))) ∧
  (∀ (s : State) (t : Thread) (d a : BitVec 6),
      VecQuiet s t → modeScale t.ctx.mode = 0 → t.vlFits t.ctx.sw = true →
      exec (.vbcast d a) s = .next (wrote s t (t.ctx.putV d (fill (t.ctx.vAt d) t.ctx.sw (t.ctx.active.map fun i =>
        (i, (t.ctx.xAt a).toNat)))))) ∧
  (∀ (s : State) (t : Thread) (d a b : BitVec 6) (c : Bool) (x : Nat),
      VecQuiet s t → modeScale t.ctx.mode = 0 → t.vlFits t.ctx.sw = true →
      (x = if (t.ctx.xAt b).toNat < t.ctx.vl then getElem (t.ctx.vAt a) (t.ctx.xAt b).toNat t.ctx.sw else 0) →
      exec (.vext d a b c) s = .next (wrote s t (t.ctx.put d
        (if isInt (modeStype t.ctx.mode) then word (intValue (modeStype t.ctx.mode) t.ctx.sw x) else BitVec.ofNat 64 x)))) ∧
  (∀ (s : State) (t : Thread) (d a b : BitVec 6),
      VecQuiet s t → modeScale t.ctx.mode = 0 → t.vlFits t.ctx.sw = true →
      exec (.vins d a b) s = .next (wrote s t (if (t.ctx.xAt b).toNat < t.ctx.vl
        then t.ctx.putV d (setElem (t.ctx.vAt d) (t.ctx.xAt b).toNat t.ctx.sw (t.ctx.xAt a).toNat) else t.ctx)))

/-- Rounding chooses between the neighbours of the exact value as the mode says, and raises NX, UF and OF as the manual
gives (R63, R64, R74, R75, R76, R77, R78, R84, R85, R86, R87, 04_number_formats.md). -/
def Obligations.Rounding : Prop :=
  (∀ (f : Fmt) (rnd : Rnd) (sat : Bool) (z : Nat) (neg : Bool) (m : Nat) (e : Int),
      RoundsTo f rnd sat z neg (m * (2 : ℝ) ^ e) (f.round rnd sat z (.fin neg m e))) ∧
  (∀ (f : Fmt) (rnd : Rnd) (sat : Bool) (z : Nat) (s1 s2 : Bool) (m1 m2 : Nat) (e1 e2 : Int),
      f.m ≤ 64 → m2 ≠ 0 →
      RoundsTo f rnd sat z (s1 != s2) (m1 * (2 : ℝ) ^ e1 / (m2 * (2 : ℝ) ^ e2)) (f.div rnd sat z (.fin s1 m1 e1) (.fin s2 m2 e2))) ∧
  (∀ (f : Fmt) (rnd : Rnd) (sat : Bool) (z m : Nat) (e : Int),
      f.m ≤ 64 → m ≠ 0 →
      RoundsTo f rnd sat z false (√(m * (2 : ℝ) ^ e)) (f.sqrt rnd sat z (.fin false m e))) ∧
  (∀ (rnd : Rnd) (s1 s2 : Bool) (m1 m2 : Nat) (e1 e2 : Int),
      (∃ v, (Val.fin s1 m1 e1).add rnd (.fin s2 m2 e2) = (v, 0) ∧ v.real = (Val.fin s1 m1 e1).real + (Val.fin s2 m2 e2).real) ∧
      (∃ v, (Val.fin s1 m1 e1).mul (.fin s2 m2 e2) = (v, 0) ∧ v.real = (Val.fin s1 m1 e1).real * (Val.fin s2 m2 e2).real)) ∧
  (∀ (f : Fmt) (rnd : Rnd) (sat : Bool) (z : Nat) (s1 s2 s3 : Bool) (m1 m2 m3 : Nat) (e1 e2 e3 : Int),
      ∃ neg m e, (Val.fin neg m e).real = (Val.fin s1 m1 e1).real * (Val.fin s2 m2 e2).real + (Val.fin s3 m3 e3).real ∧
      f.fma rnd sat z (.fin s1 m1 e1) (.fin s2 m2 e2) (.fin s3 m3 e3) = f.round rnd sat z (.fin neg m e)) ∧
  (∀ (rnd : Rnd) (s1 s2 : Bool) (m : Nat) (e1 e2 : Int),
      m ≠ 0 →
      (Val.fin s1 0 e1).add rnd (.fin s2 0 e2) = (.fin (if s1 = s2 then s1 else decide (rnd = 2)) 0 0, 0) ∧
      (Val.fin s1 m e1).add rnd (.fin (!s1) m e1) = (.fin (decide (rnd = 2)) 0 0, 0)) ∧
  (∀ (f : Fmt) (rnd : Rnd) (sat : Bool) (z : Nat) (x : Val) (s t g : Bool) (m : Nat) (e : Int),
      x.isNan = false → m ≠ 0 →
      (Val.nan g).add rnd x = (.nan false, if g then fNV else 0) ∧ x.add rnd (.nan g) = (.nan false, if g then fNV else 0) ∧
      (Val.nan g).mul x = (.nan false, if g then fNV else 0) ∧ x.mul (.nan g) = (.nan false, if g then fNV else 0) ∧
      (Val.inf s).add rnd (.inf s) = (.inf s, 0) ∧ (Val.inf s).add rnd (.inf (!s)) = (.nan false, fNV) ∧
      (Val.inf s).add rnd (.fin t m e) = (.inf s, 0) ∧ (Val.fin t m e).add rnd (.inf s) = (.inf s, 0) ∧
      (Val.inf s).mul (.fin t 0 e) = (.nan false, fNV) ∧ (Val.fin t 0 e).mul (.inf s) = (.nan false, fNV) ∧
      (Val.inf s).mul (.inf t) = (.inf (s != t), 0) ∧ (Val.inf s).mul (.fin t m e) = (.inf (s != t), 0) ∧ (Val.fin t m e).mul (.inf s) = (.inf (t != s), 0) ∧
      f.div rnd sat z (.inf s) (.inf t) = f.nanWith fNV ∧ f.div rnd sat z (.fin s 0 e) (.fin t 0 e) = f.nanWith fNV ∧
      f.div rnd sat z (.fin s m e) (.fin t 0 e) = ((f.infinity (s != t) sat).1, (f.infinity (s != t) sat).2 ||| fDZ) ∧
      f.div rnd sat z (.inf s) (.fin t m e) = f.infinity (s != t) sat ∧ f.div rnd sat z (.fin s m e) (.inf t) = (f.sign (s != t), 0) ∧
      f.sqrt rnd sat z (.fin s 0 e) = (f.sign s, 0) ∧ f.sqrt rnd sat z (.fin true m e) = f.nanWith fNV ∧ f.sqrt rnd sat z (.inf true) = f.nanWith fNV ∧
      f.sqrt rnd sat z (.inf false) = f.infinity false sat ∧ f.round rnd sat z (.inf s) = f.infinity s sat ∧
      f.round rnd sat z (.nan g) = f.nanWith (if g then fNV else 0)) ∧
  (∀ (f : Fmt) (neg sat : Bool) (fl : Flags),
      (f.nan = 0 → f.nanWith fl = (0, fNV ||| fl)) ∧ (f.nan = 1 → f.nanWith fl = (2 ^ (f.e + f.m) - 1, fl)) ∧
      (f.nan = 2 → f.nanWith fl = ((2 ^ f.e - 1) * 2 ^ f.m + 2 ^ (f.m - 1), fl)) ∧
      (f.sgn = false → f.infinity true sat = (0, fNV)) ∧ (f.sgn = true ∨ neg = false →
        (f.inf = true → f.infinity neg sat = (f.sign neg + (2 ^ f.e - 1) * 2 ^ f.m, 0)) ∧
        (f.inf = false → f.nan = 1 → f.infinity neg sat = if sat || f.satc then (f.sign neg + f.maxCode, 0) else f.nanWith fNV) ∧
        (f.inf = false → f.nan = 0 → f.infinity neg sat = (f.sign neg + f.maxCode, fNV)))) ∧
  (∀ (f : Fmt) (neg sat up : Bool) (rnd : Rnd),
      f.Sound → (up = true ↔ rnd = 0 ∨ 4 ≤ rnd ∨ (rnd = 2 ∧ neg = true) ∨ (rnd = 3 ∧ neg = false)) →
      ((sat || f.satc) = true → f.overflow rnd neg sat = f.sign neg + f.maxCode) ∧ (up = false → f.overflow rnd neg sat = f.sign neg + f.maxCode) ∧
      ((sat || f.satc) = false → up = true →
        (f.nan = 2 → f.overflow rnd neg sat = f.sign neg + (2 ^ f.e - 1) * 2 ^ f.m) ∧ (f.nan = 1 → f.overflow rnd neg sat = 2 ^ (f.e + f.m) - 1) ∧
        (f.nan = 0 → f.overflow rnd neg sat = f.sign neg + f.maxCode))) ∧
  (∀ (f : Fmt) (neg : Bool) (k : Nat),
      f.Sound → k ≤ f.maxCode →
      ∃ m e, f.value (f.sign neg + k) = .fin (f.sgn && neg) m e ∧ (m : ℝ) * 2 ^ e = f.grid k) ∧
  (∀ (f : Fmt) (neg : Bool) (k : Nat),
      f.Sound → f.maxCode < k → k < 2 ^ (f.e + f.m) →
      (f.inf = true ∧ k = (2 ^ f.e - 1) * 2 ^ f.m ∧ f.value (f.sign neg + k) = .inf (f.sgn && neg)) ∨
      ((f.nan = 1 ∨ (f.nan = 2 ∧ k ≠ (2 ^ f.e - 1) * 2 ^ f.m)) ∧ (f.value (f.sign neg + k)).isNan = true)) ∧
  (∀ (w : Word),
      fmtOk w = true →
      (fmtOf w).Sound ∧ (fmtOf w).m ≤ 64 ∧ fp64.Sound ∧ fp32.Sound ∧ fp16.Sound ∧ bf16.Sound) ∧
  (  ∃ f, f = fmtOf 0x70343 ∧ f.grid 0x7E = 448 ∧ f.grid 0x7F = 480 ∧
      f.round 0 false 0 (.fin false 450 0) = (0x7E, fNX) ∧ f.round 0 false 0 (.fin false 464 0) = (0x7E, fNX) ∧ f.round 0 false 0 (.fin false 500 0) = (0x7F, fOF ||| fNX) ∧
      f.round 4 false 0 (.fin false 464 0) = (0x7F, fOF ||| fNX) ∧ f.round 0 true 0 (.fin false 500 0) = (0x7E, fOF ||| fNX)) ∧
  (∀ (f : Fmt) (rnd : Rnd) (sat : Bool) (z : Nat) (v : Val × Flags),
      roundVal f rnd sat z v = ((f.round rnd sat z v.1).1, (f.round rnd sat z v.1).2 ||| v.2)) ∧
  (∀ (rnd : Rnd) (z : Nat) (neg : Bool) (m : Nat) (e : Int) (x : ℝ) (n : Nat),
      x = m * (2 : ℝ) ^ e → n ≤ x → x < (n + 1 : Nat) →
      (x = n → roundInt rnd z neg m e = (sint neg n, false)) ∧
      (x ≠ n → PicksHi rnd (neg = true) (n % 2 = 1) z (x - n) → roundInt rnd z neg m e = (sint neg (n + 1), true)) ∧
      (x ≠ n → ¬ PicksHi rnd (neg = true) (n % 2 = 1) z (x - n) → roundInt rnd z neg m e = (sint neg n, true))) ∧
  (∀ (rnd : Rnd) (z : Nat) (t : TypeCode) (w : Nat) (s : Bool) (m : Nat) (e n : Int) (nx : Bool),
      roundInt rnd z s m e = (n, nx) →
      toIntSat rnd z t w (.nan s) = (0, fNV) ∧ toIntSat rnd z t w (.inf s) = (wrapTo w (if s then intMin t w else intMax t w), fNV) ∧
      (n < intMin t w → toIntSat rnd z t w (.fin s m e) = (saturateTo t w n, fNV)) ∧ (intMax t w < n → toIntSat rnd z t w (.fin s m e) = (saturateTo t w n, fNV)) ∧
      (intMin t w ≤ n → n ≤ intMax t w → toIntSat rnd z t w (.fin s m e) = (wrapTo w n, if nx then fNX else 0)))

/-- vfetch starts the active VPs, and each VP executes its own words on its own element until it passes the last one (R122,
R123, R124, R125, R126, 05_vector_arithmetic.md). -/
def Obligations.VirtualProcessors : Prop :=
  (∀ (s : State) (t : Thread) (n : BitVec 5) (o : BitVec 19) (pc : Word),
      Quiet s t → pc = t.ctx.pc + word (o.toInt * 4) →
      exec (.vfetch n o) s = .next (wrote s t { t.ctx with
        vps := t.ctx.active.map fun i => (i, { pc := pc, last := some (pc + BitVec.ofNat 64 (4 * n.toNat)) }) })) ∧
  (∀ (s : State) (t : Thread),
      Quiet s t →
      exec .vpsync s = .next (wrote s t t.ctx)) ∧
  (∀ (s : State) (t : Thread) (i : Nat) (e : VpPc),
      VpReady s t i e → Calm s t → tsorted t.ctx.vps = true → (opened s t).counted.goesOn t.limit = true →
      exec .vpstop s = .next (wentVp s t i { t.ctx with vps := tdrop i t.ctx.vps })) ∧
  (∀ (s : State) (t : Thread) (i : Nat) (e : VpPc) (v : BitVec 6) (o : BitVec 18),
      VpReady s t i e → Calm s t → t.ctx.streams = [] → (opened s t).counted.goesOn t.limit = true →
      t.vlFits t.ctx.sw = true →
      exec (.vpbr v o) s = .next (wentVp s t i (t.ctx.vpNext i e
        (if getElem (t.ctx.vAt v) i t.ctx.sw = 0 then .seq else .goto (e.pc + word (o.toInt * 4)))))) ∧
  (∀ (s : State) (t : Thread) (i : Nat) (e : VpPc) (d a b : BitVec 6) (c g : Bool) (o : IntOp),
      VpReady s t i e → Calm s t → t.ctx.streams = [] → (opened s t).counted.goesOn t.limit = true → o = t.ctx.intOp →
      (isInt o.t && isInt o.u && modeScale t.ctx.mode == 0) = true → t.vlFits (max o.w o.wd) = true →
      exec (.vadd d a b c g) s = .next (wentVp s t i ((t.ctx.putElem i d o.wd
        (o.narrow (intValue o.t o.w (getElem (t.ctx.vAt a) i o.w) + intValue o.t o.w (getElem (t.ctx.vAt b) i o.w)), 0)).vpNext i e .seq))) ∧
  (∀ (s : State) (t : Thread) (i : Nat) (e : VpPc) (d a b : BitVec 6) (x : Instr),
      VpReady s t i e → x ∈ [.add d a b, .setvl d a, .ecall, .jal d 0, .vfetch 1 0, .vmv d a false] →
      exec x s = .next (({ s := s, t := t, vp := some i, popped := [], ends := false, beats := 0, group := (0, []) } : Running).takeTrap { code := 1, sub := 0, val := s.fetched.setWidth 64 })) ∧
  (∀ (s : State) (t : Thread) (v : BitVec 6) (o : BitVec 18) (x : Instr),
      Ready s t → x ∈ [.vpstop, .vpbr v o] →
      exec x s = .next ((atBody s t).takeTrap { code := 1, sub := 0, val := s.fetched.setWidth 64 }))

/-- A vector load fills the active elements from estart up, each from its own address, and clears estart (R60, R98, R196,
R198, R199, R200, 09_memory_access_and_synchronisation.md). -/
def Obligations.VectorLoads : Prop :=
  (∀ (s : State) (t : Thread) (d a b : BitVec 6) (g : Bool) (e : Instr × VForm) (es : List Nat) (bs : List (List Byte)) (s' : State) (k : Chunk) (g' : Group),
      Ready s t → Calm s t → Free s t → Whole s →
      e ∈ [(.vld d a, VForm.unit), (.vldS d a b, VForm.strided b), (.vldX d a b g, VForm.indexed b)] →
      (t.memReady e.2 fun _ => true) → es = t.ctx.fromEstart →
      (∀ i ∈ es, t.ctx.sw < 8 ∨ (t.ctx.elemAt e.2 a i).1.toNat % (t.ctx.sw / 8) = 0) →
      (t.seeAll .load (es.map fun i => (i, elemPieces t.ctx.sw (t.ctx.elemAt e.2 a i).1 (t.ctx.elemAt e.2 a i).2)) s (opened s t) (0, []) =
        some (bs, s', k, g')) →
      k.counted.goesOn t.limit = true →
      exec e.1 s = .next (went s' t ({ t.ctx.putV d (fill (t.ctx.vAt d) t.ctx.sw ((es.zip bs).map fun e' =>
        (e'.1, natOfBytes e'.2 / 2 ^ (t.ctx.elemAt e.2 a e'.1).2))) with estart := 0 } : Ctx).next k) ∧ Looked s s' (opened s t) k) ∧
  (∀ (s : State) (t : Thread) (a : BitVec 6),
      Quiet s t → (modeScale t.ctx.mode == 0) = true → t.vlFits t.ctx.sw = true →
      exec (.vpref a) s = .next (wrote s t t.ctx))

/-- A vector store puts the active elements from estart up into its chunk, each at its own address, and clears estart (R60,
R175, R196, R198, R199, R200, 09_memory_access_and_synchronisation.md). -/
def Obligations.VectorStores : Prop :=
  (∀ (s : State) (t : Thread) (d a b : BitVec 6) (g : Bool) (e : Instr × VForm) (es : List Nat) (s' : State) (k : Chunk) (g' : Group),
      Ready s t → Calm s t → Free s t → Whole s →
      e ∈ [(.vst d a, VForm.unit), (.vstS d a b, VForm.strided b), (.vstX d a b g, VForm.indexed b)] →
      (t.memReady e.2 fun _ => true) → es = t.ctx.fromEstart →
      (∀ i ∈ es, t.ctx.sw < 8 ∨ (t.ctx.elemAt e.2 a i).1.toNat % (t.ctx.sw / 8) = 0) →
      (t.putAll t.ctx.sw (es.map fun i => (i, (t.ctx.elemAt e.2 a i).1, (t.ctx.elemAt e.2 a i).2, getElem (t.ctx.vAt d) i t.ctx.sw)) s (opened s t) (0, []) = some (s', k, g')) →
      k.counted.goesOn t.limit = true →
      exec e.1 s = .next (went s' t ({ t.ctx with estart := 0 } : Ctx).next k) ∧ (∀ p, (went s' t ({ t.ctx with estart := 0 } : Ctx).next k).byteAt p = s.byteAt p))

/-- A vector atomic performs its elements' atomics in order inside its chunk, and ends the chunk where it returns values
from home (R196, R198, R205, R209, R210, 09_memory_access_and_synchronisation.md). -/
def Obligations.VectorAtomics : Prop :=
  (∀ (s : State) (t : Thread) (d a b : BitVec 6) (g : Bool) (e : (BitVec 6 → BitVec 6 → BitVec 6 → Bool → Instr) × AmoOp × Bool) (ms : List (Nat × Nat)) (f : Flags) (s' : State) (k : Chunk) (g' : Group),
      Ready s t → Calm s t → Free s t → Whole s →
      e ∈ [
        (Instr.vamoAdd, AmoOp.add, false), (Instr.vamoAddRet, AmoOp.add, true), (Instr.vamoAnd, AmoOp.and, false), (Instr.vamoAndRet, AmoOp.and, true),
        (Instr.vamoOr, AmoOp.or, false), (Instr.vamoOrRet, AmoOp.or, true), (Instr.vamoXor, AmoOp.xor, false), (Instr.vamoXorRet, AmoOp.xor, true),
        (Instr.vamoMin, AmoOp.min, false), (Instr.vamoMinRet, AmoOp.min, true), (Instr.vamoMax, AmoOp.max, false), (Instr.vamoMaxRet, AmoOp.max, true),
        (Instr.vamoMinu, AmoOp.minu, false), (Instr.vamoMinuRet, AmoOp.minu, true), (Instr.vamoMaxu, AmoOp.maxu, false), (Instr.vamoMaxuRet, AmoOp.maxu, true),
        (Instr.vamoSwap, AmoOp.swap, false), (Instr.vamoSwapRet, AmoOp.swap, true), (Instr.vamoFadd, AmoOp.fadd, false), (Instr.vamoFaddRet, AmoOp.fadd, true)] →
      t.memReady (.indexed b) (vamoType e.2.1) → (∀ x ∈ t.ctx.amoElems d a b, x.2.1.toNat % (t.ctx.sw / 8) = 0) →
      t.amoAll e.2.1 (t.ctx.sw / 8) (t.ctx.amoElems d a b) s (opened s t) (0, []) = some (ms, f, s', k, g') →
      (t.ctx.atHome k d a b && e.2.2) = false → k.counted.goesOn t.limit = true →
      exec (e.1 d a b g) s = .next (went s' t (t.ctx.amoDone e.2.2 d ms f).next
        (if t.ctx.atHome k d a b then t.ctx.homed k d a b else k))) ∧
  (∀ (s : State) (t : Thread) (d a b : BitVec 6) (g : Bool) (e : (BitVec 6 → BitVec 6 → BitVec 6 → Bool → Instr) × AmoOp × Bool) (ms : List (Nat × Nat)) (f : Flags) (s' : State) (k : Chunk) (g' : Group),
      Ready s t → Calm s t → Free s t → Whole s →
      e ∈ [
        (Instr.vamoAdd, AmoOp.add, false), (Instr.vamoAddRet, AmoOp.add, true), (Instr.vamoAnd, AmoOp.and, false), (Instr.vamoAndRet, AmoOp.and, true),
        (Instr.vamoOr, AmoOp.or, false), (Instr.vamoOrRet, AmoOp.or, true), (Instr.vamoXor, AmoOp.xor, false), (Instr.vamoXorRet, AmoOp.xor, true),
        (Instr.vamoMin, AmoOp.min, false), (Instr.vamoMinRet, AmoOp.min, true), (Instr.vamoMax, AmoOp.max, false), (Instr.vamoMaxRet, AmoOp.max, true),
        (Instr.vamoMinu, AmoOp.minu, false), (Instr.vamoMinuRet, AmoOp.minu, true), (Instr.vamoMaxu, AmoOp.maxu, false), (Instr.vamoMaxuRet, AmoOp.maxu, true),
        (Instr.vamoSwap, AmoOp.swap, false), (Instr.vamoSwapRet, AmoOp.swap, true), (Instr.vamoFadd, AmoOp.fadd, false), (Instr.vamoFaddRet, AmoOp.fadd, true)] →
      t.memReady (.indexed b) (vamoType e.2.1) → (∀ x ∈ t.ctx.amoElems d a b, x.2.1.toNat % (t.ctx.sw / 8) = 0) →
      t.amoAll e.2.1 (t.ctx.sw / 8) (t.ctx.amoElems d a b) s (opened s t) (0, []) = some (ms, f, s', k, g') →
      e.2.2 = true → t.ctx.atHome k d a b = true → Spare (opened s t) →
      (∀ c ∈ s.copies, c.tid = t.tid → c.forked = true) → s'.held (some t.tid) k.writes = false →
      exec (e.1 d a b g) s = .next (settledWith s' { t.past with ctx := (t.ctx.amoDone true d ms f).next } (t.ctx.homed k d a b)))

/-- fld, fst, fgath, fscat and fwalk move pairs and values between fibre registers and memory (R127, R132, R135, R136, R138,
R139, R141, R142, R149, 06_fibres.md). -/
def Obligations.FibreMemory : Prop :=
  (∀ (s : State) (t : Thread) (d a b : BitVec 6) (n : Nat) (bs : List (List Byte)) (s' : State) (k : Chunk) (g : Group) (f : Fibre),
      Ready s t → Calm s t → Free s t → partFib t.part ≠ 0 → (t.ctx.xAt a).toNat % 8 = 0 → n = (t.ctx.xAt b).toNat →
      n ≤ fcapOf t.part →
      (t.seeAll .load ((List.range n).map fun j => (j, 8, [(t.ctx.xAt a + BitVec.ofNat 64 (8 * j)).toNat])) s (opened s t) (0, []) =
        some (bs, s', k, g)) →
      (f = bs.map fun b => (BitVec.ofNat 32 (natOfBytes b), BitVec.ofNat 32 (natOfBytes b / 2 ^ 32))) →
      (f.map (·.1)).Pairwise (· < ·) → k.counted.goesOn t.limit = true →
      exec (.fld d a b) s = .next (went s' (t.charged (n - 16)) (t.ctx.putF d f).next k)) ∧
  (∀ (s : State) (t : Thread) (d a : BitVec 6) (f : Fibre) (s' : State) (k : Chunk) (g : Group),
      Ready s t → Calm s t → Free s t → Whole s → partFib t.part ≠ 0 → (t.ctx.xAt a).toNat % 8 = 0 →
      f = t.ctx.fAt d.toNat → t.ctx.startsIn f.length →
      (t.putAll 64 ((t.ctx.pairsFrom f.length).map fun j => (j, t.ctx.xAt a + BitVec.ofNat 64 (8 * j), 0,
        (f[j]?.getD (0, 0)).2.toNat * 2 ^ 32 + (f[j]?.getD (0, 0)).1.toNat)) s (opened s t) (0, []) = some (s', k, g)) →
      k.counted.goesOn t.limit = true →
      exec (.fst d a) s = .next (went s' (t.charged ((t.ctx.pairsFrom f.length).length - 16)) ({ t.ctx with estart := 0 } : Ctx).next k)) ∧
  (∀ (s : State) (t : Thread) (d a : BitVec 6) (f : Fibre) (bs : List (List Byte)) (s' : State) (k : Chunk) (g : Group),
      Ready s t → Calm s t → Free s t → Whole s → partFib t.part ≠ 0 → t.ctx.arrays = true →
      (t.ctx.xAt a).toNat % (t.ctx.sw / 8) = 0 → f = t.ctx.fAt d.toNat → t.ctx.startsIn f.length →
      (t.seeAll .load ((t.ctx.pairsFrom f.length).map fun j =>
        (j, t.ctx.sw / 8, [(t.ctx.xAt a + BitVec.ofNat 64 ((f[j]?.getD (0, 0)).1.toNat * (t.ctx.sw / 8))).toNat])) s (opened s t)
        (0, []) = some (bs, s', k, g)) →
      k.counted.goesOn t.limit = true →
      exec (.fgath d a) s = .next (went s' (t.charged (2 * (t.ctx.pairsFrom f.length).length - 16)) ({ t.ctx.putF d (gathered f ((t.ctx.pairsFrom f.length).zip bs) f) with
        estart := 0 } : Ctx).next k)) ∧
  (∀ (s : State) (t : Thread) (d a : BitVec 6) (f : Fibre) (s' : State) (k : Chunk) (g : Group),
      Ready s t → Calm s t → Free s t → Whole s → partFib t.part ≠ 0 → t.ctx.arrays = true →
      (t.ctx.xAt a).toNat % (t.ctx.sw / 8) = 0 → f = t.ctx.fAt d.toNat → t.ctx.startsIn f.length →
      (∀ j ∈ t.ctx.pairsFrom f.length,
        (t.ctx.xAt a + BitVec.ofNat 64 ((f[j]?.getD (0, 0)).1.toNat * (t.ctx.sw / 8))).toNat % (t.ctx.sw / 8) = 0) →
      (t.putAll t.ctx.sw ((t.ctx.pairsFrom f.length).map fun j =>
        (j, t.ctx.xAt a + BitVec.ofNat 64 ((f[j]?.getD (0, 0)).1.toNat * (t.ctx.sw / 8)), 0, (f[j]?.getD (0, 0)).2.toNat)) s
        (opened s t) (0, []) = some (s', k, g)) →
      k.counted.goesOn t.limit = true →
      exec (.fscat d a) s = .next (went s' (t.charged ((t.ctx.pairsFrom f.length).length - 16)) ({ t.ctx with estart := 0 } : Ctx).next k)) ∧
  (∀ (s : State) (t : Thread) (d a b : BitVec 6) (o : List Byte) (s1 : State) (k1 : Chunk) (g1 : Group) (l : Level) (p : Word) (bl bh : List Byte) (s2 s3 : State) (k2 k3 : Chunk) (g2 g3 : Group) (lo hi kk : Nat) (prev : List (List Byte)) (s4 : State) (k4 : Chunk) (g4 : Group) (m : Nat) (f : Fibre) (s' : State) (k : Chunk) (g : Group),
      Ready s t → Calm s t → Free s t → partFib t.part ≠ 0 → (t.ctx.xAt a).toNat % 32 = 0 →
      t.see .load 0 32 [(t.ctx.xAt a).toNat] s (opened s t) (0, []) = some (o, s1, k1, g1) →
      field 255 192 (natOfBytes o) = 0 → l = Level.of (natOfBytes o) → l.ok t.ctx → t.ctx.passes 1 → p = t.ctx.xAt b →
      t.see .load 0 4 [(l.ptr + 4 * p).toNat] s1 k1 g1 = some (bl, s2, k2, g2) →
      t.see .load 0 4 [(l.ptr + 4 * p + 4).toNat] s2 k2 g2 = some (bh, s3, k3, g3) → lo = natOfBytes bl →
      hi = natOfBytes bh → lo ≤ hi → (kk = if t.ctx.goingOn then field 31 0 t.ctx.fprog.toNat else 0) → kk ≤ hi - lo →
      t.seeAll .load (if kk = 0 then [] else [(0, 4, [(l.crd + BitVec.ofNat 64 (4 * (lo + kk - 1))).toNat])]) s3 k3 g3 =
        some (prev, s4, k4, g4) →
      m = min (fcapOf t.part) (hi - lo - kk) →
      (t.walkAll l.crd l.val (t.ctx.sw / 8) ((List.range m).map fun n => (n, lo + kk + n)) s4 k4 g4 = some (f, s', k, g)) →
      (prev.map (fun b => BitVec.ofNat 32 (natOfBytes b)) ++ f.map (·.1)).Pairwise (· < ·) →
      k.counted.goesOn t.limit = true →
      exec (.fwalk d a b) s = .next (went s' (t.charged (m - 16)) ({ t.ctx.putF d f with
        fprog := if lo + kk + m < hi then progress 1 ((kk + m) % 2 ^ 32) else 0 } : Ctx).next k))

/-- The fibre instructions on registers: joins and conversions by coordinate, flen, fclr and fcopy, and a trap 0x01 with no
fibre registers (R15, R127, R134, R135, R136, R140, R143, R145, R147, R148, 06_fibres.md). -/
def Obligations.FibreJoins : Prop :=
  (∀ (s : State) (t : Thread) (d a b : BitVec 6) (k : BitVec 3) (out : List (BitVec 32 × Rounded)),
      Quiet s t → partFib t.part ≠ 0 → t.ctx.joins = true →
      (out = (t.ctx.fAt a.toNat).filterMap fun e => ((t.ctx.fAt b.toNat).find? (·.1 == e.1)).map fun e' =>
        (e.1, t.ctx.conv.combine k.toNat (t.ctx.conv.source e.2) (t.ctx.conv.source e'.2))) →
      exec (.finter d a b k) s = .next (went s
        (t.charged ((t.ctx.fAt a.toNat).length + (t.ctx.fAt b.toNat).length + out.length - 16))
        ((t.ctx.putF d (out.map fun e => (e.1, BitVec.ofNat 32 e.2.1))).flag (out.foldl (fun f e => f ||| e.2.2) 0)).next (opened s t))) ∧
  (∀ (s : State) (t : Thread) (d a b : BitVec 6) (k : BitVec 3) (ia ib oc : Nat) (m : Fibre × Flags × List Fibre) (w : Word),
      Quiet s t → partFib t.part ≠ 0 → t.ctx.joins = true → t.ctx.passes 2 →
      (ia = if t.ctx.goingOn then field 11 0 t.ctx.fprog.toNat else 0) →
      (ib = if t.ctx.goingOn then field 23 12 t.ctx.fprog.toNat else 0) →
      (oc = if t.ctx.goingOn then field 60 48 t.ctx.fprog.toNat else 0) → ia ≤ (t.ctx.fAt a.toNat).length →
      ib ≤ (t.ctx.fAt b.toNat).length →
      m = mergePass t.ctx.conv k.toNat (fcapOf t.part) [(t.ctx.fAt a.toNat).drop ia, (t.ctx.fAt b.toNat).drop ib] →
      (w = if m.2.2.all (·.isEmpty) then 0 else
        progress 2 ((oc + fcapOf t.part) % 2 ^ 13 * 2 ^ 48 + ((t.ctx.fAt b.toNat).length - (m.2.2.getD 1 []).length) * 2 ^ 12
          + ((t.ctx.fAt a.toNat).length - (m.2.2.getD 0 []).length))) →
      exec (.funion d a b k) s = .next (went s
        (t.charged (passPairs [(t.ctx.fAt a.toNat, ia), (t.ctx.fAt b.toNat, ib)] m - 16))
        ({ (t.ctx.putF d m.1).flag m.2.1 with fprog := w } : Ctx).next (opened s t))) ∧
  (∀ (s : State) (t : Thread) (d a b : BitVec 6) (k : BitVec 3) (n oc : Nat) (cur : Nat → Nat) (ins : List (Fibre × Nat)) (m : Fibre × Flags × List Fibre) (w : Word),
      Quiet s t → partFib t.part ≠ 0 → t.ctx.joins = true → t.ctx.passes 3 → n = b.toNat - a.toNat + 1 →
      (cur = fun j => if t.ctx.goingOn then field (12 * j + 11) (12 * j) t.ctx.fprog.toNat else 0) →
      (oc = if t.ctx.goingOn then field 60 48 t.ctx.fprog.toNat else 0) →
      (ins = ((List.range n).map fun j => t.ctx.fAt (a + BitVec.ofNat 6 j).toNat).zip ((List.range n).map cur)) →
      (∀ e ∈ ins, e.2 ≤ e.1.length) → (∀ j, n ≤ j → j < 4 → cur j = 0) →
      (m = mergePass t.ctx.conv k.toNat (fcapOf t.part) (ins.map fun e => e.1.drop e.2)) →
      (w = if m.2.2.all (·.isEmpty) then 0 else
        progress 3 ((oc + fcapOf t.part) % 2 ^ 13 * 2 ^ 48
          + ((ins.zip m.2.2).map fun e => e.1.1.length - e.2.length).foldr (fun c acc => c + acc * 2 ^ 12) 0)) →
      exec (.fmerge d a b k) s = .next (went s (t.charged (passPairs ins m - 16))
        ({ (t.ctx.putF d m.1).flag m.2.1 with fprog := w } : Ctx).next (opened s t))) ∧
  (∀ (s : State) (t : Thread) (d a b : BitVec 6) (c : Bool) (i oc : Nat) (es : List Nat) (w : Word),
      VecQuiet s t → partFib t.part ≠ 0 → t.denseReady = true → t.ctx.passes 4 →
      (i = if t.ctx.goingOn then field 15 0 t.ctx.fprog.toNat else 0) →
      (oc = if t.ctx.goingOn then field 31 16 t.ctx.fprog.toNat else 0) → i ≤ t.ctx.vl →
      (es = t.ctx.active.filter fun e => i ≤ e && (t.ctx.pAt b.toNat).getLsbD e) →
      (w = match es.drop (fcapOf t.part) with
        | [] => 0
        | e :: _ => progress 4 ((oc + fcapOf t.part) % 2 ^ 16 * 2 ^ 16 + e)) →
      exec (.fcompact d a b c) s = .next (went s (t.charged ((es.take (fcapOf t.part)).length - 16))
        ({ t.ctx.putF d ((es.take (fcapOf t.part)).map fun e =>
          (BitVec.ofNat 32 e, BitVec.ofNat 32 (getElem (t.ctx.vAt a) e t.ctx.sw))) with fprog := w } : Ctx).next (opened s t))) ∧
  (∀ (s : State) (t : Thread) (d a : BitVec 6),
      VecQuiet s t → partFib t.part ≠ 0 → t.denseReady = true →
      exec (.fexpand d a) s = .next (went s (t.charged ((t.ctx.fAt a.toNat).length - 16))
        (t.ctx.putV d (fill (t.ctx.vAt d) t.ctx.sw (t.ctx.active.map fun i =>
          (i, match (t.ctx.fAt a.toNat).find? (·.1.toNat == i) with | some e => e.2.toNat % 2 ^ t.ctx.sw | none => 0)))).next
        (opened s t))) ∧
  (∀ (s : State) (t : Thread) (d a : BitVec 6),
      Quiet s t → partFib t.part ≠ 0 →
      exec (.flen d a) s = .next (wrote s t (t.ctx.put d (BitVec.ofNat 64 (t.ctx.fAt a.toNat).length)))) ∧
  (∀ (s : State) (t : Thread) (d : BitVec 6),
      Quiet s t → partFib t.part ≠ 0 →
      exec (.fclr d) s = .next (wrote s t (t.ctx.putF d []))) ∧
  (∀ (s : State) (t : Thread) (d a : BitVec 6),
      Quiet s t → partFib t.part ≠ 0 →
      exec (.fcopy d a) s = .next (went s (t.charged (2 * (t.ctx.fAt a.toNat).length - 16))
        (t.ctx.putF d (t.ctx.fAt a.toNat)).next (opened s t))) ∧
  (∀ (s : State) (t : Thread) (d a : BitVec 6) (x : Instr),
      Quiet s t → partFib t.part = 0 → x ∈ [.flen d a, .fclr d, .fcopy d a] →
      exec x s = .next ((atBody s t).takeTrap { code := 1, sub := 0, val := s.fetched.setWidth 64 }))

/-- mattach grants rows, mdetach gives them back, and tile operations enter the chunk with what they read, to be performed
after its commit (R152, R153, R155, R160, R162, R163, R164, R165, R166, R168, R169, 07_matrix_unit.md). -/
def Obligations.TileOperations : Prop :=
  (∀ (s : State) (t : Thread) (d a : BitVec 6) (g : Nat),
      Idle s t → attachOk (t.ctx.xAt a) = true → t.mgrant = 0 →
      g = s.grantFor t (attachMost (t.ctx.xAt a)) (attachLeast (t.ctx.xAt a)) (2 ^ attachCode (t.ctx.xAt a)) →
      exec (.mattach d a) s = .next (settled s { t.past with
        tiles := if g = 0 then t.tiles else 2 ^ attachCode (t.ctx.xAt a), rows := if g = 0 then t.rows else [], mgrant := g,
        ctx := (t.ctx.put d (BitVec.ofNat 64 g)).next } [])) ∧
  (∀ (s : State) (t : Thread),
      Idle s t → t.tileQueue = [] →
      exec .mdetach s = .next (settled s { t.past.detach with ctx := t.ctx.next } [])) ∧
  (∀ (s : State) (t : Thread) (d a : BitVec 6),
      Quiet s t →
      (field 63 10 (t.ctx.xAt a).toNat == 0 && !(t.ctx.xAt a).getLsbD 2
        && !(mmBsep (t.ctx.xAt a) && 21 ≤ mmBtype (t.ctx.xAt a))) = true →
      exec (.mmode d a) s = .next (wrote s t { t.ctx.put d t.ctx.mmode with mmode := t.ctx.xAt a })) ∧
  (∀ (s : State) (t : Thread) (k : BitVec 2),
      Quiet s t → t.hasTile k = true →
      exec (.mzero k) s = .next (went s t t.ctx.next ((opened s t).queued (.zero k.toNat)))) ∧
  (∀ (s : State) (t : Thread) (k : BitVec 2) (a b : BitVec 6) (c : Bool) (w : Word),
      VecQuiet s t → t.hasTile k = true → w = t.ctx.xAt b → moveOk w false t.tileHeight = true →
      moveN w * 256 ≤ t.vlmax →
      exec (.mldaV k a b c) s = .next (went s t t.ctx.next ((opened s t).queued (.load k.toNat (moveRow0 w)
        ((List.range (moveN w)).map fun i => (t.ctx.vAt a).extractLsb' (i * 8192) 8192))))) ∧
  (∀ (s : State) (t : Thread) (k : BitVec 2) (a b : BitVec 6) (w v : Word) (xs : List Nat) (s' : State) (k' : Chunk),
      Ready s t → Calm s t → Free s t → t.hasTile k = true → w = t.ctx.xAt b → moveOk w false t.tileHeight = true →
      v = t.ctx.xAt a → spanOk v = true → (∀ i < moveN w, t.scratchFits s (spanBase v + i * spanPitch v) 1024) →
      (t.scratchAll ((List.range (moveN w)).map fun i => (spanBase v + i * spanPitch v, 1024)) s (opened s t) = some (xs, s', k')) →
      k'.counted.goesOn t.limit = true →
      exec (.mldaS k a b) s = .next (went s' t t.ctx.next (k'.queued (.load k.toNat (moveRow0 w) (xs.map (BitVec.ofNat 8192 ·)))))) ∧
  (∀ (s : State) (t : Thread) (k : BitVec 2) (a b : BitVec 6) (w : Word),
      VecQuiet s t → t.tilesDone = true → t.hasTile k = true → w = t.ctx.xAt b → moveOk w false t.tileHeight = true →
      moveN w * 256 ≤ t.vlmax →
      exec (.mstaV k a b) s = .next (wrote s t (t.ctx.putV a (fill (t.ctx.vAt a) 32 ((List.range (moveN w * 256)).map fun q =>
        (q, rowCode (t.row (k.toNat * t.tileHeight + moveRow0 w + q / 256)) (q % 256))))))) ∧
  (∀ (s : State) (t : Thread) (k : BitVec 2) (a b : BitVec 6) (w v : Word),
      Ready s t → Calm s t → t.hasTile k = true → w = t.ctx.xAt b → moveOk w true t.tileHeight = true →
      v = t.ctx.xAt a → spanOk v = true → (∀ i < moveN w, t.scratchFits s (spanBase v + i * spanPitch v) 1024) →
      (moveN w ≤ 1 ∨ 1024 ≤ spanPitch v) → (opened s t).counted.goesOn t.limit = true →
      exec (.mstaS k a b) s = .next (went { s with nextId := s.nextId + 1 } (t.tagged (moveTag w)) t.ctx.next
        (((opened s t).issued (moveTag w)).queued (.drain k.toNat (moveRow0 w) (moveN w)
          { id := s.nextId, tid := t.tid, parcel := t.parcel, crew := crewOf t.coreNum, base := spanBase v, pitch := spanPitch v,
            tag := moveTag w, rows := [], done := [] })))) ∧
  (∀ (s : State) (t : Thread) (pm : BitVec 4) (k : BitVec 2) (x y : BitVec 6) (c g : Bool) (e : Instr × MopArg × MopArg) (m : MopType) (na nb : Nat) (xs ys : List Nat) (s1 s2 : State) (k1 k2 : Chunk),
      Ready s t → Calm s t → Free s t →
      e ∈ [(.mopVv pm k x y c g, .v x, .v y), (.mopSv pm k x y g, .s x, .v y), (.mopSs pm k x y, .s x, .s y)] →
      t.mopReady s pm k e.2.1 e.2.2 m na nb →
      t.argCodes e.2.1 (typeWidth t.ctx.fmt m.ta) na s (opened s t) = some (xs, s1, k1) →
      t.argCodes e.2.2 (typeWidth t.ctx.fmt m.tb) nb s1 k1 = some (ys, s2, k2) → k2.counted.goesOn t.limit = true →
      exec e.1 s = .next (went s2 t t.ctx.next (k2.queued (.mop k.toNat m.g (t.argValues e.2.1 m.ta (typeWidth t.ctx.fmt m.ta) xs)
        (t.argValues e.2.2 m.tb (typeWidth t.ctx.fmt m.tb) ys) (if pm = 0 then none else some (t.ctx.pAt pm.toNat)) m.kind)))) ∧
  (∀ (s : State) (t : Thread) (d a b : BitVec 6) (c : Bool) (val : Nat → Val) (kept : List Nat),
      VecQuiet s t → modeGuard t.ctx.mode = 0 → t.ctx.sw ≤ 32 → modeScale t.ctx.mode = 0 → t.ctx.vl % 8 = 0 →
      t.vlFits t.ctx.sw = true →
      (val = fun i => operandValue t.ctx.fmt (modeStype t.ctx.mode) t.ctx.sw (getElem (t.ctx.vAt a) i t.ctx.sw) none) →
      (kept = (List.range (t.ctx.vl / 8)).flatMap fun g => keepFour val (8 * g)) →
      exec (.mprune d a b c) s = .next (wrote s t ((t.ctx.putV d (fill (t.ctx.vAt d) t.ctx.sw
        ((List.range kept.length).zip (kept.map fun i => getElem (t.ctx.vAt a) i t.ctx.sw)))).putPred b kept))) ∧
  (∀ (t : Thread) (k H : Nat),
      sortedFrom 0 t.rows = true → H = t.mgrant / t.tiles →
      ∃ rs, performTile t (.zero k) = (({ t with rows := rs } : Thread).cleanRows k 0 H, none) ∧
      ∀ j, tget 0 j rs = if k * H ≤ j ∧ j < k * H + H then 0 else t.row j) ∧
  (∀ (t : Thread) (k row0 H : Nat) (rows : List Row),
      sortedFrom 0 t.rows = true → H = t.mgrant / t.tiles →
      ∃ rs, performTile t (.load k row0 rows) = (({ t with rows := rs } : Thread).cleanRows k row0 rows.length, none) ∧
      ∀ j, tget 0 j rs = if k * H + row0 ≤ j ∧ j < k * H + row0 + rows.length then rows.getD (j - (k * H + row0)) 0 else t.row j) ∧
  (∀ (t : Thread) (k g H : Nat) (a b : Array Val) (keep : Option PReg) (kind : MopKind) (es : Nat → List Entered),
      sortedFrom 0 t.rows = true → H = t.mgrant / t.tiles →
      (es = fun r => mopRow g a b keep kind r (t.row (k * H + r))) →
      ∃ rs, performTile t (.mop k g a b keep kind) =
        (t.entered rs ((List.range H).flatMap es), none) ∧
      ∀ j, tget 0 j rs = if k * H ≤ j ∧ j < k * H + H then rowOf ((es (j - k * H)).map (·.code)) else t.row j) ∧
  (∀ (t : Thread) (k row0 n H : Nat) (d : Drain),
      H = t.mgrant / t.tiles →
      performTile t (.drain k row0 n d) =
      (t, some { d with rows := (List.range n).map fun i => (t.row (k * H + row0 + i), t.rowPoison k (row0 + i)) })) ∧
  (∀ (l : List Nat),
      ∀ (c : Nat), c < 256 → rowCode (rowOf l) c = (l.getD c 0) % 2 ^ 32) ∧
  (∀ (g : Nat) (a b : Array Val) (keep : Option PReg) (kind : MopKind) (r : Nat) (row : Row) (c : Nat),
      c < 256 →
      (mopRow g a b keep kind r row)[c]? = some (enterGroup kind (rowCode row c)
      ((keptOf g r keep).map fun k => (a.getD k.2 (.nan true), b.getD (k.1 * 256 + c) (.nan true))))) ∧
  (∀ (g r : Nat) (p : PReg) (ks : List Nat),
      (ks = (List.range g).filter fun k => p.getLsbD (r * g + k)) →
      keptOf g r none = (List.range g).map (fun k => (k, r * g + k)) ∧ keptOf g r (some p) = ks.zip ((List.range ks.length).map (· + r * (g / 2)))) ∧
  (∀ (acc : Nat) (ps : List (Val × Val)) (p : Val × Val) (e : Entered) (r : Rounded),
      e = enterFused acc ps → r = fp32.fma 0 false 0 p.1 p.2 (fp32.value e.code) →
      enterFused acc [] = { code := acc, flags := 0, msat := false } ∧
      enterFused acc (ps ++ [p]) = { code := r.1, flags := e.flags ||| r.2, msat := e.msat }) ∧
  (∀ (ps : List Val) (emax : Int) (sticky : Bool),
      (∀ v ∈ ps, ∃ s m e, v = .fin s m e) → (∃ v ∈ ps, v.isZero = false) → (∃ v ∈ ps, (2 : ℝ) ^ emax ≤ |v.real|) →
      (∀ v ∈ ps, |v.real| < (2 : ℝ) ^ (emax + 1)) → (sticky = true ↔ ∃ v ∈ ps, windowCut emax v.real ≠ v.real) →
      ∃ neg m e, (Val.fin neg m e).real = windowTotal emax (ps.map Val.real) sticky ∧
      ∀ q, q = fp32.round 0 false 0 (.fin neg m e) → windowSum ps = (fp32.value q.1, q.2 ||| (if sticky then fNX else 0))) ∧
  (∀ (ps : List Val),
      ((ps.any (·.isNan)) = true ∨ (.inf false ∈ ps ∧ .inf true ∈ ps) → windowSum ps = (.nan false, fNV)) ∧
      (∀ b, (ps.any (·.isNan)) = false → .inf b ∈ ps → .inf (!b) ∉ ps → windowSum ps = (.inf b, 0)) ∧
      ((∀ v ∈ ps, v.isZero = true) → windowSum ps = (.fin (ps.all (·.negative)) 0 0, 0))) ∧
  (∀ (acc : Nat) (ps : List (Val × Val)) (q : Val × Flags) (r : Rounded),
      (q = windowSum (ps.map fun p => (p.1.mul p.2).1)) → r = roundVal fp32 0 false 0 ((fp32.value acc).add 0 q.1) →
      enterWindow acc ps = { code := r.1, flags := q.2 ||| r.2, msat := false }) ∧
  (  windowSum [.fin false 1 10, .fin true 1 10, .fin false 1 (-50)] = (fp32.value (81 * 2 ^ 23), fNX)) ∧
  (∀ (vs : List Val),
      ∃ neg m e, (Val.fin neg m e).real = (vs.map Val.real).sum ∧ sumInt vs = (roundInt 0 0 neg m e).1) ∧
  (∀ (sat : Bool) (acc : Nat) (ps : List (Val × Val)) (vs : List Val) (x : Int),
      (vs = ps.map fun p => (p.1.mul p.2).1) → x = intValue 2 32 acc + sumInt vs →
      enterInt sat acc ps =
      { code := narrow sat 2 32 x, flags := 0, msat := (vs.any (·.isNan)) || (sat && (x < -2 ^ 31 || 2 ^ 31 - 1 < x)) })

/-- cpy and cpym check record and plats and enter the copy with the strip granted; smode and sstop open and end a stream
(R215, R216, R217, R218, R221, R224, R230, R231, R232, 10_copies_streams_completion.md). -/
def Obligations.Copies : Prop :=
  (∀ (s : State) (t : Thread) (own : Bool) (d a b : BitVec 6) (va req : Word) (o : Nat) (sp dp : Plat) (sbase dbase : Word) (bar : Option Nat) (s1 s2 s3 s4 : State) (k1 k2 k3 k4 : Chunk),
      Ready s t → Calm s t → Free s t → va = t.ctx.xAt a → req = t.ctx.xAt b →
      CopyTakes false va req o sp dp sbase dbase → t.reads (readRec va.toNat 128) s (opened s t) o s1 k1 →
      t.reads (readLocal false (copySplat o)) s1 k1 (sp, sbase) s2 k2 →
      t.reads (readLocal true (copyDplat o)) s2 k2 (dp, dbase) s3 k3 →
      t.reads (copyBarrier (copyBar o)) s3 k3 bar s4 k4 → s4.copyEntry t.coreNum t.tid = some own →
      (k4.issued (copyTag req)).counted.goesOn t.limit = true →
      exec (.cpy d a b) s = .next (went { s4 with nextId := s4.nextId + 1, copies := s4.copies ++
          [copyIssued s4 t false own o req sp dp sbase dbase bar] } (t.tagged (copyTag req))
        { t.ctx.put d (BitVec.ofNat 64 (copyGrant s4 t.coreNum o sp.rank req)) with vl := copyGrant s4 t.coreNum o sp.rank req }.next
        (k4.issued (copyTag req)))) ∧
  (∀ (s : State) (t : Thread) (own : Bool) (d a b : BitVec 6) (va req : Word) (o : Nat) (sp dp : Plat) (sbase dbase : Word) (bar : Option Nat) (s1 s2 s3 s4 : State) (k1 k2 k3 k4 : Chunk),
      Ready s t → Calm s t → Free s t → va = t.ctx.xAt a → req = t.ctx.xAt b →
      CopyTakes true va req o sp dp sbase dbase → t.reads (readRec va.toNat 128) s (opened s t) o s1 k1 →
      t.reads (readLocal false (copySplat o)) s1 k1 (sp, sbase) s2 k2 →
      t.reads (readLocal true (copyDplat o)) s2 k2 (dp, dbase) s3 k3 →
      t.reads (copyBarrier (copyBar o)) s3 k3 bar s4 k4 → standCount s4 t.tid (copyStand req) ≠ 0 →
      s4.copyEntry t.coreNum t.tid = some own → (k4.issued (copyTag req)).counted.goesOn t.limit = true →
      exec (.cpym d a b) s = .next (went { s4 with nextId := s4.nextId + 1, copies := s4.copies ++
          [copyIssued s4 t true own o req sp dp sbase dbase bar] } (t.tagged (copyTag req))
        { t.ctx.put d (BitVec.ofNat 64 (copyGrant s4 t.coreNum o sp.rank req)) with vl := copyGrant s4 t.coreNum o sp.rank req }.next
        (k4.issued (copyTag req)))) ∧
  (∀ (s : State) (t : Thread) (d a : BitVec 6) (n : Nat) (va : Word) (o : Nat) (s1 : State) (k1 : Chunk) (p : Stream),
      Ready s t → Calm s t → Free s t → n = t.ctx.phys d.toNat → 56 ≤ n → va = t.ctx.xAt a → va.toNat % 64 = 0 →
      t.reads (readRec va.toNat 64) s (opened s t) o s1 k1 →
      p = Stream.decode s1.nextId (typeWidth t.ctx.fmt (field 324 320 o)) t.ctx.priv o →
      streamTaken t.ctx.fmt p o = true → k1.counted.goesOn t.limit = true →
      exec (.smode d a) s = .next (went { s1 with nextId := s1.nextId + 1 } { t with refill := tdrop n t.refill }
        { t.ctx with streams := tput n p t.ctx.streams }.next k1)) ∧
  (∀ (s : State) (t : Thread) (d : BitVec 6) (n : Nat),
      Quiet s t → n = t.ctx.phys d.toNat → (tfind n t.ctx.streams).isSome = true →
      exec (.sstop d) s = .next (went s { t with refill := tdrop n t.refill }
        { t.ctx.setV n 0 with streams := tdrop n t.ctx.streams }.next (opened s t)))

/-- Waits and tests of tags read ctags, and the barrier instructions act on the barrier's 16 bytes through the chunk (R222,
R223, R224, R225, R226, R227, R228, 10_copies_streams_completion.md). -/
def Obligations.TagsAndBarriers : Prop :=
  (∀ (s : State) (t : Thread) (d a : BitVec 6) (m : Word),
      Quiet s t → Opening s t → m = t.ctx.xAt a → m ≠ 0 → t.tagsClear m = true → t.ctags &&& m ≠ 0 →
      exec (.twaitAny d a) s = .next (wrote s t (t.ctx.put d (t.ctags &&& m)))) ∧
  (∀ (s : State) (t : Thread) (d a : BitVec 6) (m : Word),
      Quiet s t → Opening s t → m = t.ctx.xAt a → t.tagsClear m = true → t.ctags &&& m = m →
      exec (.twaitAll d a) s = .next (wrote s t (t.ctx.put d (t.ctags &&& m)))) ∧
  (∀ (s : State) (t : Thread) (d a : BitVec 6) (m : Word),
      Quiet s t → m = t.ctx.xAt a → t.tagsClear m = true →
      exec (.tffr d a) s = .next (wrote s t (t.ctx.put d
        (BitVec.ofNat 64 (((List.range 64).find? (t.ctags &&& m).getLsbD).getD 64))))) ∧
  (∀ (s : State) (t : Thread) (a b : BitVec 6) (va m : Word) (l : Nat) (s1 : State) (k1 : Chunk),
      Ready s t → Calm s t → Free s t → va = t.ctx.xAt a → m = t.ctx.xAt b →
      t.reads (barPlace .amo va) s (opened s t) l s1 k1 → m.toNat < 2 ^ 16 → m ≠ 0 →
      (((k1.marked (l / 128)).store (writesOf l (bytesOfNat (barNew m.toNat) 16))).counted.goesOn t.limit) = true →
      exec (.barinit a b) s = .next (went s1 t t.ctx.next ((k1.marked (l / 128)).store (writesOf l (bytesOfNat (barNew m.toNat) 16))))) ∧
  (∀ (s : State) (t : Thread) (a b : BitVec 6) (va n : Word) (l o : Nat) (s1 s2 : State) (k1 k2 : Chunk) (x : Nat),
      Ready s t → Calm s t → Free s t → va = t.ctx.xAt a → n = t.ctx.xAt b →
      t.reads (barPlace .amo va) s (opened s t) l s1 k1 → n.toNat < 2 ^ 47 → t.reads (readBar va l) s1 k1 o s2 k2 →
      x = barBalance o (sextNat o 64 + n.toNat) →
      ((k2.store (writesOf l (bytesOfNat x 16))).counted.goesOn t.limit) = true →
      exec (.barexp a b) s = .next (went s2 t t.ctx.next (k2.store (writesOf l (bytesOfNat x 16))))) ∧
  (∀ (s : State) (t : Thread) (d a : BitVec 6) (va : Word) (l o : Nat) (s1 s2 : State) (k1 k2 : Chunk) (x : Nat),
      Ready s t → Calm s t → Free s t → va = t.ctx.xAt a → t.reads (barPlace .amo va) s (opened s t) l s1 k1 →
      t.reads (readBar va l) s1 k1 o s2 k2 → 0 < barOwed o → x = barBalance o (sextNat o 64 - 2 ^ 48) →
      ((k2.store (writesOf l (bytesOfNat x 16))).counted.goesOn t.limit) = true →
      exec (.bararr d a) s = .next (went s2 t (t.ctx.put d (BitVec.ofNat 64 (barRound o))).next
        (k2.store (writesOf l (bytesOfNat x 16))))) ∧
  (∀ (s : State) (t : Thread) (d a b : BitVec 6) (va v : Word) (l o : Nat) (s1 s2 : State) (k1 k2 : Chunk),
      Ready s t → Calm s t → Free s t → Opening s t → va = t.ctx.xAt a → v = t.ctx.xAt b →
      t.reads (barPlace .load va) s (opened s t) l s1 k1 → t.reads (readBar va l) s1 k1 o s2 k2 →
      barRound o ≠ v.toNat % 2 ^ 16 → k2.counted.goesOn t.limit = true →
      exec (.barwait d a b) s = .next (went s2 t (t.ctx.put d (BitVec.ofNat 64 (field 127 102 o * 2 ^ 16 + barRound o))).next k2))

/-- The region, range and partition instructions act alone, as one unit of the order, on the executing die or core (R237,
R238, R239, R240, R241, R242, R247, R248, 11_where_data_lives.md). -/
def Obligations.Regions : Prop :=
  (∀ (s : State) (t : Thread) (a b : BitVec 6) (ps : List (Access × Nat)) (s1 : State) (k1 : Chunk) (ls : List Nat) (s2 : State),
      Idle s t → Free s t → t.reads (rangePages .load false (t.ctx.xAt a) (t.ctx.xAt b)) s (opened s t) ps s1 k1 →
      ls = deviceLines ps → s1.held (some t.tid) (ls ++ viewLines t.die ls) = false → s2 = s1.settleCopies t.die ls →
      exec (.rwb a b) s = .next (settled ((ls.filter (s2.hasCopy t.die)).foldl (fun s l => s.writeBack t.die l false) s2)
        { t.past with ctx := t.ctx.next } k1.reads)) ∧
  (∀ (s : State) (t : Thread) (a b : BitVec 6) (ps : List (Access × Nat)) (s1 : State) (k1 : Chunk) (ls : List Nat) (s2 : State),
      Idle s t → Free s t → t.reads (rangePages .load false (t.ctx.xAt a) (t.ctx.xAt b)) s (opened s t) ps s1 k1 →
      ls = deviceLines ps → s1.held (some t.tid) (ls ++ viewLines t.die ls) = false → s2 = s1.settleCopies t.die ls →
      exec (.rinv a b) s = .next (settled ((ls.filter (s2.hasCopy t.die)).foldl
        (fun s l => (s.squashView t.die l).writeBack t.die l true) s2) { t.past with ctx := t.ctx.next } k1.reads)) ∧
  (∀ (s : State) (t : Thread) (d a : BitVec 6) (va : Word) (p : Plat) (base : Word) (s1 : State) (k1 : Chunk) (first last : Nat) (own : List Region) (num : Nat),
      Idle s t → Free s t → va = t.ctx.xAt a → t.reads (readLocal false va) s (opened s t) (p, base) s1 k1 →
      p.ranks = 1 → p.spanEnd base < 2 ^ 55 → first = base.toNat / 128 → last = p.spanEnd base / 128 →
      own = (s1.regionsOf t.die).filter (·.parcel == t.parcel) → own.all (fun r => !r.meets first last) = true →
      own.length < (s1.parcel t.parcel).rquota →
      s1.pins (some t.tid) (spanUser t.tid t.die t.parcel first last) = false → num = lowestFree (own.map (·.num)) →
      exec (.rgndecl d a) s = .next (settled ((s1.squashSpan t.tid t.die t.parcel first last).setRegions t.die
          ({ tid := t.tid, parcel := t.parcel, num := num, first := first, last := last } ::
            (s1.squashSpan t.tid t.die t.parcel first last).regionsOf t.die))
        { t.past with ctx := (t.ctx.put d (BitVec.ofNat 64 num)).next } k1.reads)) ∧
  (∀ (s : State) (t : Thread) (a : BitVec 6) (r : Region) (ls : List Nat) (s1 : State),
      Idle s t → Free s t →
      (((s.regionsOf t.die).find? fun r => r.parcel == t.parcel && r.num == (t.ctx.xAt a).toNat) = some r) →
      ls = s.regionCopies t.die t.parcel r.num → s.held (some t.tid) (ls ++ viewLines t.die ls) = false →
      s.pins (some t.tid) (spanUser t.tid t.die t.parcel r.first r.last) = false →
      (s1 = (ls.foldl (fun s l => (s.squashView t.die l).writeBack t.die l true)
        (s.settle fun w => w.die == t.die)).squashSpan t.tid t.die t.parcel r.first r.last) →
      exec (.rgnfree a) s = .next (settled (s1.setRegions t.die ((s1.regionsOf t.die).filter (· != r))) { t.past with ctx := t.ctx.next } [])) ∧
  (∀ (s : State) (t : Thread) (d a : BitVec 6) (l : Nat) (part : BitVec 32) (new lo hi : Nat) (s1 : State),
      Idle s t → Free s t → l = (t.ctx.xAt a).toNat → part = (s.core t.coreNum).part → 4 ≤ l →
      l ≤ partL1 part + partScr part → new = partL1 part + partScr part - l → lo = min (partScr part) new * 65536 →
      hi = max (partScr part) new * 65536 → s.pins (some t.tid) (portionUser t.coreNum lo hi) = false →
      s1 = s.wipeScratch t.coreNum lo hi →
      exec (.cways d a) s = .next (settled (s1.setCore t.coreNum { s1.core t.coreNum with part := partSplit part l new })
        { t.past with ctx := (t.ctx.put d (BitVec.ofNat 64 (partL1 part))).next } [])) ∧
  (∀ (s : State) (t : Thread) (a b : BitVec 6) (ps : List (Access × Nat)) (s1 : State) (k1 : Chunk) (ls : List Nat),
      Idle s t → Free s t → t.reads (rangePages .store true (t.ctx.xAt a) (t.ctx.xAt b)) s (opened s t) ps s1 k1 →
      ls = deviceLines ps → s1.held (some t.tid) (ls ++ viewLines t.die ls) = false →
      exec (.dead a b) s = .next (settled (s1.kill (some t.tid) (some t.die) ls) { t.past with ctx := t.ctx.next } k1.reads)) ∧
  (∀ (s : State) (t : Thread) (a b : BitVec 6) (ps : List (Access × Nat)) (s1 : State) (k1 : Chunk),
      Idle s t → Free s t → t.reads (rangePages .store true (t.ctx.xAt a) (t.ctx.xAt b)) s (opened s t) ps s1 k1 →
      exec (.live a b) s = .next (settled ((distinct ((deviceLines ps).map (· / 32))).foldl State.revive s1)
        { t.past with ctx := t.ctx.next } k1.reads))

/-- launch numbers a new launch in its chunk, texit and tyield commit and leave, and the stand instructions count arrivals
and phases (R252, R254, R256, R257, R258, R259, R267, 12_threads_stands_scheduling.md). -/
def Obligations.ThreadsAndStands : Prop :=
  (∀ (s : State) (t : Thread) (d a : BitVec 6) (va : Word) (o : Nat) (members : List Marks) (s1 s2 : State) (k1 k2 : Chunk),
      Ready s t → Free s t → Calm s t → va = t.ctx.xAt a → va.toNat % 64 = 0 →
      t.reads (readRec va.toNat 64) s (opened s t) o s1 k1 →
      t.reads (readStands (launchTable o).toNat (launchCount o) (field 25 17 o)) s1 k1 members s2 k2 →
      LaunchTakes s2 t o members → s2.queued t.parcel + k2.launches.length < 4096 →
      (k2.launching s2.nextLaunch (launchIssued s2 t o members)).counted.goesOn t.limit = true →
      exec (.launch d a) s = .next (went { s2 with nextLaunch := s2.nextLaunch + 1 } t
        (t.ctx.put d (BitVec.ofNat 64 s2.nextLaunch)).next (k2.launching s2.nextLaunch (launchIssued s2 t o members)))) ∧
  (∀ (s : State) (t : Thread) (k : Chunk) (s' : State) (u : Thread),
      Ready s t → t.replies = [] → k = opened s t → k.explicit = false → t.tagsClear (~~~0) = true → k.fabricOut = [] →
      k.tileOps = [] → s.fabric.any (·.isOf t.tid) = false → t.tileQueue = [] → t.pending = none →
      s.commit { t.past with ctx := t.ctx.next, chunk := some { k.counted with exits := true, ended := true } } = some (s', u) →
      exec .texit s = .next ((s'.setThread u).removeThread u.tid)) ∧
  (∀ (s : State) (t : Thread) (k : Chunk) (s' : State) (u : Thread),
      Ready s t → t.replies = [] → k = opened s t → k.explicit = false → k.exits = false → k.tileOps = [] →
      t.tileQueue = [] →
      s.commit { t.past with ctx := t.ctx.next, chunk := some { k.counted with yields := true, ended := true } } = some (s', u) →
      exec .tyield s = .next (s'.yield u)) ∧
  (∀ (s : State) (t : Thread) (d a : BitVec 6) (j : Nat) (st : Stand) (k : Chunk),
      Ready s t → Free s t → Calm s t → j = (t.ctx.xAt a).toNat → StandIs s t j st →
      t.hasArrived (opened s t) j st = false →
      k = { (opened s t).marked (standLine (launchOf t.tid) j) with arrivals := (opened s t).arrivals ++ [j] } →
      k.counted.goesOn t.limit = true →
      exec (.sarrive d a) s = .next (went s t (t.ctx.put d (BitVec.ofNat 64 st.phase)).next k)) ∧
  (∀ (s : State) (t : Thread) (d a : BitVec 6) (j : Nat) (st : Stand),
      Ready s t → Free s t → Calm s t → j = (t.ctx.xAt a).toNat → StandIs s t j st →
      ((opened s t).marked (standLine (launchOf t.tid) j)).counted.goesOn t.limit = true →
      exec (.stest d a) s = .next (went s t
        (t.ctx.put d (BitVec.ofNat 64 (st.phase + (if t.hasArrived (opened s t) j st then 2 ^ 16 else 0)))).next
        ((opened s t).marked (standLine (launchOf t.tid) j)))) ∧
  (∀ (s : State) (t : Thread) (d a b : BitVec 6) (j : Nat) (st : Stand),
      Ready s t → Free s t → Calm s t → Opening s t → j = (t.ctx.xAt a).toNat → StandIs s t j st →
      st.phase ≠ (t.ctx.xAt b).toNat % 2 ^ 16 →
      ((opened s t).marked (standLine (launchOf t.tid) j)).counted.goesOn t.limit = true →
      exec (.swait d a b) s = .next (went s t (t.ctx.put d (BitVec.ofNat 64 st.phase)).next
        ((opened s t).marked (standLine (launchOf t.tid) j)))) ∧
  (∀ (s : State) (t : Thread) (d a : BitVec 6) (j : Nat) (st st' : Stand) (s1 : State),
      Idle s t → Opening s t → j = (t.ctx.xAt a).toNat → StandIs s t j st → t.hasArrived (opened s t) j st = false →
      t.arrivedIn = none → s.held (some t.tid) [standLine (launchOf t.tid) j] = false → s1 = s.arriveAt t.tid [j] →
      StandIs s1 t j st' → st'.phase ≠ st.phase →
      exec (.sbar d a) s = .next (settled s1 { t.past with ctx := (t.ctx.put d (BitVec.ofNat 64 st'.phase)).next } [])) ∧
  (∀ (s : State) (t : Thread) (d a : BitVec 6) (j ph : Nat) (st : Stand),
      Idle s t → Opening s t → j = (t.ctx.xAt a).toNat → StandIs s t j st → t.arrivedIn = some (j, ph, t.ctx.pc) →
      st.phase ≠ ph →
      exec (.sbar d a) s = .next (settled s { t.past with arrivedIn := none, ctx := (t.ctx.put d (BitVec.ofNat 64 st.phase)).next } []))

/-- bkstart and bkresume claim the parcel's slot for the derived traverse at their chunk's commit, and bkstat reports it
(R361, R362, R363, R367, R368, R369, R371, 17_bucking_engine.md). -/
def Obligations.Bucking : Prop :=
  (∀ (s : State) (t : Thread) (d a b : BitVec 6) (va req : Word) (o loc : Nat) (v : Derived) (s1 s2 s3 s4 : State) (k1 k2 k3 k4 : Chunk) (ann : Option (Nat × Nat)) (k : Chunk),
      Ready s t → Free s t → Calm s t → va = t.ctx.xAt a → req = t.ctx.xAt b → va.toNat % 128 = 0 →
      (field 63 38 req.toNat = 0 ∧ field 31 1 req.toNat = 0) → req.getLsbD 0 = false →
      t.reads (readRec va.toNat 128) s (opened s t) o s1 k1 →
      t.reads (deriveTraverse (cursorSplat o) (cursorDplat o)) s1 k1 v s2 k2 → SlotFree s2 t k2 → v.inbytes < 2 ^ 47 →
      t.reads (recPlace .store va.toNat) s2 (k2.marked (slotLine t.parcel)) loc s3 k3 →
      t.reads (announceTo (v.inbytes != 0 && v.rrec != 0) v.rrec) s3 k3 ann s4 k4 →
      k = ((((k4.announced v.inbytes ann).store (cursorWrites loc (cursorState 1 :: cursorClear ++ v.fields))).issued
        (field 37 32 req.toNat)).claiming t.parcel (claimed t v (field 37 32 req.toNat) va loc 0 0)) →
      k.counted.goesOn t.limit = true →
      exec (.bkstart d a b) s = .next (went s4 (t.tagged (field 37 32 req.toNat)) (t.ctx.put d (BitVec.ofNat 64 v.out.length)).next k)) ∧
  (∀ (s : State) (t : Thread) (d a b : BitVec 6) (va req : Word) (o loc : Nat) (v : Derived) (s1 s2 s3 : State) (k1 k2 k3 k : Chunk),
      Ready s t → Free s t → Calm s t → va = t.ctx.xAt a → req = t.ctx.xAt b → va.toNat % 128 = 0 →
      (field 63 38 req.toNat = 0 ∧ field 31 1 req.toNat = 0) → req.getLsbD 0 = true →
      t.reads (readRec va.toNat 128) s (opened s t) o s1 k1 →
      t.reads (deriveTraverse (cursorSplat o) (cursorDplat o)) s1 k1 v s2 k2 →
      t.reads (recPlace .store va.toNat) s2 k2 loc s3 k3 →
      k = k3.store (cursorWrites loc (cursorState 4 :: cursorClear ++ v.fields)) → k.counted.goesOn t.limit = true →
      exec (.bkstart d a b) s = .next (went s3 t (t.ctx.put d (BitVec.ofNat 64 v.out.length)).next k)) ∧
  (∀ (s : State) (t : Thread) (d a b : BitVec 6) (va req : Word) (o loc : Nat) (v : Derived) (s1 s2 s3 : State) (k1 k2 k3 k : Chunk),
      Ready s t → Free s t → Calm s t → va = t.ctx.xAt a → req = t.ctx.xAt b → va.toNat % 128 = 0 →
      (field 63 38 req.toNat = 0 ∧ field 31 0 req.toNat = 0) → t.reads (readRec va.toNat 128) s (opened s t) o s1 k1 →
      t.reads (deriveTraverse (cursorSplat o) (cursorDplat o)) s1 k1 v s2 k2 → resumable o v → SlotFree s2 t k2 →
      t.reads (recPlace .store va.toNat) s2 (k2.marked (slotLine t.parcel)) loc s3 k3 →
      k = (((k3.store (cursorWrites loc (cursorState 1 :: cursorClear))).issued (field 37 32 req.toNat)).claiming t.parcel
        (claimed t v (field 37 32 req.toNat) va loc (field 151 128 o) (BitVec.ofNat 64 (field 319 256 o)))) →
      k.counted.goesOn t.limit = true →
      exec (.bkresume d a b) s = .next (went s3 (t.tagged (field 37 32 req.toNat)) (t.ctx.put d (BitVec.ofNat 64
        (((List.range (v.out.length - field 151 128 o)).filter fun k => !(field 319 256 o).testBit k).length))).next k)) ∧
  (∀ (s : State) (t : Thread) (d a : BitVec 6),
      Ready s t → Free s t → Calm s t → ((opened s t).marked (slotLine t.parcel)).counted.goesOn t.limit = true →
      exec (.bkstat d a) s = .next (went s t (t.ctx.put d
        (statWord (t.ctx.xAt a) ((opened s t).traverse.or (tfind t.parcel s.traverses)))).next ((opened s t).marked (slotLine t.parcel))))

/-- The events of the device order: limits, landings, the priority ticket, persistent requests, far atomics, late loads and
traps (R176, R179, R185, R189, R277, R278, R282, R340, R345, 08_chunk_order.md). -/
def Obligations.ChunkEvents : Prop :=
  (∀ (s : State) (tid : Nat) (t : Thread) (c : Chunk),
      s.phase = .run → tfind tid s.threads = some t → t.ready = true → t.chunk = some c → c.explicit = false →
      exec (.chunkLimitEnd tid) s = .next (s.setThread { t with chunk := some { c with ended := true } })) ∧
  (∀ (s s' : State) (tid : Nat) (t u : Thread) (c : Chunk),
      s.phase = .run → tfind tid s.threads = some t → t.ready = true → t.chunk = some c → c.ended = true →
      t.pendTrap = none → s.commit t = some (s', u) → c.exits = false → c.yields = false →
      exec (.chunkCommit tid) s = .next (s'.setThread u)) ∧
  (∀ (s : State) (tid d : Nat) (t : Thread) (q : List Nat),
      s.phase = .run → tfind tid s.threads = some t → t.ready = true → t.needsTicket = true → s.ticket ≠ some tid →
      d = dieOf (t.core.getD 0) → q = s.priorityQueues[d]?.getD [] → tid ∉ q → q.length < 48 →
      exec (.priorityCommitRequest tid) s = .next { s with priorityQueues := s.priorityQueues.setIfInBounds d (q ++ [tid]) }) ∧
  (∀ (s : State),
      s.phase = .run → s.ticket = none → s.priorityQueues[s.ticketDie]?.getD [] = [] →
      exec .priorityTicketPass s = .next { s with ticketDie := (s.ticketDie + 1) % 8 }) ∧
  (∀ (s : State) (tid : Nat) (rest : List Nat),
      s.phase = .run → s.ticket = none → s.priorityQueues[s.ticketDie]?.getD [] = tid :: rest →
      exec .priorityTicketPass s = .next { s with
        ticket := some tid, priorityQueues := s.priorityQueues.setIfInBounds s.ticketDie rest }) ∧
  (∀ (s : State) (tid line die : Nat) (t : Thread),
      s.phase = .run → tfind tid s.threads = some t → s.mayPersist line t = true → die = dieOf (t.core.getD 0) →
      (s.persistent.filter (·.die == die)).length < 48 → s.persistent.contains { die, tid, line } = false →
      exec (.persistentRequest tid line) s = .next { s with
        persistent := s.persistent ++ [{ die, tid, line }]
        threads := s.threads.map fun (k, u) => (k, if k == tid then u else { u with chunk := u.chunk.map fun c =>
          if !c.explicit && !c.priority && (c.meets [line]) then { c with ended := true } else c }) }) ∧
  (∀ (s : State) (slice line core x : Nat) (rest : List (Nat × Nat × Nat)) (u : State),
      s.phase = .run → tget [] slice s.farQueues = (line, x, core) :: rest → s.farOthers slice line core rest = false →
      u = s.admitFar slice rest →
      exec (.farOpPerform slice) s = .next (u.setCore core ((u.core core).cool line))) ∧
  (∀ (s : State) (slice line core x : Nat) (rest : List (Nat × Nat × Nat)),
      s.phase = .run → tget [] slice s.farQueues = (line, x, core) :: rest → s.farOthers slice line core rest = true →
      exec (.farOpPerform slice) s = .next (s.admitFar slice rest)) ∧
  (∀ (s : State) (id : Nat) (d : Deferred),
      s.phase = .run → (((s.threads.flatMap (·.2.deferred)).find? fun d => d.id == id && viewBase ≤ d.pa) = some d) →
      exec (.deferredLoadReply id) s = .next (s.fillCopy (viewDie d.pa) (viewPa d.pa / 128))) ∧
  (∀ (s s' : State) (tid : Nat) (t u : Thread) (f : Trap),
      s.phase = .run → tfind tid s.threads = some t → t.ready = true → t.pendTrap = some (f, none) →
      s.commit { t with pendTrap := none } = some (s', u) → u.pending = none →
      exec (.trapEntry tid) s = .next (s'.enterTrap u f u.ctx.pc false false false)) ∧
  (∀ (s s' : State) (tid i : Nat) (t u : Thread) (f : Trap) (e : VpPc),
      s.phase = .run → tfind tid s.threads = some t → t.ready = true → t.pendTrap = some (f, some i) →
      s.commit { t with pendTrap := none } = some (s', u) → u.pending = none → tfind i u.ctx.vps = some e →
      exec (.trapEntry tid) s = .next (s'.enterTrap { u with ctx := { u.ctx with estart := BitVec.ofNat 64 i } } f e.pc true false false)) ∧
  (∀ (s : State) (tid : Nat) (t : Thread) (p : Pending),
      s.phase = .run → tfind tid s.threads = some t → t.ready = true → t.chunk = none → t.pending = some p →
      exec (.asyncTrap tid) s = .next (s.enterTrap { t with pending := none, failedRegs := [] } p.trap t.ctx.pc false true p.more))

/-- The dispatcher places, pre-empts and ages threads, the sequencer grants strips, and satisfied waits and ended pauses
make threads ready (R255, R263, R265, R266, R272, R273, R306, 12_threads_stands_scheduling.md,
13_progress_guarantees.md). -/
def Obligations.SchedulingEvents : Prop :=
  (∀ (s u : State) (tid : Nat) (r cores slots : List Nat) (t : Thread),
      s.phase = .run → tfind tid s.threads = some t → distinct (s.gangOf t) = distinct (tid :: r) →
      (tid :: r).length = cores.length → (tid :: r).length = slots.length → s.served (tid :: r) = true →
      ((((tid :: r).zip (cores.zip slots)).foldl
        (fun (o : Option State) (e : Nat × Nat × Nat) => o.bind fun s => s.placeOne e.1 e.2.1 e.2.2) (some s)) = some u) →
      exec (.placeThread (tid :: r) cores slots) s = .next u) ∧
  (∀ (s : State) (tid : Nat) (t : Thread),
      s.phase = .run → tfind tid s.threads = some t → t.core.isSome = true → (s.victim t || s.stray t) = true →
      (((s.gangOf t).filter fun k => (tfind k s.threads).any (·.core.isSome)).all (fun k => (tfind k s.threads).any s.takable) = true) →
      (s.hasRoom ((s.gangOf t).filter fun k => (tfind k s.threads).any (·.core.isSome)).length = true) →
      exec (.preempt tid) s = .next
        (((s.gangOf t).filter fun k => (tfind k s.threads).any (·.core.isSome)).foldl State.takeOff s)) ∧
  (∀ (s : State) (tid : Nat) (t : Thread),
      s.phase = .run → tfind tid s.threads = some t → t.state = .placementReady → t.waitSince + 2 ^ 20 < s.cycle →
      exec (.placementAging tid) s = .next (s.setThread { t with aged := true })) ∧
  (∀ (s : State) (tid : Nat) (t : Thread) (w : Wait),
      s.phase = .run → tfind tid s.threads = some t → t.core.isSome = true → t.state = .runBlocked w →
      t.waitSince + 2 ^ 16 < s.cycle →
      exec (.blockedEvictionAge tid) s = .next (s.setThread { t with evictable := true })) ∧
  (∀ (s : State) (core top : Nat) (ws es : List Thread) (t : Thread) (w : BitVec 32),
      s.phase = .run →
      (ws = ((s.residents core).filter fun t => t.ready && t.pause.isNone).filter fun t => (s.nextStrip t).isSome) →
      top = ws.foldl (fun m t => max m t.stripBand) 0 → (es = ws.filter fun t => t.stripBand == top && 0 < t.deficit) →
      es.isEmpty = false → nextAfter (s.core core).lastGranted es = some t → s.nextStrip t = some w →
      exec (.stripGrant core t.tid) s = .next ((s.setCore core { s.core core with lastGranted := t.tid }).setThread (t.granted w))) ∧
  (∀ (s : State) (tid n : Nat) (t : Thread),
      s.phase = .run → tfind tid s.threads = some t → (s.nextStrip t).isSome = true → t.stripSince = some n →
      n + 2 ^ 20 < s.cycle →
      exec (.stripAging tid) s = .next (s.setThread { t with stripAged := true })) ∧
  (∀ (s : State) (tid : Nat) (t : Thread) (w : Wait),
      s.phase = .run → tfind tid s.threads = some t → t.state = .runBlocked w → s.satisfied t w = true →
      exec (.waitSatisfied tid) s = .next (s.setThread
        { t with state := .runReady, waitSince := s.cycle, strip := none, stripSince := none, evictable := false })) ∧
  (∀ (s : State) (tid : Nat) (t : Thread) (w : Wait),
      s.phase = .run → tfind tid s.threads = some t → t.state = .savedBlocked w → s.satisfied t w = true →
      exec (.waitSatisfied tid) s = .next (s.enqueue { t with state := .placementReady })) ∧
  (∀ (s : State) (tid : Nat) (t : Thread) (q : Pause),
      s.phase = .run → tfind tid s.threads = some t → t.pause = some q → q.since + 1024 ≤ s.cycle →
      exec (.pauseEnd tid) s = .next (s.setThread { t with pause := none }))

/-- Evictions send dirty bytes home, write-backs arrive as one unit, walks fill translations, and host accesses are units of
the order (R150, R186, R187, R243, R312, R335, 11_where_data_lives.md, 15_fabric_and_host_link.md). -/
def Obligations.MemoryEvents : Prop :=
  (∀ (s : State) (die line : Nat) (c : MgdCopy) (s' : State),
      s.phase = .run → tfind (die * 2 ^ 48 + line) s.copiesMgd = some c → s.held none (viewLines die [line]) = false →
      s' = s.squashView die line →
      exec (.cacheEviction (.mgdCopy die line)) s = .next { s'.dropCopy die line with
        writeBacks := s'.writeBacks ++ (if c.dirty = 0 then [] else [s'.outgoing die line c]) }) ∧
  (∀ (s : State) (a b : Nat),
      s.phase = .run →
      exec (.cacheEviction (.tracked a b)) s = .next s) ∧
  (∀ (s : State) (line lines : Nat),
      s.phase = .run → 1 ≤ lines → lines ≤ 3 →
      exec (.cacheEviction (.cascade line lines)) s = .next (s.count fun c => { c with cascades := c.cascades + 1 })) ∧
  (∀ (s : State) (core hits : Nat),
      s.phase = .run →
      exec (.cacheEviction (.coordinate core hits)) s = .next (s.count fun c =>
        { c with partitionHits := c.partitionHits + hits, partitionEvictions := c.partitionEvictions + 1 })) ∧
  (∀ (s : State) (unit : TlbUnit) (parcel page : Nat),
      s.phase = .run →
      exec (.cacheEviction (.translation unit parcel page)) s = .next { s with
        tlb := s.tlb.filter fun e => !(e.1 == unit && e.2.parcel == parcel && e.2.covers (page * 65536)) }) ∧
  (∀ (s : State) (n : Nat) (w : WriteBack),
      s.phase = .run → s.writeBacks[n]? = some w →
      (s.writeBacks.take n).any (fun v => v.die == w.die && v.line == w.line) = false → s.held none [w.line] = false →
      exec (.mgdWritebackArrival n) s = .next (({ s with writeBacks := s.writeBacks.eraseIdx n } : State).arriveHome w)) ∧
  (∀ (s : State) (die parcel : Nat) (va : Word) (kind : AccessKind) (e : TlbEntry),
      s.phase = .run → die < 8 → (s.parcel parcel).state = 1 → s.lookup parcel va.toNat (.die die) = none →
      s.walk parcel va.toNat (kindSub kind) = .ok e →
      exec (.pageWalk die parcel va kind) s = .next (s.enterTlb (.die die) e)) ∧
  (∀ (s : State) (pa : Nat) (data : List (BitVec 8)),
      s.phase = .run → s.hostReach pa data.length = true → s.held none [pa / 128] = false →
      exec (.hostWrite pa data) s = .next (s.unit none (writesOf pa data))) ∧
  (∀ (s u : State) (pa n : Nat) (op : AmoOp) (dword : Bool) (value expected : Word),
      s.phase = .run → (n = if dword then 8 else 4) → s.hostReach pa n = true → pa % n = 0 → pa < 2 ^ 39 →
      s.held none [pa / 128] = false → u = (s.performArrival pa (.amo op dword value expected)).1 →
      exec (.hostAtomic pa op dword value expected) s = .next { u with answers := u.answers ++ [s.hostAnswer pa n] }) ∧
  (∀ (s : State) (pa n : Nat),
      s.phase = .run → s.hostReach pa n = true →
      exec (.hostRead pa n) s = .next { s.countDead pa with answers := s.answers ++ [s.hostAnswer pa n] })

/-- Engines perform queued tile operations, drains, copies, credits, stream refills and posts one at a time (R155, R169,
R219, R224, R229, R230, R284, R365, R366, R370, 10_copies_streams_completion.md, 17_bucking_engine.md). -/
def Obligations.EngineEvents : Prop :=
  (∀ (s : State) (tid : Nat) (t : Thread) (op : TileOp) (rest : List TileOp),
      s.phase = .run → tfind tid s.threads = some t → t.tileQueue = op :: rest → t.core.isSome = true →
      exec (.tileOpPerform tid) s = .next { s.setThread (performTile { t with tileQueue := rest } op).1 with
        drains := s.drains ++ (performTile { t with tileQueue := rest } op).2.toList }) ∧
  (∀ (s : State) (tid : Nat) (t : Thread) (op : TileOp) (rest : List TileOp),
      s.phase = .run → tfind tid s.threads = none → tfind tid s.departed = some t → t.tileQueue = op :: rest →
      exec (.tileOpPerform tid) s = .next { s with
        departed := if rest.isEmpty then tdrop tid s.departed else
          tput tid (performTile { t with tileQueue := rest } op).1 s.departed
        drains := s.drains ++ (performTile { t with tileQueue := rest } op).2.toList }) ∧
  (∀ (s : State) (id n : Nat) (d : Drain),
      s.phase = .run → s.drains.find? (·.id == id) = some d → d.rows = [] →
      exec (.matrixDrain id n) s = .next (s.drainOver d none)) ∧
  (∀ (s : State) (id n k : Nat) (d : Drain) (row : BitVec 8192) (bad : Bool),
      s.phase = .run → s.drains.find? (·.id == id) = some d → d.rows[n / 256]? = some (row, bad) → n ∉ d.done →
      (List.range 4).find? (fun k => !s.scratchOk d.crew (d.off n + k)) = some k →
      exec (.matrixDrain id n) s = .next (s.drainOver d (some { code := 5, sub := 0, val := BitVec.ofNat 64 (d.off n + k) }))) ∧
  (∀ (s u : State) (id n loc : Nat) (d e : Drain) (row : BitVec 8192) (bad : Bool),
      s.phase = .run → s.drains.find? (·.id == id) = some d → d.rows[n / 256]? = some (row, bad) → n ∉ d.done →
      (List.range 4).find? (fun k => !s.scratchOk d.crew (d.off n + k)) = none → loc = scratchLoc d.crew (d.off n) →
      s.held none (linesFrom loc 4) = false →
      u = s.engineUnit id (writesOf loc (bytesOfNat (rowCode row (n % 256)) 4)) bad →
      e = { d with done := mput n d.done } →
      exec (.matrixDrain id n) s = .next (if e.done.length = e.size then u.drainOver d none
        else { u with drains := u.drains.map fun x => if x.id == id then e else x })) ∧
  (∀ (s : State) (core : Nat) (c : Copy),
      s.phase = .run → ((s.copiesOf core).filter (·.forked)).find? (!·.started) = some c → c.slots ≤ copySlots →
      ((((s.copiesOf core).filter (·.forked)).filter (·.started)).map (·.slots)).sum + c.slots ≤ copySlots →
      exec (.copyStart core) s = .next (s.modCopy c.id fun c => { c with started := true })) ∧
  (∀ (s : State) (core : Nat) (c : Copy),
      s.phase = .run → ((s.copiesOf core).filter (·.forked)).find? (!·.started) = some c → copySlots < c.slots →
      ((((s.copiesOf core).filter (·.forked)).filter (·.started)).map (·.slots)).sum = 0 →
      exec (.copyStart core) s = .next (s.modCopy c.id fun c => { c with started := true })) ∧
  (∀ (s : State) (id n : Nat) (c : Copy),
      s.phase = .run → c.Moves s id n →
      exec (.copyElement id n) s = .next (c.move n s)) ∧
  (∀ (s : State) (n : Nat) (c : Copy),
      c.spot n = .none →
      c.move n s = s.modCopy c.id fun c => { c with done := mput (pieceAt 0 (2 * n)) c.done }) ∧
  (∀ (s s' : State) (n va k l : Nat) (c : Copy) (a d : List Nat),
      c.spot n = .move a d → c.ssp = false → pieces (c.src.addr a).toNat (c.src.bytes a) = [(va, k)] →
      c.job.get s (2 * n) = none → s.asked (.copyRead c.id (2 * n)) = false →
      s.reach c.job.agent .load none va k = .ok (s', .loc l) →
      c.move n s = (s'.countDead l).modCopy c.id fun c => { c with
      held := tput (2 * n) (if s'.poisonAt l k then poisonCode else s'.readObj l k) c.held }) ∧
  (∀ (s s' : State) (n va k m x va' k' l : Nat) (c : Copy) (a d : List Nat) (bs : List (Byte × Byte)),
      c.spot n = .move a d → c.dsp = false → pieces (c.src.addr a).toNat (c.src.bytes a) = [(va, k)] →
      c.job.get s (2 * n) = some x → m = x / 2 ^ (c.src.offset a).2 % 2 ^ c.src.width →
      bs = (writesOfBits 0 (c.dst.offset d).2 c.dst.width m).map (·.2) →
      pieces (c.dst.addr d).toNat bs.length = [(va', k')] → va' = (c.dst.addr d).toNat → bs.take k' = bs →
      s.asked (.copyWrite c.id (pieceAt 0 (2 * n))) = false → pieceAt 0 (2 * n) ∉ c.done →
      s.copies.find? (·.id == c.id) = some c → s.reach c.job.agent .store none va' bs.length = .ok (s', .loc l) →
      s'.held none (linesFrom l bs.length) = false →
      c.move n s = (s'.engineUnit c.id (((List.range bs.length).zip bs).map fun (i, m, b) => (l + i, m, b))
      (decide (poisonCode ≤ x))).modCopy c.id fun c => { c with done := mput (pieceAt 0 (2 * n)) c.done }) ∧
  (∀ (s : State) (id bytes l : Nat) (c : Copy),
      s.phase = .run → s.copies.find? (·.id == id) = some c → c.forked = true → c.started = true → c.bar = some l →
      0 < bytes → c.credited + bytes ≤ c.creditable → s.held none [l / 128] = false →
      exec (.barrierCredit id bytes) s = .next
        ((s.credit l bytes []).modCopy id fun c => { c with credited := c.credited + bytes })) ∧
  (∀ (s : State) (id : Nat) (c : Copy),
      s.phase = .run → s.copies.find? (·.id == id) = some c → c.forked = true → c.started = true →
      s.fabric.any (·.isCopy id) = false → (c.fault.isSome = true ∨ c.performed = c.slots) → c.unmasked = [] →
      exec (.copyComplete id) s = .next (s.copyEnd c)) ∧
  (∀ (s : State) (c : Copy) (l : Nat) (fails : List Nat),
      c.bar = some l → s.held none [l / 128] = false →
      fails = c.failed ++ (if c.fault.isSome then [0xFFFFFF] else []) → (0 < c.total - c.credited ∨ fails ≠ []) →
      s.copyEnd c = (s.credit l (c.total - c.credited) fails).copyOver c) ∧
  (∀ (s : State) (c : Copy),
      c.bar = none →
      s.copyEnd c = s.copyOver c) ∧
  (∀ (s s' : State) (tid v l : Nat) (t : Thread) (p : Stream) (q b : Nat) (got : List (Nat × Nat × Nat)) (u : State),
      s.phase = .run → tfind tid s.threads = some t → tfind v t.ctx.streams = some p → t.core.isSome = true →
      t.chunk = none → got = (tfind v t.refill).getD [] → q = (got.map (·.1)).foldl (fun m k => max m (k + 1)) p.pos →
      b = p.width / 8 → q < p.length → (p.addr q).toNat % b = 0 →
      s.reach { eng := p.id, core := t.core.getD 0, parcel := t.parcel, priv := p.priv } .load none (p.addr q).toNat b =
        .ok (s', .loc l) →
      s'.poisonAt l b = false → u = s'.countDead l →
      exec (.streamRefill tid v 1) s = .next { u with threads := tmod t.tid (fun t => { t with
        refill := tput v (tput q (l, u.readObj l b) ((tfind v t.refill).getD [])) t.refill }) u.threads }) ∧
  (∀ (s : State) (parcel j : Nat) (v : Traverse) (p : PostOf),
      s.phase = .run → tfind parcel s.traverses = some v → v.inflight.find? (·.j == j) = none → v.postOf j = some p →
      v.startable j = true → s.nextPoster = some parcel →
      exec (.post parcel j) s = .next { s with
        lastPoster := parcel
        traverses := tmod parcel (fun v =>
          { v with inflight := v.inflight ++ [{ j := j, held := [], done := [], crediting := false, failed := false }] }) s.traverses }) ∧
  (∀ (s : State) (parcel j n : Nat) (v : Traverse) (p : PostOf) (q : Post),
      s.phase = .run → tfind parcel s.traverses = some v → v.inflight.find? (·.j == j) = some q → v.postOf j = some p →
      q.failed = false →
      (List.range (cellCount p.cell)).find? (fun n => !v.elemDone p q n && !s.elemAsked parcel j n) = some n →
      exec (.post parcel j) s = .next (v.move parcel p j n s)) ∧
  (∀ (s : State) (parcel j : Nat) (v : Traverse) (p : PostOf) (q : Post),
      s.phase = .run → v.Performed s parcel j p q → (v.dstTable[p.rank]?.map (·.rrec)).getD 0 = 0 →
      exec (.postCredit parcel j) s = .next { s with traverses := tmod parcel (·.complete j) s.traverses }) ∧
  (∀ (s s' s'' : State) (parcel j l k : Nat) (v : Traverse) (p : PostOf) (q : Post) (rrec : Word) (u : State),
      s.phase = .run → v.Performed s parcel j p q → rrec = (v.dstTable[p.rank]?.map (·.rrec)).getD 0 → rrec ≠ 0 →
      s.reach (v.agent parcel) .amo none rrec.toNat 16 = .ok (s', .loc l) →
      s'.reach (v.agent parcel) .amo none (rrec.toNat + 16 + p.index / 8) 1 = .ok (s'', .loc k) →
      s''.held none [l / 128, k / 128] = false → u = s''.creditRecord l k (p.index % 8) (cellBytes v.src p.cell) →
      exec (.postCredit parcel j) s = .next { u with traverses := tmod parcel (·.complete j) u.traverses }) ∧
  (∀ (s s' u : State) (parcel j dev off : Nat) (v : Traverse) (p : PostOf) (q : Post) (rrec : Word),
      s.phase = .run → v.Performed s parcel j p q → rrec = (v.dstTable[p.rank]?.map (·.rrec)).getD 0 → rrec ≠ 0 →
      s.reach (v.agent parcel) .amo none rrec.toNat 16 = .ok (s', .fabric dev off) →
      (u = { s' with traverses := tmod parcel (·.modPost j fun q => { q with crediting := true }) s'.traverses }) →
      exec (.postCredit parcel j) s = .next (u.sendReq ((v.agent parcel).request dev off (.credit p.index (cellBytes v.src p.cell)) rrec.toNat
        (.postCredit parcel j)))) ∧
  (∀ (s : State) (parcel : Nat) (v : Traverse),
      s.phase = .run → tfind parcel s.traverses = some v → v.stop = none → v.inflight = [] → v.next = v.nout →
      s.mayEnd parcel v = true →
      exec (.traverseDone parcel) s = .next (s.finishTraverse parcel v)) ∧
  (∀ (s : State) (parcel : Nat) (v : Traverse) (f : Trap) (va : Word),
      s.phase = .run → tfind parcel s.traverses = some v → v.stop = some (f, va) → v.inflight.all (·.failed) = true →
      s.fabric.any (·.isPost parcel) = false → s.mayEnd parcel v = true →
      exec (.traverseStop parcel) s = .next (s.stopTraverse parcel v f va)) ∧
  (∀ (s : State) (parcel : Nat) (v : Traverse) (fs : List (Nat × Nat × Nat)) (f : Option Trap) (u : State),
      (ofHost v.cursorLoc = false ∨ s.fyzWidth ≠ 0) →
      (u = (s.unit none (cursorWrites v.cursorLoc fs)).squashIf fun _ c => c.meets [slotLine parcel]) →
      s.endTraverse parcel v fs f =
      ({ u with traverses := tdrop parcel u.traverses }.dropEngine (traverseEngine parcel)).tagDone v.tid v.tag f) ∧
  (∀ (v : Traverse) (parcel : Nat) (p : PostOf) (j n : Nat) (s : State) (w : Job) (a d : Nat × Nat × Nat),
      w = v.job parcel j → v.element p n = (a, d) →
      (w.value n a.2.1 v.src.width (pieces a.1 a.2.2) s = none → v.move parcel p j n s = w.read none a.1 (keyed n (pieces a.1 a.2.2)) s) ∧
      ∀ bad code, w.value n a.2.1 v.src.width (pieces a.1 a.2.2) s = some (bad, code) →
        v.move parcel p j n s = w.write [none] n d.1 d.2.1 v.dst.width bad code s)

/-- Replies complete fabric requests, arrivals are checked and answered, and fetch-and-adds combine, wait and split at the
stages (R291, R292, R324, R325, R326, R327, R329, 15_fabric_and_host_link.md). -/
def Obligations.FabricEvents : Prop :=
  (∀ (s : State) (id port : Nat) (codes : List Nat) (data : List Byte) (q : FabricReq) (mates : List FabricReq),
      s.phase = .run → s.request id = some q → q.Answerable → mates = s.mates q → mates.any (!·.sent) = true →
      mates.any s.waitsToLeave = false →
      exec (.fabricReply id port codes data) s = .next ((mates.filter (!·.sent)).foldl State.depart s)) ∧
  (∀ (s u : State) (id port : Nat) (codes : List Nat) (data : List Byte) (q : FabricReq) (mates : List FabricReq),
      s.phase = .run → s.request id = some q → q.Answerable → mates = s.mates q → mates.any (!·.sent) = false →
      (s.waitsFor (mates.flatMap s.family)).isEmpty = true → s.devnum ≠ some q.dev → s.portWidth port ≠ 0 →
      (s.heard port).packetReplies mates (spreadCodes mates codes) data = some u →
      exec (.fabricReply id port codes data) s = .next u) ∧
  (∀ (s : State) (q : FabricReq) (code : Nat) (data : List Byte),
      code ≤ 4 → (data.length = if code = 0 then s.sizeOf q else 0) →
      s.packetReplies [q] [code] data = some (s.replied q code data)) ∧
  (∀ (s : State) (id port : Nat) (codes : List Nat) (data : List Byte) (q : FabricReq) (mates : List FabricReq),
      s.phase = .run → s.request id = some q → q.Answerable → mates = s.mates q → mates.any (!·.sent) = false →
      (s.waitsFor (mates.flatMap s.family)).isEmpty = true → s.devnum = some q.dev →
      (s.held none (mates.flatMap fun m => arrivalLines m.off m.op) = false) →
      exec (.fabricReply id port codes data) s = .next (s.turnRound mates)) ∧
  (∀ (s : State) (r : Arriving) (a : State × Nat × List Byte),
      s.phase = .run → r.wf = true → s.portWidth r.port ≠ 0 → s.held none (arrivalLines r.offset r.op) = false →
      a = (s.heard r.port).arrive r.header r.offset r.op →
      exec (.fabricRequestArrival r) s = .next (a.1.respond r.port r.header r.offset [a.2.1] a.2.2)) ∧
  (∀ (s : State) (p : ExtPacket) (a : State × List Nat × List Byte),
      s.phase = .run → p.wf = true → s.portWidth p.port ≠ 0 →
      (s.held none (distinct ((List.range p.n).flatMap fun k => arrivalLines (p.element k).toNat (packetAccess p k))) = false) →
      a = packetExpand p p.n 0 (s.heard p.port) →
      exec (.extensionPacketArrival p) s = .next (a.1.respond p.port (some p.header) (p.element 0).toNat a.2.1 a.2.2)) ∧
  (∀ (s u : State) (stage first second x y : Nat) (a b q : FabricReq) (dword : Bool),
      s.phase = .run → s.request first = some a → s.request second = some b → a.addend = some (dword, x) →
      b.addend = some (dword, y) → s.mayFold stage a b = true →
      q = a.fold b s.nextId dword ((x + y) % 2 ^ (if dword then 64 else 32)) →
      (u = { s with nextId := s.nextId + 1, fabric :=
        (s.fabric.map fun m => if m.id == first || m.id == second then { m with folded := true } else m) ++ [q] }) →
      u.circular (u.fabric.length + 1) (u.family q) = false →
      exec (.fabricCombine stage first second) s = .next u) ∧
  (∀ (s : State) (id : Nat) (q : FabricReq) (place : Nat × Nat),
      s.phase = .run → s.request id = some q → q.standsAt q.stage = true →
      (q.waiting = false ∨ q.issued + 64 ≤ s.cycle) → place = (stageInput (q.stage + 1) q.first.1 q.port, s.nextId) →
      exec (.combineWindowExpiry id) s = .next { s with
        nextId := s.nextId + 1
        fabric := s.fabric.map fun m =>
          if m.id == id then
            { m with stage := q.stage + 1, issued := s.cycle, waiting := s.bufferFree (q.stage + 1) q.port, first := place, last := place }
          else m }) ∧
  (∀ (s : State) (id code x : Nat) (data : List Byte) (q : FabricReq) (dword : Bool),
      s.phase = .run → s.request id = some q → q.answer = some (code, data) → q.addend = some (dword, x) →
      exec (.replySplit id) s = .next
        (({ s with fabric := s.fabric.filter (·.id != id) } : State).split code dword (natOfBytes data) q.parts)) ∧
  (∀ (s : State) (h : BitVec 160) (off : Nat) (op : ArrivingOp),
      (∀ post bytes, op ≠ .credit post bytes) →
      (∀ g : Option (BitVec 160), g.filter headerOk = none → s.arrive g off op = (s.countRefusal (tfind (off / 65536) s.frameOwner), 2, [])) ∧
      (headerOk h = true →
        (tfind (off / 65536) s.frameOwner = none → s.arrive (some h) off op = (s.countRefusal none, 1, [])) ∧
        ∀ q, tfind (off / 65536) s.frameOwner = some q →
          (s.lost.contains (headerSdev h) = true → s.arrive (some h) off op = (s.countRefusal (some q), 2, [])) ∧
          (s.lost.contains (headerSdev h) = false →
            (s.keys.find? (fun e => e.2.localParcel == q && e.2.sdev == headerSdev h && e.2.stag == headerStag h) = none →
              s.arrive (some h) off op = (s.countRefusal (some q), 2, [])) ∧
            ∀ e, s.keys.find? (fun e => e.2.localParcel == q && e.2.sdev == headerSdev h && e.2.stag == headerStag h) = some e →
              (e.2.key ≠ headerKey h → s.arrive (some h) off op = (s.countRefusal (some q), 3, [])) ∧
              (e.2.key = headerKey h → s.arrive (some h) off op = s.performArrival off op))) ∧
      ∀ q, (s.countRefusal q).mem = s.mem ∧ (s.countRefusal q).threads = s.threads ∧ { s.countRefusal q with counters := s.counters } = s) ∧
  (∀ (p : ExtPacket) (n k : Nat) (s : State),
      (packetExpand p n k s).2.1.length = n ∧ packetExpand p 0 k s = (s, [], []) ∧
      ∀ a b, a = s.arrive (some p.header) (p.element k).toNat (packetAccess p k) → b = packetExpand p n (k + 1) a.1 →
        packetExpand p (n + 1) k s = (b.1, a.2.1 :: b.2.1, (if p.op = .vamo then [] else a.2.2) ++ b.2.2)) ∧
  (∀ (s : State) (q : FabricReq) (code : Nat) (data : List Byte),
      (q.parts = [] → s.replied q code data = s.finish q code data) ∧
      (q.parts ≠ [] → s.replied q code data =
        { s with fabric := s.fabric.map fun m => if m.id == q.id then { m with answer := some (code, data) } else m }))

/-- Links go down after 8 microseconds of silence and come up trained, and a silent or reported device is marked lost (R323,
R334, R353, R354, 15_fabric_and_host_link.md, 16_traps_preemption_errors.md). -/
def Obligations.LinkEvents : Prop :=
  (∀ (s : State) (port : Nat),
      s.phase = .run → s.portWidth port ≠ 0 → (s.portSent[port]?.getD 0) + microsecond ≤ s.time →
      exec (.idleFlit port) s = .next { s with portSent := s.portSent.setIfInBounds port s.time }) ∧
  (∀ (s : State) (port : Nat),
      s.phase = .run →
      exec (.idleFlitReceived port) s = .next { s with portHeard := s.portHeard.setIfInBounds port s.time }) ∧
  (∀ (s : State) (port : Nat),
      s.phase = .run → s.portWidth port ≠ 0 → (s.portHeard[port]?.getD 0) + 8 * microsecond ≤ s.time →
      exec (.linkDown port) s = .next
        (({ s with ports := s.ports.setIfInBounds port 0 } : State).failAll 5 fun q => q.sent && q.port == port).sendLinkStatus) ∧
  (∀ (s : State) (k width version : Nat),
      s.phase = .run → k < 32 → s.portWidth k = 0 → (width = 1 ∨ width = 2 ∨ width = 4) →
      exec (.linkTrained (.port k) width version) s = .next
        ({ s with ports := s.ports.setIfInBounds k width, portHeard := s.portHeard.setIfInBounds k s.time } : State).sendLinkStatus) ∧
  (∀ (s : State) (width : Nat),
      s.phase = .run → s.fyzWidth = 0 → (width = 8 ∨ width = 16 ∨ width = 32) → width ≤ s.fyzMax →
      exec (.linkTrained .fyzozor width 1) s = .next ({ s with fyzWidth := width, fyzVersion := 1 } : State).sendLinkStatus) ∧
  (∀ (s : State),
      s.phase = .run → s.fyzWidth ≠ 0 →
      exec (.laneFailure .fyzozor) s = .next ({ s.squashIf (fun _ c => c.stores.any fun e => ofHost e.1) with
        fyzWidth := 0, fyzMax := if s.fyzWidth = 32 then 16 else if s.fyzWidth = 16 then 8 else 0 } : State).sendLinkStatus) ∧
  (∀ (s : State),
      s.phase = .run → s.beatSent + microsecond ≤ s.time →
      exec .heartbeat s = .next { s with beatSent := s.time }) ∧
  (∀ (s : State) (dev : Nat),
      s.phase = .run → dev < 1024 →
      exec (.heartbeatReceived dev) s = .next { s with beatHeard := tput dev s.time s.beatHeard }) ∧
  (∀ (s : State) (dev : Nat),
      s.phase = .run → dev < 1024 → s.devnum ≠ some dev → dev ∉ s.lost →
      tget 0 dev s.beatHeard + 8 * microsecond ≤ s.time →
      exec (.peerLost dev) s = .next ((s.markLost dev).send { code := 0x82, parcel := 0, seq := 0, status := 0, len := 8, payload := dev })) ∧
  (∀ (s : State) (dev : Nat),
      s.phase = .run → dev < 1024 → s.devnum ≠ some dev → dev ∉ s.lost →
      exec (.downNoticeReceived dev) s = .next (s.markLost dev))

/-- ECC errors are corrected, reread or poison their data, cores are fenced, and refresh, scrub and the error logs take
their course (R245, R246, R249, R250, R349, R358, R394, 16_traps_preemption_errors.md, 11_where_data_lives.md). -/
def Obligations.UpkeepEvents : Prop :=
  (∀ (s : State) (place : EccPlace),
      s.phase = .run → (∀ line tags, place ≠ .dram line tags) →
      exec (.eccError false place) s = .next (s.count fun c => { c with corrected := c.corrected + 1 })) ∧
  (∀ (s : State) (line : Nat),
      s.phase = .run →
      exec (.eccError true (.dirtyLine line)) s = .next (s.poisonLine line)) ∧
  (∀ (s : State) (die line : Nat) (c : MgdCopy),
      s.phase = .run → tfind (die * 2 ^ 48 + line) s.copiesMgd = some c → c.dirty = 0 →
      s.held none (viewLines die [line]) = false →
      exec (.eccError true (.cleanLine die line)) s = .next ((s.squashView die line).dropCopy die line)) ∧
  (∀ (s : State) (die line : Nat),
      s.phase = .run → tfind (die * 2 ^ 48 + line) s.copiesMgd = none →
      exec (.eccError true (.cleanLine die line)) s = .next s) ∧
  (∀ (s : State) (id : Nat) (q : FabricReq),
      s.phase = .run → s.request id = some q → q.Answerable → q.sent = true →
      exec (.eccError true (.hubBuffer id)) s = .next (match q.op with
        | .store data _ => { s with fabric := s.fabric.map fun m => if m.id == id then { m with op := .poison data.length } else m }
        | .poison _ => s
        | _ => s.failRequest q 4)) ∧
  (∀ (s : State) (tid file reg index : Nat) (m : PoisonMark),
      s.phase = .run → file ≤ 4 → m = { file, reg, index } →
      exec (.eccError true (.register tid file reg index)) s = .next { s with threads := tmod tid (fun t =>
        { t with poison := hitBy m t.poison, chunk := t.chunk.map fun c => { c with poison := hitBy m c.poison } }) s.threads }) ∧
  (∀ (s : State) (crew offset : Nat),
      s.phase = .run → crew < 96 → offset < 2 ^ 23 →
      exec (.eccError true (.scratch crew offset)) s = .next
        { s with scratchPoison := mput ((crew * 2 ^ 23 + offset) / 8) s.scratchPoison }) ∧
  (∀ (s : State) (double : Bool) (line : Nat) (tags : TagCheck),
      s.phase = .run → line < 2 ^ 32 → line / 32 ∈ s.live →
      exec (.eccError double (.dram line tags)) s = .next (s.readLine line tags)) ∧
  (∀ (s : State) (core : Nat) (corrupt : List Nat),
      s.phase = .run → core < 384 → (s.core core).fenced = false →
      s.pins none (fun t c => !([core].any (t.core == some ·)) && portionUser core 0 (2 ^ 21) t c) = false →
      exec (.coreFence core .control corrupt) s = .next (s.fence core corrupt)) ∧
  (∀ (s : State) (stack bank : Nat),
      s.phase = .run →
      exec (.refreshDue stack bank false) s = .next (s.setStack stack { s.stack stack with postponed := tset 0 bank 0 (s.stack stack).postponed })) ∧
  (∀ (s : State) (stack bank n : Nat),
      s.phase = .run → n = tget 0 bank (s.stack stack).postponed → n < 4 → stack < 8 →
      exec (.refreshDue stack bank true) s = .next
        ((s.setStack stack { s.stack stack with postponed := tset 0 bank (n + 1) (s.stack stack).postponed }).count fun c =>
          { c with postponements := c.postponements + 1 })) ∧
  (∀ (s : State) (stack bank : Nat),
      s.phase = .run → tget 0 bank (s.stack stack).postponed = 4 →
      exec (.refreshPostponeLimit stack bank) s = .next
        (s.setStack stack { s.stack stack with postponed := tset 0 bank 0 (s.stack stack).postponed })) ∧
  (∀ (s : State) (stack : Nat) (ps : Vector Parcel 64),
      s.phase = .run → stack < 8 → (s.stack stack).scrubbing = none →
      (s.stack stack).passStart + (s.stack stack).scrubHours * 3600000000 * microsecond ≤ s.time →
      ps = s.parcels.map Parcel.rotate →
      exec (.scrubPassStart stack) s = .next (({ s with parcels := ps } : State).setStack stack { s.stack stack with
        passStart := s.time, scrubbing := some (stack * 2 ^ 29)
        rotating := (List.range 64).filter fun p => (ps[p]?.any fun q => q.toScrub.contains stack) })) ∧
  (∀ (s : State) (stack line a : Nat) (tags : TagCheck) (u : State),
      s.phase = .run → (s.stack stack).scrubbing = some a → s.nextLive stack a = some line → u = s.readLine line tags →
      exec (.scrubLine stack tags) s = .next (({ u with lineKver := tset 0 line (u.kverOf line) u.lineKver } : State).setStack stack
        { u.stack stack with scrubbing := some (line + 1) })) ∧
  (∀ (s : State) (stack a : Nat) (e : StackSt),
      s.phase = .run → (s.stack stack).scrubbing = some a → s.nextLive stack a = none →
      e = { s.stack stack with scrubbing := none, rotating := [] } →
      exec (.scrubPassEnd stack) s = .next ((s.stack stack).rotating.foldl (fun s p => s.setParcel p ((s.parcel p).scrubbed stack))
        (s.setStack stack (if (s.stack stack).rotating.isEmpty then e else e.enter s.cycle (logEntry s.cycle 0 0 4 0))))) ∧
  (∀ (s : State) (stack : Nat),
      s.phase = .run →
      exec (.logWrapClear stack) s = .next (s.setStack stack ((s.stack stack).clearWrap s.cycle))) ∧
  (∀ (s u : State) (core : Nat) (corrupt : List Nat),
      core < 384 → u = s.fence core corrupt →
      (u.core core).fenced = true ∧ (∀ c ∈ u.copies, c.core = core → c.fault.isSome = true ∧ c.started = true) ∧
      (∀ e ∈ u.traverses, e.2.core = core → e.2.stop.isSome = true) ∧
      (∀ off < 2 ^ 21, u.mem.byte (scratchLoc (crewOf core) (core % 4 * 2 ^ 21 + off)) = 0) ∧
      ∃ sent gone, u.sent = sent ++ [{ code := 0x81, parcel := s.tenantOf core, seq := 0, status := 0, len := 8 * (gone.length + 1), payload := packed (core :: gone) }] ∧
        ∀ k ∈ gone, ∃ t ∈ s.residents core, t.tid = k) ∧
  (∀ (s : State) (line k : Nat) (e : Nat → BitVec 128),
      k = line / 2 ^ 29 →
      (e = fun kind => logEntry s.cycle (Config.pseudoChannel line % 160) (s.ownerOf line) kind line) →
      s.readLine line .good = s ∧ s.readLine line .corrected = s.setStack k ((s.stack k).enter s.cycle (e 1)) ∧
      s.readLine line .second = s.setStack k ((s.stack k).enter s.cycle (e 2)) ∧
      s.readLine line .bad = (s.poisonLine line).setStack k ((s.stack k).enter s.cycle (e 3)) ∧ (s.readLine line .bad).poisoned.contains line = true)

/-- The clock follows power and heat, a trip holds the device in reset, and the reset pin, the image and request 0x0F bring
it up (R388, R389, R390, R395, R396, 21_bring_up_power.md). -/
def Obligations.PowerAndBringUp : Prop :=
  (∀ (s : State) (watts : Nat),
      s.phase = .run → s.windowStart + 10000 * microsecond ≤ s.time →
      exec (.powerWindow watts) s = .next { s with
        windowStart := s.windowStart + 10000 * microsecond, clock := nextClock s.clock s.powerLimit watts s.thermalHold }) ∧
  (∀ (s : State) (crew : Nat),
      s.phase = .run → crew < 96 → ((s.threads.any fun e => e.2.core.any (crewOf · == crew)) = false) →
      tget 0 crew s.busy + 2 ^ 16 ≤ s.cycle →
      exec (.crewClockGate crew) s = .next { s with gated := mput crew s.gated }) ∧
  (∀ (s : State) (die celsius : Nat),
      s.phase = .run → die < 8 → 105 < celsius →
      exec (.thermalThrottle die celsius) s = .next { s with clock := 875, thermalHold := true }) ∧
  (∀ (s : State) (celsius : List Nat),
      s.phase = .run → celsius.length = 8 → (∀ c ∈ celsius, c < 100) →
      exec (.thermalRecovery celsius) s = .next { s with thermalHold := false }) ∧
  (∀ (s : State) (die celsius : Nat),
      s.phase = .run → die < 8 → 115 < celsius →
      exec (.thermalTrip die celsius) s = .next
        { s.halt.send { code := 0x84, parcel := 0, seq := 0, status := 0, len := 8, payload := die } with phase := .tripped }) ∧
  (∀ (s : State),
      exec .resetPinAssert s = .next s.cold) ∧
  (∀ (s : State),
      s.phase = .held →
      exec .resetPinRelease s = .next { s with phase := .step 2 }) ∧
  (∀ (s : State) (h : ReqHead) (r : FirmwareReport),
      s.phase = .step 2 → Posted s h 1 → r.crcOk = true → r.versionOk = true →
      exec (.loadFirmwareImage h r) s = .next ((s.reply h 0).train r)) ∧
  (∀ (s : State) (h : ReqHead) (r : LinkReport) (n : Nat),
      s.phase = .step 6 → Posted s h 15 → s.devnum = some n →
      exec (.configurationComplete h r) s = .next ((s.reply h 0).finishReset r)) ∧
  (∀ (s : State) (h : ReqHead) (r : LinkReport),
      s.phase = .step 6 → Posted s h 15 → s.devnum = none →
      exec (.configurationComplete h r) s = .next ((s.reply h 1).failStep 6)) ∧
  (∀ (s : State) (a : Nat),
      (ofHost a = false → s.cold.mem.byte a = 0) ∧ s.cold.phase = .held ∧ s.cold.devnum = none ∧ s.cold.threads = [] ∧ s.cold.launches = [] ∧
      (∀ p, s.cold.parcel p = Parcel.free) ∧ s.cold.keys = [] ∧ s.cold.routes = [] ∧ s.cold.frameOwner = [] ∧ s.cold.live = [] ∧ s.cold.copies = [] ∧
      s.cold.fabric = [] ∧ s.cold.tlb = [] ∧ (∀ k, s.cold.portWidth k = 0) ∧ s.cold.fyzWidth = 0) ∧
  (∀ (s : State) (r : FirmwareReport),
      (r.stacksOk = false → s.train r = { s with phase := .failed 3 }.send { code := 0x83, parcel := 0, seq := 0, status := 0, len := 8, payload := 3 }) ∧
      (r.stacksOk = true → r.linksOk = false →
        s.train r = { s with phase := .failed 4 }.send { code := 0x83, parcel := 0, seq := 0, status := 0, len := 8, payload := 4 }) ∧
      (r.stacksOk = true → r.linksOk = true → (s.train r).phase = .step 6 ∧ (s.train r).store = r.store ∧
        ∀ k < 384, ((s.train r).core k).fenced = (r.failedCores.contains k || r.failedUnits.contains (crewOf k)))) ∧
  (∀ (s u : State) (r : LinkReport),
      u = s.finishReset r →
      u.phase = .run ∧ u.cycle = 0 ∧ u.time = 0 ∧ (∀ k w, k < 32 → r.ports[k]? = some w → u.portWidth k = if w = 1 ∨ w = 2 ∨ w = 4 then w else 0) ∧
      u.fyzWidth = (if r.fyzozorVersion = 1 ∧ (r.fyzozorWidth = 8 ∨ r.fyzozorWidth = 16 ∨ r.fyzozorWidth = 32) then r.fyzozorWidth else 0) ∧
      ∃ m, u.sent = s.sent ++ [m] ∧ m.code = 0x85)

/-- The management requests act on parcels, launches, frames, blocks, routes and limits, and answer status 0; an unassigned
code answers 3 (R260, R296, R298, R299, R314, R320, R321, R356, R388, R390, 21_bring_up_power.md,
14_parcels_privilege_translation.md). -/
def Obligations.ManagementRequests : Prop :=
  (∀ (s : State) (h : ReqHead) (code : Nat),
      s.phase = .run → Posted s h code → assigned code = false →
      exec (.unknownRequest h) s = .next (s.reply h 3)) ∧
  (∀ (s : State) (h : ReqHead) (desc : BitVec 512) (q : Parcel),
      s.phase = .run → Posted s h 2 → (s.parcel h.parcel).state = 0 → q = (s.parcel h.parcel).described desc.toNat →
      s.badDescriptor h.parcel q = false →
      exec (.writeParcelDescriptor h desc) s = .next
        (((s.moveCrews h.parcel (s.parcel h.parcel).crews q.crews).setParcel h.parcel q.created).reply h 0)) ∧
  (∀ (s u : State) (h : ReqHead) (desc : BitVec 512) (q : Parcel),
      s.phase = .run → Posted s h 2 → (s.parcel h.parcel).state ≠ 0 → q = (s.parcel h.parcel).described desc.toNat →
      s.badDescriptor h.parcel q = false →
      (u = if (s.parcel h.parcel).kfirst ≠ q.kfirst ∨ (s.parcel h.parcel).kcount ≠ q.kcount then s.clearKeys h.parcel else s) →
      exec (.writeParcelDescriptor h desc) s = .next
        (((u.moveCrews h.parcel (s.parcel h.parcel).crews q.crews).setParcel h.parcel q).reply h 0)) ∧
  (∀ (s : State) (h : ReqHead) (entry args config : Word) (q : Parcel) (part : BitVec 32) (i : Instr),
      s.phase = .run → Posted s h 3 → config.extractLsb' 2 30 = 0 → q = s.parcel h.parcel → q.state = 1 →
      q.root = none → part = config.extractLsb' 32 32 → (part = 0 ∨ partOk part = true) →
      s.pins none (s.crowds h.parcel 1) = false → i = .createRootThread h entry args config →
      exec (.createRootThread h entry args config) s = .next ((((({ s.asking i with nextLaunch := s.nextLaunch + 1 } : State).setParcel h.parcel
        { q with root := some (s.nextLaunch * 2 ^ 24) }).createLaunch s.nextLaunch
          (rootLaunch h.parcel q entry args (config.toNat % 4) part))).answered i 0)) ∧
  (∀ (s : State) (h : ReqHead) (launch : Nat) (tids : List Nat) (i : Instr),
      s.phase = .run → Posted s h 4 → tids = (s.tidsOf h.parcel).filter (launchOf · == launch) →
      ((s.traverses.any fun e => tids.contains e.2.tid && !s.mayEnd e.1 e.2) = false) → i = .removeLaunch h launch →
      exec (.removeLaunch h launch) s = .next (((s.asking i).stopThreads tids).answered i 0)) ∧
  (∀ (s : State) (h : ReqHead) (i : Instr),
      s.phase = .run → Posted s h 5 → (s.parcel h.parcel).state = 1 → i = .endParcel h →
      exec (.endParcel h) s = .next (((s.asking i).beginEnd h.parcel).deferring i)) ∧
  (∀ (s : State) (h : ReqHead) (hub : Nat),
      s.phase = .run → h.code = 5 → h.len = 0 → s.requests.find? (·.1 == hub) = some (hub, .endParcel h, true) →
      s.serve hub = ({ s.endParcel h.parcel with requests := (s.endParcel h.parcel).requests.erase (hub, .endParcel h, true) } : State).reply h 0) ∧
  (∀ (s : State) (h : ReqHead) (first count owner lo hi : Nat) (o : Option Nat) (i : Instr),
      (s.phase = .run ∨ s.phase = .step 6) → Posted s h 6 → s.ownerFor owner = .ok o → first + count ≤ 2 ^ 23 →
      s.store.overlaps first count = false →
      ((s.blockOwner.any fun b => b.1 * 8192 < first + count && first < b.1 * 8192 + 8192) = false) →
      lo = first * 65536 → hi = (first + count) * 65536 → s.holdsPlace lo hi = false → s.pinsPlace lo hi = false →
      i = .assignFrames h first count owner →
      exec (.assignFrames h first count owner) s = .next
        ((((s.asking i).dropRefill lo hi).setFrames ((List.range count).map (first + ·)) o).answered i 0)) ∧
  (∀ (s : State) (h : ReqHead) (first count owner lo hi : Nat) (o : Option Nat) (blocks : List Nat) (mine : TlbEntry → Bool) (i : Instr),
      (s.phase = .run ∨ s.phase = .step 6) → Posted s h 14 → s.ownerFor owner = .ok o → first + count ≤ 1024 →
      blocks = (List.range count).map (first + ·) → ((o.any fun p => blocks.any fun b => !s.blockFull b p) = false) →
      lo = first * 2 ^ 29 → hi = (first + count) * 2 ^ 29 → (mine = fun e => e.big && e.maps lo hi) →
      s.engineHolds mine = false → s.pins none (fun _ c => c.pages.any mine) = false →
      i = .assignBlocks h first count owner →
      exec (.assignBlocks h first count owner) s = .next
        (((((s.asking i).dropRefill lo hi).dropTlb mine).setBlocks blocks o).answered i 0)) ∧
  (∀ (s : State) (h : ReqHead) (dev : Nat) (entry : BitVec 32),
      (s.phase = .run ∨ s.phase = .step 6) → Posted s h 7 → dev < 1024 →
      exec (.writeRouteEntry h dev entry) s = .next
        (({ s with routes := tset 0 dev (entry &&& 0xC03FFFFF) s.routes } : State).reply h 0)) ∧
  (∀ (s : State) (h : ReqHead) (n : Nat),
      s.phase = .step 6 → Posted s h 8 → n < 1024 →
      exec (.setDeviceNumber h n) s = .next (({ s with devnum := some n } : State).reply h 0)) ∧
  (∀ (s : State) (h : ReqHead) (dev : Nat),
      s.phase = .run → Posted s h 9 → dev < 1024 →
      exec (.clearLostMark h dev) s = .next (({ s with lost := mdrop dev s.lost } : State).reply h 0)) ∧
  (∀ (s : State) (h : ReqHead),
      s.phase = .run → Posted s h 10 → (s.parcel h.parcel).state = 1 →
      exec (.requestKeyRotation h) s = .next ((s.setParcel h.parcel { s.parcel h.parcel with rotations := true }).reply h 0)) ∧
  (∀ (s : State) (h : ReqHead) (hours : Nat),
      s.phase = .run → Posted s h 11 → hours ≠ 0 → hours ≤ 255 →
      exec (.setScrubPeriod h hours) s = .next
        (({ s with hbm := s.hbm.map fun k => { k with scrubHours := hours } } : State).reply h 0)) ∧
  (∀ (s : State) (h : ReqHead) (watts : Nat),
      s.phase = .run → Posted s h 12 → 600 ≤ watts → watts ≤ 2400 →
      exec (.setPowerLimit h watts) s = .next (({ s with powerLimit := watts } : State).reply h 0)) ∧
  (∀ (s : State) (h : ReqHead) (k : Nat) (a : Word) (mine : TlbEntry → Bool) (i : Instr),
      s.phase = .run → Posted s h 13 → k < 8 → badAperture a = false →
      (mine = fun e => e.parcel == h.parcel && e.maps (2 ^ 44) (2 ^ 45)) → s.engineHolds mine = false →
      ((s.traverses.any fun e => e.1 == h.parcel && ofHost e.2.cursorLoc) = false) →
      s.pins none (fun _ c => c.pages.any mine) = false → i = .writeHostAperture h k a →
      exec (.writeHostAperture h k a) s = .next (((((s.asking i).dropPages mine).dropTlb mine).setParcel h.parcel
        { s.parcel h.parcel with apertures := (s.parcel h.parcel).apertures.setIfInBounds k a }).answered i 0)) ∧
  (∀ (s u : State) (tids : List Nat),
      tsorted s.threads = true → u = s.stopThreads tids →
      (∀ e ∈ u.threads, e.1 ∉ tids ∧ ∃ e0 ∈ s.threads, e0.1 = e.1 ∧ e0.2.parcel = e.2.parcel) ∧ (∀ c ∈ u.copies, c.tid ∉ tids) ∧
      (∀ d ∈ u.drains, d.tid ∉ tids) ∧ (∀ e ∈ u.departed, e.1 ∉ tids) ∧ (∀ e ∈ u.farQueues, ∀ f ∈ e.2, f.2.1 ∉ tids) ∧
      ∀ q ∈ u.fabric, ∀ k, q.tid = some k → k ∉ tids) ∧
  (∀ (s u : State) (p : Nat),
      p < 64 → tsorted s.threads = true → u = s.beginEnd p →
      (u.parcel p).state = 2 ∧ (u.parcel p).outkey = 0 ∧ (∀ e ∈ u.threads, e.2.parcel ≠ p) ∧ (∀ c ∈ u.copies, c.parcel ≠ p) ∧
      (∀ rs ∈ u.regions, ∀ r ∈ rs, r.parcel ≠ p) ∧ (∀ e ∈ u.keys, e.2.localParcel ≠ p) ∧ (∀ e ∈ u.tlb, e.2.parcel ≠ p) ∧
      (∀ q ∈ u.fabric, q.parcel = p → q.reply = .combined)) ∧
  (∀ (s u : State) (p : Nat),
      p < 64 → tsorted s.frameOwner = true → u = s.endParcel p →
      u.parcel p = Parcel.free ∧ (∀ e ∈ u.frameOwner, e.2 ≠ p) ∧ (∀ e ∈ u.blockOwner, e.2 ≠ p) ∧ (∀ e ∈ u.leaving, e.2 ≠ p) ∧
      (∀ e ∈ s.frameOwner, e.2 = p → ∀ l, l / 512 = e.1 → u.live.contains (l / 32) = false) ∧
      (∀ c < 96, tfind c s.leaving = some p ∨ (tfind c s.leaving = none ∧ (s.parcel p).crews.getLsbD c = true) →
        ∀ off < 2 ^ 23, u.mem.byte (scratchLoc c off) = 0))
end

