-- ==== Sys2Proof/Laws/State.lean ====
section
/-! SUPPORT. What each update of the state and of a context leaves of every field. -/

set_option linter.unusedSimpArgs false
set_option Elab.async false

namespace Sys2Proof.Machine

@[simp] theorem State.setThread_turns (s : State) (t : Thread) : (s.setThread t).turns = s.turns := rfl
@[simp] theorem State.setThread_actor (s : State) (t : Thread) : (s.setThread t).actor = s.actor := rfl
@[simp] theorem State.setThread_fetched (s : State) (t : Thread) : (s.setThread t).fetched = s.fetched := rfl
@[simp] theorem State.setThread_fetchPage (s : State) (t : Thread) : (s.setThread t).fetchPage = s.fetchPage := rfl
@[simp] theorem State.setThread_defer (s : State) (t : Thread) : (s.setThread t).defer = s.defer := rfl
@[simp] theorem State.setThread_cut (s : State) (t : Thread) : (s.setThread t).cut = s.cut := rfl
@[simp] theorem State.setThread_draws (s : State) (t : Thread) : (s.setThread t).draws = s.draws := rfl
@[simp] theorem State.setThread_rota (s : State) (t : Thread) : (s.setThread t).rota = s.rota := rfl
@[simp] theorem State.setThread_phase (s : State) (t : Thread) : (s.setThread t).phase = s.phase := rfl
@[simp] theorem State.setThread_devnum (s : State) (t : Thread) : (s.setThread t).devnum = s.devnum := rfl
@[simp] theorem State.setThread_cycle (s : State) (t : Thread) : (s.setThread t).cycle = s.cycle := rfl
@[simp] theorem State.setThread_time (s : State) (t : Thread) : (s.setThread t).time = s.time := rfl
@[simp] theorem State.setThread_clock (s : State) (t : Thread) : (s.setThread t).clock = s.clock := rfl
@[simp] theorem State.setThread_windowStart (s : State) (t : Thread) : (s.setThread t).windowStart = s.windowStart := rfl
@[simp] theorem State.setThread_powerLimit (s : State) (t : Thread) : (s.setThread t).powerLimit = s.powerLimit := rfl
@[simp] theorem State.setThread_thermalHold (s : State) (t : Thread) : (s.setThread t).thermalHold = s.thermalHold := rfl
@[simp] theorem State.setThread_mem (s : State) (t : Thread) : (s.setThread t).mem = s.mem := rfl
@[simp] theorem State.setThread_live (s : State) (t : Thread) : (s.setThread t).live = s.live := rfl
@[simp] theorem State.setThread_poisoned (s : State) (t : Thread) : (s.setThread t).poisoned = s.poisoned := rfl
@[simp] theorem State.setThread_lineKver (s : State) (t : Thread) : (s.setThread t).lineKver = s.lineKver := rfl
@[simp] theorem State.setThread_scratchPoison (s : State) (t : Thread) : (s.setThread t).scratchPoison = s.scratchPoison := rfl
@[simp] theorem State.setThread_frameOwner (s : State) (t : Thread) : (s.setThread t).frameOwner = s.frameOwner := rfl
@[simp] theorem State.setThread_blockOwner (s : State) (t : Thread) : (s.setThread t).blockOwner = s.blockOwner := rfl
@[simp] theorem State.setThread_parcels (s : State) (t : Thread) : (s.setThread t).parcels = s.parcels := rfl
@[simp] theorem State.setThread_keys (s : State) (t : Thread) : (s.setThread t).keys = s.keys := rfl
@[simp] theorem State.setThread_routes (s : State) (t : Thread) : (s.setThread t).routes = s.routes := rfl
@[simp] theorem State.setThread_lost (s : State) (t : Thread) : (s.setThread t).lost = s.lost := rfl
@[simp] theorem State.setThread_ports (s : State) (t : Thread) : (s.setThread t).ports = s.ports := rfl
@[simp] theorem State.setThread_fyzWidth (s : State) (t : Thread) : (s.setThread t).fyzWidth = s.fyzWidth := rfl
@[simp] theorem State.setThread_fyzVersion (s : State) (t : Thread) : (s.setThread t).fyzVersion = s.fyzVersion := rfl
@[simp] theorem State.setThread_fyzMax (s : State) (t : Thread) : (s.setThread t).fyzMax = s.fyzMax := rfl
@[simp] theorem State.setThread_portHeard (s : State) (t : Thread) : (s.setThread t).portHeard = s.portHeard := rfl
@[simp] theorem State.setThread_portSent (s : State) (t : Thread) : (s.setThread t).portSent = s.portSent := rfl
@[simp] theorem State.setThread_beatSent (s : State) (t : Thread) : (s.setThread t).beatSent = s.beatSent := rfl
@[simp] theorem State.setThread_beatHeard (s : State) (t : Thread) : (s.setThread t).beatHeard = s.beatHeard := rfl
@[simp] theorem State.setThread_answers (s : State) (t : Thread) : (s.setThread t).answers = s.answers := rfl
@[simp] theorem State.setThread_cores (s : State) (t : Thread) : (s.setThread t).cores = s.cores := rfl
@[simp] theorem State.setThread_regions (s : State) (t : Thread) : (s.setThread t).regions = s.regions := rfl
@[simp] theorem State.setThread_tlb (s : State) (t : Thread) : (s.setThread t).tlb = s.tlb := rfl
@[simp] theorem State.setThread_copiesMgd (s : State) (t : Thread) : (s.setThread t).copiesMgd = s.copiesMgd := rfl
@[simp] theorem State.setThread_writeBacks (s : State) (t : Thread) : (s.setThread t).writeBacks = s.writeBacks := rfl
@[simp] theorem State.setThread_launches (s : State) (t : Thread) : (s.setThread t).launches = s.launches := rfl
@[simp] theorem State.setThread_nextLaunch (s : State) (t : Thread) : (s.setThread t).nextLaunch = s.nextLaunch := rfl
@[simp] theorem State.setThread_nextId (s : State) (t : Thread) : (s.setThread t).nextId = s.nextId := rfl
@[simp] theorem State.setThread_persistent (s : State) (t : Thread) : (s.setThread t).persistent = s.persistent := rfl
@[simp] theorem State.setThread_ticketDie (s : State) (t : Thread) : (s.setThread t).ticketDie = s.ticketDie := rfl
@[simp] theorem State.setThread_ticket (s : State) (t : Thread) : (s.setThread t).ticket = s.ticket := rfl
@[simp] theorem State.setThread_priorityQueues (s : State) (t : Thread) : (s.setThread t).priorityQueues = s.priorityQueues := rfl
@[simp] theorem State.setThread_farQueues (s : State) (t : Thread) : (s.setThread t).farQueues = s.farQueues := rfl
@[simp] theorem State.setThread_farWaits (s : State) (t : Thread) : (s.setThread t).farWaits = s.farWaits := rfl
@[simp] theorem State.setThread_copies (s : State) (t : Thread) : (s.setThread t).copies = s.copies := rfl
@[simp] theorem State.setThread_drains (s : State) (t : Thread) : (s.setThread t).drains = s.drains := rfl
@[simp] theorem State.setThread_engines (s : State) (t : Thread) : (s.setThread t).engines = s.engines := rfl
@[simp] theorem State.setThread_departed (s : State) (t : Thread) : (s.setThread t).departed = s.departed := rfl
@[simp] theorem State.setThread_traverses (s : State) (t : Thread) : (s.setThread t).traverses = s.traverses := rfl
@[simp] theorem State.setThread_lastPoster (s : State) (t : Thread) : (s.setThread t).lastPoster = s.lastPoster := rfl
@[simp] theorem State.setThread_fabric (s : State) (t : Thread) : (s.setThread t).fabric = s.fabric := rfl
@[simp] theorem State.setThread_hbm (s : State) (t : Thread) : (s.setThread t).hbm = s.hbm := rfl
@[simp] theorem State.setThread_gated (s : State) (t : Thread) : (s.setThread t).gated = s.gated := rfl
@[simp] theorem State.setThread_busy (s : State) (t : Thread) : (s.setThread t).busy = s.busy := rfl
@[simp] theorem State.setThread_leaving (s : State) (t : Thread) : (s.setThread t).leaving = s.leaving := rfl
@[simp] theorem State.setThread_counters (s : State) (t : Thread) : (s.setThread t).counters = s.counters := rfl
@[simp] theorem State.setThread_sent (s : State) (t : Thread) : (s.setThread t).sent = s.sent := rfl
@[simp] theorem State.setThread_requests (s : State) (t : Thread) : (s.setThread t).requests = s.requests := rfl
@[simp] theorem State.setThread_store (s : State) (t : Thread) : (s.setThread t).store = s.store := rfl

@[simp] theorem State.setThread_threads (s : State) (t : Thread) : (s.setThread t).threads = tput t.tid t s.threads := rfl

@[simp] theorem State.setParcel_turns (s : State) (p : Nat) (q : Parcel) : (s.setParcel p q).turns = s.turns := rfl
@[simp] theorem State.setParcel_actor (s : State) (p : Nat) (q : Parcel) : (s.setParcel p q).actor = s.actor := rfl
@[simp] theorem State.setParcel_fetched (s : State) (p : Nat) (q : Parcel) : (s.setParcel p q).fetched = s.fetched := rfl
@[simp] theorem State.setParcel_fetchPage (s : State) (p : Nat) (q : Parcel) : (s.setParcel p q).fetchPage = s.fetchPage := rfl
@[simp] theorem State.setParcel_defer (s : State) (p : Nat) (q : Parcel) : (s.setParcel p q).defer = s.defer := rfl
@[simp] theorem State.setParcel_cut (s : State) (p : Nat) (q : Parcel) : (s.setParcel p q).cut = s.cut := rfl
@[simp] theorem State.setParcel_draws (s : State) (p : Nat) (q : Parcel) : (s.setParcel p q).draws = s.draws := rfl
@[simp] theorem State.setParcel_rota (s : State) (p : Nat) (q : Parcel) : (s.setParcel p q).rota = s.rota := rfl
@[simp] theorem State.setParcel_phase (s : State) (p : Nat) (q : Parcel) : (s.setParcel p q).phase = s.phase := rfl
@[simp] theorem State.setParcel_devnum (s : State) (p : Nat) (q : Parcel) : (s.setParcel p q).devnum = s.devnum := rfl
@[simp] theorem State.setParcel_cycle (s : State) (p : Nat) (q : Parcel) : (s.setParcel p q).cycle = s.cycle := rfl
@[simp] theorem State.setParcel_time (s : State) (p : Nat) (q : Parcel) : (s.setParcel p q).time = s.time := rfl
@[simp] theorem State.setParcel_clock (s : State) (p : Nat) (q : Parcel) : (s.setParcel p q).clock = s.clock := rfl
@[simp] theorem State.setParcel_windowStart (s : State) (p : Nat) (q : Parcel) : (s.setParcel p q).windowStart = s.windowStart := rfl
@[simp] theorem State.setParcel_powerLimit (s : State) (p : Nat) (q : Parcel) : (s.setParcel p q).powerLimit = s.powerLimit := rfl
@[simp] theorem State.setParcel_thermalHold (s : State) (p : Nat) (q : Parcel) : (s.setParcel p q).thermalHold = s.thermalHold := rfl
@[simp] theorem State.setParcel_mem (s : State) (p : Nat) (q : Parcel) : (s.setParcel p q).mem = s.mem := rfl
@[simp] theorem State.setParcel_live (s : State) (p : Nat) (q : Parcel) : (s.setParcel p q).live = s.live := rfl
@[simp] theorem State.setParcel_poisoned (s : State) (p : Nat) (q : Parcel) : (s.setParcel p q).poisoned = s.poisoned := rfl
@[simp] theorem State.setParcel_lineKver (s : State) (p : Nat) (q : Parcel) : (s.setParcel p q).lineKver = s.lineKver := rfl
@[simp] theorem State.setParcel_scratchPoison (s : State) (p : Nat) (q : Parcel) : (s.setParcel p q).scratchPoison = s.scratchPoison := rfl
@[simp] theorem State.setParcel_frameOwner (s : State) (p : Nat) (q : Parcel) : (s.setParcel p q).frameOwner = s.frameOwner := rfl
@[simp] theorem State.setParcel_blockOwner (s : State) (p : Nat) (q : Parcel) : (s.setParcel p q).blockOwner = s.blockOwner := rfl
@[simp] theorem State.setParcel_keys (s : State) (p : Nat) (q : Parcel) : (s.setParcel p q).keys = s.keys := rfl
@[simp] theorem State.setParcel_routes (s : State) (p : Nat) (q : Parcel) : (s.setParcel p q).routes = s.routes := rfl
@[simp] theorem State.setParcel_lost (s : State) (p : Nat) (q : Parcel) : (s.setParcel p q).lost = s.lost := rfl
@[simp] theorem State.setParcel_ports (s : State) (p : Nat) (q : Parcel) : (s.setParcel p q).ports = s.ports := rfl
@[simp] theorem State.setParcel_fyzWidth (s : State) (p : Nat) (q : Parcel) : (s.setParcel p q).fyzWidth = s.fyzWidth := rfl
@[simp] theorem State.setParcel_fyzVersion (s : State) (p : Nat) (q : Parcel) : (s.setParcel p q).fyzVersion = s.fyzVersion := rfl
@[simp] theorem State.setParcel_fyzMax (s : State) (p : Nat) (q : Parcel) : (s.setParcel p q).fyzMax = s.fyzMax := rfl
@[simp] theorem State.setParcel_portHeard (s : State) (p : Nat) (q : Parcel) : (s.setParcel p q).portHeard = s.portHeard := rfl
@[simp] theorem State.setParcel_portSent (s : State) (p : Nat) (q : Parcel) : (s.setParcel p q).portSent = s.portSent := rfl
@[simp] theorem State.setParcel_beatSent (s : State) (p : Nat) (q : Parcel) : (s.setParcel p q).beatSent = s.beatSent := rfl
@[simp] theorem State.setParcel_beatHeard (s : State) (p : Nat) (q : Parcel) : (s.setParcel p q).beatHeard = s.beatHeard := rfl
@[simp] theorem State.setParcel_answers (s : State) (p : Nat) (q : Parcel) : (s.setParcel p q).answers = s.answers := rfl
@[simp] theorem State.setParcel_cores (s : State) (p : Nat) (q : Parcel) : (s.setParcel p q).cores = s.cores := rfl
@[simp] theorem State.setParcel_regions (s : State) (p : Nat) (q : Parcel) : (s.setParcel p q).regions = s.regions := rfl
@[simp] theorem State.setParcel_tlb (s : State) (p : Nat) (q : Parcel) : (s.setParcel p q).tlb = s.tlb := rfl
@[simp] theorem State.setParcel_copiesMgd (s : State) (p : Nat) (q : Parcel) : (s.setParcel p q).copiesMgd = s.copiesMgd := rfl
@[simp] theorem State.setParcel_writeBacks (s : State) (p : Nat) (q : Parcel) : (s.setParcel p q).writeBacks = s.writeBacks := rfl
@[simp] theorem State.setParcel_threads (s : State) (p : Nat) (q : Parcel) : (s.setParcel p q).threads = s.threads := rfl
@[simp] theorem State.setParcel_launches (s : State) (p : Nat) (q : Parcel) : (s.setParcel p q).launches = s.launches := rfl
@[simp] theorem State.setParcel_nextLaunch (s : State) (p : Nat) (q : Parcel) : (s.setParcel p q).nextLaunch = s.nextLaunch := rfl
@[simp] theorem State.setParcel_nextId (s : State) (p : Nat) (q : Parcel) : (s.setParcel p q).nextId = s.nextId := rfl
@[simp] theorem State.setParcel_persistent (s : State) (p : Nat) (q : Parcel) : (s.setParcel p q).persistent = s.persistent := rfl
@[simp] theorem State.setParcel_ticketDie (s : State) (p : Nat) (q : Parcel) : (s.setParcel p q).ticketDie = s.ticketDie := rfl
@[simp] theorem State.setParcel_ticket (s : State) (p : Nat) (q : Parcel) : (s.setParcel p q).ticket = s.ticket := rfl
@[simp] theorem State.setParcel_priorityQueues (s : State) (p : Nat) (q : Parcel) : (s.setParcel p q).priorityQueues = s.priorityQueues := rfl
@[simp] theorem State.setParcel_farQueues (s : State) (p : Nat) (q : Parcel) : (s.setParcel p q).farQueues = s.farQueues := rfl
@[simp] theorem State.setParcel_farWaits (s : State) (p : Nat) (q : Parcel) : (s.setParcel p q).farWaits = s.farWaits := rfl
@[simp] theorem State.setParcel_copies (s : State) (p : Nat) (q : Parcel) : (s.setParcel p q).copies = s.copies := rfl
@[simp] theorem State.setParcel_drains (s : State) (p : Nat) (q : Parcel) : (s.setParcel p q).drains = s.drains := rfl
@[simp] theorem State.setParcel_engines (s : State) (p : Nat) (q : Parcel) : (s.setParcel p q).engines = s.engines := rfl
@[simp] theorem State.setParcel_departed (s : State) (p : Nat) (q : Parcel) : (s.setParcel p q).departed = s.departed := rfl
@[simp] theorem State.setParcel_traverses (s : State) (p : Nat) (q : Parcel) : (s.setParcel p q).traverses = s.traverses := rfl
@[simp] theorem State.setParcel_lastPoster (s : State) (p : Nat) (q : Parcel) : (s.setParcel p q).lastPoster = s.lastPoster := rfl
@[simp] theorem State.setParcel_fabric (s : State) (p : Nat) (q : Parcel) : (s.setParcel p q).fabric = s.fabric := rfl
@[simp] theorem State.setParcel_hbm (s : State) (p : Nat) (q : Parcel) : (s.setParcel p q).hbm = s.hbm := rfl
@[simp] theorem State.setParcel_gated (s : State) (p : Nat) (q : Parcel) : (s.setParcel p q).gated = s.gated := rfl
@[simp] theorem State.setParcel_busy (s : State) (p : Nat) (q : Parcel) : (s.setParcel p q).busy = s.busy := rfl
@[simp] theorem State.setParcel_leaving (s : State) (p : Nat) (q : Parcel) : (s.setParcel p q).leaving = s.leaving := rfl
@[simp] theorem State.setParcel_counters (s : State) (p : Nat) (q : Parcel) : (s.setParcel p q).counters = s.counters := rfl
@[simp] theorem State.setParcel_sent (s : State) (p : Nat) (q : Parcel) : (s.setParcel p q).sent = s.sent := rfl
@[simp] theorem State.setParcel_requests (s : State) (p : Nat) (q : Parcel) : (s.setParcel p q).requests = s.requests := rfl
@[simp] theorem State.setParcel_store (s : State) (p : Nat) (q : Parcel) : (s.setParcel p q).store = s.store := rfl

@[simp] theorem State.setCore_turns (s : State) (k : Nat) (q : CoreSt) : (s.setCore k q).turns = s.turns := rfl
@[simp] theorem State.setCore_actor (s : State) (k : Nat) (q : CoreSt) : (s.setCore k q).actor = s.actor := rfl
@[simp] theorem State.setCore_fetched (s : State) (k : Nat) (q : CoreSt) : (s.setCore k q).fetched = s.fetched := rfl
@[simp] theorem State.setCore_fetchPage (s : State) (k : Nat) (q : CoreSt) : (s.setCore k q).fetchPage = s.fetchPage := rfl
@[simp] theorem State.setCore_defer (s : State) (k : Nat) (q : CoreSt) : (s.setCore k q).defer = s.defer := rfl
@[simp] theorem State.setCore_cut (s : State) (k : Nat) (q : CoreSt) : (s.setCore k q).cut = s.cut := rfl
@[simp] theorem State.setCore_draws (s : State) (k : Nat) (q : CoreSt) : (s.setCore k q).draws = s.draws := rfl
@[simp] theorem State.setCore_rota (s : State) (k : Nat) (q : CoreSt) : (s.setCore k q).rota = s.rota := rfl
@[simp] theorem State.setCore_phase (s : State) (k : Nat) (q : CoreSt) : (s.setCore k q).phase = s.phase := rfl
@[simp] theorem State.setCore_devnum (s : State) (k : Nat) (q : CoreSt) : (s.setCore k q).devnum = s.devnum := rfl
@[simp] theorem State.setCore_cycle (s : State) (k : Nat) (q : CoreSt) : (s.setCore k q).cycle = s.cycle := rfl
@[simp] theorem State.setCore_time (s : State) (k : Nat) (q : CoreSt) : (s.setCore k q).time = s.time := rfl
@[simp] theorem State.setCore_clock (s : State) (k : Nat) (q : CoreSt) : (s.setCore k q).clock = s.clock := rfl
@[simp] theorem State.setCore_windowStart (s : State) (k : Nat) (q : CoreSt) : (s.setCore k q).windowStart = s.windowStart := rfl
@[simp] theorem State.setCore_powerLimit (s : State) (k : Nat) (q : CoreSt) : (s.setCore k q).powerLimit = s.powerLimit := rfl
@[simp] theorem State.setCore_thermalHold (s : State) (k : Nat) (q : CoreSt) : (s.setCore k q).thermalHold = s.thermalHold := rfl
@[simp] theorem State.setCore_mem (s : State) (k : Nat) (q : CoreSt) : (s.setCore k q).mem = s.mem := rfl
@[simp] theorem State.setCore_live (s : State) (k : Nat) (q : CoreSt) : (s.setCore k q).live = s.live := rfl
@[simp] theorem State.setCore_poisoned (s : State) (k : Nat) (q : CoreSt) : (s.setCore k q).poisoned = s.poisoned := rfl
@[simp] theorem State.setCore_lineKver (s : State) (k : Nat) (q : CoreSt) : (s.setCore k q).lineKver = s.lineKver := rfl
@[simp] theorem State.setCore_scratchPoison (s : State) (k : Nat) (q : CoreSt) : (s.setCore k q).scratchPoison = s.scratchPoison := rfl
@[simp] theorem State.setCore_frameOwner (s : State) (k : Nat) (q : CoreSt) : (s.setCore k q).frameOwner = s.frameOwner := rfl
@[simp] theorem State.setCore_blockOwner (s : State) (k : Nat) (q : CoreSt) : (s.setCore k q).blockOwner = s.blockOwner := rfl
@[simp] theorem State.setCore_parcels (s : State) (k : Nat) (q : CoreSt) : (s.setCore k q).parcels = s.parcels := rfl
@[simp] theorem State.setCore_keys (s : State) (k : Nat) (q : CoreSt) : (s.setCore k q).keys = s.keys := rfl
@[simp] theorem State.setCore_routes (s : State) (k : Nat) (q : CoreSt) : (s.setCore k q).routes = s.routes := rfl
@[simp] theorem State.setCore_lost (s : State) (k : Nat) (q : CoreSt) : (s.setCore k q).lost = s.lost := rfl
@[simp] theorem State.setCore_ports (s : State) (k : Nat) (q : CoreSt) : (s.setCore k q).ports = s.ports := rfl
@[simp] theorem State.setCore_fyzWidth (s : State) (k : Nat) (q : CoreSt) : (s.setCore k q).fyzWidth = s.fyzWidth := rfl
@[simp] theorem State.setCore_fyzVersion (s : State) (k : Nat) (q : CoreSt) : (s.setCore k q).fyzVersion = s.fyzVersion := rfl
@[simp] theorem State.setCore_fyzMax (s : State) (k : Nat) (q : CoreSt) : (s.setCore k q).fyzMax = s.fyzMax := rfl
@[simp] theorem State.setCore_portHeard (s : State) (k : Nat) (q : CoreSt) : (s.setCore k q).portHeard = s.portHeard := rfl
@[simp] theorem State.setCore_portSent (s : State) (k : Nat) (q : CoreSt) : (s.setCore k q).portSent = s.portSent := rfl
@[simp] theorem State.setCore_beatSent (s : State) (k : Nat) (q : CoreSt) : (s.setCore k q).beatSent = s.beatSent := rfl
@[simp] theorem State.setCore_beatHeard (s : State) (k : Nat) (q : CoreSt) : (s.setCore k q).beatHeard = s.beatHeard := rfl
@[simp] theorem State.setCore_answers (s : State) (k : Nat) (q : CoreSt) : (s.setCore k q).answers = s.answers := rfl
@[simp] theorem State.setCore_regions (s : State) (k : Nat) (q : CoreSt) : (s.setCore k q).regions = s.regions := rfl
@[simp] theorem State.setCore_tlb (s : State) (k : Nat) (q : CoreSt) : (s.setCore k q).tlb = s.tlb := rfl
@[simp] theorem State.setCore_copiesMgd (s : State) (k : Nat) (q : CoreSt) : (s.setCore k q).copiesMgd = s.copiesMgd := rfl
@[simp] theorem State.setCore_writeBacks (s : State) (k : Nat) (q : CoreSt) : (s.setCore k q).writeBacks = s.writeBacks := rfl
@[simp] theorem State.setCore_threads (s : State) (k : Nat) (q : CoreSt) : (s.setCore k q).threads = s.threads := rfl
@[simp] theorem State.setCore_launches (s : State) (k : Nat) (q : CoreSt) : (s.setCore k q).launches = s.launches := rfl
@[simp] theorem State.setCore_nextLaunch (s : State) (k : Nat) (q : CoreSt) : (s.setCore k q).nextLaunch = s.nextLaunch := rfl
@[simp] theorem State.setCore_nextId (s : State) (k : Nat) (q : CoreSt) : (s.setCore k q).nextId = s.nextId := rfl
@[simp] theorem State.setCore_persistent (s : State) (k : Nat) (q : CoreSt) : (s.setCore k q).persistent = s.persistent := rfl
@[simp] theorem State.setCore_ticketDie (s : State) (k : Nat) (q : CoreSt) : (s.setCore k q).ticketDie = s.ticketDie := rfl
@[simp] theorem State.setCore_ticket (s : State) (k : Nat) (q : CoreSt) : (s.setCore k q).ticket = s.ticket := rfl
@[simp] theorem State.setCore_priorityQueues (s : State) (k : Nat) (q : CoreSt) : (s.setCore k q).priorityQueues = s.priorityQueues := rfl
@[simp] theorem State.setCore_farQueues (s : State) (k : Nat) (q : CoreSt) : (s.setCore k q).farQueues = s.farQueues := rfl
@[simp] theorem State.setCore_farWaits (s : State) (k : Nat) (q : CoreSt) : (s.setCore k q).farWaits = s.farWaits := rfl
@[simp] theorem State.setCore_copies (s : State) (k : Nat) (q : CoreSt) : (s.setCore k q).copies = s.copies := rfl
@[simp] theorem State.setCore_drains (s : State) (k : Nat) (q : CoreSt) : (s.setCore k q).drains = s.drains := rfl
@[simp] theorem State.setCore_engines (s : State) (k : Nat) (q : CoreSt) : (s.setCore k q).engines = s.engines := rfl
@[simp] theorem State.setCore_departed (s : State) (k : Nat) (q : CoreSt) : (s.setCore k q).departed = s.departed := rfl
@[simp] theorem State.setCore_traverses (s : State) (k : Nat) (q : CoreSt) : (s.setCore k q).traverses = s.traverses := rfl
@[simp] theorem State.setCore_lastPoster (s : State) (k : Nat) (q : CoreSt) : (s.setCore k q).lastPoster = s.lastPoster := rfl
@[simp] theorem State.setCore_fabric (s : State) (k : Nat) (q : CoreSt) : (s.setCore k q).fabric = s.fabric := rfl
@[simp] theorem State.setCore_hbm (s : State) (k : Nat) (q : CoreSt) : (s.setCore k q).hbm = s.hbm := rfl
@[simp] theorem State.setCore_gated (s : State) (k : Nat) (q : CoreSt) : (s.setCore k q).gated = s.gated := rfl
@[simp] theorem State.setCore_busy (s : State) (k : Nat) (q : CoreSt) : (s.setCore k q).busy = s.busy := rfl
@[simp] theorem State.setCore_leaving (s : State) (k : Nat) (q : CoreSt) : (s.setCore k q).leaving = s.leaving := rfl
@[simp] theorem State.setCore_counters (s : State) (k : Nat) (q : CoreSt) : (s.setCore k q).counters = s.counters := rfl
@[simp] theorem State.setCore_sent (s : State) (k : Nat) (q : CoreSt) : (s.setCore k q).sent = s.sent := rfl
@[simp] theorem State.setCore_requests (s : State) (k : Nat) (q : CoreSt) : (s.setCore k q).requests = s.requests := rfl
@[simp] theorem State.setCore_store (s : State) (k : Nat) (q : CoreSt) : (s.setCore k q).store = s.store := rfl

@[simp] theorem State.setStack_turns (s : State) (k : Nat) (q : StackSt) : (s.setStack k q).turns = s.turns := rfl
@[simp] theorem State.setStack_actor (s : State) (k : Nat) (q : StackSt) : (s.setStack k q).actor = s.actor := rfl
@[simp] theorem State.setStack_fetched (s : State) (k : Nat) (q : StackSt) : (s.setStack k q).fetched = s.fetched := rfl
@[simp] theorem State.setStack_fetchPage (s : State) (k : Nat) (q : StackSt) : (s.setStack k q).fetchPage = s.fetchPage := rfl
@[simp] theorem State.setStack_defer (s : State) (k : Nat) (q : StackSt) : (s.setStack k q).defer = s.defer := rfl
@[simp] theorem State.setStack_cut (s : State) (k : Nat) (q : StackSt) : (s.setStack k q).cut = s.cut := rfl
@[simp] theorem State.setStack_draws (s : State) (k : Nat) (q : StackSt) : (s.setStack k q).draws = s.draws := rfl
@[simp] theorem State.setStack_rota (s : State) (k : Nat) (q : StackSt) : (s.setStack k q).rota = s.rota := rfl
@[simp] theorem State.setStack_phase (s : State) (k : Nat) (q : StackSt) : (s.setStack k q).phase = s.phase := rfl
@[simp] theorem State.setStack_devnum (s : State) (k : Nat) (q : StackSt) : (s.setStack k q).devnum = s.devnum := rfl
@[simp] theorem State.setStack_cycle (s : State) (k : Nat) (q : StackSt) : (s.setStack k q).cycle = s.cycle := rfl
@[simp] theorem State.setStack_time (s : State) (k : Nat) (q : StackSt) : (s.setStack k q).time = s.time := rfl
@[simp] theorem State.setStack_clock (s : State) (k : Nat) (q : StackSt) : (s.setStack k q).clock = s.clock := rfl
@[simp] theorem State.setStack_windowStart (s : State) (k : Nat) (q : StackSt) : (s.setStack k q).windowStart = s.windowStart := rfl
@[simp] theorem State.setStack_powerLimit (s : State) (k : Nat) (q : StackSt) : (s.setStack k q).powerLimit = s.powerLimit := rfl
@[simp] theorem State.setStack_thermalHold (s : State) (k : Nat) (q : StackSt) : (s.setStack k q).thermalHold = s.thermalHold := rfl
@[simp] theorem State.setStack_mem (s : State) (k : Nat) (q : StackSt) : (s.setStack k q).mem = s.mem := rfl
@[simp] theorem State.setStack_live (s : State) (k : Nat) (q : StackSt) : (s.setStack k q).live = s.live := rfl
@[simp] theorem State.setStack_poisoned (s : State) (k : Nat) (q : StackSt) : (s.setStack k q).poisoned = s.poisoned := rfl
@[simp] theorem State.setStack_lineKver (s : State) (k : Nat) (q : StackSt) : (s.setStack k q).lineKver = s.lineKver := rfl
@[simp] theorem State.setStack_scratchPoison (s : State) (k : Nat) (q : StackSt) : (s.setStack k q).scratchPoison = s.scratchPoison := rfl
@[simp] theorem State.setStack_frameOwner (s : State) (k : Nat) (q : StackSt) : (s.setStack k q).frameOwner = s.frameOwner := rfl
@[simp] theorem State.setStack_blockOwner (s : State) (k : Nat) (q : StackSt) : (s.setStack k q).blockOwner = s.blockOwner := rfl
@[simp] theorem State.setStack_parcels (s : State) (k : Nat) (q : StackSt) : (s.setStack k q).parcels = s.parcels := rfl
@[simp] theorem State.setStack_keys (s : State) (k : Nat) (q : StackSt) : (s.setStack k q).keys = s.keys := rfl
@[simp] theorem State.setStack_routes (s : State) (k : Nat) (q : StackSt) : (s.setStack k q).routes = s.routes := rfl
@[simp] theorem State.setStack_lost (s : State) (k : Nat) (q : StackSt) : (s.setStack k q).lost = s.lost := rfl
@[simp] theorem State.setStack_ports (s : State) (k : Nat) (q : StackSt) : (s.setStack k q).ports = s.ports := rfl
@[simp] theorem State.setStack_fyzWidth (s : State) (k : Nat) (q : StackSt) : (s.setStack k q).fyzWidth = s.fyzWidth := rfl
@[simp] theorem State.setStack_fyzVersion (s : State) (k : Nat) (q : StackSt) : (s.setStack k q).fyzVersion = s.fyzVersion := rfl
@[simp] theorem State.setStack_fyzMax (s : State) (k : Nat) (q : StackSt) : (s.setStack k q).fyzMax = s.fyzMax := rfl
@[simp] theorem State.setStack_portHeard (s : State) (k : Nat) (q : StackSt) : (s.setStack k q).portHeard = s.portHeard := rfl
@[simp] theorem State.setStack_portSent (s : State) (k : Nat) (q : StackSt) : (s.setStack k q).portSent = s.portSent := rfl
@[simp] theorem State.setStack_beatSent (s : State) (k : Nat) (q : StackSt) : (s.setStack k q).beatSent = s.beatSent := rfl
@[simp] theorem State.setStack_beatHeard (s : State) (k : Nat) (q : StackSt) : (s.setStack k q).beatHeard = s.beatHeard := rfl
@[simp] theorem State.setStack_answers (s : State) (k : Nat) (q : StackSt) : (s.setStack k q).answers = s.answers := rfl
@[simp] theorem State.setStack_cores (s : State) (k : Nat) (q : StackSt) : (s.setStack k q).cores = s.cores := rfl
@[simp] theorem State.setStack_regions (s : State) (k : Nat) (q : StackSt) : (s.setStack k q).regions = s.regions := rfl
@[simp] theorem State.setStack_tlb (s : State) (k : Nat) (q : StackSt) : (s.setStack k q).tlb = s.tlb := rfl
@[simp] theorem State.setStack_copiesMgd (s : State) (k : Nat) (q : StackSt) : (s.setStack k q).copiesMgd = s.copiesMgd := rfl
@[simp] theorem State.setStack_writeBacks (s : State) (k : Nat) (q : StackSt) : (s.setStack k q).writeBacks = s.writeBacks := rfl
@[simp] theorem State.setStack_threads (s : State) (k : Nat) (q : StackSt) : (s.setStack k q).threads = s.threads := rfl
@[simp] theorem State.setStack_launches (s : State) (k : Nat) (q : StackSt) : (s.setStack k q).launches = s.launches := rfl
@[simp] theorem State.setStack_nextLaunch (s : State) (k : Nat) (q : StackSt) : (s.setStack k q).nextLaunch = s.nextLaunch := rfl
@[simp] theorem State.setStack_nextId (s : State) (k : Nat) (q : StackSt) : (s.setStack k q).nextId = s.nextId := rfl
@[simp] theorem State.setStack_persistent (s : State) (k : Nat) (q : StackSt) : (s.setStack k q).persistent = s.persistent := rfl
@[simp] theorem State.setStack_ticketDie (s : State) (k : Nat) (q : StackSt) : (s.setStack k q).ticketDie = s.ticketDie := rfl
@[simp] theorem State.setStack_ticket (s : State) (k : Nat) (q : StackSt) : (s.setStack k q).ticket = s.ticket := rfl
@[simp] theorem State.setStack_priorityQueues (s : State) (k : Nat) (q : StackSt) : (s.setStack k q).priorityQueues = s.priorityQueues := rfl
@[simp] theorem State.setStack_farQueues (s : State) (k : Nat) (q : StackSt) : (s.setStack k q).farQueues = s.farQueues := rfl
@[simp] theorem State.setStack_farWaits (s : State) (k : Nat) (q : StackSt) : (s.setStack k q).farWaits = s.farWaits := rfl
@[simp] theorem State.setStack_copies (s : State) (k : Nat) (q : StackSt) : (s.setStack k q).copies = s.copies := rfl
@[simp] theorem State.setStack_drains (s : State) (k : Nat) (q : StackSt) : (s.setStack k q).drains = s.drains := rfl
@[simp] theorem State.setStack_engines (s : State) (k : Nat) (q : StackSt) : (s.setStack k q).engines = s.engines := rfl
@[simp] theorem State.setStack_departed (s : State) (k : Nat) (q : StackSt) : (s.setStack k q).departed = s.departed := rfl
@[simp] theorem State.setStack_traverses (s : State) (k : Nat) (q : StackSt) : (s.setStack k q).traverses = s.traverses := rfl
@[simp] theorem State.setStack_lastPoster (s : State) (k : Nat) (q : StackSt) : (s.setStack k q).lastPoster = s.lastPoster := rfl
@[simp] theorem State.setStack_fabric (s : State) (k : Nat) (q : StackSt) : (s.setStack k q).fabric = s.fabric := rfl
@[simp] theorem State.setStack_gated (s : State) (k : Nat) (q : StackSt) : (s.setStack k q).gated = s.gated := rfl
@[simp] theorem State.setStack_busy (s : State) (k : Nat) (q : StackSt) : (s.setStack k q).busy = s.busy := rfl
@[simp] theorem State.setStack_leaving (s : State) (k : Nat) (q : StackSt) : (s.setStack k q).leaving = s.leaving := rfl
@[simp] theorem State.setStack_counters (s : State) (k : Nat) (q : StackSt) : (s.setStack k q).counters = s.counters := rfl
@[simp] theorem State.setStack_sent (s : State) (k : Nat) (q : StackSt) : (s.setStack k q).sent = s.sent := rfl
@[simp] theorem State.setStack_requests (s : State) (k : Nat) (q : StackSt) : (s.setStack k q).requests = s.requests := rfl
@[simp] theorem State.setStack_store (s : State) (k : Nat) (q : StackSt) : (s.setStack k q).store = s.store := rfl

@[simp] theorem State.setRegions_turns (s : State) (d : Nat) (l : List Region) : (s.setRegions d l).turns = s.turns := rfl
@[simp] theorem State.setRegions_actor (s : State) (d : Nat) (l : List Region) : (s.setRegions d l).actor = s.actor := rfl
@[simp] theorem State.setRegions_fetched (s : State) (d : Nat) (l : List Region) : (s.setRegions d l).fetched = s.fetched := rfl
@[simp] theorem State.setRegions_fetchPage (s : State) (d : Nat) (l : List Region) : (s.setRegions d l).fetchPage = s.fetchPage := rfl
@[simp] theorem State.setRegions_defer (s : State) (d : Nat) (l : List Region) : (s.setRegions d l).defer = s.defer := rfl
@[simp] theorem State.setRegions_cut (s : State) (d : Nat) (l : List Region) : (s.setRegions d l).cut = s.cut := rfl
@[simp] theorem State.setRegions_draws (s : State) (d : Nat) (l : List Region) : (s.setRegions d l).draws = s.draws := rfl
@[simp] theorem State.setRegions_rota (s : State) (d : Nat) (l : List Region) : (s.setRegions d l).rota = s.rota := rfl
@[simp] theorem State.setRegions_phase (s : State) (d : Nat) (l : List Region) : (s.setRegions d l).phase = s.phase := rfl
@[simp] theorem State.setRegions_devnum (s : State) (d : Nat) (l : List Region) : (s.setRegions d l).devnum = s.devnum := rfl
@[simp] theorem State.setRegions_cycle (s : State) (d : Nat) (l : List Region) : (s.setRegions d l).cycle = s.cycle := rfl
@[simp] theorem State.setRegions_time (s : State) (d : Nat) (l : List Region) : (s.setRegions d l).time = s.time := rfl
@[simp] theorem State.setRegions_clock (s : State) (d : Nat) (l : List Region) : (s.setRegions d l).clock = s.clock := rfl
@[simp] theorem State.setRegions_windowStart (s : State) (d : Nat) (l : List Region) : (s.setRegions d l).windowStart = s.windowStart := rfl
@[simp] theorem State.setRegions_powerLimit (s : State) (d : Nat) (l : List Region) : (s.setRegions d l).powerLimit = s.powerLimit := rfl
@[simp] theorem State.setRegions_thermalHold (s : State) (d : Nat) (l : List Region) : (s.setRegions d l).thermalHold = s.thermalHold := rfl
@[simp] theorem State.setRegions_mem (s : State) (d : Nat) (l : List Region) : (s.setRegions d l).mem = s.mem := rfl
@[simp] theorem State.setRegions_live (s : State) (d : Nat) (l : List Region) : (s.setRegions d l).live = s.live := rfl
@[simp] theorem State.setRegions_poisoned (s : State) (d : Nat) (l : List Region) : (s.setRegions d l).poisoned = s.poisoned := rfl
@[simp] theorem State.setRegions_lineKver (s : State) (d : Nat) (l : List Region) : (s.setRegions d l).lineKver = s.lineKver := rfl
@[simp] theorem State.setRegions_scratchPoison (s : State) (d : Nat) (l : List Region) : (s.setRegions d l).scratchPoison = s.scratchPoison := rfl
@[simp] theorem State.setRegions_frameOwner (s : State) (d : Nat) (l : List Region) : (s.setRegions d l).frameOwner = s.frameOwner := rfl
@[simp] theorem State.setRegions_blockOwner (s : State) (d : Nat) (l : List Region) : (s.setRegions d l).blockOwner = s.blockOwner := rfl
@[simp] theorem State.setRegions_parcels (s : State) (d : Nat) (l : List Region) : (s.setRegions d l).parcels = s.parcels := rfl
@[simp] theorem State.setRegions_keys (s : State) (d : Nat) (l : List Region) : (s.setRegions d l).keys = s.keys := rfl
@[simp] theorem State.setRegions_routes (s : State) (d : Nat) (l : List Region) : (s.setRegions d l).routes = s.routes := rfl
@[simp] theorem State.setRegions_lost (s : State) (d : Nat) (l : List Region) : (s.setRegions d l).lost = s.lost := rfl
@[simp] theorem State.setRegions_ports (s : State) (d : Nat) (l : List Region) : (s.setRegions d l).ports = s.ports := rfl
@[simp] theorem State.setRegions_fyzWidth (s : State) (d : Nat) (l : List Region) : (s.setRegions d l).fyzWidth = s.fyzWidth := rfl
@[simp] theorem State.setRegions_fyzVersion (s : State) (d : Nat) (l : List Region) : (s.setRegions d l).fyzVersion = s.fyzVersion := rfl
@[simp] theorem State.setRegions_fyzMax (s : State) (d : Nat) (l : List Region) : (s.setRegions d l).fyzMax = s.fyzMax := rfl
@[simp] theorem State.setRegions_portHeard (s : State) (d : Nat) (l : List Region) : (s.setRegions d l).portHeard = s.portHeard := rfl
@[simp] theorem State.setRegions_portSent (s : State) (d : Nat) (l : List Region) : (s.setRegions d l).portSent = s.portSent := rfl
@[simp] theorem State.setRegions_beatSent (s : State) (d : Nat) (l : List Region) : (s.setRegions d l).beatSent = s.beatSent := rfl
@[simp] theorem State.setRegions_beatHeard (s : State) (d : Nat) (l : List Region) : (s.setRegions d l).beatHeard = s.beatHeard := rfl
@[simp] theorem State.setRegions_answers (s : State) (d : Nat) (l : List Region) : (s.setRegions d l).answers = s.answers := rfl
@[simp] theorem State.setRegions_cores (s : State) (d : Nat) (l : List Region) : (s.setRegions d l).cores = s.cores := rfl
@[simp] theorem State.setRegions_tlb (s : State) (d : Nat) (l : List Region) : (s.setRegions d l).tlb = s.tlb := rfl
@[simp] theorem State.setRegions_copiesMgd (s : State) (d : Nat) (l : List Region) : (s.setRegions d l).copiesMgd = s.copiesMgd := rfl
@[simp] theorem State.setRegions_writeBacks (s : State) (d : Nat) (l : List Region) : (s.setRegions d l).writeBacks = s.writeBacks := rfl
@[simp] theorem State.setRegions_threads (s : State) (d : Nat) (l : List Region) : (s.setRegions d l).threads = s.threads := rfl
@[simp] theorem State.setRegions_launches (s : State) (d : Nat) (l : List Region) : (s.setRegions d l).launches = s.launches := rfl
@[simp] theorem State.setRegions_nextLaunch (s : State) (d : Nat) (l : List Region) : (s.setRegions d l).nextLaunch = s.nextLaunch := rfl
@[simp] theorem State.setRegions_nextId (s : State) (d : Nat) (l : List Region) : (s.setRegions d l).nextId = s.nextId := rfl
@[simp] theorem State.setRegions_persistent (s : State) (d : Nat) (l : List Region) : (s.setRegions d l).persistent = s.persistent := rfl
@[simp] theorem State.setRegions_ticketDie (s : State) (d : Nat) (l : List Region) : (s.setRegions d l).ticketDie = s.ticketDie := rfl
@[simp] theorem State.setRegions_ticket (s : State) (d : Nat) (l : List Region) : (s.setRegions d l).ticket = s.ticket := rfl
@[simp] theorem State.setRegions_priorityQueues (s : State) (d : Nat) (l : List Region) : (s.setRegions d l).priorityQueues = s.priorityQueues := rfl
@[simp] theorem State.setRegions_farQueues (s : State) (d : Nat) (l : List Region) : (s.setRegions d l).farQueues = s.farQueues := rfl
@[simp] theorem State.setRegions_farWaits (s : State) (d : Nat) (l : List Region) : (s.setRegions d l).farWaits = s.farWaits := rfl
@[simp] theorem State.setRegions_copies (s : State) (d : Nat) (l : List Region) : (s.setRegions d l).copies = s.copies := rfl
@[simp] theorem State.setRegions_drains (s : State) (d : Nat) (l : List Region) : (s.setRegions d l).drains = s.drains := rfl
@[simp] theorem State.setRegions_engines (s : State) (d : Nat) (l : List Region) : (s.setRegions d l).engines = s.engines := rfl
@[simp] theorem State.setRegions_departed (s : State) (d : Nat) (l : List Region) : (s.setRegions d l).departed = s.departed := rfl
@[simp] theorem State.setRegions_traverses (s : State) (d : Nat) (l : List Region) : (s.setRegions d l).traverses = s.traverses := rfl
@[simp] theorem State.setRegions_lastPoster (s : State) (d : Nat) (l : List Region) : (s.setRegions d l).lastPoster = s.lastPoster := rfl
@[simp] theorem State.setRegions_fabric (s : State) (d : Nat) (l : List Region) : (s.setRegions d l).fabric = s.fabric := rfl
@[simp] theorem State.setRegions_hbm (s : State) (d : Nat) (l : List Region) : (s.setRegions d l).hbm = s.hbm := rfl
@[simp] theorem State.setRegions_gated (s : State) (d : Nat) (l : List Region) : (s.setRegions d l).gated = s.gated := rfl
@[simp] theorem State.setRegions_busy (s : State) (d : Nat) (l : List Region) : (s.setRegions d l).busy = s.busy := rfl
@[simp] theorem State.setRegions_leaving (s : State) (d : Nat) (l : List Region) : (s.setRegions d l).leaving = s.leaving := rfl
@[simp] theorem State.setRegions_counters (s : State) (d : Nat) (l : List Region) : (s.setRegions d l).counters = s.counters := rfl
@[simp] theorem State.setRegions_sent (s : State) (d : Nat) (l : List Region) : (s.setRegions d l).sent = s.sent := rfl
@[simp] theorem State.setRegions_requests (s : State) (d : Nat) (l : List Region) : (s.setRegions d l).requests = s.requests := rfl
@[simp] theorem State.setRegions_store (s : State) (d : Nat) (l : List Region) : (s.setRegions d l).store = s.store := rfl

@[simp] theorem State.count_turns (s : State) (f : Counters → Counters) : (s.count f).turns = s.turns := rfl
@[simp] theorem State.count_actor (s : State) (f : Counters → Counters) : (s.count f).actor = s.actor := rfl
@[simp] theorem State.count_fetched (s : State) (f : Counters → Counters) : (s.count f).fetched = s.fetched := rfl
@[simp] theorem State.count_fetchPage (s : State) (f : Counters → Counters) : (s.count f).fetchPage = s.fetchPage := rfl
@[simp] theorem State.count_defer (s : State) (f : Counters → Counters) : (s.count f).defer = s.defer := rfl
@[simp] theorem State.count_cut (s : State) (f : Counters → Counters) : (s.count f).cut = s.cut := rfl
@[simp] theorem State.count_draws (s : State) (f : Counters → Counters) : (s.count f).draws = s.draws := rfl
@[simp] theorem State.count_rota (s : State) (f : Counters → Counters) : (s.count f).rota = s.rota := rfl
@[simp] theorem State.count_phase (s : State) (f : Counters → Counters) : (s.count f).phase = s.phase := rfl
@[simp] theorem State.count_devnum (s : State) (f : Counters → Counters) : (s.count f).devnum = s.devnum := rfl
@[simp] theorem State.count_cycle (s : State) (f : Counters → Counters) : (s.count f).cycle = s.cycle := rfl
@[simp] theorem State.count_time (s : State) (f : Counters → Counters) : (s.count f).time = s.time := rfl
@[simp] theorem State.count_clock (s : State) (f : Counters → Counters) : (s.count f).clock = s.clock := rfl
@[simp] theorem State.count_windowStart (s : State) (f : Counters → Counters) : (s.count f).windowStart = s.windowStart := rfl
@[simp] theorem State.count_powerLimit (s : State) (f : Counters → Counters) : (s.count f).powerLimit = s.powerLimit := rfl
@[simp] theorem State.count_thermalHold (s : State) (f : Counters → Counters) : (s.count f).thermalHold = s.thermalHold := rfl
@[simp] theorem State.count_mem (s : State) (f : Counters → Counters) : (s.count f).mem = s.mem := rfl
@[simp] theorem State.count_live (s : State) (f : Counters → Counters) : (s.count f).live = s.live := rfl
@[simp] theorem State.count_poisoned (s : State) (f : Counters → Counters) : (s.count f).poisoned = s.poisoned := rfl
@[simp] theorem State.count_lineKver (s : State) (f : Counters → Counters) : (s.count f).lineKver = s.lineKver := rfl
@[simp] theorem State.count_scratchPoison (s : State) (f : Counters → Counters) : (s.count f).scratchPoison = s.scratchPoison := rfl
@[simp] theorem State.count_frameOwner (s : State) (f : Counters → Counters) : (s.count f).frameOwner = s.frameOwner := rfl
@[simp] theorem State.count_blockOwner (s : State) (f : Counters → Counters) : (s.count f).blockOwner = s.blockOwner := rfl
@[simp] theorem State.count_parcels (s : State) (f : Counters → Counters) : (s.count f).parcels = s.parcels := rfl
@[simp] theorem State.count_keys (s : State) (f : Counters → Counters) : (s.count f).keys = s.keys := rfl
@[simp] theorem State.count_routes (s : State) (f : Counters → Counters) : (s.count f).routes = s.routes := rfl
@[simp] theorem State.count_lost (s : State) (f : Counters → Counters) : (s.count f).lost = s.lost := rfl
@[simp] theorem State.count_ports (s : State) (f : Counters → Counters) : (s.count f).ports = s.ports := rfl
@[simp] theorem State.count_fyzWidth (s : State) (f : Counters → Counters) : (s.count f).fyzWidth = s.fyzWidth := rfl
@[simp] theorem State.count_fyzVersion (s : State) (f : Counters → Counters) : (s.count f).fyzVersion = s.fyzVersion := rfl
@[simp] theorem State.count_fyzMax (s : State) (f : Counters → Counters) : (s.count f).fyzMax = s.fyzMax := rfl
@[simp] theorem State.count_portHeard (s : State) (f : Counters → Counters) : (s.count f).portHeard = s.portHeard := rfl
@[simp] theorem State.count_portSent (s : State) (f : Counters → Counters) : (s.count f).portSent = s.portSent := rfl
@[simp] theorem State.count_beatSent (s : State) (f : Counters → Counters) : (s.count f).beatSent = s.beatSent := rfl
@[simp] theorem State.count_beatHeard (s : State) (f : Counters → Counters) : (s.count f).beatHeard = s.beatHeard := rfl
@[simp] theorem State.count_answers (s : State) (f : Counters → Counters) : (s.count f).answers = s.answers := rfl
@[simp] theorem State.count_cores (s : State) (f : Counters → Counters) : (s.count f).cores = s.cores := rfl
@[simp] theorem State.count_regions (s : State) (f : Counters → Counters) : (s.count f).regions = s.regions := rfl
@[simp] theorem State.count_tlb (s : State) (f : Counters → Counters) : (s.count f).tlb = s.tlb := rfl
@[simp] theorem State.count_copiesMgd (s : State) (f : Counters → Counters) : (s.count f).copiesMgd = s.copiesMgd := rfl
@[simp] theorem State.count_writeBacks (s : State) (f : Counters → Counters) : (s.count f).writeBacks = s.writeBacks := rfl
@[simp] theorem State.count_threads (s : State) (f : Counters → Counters) : (s.count f).threads = s.threads := rfl
@[simp] theorem State.count_launches (s : State) (f : Counters → Counters) : (s.count f).launches = s.launches := rfl
@[simp] theorem State.count_nextLaunch (s : State) (f : Counters → Counters) : (s.count f).nextLaunch = s.nextLaunch := rfl
@[simp] theorem State.count_nextId (s : State) (f : Counters → Counters) : (s.count f).nextId = s.nextId := rfl
@[simp] theorem State.count_persistent (s : State) (f : Counters → Counters) : (s.count f).persistent = s.persistent := rfl
@[simp] theorem State.count_ticketDie (s : State) (f : Counters → Counters) : (s.count f).ticketDie = s.ticketDie := rfl
@[simp] theorem State.count_ticket (s : State) (f : Counters → Counters) : (s.count f).ticket = s.ticket := rfl
@[simp] theorem State.count_priorityQueues (s : State) (f : Counters → Counters) : (s.count f).priorityQueues = s.priorityQueues := rfl
@[simp] theorem State.count_farQueues (s : State) (f : Counters → Counters) : (s.count f).farQueues = s.farQueues := rfl
@[simp] theorem State.count_farWaits (s : State) (f : Counters → Counters) : (s.count f).farWaits = s.farWaits := rfl
@[simp] theorem State.count_copies (s : State) (f : Counters → Counters) : (s.count f).copies = s.copies := rfl
@[simp] theorem State.count_drains (s : State) (f : Counters → Counters) : (s.count f).drains = s.drains := rfl
@[simp] theorem State.count_engines (s : State) (f : Counters → Counters) : (s.count f).engines = s.engines := rfl
@[simp] theorem State.count_departed (s : State) (f : Counters → Counters) : (s.count f).departed = s.departed := rfl
@[simp] theorem State.count_traverses (s : State) (f : Counters → Counters) : (s.count f).traverses = s.traverses := rfl
@[simp] theorem State.count_lastPoster (s : State) (f : Counters → Counters) : (s.count f).lastPoster = s.lastPoster := rfl
@[simp] theorem State.count_fabric (s : State) (f : Counters → Counters) : (s.count f).fabric = s.fabric := rfl
@[simp] theorem State.count_hbm (s : State) (f : Counters → Counters) : (s.count f).hbm = s.hbm := rfl
@[simp] theorem State.count_gated (s : State) (f : Counters → Counters) : (s.count f).gated = s.gated := rfl
@[simp] theorem State.count_busy (s : State) (f : Counters → Counters) : (s.count f).busy = s.busy := rfl
@[simp] theorem State.count_leaving (s : State) (f : Counters → Counters) : (s.count f).leaving = s.leaving := rfl
@[simp] theorem State.count_sent (s : State) (f : Counters → Counters) : (s.count f).sent = s.sent := rfl
@[simp] theorem State.count_requests (s : State) (f : Counters → Counters) : (s.count f).requests = s.requests := rfl
@[simp] theorem State.count_store (s : State) (f : Counters → Counters) : (s.count f).store = s.store := rfl

@[simp] theorem State.send_turns (s : State) (m : Message) : (s.send m).turns = s.turns := rfl
@[simp] theorem State.send_actor (s : State) (m : Message) : (s.send m).actor = s.actor := rfl
@[simp] theorem State.send_fetched (s : State) (m : Message) : (s.send m).fetched = s.fetched := rfl
@[simp] theorem State.send_fetchPage (s : State) (m : Message) : (s.send m).fetchPage = s.fetchPage := rfl
@[simp] theorem State.send_defer (s : State) (m : Message) : (s.send m).defer = s.defer := rfl
@[simp] theorem State.send_cut (s : State) (m : Message) : (s.send m).cut = s.cut := rfl
@[simp] theorem State.send_draws (s : State) (m : Message) : (s.send m).draws = s.draws := rfl
@[simp] theorem State.send_rota (s : State) (m : Message) : (s.send m).rota = s.rota := rfl
@[simp] theorem State.send_phase (s : State) (m : Message) : (s.send m).phase = s.phase := rfl
@[simp] theorem State.send_devnum (s : State) (m : Message) : (s.send m).devnum = s.devnum := rfl
@[simp] theorem State.send_cycle (s : State) (m : Message) : (s.send m).cycle = s.cycle := rfl
@[simp] theorem State.send_time (s : State) (m : Message) : (s.send m).time = s.time := rfl
@[simp] theorem State.send_clock (s : State) (m : Message) : (s.send m).clock = s.clock := rfl
@[simp] theorem State.send_windowStart (s : State) (m : Message) : (s.send m).windowStart = s.windowStart := rfl
@[simp] theorem State.send_powerLimit (s : State) (m : Message) : (s.send m).powerLimit = s.powerLimit := rfl
@[simp] theorem State.send_thermalHold (s : State) (m : Message) : (s.send m).thermalHold = s.thermalHold := rfl
@[simp] theorem State.send_mem (s : State) (m : Message) : (s.send m).mem = s.mem := rfl
@[simp] theorem State.send_live (s : State) (m : Message) : (s.send m).live = s.live := rfl
@[simp] theorem State.send_poisoned (s : State) (m : Message) : (s.send m).poisoned = s.poisoned := rfl
@[simp] theorem State.send_lineKver (s : State) (m : Message) : (s.send m).lineKver = s.lineKver := rfl
@[simp] theorem State.send_scratchPoison (s : State) (m : Message) : (s.send m).scratchPoison = s.scratchPoison := rfl
@[simp] theorem State.send_frameOwner (s : State) (m : Message) : (s.send m).frameOwner = s.frameOwner := rfl
@[simp] theorem State.send_blockOwner (s : State) (m : Message) : (s.send m).blockOwner = s.blockOwner := rfl
@[simp] theorem State.send_parcels (s : State) (m : Message) : (s.send m).parcels = s.parcels := rfl
@[simp] theorem State.send_keys (s : State) (m : Message) : (s.send m).keys = s.keys := rfl
@[simp] theorem State.send_routes (s : State) (m : Message) : (s.send m).routes = s.routes := rfl
@[simp] theorem State.send_lost (s : State) (m : Message) : (s.send m).lost = s.lost := rfl
@[simp] theorem State.send_ports (s : State) (m : Message) : (s.send m).ports = s.ports := rfl
@[simp] theorem State.send_fyzWidth (s : State) (m : Message) : (s.send m).fyzWidth = s.fyzWidth := rfl
@[simp] theorem State.send_fyzVersion (s : State) (m : Message) : (s.send m).fyzVersion = s.fyzVersion := rfl
@[simp] theorem State.send_fyzMax (s : State) (m : Message) : (s.send m).fyzMax = s.fyzMax := rfl
@[simp] theorem State.send_portHeard (s : State) (m : Message) : (s.send m).portHeard = s.portHeard := rfl
@[simp] theorem State.send_portSent (s : State) (m : Message) : (s.send m).portSent = s.portSent := rfl
@[simp] theorem State.send_beatSent (s : State) (m : Message) : (s.send m).beatSent = s.beatSent := rfl
@[simp] theorem State.send_beatHeard (s : State) (m : Message) : (s.send m).beatHeard = s.beatHeard := rfl
@[simp] theorem State.send_answers (s : State) (m : Message) : (s.send m).answers = s.answers := rfl
@[simp] theorem State.send_cores (s : State) (m : Message) : (s.send m).cores = s.cores := rfl
@[simp] theorem State.send_regions (s : State) (m : Message) : (s.send m).regions = s.regions := rfl
@[simp] theorem State.send_tlb (s : State) (m : Message) : (s.send m).tlb = s.tlb := rfl
@[simp] theorem State.send_copiesMgd (s : State) (m : Message) : (s.send m).copiesMgd = s.copiesMgd := rfl
@[simp] theorem State.send_writeBacks (s : State) (m : Message) : (s.send m).writeBacks = s.writeBacks := rfl
@[simp] theorem State.send_threads (s : State) (m : Message) : (s.send m).threads = s.threads := rfl
@[simp] theorem State.send_launches (s : State) (m : Message) : (s.send m).launches = s.launches := rfl
@[simp] theorem State.send_nextLaunch (s : State) (m : Message) : (s.send m).nextLaunch = s.nextLaunch := rfl
@[simp] theorem State.send_nextId (s : State) (m : Message) : (s.send m).nextId = s.nextId := rfl
@[simp] theorem State.send_persistent (s : State) (m : Message) : (s.send m).persistent = s.persistent := rfl
@[simp] theorem State.send_ticketDie (s : State) (m : Message) : (s.send m).ticketDie = s.ticketDie := rfl
@[simp] theorem State.send_ticket (s : State) (m : Message) : (s.send m).ticket = s.ticket := rfl
@[simp] theorem State.send_priorityQueues (s : State) (m : Message) : (s.send m).priorityQueues = s.priorityQueues := rfl
@[simp] theorem State.send_farQueues (s : State) (m : Message) : (s.send m).farQueues = s.farQueues := rfl
@[simp] theorem State.send_farWaits (s : State) (m : Message) : (s.send m).farWaits = s.farWaits := rfl
@[simp] theorem State.send_copies (s : State) (m : Message) : (s.send m).copies = s.copies := rfl
@[simp] theorem State.send_drains (s : State) (m : Message) : (s.send m).drains = s.drains := rfl
@[simp] theorem State.send_engines (s : State) (m : Message) : (s.send m).engines = s.engines := rfl
@[simp] theorem State.send_departed (s : State) (m : Message) : (s.send m).departed = s.departed := rfl
@[simp] theorem State.send_traverses (s : State) (m : Message) : (s.send m).traverses = s.traverses := rfl
@[simp] theorem State.send_lastPoster (s : State) (m : Message) : (s.send m).lastPoster = s.lastPoster := rfl
@[simp] theorem State.send_fabric (s : State) (m : Message) : (s.send m).fabric = s.fabric := rfl
@[simp] theorem State.send_hbm (s : State) (m : Message) : (s.send m).hbm = s.hbm := rfl
@[simp] theorem State.send_gated (s : State) (m : Message) : (s.send m).gated = s.gated := rfl
@[simp] theorem State.send_busy (s : State) (m : Message) : (s.send m).busy = s.busy := rfl
@[simp] theorem State.send_leaving (s : State) (m : Message) : (s.send m).leaving = s.leaving := rfl
@[simp] theorem State.send_counters (s : State) (m : Message) : (s.send m).counters = s.counters := rfl
@[simp] theorem State.send_requests (s : State) (m : Message) : (s.send m).requests = s.requests := rfl
@[simp] theorem State.send_store (s : State) (m : Message) : (s.send m).store = s.store := rfl

@[simp] theorem Thread.past_tid (t : Thread) : (t.past).tid = t.tid := rfl
@[simp] theorem Thread.past_parcel (t : Thread) : (t.past).parcel = t.parcel := rfl
@[simp] theorem Thread.past_cls (t : Thread) : (t.past).cls = t.cls := rfl
@[simp] theorem Thread.past_part (t : Thread) : (t.past).part = t.part := rfl
@[simp] theorem Thread.past_prio (t : Thread) : (t.past).prio = t.prio := rfl
@[simp] theorem Thread.past_gang (t : Thread) : (t.past).gang = t.gang := rfl
@[simp] theorem Thread.past_chunkhint (t : Thread) : (t.past).chunkhint = t.chunkhint := rfl
@[simp] theorem Thread.past_st (t : Thread) : (t.past).st = t.st := rfl
@[simp] theorem Thread.past_ctx (t : Thread) : (t.past).ctx = t.ctx := rfl
@[simp] theorem Thread.past_state (t : Thread) : (t.past).state = t.state := rfl
@[simp] theorem Thread.past_core (t : Thread) : (t.past).core = t.core := rfl
@[simp] theorem Thread.past_slot (t : Thread) : (t.past).slot = t.slot := rfl
@[simp] theorem Thread.past_deficit (t : Thread) : (t.past).deficit = t.deficit := rfl
@[simp] theorem Thread.past_waitSince (t : Thread) : (t.past).waitSince = t.waitSince := rfl
@[simp] theorem Thread.past_waitOrder (t : Thread) : (t.past).waitOrder = t.waitOrder := rfl
@[simp] theorem Thread.past_residentSince (t : Thread) : (t.past).residentSince = t.residentSince := rfl
@[simp] theorem Thread.past_vpGroup (t : Thread) : (t.past).vpGroup = t.vpGroup := rfl
@[simp] theorem Thread.past_aged (t : Thread) : (t.past).aged = t.aged := rfl
@[simp] theorem Thread.past_evictable (t : Thread) : (t.past).evictable = t.evictable := rfl
@[simp] theorem Thread.past_stripAged (t : Thread) : (t.past).stripAged = t.stripAged := rfl
@[simp] theorem Thread.past_chunk (t : Thread) : (t.past).chunk = t.chunk := rfl
@[simp] theorem Thread.past_squashes (t : Thread) : (t.past).squashes = t.squashes := rfl
@[simp] theorem Thread.past_limit (t : Thread) : (t.past).limit = t.limit := rfl
@[simp] theorem Thread.past_squashesAtOne (t : Thread) : (t.past).squashesAtOne = t.squashesAtOne := rfl
@[simp] theorem Thread.past_failures (t : Thread) : (t.past).failures = t.failures := rfl
@[simp] theorem Thread.past_statSquashes (t : Thread) : (t.past).statSquashes = t.statSquashes := rfl
@[simp] theorem Thread.past_statFresh (t : Thread) : (t.past).statFresh = t.statFresh := rfl
@[simp] theorem Thread.past_lastReads (t : Thread) : (t.past).lastReads = t.lastReads := rfl
@[simp] theorem Thread.past_ctags (t : Thread) : (t.past).ctags = t.ctags := rfl
@[simp] theorem Thread.past_tagSet (t : Thread) : (t.past).tagSet = t.tagSet := rfl
@[simp] theorem Thread.past_tagCounts (t : Thread) : (t.past).tagCounts = t.tagCounts := rfl
@[simp] theorem Thread.past_tagFaults (t : Thread) : (t.past).tagFaults = t.tagFaults := rfl
@[simp] theorem Thread.past_pending (t : Thread) : (t.past).pending = t.pending := rfl
@[simp] theorem Thread.past_pendTrap (t : Thread) : (t.past).pendTrap = t.pendTrap := rfl
@[simp] theorem Thread.past_failedRegs (t : Thread) : (t.past).failedRegs = t.failedRegs := rfl
@[simp] theorem Thread.past_arrivedIn (t : Thread) : (t.past).arrivedIn = t.arrivedIn := rfl
@[simp] theorem Thread.past_userArrived (t : Thread) : (t.past).userArrived = t.userArrived := rfl
@[simp] theorem Thread.past_privArrived (t : Thread) : (t.past).privArrived = t.privArrived := rfl
@[simp] theorem Thread.past_mgrant (t : Thread) : (t.past).mgrant = t.mgrant := rfl
@[simp] theorem Thread.past_tiles (t : Thread) : (t.past).tiles = t.tiles := rfl
@[simp] theorem Thread.past_rows (t : Thread) : (t.past).rows = t.rows := rfl
@[simp] theorem Thread.past_tileQueue (t : Thread) : (t.past).tileQueue = t.tileQueue := rfl
@[simp] theorem Thread.past_deferred (t : Thread) : (t.past).deferred = t.deferred := rfl
@[simp] theorem Thread.past_replies (t : Thread) : (t.past).replies = t.replies := rfl
@[simp] theorem Thread.past_refill (t : Thread) : (t.past).refill = t.refill := rfl
@[simp] theorem Thread.past_poison (t : Thread) : (t.past).poison = t.poison := rfl
@[simp] theorem Thread.past_pause (t : Thread) : (t.past).pause = t.pause := rfl
@[simp] theorem Thread.past_placed (t : Thread) : (t.past).placed = t.placed := rfl

@[simp] theorem Thread.charged_tid (t : Thread) (n : Nat) : (t.charged n).tid = t.tid := rfl
@[simp] theorem Thread.charged_parcel (t : Thread) (n : Nat) : (t.charged n).parcel = t.parcel := rfl
@[simp] theorem Thread.charged_cls (t : Thread) (n : Nat) : (t.charged n).cls = t.cls := rfl
@[simp] theorem Thread.charged_part (t : Thread) (n : Nat) : (t.charged n).part = t.part := rfl
@[simp] theorem Thread.charged_prio (t : Thread) (n : Nat) : (t.charged n).prio = t.prio := rfl
@[simp] theorem Thread.charged_gang (t : Thread) (n : Nat) : (t.charged n).gang = t.gang := rfl
@[simp] theorem Thread.charged_chunkhint (t : Thread) (n : Nat) : (t.charged n).chunkhint = t.chunkhint := rfl
@[simp] theorem Thread.charged_st (t : Thread) (n : Nat) : (t.charged n).st = t.st := rfl
@[simp] theorem Thread.charged_ctx (t : Thread) (n : Nat) : (t.charged n).ctx = t.ctx := rfl
@[simp] theorem Thread.charged_state (t : Thread) (n : Nat) : (t.charged n).state = t.state := rfl
@[simp] theorem Thread.charged_core (t : Thread) (n : Nat) : (t.charged n).core = t.core := rfl
@[simp] theorem Thread.charged_slot (t : Thread) (n : Nat) : (t.charged n).slot = t.slot := rfl
@[simp] theorem Thread.charged_waitSince (t : Thread) (n : Nat) : (t.charged n).waitSince = t.waitSince := rfl
@[simp] theorem Thread.charged_waitOrder (t : Thread) (n : Nat) : (t.charged n).waitOrder = t.waitOrder := rfl
@[simp] theorem Thread.charged_residentSince (t : Thread) (n : Nat) : (t.charged n).residentSince = t.residentSince := rfl
@[simp] theorem Thread.charged_stripSince (t : Thread) (n : Nat) : (t.charged n).stripSince = t.stripSince := rfl
@[simp] theorem Thread.charged_strip (t : Thread) (n : Nat) : (t.charged n).strip = t.strip := rfl
@[simp] theorem Thread.charged_vpGroup (t : Thread) (n : Nat) : (t.charged n).vpGroup = t.vpGroup := rfl
@[simp] theorem Thread.charged_aged (t : Thread) (n : Nat) : (t.charged n).aged = t.aged := rfl
@[simp] theorem Thread.charged_evictable (t : Thread) (n : Nat) : (t.charged n).evictable = t.evictable := rfl
@[simp] theorem Thread.charged_stripAged (t : Thread) (n : Nat) : (t.charged n).stripAged = t.stripAged := rfl
@[simp] theorem Thread.charged_chunk (t : Thread) (n : Nat) : (t.charged n).chunk = t.chunk := rfl
@[simp] theorem Thread.charged_squashes (t : Thread) (n : Nat) : (t.charged n).squashes = t.squashes := rfl
@[simp] theorem Thread.charged_limit (t : Thread) (n : Nat) : (t.charged n).limit = t.limit := rfl
@[simp] theorem Thread.charged_squashesAtOne (t : Thread) (n : Nat) : (t.charged n).squashesAtOne = t.squashesAtOne := rfl
@[simp] theorem Thread.charged_failures (t : Thread) (n : Nat) : (t.charged n).failures = t.failures := rfl
@[simp] theorem Thread.charged_statSquashes (t : Thread) (n : Nat) : (t.charged n).statSquashes = t.statSquashes := rfl
@[simp] theorem Thread.charged_statFresh (t : Thread) (n : Nat) : (t.charged n).statFresh = t.statFresh := rfl
@[simp] theorem Thread.charged_lastReads (t : Thread) (n : Nat) : (t.charged n).lastReads = t.lastReads := rfl
@[simp] theorem Thread.charged_ctags (t : Thread) (n : Nat) : (t.charged n).ctags = t.ctags := rfl
@[simp] theorem Thread.charged_tagSet (t : Thread) (n : Nat) : (t.charged n).tagSet = t.tagSet := rfl
@[simp] theorem Thread.charged_tagCounts (t : Thread) (n : Nat) : (t.charged n).tagCounts = t.tagCounts := rfl
@[simp] theorem Thread.charged_tagFaults (t : Thread) (n : Nat) : (t.charged n).tagFaults = t.tagFaults := rfl
@[simp] theorem Thread.charged_pending (t : Thread) (n : Nat) : (t.charged n).pending = t.pending := rfl
@[simp] theorem Thread.charged_pendTrap (t : Thread) (n : Nat) : (t.charged n).pendTrap = t.pendTrap := rfl
@[simp] theorem Thread.charged_failedRegs (t : Thread) (n : Nat) : (t.charged n).failedRegs = t.failedRegs := rfl
@[simp] theorem Thread.charged_arrivedIn (t : Thread) (n : Nat) : (t.charged n).arrivedIn = t.arrivedIn := rfl
@[simp] theorem Thread.charged_userArrived (t : Thread) (n : Nat) : (t.charged n).userArrived = t.userArrived := rfl
@[simp] theorem Thread.charged_privArrived (t : Thread) (n : Nat) : (t.charged n).privArrived = t.privArrived := rfl
@[simp] theorem Thread.charged_mgrant (t : Thread) (n : Nat) : (t.charged n).mgrant = t.mgrant := rfl
@[simp] theorem Thread.charged_tiles (t : Thread) (n : Nat) : (t.charged n).tiles = t.tiles := rfl
@[simp] theorem Thread.charged_rows (t : Thread) (n : Nat) : (t.charged n).rows = t.rows := rfl
@[simp] theorem Thread.charged_tileQueue (t : Thread) (n : Nat) : (t.charged n).tileQueue = t.tileQueue := rfl
@[simp] theorem Thread.charged_deferred (t : Thread) (n : Nat) : (t.charged n).deferred = t.deferred := rfl
@[simp] theorem Thread.charged_replies (t : Thread) (n : Nat) : (t.charged n).replies = t.replies := rfl
@[simp] theorem Thread.charged_refill (t : Thread) (n : Nat) : (t.charged n).refill = t.refill := rfl
@[simp] theorem Thread.charged_poison (t : Thread) (n : Nat) : (t.charged n).poison = t.poison := rfl
@[simp] theorem Thread.charged_pause (t : Thread) (n : Nat) : (t.charged n).pause = t.pause := rfl
@[simp] theorem Thread.charged_placed (t : Thread) (n : Nat) : (t.charged n).placed = t.placed := rfl

@[simp] theorem Ctx.put_pc (c : Ctx) (d : BitVec 6) (w : Word) : (c.put d w).pc = c.pc := by unfold Ctx.put; split <;> rfl
@[simp] theorem Ctx.put_priv (c : Ctx) (d : BitVec 6) (w : Word) : (c.put d w).priv = c.priv := by unfold Ctx.put; split <;> rfl
@[simp] theorem Ctx.put_v (c : Ctx) (d : BitVec 6) (w : Word) : (c.put d w).v = c.v := by unfold Ctx.put; split <;> rfl
@[simp] theorem Ctx.put_p (c : Ctx) (d : BitVec 6) (w : Word) : (c.put d w).p = c.p := by unfold Ctx.put; split <;> rfl
@[simp] theorem Ctx.put_f (c : Ctx) (d : BitVec 6) (w : Word) : (c.put d w).f = c.f := by unfold Ctx.put; split <;> rfl
@[simp] theorem Ctx.put_vl (c : Ctx) (d : BitVec 6) (w : Word) : (c.put d w).vl = c.vl := by unfold Ctx.put; split <;> rfl
@[simp] theorem Ctx.put_mode (c : Ctx) (d : BitVec 6) (w : Word) : (c.put d w).mode = c.mode := by unfold Ctx.put; split <;> rfl
@[simp] theorem Ctx.put_fmt (c : Ctx) (d : BitVec 6) (w : Word) : (c.put d w).fmt = c.fmt := by unfold Ctx.put; split <;> rfl
@[simp] theorem Ctx.put_fflags (c : Ctx) (d : BitVec 6) (w : Word) : (c.put d w).fflags = c.fflags := by unfold Ctx.put; split <;> rfl
@[simp] theorem Ctx.put_estart (c : Ctx) (d : BitVec 6) (w : Word) : (c.put d w).estart = c.estart := by unfold Ctx.put; split <;> rfl
@[simp] theorem Ctx.put_fprog (c : Ctx) (d : BitVec 6) (w : Word) : (c.put d w).fprog = c.fprog := by unfold Ctx.put; split <;> rfl
@[simp] theorem Ctx.put_rngkey (c : Ctx) (d : BitVec 6) (w : Word) : (c.put d w).rngkey = c.rngkey := by unfold Ctx.put; split <;> rfl
@[simp] theorem Ctx.put_msat (c : Ctx) (d : BitVec 6) (w : Word) : (c.put d w).msat = c.msat := by unfold Ctx.put; split <;> rfl
@[simp] theorem Ctx.put_mmode (c : Ctx) (d : BitVec 6) (w : Word) : (c.put d w).mmode = c.mmode := by unfold Ctx.put; split <;> rfl
@[simp] theorem Ctx.put_loops (c : Ctx) (d : BitVec 6) (w : Word) : (c.put d w).loops = c.loops := by unfold Ctx.put; split <;> rfl
@[simp] theorem Ctx.put_rrb (c : Ctx) (d : BitVec 6) (w : Word) : (c.put d w).rrb = c.rrb := by unfold Ctx.put; split <;> rfl
@[simp] theorem Ctx.put_vps (c : Ctx) (d : BitVec 6) (w : Word) : (c.put d w).vps = c.vps := by unfold Ctx.put; split <;> rfl
@[simp] theorem Ctx.put_userFrame (c : Ctx) (d : BitVec 6) (w : Word) : (c.put d w).userFrame = c.userFrame := by unfold Ctx.put; split <;> rfl
@[simp] theorem Ctx.put_privFrame (c : Ctx) (d : BitVec 6) (w : Word) : (c.put d w).privFrame = c.privFrame := by unfold Ctx.put; split <;> rfl
@[simp] theorem Ctx.put_trapcause (c : Ctx) (d : BitVec 6) (w : Word) : (c.put d w).trapcause = c.trapcause := by unfold Ctx.put; split <;> rfl
@[simp] theorem Ctx.put_trappc (c : Ctx) (d : BitVec 6) (w : Word) : (c.put d w).trappc = c.trappc := by unfold Ctx.put; split <;> rfl
@[simp] theorem Ctx.put_trapval (c : Ctx) (d : BitVec 6) (w : Word) : (c.put d w).trapval = c.trapval := by unfold Ctx.put; split <;> rfl
@[simp] theorem Ctx.put_pkidx (c : Ctx) (d : BitVec 6) (w : Word) : (c.put d w).pkidx = c.pkidx := by unfold Ctx.put; split <;> rfl
@[simp] theorem Ctx.put_pkeylo (c : Ctx) (d : BitVec 6) (w : Word) : (c.put d w).pkeylo = c.pkeylo := by unfold Ctx.put; split <;> rfl
@[simp] theorem Ctx.put_pkeyhi (c : Ctx) (d : BitVec 6) (w : Word) : (c.put d w).pkeyhi = c.pkeyhi := by unfold Ctx.put; split <;> rfl
@[simp] theorem Ctx.put_streams (c : Ctx) (d : BitVec 6) (w : Word) : (c.put d w).streams = c.streams := by unfold Ctx.put; split <;> rfl

@[simp] theorem Ctx.setV_x (c : Ctx) (k : Nat) (v : VReg) : (c.setV k v).x = c.x := rfl
@[simp] theorem Ctx.setV_pc (c : Ctx) (k : Nat) (v : VReg) : (c.setV k v).pc = c.pc := rfl
@[simp] theorem Ctx.setV_priv (c : Ctx) (k : Nat) (v : VReg) : (c.setV k v).priv = c.priv := rfl
@[simp] theorem Ctx.setV_p (c : Ctx) (k : Nat) (v : VReg) : (c.setV k v).p = c.p := rfl
@[simp] theorem Ctx.setV_f (c : Ctx) (k : Nat) (v : VReg) : (c.setV k v).f = c.f := rfl
@[simp] theorem Ctx.setV_vl (c : Ctx) (k : Nat) (v : VReg) : (c.setV k v).vl = c.vl := rfl
@[simp] theorem Ctx.setV_mode (c : Ctx) (k : Nat) (v : VReg) : (c.setV k v).mode = c.mode := rfl
@[simp] theorem Ctx.setV_fmt (c : Ctx) (k : Nat) (v : VReg) : (c.setV k v).fmt = c.fmt := rfl
@[simp] theorem Ctx.setV_fflags (c : Ctx) (k : Nat) (v : VReg) : (c.setV k v).fflags = c.fflags := rfl
@[simp] theorem Ctx.setV_estart (c : Ctx) (k : Nat) (v : VReg) : (c.setV k v).estart = c.estart := rfl
@[simp] theorem Ctx.setV_fprog (c : Ctx) (k : Nat) (v : VReg) : (c.setV k v).fprog = c.fprog := rfl
@[simp] theorem Ctx.setV_rngkey (c : Ctx) (k : Nat) (v : VReg) : (c.setV k v).rngkey = c.rngkey := rfl
@[simp] theorem Ctx.setV_msat (c : Ctx) (k : Nat) (v : VReg) : (c.setV k v).msat = c.msat := rfl
@[simp] theorem Ctx.setV_mmode (c : Ctx) (k : Nat) (v : VReg) : (c.setV k v).mmode = c.mmode := rfl
@[simp] theorem Ctx.setV_loops (c : Ctx) (k : Nat) (v : VReg) : (c.setV k v).loops = c.loops := rfl
@[simp] theorem Ctx.setV_rrb (c : Ctx) (k : Nat) (v : VReg) : (c.setV k v).rrb = c.rrb := rfl
@[simp] theorem Ctx.setV_vps (c : Ctx) (k : Nat) (v : VReg) : (c.setV k v).vps = c.vps := rfl
@[simp] theorem Ctx.setV_userFrame (c : Ctx) (k : Nat) (v : VReg) : (c.setV k v).userFrame = c.userFrame := rfl
@[simp] theorem Ctx.setV_privFrame (c : Ctx) (k : Nat) (v : VReg) : (c.setV k v).privFrame = c.privFrame := rfl
@[simp] theorem Ctx.setV_trapcause (c : Ctx) (k : Nat) (v : VReg) : (c.setV k v).trapcause = c.trapcause := rfl
@[simp] theorem Ctx.setV_trappc (c : Ctx) (k : Nat) (v : VReg) : (c.setV k v).trappc = c.trappc := rfl
@[simp] theorem Ctx.setV_trapval (c : Ctx) (k : Nat) (v : VReg) : (c.setV k v).trapval = c.trapval := rfl
@[simp] theorem Ctx.setV_pkidx (c : Ctx) (k : Nat) (v : VReg) : (c.setV k v).pkidx = c.pkidx := rfl
@[simp] theorem Ctx.setV_pkeylo (c : Ctx) (k : Nat) (v : VReg) : (c.setV k v).pkeylo = c.pkeylo := rfl
@[simp] theorem Ctx.setV_pkeyhi (c : Ctx) (k : Nat) (v : VReg) : (c.setV k v).pkeyhi = c.pkeyhi := rfl
@[simp] theorem Ctx.setV_streams (c : Ctx) (k : Nat) (v : VReg) : (c.setV k v).streams = c.streams := rfl

@[simp] theorem Ctx.setP_x (c : Ctx) (k : Nat) (v : PReg) : (c.setP k v).x = c.x := rfl
@[simp] theorem Ctx.setP_pc (c : Ctx) (k : Nat) (v : PReg) : (c.setP k v).pc = c.pc := rfl
@[simp] theorem Ctx.setP_priv (c : Ctx) (k : Nat) (v : PReg) : (c.setP k v).priv = c.priv := rfl
@[simp] theorem Ctx.setP_v (c : Ctx) (k : Nat) (v : PReg) : (c.setP k v).v = c.v := rfl
@[simp] theorem Ctx.setP_f (c : Ctx) (k : Nat) (v : PReg) : (c.setP k v).f = c.f := rfl
@[simp] theorem Ctx.setP_vl (c : Ctx) (k : Nat) (v : PReg) : (c.setP k v).vl = c.vl := rfl
@[simp] theorem Ctx.setP_mode (c : Ctx) (k : Nat) (v : PReg) : (c.setP k v).mode = c.mode := rfl
@[simp] theorem Ctx.setP_fmt (c : Ctx) (k : Nat) (v : PReg) : (c.setP k v).fmt = c.fmt := rfl
@[simp] theorem Ctx.setP_fflags (c : Ctx) (k : Nat) (v : PReg) : (c.setP k v).fflags = c.fflags := rfl
@[simp] theorem Ctx.setP_estart (c : Ctx) (k : Nat) (v : PReg) : (c.setP k v).estart = c.estart := rfl
@[simp] theorem Ctx.setP_fprog (c : Ctx) (k : Nat) (v : PReg) : (c.setP k v).fprog = c.fprog := rfl
@[simp] theorem Ctx.setP_rngkey (c : Ctx) (k : Nat) (v : PReg) : (c.setP k v).rngkey = c.rngkey := rfl
@[simp] theorem Ctx.setP_msat (c : Ctx) (k : Nat) (v : PReg) : (c.setP k v).msat = c.msat := rfl
@[simp] theorem Ctx.setP_mmode (c : Ctx) (k : Nat) (v : PReg) : (c.setP k v).mmode = c.mmode := rfl
@[simp] theorem Ctx.setP_loops (c : Ctx) (k : Nat) (v : PReg) : (c.setP k v).loops = c.loops := rfl
@[simp] theorem Ctx.setP_rrb (c : Ctx) (k : Nat) (v : PReg) : (c.setP k v).rrb = c.rrb := rfl
@[simp] theorem Ctx.setP_vps (c : Ctx) (k : Nat) (v : PReg) : (c.setP k v).vps = c.vps := rfl
@[simp] theorem Ctx.setP_userFrame (c : Ctx) (k : Nat) (v : PReg) : (c.setP k v).userFrame = c.userFrame := rfl
@[simp] theorem Ctx.setP_privFrame (c : Ctx) (k : Nat) (v : PReg) : (c.setP k v).privFrame = c.privFrame := rfl
@[simp] theorem Ctx.setP_trapcause (c : Ctx) (k : Nat) (v : PReg) : (c.setP k v).trapcause = c.trapcause := rfl
@[simp] theorem Ctx.setP_trappc (c : Ctx) (k : Nat) (v : PReg) : (c.setP k v).trappc = c.trappc := rfl
@[simp] theorem Ctx.setP_trapval (c : Ctx) (k : Nat) (v : PReg) : (c.setP k v).trapval = c.trapval := rfl
@[simp] theorem Ctx.setP_pkidx (c : Ctx) (k : Nat) (v : PReg) : (c.setP k v).pkidx = c.pkidx := rfl
@[simp] theorem Ctx.setP_pkeylo (c : Ctx) (k : Nat) (v : PReg) : (c.setP k v).pkeylo = c.pkeylo := rfl
@[simp] theorem Ctx.setP_pkeyhi (c : Ctx) (k : Nat) (v : PReg) : (c.setP k v).pkeyhi = c.pkeyhi := rfl
@[simp] theorem Ctx.setP_streams (c : Ctx) (k : Nat) (v : PReg) : (c.setP k v).streams = c.streams := rfl

@[simp] theorem Ctx.flag_x (c : Ctx) (f : BitVec 5) : (c.flag f).x = c.x := rfl
@[simp] theorem Ctx.flag_pc (c : Ctx) (f : BitVec 5) : (c.flag f).pc = c.pc := rfl
@[simp] theorem Ctx.flag_priv (c : Ctx) (f : BitVec 5) : (c.flag f).priv = c.priv := rfl
@[simp] theorem Ctx.flag_v (c : Ctx) (f : BitVec 5) : (c.flag f).v = c.v := rfl
@[simp] theorem Ctx.flag_p (c : Ctx) (f : BitVec 5) : (c.flag f).p = c.p := rfl
@[simp] theorem Ctx.flag_f (c : Ctx) (f : BitVec 5) : (c.flag f).f = c.f := rfl
@[simp] theorem Ctx.flag_vl (c : Ctx) (f : BitVec 5) : (c.flag f).vl = c.vl := rfl
@[simp] theorem Ctx.flag_mode (c : Ctx) (f : BitVec 5) : (c.flag f).mode = c.mode := rfl
@[simp] theorem Ctx.flag_fmt (c : Ctx) (f : BitVec 5) : (c.flag f).fmt = c.fmt := rfl
@[simp] theorem Ctx.flag_estart (c : Ctx) (f : BitVec 5) : (c.flag f).estart = c.estart := rfl
@[simp] theorem Ctx.flag_fprog (c : Ctx) (f : BitVec 5) : (c.flag f).fprog = c.fprog := rfl
@[simp] theorem Ctx.flag_rngkey (c : Ctx) (f : BitVec 5) : (c.flag f).rngkey = c.rngkey := rfl
@[simp] theorem Ctx.flag_msat (c : Ctx) (f : BitVec 5) : (c.flag f).msat = c.msat := rfl
@[simp] theorem Ctx.flag_mmode (c : Ctx) (f : BitVec 5) : (c.flag f).mmode = c.mmode := rfl
@[simp] theorem Ctx.flag_loops (c : Ctx) (f : BitVec 5) : (c.flag f).loops = c.loops := rfl
@[simp] theorem Ctx.flag_rrb (c : Ctx) (f : BitVec 5) : (c.flag f).rrb = c.rrb := rfl
@[simp] theorem Ctx.flag_vps (c : Ctx) (f : BitVec 5) : (c.flag f).vps = c.vps := rfl
@[simp] theorem Ctx.flag_userFrame (c : Ctx) (f : BitVec 5) : (c.flag f).userFrame = c.userFrame := rfl
@[simp] theorem Ctx.flag_privFrame (c : Ctx) (f : BitVec 5) : (c.flag f).privFrame = c.privFrame := rfl
@[simp] theorem Ctx.flag_trapcause (c : Ctx) (f : BitVec 5) : (c.flag f).trapcause = c.trapcause := rfl
@[simp] theorem Ctx.flag_trappc (c : Ctx) (f : BitVec 5) : (c.flag f).trappc = c.trappc := rfl
@[simp] theorem Ctx.flag_trapval (c : Ctx) (f : BitVec 5) : (c.flag f).trapval = c.trapval := rfl
@[simp] theorem Ctx.flag_pkidx (c : Ctx) (f : BitVec 5) : (c.flag f).pkidx = c.pkidx := rfl
@[simp] theorem Ctx.flag_pkeylo (c : Ctx) (f : BitVec 5) : (c.flag f).pkeylo = c.pkeylo := rfl
@[simp] theorem Ctx.flag_pkeyhi (c : Ctx) (f : BitVec 5) : (c.flag f).pkeyhi = c.pkeyhi := rfl
@[simp] theorem Ctx.flag_streams (c : Ctx) (f : BitVec 5) : (c.flag f).streams = c.streams := rfl

/-- A write of a scalar register is the accessor's. -/
theorem Ctx.put_eq (c : Ctx) (d : BitVec 6) (w : Word) : c.setX d.toNat w = c.put d w := by
  by_cases h : d = 0#6
  · subst h; rfl
  · have : d.toNat ≠ 0 := fun e => h (BitVec.eq_of_toNat_eq (by simpa using e))
    simp [Ctx.setX, Ctx.put, h, this]

/-- A scalar register reads as it was last written, and x0 as 0 (R36). -/
theorem Ctx.put_xAt (c : Ctx) (d a : BitVec 6) (w : Word) :
    (c.put d w).xAt a = if a = 0 then 0 else if a = d then w else c.xAt a := by
  by_cases ha : a = 0#6
  · simp [Ctx.xAt, ha]
  · by_cases hd : d = 0#6
    · subst hd
      have : ¬ a = 0#6 := ha
      simp [Ctx.put, Ctx.xAt, ha]
    · by_cases e : a = d
      · subst e
        simp [Ctx.put, Ctx.xAt, ha]
      · have : d.toNat ≠ a.toNat := fun h => e (BitVec.eq_of_toNat_eq h.symm)
        simp [Ctx.put, Ctx.xAt, ha, hd, e, Vector.getElem_setIfInBounds, this]

end Sys2Proof.Machine
end

