-- ==== Sys2Proof/Laws/Exec.lean ====
section
/-! SUPPORT. What the parts of a meaning do: the operations of Exec, the registers of a calm thread, and the shape of every
meaning in a state where its thread is ready. -/

set_option linter.unusedSimpArgs false
set_option Elab.async false

namespace Sys2Proof.Machine

variable {α β : Type}

@[simp] theorem run_bind (m : Exec α) (f : α → Exec β) (r : Running) :
    (m >>= f) r = match m r with | .ok a r' => f a r' | .error e r' => .error e r' := by
  show EStateM.bind m f r = _
  unfold EStateM.bind
  cases m r <;> rfl
@[simp] theorem run_map (f : α → β) (m : Exec α) (r : Running) :
    (f <$> m) r = match m r with | .ok a r' => .ok (f a) r' | .error e r' => .error e r' := by
  show EStateM.map f m r = _
  unfold EStateM.map
  cases m r <;> rfl
@[simp] theorem run_pure (a : α) (r : Running) : (pure a : Exec α) r = .ok a r := rfl
@[simp] theorem run_get (r : Running) : (get : Exec Running) r = .ok r r := rfl
@[simp] theorem run_modify (f : Running → Running) (r : Running) : (modify f : Exec Unit) r = .ok () (f r) := rfl
@[simp] theorem run_throw (e : Halt) (r : Running) : (throw e : Exec α) r = .error e r := rfl
@[simp] theorem run_getC (r : Running) : getC r = .ok r.t.ctx r := rfl
@[simp] theorem run_getT (r : Running) : getT r = .ok r.t r := rfl
@[simp] theorem run_getS (r : Running) : getS r = .ok r.s r := rfl
@[simp] theorem run_modC (f : Ctx → Ctx) (r : Running) :
    modC f r = .ok () { r with t := { r.t with ctx := f r.t.ctx } } := rfl
@[simp] theorem run_modT (f : Thread → Thread) (r : Running) : modT f r = .ok () { r with t := f r.t } := rfl
@[simp] theorem run_modS (f : State → State) (r : Running) : modS f r = .ok () { r with s := f r.s } := rfl
@[simp] theorem run_modChunk (f : Chunk → Chunk) (r : Running) :
    modChunk f r = .ok () { r with t := { r.t with chunk := r.t.chunk.map f } } := rfl
@[simp] theorem run_trap (code : Nat) (v : Word) (r : Running) :
    (trap code v : Exec α) r = .error (.trap { code, sub := 0, val := v }) r := rfl
@[simp] theorem run_trapOf (f : Trap) (r : Running) : (trapOf f : Exec α) r = .error (.trap f) r := rfl
@[simp] theorem run_raise (f : BitVec 5) (r : Running) :
    raise f r = .ok () { r with t := { r.t with ctx := r.t.ctx.flag f } } := rfl
@[simp] theorem run_endAfter (r : Running) : endAfter r = .ok () { r with ends := true } := rfl
@[simp] theorem run_seq (m : Exec Unit) (r : Running) :
    seq m r = match m r with | .ok _ r' => .ok .seq r' | .error e r' => .error e r' := by
  simp only [seq, run_bind]
  cases m r <;> rfl
@[simp] theorem run_ite (p : Prop) [Decidable p] (m n : Exec α) (r : Running) :
    (if p then m else n) r = if p then m r else n r := by
  split <;> rfl
@[simp] theorem run_needMode (ok : Bool) (r : Running) :
    needMode ok r = if ok then .ok () r else .error (.trap { code := 2, sub := 0, val := r.t.ctx.mode.setWidth 64 }) r := by
  cases ok <;> rfl

/-! ## A ready thread -/

@[simp] theorem of_s (s : State) (t : Thread) : (Running.of s t).s = s := rfl
@[simp] theorem of_t (s : State) (t : Thread) : (Running.of s t).t = t := rfl
@[simp] theorem of_vp (s : State) (t : Thread) : (Running.of s t).vp = none := rfl
@[simp] theorem of_ends (s : State) (t : Thread) : (Running.of s t).ends = false := rfl
@[simp] theorem of_popped (s : State) (t : Thread) : (Running.of s t).popped = [] := rfl
@[simp] theorem of_beats (s : State) (t : Thread) : (Running.of s t).beats = 0 := rfl

theorem Ready.acting {s t} (q : Ready s t) : s.acting = some (Running.of s t) := by
  simp [State.acting, q.actor, q.entry, q.runs, q.core, q.pause, q.phase, Running.of]

theorem Ready.ended {s t} (q : Ready s t) : (Running.of s t).ended = false := by
  have h := q.unended
  cases hc : t.chunk <;> simp_all [Running.ended, Running.of]

theorem setThread_self {s : State} {t : Thread} (h : tfind t.tid s.threads = some t) : s.setThread t = s := by
  have key : ∀ m : Table Thread, tfind t.tid m = some t → tput t.tid t m = m := by
    intro m
    induction m with
    | nil => simp [tfind]
    | cons e r ih =>
      obtain ⟨j, u⟩ := e
      simp only [tfind, tput]
      split
      · rename_i hj; intro hu; cases hu; simp [hj]
      · split
        · simp
        · rename_i h1 h2
          intro hu
          simp [h1, h2, ih hu]
  simp [State.setThread, key _ h]

@[simp] theorem atBody_s (s : State) (t : Thread) : (atBody s t).s = s := rfl
@[simp] theorem atBody_vp (s : State) (t : Thread) : (atBody s t).vp = none := rfl
@[simp] theorem atBody_ends (s : State) (t : Thread) : (atBody s t).ends = false := rfl
@[simp] theorem atBody_t (s : State) (t : Thread) : (atBody s t).t = { t with chunk := some (opened s t) } := rfl
@[simp] theorem atBody_popped (s : State) (t : Thread) : (atBody s t).popped = [] := rfl
@[simp] theorem atBody_beats (s : State) (t : Thread) : (atBody s t).beats = 0 := rfl
@[simp] theorem atBody_group (s : State) (t : Thread) : (atBody s t).group = (0, []) := rfl

/-- A running thread as its own part finds it, with another context. -/
@[simp] theorem atBody_eta (s : State) (t : Thread) :
    ({ s, t := { t with chunk := some (opened s t) }, vp := none, popped := [], ends := false, beats := 0, group := (0, []) } : Running) =
      atBody s t := rfl

theorem openChunk_of (s : State) (t : Thread) : (Running.of s t).openChunk false = atBody s t := by
  unfold Running.openChunk Running.of atBody opened
  cases hc : t.chunk <;> simp [hc]
  cases t; simp_all

/-! ## Registers of a calm thread -/

/-- A running thread none of whose registers is held. -/
structure Clean (r : Running) : Prop where
  poison : r.t.poison = []
  deferred : r.t.deferred = []
  failed : r.t.failedRegs = []
  awaits : ∀ p, r.awaits p = false

theorem Calm.clean {s t} (q : Calm s t) : Clean (atBody s t) := by
  refine ⟨q.poison, q.deferred, q.failed, fun p => ?_⟩
  have h := q.awaits p
  unfold Running.awaits at h ⊢
  cases hc : t.chunk <;> simp_all [Running.of, atBody, opened]

/-- A change of the context and of the chunk's footprint holds no register. -/
theorem Clean.keep {r r' : Running} (h : Clean r) (hs : r'.s.fabric = r.s.fabric) (ht : r'.t.tid = r.t.tid)
    (hp : r'.t.poison = r.t.poison) (hd : r'.t.deferred = r.t.deferred) (hf : r'.t.failedRegs = r.t.failedRegs)
    (hc : r'.t.chunk.map (·.fabricOut) = r.t.chunk.map (·.fabricOut)) : Clean r' := by
  refine ⟨by rw [hp, h.poison], by rw [hd, h.deferred], by rw [hf, h.failed], fun p => ?_⟩
  have := h.awaits p
  unfold Running.awaits at this ⊢
  rw [hs, ht]
  cases h1 : r.t.chunk <;> cases h2 : r'.t.chunk <;> simp_all

theorem Clean.ctx {r : Running} (h : Clean r) (c : Ctx) : Clean { r with t := { r.t with ctx := c } } :=
  h.keep rfl rfl rfl rfl rfl rfl

theorem awaitX_clean {r : Running} (h : Clean r) (a : Nat) : awaitX a r = .ok () r := by
  simp [awaitX, h.deferred, h.awaits, h.failed]

theorem rdX_clean {r : Running} (h : Clean r) (a : BitVec 6) : rdX a r = .ok (r.t.ctx.xAt a) r := by
  by_cases ha : a = 0#6
  · subst ha; rfl
  · simp [rdX, ha, awaitX, h.deferred, h.awaits, h.failed, h.poison]

theorem wrX_clean {r : Running} (h : Clean r) (a : BitVec 6) (w : Word) :
    wrX a w r = .ok () { r with t := { r.t with ctx := r.t.ctx.put a w } } := by
  by_cases ha : a = 0#6
  · subst ha; rfl
  · simp [wrX, ha, awaitX, h.deferred, h.awaits, h.failed, h.poison, Ctx.put_eq]

/-! ## Retiring -/

theorem retire_open {r : Running} {k : Chunk} (hk : r.t.chunk = some k) (he : r.ends = false)
    (hr : k.counted.goesOn r.t.limit = true) :
    r.retire true = r.s.setThread { r.t with chunk := some k.counted } := by
  unfold Chunk.goesOn at hr
  simp only [Running.retire, hk, if_true]
  change (if (k.counted.explicit && !r.ends) = true then _ else _) = _
  cases hx : k.counted.explicit
  · simp only [hx, Bool.false_eq_true, if_false, decide_eq_true_eq] at hr
    have : ¬ (r.t.limit ≤ k.counted.icount) := by omega
    have this : ¬ (r.t.limit ≤ k.icount + 1) := this
    simp [he, this, Chunk.counted]
  · simp only [hx, if_true, Option.isNone_iff_eq_none] at hr
    simp only [he, Bool.not_false, Bool.and_true, if_true]
    change (match k.counted.overflow with | some why => _ | none => _) = _
    rw [hr]; rfl

/-! ## Claims on lines (R279, R281) -/

/-- What an instruction's own part reaches may be accessed at once, and no reply is held for its thread. -/
structure Clear (r r' : Running) : Prop where
  claims : r.s.barred r.t.tid (r.reached r').1 (r.reached r').2 = false
  tokens : r'.s.yieldTokens r.t.tid (r.reached r').1 (r.reached r').2 = r'.s
  replies : r'.t.replies = []

theorem newLines_self (l : Marks) : newLines l l = [] := by
  simp [newLines, List.filter_eq_nil_iff]

theorem pins_false (s : State) (who : Option Nat) : s.pins who (fun _ _ => false) = false := by
  unfold State.pins
  split
  · rename_i h _
    cases tfind h s.threads with
    | none => simp
    | some t => cases t.chunk <;> simp
  · rfl

theorem clash_nil (c : Chunk) : c.clash [] [] = false := rfl

theorem barred_nil (s : State) (tid : Nat) : s.barred tid [] [] = false := by
  unfold State.barred
  simp only [clash_nil, pins_false, List.append_nil, List.any_nil, Bool.and_false, Bool.or_false]

theorem squashIf_none (s : State) (p : Thread → Chunk → Bool) (h : ∀ t c, p t c = false) : s.squashIf p = s := by
  refine if_pos ?_
  rw [List.isEmpty_iff, List.map_eq_nil_iff, List.filter_eq_nil_iff]
  intro e _
  cases hc : e.2.chunk <;> simp [hc, h]

theorem yieldTokens_nil (s : State) (tid : Nat) : s.yieldTokens tid [] [] = s := by
  unfold State.yieldTokens
  split
  · rfl
  · exact squashIf_none s _ fun t c => by rw [clash_nil, Bool.and_false]

/-- An own part that leaves the chunk's footprint as it was. -/
theorem Clear.same {s t} {r : Running} {k : Chunk} (hk : r.t.chunk = some k) (hr : k.reads = (opened s t).reads)
    (hw : k.writes = (opened s t).writes) (h : r.t.replies = []) : Clear (Running.of s t) r := by
  have e : (Running.of s t).reached r = ([], []) := by
    unfold Running.reached
    simp only [hk, of_t, hr, hw]
    cases hc : t.chunk with
    | none => simp [opened, hc, newLines]
    | some c => simp [opened, hc, newLines_self]
  exact ⟨by rw [e]; exact barred_nil _ _, by rw [e]; exact yieldTokens_nil _ _, h⟩

/-- An own part of a thread to which no other's claim comes first. -/
theorem Free.clear {s t} (q : Free s t) {r : Running} (hs : r.s.ticket = s.ticket) (h : r.t.replies = []) :
    Clear (Running.of s t) r := by
  refine ⟨q.claims _ _, ?_, h⟩
  unfold State.yieldTokens
  have e : (r.s.ticket != some t.tid) = true := by rw [hs]; simpa using q.ticket
  exact if_pos e

theorem usedUp_none {r : Running} (h : r.t.replies = []) : r.usedUp = r := by
  obtain ⟨s, t, vp, popped, ends, beats, group⟩ := r
  cases t
  simp only at h
  simp [Running.usedUp, h]

theorem Clear.used {r r' : Running} (h : Clear r r') :
    ({ r' with s := r'.s.yieldTokens r.t.tid (r.reached r').1 (r.reached r').2 } : Running).usedUp = r' := by
  rw [h.tokens]
  exact usedUp_none h.replies

/-- An instruction of the control thread that completes inside its chunk. -/
theorem control_ok {s t} {f : Form} {body : Exec Next} {n : Next} {r : Running} {k : Chunk} (q : Ready s t)
    (hp : f.priv = false ∨ t.ctx.priv = true) (hi : f.rule = .inside) (hc : f.counts = true)
    (h : body (atBody s t) = .ok n r) (cl : Clear (Running.of s t) r) (hv : r.vp = none) (he : r.ends = false)
    (hk : r.t.chunk = some k) (hr : k.counted.goesOn r.t.limit = true) :
    control f body s = .next (r.s.setThread { (r.goOn n).t with chunk := some k.counted }) := by
  have hp' : (f.priv && !t.ctx.priv) = false := by rcases hp with h | h <;> simp [h]
  have h1 := cl.claims
  have h2 := cl.used
  simp only [of_t, of_s] at h1 h2
  simp only [control, q.acting, q.ended, Running.execute, Running.attempt, openChunk_of, h, hi, hc, of_t, of_s, of_vp, of_ends, q.vps,
    hp', Option.isSome_none, List.isEmpty_nil, Bool.not_true, Bool.and_false, Bool.false_and, Bool.false_eq_true,
    if_false, bne_self_eq_false, h1, h2]
  simp only [hv, he, Bool.false_or]
  have hn : (r.goOn n).t.chunk = some k ∧ (r.goOn n).s = r.s ∧ (r.goOn n).t.limit = r.t.limit := by
    cases n <;> exact ⟨hk, rfl, rfl⟩
  rw [retire_open (k := k) (by exact hn.1) (by simp [he]) (by rw [show _ = r.t.limit from hn.2.2]; exact hr)]
  simp only [hn.2.1]

/-- The same for an instruction that VPs may execute too. -/
theorem shared_ok {s t} {f : Form} {body : Exec Next} {n : Next} {r : Running} {k : Chunk} (q : Ready s t)
    (hp : f.priv = false ∨ t.ctx.priv = true) (hi : f.rule = .inside) (hc : f.counts = true)
    (h : body (atBody s t) = .ok n r) (cl : Clear (Running.of s t) r) (hv : r.vp = none) (he : r.ends = false)
    (hk : r.t.chunk = some k) (hr : k.counted.goesOn r.t.limit = true) :
    shared f body s = .next (r.s.setThread { (r.goOn n).t with chunk := some k.counted }) := by
  have := control_ok q hp hi hc h cl hv he hk hr
  simp only [control, q.acting, q.ended, of_vp, Option.isSome_none, Bool.false_eq_true, if_false] at this
  simp only [shared, q.acting, q.ended, of_vp, Option.isNone_none, Bool.true_and, Bool.false_eq_true, if_false]
  exact this

/-- Where a thread is once its strip is over. -/
theorem goOn_seq {r : Running} (h : r.beats = 0) : (r.goOn .seq).t = { r.t.past with ctx := r.t.ctx.next } := by
  simp [Running.goOn, Running.spent, h, Thread.past, Ctx.next]

theorem goOn_goto {r : Running} (h : r.beats = 0) (pc : Word) : (r.goOn (.goto pc)).t = { r.t.past with ctx := { r.t.ctx with pc } } := by
  simp [Running.goOn, Running.spent, h, Thread.past]

theorem goOn_charged (r : Running) : (r.goOn .seq).t = { (r.t.charged r.beats).past with ctx := r.t.ctx.next } := rfl

/-- An instruction that changes the context alone and goes on to the next word. -/
theorem control_wrote {s t} {f : Form} {body : Exec Next} {c : Ctx} (q : Quiet s t) (hp : f.priv = false) (hi : f.rule = .inside)
    (hc : f.counts = true) (h : body (atBody s t) = .ok .seq { atBody s t with t := { (atBody s t).t with ctx := c } }) :
    control f body s = .next (wrote s t c) := by
  rw [control_ok q.toReady (.inl hp) hi hc h (.same rfl rfl rfl q.replies) rfl rfl rfl q.room, goOn_seq rfl]
  rfl

theorem shared_wrote {s t} {f : Form} {body : Exec Next} {c : Ctx} (q : Quiet s t) (hp : f.priv = false) (hi : f.rule = .inside)
    (hc : f.counts = true) (h : body (atBody s t) = .ok .seq { atBody s t with t := { (atBody s t).t with ctx := c } }) :
    shared f body s = .next (wrote s t c) := by
  rw [shared_ok q.toReady (.inl hp) hi hc h (.same rfl rfl rfl q.replies) rfl rfl rfl q.room, goOn_seq rfl]
  rfl

/-- The same, where its strip is charged n element-beats more than at its grant. -/
theorem shared_charged {s t} {f : Form} {body : Exec Next} {c : Ctx} (n : Nat) (q : Quiet s t) (hp : f.priv = false)
    (hi : f.rule = .inside) (hc : f.counts = true)
    (h : body (atBody s t) = .ok .seq { atBody s t with t := { (atBody s t).t with ctx := c }, beats := n }) :
    shared f body s = .next (went s (t.charged n) c.next (opened s t)) := by
  rw [shared_ok q.toReady (.inl hp) hi hc h (.same rfl rfl rfl q.replies) rfl rfl rfl q.room, goOn_charged]
  rfl

theorem control_charged {s t} {f : Form} {body : Exec Next} {c : Ctx} (n : Nat) (q : Quiet s t) (hp : f.priv = false)
    (hi : f.rule = .inside) (hc : f.counts = true)
    (h : body (atBody s t) = .ok .seq { atBody s t with t := { (atBody s t).t with ctx := c }, beats := n }) :
    control f body s = .next (went s (t.charged n) c.next (opened s t)) := by
  rw [control_ok q.toReady (.inl hp) hi hc h (.same rfl rfl rfl q.replies) rfl rfl rfl q.room, goOn_charged]
  rfl

/-- A strip that is charged nothing more. -/
theorem went_free (s : State) (t : Thread) (c : Ctx) (k : Chunk) : went s (t.charged 0) c k = went s t c k := by
  simp [went, Thread.charged, Thread.past]

/-- An instruction that leaves the device, its thread and its chunk as given, and goes on to the next word. -/
theorem control_leaves {s t s'} {u : Thread} {c : Ctx} {k : Chunk} {n : Nat} {p : Table VReg} {g : Group} {f : Form} {body : Exec Next} (q : Ready s t) (hp : f.priv = false ∨ t.ctx.priv = true)
    (hi : f.rule = .inside) (hc : f.counts = true) (r : Running)
    (e : r = { s := s', t := { u with ctx := c, chunk := some k }, vp := none, popped := p, ends := false, beats := n, group := g })
    (h : body (atBody s t) = .ok .seq r) (cl : Clear (Running.of s t) r) (hr : k.counted.goesOn u.limit = true)
    {w : State} (hw : went s' (u.charged n) c.next k = w) : control f body s = .next w := by
  subst e hw
  rw [control_ok (k := k) q hp hi hc h cl rfl rfl rfl hr, goOn_charged]
  rfl

theorem shared_leaves {s t s'} {u : Thread} {c : Ctx} {k : Chunk} {n : Nat} {p : Table VReg} {g : Group} {f : Form} {body : Exec Next} (q : Ready s t) (hp : f.priv = false ∨ t.ctx.priv = true)
    (hi : f.rule = .inside) (hc : f.counts = true) (r : Running)
    (e : r = { s := s', t := { u with ctx := c, chunk := some k }, vp := none, popped := p, ends := false, beats := n, group := g })
    (h : body (atBody s t) = .ok .seq r) (cl : Clear (Running.of s t) r) (hr : k.counted.goesOn u.limit = true)
    {w : State} (hw : went s' (u.charged n) c.next k = w) : shared f body s = .next w := by
  subst e hw
  rw [shared_ok (k := k) q hp hi hc h cl rfl rfl rfl hr, goOn_charged]
  rfl

/-- An instruction that changes the context alone and goes to a target. -/
theorem control_went {s t} {f : Form} {body : Exec Next} {c : Ctx} {pc : Word} (q : Quiet s t) (hp : f.priv = false)
    (hi : f.rule = .inside) (hc : f.counts = true)
    (h : body (atBody s t) = .ok (.goto pc) { atBody s t with t := { (atBody s t).t with ctx := c } }) :
    control f body s = .next (went s t { c with pc } (opened s t)) := by
  rw [control_ok q.toReady (.inl hp) hi hc h (.same rfl rfl rfl q.replies) rfl rfl rfl q.room, goOn_goto rfl]
  rfl

/-- The same, from the context that it leaves. -/
theorem control_to {s t} {f : Form} {body : Exec Next} {c : Ctx} (q : Quiet s t) (hp : f.priv = false)
    (hi : f.rule = .inside) (hc : f.counts = true) (p : Word)
    (h : body (atBody s t) = .ok (.goto c.pc) { atBody s t with t := { (atBody s t).t with ctx := { c with pc := p } } }) :
    control f body s = .next (went s t c (opened s t)) :=
  control_went (c := { c with pc := p }) q hp hi hc h

/-- A control-thread instruction that traps before it changes anything: the trap is taken from the thread as its own part
found it. -/
theorem control_trap {s t} {f : Form} {body : Exec Next} {c : Trap} (q : Ready s t) (hp : f.priv = false ∨ t.ctx.priv = true)
    (hi : f.rule = .inside) (h : body (atBody s t) = .error (.trap c) (atBody s t)) :
    control f body s = .next ((atBody s t).takeTrap c) := by
  have hp' : (f.priv && !t.ctx.priv) = false := by rcases hp with h | h <;> simp [h]
  simp only [control, q.acting, q.ended, Running.execute, Running.attempt, openChunk_of, h, hi, of_t, of_vp, of_ends, q.vps,
    hp', Option.isSome_none, List.isEmpty_nil, Bool.not_true, Bool.and_false, Bool.false_and, Bool.false_eq_true,
    if_false, bne_self_eq_false, Bool.false_or]
  rfl

theorem shared_trap {s t} {f : Form} {body : Exec Next} {c : Trap} (q : Ready s t) (hp : f.priv = false ∨ t.ctx.priv = true)
    (hi : f.rule = .inside) (h : body (atBody s t) = .error (.trap c) (atBody s t)) :
    shared f body s = .next ((atBody s t).takeTrap c) := by
  have := control_trap q hp hi h
  simp only [control, q.acting, q.ended, of_vp, Option.isSome_none, Bool.false_eq_true, if_false] at this
  simp only [shared, q.acting, q.ended, of_vp, Option.isNone_none, Bool.true_and, Bool.false_eq_true, if_false]
  exact this

end Sys2Proof.Machine
end

