-- ==== Sys2Proof/Laws/Memory.lean ====
section
/-! SUPPORT. Sparse maps and memory: read after write, and the canonical form that every operation over memory keeps. -/

set_option linter.unusedSimpArgs false
set_option Elab.async false

namespace Sys2Proof.Machine

/-! ## Sparse maps -/

section
variable {α : Type}

theorem tfind_tput_self (k : Nat) (v : α) (m : Table α) : tfind k (tput k v m) = some v := by
  fun_induction tput k v m <;> simp_all [tfind]

theorem tfind_tput_other {k j : Nat} (h : j ≠ k) (v : α) (m : Table α) : tfind j (tput k v m) = tfind j m := by
  fun_induction tput k v m <;> grind [tfind]

theorem tfind_below {lo k : Nat} {m : Table α} (h : sortedFrom lo m = true) (hk : k < lo) : tfind k m = none := by
  fun_cases tfind k m <;> grind [sortedFrom, tfind]

theorem sortedFrom_mono {lo lo' : Nat} (hl : lo' ≤ lo) {m : Table α} (h : sortedFrom lo m = true) : sortedFrom lo' m = true := by
  cases m <;> grind [sortedFrom]

theorem sortedFrom_tput {k : Nat} (v : α) {m : Table α} {lo : Nat} (h : sortedFrom lo m = true) (hk : lo ≤ k) :
    sortedFrom lo (tput k v m) = true := by
  fun_induction tput k v m generalizing lo <;> grind [sortedFrom]

theorem sortedFrom_tdrop {k : Nat} {m : Table α} {lo : Nat} (h : sortedFrom lo m = true) : sortedFrom lo (tdrop k m) = true := by
  fun_induction tdrop k m generalizing lo with
  | case3 u r =>
    have hr : sortedFrom (k + 1) r = true := by grind [sortedFrom]
    exact sortedFrom_mono (by grind [sortedFrom]) hr
  | _ => grind [sortedFrom]

theorem sortedFrom_filter (p : Nat × α → Bool) {m : Table α} {lo : Nat} (h : sortedFrom lo m = true) : sortedFrom lo (m.filter p) = true := by
  fun_induction sortedFrom lo m with
  | case1 => rfl
  | case2 lo j v r ih =>
    have hr : sortedFrom (j + 1) (r.filter p) = true := ih (by grind)
    have hm : sortedFrom lo (r.filter p) = true := sortedFrom_mono (by grind) hr
    grind [sortedFrom]

theorem tfind_tdrop_self {k : Nat} {m : Table α} {lo : Nat} (h : sortedFrom lo m = true) : tfind k (tdrop k m) = none := by
  fun_induction tdrop k m generalizing lo <;> grind [sortedFrom, tfind, tfind_below]

theorem tfind_tdrop_other {k j : Nat} (hj : j ≠ k) {m : Table α} {lo : Nat} (h : sortedFrom lo m = true) :
    tfind j (tdrop k m) = tfind j m := by
  fun_induction tdrop k m generalizing lo <;> grind [sortedFrom, tfind, tfind_below]

theorem mem_tput {k : Nat} {v : α} {m : Table α} {e : Nat × α} (h : e ∈ tput k v m) : e = (k, v) ∨ e ∈ m := by
  fun_induction tput k v m <;> grind

theorem mem_tdrop {k : Nat} {m : Table α} {e : Nat × α} (h : e ∈ tdrop k m) : e ∈ m := by
  fun_induction tdrop k m <;> grind

end

/-! ## Bytes of memory -/

theorem Memory.wf_iff {m : Memory} : m.wf = true ↔ sortedFrom 0 m = true ∧ ∀ e ∈ m, e.2 ≠ 0 := by
  simp only [Memory.wf, tsorted, Bool.and_eq_true, List.all_eq_true, bne_iff_ne]

theorem Memory.wf_nil : Memory.wf [] = true := rfl

/-- Writing a byte keeps the canonical form. -/
theorem Memory.wf_setByte {m : Memory} (h : m.wf = true) (a : Nat) (b : Byte) : (m.setByte a b).wf = true := by
  rw [Memory.wf_iff] at h ⊢
  simp only [Memory.setByte, tset]
  split
  · exact ⟨sortedFrom_tdrop h.1, fun e he => h.2 e (mem_tdrop he)⟩
  · rename_i hb
    refine ⟨sortedFrom_tput b h.1 (Nat.zero_le _), fun e he => ?_⟩
    rcases mem_tput he with rfl | he
    · exact hb
    · exact h.2 e he

theorem Memory.wf_setBytes {m : Memory} (h : m.wf = true) (a : Nat) (l : List Byte) : (m.setBytes a l).wf = true := by
  induction l generalizing m a with
  | nil => exact h
  | cons b r ih => exact ih (Memory.wf_setByte h a b) (a + 1)

theorem Memory.wf_filter {m : Memory} (h : m.wf = true) (p : Nat × Byte → Bool) : Memory.wf (m.filter p) = true := by
  rw [Memory.wf_iff] at h ⊢
  exact ⟨sortedFrom_filter p h.1, fun e he => h.2 e (List.mem_filter.mp he).1⟩

theorem Memory.wf_tclear {m : Memory} (h : m.wf = true) (lo hi : Nat) : Memory.wf (tclear lo hi m) = true := Memory.wf_filter h _

/-- Reading a byte just written. -/
theorem Memory.byte_setByte {m : Memory} (h : m.wf = true) (a : Nat) (b : Byte) : (m.setByte a b).byte a = b := by
  rw [Memory.wf_iff] at h
  simp only [Memory.setByte, Memory.byte, tset, tget]
  split
  · rename_i hb
    rw [tfind_tdrop_self h.1, hb]; rfl
  · rw [tfind_tput_self]; rfl

/-- A write leaves every other byte alone. -/
theorem Memory.byte_setByte_other {m : Memory} (h : m.wf = true) {a c : Nat} (hc : c ≠ a) (b : Byte) : (m.setByte a b).byte c = m.byte c := by
  rw [Memory.wf_iff] at h
  simp only [Memory.setByte, Memory.byte, tset, tget]
  split
  · rw [tfind_tdrop_other hc h.1]
  · rw [tfind_tput_other hc]

/-- Two memories in the canonical form that read alike are the same data. -/
theorem Memory.ext_byte {lo : Nat} {m n : Memory} (hm : sortedFrom lo m = true) (hn : sortedFrom lo n = true) (zm : ∀ e ∈ m, e.2 ≠ 0)
    (zn : ∀ e ∈ n, e.2 ≠ 0) (h : ∀ a, m.byte a = n.byte a) : m = n := by
  induction m generalizing lo n with
  | nil =>
    cases n with
    | nil => rfl
    | cons e r =>
      obtain ⟨i, u⟩ := e
      have := h i
      simp only [Memory.byte, tget, tfind, if_true, Option.getD_none, Option.getD_some] at this
      exact absurd this.symm (zn _ List.mem_cons_self)
  | cons e r ih =>
    obtain ⟨i, u⟩ := e
    have hu : u ≠ 0 := zm _ List.mem_cons_self
    have hm' := hm
    simp only [sortedFrom, Bool.and_eq_true, decide_eq_true_eq] at hm'
    cases n with
    | nil =>
      have := h i
      simp only [Memory.byte, tget, tfind, if_true, Option.getD_none, Option.getD_some] at this
      exact absurd this hu
    | cons d q =>
      obtain ⟨j, w⟩ := d
      have hw : w ≠ 0 := zn _ List.mem_cons_self
      have hn' := hn
      simp only [sortedFrom, Bool.and_eq_true, decide_eq_true_eq] at hn'
      have hij : i = j := by
        rcases Nat.lt_trichotomy i j with hl | hl | hl
        · have := h i
          have h1 : j ≠ i := by omega
          simp only [Memory.byte, tget, tfind, if_true, h1, hl, if_false, Option.getD_none, Option.getD_some] at this
          exact absurd this hu
        · exact hl
        · have := h j
          have h1 : i ≠ j := by omega
          simp only [Memory.byte, tget, tfind, if_true, h1, hl, if_false, Option.getD_none, Option.getD_some] at this
          exact absurd this.symm hw
      subst hij
      have huw : u = w := by
        have := h i
        simpa only [Memory.byte, tget, tfind, if_true, Option.getD_some] using this
      subst huw
      congr 1
      refine ih hm'.2 hn'.2 (fun e he => zm e (List.mem_cons_of_mem _ he)) (fun e he => zn e (List.mem_cons_of_mem _ he)) fun a => ?_
      by_cases ha : a < i + 1
      · simp only [Memory.byte, tget, tfind_below hm'.2 ha, tfind_below hn'.2 ha]
      · have := h a
        have h1 : i ≠ a := by omega
        have h2 : ¬ a < i := by omega
        simpa only [Memory.byte, tget, tfind, h1, h2, if_false] using this

/-- Equal reads mean equal data. -/
theorem Memory.canonical {m n : Memory} (hm : m.wf = true) (hn : n.wf = true) (h : ∀ a, m.byte a = n.byte a) : m = n :=
  Memory.ext_byte (Memory.wf_iff.mp hm).1 (Memory.wf_iff.mp hn).1 (Memory.wf_iff.mp hm).2 (Memory.wf_iff.mp hn).2 h

/-! ## The operations of the machine that write memory -/

theorem countDead_mem (s : State) (l : Nat) : (s.countDead l).mem = s.mem := by unfold State.countDead; split <;> rfl

theorem performLate_mem (s : State) (d l : Nat) : (s.performLate d l).mem = s.mem := by unfold State.performLate; split <;> rfl

theorem fillCopy_mem (s : State) (d l : Nat) : (s.fillCopy d l).mem = s.mem := by
  unfold State.fillCopy
  split
  · rfl
  · rw [performLate_mem, countDead_mem]; rfl

theorem putByte_wf {s : State} (h : s.mem.wf = true) (w : Write) : (s.putByte w).mem.wf = true := by
  obtain ⟨loc, mask, b⟩ := w
  simp only [State.putByte]
  split
  · exact Memory.wf_setByte h _ _
  · simpa only [fillCopy_mem] using h

theorem putBytes_wf (ws : List Write) {s : State} (h : s.mem.wf = true) : (ws.foldl State.putByte s).mem.wf = true := by
  induction ws generalizing s with
  | nil => exact h
  | cons w r ih => exact ih (putByte_wf h w)

theorem foldl_mem {α : Type} {f : State → α → State} (hf : ∀ s x, (f s x).mem = s.mem) (l : List α) (s : State) :
    (l.foldl f s).mem = s.mem := by
  induction l generalizing s with
  | nil => rfl
  | cons x r ih => rw [List.foldl_cons, ih, hf]

theorem foldl_wf {α : Type} {f : State → α → State} (hf : ∀ s x, s.mem.wf = true → (f s x).mem.wf = true) (l : List α) {s : State}
    (h : s.mem.wf = true) : (l.foldl f s).mem.wf = true := by
  induction l generalizing s with
  | nil => exact h
  | cons x r ih => exact ih (hf s x h)

theorem setCore_mem (s : State) (k : Nat) (c : CoreSt) : (s.setCore k c).mem = s.mem := rfl

theorem heatFor_mem (s : State) (who : Option Nat) (lines : Marks) : (s.heatFor who lines).mem = s.mem := by
  refine foldl_mem (fun s e => ?_) _ s
  split
  · split
    · rfl
    · exact foldl_mem (fun s l => setCore_mem s _ _) _ s
  · rfl

theorem squashIf_mem (s : State) (p : Thread → Chunk → Bool) : (s.squashIf p).mem = s.mem := by
  simp only [State.squashIf]; split <;> rfl

theorem lineWritten_mem (s : State) (whole : Bool) (l : Nat) : (s.lineWritten whole l).mem = s.mem := by
  have h : ∀ b, (s.revive b).mem = s.mem := fun b => by unfold State.revive; split <;> rfl
  simp only [State.lineWritten]
  split <;> split <;> first | rfl | exact h _

theorem unit_mem (s : State) (who : Option Nat) (ws : List Write) :
    (s.unit who ws).mem = (ws.foldl State.putByte ((s.heatFor who (distinct (ws.map (·.1 / 128)))).squashIf
      fun t c => some t.tid != who && c.meets (distinct (ws.map (·.1 / 128))))).mem := by
  simp only [State.unit, State.wake]
  exact foldl_mem (fun s l => lineWritten_mem s _ l) _ _

/-- A unit of the order keeps the canonical form. -/
theorem unit_wf {s : State} (h : s.mem.wf = true) (who : Option Nat) (ws : List Write) : (s.unit who ws).mem.wf = true := by
  rw [unit_mem]
  exact putBytes_wf ws (by rw [squashIf_mem, heatFor_mem]; exact h)

theorem arriveHome_wf {s : State} (h : s.mem.wf = true) (w : WriteBack) : (s.arriveHome w).mem.wf = true := by
  simp only [State.arriveHome]
  split
  · exact unit_wf h _ _
  · exact unit_wf h _ _

theorem wipeScratch_wf {s : State} (h : s.mem.wf = true) (core lo hi : Nat) : (s.wipeScratch core lo hi).mem.wf = true := by
  simp only [State.wipeScratch]
  exact Memory.wf_tclear (by rw [squashIf_mem]; exact h) _ _

theorem reset_wf : State.reset.mem.wf = true := rfl

/-- A byte of home memory or a scratchpad after one masked write. -/
theorem putByte_byte {s : State} (h : s.mem.wf = true) {loc : Nat} (hl : loc < viewBase) (mask b : Byte) (a : Nat) :
    (s.putByte (loc, mask, b)).mem.byte a = if a = loc then (s.mem.byte loc &&& ~~~mask) ||| (b &&& mask) else s.mem.byte a := by
  simp only [State.putByte, hl, if_true]
  split
  · rename_i ha; subst ha; exact Memory.byte_setByte h _ _
  · rename_i ha; exact Memory.byte_setByte_other h ha _

/-- A unit leaves every byte of home memory and the scratchpads that it does not write. -/
theorem putBytes_other (ws : List Write) {s : State} (h : s.mem.wf = true) {a : Nat} (ha : ∀ w ∈ ws, w.1 ≠ a) :
    (ws.foldl State.putByte s).mem.byte a = s.mem.byte a := by
  induction ws generalizing s with
  | nil => rfl
  | cons w r ih =>
    rw [List.foldl_cons, ih (putByte_wf h w) fun v hv => ha v (List.mem_cons_of_mem _ hv)]
    obtain ⟨loc, mask, b⟩ := w
    have h1 : a ≠ loc := Ne.symm (ha _ List.mem_cons_self)
    by_cases hl : loc < viewBase
    · rw [putByte_byte h hl, if_neg h1]
    · simp only [State.putByte, hl, if_false, fillCopy_mem]

theorem unit_other {s : State} (h : s.mem.wf = true) {who : Option Nat} {ws : List Write} {a : Nat} (ha : ∀ w ∈ ws, w.1 ≠ a) :
    (s.unit who ws).mem.byte a = s.mem.byte a := by
  rw [unit_mem, putBytes_other ws (by rw [squashIf_mem, heatFor_mem]; exact h) ha, squashIf_mem, heatFor_mem]

end Sys2Proof.Machine
end

