-- ==== Sys2Proof/Laws/Alone.lean ====
section
/-! SUPPORT. What the commit of a chunk that holds nothing does, and the instructions that stand alone in their chunk. -/

set_option linter.unusedSimpArgs false
set_option Elab.async false

namespace Sys2Proof.Machine

theorem meets_nil (c : Chunk) : c.meets [] = false := rfl

theorem held_nil (s : State) (who : Option Nat) : s.held who [] = false := by
  unfold State.held State.pins
  split
  · simp [meets_nil]
  · rfl

theorem tput_found {α : Type} (k : Nat) (v : α) (m : Table α) : tfind k (tput k v m) = some v := tfind_tput_self k v m

theorem tput_tput {α : Type} (k : Nat) (v w : α) (m : Table α) : tput k w (tput k v m) = tput k w m := by
  fun_induction tput k v m <;> grind [tput]

theorem heatFor_nil (s : State) (who : Option Nat) : s.heatFor who [] = s := by
  unfold State.heatFor
  generalize s.threads = m
  suffices ∀ s : State, List.foldl _ s m = s from this s
  induction m with
  | nil => intro s; rfl
  | cons e r ih =>
    intro s
    have none : ∀ l : List Nat, (l.filter fun x => ([] : List Nat).contains x) = [] := by
      intro l
      rw [List.filter_eq_nil_iff]
      simp
    simp only [List.foldl_cons]
    rw [ih]
    split
    · rw [none]
      split <;> rfl
    · rfl

theorem wake_nil (s : State) (who : Option Nat) : s.wake who [] = s := by
  unfold State.wake
  have : ∀ f : Nat × Thread → Nat × Thread, (∀ e, f e = e) → s.threads.map f = s.threads := by
    intro f h
    rw [show f = id from funext h, List.map_id]
  rw [this]
  rintro ⟨k, t⟩
  cases h : t.pause <;> simp [h]

/-- A unit that writes nothing changes nothing (R181). -/
theorem unit_nil (s : State) (who : Option Nat) : s.unit who [] = s := by
  have h : (s.scratchPoison.filter fun k =>
      (([] : List Write).filter fun (w : Write) => scratchBase + k * 8 ≤ w.1 && w.1 < scratchBase + k * 8 + 8 && w.2.1 == 255).length
        != 8) = s.scratchPoison := by
    rw [List.filter_eq_self]
    intro k _
    simp
  simp only [State.unit, List.map_nil, distinct, List.foldl_nil, heatFor_nil, wake_nil]
  rw [squashIf_none s _ (by intro t c; simp [meets_nil])]
  simp only [h]

theorem opened_bare {s t} (h : t.chunk = none) : Bare (opened s t) := by
  constructor
  · constructor <;> simp [opened, h]
  all_goals simp [opened, h]

theorem forkAll_none (s : State) (tid : Nat) (h : ∀ c ∈ s.copies, c.tid = tid → c.forked = true) : s.forkAll tid = s := by
  have : (s.copies.filter fun c => c.tid == tid && !c.forked) = [] := by
    rw [List.filter_eq_nil_iff]
    intro c hc
    by_cases e : c.tid = tid
    · simp [h c hc e]
    · simp [e]
  simp [State.forkAll, this]

theorem release_threads (s : State) (tid : Nat) : (s.releaseTicket tid).threads = s.threads := by
  unfold State.releaseTicket
  simp only
  split <;> rfl

theorem foldl_keep {α β : Type} (get : State → β) (f : State → α → State) (h : ∀ s x, get (f s x) = get s) (l : List α) (s : State) :
    get (l.foldl f s) = get s := by
  induction l generalizing s with
  | nil => rfl
  | cons x l ih => rw [List.foldl_cons, ih, h]

theorem tfind_map {α β : Type} (g : Nat × α → Nat × β) (hg : ∀ e, (g e).1 = e.1) (k : Nat) (m : Table α) :
    tfind k (m.map g) = (tfind k m).map fun v => (g (k, v)).2 := by
  induction m with
  | nil => rfl
  | cons e r ih =>
    obtain ⟨j, u⟩ := e
    have h1 := hg (j, u)
    rw [List.map_cons]
    cases hx : g (j, u) with
    | mk j' u' =>
      rw [hx] at h1
      simp only at h1
      subst h1
      simp only [tfind]
      split
      · rename_i hj; subst hj; simp [hx]
      · split
        · rfl
        · exact ih

theorem heatFor_keep {β : Type} (get : State → β) (h : ∀ s k q, get (State.setCore s k q) = get s) (s : State) (who : Option Nat)
    (lines : Marks) : get (s.heatFor who lines) = get s := by
  unfold State.heatFor
  refine foldl_keep get _ ?_ _ _
  intro s e
  split
  · split
    · rfl
    · exact foldl_keep get _ (fun s x => h s _ _) _ _
  · rfl

theorem foldl_inv {α : Type} (P : State → Prop) (f : State → α → State) (h : ∀ s x, P s → P (f s x)) (l : List α) {s : State}
    (hs : P s) : P (l.foldl f s) := by
  induction l generalizing s with
  | nil => exact hs
  | cons x l ih => exact ih (h s x hs)

theorem fillCopy_keep {β : Type} (get : State → β)
    (h : ∀ (s : State) c p k t, get { s with copiesMgd := c, poisoned := p, counters := k, threads := t } = get s) (s : State)
    (d l : Nat) : get (s.fillCopy d l) = get s := by
  unfold State.fillCopy
  split
  · rfl
  · refine Eq.trans (b := get ((s.takeCopy d l).countDead (l * 128))) ?_ (Eq.trans (b := get (s.takeCopy d l)) ?_ ?_)
    · unfold State.performLate
      split
      · exact h _ _ _ _ _
      · rfl
    · unfold State.countDead
      split
      · exact h _ _ _ _ _
      · rfl
    · exact h s _ _ s.counters s.threads

theorem putByte_keep {β : Type} (get : State → β) (hm : ∀ (s : State) m, get { s with mem := m } = get s)
    (h : ∀ (s : State) c p k t, get { s with copiesMgd := c, poisoned := p, counters := k, threads := t } = get s) (s : State)
    (w : Write) : get (s.putByte w) = get s := by
  obtain ⟨loc, mask, b⟩ := w
  unfold State.putByte
  simp only
  split
  · exact hm _ _
  · refine Eq.trans (h (s.fillCopy (viewDie loc) (viewPa loc / 128)) _ (s.fillCopy (viewDie loc) (viewPa loc / 128)).poisoned
      (s.fillCopy (viewDie loc) (viewPa loc / 128)).counters (s.fillCopy (viewDie loc) (viewPa loc / 128)).threads) ?_
    exact fillCopy_keep get h s _ _

theorem lineWritten_keep {β : Type} (get : State → β)
    (h : ∀ (s : State) l k p, get { s with live := l, lineKver := k, poisoned := p } = get s) (s : State) (whole : Bool) (line : Nat) :
    get (s.lineWritten whole line) = get s := by
  have hr : ∀ b, get (s.revive b) = get s := by
    intro b
    unfold State.revive
    split
    · rfl
    · exact h s _ _ s.poisoned
  have hk : ∀ (s' : State) k, get { s' with lineKver := k } = get s' := fun s' k => h s' s'.live k s'.poisoned
  have hp : ∀ (s' : State) p, get { s' with poisoned := p } = get s' := fun s' p => h s' s'.live s'.lineKver p
  unfold State.lineWritten
  simp only
  cases whole <;> simp only [Bool.false_eq_true, if_false, if_true] <;> split
  · exact (hk _ _).trans (hr _)
  · rfl
  · exact (hp _ _).trans ((hk _ _).trans (hr _))
  · exact hp _ _

/-! ## A thread's own entry -/

theorem performLate_none {u : Thread} (h : u.deferred = []) (s : State) (bad : Bool) (d l : Nat) : u.performLate s bad d l = u := by
  cases u
  simp only at h
  subst h
  rfl

theorem performLate_entry {s : State} {tid : Nat} {u : Thread} (h : tfind tid s.threads = some u) (hd : u.deferred = []) (d l : Nat) :
    tfind tid (s.performLate d l).threads = some u := by
  unfold State.performLate
  split
  · refine Eq.trans (tfind_map (fun e : Nat × Thread => (e.1, e.2.performLate s _ d l)) (fun _ => rfl) _ _) ?_
    rw [h]
    exact congrArg some (performLate_none hd _ _ _ _)
  · exact h

theorem fillCopy_entry {s : State} {tid : Nat} {u : Thread} (h : tfind tid s.threads = some u) (hd : u.deferred = []) (d l : Nat) :
    tfind tid (s.fillCopy d l).threads = some u := by
  unfold State.fillCopy
  split
  · exact h
  · refine performLate_entry ?_ hd _ _
    unfold State.countDead
    split <;> exact h

theorem putByte_entry {s : State} {tid : Nat} {u : Thread} (h : tfind tid s.threads = some u) (hd : u.deferred = []) (w : Write) :
    tfind tid (s.putByte w).threads = some u := by
  obtain ⟨loc, mask, b⟩ := w
  unfold State.putByte
  simp only
  split
  · exact h
  · exact fillCopy_entry h hd _ _

/-- A chunkless thread that is itself the writer of a unit keeps its entry. -/
theorem unit_entry (s : State) (tid : Nat) (ws : List Write) (u : Thread) (h : tfind tid s.threads = some u) (hc : u.chunk = none)
    (hd : u.deferred = []) : tfind tid (s.unit (some tid) ws).threads = some u := by
  have sq : ∀ (s : State) (p : Thread → Chunk → Bool), tfind tid s.threads = some u → tfind tid (s.squashIf p).threads = some u := by
    intro s p h
    unfold State.squashIf
    simp only
    split
    · exact h
    · simp only [State.dropIssued]
      refine Eq.trans (tfind_map _ ?_ _ _) ?_
      · exact fun _ => rfl
      · rw [h]
        simp [hc]
  have wk : ∀ (s : State) (ls : Marks), tfind tid s.threads = some u → tfind tid (s.wake (some tid) ls).threads = some u := by
    intro s ls h
    unfold State.wake
    simp only
    refine Eq.trans (tfind_map _ ?_ _ _) ?_
    · exact fun _ => rfl
    · rw [h]
      cases hp : u.pause <;> simp [hp]
  unfold State.unit
  simp only
  apply wk
  rw [show ∀ s : State, ({ s with scratchPoison := s.scratchPoison.filter fun k =>
      (ws.filter fun (w : Write) => scratchBase + k * 8 ≤ w.1 && w.1 < scratchBase + k * 8 + 8 && w.2.1 == 255).length != 8 } :
        State).threads = s.threads from fun _ => rfl]
  rw [foldl_keep State.threads _ (fun s l => lineWritten_keep _ (fun _ _ _ _ => rfl) s _ l)]
  refine foldl_inv (fun s => tfind tid s.threads = some u) _ (fun s w hs => putByte_entry hs hd w) _ ?_
  apply sq
  rw [heatFor_keep State.threads (fun _ _ _ => rfl)]
  exact h

theorem squashIf_copies (s : State) (p : Thread → Chunk → Bool) : ∀ c ∈ (s.squashIf p).copies, c ∈ s.copies := by
  intro c hc
  unfold State.squashIf at hc
  simp only at hc
  split at hc
  · exact hc
  · exact (List.mem_filter.mp hc).1

theorem unit_copies (s : State) (who : Option Nat) (ws : List Write) : ∀ c ∈ (s.unit who ws).copies, c ∈ s.copies := by
  intro c hc
  unfold State.unit at hc
  simp only at hc
  rw [show ∀ (s : State) (ls : Marks), (s.wake who ls).copies = s.copies from fun _ _ => rfl] at hc
  rw [show ∀ s : State, ({ s with scratchPoison := s.scratchPoison.filter fun k =>
      (ws.filter fun (w : Write) => scratchBase + k * 8 ≤ w.1 && w.1 < scratchBase + k * 8 + 8 && w.2.1 == 255).length != 8 } :
        State).copies = s.copies from fun _ => rfl] at hc
  rw [foldl_keep State.copies _ (fun s l => lineWritten_keep _ (fun _ _ _ _ => rfl) s _ l)] at hc
  rw [foldl_keep State.copies _ (fun s w => putByte_keep _ (fun _ _ => rfl) (fun _ _ _ _ _ => rfl) s w)] at hc
  have := squashIf_copies _ _ c hc
  rw [heatFor_keep State.copies (fun _ _ _ => rfl)] at this
  exact this

/-- Far atomics that queue change no thread. -/
theorem queueFar_keep {β : Type} (get : State → β) (h : ∀ (s : State) q w, get { s with farQueues := q, farWaits := w } = get s)
    (s : State) (tid core l : Nat) : get (s.queueFar tid core l) = get s := by
  unfold State.queueFar
  simp only
  split
  · exact h s _ s.farWaits
  · exact h s s.farQueues _

/-- The device after the stores of a chunk and its writes of parcel registers. -/
theorem settledWith_entry (s : State) (u : Thread) (k : Chunk) (hd : u.deferred = []) :
    tfind u.tid (settledWith s u k).threads = some (u.closed k) := by
  unfold settledWith
  simp only
  rw [release_threads, foldl_keep State.threads _ (fun s l => queueFar_keep State.threads (fun _ _ _ => rfl) s _ _ l),
    foldl_keep State.threads (fun s w => s.writeParcel u.parcel w) (fun s w => rfl)]
  exact unit_entry _ _ _ _ (tput_found _ _ _) rfl hd

/-- The commit of a chunk as Spare has it. -/
theorem commit_stores {s : State} {u : Thread} {k : Chunk} (hk : u.chunk = some k) (b : Spare k) (hd : u.deferred = [])
    (hp : u.pendTrap = none) (hf : ∀ c ∈ s.copies, c.tid = u.tid → c.forked = true) (hh : s.held (some u.tid) k.writes = false) :
    s.commit u = some (settledWith s u k, u.closed k) := by
  have fin := settledWith_entry s u k hd
  have hu : ({ u with
      chunk := none, lastReads := k.reads, tileQueue := u.tileQueue ++ k.tileOps, squashes := 0, squashesAtOne := 0, failures := [],
      limit := baseLimit u.chunkhint, statFresh := u.statFresh || k.explicit,
      deferred := [], replies := [] } : Thread) = u.closed k := by
    simp only [Thread.closed, Thread.settled, hp, hd]
  have hcp : ∀ s0 : State, (∀ c ∈ s0.copies, c ∈ s.copies) →
      (k.parcelWrites.foldl (fun s w => s.writeParcel u.parcel w) s0).forkAll u.tid =
      k.parcelWrites.foldl (fun s w => s.writeParcel u.parcel w) s0 := by
    intro s0 h0
    refine forkAll_none _ _ (fun c hc => hf c (h0 c ?_))
    rw [foldl_keep State.copies (fun s w => s.writeParcel u.parcel w) (fun s w => rfl)] at hc
    exact hc
  simp only [State.commit, hk, b.launches, b.arrivals, b.fabricOut,
    b.traverse, b.exits, Bool.false_eq_true, if_false, List.map_nil, List.append_nil, Option.isSome_none, hh,
    List.foldl_nil, List.isEmpty_nil, Bool.not_true, Bool.false_and, Bool.or_false, hd, hu]
  simp only [settledWith] at fin ⊢
  generalize hs1 : (s.setThread (u.closed k)).unit (some u.tid) (k.stores.map fun e => (e.1, e.2.1, e.2.2)) = s1 at fin ⊢
  have h1 : ∀ c ∈ s1.copies, c ∈ s.copies := by
    rw [← hs1]
    exact fun c hc => unit_copies (s.setThread (u.closed k)) _ _ c hc
  rw [hcp (s1.count _) h1]
  simp only [State.forkTraverse, State.arriveAt, List.isEmpty_nil, if_true]
  rw [show u.core.getD 0 = u.coreNum from rfl, fin]

theorem closed_bare {u : Thread} {k : Chunk} (b : Bare k) : u.closed k = u.settled k.reads := by
  simp only [Thread.closed, b.explicit, b.tileOps, Bool.or_false, List.append_nil]
  rfl

theorem settledWith_bare (s : State) (u : Thread) {k : Chunk} (b : Bare k) : settledWith s u k = settled s u k.reads := by
  simp only [settledWith, closed_bare b, b.stores, b.parcelWrites, b.farLines, List.foldl_nil, List.map_nil, unit_nil, settled]

theorem commit_bare {s : State} {u : Thread} {k : Chunk} (hk : u.chunk = some k) (b : Bare k) (hd : u.deferred = [])
    (hp : u.pendTrap = none) (hf : ∀ c ∈ s.copies, c.tid = u.tid → c.forked = true) :
    s.commit u = some (settled s u k.reads, u.settled k.reads) := by
  rw [commit_stores hk b.toSpare hd hp hf (by rw [b.writes]; exact held_nil _ _), settledWith_bare _ _ b, closed_bare b]

theorem setThread_settledWith (s : State) (u : Thread) (k : Chunk) (hd : u.deferred = []) :
    (settledWith s u k).setThread (u.closed k) = settledWith s u k :=
  setThread_self (settledWith_entry s u k hd)

theorem close_stores {s : State} {u : Thread} {k : Chunk} (hk : u.chunk = some k) (b : Spare k) (hd : u.deferred = [])
    (hp : u.pendTrap = none) (hf : ∀ c ∈ s.copies, c.tid = u.tid → c.forked = true) (hh : s.held (some u.tid) k.writes = false) :
    s.close u = some (settledWith s u k) := by
  simp only [State.close, commit_stores hk b hd hp hf hh, hk, b.exits, b.yields, Bool.false_eq_true, if_false,
    setThread_settledWith _ _ _ hd]

theorem close_bare {s : State} {u : Thread} {k : Chunk} (hk : u.chunk = some k) (b : Bare k) (hd : u.deferred = [])
    (hp : u.pendTrap = none) (hf : ∀ c ∈ s.copies, c.tid = u.tid → c.forked = true) :
    s.close u = some (settled s u k.reads) := by
  rw [close_stores hk b.toSpare hd hp hf (by rw [b.writes]; exact held_nil _ _), settledWith_bare _ _ b]

/-- An instruction that stands alone completes: its chunk commits. -/
theorem alone_ok {s t} {f : Form} {body : Exec Next} {n : Next} {r : Running} {k : Chunk} (q : Idle s t)
    (hp : f.priv = false ∨ t.ctx.priv = true) (hi : f.rule = .alone) (hc : f.counts = true)
    (h : body (atBody s t) = .ok n r) (cl : Clear (Running.of s t) r) (hv : r.vp = none) (hk : r.t.chunk = some k) :
    control f body s = .next
      ((r.s.close { (r.goOn n).t with chunk := some { k.counted with ended := true } }).getD
        (r.s.setThread { (r.goOn n).t with chunk := some { k.counted with ended := true } })) := by
  have hp' : (f.priv && !t.ctx.priv) = false := by rcases hp with h | h <;> simp [h]
  have he : (Running.of s t).ended = false := q.toReady.ended
  have hne : (Rule.alone != Rule.inside) = true := rfl
  have h1 := cl.claims
  have h2 := cl.used
  simp only [of_t, of_s] at h1 h2
  simp only [control, q.toReady.acting, he, Running.execute, Running.attempt, openChunk_of, h, hi, hc, of_t, of_s, of_vp, of_ends,
    q.vps, hp', q.chunk, Option.isSome_none, List.isEmpty_nil, Bool.not_true, Bool.and_false, Bool.false_and,
    Bool.false_eq_true, if_false, hne, Bool.true_and, Option.any_none, h1, h2]
  simp only [hv]
  have hn : (r.goOn n).t.chunk = some k ∧ (r.goOn n).s = r.s := by cases n <;> exact ⟨hk, rfl⟩
  simp only [Running.retire, hn.1, hn.2, if_true]
  simp only [beq_self_eq_true, Bool.or_true, Bool.not_true, Bool.and_false, Bool.false_eq_true, if_false, if_true, Bool.true_or]
  rfl

/-- An instruction that ends its chunk after it: the chunk is offered for commit. -/
theorem control_ends {s t} {f : Form} {body : Exec Next} {n : Next} {r : Running} {k k' : Chunk} (q : Ready s t)
    (hp : f.priv = false ∨ t.ctx.priv = true) (hi : f.rule = .inside) (h : body (atBody s t) = .ok n r)
    (cl : Clear (Running.of s t) r) (hv : r.vp = none) (he : r.ends = true) (hk : r.t.chunk = some k) (hk' : k' = { (if f.counts then k.counted else k) with ended := true }) :
    control f body s = .next ((r.s.close { (r.goOn n).t with chunk := some k' }).getD
      (r.s.setThread { (r.goOn n).t with chunk := some k' })) := by
  subst hk'
  have hp' : (f.priv && !t.ctx.priv) = false := by rcases hp with h | h <;> simp [h]
  have h1 := cl.claims
  have h2 := cl.used
  simp only [of_t, of_s] at h1 h2
  simp only [control, q.acting, q.ended, Running.execute, Running.attempt, openChunk_of, h, hi, of_t, of_s, of_vp, of_ends, q.vps,
    hp', Option.isSome_none, List.isEmpty_nil, Bool.not_true, Bool.and_false, Bool.false_and, Bool.false_eq_true,
    if_false, bne_self_eq_false, h1, h2]
  simp only [hv, he]
  have hn : (r.goOn n).t.chunk = some k ∧ (r.goOn n).s = r.s := by cases n <;> exact ⟨hk, rfl⟩
  simp only [Running.retire, hn.1, hn.2, Bool.true_or, Bool.not_true, Bool.and_false, Bool.false_eq_true, if_false, if_true]
  cases f.counts <;> rfl

theorem spare_ended {k : Chunk} (b : Spare k) {n : Nat} : Spare { k with icount := n, ended := true } :=
  { b with }

/-- The thread that a completed instruction leaves. -/
theorem goOn_follow {r : Running} (h : r.beats = 0) (n : Next) : (r.goOn n).t = { r.t.past with ctx := r.t.ctx.follow n } := by
  cases n
  · exact goOn_seq h
  · exact goOn_goto h _

/-- The same, where the chunk holds no more than stores. -/
theorem control_closes {s t} {f : Form} {body : Exec Next} {n : Next} {s' : State} {u : Thread} {k : Chunk} {g : Group} (q : Ready s t)
    (hp : f.priv = false ∨ t.ctx.priv = true) (hi : f.rule = .inside)
    (h : body (atBody s t) = .ok n
      { s := s', t := { u with chunk := some k }, vp := none, popped := [], ends := true, beats := 0, group := g })
    (cl : Clear (Running.of s t)
      { s := s', t := { u with chunk := some k }, vp := none, popped := [], ends := true, beats := 0, group := g })
    (b : Spare k) (hd : u.deferred = []) (hq : u.pendTrap = none) (hf : ∀ c ∈ s'.copies, c.tid = u.tid → c.forked = true)
    (hh : s'.held (some u.tid) k.writes = false) :
    control f body s = .next (settledWith s' { u.past with ctx := u.ctx.follow n } k) := by
  refine Eq.trans (control_ends q hp hi h cl rfl rfl rfl rfl) ?_
  rw [goOn_follow rfl]
  cases hc : f.counts
  · simp only [Bool.false_eq_true, if_false]
    exact congrArg (fun o : Option State => Host.Outcome.next (o.getD _))
      (close_stores (u := { { u.past with ctx := u.ctx.follow n } with chunk := some { k with ended := true } }) rfl
        (spare_ended b) hd hq hf hh)
  · simp only [if_true]
    exact congrArg (fun o : Option State => Host.Outcome.next (o.getD _))
      (close_stores (u := { { u.past with ctx := u.ctx.follow n } with chunk := some { k.counted with ended := true } }) rfl
        (spare_ended b) hd hq hf hh)

/-- The same, where the chunk holds no more than stores when the instruction completes. -/
theorem alone_stores {s t} {f : Form} {body : Exec Next} {n : Next} {s' : State} {u : Thread} {k : Chunk} (q : Idle s t)
    (hp : f.priv = false ∨ t.ctx.priv = true) (hi : f.rule = .alone) (hc : f.counts = true)
    (h : body (atBody s t) = .ok n { atBody s t with s := s', t := { u with chunk := some k } })
    (cl : Clear (Running.of s t) { atBody s t with s := s', t := { u with chunk := some k } }) (b : Spare k)
    (hd : u.deferred = []) (hq : u.pendTrap = none) (hf : ∀ c ∈ s'.copies, c.tid = u.tid → c.forked = true)
    (hh : s'.held (some u.tid) k.writes = false) :
    control f body s = .next
      (settledWith s' { u.past with ctx := u.ctx.follow n } k) := by
  refine Eq.trans (alone_ok q hp hi hc h cl rfl rfl) ?_
  rw [goOn_follow rfl]
  exact congrArg (fun o : Option State => Host.Outcome.next (o.getD _))
    (close_stores (u := { { u.past with ctx := u.ctx.follow n } with chunk := some { k.counted with ended := true } }) rfl
      (spare_ended b) hd hq hf hh)

/-- The same, where the instruction changes the device and its thread alone, and its chunk holds nothing. -/
theorem alone_settled {s t} {f : Form} {body : Exec Next} {n : Next} {s' : State} {u : Thread} (q : Idle s t)
    (hp : f.priv = false ∨ t.ctx.priv = true) (hi : f.rule = .alone) (hc : f.counts = true)
    (h : body (atBody s t) = .ok n { atBody s t with s := s', t := { u with chunk := some (opened s t) } })
    (hd : u.deferred = []) (hr : u.replies = []) (hq : u.pendTrap = none) (hf : ∀ c ∈ s'.copies, c.tid = u.tid → c.forked = true) :
    control f body s = .next
      (settled s' { u.past with ctx := u.ctx.follow n } []) := by
  have b := opened_bare (s := s) q.chunk
  have hk : (opened s t).reads = [] := by simp [opened, q.chunk]
  refine Eq.trans (alone_stores q hp hi hc h (.same rfl rfl rfl hr) b.toSpare hd hq hf (by rw [b.writes]; exact held_nil _ _)) ?_
  rw [settledWith_bare _ _ b, hk]

theorem alone_to {s t} {f : Form} {body : Exec Next} {s' : State} {u : Thread} (q : Idle s t)
    (hp : f.priv = false ∨ t.ctx.priv = true) (hi : f.rule = .alone) (hc : f.counts = true)
    (h : body (atBody s t) = .ok (.goto u.ctx.pc) { atBody s t with s := s', t := { u with chunk := some (opened s t) } })
    (hd : u.deferred = []) (hr : u.replies = []) (hq : u.pendTrap = none) (hf : ∀ c ∈ s'.copies, c.tid = u.tid → c.forked = true) :
    control f body s = .next (settled s' u.past []) := by
  have e := alone_settled q hp hi hc h hd hr hq hf
  have : ({ u.past with ctx := u.ctx.follow (.goto u.ctx.pc) } : Thread) = u.past := rfl
  rw [this] at e
  exact e

end Sys2Proof.Machine
end

