-- ==== Sys2Proof/Laws/Access.lean ====
section
/-! SUPPORT. What the accesses of a thread do (08, 09): translation, reads and stores of its chunk, scalar loads, stores and
atomics, fences, acquires and releases. -/

set_option linter.unusedSimpArgs false
set_option Elab.async false

namespace Sys2Proof.Machine

/-- The caches of translations and the counters are all that a translation changes (R315, R394). -/
theorem keepEntry_keep {β : Type} (get : State → β) (h : ∀ (s : State) x c, get { s with tlb := x, counters := c } = get s) (s : State)
    (n : Nat) (a : Access) (hit : Bool) : get (s.keepEntry n a hit) = get s := by
  have hf : get ((tlbChain n).foldl (fun s u => if (s.lookup a.entry.parcel a.va u).isSome then s else s.enterTlb u a.entry) s) =
      get s := by
    refine foldl_keep get _ (fun s u => ?_) _ s
    split
    · rfl
    · exact h s _ s.counters
  unfold State.keepEntry
  cases hit
  · exact (h _ ((tlbChain n).foldl _ s).tlb _).trans hf
  · exact (h _ ((tlbChain n).foldl _ s).tlb _).trans hf

theorem placeOf_keep (s : State) (n : Nat) (a b : Access) (hit : Bool) (core : Option Nat) (crew parcel : Nat) :
    (s.keepEntry n a hit).placeOf core crew parcel b = s.placeOf core crew parcel b :=
  keepEntry_keep (fun s => s.placeOf core crew parcel b) (fun _ _ _ => rfl) _ _ _ _

/-- A running thread at its own part with chunk k. -/
structure Holds (r : Running) (k : Chunk) : Prop extends Clean r where
  chunk : r.t.chunk = some k

theorem Calm.holds {s t} (q : Calm s t) : Holds (atBody s t) (opened s t) := ⟨q.clean, rfl⟩

/-- The thread with another chunk and the device in another state, of the same fabric. -/
theorem Holds.to {r : Running} {k : Chunk} (h : Holds r k) (s : State) (k' : Chunk) (hs : s.fabric = r.s.fabric)
    (hk : k'.fabricOut = k.fabricOut) : Holds { r with s := s, t := { r.t with chunk := some k' } } k' :=
  ⟨h.toClean.keep hs rfl rfl rfl rfl (by simp [h.chunk, hk]), rfl⟩

theorem xlate_run {r : Running} {k : Chunk} (h : Holds r k) (need : Need) (va : Nat) (a : Access) (hit : Bool)
    (e : r.s.translate r.t.coreNum r.t.parcel r.t.ctx.priv need va = .ok (a, hit)) :
    xlate need va r = .ok a { r with s := r.s.keepEntry r.t.coreNum a hit, t := { r.t with chunk := some (k.notePage a.entry) } } := by
  have e : r.s.translate (r.t.core.getD 0) r.t.parcel r.t.ctx.priv need va = .ok (a, hit) := e
  simp only [xlate, xlateAt, run_bind, run_getC, run_get, e, run_modS, run_modChunk, h.chunk, Option.map_some, run_pure]
  rfl

theorem placeA_run {r : Running} (a : Access) (p : Place) (hh : a.window = .host → r.s.fyzWidth ≠ 0)
    (e : r.s.placeOf (some r.t.coreNum) (crewOf r.t.coreNum) r.t.parcel a = .ok p) : placeA a r = .ok p r := by
  have e : r.s.placeOf (some (r.t.core.getD 0)) (crewOf (r.t.core.getD 0)) r.t.parcel a = .ok p := e
  have hw : (a.window == .host && decide (r.s.fyzWidth = 0)) = false := by
    by_cases hx : a.window = .host
    · simp [hh hx]
    · simp [hx]
  simp only [placeA, placeFor, run_bind, run_get, run_ite, Bool.false_eq_true, if_false, e, run_pure, hw]

theorem keep_fyz (s : State) (n : Nat) (a : Access) (hit : Bool) : (s.keepEntry n a hit).fyzWidth = s.fyzWidth := keepEntry_keep State.fyzWidth (fun _ _ _ => rfl) _ _ _ _
theorem keep_fabric (s : State) (n : Nat) (a : Access) (hit : Bool) : (s.keepEntry n a hit).fabric = s.fabric :=
  keepEntry_keep State.fabric (fun _ _ _ => rfl) _ _ _ _
theorem keep_defer (s : State) (n : Nat) (a : Access) (hit : Bool) : (s.keepEntry n a hit).defer = s.defer := keepEntry_keep State.defer (fun _ _ _ => rfl) _ _ _ _
theorem keep_ticket (s : State) (n : Nat) (a : Access) (hit : Bool) : (s.keepEntry n a hit).ticket = s.ticket :=
  keepEntry_keep State.ticket (fun _ _ _ => rfl) _ _ _ _
theorem notePage_out (k : Chunk) (e : TlbEntry) : (k.notePage e).fabricOut = k.fabricOut := by
  unfold Chunk.notePage; split <;> rfl
theorem notePage_explicit (k : Chunk) (e : TlbEntry) : (k.notePage e).explicit = k.explicit := by
  unfold Chunk.notePage; split <;> rfl
theorem notePage_icount (k : Chunk) (e : TlbEntry) : (k.notePage e).icount = k.icount := by
  unfold Chunk.notePage; split <;> rfl

/-- An access of a thread lands where its translation leads. -/
theorem lands_run {s t} (q : Calm s t) {need : Need} {va : Nat} {a : Access} {hit : Bool} {p : Place} (l : Lands s t need va a hit p)
    (c : Ctx) (hc : c.priv = t.ctx.priv) :
    (do placeA (← xlate need va)) { atBody s t with t := { (atBody s t).t with ctx := c } } =
      .ok p { s := s.keepEntry t.coreNum a hit, t := { t with ctx := c, chunk := some ((opened s t).notePage a.entry) }, vp := none,
              popped := [], ends := false, beats := 0, group := (0, []) } := by
  have h : Holds { atBody s t with t := { (atBody s t).t with ctx := c } } (opened s t) := ⟨q.clean.ctx c, rfl⟩
  have e := xlate_run h need va a hit (by
    show s.translate t.coreNum t.parcel c.priv need va = _
    rw [hc]; exact l.ok)
  simp only [run_bind, e]
  exact placeA_run a p (fun hx => by
    show (s.keepEntry t.coreNum a hit).fyzWidth ≠ 0
    rw [keep_fyz]; exact l.host hx) (by
    show (s.keepEntry t.coreNum a hit).placeOf _ _ _ _ = _
    rw [placeOf_keep]; exact l.place)

theorem forIn_modS (l : List Nat) (f : State → Nat → State) (r : Running) :
    (forIn l PUnit.unit (fun x _ => do
      modS fun s => f s x
      pure (ForInStep.yield PUnit.unit)) : Exec PUnit) r = .ok PUnit.unit { r with s := l.foldl f r.s } := by
  induction l generalizing r with
  | nil => rfl
  | cons x l ih =>
    simp only [List.forIn_cons, run_bind, run_modS, run_pure, List.foldl_cons]
    exact ih _

/-- What a read leaves of the device (R186, R248). -/
theorem noteRead_keep {β : Type} (get : State → β)
    (h : ∀ (s : State) c p k t, get { s with copiesMgd := c, poisoned := p, counters := k, threads := t } = get s) (s : State) (l n : Nat) :
    get (s.noteRead l n) = get s := by
  have hd : ∀ s : State, get (s.countDead l) = get s := by
    intro s
    unfold State.countDead
    split
    · exact h _ _ _ _ _
    · rfl
  unfold State.noteRead
  rw [hd]
  split
  · exact foldl_keep get _ (fun s x => fillCopy_keep get h s _ _) _ _
  · rfl

theorem noteRead_fabric (s : State) (l n : Nat) : (s.noteRead l n).fabric = s.fabric :=
  noteRead_keep State.fabric (fun _ _ _ _ _ => rfl) s l n
theorem noteRead_ticket (s : State) (l n : Nat) : (s.noteRead l n).ticket = s.ticket :=
  noteRead_keep State.ticket (fun _ _ _ _ _ => rfl) s l n
theorem noteRead_core (s : State) (l n c : Nat) : (s.noteRead l n).core c = s.core c :=
  noteRead_keep (fun s => s.core c) (fun _ _ _ _ _ => rfl) s l n

/-- No load of the thread's own is put off. -/
theorem afterLate_run {r : Running} (h : r.t.deferred = []) (ls : List Nat) : afterLate ls r = .ok () r := by
  simp only [afterLate, run_bind, run_getT, h, List.any_nil, Bool.false_eq_true, if_false, run_ite, run_pure]

theorem readLoc_run {r : Running} {k : Chunk} (h : Holds r k) (va loc n : Nat) (hp : r.s.poisonTrap va loc n = none) :
    readLoc va loc n r = .ok (k.sees (r.s.noteRead loc n) loc n)
      { r with s := r.s.noteRead loc n, t := { r.t with chunk := some (k.noteRead loc n) } } := by
  by_cases hv : viewBase ≤ loc
  · simp only [readLoc, run_bind, afterLate_run h.deferred, run_get, h.chunk, hp, run_pure, run_ite, hv, if_true, forIn_modS, run_modS, run_modChunk,
      Option.map_some, State.noteRead]
    rfl
  · simp only [readLoc, run_bind, afterLate_run h.deferred, run_get, h.chunk, hp, run_pure, run_ite, hv, if_false, run_modS, run_modChunk,
      Option.map_some, State.noteRead]
    rfl

theorem writeLoc_keep {r : Running} {k : Chunk} (hd : r.t.deferred = []) (hc : r.t.chunk = some k) (ws : List Write) :
    writeLoc ws r = .ok () { r with t := { r.t with chunk := some (k.store ws) } } := by
  simp only [writeLoc, run_bind, afterLate_run hd, run_modChunk, hc, Option.map_some]
  rfl

theorem writeLoc_run {r : Running} {k : Chunk} (h : Holds r k) (ws : List Write) :
    writeLoc ws r = .ok () { r with t := { r.t with chunk := some (k.store ws) } } :=
  writeLoc_keep h.deferred h.chunk ws

theorem store_fields (ws : List Write) (k : Chunk) : (k.store ws).explicit = k.explicit ∧ (k.store ws).icount = k.icount
    ∧ (k.store ws).fabricOut = k.fabricOut ∧ (k.store ws).priority = k.priority := by
  unfold Chunk.store
  induction ws generalizing k with
  | nil => exact ⟨rfl, rfl, rfl, rfl⟩
  | cons w ws ih => rw [List.foldl_cons]; exact ih _

/-! ## Scalar loads, stores and atomics -/

theorem keep_poison (s : State) (m : Nat) (a : Access) (hit : Bool) (va l n : Nat) :
    (s.keepEntry m a hit).poisonTrap va l n = s.poisonTrap va l n :=
  keepEntry_keep (fun s => s.poisonTrap va l n) (fun _ _ _ => rfl) _ _ _ _

theorem mayDefer_no {r : Running} (l : Nat) (h : r.s.defer = false ∨ l < viewBase) : mayDefer (.loc l) r = .ok false r := by
  have hf : ∀ b c d : Bool, (r.s.defer && decide (viewBase ≤ l) && b && c) = false := by
    intro b c d
    rcases h with h | h
    · simp [h]
    · simp [Nat.not_le.mpr h]
  cases hx : r.t.chunk.any (·.explicit)
  · simp only [mayDefer, explicitChunk, run_bind, run_getS, run_getT, run_pure, run_ite, hx, Bool.false_eq_true, if_false]
    rcases h with h | h
    · simp [h]
    · simp [Nat.not_le.mpr h]
  · simp only [mayDefer, explicitChunk, run_bind, run_getS, run_getT, run_pure, run_ite, hx, if_true]

theorem load_done {s t} (q : Ready s t) (qc : Calm s t) (qf : Free s t) (n : Nat) (ext : Ext) (d b : BitVec 6) (o : BitVec 11) (va : Word)
    (hva : va = scalarAddr (t.ctx.xAt b) o n) (hal : va.toNat % n = 0) {a : Access} {hit : Bool} {l : Nat}
    (L : Lands s t .load va.toNat a hit (.loc l)) (hd : s.defer = false ∨ l < viewBase)
    (hp : s.poisonTrap va.toNat l n = none) (k : Chunk) (hk : k = (opened s t).notePage a.entry)
    (room : (k.noteRead l n).counted.goesOn t.limit = true) (s' : State) (hs : s' = (s.keepEntry t.coreNum a hit).noteRead l n) :
    loadAt n ext d b o s =
      .next (went s' t (t.ctx.put d (extend ext n (natOfBytes (k.sees s' l n)))).next (k.noteRead l n)) := by
  subst hva hk hs
  have h := qc.holds
  have e1 := lands_run qc L t.ctx rfl
  have h2 : Holds (Running.mk (s.keepEntry t.coreNum a hit) { t with chunk := some ((opened s t).notePage a.entry) } none [] false 0 (0, []))
      ((opened s t).notePage a.entry) :=
    h.to (s.keepEntry t.coreNum a hit) ((opened s t).notePage a.entry) (keep_fabric _ _ _ _) (notePage_out _ _)
  have h3 := h2.to ((s.keepEntry t.coreNum a hit).noteRead l n) (((opened s t).notePage a.entry).noteRead l n) (noteRead_fabric _ _ _) rfl
  refine control_leaves (u := t) (n := 0) (k := ((opened s t).notePage a.entry).noteRead l n) q (.inl rfl) rfl rfl
    { s := (s.keepEntry t.coreNum a hit).noteRead l n, t := { t with
      ctx := t.ctx.put d (extend ext n (natOfBytes (((opened s t).notePage a.entry).sees ((s.keepEntry t.coreNum a hit).noteRead l n) l n))),
      chunk := some (((opened s t).notePage a.entry).noteRead l n) }, vp := none, popped := [], ends := false, beats := 0,
      group := (0, []) } rfl ?_ (qf.clear ((noteRead_ticket _ _ _).trans (keep_ticket _ _ _ _)) qc.replies) room
    (went_free _ _ _ _)
  have e1 : (do placeA (← xlate .load (scalarAddr (t.ctx.xAt b) o n).toNat)) (atBody s t) = _ := e1
  simp only [run_bind] at e1
  cases hx : xlate .load (scalarAddr (t.ctx.xAt b) o n).toNat (atBody s t) with
  | error e r => rw [hx] at e1; cases e1
  | ok acc r =>
    rw [hx] at e1
    simp only [run_seq, run_bind, rdX_clean h.toClean, loadX]
    rw [show (atBody s t).t.ctx = t.ctx from rfl]
    simp only [run_ite]
    rw [if_neg (fun h => h hal)]
    simp only [hx, e1, run_pure, run_bind, mayDefer_no l (r := Running.mk (s.keepEntry t.coreNum a hit) _ none [] false 0 (0, []))
      (by rw [keep_defer]; exact hd), Bool.false_eq_true, if_false, run_ite,
      readLoc_run h2 _ l n (by rw [keep_poison]; exact hp), wrX_clean h3.toClean]

/-- Two steps of a translation, as one. -/
theorem lands_steps {s t} (q : Calm s t) {need : Need} {va : Nat} {a : Access} {hit : Bool} {p : Place} (L : Lands s t need va a hit p) :
    ∃ acc r, xlate need va (atBody s t) = .ok acc r ∧ placeA acc r =
      .ok p (Running.mk (s.keepEntry t.coreNum a hit) { t with chunk := some ((opened s t).notePage a.entry) } none [] false 0 (0, [])) := by
  have e : (do placeA (← xlate need va)) (atBody s t) = _ := lands_run q L t.ctx rfl
  simp only [run_bind] at e
  cases hx : xlate need va (atBody s t) with
  | error e' r => rw [hx] at e; cases e
  | ok acc r => rw [hx] at e; exact ⟨acc, r, rfl, e⟩

/-- What holds after the translation of an access. -/
theorem Calm.after {s t} (q : Calm s t) (a : Access) (hit : Bool) :
    Holds (Running.mk (s.keepEntry t.coreNum a hit) { t with chunk := some ((opened s t).notePage a.entry) } none [] false 0 (0, []))
      ((opened s t).notePage a.entry) :=
  q.holds.to (s.keepEntry t.coreNum a hit) ((opened s t).notePage a.entry) (keep_fabric _ _ _ _) (notePage_out _ _)

theorem store_done {s t} (q : Ready s t) (qc : Calm s t) (qf : Free s t) (n : Nat) (d b : BitVec 6) (o : BitVec 11) (va : Word)
    (hva : va = scalarAddr (t.ctx.xAt b) o n) (hal : va.toNat % n = 0) {a : Access} {hit : Bool} {l : Nat}
    (L : Lands s t .store va.toNat a hit (.loc l)) (k : Chunk)
    (hk : k = ((opened s t).notePage a.entry).store (writesOf l (bytesOfNat (t.ctx.xAt d).toNat n)))
    (room : k.counted.goesOn t.limit = true) :
    storeAt n d b o s = .next (went (s.keepEntry t.coreNum a hit) t t.ctx.next k) := by
  subst hva hk
  have h := qc.holds
  have h2 := qc.after a hit
  obtain ⟨acc, r, hx, hp⟩ := lands_steps qc L
  refine control_leaves (u := t) (n := 0) (k := ((opened s t).notePage a.entry).store _) q (.inl rfl) rfl rfl
    (Running.mk (s.keepEntry t.coreNum a hit) { t with chunk := some (((opened s t).notePage a.entry).store _) } none [] false 0 (0, []))
    rfl ?_ (qf.clear (keep_ticket _ _ _ _) qc.replies) room
    (went_free _ _ _ _)
  simp only [run_seq, run_bind, rdX_clean h.toClean, storeX]
  rw [show (atBody s t).t.ctx = t.ctx from rfl]
  simp only [run_ite]
  rw [if_neg (fun h => h hal)]
  simp only [hx, hp, run_pure, run_bind, writeLoc_run h2]

theorem placeAtomic_near {r : Running} {k : Chunk} (h : r.t.chunk = some k) (loc : Nat) (ret : Bool)
    (hn : k.near r.s r.t.coreNum loc = true) :
    placeAtomic loc ret r = .ok () { r with s := r.s.placedNear r.t.coreNum loc,
                                            t := { r.t with chunk := some { k with nearLines := loc / 128 :: k.nearLines } } } := by
  have hf : (!(k.explicit || k.priority) && decide (2 ≤ (r.s.core (r.t.core.getD 0)).predicted (loc / 128))
      && (decide (loc < scratchBase) || decide (viewBase ≤ loc))) = false := by
    simp only [Chunk.near, Bool.or_eq_true, decide_eq_true_eq, Bool.and_eq_true] at hn
    rcases hn with ((hn | hn) | hn) | hn
    · simp [hn]
    · simp [hn]
    · have hn : (r.s.core (r.t.core.getD 0)).predicted (loc / 128) < 2 := hn
      simp [Nat.not_le.mpr hn]
    · simp [Nat.not_lt.mpr hn.1, Nat.not_le.mpr hn.2]
  simp only [placeAtomic, run_bind, run_get, run_modS, h, Option.any_some, hf, Bool.false_eq_true, if_false, run_modChunk,
    Option.map_some]
  rfl

theorem awaitScalars_clean {r : Running} (h : Clean r) : awaitScalars r = .ok () r := by
  simp [awaitScalars, h.deferred]

theorem atomicLoc_run {r : Running} {k : Chunk} (h : Holds r k) (op : AmoOp) (n va loc v expected : Nat)
    (hp : r.s.poisonTrap va loc n = none) (m : Nat) (hm : m = natOfBytes (k.sees (r.s.noteRead loc n) loc n)) :
    atomicLoc op n va loc v expected r =
      if amoWrites op n m expected then
        .ok m { r with s := r.s.noteRead loc n,
                       t := { r.t with
                              ctx := r.t.ctx.flag (amoApply op n m (v % 2 ^ (8 * n))).2
                              chunk := some ((k.noteRead loc n).store
                                (writesOf loc (bytesOfNat (amoApply op n m (v % 2 ^ (8 * n))).1 n))) } }
      else .ok m { r with s := r.s.noteRead loc n, t := { r.t with chunk := some (k.noteRead loc n) } } := by
  subst hm
  have h2 := h.to (r.s.noteRead loc n) (k.noteRead loc n) (noteRead_fabric _ _ _) rfl
  simp only [atomicLoc, run_bind, readLoc_run h _ _ _ hp, run_ite, run_pure]
  cases hw : amoWrites op n (natOfBytes (k.sees (r.s.noteRead loc n) loc n)) expected
  · have hw' : (op != .cas || natOfBytes (k.sees (r.s.noteRead loc n) loc n) == expected % 2 ^ (8 * n)) = false := hw
    simp only [hw', Bool.false_eq_true, if_false]
  · have hw' : (op != .cas || natOfBytes (k.sees (r.s.noteRead loc n) loc n) == expected % 2 ^ (8 * n)) = true := hw
    simp only [hw', if_true, writeLoc_run h2, run_raise]

theorem near_of {k k' : Chunk} {s s' : State} {core loc : Nat} (hn : k.near s core loc = true) (he : k'.explicit = k.explicit)
    (hp : k'.priority = k.priority) (hs : s'.core core = s.core core) : k'.near s' core loc = true := by
  unfold Chunk.near at *
  rw [he, hp, hs]
  exact hn

theorem keep_core (s : State) (n : Nat) (a : Access) (hit : Bool) (c : Nat) : (s.keepEntry n a hit).core c = s.core c :=
  keepEntry_keep (fun s => s.core c) (fun _ _ _ => rfl) _ _ _ _

theorem notePage_priority (k : Chunk) (e : TlbEntry) : (k.notePage e).priority = k.priority := by
  unfold Chunk.notePage; split <;> rfl

theorem amoTouched_fields (op : AmoOp) (n l m v e : Nat) (k : Chunk) : (amoTouched op n l m v e k).explicit = k.explicit ∧
    (amoTouched op n l m v e k).priority = k.priority ∧ (amoTouched op n l m v e k).fabricOut = k.fabricOut := by
  unfold amoTouched
  split
  · exact ⟨(store_fields _ _).1, (store_fields _ _).2.2.2, (store_fields _ _).2.2.1⟩
  · exact ⟨rfl, rfl, rfl⟩

/-- An atomic up to its placement. -/
theorem atomic_at {s t} (qc : Calm s t) (op : AmoOp) (d a b : BitVec 6) (dword : Bool) (n : Nat)
    (hn : n = if dword then 8 else 4) (hal : (t.ctx.xAt a).toNat % n = 0) {acc : Access} {hit : Bool} {l : Nat}
    (L : Lands s t .amo (t.ctx.xAt a).toNat acc hit (.loc l)) (hp : s.poisonTrap (t.ctx.xAt a).toNat l n = none)
    (s' : State) (hs : s' = (s.keepEntry t.coreNum acc hit).noteRead l n) (m e : Nat)
    (hm : m = natOfBytes (((opened s t).notePage acc.entry).sees s' l n))
    (he : e = if op = .cas then (t.ctx.xAt d).toNat else 0) :
    (seq do atomicX op d a b dword) (atBody s t) =
      (seq do
        placeAtomic l (d != 0)
        wrX d (extend (amoExt op) n m)) (Running.mk s' { t with
          ctx := amoFlagged op n m (t.ctx.xAt b).toNat e t.ctx
          chunk := some (amoTouched op n l m (t.ctx.xAt b).toNat e ((opened s t).notePage acc.entry)) } none [] false 0 (0, [])) := by
  have h := qc.holds
  have h2 := qc.after acc hit
  obtain ⟨acc', r, hx, hpl⟩ := lands_steps qc L
  have hloc := atomicLoc_run h2 op n (t.ctx.xAt a).toNat l (t.ctx.xAt b).toNat e (by rw [keep_poison]; exact hp) m
    (by rw [hm, hs])
  have hx : xlate .amo ((atBody s t).t.ctx.xAt a).toNat (atBody s t) = .ok acc' r := hx
  have hal : ¬ ((atBody s t).t.ctx.xAt a).toNat % n ≠ 0 := fun h => h hal
  have hstart : (seq do atomicX op d a b dword) (atBody s t) = (seq do
      let m ← atomicLoc op n (t.ctx.xAt a).toNat l (t.ctx.xAt b).toNat e
      placeAtomic l (d != 0)
      wrX d (extend (amoExt op) n m))
        (Running.mk (s.keepEntry t.coreNum acc hit) { t with chunk := some ((opened s t).notePage acc.entry) } none [] false 0 (0, [])) := by
    by_cases ho : op = .cas
    · subst ho
      have hex : ((atBody s t).t.ctx.xAt d).toNat = e := by rw [he]; rfl
      simp only [run_seq, atomicX, run_bind, rdX_clean h.toClean, ← hn, beq_self_eq_true, if_true, run_ite, if_neg hal, run_pure,
        hx, hpl, awaitScalars_clean h2.toClean, awaitX_clean h2.toClean, hex]
      rfl
    · have hb : (op == .cas) = false := by simpa using ho
      have hex : (0 : Word).toNat = e := by rw [he, if_neg ho]; rfl
      simp only [run_seq, atomicX, run_bind, rdX_clean h.toClean, ← hn, hb, Bool.false_eq_true, if_false, run_ite, if_neg hal,
        run_pure, hx, hpl, awaitScalars_clean h2.toClean, awaitX_clean h2.toClean, hex]
      rfl
  rw [hstart, hs]
  cases hw : amoWrites op n m e
  · simp only [run_seq, run_bind, hloc, hw, Bool.false_eq_true, if_false, amoFlagged, amoTouched]
  · simp only [run_seq, run_bind, hloc, hw, if_true, amoFlagged, amoTouched]

theorem atomic_done {s t} (q : Ready s t) (qc : Calm s t) (qf : Free s t) (op : AmoOp) (d a b : BitVec 6) (dword : Bool) (n : Nat)
    (hn : n = if dword then 8 else 4) (hal : (t.ctx.xAt a).toNat % n = 0) {acc : Access} {hit : Bool} {l : Nat}
    (L : Lands s t .amo (t.ctx.xAt a).toNat acc hit (.loc l)) (hp : s.poisonTrap (t.ctx.xAt a).toNat l n = none)
    (near : (opened s t).near s t.coreNum l = true) (s' : State) (hs : s' = (s.keepEntry t.coreNum acc hit).noteRead l n) (m e : Nat)
    (hm : m = natOfBytes (((opened s t).notePage acc.entry).sees s' l n))
    (he : e = if op = .cas then (t.ctx.xAt d).toNat else 0)
    (k : Chunk) (hk : k = amoChunk op n l m (t.ctx.xAt b).toNat e ((opened s t).notePage acc.entry))
    (room : k.counted.goesOn t.limit = true) :
    control {} (seq do atomicX op d a b dword) s =
      .next (went (s'.placedNear t.coreNum l) t (amoCtx op n d m (t.ctx.xAt b).toNat e t.ctx).next k) := by
  have hfab : s'.fabric = s.fabric := by rw [hs, noteRead_fabric, keep_fabric]
  have htk : (s'.placedNear t.coreNum l).ticket = s.ticket := by
    show s'.ticket = s.ticket
    rw [hs, noteRead_ticket, keep_ticket]
  refine control_leaves (u := t) (n := 0) (k := k) q (.inl rfl) rfl rfl
    (Running.mk (s'.placedNear t.coreNum l) { t with ctx := amoCtx op n d m (t.ctx.xAt b).toNat e t.ctx, chunk := some k }
      none [] false 0 (0, [])) rfl ?_ (qf.clear htk qc.replies) room
    (went_free _ _ _ _)
  rw [atomic_at qc op d a b dword n hn hal L hp s' hs m e hm he, hk]
  obtain ⟨h1, h2, h3⟩ := amoTouched_fields op n l m (t.ctx.xAt b).toNat e ((opened s t).notePage acc.entry)
  have hnear : (amoTouched op n l m (t.ctx.xAt b).toNat e ((opened s t).notePage acc.entry)).near s' t.coreNum l = true :=
    near_of near (h1.trans (notePage_explicit _ _)) (h2.trans (notePage_priority _ _)) (by rw [hs, noteRead_core, keep_core])
  have hpn := placeAtomic_near (r := Running.mk s' { t with
          ctx := amoFlagged op n m (t.ctx.xAt b).toNat e t.ctx
          chunk := some (amoTouched op n l m (t.ctx.xAt b).toNat e ((opened s t).notePage acc.entry)) } none [] false 0 (0, []))
    rfl l (d != 0) hnear
  have hc : Clean (Running.mk (s'.placedNear t.coreNum l) { t with
          ctx := amoFlagged op n m (t.ctx.xAt b).toNat e t.ctx, chunk := some (amoChunk op n l m (t.ctx.xAt b).toNat e
            ((opened s t).notePage acc.entry)) } none [] false 0 (0, [])) :=
    qc.holds.toClean.keep hfab rfl rfl rfl rfl (congrArg some (h3.trans (notePage_out _ _)))
  simp only [run_seq, run_bind, hpn, amoCtx]
  exact congrArg (fun x => (match x with | .ok _ r => .ok Next.seq r | .error e r => .error e r : EStateM.Result _ _ _))
    (wrX_clean hc d _) 

end Sys2Proof.Machine
end

