-- ==== Sys2Proof/Laws/Reads.lean ====
section
/-! SUPPORT. Reads of memory in pieces: what a thread's reads of elements and records do (08, 09), and all that they change. -/

set_option linter.unusedSimpArgs false
set_option Elab.async false

namespace Sys2Proof.Machine

@[simp] theorem on_s (t : Thread) (s : State) (c : Ctx) (k : Chunk) (g : Group) : (t.on s c k g).s = s := rfl
@[simp] theorem on_t (t : Thread) (s : State) (c : Ctx) (k : Chunk) (g : Group) :
    (t.on s c k g).t = { t with ctx := c, chunk := some k } := rfl
@[simp] theorem on_vp (t : Thread) (s : State) (c : Ctx) (k : Chunk) (g : Group) : (t.on s c k g).vp = none := rfl
@[simp] theorem on_ends (t : Thread) (s : State) (c : Ctx) (k : Chunk) (g : Group) : (t.on s c k g).ends = false := rfl
@[simp] theorem on_popped (t : Thread) (s : State) (c : Ctx) (k : Chunk) (g : Group) : (t.on s c k g).popped = [] := rfl
@[simp] theorem on_beats (t : Thread) (s : State) (c : Ctx) (k : Chunk) (g : Group) : (t.on s c k g).beats = 0 := rfl
@[simp] theorem on_group (t : Thread) (s : State) (c : Ctx) (k : Chunk) (g : Group) : (t.on s c k g).group = g := rfl

theorem atBody_on (s : State) (t : Thread) : atBody s t = t.on s t.ctx (opened s t) := rfl

theorem reach_run {t : Thread} {need : Need} {i va : Nat} {s s' : State} {k k' : Chunk} {g g' : Group} {a : Access}
    (h : t.reach need i va s k g = some (a, s', k', g')) (c : Ctx) (hc : c.priv = t.ctx.priv) :
    groupXlate i need va (t.on s c k g) = .ok a (t.on s' c k' g') := by
  simp only [Thread.reach] at h
  simp only [groupXlate, run_bind, run_get, on_group]
  generalize groupKnown g i = kn at h ⊢
  cases he : kn.find? (·.covers va) with
  | some e =>
    rw [he] at h
    simp only at h ⊢
    cases ok : s.checkLeaf t.ctx.priv need va e with
    | error f => rw [ok] at h; cases h
    | ok a' =>
      rw [ok] at h
      simp only [Option.some.injEq, Prod.mk.injEq] at h
      obtain ⟨rfl, rfl, rfl, rfl⟩ := h
      simp only [on_s, on_t, hc, ok, run_pure]
  | none =>
    rw [he] at h
    simp only at h ⊢
    cases e : s.translate t.coreNum t.parcel t.ctx.priv need va with
    | error f => rw [e] at h; cases h
    | ok q =>
      obtain ⟨a', hit⟩ := q
      rw [e] at h
      simp only [Option.some.injEq, Prod.mk.injEq] at h
      obtain ⟨rfl, rfl, rfl, rfl⟩ := h
      have e : s.translate (t.core.getD 0) t.parcel c.priv need va = .ok (a', hit) := by rw [hc]; exact e
      simp only [xlate, xlateAt, run_bind, run_getC, run_get, on_t, on_s, e, run_modS, run_modChunk, Option.map_some, run_pure,
        run_modify]
      rfl

theorem spot_run {t : Thread} {s : State} {a : Access} {l : Nat} (h : t.spot s a = some l) (c : Ctx) (k : Chunk) (g : Group) :
    placeA a (t.on s c k g) = .ok (.loc l) (t.on s c k g) := by
  unfold Thread.spot at h
  split at h
  · cases h
  · rename_i hw
    split at h
    · rename_i p e2
      simp only [Option.some.injEq] at h
      subst h
      exact placeA_run a _ (fun hx hz => hw ⟨hx, hz⟩) e2
    · cases h

/-- A checked access is at the address that was asked for. -/
theorem checkLeaf_va {s : State} {priv : Bool} {need : Need} {va : Nat} {e : TlbEntry} {a : Access}
    (h : s.checkLeaf priv need va e = .ok a) : a.va = va := by
  unfold State.checkLeaf at h
  simp only at h
  split at h
  · cases h
  · split at h
    · cases h
    · repeat' split at h
      all_goals first
        | (simp only [Except.ok.injEq] at h; rw [← h])
        | cases h

theorem translate_va {s : State} {core parcel : Nat} {priv : Bool} {need : Need} {va : Nat} {a : Access} {hit : Bool}
    (h : s.translate core parcel priv need va = .ok (a, hit)) : a.va = va := by
  unfold State.translate at h
  have key : ∀ (x : Except Trap Access) (b : Bool), x.map (·, b) = .ok (a, hit) → x = .ok a := by
    intro x b h
    cases x with
    | error f => cases h
    | ok y => simp only [Except.map, Except.ok.injEq, Prod.mk.injEq] at h; rw [h.1]
  split at h
  · exact checkLeaf_va (key _ _ h)
  · split at h
    · cases h
    · exact checkLeaf_va (key _ _ h)

theorem reach_va {t : Thread} {need : Need} {i va : Nat} {s s' : State} {k k' : Chunk} {g g' : Group} {a : Access}
    (h : t.reach need i va s k g = some (a, s', k', g')) : a.va = va := by
  simp only [Thread.reach] at h
  split at h
  · split at h
    · rename_i e
      simp only [Option.some.injEq, Prod.mk.injEq] at h
      rw [← h.1]; exact checkLeaf_va e
    · cases h
  · split at h
    · rename_i e
      simp only [Option.some.injEq, Prod.mk.injEq] at h
      rw [← h.1]; exact translate_va e
    · cases h

theorem reachEach_run {t : Thread} {need : Need} {i : Nat} (f : Nat → Nat) {js : List Nat} {s s' : State} {k k' : Chunk} {g g' : Group}
    {as : List Access} (h : t.reachEach need i (js.map f) s k g = some (as, s', k', g')) (c : Ctx) (hc : c.priv = t.ctx.priv) :
    js.mapM (fun j => groupXlate i need (f j)) (t.on s c k g) = .ok as (t.on s' c k' g') ∧ as.map (·.va) = js.map f := by
  induction js generalizing s k g as with
  | nil =>
    simp only [List.map_nil, Thread.reachEach, Option.some.injEq, Prod.mk.injEq] at h
    obtain ⟨rfl, rfl, rfl, rfl⟩ := h
    exact ⟨rfl, rfl⟩
  | cons j rest ih =>
    simp only [List.map_cons, Thread.reachEach, Option.bind_eq_some_iff, Option.map_eq_some_iff] at h
    obtain ⟨⟨a, s1, k1, g1⟩, h1, ⟨as1, s2, k2, g2⟩, h2, e⟩ := h
    simp only [Prod.mk.injEq] at e
    obtain ⟨rfl, rfl, rfl, rfl⟩ := e
    obtain ⟨e1, e2⟩ := ih h2
    refine ⟨?_, by rw [List.map_cons, reach_va h1, e2, List.map_cons]⟩
    simp only [List.mapM_cons, run_bind, reach_run h1 c hc, e1, run_pure]

theorem land_one {t : Thread} {need : Need} {i va : Nat} {s s' : State} {k k' : Chunk} {g g' : Group} {ls : List Nat}
    (h : t.land need i [va] s k g = some (ls, s', k', g')) :
    ∃ a l, ls = [l] ∧ t.reach need i va s k g = some (a, s', k', g') ∧ t.spot s' a = some l := by
  simp only [Thread.land, Thread.reachEach, Option.bind_eq_some_iff, Option.map_eq_some_iff] at h
  obtain ⟨⟨as, s1, k1, g1⟩, ⟨⟨a, s2, k2, g2⟩, h1, ⟨as2, s3, k3, g3⟩, h2, e2⟩, ls1, h3, e⟩ := h
  simp only [Option.some.injEq, Prod.mk.injEq] at h2 e e2
  obtain ⟨rfl, rfl, rfl, rfl⟩ := h2
  obtain ⟨rfl, rfl, rfl, rfl⟩ := e2
  obtain ⟨rfl, rfl, rfl, rfl⟩ := e
  simp only [List.mapM_cons, List.mapM_nil, Option.pure_def, Option.bind_eq_bind, Option.bind_some, Option.bind_eq_some_iff,
    Option.some.injEq] at h3
  obtain ⟨l, h3, rfl⟩ := h3
  exact ⟨a, l, rfl, h1, h3⟩

theorem look_run {va l n : Nat} {s s' : State} {k k' : Chunk} {b : List Byte} (h : lookAt va l n s k = some (b, s', k'))
    {t : Thread} (hd : t.deferred = []) (c : Ctx) (g : Group) : readLoc va l n (t.on s c k g) = .ok b (t.on s' c k' g) := by
  unfold lookAt at h
  split at h
  · rename_i hr
    simp only [Option.some.injEq, Prod.mk.injEq] at h
    obtain ⟨rfl, rfl, rfl⟩ := h
    cases hp : s.poisonTrap va l n with
    | none =>
      by_cases hv : viewBase ≤ l
      · simp only [readLoc, run_bind, afterLate_run (r := t.on s c k g) hd, run_get, on_t, on_s, hp, run_ite, hv, if_true,
          forIn_modS, run_modS, run_modChunk, Option.map_some, State.noteRead, run_pure]
        rfl
      · simp only [readLoc, run_bind, afterLate_run (r := t.on s c k g) hd, run_get, on_t, on_s, hp, run_ite, hv, if_false,
          run_modS, run_modChunk, Option.map_some, State.noteRead, run_pure]
        rfl
    | some f =>
      have hw : k.whole l n = true := by simpa [Chunk.readable, hp] using hr
      by_cases hv : viewBase ≤ l
      · simp only [readLoc, run_bind, afterLate_run (r := t.on s c k g) hd, run_get, on_t, on_s, hp, Option.any_some, hw, Bool.not_true,
          Bool.false_eq_true, if_false, run_ite, hv, if_true, forIn_modS, run_modS, run_modChunk, Option.map_some, State.noteRead, run_pure]
        rfl
      · simp only [readLoc, run_bind, afterLate_run (r := t.on s c k g) hd, run_get, on_t, on_s, hp, Option.any_some, hw, Bool.not_true,
          Bool.false_eq_true, if_false, run_ite, hv, run_modS, run_modChunk, Option.map_some, State.noteRead, run_pure]
        rfl
  · cases h

/-! ## All that reads change -/

theorem Thread.Late.refl (t : Thread) : t.Late t := ⟨rfl, fun _ => rfl, fun c h => ⟨c, h, rfl⟩⟩

theorem Thread.Late.trans {t u v : Thread} (h : t.Late u) (h' : u.Late v) : t.Late v := by
  refine ⟨by rw [h'.same, h.same], fun e => ?_, fun c e => ?_⟩
  · have : u = t := h.idle e
    rw [h'.idle (by rw [this]; exact e), this]
  · obtain ⟨d, hd, e1⟩ := h.chunk c e
    obtain ⟨d', hd', e2⟩ := h'.chunk d hd
    exact ⟨d', hd', by rw [e2, e1]⟩

/-- The loads that are performed change what Late says and nothing else. -/
theorem perform_late (s : State) (bad : Bool) (l : List Deferred) (t : Thread) (hl : l ≠ [] → t.deferred ≠ []) :
    t.Late (l.foldl (Deferred.perform s bad) t) := by
  induction l generalizing t with
  | nil => exact .refl t
  | cons d l ih =>
    have hne := hl (by simp)
    have h1 : t.Late (Deferred.perform s bad t d) ∧ (Deferred.perform s bad t d).deferred = t.deferred := by
      unfold Deferred.perform
      split
      · exact ⟨⟨by unfold Thread.record; split <;> rfl, fun e => absurd e hne,
          fun c h => ⟨c, by unfold Thread.record; split <;> exact h, rfl⟩⟩, by unfold Thread.record; split <;> rfl⟩
      · refine ⟨⟨rfl, fun e => absurd e hne, fun c h => ?_⟩, rfl⟩
        unfold Thread.putLate
        cases d.inChunk
        · exact ⟨_, congrArg (Option.map _) h, rfl⟩
        · exact ⟨c, h, rfl⟩
    rw [List.foldl_cons]
    exact h1.1.trans (ih _ (fun _ => by rw [h1.2]; exact hne))

theorem performLate_late (s : State) (bad : Bool) (d l : Nat) (t : Thread) : t.Late (t.performLate s bad d l) := by
  by_cases he : t.deferred = []
  · rw [performLate_none he]; exact .refl t
  · have h := perform_late s bad (t.deferred.filter (·.waitsFor d l)) t (fun _ => he)
    refine ⟨?_, fun e => absurd e he, h.chunk⟩
    unfold Thread.performLate
    rw [h.same]

theorem Looked.of {s s' : State} {k k' : Chunk}
    (h : s' = { s with tlb := s'.tlb, counters := s'.counters }) (hk : k' = { k with pages := k'.pages, reads := k'.reads }) :
    Looked s s' k k' := by
  rw [h]
  refine ⟨rfl, fun _ => rfl, fun _ _ _ h1 h2 => ?_, hk, fun _ _ h => h, fun _ _ h => .inl h⟩
  rw [show _ = some _ from h1] at h2
  cases h2
  exact .refl _

theorem Looked.refl (s : State) (k : Chunk) : Looked s s k k := .of rfl rfl

theorem Looked.fill {s s' : State} {k k' : Chunk} (h : Looked s s' k k') (d l : Nat) : s'.fillData d l = s.fillData d l := by
  rw [h.state]; rfl

theorem Looked.trans {s s' s'' : State} {k k' k'' : Chunk} (h : Looked s s' k k') (h' : Looked s' s'' k' k'') :
    Looked s s'' k k'' := by
  refine ⟨?_, fun j => (h'.threads j).trans (h.threads j), fun j t v e1 e2 => ?_, ?_, fun j c e => h'.kept j c (h.kept j c e),
    fun j c e => ?_⟩
  · rw [h'.state, h.state]
  · cases hu : tfind j s'.threads with
    | none =>
      have := h.threads j
      rw [hu, e1] at this
      cases this
    | some u => exact (h.late j t u e1 hu).trans (h'.late j u v hu e2)
  · rw [h'.chunk, h.chunk]
  · rcases h'.filled j c e with e | ⟨d, l, e1, e2⟩
    · exact h.filled j c e
    · exact .inr ⟨d, l, e1, by rw [e2, h.fill]⟩

theorem tfind_tput {α : Type} (m : Table α) (j k : Nat) (v : α) (hm : (tfind k m).isSome = false) :
    tfind j (tput k v m) = if j = k then some v else tfind j m := by
  induction m with
  | nil =>
    simp only [tput, tfind]
    split
    · rename_i h; simp [h]
    · rename_i h
      have : ¬ j = k := fun e => h e.symm
      simp [this]
  | cons e r ih =>
    obtain ⟨i, u⟩ := e
    simp only [tput]
    split
    · rename_i h
      by_cases hj : j = k
      · subst hj; simp [tfind]
      · have hk : ¬ k = j := fun e => hj e.symm
        simp only [tfind, hk, if_false, hj]
        split
        · rename_i h2
          have h3 : ¬ i = j := by omega
          have h4 : j < i := by omega
          simp [h3, h4]
        · rfl
    · split
      · rename_i h1 h2
        exfalso
        simp [tfind, h2] at hm
      · rename_i h1 h2
        have hm' : (tfind k r).isSome = false := by
          have h3 : ¬ k < i := h1
          simpa [tfind, h2, h3] using hm
        simp only [tfind]
        split
        · rename_i h4
          have : ¬ j = k := by omega
          simp [this]
        · split
          · rename_i h4 h5
            have : ¬ j = k := by omega
            simp [this]
          · rw [ih hm']

theorem performLate_looked (s : State) (d l : Nat) (k : Chunk) : Looked s (s.performLate d l) k k := by
  unfold State.performLate
  split
  · have e : ∀ j, tfind j (s.threads.map fun e => (e.1, e.2.performLate s (s.poisoned.contains (viewLoc d (l * 128) / 128)) d l)) =
        (tfind j s.threads).map fun u => u.performLate s (s.poisoned.contains (viewLoc d (l * 128) / 128)) d l :=
      fun j => tfind_map (fun e : Nat × Thread => (e.1, e.2.performLate s _ d l)) (fun _ => rfl) j _
    refine ⟨rfl, fun j => ?_, fun j t u h1 h2 => ?_, rfl, fun _ _ h => h, fun _ _ h => .inl h⟩
    · rw [show tfind j _ = _ from e j, Option.isSome_map]
    · rw [show tfind j _ = _ from e j, h1] at h2
      cases h2
      exact performLate_late _ _ _ _ _
  · exact .refl s k

theorem countDead_looked (s : State) (l : Nat) (k : Chunk) : Looked s (s.countDead l) k k := by
  unfold State.countDead
  split <;> exact .of rfl rfl

theorem takeCopy_looked (s : State) (d l : Nat) (h : s.hasCopy d l = false) (k : Chunk) : Looked s (s.takeCopy d l) k k := by
  have hn : tfind (d * 2 ^ 48 + l) s.copiesMgd = none := by
    cases hx : tfind (d * 2 ^ 48 + l) s.copiesMgd
    · rfl
    · rw [State.hasCopy, hx] at h
      cases h
  refine ⟨rfl, fun _ => rfl, fun j t u h1 h2 => ?_, rfl, fun j c e => ?_, fun j c e => ?_⟩
  · have h2 : tfind j s.threads = some u := h2
    rw [h1] at h2
    cases h2
    exact .refl _
  · show tfind j (tput _ _ s.copiesMgd) = some c
    rw [tfind_tput _ _ _ _ h]
    split
    · rename_i hj; rw [hj, hn] at e; cases e
    · exact e
  · replace e : tfind j (tput _ _ s.copiesMgd) = some c := e
    rw [tfind_tput _ _ _ _ h] at e
    split at e
    · rename_i hj
      refine .inr ⟨d, l, hj, ?_⟩
      cases e
      simp only [State.copyOf, hn, Option.getD_none]
    · exact .inl e

theorem fillCopy_looked (s : State) (d l : Nat) (k : Chunk) : Looked s (s.fillCopy d l) k k := by
  unfold State.fillCopy
  split
  · exact .refl s k
  · rename_i h
    exact ((takeCopy_looked s d l (by simpa using h) k).trans (countDead_looked _ _ k)).trans (performLate_looked _ _ _ k)

theorem Looked.foldl {α : Type} (f : State → α → State) (k : Chunk) (h : ∀ s x, Looked s (f s x) k k) (l : List α) (s : State) :
    Looked s (l.foldl f s) k k := by
  induction l generalizing s with
  | nil => exact .refl s k
  | cons x l ih => rw [List.foldl_cons]; exact (h s x).trans (ih _)

theorem noteRead_looked (s : State) (l n : Nat) (k : Chunk) : Looked s (s.noteRead l n) k (k.noteRead l n) := by
  have hd : Looked s (s.noteRead l n) k k := by
    unfold State.noteRead
    split
    · exact (Looked.foldl _ k (fun s x => fillCopy_looked s _ _ k) _ _).trans (countDead_looked _ _ k)
    · exact countDead_looked _ _ k
  exact ⟨hd.state, hd.threads, hd.late, rfl, hd.kept, hd.filled⟩

theorem look_looked {va l n : Nat} {s s' : State} {k k' : Chunk} {b : List Byte} (h : lookAt va l n s k = some (b, s', k')) :
    Looked s s' k k' := by
  unfold lookAt at h
  split at h
  · simp only [Option.some.injEq, Prod.mk.injEq] at h
    obtain ⟨-, rfl, rfl⟩ := h
    exact noteRead_looked s l n k
  · cases h

theorem keepEntry_looked (s : State) (n : Nat) (a : Access) (hit : Bool) (k : Chunk) : Looked s (s.keepEntry n a hit) k k := by
  have h : ∀ l : List TlbUnit, ∃ x, l.foldl (fun s u => if (s.lookup a.entry.parcel a.va u).isSome then s else s.enterTlb u a.entry) s =
      { s with tlb := x } := by
    intro l
    suffices ∀ s' : State, (∃ x, s' = { s with tlb := x }) → ∃ x, l.foldl _ s' = { s with tlb := x } from this s ⟨_, rfl⟩
    induction l with
    | nil => exact fun _ h => h
    | cons u l ih =>
      rintro s' ⟨x, rfl⟩
      rw [List.foldl_cons]
      apply ih
      split
      · exact ⟨x, rfl⟩
      · exact ⟨_, rfl⟩
  unfold State.keepEntry
  obtain ⟨x, e⟩ := h (tlbChain n)
  simp only [e]
  cases hit <;> exact .of rfl rfl

theorem notePage_looked (s : State) (k : Chunk) (e : TlbEntry) : Looked s s k (k.notePage e) := by
  refine .of rfl ?_
  unfold Chunk.notePage
  split <;> rfl

theorem reach_looked {t : Thread} {need : Need} {i va : Nat} {s s' : State} {k k' : Chunk} {g g' : Group} {a : Access}
    (h : t.reach need i va s k g = some (a, s', k', g')) : Looked s s' k k' := by
  simp only [Thread.reach] at h
  generalize groupKnown g i = kn at h
  cases he : kn.find? (·.covers va) with
  | some e =>
    rw [he] at h
    simp only at h
    cases ok : s.checkLeaf t.ctx.priv need va e with
    | error f => rw [ok] at h; cases h
    | ok a' =>
      rw [ok] at h
      simp only [Option.some.injEq, Prod.mk.injEq] at h
      obtain ⟨-, rfl, rfl, -⟩ := h
      exact .refl _ _
  | none =>
    rw [he] at h
    simp only at h
    cases e : s.translate t.coreNum t.parcel t.ctx.priv need va with
    | error f => rw [e] at h; cases h
    | ok q =>
      rw [e] at h
      simp only [Option.some.injEq, Prod.mk.injEq] at h
      obtain ⟨-, rfl, rfl, -⟩ := h
      exact (keepEntry_looked _ _ _ _ _).trans (notePage_looked _ _ _)

theorem reachEach_looked {t : Thread} {need : Need} {i : Nat} {vas : List Nat} {s s' : State} {k k' : Chunk} {g g' : Group}
    {as : List Access} (h : t.reachEach need i vas s k g = some (as, s', k', g')) : Looked s s' k k' := by
  induction vas generalizing s k g as with
  | nil => simp only [Thread.reachEach, Option.some.injEq, Prod.mk.injEq] at h; obtain ⟨-, rfl, rfl, -⟩ := h; exact .refl _ _
  | cons va rest ih =>
    simp only [Thread.reachEach, Option.bind_eq_some_iff, Option.map_eq_some_iff] at h
    obtain ⟨⟨l, s1, k1, g1⟩, h1, ⟨ls1, s2, k2, g2⟩, h2, e⟩ := h
    simp only [Prod.mk.injEq] at e
    obtain ⟨-, rfl, rfl, rfl⟩ := e
    exact (reach_looked h1).trans (ih h2)

theorem land_looked {t : Thread} {need : Need} {i : Nat} {vas : List Nat} {s s' : State} {k k' : Chunk} {g g' : Group}
    {ls : List Nat} (h : t.land need i vas s k g = some (ls, s', k', g')) : Looked s s' k k' := by
  simp only [Thread.land, Option.bind_eq_some_iff, Option.map_eq_some_iff] at h
  obtain ⟨⟨as, s1, k1, g1⟩, h1, ls1, -, e⟩ := h
  simp only [Prod.mk.injEq] at e
  obtain ⟨-, rfl, rfl, -⟩ := e
  exact reachEach_looked h1

theorem lookEach_looked {n : Nat} {ps : List (Nat × Nat)} {s s' : State} {k k' : Chunk} {b : List Byte}
    (h : lookEach n ps s k = some (b, s', k')) : Looked s s' k k' := by
  induction ps generalizing s k b with
  | nil => simp only [lookEach, Option.some.injEq, Prod.mk.injEq] at h; obtain ⟨-, rfl, rfl⟩ := h; exact .refl _ _
  | cons p rest ih =>
    obtain ⟨va, l⟩ := p
    simp only [lookEach, Option.bind_eq_some_iff, Option.map_eq_some_iff] at h
    obtain ⟨⟨b1, s1, k1⟩, h1, ⟨bs, s2, k2⟩, h2, e⟩ := h
    simp only [Prod.mk.injEq] at e
    obtain ⟨-, rfl, rfl⟩ := e
    exact (look_looked h1).trans (ih h2)

theorem see_looked {t : Thread} {need : Need} {i n : Nat} {vas : List Nat} {s s' : State} {k k' : Chunk} {g g' : Group} {b : List Byte}
    (h : t.see need i n vas s k g = some (b, s', k', g')) : Looked s s' k k' := by
  simp only [Thread.see, Option.bind_eq_some_iff, Option.map_eq_some_iff] at h
  obtain ⟨⟨ls, s1, k1, g1⟩, h1, ⟨b1, s2, k2⟩, h2, e⟩ := h
  simp only [Prod.mk.injEq] at e
  obtain ⟨-, rfl, rfl, -⟩ := e
  exact (land_looked h1).trans (lookEach_looked h2)

theorem seeAll_looked {t : Thread} {need : Need} {ps : List (Nat × Nat × List Nat)} {s s' : State} {k k' : Chunk} {g g' : Group}
    {bs : List (List Byte)} (h : t.seeAll need ps s k g = some (bs, s', k', g')) : Looked s s' k k' := by
  induction ps generalizing s k g bs with
  | nil => simp only [Thread.seeAll, Option.some.injEq, Prod.mk.injEq] at h; obtain ⟨-, rfl, rfl, -⟩ := h; exact .refl _ _
  | cons p rest ih =>
    obtain ⟨i, n, vas⟩ := p
    simp only [Thread.seeAll, Option.bind_eq_some_iff, Option.map_eq_some_iff] at h
    obtain ⟨⟨b1, s1, k1, g1⟩, h1, ⟨bs, s2, k2, g2⟩, h2, e⟩ := h
    simp only [Prod.mk.injEq] at e
    obtain ⟨-, rfl, rfl, rfl⟩ := e
    exact (see_looked h1).trans (ih h2)

/-- Reads leave a calm thread calm. -/
theorem Calm.looked {s t} (q : Calm s t) {s' : State} {k' : Chunk} (h : Looked s s' (opened s t) k') (c : Ctx) {g : Group} :
    Clean (t.on s' c k' g) := by
  refine q.clean.keep (r' := t.on s' c k' g) ?_ rfl rfl rfl rfl ?_
  · show s'.fabric = s.fabric
    rw [h.state]
  · show Option.map _ (some k') = Option.map _ (some (opened s t))
    rw [h.chunk]
    rfl

/-! ## Completion -/

/-- One step of a part of a meaning, and the rest of it. -/
theorem bind_ok {α β : Type} {m : Exec α} {f : α → Exec β} {r r' : Running} {a : α} {x : EStateM.Result Halt Running β}
    (h : m r = .ok a r') (h2 : f a r' = x) : (m >>= f) r = x := by
  rw [run_bind, h]; exact h2

theorem seq_ok {m : Exec Unit} {r r' : Running} (h : m r = .ok () r') : seq m r = .ok .seq r' := by
  rw [run_seq, h]

/-- A check that passes. -/
theorem check_ok {α : Type} {p : Prop} [Decidable p] {m : Exec α} {f : Exec α} {r : Running} {x : EStateM.Result Halt Running α}
    (h : ¬ p) (h2 : f r = x) : (if p then m else f) r = x := by
  rw [if_neg h]; exact h2

/-- Reads leave the priority ticket where it is. -/
theorem Looked.ticket {s s' : State} {k k' : Chunk} (h : Looked s s' k k') : s'.ticket = s.ticket := by rw [h.state]

/-- An instruction that completes inside its chunk with its context and chunk changed, and the device by its own part. -/
theorem control_on {s t} {f : Form} {body : Exec Next} {s' : State} {c : Ctx} {k : Chunk} {g : Group} (q : Ready s t)
    (hp : f.priv = false ∨ t.ctx.priv = true) (hi : f.rule = .inside) (hc : f.counts = true)
    (h : body (atBody s t) = .ok .seq (t.on s' c k g)) (cl : Clear (Running.of s t) (t.on s' c k g))
    (room : k.counted.goesOn t.limit = true) : control f body s = .next (went s' t c.next k) :=
  control_leaves (u := t) (n := 0) q hp hi hc _ rfl h cl room (went_free _ _ _ _)

theorem shared_on {s t} {f : Form} {body : Exec Next} {s' : State} {c : Ctx} {k : Chunk} {g : Group} (q : Ready s t)
    (hp : f.priv = false ∨ t.ctx.priv = true) (hi : f.rule = .inside) (hc : f.counts = true)
    (h : body (atBody s t) = .ok .seq (t.on s' c k g)) (cl : Clear (Running.of s t) (t.on s' c k g))
    (room : k.counted.goesOn t.limit = true) : shared f body s = .next (went s' t c.next k) :=
  shared_leaves (u := t) (n := 0) q hp hi hc _ rfl h cl room (went_free _ _ _ _)

/-- The same, where its own part changes the thread besides. -/
theorem control_with {s t} {f : Form} {body : Exec Next} {s' : State} {u : Thread} {c : Ctx} {k : Chunk} {g : Group} (q : Ready s t)
    (hp : f.priv = false ∨ t.ctx.priv = true) (hi : f.rule = .inside) (hc : f.counts = true)
    (h : body (atBody s t) = .ok .seq (u.on s' c k g)) (cl : Clear (Running.of s t) (u.on s' c k g))
    (room : k.counted.goesOn u.limit = true) : control f body s = .next (went s' u c.next k) :=
  control_leaves (n := 0) q hp hi hc _ rfl h cl room (went_free _ _ _ _)

/-- An instruction after which its chunk ends and commits, where the chunk holds no more than its footprint and stores. -/
theorem control_shut {s t} {f : Form} {body : Exec Next} {s' : State} {c : Ctx} {k : Chunk} {g : Group} (q : Ready s t)
    (hp : f.priv = false ∨ t.ctx.priv = true) (hi : f.rule = .inside)
    (h : body (atBody s t) = .ok .seq { t.on s' c k g with ends := true })
    (cl : Clear (Running.of s t) { t.on s' c k g with ends := true }) (b : Spare k) (hd : t.deferred = [])
    (hf : ∀ c ∈ s'.copies, c.tid = t.tid → c.forked = true) (hh : s'.held (some t.tid) k.writes = false) :
    control f body s = .next (settledWith s' { t.past with ctx := c.next } k) :=
  control_closes (n := .seq) (u := { t with ctx := c }) q hp hi h cl b hd q.pend hf hh

theorem shared_shut {s t} {f : Form} {body : Exec Next} {s' : State} {c : Ctx} {k : Chunk} {g : Group} (q : Ready s t)
    (hp : f.priv = false ∨ t.ctx.priv = true) (hi : f.rule = .inside)
    (h : body (atBody s t) = .ok .seq { t.on s' c k g with ends := true })
    (cl : Clear (Running.of s t) { t.on s' c k g with ends := true }) (b : Spare k) (hd : t.deferred = [])
    (hf : ∀ c ∈ s'.copies, c.tid = t.tid → c.forked = true) (hh : s'.held (some t.tid) k.writes = false) :
    shared f body s = .next (settledWith s' { t.past with ctx := c.next } k) := by
  have := control_shut q hp hi h cl b hd hf hh
  simp only [control, q.acting, q.ended, of_vp, Option.isSome_none, Bool.false_eq_true, if_false] at this
  simp only [shared, q.acting, q.ended, of_vp, Option.isNone_none, Bool.true_and, Bool.false_eq_true, if_false]
  exact this

end Sys2Proof.Machine
end

