-- ==== Sys2Proof/Laws/Sync.lean ====
section
/-! SUPPORT. Fences, acquires, releases and the chunk instructions (09, R190, R211 to R214). -/

set_option linter.unusedSimpArgs false
set_option Elab.async false

namespace Sys2Proof.Machine

/-- No copy joins a device. -/
def CopiesIn (s0 s : State) : Prop := ∀ c ∈ s.copies, c ∈ s0.copies

theorem foldl_copies {α : Type} {s0 : State} (f : State → α → State) (h : ∀ s x, CopiesIn s0 s → CopiesIn s0 (f s x)) (l : List α)
    (s : State) (hs : CopiesIn s0 s) : CopiesIn s0 (l.foldl f s) := by
  induction l generalizing s with
  | nil => exact hs
  | cons x l ih => exact ih _ (h s x hs)

theorem arriveHome_copies {s0 s : State} (w : WriteBack) (hs : CopiesIn s0 s) : CopiesIn s0 (s.arriveHome w) := by
  intro c hc
  unfold State.arriveHome at hc
  simp only at hc
  split at hc
  · exact hs c (unit_copies _ _ _ c hc)
  · exact hs c (unit_copies _ _ _ c hc)

theorem writeBack_copies {s0 s : State} (die line : Nat) (drop : Bool) (hs : CopiesIn s0 s) :
    CopiesIn s0 (s.writeBack die line drop) := by
  unfold State.writeBack
  split
  · exact hs
  · rename_i c _
    have h : CopiesIn s0 (if c.dirty = 0 then s else s.arriveHome (s.outgoing die line c)) := by
      split
      · exact hs
      · exact arriveHome_copies _ hs
    simp only
    split
    · exact h
    · exact h

theorem flushDie_copies (s : State) (die : Nat) (drop : Bool) : CopiesIn s (s.flushDie die drop) := by
  unfold State.flushDie
  refine foldl_copies _ ?_ _ _ ?_
  · intro u l hu
    refine writeBack_copies _ _ _ ?_
    split
    · intro c hc; exact hu c (squashIf_copies _ _ c hc)
    · exact hu
  · unfold State.settle
    exact foldl_copies _ (fun s w hs => arriveHome_copies w hs) _ _ (fun c hc => hc)

theorem unit_fabric (s : State) (who : Option Nat) (ws : List Write) : ∀ q ∈ (s.unit who ws).fabric, q ∈ s.fabric := by
  intro c hc
  unfold State.unit at hc
  simp only at hc
  rw [show ∀ (s : State) (ls : Marks), (s.wake who ls).fabric = s.fabric from fun _ _ => rfl] at hc
  rw [show ∀ s : State, ({ s with scratchPoison := s.scratchPoison.filter fun k =>
      (ws.filter fun (w : Write) => scratchBase + k * 8 ≤ w.1 && w.1 < scratchBase + k * 8 + 8 && w.2.1 == 255).length != 8 } :
        State).fabric = s.fabric from fun _ => rfl] at hc
  rw [foldl_keep State.fabric _ (fun s l => lineWritten_keep _ (fun _ _ _ _ => rfl) s _ l)] at hc
  rw [foldl_keep State.fabric _ (fun s w => putByte_keep _ (fun _ _ => rfl) (fun _ _ _ _ _ => rfl) s w)] at hc
  have sq : ∀ (s : State) (p : Thread → Chunk → Bool), c ∈ (s.squashIf p).fabric → c ∈ s.fabric := by
    intro s p h
    unfold State.squashIf at h
    simp only at h
    split at h
    · exact h
    · exact (List.mem_filter.mp h).1
  have := sq _ _ hc
  rw [heatFor_keep State.fabric (fun _ _ _ => rfl)] at this
  exact this

/-- No request joins the fabric. -/
def FabricIn (s0 s : State) : Prop := ∀ q ∈ s.fabric, q ∈ s0.fabric

theorem flushDie_fabric (s : State) (die : Nat) (drop : Bool) : FabricIn s (s.flushDie die drop) := by
  have fold : ∀ {α : Type} (f : State → α → State) (l : List α) (u : State), (∀ v x, FabricIn s v → FabricIn s (f v x)) →
      FabricIn s u → FabricIn s (l.foldl f u) := by
    intro α f l
    induction l with
    | nil => intro u _ hu; exact hu
    | cons x l ih => intro u h hu; exact ih _ h (h u x hu)
  have home : ∀ (u : State) (w : WriteBack), FabricIn s u → FabricIn s (u.arriveHome w) := by
    intro u w hu c hc
    unfold State.arriveHome at hc
    simp only at hc
    split at hc
    · exact hu c (unit_fabric _ _ _ c hc)
    · exact hu c (unit_fabric _ _ _ c hc)
  have wb : ∀ (u : State) (l : Nat), FabricIn s u → FabricIn s (u.writeBack die l drop) := by
    intro u l hu
    unfold State.writeBack
    split
    · exact hu
    · rename_i c _
      have h : FabricIn s (if c.dirty = 0 then u else u.arriveHome (u.outgoing die l c)) := by
        split
        · exact hu
        · exact home _ _ hu
      simp only
      split <;> exact h
  unfold State.flushDie
  refine fold _ _ _ ?_ ?_
  · intro u l hu
    refine wb _ _ ?_
    split
    · intro c hc
      unfold State.squashView State.squashIf at hc
      simp only at hc
      split at hc
      · exact hu c hc
      · exact hu c (List.mem_filter.mp hc).1
    · exact hu
  · unfold State.settle
    exact fold _ _ _ (fun u w hu => home u w hu) (fun c hc => hc)

theorem any_sub {α : Type} (p : α → Bool) (l m : List α) (h : ∀ x ∈ l, x ∈ m) (hm : m.any p = false) : l.any p = false := by
  rw [List.any_eq_false] at hm ⊢
  exact fun x hx => hm x (h x hx)

theorem scopeAction_run {r : Running} {s : State} {t : Thread} (hs : r.s = s) (ht : r.t.tid = t.tid) (hc : r.t.core = t.core)
    (sc : BitVec 2) (drop release : Bool) (f : ScopeFree s t sc drop release) :
    scopeAction sc drop release r = .ok () { r with s := s.scoped t.die sc drop } := by
  subst hs
  have hdie : dieOf (r.t.core.getD 0) = t.die := by rw [hc]; rfl
  have fin : ∀ u : State, FabricIn r.s u → (if (decide (sc = 3) && release) = true then awaitFabric else pure ())
      { r with s := u } = .ok () { r with s := u } := by
    intro u hu
    by_cases h3 : sc = 3
    · cases hr : release
      · simp
      · have := any_sub _ _ _ hu (f.fabric h3 hr)
        simp only [h3, decide_true, Bool.and_self, if_true, awaitFabric, run_bind, run_get, run_ite]
        rw [if_neg]
        · rfl
        · rw [ht]; exact Bool.eq_false_iff.mp this
    · have h3 : ¬ sc = 3#2 := h3
      simp [h3]
  by_cases h2 : 2 ≤ sc
  · have hh := f.held h2
    rw [← ht] at hh
    simp only [scopeAction, run_bind, run_get, hdie, h2, if_true, hh, Bool.false_eq_true, if_false, run_modS, State.scoped]
    exact fin _ (flushDie_fabric _ _ _)
  · simp only [scopeAction, run_bind, run_get, h2, if_false, State.scoped]
    exact fin _ (fun _ h => h)

theorem drainVectors_run {r : Running} (h : Clean r) (hv : (r.s.fabric.any (·.isVectorOf r.t.tid)) = false) :
    drainVectors r = .ok () r := by
  simp only [drainVectors, run_bind, run_get, h.deferred, List.any_nil, hv, Bool.or_self, Bool.false_eq_true, if_false, run_pure]

theorem fence_done {s t} (q : Idle s t) (sc : BitVec 2) (hv : (s.fabric.any (·.isVectorOf t.tid)) = false)
    (f : ScopeFree s t sc true true) :
    execFence sc s = .next (settled (s.scoped t.die sc true) { t.past with ctx := t.ctx.next } []) := by
  have h := q.clean
  refine alone_settled (u := t) (n := .seq) q (.inl rfl) rfl rfl ?_ q.deferred q.replies q.pend ?_
  · simp only [run_seq, run_bind, awaitScalars_clean h, drainVectors_run h hv, scopeAction_run (r := atBody s t) (s := s) (t := t) rfl rfl rfl sc true true f]
    rfl
  · intro c hc
    refine q.forked c ?_
    unfold State.scoped at hc
    split at hc
    · exact flushDie_copies _ _ _ c hc
    · exact hc

theorem acq_bare {s t} (q : Idle s t) (d : BitVec 6) (sc : BitVec 2) (f : ScopeFree s t sc true false) :
    execAcq d 0 sc s = .next (settled (s.scoped t.die sc true) { t.past with ctx := t.ctx.next } []) := by
  have h := q.clean
  refine alone_settled (u := t) (n := .seq) q (.inl rfl) rfl rfl ?_ q.deferred q.replies q.pend ?_
  · simp only [run_seq, run_bind, awaitScalars_clean h, ne_eq, not_true_eq_false, if_false,
      scopeAction_run (r := atBody s t) (s := s) (t := t) rfl rfl rfl sc true false f]
    rfl
  · intro c hc
    refine q.forked c ?_
    unfold State.scoped at hc
    split at hc
    · exact flushDie_copies _ _ _ c hc
    · exact hc

theorem rel_bare {s t} (q : Idle s t) (b : BitVec 6) (sc : BitVec 2) (hv : (s.fabric.any (·.isVectorOf t.tid)) = false)
    (f : ScopeFree s t sc false true) :
    execRel 0 b sc s = .next (settled (s.scoped t.die sc false) { t.past with ctx := t.ctx.next } []) := by
  have h := q.clean
  refine alone_settled (u := t) (n := .seq) q (.inl rfl) rfl rfl ?_ q.deferred q.replies q.pend ?_
  · simp only [run_seq, run_bind, awaitScalars_clean h, if_true, drainVectors_run h hv,
      scopeAction_run (r := atBody s t) (s := s) (t := t) rfl rfl rfl sc false true f]
    rfl
  · intro c hc
    refine q.forked c ?_
    unfold State.scoped at hc
    split at hc
    · exact flushDie_copies _ _ _ c hc
    · exact hc

theorem spare_page {k : Chunk} (b : Bare k) (e : TlbEntry) : Bare (k.notePage e) := by
  unfold Chunk.notePage
  split
  · exact b
  · exact { b with }

theorem spare_store {k : Chunk} (b : Spare k) (ws : List Write) : Spare (k.store ws) := by
  unfold Chunk.store
  induction ws generalizing k with
  | nil => exact b
  | cons w ws ih =>
    rw [List.foldl_cons]
    exact ih { b with }

theorem spare_read {k : Chunk} (b : Bare k) (l n : Nat) : Bare (k.noteRead l n) := { b with }

theorem scoped_copies (s : State) (die : Nat) (sc : BitVec 2) (drop : Bool) : CopiesIn s (s.scoped die sc drop) := by
  unfold State.scoped
  split
  · exact flushDie_copies _ _ _
  · exact fun c h => h

theorem noteRead_copies (s : State) (l n : Nat) : (s.noteRead l n).copies = s.copies :=
  noteRead_keep State.copies (fun _ _ _ _ _ => rfl) s l n

theorem keep_copies (s : State) (n : Nat) (a : Access) (hit : Bool) : (s.keepEntry n a hit).copies = s.copies :=
  keepEntry_keep State.copies (fun _ _ _ => rfl) _ _ _ _

theorem squash_ticket (s : State) (p : Thread → Chunk → Bool) : (s.squashIf p).ticket = s.ticket := by
  unfold State.squashIf
  simp only
  split <;> rfl

theorem unit_ticket (s : State) (who : Option Nat) (ws : List Write) : (s.unit who ws).ticket = s.ticket := by
  unfold State.unit
  simp only
  rw [show ∀ (s : State) (ls : Marks), (s.wake who ls).ticket = s.ticket from fun _ _ => rfl]
  rw [show ∀ s : State, ({ s with scratchPoison := s.scratchPoison.filter fun k =>
      (ws.filter fun (w : Write) => scratchBase + k * 8 ≤ w.1 && w.1 < scratchBase + k * 8 + 8 && w.2.1 == 255).length != 8 } :
        State).ticket = s.ticket from fun _ => rfl]
  rw [foldl_keep State.ticket _ (fun s l => lineWritten_keep _ (fun _ _ _ _ => rfl) s _ l),
    foldl_keep State.ticket _ (fun s w => putByte_keep _ (fun _ _ => rfl) (fun _ _ _ _ _ => rfl) s w), squash_ticket,
    heatFor_keep State.ticket (fun _ _ _ => rfl)]

theorem arriveHome_ticket (s : State) (w : WriteBack) : (s.arriveHome w).ticket = s.ticket := by
  unfold State.arriveHome
  simp only
  split
  · exact unit_ticket _ _ _
  · exact unit_ticket _ _ _

theorem writeBack_ticket (s : State) (die line : Nat) (drop : Bool) : (s.writeBack die line drop).ticket = s.ticket := by
  unfold State.writeBack
  split
  · rfl
  · rename_i c _
    have h : (if c.dirty = 0 then s else s.arriveHome (s.outgoing die line c)).ticket = s.ticket := by
      split
      · rfl
      · exact arriveHome_ticket _ _
    simp only
    split
    · exact h
    · exact h

theorem scoped_ticket (s : State) (die : Nat) (sc : BitVec 2) (drop : Bool) : (s.scoped die sc drop).ticket = s.ticket := by
  unfold State.scoped
  split
  · unfold State.flushDie
    refine (foldl_keep State.ticket _ (fun s l => ?_) _ _).trans ?_
    · refine (writeBack_ticket _ _ _ _).trans ?_
      split
      · exact squash_ticket _ _
      · rfl
    · unfold State.settle
      exact foldl_keep State.ticket _ (fun s w => arriveHome_ticket s w) _ _
  · rfl

/-- The dword access of an acquire or a release lands in memory. -/
theorem syncPlace_run {s t} (q : Calm s t) {need : Need} {va : Word} (hal : va.toNat % 8 = 0) {a : Access} {hit : Bool} {l : Nat}
    (L : Lands s t need va.toNat a hit (.loc l)) :
    syncPlace need va (atBody s t) = .ok (.loc l)
      (Running.mk (s.keepEntry t.coreNum a hit) { t with chunk := some ((opened s t).notePage a.entry) } none [] false 0 (0, [])) := by
  obtain ⟨acc, r, hx, hp⟩ := lands_steps q L
  simp only [syncPlace, run_bind, run_ite]
  rw [if_neg (fun h => h hal)]
  simp only [run_pure, hx, hp]

theorem acq_done {s t} (q : Idle s t) (qf : Free s t) (d a : BitVec 6) (ha : a ≠ 0) (sc : BitVec 2) (hal : (t.ctx.xAt a).toNat % 8 = 0)
    {acc : Access} {hit : Bool} {l : Nat} (L : Lands s t .load (t.ctx.xAt a).toNat acc hit (.loc l))
    (hp : s.poisonTrap (t.ctx.xAt a).toNat l 8 = none) (s' : State) (hs : s' = (s.keepEntry t.coreNum acc hit).noteRead l 8)
    (f : ScopeFree s' t sc true false) (k : Chunk) (hk : k = (opened s t).notePage acc.entry) :
    execAcq d a sc s = .next (settled (s'.scoped t.die sc true)
      { t.past with ctx := (t.ctx.put d (BitVec.ofNat 64 (natOfBytes (k.sees s' l 8)))).next } (k.noteRead l 8).reads) := by
  subst hk
  have h := q.clean
  have h2 := q.toCalm.after acc hit
  have h3 := h2.to s' (((opened s t).notePage acc.entry).noteRead l 8) (by rw [hs]; exact noteRead_fabric _ _ _) rfl
  have hb := spare_read (spare_page (opened_bare (s := s) q.chunk) acc.entry) l 8
  have hr := readLoc_run h2 (t.ctx.xAt a).toNat l 8 (by rw [keep_poison]; exact hp)
  have hw := wrX_clean h3.toClean d (BitVec.ofNat 64 (natOfBytes (((opened s t).notePage acc.entry).sees s' l 8)))
  have hsc := scopeAction_run (r := Running.mk s' { t with
    ctx := t.ctx.put d (BitVec.ofNat 64 (natOfBytes (((opened s t).notePage acc.entry).sees s' l 8)))
    chunk := some (((opened s t).notePage acc.entry).noteRead l 8) } none [] false 0 (0, [])) (s := s') (t := t) rfl rfl rfl sc true false f
  refine Eq.trans (alone_stores (n := .seq) (k := ((opened s t).notePage acc.entry).noteRead l 8)
    (s' := s'.scoped t.die sc true)
    (u := { t with ctx := t.ctx.put d (BitVec.ofNat 64 (natOfBytes (((opened s t).notePage acc.entry).sees s' l 8))) })
    q (.inl rfl) rfl rfl ?_ (qf.clear ((scoped_ticket _ _ _ _).trans (by rw [hs, noteRead_ticket, keep_ticket])) q.replies)
    hb.toSpare q.deferred q.pend ?_ ?_) ?_
  · have e := syncPlace_run q.toCalm hal L
    have hr : readLoc (t.ctx.xAt a).toNat l 8
        (Running.mk (s.keepEntry t.coreNum acc hit) { t with chunk := some ((opened s t).notePage acc.entry) } none [] false 0 (0, [])) =
        .ok (((opened s t).notePage acc.entry).sees s' l 8)
          (Running.mk s' { t with chunk := some (((opened s t).notePage acc.entry).noteRead l 8) } none [] false 0 (0, [])) := by
      rw [hr, hs]
    simp only [run_seq, run_bind, awaitScalars_clean h]
    rw [if_pos ha]
    simp only [run_bind, rdX_clean h]
    rw [show (atBody s t).t.ctx = t.ctx from rfl]
    simp only [e, run_bind, hr, hw, hsc]
    rfl
  · intro c hc
    refine q.forked c ?_
    have := scoped_copies _ _ _ _ c hc
    rw [hs, noteRead_copies, keep_copies] at this
    exact this
  · rw [hb.writes]; exact held_nil _ _
  · rw [settledWith_bare _ _ hb]
    rfl

theorem rel_done {s t} (q : Idle s t) (qf : Free s t) (a b : BitVec 6) (ha : a ≠ 0) (sc : BitVec 2) (hal : (t.ctx.xAt a).toNat % 8 = 0)
    {acc : Access} {hit : Bool} {l : Nat} (L : Lands s t .store (t.ctx.xAt a).toNat acc hit (.loc l))
    (hv : (s.fabric.any (·.isVectorOf t.tid)) = false) (f : ScopeFree (s.keepEntry t.coreNum acc hit) t sc false true) (s' : State)
    (hs : s' = (s.keepEntry t.coreNum acc hit).scoped t.die sc false) (k : Chunk)
    (hk : k = ((opened s t).notePage acc.entry).store (writesOf l (bytesOfNat (t.ctx.xAt b).toNat 8)))
    (hh : s'.held (some t.tid) k.writes = false) :
    execRel a b sc s = .next (settledWith s' { t.past with ctx := t.ctx.next } k) := by
  subst hk
  have h := q.clean
  have h2 := q.toCalm.after acc hit
  have hb := spare_page (opened_bare (s := s) q.chunk) acc.entry
  have hsc := scopeAction_run (r := Running.mk (s.keepEntry t.coreNum acc hit) { t with chunk := some ((opened s t).notePage acc.entry) } none []
    false 0 (0, [])) (s := s.keepEntry t.coreNum acc hit) (t := t) rfl rfl rfl sc false true f
  refine alone_stores (n := .seq) (k := ((opened s t).notePage acc.entry).store _) (s' := s') (u := t)
    q (.inl rfl) rfl rfl ?_ (qf.clear (by rw [hs]; exact (scoped_ticket _ _ _ _).trans (keep_ticket _ _ _ _)) q.replies)
    (spare_store hb.toSpare _) q.deferred q.pend ?_ hh
  · have e := syncPlace_run q.toCalm hal L
    have hv2 : ((s.keepEntry t.coreNum acc hit).fabric.any (·.isVectorOf t.tid)) = false := by rw [keep_fabric]; exact hv
    have hdr := drainVectors_run h2.toClean hv2
    have hw := writeLoc_keep (r := Running.mk s' { t with chunk := some ((opened s t).notePage acc.entry) } none [] false 0 (0, []))
      (k := (opened s t).notePage acc.entry) q.deferred rfl (writesOf l (bytesOfNat (t.ctx.xAt b).toNat 8))
    simp only [run_seq, run_bind, awaitScalars_clean h]
    rw [if_neg ha]
    simp only [run_bind, rdX_clean h]
    rw [show (atBody s t).t.ctx = t.ctx from rfl]
    simp only [e, run_bind, hdr, hsc, ← hs]
    rw [hw]
    rfl
  · intro c hc
    refine q.forked c ?_
    rw [hs] at hc
    have := scoped_copies _ _ _ _ c hc
    rw [keep_copies] at this
    exact this

/-! ## Chunk instructions -/

theorem chkbeg_done {s t} (q : Idle s t) :
    execChkbeg s = .next (s.setThread
      { t.beginStat.past with ctx := t.ctx.next, chunk := some { opened s t with explicit := true } }) := by
  have hi : (opened s t).icount = 0 := by simp [opened, q.chunk]
  have he : (opened s t).explicit = false := by simp [opened, q.chunk]
  have hr : (opened s t).reads = [] := by simp [opened, q.chunk]
  have hw : (opened s t).writes = [] := by simp [opened, q.chunk]
  have hb : (seq (do
      atOpening 6
      modChunk fun c => { c with explicit := true }
      modT fun t => if t.statFresh then { t with statSquashes := 0, statFresh := false } else t)) (atBody s t) =
      .ok .seq { atBody s t with t := { t.beginStat with chunk := some { opened s t with explicit := true } } } := by
    have h1 : explicitChunk (atBody s t) = .ok false (atBody s t) := by
      simp only [explicitChunk, run_bind, run_getT, atBody_t, Option.any_some, he, run_pure]
    have h2 : begun (atBody s t) = .ok false (atBody s t) := by
      simp only [begun, run_bind, run_getT, atBody_t, Option.any_some, hi, Nat.lt_irrefl, decide_false, run_pure]
    have h3 : atOpening 6 (atBody s t) = .ok () (atBody s t) := by
      simp only [atOpening, run_bind, h1, h2, run_ite, Bool.false_eq_true, if_false, run_pure]
    simp only [run_seq, run_bind, h3, run_modChunk, run_modT, Thread.beginStat]
    cases hs : t.statFresh <;> simp [hs]
  have hn : t.beginStat.replies = [] := by
    unfold Thread.beginStat
    split <;> exact q.replies
  have cl : Clear (Running.of s t) { atBody s t with t := { t.beginStat with chunk := some { opened s t with explicit := true } } } :=
    .same rfl rfl rfl hn
  have e1 := cl.claims
  have e2 := cl.used
  simp only [of_t, of_s] at e1 e2
  simp only [execChkbeg, control, q.toReady.acting, q.toReady.ended, Running.execute, Running.attempt, openChunk_of, hb, of_t, of_s,
    of_vp, of_ends, q.vps, Option.isSome_none, List.isEmpty_nil, Bool.not_true, Bool.and_false, Bool.false_and, Bool.false_eq_true,
    if_false, bne_self_eq_false, e1, e2]
  simp only [atBody_vp, atBody_ends, Bool.false_or]
  rw [goOn_seq rfl]
  have hv : ({ opened s t with explicit := true } : Chunk).overflow = none := by
    simp [Chunk.overflow, hi, hr, hw]
  simp only [Running.retire, Thread.past, Bool.false_eq_true, if_false, Bool.true_and]
  rw [hv]
  cases hs : t.statFresh <;> simp [Thread.beginStat, hs, Ctx.next, Running.goOn]

theorem chkend_done {s t} (q : Ready s t) (hr : t.replies = []) (k : Chunk) (hk : k = opened s t) (b : Spare k) (hd : t.deferred = [])
    (hf : ∀ c ∈ s.copies, c.tid = t.tid → c.forked = true) (hh : s.held (some t.tid) k.writes = false) :
    execChkend s = .next (settledWith s { t.past with ctx := t.ctx.next } k) := by
  subst hk
  exact control_closes (n := .seq) (u := t) (k := opened s t) q (.inl rfl) rfl rfl (.same rfl rfl rfl hr) b hd q.pend hf hh

theorem chkstat_done {s t} (q : Quiet s t) (d : BitVec 6) :
    execChkstat d s = .next (wrote s t (t.ctx.put d (BitVec.ofNat 64 (min 65535 t.statSquashes * 2 ^ 16
      + (if (opened s t).explicit && (opened s t).priority then 2 else 0) + (if (opened s t).explicit then 1 else 0))))) := by
  apply control_wrote q rfl rfl rfl
  simp only [run_seq, run_bind, run_getT, atBody_t, Option.any_some, wrX_clean q.clean]

theorem pref_done {s t} (q : Quiet s t) (a : BitVec 6) : execPref a s = .next (wrote s t t.ctx) := by
  apply control_wrote q rfl rfl rfl
  simp only [run_seq, run_bind, rdX_clean q.clean, run_pure]
  rfl

end Sys2Proof.Machine
end

