-- ==== Sys2Proof/Laws/Vector.lean ====
section
/-! SUPPORT. What the operand forms of the vector instructions do where no register is held, poisoned or in stream mode, and
the instructions that give each active element a result. -/

set_option linter.unusedSimpArgs false
set_option Elab.async false

namespace Sys2Proof.Machine

/-- A running thread none of whose registers is held or in stream mode. -/
structure Plain (r : Running) : Prop extends Clean r where
  streams : r.t.ctx.streams = []
  vp : r.vp = none

theorem VecQuiet.plain {s t} (q : VecQuiet s t) : Plain (atBody s t) := ⟨q.toQuiet.toCalm.clean, q.streams, rfl⟩

theorem awaitV_clean {r : Running} (h : Clean r) (k : Nat) : awaitV k r = .ok () r := by
  simp [awaitV, h.deferred, h.awaits, h.failed]

theorem checkPoisonP_clean {r : Running} (h : Clean r) (k : Nat) : checkPoisonP k r = .ok () r := by
  simp [checkPoisonP, h.poison]

theorem checkPoisonV_clean {r : Running} (h : Clean r) (k w : Nat) (es : List Nat) : checkPoisonV k w es r = .ok () r := by
  simp [checkPoisonV, h.poison]

theorem activeElems_plain {r : Running} (h : Plain r) : activeElems r = .ok r.t.ctx.active r := by
  simp only [activeElems, run_bind, run_get, h.vp, run_ite, checkPoisonP_clean h.toClean]
  split <;> rfl

theorem dstV_plain {r : Running} (h : Plain r) (k : BitVec 6) : dstV k r = .ok (r.t.ctx.phys k.toNat) r := by
  simp only [dstV, run_bind, run_get, h.streams, tfind, Option.isSome_none, Bool.false_eq_true, if_false, run_ite, run_pure,
    awaitV_clean h.toClean]

theorem srcV_plain {r : Running} (h : Plain r) (k : BitVec 6) (w c : Nat) : srcV k w c r = .ok (r.t.ctx.vAt k) r := by
  simp only [srcV, run_bind, run_get, h.streams, tfind, awaitV_clean h.toClean, run_pure, Ctx.vAt]

theorem srcElems_plain {r : Running} (h : Plain r) (k : BitVec 6) (w c : Nat) (es : List Nat) :
    srcElems k w c es r = .ok (r.t.ctx.vAt k) r := by
  simp only [srcElems, run_bind, srcV_plain h, run_getC, h.streams, tfind, Option.isSome_none, Bool.not_false, if_true,
    checkPoisonV_clean h.toClean, run_pure]

theorem vpStreams_plain {r : Running} (h : Plain r) (ks : List (BitVec 6)) : vpStreams ks r = .ok () r := by
  simp [vpStreams, h.vp]

theorem checkSrcs_plain {r : Running} (h : Plain r) (l : List (BitVec 6 × Nat)) : checkSrcs l r = .ok () r := by
  simp only [checkSrcs, run_bind, run_getC, h.streams, tfind]
  induction l with
  | nil => rfl
  | cons e l ih =>
    simp only [List.forIn_cons, run_bind, run_pure] at ih ⊢
    exact ih

theorem wrElems_plain {r : Running} (h : Plain r) (n w : Nat) (es : List (Nat × Nat)) :
    wrElems n w es r = .ok () { r with t := { r.t with ctx := r.t.ctx.setV n (fill (r.t.ctx.v[n]?.getD 0) w es) } } := by
  simp [wrElems, fill, h.poison]

theorem checkVl_run {r : Running} (w : Nat) (h : r.t.vlFits w = true) : checkVl w r = .ok () r := by
  have : ¬ vlLimit r.t.vlmax w < r.t.ctx.vl := by simpa [Thread.vlFits] using h
  simp [checkVl, this]

theorem getElem_zero (i w : Nat) : getElem (0 : VReg) i w = 0 := by
  simp only [getElem, BitVec.ofNat_eq_ofNat, BitVec.toNat_ofNat, Nat.zero_mod, Nat.zero_div]

theorem foldl_pairs (es : List Nat) (g : Nat → Rounded) (f0 : Flags) :
    (es.map fun i => (i, g i)).foldl (fun fl e => fl ||| e.2.2) f0 = es.foldl (fun fl i => fl ||| (g i).2) f0 := by
  rw [List.foldl_map]

theorem elementwise_plain {r : Running} (h : Plain r) (d : BitVec 6) (wd : Nat) (reads : Bool) (a : BitVec 6) (w : Nat) (b : Arg)
    (wb : Nat) (f : Nat → Nat → Nat → Nat → Rounded) :
    elementwise d wd reads a w b wb f r = .ok () { r with t := { r.t with
      ctx := r.t.ctx.putElems d wd fun i =>
        f i (getElem (r.t.ctx.vAt d) i wd) (getElem (r.t.ctx.vAt a) i w) (r.t.ctx.argAt b wb i) } } := by
  cases b with
  | none =>
    simp only [elementwise, run_bind, run_pure, dstV_plain h, checkSrcs_plain h, activeElems_plain h, run_getC,
      srcElems_plain h, run_ite, checkPoisonV_clean h.toClean, ite_self, wrElems_plain h, run_raise, List.map_map, foldl_pairs,
      getElem_zero]
    rfl
  | v k =>
    simp only [elementwise, run_bind, run_pure, dstV_plain h, checkSrcs_plain h, activeElems_plain h, run_getC,
      srcElems_plain h, run_ite, checkPoisonV_clean h.toClean, ite_self, wrElems_plain h, run_raise, List.map_map, foldl_pairs]
    rfl
  | x k =>
    simp only [elementwise, run_bind, run_pure, rdX_clean h.toClean, dstV_plain h, checkSrcs_plain h, activeElems_plain h,
      run_getC, srcElems_plain h, run_ite, checkPoisonV_clean h.toClean, ite_self, wrElems_plain h, run_raise, List.map_map, foldl_pairs]
    rfl

/-- The charge of the passes that subnormal values take, of an instruction that has left context c. -/
theorem chargePasses_plain {r : Running} (hv : r.vp = none) (hp : r.popped = []) (hb : r.beats = 0) (c : Ctx) (srcs dst : List (Arg × TypeCode))
    (ds : List Nat) : chargePasses r.t.ctx r.t.ctx.active srcs dst ds { r with t := { r.t with ctx := c } } =
      .ok () { r with t := { r.t with ctx := c }, beats := r.t.ctx.slowPasses c srcs dst ds } := by
  simp only [chargePasses, run_modify, hv, Option.isSome_none, Bool.false_eq_true, if_false, hb,
    Nat.zero_add, Ctx.slowPasses, hp]

/-- The charge of the passes that subnormal values take, once an instruction has left context c. -/
theorem charge_plain {r : Running} (h : Plain r) (hp : r.popped = []) (hb : r.beats = 0) {c : Ctx} (hc : c.streams = [])
    (ha : c.active = r.t.ctx.active) (srcs dst : List (Arg × TypeCode)) :
    (activeElems >>= fun es => chargePasses r.t.ctx es srcs dst) { r with t := { r.t with ctx := c } } =
      .ok () { r with t := { r.t with ctx := c }, beats := r.t.ctx.slowPasses c srcs dst } := by
  have hq : Plain { r with t := { r.t with ctx := c } } := ⟨h.toClean.ctx c, hc, h.vp⟩
  rw [run_bind, activeElems_plain hq]
  refine (?_ : chargePasses r.t.ctx c.active srcs dst c.active _ = _)
  rw [ha]
  exact chargePasses_plain h.vp hp hb c srcs dst r.t.ctx.active

theorem elementwise_charged {r : Running} (h : Plain r) (hp : r.popped = []) (hb : r.beats = 0) (d : BitVec 6) (wd : Nat)
    (reads : Bool) (a : BitVec 6) (w : Nat) (b : Arg) (wb : Nat) (f : Nat → Nat → Nat → Nat → Rounded)
    (srcs dst : List (Arg × TypeCode)) :
    (elementwise d wd reads a w b wb f >>= fun _ => activeElems >>= fun es => chargePasses r.t.ctx es srcs dst) r =
      (let c := r.t.ctx.putElems d wd fun i =>
        f i (getElem (r.t.ctx.vAt d) i wd) (getElem (r.t.ctx.vAt a) i w) (r.t.ctx.argAt b wb i)
      .ok () { r with t := { r.t with ctx := c }, beats := r.t.ctx.slowPasses c srcs dst }) := by
  rw [run_bind, elementwise_plain h]
  exact charge_plain h hp hb (c := r.t.ctx.putElems d wd _) h.streams rfl srcs dst

/-! ## Integer and floating instructions -/

theorem vecInt_done {s t} (q : VecQuiet s t) (free reads : Bool) (f : IntOp → Int → Int → Int → Nat) (d a : BitVec 6) (b : Arg)
    (o : IntOp) (ho : o = t.ctx.intOp)
    (hm : (isInt o.t && isInt o.u && (free || o.t == o.u) && modeScale t.ctx.mode == 0) = true)
    (hv : t.vlFits (max o.w o.wd) = true) :
    vecInt free reads f d a b s = .next (wrote s t (t.ctx.putElems d o.wd fun i =>
      (f o (intValue o.t o.w (getElem (t.ctx.vAt a) i o.w)) (intValue o.t o.w (t.ctx.argAt b o.w i))
        (intValue o.u o.wd (getElem (t.ctx.vAt d) i o.wd)), 0))) := by
  subst ho
  apply shared_wrote q.toQuiet rfl rfl rfl
  have h := q.plain
  have hm : (isInt (modeStype (atBody s t).t.ctx.mode) && isInt (modeDtype (atBody s t).t.ctx.mode)
    && (free || modeStype (atBody s t).t.ctx.mode == modeDtype (atBody s t).t.ctx.mode)
    && modeScale (atBody s t).t.ctx.mode == 0) = true := hm
  have hv : (atBody s t).t.vlFits (max (typeWidth (atBody s t).t.ctx.fmt (modeStype (atBody s t).t.ctx.mode))
    (typeWidth (atBody s t).t.ctx.fmt (modeDtype (atBody s t).t.ctx.mode))) = true := hv
  simp only [run_seq, run_bind, run_getC, vpStreams_plain h, run_needMode, hm, if_true, checkVl_run _ hv, elementwise_plain h]
  rfl

theorem vecFloat_done {s t} (q : VecQuiet s t) (reads : Bool) (f : FloatOp → Nat → Val → Val → Val → Nat → Rounded)
    (d a : BitVec 6) (b : Arg)
    (hm : (isFloat (modeStype t.ctx.mode) && isFloat (modeDtype t.ctx.mode) && t.ctx.sw ≤ t.ctx.dw
      && modeScale t.ctx.mode == 0) = true)
    (hv : t.vlFits (max t.ctx.sw t.ctx.dw) = true) (o : FloatOp) (ho : o = t.ctx.floatOp)
    (num : Bool := true) : vecFloat reads f d a b s num = .next (passed s t
      (t.ctx.putElems d t.ctx.dw fun i =>
        f o i (o.f.value (getElem (t.ctx.vAt a) i t.ctx.sw)) (o.f.value (t.ctx.argAt b t.ctx.sw i))
          (o.g.value (getElem (t.ctx.vAt d) i t.ctx.dw)) (t.ctx.argAt b t.ctx.sw i))
      ((.v a, modeStype t.ctx.mode) :: (if num then b else .none, modeStype t.ctx.mode) :: (if reads then [(.v d, modeDtype t.ctx.mode)] else []))
      [(.v d, modeDtype t.ctx.mode)]) := by
  subst ho
  apply shared_charged _ q.toQuiet rfl rfl rfl
  have h := q.plain
  have hm : (isFloat (modeStype (atBody s t).t.ctx.mode) && isFloat (modeDtype (atBody s t).t.ctx.mode)
    && (typeWidth (atBody s t).t.ctx.fmt (modeStype (atBody s t).t.ctx.mode)) ≤ (typeWidth (atBody s t).t.ctx.fmt (modeDtype (atBody s t).t.ctx.mode))
    && modeScale (atBody s t).t.ctx.mode == 0) = true := hm
  have hv : (atBody s t).t.vlFits (max (typeWidth (atBody s t).t.ctx.fmt (modeStype (atBody s t).t.ctx.mode))
    (typeWidth (atBody s t).t.ctx.fmt (modeDtype (atBody s t).t.ctx.mode))) = true := hv
  simp only [run_seq, run_bind, ↓elementwise_charged h rfl rfl, run_getC, vpStreams_plain h, run_needMode, hm, if_true, checkVl_run _ hv]
  rfl

theorem vfscaleVx_done {s t} (q : VecQuiet s t) (d a b : BitVec 6) (c : Bool)
    (hm : (isFloat (modeStype t.ctx.mode) && isFloat (modeDtype t.ctx.mode) && t.ctx.sw ≤ t.ctx.dw
      && modeScale t.ctx.mode == 0) = true)
    (hv : t.vlFits (max t.ctx.sw t.ctx.dw) = true) :
    execVfscaleVx d a b c s = .next (passed s t
      (t.ctx.putElems d t.ctx.dw fun i =>
        scaleRounded t.ctx.floatOp i (t.ctx.floatOp.f.value (getElem (t.ctx.vAt a) i t.ctx.sw)) (t.ctx.xAt b).toInt)
      [(.v a, modeStype t.ctx.mode)] [(.v d, modeDtype t.ctx.mode)]) := by
  apply shared_charged _ q.toQuiet rfl rfl rfl
  have h := q.plain
  have hm : (isFloat (modeStype (atBody s t).t.ctx.mode) && isFloat (modeDtype (atBody s t).t.ctx.mode)
    && (typeWidth (atBody s t).t.ctx.fmt (modeStype (atBody s t).t.ctx.mode)) ≤ (typeWidth (atBody s t).t.ctx.fmt (modeDtype (atBody s t).t.ctx.mode))
    && modeScale (atBody s t).t.ctx.mode == 0) = true := hm
  have hv : (atBody s t).t.vlFits (max (typeWidth (atBody s t).t.ctx.fmt (modeStype (atBody s t).t.ctx.mode))
    (typeWidth (atBody s t).t.ctx.fmt (modeDtype (atBody s t).t.ctx.mode))) = true := hv
  simp only [run_seq, run_bind, run_getC, vpStreams_plain h, run_needMode, hm, if_true, checkVl_run _ hv, rdX_clean h.toClean,
    ↓elementwise_charged h rfl rfl, run_pure]
  rfl

theorem vfclass_done {s t} (q : VecQuiet s t) (d a : BitVec 6) (c : Bool)
    (hm : (isFloat (modeStype t.ctx.mode) && isInt (modeDtype t.ctx.mode) && 16 ≤ t.ctx.dw && modeScale t.ctx.mode == 0) = true)
    (hv : t.vlFits (max t.ctx.sw t.ctx.dw) = true) :
    execVfclass d a c s = .next (passed s t
      (t.ctx.putElems d t.ctx.dw fun i => (classMask t.ctx.floatOp.f (getElem (t.ctx.vAt a) i t.ctx.sw), 0))
      [(.v a, modeStype t.ctx.mode)] []) := by
  apply shared_charged _ q.toQuiet rfl rfl rfl
  have h := q.plain
  have hm : (isFloat (modeStype (atBody s t).t.ctx.mode) && isInt (modeDtype (atBody s t).t.ctx.mode)
    && 16 ≤ (typeWidth (atBody s t).t.ctx.fmt (modeDtype (atBody s t).t.ctx.mode))
    && modeScale (atBody s t).t.ctx.mode == 0) = true := hm
  have hv : (atBody s t).t.vlFits (max (typeWidth (atBody s t).t.ctx.fmt (modeStype (atBody s t).t.ctx.mode))
    (typeWidth (atBody s t).t.ctx.fmt (modeDtype (atBody s t).t.ctx.mode))) = true := hv
  simp only [run_seq, run_bind, run_getC, vpStreams_plain h, run_needMode, hm, if_true, checkVl_run _ hv, ↓elementwise_charged h rfl rfl]
  rfl

theorem vcvt_done {s t} (q : VecQuiet s t) (d a : BitVec 6) (c : Bool) (hm : (modeScale t.ctx.mode == 0) = true)
    (hv : t.vlFits (max t.ctx.sw t.ctx.dw) = true) :
    execVcvt d a c s = .next (passed s t
      (t.ctx.putElems d t.ctx.dw fun i => t.ctx.conv.convert i (getElem (t.ctx.vAt a) i t.ctx.sw))
      [(.v a, modeStype t.ctx.mode)] [(.v d, modeDtype t.ctx.mode)]) := by
  apply shared_charged _ q.toQuiet rfl rfl rfl
  have h := q.plain
  have hm : (modeScale (atBody s t).t.ctx.mode == 0) = true := hm
  have hv : (atBody s t).t.vlFits (max (typeWidth (atBody s t).t.ctx.fmt (modeStype (atBody s t).t.ctx.mode))
    (typeWidth (atBody s t).t.ctx.fmt (modeDtype (atBody s t).t.ctx.mode))) = true := hv
  simp only [run_seq, run_bind, getConv, getMode, run_getC, run_pure, vpStreams_plain h, run_needMode, hm, if_true,
    checkVl_run _ hv, ↓elementwise_charged h rfl rfl]
  rfl

theorem vidx_done {s t} (q : VecQuiet s t) (d : BitVec 6) (st : BitVec 12) (p : BitVec 8)
    (hm : (isInt (modeDtype t.ctx.mode) && modeScale t.ctx.mode == 0) = true) (hv : t.vlFits t.ctx.dw = true) :
    execVidx d st p s = .next (wrote s t (t.ctx.putV d (fill (t.ctx.vAt d) t.ctx.dw (t.ctx.active.map fun i =>
      (i, narrow (modeSat t.ctx.mode) (modeDtype t.ctx.mode) t.ctx.dw (st.toInt + i * p.toInt)))))) := by
  apply shared_wrote q.toQuiet rfl rfl rfl
  have h := q.plain
  have hm : (isInt (modeDtype (atBody s t).t.ctx.mode) && modeScale (atBody s t).t.ctx.mode == 0) = true := hm
  have hv : (atBody s t).t.vlFits (typeWidth (atBody s t).t.ctx.fmt (modeDtype (atBody s t).t.ctx.mode)) = true := hv
  simp only [run_seq, run_bind, run_getC, vpStreams_plain h, run_needMode, hm, if_true, checkVl_run _ hv, fillElems,
    dstV_plain h, activeElems_plain h, wrElems_plain h]
  rfl

theorem vrng_done {s t} (q : VecQuiet s t) (d a : BitVec 6)
    (hm : ((modeDtype t.ctx.mode == 2 || modeDtype t.ctx.mode == 6 || modeDtype t.ctx.mode == 3 || modeDtype t.ctx.mode == 7)
      && modeScale t.ctx.mode == 0) = true) (hv : t.vlFits t.ctx.dw = true) :
    execVrng d a s = .next (wrote s t (t.ctx.putV d (fill (t.ctx.vAt d) t.ctx.dw (t.ctx.active.map fun i =>
      (i, if t.ctx.dw = 32 then (mix (t.ctx.xAt a + BitVec.ofNat 64 i) t.ctx.rngkey).toNat / 2 ^ 32
          else (mix (t.ctx.xAt a + BitVec.ofNat 64 i) t.ctx.rngkey).toNat))))) := by
  apply shared_wrote q.toQuiet rfl rfl rfl
  have h := q.plain
  have hm : ((modeDtype (atBody s t).t.ctx.mode == 2 || modeDtype (atBody s t).t.ctx.mode == 6
    || modeDtype (atBody s t).t.ctx.mode == 3 || modeDtype (atBody s t).t.ctx.mode == 7)
    && modeScale (atBody s t).t.ctx.mode == 0) = true := hm
  have hv : (atBody s t).t.vlFits (typeWidth (atBody s t).t.ctx.fmt (modeDtype (atBody s t).t.ctx.mode)) = true := hv
  simp only [run_seq, run_bind, run_getC, vpStreams_plain h, run_needMode, hm, if_true, checkVl_run _ hv, rdX_clean h.toClean,
    fillElems, dstV_plain h, activeElems_plain h, wrElems_plain h]
  rfl

end Sys2Proof.Machine
end

