-- ==== Sys2Proof/Laws/VecMem.lean ====
section
/-! SUPPORT. What the vector loads, stores and atomics do on elements in memory (09, R199 to R210). -/

set_option linter.unusedSimpArgs false
set_option Elab.async false

namespace Sys2Proof.Machine

theorem phys_lt (c : Ctx) (k : BitVec 6) : c.phys k.toNat < 64 := by
  unfold Ctx.phys
  have := k.isLt
  split <;> omega

theorem setV_getD (c : Ctx) (n : Nat) (hn : n < 64) (v : VReg) : (c.setV n v).v[n]?.getD 0 = v := by
  simp [Ctx.setV, hn]

theorem setV_setV (c : Ctx) (n : Nat) (u v : VReg) : (c.setV n u).setV n v = c.setV n v := by
  simp only [Ctx.setV, Vector.setIfInBounds_setIfInBounds]

/-! ## Reads of elements -/

theorem elemPlace_run {t : Thread} {need : Need} {i : Nat} {va elem : Word} {s s' : State} {k k' : Chunk} {g g' : Group} {a : Access}
    {l : Nat} (h : t.reach need i va.toNat s k g = some (a, s', k', g')) (hl : t.spot s' a = some l) (c : Ctx)
    (hc : c.priv = t.ctx.priv) : elemPlace i need va elem (t.on s c k g) = .ok (.loc l) (t.on s' c k' g') := by
  simp only [elemPlace, elemAt, run_bind, reach_run h c hc, spot_run hl, run_pure]

theorem wholePlace_run {t : Thread} {need : Need} {i : Nat} {va : Word} {n : Nat} (ha : va.toNat % n = 0) {s s' : State} {k k' : Chunk}
    {g g' : Group} {a : Access} {l : Nat} (h : t.reach need i va.toNat s k g = some (a, s', k', g')) (hl : t.spot s' a = some l)
    (c : Ctx) (hc : c.priv = t.ctx.priv) : wholePlace i need va n (t.on s c k g) = .ok (.loc l) (t.on s' c k' g') := by
  simp only [wholePlace, run_bind, run_ite]
  rw [if_neg (fun h => h ha)]
  simp only [run_pure, elemPlace_run h hl c hc]

theorem elemAts_run {t : Thread} {s : State} {elem : Word} {as : List Access} {ls : List Nat} (h : as.mapM (t.spot s) = some ls) (c : Ctx)
    (k : Chunk) (g : Group) : (as.mapM (fun acc => do return (acc.va, ← elemAt acc elem)) : Exec _) (t.on s c k g) =
      EStateM.Result.ok (((as.map (·.va)).zip ls).map fun e => (e.1, Place.loc e.2)) (t.on s c k g) := by
  induction as generalizing ls with
  | nil =>
    simp only [List.mapM_nil, Option.pure_def, Option.some.injEq] at h
    subst h
    rfl
  | cons a rest ih =>
    simp only [List.mapM_cons, Option.pure_def, Option.bind_eq_bind, Option.bind_eq_some_iff, Option.some.injEq] at h
    obtain ⟨l, h1, ls1, h2, rfl⟩ := h
    have e := ih h2
    simp only [List.mapM_cons, run_bind, elemAt, spot_run h1, run_pure] at e ⊢
    simp only [e, run_pure, List.map_cons, List.zip_cons_cons]

theorem subPlaces_run {t : Thread} {need : Need} {i : Nat} {a : Word} {n : Nat} {s s' : State} {k k' : Chunk} {g g' : Group}
    {ls : List Nat} (c : Ctx) (hc : c.priv = t.ctx.priv)
    (h : t.land need i ((List.range n).map fun j => (a + BitVec.ofNat 64 j).toNat) s k g = some (ls, s', k', g')) :
    subPlaces i need a n (t.on s c k g) =
      .ok ((((List.range n).map fun j => (a + BitVec.ofNat 64 j).toNat).zip ls).map fun e => (e.1, .loc e.2)) (t.on s' c k' g') := by
  simp only [Thread.land, Option.bind_eq_some_iff, Option.map_eq_some_iff] at h
  obtain ⟨⟨as, s1, k1, g1⟩, h1, ls1, h2, e⟩ := h
  simp only [Prod.mk.injEq] at e
  obtain ⟨rfl, rfl, rfl, rfl⟩ := e
  obtain ⟨e1, e2⟩ := reachEach_run (fun j => (a + BitVec.ofNat 64 j).toNat) h1 c hc
  refine bind_ok e1 ?_
  rw [elemAts_run h2, e2]

theorem readPlaces_run {n : Nat} {ps : List (Nat × Nat)} {s s' : State} {k k' : Chunk} {b : List Byte} {t : Thread}
    (hd : t.deferred = []) (c : Ctx) (g : Group) (ask : Nat → FabricReq → Exec (List FabricReq))
    (h : lookEach n ps s k = some (b, s', k')) :
    ∃ bs : List (List Byte), bs.flatten = b ∧
      (ps.map fun e => (e.1, Place.loc e.2)).mapM (fun e => readPlace e.1 e.2 n (ask e.1)) (t.on s c k g) = .ok bs (t.on s' c k' g) := by
  induction ps generalizing s k b with
  | nil =>
    simp only [lookEach, Option.some.injEq, Prod.mk.injEq] at h
    obtain ⟨rfl, rfl, rfl⟩ := h
    exact ⟨[], rfl, rfl⟩
  | cons p rest ih =>
    obtain ⟨va, l⟩ := p
    simp only [lookEach, Option.bind_eq_some_iff, Option.map_eq_some_iff] at h
    obtain ⟨⟨b1, s1, k1⟩, h1, ⟨bs, s2, k2⟩, h2, e⟩ := h
    simp only [Prod.mk.injEq] at e
    obtain ⟨rfl, rfl, rfl⟩ := e
    obtain ⟨bs', e1, e2⟩ := ih h2
    refine ⟨b1 :: bs', by simp [e1], ?_⟩
    simp only [List.map_cons, List.mapM_cons, run_bind, readPlace, look_run h1 hd c g, run_pure]
    have e2 : (rest.map fun e => (e.1, Place.loc e.2)).mapM (fun e => readPlace e.1 e.2 n (ask e.1)) (t.on s1 c k1 g) = _ := e2
    simp only [readPlace] at e2
    simp only [e2, run_pure]

theorem mayDefer_off {t : Thread} {s : State} {k : Chunk} (c : Ctx) (g : Group) (l : Nat) (h : s.defer = false) :
    mayDefer (.loc l) (t.on s c k g) = .ok false (t.on s c k g) :=
  mayDefer_no l (.inl h)

theorem looked_defer {s s' : State} {k k' : Chunk} (h : Looked s s' k k') : s'.defer = s.defer := by rw [h.state]
theorem looked_cut {s s' : State} {k k' : Chunk} (h : Looked s s' k k') : s'.cut = s.cut := by rw [h.state]

theorem wrElems_on {t : Thread} (hp : t.poison = []) (s : State) (c : Ctx) (k : Chunk) (g : Group) (n w : Nat)
    (es : List (Nat × Nat)) :
    wrElems n w es (t.on s c k g) = .ok () (t.on s (c.setV n (fill (c.v[n]?.getD 0) w es)) k g) := by
  simp [wrElems, fill, hp, Thread.on]

theorem loadElem_run {t : Thread} {s s' : State} {k k' : Chunk} {g g' : Group} {b : List Byte} (hp : t.poison = [])
    (hdf : t.deferred = []) (f : Fetching) (n w : Nat) (a : Word) (bit i : Nat) (c : Ctx) (hc : c.priv = t.ctx.priv) (hd : s.defer = false)
    (hb : w < 8 ∨ bit = 0 ∧ a.toNat % (w / 8) = 0)
    (h : t.see .load i (elemPieces w a bit).1 (elemPieces w a bit).2 s k g = some (b, s', k', g')) :
    loadElem f n w a bit i (t.on s c k g) =
      .ok () (t.on s' (c.setV n (setElem (c.v[n]?.getD 0) i w (natOfBytes b / 2 ^ bit))) k' g') := by
  simp only [Thread.see, Option.bind_eq_some_iff, Option.map_eq_some_iff] at h
  obtain ⟨⟨ls, s1, k1, g1⟩, h1, ⟨b1, s2, k2⟩, h2, e⟩ := h
  simp only [Prod.mk.injEq] at e
  obtain ⟨rfl, rfl, rfl, rfl⟩ := e
  by_cases hw : w < 8
  · simp only [elemPieces, hw, if_true] at h1 h2
    obtain ⟨bs, e1, e2⟩ := readPlaces_run hdf c g1 (f.ask i) h2
    simp only [loadElem, hw, if_true, run_bind, subPlaces_run c hc h1, e2, e1, wrElems_on hp]
    rfl
  · obtain ⟨rfl, ha⟩ := hb.resolve_left hw
    simp only [elemPieces, hw, if_false] at h1 h2
    obtain ⟨acc, l, rfl, h3, h4⟩ := land_one h1
    simp only [List.zip_cons_cons, List.zip_nil_left, lookEach, Option.bind_eq_some_iff, Option.map_eq_some_iff] at h2
    obtain ⟨⟨b1, s4, k4⟩, h5, ⟨b2, s5, k5⟩, h6, e⟩ := h2
    simp only [Option.some.injEq, Prod.mk.injEq] at h6 e
    obtain ⟨rfl, rfl, rfl⟩ := h6
    obtain ⟨rfl, rfl, rfl⟩ := e
    have hd2 : s1.defer = false := by rw [looked_defer (reach_looked h3)]; exact hd
    simp only [loadElem, hw, if_false, run_bind, wholePlace_run ha h3 h4 c hc, mayDefer_off c g1 l hd2, Bool.false_eq_true, run_ite,
      readPlace, look_run h5 hdf c g1, wrElems_on hp, List.append_nil, Nat.pow_zero, Nat.div_one]
    simp only [fill, List.foldl_cons, List.foldl_nil, Nat.pow_zero, Nat.div_one]

/-! ## Loops over elements -/

/-- One element of a restartable loop: estart is at it while it is performed (R200). -/
def atElem (perform : Nat → Exec Unit) (i : Nat) : Exec Unit := do
  modC fun c => { c with estart := BitVec.ofNat 64 i }
  perform i

theorem forIn_elems (perform : Nat → Exec Unit) (es : List Nat) (r : Running) :
    (forIn es PUnit.unit (fun i _ => do
      modC fun c => { c with estart := BitVec.ofNat 64 i }
      perform i
      pure (ForInStep.yield PUnit.unit)) : Exec PUnit) r =
    es.foldr (fun i rest r => match atElem perform i r with | .ok _ r => rest r | .error e r => .error e r)
      (fun r => EStateM.Result.ok PUnit.unit r) r := by
  induction es generalizing r with
  | nil => rfl
  | cons i es ih =>
    simp only [List.forIn_cons, run_bind, run_modC, List.foldr_cons, atElem]
    cases perform i { r with t := { r.t with ctx := { r.t.ctx with estart := BitVec.ofNat 64 i } } } with
    | ok a r' =>
      simp only [run_pure]
      exact ih r'
    | error e r' => rfl

theorem cutPoint_none {r : Running} (h : r.s.cut = none) (es : List Nat) : cutPoint es r = .ok none r := by
  simp only [cutPoint, run_bind, run_get, h, run_pure]

theorem elemAddr_bit (form : VForm) (base stride : Word) (u : TypeCode) (w wi : Nat) (idx : VReg) (i : Nat) (hw : ¬ w < 8) :
    (elemAddr form base stride u w wi idx i).2 = 0 := by
  cases form <;> simp [elemAddr, hw]

theorem runElems_run {r r' : Running} (hv : r.vp = none) (h : r.s.cut = none) (ss : Table Stream) (es : List Nat)
    (perform : Nat → Exec Unit) (whole : Bool)
    (hl : es.foldr (fun i rest r => match atElem perform i r with | .ok _ r => rest r | .error e r => .error e r)
      (fun r => EStateM.Result.ok PUnit.unit r) r = .ok PUnit.unit r') :
    runElems ss es perform whole r = .ok .seq { r' with t := { r'.t with ctx := { r'.t.ctx with estart := 0 } } } := by
  have e := forIn_elems perform es r
  rw [hl] at e
  cases whole
  · simp only [runElems, run_bind, run_get, cutPoint_none h, hv, Option.isNone_none, if_true, Bool.false_eq_true, if_false, run_pure]
    simp only [e, run_modC]
  · simp only [runElems, run_bind, run_get, hv, Option.isNone_none, if_true, run_pure]
    simp only [e, run_modC]

/-! ## Loads -/

theorem loads_run {t : Thread} (hp : t.poison = []) (hdf : t.deferred = []) (f : Fetching) (n : Nat) (hn : n < 64) (w : Nat) (at_ : Nat → Word × Nat)
    (hb : ∀ i, ¬ w < 8 → (at_ i).2 = 0) (es : List Nat) (ha : ∀ i ∈ es, w < 8 ∨ (at_ i).1.toNat % (w / 8) = 0)
    {s s' : State} {k k' : Chunk} {g g' : Group} {bs : List (List Byte)} (c : Ctx) (hc : c.priv = t.ctx.priv) (hd : s.defer = false)
    (h : t.seeAll .load (es.map fun i => (i, elemPieces w (at_ i).1 (at_ i).2)) s k g = some (bs, s', k', g')) :
    ∃ e, es.foldr (fun i rest r => match atElem (fun i => loadElem f n w (at_ i).1 (at_ i).2 i) i r with
        | .ok _ r => rest r | .error e r => .error e r) (fun r => EStateM.Result.ok PUnit.unit r) (t.on s c k g) =
      .ok PUnit.unit (t.on s' { c.setV n (fill (c.v[n]?.getD 0) w ((es.zip bs).map fun e =>
        (e.1, natOfBytes e.2 / 2 ^ (at_ e.1).2))) with estart := e } k' g') := by
  induction es generalizing s k g bs c with
  | nil =>
    simp only [List.map_nil, Thread.seeAll, Option.some.injEq, Prod.mk.injEq] at h
    obtain ⟨rfl, rfl, rfl, rfl⟩ := h
    refine ⟨c.estart, ?_⟩
    have : c.v.setIfInBounds n (c.v[n]?.getD 0) = c.v := by
      apply Vector.ext
      intro i hi
      simp only [Vector.getElem_setIfInBounds]
      split
      · rename_i e; subst e; simp [hn]
      · rfl
    simp only [List.foldr_nil, List.zip_nil_left, List.map_nil, fill, List.foldl_nil, Ctx.setV, this]
  | cons i es ih =>
    simp only [List.map_cons, Thread.seeAll, Option.bind_eq_some_iff, Option.map_eq_some_iff] at h
    obtain ⟨⟨b1, s1, k1, g1⟩, h1, ⟨bs1, s2, k2, g2⟩, h2, e⟩ := h
    simp only [Prod.mk.injEq] at e
    obtain ⟨rfl, rfl, rfl, rfl⟩ := e
    have hd1 : s1.defer = false := by rw [looked_defer (see_looked h1)]; exact hd
    have hw : w < 8 ∨ (at_ i).2 = 0 ∧ (at_ i).1.toNat % (w / 8) = 0 := by
      by_cases h8 : w < 8
      · exact .inl h8
      · exact .inr ⟨hb i h8, (ha i (by simp)).resolve_left h8⟩
    have one := loadElem_run hp hdf f n w (at_ i).1 (at_ i).2 i { c with estart := BitVec.ofNat 64 i } hc hd hw h1
    obtain ⟨e, he⟩ := ih (fun j hj => ha j (by simp [hj])) (({ c with estart := BitVec.ofNat 64 i } : Ctx).setV n
      (setElem (c.v[n]?.getD 0) i w (natOfBytes b1 / 2 ^ (at_ i).2))) hc hd1 h2
    refine ⟨e, ?_⟩
    simp only [List.foldr_cons]
    have step : atElem (fun i => loadElem f n w (at_ i).1 (at_ i).2 i) i (t.on s c k g) = _ := one
    rw [step]
    refine he.trans ?_
    rw [setV_getD _ _ hn]
    simp only [List.zip_cons_cons, List.map_cons, fill, List.foldl_cons, setV_setV]
    rfl

theorem vmemElems_plain {r : Running} (h : Plain r) (he : r.t.ctx.estart = 0 ∨ r.t.ctx.estart.toNat < r.t.ctx.vl) :
    vmemElems r = .ok r.t.ctx.fromEstart r := by
  have hno : (r.t.ctx.estart.toNat ≠ 0 && decide (r.t.ctx.vl ≤ r.t.ctx.estart.toNat)) = false := by
    rcases he with he | he
    · simp [he]
    · simp [Nat.not_le.mpr he]
  simp only [vmemElems, run_bind, run_get, activeElems_plain h, h.vp, Option.isSome_none, Bool.false_eq_true, if_false, run_ite,
    hno, run_pure]
  rfl

theorem vmemTypes_run {r : Running} {form : VForm} {ok : TypeCode → Bool} (m : r.t.memReady form ok) :
    vmemTypes form ok r = .ok (r.t.ctx.sw, r.t.ctx.dw) r := by
  have hm : (modeScale r.t.ctx.mode == 0 && (form.isUnit || 8 ≤ typeWidth r.t.ctx.fmt (modeStype r.t.ctx.mode))
    && (!form.isIndexed || isInt (modeDtype r.t.ctx.mode)) && ok (modeStype r.t.ctx.mode)) = true := m.mode
  have hf : checkVl (if form.isIndexed then max (typeWidth r.t.ctx.fmt (modeStype r.t.ctx.mode))
    (typeWidth r.t.ctx.fmt (modeDtype r.t.ctx.mode)) else typeWidth r.t.ctx.fmt (modeStype r.t.ctx.mode)) r = .ok () r :=
    checkVl_run _ m.fits
  simp only [vmemTypes, run_bind, run_getC, run_needMode, hm, if_true, hf, run_pure]
  rfl

theorem formOperands_plain {r : Running} (h : Plain r) (form : VForm) (wi : Nat) (es : List Nat) :
    formOperands form wi es r = .ok (match form with | .strided b => r.t.ctx.xAt b | _ => 0,
      match form with | .indexed b => r.t.ctx.vAt b | _ => 0) r := by
  cases form with
  | unit => rfl
  | strided b => simp only [formOperands, run_bind, rdX_clean h.toClean, run_pure]
  | indexed b => simp only [formOperands, run_bind, run_getC, srcElems_plain h, run_pure]

/-- What a load's meaning passes to the loads of its elements. -/
def Ctx.fetching (c : Ctx) (form : VForm) (a : BitVec 6) (s : State) : Fetching :=
  { form, stride := match form with | .strided b => c.xAt b | _ => 0, es := c.fromEstart, since := s.nextId,
    pieces := c.fromEstart.flatMap fun i =>
      if c.sw < 8 then (List.range (((c.elemAt form a i).2 + c.sw + 7) / 8)).map fun k =>
        (i, ((c.elemAt form a i).1 + BitVec.ofNat 64 k).toNat, 1)
      else [(i, (c.elemAt form a i).1.toNat, c.sw / 8)] }

theorem vecLoad_done {s t} (q : Ready s t) (qc : Calm s t) (qf : Free s t) (w : Whole s) (form : VForm) (d a : BitVec 6)
    (m : t.memReady form fun _ => true) (es : List Nat) (hes : es = t.ctx.fromEstart)
    (ha : ∀ i ∈ es, t.ctx.sw < 8 ∨ (t.ctx.elemAt form a i).1.toNat % (t.ctx.sw / 8) = 0)
    {bs : List (List Byte)} {s' : State} {k : Chunk} {g : Group}
    (h : t.seeAll .load (es.map fun i => (i, elemPieces t.ctx.sw (t.ctx.elemAt form a i).1 (t.ctx.elemAt form a i).2)) s (opened s t)
      (0, []) = some (bs, s', k, g))
    (room : k.counted.goesOn t.limit = true) :
    vecLoad form d a s = .next (went s' t ({ t.ctx.putV d (fill (t.ctx.vAt d) t.ctx.sw ((es.zip bs).map fun e =>
      (e.1, natOfBytes e.2 / 2 ^ (t.ctx.elemAt form a e.1).2))) with estart := 0 } : Ctx).next k) := by
  subst hes
  have hcl := qc.clean
  have hpl : Plain (atBody s t) := ⟨hcl, m.streams, rfl⟩
  obtain ⟨l, hl⟩ : ∃ l : Fetching, l = t.ctx.fetching form a s := ⟨_, rfl⟩
  obtain ⟨e, he⟩ := loads_run (t := t) qc.poison qc.deferred l (t.ctx.phys d.toNat) (phys_lt _ _) t.ctx.sw (t.ctx.elemAt form a)
    (fun i hw => elemAddr_bit _ _ _ _ _ _ _ _ hw) t.ctx.fromEstart ha t.ctx rfl w.defer h
  obtain ⟨C, hC⟩ : ∃ C : Ctx, C = { t.ctx.putV d (fill (t.ctx.vAt d) t.ctx.sw ((t.ctx.fromEstart.zip bs).map fun e =>
    (e.1, natOfBytes e.2 / 2 ^ (t.ctx.elemAt form a e.1).2))) with estart := 0 } := ⟨_, rfl⟩
  have hrun : runElems t.ctx.streams t.ctx.fromEstart
      (fun i => loadElem l (t.ctx.phys d.toNat) t.ctx.sw (t.ctx.elemAt form a i).1 (t.ctx.elemAt form a i).2 i) false (atBody s t) =
      .ok .seq (t.on s' C k g) := by
    rw [runElems_run (r := atBody s t) rfl w.cut t.ctx.streams _ _ false he, hC]
    rfl
  rw [← hC]
  refine shared_on (g := g) q (.inl rfl) rfl rfl ?_ (qf.clear (Looked.ticket (seeAll_looked h)) qc.replies) room
  refine bind_ok (vpStreams_plain hpl _) ?_
  refine bind_ok (vmemTypes_run (r := atBody s t) (form := form) (ok := fun _ => true) ⟨m.mode, m.fits, m.start, m.streams⟩) ?_
  refine bind_ok (run_getC _) ?_
  refine bind_ok (rdX_clean hcl _) ?_
  refine bind_ok (dstV_plain hpl _) ?_
  refine bind_ok (checkSrcs_plain hpl _) ?_
  refine bind_ok (vmemElems_plain hpl m.start) ?_
  refine bind_ok (formOperands_plain hpl _ _ _) ?_
  refine bind_ok (run_getS _) ?_
  rw [hl] at hrun
  refine bind_ok hrun ?_
  have hp : (t.on s' C k g).t.poison.isEmpty = true := by simp [Thread.on, qc.poison]
  simp only [run_bind, run_modT, hp, if_true, run_pure]
  rw [← qc.poison]
  rfl

/-! ## Stores -/

theorem store_append (k : Chunk) (ws vs : List Write) : k.store (ws ++ vs) = (k.store ws).store vs := by
  simp only [Chunk.store, List.foldl_append]

theorem writePlace_run {t : Thread} (hd : t.deferred = []) (s : State) (c : Ctx) (k : Chunk) (g : Group) (form : VForm) (stride : Word)
    (since i : Nat) (prev : Option Nat) (va l : Nat) (data mask : List Byte) :
    writePlace form stride since i prev va (.loc l) data mask (t.on s c k g) =
      .ok () (t.on s c (k.store (maskedWrites l data mask)) g) :=
  writeLoc_keep (r := t.on s c k g) hd rfl _

theorem writePlaces_run {t : Thread} (hd : t.deferred = []) (s : State) (c : Ctx) (g : Group) (form : VForm) (stride : Word)
    (since i : Nat) (prev : Option Nat) (vas : List Nat) :
    ∀ (ls : List Nat) (dm : List (Byte × Byte)) (k : Chunk), vas.length = ls.length →
    (forIn ((((vas.zip ls).map fun e => (e.1, Place.loc e.2))).zip dm) PUnit.unit (fun e _ => do
      writePlace form stride since i prev e.1.1 e.1.2 [e.2.1] [e.2.2]
      pure (ForInStep.yield PUnit.unit)) : Exec PUnit) (t.on s c k g) =
    .ok PUnit.unit (t.on s c (k.store ((ls.zip dm).flatMap fun e => maskedWrites e.1 [e.2.1] [e.2.2])) g) := by
  induction vas with
  | nil => intro ls dm k h; cases ls <;> simp at h; rfl
  | cons va vas ih =>
    intro ls dm k h
    cases ls with
    | nil => simp at h
    | cons l ls =>
      cases dm with
      | nil => rfl
      | cons e dm =>
        simp only [List.zip_cons_cons, List.map_cons, List.forIn_cons, run_bind, writePlace_run hd, run_pure,
          List.flatMap_cons, store_append]
        exact ih ls dm _ (by simpa using h)

theorem reachEach_length {t : Thread} {need : Need} {i : Nat} {vas : List Nat} {s s' : State} {k k' : Chunk} {g g' : Group}
    {as : List Access} (h : t.reachEach need i vas s k g = some (as, s', k', g')) : as.length = vas.length := by
  induction vas generalizing s k g as with
  | nil => simp only [Thread.reachEach, Option.some.injEq, Prod.mk.injEq] at h; obtain ⟨rfl, -⟩ := h; rfl
  | cons va rest ih =>
    simp only [Thread.reachEach, Option.bind_eq_some_iff, Option.map_eq_some_iff] at h
    obtain ⟨⟨a, s1, k1, g1⟩, -, ⟨as1, s2, k2, g2⟩, h2, e⟩ := h
    simp only [Prod.mk.injEq] at e
    obtain ⟨rfl, rfl, rfl, rfl⟩ := e
    have hl := ih h2
    rw [List.length_cons, List.length_cons, hl]

theorem mapM_length {α β : Type} {f : α → Option β} {as : List α} {bs : List β} (h : as.mapM f = some bs) : bs.length = as.length := by
  induction as generalizing bs with
  | nil => simp only [List.mapM_nil, Option.pure_def, Option.some.injEq] at h; rw [← h]; rfl
  | cons a rest ih =>
    simp only [List.mapM_cons, Option.pure_def, Option.bind_eq_bind, Option.bind_eq_some_iff, Option.some.injEq] at h
    obtain ⟨b, -, bs1, h2, rfl⟩ := h
    rw [List.length_cons, List.length_cons, ih h2]

theorem land_length {t : Thread} {need : Need} {i : Nat} {vas : List Nat} {s s' : State} {k k' : Chunk} {g g' : Group} {ls : List Nat}
    (h : t.land need i vas s k g = some (ls, s', k', g')) : vas.length = ls.length := by
  simp only [Thread.land, Option.bind_eq_some_iff, Option.map_eq_some_iff] at h
  obtain ⟨⟨as, s1, k1, g1⟩, h1, ls1, h2, e⟩ := h
  simp only [Prod.mk.injEq] at e
  rw [← e.1, mapM_length h2, reachEach_length h1]

theorem storeElem_run {t : Thread} {s s' : State} {k k' : Chunk} {g g' : Group} {ls : List Nat} (hd : t.deferred = []) (form : VForm)
    (stride : Word) (es : List Nat) (since w : Nat) (a : Word) (bit x i : Nat) (c : Ctx) (hc : c.priv = t.ctx.priv)
    (hb : w < 8 ∨ bit = 0 ∧ a.toNat % (w / 8) = 0)
    (h : t.land .store i (elemPieces w a bit).2 s k g = some (ls, s', k', g')) :
    storeElem form stride es since w a bit x i (t.on s c k g) = .ok () (t.on s' c (k'.store (elemWrites w bit x ls)) g') := by
  by_cases hw : w < 8
  · simp only [elemPieces, hw, if_true] at h
    have hl := land_length h
    simp only [storeElem, hw, if_true]
    refine bind_ok (subPlaces_run c hc h) ?_
    simp only [run_bind]
    rw [writePlaces_run hd _ _ _ _ _ _ _ _ _ _ _ _ hl]
    simp only [elemWrites, hw, if_true, run_pure]
  · obtain ⟨rfl, ha⟩ := hb.resolve_left hw
    simp only [elemPieces, hw, if_false] at h
    obtain ⟨acc, l, rfl, h3, h4⟩ := land_one h
    simp only [storeElem, hw, if_false]
    refine bind_ok (wholePlace_run ha h3 h4 c hc) ?_
    rw [writePlace_run hd]
    simp only [elemWrites, hw, if_false, List.flatMap_cons, List.flatMap_nil, List.append_nil]

/-- A loop whose elements are stored one after another (R200). -/
theorem puts_run {t : Thread} (w : Nat) (at_ : Nat → Word × Nat) (x : Nat → Nat) (perform : Nat → Exec Unit) (es : List Nat)
    (hp : ∀ i ∈ es, ∀ (s s' : State) (k k' : Chunk) (g g' : Group) (ls : List Nat),
      t.land .store i (elemPieces w (at_ i).1 (at_ i).2).2 s k g = some (ls, s', k', g') → ∀ c : Ctx, c.priv = t.ctx.priv →
        perform i (t.on s c k g) = .ok () (t.on s' c (k'.store (elemWrites w (at_ i).2 (x i) ls)) g'))
    {s s' : State} {k k' : Chunk} {g g' : Group} (c : Ctx) (hc : c.priv = t.ctx.priv)
    (h : t.putAll w (es.map fun i => (i, (at_ i).1, (at_ i).2, x i)) s k g = some (s', k', g')) :
    ∃ e, es.foldr (fun i rest r => match atElem perform i r with
        | .ok _ r => rest r | .error e r => .error e r) (fun r => EStateM.Result.ok PUnit.unit r) (t.on s c k g) =
      .ok PUnit.unit (t.on s' { c with estart := e } k' g') := by
  induction es generalizing s k g c with
  | nil =>
    simp only [List.map_nil, Thread.putAll, Option.some.injEq, Prod.mk.injEq] at h
    obtain ⟨rfl, rfl, rfl⟩ := h
    exact ⟨c.estart, rfl⟩
  | cons i es ih =>
    simp only [List.map_cons, Thread.putAll, Option.bind_eq_some_iff] at h
    obtain ⟨⟨ls, s1, k1, g1⟩, h1, h2⟩ := h
    have one := hp i (by simp) _ _ _ _ _ _ _ h1 { c with estart := BitVec.ofNat 64 i } hc
    obtain ⟨e, he⟩ := ih (fun j hj => hp j (by simp [hj])) { c with estart := BitVec.ofNat 64 i } hc h2
    refine ⟨e, ?_⟩
    simp only [List.foldr_cons]
    have step : atElem perform i (t.on s c k g) = _ := one
    rw [step]
    exact he

theorem stores_run {t : Thread} (hdf : t.deferred = []) (form : VForm) (stride : Word) (all : List Nat) (since w : Nat)
    (at_ : Nat → Word × Nat) (x : Nat → Nat) (hb : ∀ i, ¬ w < 8 → (at_ i).2 = 0) (es : List Nat)
    (ha : ∀ i ∈ es, w < 8 ∨ (at_ i).1.toNat % (w / 8) = 0)
    {s s' : State} {k k' : Chunk} {g g' : Group} (c : Ctx) (hc : c.priv = t.ctx.priv)
    (h : t.putAll w (es.map fun i => (i, (at_ i).1, (at_ i).2, x i)) s k g = some (s', k', g')) :
    ∃ e, es.foldr (fun i rest r => match atElem (fun i => storeElem form stride all since w (at_ i).1 (at_ i).2 (x i) i) i r with
        | .ok _ r => rest r | .error e r => .error e r) (fun r => EStateM.Result.ok PUnit.unit r) (t.on s c k g) =
      .ok PUnit.unit (t.on s' { c with estart := e } k' g') := by
  refine puts_run w at_ x _ es (fun i hi s s' k k' g g' ls hl c hc => ?_) c hc h
  refine storeElem_run hdf form stride all since w (at_ i).1 (at_ i).2 (x i) i c hc ?_ hl
  by_cases h8 : w < 8
  · exact .inl h8
  · exact .inr ⟨hb i h8, (ha i hi).resolve_left h8⟩

theorem pendingOut_run (t : Thread) (s : State) (c : Ctx) (k : Chunk) (g : Group) :
    pendingOut (t.on s c k g) = .ok k.fabricOut (t.on s c k g) := rfl

theorem putAll_ticket {t : Thread} {w : Nat} {es : List (Nat × Word × Nat × Nat)} {s s' : State} {k k' : Chunk} {g g' : Group}
    (h : t.putAll w es s k g = some (s', k', g')) : s'.ticket = s.ticket := by
  induction es generalizing s k g with
  | nil => simp only [Thread.putAll, Option.some.injEq, Prod.mk.injEq] at h; rw [h.1]
  | cons e es ih =>
    simp only [Thread.putAll, Option.bind_eq_some_iff] at h
    obtain ⟨⟨ls, s1, k1, g1⟩, h1, h2⟩ := h
    rw [ih h2, Looked.ticket (land_looked h1)]

theorem vecStore_done {s t} (q : Ready s t) (qc : Calm s t) (qf : Free s t) (w : Whole s) (form : VForm) (d a : BitVec 6)
    (m : t.memReady form fun _ => true) (es : List Nat) (hes : es = t.ctx.fromEstart)
    (ha : ∀ i ∈ es, t.ctx.sw < 8 ∨ (t.ctx.elemAt form a i).1.toNat % (t.ctx.sw / 8) = 0)
    {s' : State} {k : Chunk} {g : Group}
    (h : t.putAll t.ctx.sw (es.map fun i => (i, (t.ctx.elemAt form a i).1, (t.ctx.elemAt form a i).2,
      getElem (t.ctx.vAt d) i t.ctx.sw)) s (opened s t) (0, []) = some (s', k, g))
    (room : k.counted.goesOn t.limit = true) :
    vecStore form d a s = .next (went s' t ({ t.ctx with estart := 0 } : Ctx).next k) := by
  subst hes
  have hcl := qc.clean
  have hpl : Plain (atBody s t) := ⟨hcl, m.streams, rfl⟩
  obtain ⟨st, hst⟩ : ∃ st : Word, st = match form with | .strided b => t.ctx.xAt b | _ => 0 := ⟨_, rfl⟩
  obtain ⟨e, he⟩ := stores_run (t := t) qc.deferred form st t.ctx.fromEstart
    (opened s t).fabricOut.length t.ctx.sw (t.ctx.elemAt form a) (fun i => getElem (t.ctx.vAt d) i t.ctx.sw)
    (fun i hw => elemAddr_bit _ _ _ _ _ _ _ _ hw) t.ctx.fromEstart ha t.ctx rfl h
  have hrun : runElems t.ctx.streams t.ctx.fromEstart (fun i => storeElem form st t.ctx.fromEstart (opened s t).fabricOut.length
      t.ctx.sw (t.ctx.elemAt form a i).1 (t.ctx.elemAt form a i).2 (getElem (t.ctx.vAt d) i t.ctx.sw) i) false (atBody s t) =
      .ok .seq (t.on s' { t.ctx with estart := 0 } k g) := by
    rw [runElems_run (r := atBody s t) rfl w.cut t.ctx.streams _ _ false he]
    rfl
  rw [hst] at hrun
  refine shared_on (g := g) (c := { t.ctx with estart := 0 }) q (.inl rfl) rfl rfl ?_ (qf.clear (putAll_ticket h) qc.replies) room
  refine bind_ok (vpStreams_plain hpl _) ?_
  refine bind_ok (vmemTypes_run (r := atBody s t) (form := form) (ok := fun _ => true) ⟨m.mode, m.fits, m.start, m.streams⟩) ?_
  refine bind_ok (run_getC _) ?_
  refine bind_ok (rdX_clean hcl _) ?_
  refine bind_ok (checkSrcs_plain hpl _) ?_
  refine bind_ok (vmemElems_plain hpl m.start) ?_
  refine bind_ok (srcElems_plain hpl _ _ _ _) ?_
  refine bind_ok (formOperands_plain hpl _ _ _) ?_
  refine bind_ok (pendingOut_run t s t.ctx (opened s t) _) ?_
  cases form <;> exact hrun

/-! ## Atomics -/

theorem atomicLoc_on {t : Thread} (hd : t.deferred = []) {op : AmoOp} (ho : op ≠ .cas) {n va l : Nat} (x : Nat) {s s' : State}
    {k k' : Chunk} {b : List Byte} (h : lookAt va l n s k = some (b, s', k')) (c : Ctx) (g : Group) (v : Nat × Flags)
    (hv : v = amoApply op n (natOfBytes b) (x % 2 ^ (8 * n))) :
    atomicLoc op n va l x 0 (t.on s c k g) =
      .ok (natOfBytes b) (t.on s' (c.flag v.2) (k'.store (writesOf l (bytesOfNat v.1 n))) g) := by
  subst hv
  have hc : (op != .cas || natOfBytes b == 0 % 2 ^ (8 * n)) = true := by simp [ho]
  unfold atomicLoc
  refine bind_ok (look_run h hd c g) ?_
  rw [if_pos hc]
  refine bind_ok (writeLoc_keep (r := t.on s' c k' g) hd rfl _) ?_
  refine bind_ok (run_raise _ _) ?_
  rfl

theorem vamoElem_run {t : Thread} (hd : t.deferred = []) (hp : t.poison = []) {op : AmoOp} (ho : op ≠ .cas) (ret : Bool)
    (form : VForm) (es : List Nat) (since n w i x : Nat) (a : Word) (ha : a.toNat % (w / 8) = 0) {s s1 s2 : State} {k k1 k2 : Chunk}
    {g g1 : Group} {acc : Access} {l : Nat} {b : List Byte} (h1 : t.reach .amo i a.toNat s k g = some (acc, s1, k1, g1))
    (hl : t.spot s1 acc = some l) (h2 : lookAt a.toNat l (w / 8) s1 k1 = some (b, s2, k2)) (c : Ctx)
    (hc : c.priv = t.ctx.priv) (v : Nat × Flags) (hv : v = amoApply op (w / 8) (natOfBytes b) (x % 2 ^ (8 * (w / 8)))) :
    vamoElem op ret form es since n w a x i (t.on s c k g) =
      .ok () (t.on s2 (if ret then (c.flag v.2).setV n (setElem (c.v[n]?.getD 0) i w (natOfBytes b)) else c.flag v.2)
        (k2.store (writesOf l (bytesOfNat v.1 (w / 8)))) g1) := by
  unfold vamoElem
  refine bind_ok (wholePlace_run ha h1 hl c hc) ?_
  refine bind_ok (atomicLoc_on hd ho x h2 c g1 v hv) ?_
  cases ret
  · rfl
  · rw [if_pos rfl, if_pos rfl]
    exact wrElems_on hp _ _ _ _ _ _ _

theorem flag_flag (c : Ctx) (f g : Flags) : (c.flag f).flag g = c.flag (f ||| g) := by
  simp only [Ctx.flag, BitVec.or_assoc]

theorem setV_self (c : Ctx) (n : Nat) (hn : n < 64) : c.setV n (c.v[n]?.getD 0) = c := by
  have : c.v.setIfInBounds n (c.v[n]?.getD 0) = c.v := by
    apply Vector.ext
    intro i hi
    simp only [Vector.getElem_setIfInBounds]
    split
    · rename_i e; subst e; simp [hn]
    · rfl
  simp only [Ctx.setV, this]

theorem flag_zero (c : Ctx) : c.flag 0 = c := by
  simp only [Ctx.flag, BitVec.ofNat_eq_ofNat, BitVec.or_zero]

theorem amos_run {t : Thread} (hd : t.deferred = []) (hp : t.poison = []) {op : AmoOp} (ho : op ≠ .cas) (ret : Bool)
    (form : VForm) (all : List Nat) (since n : Nat) (hn : n < 64) (w : Nat) (at_ : Nat → Word) (x : Nat → Nat) (es : List Nat)
    (ha : ∀ i ∈ es, (at_ i).toNat % (w / 8) = 0) {s s' : State} {k k' : Chunk} {g g' : Group} {ms : List (Nat × Nat)} {f : Flags} (c : Ctx)
    (hc : c.priv = t.ctx.priv)
    (h : t.amoAll op (w / 8) (es.map fun i => (i, at_ i, x i)) s k g = some (ms, f, s', k', g')) :
    ∃ e, es.foldr (fun i rest r => match atElem (fun i => vamoElem op ret form all since n w (at_ i) (x i) i) i r with
        | .ok _ r => rest r | .error e r => .error e r) (fun r => EStateM.Result.ok PUnit.unit r) (t.on s c k g) =
      .ok PUnit.unit (t.on s' { (if ret then c.setV n (fill (c.v[n]?.getD 0) w ms) else c).flag f with estart := e } k' g') := by
  induction es generalizing s k g c ms f with
  | nil =>
    simp only [List.map_nil, Thread.amoAll, Option.some.injEq, Prod.mk.injEq] at h
    obtain ⟨rfl, rfl, rfl, rfl, rfl⟩ := h
    refine ⟨c.estart, ?_⟩
    simp only [List.foldr_nil, fill, List.foldl_nil, setV_self c n hn, ite_self, flag_zero]
  | cons i es ih =>
    simp only [List.map_cons, Thread.amoAll, Option.bind_eq_some_iff, Option.map_eq_some_iff] at h
    obtain ⟨⟨acc, s1, k1, g1⟩, h1, l, hl, ⟨b, s2, k2⟩, h2, ⟨ms', f', s3, k3, g3⟩, h3, e⟩ := h
    simp only [Prod.mk.injEq] at e
    obtain ⟨rfl, rfl, rfl, rfl, rfl⟩ := e
    have one := vamoElem_run hd hp ho ret form all since n w i (x i) (at_ i) (ha i (by simp)) h1 hl h2
      { c with estart := BitVec.ofNat 64 i } hc _ rfl
    have step : atElem (fun i => vamoElem op ret form all since n w (at_ i) (x i) i) i (t.on s c k g) = _ := one
    simp only [List.foldr_cons]
    rw [step]
    simp only
    obtain ⟨e, he⟩ := ih (fun j hj => ha j (by simp [hj])) (if ret then
      ((({ c with estart := BitVec.ofNat 64 i } : Ctx).flag (amoApply op (w / 8) (natOfBytes b) (x i % 2 ^ (8 * (w / 8)))).2).setV n
        (setElem (c.v[n]?.getD 0) i w (natOfBytes b))) else
      (({ c with estart := BitVec.ofNat 64 i } : Ctx).flag (amoApply op (w / 8) (natOfBytes b) (x i % 2 ^ (8 * (w / 8)))).2))
      (by cases ret <;> exact hc) h3
    refine ⟨e, he.trans ?_⟩
    cases ret
    · simp only [Bool.false_eq_true, if_false, flag_flag]
      rfl
    · simp only [if_true]
      rw [setV_getD _ _ hn, setV_setV]
      simp only [fill, List.foldl_cons, Ctx.flag, Ctx.setV, BitVec.or_assoc]

theorem amoAll_fields {t : Thread} {op : AmoOp} {n : Nat} {es : List (Nat × Word × Nat)} {s s' : State} {k k' : Chunk} {g g' : Group}
    {ms : List (Nat × Nat)} {f : Flags} (h : t.amoAll op n es s k g = some (ms, f, s', k', g')) :
    s' = { s with tlb := s'.tlb, counters := s'.counters, copiesMgd := s'.copiesMgd, poisoned := s'.poisoned, threads := s'.threads } ∧
    k' = { k with pages := k'.pages, reads := k'.reads, stores := k'.stores, writes := k'.writes } := by
  induction es generalizing s k g ms f with
  | nil =>
    simp only [Thread.amoAll, Option.some.injEq, Prod.mk.injEq] at h
    obtain ⟨-, -, rfl, rfl, -⟩ := h
    exact ⟨rfl, rfl⟩
  | cons e es ih =>
    obtain ⟨i, a, x⟩ := e
    simp only [Thread.amoAll, Option.bind_eq_some_iff, Option.map_eq_some_iff] at h
    obtain ⟨⟨acc, s1, k1, g1⟩, h1, l, -, ⟨b, s2, k2⟩, h2, ⟨ms', f', s3, k3, g3⟩, h3, e⟩ := h
    simp only [Prod.mk.injEq] at e
    obtain ⟨-, -, rfl, rfl, rfl⟩ := e
    have hl := (reach_looked h1).trans (look_looked h2)
    obtain ⟨e1, e2⟩ := ih h3
    have hst : ∀ (ws : List Write) (k : Chunk), k.store ws = { k with stores := (k.store ws).stores, writes := (k.store ws).writes } := by
      intro ws
      unfold Chunk.store
      induction ws with
      | nil => intro k; rfl
      | cons w ws ih => intro k; rw [List.foldl_cons, ih]
    refine ⟨?_, ?_⟩
    · rw [e1, hl.state]
    · rw [e2, hst, hl.chunk]

theorem reachesFabric_run (need : Need) (va : Word) (r : Running) : ∃ b, reachesFabric need va r = .ok b r := by
  simp only [reachesFabric, run_bind, run_get]
  cases r.s.translate (r.t.core.getD 0) r.t.parcel r.t.ctx.priv need va.toNat <;> exact ⟨_, rfl⟩

theorem anyM_run {m : Nat → Exec Bool} {r : Running} (h : ∀ i, ∃ b, m i r = .ok b r) (es : List Nat) :
    ∃ b, es.anyM m r = .ok b r := by
  induction es with
  | nil => exact ⟨false, rfl⟩
  | cons i es ih =>
    obtain ⟨b, hb⟩ := h i
    simp only [List.anyM, run_bind, hb]
    cases b
    · exact ih
    · exact ⟨true, rfl⟩

theorem vecAtomic_run {s t} (qc : Calm s t) (w : Whole s) {op : AmoOp} (ho : op ≠ .cas) (ret : Bool) (d a b : BitVec 6)
    (m : t.memReady (.indexed b) (vamoType op))
    (ha : ∀ e ∈ t.ctx.amoElems d a b, e.2.1.toNat % (t.ctx.sw / 8) = 0)
    {ms : List (Nat × Nat)} {f : Flags} {s' : State} {k : Chunk} {g : Group}
    (h : t.amoAll op (t.ctx.sw / 8) (t.ctx.amoElems d a b) s (opened s t) (0, []) = some (ms, f, s', k, g))
    : ∃ body : Exec Next, (∀ s, vecAtomic op ret d a b s = shared {} body s) ∧ body (atBody s t) = .ok .seq
      (if t.ctx.atHome k d a b then { t.on s' (t.ctx.amoDone ret d ms f) (t.ctx.homed k d a b) g with ends := ret }
       else t.on s' (t.ctx.amoDone ret d ms f) k g) := by
  have hcl := qc.clean
  have hpl : Plain (atBody s t) := ⟨hcl, m.streams, rfl⟩
  obtain ⟨e, he⟩ := amos_run (t := t) qc.deferred qc.poison ho ret (.indexed b) t.ctx.fromEstart (opened s t).fabricOut.length (t.ctx.phys d.toNat) (phys_lt _ _)
    t.ctx.sw (fun i => (t.ctx.elemAt (.indexed b) a i).1) (fun i => getElem (t.ctx.vAt d) i t.ctx.sw) t.ctx.fromEstart
    (fun i hi => ha _ (List.mem_map_of_mem hi)) t.ctx rfl h
  obtain ⟨whole, hwhole⟩ := anyM_run (r := atBody s t) (fun i => reachesFabric_run .amo (t.ctx.elemAt (.indexed b) a i).1 _)
    t.ctx.fromEstart
  have hrun := runElems_run (r := atBody s t) rfl w.cut t.ctx.streams _ _ whole he
  obtain ⟨C, hC⟩ : ∃ C : Ctx, C = t.ctx.amoDone ret d ms f := ⟨_, rfl⟩
  have hrun : runElems t.ctx.streams t.ctx.fromEstart (fun i => vamoElem op ret (.indexed b) t.ctx.fromEstart (opened s t).fabricOut.length
      (t.ctx.phys d.toNat) t.ctx.sw (t.ctx.elemAt (.indexed b) a i).1 (getElem (t.ctx.vAt d) i t.ctx.sw) i) whole (atBody s t) =
      .ok .seq (t.on s' C k g) := by
    rw [hrun, hC]
    cases ret <;> rfl
  rw [← hC]
  refine ⟨_, fun _ => rfl, ?_⟩
  refine bind_ok (vpStreams_plain hpl _) ?_
  refine bind_ok (vmemTypes_run (r := atBody s t) (form := .indexed b) (ok := vamoType op) ⟨m.mode, m.fits, m.start, m.streams⟩) ?_
  refine bind_ok (run_getC _) ?_
  refine bind_ok (rdX_clean hcl _) ?_
  have hl : k.late = (opened s t).late := by rw [(amoAll_fields h).2]
  have hfab : (!((t.on s' C k g).t.chunk.any fun c => c.late && !(atBody s t).t.chunk.any fun c => c.late)) = true := by
    show (!(k.late && !(opened s t).late)) = true
    rw [hl]
    cases (opened s t).late <;> rfl
  have hlines : (t.ctx.amoElems d a b).map (fun e => e.2.1.toNat / 128) =
      t.ctx.fromEstart.map fun i => (t.ctx.elemAt (.indexed b) a i).1.toNat / 128 := by
    unfold Ctx.amoElems
    rw [List.map_map]
    rfl
  have hlines' : (t.ctx.amoElems d a b).map (fun e => e.2.1.toNat / 128) =
      t.ctx.fromEstart.map fun i => (t.ctx.elemAt (.indexed b) a i).1.toNat / 128 := hlines
  have hhome : performedAtHome (distinct (t.ctx.fromEstart.map fun i => (t.ctx.elemAt (.indexed b) a i).1.toNat / 128)).length
      t.ctx.vl (t.on s' C k g) = .ok (t.ctx.atHome k d a b) (t.on s' C k g) := by
    unfold Ctx.atHome
    rw [hlines]
    rfl
  cases ret
  · rw [if_neg Bool.false_ne_true]
    refine bind_ok (run_pure _ _) ?_
    refine bind_ok (checkSrcs_plain hpl _) ?_
    refine bind_ok (vmemElems_plain hpl m.start) ?_
    refine bind_ok (srcElems_plain hpl _ _ _ _) ?_
    refine bind_ok (srcElems_plain hpl _ _ _ _) ?_
    refine bind_ok (run_getT _) ?_
    refine bind_ok (pendingOut_run t s t.ctx (opened s t) _) ?_
    refine bind_ok hwhole ?_
    refine bind_ok hrun ?_
    refine bind_ok (run_getT _) ?_
    refine bind_ok hhome ?_
    rw [hfab, Ctx.homed, hlines']
    cases t.ctx.atHome k d a b <;> rfl
  · rw [if_pos rfl]
    refine bind_ok (dstV_plain hpl _) ?_
    refine bind_ok (checkSrcs_plain hpl _) ?_
    refine bind_ok (vmemElems_plain hpl m.start) ?_
    refine bind_ok (srcElems_plain hpl _ _ _ _) ?_
    refine bind_ok (srcElems_plain hpl _ _ _ _) ?_
    refine bind_ok (run_getT _) ?_
    refine bind_ok (pendingOut_run t s t.ctx (opened s t) _) ?_
    refine bind_ok hwhole ?_
    refine bind_ok hrun ?_
    refine bind_ok (run_getT _) ?_
    refine bind_ok hhome ?_
    rw [hfab, Ctx.homed, hlines']
    cases t.ctx.atHome k d a b <;> rfl

/-- A vector atomic that stays inside its chunk. -/
theorem vecAtomic_done {s t} (q : Ready s t) (qc : Calm s t) (qf : Free s t) (w : Whole s) {op : AmoOp} (ho : op ≠ .cas) (ret : Bool) (d a b : BitVec 6)
    (m : t.memReady (.indexed b) (vamoType op))
    (ha : ∀ e ∈ t.ctx.amoElems d a b, e.2.1.toNat % (t.ctx.sw / 8) = 0)
    {ms : List (Nat × Nat)} {f : Flags} {s' : State} {k : Chunk} {g : Group}
    (h : t.amoAll op (t.ctx.sw / 8) (t.ctx.amoElems d a b) s (opened s t) (0, []) = some (ms, f, s', k, g))
    (stays : (t.ctx.atHome k d a b && ret) = false) (room : k.counted.goesOn t.limit = true) :
    vecAtomic op ret d a b s = .next (went s' t (t.ctx.amoDone ret d ms f).next
      (if t.ctx.atHome k d a b then t.ctx.homed k d a b else k)) := by
  obtain ⟨body, e, hb⟩ := vecAtomic_run qc w ho ret d a b m ha h
  rw [e]
  have ht : s'.ticket = s.ticket := by rw [(amoAll_fields h).1]
  cases hh : t.ctx.atHome k d a b
  · rw [hh] at hb
    exact shared_on (g := g) q (.inl rfl) rfl rfl hb (qf.clear ht qc.replies) room
  · rw [hh] at hb stays
    simp only [Bool.true_and] at stays
    subst stays
    exact shared_on (s' := s') (c := t.ctx.amoDone false d ms f) (k := t.ctx.homed k d a b) (g := g) q (.inl rfl) rfl rfl hb
      (qf.clear ht qc.replies) room

/-- A vector atomic that returns old values and is performed at home ends its chunk (R210). -/
theorem vecAtomic_ends {s t} (q : Ready s t) (qc : Calm s t) (qf : Free s t) (w : Whole s) {op : AmoOp} (ho : op ≠ .cas) (d a b : BitVec 6)
    (m : t.memReady (.indexed b) (vamoType op))
    (ha : ∀ e ∈ t.ctx.amoElems d a b, e.2.1.toNat % (t.ctx.sw / 8) = 0)
    {ms : List (Nat × Nat)} {f : Flags} {s' : State} {k : Chunk} {g : Group}
    (h : t.amoAll op (t.ctx.sw / 8) (t.ctx.amoElems d a b) s (opened s t) (0, []) = some (ms, f, s', k, g))
    (home : t.ctx.atHome k d a b = true) (sp : Spare (opened s t)) (hf : ∀ c ∈ s.copies, c.tid = t.tid → c.forked = true)
    (hh : s'.held (some t.tid) k.writes = false) :
    vecAtomic op true d a b s = .next (settledWith s' { t.past with ctx := (t.ctx.amoDone true d ms f).next }
      (t.ctx.homed k d a b)) := by
  obtain ⟨body, e, hb⟩ := vecAtomic_run qc w ho true d a b m ha h
  rw [e]
  rw [home] at hb
  have hfi := amoAll_fields h
  have ht : s'.ticket = s.ticket := by rw [hfi.1]
  have sk : Spare (t.ctx.homed k d a b) := by
    rw [hfi.2]
    exact ⟨sp.launches, sp.arrivals, sp.fabricOut, sp.traverse, sp.exits, sp.yields⟩
  refine shared_shut (k := t.ctx.homed k d a b) (g := g) q (.inl rfl) rfl hb (qf.clear ht qc.replies) sk qc.deferred ?_ hh
  rw [hfi.1]
  exact hf

/-! ## vdrain and vpref -/

theorem vdrain_done {s t} (q : Quiet s t) (hl : (opened s t).late = false ∨ (opened s t).explicit = true)
    (hv : (s.fabric.any (·.isVectorOf t.tid)) = false) : execVdrain s = .next (wrote s t t.ctx) := by
  refine control_wrote q rfl rfl rfl (seq_ok (r' := atBody s t) ?_)
  refine bind_ok (run_getT _) ?_
  have h1 : ¬ ((atBody s t).t.chunk.any fun c => c.late && !c.explicit) = true := by
    show ¬ ((opened s t).late && !(opened s t).explicit) = true
    rcases hl with h | h <;> simp [h]
  exact check_ok h1 (drainVectors_run q.clean hv)

theorem vpref_done {s t} (q : Quiet s t) (a : BitVec 6) (hm : (modeScale t.ctx.mode == 0) = true)
    (hv : t.vlFits t.ctx.sw = true) : execVpref a s = .next (wrote s t t.ctx) := by
  have hm' : (modeScale t.ctx.mode == 0 && (VForm.unit.isUnit || 8 ≤ typeWidth t.ctx.fmt (modeStype t.ctx.mode))
    && (!VForm.unit.isIndexed || isInt (modeDtype t.ctx.mode)) && true) = true := by
    rw [hm]; rfl
  refine control_wrote q rfl rfl rfl (seq_ok (r' := atBody s t) ?_)
  have ht : vmemTypes .unit (fun _ => true) (atBody s t) = .ok (t.ctx.sw, t.ctx.dw) (atBody s t) := by
    unfold vmemTypes
    refine bind_ok (run_getC _) ?_
    refine bind_ok (r' := atBody s t) (a := ()) ?_ ?_
    · rw [run_needMode]
      exact if_pos hm'
    · exact bind_ok (checkVl_run (r := atBody s t) t.ctx.sw hv) rfl
  refine bind_ok ht ?_
  exact bind_ok (rdX_clean q.clean a) rfl

end Sys2Proof.Machine
end

