-- ==== Sys2Proof/Laws/VectorOps.lean ====
section
/-! SUPPORT. What the compares, predicate logic, quantisation, block summaries, reductions and permutes do where no register is
held, poisoned or in stream mode. -/

set_option linter.unusedSimpArgs false
set_option Elab.async false

namespace Sys2Proof.Machine

theorem wrPred_plain {r : Running} (h : Plain r) (d : BitVec 6) (es on : List Nat) :
    wrPred d es on r = .ok () { r with t := { r.t with ctx := r.t.ctx.putPred d on } } := by
  simp [wrPred, h.vp, wrP, h.poison, Ctx.putPred]

theorem rdP_clean {r : Running} (h : Clean r) (k : Nat) : rdP k r = .ok (r.t.ctx.pAt k) r := by
  simp only [rdP, run_bind, run_ite, checkPoisonP_clean h, ite_self, run_getC, run_pure]

theorem allElems_plain {r : Running} (h : Plain r) : allElems r = .ok (List.range r.t.ctx.vl) r := by
  simp only [allElems, run_bind, run_get, h.vp, run_pure]

theorem setElems_plain {r : Running} (h : Plain r) (a : BitVec 6) :
    setElems a r = .ok (r.t.ctx.active.filter (r.t.ctx.pAt a.toNat).getLsbD) r := by
  simp only [setElems, run_bind, rdP_clean h.toClean, activeElems_plain h, run_pure]

theorem vecCmp_done {s t} (q : VecQuiet s t) (k : Cmp) (d a b : BitVec 6)
    (hm : (modeScale t.ctx.mode == 0 && (!k.needsFloat || isFloat (modeStype t.ctx.mode))) = true)
    (hv : t.vlFits t.ctx.sw = true) :
    vecCmp k d a b s = .next (passed s t ((t.ctx.putPred d (t.ctx.active.filter fun i => (t.ctx.cmpAt k a b i).1)).flag
      (t.ctx.active.foldl (fun f i => f ||| (t.ctx.cmpAt k a b i).2) 0))
      [(.v a, modeStype t.ctx.mode), (.v b, modeStype t.ctx.mode)] []) := by
  apply shared_charged _ q.toQuiet rfl rfl rfl
  have h := q.plain
  have hm : (modeScale (atBody s t).t.ctx.mode == 0 && (!k.needsFloat || isFloat (modeStype (atBody s t).t.ctx.mode))) = true := hm
  have hv : (atBody s t).t.vlFits (typeWidth (atBody s t).t.ctx.fmt (modeStype (atBody s t).t.ctx.mode)) = true := hv
  simp only [run_seq, run_bind, run_getC, vpStreams_plain h, run_needMode, hm, if_true, checkVl_run _ hv, checkSrcs_plain h,
    activeElems_plain h, srcElems_plain h, wrPred_plain h, run_raise, List.foldl_map, List.filter_map, List.map_map]
  have key : ∀ g : Nat → Bool × Flags, ∀ l : List Nat,
      ((l.filter ((fun e : Nat × Bool × Flags => e.2.1) ∘ fun i => (i, g i))).map
        ((fun e : Nat × Bool × Flags => e.1) ∘ fun i => (i, g i))) = l.filter fun i => (g i).1 := by
    intro g l
    rw [show ((fun e : Nat × Bool × Flags => e.1) ∘ fun i => (i, g i)) = id from rfl, List.map_id]
    rfl
  rw [key]
  rw [show chargePasses (atBody s t).t.ctx _ _ _ _ _ = _ from chargePasses_plain (r := atBody s t) rfl rfl rfl _ _ _ _]
  rfl

theorem predLogic_done {s t} (q : VecQuiet s t) (f : Bool → Bool → Bool) (d a b : BitVec 6) :
    predLogic f d a b s = .next (wrote s t (t.ctx.putPred d ((List.range t.ctx.vl).filter fun i =>
      f ((t.ctx.pAt a.toNat).getLsbD i) ((t.ctx.pAt b.toNat).getLsbD i)))) := by
  apply shared_wrote q.toQuiet rfl rfl rfl
  have h := q.plain
  simp only [run_seq, run_bind, rdP_clean h.toClean, allElems_plain h, wrPred_plain h]
  rfl

theorem pwhile_done {s t} (q : VecQuiet s t) (d a b : BitVec 6) :
    execPwhile d a b s = .next (wrote s t (t.ctx.putPred d ((List.range t.ctx.vl).filter fun i =>
      decide ((t.ctx.xAt a).toInt + i < (t.ctx.xAt b).toInt)))) := by
  apply shared_wrote q.toQuiet rfl rfl rfl
  have h := q.plain
  simp only [run_seq, run_bind, rdX_clean h.toClean, allElems_plain h, wrPred_plain h]
  rfl

theorem pcnt_done {s t} (q : VecQuiet s t) (d a : BitVec 6) :
    execPcnt d a s = .next (wrote s t (t.ctx.put d
      (BitVec.ofNat 64 (t.ctx.active.filter (t.ctx.pAt a.toNat).getLsbD).length))) := by
  apply control_wrote q.toQuiet rfl rfl rfl
  have h := q.plain
  simp only [run_seq, run_bind, setElems_plain h, wrX_clean h.toClean]
  rfl

theorem pfirst_done {s t} (q : VecQuiet s t) (d a : BitVec 6) :
    execPfirst d a s = .next (wrote s t (t.ctx.put d
      (match (t.ctx.active.filter (t.ctx.pAt a.toNat).getLsbD).head? with | some i => BitVec.ofNat 64 i | none => ~~~0))) := by
  apply control_wrote q.toQuiet rfl rfl rfl
  have h := q.plain
  simp only [run_seq, run_bind, setElems_plain h, wrX_clean h.toClean]
  rfl

/-! ## Quantisation and block summaries -/

theorem scaleReg_plain {r : Running} (h : Plain r) (hk : modeScale r.t.ctx.mode ≠ 0) :
    scaleReg r = .ok (some r.t.ctx.scales) r := by
  simp only [scaleReg, run_bind, run_getC, run_ite, if_neg hk, h.streams, tfind, Option.isSome_none, Bool.false_eq_true, if_false,
    run_pure, awaitV_clean h.toClean]
  rfl

theorem scaleOf_plain {r : Running} (h : Plain r) (hk : modeScale r.t.ctx.mode ≠ 0) (n w : Nat) (es : List Nat) :
    scaleOf n w es r = .ok (r.t.scaleByte r.t.ctx.scales n w) r := by
  simp only [scaleOf, run_bind, scaleReg_plain h hk, run_getT, checkPoisonV_clean h.toClean, run_pure]

theorem vqnt_done {s t} (q : VecQuiet s t) (d a : BitVec 6) (c : Bool)
    (hm : (wideFloat (modeStype t.ctx.mode) && scalable (modeDtype t.ctx.mode) && modeScale t.ctx.mode != 0) = true)
    (hv : t.vlFits (max t.ctx.sw t.ctx.dw) = true) :
    execVqnt d a c s = .next (passed s t (t.ctx.putElems d t.ctx.dw fun i =>
      t.ctx.conv.put i (if t.scaleOf d t.ctx.dw i = 255 then .nan true
        else match t.ctx.conv.value (getElem (t.ctx.vAt a) i t.ctx.sw) with
          | .fin g m e => .fin g m (e - t.scaleOf d t.ctx.dw i + 127)
          | v => v))
      [(.v a, modeStype t.ctx.mode)] [(.v d, modeDtype t.ctx.mode)]) := by
  apply shared_charged _ q.toQuiet rfl rfl rfl
  have h := q.plain
  have hk : modeScale (atBody s t).t.ctx.mode ≠ 0 := by
    simp only [Bool.and_eq_true, bne_iff_ne] at hm
    exact hm.2
  have hm : (wideFloat (modeStype (atBody s t).t.ctx.mode) && scalable (modeDtype (atBody s t).t.ctx.mode)
    && modeScale (atBody s t).t.ctx.mode != 0) = true := hm
  have hv : (atBody s t).t.vlFits (max (typeWidth (atBody s t).t.ctx.fmt (modeStype (atBody s t).t.ctx.mode))
    (typeWidth (atBody s t).t.ctx.fmt (modeDtype (atBody s t).t.ctx.mode))) = true := hv
  simp only [run_seq, run_bind, getConv, getMode, run_getC, run_pure, vpStreams_plain h, run_needMode, hm, if_true,
    checkVl_run _ hv, dstV_plain h, activeElems_plain h, scaleOf_plain h hk, ↓elementwise_charged h rfl rfl]
  rfl

theorem vdqnt_done {s t} (q : VecQuiet s t) (d a : BitVec 6) (c : Bool)
    (hm : (scalable (modeStype t.ctx.mode) && wideFloat (modeDtype t.ctx.mode) && modeScale t.ctx.mode != 0) = true)
    (hv : t.vlFits (max t.ctx.sw t.ctx.dw) = true) :
    execVdqnt d a c s = .next (passed s t (t.ctx.putElems d t.ctx.dw fun i =>
      ({ t.ctx.conv with sat := false } : Conv).put i
        (scaleVal (t.ctx.conv.value (getElem (t.ctx.vAt a) i t.ctx.sw)) (t.scaleOf a t.ctx.sw i)))
      [(.v a, modeStype t.ctx.mode)] [(.v d, modeDtype t.ctx.mode)]) := by
  apply shared_charged _ q.toQuiet rfl rfl rfl
  have h := q.plain
  have hk : modeScale (atBody s t).t.ctx.mode ≠ 0 := by
    simp only [Bool.and_eq_true, bne_iff_ne] at hm
    exact hm.2
  have hm : (scalable (modeStype (atBody s t).t.ctx.mode) && wideFloat (modeDtype (atBody s t).t.ctx.mode)
    && modeScale (atBody s t).t.ctx.mode != 0) = true := hm
  have hv : (atBody s t).t.vlFits (max (typeWidth (atBody s t).t.ctx.fmt (modeStype (atBody s t).t.ctx.mode))
    (typeWidth (atBody s t).t.ctx.fmt (modeDtype (atBody s t).t.ctx.mode))) = true := hv
  simp only [run_seq, run_bind, getConv, getMode, run_getC, run_pure, vpStreams_plain h, run_needMode, hm, if_true,
    checkVl_run _ hv, activeElems_plain h, scaleOf_plain h hk, ↓elementwise_charged h rfl rfl]
  rfl

theorem vbscale_done {s t} (q : VecQuiet s t) (d a : BitVec 6) (c : Bool)
    (hm : (wideFloat (modeStype t.ctx.mode) && scalable (modeDtype t.ctx.mode) && modeScale t.ctx.mode != 0) = true)
    (hv : t.vlFits (max t.ctx.sw t.ctx.dw) = true) (val : Nat → Val)
    (hval : val = fun i => t.ctx.conv.value (getElem (t.ctx.vAt a) i t.ctx.sw)) (bs : List (Nat × List Nat))
    (hbs : bs = (blocksOf (modeBlk t.ctx.mode) t.ctx.vl t.ctx.active).filter (!·.2.isEmpty)) :
    execVbscale d a c s = .next (passed s t ((t.ctx.setV (t.ctx.phys (modeScale t.ctx.mode))
      (fill t.ctx.scales 8 (bs.map fun b => (scaleSlot t (t.ctx.phys d.toNat) t.ctx.dw (b.1 * modeBlk t.ctx.mode),
        blockScale (emaxOf t.ctx.fmt (modeDtype t.ctx.mode) t.ctx.dw) (b.2.map val))))).flag
      (if t.ctx.active.any fun i => (val i).snan then fNV else 0)) [(.v a, modeStype t.ctx.mode)] []) := by
  subst hval hbs
  apply shared_charged _ q.toQuiet rfl rfl rfl
  have h := q.plain
  have hk : modeScale (atBody s t).t.ctx.mode ≠ 0 := by
    simp only [Bool.and_eq_true, bne_iff_ne] at hm
    exact hm.2
  have hm : (wideFloat (modeStype (atBody s t).t.ctx.mode) && scalable (modeDtype (atBody s t).t.ctx.mode)
    && modeScale (atBody s t).t.ctx.mode != 0) = true := hm
  have hv : (atBody s t).t.vlFits (max (typeWidth (atBody s t).t.ctx.fmt (modeStype (atBody s t).t.ctx.mode))
    (typeWidth (atBody s t).t.ctx.fmt (modeDtype (atBody s t).t.ctx.mode))) = true := hv
  simp only [run_seq, run_bind, getConv, getMode, run_getC, run_getT, run_pure, vpStreams_plain h, run_needMode, hm, if_true,
    checkVl_run _ hv, scaleReg_plain h hk, checkSrcs_plain h, activeElems_plain h, srcElems_plain h, wrElems_plain h, run_ite,
    run_raise]
  rw [show chargePasses (atBody s t).t.ctx _ _ _ _ _ = _ from chargePasses_plain (r := atBody s t) rfl rfl rfl _ _ _ _]
  rfl

theorem vbsmax_done {s t} (q : VecQuiet s t) (d a : BitVec 6) (c : Bool)
    (hm : (isFloat (modeStype t.ctx.mode) && isFloat (modeDtype t.ctx.mode) && modeScale t.ctx.mode == 0) = true)
    (hv : t.vlFits (max t.ctx.sw t.ctx.dw) = true) (out : List (Nat × Rounded))
    (ho : out = (blocksOf (modeBlk t.ctx.mode) t.ctx.vl t.ctx.active).map fun b =>
      (b.1, blockMax (floatFmt t.ctx.fmt (modeDtype t.ctx.mode)) (modeRnd t.ctx.mode) (t.ctx.conv.draw b.1)
        (b.2.map fun i => t.ctx.conv.value (getElem (t.ctx.vAt a) i t.ctx.sw)))) :
    execVbsmax d a c s = .next (passed s t ((t.ctx.putV d (fill (t.ctx.vAt d) t.ctx.dw (out.map fun e => (e.1, e.2.1)))).flag
      (out.foldl (fun f e => f ||| e.2.2) 0)) [(.v a, modeStype t.ctx.mode)] [(.v d, modeDtype t.ctx.mode)] (out.map (·.1))) := by
  subst ho
  apply shared_charged _ q.toQuiet rfl rfl rfl
  have h := q.plain
  have hm : (isFloat (modeStype (atBody s t).t.ctx.mode) && isFloat (modeDtype (atBody s t).t.ctx.mode)
    && modeScale (atBody s t).t.ctx.mode == 0) = true := hm
  have hv : (atBody s t).t.vlFits (max (typeWidth (atBody s t).t.ctx.fmt (modeStype (atBody s t).t.ctx.mode))
    (typeWidth (atBody s t).t.ctx.fmt (modeDtype (atBody s t).t.ctx.mode))) = true := hv
  have all : ∀ l : List (Nat × List Nat), (l.filter fun b => (atBody s t).vp.isNone || (atBody s t).vp == some b.1) = l := by
    intro l
    rw [List.filter_eq_self]
    intros
    rfl
  simp only [run_seq, run_bind, getConv, getMode, run_getC, run_get, run_pure, vpStreams_plain h, run_needMode, hm, if_true,
    checkVl_run _ hv, dstV_plain h, checkSrcs_plain h, activeElems_plain h, srcElems_plain h, all, wrElems_plain h,
    run_raise]
  rw [show chargePasses (atBody s t).t.ctx _ _ _ _ _ = _ from chargePasses_plain (r := atBody s t) rfl rfl rfl _ _ _ _]
  rfl

/-! ## Reductions -/

theorem reduceInt_done {s t} (q : VecQuiet s t) (k : Red) (d a b : BitVec 6) (o : Conv) (ho : o = t.ctx.conv)
    (hi : isInt o.u = true) (hm : (isInt o.t == isInt o.u && o.w ≤ o.wd && o.rnd != 5 && modeScale t.ctx.mode == 0) = true)
    (hv : t.vlFits (max o.w o.wd) = true) :
    reduce k d a b s = .next (wrote s t (t.ctx.put d (word (intValue o.u o.wd
      (if t.ctx.active.isEmpty then (t.ctx.xAt b).toNat % 2 ^ o.wd
       else reduceInt k o ((t.ctx.xAt b).toNat % 2 ^ o.wd) (t.ctx.active.map fun i => getElem (t.ctx.vAt a) i o.w)))))) := by
  subst ho
  apply control_wrote q.toQuiet rfl rfl rfl
  have h := q.plain
  have hi : isInt (modeDtype (atBody s t).t.ctx.mode) = true := hi
  have hm : (isInt (modeStype (atBody s t).t.ctx.mode) == isInt (modeDtype (atBody s t).t.ctx.mode)
    && (typeWidth (atBody s t).t.ctx.fmt (modeStype (atBody s t).t.ctx.mode)) ≤ (typeWidth (atBody s t).t.ctx.fmt (modeDtype (atBody s t).t.ctx.mode))
    && modeRnd (atBody s t).t.ctx.mode != 5 && modeScale (atBody s t).t.ctx.mode == 0) = true := hm
  have hv : (atBody s t).t.vlFits (max (typeWidth (atBody s t).t.ctx.fmt (modeStype (atBody s t).t.ctx.mode))
    (typeWidth (atBody s t).t.ctx.fmt (modeDtype (atBody s t).t.ctx.mode))) = true := hv
  simp only [run_seq, run_bind, getConv, getMode, run_getC, run_pure, run_needMode, hm, if_true, checkVl_run _ hv,
    rdX_clean h.toClean, checkSrcs_plain h, activeElems_plain h, srcElems_plain h, run_ite]
  rw [if_pos hi]
  simp only [wrX_clean h.toClean]
  rfl

theorem reduceFloat_done {s t} (q : VecQuiet s t) (k : Red) (d a b : BitVec 6) (o : Conv) (ho : o = t.ctx.conv)
    (hi : isInt o.u = false) (hm : (isInt o.t == isInt o.u && o.w ≤ o.wd && o.rnd != 5 && modeScale t.ctx.mode == 0) = true)
    (hv : t.vlFits (max o.w o.wd) = true) (v : Rounded)
    (e : v = reduceFloat k o ((t.ctx.xAt b).toNat % 2 ^ o.wd) ((List.range t.ctx.vl).map fun i =>
      if t.ctx.active.contains i then some (o.value (getElem (t.ctx.vAt a) i o.w)) else none)) :
    reduce k d a b s = .next (passed s t ((t.ctx.put d (BitVec.ofNat 64 v.1)).flag v.2) [(.v a, o.t)] []) := by
  subst ho e
  apply control_charged _ q.toQuiet rfl rfl rfl
  have h := q.plain
  have hi : ¬ isInt (modeDtype (atBody s t).t.ctx.mode) = true := Bool.eq_false_iff.mp hi
  have hm : (isInt (modeStype (atBody s t).t.ctx.mode) == isInt (modeDtype (atBody s t).t.ctx.mode)
    && (typeWidth (atBody s t).t.ctx.fmt (modeStype (atBody s t).t.ctx.mode)) ≤ (typeWidth (atBody s t).t.ctx.fmt (modeDtype (atBody s t).t.ctx.mode))
    && modeRnd (atBody s t).t.ctx.mode != 5 && modeScale (atBody s t).t.ctx.mode == 0) = true := hm
  have hv : (atBody s t).t.vlFits (max (typeWidth (atBody s t).t.ctx.fmt (modeStype (atBody s t).t.ctx.mode))
    (typeWidth (atBody s t).t.ctx.fmt (modeDtype (atBody s t).t.ctx.mode))) = true := hv
  simp only [run_seq, run_bind, getConv, getMode, run_getC, run_pure, run_needMode, hm, if_true, checkVl_run _ hv,
    rdX_clean h.toClean, checkSrcs_plain h, activeElems_plain h, srcElems_plain h, run_ite]
  rw [if_neg hi]
  simp only [reduce.bitsIn, List.map_map, run_bind, wrX_clean h.toClean, run_raise]
  rw [show chargePasses (atBody s t).t.ctx _ _ _ _ _ = _ from chargePasses_plain (r := atBody s t) rfl rfl rfl _ _ _ _]
  rfl

/-! ## Permutes -/

theorem permType_run {r : Running} (ok : TypeCode → TypeCode → Bool)
    (hm : (ok (modeStype r.t.ctx.mode) (modeDtype r.t.ctx.mode) && modeScale r.t.ctx.mode == 0) = true) :
    permType ok r = .ok (modeStype r.t.ctx.mode, r.t.ctx.sw) r := by
  simp only [permType, run_bind, run_getC, run_needMode, hm, if_true, run_pure]
  rfl

theorem permute_run {r : Running} (h : Plain r) {α : Type} (p0 : Bool) (d a : BitVec 6) (x : Exec α) (y : α)
    (f : α → (Nat → Nat) → Nat → List Nat → List (Nat × Nat)) (hm : modeScale r.t.ctx.mode = 0)
    (hp : p0 = false ∨ modeGuard r.t.ctx.mode = 0) (hv : r.t.vlFits r.t.ctx.sw = true) (hx : x r = .ok y r) :
    permute p0 d a x f r = .ok () { r with t := { r.t with ctx := r.t.ctx.putV d (fill (r.t.ctx.vAt d) r.t.ctx.sw
      (f y (fun i => getElem (r.t.ctx.vAt a) i r.t.ctx.sw) r.t.ctx.vl r.t.ctx.active)) } } := by
  have g : (if p0 = true then needMode (modeGuard r.t.ctx.mode == 0) else pure ()) r = .ok () r := by
    rcases hp with e | e
    · subst e; rfl
    · cases p0
      · rfl
      · simp [e]
  have hg : (if p0 = true then (do needMode (modeGuard (← getMode) == 0)) else (pure () : Exec Unit)) r = .ok () r := by
    cases p0
    · rfl
    · simpa [getMode] using g
  unfold permute
  simp only [run_bind, permType_run (r := r) (fun _ _ => true) (by simp [hm])]
  cases p0
  · simp only [Bool.false_eq_true, if_false, run_bind, run_pure, checkVl_run _ hv, hx, dstV_plain h, checkSrcs_plain h,
      activeElems_plain h, run_getC, srcElems_plain h, wrElems_plain h]
    rfl
  · have e : (modeGuard r.t.ctx.mode == 0) = true := by
      rcases hp with e | e
      · cases e
      · simp [e]
    simp only [if_true, getMode, run_bind, run_getC, run_needMode, e, run_pure, checkVl_run _ hv, hx, dstV_plain h,
      checkSrcs_plain h, activeElems_plain h, srcElems_plain h, wrElems_plain h]
    rfl

/-- A permute of the shared form (R121): the elements that it writes, from the codes of its source, vl and the active elements. -/
theorem permute_done {s t} (q : VecQuiet s t) {α : Type} (p0 : Bool) (d a : BitVec 6) (x : Exec α) (y : α)
    (f : α → (Nat → Nat) → Nat → List Nat → List (Nat × Nat)) (hm : modeScale t.ctx.mode = 0)
    (hp : p0 = false ∨ modeGuard t.ctx.mode = 0) (hv : t.vlFits t.ctx.sw = true) (hx : x (atBody s t) = .ok y (atBody s t)) :
    control {} (seq (permute p0 d a x f)) s = .next (wrote s t (t.ctx.putV d (fill (t.ctx.vAt d) t.ctx.sw
      (f y (fun i => getElem (t.ctx.vAt a) i t.ctx.sw) t.ctx.vl t.ctx.active)))) := by
  apply control_wrote q.toQuiet rfl rfl rfl
  simp only [run_seq, permute_run q.plain p0 d a x y f hm hp hv hx]
  rfl

theorem rdNat_clean {r : Running} (h : Clean r) (b : BitVec 6) : rdNat b r = .ok (r.t.ctx.xAt b).toNat r := by
  simp only [rdNat, run_bind, rdX_clean h, run_pure]

theorem vgath_done {s t} (q : VecQuiet s t) (d a b : BitVec 6) (c e : Bool)
    (hm : (4 ≤ modeDtype t.ctx.mode && modeDtype t.ctx.mode ≤ 7 && modeScale t.ctx.mode == 0) = true)
    (hv : t.vlFits (max t.ctx.sw t.ctx.dw) = true) :
    execVgath d a b c e s = .next (wrote s t (t.ctx.putV d (fill (t.ctx.vAt d) t.ctx.sw (t.ctx.active.map fun i =>
      (i, if getElem (t.ctx.vAt b) i t.ctx.dw < t.ctx.vl then getElem (t.ctx.vAt a) (getElem (t.ctx.vAt b) i t.ctx.dw) t.ctx.sw
          else 0))))) := by
  apply control_wrote q.toQuiet rfl rfl rfl
  have h := q.plain
  have hm : (4 ≤ modeDtype (atBody s t).t.ctx.mode && modeDtype (atBody s t).t.ctx.mode ≤ 7
    && modeScale (atBody s t).t.ctx.mode == 0) = true := hm
  have hv : (atBody s t).t.vlFits (max (atBody s t).t.ctx.sw (typeWidth (atBody s t).t.ctx.fmt (modeDtype (atBody s t).t.ctx.mode))) = true := hv
  simp only [run_seq, run_bind, permType_run (r := atBody s t) (fun _ u => 4 ≤ u && u ≤ 7) hm, getMode, widthOf, run_getC, run_pure,
    checkVl_run _ hv, dstV_plain h, checkSrcs_plain h, activeElems_plain h, srcElems_plain h, wrElems_plain h]
  rfl

theorem vbcast_done {s t} (q : VecQuiet s t) (d a : BitVec 6) (hm : modeScale t.ctx.mode = 0) (hv : t.vlFits t.ctx.sw = true) :
    execVbcast d a s = .next (wrote s t (t.ctx.putV d (fill (t.ctx.vAt d) t.ctx.sw (t.ctx.active.map fun i =>
      (i, (t.ctx.xAt a).toNat))))) := by
  apply control_wrote q.toQuiet rfl rfl rfl
  have h := q.plain
  have hm : (true && modeScale (atBody s t).t.ctx.mode == 0) = true := by simpa using hm
  have hv : (atBody s t).t.vlFits (atBody s t).t.ctx.sw = true := hv
  simp only [run_seq, run_bind, permType_run (r := atBody s t) (fun _ _ => true) hm, checkVl_run _ hv, rdX_clean h.toClean,
    dstV_plain h, activeElems_plain h, wrElems_plain h]
  rfl

theorem vext_done {s t} (q : VecQuiet s t) (d a b : BitVec 6) (c : Bool) (hm : modeScale t.ctx.mode = 0)
    (hv : t.vlFits t.ctx.sw = true) (x : Nat)
    (hx : x = if (t.ctx.xAt b).toNat < t.ctx.vl then getElem (t.ctx.vAt a) (t.ctx.xAt b).toNat t.ctx.sw else 0) :
    execVext d a b c s = .next (wrote s t (t.ctx.put d
      (if isInt (modeStype t.ctx.mode) then word (intValue (modeStype t.ctx.mode) t.ctx.sw x) else BitVec.ofNat 64 x))) := by
  subst hx
  apply control_wrote q.toQuiet rfl rfl rfl
  have h := q.plain
  have hm : (true && modeScale (atBody s t).t.ctx.mode == 0) = true := by simpa using hm
  have hv : (atBody s t).t.vlFits (atBody s t).t.ctx.sw = true := hv
  simp only [run_seq, run_bind, permType_run (r := atBody s t) (fun _ _ => true) hm, checkVl_run _ hv, rdX_clean h.toClean,
    checkSrcs_plain h, run_getC, srcElems_plain h, wrX_clean h.toClean]
  rfl

theorem vins_done {s t} (q : VecQuiet s t) (d a b : BitVec 6) (hm : modeScale t.ctx.mode = 0) (hv : t.vlFits t.ctx.sw = true) :
    execVins d a b s = .next (wrote s t (if (t.ctx.xAt b).toNat < t.ctx.vl
      then t.ctx.putV d (setElem (t.ctx.vAt d) (t.ctx.xAt b).toNat t.ctx.sw (t.ctx.xAt a).toNat) else t.ctx)) := by
  apply control_wrote q.toQuiet rfl rfl rfl
  have h := q.plain
  have hm : (true && modeScale (atBody s t).t.ctx.mode == 0) = true := by simpa using hm
  have hv : (atBody s t).t.vlFits (atBody s t).t.ctx.sw = true := hv
  simp only [run_seq, run_bind, permType_run (r := atBody s t) (fun _ _ => true) hm, checkVl_run _ hv, rdX_clean h.toClean,
    dstV_plain h, run_getC, run_ite, wrElems_plain h, run_pure]
  by_cases hl : (t.ctx.xAt b).toNat < t.ctx.vl
  · have hl' : ((atBody s t).t.ctx.xAt b).toNat < (atBody s t).t.ctx.vl := hl
    rw [if_pos hl, if_pos hl']
    rfl
  · have hl' : ¬ ((atBody s t).t.ctx.xAt b).toNat < (atBody s t).t.ctx.vl := hl
    rw [if_neg hl, if_neg hl']
    rfl

end Sys2Proof.Machine
end

