-- ==== Sys2Proof/Laws/Fibres.lean ====
section
/-! SUPPORT. What the fibre instructions do (06). -/

set_option linter.unusedSimpArgs false
set_option Elab.async false

namespace Sys2Proof.Machine

theorem fibreCap_run {r : Running} (h : partFib r.t.part ≠ 0) : fibreCap r = .ok (fcapOf r.t.part) r := by
  unfold fibreCap
  refine bind_ok (run_get _) ?_
  exact check_ok h rfl

theorem checkPoisonF_clean {r : Running} (h : Clean r) (k : Nat) : checkPoisonF k r = .ok () r := by
  simp [checkPoisonF, h.poison]

theorem rdF_clean {r : Running} (h : Clean r) (k : BitVec 6) : rdF k r = .ok (r.t.ctx.fAt k.toNat) r := by
  unfold rdF
  exact bind_ok (checkPoisonF_clean h _) rfl

theorem wrF_on {t : Thread} (hp : t.poison = []) (s : State) (c : Ctx) (k : Chunk) (g : Group) (d : BitVec 6) (f : Fibre) :
    wrF d f (t.on s c k g) = .ok () (t.on s (c.putF d f) k g) := by
  simp [wrF, Thread.on, hp, Ctx.putF]

theorem chargePairs_run {t : Thread} (s : State) (c : Ctx) (k : Chunk) (g : Group) (n : Nat) :
    chargePairs n (t.on s c k g) = .ok () { t.on s c k g with beats := n - 16 } := by
  simp only [chargePairs, run_modify, Thread.on, Nat.zero_add]

/-- A fibre instruction that completes inside its chunk, charged what its pass reads and writes. -/
theorem control_paid {s t} {f : Form} {body : Exec Next} {s' : State} {c : Ctx} {k : Chunk} {g : Group} {n : Nat} (q : Ready s t)
    (hp : f.priv = false ∨ t.ctx.priv = true) (hi : f.rule = .inside) (hc : f.counts = true)
    (h : body (atBody s t) = .ok .seq { t.on s' c k g with beats := n })
    (cl : Clear (Running.of s t) { t.on s' c k g with beats := n }) (room : k.counted.goesOn t.limit = true) :
    control f body s = .next (went s' (t.charged n) c.next k) :=
  control_leaves (u := t) (n := n) q hp hi hc _ rfl h cl room rfl

theorem flen_done {s t} (q : Quiet s t) (hf : partFib t.part ≠ 0) (d a : BitVec 6) :
    execFlen d a s = .next (wrote s t (t.ctx.put d (BitVec.ofNat 64 (t.ctx.fAt a.toNat).length))) := by
  refine control_wrote q rfl rfl rfl (seq_ok ?_)
  refine bind_ok (fibreCap_run (r := atBody s t) hf) ?_
  exact bind_ok (run_getC _) (wrX_clean q.clean _ _)

theorem fclr_done {s t} (q : Quiet s t) (hf : partFib t.part ≠ 0) (d : BitVec 6) :
    execFclr d s = .next (wrote s t (t.ctx.putF d [])) := by
  refine control_wrote q rfl rfl rfl (seq_ok ?_)
  refine bind_ok (fibreCap_run (r := atBody s t) hf) ?_
  exact wrF_on q.poison s t.ctx (opened s t) _ d []

theorem fcopy_done {s t} (q : Quiet s t) (hf : partFib t.part ≠ 0) (d a : BitVec 6) :
    execFcopy d a s = .next (went s (t.charged (2 * (t.ctx.fAt a.toNat).length - 16))
      (t.ctx.putF d (t.ctx.fAt a.toNat)).next (opened s t)) := by
  refine control_charged _ q rfl rfl rfl (seq_ok ?_)
  refine bind_ok (fibreCap_run (r := atBody s t) hf) ?_
  refine bind_ok (rdF_clean q.clean a) ?_
  refine bind_ok (wrF_on q.poison s t.ctx (opened s t) _ d _) ?_
  exact chargePairs_run _ _ _ _ _

/-! ## Order of coordinates (R128) -/

theorem unordered_some (l : List (BitVec 32)) : ∀ (j : Nat) (p : BitVec 32), (∀ x ∈ l, p < x) → l.Pairwise (· < ·) →
    firstUnordered j (some p) l = none := by
  induction l with
  | nil => intro j p _ _; rfl
  | cons c r ih =>
    intro j p h1 h2
    have hc : ¬ c ≤ p := by
      have := h1 c (by simp)
      simp only [BitVec.lt_def, BitVec.le_def] at *
      omega
    simp only [firstUnordered, decide_eq_true_eq, if_neg hc]
    rw [List.pairwise_cons] at h2
    exact ih _ _ h2.1 h2.2

theorem unordered_none (l : List (BitVec 32)) (j : Nat) (h : l.Pairwise (· < ·)) : firstUnordered j none l = none := by
  cases l with
  | nil => rfl
  | cons c r =>
    rw [List.pairwise_cons] at h
    exact unordered_some r _ c h.1 h.2

/-! ## Reads and stores -/

theorem see_one {t : Thread} {need : Need} {i n va : Nat} {s s' : State} {k k' : Chunk} {g g' : Group} {b : List Byte}
    (h : t.see need i n [va] s k g = some (b, s', k', g')) :
    ∃ a l s1 k1, t.reach need i va s k g = some (a, s1, k1, g') ∧ t.spot s1 a = some l ∧ lookAt va l n s1 k1 = some (b, s', k') := by
  simp only [Thread.see, Option.bind_eq_some_iff, Option.map_eq_some_iff] at h
  obtain ⟨⟨ls, s1, k1, g1⟩, h1, ⟨b1, s4, k4⟩, h2, e⟩ := h
  simp only [Prod.mk.injEq] at e
  obtain ⟨rfl, rfl, rfl, rfl⟩ := e
  obtain ⟨a, l, rfl, h3, h4⟩ := land_one h1
  simp only [List.zip_cons_cons, List.zip_nil_left, lookEach, Option.bind_eq_some_iff, Option.map_eq_some_iff] at h2
  obtain ⟨⟨b2, s5, k5⟩, h5, ⟨b3, s6, k6⟩, h6, e⟩ := h2
  simp only [Option.some.injEq, Prod.mk.injEq] at h6 e
  obtain ⟨rfl, rfl, rfl⟩ := h6
  obtain ⟨rfl, rfl, rfl⟩ := e
  refine ⟨a, l, s1, k1, h3, h4, ?_⟩
  rw [List.append_nil]
  exact h5

theorem fibreRead_run {t : Thread} (hd : t.deferred = []) {i : Nat} {va : Word} {n : Nat} {s s' : State} {k k' : Chunk} {g g' : Group}
    {b : List Byte} (pieces : List (Nat × Nat × Nat)) (h : t.see .load i n [va.toNat] s k g = some (b, s', k', g')) (c : Ctx)
    (hc : c.priv = t.ctx.priv) : fibreRead i va n pieces (t.on s c k g) = .ok (natOfBytes b) (t.on s' c k' g') := by
  obtain ⟨a, l, s1, k1, h1, h2, h3⟩ := see_one h
  unfold fibreRead
  refine bind_ok (elemPlace_run h1 h2 c hc) ?_
  refine bind_ok (look_run h3 hd c g') rfl

theorem fibreReads_run {t : Thread} (hd : t.deferred = []) (n : Nat) (at_ : Nat → Word) (pieces : List (Nat × Nat × Nat)) (es : List Nat)
    {s s' : State} {k k' : Chunk} {g g' : Group} {bs : List (List Byte)}
    (h : t.seeAll .load (es.map fun j => (j, n, [(at_ j).toNat])) s k g = some (bs, s', k', g')) (c : Ctx) (hc : c.priv = t.ctx.priv) :
    es.mapM (fun j => fibreRead j (at_ j) n pieces) (t.on s c k g) = .ok (bs.map natOfBytes) (t.on s' c k' g') := by
  induction es generalizing s k g bs with
  | nil =>
    simp only [List.map_nil, Thread.seeAll, Option.some.injEq, Prod.mk.injEq] at h
    obtain ⟨rfl, rfl, rfl, rfl⟩ := h
    rfl
  | cons j es ih =>
    simp only [List.map_cons, Thread.seeAll, Option.bind_eq_some_iff, Option.map_eq_some_iff] at h
    obtain ⟨⟨b1, s1, k1, g1⟩, h1, ⟨bs1, s2, k2, g2⟩, h2, e⟩ := h
    simp only [Prod.mk.injEq] at e
    obtain ⟨rfl, rfl, rfl, rfl⟩ := e
    rw [List.mapM_cons]
    refine bind_ok (fibreRead_run hd pieces h1 c hc) ?_
    exact bind_ok (ih h2) rfl

theorem fld_done {s t} (q : Ready s t) (qc : Calm s t) (qf : Free s t) (hf : partFib t.part ≠ 0) (d a b : BitVec 6)
    (ha : (t.ctx.xAt a).toNat % 8 = 0) (n : Nat) (hn : n = (t.ctx.xAt b).toNat) (hcap : n ≤ fcapOf t.part)
    {bs : List (List Byte)} {s' : State} {k : Chunk} {g : Group}
    (h : t.seeAll .load ((List.range n).map fun j => (j, 8, [(t.ctx.xAt a + BitVec.ofNat 64 (8 * j)).toNat])) s (opened s t) (0, []) =
      some (bs, s', k, g)) (f : Fibre)
    (hp : f = bs.map fun b => (BitVec.ofNat 32 (natOfBytes b), BitVec.ofNat 32 (natOfBytes b / 2 ^ 32)))
    (ho : (f.map (·.1)).Pairwise (· < ·)) (room : k.counted.goesOn t.limit = true) :
    execFld d a b s = .next (went s' (t.charged (n - 16)) (t.ctx.putF d f).next k) := by
  subst hn
  refine control_paid (g := g) q (.inl rfl) rfl rfl (seq_ok ?_) (qf.clear (Looked.ticket (seeAll_looked h)) qc.replies) room
  refine bind_ok (fibreCap_run (r := atBody s t) hf) ?_
  refine bind_ok (rdX_clean qc.clean _) ?_
  refine bind_ok (rdX_clean qc.clean _) ?_
  refine check_ok (fun hx => hx ha) ?_
  refine check_ok (Nat.not_lt.mpr hcap) ?_
  refine bind_ok (fibreReads_run qc.deferred 8 (fun j => t.ctx.xAt a + BitVec.ofNat 64 (8 * j)) _ _ h t.ctx rfl) ?_
  have hf' : (bs.map natOfBytes).map (fun x => (BitVec.ofNat 32 x, BitVec.ofNat 32 (x / 2 ^ 32))) = f := by
    rw [hp, List.map_map]; rfl
  rw [hf', unordered_none _ _ ho]
  refine bind_ok (wrF_on qc.poison s' t.ctx k g d f) ?_
  exact chargePairs_run _ _ _ _ _

theorem walkPairs_run {r : Running} (n : Nat) (h : r.t.ctx.startsIn n) : walkPairs n r = .ok (r.t.ctx.pairsFrom n) r := by
  have hno : ¬ (decide (r.t.ctx.estart.toNat ≠ 0) && decide (n ≤ r.t.ctx.estart.toNat)) = true := by
    rcases h with h | h
    · simp [h]
    · simp [Nat.not_le.mpr h]
  unfold walkPairs
  refine bind_ok (run_getC _) ?_
  exact check_ok hno rfl

/-- A walk that comes to its end. -/
theorem walkRun_run {t u : Thread} {s s' : State} {k k' : Chunk} {g g' : Group} {c c' : Ctx} (es : List Nat) (each : Nat)
    (perform : Nat → Exec Unit) (h : runElems c.streams es perform false (t.on s c k g) = .ok .seq (u.on s' c' k' g'))
    (h0 : c'.estart = 0) :
    walkRun es each perform (t.on s c k g) = .ok .seq { u.on s' c' k' g' with beats := each * es.length - 16 } := by
  unfold walkRun
  refine bind_ok (run_getC _) ?_
  refine bind_ok h ?_
  refine bind_ok (run_getC _) ?_
  have e : ((u.on s' c' k' g').t.ctx.estart.toNat) = 0 := by
    show c'.estart.toNat = 0
    rw [h0]; rfl
  simp only [e, if_true]
  exact bind_ok (chargePairs_run _ _ _ _ _) rfl

theorem fst_done {s t} (q : Ready s t) (qc : Calm s t) (qf : Free s t) (w : Whole s) (hf : partFib t.part ≠ 0) (d a : BitVec 6)
    (ha : (t.ctx.xAt a).toNat % 8 = 0) (f : Fibre) (hfd : f = t.ctx.fAt d.toNat) (hst : t.ctx.startsIn f.length)
    {s' : State} {k : Chunk} {g : Group}
    (h : t.putAll 64 ((t.ctx.pairsFrom f.length).map fun j => (j, t.ctx.xAt a + BitVec.ofNat 64 (8 * j), 0,
      (f[j]?.getD (0, 0)).2.toNat * 2 ^ 32 + (f[j]?.getD (0, 0)).1.toNat)) s (opened s t) (0, []) = some (s', k, g))
    (room : k.counted.goesOn t.limit = true) :
    execFst d a s = .next (went s' (t.charged ((t.ctx.pairsFrom f.length).length - 16)) ({ t.ctx with estart := 0 } : Ctx).next k) := by
  subst hfd
  have hal : ∀ j : Nat, (t.ctx.xAt a + BitVec.ofNat 64 (8 * j)).toNat % 8 = 0 := by
    intro j
    simp only [BitVec.toNat_add, BitVec.toNat_ofNat]
    omega
  obtain ⟨e, he⟩ := puts_run (t := t) 64 (fun j => (t.ctx.xAt a + BitVec.ofNat 64 (8 * j), 0)) _
    (fun j => do
      let e := (t.ctx.fAt d.toNat)[j]?.getD (0, 0)
      let at_ := t.ctx.xAt a + BitVec.ofNat 64 (8 * j)
      let p ← wholePlace j .store at_ 8
      writePlace .unit 0 (opened s t).fabricOut.length j none at_.toNat p (bytesOfNat (e.2.toNat * 2 ^ 32 + e.1.toNat) 8)
        (List.replicate 8 255)) (t.ctx.pairsFrom (t.ctx.fAt d.toNat).length)
    (fun j hj s s' k k' g g' ls hl c hc => by
      obtain ⟨acc, l, rfl, h3, h4⟩ := land_one hl
      refine bind_ok (wholePlace_run (hal j) h3 h4 c hc) ?_
      rw [writePlace_run qc.deferred]
      simp only [elemWrites, List.flatMap_cons, List.flatMap_nil, List.append_nil]
      rfl) t.ctx rfl h
  have hrun := runElems_run (r := atBody s t) rfl w.cut t.ctx.streams _ _ false he
  refine control_paid (g := g) (c := { t.ctx with estart := 0 }) q (.inl rfl) rfl rfl ?_ (qf.clear (putAll_ticket h) qc.replies) room
  refine bind_ok (fibreCap_run (r := atBody s t) hf) ?_
  refine bind_ok (rdX_clean qc.clean _) ?_
  refine bind_ok (rdF_clean qc.clean _) ?_
  refine check_ok (fun hx => hx ha) ?_
  refine bind_ok (walkPairs_run (r := atBody s t) _ hst) ?_
  refine bind_ok (pendingOut_run t s t.ctx (opened s t) _) ?_
  rw [← Nat.one_mul (t.ctx.pairsFrom (t.ctx.fAt d.toNat).length).length]
  exact walkRun_run (u := t) (c' := { t.ctx with estart := 0 }) _ 1 _ hrun rfl

/-! ## Joins -/

theorem joinMode_run {r : Running} (h : r.t.ctx.joins = true) : joinMode r = .ok r.t.ctx.conv r := by
  unfold joinMode
  refine bind_ok (a := r.t.ctx.conv) (r' := r) ?_ ?_
  · rfl
  · refine bind_ok (r' := r) (a := r.t.ctx.mode) rfl ?_
    refine bind_ok (r' := r) (a := ()) ?_ rfl
    rw [run_needMode]
    exact if_pos h

theorem finter_done {s t} (q : Quiet s t) (hf : partFib t.part ≠ 0) (hm : t.ctx.joins = true) (d a b : BitVec 6) (k : BitVec 3)
    (out : List (BitVec 32 × Rounded))
    (ho : out = (t.ctx.fAt a.toNat).filterMap fun e => ((t.ctx.fAt b.toNat).find? (·.1 == e.1)).map fun e' =>
      (e.1, t.ctx.conv.combine k.toNat (t.ctx.conv.source e.2) (t.ctx.conv.source e'.2))) :
    execFinter d a b k s = .next (went s
      (t.charged ((t.ctx.fAt a.toNat).length + (t.ctx.fAt b.toNat).length + out.length - 16))
      ((t.ctx.putF d (out.map fun e => (e.1, BitVec.ofNat 32 e.2.1))).flag (out.foldl (fun f e => f ||| e.2.2) 0)).next (opened s t)) := by
  subst ho
  refine control_charged _ q rfl rfl rfl (seq_ok ?_)
  refine bind_ok (fibreCap_run (r := atBody s t) hf) ?_
  refine bind_ok (joinMode_run (r := atBody s t) hm) ?_
  refine bind_ok (rdF_clean q.clean _) ?_
  refine bind_ok (rdF_clean q.clean _) ?_
  refine bind_ok (wrF_on q.poison s t.ctx (opened s t) _ d _) ?_
  refine bind_ok (chargePairs_run _ _ _ _ _) ?_
  exact run_raise _ _

theorem passStart_run {r : Running} (tag : Nat) (h : r.t.ctx.passes tag) : passStart tag r = .ok r.t.ctx.goingOn r := by
  unfold passStart
  refine bind_ok (run_getC _) ?_
  by_cases h0 : fprogTag r.t.ctx.fprog = 0
  · rw [if_pos h0]
    simp [Ctx.goingOn, h0]
  · rw [if_neg h0]
    refine check_ok (fun hx => hx (h.resolve_left h0)) ?_
    simp [Ctx.goingOn, h0]

theorem mergePass_length (o : Conv) (k : Nat) : ∀ (n : Nat) (ins : List Fibre), (mergePass o k n ins).2.2.length = ins.length := by
  intro n
  induction n with
  | zero => intro ins; rfl
  | succ n ih =>
    intro ins
    unfold mergePass
    split
    · rfl
    · rw [ih, List.length_map]

theorem joinPass_on {t : Thread} (hp : t.poison = []) (s : State) (c : Ctx) (k : Chunk) (g : Group) (o : Conv) (op cap : Nat) (d : BitVec 6)
    (ins : List (Fibre × Nat)) (m : Fibre × Flags × List Fibre) (hm : m = mergePass o op cap (ins.map fun e => e.1.drop e.2)) :
    joinPass o op cap d ins (t.on s c k g) = .ok
      (if m.2.2.all (·.isEmpty) then none else some ((ins.zip m.2.2).map fun e => e.1.1.length - e.2.length))
      { t.on s ((c.putF d m.1).flag m.2.1) k g with beats := passPairs ins m - 16 } := by
  subst hm
  unfold joinPass
  refine bind_ok (wrF_on hp s c k g d _) ?_
  refine bind_ok (chargePairs_run _ _ _ _ _) ?_
  refine bind_ok (run_raise _ _) ?_
  split <;> rfl

theorem funion_done {s t} (q : Quiet s t) (hf : partFib t.part ≠ 0) (hm : t.ctx.joins = true) (d a b : BitVec 6) (k : BitVec 3)
    (hp : t.ctx.passes 2) (ia ib oc : Nat)
    (hia : ia = if t.ctx.goingOn then field 11 0 t.ctx.fprog.toNat else 0)
    (hib : ib = if t.ctx.goingOn then field 23 12 t.ctx.fprog.toNat else 0)
    (hoc : oc = if t.ctx.goingOn then field 60 48 t.ctx.fprog.toNat else 0)
    (ha : ia ≤ (t.ctx.fAt a.toNat).length) (hb : ib ≤ (t.ctx.fAt b.toNat).length)
    (m : Fibre × Flags × List Fibre)
    (hme : m = mergePass t.ctx.conv k.toNat (fcapOf t.part) [(t.ctx.fAt a.toNat).drop ia, (t.ctx.fAt b.toNat).drop ib])
    (w : Word) (hw : w = if m.2.2.all (·.isEmpty) then 0 else
      progress 2 ((oc + fcapOf t.part) % 2 ^ 13 * 2 ^ 48 + ((t.ctx.fAt b.toNat).length - (m.2.2.getD 1 []).length) * 2 ^ 12
        + ((t.ctx.fAt a.toNat).length - (m.2.2.getD 0 []).length))) :
    execFunion d a b k s = .next (went s
      (t.charged (passPairs [(t.ctx.fAt a.toNat, ia), (t.ctx.fAt b.toNat, ib)] m - 16))
      ({ (t.ctx.putF d m.1).flag m.2.1 with fprog := w } : Ctx).next (opened s t)) := by
  refine control_charged _ q rfl rfl rfl (seq_ok ?_)
  refine bind_ok (fibreCap_run (r := atBody s t) hf) ?_
  refine bind_ok (joinMode_run (r := atBody s t) hm) ?_
  refine bind_ok (passStart_run (r := atBody s t) 2 hp) ?_
  refine bind_ok (run_getC _) ?_
  refine bind_ok (rdF_clean q.clean _) ?_
  refine bind_ok (rdF_clean q.clean _) ?_
  have hno : ¬ (decide ((t.ctx.fAt a.toNat).length < ia) || decide ((t.ctx.fAt b.toNat).length < ib)) = true := by
    simp [Nat.not_lt.mpr ha, Nat.not_lt.mpr hb]
  subst hia hib hoc
  refine check_ok hno ?_
  refine bind_ok (joinPass_on q.poison s t.ctx (opened s t) _ _ _ _ d _ m hme) ?_
  have hl : m.2.2.length = 2 := by rw [hme, mergePass_length]; rfl
  subst hw
  match hx : m.2.2, hl with
  | [x, y], _ =>
    cases hall : [x, y].all (·.isEmpty)
    · rfl
    · rfl

theorem rdFs_clean {r : Running} (h : Clean r) (g : Nat → BitVec 6) (js : List Nat) :
    js.mapM (fun j => rdF (g j)) r = .ok (js.map fun j => r.t.ctx.fAt (g j).toNat) r := by
  induction js with
  | nil => rfl
  | cons j js ih =>
    rw [List.mapM_cons]
    refine bind_ok (rdF_clean h _) ?_
    exact bind_ok ih rfl

theorem fmerge_done {s t} (q : Quiet s t) (hf : partFib t.part ≠ 0) (hm : t.ctx.joins = true) (d a b : BitVec 6) (k : BitVec 3)
    (hp : t.ctx.passes 3) (n oc : Nat) (hn : n = b.toNat - a.toNat + 1) (cur : Nat → Nat)
    (hcur : cur = fun j => if t.ctx.goingOn then field (12 * j + 11) (12 * j) t.ctx.fprog.toNat else 0)
    (hoc : oc = if t.ctx.goingOn then field 60 48 t.ctx.fprog.toNat else 0) (ins : List (Fibre × Nat))
    (hins : ins = ((List.range n).map fun j => t.ctx.fAt (a + BitVec.ofNat 6 j).toNat).zip ((List.range n).map cur))
    (hin : ∀ e ∈ ins, e.2 ≤ e.1.length) (hout : ∀ j, n ≤ j → j < 4 → cur j = 0)
    (m : Fibre × Flags × List Fibre)
    (hme : m = mergePass t.ctx.conv k.toNat (fcapOf t.part) (ins.map fun e => e.1.drop e.2))
    (w : Word) (hw : w = if m.2.2.all (·.isEmpty) then 0 else
      progress 3 ((oc + fcapOf t.part) % 2 ^ 13 * 2 ^ 48
        + ((ins.zip m.2.2).map fun e => e.1.1.length - e.2.length).foldr (fun c acc => c + acc * 2 ^ 12) 0)) :
    execFmerge d a b k s = .next (went s (t.charged (passPairs ins m - 16))
      ({ (t.ctx.putF d m.1).flag m.2.1 with fprog := w } : Ctx).next (opened s t)) := by
  refine control_charged _ q rfl rfl rfl (seq_ok ?_)
  refine bind_ok (fibreCap_run (r := atBody s t) hf) ?_
  refine bind_ok (joinMode_run (r := atBody s t) hm) ?_
  refine bind_ok (passStart_run (r := atBody s t) 3 hp) ?_
  refine bind_ok (run_getC _) ?_
  subst hn
  refine bind_ok (rdFs_clean q.clean (fun j => a + BitVec.ofNat 6 j) _) ?_
  have hno : ¬ ((ins.any fun e => decide (e.1.length < e.2)) ||
      ((List.range 4).any fun j => decide (b.toNat - a.toNat + 1 ≤ j) && decide (cur j ≠ 0))) = true := by
    simp only [Bool.or_eq_true, List.any_eq_true, decide_eq_true_eq, Bool.and_eq_true, List.mem_range, not_or, not_exists, not_and]
    exact ⟨fun e he => Nat.not_lt.mpr (hin e he), fun j hj h h2 => h2 (hout j h hj)⟩
  subst hcur hoc hins
  refine check_ok hno ?_
  refine bind_ok (joinPass_on q.poison s t.ctx (opened s t) _ _ _ _ d _ m hme) ?_
  subst hw
  cases hall : m.2.2.all (·.isEmpty)
  · rfl
  · rfl

/-! ## Dense vectors and arrays -/

theorem denseMode_run {r : Running} (h : r.t.denseReady = true) : denseMode r = .ok r.t.ctx.sw r := by
  unfold Thread.denseReady at h
  rw [Bool.and_eq_true] at h
  unfold denseMode
  refine bind_ok (run_getC _) ?_
  refine bind_ok (r' := r) (a := ()) ?_ ?_
  · rw [run_needMode]
    exact if_pos h.1
  · exact bind_ok (checkVl_run (r := r) r.t.ctx.sw h.2) rfl

theorem fcompact_done {s t} (q : VecQuiet s t) (hf : partFib t.part ≠ 0) (hm : t.denseReady = true) (d a b : BitVec 6) (c : Bool)
    (hp : t.ctx.passes 4) (i oc : Nat) (hi : i = if t.ctx.goingOn then field 15 0 t.ctx.fprog.toNat else 0)
    (hoc : oc = if t.ctx.goingOn then field 31 16 t.ctx.fprog.toNat else 0) (hvl : i ≤ t.ctx.vl) (es : List Nat)
    (hes : es = t.ctx.active.filter fun e => i ≤ e && (t.ctx.pAt b.toNat).getLsbD e)
    (w : Word) (hw : w = match es.drop (fcapOf t.part) with
      | [] => 0
      | e :: _ => progress 4 ((oc + fcapOf t.part) % 2 ^ 16 * 2 ^ 16 + e)) :
    execFcompact d a b c s = .next (went s (t.charged ((es.take (fcapOf t.part)).length - 16))
      ({ t.ctx.putF d ((es.take (fcapOf t.part)).map fun e =>
        (BitVec.ofNat 32 e, BitVec.ofNat 32 (getElem (t.ctx.vAt a) e t.ctx.sw))) with fprog := w } : Ctx).next (opened s t)) := by
  have h := q.plain
  refine control_charged _ q.toQuiet rfl rfl rfl (seq_ok ?_)
  refine bind_ok (fibreCap_run (r := atBody s t) hf) ?_
  refine bind_ok (denseMode_run (r := atBody s t) hm) ?_
  refine bind_ok (passStart_run (r := atBody s t) 4 hp) ?_
  refine bind_ok (run_getC _) ?_
  subst hi hoc hes
  refine check_ok (Nat.not_lt.mpr hvl) ?_
  refine bind_ok (rdP_clean h.toClean _) ?_
  refine bind_ok (checkSrcs_plain h _) ?_
  refine bind_ok (activeElems_plain h) ?_
  refine bind_ok (srcElems_plain h _ _ _ _) ?_
  refine bind_ok (wrF_on q.poison s t.ctx (opened s t) _ d _) ?_
  refine bind_ok (chargePairs_run _ _ _ _ _) ?_
  subst hw
  have key : ∀ (l : List Nat) (x n : Nat) (C : Ctx), (match l with
      | [] => setProgress 0
      | e :: _ => setProgress (progress 4 (x + e)) : Exec Unit) { t.on s C (opened s t) with beats := n } =
      .ok () { t.on s { C with fprog := match l with | [] => 0 | e :: _ => progress 4 (x + e) } (opened s t) with beats := n } := by
    intro l x n C
    cases l <;> rfl
  exact key _ _ _ _

theorem fexpand_done {s t} (q : VecQuiet s t) (hf : partFib t.part ≠ 0) (hm : t.denseReady = true) (d a : BitVec 6) :
    execFexpand d a s = .next (went s (t.charged ((t.ctx.fAt a.toNat).length - 16))
      (t.ctx.putV d (fill (t.ctx.vAt d) t.ctx.sw (t.ctx.active.map fun i =>
        (i, match (t.ctx.fAt a.toNat).find? (·.1.toNat == i) with | some e => e.2.toNat % 2 ^ t.ctx.sw | none => 0)))).next
      (opened s t)) := by
  have h := q.plain
  refine control_charged _ q.toQuiet rfl rfl rfl (seq_ok ?_)
  refine bind_ok (fibreCap_run (r := atBody s t) hf) ?_
  refine bind_ok (denseMode_run (r := atBody s t) hm) ?_
  refine bind_ok (rdF_clean h.toClean _) ?_
  refine bind_ok (dstV_plain h _) ?_
  refine bind_ok (activeElems_plain h) ?_
  refine bind_ok (wrElems_plain h _ _ _) ?_
  exact chargePairs_run (t := t) s (t.ctx.putV d _) (opened s t) (0, []) _

theorem arrayBase_run {r : Running} (h : Clean r) (hm : r.t.ctx.arrays = true) (a : BitVec 6)
    (ha : (r.t.ctx.xAt a).toNat % (r.t.ctx.sw / 8) = 0) : arrayBase a r = .ok (r.t.ctx.sw / 8, r.t.ctx.xAt a) r := by
  unfold arrayBase
  refine bind_ok (run_getC _) ?_
  refine bind_ok (r' := r) (a := ()) ?_ ?_
  · rw [run_needMode]
    exact if_pos hm
  · refine bind_ok (rdX_clean h _) ?_
    exact check_ok (fun hx => hx ha) rfl

theorem putF_getD (c : Ctx) (d : BitVec 6) (hd : d.toNat < 16) (f : Fibre) : (c.putF d f).fAt d.toNat = f := by
  simp [Ctx.putF, Ctx.fAt, hd]

theorem putF_putF (c : Ctx) (d : BitVec 6) (f g : Fibre) : (c.putF d f).putF d g = c.putF d g := by
  simp only [Ctx.putF, Vector.setIfInBounds_setIfInBounds]

theorem gathers_run {t : Thread} (hd : t.deferred = []) (pieces : List (Nat × Nat × Nat)) (b : Nat) (f : Fibre) (d : BitVec 6) (base : Word) (es : List Nat)
    {s s' : State} {k k' : Chunk} {g g' : Group} {bs : List (List Byte)} (c : Ctx) (hc : c.priv = t.ctx.priv)
    (h : t.seeAll .load (es.map fun j => (j, b, [(base + BitVec.ofNat 64 ((f[j]?.getD (0, 0)).1.toNat * b)).toNat])) s k g =
      some (bs, s', k', g')) :
    ∃ e, es.foldr (fun i rest r => match atElem (fun j => do
          let e := f[j]?.getD (0, 0)
          let x ← fibreRead j (base + BitVec.ofNat 64 ((f[j]?.getD (0, 0)).1.toNat * b)) b pieces
          modC fun c => { c with f := c.f.setIfInBounds d.toNat ((c.fAt d.toNat).set j (e.1, BitVec.ofNat 32 x)) }) i r with
        | .ok _ r => rest r | .error e r => .error e r) (fun r => EStateM.Result.ok PUnit.unit r) (t.on s c k g) =
      .ok PUnit.unit (t.on s' { c.putF d (gathered f (es.zip bs) (c.fAt d.toNat)) with estart := e } k' g') := by
  induction es generalizing s k g c bs with
  | nil =>
    simp only [List.map_nil, Thread.seeAll, Option.some.injEq, Prod.mk.injEq] at h
    obtain ⟨rfl, rfl, rfl, rfl⟩ := h
    refine ⟨c.estart, ?_⟩
    have : c.f.setIfInBounds d.toNat (c.fAt d.toNat) = c.f := by
      apply Vector.ext
      intro i hi
      simp only [Vector.getElem_setIfInBounds]
      split
      · rename_i e; subst e; simp [Ctx.fAt, hi]
      · rfl
    simp only [List.foldr_nil, List.zip_nil_left, gathered, List.foldl_nil, Ctx.putF, this]
  | cons j es ih =>
    simp only [List.map_cons, Thread.seeAll, Option.bind_eq_some_iff, Option.map_eq_some_iff] at h
    obtain ⟨⟨b1, s1, k1, g1⟩, h1, ⟨bs1, s2, k2, g2⟩, h2, e⟩ := h
    simp only [Prod.mk.injEq] at e
    obtain ⟨rfl, rfl, rfl, rfl⟩ := e
    have one : atElem (fun j => do
          let e := f[j]?.getD (0, 0)
          let x ← fibreRead j (base + BitVec.ofNat 64 ((f[j]?.getD (0, 0)).1.toNat * b)) b pieces
          modC fun c => { c with f := c.f.setIfInBounds d.toNat ((c.fAt d.toNat).set j (e.1, BitVec.ofNat 32 x)) }) j (t.on s c k g) =
        .ok () (t.on s1 (({ c with estart := BitVec.ofNat 64 j } : Ctx).putF d
          ((c.fAt d.toNat).set j ((f[j]?.getD (0, 0)).1, BitVec.ofNat 32 (natOfBytes b1)))) k1 g1) := by
      unfold atElem
      refine bind_ok (run_modC _ _) ?_
      refine bind_ok (fibreRead_run hd pieces h1 { c with estart := BitVec.ofNat 64 j } hc) ?_
      rfl
    obtain ⟨e, he⟩ := ih (({ c with estart := BitVec.ofNat 64 j } : Ctx).putF d
          ((c.fAt d.toNat).set j ((f[j]?.getD (0, 0)).1, BitVec.ofNat 32 (natOfBytes b1)))) hc h2
    refine ⟨e, ?_⟩
    simp only [List.foldr_cons]
    rw [one]
    refine he.trans ?_
    by_cases hd : d.toNat < 16
    · rw [putF_getD _ _ hd, putF_putF]
      rfl
    · have hs : ∀ (c : Ctx) (g : Fibre), c.putF d g = c := by
        intro c g
        have : c.f.setIfInBounds d.toNat g = c.f := by
          rw [Vector.setIfInBounds_eq_of_size_le (by omega)]
        simp only [Ctx.putF, this]
      simp only [hs]

theorem fgath_done {s t} (q : Ready s t) (qc : Calm s t) (qf : Free s t) (w : Whole s) (hf : partFib t.part ≠ 0) (hm : t.ctx.arrays = true)
    (d a : BitVec 6) (ha : (t.ctx.xAt a).toNat % (t.ctx.sw / 8) = 0) (f : Fibre) (hfd : f = t.ctx.fAt d.toNat)
    (hst : t.ctx.startsIn f.length) {bs : List (List Byte)} {s' : State} {k : Chunk} {g : Group}
    (h : t.seeAll .load ((t.ctx.pairsFrom f.length).map fun j =>
      (j, t.ctx.sw / 8, [(t.ctx.xAt a + BitVec.ofNat 64 ((f[j]?.getD (0, 0)).1.toNat * (t.ctx.sw / 8))).toNat])) s (opened s t)
      (0, []) = some (bs, s', k, g)) (room : k.counted.goesOn t.limit = true) :
    execFgath d a s = .next (went s' (t.charged (2 * (t.ctx.pairsFrom f.length).length - 16)) ({ t.ctx.putF d (gathered f ((t.ctx.pairsFrom f.length).zip bs) f) with
      estart := 0 } : Ctx).next k) := by
  subst hfd
  obtain ⟨e, he⟩ := gathers_run (t := t) qc.deferred ((t.ctx.pairsFrom (t.ctx.fAt d.toNat).length).map fun j =>
    (j, (t.ctx.xAt a + BitVec.ofNat 64 (((t.ctx.fAt d.toNat)[j]?.getD (0, 0)).1.toNat * (t.ctx.sw / 8))).toNat, t.ctx.sw / 8))
    (t.ctx.sw / 8) (t.ctx.fAt d.toNat) d (t.ctx.xAt a) _ t.ctx rfl h
  obtain ⟨C, hC⟩ : ∃ C : Ctx, C = { t.ctx.putF d (gathered (t.ctx.fAt d.toNat)
    ((t.ctx.pairsFrom (t.ctx.fAt d.toNat).length).zip bs) (t.ctx.fAt d.toNat)) with estart := 0 } := ⟨_, rfl⟩
  have hrun := runElems_run (r := atBody s t) rfl w.cut t.ctx.streams _ _ false he
  rw [← hC]
  refine control_paid (g := g) q (.inl rfl) rfl rfl ?_ (qf.clear (Looked.ticket (seeAll_looked h)) qc.replies) room
  refine bind_ok (fibreCap_run (r := atBody s t) hf) ?_
  refine bind_ok (arrayBase_run (r := atBody s t) qc.clean hm a ha) ?_
  refine bind_ok (rdF_clean qc.clean _) ?_
  refine bind_ok (walkPairs_run (r := atBody s t) _ hst) ?_
  subst hC
  exact walkRun_run (u := t) _ 2 _ hrun rfl

theorem fscat_done {s t} (q : Ready s t) (qc : Calm s t) (qf : Free s t) (w : Whole s) (hf : partFib t.part ≠ 0) (hm : t.ctx.arrays = true)
    (d a : BitVec 6) (ha : (t.ctx.xAt a).toNat % (t.ctx.sw / 8) = 0) (f : Fibre) (hfd : f = t.ctx.fAt d.toNat)
    (hst : t.ctx.startsIn f.length)
    (hal : ∀ j ∈ t.ctx.pairsFrom f.length,
      (t.ctx.xAt a + BitVec.ofNat 64 ((f[j]?.getD (0, 0)).1.toNat * (t.ctx.sw / 8))).toNat % (t.ctx.sw / 8) = 0)
    {s' : State} {k : Chunk} {g : Group}
    (h : t.putAll t.ctx.sw ((t.ctx.pairsFrom f.length).map fun j =>
      (j, t.ctx.xAt a + BitVec.ofNat 64 ((f[j]?.getD (0, 0)).1.toNat * (t.ctx.sw / 8)), 0, (f[j]?.getD (0, 0)).2.toNat)) s
      (opened s t) (0, []) = some (s', k, g))
    (room : k.counted.goesOn t.limit = true) :
    execFscat d a s = .next (went s' (t.charged ((t.ctx.pairsFrom f.length).length - 16)) ({ t.ctx with estart := 0 } : Ctx).next k) := by
  subst hfd
  have h8 : ¬ t.ctx.sw < 8 := by
    simp only [Ctx.arrays, Bool.and_eq_true, Bool.or_eq_true, beq_iff_eq] at hm
    omega
  obtain ⟨e, he⟩ := puts_run (t := t) t.ctx.sw (fun j => (t.ctx.xAt a + BitVec.ofNat 64
      (((t.ctx.fAt d.toNat)[j]?.getD (0, 0)).1.toNat * (t.ctx.sw / 8)), 0)) _
    (fun j => do
      let e := (t.ctx.fAt d.toNat)[j]?.getD (0, 0)
      let at_ := t.ctx.xAt a + BitVec.ofNat 64 (e.1.toNat * (t.ctx.sw / 8))
      let p ← wholePlace j .store at_ (t.ctx.sw / 8)
      writePlace .unit 0 (opened s t).fabricOut.length j none at_.toNat p (bytesOfNat e.2.toNat (t.ctx.sw / 8))
        (List.replicate (t.ctx.sw / 8) 255)) (t.ctx.pairsFrom (t.ctx.fAt d.toNat).length)
    (fun j hj s s' k k' g g' ls hl c hc => by
      simp only [elemPieces, if_neg h8] at hl
      obtain ⟨acc, l, rfl, h3, h4⟩ := land_one hl
      refine bind_ok (wholePlace_run (hal j hj) h3 h4 c hc) ?_
      rw [writePlace_run qc.deferred]
      simp only [elemWrites, if_neg h8, List.flatMap_cons, List.flatMap_nil, List.append_nil]) t.ctx rfl h
  have hrun := runElems_run (r := atBody s t) rfl w.cut t.ctx.streams _ _ false he
  refine control_paid (g := g) (c := { t.ctx with estart := 0 }) q (.inl rfl) rfl rfl ?_ (qf.clear (putAll_ticket h) qc.replies) room
  refine bind_ok (fibreCap_run (r := atBody s t) hf) ?_
  refine bind_ok (arrayBase_run (r := atBody s t) qc.clean hm a ha) ?_
  refine bind_ok (rdF_clean qc.clean _) ?_
  refine bind_ok (walkPairs_run (r := atBody s t) _ hst) ?_
  refine bind_ok (pendingOut_run t s t.ctx (opened s t) _) ?_
  rw [← Nat.one_mul (t.ctx.pairsFrom (t.ctx.fAt d.toNat).length).length]
  exact walkRun_run (u := t) (c' := { t.ctx with estart := 0 }) _ 1 _ hrun rfl

/-! ## Walking a level -/

theorem then_ok {α : Type} {p : Prop} [Decidable p] {m n : Exec α} {r : Running} {x : EStateM.Result Halt Running α} (h : p)
    (h2 : m r = x) : (if p then m else n) r = x := by
  rw [if_pos h]; exact h2

theorem map_ok {α β : Type} {f : α → β} {m : Exec α} {r r' : Running} {a : α} (h : m r = .ok a r') :
    (f <$> m) r = .ok (f a) r' := by
  rw [run_map, h]

/-- A check that is made only where it applies. -/
theorem maybe_ok {α : Type} {p : Prop} [Decidable p] {m : Exec Unit} {f : Unit → Exec α} {r : Running}
    {x : EStateM.Result Halt Running α} (h : p → m r = .ok () r) (h2 : f () r = x) : (if p then m >>= f else f ()) r = x := by
  split
  · rename_i hp
    exact bind_ok (h hp) h2
  · exact h2

theorem walk_run {t : Thread} (hd : t.deferred = []) (pieces : List (Nat × Nat × Nat)) (crd val : Word) (b : Nat) (lo : Nat)
    (js : List Nat) {s s' : State} {k k' : Chunk} {g g' : Group} {f : Fibre}
    (h : t.walkAll crd val b (js.map fun n => (n, lo + n)) s k g = some (f, s', k', g')) (c : Ctx) (hc : c.priv = t.ctx.priv) :
    js.mapM (m := Exec) (fun n => do
      let j := lo + n
      let q ← (do return BitVec.ofNat 32 (← fibreRead n (crd + BitVec.ofNat 64 (4 * j)) 4 pieces) : Exec (BitVec 32))
      let v ← if val = 0 then pure j else fibreRead n (val + BitVec.ofNat 64 (j * b)) b pieces
      return (q, BitVec.ofNat 32 v)) (t.on s c k g) = .ok f (t.on s' c k' g') := by
  induction js generalizing s k g f with
  | nil =>
    simp only [List.map_nil, Thread.walkAll, Option.some.injEq, Prod.mk.injEq] at h
    obtain ⟨rfl, rfl, rfl, rfl⟩ := h
    rfl
  | cons n js ih =>
    simp only [List.map_cons, Thread.walkAll, Option.bind_eq_some_iff, Option.map_eq_some_iff] at h
    obtain ⟨⟨cb, s1, k1, g1⟩, h1, ⟨v, s2, k2, g2⟩, h2, ⟨f', s3, k3, g3⟩, h3, e⟩ := h
    simp only [Prod.mk.injEq] at e
    obtain ⟨rfl, rfl, rfl, rfl⟩ := e
    rw [List.mapM_cons]
    refine bind_ok (a := (BitVec.ofNat 32 (natOfBytes cb), BitVec.ofNat 32 v)) (r' := t.on s2 c k2 g2) ?_ (bind_ok (ih h3) rfl)
    refine bind_ok (a := BitVec.ofNat 32 (natOfBytes cb)) (r' := t.on s1 c k1 g1) (bind_ok (fibreRead_run hd pieces h1 c hc) rfl) ?_
    by_cases hv : val = 0
    · rw [if_pos hv] at h2 ⊢
      simp only [Option.some.injEq, Prod.mk.injEq] at h2
      obtain ⟨rfl, rfl, rfl, rfl⟩ := h2
      rfl
    · rw [if_neg hv] at h2 ⊢
      simp only [Option.map_eq_some_iff] at h2
      obtain ⟨⟨vb, s4, k4, g4⟩, h4, e⟩ := h2
      simp only [Prod.mk.injEq] at e
      obtain ⟨rfl, rfl, rfl, rfl⟩ := e
      exact bind_ok (fibreRead_run hd pieces h4 c hc) rfl

theorem walkAll_looked {t : Thread} {crd val : Word} {b : Nat} {ps : List (Nat × Nat)} {s s' : State} {k k' : Chunk} {g g' : Group}
    {f : Fibre} (h : t.walkAll crd val b ps s k g = some (f, s', k', g')) : Looked s s' k k' := by
  induction ps generalizing s k g f with
  | nil => simp only [Thread.walkAll, Option.some.injEq, Prod.mk.injEq] at h; obtain ⟨-, rfl, rfl, -⟩ := h; exact .refl _ _
  | cons p ps ih =>
    obtain ⟨i, j⟩ := p
    simp only [Thread.walkAll, Option.bind_eq_some_iff, Option.map_eq_some_iff] at h
    obtain ⟨⟨cb, s1, k1, g1⟩, h1, ⟨v, s2, k2, g2⟩, h2, ⟨f', s3, k3, g3⟩, h3, e⟩ := h
    simp only [Prod.mk.injEq] at e
    obtain ⟨-, rfl, rfl, rfl⟩ := e
    refine (see_looked h1).trans (Looked.trans (s' := s2) (k' := k2) ?_ (ih h3))
    split at h2
    · simp only [Option.some.injEq, Prod.mk.injEq] at h2
      obtain ⟨-, rfl, rfl, -⟩ := h2
      exact .refl _ _
    · simp only [Option.map_eq_some_iff] at h2
      obtain ⟨⟨vb, s4, k4, g4⟩, h4, e⟩ := h2
      simp only [Prod.mk.injEq] at e
      obtain ⟨-, rfl, rfl, -⟩ := e
      exact see_looked h4

theorem fwalk_done {s t} (q : Ready s t) (qc : Calm s t) (qf : Free s t) (hf : partFib t.part ≠ 0) (d a b : BitVec 6)
    (ha : (t.ctx.xAt a).toNat % 32 = 0) {o : List Byte} {s1 : State} {k1 : Chunk} {g1 : Group}
    (h1 : t.see .load 0 32 [(t.ctx.xAt a).toNat] s (opened s t) (0, []) = some (o, s1, k1, g1))
    (hres : field 255 192 (natOfBytes o) = 0) (l : Level) (hl : l = Level.of (natOfBytes o)) (hok : l.ok t.ctx)
    (hp : t.ctx.passes 1) (p : Word) (hpp : p = t.ctx.xAt b) {bl bh : List Byte} {s2 s3 : State} {k2 k3 : Chunk} {g2 g3 : Group}
    (h2 : t.see .load 0 4 [(l.ptr + 4 * p).toNat] s1 k1 g1 = some (bl, s2, k2, g2))
    (h3 : t.see .load 0 4 [(l.ptr + 4 * p + 4).toNat] s2 k2 g2 = some (bh, s3, k3, g3)) (lo hi : Nat) (hlo : lo = natOfBytes bl)
    (hhi : hi = natOfBytes bh) (hle : lo ≤ hi) (kk : Nat)
    (hkk : kk = if t.ctx.goingOn then field 31 0 t.ctx.fprog.toNat else 0) (hk : kk ≤ hi - lo)
    {prev : List (List Byte)} {s4 : State} {k4 : Chunk} {g4 : Group}
    (h4 : t.seeAll .load (if kk = 0 then [] else [(0, 4, [(l.crd + BitVec.ofNat 64 (4 * (lo + kk - 1))).toNat])]) s3 k3 g3 =
      some (prev, s4, k4, g4)) (m : Nat) (hm : m = min (fcapOf t.part) (hi - lo - kk)) {f : Fibre} {s' : State} {k : Chunk} {g : Group}
    (h5 : t.walkAll l.crd l.val (t.ctx.sw / 8) ((List.range m).map fun n => (n, lo + kk + n)) s4 k4 g4 = some (f, s', k, g))
    (ho : (prev.map (fun b => BitVec.ofNat 32 (natOfBytes b)) ++ f.map (·.1)).Pairwise (· < ·))
    (room : k.counted.goesOn t.limit = true) :
    execFwalk d a b s = .next (went s' (t.charged (m - 16)) ({ t.ctx.putF d f with
      fprog := if lo + kk + m < hi then progress 1 ((kk + m) % 2 ^ 32) else 0 } : Ctx).next k) := by
  have hlook := (see_looked h1).trans ((see_looked h2).trans ((see_looked h3).trans ((seeAll_looked h4).trans (walkAll_looked h5))))
  refine control_paid (g := g) q (.inl rfl) rfl rfl (seq_ok ?_) (qf.clear hlook.ticket qc.replies) room
  refine bind_ok (fibreCap_run (r := atBody s t) hf) ?_
  refine bind_ok (rdX_clean qc.clean _) ?_
  refine bind_ok (rdX_clean qc.clean _) ?_
  refine check_ok (fun hx => hx ha) ?_
  refine bind_ok (fibreRead_run qc.deferred _ h1 t.ctx rfl) ?_
  refine check_ok (fun hx => hx hres) ?_
  refine bind_ok (run_getC _) ?_
  subst hl hpp hlo hhi hkk hm
  apply maybe_ok
  · intro hv
    rw [run_needMode]
    exact if_pos (hok.mode.resolve_left hv)
  refine check_ok (fun hx => hx hok.ptr) ?_
  refine check_ok (fun hx => hx hok.crd) ?_
  refine check_ok ?_ ?_
  · rcases hok.val with hv | hv
    · have hv : BitVec.ofNat 64 (field 191 128 (natOfBytes o)) = 0 := hv
      simp [hv]
    · have hv : (BitVec.ofNat 64 (field 191 128 (natOfBytes o))).toNat % (typeWidth (t.on s1 t.ctx k1 g1).t.ctx.fmt (modeStype (t.on s1 t.ctx k1 g1).t.ctx.mode) / 8) = 0 := hv
      rw [hv]
      simp
  refine bind_ok (passStart_run (r := t.on s1 t.ctx k1 g1) 1 hp) ?_
  refine bind_ok (fibreRead_run qc.deferred _ h2 t.ctx rfl) ?_
  refine bind_ok (fibreRead_run qc.deferred _ h3 t.ctx rfl) ?_
  refine check_ok (Nat.not_lt.mpr hle) ?_
  refine check_ok (Nat.not_lt.mpr hk) ?_
  obtain ⟨kk, hkk⟩ : ∃ kk, kk = if t.ctx.goingOn then field 31 0 t.ctx.fprog.toNat else 0 := ⟨_, rfl⟩
  rw [← hkk] at h4 h5 hk ⊢
  have hprev : ∀ (pieces : List (Nat × Nat × Nat)) (J : Option (BitVec 32) → Exec Unit), J = (fun prev => do
      let f ← (List.range (min (fcapOf t.part) (natOfBytes bh - natOfBytes bl - kk))).mapM (m := Exec) (fun n => do
        let j := natOfBytes bl + kk + n
        let q ← (do return BitVec.ofNat 32 (← fibreRead n ((Level.of (natOfBytes o)).crd + BitVec.ofNat 64 (4 * j)) 4 pieces) : Exec (BitVec 32))
        let v ← if (Level.of (natOfBytes o)).val = 0 then pure j
          else fibreRead n ((Level.of (natOfBytes o)).val + BitVec.ofNat 64 (j * (t.ctx.sw / 8))) (t.ctx.sw / 8) pieces
        return (q, BitVec.ofNat 32 v))
      match firstUnordered (natOfBytes bl + kk) prev (f.map (·.1)) with
      | some j => trap 0x0B (BitVec.ofNat 64 j)
      | none =>
        wrF d f
        chargePairs (min (fcapOf t.part) (natOfBytes bh - natOfBytes bl - kk))
        setProgress (if natOfBytes bl + kk + min (fcapOf t.part) (natOfBytes bh - natOfBytes bl - kk) < natOfBytes bh
          then progress 1 ((kk + min (fcapOf t.part) (natOfBytes bh - natOfBytes bl - kk)) % 2 ^ 32) else 0)) → 
      ∀ pv, (∀ f : Fibre, (prev.map (fun b => BitVec.ofNat 32 (natOfBytes b)) ++ f.map (·.1)).Pairwise (· < ·) →
        firstUnordered (natOfBytes bl + kk) pv (f.map (·.1)) = none) → J pv (t.on s4 t.ctx k4 g4) =
      .ok () { t.on s' ({ t.ctx.putF d f with
        fprog := if natOfBytes bl + kk + min (fcapOf t.part) (natOfBytes bh - natOfBytes bl - kk) < natOfBytes bh then progress 1 ((kk + min (fcapOf t.part) (natOfBytes bh - natOfBytes bl - kk)) % 2 ^ 32) else 0 } : Ctx) k g with
          beats := min (fcapOf t.part) (natOfBytes bh - natOfBytes bl - kk) - 16 } := by
    intro pieces J hJ pv hpv
    subst hJ
    refine bind_ok (walk_run qc.deferred pieces _ _ _ _ _ h5 t.ctx rfl) ?_
    rw [hpv f ho]
    refine bind_ok (wrF_on qc.poison s' t.ctx k g d f) ?_
    exact bind_ok (chargePairs_run _ _ _ _ _) rfl
  subst hkk
  by_cases h0 : (if t.ctx.goingOn then field 31 0 t.ctx.fprog.toNat else 0) = 0
  · rw [if_pos h0] at h4
    simp only [Thread.seeAll, Option.some.injEq, Prod.mk.injEq] at h4
    obtain ⟨rfl, rfl, rfl, rfl⟩ := h4
    refine then_ok h0 ?_
    refine bind_ok (run_pure _ _) ?_
    exact hprev _ _ rfl none (fun f hf => unordered_none _ _ (by simpa using hf))
  · rw [if_neg h0] at h4
    simp only [Thread.seeAll, Option.bind_eq_some_iff, Option.map_eq_some_iff] at h4
    obtain ⟨⟨b1, s5, k5, g5⟩, h6, ⟨bs1, s6, k6, g6⟩, h7, e⟩ := h4
    simp only [Option.some.injEq, Prod.mk.injEq] at h7 e
    obtain ⟨rfl, rfl, rfl, rfl⟩ := h7
    obtain ⟨rfl, rfl, rfl, rfl⟩ := e
    refine check_ok h0 ?_
    refine bind_ok (a := some (BitVec.ofNat 32 (natOfBytes b1))) (r' := t.on s5 t.ctx k5 g5) ?_ ?_
    · exact map_ok (bind_ok (fibreRead_run qc.deferred _ h6 t.ctx rfl) (run_pure _ _))
    · refine hprev _ _ rfl _ (fun f hf => ?_)
      simp only [List.map_cons, List.map_nil, List.cons_append, List.nil_append, List.pairwise_cons] at hf
      exact unordered_some _ _ _ hf.1 hf.2

end Sys2Proof.Machine
end

