-- ==== Sys2Proof/Laws/System.lean ====
section
/-! SUPPORT. What the vector length, the system registers, the mode word and the scalar floating instructions do in a state
where their thread is ready. -/

set_option linter.unusedSimpArgs false
set_option Elab.async false

namespace Sys2Proof.Machine

theorem setVl_run {r : Running} (h : Clean r) (d : BitVec 6) (n : Nat) :
    setVl d n r = .ok () { r with t := { r.t with
      ctx := ({ r.t.ctx with vl := min n r.t.vlLim } : Ctx).put d (BitVec.ofNat 64 (min n r.t.vlLim)) } } := by
  simp [setVl, modeLimit, wrX_clean (h.ctx _), Thread.vlLim]

theorem setvl_done {s t} (q : Quiet s t) (d a : BitVec 6) :
    execSetvl d a s = .next (wrote s t
      (({ t.ctx with vl := min (t.ctx.xAt a).toNat t.vlLim } : Ctx).put d (BitVec.ofNat 64 (min (t.ctx.xAt a).toNat t.vlLim)))) := by
  apply control_wrote q rfl rfl rfl
  simp only [run_seq, run_bind, rdX_clean q.clean, setVl_run q.clean]
  rfl

theorem setvli_done {s t} (q : Quiet s t) (d : BitVec 6) (n : BitVec 12) :
    execSetvli d n s = .next (wrote s t
      (({ t.ctx with vl := min n.toNat t.vlLim } : Ctx).put d (BitVec.ofNat 64 (min n.toNat t.vlLim)))) := by
  apply control_wrote q rfl rfl rfl
  simp only [run_seq, run_bind, setVl_run q.clean]
  rfl

/-- A parcel-wide register that the open chunk has not written reads as the parcel's (R301). -/
theorem parcelReg_run (s : State) (t : Thread) (k : Nat) (h : ((opened s t).parcelWrites.any fun w => w.which == k) = false) :
    parcelReg k (atBody s t) = .ok
      (if k = 0 then (s.parcel t.parcel).ptroot else if k = 1 then (s.parcel t.parcel).trapvec else (s.parcel t.parcel).pshare)
      (atBody s t) := by
  have hn : ((opened s t).parcelWrites.filter fun (w : ParcelWrite) => w.which == k) = [] := by
    rw [List.filter_eq_nil_iff]
    intro w hw hk
    have : ((opened s t).parcelWrites.any fun w => w.which == k) = true := List.any_eq_true.mpr ⟨w, hw, hk⟩
    rw [h] at this
    cases this
  simp only [parcelReg, run_bind, run_get, atBody_t, atBody_s, hn, List.getLast?_nil, run_pure]

theorem mfsr_done {s t} (q : Quiet s t) (d : BitVec 6) (n : BitVec 12) (h : privNumber n = false ∨ t.ctx.priv = true) (w : Word)
    (hw : readSys n (atBody s t) = .ok w (atBody s t)) :
    execMfsr d n s = .next (wrote s t (t.ctx.put d w)) := by
  apply control_wrote q rfl rfl rfl
  have hc : checkNumber n (atBody s t) = .ok () (atBody s t) := by rcases h with h | h <;> simp [checkNumber, h]
  simp only [run_seq, run_bind, hc, hw, wrX_clean q.clean]
  rfl

theorem mfsr_trap {s t} (q : Quiet s t) (d : BitVec 6) (n : BitVec 12) (h : privNumber n = true) (hp : t.ctx.priv = false) :
    execMfsr d n s = .next ((atBody s t).takeTrap { code := 5, sub := 0, val := s.fetched.setWidth 64 }) := by
  refine control_trap q.toReady (.inl rfl) rfl ?_
  simp [checkNumber, h, hp]

theorem mtsr_trap {s t} (q : Quiet s t) (a : BitVec 6) (n : BitVec 12) (h : privNumber n = true) (hp : t.ctx.priv = false) :
    execMtsr a n s = .next ((atBody s t).takeTrap { code := 5, sub := 0, val := s.fetched.setWidth 64 }) := by
  refine control_trap q.toReady (.inl rfl) rfl ?_
  simp [checkNumber, h, hp]

theorem parcelWrite_trap {s t} (q : Quiet s t) (which : Nat) (n : BitVec 12) (mask : Word) (a : BitVec 6)
    (h : privNumber n = true) (hp : t.ctx.priv = false) :
    parcelWrite which n mask a s = .next ((atBody s t).takeTrap { code := 5, sub := 0, val := s.fetched.setWidth 64 }) := by
  refine control_trap q.toReady (.inl rfl) rfl ?_
  simp [checkNumber, h, hp]

theorem observeTiles_run {s : State} {t : Thread} (h : t.tilesDone = true) :
    observeTiles (atBody s t) = .ok () (atBody s t) := by
  simp only [Thread.tilesDone, Bool.and_eq_true, Bool.not_eq_true', List.isEmpty_iff] at h
  have : (opened s t).tileOps = [] := by
    unfold opened
    cases hc : t.chunk <;> simp_all
  simp [observeTiles, h.1, this]

theorem mfsrFflags_done {s t} (q : Quiet s t) (h : t.tilesDone = true) (d : BitVec 6) :
    execMfsrFflags d s = .next (wrote s t (t.ctx.put d (t.ctx.fflags.setWidth 64))) := by
  apply control_wrote q rfl rfl rfl
  have e : readSys 0x010 (atBody s t) = .ok (t.ctx.fflags.setWidth 64) (atBody s t) := rfl
  simp only [run_seq, run_bind, observeTiles_run h, e, wrX_clean q.clean]
  rfl

theorem mfsrMsat_done {s t} (q : Quiet s t) (h : t.tilesDone = true) (d : BitVec 6) :
    execMfsrMsat d s = .next (wrote s t (t.ctx.put d (if t.ctx.msat then 1 else 0))) := by
  apply control_wrote q rfl rfl rfl
  have e : readSys 0x015 (atBody s t) = .ok (if t.ctx.msat then 1 else 0) (atBody s t) := rfl
  simp only [run_seq, run_bind, observeTiles_run h, e, wrX_clean q.clean]
  rfl

theorem mtsr_done {s t} (q : Quiet s t) (a : BitVec 6) (n : BitVec 12) (h : privNumber n = false ∨ t.ctx.priv = true)
    (c : Ctx) (hc : (match n.toNat with
      | 0x011 => { t.ctx with estart := t.ctx.xAt a }
      | 0x01B => { t.ctx with rngkey := t.ctx.xAt a }
      | 0x103 => { t.ctx with trapcause := t.ctx.xAt a &&& causeMask }
      | 0x104 => { t.ctx with trappc := t.ctx.xAt a }
      | 0x105 => { t.ctx with trapval := t.ctx.xAt a }
      | 0x108 => { t.ctx with pkidx := t.ctx.xAt a &&& pkidxMask }
      | 0x109 => { t.ctx with pkeylo := t.ctx.xAt a }
      | 0x10A => { t.ctx with pkeyhi := t.ctx.xAt a }
      | _ => t.ctx) = c) :
    execMtsr a n s = .next (wrote s t c) := by
  subst hc
  apply control_wrote q rfl rfl rfl
  have hk : checkNumber n (atBody s t) = .ok () (atBody s t) := by rcases h with h | h <;> simp [checkNumber, h]
  simp only [run_seq, run_bind, hk, rdX_clean q.clean, run_modC]
  rfl

theorem mtsrMode_done {s t} (q : Quiet s t) (a : BitVec 6) (h : modeOk ((t.ctx.xAt a).setWidth 26) = true) :
    execMtsrMode a s = .next (wrote s t { t.ctx with mode := (t.ctx.xAt a).setWidth 26 }) := by
  apply control_wrote q rfl rfl rfl
  simp [rdX_clean q.clean, h]

theorem mtsrMode_trap {s t} (q : Quiet s t) (a : BitVec 6) (h : modeOk ((t.ctx.xAt a).setWidth 26) = false) :
    execMtsrMode a s = .next ((atBody s t).takeTrap { code := 2, sub := 0, val := t.ctx.xAt a }) := by
  refine control_trap q.toReady (.inl rfl) rfl ?_
  simp [rdX_clean q.clean, h]

theorem mtsrFmt_done {s t} (q : Quiet s t) (a : BitVec 6) (f : BitVec 3) (h : fmtOk (t.ctx.xAt a) = true) :
    execMtsrFmt a f s = .next (wrote s t { t.ctx with fmt := t.ctx.fmt.setIfInBounds f.toNat (t.ctx.xAt a &&& fmtMask) }) := by
  apply control_wrote q rfl rfl rfl
  simp [rdX_clean q.clean, h]

theorem mtsrFmt_trap {s t} (q : Quiet s t) (a : BitVec 6) (f : BitVec 3) (h : fmtOk (t.ctx.xAt a) = false) :
    execMtsrFmt a f s = .next ((atBody s t).takeTrap { code := 2, sub := 0, val := t.ctx.xAt a }) := by
  refine control_trap q.toReady (.inl rfl) rfl ?_
  simp [rdX_clean q.clean, h]

theorem mtsrFflags_done {s t} (q : Quiet s t) (h : t.tilesDone = true) (a : BitVec 6) :
    execMtsrFflags a s = .next (wrote s t { t.ctx with fflags := (t.ctx.xAt a).setWidth 5 }) := by
  apply control_wrote q rfl rfl rfl
  simp [rdX_clean q.clean, observeTiles_run h]

theorem mtsrMsat_done {s t} (q : Quiet s t) (h : t.tilesDone = true) (a : BitVec 6) :
    execMtsrMsat a s = .next (wrote s t { t.ctx with msat := (t.ctx.xAt a).getLsbD 0 }) := by
  apply control_wrote q rfl rfl rfl
  simp [rdX_clean q.clean, observeTiles_run h]

theorem mtsrFprog_done {s t} (q : Quiet s t) (a : BitVec 6) :
    execMtsrFprog a s = .next (wrote s t { t.ctx with fprog := t.ctx.xAt a &&& fprogMask (t.ctx.xAt a) }) := by
  apply control_wrote q rfl rfl rfl
  simp [rdX_clean q.clean]

theorem mtsrCtags_done {s t} (q : Quiet s t) (a : BitVec 6) :
    execMtsrCtags a s = .next (went s { t with ctags := t.ctags &&& ~~~(t.ctx.xAt a &&& ~~~ t.freshTags s.cycle) } t.ctx.next
      (opened s t)) := by
  refine control_leaves (u := { t with ctags := _ }) (n := 0) q.toReady (.inl rfl) rfl rfl
    { atBody s t with t := { (atBody s t).t with ctags := t.ctags &&& ~~~(t.ctx.xAt a &&& ~~~ t.freshTags s.cycle) } } rfl ?_
    (.same rfl rfl rfl q.replies) q.room (went_free _ _ _ _)
  simp [rdX_clean q.clean, Thread.freshTags]

theorem parcelWrite_done {s t} (q : Quiet s t) (which : Nat) (n : BitVec 12) (mask : Word) (a : BitVec 6)
    (h : t.ctx.priv = true) (k : Chunk)
    (hk : k = { opened s t with parcelWrites := (opened s t).parcelWrites ++ [{ which, value := t.ctx.xAt a &&& mask }] }) :
    parcelWrite which n mask a s = .next (went s t t.ctx.next k) := by
  subst hk
  refine control_leaves (u := t) (n := 0) (k := { opened s t with parcelWrites := _ }) q.toReady (.inl rfl) rfl rfl
    { atBody s t with t := { (atBody s t).t with chunk := some { opened s t with parcelWrites :=
        (opened s t).parcelWrites ++ [{ which, value := t.ctx.xAt a &&& mask }] } } } rfl ?_
    (.same rfl rfl rfl q.replies) q.room (went_free _ _ _ _)
  have hk : checkNumber n (atBody s t) = .ok () (atBody s t) := by simp [checkNumber, h]
  simp only [run_seq, run_bind, hk, rdX_clean q.clean, run_modChunk]
  rfl

theorem mode_done {s t} (q : Quiet s t) (g : BitVec 4) (sc : BitVec 5) (r : BitVec 3) (z : Bool) (c : BitVec 6) (b : BitVec 2)
    (d : BitVec 5) (h : modeOk (g ++ sc ++ r ++ BitVec.ofBool z ++ c ++ b ++ d) = true) :
    execMode g sc r z c b d s = .next (wrote s t { t.ctx with mode := g ++ sc ++ r ++ BitVec.ofBool z ++ c ++ b ++ d }) := by
  apply control_wrote q rfl rfl rfl
  simp only [run_seq, run_bind, h, Bool.not_true, Bool.false_eq_true, if_false, run_pure, run_modC]
  rfl

theorem mode_trap {s t} (q : Quiet s t) (g : BitVec 4) (sc : BitVec 5) (r : BitVec 3) (z : Bool) (c : BitVec 6) (b : BitVec 2)
    (d : BitVec 5) (h : modeOk (g ++ sc ++ r ++ BitVec.ofBool z ++ c ++ b ++ d) = false) :
    execMode g sc r z c b d s =
      .next ((atBody s t).takeTrap { code := 2, sub := 0, val := (encMode g sc r z c b d).setWidth 64 }) := by
  refine control_trap q.toReady (.inl rfl) rfl ?_
  simp only [run_seq, run_bind, h, Bool.not_false, if_true, run_trap]

theorem nop_done {s t} (q : Quiet s t) : execNop s = .next (wrote s t t.ctx) := by
  apply control_wrote q rfl rfl rfl
  rfl

/-! ## Scalar floating point -/

theorem scalarMode_run {r : Running} (h : scalarFloatOk r.t.ctx.mode = true) :
    scalarMode r = .ok (floatFmt r.t.ctx.fmt (modeDtype r.t.ctx.mode), modeRnd r.t.ctx.mode) r := by
  unfold scalarFloatOk at h
  simp only [scalarMode, run_bind, run_getC, run_needMode]
  rw [h]
  rfl

theorem wrRounded_run {r : Running} (h : Clean r) (d : BitVec 6) (v : Rounded) :
    wrRounded d v r = .ok () { r with t := { r.t with ctx := (r.t.ctx.put d (BitVec.ofNat 64 v.1)).flag v.2 } } := by
  simp [wrRounded, wrX_clean h]

theorem scalarBin_done {s t} (q : Quiet s t) (h : scalarFloatOk t.ctx.mode = true) (op : Fmt → Rnd → Val → Val → Rounded)
    (d a b : BitVec 6) (f : Fmt) (hf : f = floatFmt t.ctx.fmt (modeDtype t.ctx.mode)) (v : Rounded)
    (hv : v = op f (modeRnd t.ctx.mode) (f.value ((t.ctx.xAt a).toNat % 2 ^ f.width)) (f.value ((t.ctx.xAt b).toNat % 2 ^ f.width))) :
    scalarBin op d a b s = .next (wrote s t ((t.ctx.put d (BitVec.ofNat 64 v.1)).flag v.2)) := by
  subst hf hv
  apply control_wrote q rfl rfl rfl
  simp only [run_seq, run_bind, scalarMode_run (r := atBody s t) h, rdX_clean q.clean, wrRounded_run q.clean]
  rfl

theorem fsqrt_done {s t} (q : Quiet s t) (h : scalarFloatOk t.ctx.mode = true) (d a : BitVec 6) (f : Fmt)
    (hf : f = floatFmt t.ctx.fmt (modeDtype t.ctx.mode)) (v : Rounded)
    (hv : v = f.sqrt (modeRnd t.ctx.mode) false 0 (f.value ((t.ctx.xAt a).toNat % 2 ^ f.width))) :
    execFsqrt d a s = .next (wrote s t ((t.ctx.put d (BitVec.ofNat 64 v.1)).flag v.2)) := by
  subst hf hv
  apply control_wrote q rfl rfl rfl
  simp only [run_seq, run_bind, scalarMode_run (r := atBody s t) h, rdX_clean q.clean, wrRounded_run q.clean]
  rfl

theorem fcvt_done {s t} (q : Quiet s t) (d a b : BitVec 6)
    (h : (modeDtype t.ctx.mode < 12 && modeRnd t.ctx.mode != 5 && !(isInt b.toNat && isInt (modeDtype t.ctx.mode))) = true)
    (v : Word × Flags)
    (hv : v = convert t.ctx.fmt (modeRnd t.ctx.mode) b.toNat (modeDtype t.ctx.mode) (t.ctx.xAt a).toNat) :
    execFcvt d a b s = .next (wrote s t ((t.ctx.put d v.1).flag v.2)) := by
  subst hv
  apply control_wrote q rfl rfl rfl
  simp only [run_seq, run_bind, run_getC, atBody_t, run_needMode, h, if_true, rdX_clean q.clean, wrX_clean q.clean, run_raise]

end Sys2Proof.Machine
end

