-- ==== Sys2Proof/Laws/Matrix.lean ====
section
/-! SUPPORT. What the matrix instructions do (07). -/

set_option linter.unusedSimpArgs false
set_option Elab.async false

namespace Sys2Proof.Machine

theorem wrX_on (u : Thread) (s : State) (c : Ctx) (k : Chunk) (g : Group) (hp : u.poison = []) (hd : u.deferred = []) (hf : u.failedRegs = [])
    (ha : ∀ p, (u.on s c k g).awaits p = false) (d : BitVec 6) (v : Word) :
    wrX d v (u.on s c k g) = .ok () (u.on s (c.put d v) k g) := by
  have h : Clean (u.on s c k g) := ⟨hp, hd, hf, ha⟩
  exact wrX_clean h d v

theorem mattach_done {s t} (q : Idle s t) (d a : BitVec 6) (hw : attachOk (t.ctx.xAt a) = true) (h0 : t.mgrant = 0) (g : Nat)
    (hg : g = s.grantFor t (attachMost (t.ctx.xAt a)) (attachLeast (t.ctx.xAt a)) (2 ^ attachCode (t.ctx.xAt a))) :
    execMattach d a s = .next (settled s { t.past with
      tiles := if g = 0 then t.tiles else 2 ^ attachCode (t.ctx.xAt a), rows := if g = 0 then t.rows else [], mgrant := g,
      ctx := (t.ctx.put d (BitVec.ofNat 64 g)).next } []) := by
  have hno : ¬ (decide (field 63 18 (t.ctx.xAt a).toNat ≠ 0) || decide (field 15 13 (t.ctx.xAt a).toNat ≠ 0)
      || decide (field 7 5 (t.ctx.xAt a).toNat ≠ 0) || decide (field 17 16 (t.ctx.xAt a).toNat = 3)
      || decide (field 4 0 (t.ctx.xAt a).toNat = 0) || decide (16 < field 4 0 (t.ctx.xAt a).toNat)
      || decide (16 < field 12 8 (t.ctx.xAt a).toNat)
      || decide (field 4 0 (t.ctx.xAt a).toNat < field 12 8 (t.ctx.xAt a).toNat)) = true := by
    unfold attachOk attachCode attachMost attachLeast at hw
    simp only [Bool.and_eq_true, beq_iff_eq, bne_iff_ne, decide_eq_true_eq] at hw
    simp only [Bool.or_eq_true, decide_eq_true_eq]
    omega
  have hg' : (atBody s t).s.grantFor (atBody s t).t (field 4 0 ((atBody s t).t.ctx.xAt a).toNat)
      (field 12 8 ((atBody s t).t.ctx.xAt a).toNat) (2 ^ field 17 16 ((atBody s t).t.ctx.xAt a).toNat) = g := hg.symm
  clear hg
  refine alone_settled (u := { t with
      tiles := if g = 0 then t.tiles else 2 ^ attachCode (t.ctx.xAt a), rows := if g = 0 then t.rows else [], mgrant := g,
      ctx := t.ctx.put d (BitVec.ofNat 64 g) })
    (n := .seq) q (.inl rfl) rfl rfl (seq_ok ?_) q.deferred q.replies q.pend q.forked
  refine bind_ok (rdX_clean q.clean _) ?_
  refine check_ok hno ?_
  refine bind_ok (run_getT _) ?_
  refine check_ok (fun hx => hx h0) ?_
  refine bind_ok (run_getS _) ?_
  rw [hg']
  by_cases hz : g = 0
  · refine check_ok (fun hx => hx hz) ?_
    refine bind_ok (run_modT _ _) ?_
    rw [if_pos hz, if_pos hz]
    exact wrX_on { t with mgrant := g } s t.ctx (opened s t) (0, []) q.clean.poison q.clean.deferred q.clean.failed q.clean.awaits d _
  · refine then_ok hz ?_
    refine bind_ok (run_modT _ _) ?_
    refine bind_ok (run_modT _ _) ?_
    rw [if_neg hz, if_neg hz]
    exact wrX_on { t with tiles := 2 ^ attachCode (t.ctx.xAt a), rows := [], mgrant := g } s t.ctx (opened s t) (0, []) q.clean.poison
      q.clean.deferred q.clean.failed q.clean.awaits d _

theorem mdetach_done {s t} (q : Idle s t) (h : t.tileQueue = []) :
    execMdetach s = .next (settled s { t.past.detach with ctx := t.ctx.next } []) := by
  refine alone_settled (u := t.detach) (n := .seq) q (.inl rfl) rfl rfl (seq_ok ?_) q.deferred q.replies q.pend q.forked
  refine bind_ok (run_getT _) ?_
  refine check_ok ?_ rfl
  show ¬ (!t.tileQueue.isEmpty) = true
  simp [h]

theorem mmode_done {s t} (q : Quiet s t) (d a : BitVec 6)
    (h : (field 63 10 (t.ctx.xAt a).toNat == 0 && !(t.ctx.xAt a).getLsbD 2
      && !(mmBsep (t.ctx.xAt a) && 21 ≤ mmBtype (t.ctx.xAt a))) = true) :
    execMmode d a s = .next (wrote s t { t.ctx.put d t.ctx.mmode with mmode := t.ctx.xAt a }) := by
  refine control_wrote q rfl rfl rfl (seq_ok ?_)
  refine bind_ok (rdX_clean q.clean _) ?_
  refine check_ok ?_ ?_
  · simp only [Bool.and_eq_true, beq_iff_eq, Bool.not_eq_true', Bool.and_eq_false_iff] at h
    show ¬ (decide (field 63 10 (t.ctx.xAt a).toNat ≠ 0) || (t.ctx.xAt a).getLsbD 2
      || (mmBsep (t.ctx.xAt a) && decide (21 ≤ mmBtype (t.ctx.xAt a)))) = true
    simp only [Bool.or_eq_true, decide_eq_true_eq, not_or, Bool.and_eq_true]
    refine ⟨⟨by rw [h.1.1]; simp, by rw [h.1.2]; simp⟩, fun ⟨x, y⟩ => ?_⟩
    rcases h.2 with h2 | h2
    · rw [h2] at x; cases x
    · rw [decide_eq_false_iff_not] at h2; exact h2 y
  refine bind_ok (run_getC _) ?_
  refine bind_ok (run_modC _ _) ?_
  refine (wrX_clean (q.clean.ctx _) _ _).trans ?_
  by_cases hd : d = 0#6
  · simp [Ctx.put, hd]
  · simp [Ctx.put, hd]

/-! ## Queueing -/

theorem tileRows_run {r : Running} {k : BitVec 2} (h : r.t.hasTile k = true) : tileRows k r = .ok r.t.tileHeight r := by
  simp only [Thread.hasTile, Bool.and_eq_true, bne_iff_ne, decide_eq_true_eq] at h
  unfold tileRows
  refine bind_ok (run_getT _) ?_
  refine check_ok h.1 ?_
  exact check_ok (Nat.not_le.mpr h.2) rfl

theorem queueTile_run (t : Thread) (s : State) (c : Ctx) (k : Chunk) (g : Group) (op : TileOp) :
    queueTile op (t.on s c k g) = .ok () (t.on s c (k.queued op) g) := rfl

theorem mzero_done {s t} (q : Quiet s t) (k : BitVec 2) (h : t.hasTile k = true) :
    execMzero k s = .next (went s t t.ctx.next ((opened s t).queued (.zero k.toNat))) := by
  refine control_on (g := (0, [])) q.toReady (.inl rfl) rfl rfl (seq_ok ?_) (.same rfl rfl rfl q.replies) q.room
  refine bind_ok (tileRows_run (r := atBody s t) h) ?_
  rfl

theorem moveFields_run {r : Running} (h : Clean r) (b : BitVec 6) (tagged : Bool) (H : Nat) (w : Word) (hw : w = r.t.ctx.xAt b)
    (ok : moveOk w tagged H = true) : moveFields b tagged H r = .ok (moveN w, moveRow0 w, moveTag w) r := by
  subst hw
  unfold moveFields
  refine bind_ok (rdX_clean h _) ?_
  refine check_ok ?_ rfl
  unfold moveOk moveN moveRow0 moveTag at ok
  simp only [Bool.and_eq_true, beq_iff_eq, bne_iff_ne, decide_eq_true_eq] at ok
  have ht : tagged = false → field 37 32 (r.t.ctx.xAt b).toNat = 0 := fun x => by simpa [x] using ok.1.1.2
  have hm : ¬ (H < field 7 0 (r.t.ctx.xAt b).toNat + field 24 16 (r.t.ctx.xAt b).toNat) := Nat.not_lt.mpr ok.2
  simpa [ok.1.1.1, ok.1.2, hm] using ht

theorem mldaV_done {s t} (q : VecQuiet s t) (k : BitVec 2) (a b : BitVec 6) (c : Bool) (h : t.hasTile k = true) (w : Word)
    (hw : w = t.ctx.xAt b) (ok : moveOk w false t.tileHeight = true) (hn : moveN w * 256 ≤ t.vlmax) :
    execMldaV k a b c s = .next (went s t t.ctx.next ((opened s t).queued (.load k.toNat (moveRow0 w)
      ((List.range (moveN w)).map fun i => (t.ctx.vAt a).extractLsb' (i * 8192) 8192)))) := by
  have hp := q.plain
  refine control_on (g := (0, [])) q.toReady (.inl rfl) rfl rfl (seq_ok ?_) (.same rfl rfl rfl q.replies) q.room
  refine bind_ok (tileRows_run (r := atBody s t) h) ?_
  refine bind_ok (moveFields_run (r := atBody s t) hp.toClean b false _ w hw ok) ?_
  refine bind_ok (r' := atBody s t) (a := ()) ?_ ?_
  · unfold vectorRows
    refine bind_ok (run_getT _) ?_
    exact check_ok (Nat.not_lt.mpr hn) rfl
  refine bind_ok (checkSrcs_plain hp _) ?_
  refine bind_ok (srcElems_plain hp _ _ _ _) ?_
  rfl

theorem mstaV_done {s t} (q : VecQuiet s t) (hq : t.tilesDone = true) (k : BitVec 2) (a b : BitVec 6) (h : t.hasTile k = true) (w : Word)
    (hw : w = t.ctx.xAt b) (ok : moveOk w false t.tileHeight = true) (hn : moveN w * 256 ≤ t.vlmax) :
    execMstaV k a b s = .next (wrote s t (t.ctx.putV a (fill (t.ctx.vAt a) 32 ((List.range (moveN w * 256)).map fun q =>
      (q, rowCode (t.row (k.toNat * t.tileHeight + moveRow0 w + q / 256)) (q % 256)))))) := by
  have hp := q.plain
  refine control_wrote q.toQuiet rfl rfl rfl (seq_ok ?_)
  refine bind_ok (observeTiles_run hq) ?_
  refine bind_ok (tileRows_run (r := atBody s t) h) ?_
  refine bind_ok (moveFields_run (r := atBody s t) hp.toClean b false _ w hw ok) ?_
  refine bind_ok (r' := atBody s t) (a := ()) ?_ ?_
  · unfold vectorRows
    refine bind_ok (run_getT _) ?_
    exact check_ok (Nat.not_lt.mpr hn) rfl
  refine bind_ok (dstV_plain hp _) ?_
  refine bind_ok (run_getT _) ?_
  have hno : ((List.range (moveN w)).find? fun i => (atBody s t).t.rowPoison k.toNat (moveRow0 w + i)) = none := by
    rw [List.find?_eq_none]
    intro i _
    simp [Thread.rowPoison, q.poison]
  rw [hno]
  exact wrElems_plain hp _ _ _

/-! ## The crew scratchpad -/

theorem checkScratch_run {r : Running} (off n : Nat) (h : r.t.scratchFits r.s off n) : checkScratch off n r = .ok () r := by
  unfold checkScratch
  refine bind_ok (run_get _) ?_
  have hno : ((List.range n).find? fun k => !r.s.scratchOk (crewOf (r.t.core.getD 0)) (off + k)) = none := by
    rw [List.find?_eq_none]
    intro k hk
    have := h k (List.mem_range.mp hk)
    simp only [Thread.coreNum] at this
    simp [this]
  rw [hno]
  rfl

theorem forIn_checks {α : Type} (l : List α) (f : α → Exec Unit) (r : Running) (h : ∀ x ∈ l, f x r = .ok () r) :
    (forIn l PUnit.unit (fun x _ => do
      f x
      pure (ForInStep.yield PUnit.unit)) : Exec PUnit) r = .ok PUnit.unit r := by
  induction l with
  | nil => rfl
  | cons x l ih =>
    rw [List.forIn_cons]
    refine bind_ok (bind_ok (h x (by simp)) (run_pure _ _)) ?_
    exact ih (fun y hy => h y (by simp [hy]))

theorem scratchRead_run {t : Thread} (hd : t.deferred = []) {s s' : State} {k k' : Chunk} {off n : Nat} {b : List Byte}
    (h : lookAt off (scratchLoc (crewOf t.coreNum) off) n s k = some (b, s', k')) (c : Ctx) (g : Group) :
    scratchRead off n (t.on s c k g) = .ok b (t.on s' c k' g) := by
  unfold scratchRead
  exact bind_ok (a := crewOf t.coreNum) (r' := t.on s c k g) rfl (look_run h hd c g)

theorem scratchAll_looked {t : Thread} (ps : List (Nat × Nat)) {s s' : State} {k k' : Chunk} {xs : List Nat}
    (h : t.scratchAll ps s k = some (xs, s', k')) : Looked s s' k k' := by
  induction ps generalizing s k xs with
  | nil =>
    simp only [Thread.scratchAll, Option.some.injEq, Prod.mk.injEq] at h
    obtain ⟨-, rfl, rfl⟩ := h
    exact .refl _ _
  | cons p ps ih =>
    obtain ⟨off, n⟩ := p
    simp only [Thread.scratchAll, Option.bind_eq_some_iff, Option.map_eq_some_iff] at h
    obtain ⟨⟨b1, s1, k1⟩, h1, ⟨bs, s2, k2⟩, h2, e⟩ := h
    simp only [Prod.mk.injEq] at e
    obtain ⟨-, rfl, rfl⟩ := e
    exact (look_looked h1).trans (ih h2)

theorem moveSpan_run {r : Running} (h : Clean r) (a : BitVec 6) (n : Nat) (w : Word) (hw : w = r.t.ctx.xAt a) (ok : spanOk w = true)
    (fits : ∀ i < n, r.t.scratchFits r.s (spanBase w + i * spanPitch w) 1024) :
    moveSpan a n r = .ok (spanBase w, spanPitch w) r := by
  subst hw
  simp only [spanOk, Bool.and_eq_true, beq_iff_eq] at ok
  unfold moveSpan
  refine bind_ok (rdX_clean h _) ?_
  refine bind_ok (a := (spanBase (r.t.ctx.xAt a), spanPitch (r.t.ctx.xAt a))) (r' := r) ?_ ?_
  · unfold spanFirst
    refine check_ok ?_ rfl
    simp [ok.1.1]
  refine bind_ok (a := ()) (r' := r) (check_ok (by simp [ok.1.2]) rfl) ?_
  refine bind_ok (a := ()) (r' := r) (check_ok (by simp [ok.2]) rfl) ?_
  refine bind_ok (forIn_checks _ _ r (fun i hi => checkScratch_run _ _ (fits i (List.mem_range.mp hi)))) rfl

theorem mldaS_done {s t} (q : Ready s t) (qc : Calm s t) (qf : Free s t) (k : BitVec 2) (a b : BitVec 6) (h : t.hasTile k = true) (w v : Word)
    (hw : w = t.ctx.xAt b) (ok : moveOk w false t.tileHeight = true) (hv : v = t.ctx.xAt a) (okv : spanOk v = true)
    (fits : ∀ i < moveN w, t.scratchFits s (spanBase v + i * spanPitch v) 1024) {xs : List Nat} {s' : State} {k' : Chunk}
    (hr : t.scratchAll ((List.range (moveN w)).map fun i => (spanBase v + i * spanPitch v, 1024)) s (opened s t) = some (xs, s', k'))
    (room : k'.counted.goesOn t.limit = true) :
    execMldaS k a b s = .next (went s' t t.ctx.next (k'.queued (.load k.toNat (moveRow0 w) (xs.map (BitVec.ofNat 8192 ·))))) := by
  refine control_on (g := (0, [])) q (.inl rfl) rfl rfl (seq_ok ?_) (qf.clear (scratchAll_looked _ hr).ticket qc.replies) room
  refine bind_ok (tileRows_run (r := atBody s t) h) ?_
  refine bind_ok (moveFields_run (r := atBody s t) qc.clean b false _ w hw ok) ?_
  refine bind_ok (moveSpan_run (r := atBody s t) qc.clean a _ v hv okv fits) ?_
  have hm : ((List.range (moveN w)).mapM (m := Exec) fun i => do
      return BitVec.ofNat 8192 (natOfBytes (← scratchRead (spanBase v + i * spanPitch v) 1024))) (t.on s t.ctx (opened s t)) =
      .ok (xs.map (BitVec.ofNat 8192 ·)) (t.on s' t.ctx k') := by
    have key : ∀ (l : List Nat) (s : State) (k : Chunk) (xs : List Nat),
        t.scratchAll (l.map fun i => (spanBase v + i * spanPitch v, 1024)) s k = some (xs, s', k') →
        (l.mapM (m := Exec) fun i => do
          return BitVec.ofNat 8192 (natOfBytes (← scratchRead (spanBase v + i * spanPitch v) 1024))) (t.on s t.ctx k) =
          .ok (xs.map (BitVec.ofNat 8192 ·)) (t.on s' t.ctx k') := by
      intro l
      induction l with
      | nil =>
        intro s k xs h
        simp only [List.map_nil, Thread.scratchAll, Option.some.injEq, Prod.mk.injEq] at h
        obtain ⟨rfl, rfl, rfl⟩ := h
        rfl
      | cons i l ih =>
        intro s k xs h
        simp only [List.map_cons, Thread.scratchAll, Option.bind_eq_some_iff, Option.map_eq_some_iff] at h
        obtain ⟨⟨b1, s1, k1⟩, h1, ⟨bs, s2, k2⟩, h2, e⟩ := h
        simp only [Prod.mk.injEq] at e
        obtain ⟨rfl, rfl, rfl⟩ := e
        rw [List.mapM_cons]
        refine bind_ok (r' := t.on s1 t.ctx k1) (a := BitVec.ofNat 8192 (natOfBytes b1)) ?_ (bind_ok (ih _ _ _ h2) rfl)
        refine bind_ok (a := b1) (r' := t.on s1 t.ctx k1) ?_ rfl
        exact scratchRead_run qc.deferred h1 t.ctx _
    exact key _ _ _ _ hr
  refine bind_ok hm ?_
  rfl

theorem mstaS_done {s t} (q : Ready s t) (qc : Calm s t) (k : BitVec 2) (a b : BitVec 6) (h : t.hasTile k = true) (w v : Word)
    (hw : w = t.ctx.xAt b) (ok : moveOk w true t.tileHeight = true) (hv : v = t.ctx.xAt a) (okv : spanOk v = true)
    (fits : ∀ i < moveN w, t.scratchFits s (spanBase v + i * spanPitch v) 1024) (apart : moveN w ≤ 1 ∨ 1024 ≤ spanPitch v)
    (room : (opened s t).counted.goesOn t.limit = true) :
    execMstaS k a b s = .next (went { s with nextId := s.nextId + 1 } (t.tagged (moveTag w)) t.ctx.next
      (((opened s t).issued (moveTag w)).queued (.drain k.toNat (moveRow0 w) (moveN w)
        { id := s.nextId, tid := t.tid, parcel := t.parcel, crew := crewOf t.coreNum, base := spanBase v, pitch := spanPitch v,
          tag := moveTag w, rows := [], done := [] }))) := by
  refine control_with (g := (0, [])) (u := t.tagged (moveTag w)) q (.inl rfl) rfl rfl (seq_ok ?_) (.same rfl rfl rfl qc.replies) room
  refine bind_ok (tileRows_run (r := atBody s t) h) ?_
  refine bind_ok (moveFields_run (r := atBody s t) qc.clean b true _ w hw ok) ?_
  refine bind_ok (moveSpan_run (r := atBody s t) qc.clean a _ v hv okv fits) ?_
  refine check_ok ?_ rfl
  rcases apart with h | h
  · simp [Nat.not_lt.mpr h]
  · simp [Nat.not_lt.mpr h]

/-! ## mop and mprune -/

theorem argCodes_looked {t : Thread} {arg : MopArg} {w n : Nat} {s s' : State} {k k' : Chunk} {xs : List Nat}
    (h : t.argCodes arg w n s k = some (xs, s', k')) : Looked s s' k k' := by
  cases arg with
  | v r =>
    simp only [Thread.argCodes, Option.some.injEq, Prod.mk.injEq] at h
    obtain ⟨-, rfl, rfl⟩ := h
    exact .refl _ _
  | s r =>
    simp only [Thread.argCodes, Option.map_eq_some_iff] at h
    obtain ⟨⟨ys, s1, k1⟩, h1, e⟩ := h
    simp only [Prod.mk.injEq] at e
    obtain ⟨-, rfl, rfl⟩ := e
    exact scratchAll_looked _ h1

theorem spanFirst_run {w : Word} (r : Running) (ok : field 63 56 w.toNat == 0 && field 31 23 w.toNat == 0) :
    spanFirst w r = .ok (spanBase w, spanPitch w) r := by
  simp only [Bool.and_eq_true, beq_iff_eq] at ok
  unfold spanFirst
  refine check_ok ?_ rfl
  simp [ok.1, ok.2]

theorem readSpan_run {r : Running} (h : Clean r) (k : BitVec 6) (ok : r.t.ctx.spanTaken k = true) :
    readSpan k r = .ok (r.t.ctx.spanOf k) r := by
  unfold Ctx.spanTaken spanOk at ok
  simp only [Bool.and_eq_true, beq_iff_eq, decide_eq_true_eq] at ok
  unfold readSpan
  refine bind_ok (rdX_clean h _) ?_
  refine bind_ok (rdX_clean h _) ?_
  refine bind_ok (spanFirst_run r (by simp [ok.1.1.1.1.1])) ?_
  refine check_ok ?_ ?_
  · intro hx
    rcases Bool.or_eq_true _ _ ▸ hx with hx | hx
    · exact (of_decide_eq_true hx) ok.1.1.2
    · exact Nat.not_lt.mpr ok.1.2 (of_decide_eq_true hx)
  refine bind_ok (a := ()) (r' := r) (check_ok (fun x => x ok.1.1.1.1.2) rfl) ?_
  refine bind_ok (a := ()) (r' := r) (check_ok (fun x => x ok.1.1.1.2) rfl) ?_
  exact bind_ok (a := ()) (r' := r) (check_ok (fun x => x ok.2) rfl) rfl

theorem argSpan_run {r : Running} (h : Clean r) {arg : MopArg} {w n : Nat} (ok : r.t.argTaken r.s arg w n) :
    argSpan arg r = .ok (r.t.ctx.spanIn arg) r := by
  cases arg with
  | v k => rfl
  | s k => exact bind_ok (readSpan_run h k ok.1) rfl

theorem capacity_run {r : Running} {arg : MopArg} {w n : Nat} (ok : r.t.argTaken r.s arg w n) :
    checkCapacity arg w n r = .ok () r := by
  cases arg with
  | v k => exact bind_ok (run_getT _) (check_ok (Nat.not_lt.mpr ok) rfl)
  | s k => rfl

theorem checkSpan_run {r : Running} {k : BitVec 6} {w n : Nat} (ok : r.t.argTaken r.s (.s k) w n) :
    checkSpan (r.t.ctx.spanOf k) w n r = .ok () r := by
  unfold checkSpan
  refine bind_ok (forIn_checks _ _ r (fun q hq => ?_)) rfl
  exact checkScratch_run _ _ (ok.2 q (List.mem_range.mp hq))

theorem maybeSpan_run {r : Running} {arg : MopArg} {w n : Nat} (ok : r.t.argTaken r.s arg w n) :
    (match r.t.ctx.spanIn arg with
      | some d => checkSpan d w n
      | none => pure () : Exec Unit) r = .ok () r := by
  cases arg with
  | v k => rfl
  | s k => exact checkSpan_run ok

theorem mapM_codes {t : Thread} (hd : t.deferred = []) (d : Span) (w : Nat) (l : List Nat) {s s' : State} {k k' : Chunk} {xs : List Nat} (c : Ctx) (g : Group)
    (h : t.scratchAll (l.map fun q => ((d.place w q).1, spanBytes w (d.place w q).2)) s k = some (xs, s', k')) :
    (l.mapM (m := Exec) fun q => do
      let p := d.place w q
      return natOfBytes (← scratchRead p.1 (spanBytes w p.2)) / 2 ^ p.2 % 2 ^ w) (t.on s c k g) =
      .ok ((l.zip xs).map fun e => e.2 / 2 ^ (d.place w e.1).2 % 2 ^ w) (t.on s' c k' g) := by
  induction l generalizing s k xs with
  | nil =>
    simp only [List.map_nil, Thread.scratchAll, Option.some.injEq, Prod.mk.injEq] at h
    obtain ⟨rfl, rfl, rfl⟩ := h
    rfl
  | cons i l ih =>
    simp only [List.map_cons, Thread.scratchAll, Option.bind_eq_some_iff, Option.map_eq_some_iff] at h
    obtain ⟨⟨b1, s1, k1⟩, h1, ⟨bs, s2, k2⟩, h2, e⟩ := h
    simp only [Prod.mk.injEq] at e
    obtain ⟨rfl, rfl, rfl⟩ := e
    rw [List.mapM_cons]
    refine bind_ok (r' := t.on s1 c k1 g) (a := natOfBytes b1 / 2 ^ (d.place w i).2 % 2 ^ w) ?_ (bind_ok (ih h2) rfl)
    exact bind_ok (a := b1) (r' := t.on s1 c k1 g) (scratchRead_run hd h1 c g) rfl

theorem operandScales_run {r : Running} (h : Plain r) (arg : MopArg) (w n : Nat) :
    ∃ f, operandScales arg w n r = .ok f r ∧ f = r.t.argScale arg w := by
  cases arg with
  | s k => exact ⟨_, rfl, rfl⟩
  | v k =>
    by_cases hk : modeScale r.t.ctx.mode = 0
    · refine ⟨fun _ => none, ?_, ?_⟩
      · refine bind_ok (a := none) (r' := r) ?_ rfl
        simp only [scaleReg, run_bind, run_getC, run_ite, if_pos hk, run_pure]
      · funext q
        simp [Thread.argScale, hk]
    · refine ⟨fun q => some (r.t.scaleByte r.t.ctx.scales (r.t.ctx.phys k.toNat) w q), ?_, ?_⟩
      · refine bind_ok (scaleReg_plain h hk) ?_
        refine bind_ok (run_getT _) ?_
        exact bind_ok (checkPoisonV_clean h.toClean _ _ _) rfl
      · funext q
        simp [Thread.argScale, hk, Thread.scaleOf]

theorem argScale_on (t : Thread) (k : Chunk) (arg : MopArg) (w : Nat) :
    Thread.argScale { t with chunk := some k } arg w = t.argScale arg w := rfl

theorem readOperand_run {t : Thread} {s s' : State} {k k' : Chunk} {arg : MopArg} {ty : TypeCode} {w n : Nat} {xs : List Nat}
    (hd : t.deferred = []) (h : Plain (t.on s t.ctx k)) (hx : t.argCodes arg w n s k = some (xs, s', k')) (hn : xs.length = n) (pop : Nat) :
    readOperand arg (t.ctx.spanIn arg) ty w n pop (t.on s t.ctx k) =
      .ok (t.argValues arg ty w xs) (t.on s' t.ctx k') := by
  obtain ⟨f, h1, h2⟩ := operandScales_run h arg w n
  have h2 : f = t.argScale arg w := h2
  subst h2
  unfold readOperand
  refine bind_ok (run_getC _) ?_
  refine bind_ok h1 ?_
  subst hn
  cases arg with
  | v r =>
    simp only [Thread.argCodes, Option.some.injEq, Prod.mk.injEq] at hx
    obtain ⟨e, rfl, rfl⟩ := hx
    refine bind_ok (srcElems_plain h _ _ _ _) ?_
    refine bind_ok (a := xs) (r' := t.on s t.ctx k) ?_ rfl
    exact congrArg (fun ys => EStateM.Result.ok ys (t.on s t.ctx k)) e
  | s r =>
    simp only [Thread.argCodes, Option.map_eq_some_iff] at hx
    obtain ⟨⟨ys, s1, k1⟩, h3, e⟩ := hx
    simp only [Prod.mk.injEq] at e
    obtain ⟨e, rfl, rfl⟩ := e
    refine bind_ok (a := xs) (r' := t.on s1 t.ctx k1) ?_ rfl
    refine (mapM_codes hd (t.ctx.spanOf r) w _ t.ctx _ h3).trans ?_
    exact congrArg (fun ys => EStateM.Result.ok ys (t.on s1 t.ctx k1)) e

theorem scratchAll_length {t : Thread} (ps : List (Nat × Nat)) {s s' : State} {k k' : Chunk} {xs : List Nat}
    (h : t.scratchAll ps s k = some (xs, s', k')) : xs.length = ps.length := by
  induction ps generalizing s k xs with
  | nil =>
    simp only [Thread.scratchAll, Option.some.injEq, Prod.mk.injEq] at h
    rw [← h.1]; rfl
  | cons p ps ih =>
    obtain ⟨off, n⟩ := p
    simp only [Thread.scratchAll, Option.bind_eq_some_iff, Option.map_eq_some_iff] at h
    obtain ⟨⟨b1, s1, k1⟩, h1, ⟨bs, s2, k2⟩, h2, e⟩ := h
    simp only [Prod.mk.injEq] at e
    obtain ⟨rfl, rfl, rfl⟩ := e
    rw [List.length_cons, List.length_cons, ih h2]

theorem argCodes_length {t : Thread} {arg : MopArg} {w n : Nat} {s s' : State} {k k' : Chunk} {xs : List Nat}
    (h : t.argCodes arg w n s k = some (xs, s', k')) : xs.length = n := by
  cases arg with
  | v r =>
    simp only [Thread.argCodes, Option.some.injEq, Prod.mk.injEq] at h
    rw [← h.1]; simp
  | s r =>
    simp only [Thread.argCodes, Option.map_eq_some_iff] at h
    obtain ⟨⟨ys, s1, k1⟩, h1, e⟩ := h
    simp only [Prod.mk.injEq] at e
    rw [← e.1, List.length_map, List.length_zip, scratchAll_length _ h1]; simp

theorem group_ok {α : Type} {pm : BitVec 4} {o : Option Nat} {e : Nat → Exec Unit} {f : Unit → Exec α} {r : Running}
    {x : EStateM.Result Halt Running α} (ho : pm = 0 ∨ o = none) (h : f () r = x) :
    (if pm ≠ 0 then (match (generalizing := false) o with | some k => e k >>= f | none => f ()) else f ()) r = x := by
  split
  · rename_i hz
    rw [ho.resolve_left hz]; exact h
  · exact h

theorem mop_done {s t} (q : Ready s t) (qc : Calm s t) (qf : Free s t) (pm : BitVec 4) (k : BitVec 2) (a b : MopArg) (m : MopType) (na nb : Nat)
    (h : t.mopReady s pm k a b m na nb) {xs ys : List Nat} {s1 s2 : State} {k1 k2 : Chunk}
    (ha : t.argCodes a (typeWidth t.ctx.fmt m.ta) na s (opened s t) = some (xs, s1, k1))
    (hb : t.argCodes b (typeWidth t.ctx.fmt m.tb) nb s1 k1 = some (ys, s2, k2)) (room : k2.counted.goesOn t.limit = true) :
    mopInto pm k a b s = .next (went s2 t t.ctx.next (k2.queued (.mop k.toNat m.g (t.argValues a m.ta (typeWidth t.ctx.fmt m.ta) xs)
      (t.argValues b m.tb (typeWidth t.ctx.fmt m.tb) ys) (if pm = 0 then none else some (t.ctx.pAt pm.toNat)) m.kind))) := by
  have hp : Plain (atBody s t) := ⟨qc.clean, h.streams, rfl⟩
  have hp1 : Plain (t.on s1 t.ctx k1) := ⟨qc.looked (argCodes_looked ha) _, h.streams, rfl⟩
  have e1 : (if pm = 0 then t.tileHeight * m.g else t.tileHeight * m.g / 2) = na := h.rows.symm
  have e2 : m.g * 256 = nb := h.cols.symm
  have hne : ∀ {x : Prop}, (pm = 0 ∨ x) → (pm ≠ 0 → x) := fun o n => o.resolve_left n
  refine control_on (g := (0, [])) q (.inl rfl) rfl rfl (seq_ok ?_)
    (qf.clear ((argCodes_looked ha).trans (argCodes_looked hb)).ticket qc.replies) room
  refine bind_ok (run_getC _) ?_
  have ht : mopType (atBody s t).t.ctx.mode (atBody s t).t.ctx.mmode = some m := h.type
  rw [ht]
  refine bind_ok (a := ()) (r' := atBody s t) ?_ ?_
  · unfold needMode
    refine check_ok ?_ rfl
    have hs := h.scale
    change ¬ (!(!(modeScale t.ctx.mode != 0) || (m.ta != 8 && m.ta != 9 && a.bothV b))) = true
    rcases hs with hs | ⟨hs1, hs2, hs3⟩
    · simp [hs]
    · rw [hs3]
      have h1 : (m.ta != 8) = true := by simpa using hs1
      have h2 : (m.ta != 9) = true := by simpa using hs2
      rw [h1, h2]
      simp
  refine check_ok (fun hx => ?_) ?_
  · simp only [Bool.and_eq_true, decide_eq_true_eq, ne_eq, not_false_eq_true] at hx
    rcases h.group with hg | hg
    · exact hx.1 hg
    · exact hg hx.2
  refine bind_ok (tileRows_run (r := atBody s t) h.tile) ?_
  have e1' : (if pm = 0 then (atBody s t).t.tileHeight * m.g else (atBody s t).t.tileHeight * m.g / 2) = na := e1
  rw [e1', e2]
  refine bind_ok (capacity_run (r := atBody s t) h.first) ?_
  refine bind_ok (capacity_run (r := atBody s t) h.second) ?_
  refine bind_ok (run_getT _) ?_
  refine check_ok (fun hx => ?_) ?_
  · rw [Bool.and_eq_true] at hx
    rcases h.bits with hg | hg
    · exact of_decide_eq_true hx.1 hg
    · exact Nat.not_lt.mpr hg (of_decide_eq_true hx.2)
  refine bind_ok (argSpan_run (r := atBody s t) qc.clean h.first) ?_
  refine bind_ok (maybeSpan_run (r := atBody s t) h.first) ?_
  refine bind_ok (argSpan_run (r := atBody s t) qc.clean h.second) ?_
  refine bind_ok (maybeSpan_run (r := atBody s t) h.second) ?_
  refine bind_ok (rdP_clean (r := atBody s t) qc.clean _) ?_
  refine group_ok h.groups ?_
  refine bind_ok (checkSrcs_plain hp _) ?_
  refine bind_ok (readOperand_run (t := t) (s := s) (k := opened s t) qc.deferred hp ha (argCodes_length ha) _) ?_
  refine bind_ok (readOperand_run (t := t) (ty := m.tb) qc.deferred hp1 hb (argCodes_length hb) _) ?_
  rfl

theorem wrP_plain {r : Running} (h : r.t.poison = []) (k : Nat) (v : PReg) :
    wrP k v r = .ok () { r with t := { r.t with ctx := r.t.ctx.setP k v } } := by
  simp [wrP, h]

theorem mprune_done {s t} (q : VecQuiet s t) (d a b : BitVec 6) (c : Bool) (g : modeGuard t.ctx.mode = 0) (hw : t.ctx.sw ≤ 32)
    (hk : modeScale t.ctx.mode = 0) (h8 : t.ctx.vl % 8 = 0) (hv : t.vlFits t.ctx.sw = true) (val : Nat → Val)
    (hval : val = fun i => operandValue t.ctx.fmt (modeStype t.ctx.mode) t.ctx.sw (getElem (t.ctx.vAt a) i t.ctx.sw) none)
    (kept : List Nat) (hkept : kept = (List.range (t.ctx.vl / 8)).flatMap fun g => keepFour val (8 * g)) :
    execMprune d a b c s = .next (wrote s t ((t.ctx.putV d (fill (t.ctx.vAt d) t.ctx.sw
      ((List.range kept.length).zip (kept.map fun i => getElem (t.ctx.vAt a) i t.ctx.sw)))).putPred b kept)) := by
  have hp := q.plain
  subst hkept
  subst hval
  refine control_wrote q.toQuiet rfl rfl rfl (seq_ok ?_)
  refine bind_ok (run_getC _) ?_
  refine bind_ok (a := ()) (r' := atBody s t) ?_ ?_
  · unfold needMode
    refine check_ok ?_ rfl
    change ¬ (!(modeGuard t.ctx.mode == 0 && decide (t.ctx.sw ≤ 32) && modeScale t.ctx.mode == 0)) = true
    simp [g, hw, hk]
  refine check_ok (fun hx => hx h8) ?_
  refine bind_ok (checkVl_run (r := atBody s t) _ hv) ?_
  refine bind_ok (dstV_plain hp _) ?_
  refine bind_ok (checkSrcs_plain hp _) ?_
  refine bind_ok (srcElems_plain hp _ _ _ _) ?_
  refine bind_ok (wrElems_plain hp _ _ _) ?_
  exact wrP_plain q.poison _ _

end Sys2Proof.Machine
end

