-- ==== Sys2Proof/Laws/Records.lean ====
section
/-! SUPPORT. Readers: the parts of meanings that read records, plats, tables, stands and barriers change nothing that reads do
not change (08, 10, 12, 17). -/

set_option linter.unusedSimpArgs false
set_option Elab.async false

namespace Sys2Proof.Machine

/-- A part of a meaning that only reads: where it answers, no more has changed than reads change. -/
def Reader {α : Type} (m : Exec α) : Prop :=
  ∀ (t : Thread) (s : State) (c : Ctx) (k : Chunk) (a : α) (r : Running), m (t.on s c k) = .ok a r →
    ∃ s' k', r = t.on s' c k' ∧ Looked s s' k k'

theorem reader_pure {α : Type} (a : α) : Reader (pure a : Exec α) := by
  intro t s c k b r h
  simp only [run_pure, EStateM.Result.ok.injEq] at h
  exact ⟨s, k, h.2.symm, .refl _ _⟩

theorem reader_halt {α : Type} (x : Halt) : Reader (throw x : Exec α) := by
  intro t s c k b r h
  cases h

theorem reader_trap {α : Type} (n : Nat) (v : Word) : Reader (trap n v : Exec α) := reader_halt _
theorem reader_trapOf {α : Type} (f : Trap) : Reader (trapOf f : Exec α) := reader_halt _

theorem reader_bind {α β : Type} {m : Exec α} {f : α → Exec β} (hm : Reader m) (hf : ∀ a, Reader (f a)) : Reader (m >>= f) := by
  intro t s c k b r h
  rw [run_bind] at h
  cases e : m (t.on s c k) with
  | error x y => rw [e] at h; cases h
  | ok a r1 =>
    rw [e] at h
    obtain ⟨s1, k1, rfl, l1⟩ := hm t s c k a r1 e
    obtain ⟨s2, k2, e2, l2⟩ := hf a t s1 c k1 b r h
    exact ⟨s2, k2, e2, l1.trans l2⟩

theorem reader_map {α β : Type} {f : α → β} {m : Exec α} (hm : Reader m) : Reader (f <$> m) := by
  intro t s c k b r h
  rw [run_map] at h
  cases e : m (t.on s c k) with
  | error x y => rw [e] at h; cases h
  | ok a r1 =>
    rw [e] at h
    simp only [EStateM.Result.ok.injEq] at h
    obtain ⟨s1, k1, rfl, l1⟩ := hm t s c k a r1 e
    exact ⟨s1, k1, h.2.symm, l1⟩

theorem reader_ite {α : Type} {p : Prop} [Decidable p] {m n : Exec α} (hm : Reader m) (hn : Reader n) :
    Reader (if p then m else n) := by
  split <;> assumption

/-- A check that does not pass ends the meaning, whatever would follow. -/
theorem reader_stop {α β : Type} (x : Halt) {f : α → Exec β} : Reader ((throw x : Exec α) >>= f) := by
  intro t s c k a r h
  cases h

theorem reader_getT : Reader getT := by
  intro t s c k b r h
  simp only [run_getT, EStateM.Result.ok.injEq] at h
  exact ⟨s, k, h.2.symm, .refl _ _⟩

theorem reader_getC : Reader getC := by
  intro t s c k b r h
  simp only [run_getC, EStateM.Result.ok.injEq] at h
  exact ⟨s, k, h.2.symm, .refl _ _⟩

theorem reader_getS : Reader getS := by
  intro t s c k b r h
  simp only [run_getS, EStateM.Result.ok.injEq] at h
  exact ⟨s, k, h.2.symm, .refl _ _⟩

theorem reader_get : Reader (get : Exec Running) := by
  intro t s c k b r h
  simp only [run_get, EStateM.Result.ok.injEq] at h
  exact ⟨s, k, h.2.symm, .refl _ _⟩

theorem reader_modS {f : State → State} (hf : ∀ s k, Looked s (f s) k k) : Reader (modS f) := by
  intro t s c k b r h
  simp only [run_modS, EStateM.Result.ok.injEq] at h
  exact ⟨f s, k, h.2.symm, hf s k⟩

theorem reader_modChunk {f : Chunk → Chunk} (hf : ∀ k, f k = { k with pages := (f k).pages, reads := (f k).reads }) :
    Reader (modChunk f) := by
  intro t s c k b r h
  simp only [run_modChunk, EStateM.Result.ok.injEq] at h
  exact ⟨s, f k, h.2.symm, .of rfl (hf k)⟩

theorem reader_foldlM {α β : Type} {f : β → α → Exec β} (hf : ∀ b a, Reader (f b a)) (l : List α) (b : β) :
    Reader (l.foldlM f b) := by
  induction l generalizing b with
  | nil => exact reader_pure b
  | cons x l ih => exact reader_bind (hf b x) fun b => ih b

theorem reader_mapM {α β : Type} {f : α → Exec β} (hf : ∀ a, Reader (f a)) (l : List α) : Reader (l.mapM f) := by
  induction l with
  | nil => exact reader_pure _
  | cons x l ih =>
    rw [List.mapM_cons]
    exact reader_bind (hf x) fun _ => reader_bind ih fun _ => reader_pure _

theorem reader_each {α : Type} {f : α → Exec Unit} (hf : ∀ a, Reader (f a)) (l : List α) :
    Reader (forIn l PUnit.unit (fun x _ => do
      f x
      Pure.pure (ForInStep.yield PUnit.unit)) : Exec PUnit) := by
  induction l with
  | nil => exact reader_pure _
  | cons x l ih =>
    rw [List.forIn_cons]
    exact reader_bind (reader_bind (hf x) fun _ => reader_pure _) fun a => by
      intro t s c k b r h
      cases a with
      | done b => exact reader_pure _ t s c k _ r h
      | yield b => exact ih t s c k _ r h

theorem reader_xlateAt (p : Bool) (need : Need) (va : Nat) : Reader (xlateAt p need va) := by
  unfold xlateAt
  refine reader_bind reader_get fun r => ?_
  split
  · refine reader_bind (reader_modS fun s k => ?_) fun _ => reader_trapOf _
    unfold State.missed
    split <;> exact .of rfl rfl
  · refine reader_bind (reader_modS fun s k => keepEntry_looked s _ _ _ k) fun _ => ?_
    refine reader_bind (reader_modChunk fun k => ?_) fun _ => reader_pure _
    split <;> rfl

theorem reader_xlate (need : Need) (va : Nat) : Reader (xlate need va) :=
  reader_bind reader_getC fun _ => reader_xlateAt _ _ _

theorem reader_placeFor (e : Bool) (a : Access) : Reader (placeFor e a) := by
  unfold placeFor
  refine reader_bind reader_get fun r => ?_
  have h2 : Reader (match r.s.placeOf (if e = true then none else some (r.t.core.getD 0)) (crewOf (r.t.core.getD 0)) r.t.parcel a
      with
      | .error f => trapOf f
      | .ok p => Pure.pure p : Exec Place) := by
    split
    · exact reader_trapOf _
    · exact reader_pure _
  exact reader_ite (reader_stop _) h2

theorem reader_placeA (a : Access) : Reader (placeA a) := reader_placeFor false a

theorem reader_afterLate (ls : List Nat) : Reader (afterLate ls) :=
  reader_bind reader_getT fun _ => reader_ite (reader_halt _) (reader_pure _)

theorem reader_readLoc (va l n : Nat) : Reader (readLoc va l n) := by
  have dead : Reader (modS fun s => s.countDead l) := reader_modS fun s k => countDead_looked s l k
  have rest : Reader (do
      modS fun s => s.countDead l
      modChunk fun c => { c with reads := (linesFrom l n).foldl (fun m l => mput l m) c.reads }
      let r ← MonadState.get
      let stores := match r.t.chunk with | some c => c.stores | none => []
      return (List.range n).map fun i => overlay stores (l + i) (r.s.byteAt (l + i)) : Exec (List Byte)) :=
    reader_bind dead fun _ => reader_bind (reader_modChunk fun k => rfl) fun _ => reader_bind reader_get fun r => reader_pure _
  have tail : Reader (if viewBase ≤ l then (do
        for x in linesFrom l n do modS fun s => s.fillCopy (viewDie l) (x * 128 % viewBase / 128)
        modS fun s => s.countDead l
        modChunk fun c => { c with reads := (linesFrom l n).foldl (fun m l => mput l m) c.reads }
        let r ← MonadState.get
        let stores := match r.t.chunk with | some c => c.stores | none => []
        return (List.range n).map fun i => overlay stores (l + i) (r.s.byteAt (l + i)) : Exec (List Byte))
      else (do
        modS fun s => s.countDead l
        modChunk fun c => { c with reads := (linesFrom l n).foldl (fun m l => mput l m) c.reads }
        let r ← MonadState.get
        let stores := match r.t.chunk with | some c => c.stores | none => []
        return (List.range n).map fun i => overlay stores (l + i) (r.s.byteAt (l + i)) : Exec (List Byte))) :=
    reader_ite (reader_bind (reader_each (fun x => reader_modS fun s k => fillCopy_looked s _ _ k) _) fun _ => rest) rest
  unfold readLoc
  refine reader_bind (reader_afterLate _) fun _ => reader_bind reader_get fun r => ?_
  cases r.s.poisonTrap va l n with
  | none => exact tail
  | some f => exact reader_ite (reader_stop _) tail

theorem reader_readPages (fuel va n : Nat) : Reader (readPages fuel va n) := by
  induction fuel generalizing va n with
  | zero => exact reader_pure _
  | succ fuel ih =>
    unfold readPages
    refine reader_ite (reader_pure _) ?_
    refine reader_bind (reader_xlate _ _) fun a => reader_bind (reader_placeFor _ _) fun p => ?_
    split
    · exact reader_bind (reader_readLoc _ _ _) fun b => reader_bind (ih _ _) fun _ => reader_pure _
    · exact reader_trap _ _

theorem reader_readRec (va n : Nat) : Reader (readRec va n) := reader_bind (reader_readPages _ _ _) fun _ => reader_pure _

theorem reader_recPlace (need : Need) (va : Nat) : Reader (recPlace need va) := by
  unfold recPlace
  refine reader_bind (reader_xlate _ _) fun a => reader_bind (reader_placeA _) fun p => ?_
  split
  · exact reader_pure _
  · exact reader_trap _ _

theorem reader_readPlat (va : Word) : Reader (readPlat va) := by
  unfold readPlat
  refine reader_bind (reader_readRec _ _) fun o => reader_bind reader_getC fun c => ?_
  dsimp only
  split
  · exact reader_trap _ _
  · exact reader_pure _

theorem reader_readLocal (dest : Bool) (va : Word) : Reader (readLocal dest va) := by
  unfold readLocal
  refine reader_bind (reader_readPlat _) fun p => ?_
  refine reader_ite (reader_pure _) (reader_ite (reader_pure _) ?_)
  refine reader_bind (reader_readRec _ _) fun o => ?_
  dsimp only
  split
  · exact reader_bind (reader_trap _ _) fun _ => reader_pure _
  · exact reader_pure _

theorem reader_barPlace (need : Need) (va : Word) : Reader (barPlace need va) := by
  have tail : ∀ a : Access, Reader (do
      let r ← MonadState.get
      let core := r.t.core.getD 0
      if (decide (2 ≤ a.cls) || a.window == .host || (decide (a.cls = 1) && r.s.inRegion (dieOf core) r.t.parcel a.va)) = true then
        trap 5 va
      match r.s.placeOf (some core) (crewOf core) r.t.parcel a with
      | .ok (.loc l) => return l
      | _ => trap 5 va : Exec Nat) := by
    intro a
    refine reader_bind reader_get fun r => ?_
    have h2 : Reader (match r.s.placeOf (some (r.t.core.getD 0)) (crewOf (r.t.core.getD 0)) r.t.parcel a with
        | .ok (.loc l) => Pure.pure l
        | _ => trap 5 va : Exec Nat) := by
      split
      · exact reader_pure _
      · exact reader_trap _ _
    dsimp only
    split
    · exact reader_bind (reader_trap _ _) fun _ => h2
    · exact h2
  unfold barPlace
  split
  · exact reader_bind (reader_trap _ _) fun _ => reader_bind (reader_xlate _ _) tail
  · exact reader_bind (reader_xlate _ _) tail

theorem reader_readBar (va : Word) (l : Nat) : Reader (readBar va l) :=
  reader_bind (reader_readLoc _ _ _) fun _ => reader_ite (reader_stop _) (reader_pure _)

theorem reader_readStands (base count n : Nat) : Reader (readStands base count n) := by
  refine reader_foldlM (fun acc j => ?_) _ _
  refine reader_bind (reader_readRec _ _) fun e => ?_
  dsimp only
  split
  · exact reader_trap _ _
  · have h2 : ∀ b, Reader (match standMembers count e b with
        | none => trap 15 (BitVec.ofNat 64 j)
        | some ms => if fifth acc ms = true then trap 15 (BitVec.ofNat 64 j) else Pure.pure (acc ++ [ms]) :
          Exec (List Marks)) := by
      intro b
      split
      · exact reader_trap _ _
      · exact reader_ite (reader_trap _ _) (reader_pure _)
    split
    · exact reader_bind (reader_pure _) h2
    · exact reader_bind (reader_readRec _ _) h2

theorem reader_readMesh (dest : Bool) (va : Word) : Reader (readMesh dest va) := by
  unfold readMesh
  refine reader_bind (reader_readPlat _) fun p => reader_ite (reader_pure _) ?_
  refine reader_bind (reader_foldlM (fun acc r => reader_bind (reader_readRec _ _) fun _ => reader_pure _) _ _) fun q => ?_
  split
  split
  · exact reader_trap _ _
  · exact reader_pure _

theorem reader_deriveTraverse (a b : Word) : Reader (deriveTraverse a b) := by
  unfold deriveTraverse
  refine reader_bind (reader_readMesh _ _) fun x => reader_bind (reader_readMesh _ _) fun y => ?_
  refine reader_ite (reader_stop _) (reader_ite (reader_stop _) ?_)
  refine reader_bind reader_getS fun _ => ?_
  refine reader_ite (reader_stop _) (reader_ite (reader_stop _) (reader_ite (reader_stop _) (reader_ite (reader_stop _) ?_)))
  dsimp only
  split
  · exact reader_ite (reader_stop _) (reader_ite (reader_stop _) (reader_pure _))
  · exact reader_ite (reader_stop _) (reader_pure _)

/-- What a reader's answer leaves. -/
theorem read_looked {α : Type} {t : Thread} {m : Exec α} (hm : Reader m) {s s' : State} {k k' : Chunk} {a : α}
    (h : t.reads m s k a s' k') : Looked s s' k k' := by
  obtain ⟨s1, k1, e, l⟩ := hm _ _ _ _ _ _ h
  simp only [Thread.on, Running.mk.injEq, Thread.mk.injEq, Option.some.injEq, true_and, and_true] at e
  obtain ⟨rfl, rfl⟩ := e
  exact l

end Sys2Proof.Machine
end

