-- ==== Sys2Proof/Laws/Copies.lean ====
section
/-! SUPPORT. What the instructions of copies, streams, tags and transaction barriers do (10). -/

set_option linter.unusedSimpArgs false
set_option Elab.async false

namespace Sys2Proof.Machine

theorem takeTag_run (u : Thread) (s : State) (c : Ctx) (k : Chunk) (g : Group) (tag : Nat) :
    takeTag tag (u.on s c k g) = .ok () ((u.tagged tag).on s c (k.issued tag) g) := rfl

theorem or_no {a b : Bool} (ha : ¬ a = true) (hb : ¬ b = true) : ¬ (a || b) = true := by
  rw [Bool.or_eq_true]; exact fun h => h.elim ha hb

theorem dec_no {p : Prop} [Decidable p] (h : ¬ p) : ¬ decide p = true := fun x => h (of_decide_eq_true x)

theorem guard_no {cast : Bool} {p : Prop} [Decidable p] (h : cast = true ∨ ¬ p) : ¬ (!cast && decide p) = true := by
  rw [Bool.and_eq_true, Bool.not_eq_true']
  rintro ⟨h1, h2⟩
  rcases h with h | h
  · rw [h] at h1; cases h1
  · exact h (of_decide_eq_true h2)

theorem corners_run {r : Running} {va : Word} {sc : Bool} {l : Layout} {lo hi : List Nat} (h : cornersFit sc l lo hi) :
    checkCorners va l lo hi r = .ok () r := by
  unfold checkCorners
  exact check_ok (or_no (by rw [h.1]; simp) (by rw [h.2.1]; simp)) rfl

theorem offsets_run {r : Running} {sc : Bool} {l : Layout} {lo hi : List Nat} (h : cornersFit sc l lo hi) :
    checkOffsets sc l lo hi r = .ok () r := by
  unfold checkOffsets
  cases hs : sc with
  | false => rfl
  | true =>
    obtain ⟨h1, h2⟩ := h.2.2 hs
    refine then_ok rfl ?_
    have n1 : ¬ 2 ^ 23 ≤ l.addr lo := by omega
    have n2 : ¬ 2 ^ 23 ≤ l.addr hi := by omega
    refine check_ok n1 ?_
    exact check_ok n2 rfl

theorem copy_done {s t} (q : Ready s t) (qc : Calm s t) (qf : Free s t) (cast own : Bool) (d a b : BitVec 6) (va req : Word) (hva : va = t.ctx.xAt a)
    (hreq : req = t.ctx.xAt b) {o : Nat} {sp dp : Plat} {sbase dbase : Word} {bar : Option Nat} {s1 s2 s3 s4 : State}
    {k1 k2 k3 k4 : Chunk} (h : CopyTakes cast va req o sp dp sbase dbase)
    (r1 : t.reads (readRec va.toNat 128) s (opened s t) o s1 k1)
    (r2 : t.reads (readLocal false (copySplat o)) s1 k1 (sp, sbase) s2 k2)
    (r3 : t.reads (readLocal true (copyDplat o)) s2 k2 (dp, dbase) s3 k3)
    (r4 : t.reads (copyBarrier (copyBar o)) s3 k3 bar s4 k4)
    (hs : cast = true → standCount s4 t.tid (copyStand req) ≠ 0) (he : s4.copyEntry t.coreNum t.tid = some own)
    (room : (k4.issued (copyTag req)).counted.goesOn t.limit = true) :
    issueCopy cast d a b s = .next (went { s4 with nextId := s4.nextId + 1, copies := s4.copies ++
        [copyIssued s4 t cast own o req sp dp sbase dbase bar] } (t.tagged (copyTag req))
      { t.ctx.put d (BitVec.ofNat 64 (copyGrant s4 t.coreNum o sp.rank req)) with vl := copyGrant s4 t.coreNum o sp.rank req }.next
      (k4.issued (copyTag req))) := by
  subst hva
  subst hreq
  have l1 := read_looked (reader_readRec _ _) r1
  have l2 := l1.trans (read_looked (reader_readLocal _ _) r2)
  have l3 := l2.trans (read_looked (reader_readLocal _ _) r3)
  have hb : Reader (copyBarrier (copyBar o)) := reader_ite (reader_pure _) (reader_map (reader_barPlace _ _))
  have l4 := l3.trans (read_looked hb r4)
  obtain ⟨z1, z2, z3⟩ := h.zeros
  obtain ⟨y1, y2, y3⟩ := h.request
  obtain ⟨x1, x2, x3⟩ := h.source
  obtain ⟨w1, w2⟩ := h.target
  refine control_with (g := (0, [])) (u := t.tagged (copyTag (t.ctx.xAt b))) q (.inl rfl) rfl rfl (seq_ok ?_)
    (qf.clear l4.ticket qc.replies) room
  refine bind_ok (rdX_clean qc.clean _) ?_
  refine bind_ok (rdX_clean qc.clean _) ?_
  refine check_ok (fun x => x h.aligned) ?_
  refine bind_ok r1 ?_
  refine check_ok (fun x => x h.barAligned) ?_
  refine check_ok (fun x => x h.maskAligned) ?_
  refine check_ok (or_no (or_no (dec_no (fun x => x z1)) (dec_no (fun x => x z2))) (guard_no (z3.imp id (fun e x => x e)))) ?_
  refine check_ok (or_no (or_no (dec_no (fun x => x y1)) (dec_no (fun x => x y2))) (guard_no (y3.imp id (fun e x => x e)))) ?_
  refine bind_ok r2 ?_
  refine bind_ok r3 ?_
  refine check_ok (or_no (or_no (dec_no (fun x => x x1)) (dec_no (fun x => x x2))) (dec_no (fun x => x x3))) ?_
  refine check_ok (or_no (dec_no (fun x => x w1)) (by rw [w2]; simp)) ?_
  refine check_ok (or_no ?_ ?_) ?_
  · rw [List.any_eq_true]
    rintro ⟨j, hj, hx⟩
    have he := h.extents j hj
    dsimp only at hx
    unfold copyExt at he
    split at he
    · rename_i hl
      rw [if_pos hl] at hx
      exact he (of_decide_eq_true hx)
    · rename_i hl
      rw [if_neg hl] at hx
      exact (of_decide_eq_true hx) he
  · rw [List.any_eq_true]
    rintro ⟨j, hj, hx⟩
    rw [Bool.and_eq_true, Bool.or_eq_true] at hx
    obtain ⟨e1, e2⟩ := h.corners j (List.mem_range.mp hj) (of_decide_eq_true hx.1)
    rcases hx.2 with hx | hx
    · exact (of_decide_eq_true hx) e1
    · exact (of_decide_eq_true hx) e2
  have tail : ∀ {f : Option Nat → Exec Unit} {x : EStateM.Result Halt Running Unit}, f bar (t.on s4 t.ctx k4) = x →
      (if BitVec.ofNat 64 (field 767 704 o) = 0 then (pure none >>= f) else ((some <$> barPlace .amo (copyBar o)) >>= f))
        (t.on s3 t.ctx k3) = x := by
    intro f x hf
    unfold Thread.reads copyBarrier at r4
    split
    · rename_i h0
      rw [if_pos (show copyBar o = 0 from h0)] at r4
      exact bind_ok r4 hf
    · rename_i h0
      rw [if_neg (show ¬ copyBar o = 0 from h0)] at r4
      exact bind_ok r4 hf
  have fin := h.inside
  unfold copyCount copyRest copyExt copyFrom copyTo at fin
  dsimp only
  have stood : ¬ (cast && decide (standCount (t.on s4 t.ctx k4).s (t.on s4 t.ctx k4).t.tid
      (field 47 40 (BitVec.toNat ((atBody s t).t.ctx.xAt b))) = 0)) = true := by
    rw [Bool.and_eq_true]
    exact fun x => hs x.1 (of_decide_eq_true x.2)
  have he' : (t.on s4 t.ctx k4).s.copyEntry t.coreNum (t.on s4 t.ctx k4).t.tid = some own := he
  have aw := (qc.looked l4 t.ctx (g := (0, []))).awaits
  generalize hv : surviving (field 31 0 (BitVec.toNat ((atBody s t).t.ctx.xAt b)) ::
    List.map (fun k => field (511 + 32 * (k + 1)) (480 + 32 * (k + 1)) o) (List.range (sp.rank - 1)))
    (List.map (crdOf o 128) (List.range sp.rank)) (List.map (crdOf o 320) (List.range sp.rank))
    (sp.layout sbase).ext (dp.layout dbase).ext = u
  rcases u with _ | ⟨lo, hi⟩
  · refine tail ?_
    refine bind_ok (run_getT _) ?_
    refine bind_ok (run_getS _) ?_
    refine check_ok stood ?_
    refine bind_ok (a := t.coreNum) (r' := t.on s4 t.ctx k4) rfl ?_
    refine bind_ok (run_getS _) ?_
    rw [he']
    dsimp only
    refine bind_ok (run_getS _) ?_
    refine bind_ok (run_modS _ _) ?_
    refine bind_ok (takeTag_run t _ t.ctx k4 _ _) ?_
    refine bind_ok (wrX_on (t.tagged (copyTag (t.ctx.xAt b))) _ t.ctx (k4.issued (copyTag (t.ctx.xAt b))) (0, []) qc.poison qc.deferred qc.failed
      (fun p => ?_) d _) ?_
    · exact aw p
    · rfl
  · obtain ⟨f1, f2⟩ := fin _ _ hv
    refine bind_ok (corners_run f1) ?_
    refine bind_ok (corners_run f2) ?_
    refine bind_ok (offsets_run f1) ?_
    refine bind_ok (offsets_run f2) ?_
    refine tail ?_
    refine bind_ok (run_getT _) ?_
    refine bind_ok (run_getS _) ?_
    refine check_ok stood ?_
    refine bind_ok (a := t.coreNum) (r' := t.on s4 t.ctx k4) rfl ?_
    refine bind_ok (run_getS _) ?_
    rw [he']
    dsimp only
    refine bind_ok (run_getS _) ?_
    refine bind_ok (run_modS _ _) ?_
    refine bind_ok (takeTag_run t _ t.ctx k4 _ _) ?_
    refine bind_ok (wrX_on (t.tagged (copyTag (t.ctx.xAt b))) _ t.ctx (k4.issued (copyTag (t.ctx.xAt b))) (0, []) qc.poison qc.deferred qc.failed
      (fun p => ?_) d _) ?_
    · exact aw p
    · rfl

theorem cpy_done {s t} (q : Ready s t) (qc : Calm s t) (qf : Free s t) (own : Bool) (d a b : BitVec 6) (va req : Word) (hva : va = t.ctx.xAt a)
    (hreq : req = t.ctx.xAt b) {o : Nat} {sp dp : Plat} {sbase dbase : Word} {bar : Option Nat} {s1 s2 s3 s4 : State}
    {k1 k2 k3 k4 : Chunk} (h : CopyTakes false va req o sp dp sbase dbase)
    (r1 : t.reads (readRec va.toNat 128) s (opened s t) o s1 k1)
    (r2 : t.reads (readLocal false (copySplat o)) s1 k1 (sp, sbase) s2 k2)
    (r3 : t.reads (readLocal true (copyDplat o)) s2 k2 (dp, dbase) s3 k3)
    (r4 : t.reads (copyBarrier (copyBar o)) s3 k3 bar s4 k4) (he : s4.copyEntry t.coreNum t.tid = some own)
    (room : (k4.issued (copyTag req)).counted.goesOn t.limit = true) :
    execCpy d a b s = .next (went { s4 with nextId := s4.nextId + 1, copies := s4.copies ++
        [copyIssued s4 t false own o req sp dp sbase dbase bar] } (t.tagged (copyTag req))
      { t.ctx.put d (BitVec.ofNat 64 (copyGrant s4 t.coreNum o sp.rank req)) with vl := copyGrant s4 t.coreNum o sp.rank req }.next
      (k4.issued (copyTag req))) :=
  copy_done q qc qf false own d a b va req hva hreq h r1 r2 r3 r4 (fun x => by cases x) he room

theorem cpym_done {s t} (q : Ready s t) (qc : Calm s t) (qf : Free s t) (own : Bool) (d a b : BitVec 6) (va req : Word) (hva : va = t.ctx.xAt a)
    (hreq : req = t.ctx.xAt b) {o : Nat} {sp dp : Plat} {sbase dbase : Word} {bar : Option Nat} {s1 s2 s3 s4 : State}
    {k1 k2 k3 k4 : Chunk} (h : CopyTakes true va req o sp dp sbase dbase)
    (r1 : t.reads (readRec va.toNat 128) s (opened s t) o s1 k1)
    (r2 : t.reads (readLocal false (copySplat o)) s1 k1 (sp, sbase) s2 k2)
    (r3 : t.reads (readLocal true (copyDplat o)) s2 k2 (dp, dbase) s3 k3)
    (r4 : t.reads (copyBarrier (copyBar o)) s3 k3 bar s4 k4) (hs : standCount s4 t.tid (copyStand req) ≠ 0)
    (he : s4.copyEntry t.coreNum t.tid = some own) (room : (k4.issued (copyTag req)).counted.goesOn t.limit = true) :
    execCpym d a b s = .next (went { s4 with nextId := s4.nextId + 1, copies := s4.copies ++
        [copyIssued s4 t true own o req sp dp sbase dbase bar] } (t.tagged (copyTag req))
      { t.ctx.put d (BitVec.ofNat 64 (copyGrant s4 t.coreNum o sp.rank req)) with vl := copyGrant s4 t.coreNum o sp.rank req }.next
      (k4.issued (copyTag req))) :=
  copy_done q qc qf true own d a b va req hva hreq h r1 r2 r3 r4 (fun _ => hs) he room

/-! ## Streams -/

theorem smode_done {s t} (q : Ready s t) (qc : Calm s t) (qf : Free s t) (d a : BitVec 6) (n : Nat) (hn : n = t.ctx.phys d.toNat) (h56 : 56 ≤ n)
    (va : Word) (hva : va = t.ctx.xAt a) (hal : va.toNat % 64 = 0) {o : Nat} {s1 : State} {k1 : Chunk}
    (r1 : t.reads (readRec va.toNat 64) s (opened s t) o s1 k1) (p : Stream)
    (hp : p = Stream.decode s1.nextId (typeWidth t.ctx.fmt (field 324 320 o)) t.ctx.priv o)
    (ok : streamTaken t.ctx.fmt p o = true) (room : k1.counted.goesOn t.limit = true) :
    execSmode d a s = .next (went { s1 with nextId := s1.nextId + 1 } { t with refill := tdrop n t.refill }
      { t.ctx with streams := tput n p t.ctx.streams }.next k1) := by
  subst hn
  subst hva
  subst hp
  simp only [streamTaken, Bool.and_eq_true, beq_iff_eq, Bool.not_eq_true', decide_eq_true_eq] at ok
  refine control_with (g := (0, [])) (u := { t with refill := tdrop (t.ctx.phys d.toNat) t.refill }) q (.inl rfl) rfl rfl (seq_ok ?_)
    (qf.clear (read_looked (reader_readRec _ _) r1).ticket qc.replies) room
  refine bind_ok (run_getC _) ?_
  refine check_ok (fun x => Nat.not_lt.mpr h56 x) ?_
  refine bind_ok (rdX_clean qc.clean _) ?_
  refine check_ok (fun x => x hal) ?_
  refine bind_ok r1 ?_
  refine bind_ok (run_getC _) ?_
  refine bind_ok (run_getS _) ?_
  have hw := ok.1.2
  refine check_ok (or_no (or_no (or_no (dec_no (fun x => x ok.1.1.1)) (dec_no (fun x => Nat.not_lt.mpr x ok.1.1.2))) ?_)
    (fun x => Bool.noConfusion ((show _ = true from x).symm.trans ok.2))) rfl
  intro x
  have : [8, 16, 32, 64].contains (typeWidth t.ctx.fmt (field 324 320 o)) = true := hw
  simp only [List.contains_cons, List.contains_nil, Bool.or_false] at this
  rw [← Bool.or_assoc, ← Bool.or_assoc] at this
  rw [Bool.not_eq_true'] at x
  exact Bool.noConfusion (this.symm.trans (show _ = false from x))

theorem sstop_done {s t} (q : Quiet s t) (d : BitVec 6) (n : Nat) (hn : n = t.ctx.phys d.toNat)
    (h : (tfind n t.ctx.streams).isSome = true) :
    execSstop d s = .next (went s { t with refill := tdrop n t.refill }
      { t.ctx.setV n 0 with streams := tdrop n t.ctx.streams }.next (opened s t)) := by
  subst hn
  refine control_with (g := (0, [])) (u := { t with refill := tdrop (t.ctx.phys d.toNat) t.refill }) q.toReady (.inl rfl) rfl rfl
    (seq_ok ?_) (.same rfl rfl rfl q.replies) q.room
  refine bind_ok (run_getC _) ?_
  refine bind_ok (run_getC _) ?_
  refine then_ok h ?_
  refine bind_ok (awaitV_clean q.clean _) ?_
  refine (run_modT _ _).trans ?_
  dsimp only [atBody_t]
  rw [q.poison]
  obtain ⟨tid, _⟩ := t
  cases q.poison
  rfl

/-! ## Tags -/

theorem opening_run {s t} (h : Opening s t) (n : Nat) : atOpening n (atBody s t) = .ok () (atBody s t) := by
  obtain ⟨h1, h2⟩ := h
  simp only [atOpening, explicitChunk, begun, run_bind, run_getT, atBody_t, Option.any_some, h1, h2, run_pure, Bool.false_eq_true,
    if_false, Nat.lt_irrefl, decide_false]

theorem observe_run {r : Running} {m : Word} (h : r.t.tagsClear m = true) : observeTags m r = .ok () r := by
  unfold observeTags
  refine bind_ok (run_getT _) ?_
  have hn : (r.t.tagFaults.find? fun e => m.getLsbD e.1) = none := by
    rw [List.find?_eq_none]
    intro e he
    have := List.all_eq_true.mp h e he
    simpa using this
  rw [hn]
  rfl

theorem mfsrCtags_done {s t} (q : Quiet s t) (d : BitVec 6) (h : t.tagsClear (~~~0) = true) :
    execMfsrCtags d s = .next (wrote s t (t.ctx.put d t.ctags)) := by
  refine control_wrote q rfl rfl rfl (seq_ok ?_)
  refine bind_ok (observe_run (r := atBody s t) h) ?_
  exact bind_ok (run_getT _) (wrX_clean q.clean _ _)

theorem twaitAny_done {s t} (q : Quiet s t) (ho : Opening s t) (d a : BitVec 6) (m : Word) (hm : m = t.ctx.xAt a) (h0 : m ≠ 0)
    (h : t.tagsClear m = true) (hx : t.ctags &&& m ≠ 0) :
    execTwaitAny d a s = .next (wrote s t (t.ctx.put d (t.ctags &&& m))) := by
  subst hm
  refine control_wrote q rfl rfl rfl (seq_ok ?_)
  refine bind_ok (opening_run ho _) ?_
  refine bind_ok (rdX_clean q.clean _) ?_
  refine check_ok h0 ?_
  refine bind_ok (awaitScalars_clean q.clean) ?_
  refine bind_ok (observe_run (r := atBody s t) h) ?_
  refine bind_ok (run_getT _) ?_
  exact check_ok hx (wrX_clean q.clean _ _)

theorem twaitAll_done {s t} (q : Quiet s t) (ho : Opening s t) (d a : BitVec 6) (m : Word) (hm : m = t.ctx.xAt a)
    (h : t.tagsClear m = true) (hx : t.ctags &&& m = m) :
    execTwaitAll d a s = .next (wrote s t (t.ctx.put d (t.ctags &&& m))) := by
  subst hm
  refine control_wrote q rfl rfl rfl (seq_ok ?_)
  refine bind_ok (opening_run ho _) ?_
  refine bind_ok (rdX_clean q.clean _) ?_
  refine bind_ok (awaitScalars_clean q.clean) ?_
  refine bind_ok (observe_run (r := atBody s t) h) ?_
  refine bind_ok (run_getT _) ?_
  exact check_ok (fun x => x hx) (wrX_clean q.clean _ _)

theorem tffr_done {s t} (q : Quiet s t) (d a : BitVec 6) (m : Word) (hm : m = t.ctx.xAt a) (h : t.tagsClear m = true) :
    execTffr d a s = .next (wrote s t (t.ctx.put d
      (BitVec.ofNat 64 (((List.range 64).find? (t.ctags &&& m).getLsbD).getD 64)))) := by
  subst hm
  refine control_wrote q rfl rfl rfl (seq_ok ?_)
  refine bind_ok (rdX_clean q.clean _) ?_
  refine bind_ok (observe_run (r := atBody s t) h) ?_
  exact bind_ok (run_getT _) (wrX_clean q.clean _ _)

/-! ## Transaction barriers -/

theorem store_run {t : Thread} {s : State} {c : Ctx} {k : Chunk} {g : Group} (hd : t.deferred = []) (ws : List Write) :
    writeLoc ws (t.on s c k g) = .ok () (t.on s c (k.store ws) g) := writeLoc_keep (r := t.on s c k g) hd rfl _

theorem store_out (k : Chunk) (ws : List Write) : (k.store ws).fabricOut = k.fabricOut := by
  unfold Chunk.store
  induction ws generalizing k with
  | nil => rfl
  | cons w ws ih => rw [List.foldl_cons]; exact ih _

theorem stored_clean {t : Thread} {s : State} {c : Ctx} {k : Chunk} (h : Clean (t.on s c k)) (ws : List Write) :
    Clean (t.on s c (k.store ws)) := by
  refine h.keep (r' := t.on s c (k.store ws)) rfl rfl rfl rfl rfl ?_
  show some (k.store ws).fabricOut = some k.fabricOut
  rw [store_out]

theorem barinit_done {s t} (q : Ready s t) (qc : Calm s t) (qf : Free s t) (a b : BitVec 6) (va m : Word) (hva : va = t.ctx.xAt a)
    (hm : m = t.ctx.xAt b) {l : Nat} {s1 : State} {k1 : Chunk} (r1 : t.reads (barPlace .amo va) s (opened s t) l s1 k1)
    (h1 : m.toNat < 2 ^ 16) (h0 : m ≠ 0)
    (room : (((k1.marked (l / 128)).store (writesOf l (bytesOfNat (barNew m.toNat) 16))).counted.goesOn t.limit) = true) :
    execBarinit a b s = .next (went s1 t t.ctx.next ((k1.marked (l / 128)).store (writesOf l (bytesOfNat (barNew m.toNat) 16)))) := by
  subst hva
  subst hm
  refine control_on (g := (0, [])) q (.inl rfl) rfl rfl (seq_ok ?_) (qf.clear (read_looked (reader_barPlace _ _) r1).ticket qc.replies) room
  refine bind_ok (rdX_clean qc.clean _) ?_
  refine bind_ok (rdX_clean qc.clean _) ?_
  refine bind_ok r1 ?_
  refine check_ok (or_no (dec_no (Nat.not_le.mpr h1)) (dec_no h0)) ?_
  refine bind_ok (run_modChunk _ _) ?_
  exact store_run (k := k1.marked (l / 128)) qc.deferred _

theorem barexp_done {s t} (q : Ready s t) (qc : Calm s t) (qf : Free s t) (a b : BitVec 6) (va n : Word) (hva : va = t.ctx.xAt a)
    (hn : n = t.ctx.xAt b) {l o : Nat} {s1 s2 : State} {k1 k2 : Chunk} (r1 : t.reads (barPlace .amo va) s (opened s t) l s1 k1)
    (h1 : n.toNat < 2 ^ 47) (r2 : t.reads (readBar va l) s1 k1 o s2 k2) (x : Nat) (hx : x = barBalance o (sextNat o 64 + n.toNat))
    (room : ((k2.store (writesOf l (bytesOfNat x 16))).counted.goesOn t.limit) = true) :
    execBarexp a b s = .next (went s2 t t.ctx.next (k2.store (writesOf l (bytesOfNat x 16)))) := by
  subst hva
  subst hn
  subst hx
  have l2 := (read_looked (reader_barPlace _ _) r1).trans (read_looked (reader_readBar _ _) r2)
  refine control_on (g := (0, [])) q (.inl rfl) rfl rfl (seq_ok ?_) (qf.clear l2.ticket qc.replies) room
  refine bind_ok (rdX_clean qc.clean _) ?_
  refine bind_ok (rdX_clean qc.clean _) ?_
  refine bind_ok r1 ?_
  refine check_ok (Nat.not_le.mpr h1) ?_
  refine bind_ok r2 ?_
  exact store_run qc.deferred _

theorem bararr_done {s t} (q : Ready s t) (qc : Calm s t) (qf : Free s t) (d a : BitVec 6) (va : Word) (hva : va = t.ctx.xAt a)
    {l o : Nat} {s1 s2 : State} {k1 k2 : Chunk} (r1 : t.reads (barPlace .amo va) s (opened s t) l s1 k1)
    (r2 : t.reads (readBar va l) s1 k1 o s2 k2) (h : 0 < barOwed o) (x : Nat) (hx : x = barBalance o (sextNat o 64 - 2 ^ 48))
    (room : ((k2.store (writesOf l (bytesOfNat x 16))).counted.goesOn t.limit) = true) :
    execBararr d a s = .next (went s2 t (t.ctx.put d (BitVec.ofNat 64 (barRound o))).next
      (k2.store (writesOf l (bytesOfNat x 16)))) := by
  subst hva
  subst hx
  have l2 := (read_looked (reader_barPlace _ _) r1).trans (read_looked (reader_readBar _ _) r2)
  refine control_on (g := (0, [])) q (.inl rfl) rfl rfl (seq_ok ?_) (qf.clear l2.ticket qc.replies) room
  refine bind_ok (rdX_clean qc.clean _) ?_
  refine bind_ok r1 ?_
  refine bind_ok r2 ?_
  refine check_ok (Int.not_le.mpr h) ?_
  refine bind_ok (store_run qc.deferred _) ?_
  exact wrX_on t _ t.ctx _ (0, []) qc.poison qc.deferred qc.failed (stored_clean (qc.looked l2 t.ctx) _).awaits d _

theorem barwait_done {s t} (q : Ready s t) (qc : Calm s t) (qf : Free s t) (ho : Opening s t) (d a b : BitVec 6) (va v : Word) (hva : va = t.ctx.xAt a)
    (hv : v = t.ctx.xAt b) {l o : Nat} {s1 s2 : State} {k1 k2 : Chunk} (r1 : t.reads (barPlace .load va) s (opened s t) l s1 k1)
    (r2 : t.reads (readBar va l) s1 k1 o s2 k2) (h : barRound o ≠ v.toNat % 2 ^ 16) (room : k2.counted.goesOn t.limit = true) :
    execBarwait d a b s = .next (went s2 t (t.ctx.put d (BitVec.ofNat 64 (field 127 102 o * 2 ^ 16 + barRound o))).next k2) := by
  subst hva
  subst hv
  have l1 := read_looked (reader_barPlace _ _) r1
  have l2 := l1.trans (read_looked (reader_readBar _ _) r2)
  refine control_on (g := (0, [])) q (.inl rfl) rfl rfl (seq_ok ?_) (qf.clear l2.ticket qc.replies) room
  refine bind_ok (opening_run ho _) ?_
  refine bind_ok (rdX_clean qc.clean _) ?_
  refine bind_ok (rdX_clean qc.clean _) ?_
  refine bind_ok r1 ?_
  refine bind_ok (awaitScalars_clean (qc.looked l1 t.ctx)) ?_
  refine bind_ok r2 ?_
  refine check_ok h ?_
  exact wrX_on t _ t.ctx _ (0, []) qc.poison qc.deferred qc.failed (qc.looked l2 t.ctx).awaits d _

end Sys2Proof.Machine
end

