-- ==== Sys2Proof/Laws/Regions.lean ====
section
/-! SUPPORT. What the instructions of major 0x38 do (11, R237 to R242, R247). -/

set_option linter.unusedSimpArgs false
set_option Elab.async false

namespace Sys2Proof.Machine

/-- An instruction that stands alone, after reads of its own. -/
theorem alone_read {s t} {f : Form} {body : Exec Next} {s' : State} {u : Thread} {c : Ctx} {k s1 k1} (q : Idle s t) (qf : Free s t)
    (hp : f.priv = false ∨ t.ctx.priv = true) (hi : f.rule = .alone) (hc : f.counts = true)
    (h : body (atBody s t) = .ok .seq (u.on s' c k)) (l : Looked s s1 (opened s t) k1) (hk : k = k1) (ht : s'.ticket = s.ticket)
    (hd : u.deferred = []) (hr : u.replies = []) (hq : u.pendTrap = none) (hu : u.tid = t.tid) (hf : CopiesIn s s') :
    control f body s = .next (settled s' { u.past with ctx := c.next } k.reads) := by
  subst hk
  have b : Bare k := by
    have b := opened_bare (s := s) q.chunk
    rw [l.chunk]
    exact { b with }
  refine Eq.trans (alone_stores (u := { u with ctx := c }) (k := k) q hp hi hc h (qf.clear ht hr) b.toSpare hd hq ?_ ?_) ?_
  · intro x hx e
    exact q.forked x (hf x hx) (e.trans hu)
  · rw [b.writes]; exact held_nil _ _
  · rw [settledWith_bare _ _ b]
    rfl

theorem settle_ticket (s : State) (p : WriteBack → Bool) : (s.settle p).ticket = s.ticket := by
  unfold State.settle
  exact foldl_keep State.ticket _ (fun s w => arriveHome_ticket s w) _ _

theorem looked_copies {s s' : State} {k k' : Chunk} (l : Looked s s' k k') : CopiesIn s s' := by
  intro c hc
  rw [l.state] at hc
  exact hc

theorem settle_copies {s0 s : State} (p : WriteBack → Bool) (h : CopiesIn s0 s) : CopiesIn s0 (s.settle p) := by
  unfold State.settle
  exact foldl_copies _ (fun s w hs => arriveHome_copies w hs) _ _ h

theorem squash_copies {s0 s : State} (p : Thread → Chunk → Bool) (h : CopiesIn s0 s) : CopiesIn s0 (s.squashIf p) :=
  fun c hc => h c (squashIf_copies _ _ c hc)

theorem squash_fabric {s0 s : State} (p : Thread → Chunk → Bool) (h : FabricIn s0 s) : FabricIn s0 (s.squashIf p) := by
  intro x hx
  unfold State.squashIf at hx
  simp only at hx
  split at hx
  · exact h x hx
  · exact h x (List.mem_filter.mp hx).1

theorem awaits_in {t : Thread} {s s' : State} {c : Ctx} {k : Chunk} (h : Clean (t.on s c k)) (f : FabricIn s s') (p : Dest → Bool) :
    (t.on s' c k).awaits p = false := by
  have e := h.awaits p
  unfold Running.awaits at e ⊢
  rw [Bool.or_eq_false_iff] at e ⊢
  exact ⟨any_sub _ _ _ f e.1, e.2⟩

theorem reader_rangePages (need : Need) (bl : Bool) (a n : Word) : Reader (rangePages need bl a n) := by
  unfold rangePages
  refine reader_ite (reader_pure _) (reader_ite (reader_stop _) (reader_ite (reader_stop _) (reader_ite (reader_stop _) ?_)))
  refine reader_bind (reader_mapM (fun e => reader_bind (reader_xlate _ _) fun _ => reader_pure _) _) fun ps => ?_
  split
  · exact reader_trap _ _
  · exact reader_pure _

theorem awaitHeld_run {t : Thread} {s : State} {c : Ctx} {k : Chunk} {ls : List Nat} (h : s.held (some t.tid) ls = false) :
    awaitHeld ls (t.on s c k) = .ok () (t.on s c k) := by
  unfold awaitHeld
  refine bind_ok (run_getS _) ?_
  refine bind_ok (run_getT _) ?_
  refine check_ok ?_ rfl
  rw [show (t.on s c k).s.held (some (t.on s c k).t.tid) ls = false from h]
  simp

theorem awaitPinned_run {t : Thread} {s : State} {c : Ctx} {k : Chunk} {p : Thread → Chunk → Bool}
    (h : s.pins (some t.tid) p = false) : awaitPinned p (t.on s c k) = .ok () (t.on s c k) := by
  unfold awaitPinned
  refine bind_ok (run_getS _) ?_
  refine bind_ok (run_getT _) ?_
  refine check_ok ?_ rfl
  rw [show (t.on s c k).s.pins (some (t.on s c k).t.tid) p = false from h]
  simp

theorem heldCopies_run {s t} (qc : Calm s t) (a b : BitVec 6) {ps : List (Access × Nat)} {s1 : State} {k1 : Chunk}
    (r1 : t.reads (rangePages .load false (t.ctx.xAt a) (t.ctx.xAt b)) s (opened s t) ps s1 k1)
    (hh : s1.held (some t.tid) (deviceLines ps ++ viewLines t.die (deviceLines ps)) = false) :
    heldCopies a b (atBody s t) = .ok (t.die, (deviceLines ps).filter ((s1.settleCopies t.die (deviceLines ps)).hasCopy t.die))
      (t.on (s1.settleCopies t.die (deviceLines ps)) t.ctx k1) := by
  unfold heldCopies
  refine bind_ok (rdX_clean qc.clean _) ?_
  refine bind_ok (rdX_clean qc.clean _) ?_
  refine bind_ok r1 ?_
  refine bind_ok (a := t.die) (r' := t.on s1 t.ctx k1) rfl ?_
  refine bind_ok (awaitHeld_run hh) ?_
  refine bind_ok (run_modS _ _) ?_
  exact bind_ok (run_getS _) rfl

theorem rwb_done {s t} (q : Idle s t) (qf : Free s t) (a b : BitVec 6) {ps : List (Access × Nat)} {s1 : State} {k1 : Chunk}
    (r1 : t.reads (rangePages .load false (t.ctx.xAt a) (t.ctx.xAt b)) s (opened s t) ps s1 k1) (ls : List Nat)
    (hl : ls = deviceLines ps) (hh : s1.held (some t.tid) (ls ++ viewLines t.die ls) = false) (s2 : State)
    (h2 : s2 = s1.settleCopies t.die ls) :
    execRwb a b s = .next (settled ((ls.filter (s2.hasCopy t.die)).foldl (fun s l => s.writeBack t.die l false) s2)
      { t.past with ctx := t.ctx.next } k1.reads) := by
  subst hl
  subst h2
  refine alone_read (u := t) q qf (.inl rfl) rfl rfl (seq_ok ?_) (read_looked (reader_rangePages _ _ _ _) r1) rfl ?_ q.deferred q.replies q.pend rfl ?_
  · refine bind_ok (heldCopies_run q.toCalm a b r1 hh) ?_
    rfl
  · refine (foldl_keep State.ticket _ (fun s l => writeBack_ticket s _ _ _) _ _).trans ((settle_ticket _ _).trans ?_)
    exact (read_looked (reader_rangePages _ _ _ _) r1).ticket
  · refine foldl_copies _ (fun s l h => writeBack_copies _ _ _ h) _ _ (settle_copies _ ?_)
    exact looked_copies (read_looked (reader_rangePages _ _ _ _) r1)

theorem rinv_done {s t} (q : Idle s t) (qf : Free s t) (a b : BitVec 6) {ps : List (Access × Nat)} {s1 : State} {k1 : Chunk}
    (r1 : t.reads (rangePages .load false (t.ctx.xAt a) (t.ctx.xAt b)) s (opened s t) ps s1 k1) (ls : List Nat)
    (hl : ls = deviceLines ps) (hh : s1.held (some t.tid) (ls ++ viewLines t.die ls) = false) (s2 : State)
    (h2 : s2 = s1.settleCopies t.die ls) :
    execRinv a b s = .next (settled ((ls.filter (s2.hasCopy t.die)).foldl
      (fun s l => (s.squashView t.die l).writeBack t.die l true) s2) { t.past with ctx := t.ctx.next } k1.reads) := by
  subst hl
  subst h2
  refine alone_read (u := t) q qf (.inl rfl) rfl rfl (seq_ok ?_) (read_looked (reader_rangePages _ _ _ _) r1) rfl ?_ q.deferred q.replies q.pend rfl ?_
  · refine bind_ok (heldCopies_run q.toCalm a b r1 hh) ?_
    rfl
  · refine (foldl_keep State.ticket _ (fun s l => (writeBack_ticket _ _ _ _).trans (squash_ticket _ _)) _ _).trans
      ((settle_ticket _ _).trans ?_)
    exact (read_looked (reader_rangePages _ _ _ _) r1).ticket
  · refine foldl_copies _ (fun s l h => writeBack_copies _ _ _ (squash_copies _ h)) _ _ (settle_copies _ ?_)
    exact looked_copies (read_looked (reader_rangePages _ _ _ _) r1)

theorem rgndecl_done {s t} (q : Idle s t) (qf : Free s t) (d a : BitVec 6) (va : Word) (hva : va = t.ctx.xAt a) {p : Plat} {base : Word} {s1 : State}
    {k1 : Chunk} (r1 : t.reads (readLocal false va) s (opened s t) (p, base) s1 k1) (h1 : p.ranks = 1) (h2 : p.spanEnd base < 2 ^ 55)
    (first last : Nat) (hf : first = base.toNat / 128) (hl : last = p.spanEnd base / 128) (own : List Region)
    (ho : own = (s1.regionsOf t.die).filter (·.parcel == t.parcel)) (apart : own.all (fun r => !r.meets first last) = true)
    (quota : own.length < (s1.parcel t.parcel).rquota)
    (pin : s1.pins (some t.tid) (spanUser t.tid t.die t.parcel first last) = false) (num : Nat)
    (hn : num = lowestFree (own.map (·.num))) :
    execRgndecl d a s = .next (settled ((s1.squashSpan t.tid t.die t.parcel first last).setRegions t.die
        ({ tid := t.tid, parcel := t.parcel, num := num, first := first, last := last } ::
          (s1.squashSpan t.tid t.die t.parcel first last).regionsOf t.die))
      { t.past with ctx := (t.ctx.put d (BitVec.ofNat 64 num)).next } k1.reads) := by
  subst hva
  subst hf
  subst hl
  subst hn
  subst ho
  have l1 := read_looked (reader_readLocal _ _) r1
  refine alone_read (u := t) q qf (.inl rfl) rfl rfl (seq_ok ?_) l1 rfl ?_ q.deferred q.replies q.pend rfl ?_
  · refine bind_ok (rdX_clean q.clean _) ?_
    refine bind_ok r1 ?_
    refine check_ok (fun x => x h1) ?_
    refine check_ok (Nat.not_le.mpr h2) ?_
    refine bind_ok (a := t.die) (r' := t.on s1 t.ctx k1) rfl ?_
    refine bind_ok (run_getT _) ?_
    refine bind_ok (run_getS _) ?_
    have hn : ((((t.on s1 t.ctx k1).s.regionsOf t.die).filter (·.parcel == (t.on s1 t.ctx k1).t.parcel)).filter
        (·.meets (base.toNat / 128) (p.spanEnd base / 128))) = [] := by
      rw [List.filter_eq_nil_iff]
      intro r hr
      have := List.all_eq_true.mp apart r hr
      simpa using this
    dsimp only
    rw [hn, List.map_nil]
    dsimp only
    refine bind_ok (run_getS _) ?_
    refine check_ok (Nat.not_le.mpr quota) ?_
    refine bind_ok (awaitPinned_run pin) ?_
    refine bind_ok (run_modS _ _) ?_
    refine bind_ok (run_modS _ _) ?_
    have hfa : FabricIn s1 (s1.squashSpan t.tid t.die t.parcel (base.toNat / 128) (p.spanEnd base / 128)) :=
      squash_fabric _ fun _ h => h
    refine wrX_on t _ t.ctx k1 (0, []) q.poison q.deferred q.failed (fun p => ?_) d _
    exact awaits_in (q.toCalm.looked l1 t.ctx) hfa p
  · exact (squash_ticket _ _).trans l1.ticket
  · exact squash_copies _ (looked_copies l1)

theorem rgnfree_done {s t} (q : Idle s t) (qf : Free s t) (a : BitVec 6) (r : Region)
    (hr : ((s.regionsOf t.die).find? fun r => r.parcel == t.parcel && r.num == (t.ctx.xAt a).toNat) = some r) (ls : List Nat)
    (hl : ls = s.regionCopies t.die t.parcel r.num) (hh : s.held (some t.tid) (ls ++ viewLines t.die ls) = false)
    (pin : s.pins (some t.tid) (spanUser t.tid t.die t.parcel r.first r.last) = false) (s1 : State)
    (h1 : s1 = (ls.foldl (fun s l => (s.squashView t.die l).writeBack t.die l true)
      (s.settle fun w => w.die == t.die)).squashSpan t.tid t.die t.parcel r.first r.last) :
    execRgnfree a s = .next (settled (s1.setRegions t.die ((s1.regionsOf t.die).filter (· != r))) { t.past with ctx := t.ctx.next } []) := by
  subst hl
  have hc : CopiesIn s s1 := by
    rw [h1]
    refine squash_copies _ (foldl_copies _ (fun s l h => writeBack_copies _ _ _ (squash_copies _ h)) _ _ (settle_copies _ ?_))
    exact fun _ h => h
  have ht : s1.ticket = s.ticket := by
    rw [h1]
    exact (squash_ticket _ _).trans ((foldl_keep State.ticket _ (fun s l => (writeBack_ticket _ _ _ _).trans (squash_ticket _ _)) _ _).trans
      (settle_ticket _ _))
  refine (alone_read (u := t) (k := opened s t) (s1 := s) (c := t.ctx) q qf (.inl rfl) rfl rfl (seq_ok ?_) (.refl _ _) rfl ht q.deferred q.replies q.pend rfl
    (s' := s1.setRegions t.die ((s1.regionsOf t.die).filter (· != r))) hc).trans ?_
  · refine bind_ok (rdX_clean q.clean _) ?_
    refine bind_ok (a := t.die) (r' := atBody s t) rfl ?_
    refine bind_ok (run_getT _) ?_
    refine bind_ok (run_getS _) ?_
    have hr' : (((atBody s t).s.regionsOf t.die).find? fun r => r.parcel == (atBody s t).t.parcel &&
      r.num == ((atBody s t).t.ctx.xAt a).toNat) = some r := hr
    dsimp only
    rw [hr']
    dsimp only
    refine bind_ok (run_getS _) ?_
    refine bind_ok (awaitHeld_run (t := t) (s := s) (k := opened s t) hh) ?_
    refine bind_ok (awaitPinned_run (t := t) (s := s) (k := opened s t) pin) ?_
    subst h1
    rfl
  · have e : (opened s t).reads = [] := by simp [opened, q.chunk]
    rw [e]

theorem cways_done {s t} (q : Idle s t) (qf : Free s t) (d a : BitVec 6) (l : Nat) (hl : l = (t.ctx.xAt a).toNat) (part : BitVec 32)
    (hp : part = (s.core t.coreNum).part) (h4 : 4 ≤ l) (hm : l ≤ partL1 part + partScr part) (new : Nat)
    (hn : new = partL1 part + partScr part - l) (lo hi : Nat) (hlo : lo = min (partScr part) new * 65536)
    (hhi : hi = max (partScr part) new * 65536) (pin : s.pins (some t.tid) (portionUser t.coreNum lo hi) = false) (s1 : State)
    (h1 : s1 = s.wipeScratch t.coreNum lo hi) :
    execCways d a s = .next (settled (s1.setCore t.coreNum { s1.core t.coreNum with part := partSplit part l new })
      { t.past with ctx := (t.ctx.put d (BitVec.ofNat 64 (partL1 part))).next } []) := by
  subst hl
  subst hp
  subst hn
  subst hlo
  subst hhi
  have hc : CopiesIn s s1 := by
    rw [h1]
    exact squash_copies _ (fun _ h => h)
  have hfa : FabricIn s s1 := by
    rw [h1]
    exact squash_fabric _ (fun _ h => h)
  have ht : s1.ticket = s.ticket := by
    rw [h1]
    exact squash_ticket _ _
  refine (alone_read (u := t) (k := opened s t) (s1 := s) (c := t.ctx.put d (BitVec.ofNat 64 (partL1 (s.core t.coreNum).part)))
    q qf (.inl rfl) rfl rfl (seq_ok ?_) (.refl _ _) rfl ht q.deferred q.replies q.pend rfl
    (s' := s1.setCore t.coreNum { s1.core t.coreNum with
      part := partSplit (s.core t.coreNum).part (t.ctx.xAt a).toNat (partL1 (s.core t.coreNum).part + partScr (s.core t.coreNum).part - (t.ctx.xAt a).toNat) }) hc).trans ?_
  · refine bind_ok (rdX_clean q.clean _) ?_
    refine bind_ok (a := t.coreNum) (r' := atBody s t) rfl ?_
    refine bind_ok (run_getS _) ?_
    refine check_ok (or_no (dec_no (Nat.not_lt.mpr h4)) (dec_no (Nat.not_lt.mpr hm))) ?_
    refine bind_ok (awaitPinned_run (t := t) (s := s) (k := opened s t) pin) ?_
    refine bind_ok (run_modS _ _) ?_
    refine bind_ok (run_modS _ _) ?_
    subst h1
    exact wrX_on t _ t.ctx (opened s t) (0, []) q.poison q.deferred q.failed
      (awaits_in (q.toCalm.looked (.refl _ _) t.ctx) (by exact hfa)) d _
  · have e : (opened s t).reads = [] := by simp [opened, q.chunk]
    rw [e]

theorem heatFor_copies (s : State) (who : Option Nat) (ls : Marks) : (s.heatFor who ls).copies = s.copies := by
  unfold State.heatFor
  refine foldl_keep State.copies _ (fun s e => ?_) _ _
  split
  · split
    · rfl
    · rename_i k _ _ _
      exact foldl_keep State.copies (fun s l => s.setCore k ((s.core k).heat l)) (fun s l => rfl) _ _
  · rfl

theorem kill_copies {s0 s : State} (who die : Option Nat) (ls : List Nat) (h : CopiesIn s0 s) : CopiesIn s0 (s.kill who die ls) := by
  have tail : ∀ u : State, CopiesIn s0 u → CopiesIn s0 ((u.heatFor who ls).squashIf fun t c => some t.tid != who && c.meets ls) := by
    intro u hu
    refine squash_copies _ ?_
    intro c hc
    rw [heatFor_copies] at hc
    exact hu c hc
  unfold State.kill
  cases die with
  | none => exact tail _ h
  | some d =>
    refine tail _ ?_
    refine foldl_copies (fun s l => s.dropCopy d l) (fun s l h => h) _ _ ?_
    exact foldl_copies _ (fun s l h => squash_copies _ h) _ _ (settle_copies _ h)

theorem kill_ticket (s : State) (who die : Option Nat) (ls : List Nat) : (s.kill who die ls).ticket = s.ticket := by
  have tail : ∀ u : State, u.ticket = s.ticket →
      ((u.heatFor who ls).squashIf fun t c => some t.tid != who && c.meets ls).ticket = s.ticket := by
    intro u hu
    exact (squash_ticket _ _).trans ((heatFor_keep State.ticket (fun _ _ _ => rfl) _ _ _).trans hu)
  unfold State.kill
  cases die with
  | none => exact tail _ rfl
  | some d =>
    refine tail _ ?_
    refine (foldl_keep State.ticket (fun s l => s.dropCopy d l) (fun s l => rfl) _ _).trans ?_
    exact (foldl_keep State.ticket _ (fun s l => squash_ticket _ _) _ _).trans (settle_ticket _ _)

theorem dead_done {s t} (q : Idle s t) (qf : Free s t) (a b : BitVec 6) {ps : List (Access × Nat)} {s1 : State} {k1 : Chunk}
    (r1 : t.reads (rangePages .store true (t.ctx.xAt a) (t.ctx.xAt b)) s (opened s t) ps s1 k1) (ls : List Nat)
    (hl : ls = deviceLines ps) (hh : s1.held (some t.tid) (ls ++ viewLines t.die ls) = false) :
    execDead a b s = .next (settled (s1.kill (some t.tid) (some t.die) ls) { t.past with ctx := t.ctx.next } k1.reads) := by
  subst hl
  have l1 := read_looked (reader_rangePages _ _ _ _) r1
  refine alone_read (u := t) q qf (.inl rfl) rfl rfl (seq_ok ?_) l1 rfl ((kill_ticket _ _ _ _).trans l1.ticket) q.deferred q.replies q.pend rfl (kill_copies _ _ _ (looked_copies l1))
  refine bind_ok (rdX_clean q.clean _) ?_
  refine bind_ok (rdX_clean q.clean _) ?_
  refine bind_ok r1 ?_
  refine bind_ok (a := t.die) (r' := t.on s1 t.ctx k1) rfl ?_
  refine bind_ok (awaitHeld_run hh) ?_
  exact bind_ok (run_getT _) rfl

theorem live_done {s t} (q : Idle s t) (qf : Free s t) (a b : BitVec 6) {ps : List (Access × Nat)} {s1 : State} {k1 : Chunk}
    (r1 : t.reads (rangePages .store true (t.ctx.xAt a) (t.ctx.xAt b)) s (opened s t) ps s1 k1) :
    execLive a b s = .next (settled ((distinct ((deviceLines ps).map (· / 32))).foldl State.revive s1)
      { t.past with ctx := t.ctx.next } k1.reads) := by
  have l1 := read_looked (reader_rangePages _ _ _ _) r1
  have hc : CopiesIn s ((distinct ((deviceLines ps).map (· / 32))).foldl State.revive s1) := by
    refine foldl_copies _ (fun s l h => ?_) _ _ (looked_copies l1)
    unfold State.revive
    split <;> exact h
  have ht : ((distinct ((deviceLines ps).map (· / 32))).foldl State.revive s1).ticket = s.ticket := by
    refine (foldl_keep State.ticket _ (fun s b => ?_) _ _).trans l1.ticket
    unfold State.revive
    split <;> rfl
  refine alone_read (u := t) q qf (.inl rfl) rfl rfl (seq_ok ?_) l1 rfl ht q.deferred q.replies q.pend rfl hc
  refine bind_ok (rdX_clean q.clean _) ?_
  refine bind_ok (rdX_clean q.clean _) ?_
  exact bind_ok r1 rfl

end Sys2Proof.Machine
end

