-- ==== Sys2Proof/Laws/Threads.lean ====
section
/-! SUPPORT. What launching, ending, yielding and the stand barriers do (12). -/

set_option linter.unusedSimpArgs false
set_option Elab.async false

namespace Sys2Proof.Machine

theorem launch_done {s t} (q : Ready s t) (qf : Free s t) (qc : Calm s t) (d a : BitVec 6) (va : Word) (hva : va = t.ctx.xAt a)
    (hal : va.toNat % 64 = 0) {o : Nat} {members : List Marks} {s1 s2 : State} {k1 k2 : Chunk}
    (r1 : t.reads (readRec va.toNat 64) s (opened s t) o s1 k1)
    (r2 : t.reads (readStands (launchTable o).toNat (launchCount o) (field 25 17 o)) s1 k1 members s2 k2)
    (h : LaunchTakes s2 t o members) (room : s2.queued t.parcel + k2.launches.length < 4096)
    (go : (k2.launching s2.nextLaunch (launchIssued s2 t o members)).counted.goesOn t.limit = true) :
    execLaunch d a s = .next (went { s2 with nextLaunch := s2.nextLaunch + 1 } t
      (t.ctx.put d (BitVec.ofNat 64 s2.nextLaunch)).next (k2.launching s2.nextLaunch (launchIssued s2 t o members))) := by
  subst hva
  have l1 := read_looked (reader_readRec _ _) r1
  have l2 := l1.trans (read_looked (reader_readStands _ _ _) r2)
  refine control_on (g := (0, [])) q (.inl rfl) rfl rfl (seq_ok ?_) (qf.clear l2.ticket qc.replies) go
  refine bind_ok (rdX_clean qc.clean _) ?_
  refine check_ok (fun x => x hal) ?_
  refine bind_ok r1 ?_
  refine check_ok (fun x => x h.entry) ?_
  refine check_ok (fun x => x h.table) ?_
  rw [h.fields]
  dsimp only
  refine check_ok ?_ ?_
  · rw [Bool.and_eq_true]
    rintro ⟨x1, x2⟩
    rcases h.part with hp | hp
    · exact (of_decide_eq_true x1) hp
    · rw [show partOk (BitVec.ofNat 32 (field 95 64 o)) = true from hp] at x2; cases x2
  refine bind_ok r2 ?_
  refine bind_ok (run_getT _) ?_
  refine bind_ok (run_getS _) ?_
  by_cases hg : field 16 16 o = 1
  · refine then_ok hg ?_
    refine bind_ok (run_getS _) ?_
    have hl := h.gang (decide_eq_true hg)
    generalize hv : List.find? _ (gangSets members) = u
    obtain rfl : u = none := hv.symm.trans hl
    dsimp only
    refine check_ok h.crews ?_
    refine bind_ok (run_getS _) ?_
    refine check_ok (fun x => Nat.lt_irrefl _ (Nat.lt_of_lt_of_le room x)) ?_
    refine bind_ok (run_getS _) ?_
    refine bind_ok (run_modS _ _) ?_
    refine bind_ok (run_modChunk _ _) ?_
    refine wrX_on t _ t.ctx (k2.launching s2.nextLaunch (launchIssued s2 t o members)) (0, []) qc.poison qc.deferred qc.failed (fun p => ?_) d _
    exact (qc.looked l2 t.ctx).awaits p
  · refine check_ok hg ?_
    refine check_ok h.crews ?_
    refine bind_ok (run_getS _) ?_
    refine check_ok (fun x => Nat.lt_irrefl _ (Nat.lt_of_lt_of_le room x)) ?_
    refine bind_ok (run_getS _) ?_
    refine bind_ok (run_modS _ _) ?_
    refine bind_ok (run_modChunk _ _) ?_
    refine wrX_on t _ t.ctx (k2.launching s2.nextLaunch (launchIssued s2 t o members)) (0, []) qc.poison qc.deferred qc.failed (fun p => ?_) d _
    exact (qc.looked l2 t.ctx).awaits p

theorem texit_done {s t} (q : Ready s t) (qr : t.replies = []) (k : Chunk) (hk : k = opened s t) (h1 : k.explicit = false) (h2 : t.tagsClear (~~~0) = true)
    (h3 : k.fabricOut = []) (h4 : k.tileOps = []) (h5 : s.fabric.any (·.isOf t.tid) = false) (h6 : t.tileQueue = [])
    (h7 : t.pending = none) {s' : State} {u : Thread}
    (hc : s.commit { t.past with ctx := t.ctx.next, chunk := some { k.counted with exits := true, ended := true } } = some (s', u)) :
    execTexit s = .next ((s'.setThread u).removeThread u.tid) := by
  subst hk
  refine (control_ends (n := .seq) (k := { opened s t with exits := true })
    (r := { t.on s t.ctx { opened s t with exits := true } with ends := true }) q (.inl rfl) rfl (seq_ok ?_) (.same rfl rfl rfl qr) rfl rfl rfl rfl).trans ?_
  · refine bind_ok (a := (opened s t).explicit) (r' := atBody s t) rfl ?_
    refine check_ok (by rw [h1]; simp) ?_
    refine bind_ok (observe_run (r := atBody s t) h2) ?_
    refine bind_ok (run_get _) ?_
    refine check_ok ?_ ?_
    · simp [h3, h4]
    refine check_ok ?_ ?_
    · rw [show ((atBody s t).s.fabric.any fun x => x.isOf (atBody s t).t.tid) = false from h5,
        show (atBody s t).t.tileQueue = [] from h6]
      simp
    refine check_ok ?_ rfl
    rw [show (atBody s t).t.pending = none from h7]
    simp
  · rw [goOn_follow rfl]
    have e : State.close s { t.past with ctx := t.ctx.next, chunk := some { (opened s t).counted with exits := true, ended := true } } =
        some ((s'.setThread u).removeThread u.tid) := by
      simp only [State.close, hc, if_true]
    exact congrArg Host.Outcome.next (by
      show (State.close s _).getD _ = _
      exact (congrArg (fun x => Option.getD x _) e))

theorem tyield_done {s t} (q : Ready s t) (qr : t.replies = []) (k : Chunk) (hk : k = opened s t) (h1 : k.explicit = false) (h3 : k.exits = false)
    (h4 : k.tileOps = []) (h6 : t.tileQueue = []) {s' : State} {u : Thread}
    (hc : s.commit { t.past with ctx := t.ctx.next, chunk := some { k.counted with yields := true, ended := true } } = some (s', u)) :
    execTyield s = .next (s'.yield u) := by
  subst hk
  refine (control_ends (n := .seq) (k := { opened s t with yields := true })
    (r := { t.on s t.ctx { opened s t with yields := true } with ends := true }) q (.inl rfl) rfl (seq_ok ?_) (.same rfl rfl rfl qr) rfl rfl rfl rfl).trans ?_
  · refine bind_ok (a := (opened s t).explicit) (r' := atBody s t) rfl ?_
    refine check_ok (by rw [h1]; simp) ?_
    refine bind_ok (run_getT _) ?_
    refine check_ok (by simp [h4]) ?_
    refine check_ok ?_ rfl
    rw [show (atBody s t).t.tileQueue = [] from h6]
    simp
  · rw [goOn_follow rfl]
    have h3' : (opened s t).counted.exits = false := h3
    have e : State.close s { t.past with ctx := t.ctx.next, chunk := some { (opened s t).counted with yields := true, ended := true } } =
        some (s'.yield u) := by
      unfold State.close
      rw [hc]
      dsimp only
      rw [h3']
      rfl
    exact congrArg Host.Outcome.next (by
      show (State.close s _).getD _ = _
      exact (congrArg (fun x => Option.getD x _) e))

/-! ## Stands -/

theorem readStand_run {t : Thread} {s : State} {k : Chunk} (h : Clean (t.on s t.ctx k)) (a : BitVec 6) {j : Nat} {st : Stand}
    (hj : j = (t.ctx.xAt a).toNat) (hs : StandIs s t j st) : readStand a (t.on s t.ctx k) = .ok (j, st) (t.on s t.ctx k) := by
  subst hj
  unfold readStand
  refine bind_ok (rdX_clean h _) ?_
  refine bind_ok (run_getT _) ?_
  refine bind_ok (run_getS _) ?_
  have h1 : ((tfind (launchOf (t.on s t.ctx k).t.tid) (t.on s t.ctx k).s.launches).bind
    (·.stands[((t.on s t.ctx k).t.ctx.xAt a).toNat]?)) = some st := hs.1
  rw [h1]
  dsimp only
  exact then_ok hs.2 rfl

theorem arrived_run (t : Thread) (s : State) (c : Ctx) (k : Chunk) (j : Nat) (st : Stand) :
    arrived j st (t.on s c k) = .ok (t.hasArrived k j st) (t.on s c k) := rfl

theorem touch_run (t : Thread) (s : State) (c : Ctx) (k : Chunk) (j : Nat) :
    touchStand j (t.on s c k) = .ok () (t.on s c (k.marked (standLine (launchOf t.tid) j))) := rfl

theorem sarrive_done {s t} (q : Ready s t) (qf : Free s t) (qc : Calm s t) (d a : BitVec 6) {j : Nat} {st : Stand} (hj : j = (t.ctx.xAt a).toNat)
    (hs : StandIs s t j st) (hn : t.hasArrived (opened s t) j st = false) (k : Chunk)
    (hk : k = { (opened s t).marked (standLine (launchOf t.tid) j) with arrivals := (opened s t).arrivals ++ [j] })
    (room : k.counted.goesOn t.limit = true) :
    execSarrive d a s = .next (went s t (t.ctx.put d (BitVec.ofNat 64 st.phase)).next k) := by
  subst hk
  refine control_on (g := (0, [])) q (.inl rfl) rfl rfl (seq_ok ?_) (qf.clear rfl qc.replies) ?_
  · refine bind_ok (readStand_run (k := opened s t) qc.clean a hj hs) ?_
    refine bind_ok (touch_run t s t.ctx (opened s t) j) ?_
    refine bind_ok (arrived_run t s t.ctx ((opened s t).marked (standLine (launchOf t.tid) j)) j st) ?_
    refine check_ok (by rw [show t.hasArrived ((opened s t).marked (standLine (launchOf t.tid) j)) j st = false from hn]; simp) ?_
    refine bind_ok (run_modChunk _ _) ?_
    refine wrX_on t s t.ctx _ (0, []) qc.poison qc.deferred qc.failed (fun p => ?_) d _
    exact qc.clean.awaits p
  · exact room

theorem stest_done {s t} (q : Ready s t) (qf : Free s t) (qc : Calm s t) (d a : BitVec 6) {j : Nat} {st : Stand} (hj : j = (t.ctx.xAt a).toNat)
    (hs : StandIs s t j st) (room : ((opened s t).marked (standLine (launchOf t.tid) j)).counted.goesOn t.limit = true) :
    execStest d a s = .next (went s t
      (t.ctx.put d (BitVec.ofNat 64 (st.phase + (if t.hasArrived (opened s t) j st then 2 ^ 16 else 0)))).next
      ((opened s t).marked (standLine (launchOf t.tid) j))) := by
  refine control_on (g := (0, [])) q (.inl rfl) rfl rfl (seq_ok ?_) (qf.clear rfl qc.replies) ?_
  · refine bind_ok (readStand_run (k := opened s t) qc.clean a hj hs) ?_
    refine bind_ok (touch_run t s t.ctx (opened s t) j) ?_
    refine bind_ok (arrived_run t s t.ctx _ j st) ?_
    refine wrX_on t s t.ctx _ (0, []) qc.poison qc.deferred qc.failed (fun p => ?_) d _
    exact qc.clean.awaits p
  · exact room

theorem swait_done {s t} (q : Ready s t) (qf : Free s t) (qc : Calm s t) (ho : Opening s t) (d a b : BitVec 6) {j : Nat} {st : Stand} (hj : j = (t.ctx.xAt a).toNat)
    (hs : StandIs s t j st) (hp : st.phase ≠ (t.ctx.xAt b).toNat % 2 ^ 16)
    (room : ((opened s t).marked (standLine (launchOf t.tid) j)).counted.goesOn t.limit = true) :
    execSwait d a b s = .next (went s t (t.ctx.put d (BitVec.ofNat 64 st.phase)).next
      ((opened s t).marked (standLine (launchOf t.tid) j))) := by
  refine control_on (g := (0, [])) q (.inl rfl) rfl rfl (seq_ok ?_) (qf.clear rfl qc.replies) ?_
  · refine bind_ok (opening_run ho _) ?_
    refine bind_ok (readStand_run (k := opened s t) qc.clean a hj hs) ?_
    refine bind_ok (rdX_clean qc.clean _) ?_
    refine bind_ok (awaitScalars_clean qc.clean) ?_
    refine bind_ok (touch_run t s t.ctx (opened s t) j) ?_
    refine check_ok hp ?_
    refine wrX_on t s t.ctx _ (0, []) qc.poison qc.deferred qc.failed (fun p => ?_) d _
    exact qc.clean.awaits p
  · exact room

theorem modStands_in {s0 s : State} (n : Nat) (who : Option Nat) (f : Nat → Stand → Stand) (hc : CopiesIn s0 s) (hf : FabricIn s0 s) :
    CopiesIn s0 (s.modStands n who f) ∧ FabricIn s0 (s.modStands n who f) := by
  unfold State.modStands
  split
  · exact ⟨hc, hf⟩
  · dsimp only
    split
    · exact ⟨hc, hf⟩
    · exact ⟨squash_copies _ hc, squash_fabric _ hf⟩

theorem arriveAt_in {s0 s : State} (tid : Nat) (ks : List Nat) (hc : CopiesIn s0 s) (hf : FabricIn s0 s) :
    CopiesIn s0 (s.arriveAt tid ks) ∧ FabricIn s0 (s.arriveAt tid ks) := by
  unfold State.arriveAt
  split
  · exact ⟨hc, hf⟩
  · exact modStands_in _ _ _ hc hf

/-- An sbar whose own arrival advances the phase. -/
theorem sbar_last {s t} (q : Idle s t) (ho : Opening s t) (d a : BitVec 6) {j : Nat} {st st' : Stand} (hj : j = (t.ctx.xAt a).toNat)
    (hs : StandIs s t j st) (hn : t.hasArrived (opened s t) j st = false) (hw : t.arrivedIn = none)
    (hh : s.held (some t.tid) [standLine (launchOf t.tid) j] = false) (s1 : State) (h1 : s1 = s.arriveAt t.tid [j])
    (hs' : StandIs s1 t j st') (hp : st'.phase ≠ st.phase) :
    execSbar d a s = .next (settled s1 { t.past with ctx := (t.ctx.put d (BitVec.ofNat 64 st'.phase)).next } []) := by
  have hb := opened_bare (s := s) q.chunk
  have hr : (opened s t).reads = [] := by simp [opened, q.chunk]
  have hin : CopiesIn s s1 ∧ FabricIn s s1 := by
    rw [h1]
    exact arriveAt_in _ _ (fun _ h => h) (fun _ h => h)
  have hcl : ∀ (u : Thread) (k : Chunk), k = opened s t → u.tid = t.tid → ∀ p, (u.on s1 t.ctx k).awaits p = false := by
    intro u k hk hu p
    subst hk
    have e := awaits_in (q.toCalm.looked (.refl _ _) t.ctx) hin.2 p
    unfold Running.awaits at e ⊢
    rw [show (u.on s1 t.ctx (opened s t)).t.tid = (t.on s1 t.ctx (opened s t)).t.tid from hu]
    exact e
  refine (control_closes (g := (0, [])) (n := .seq) (s' := s1) (k := opened s t)
    (u := { t with arrivedIn := none, ctx := t.ctx.put d (BitVec.ofNat 64 st'.phase) }) q.toReady (.inl rfl) rfl (seq_ok ?_) (.same rfl rfl rfl q.replies) hb.toSpare
    q.deferred q.pend (fun c hc e => q.forked c (hin.1 c hc) e) (by rw [hb.writes]; exact held_nil _ _)).trans ?_
  · refine bind_ok (opening_run ho _) ?_
    refine bind_ok (readStand_run (k := opened s t) q.clean a hj hs) ?_
    refine bind_ok (awaitScalars_clean q.clean) ?_
    refine bind_ok (a := st.phase) (r' := Thread.on { t with arrivedIn := some (j, st.phase, t.ctx.pc) } s1 t.ctx (opened s t)) ?_ ?_
    · unfold arriveOnce
      refine bind_ok (run_getT _) ?_
      rw [show (t.on s t.ctx (opened s t)).t.arrivedIn = none from hw]
      dsimp only
      unfold arriveOnce.fresh
      refine bind_ok (arrived_run t s t.ctx (opened s t) j st) ?_
      refine check_ok (by rw [hn]; simp) ?_
      refine bind_ok (run_getS _) ?_
      refine check_ok ?_ ?_
      · rw [show (t.on s t.ctx (opened s t)).s.held (some (t.on s t.ctx (opened s t)).t.tid)
          [standLine (launchOf (t.on s t.ctx (opened s t)).t.tid) j] = false from hh]
        simp
      refine bind_ok (run_modT _ _) ?_
      refine bind_ok (run_modS _ _) ?_
      subst h1
      rfl
    refine bind_ok (readStand_run (t := { t with arrivedIn := some (j, st.phase, t.ctx.pc) }) (k := opened s t)
      ⟨q.poison, q.deferred, q.failed, hcl _ _ rfl rfl⟩ a hj hs') ?_
    refine check_ok hp ?_
    refine bind_ok (run_modT _ _) ?_
    refine bind_ok (wrX_on { t with arrivedIn := none } s1 t.ctx (opened s t) (0, []) q.poison q.deferred q.failed (hcl _ _ rfl rfl) d _) ?_
    rfl
  · rw [settledWith_bare _ _ hb, hr]
    have e : ({ t.past with arrivedIn := none, ctx := (t.ctx.put d (BitVec.ofNat 64 st'.phase)).next } : Thread) =
      { t.past with ctx := (t.ctx.put d (BitVec.ofNat 64 st'.phase)).next } := by rw [← hw]; rfl
    exact congrArg (fun u => Host.Outcome.next (settled s1 u [])) e

/-- An sbar that goes on after its wait: the phase has advanced since its arrival. -/
theorem sbar_after {s t} (q : Idle s t) (ho : Opening s t) (d a : BitVec 6) {j ph : Nat} {st : Stand} (hj : j = (t.ctx.xAt a).toNat)
    (hs : StandIs s t j st) (hw : t.arrivedIn = some (j, ph, t.ctx.pc)) (hp : st.phase ≠ ph) :
    execSbar d a s = .next (settled s { t.past with arrivedIn := none, ctx := (t.ctx.put d (BitVec.ofNat 64 st.phase)).next } []) := by
  have hb := opened_bare (s := s) q.chunk
  have hr : (opened s t).reads = [] := by simp [opened, q.chunk]
  refine (control_closes (g := (0, [])) (n := .seq) (s' := s) (k := opened s t)
    (u := { t with arrivedIn := none, ctx := t.ctx.put d (BitVec.ofNat 64 st.phase) }) q.toReady (.inl rfl) rfl (seq_ok ?_) (.same rfl rfl rfl q.replies) hb.toSpare
    q.deferred q.pend q.forked (by rw [hb.writes]; exact held_nil _ _)).trans ?_
  · refine bind_ok (opening_run ho _) ?_
    refine bind_ok (readStand_run (k := opened s t) q.clean a hj hs) ?_
    refine bind_ok (awaitScalars_clean q.clean) ?_
    refine bind_ok (a := ph) (r' := t.on s t.ctx (opened s t)) ?_ ?_
    · unfold arriveOnce
      refine bind_ok (run_getT _) ?_
      rw [show (t.on s t.ctx (opened s t)).t.arrivedIn = some (j, ph, t.ctx.pc) from hw]
      dsimp only
      refine then_ok ?_ rfl
      simp
    refine bind_ok (readStand_run (k := opened s t) q.clean a hj hs) ?_
    refine check_ok hp ?_
    refine bind_ok (run_modT _ _) ?_
    refine bind_ok (wrX_on { t with arrivedIn := none } s t.ctx (opened s t) (0, []) q.poison q.deferred q.failed
      (fun p => q.clean.awaits p) d _) ?_
    rfl
  · rw [settledWith_bare _ _ hb, hr]
    rfl

end Sys2Proof.Machine
end

