-- ==== Sys2Proof/Laws/Bucking.lean ====
section
/-! SUPPORT. What the bucking instructions do (17, R367 to R372). -/

set_option linter.unusedSimpArgs false
set_option Elab.async false

namespace Sys2Proof.Machine

theorem slotFree_run {t : Thread} {s : State} {k : Chunk} (h : SlotFree s t k) (c : Ctx) :
    slotFree (t.on s c k) = .ok () (t.on s c (k.marked (slotLine t.parcel))) := by
  obtain ⟨h1, h2⟩ := h
  refine bind_ok (a := none) (r' := t.on s c (k.marked (slotLine t.parcel))) ?_ ?_
  · refine bind_ok (run_get _) ?_
    refine bind_ok (run_modChunk _ _) ?_
    show (match k.traverse with
      | some v => pure (some v)
      | none => pure (tfind t.parcel s.traverses) : Exec (Option Traverse)) _ = _
    rw [h1, h2]
    rfl
  · exact check_ok (by simp) rfl

theorem reader_announceTo (yes : Bool) (w : Word) : Reader (announceTo yes w) :=
  reader_ite (reader_bind (reader_barPlace _ _) fun _ => reader_bind (reader_readBar _ _) fun _ => reader_pure _) (reader_pure _)

theorem announced_out (k : Chunk) (n : Nat) (o : Option (Nat × Nat)) : (k.announced n o).fabricOut = k.fabricOut := by
  rcases o with _ | ⟨l, o⟩
  · rfl
  · exact store_out _ _

theorem issued_out (k : Chunk) (tag : Nat) : (k.issued tag).fabricOut = k.fabricOut := rfl
theorem claiming_out (k : Chunk) (p : Nat) (v : Traverse) : (k.claiming p v).fabricOut = k.fabricOut := rfl

theorem out_clean {t u : Thread} {s : State} {c c' : Ctx} {k k' : Chunk} (h : Clean (t.on s c k)) (e : k'.fabricOut = k.fabricOut)
    (ht : u.tid = t.tid) (p : Dest → Bool) : (u.on s c' k').awaits p = false := by
  have := h.awaits p
  unfold Running.awaits at this ⊢
  simp only [on_t, on_s, Option.any_some] at this ⊢
  rw [e, ht]
  exact this

/-- bkstart as a plan. -/
theorem bkstart_plan {s t} (q : Ready s t) (qf : Free s t) (qc : Calm s t) (d a b : BitVec 6) (va req : Word) (hva : va = t.ctx.xAt a)
    (hreq : req = t.ctx.xAt b) (hal : va.toNat % 128 = 0) (hz : field 63 38 req.toNat = 0 ∧ field 31 1 req.toNat = 0)
    (plan : req.getLsbD 0 = true) {o loc : Nat} {v : Derived} {s1 s2 s3 : State} {k1 k2 k3 : Chunk}
    (r1 : t.reads (readRec va.toNat 128) s (opened s t) o s1 k1)
    (r2 : t.reads (deriveTraverse (cursorSplat o) (cursorDplat o)) s1 k1 v s2 k2)
    (r3 : t.reads (recPlace .store va.toNat) s2 k2 loc s3 k3) (k : Chunk)
    (hk : k = k3.store (cursorWrites loc (cursorState 4 :: cursorClear ++ v.fields))) (room : k.counted.goesOn t.limit = true) :
    execBkstart d a b s = .next (went s3 t (t.ctx.put d (BitVec.ofNat 64 v.out.length)).next k) := by
  subst hva
  subst hreq
  subst hk
  have l1 := read_looked (reader_readRec _ _) r1
  have l2 := l1.trans (read_looked (reader_deriveTraverse _ _) r2)
  have l3 := l2.trans (read_looked (reader_recPlace _ _) r3)
  refine control_on (g := (0, [])) q (.inl rfl) rfl rfl (seq_ok ?_) (qf.clear l3.ticket qc.replies) room
  refine bind_ok (rdX_clean qc.clean _) ?_
  refine bind_ok (rdX_clean qc.clean _) ?_
  refine check_ok (fun x => x hal) ?_
  refine check_ok (or_no (dec_no (fun x => x hz.1)) (dec_no (fun x => x hz.2))) ?_
  refine bind_ok r1 ?_
  refine bind_ok r2 ?_
  have hpl : ((atBody s t).t.ctx.xAt b).getLsbD 0 = true := plan
  refine check_ok (by rw [hpl]; simp) ?_
  refine bind_ok r3 ?_
  rw [hpl]
  refine check_ok (by simp) ?_
  refine bind_ok (run_pure _ _) ?_
  dsimp only
  refine bind_ok (store_run qc.deferred _) ?_
  refine check_ok (by simp) ?_
  refine wrX_on t s3 t.ctx _ (0, []) qc.poison qc.deferred qc.failed (fun p => ?_) d _
  exact out_clean (qc.looked l3 t.ctx) (store_out _ _) rfl p

theorem claim_run {t : Thread} {s : State} {c : Ctx} {k : Chunk} (hc : c.priv = t.ctx.priv) (v : Derived) (tag : Nat) (cur : Word)
    (loc next : Nat) (done : BitVec 64) :
    claim v tag cur loc next done (t.on s c k) = .ok () ((t.tagged tag).on s c
      ((k.issued tag).claiming t.parcel (claimed t v tag cur loc next done))) := by
  unfold claim
  refine bind_ok (run_getT _) ?_
  refine bind_ok (takeTag_run _ _ _ _ _ _) ?_
  unfold claimed
  rw [← hc]
  rfl

/-- bkstart of a traverse. -/
theorem bkstart_done {s t} (q : Ready s t) (qf : Free s t) (qc : Calm s t) (d a b : BitVec 6) (va req : Word) (hva : va = t.ctx.xAt a)
    (hreq : req = t.ctx.xAt b) (hal : va.toNat % 128 = 0) (hz : field 63 38 req.toNat = 0 ∧ field 31 1 req.toNat = 0)
    (plan : req.getLsbD 0 = false) {o loc : Nat} {v : Derived} {s1 s2 s3 s4 : State} {k1 k2 k3 k4 : Chunk}
    (r1 : t.reads (readRec va.toNat 128) s (opened s t) o s1 k1)
    (r2 : t.reads (deriveTraverse (cursorSplat o) (cursorDplat o)) s1 k1 v s2 k2) (free : SlotFree s2 t k2) (fits : v.inbytes < 2 ^ 47)
    (r3 : t.reads (recPlace .store va.toNat) s2 (k2.marked (slotLine t.parcel)) loc s3 k3) {ann : Option (Nat × Nat)}
    (r4 : t.reads (announceTo (v.inbytes != 0 && v.rrec != 0) v.rrec) s3 k3 ann s4 k4) (k : Chunk)
    (hk : k = ((((k4.announced v.inbytes ann).store (cursorWrites loc (cursorState 1 :: cursorClear ++ v.fields))).issued
      (field 37 32 req.toNat)).claiming t.parcel (claimed t v (field 37 32 req.toNat) va loc 0 0)))
    (room : k.counted.goesOn t.limit = true) :
    execBkstart d a b s = .next (went s4 (t.tagged (field 37 32 req.toNat)) (t.ctx.put d (BitVec.ofNat 64 v.out.length)).next k) := by
  subst hva
  subst hreq
  subst hk
  have l1 := read_looked (reader_readRec _ _) r1
  have l2 := l1.trans (read_looked (reader_deriveTraverse _ _) r2)
  have l2' : Looked s s2 (opened s t) (k2.marked (slotLine t.parcel)) :=
    l2.trans (.of rfl rfl)
  have l3 := l2'.trans (read_looked (reader_recPlace _ _) r3)
  have l4 := l3.trans (read_looked (reader_announceTo _ _) r4)
  refine control_with (u := t.tagged (field 37 32 (t.ctx.xAt b).toNat)) (g := (0, [])) q (.inl rfl) rfl rfl (seq_ok ?_) (qf.clear l4.ticket qc.replies) room
  refine bind_ok (rdX_clean qc.clean _) ?_
  refine bind_ok (rdX_clean qc.clean _) ?_
  refine check_ok (fun x => x hal) ?_
  refine check_ok (or_no (dec_no (fun x => x hz.1)) (dec_no (fun x => x hz.2))) ?_
  refine bind_ok r1 ?_
  refine bind_ok r2 ?_
  have hpl : ((atBody s t).t.ctx.xAt b).getLsbD 0 = false := plan
  rw [hpl]
  refine then_ok (by simp) ?_
  refine bind_ok (slotFree_run free t.ctx) ?_
  refine bind_ok r3 ?_
  have tail : ∀ u : Unit, (do
      writeLoc (cursorWrites loc (cursorState 1 :: cursorClear ++ v.fields))
      claim v (field 37 32 (t.ctx.xAt b).toNat) (t.ctx.xAt a) loc 0 0
      wrX d (BitVec.ofNat 64 v.out.length) : Exec Unit) (t.on s4 t.ctx (k4.announced v.inbytes ann)) = .ok () ((t.tagged (field 37 32 (t.ctx.xAt b).toNat)).on s4 (t.ctx.put d (BitVec.ofNat 64 v.out.length))
      ((((k4.announced v.inbytes ann).store (cursorWrites loc (cursorState 1 :: cursorClear ++ v.fields))).issued
      (field 37 32 (t.ctx.xAt b).toNat)).claiming t.parcel (claimed t v (field 37 32 (t.ctx.xAt b).toNat) (t.ctx.xAt a) loc 0 0))) := by
    intro _
    refine bind_ok (store_run qc.deferred _) ?_
    refine bind_ok (claim_run rfl _ _ _ _ _ _) ?_
    have ho : ((((k4.announced v.inbytes ann).store (cursorWrites loc (cursorState 1 :: cursorClear ++ v.fields))).issued
        (field 37 32 (t.ctx.xAt b).toNat)).claiming t.parcel
          (claimed t v (field 37 32 (t.ctx.xAt b).toNat) (t.ctx.xAt a) loc 0 0)).fabricOut = k4.fabricOut :=
      (claiming_out _ _ _).trans ((issued_out _ _).trans ((store_out _ _).trans (announced_out _ _ _)))
    revert ho
    generalize ((((k4.announced v.inbytes ann).store (cursorWrites loc (cursorState 1 :: cursorClear ++ v.fields))).issued
        (field 37 32 (t.ctx.xAt b).toNat)).claiming t.parcel
          (claimed t v (field 37 32 (t.ctx.xAt b).toNat) (t.ctx.xAt a) loc 0 0)) = K
    intro ho
    exact wrX_on (t.tagged (field 37 32 (t.ctx.xAt b).toNat)) s4 t.ctx K (0, []) qc.poison qc.deferred qc.failed
      (out_clean (t := t) (u := t.tagged (field 37 32 (t.ctx.xAt b).toNat)) (c' := t.ctx) (qc.looked l4 t.ctx) ho rfl) d _
  unfold Thread.reads announceTo at r4
  simp only [Bool.false_eq_true, if_false, Bool.not_false, Bool.true_and, if_true]
  by_cases hy : (v.inbytes != 0 && v.rrec != 0) = true
  · rw [if_pos hy] at r4
    have hy' : (decide (v.inbytes ≠ 0) && decide (v.rrec ≠ 0)) = true := by simpa using hy
    refine then_ok hy' ?_
    rw [run_bind] at r4
    cases e1 : barPlace .amo v.rrec (t.on s3 t.ctx k3) with
    | error x y => rw [e1] at r4; cases r4
    | ok l r =>
      rw [e1] at r4
      dsimp only at r4
      rw [run_bind] at r4
      cases e2 : readBar v.rrec l r with
      | error x y => rw [e2] at r4; cases r4
      | ok m r' =>
        rw [e2] at r4
        simp only [run_pure, EStateM.Result.ok.injEq] at r4
        obtain ⟨rfl, rfl⟩ := r4
        refine bind_ok (map_ok e1) ?_
        dsimp only
        refine check_ok (Nat.not_le.mpr fits) ?_
        refine bind_ok e2 ?_
        refine bind_ok (store_run qc.deferred _) ?_
        exact tail ()
  · rw [if_neg hy] at r4
    have hy' : ¬ (decide (v.inbytes ≠ 0) && decide (v.rrec ≠ 0)) = true := by simpa using hy
    refine check_ok hy' ?_
    simp only [run_pure, EStateM.Result.ok.injEq] at r4
    obtain ⟨rfl, e⟩ := r4
    rw [e]
    refine bind_ok (run_pure _ _) ?_
    exact tail ()

/-- bkresume. -/
theorem bkresume_done {s t} (q : Ready s t) (qf : Free s t) (qc : Calm s t) (d a b : BitVec 6) (va req : Word) (hva : va = t.ctx.xAt a)
    (hreq : req = t.ctx.xAt b) (hal : va.toNat % 128 = 0) (hz : field 63 38 req.toNat = 0 ∧ field 31 0 req.toNat = 0)
    {o loc : Nat} {v : Derived} {s1 s2 s3 : State} {k1 k2 k3 : Chunk}
    (r1 : t.reads (readRec va.toNat 128) s (opened s t) o s1 k1)
    (r2 : t.reads (deriveTraverse (cursorSplat o) (cursorDplat o)) s1 k1 v s2 k2) (hr : resumable o v) (free : SlotFree s2 t k2)
    (r3 : t.reads (recPlace .store va.toNat) s2 (k2.marked (slotLine t.parcel)) loc s3 k3) (k : Chunk)
    (hk : k = (((k3.store (cursorWrites loc (cursorState 1 :: cursorClear))).issued (field 37 32 req.toNat)).claiming t.parcel
      (claimed t v (field 37 32 req.toNat) va loc (field 151 128 o) (BitVec.ofNat 64 (field 319 256 o)))))
    (room : k.counted.goesOn t.limit = true) :
    execBkresume d a b s = .next (went s3 (t.tagged (field 37 32 req.toNat)) (t.ctx.put d (BitVec.ofNat 64
      (((List.range (v.out.length - field 151 128 o)).filter fun k => !(field 319 256 o).testBit k).length))).next k) := by
  subst hva
  subst hreq
  subst hk
  obtain ⟨y1, y2, y3, y4, y5, y6, y7⟩ := hr
  have l1 := read_looked (reader_readRec _ _) r1
  have l2 := l1.trans (read_looked (reader_deriveTraverse _ _) r2)
  have l2' : Looked s s2 (opened s t) (k2.marked (slotLine t.parcel)) :=
    l2.trans (.of rfl rfl)
  have l3 := l2'.trans (read_looked (reader_recPlace _ _) r3)
  refine control_with (u := t.tagged (field 37 32 (t.ctx.xAt b).toNat)) (g := (0, [])) q (.inl rfl) rfl rfl (seq_ok ?_) (qf.clear l3.ticket qc.replies) room
  refine bind_ok (rdX_clean qc.clean _) ?_
  refine bind_ok (rdX_clean qc.clean _) ?_
  refine check_ok (fun x => x hal) ?_
  refine check_ok (or_no (dec_no (fun x => x hz.1)) (dec_no (fun x => x hz.2))) ?_
  refine bind_ok r1 ?_
  refine bind_ok r2 ?_
  refine check_ok (or_no (or_no (or_no (or_no (or_no (or_no (dec_no fun x => x y1) (dec_no fun x => x y2)) (dec_no fun x => x y3))
    (dec_no fun x => x y4)) (dec_no fun x => x y5)) (dec_no (Nat.not_lt.mpr y6))) (dec_no fun x => x y7)) ?_
  refine bind_ok (slotFree_run free t.ctx) ?_
  refine bind_ok r3 ?_
  refine bind_ok (store_run qc.deferred _) ?_
  refine bind_ok (claim_run rfl _ _ _ _ _ _) ?_
  refine wrX_on (t.tagged (field 37 32 (t.ctx.xAt b).toNat)) s3 t.ctx _ (0, []) qc.poison qc.deferred qc.failed (fun p => ?_) d _
  exact out_clean (t := t) (u := t.tagged (field 37 32 (t.ctx.xAt b).toNat)) (c' := t.ctx) (qc.looked l3 t.ctx)
    ((claiming_out _ _ _).trans ((issued_out _ _).trans (store_out _ _))) rfl p

theorem bkstat_done {s t} (q : Ready s t) (qf : Free s t) (qc : Calm s t) (d a : BitVec 6)
    (room : ((opened s t).marked (slotLine t.parcel)).counted.goesOn t.limit = true) :
    execBkstat d a s = .next (went s t (t.ctx.put d
      (statWord (t.ctx.xAt a) ((opened s t).traverse.or (tfind t.parcel s.traverses)))).next ((opened s t).marked (slotLine t.parcel))) := by
  refine control_on (g := (0, [])) q (.inl rfl) rfl rfl (seq_ok ?_) (qf.clear rfl qc.replies) room
  refine bind_ok (rdX_clean qc.clean _) ?_
  refine bind_ok (a := (opened s t).traverse.or (tfind t.parcel s.traverses))
    (r' := t.on s t.ctx ((opened s t).marked (slotLine t.parcel))) ?_ ?_
  · refine bind_ok (run_get _) ?_
    refine bind_ok (run_modChunk _ _) ?_
    show (match (opened s t).traverse with
      | some v => pure (some v)
      | none => pure (tfind t.parcel s.traverses) : Exec (Option Traverse)) _ = _
    cases (opened s t).traverse <;> rfl
  · cases (opened s t).traverse.or (tfind t.parcel s.traverses) with
    | none =>
      refine wrX_on t s t.ctx _ (0, []) qc.poison qc.deferred qc.failed (fun p => ?_) d _
      exact qc.clean.awaits p
    | some v =>
      refine wrX_on t s t.ctx _ (0, []) qc.poison qc.deferred qc.failed (fun p => ?_) d _
      exact qc.clean.awaits p

end Sys2Proof.Machine
end

