-- ==== Sys2Proof/Laws/Commits.lean ====
section
/-! SUPPORT. The commit of a chunk, whatever it holds (R179): launches, arrivals, engines and requests to other devices. -/

set_option linter.unusedSimpArgs false

namespace Sys2Proof.Machine

/-! ## What most operations do to the table of threads -/

/-- A property of the table that holds on when entries are changed in place, each thread under its name and of its parcel. -/
structure Stays (P : Table Thread → Prop) : Prop where
  map : ∀ {m : Table Thread} (g : Nat × Thread → Nat × Thread), (∀ e, (g e).1 = e.1) → (∀ e, (g e).2.tid = e.2.tid ∧ (g e).2.parcel = e.2.parcel) →
    P m → P (m.map g)
  mod : ∀ {m : Table Thread} (k : Nat) (f : Thread → Thread), (∀ t, (f t).tid = t.tid ∧ (f t).parcel = t.parcel) → P m → P (tmod k f m)

theorem Stays.same {P : Table Thread → Prop} {s s' : State} (h : P s.threads) (e : s'.threads = s.threads) : P s'.threads := by
  rw [e]
  exact h

theorem record_same (t : Thread) (f : Trap) : (t.record f).tid = t.tid ∧ (t.record f).parcel = t.parcel := by
  unfold Thread.record
  split <;> exact ⟨rfl, rfl⟩

theorem performLate_same (t : Thread) (s : State) (bad : Bool) (d l : Nat) :
    (t.performLate s bad d l).tid = t.tid ∧ (t.performLate s bad d l).parcel = t.parcel := by
  unfold Thread.performLate
  show (List.foldl _ t _).tid = t.tid ∧ (List.foldl _ t _).parcel = t.parcel
  generalize t.deferred.filter _ = ds
  have one : ∀ (t : Thread) (d : Deferred), (Deferred.perform s bad t d).tid = t.tid ∧ (Deferred.perform s bad t d).parcel = t.parcel := by
    intro t d
    unfold Deferred.perform
    split
    · exact record_same t _
    · exact ⟨rfl, rfl⟩
  induction ds generalizing t with
  | nil => exact ⟨rfl, rfl⟩
  | cons e ds ih => exact ⟨(ih _).1.trans (one t e).1, (ih _).2.trans (one t e).2⟩

section
variable {P : Table Thread → Prop} (c : Stays P) {s : State}
include c

theorem Stays.squashIf (h : P s.threads) (p : Thread → Chunk → Bool) : P (s.squashIf p).threads := by
  unfold State.squashIf
  simp only
  split
  · exact h
  · refine c.map _ (fun _ => rfl) (fun e => ?_) h
    dsimp only
    split
    · split <;> exact ⟨rfl, rfl⟩
    · exact ⟨rfl, rfl⟩

theorem Stays.fillCopy (h : P s.threads) (d l : Nat) : P (s.fillCopy d l).threads := by
  unfold State.fillCopy
  split
  · exact h
  · have h1 : P ((s.takeCopy d l).countDead (l * 128)).threads := by
      refine Stays.same h ?_
      unfold State.countDead
      split <;> rfl
    unfold State.performLate
    split
    · exact c.map _ (fun _ => rfl) (fun e => performLate_same _ _ _ _ _) h1
    · exact h1

theorem Stays.putByte (h : P s.threads) (w : Write) : P (s.putByte w).threads := by
  obtain ⟨loc, mask, b⟩ := w
  unfold State.putByte
  simp only
  split
  · exact h
  · exact c.fillCopy h _ _

theorem Stays.wake (h : P s.threads) (who : Option Nat) (ls : Marks) : P (s.wake who ls).threads := by
  refine c.map _ (fun _ => rfl) (fun e => ?_) h
  cases e.2.pause <;> simp only <;> (repeat' split) <;> exact ⟨rfl, rfl⟩

theorem Stays.unit (h : P s.threads) (who : Option Nat) (ws : List Write) : P (s.unit who ws).threads := by
  unfold State.unit
  simp only
  refine c.wake (Stays.same (P := P) (s := (distinct (ws.map (·.1 / 128))).foldl (fun s l => s.lineWritten _ l) (ws.foldl State.putByte _)) ?_ rfl) _ _
  refine foldl_inv (fun s => P s.threads) _ (fun s l hs => Stays.same (P := P) hs (lineWritten_keep _ (fun _ _ _ _ => rfl) s _ l)) _ ?_
  refine foldl_inv (fun s => P s.threads) _ (fun s w hs => c.putByte hs w) _ ?_
  exact c.squashIf (Stays.same (P := P) h (heatFor_keep State.threads (fun _ _ _ => rfl) _ _ _)) _

theorem Stays.modStands (h : P s.threads) (n : Nat) (who : Option Nat) (f : Nat → Stand → Stand) : P (s.modStands n who f).threads := by
  unfold State.modStands
  split
  · exact h
  · simp only
    split
    · exact h
    · exact c.squashIf h _

theorem Stays.arriveAt (h : P s.threads) (who : Nat) (ks : List Nat) : P (s.arriveAt who ks).threads := by
  unfold State.arriveAt
  split
  · exact h
  · exact c.modStands h _ _ _

theorem Stays.endTraverse (h : P s.threads) (parcel : Nat) (v : Traverse) (fs : List (Nat × Nat × Nat)) (f : Option Trap) :
    P (s.endTraverse parcel v fs f).threads := by
  unfold State.endTraverse
  refine c.mod _ _ (fun t => ⟨rfl, rfl⟩) ?_
  refine Stays.same (P := P) (c.squashIf (s := if (ofHost v.cursorLoc && decide (s.fyzWidth = 0)) = true then s else s.unit none (cursorWrites v.cursorLoc fs)) ?_
    fun _ c => c.meets [slotLine parcel]) rfl
  split
  · exact h
  · exact c.unit h _ _

theorem Stays.forkTraverse (h : P s.threads) (who parcel : Nat) (v : Option Traverse) : P (s.forkTraverse who parcel v).threads := by
  cases v with
  | none => exact h
  | some v =>
    unfold State.forkTraverse
    simp only
    split
    · exact c.endTraverse (c.squashIf h _) _ _ _ _
    · exact c.squashIf h _

theorem Stays.finish (h : P s.threads) (q : FabricReq) (code : Nat) (data : List Byte) : P (s.finish q code data).threads := by
  unfold State.finish
  simp only
  cases q.reply <;> simp only <;> (repeat' split) <;> first | exact h | refine c.mod _ _ (fun t => ?_) h
  all_goals (repeat' split) <;> first | exact ⟨rfl, rfl⟩ | exact record_same _ _

theorem Stays.sendReq (h : P s.threads) (q : FabricReq) : P (s.sendReq q).threads := by
  unfold State.sendReq
  simp only
  split
  · exact h
  · unfold State.depart
    simp only
    split
    · exact c.finish (s := { s with nextId := s.nextId + 1 }) h _ _ _
    · exact h

end

theorem forkAll_threads (s : State) (who : Nat) : (s.forkAll who).threads = s.threads := by
  unfold State.forkAll
  simp only
  split <;> rfl

/-! ## A thread's entry -/

/-- The table has a thread's entry, under its own name. -/
def Named (tid : Nat) (m : Table Thread) : Prop := ∃ t, tfind tid m = some t ∧ t.tid = tid

theorem Named.put {tid k : Nat} {u : Thread} {m : Table Thread} (h : Named tid m) (hu : u.tid = k) : Named tid (tput k u m) := by
  by_cases e : tid = k
  · subst e
    exact ⟨u, tfind_tput_self _ _ _, hu⟩
  · unfold Named
    rw [tfind_tput_other e]
    exact h

theorem named_stays (tid : Nat) : Stays (Named tid) where
  map g hg ht h := by
    obtain ⟨t, h, e⟩ := h
    exact ⟨_, by rw [tfind_map g hg, h]; rfl, (ht _).1.trans e⟩
  mod {m} k f hf h := by
    unfold tmod
    split
    · rename_i t ht
      by_cases e : tid = k
      · subst e
        obtain ⟨u, h1, h2⟩ := h
        rw [ht] at h1
        cases h1
        exact ⟨_, tfind_tput_self _ _ _, (hf _).1.trans h2⟩
      · unfold Named
        rw [tfind_tput_other e]
        exact h
    · exact h

theorem Named.createLaunch {tid : Nat} {s : State} (h : Named tid s.threads) (n : Nat) (l : Launch) : Named tid (s.createLaunch n l).threads := by
  unfold State.createLaunch
  refine (named_stays tid).squashIf ?_ _
  have key : ∀ (is : List Nat) (f : Nat → Nat × Thread) (m : Table Thread), (∀ i, (f i).2.tid = (f i).1) → Named tid m →
      Named tid (is.foldl (fun m i => tput (f i).1 (f i).2 m) m) := by
    intro is f m hf
    induction is generalizing m with
    | nil => exact fun hm => hm
    | cons i is ih => exact fun hm => ih _ (hm.put (hf i))
  exact key (List.range l.count) (fun i => (_, _)) _ (fun i => rfl) h

theorem committed_held (s : State) (u : Thread) (k : Chunk) : Named u.tid (committed s u k).threads := by
  have c := named_stays u.tid
  unfold committed
  simp only
  rw [release_threads]
  refine foldl_inv (fun s => Named u.tid s.threads) _ (fun s q hs => c.sendReq hs q) _ ?_
  rw [foldl_keep State.threads _ (fun s l => queueFar_keep State.threads (fun _ _ _ => rfl) s _ _ l)]
  refine c.arriveAt (c.forkTraverse ?_ _ _ _) _ _
  rw [forkAll_threads, foldl_keep State.threads (fun s w => s.writeParcel u.parcel w) (fun s w => rfl)]
  refine foldl_inv (fun s => Named u.tid s.threads) _ (fun s e hs => Named.createLaunch hs e.1 e.2) _ ?_
  exact c.unit (s := s.setThread (u.closed k)) ⟨u.closed k, tput_found _ _ _, rfl⟩ (some u.tid) (k.stores.map fun e => (e.1, e.2.1, e.2.2))

/-- The commit of a chunk, of a thread without loads that are still to come. -/
theorem commit_all {s : State} {u : Thread} {k : Chunk} (hk : u.chunk = some k) (hx : k.exits = false) (hd : u.deferred = [])
    (hp : u.pendTrap = none) (hh : s.letsCommit u k = true) : ∃ u', tfind u.tid (committed s u k).threads = some u' ∧ u'.tid = u.tid ∧
    s.commit u = some (committed s u k, u') := by
  obtain ⟨u', hu', he⟩ := committed_held s u k
  refine ⟨u', hu', he, ?_⟩
  have hu : ({ u with
      chunk := none, lastReads := k.reads, tileQueue := u.tileQueue ++ k.tileOps, squashes := 0, squashesAtOne := 0, failures := [],
      limit := baseLimit u.chunkhint, statFresh := u.statFresh || k.explicit,
      deferred := [], replies := [] } : Thread) = u.closed k := by
    simp only [Thread.closed, Thread.settled, hp, hd]
  have h1 : (s.held (some u.tid) (k.writes ++ k.arrivals.map (standLine (launchOf u.tid)) ++ if k.traverse.isSome then [slotLine u.parcel] else [])
      || (!k.launches.isEmpty && s.pins (some u.tid) (s.crowds u.parcel k.launches.length))) = false := by
    unfold State.letsCommit at hh
    revert hh
    cases s.held (some u.tid) _ <;> cases k.launches.isEmpty <;> cases s.pins (some u.tid) _ <;> simp
  simp only [State.commit, hk, hx, Bool.false_eq_true, if_false, h1, hd, List.map_nil, hu]
  show (match tfind u.tid (committed s u k).threads with
    | some t => some (committed s u k, t)
    | none => some (committed s u k, u.closed k)) = _
  rw [hu']

theorem close_all {s : State} {u : Thread} {k : Chunk} (hk : u.chunk = some k) (hx : k.exits = false) (hy : k.yields = false)
    (hd : u.deferred = []) (hp : u.pendTrap = none) (hh : s.letsCommit u k = true) : s.close u = some (committed s u k) := by
  obtain ⟨u', h1, e, h2⟩ := commit_all hk hx hd hp hh
  simp only [State.close, h2, hk, hx, hy, Bool.false_eq_true, if_false]
  rw [setThread_self (by rw [e]; exact h1)]

theorem chkend_all {s t} (q : Ready s t) (hr : t.replies = []) (k : Chunk) (hk : k = opened s t) (hx : k.exits = false) (hy : k.yields = false)
    (hd : t.deferred = []) (hh : s.letsCommit t k = true) :
    execChkend s = .next (committed s { t.past with ctx := t.ctx.next } k) := by
  subst hk
  refine Eq.trans (control_ends (n := .seq) (r := { atBody s t with ends := true }) (k := opened s t) q (.inl rfl) rfl rfl (.same rfl rfl rfl hr)
    rfl rfl rfl rfl) ?_
  rw [goOn_follow rfl]
  simp only [Bool.false_eq_true, if_false]
  exact congrArg (fun o : Option State => Host.Outcome.next (o.getD _))
    (close_all (k := { opened s t with ended := true }) (u := { { t.past with ctx := t.ctx.next } with chunk := some { opened s t with ended := true } }) rfl hx hy hd q.pend hh)

/-! ## What a commit does for its parts -/

/-- A launch has its entry, and each of its threads is created, waiting for placement (R257). -/
theorem launch_made (s : State) (n : Nat) (l m : Launch) (hm : m = { l with stands := l.stands.map fun (st : Stand) => { st with live := st.members.length } }) :
    tfind n (s.createLaunch n l).launches = some m ∧
    (∀ i < l.count, tfind (n * 2 ^ 24 + i) (s.createLaunch n l).threads = some (newThread n m i s.cycle s.nextId)) ∧
    (∀ k t, (∀ i < l.count, k ≠ n * 2 ^ 24 + i) → t.chunk = none → tfind k s.threads = some t → tfind k (s.createLaunch n l).threads = some t) := by
  have sq : ∀ (s : State) (p : Thread → Chunk → Bool) (k : Nat) (t : Thread), t.chunk = none → tfind k s.threads = some t →
      tfind k (s.squashIf p).threads = some t := by
    intro s p k t hc h
    unfold State.squashIf
    simp only
    split
    · exact h
    · refine Eq.trans (tfind_map _ ?_ _ _) ?_
      · exact fun _ => rfl
      · simp only [State.dropIssued]
        rw [h]
        simp [hc]
  have sl : ∀ (s : State) (p : Thread → Chunk → Bool), (s.squashIf p).launches = s.launches := by
    intro s p
    unfold State.squashIf
    simp only
    split <;> rfl
  have made : ∀ (c : Nat) (T : Table Thread) (f : Nat → Thread),
      (∀ i < c, tfind (n * 2 ^ 24 + i) ((List.range c).foldl (fun m i => tput (n * 2 ^ 24 + i) (f i) m) T) = some (f i)) ∧
      ∀ k, (∀ i < c, k ≠ n * 2 ^ 24 + i) → tfind k ((List.range c).foldl (fun m i => tput (n * 2 ^ 24 + i) (f i) m) T) = tfind k T := by
    intro c T f
    induction c with
    | zero => exact ⟨fun i h => absurd h (Nat.not_lt_zero _), fun k _ => rfl⟩
    | succ c ih =>
      simp only [List.range_succ, List.foldl_append, List.foldl_cons, List.foldl_nil]
      refine ⟨fun i hi => ?_, fun k hk => ?_⟩
      · by_cases e : i = c
        · subst e
          exact tfind_tput_self _ _ _
        · rw [tfind_tput_other (by omega)]
          exact ih.1 i (by omega)
      · rw [tfind_tput_other (hk c (by omega))]
        exact ih.2 k fun i hi => hk i (by omega)
  subst hm
  unfold State.createLaunch
  refine ⟨by rw [sl]; exact tfind_tput_self _ _ _, fun i hi => sq _ _ _ _ rfl ?_, fun k t hk hc ht => sq _ _ _ _ hc ?_⟩
  · exact (made l.count s.threads _).1 i hi
  · exact ((made l.count s.threads _).2 k hk).trans ht

/-- The arrival of member i at a stand at which it has not arrived (R267, R268). -/
theorem stand_arrives (st : Stand) (i : Nat) :
    (st.bits.contains i = true → st.arrive i = st) ∧
    (st.bits.contains i = false → 1 ≤ st.live → st.arrived + 1 = st.live →
      st.arrive i = { st with phase := (st.phase + 1) % 2 ^ 16, arrived := 0, bits := [] }) ∧
    (st.bits.contains i = false → st.arrived + 1 ≠ st.live → st.arrive i = { st with arrived := st.arrived + 1, bits := mput i st.bits }) := by
  refine ⟨fun h => ?_, fun h h1 h2 => ?_, fun h h2 => ?_⟩
  · simp only [Stand.arrive, h, if_true]
  · simp only [Stand.arrive, Stand.settle, h, h2, Bool.false_eq_true, if_false, beq_self_eq_true, decide_eq_true h1, Bool.and_self, if_true]
  · simp only [Stand.arrive, Stand.settle, h, Bool.false_eq_true, if_false, beq_eq_false_iff_ne.2 h2, Bool.and_false]

theorem depart_out (s : State) (q : FabricReq) (h : s.unsent q.dev q.lead = none) :
    (s.depart q).fabric = s.fabric.filter (·.id != q.id) ++ [{ q with
      port := s.portFor q.dev q.lead, sent := true, issued := s.cycle, stage := 0, waiting := s.bufferFree 0 (s.portFor q.dev q.lead),
      first := (q.die, q.id), last := (q.die, q.id) }] := by
  unfold State.depart
  simp only [h]

theorem depart_fails (s : State) (q : FabricReq) (code : Nat) (h : s.unsent q.dev q.lead = some code) :
    s.depart q = s.finish { q with
      port := s.portFor q.dev q.lead, sent := true, issued := s.cycle, stage := 0, waiting := s.bufferFree 0 (s.portFor q.dev q.lead),
      first := (q.die, q.id), last := (q.die, q.id) } code [] := by
  unfold State.depart
  simp only [h]

/-- A request to another device joins the others under the tenant header of its parcel, or completes at its source with the code of a
device that is lost or that no route leads to (R321, R325, R355). -/
theorem request_sent (s : State) (q r : FabricReq)
    (hr : r = { q with
      id := s.nextId, header := tenantHeader (s.parcel q.parcel).outkey q.parcel (s.devnum.getD 0), port := s.portFor q.dev q.lead })
    (u : State) (hu : u = { s with nextId := s.nextId + 1 }) :
    (u.waitsToLeave r = true → s.sendReq q = { u with fabric := s.fabric ++ [r] }) ∧
    (u.waitsToLeave r = false → s.unsent q.dev q.lead = none → (s.sendReq q).fabric = s.fabric.filter (·.id != s.nextId) ++
      [{ r with sent := true, issued := s.cycle, stage := 0, waiting := s.bufferFree 0 r.port, first := (q.die, s.nextId), last := (q.die, s.nextId) }]) ∧
    (∀ code, u.waitsToLeave r = false → s.unsent q.dev q.lead = some code → s.sendReq q = u.finish { r with
      sent := true, issued := s.cycle, stage := 0, waiting := s.bufferFree 0 r.port, first := (q.die, s.nextId), last := (q.die, s.nextId) } code []) := by
  subst hr hu
  refine ⟨fun h => ?_, fun h hn => ?_, fun code h hc => ?_⟩
  · simp only [State.sendReq]
    rw [if_pos h]
  · simp only [State.sendReq]
    rw [if_neg (by rw [h]; exact Bool.false_ne_true)]
    exact depart_out _ _ hn
  · simp only [State.sendReq]
    rw [if_neg (by rw [h]; exact Bool.false_ne_true)]
    exact depart_fails _ _ _ hc

end Sys2Proof.Machine
end

