-- ==== Sys2Proof/Laws/Events.lean ====
section
/-! SUPPORT. What the device's own events for its threads do (08, 11 to 14), where they can take place. -/

set_option linter.unusedSimpArgs false
set_option Elab.async false

namespace Sys2Proof.Machine

theorem event_done {f : State → State} {s : State} (hs : s.phase = .run) : event f s = .next (f s) := by
  simp only [event, hs, beq_self_eq_true, if_true]

theorem onThread_done {s : State} {tid : Nat} {p : Thread → Bool} {f : Thread → State} {t : Thread}
    (ht : tfind tid s.threads = some t) (hp : p t = true) : s.onThread tid p f = f t := by
  simp only [State.onThread, ht, hp, if_true]

/-! ## Chunks and tickets -/

theorem chunkLimitEnd_done {s : State} {tid : Nat} {t : Thread} {c : Chunk} (hs : s.phase = .run) (ht : tfind tid s.threads = some t)
    (hr : t.ready = true) (hc : t.chunk = some c) (he : c.explicit = false) :
    execChunkLimitEnd tid s = .next (s.setThread { t with chunk := some { c with ended := true } }) := by
  refine (event_done hs).trans (congrArg _ ?_)
  refine (onThread_done ht (by simp [hr, hc, he])).trans ?_
  simp only [hc, Option.map_some]

theorem chunkCommit_done {s s' : State} {tid : Nat} {t u : Thread} {c : Chunk} (hs : s.phase = .run)
    (ht : tfind tid s.threads = some t) (hr : t.ready = true) (hc : t.chunk = some c) (he : c.ended = true) (hp : t.pendTrap = none)
    (hk : s.commit t = some (s', u)) (hx : c.exits = false) (hy : c.yields = false) :
    execChunkCommit tid s = .next (s'.setThread u) := by
  refine (event_done hs).trans (congrArg _ ?_)
  refine (onThread_done ht (by simp [hr, hc, he])).trans ?_
  simp [State.resume, hp, State.close, hk, hc, hx, hy]

theorem trapEntry_done {s s' : State} {tid : Nat} {t u : Thread} {f : Trap} (hs : s.phase = .run) (ht : tfind tid s.threads = some t)
    (hr : t.ready = true) (hp : t.pendTrap = some (f, none)) (hk : s.commit { t with pendTrap := none } = some (s', u))
    (hn : u.pending = none) :
    execTrapEntry tid s = .next (s'.enterTrap u f u.ctx.pc false false false) := by
  refine (event_done hs).trans (congrArg _ ?_)
  refine (onThread_done ht (by simp [hr, hp])).trans ?_
  simp [State.enterPending, hp, hk, hn]

theorem trapEntry_vp {s s' : State} {tid i : Nat} {t u : Thread} {f : Trap} {e : VpPc} (hs : s.phase = .run)
    (ht : tfind tid s.threads = some t) (hr : t.ready = true) (hp : t.pendTrap = some (f, some i))
    (hk : s.commit { t with pendTrap := none } = some (s', u)) (hn : u.pending = none)
    (he : tfind i u.ctx.vps = some e) :
    execTrapEntry tid s = .next (s'.enterTrap { u with ctx := { u.ctx with estart := BitVec.ofNat 64 i } } f e.pc true false false) := by
  refine (event_done hs).trans (congrArg _ ?_)
  refine (onThread_done ht (by simp [hr, hp])).trans ?_
  simp [State.enterPending, hp, hk, hn, he]

theorem asyncTrap_done {s : State} {tid : Nat} {t : Thread} {p : Pending} (hs : s.phase = .run) (ht : tfind tid s.threads = some t)
    (hr : t.ready = true) (hc : t.chunk = none) (hp : t.pending = some p) :
    execAsyncTrap tid s = .next (s.enterTrap { t with pending := none, failedRegs := [] } p.trap t.ctx.pc false true p.more) := by
  refine (event_done hs).trans (congrArg _ ?_)
  refine (onThread_done ht (by simp [hr, hc, hp])).trans ?_
  simp [State.takeAsync, hp]

theorem priorityCommitRequest_done {s : State} {tid d : Nat} {t : Thread} {q : List Nat} (hs : s.phase = .run)
    (ht : tfind tid s.threads = some t) (hr : t.ready = true) (hn : t.needsTicket = true) (hk : s.ticket ≠ some tid)
    (hd : d = dieOf (t.core.getD 0)) (hq : q = s.priorityQueues[d]?.getD []) (h1 : tid ∉ q) (h2 : q.length < 48) :
    execPriorityCommitRequest tid s = .next { s with priorityQueues := s.priorityQueues.setIfInBounds d (q ++ [tid]) } := by
  subst hd hq
  refine (event_done hs).trans (congrArg _ ?_)
  refine (onThread_done ht (by simp [hr, hn, hk])).trans ?_
  have h3 : (s.priorityQueues[dieOf (t.core.getD 0)]?.getD []).contains tid = false := by simpa using h1
  have h4 : ¬ 48 ≤ (s.priorityQueues[dieOf (t.core.getD 0)]?.getD []).length := by omega
  simp only [h3, h4, decide_false, Bool.or_self, Bool.false_eq_true, if_false]

theorem priorityTicketPass_on {s : State} (hs : s.phase = .run) (hk : s.ticket = none)
    (hq : s.priorityQueues[s.ticketDie]?.getD [] = []) :
    execPriorityTicketPass s = .next { s with ticketDie := (s.ticketDie + 1) % 8 } := by
  refine (event_done hs).trans (congrArg _ ?_)
  simp [State.passTicket, hk, hq]

theorem priorityTicketPass_grant {s : State} {tid : Nat} {rest : List Nat} (hs : s.phase = .run) (hk : s.ticket = none)
    (hq : s.priorityQueues[s.ticketDie]?.getD [] = tid :: rest) :
    execPriorityTicketPass s = .next { s with
      ticket := some tid, priorityQueues := s.priorityQueues.setIfInBounds s.ticketDie rest } := by
  refine (event_done hs).trans (congrArg _ ?_)
  simp [State.passTicket, hk, hq]

theorem persistentRequest_done {s : State} {tid line die : Nat} {t : Thread} (hs : s.phase = .run)
    (ht : tfind tid s.threads = some t) (hm : s.mayPersist line t = true) (hd : die = dieOf (t.core.getD 0))
    (h1 : (s.persistent.filter (·.die == die)).length < 48) (h2 : s.persistent.contains { die, tid, line } = false) :
    execPersistentRequest tid line s = .next { s with
      persistent := s.persistent ++ [{ die, tid, line }]
      threads := s.threads.map fun (k, u) => (k, if k == tid then u else { u with chunk := u.chunk.map fun c =>
        if !c.explicit && !c.priority && (c.meets [line]) then { c with ended := true } else c }) } := by
  subst hd
  refine (event_done hs).trans (congrArg _ ?_)
  refine (onThread_done ht hm).trans ?_
  have h3 : ¬ 48 ≤ (s.persistent.filter (·.die == dieOf (t.core.getD 0))).length := by omega
  simp only [State.persist, h3, h2, decide_false, Bool.or_self, Bool.false_eq_true, if_false]

theorem farOpPerform_cool {s : State} {slice line core x : Nat} {rest : List (Nat × Nat × Nat)} (hs : s.phase = .run)
    (hq : tget [] slice s.farQueues = (line, x, core) :: rest) (h : s.farOthers slice line core rest = false) (u : State)
    (hu : u = s.admitFar slice rest) : execFarOpPerform slice s = .next (u.setCore core ((u.core core).cool line)) := by
  subst hu
  refine (event_done hs).trans (congrArg _ ?_)
  unfold State.farOthers at h
  simp only [State.farOp, hq, h, Bool.false_eq_true, if_false]

theorem farOpPerform_hot {s : State} {slice line core x : Nat} {rest : List (Nat × Nat × Nat)} (hs : s.phase = .run)
    (hq : tget [] slice s.farQueues = (line, x, core) :: rest) (h : s.farOthers slice line core rest = true) :
    execFarOpPerform slice s = .next (s.admitFar slice rest) := by
  refine (event_done hs).trans (congrArg _ ?_)
  unfold State.farOthers at h
  simp only [State.farOp, hq, h, if_true]

theorem deferredLoadReply_done {s : State} {id : Nat} {d : Deferred} (hs : s.phase = .run)
    (hf : ((s.threads.flatMap (·.2.deferred)).find? fun d => d.id == id && viewBase ≤ d.pa) = some d) :
    execDeferredLoadReply id s = .next (s.fillCopy (viewDie d.pa) (viewPa d.pa / 128)) := by
  refine (event_done hs).trans (congrArg _ ?_)
  simp only [State.deferredReply, hf]

/-! ## Placement and the sequencer -/

theorem placeThread_done {s u : State} {tid : Nat} {r cores slots : List Nat} {t : Thread} (hs : s.phase = .run)
    (ht : tfind tid s.threads = some t) (hg : distinct (s.gangOf t) = distinct (tid :: r)) (hc : (tid :: r).length = cores.length)
    (hl : (tid :: r).length = slots.length) (hv : s.served (tid :: r) = true)
    (h : (((tid :: r).zip (cores.zip slots)).foldl
      (fun (o : Option State) (e : Nat × Nat × Nat) => o.bind fun s => s.placeOne e.1 e.2.1 e.2.2) (some s)) = some u) :
    execPlaceThread (tid :: r) cores slots s = .next u := by
  refine (event_done hs).trans (congrArg _ ?_)
  have hw : ((tfind tid s.threads).any fun t => distinct (s.gangOf t) == distinct (tid :: r)) = true := by
    rw [ht, Option.any_some, hg]; simp
  have e1 : ((tid :: r).length != cores.length) = false := by rw [hc]; simp
  have e2 : ((tid :: r).length != slots.length) = false := by rw [hl]; simp
  simp only [State.place, hw, e1, e2, hv, h, Bool.not_true, Bool.or_self, Bool.false_eq_true, if_false, Option.getD_some]

theorem placementAging_done {s : State} {tid : Nat} {t : Thread} (hs : s.phase = .run) (ht : tfind tid s.threads = some t)
    (hr : t.state = .placementReady) (hw : t.waitSince + 2 ^ 20 < s.cycle) :
    execPlacementAging tid s = .next (s.setThread { t with aged := true }) := by
  refine (event_done hs).trans (congrArg _ ?_)
  exact onThread_done ht (by rw [Bool.and_eq_true]; exact ⟨beq_iff_eq.mpr hr, decide_eq_true hw⟩)

theorem preempt_done {s : State} {tid : Nat} {t : Thread} (hs : s.phase = .run) (ht : tfind tid s.threads = some t)
    (hc : t.core.isSome = true) (hv : (s.victim t || s.stray t) = true)
    (ha : ((s.gangOf t).filter fun k => (tfind k s.threads).any (·.core.isSome)).all (fun k => (tfind k s.threads).any s.takable) = true)
    (hh : s.hasRoom ((s.gangOf t).filter fun k => (tfind k s.threads).any (·.core.isSome)).length = true) :
    execPreempt tid s = .next
      (((s.gangOf t).filter fun k => (tfind k s.threads).any (·.core.isSome)).foldl State.takeOff s) := by
  refine (event_done hs).trans (congrArg _ ?_)
  refine (onThread_done ht (by simp [hc, hv])).trans ?_
  simp only [State.preempt, ht, ha, hh, Bool.and_self, if_true]

theorem blockedEvictionAge_done {s : State} {tid : Nat} {t : Thread} {w : Wait} (hs : s.phase = .run)
    (ht : tfind tid s.threads = some t) (hc : t.core.isSome = true) (hr : t.state = .runBlocked w)
    (hw : t.waitSince + 2 ^ 16 < s.cycle) :
    execBlockedEvictionAge tid s = .next (s.setThread { t with evictable := true }) := by
  refine (event_done hs).trans (congrArg _ ?_)
  exact onThread_done ht (by rw [hc, hr, Bool.true_and, Bool.true_and]; exact decide_eq_true hw)

theorem stripAging_done {s : State} {tid n : Nat} {t : Thread} (hs : s.phase = .run) (ht : tfind tid s.threads = some t)
    (hn : (s.nextStrip t).isSome = true) (hc : t.stripSince = some n) (hw : n + 2 ^ 20 < s.cycle) :
    execStripAging tid s = .next (s.setThread { t with stripAged := true }) := by
  refine (event_done hs).trans (congrArg _ ?_)
  exact onThread_done ht (by rw [hn, hc, Bool.true_and, Option.any_some]; exact decide_eq_true hw)

/-- A grant slot where some thread of the highest band still has a deficit. -/
theorem stripGrant_done {s : State} {core top : Nat} {ws es : List Thread} {t : Thread} {w : BitVec 32} (hs : s.phase = .run)
    (hW : ws = ((s.residents core).filter fun t => t.ready && t.pause.isNone).filter fun t => (s.nextStrip t).isSome)
    (hT : top = ws.foldl (fun m t => max m t.stripBand) 0)
    (hE : es = ws.filter fun t => t.stripBand == top && 0 < t.deficit) (hne : es.isEmpty = false)
    (hn : nextAfter (s.core core).lastGranted es = some t) (hw : s.nextStrip t = some w) :
    execStripGrant core t.tid s = .next ((s.setCore core { s.core core with lastGranted := t.tid }).setThread (t.granted w)) := by
  subst hW hT hE
  refine (event_done hs).trans (congrArg _ ?_)
  simp only [State.grant, hne, hn, hw, bne_self_eq_false, Bool.false_eq_true, if_false]

theorem waitSatisfied_run {s : State} {tid : Nat} {t : Thread} {w : Wait} (hs : s.phase = .run) (ht : tfind tid s.threads = some t)
    (hr : t.state = .runBlocked w) (hw : s.satisfied t w = true) :
    execWaitSatisfied tid s = .next (s.setThread
      { t with state := .runReady, waitSince := s.cycle, strip := none, stripSince := none, evictable := false }) := by
  refine (event_done hs).trans (congrArg _ ?_)
  refine (onThread_done ht rfl).trans ?_
  simp only [hr, hw, if_true]

theorem waitSatisfied_saved {s : State} {tid : Nat} {t : Thread} {w : Wait} (hs : s.phase = .run) (ht : tfind tid s.threads = some t)
    (hr : t.state = .savedBlocked w) (hw : s.satisfied t w = true) :
    execWaitSatisfied tid s = .next (s.enqueue { t with state := .placementReady }) := by
  refine (event_done hs).trans (congrArg _ ?_)
  refine (onThread_done ht rfl).trans ?_
  simp only [hr, hw, if_true]

theorem pauseEnd_done {s : State} {tid : Nat} {t : Thread} {q : Pause} (hs : s.phase = .run) (ht : tfind tid s.threads = some t)
    (hq : t.pause = some q) (hw : q.since + 1024 ≤ s.cycle) : execPauseEnd tid s = .next (s.setThread { t with pause := none }) := by
  refine (event_done hs).trans (congrArg _ ?_)
  exact onThread_done ht (by rw [hq, Option.any_some]; exact decide_eq_true hw)

/-! ## Caches and page walks -/

theorem cacheEviction_mgd {s : State} {die line : Nat} {c : MgdCopy} (hs : s.phase = .run)
    (hc : tfind (die * 2 ^ 48 + line) s.copiesMgd = some c) (hh : s.held none (viewLines die [line]) = false) (s' : State)
    (h1 : s' = s.squashView die line) :
    execCacheEviction (.mgdCopy die line) s = .next { s'.dropCopy die line with
      writeBacks := s'.writeBacks ++ (if c.dirty = 0 then [] else [s'.outgoing die line c]) } := by
  subst h1
  refine (event_done hs).trans (congrArg _ ?_)
  simp only [State.evict, hc, hh, Bool.false_eq_true, if_false]

theorem cacheEviction_tracked {s : State} {a b : Nat} (hs : s.phase = .run) : execCacheEviction (.tracked a b) s = .next s :=
  event_done hs

theorem cacheEviction_cascade {s : State} {line lines : Nat} (hs : s.phase = .run) (h1 : 1 ≤ lines) (h3 : lines ≤ 3) :
    execCacheEviction (.cascade line lines) s = .next (s.count fun c => { c with cascades := c.cascades + 1 }) := by
  refine (event_done hs).trans (congrArg _ ?_)
  simp only [State.evict, h1, h3, decide_true, Bool.and_self, if_true]

theorem cacheEviction_coordinate {s : State} {core hits : Nat} (hs : s.phase = .run) :
    execCacheEviction (.coordinate core hits) s = .next (s.count fun c =>
      { c with partitionHits := c.partitionHits + hits, partitionEvictions := c.partitionEvictions + 1 }) := event_done hs

theorem cacheEviction_translation {s : State} {unit : TlbUnit} {parcel page : Nat} (hs : s.phase = .run) :
    execCacheEviction (.translation unit parcel page) s = .next { s with
      tlb := s.tlb.filter fun e => !(e.1 == unit && e.2.parcel == parcel && e.2.covers (page * 65536)) } := event_done hs

theorem mgdWritebackArrival_done {s : State} {n : Nat} {w : WriteBack} (hs : s.phase = .run) (hn : s.writeBacks[n]? = some w)
    (hf : (s.writeBacks.take n).any (fun v => v.die == w.die && v.line == w.line) = false) (hh : s.held none [w.line] = false) :
    execMgdWritebackArrival n s = .next (({ s with writeBacks := s.writeBacks.eraseIdx n } : State).arriveHome w) := by
  refine (event_done hs).trans (congrArg _ ?_)
  simp only [State.writeBackArrives, hn, hf, hh, Bool.or_self, Bool.false_eq_true, if_false]

theorem pageWalk_done {s : State} {die parcel : Nat} {va : Word} {kind : AccessKind} {e : TlbEntry} (hs : s.phase = .run)
    (hd : die < 8) (hp : (s.parcel parcel).state = 1)
    (hm : s.lookup parcel va.toNat (.die die) = none) (hw : s.walk parcel va.toNat (kindSub kind) = .ok e) :
    execPageWalk die parcel va kind s = .next (s.enterTlb (.die die) e) := by
  refine (event_done hs).trans (congrArg _ ?_)
  have h8 : ¬ 8 ≤ die := by omega
  simp only [State.pageWalk, h8, hp, hm, hw, decide_false, bne_self_eq_false, Option.isSome_none, Bool.or_self, Bool.false_eq_true,
    if_false]

end Sys2Proof.Machine
end

