-- ==== Sys2Proof/Laws/Links.lean ====
section
/-! SUPPORT. What the fabric's, the links' and the host's events do (13, 15, 16), where they can take place. -/

set_option linter.unusedSimpArgs false
set_option Elab.async false

namespace Sys2Proof.Machine

/-! ## Replies and arrivals -/

/-- A request that has waited at its core, or a packet, leaves it (R322). -/
theorem fabricReply_leaves {s : State} {id port : Nat} {codes : List Nat} {data : List Byte} {q : FabricReq} {mates : List FabricReq}
    (hs : s.phase = .run) (hq : s.request id = some q) (h : q.Answerable) (hm : mates = s.mates q) (hn : mates.any (!·.sent) = true)
    (hw : mates.any s.waitsToLeave = false) :
    execFabricReply id port codes data s = .next ((mates.filter (!·.sent)).foldl State.depart s) := by
  subst hm
  refine (event_done hs).trans (congrArg _ ?_)
  simp only [State.fabricReply, hq, h.1, h.2, hn, hw, Option.isSome_none, Bool.or_self, Bool.false_eq_true, if_false, if_true]

/-- The reply of another device, to a request by itself or to those that travel with it. -/
theorem fabricReply_answered {s u : State} {id port : Nat} {codes : List Nat} {data : List Byte} {q : FabricReq} {mates : List FabricReq}
    (hs : s.phase = .run) (hq : s.request id = some q) (h : q.Answerable) (hm : mates = s.mates q) (hn : mates.any (!·.sent) = false)
    (hw : (s.waitsFor (mates.flatMap s.family)).isEmpty = true) (hd : s.devnum ≠ some q.dev) (hp : s.portWidth port ≠ 0)
    (hu : (s.heard port).packetReplies mates (spreadCodes mates codes) data = some u) :
    execFabricReply id port codes data s = .next u := by
  subst hm
  unfold State.portWidth at hp
  refine (event_done hs).trans (congrArg _ ?_)
  simp only [State.fabricReply, hq, h.1, h.2, hn, hw, hd, hp, hu, Option.isSome_none, Bool.not_true, Bool.or_self, Bool.false_eq_true,
    if_false, Option.getD_some]

/-- The replies of one request. -/
theorem packetReplies_one {s : State} {q : FabricReq} {code : Nat} {data : List Byte} (hc : code ≤ 4)
    (hd : data.length = if code = 0 then s.sizeOf q else 0) : s.packetReplies [q] [code] data = some (s.replied q code data) := by
  have h1 : ¬ 4 < code := by omega
  have h2 : data.drop (if code = 0 then s.sizeOf q else 0) = [] := by rw [← hd]; exact List.drop_length
  have h3 : data.take (if code = 0 then s.sizeOf q else 0) = data := by rw [← hd]; exact List.take_length
  have h4 : ¬ data.length < (if code = 0 then s.sizeOf q else 0) := by omega
  simp only [State.packetReplies, h1, h2, h3, h4, decide_false, Bool.or_self, Bool.false_eq_true, if_false]

/-- Requests to the device's own number are performed by the device. -/
theorem fabricReply_own {s : State} {id port : Nat} {codes : List Nat} {data : List Byte} {q : FabricReq} {mates : List FabricReq}
    (hs : s.phase = .run) (hq : s.request id = some q) (h : q.Answerable) (hm : mates = s.mates q) (hn : mates.any (!·.sent) = false)
    (hw : (s.waitsFor (mates.flatMap s.family)).isEmpty = true) (hd : s.devnum = some q.dev)
    (hh : s.held none (mates.flatMap fun m => arrivalLines m.off m.op) = false) :
    execFabricReply id port codes data s = .next (s.turnRound mates) := by
  subst hm
  refine (event_done hs).trans (congrArg _ ?_)
  simp only [State.fabricReply, hq, h.1, h.2, hn, hw, hd, hh, Option.isSome_none, Bool.not_true, Bool.or_self, Bool.false_eq_true,
    if_false, if_true]

theorem fabricRequestArrival_done {s : State} {r : Arriving} (hs : s.phase = .run) (hw : r.wf = true) (hp : s.portWidth r.port ≠ 0)
    (hh : s.held none (arrivalLines r.offset r.op) = false) (a : State × Nat × List Byte)
    (ha : a = (s.heard r.port).arrive r.header r.offset r.op) :
    execFabricRequestArrival r s = .next (a.1.respond r.port r.header r.offset [a.2.1] a.2.2) := by
  subst ha
  unfold State.portWidth at hp
  refine (event_done hs).trans (congrArg _ ?_)
  simp only [State.arrival, hw, hp, hh, Bool.not_true, decide_false, Bool.or_self, Bool.false_eq_true, if_false]

theorem extensionPacketArrival_done {s : State} {p : ExtPacket} (hs : s.phase = .run) (hw : p.wf = true) (hp : s.portWidth p.port ≠ 0)
    (hh : s.held none (distinct ((List.range p.n).flatMap fun k => arrivalLines (p.element k).toNat (packetAccess p k))) = false)
    (a : State × List Nat × List Byte) (ha : a = packetExpand p p.n 0 (s.heard p.port)) :
    execExtensionPacketArrival p s = .next (a.1.respond p.port (some p.header) (p.element 0).toNat a.2.1 a.2.2) := by
  subst ha
  unfold State.portWidth at hp
  refine (event_done hs).trans (congrArg _ ?_)
  simp only [State.packet, hw, hp, hh, Bool.not_true, decide_false, Bool.or_self, Bool.false_eq_true, if_false]

/-! ## Combining -/

theorem fabricCombine_done {s u : State} {stage first second x y : Nat} {a b q : FabricReq} {dword : Bool} (hs : s.phase = .run)
    (h1 : s.request first = some a) (h2 : s.request second = some b) (ha : a.addend = some (dword, x)) (hb : b.addend = some (dword, y))
    (hm : s.mayFold stage a b = true) (hq : q = a.fold b s.nextId dword ((x + y) % 2 ^ (if dword then 64 else 32)))
    (hu : u = { s with nextId := s.nextId + 1, fabric :=
      (s.fabric.map fun m => if m.id == first || m.id == second then { m with folded := true } else m) ++ [q] })
    (hc : u.circular (u.fabric.length + 1) (u.family q) = false) :
    execFabricCombine stage first second s = .next u := by
  subst hq hu
  refine (event_done hs).trans (congrArg _ ?_)
  simp only [State.combine, h1, h2, ha, hb, hm, Bool.not_true, Bool.false_eq_true, if_false]
  exact if_neg (ne_true_of_eq_false hc)

/-- A request that no partner met in its window, or that found no room to wait in, goes on to the next stage. -/
theorem combineWindowExpiry_done {s : State} {id : Nat} {q : FabricReq} (hs : s.phase = .run) (hq : s.request id = some q)
    (hw : q.standsAt q.stage = true) (hc : q.waiting = false ∨ q.issued + 64 ≤ s.cycle) (place : Nat × Nat)
    (hp : place = (stageInput (q.stage + 1) q.first.1 q.port, s.nextId)) :
    execCombineWindowExpiry id s = .next { s with
      nextId := s.nextId + 1
      fabric := s.fabric.map fun m =>
        if m.id == id then
          { m with stage := q.stage + 1, issued := s.cycle, waiting := s.bufferFree (q.stage + 1) q.port, first := place, last := place }
        else m } := by
  subst hp
  refine (event_done hs).trans (congrArg _ ?_)
  have h : (!q.waiting || decide (q.issued + 64 ≤ s.cycle)) = true := by
    rcases hc with h | h <;> simp [h]
  simp only [State.passStage, hq, hw, h, Bool.and_self, if_true]

theorem replySplit_done {s : State} {id code x : Nat} {data : List Byte} {q : FabricReq} {dword : Bool} (hs : s.phase = .run)
    (hq : s.request id = some q) (ha : q.answer = some (code, data)) (hx : q.addend = some (dword, x)) :
    execReplySplit id s = .next
      (({ s with fabric := s.fabric.filter (·.id != id) } : State).split code dword (natOfBytes data) q.parts) := by
  refine (event_done hs).trans (congrArg _ ?_)
  simp only [State.splitReply, hq, ha, hx]

/-! ## Links and silence -/

theorem idleFlit_done {s : State} {port : Nat} (hs : s.phase = .run) (hp : s.portWidth port ≠ 0)
    (ht : (s.portSent[port]?.getD 0) + microsecond ≤ s.time) :
    execIdleFlit port s = .next { s with portSent := s.portSent.setIfInBounds port s.time } := by
  refine (event_done hs).trans (congrArg _ ?_)
  simp only [hp, ht, ne_eq, not_false_eq_true, decide_true, Bool.and_self, if_true]

theorem idleFlitReceived_done {s : State} {port : Nat} (hs : s.phase = .run) :
    execIdleFlitReceived port s = .next { s with portHeard := s.portHeard.setIfInBounds port s.time } := event_done hs

theorem linkDown_done {s : State} {port : Nat} (hs : s.phase = .run) (hp : s.portWidth port ≠ 0)
    (ht : (s.portHeard[port]?.getD 0) + 8 * microsecond ≤ s.time) :
    execLinkDown port s = .next
      (({ s with ports := s.ports.setIfInBounds port 0 } : State).failAll 5 fun q => q.sent && q.port == port).sendLinkStatus := by
  refine (event_done hs).trans (congrArg _ ?_)
  simp only [State.portDown, hp, ht, ne_eq, not_false_eq_true, decide_true, Bool.and_self, if_true]

theorem linkTrained_port {s : State} {k width version : Nat} (hs : s.phase = .run) (hk : k < 32) (hp : s.portWidth k = 0)
    (hw : width = 1 ∨ width = 2 ∨ width = 4) :
    execLinkTrained (.port k) width version s = .next
      ({ s with ports := s.ports.setIfInBounds k width, portHeard := s.portHeard.setIfInBounds k s.time } : State).sendLinkStatus := by
  refine (event_done hs).trans (congrArg _ ?_)
  rcases hw with rfl | rfl | rfl <;> simp [State.trained, hk, hp]

theorem linkTrained_fyzozor {s : State} {width : Nat} (hs : s.phase = .run) (hp : s.fyzWidth = 0)
    (hw : width = 8 ∨ width = 16 ∨ width = 32) (hm : width ≤ s.fyzMax) :
    execLinkTrained .fyzozor width 1 s = .next ({ s with fyzWidth := width, fyzVersion := 1 } : State).sendLinkStatus := by
  refine (event_done hs).trans (congrArg _ ?_)
  rcases hw with rfl | rfl | rfl <;> simp [State.trained, hp, hm]

theorem laneFailure_fyzozor {s : State} (hs : s.phase = .run) (hp : s.fyzWidth ≠ 0) :
    execLaneFailure .fyzozor s = .next ({ s.squashIf (fun _ c => c.stores.any fun e => ofHost e.1) with
      fyzWidth := 0, fyzMax := if s.fyzWidth = 32 then 16 else if s.fyzWidth = 16 then 8 else 0 } : State).sendLinkStatus := by
  refine (event_done hs).trans (congrArg _ ?_)
  have e : (s.squashIf fun _ c => c.stores.any fun e => ofHost e.1).fyzWidth = s.fyzWidth := by
    unfold State.squashIf
    simp only
    split <;> rfl
  simp only [State.laneFails, hp, e, if_false]

theorem heartbeat_done {s : State} (hs : s.phase = .run) (ht : s.beatSent + microsecond ≤ s.time) :
    execHeartbeat s = .next { s with beatSent := s.time } := by
  refine (event_done hs).trans (congrArg _ ?_)
  simp only [ht, if_true]

theorem heartbeatReceived_done {s : State} {dev : Nat} (hs : s.phase = .run) (hd : dev < 1024) :
    execHeartbeatReceived dev s = .next { s with beatHeard := tput dev s.time s.beatHeard } := by
  refine (event_done hs).trans (congrArg _ ?_)
  simp only [hd, if_true]

theorem mayLose_done {s : State} {dev : Nat} (hd : dev < 1024) (hn : s.devnum ≠ some dev) (hl : dev ∉ s.lost) : s.mayLose dev = true := by
  simp [State.mayLose, hd, hn, hl]

theorem peerLost_done {s : State} {dev : Nat} (hs : s.phase = .run) (hd : dev < 1024) (hn : s.devnum ≠ some dev) (hl : dev ∉ s.lost)
    (ht : tget 0 dev s.beatHeard + 8 * microsecond ≤ s.time) :
    execPeerLost dev s = .next ((s.markLost dev).send { code := 0x82, parcel := 0, seq := 0, status := 0, len := 8, payload := dev }) := by
  refine (event_done hs).trans (congrArg _ ?_)
  simp only [mayLose_done hd hn hl, ht, decide_true, Bool.and_self, if_true]

theorem downNoticeReceived_done {s : State} {dev : Nat} (hs : s.phase = .run) (hd : dev < 1024) (hn : s.devnum ≠ some dev)
    (hl : dev ∉ s.lost) : execDownNoticeReceived dev s = .next (s.markLost dev) := by
  refine (event_done hs).trans (congrArg _ ?_)
  simp only [mayLose_done hd hn hl, if_true]

/-! ## The host -/

theorem hostWrite_done {s : State} {pa : Nat} {data : List (BitVec 8)} (hs : s.phase = .run) (hr : s.hostReach pa data.length = true)
    (hh : s.held none [pa / 128] = false) : execHostWrite pa data s = .next (s.unit none (writesOf pa data)) := by
  refine (event_done hs).trans (congrArg _ ?_)
  simp only [hr, hh, Bool.not_false, Bool.and_self, if_true]

theorem hostAtomic_done {s u : State} {pa n : Nat} {op : AmoOp} {dword : Bool} {value expected : Word} (hs : s.phase = .run)
    (hn : n = if dword then 8 else 4) (hr : s.hostReach pa n = true) (ha : pa % n = 0) (hp : pa < 2 ^ 39)
    (hh : s.held none [pa / 128] = false) (hu : u = (s.performArrival pa (.amo op dword value expected)).1) :
    execHostAtomic pa op dword value expected s = .next { u with answers := u.answers ++ [s.hostAnswer pa n] } := by
  subst hn hu
  refine (event_done hs).trans (congrArg _ ?_)
  have h1 : decide (2 ^ 39 ≤ pa) = false := decide_eq_false (Nat.not_le.mpr hp)
  simp only [State.hostAmo, hr, ha, hh, h1, ne_eq, not_true_eq_false, decide_false, Bool.not_true, Bool.or_self, Bool.false_eq_true, if_false]

theorem hostRead_done {s : State} {pa n : Nat} (hs : s.phase = .run) (hr : s.hostReach pa n = true) :
    execHostRead pa n s = .next { s.countDead pa with answers := s.answers ++ [s.hostAnswer pa n] } := by
  refine (event_done hs).trans (congrArg _ ?_)
  simp only [hr, if_true]

end Sys2Proof.Machine
end

