-- ==== Sys2Proof/Laws/Device.lean ====
section
/-! SUPPORT. What the events of memory upkeep, power and heat, bring-up and the management path do (11, 12, 14, 16, 21), where they
can take place. -/

set_option linter.unusedSimpArgs false
set_option Elab.async false

namespace Sys2Proof.Machine

/-! ## Errors and fences -/

theorem eccError_single {s : State} {place : EccPlace} (hs : s.phase = .run) (hp : ∀ line tags, place ≠ .dram line tags) :
    execEccError false place s = .next (s.count fun c => { c with corrected := c.corrected + 1 }) := by
  refine (event_done hs).trans (congrArg _ ?_)
  cases place <;> first | rfl | exact absurd rfl (hp _ _)

theorem eccError_dirty {s : State} {line : Nat} (hs : s.phase = .run) : execEccError true (.dirtyLine line) s = .next (s.poisonLine line) :=
  (event_done hs).trans rfl

/-- A die's clean copy is dropped, and its own chunks that read it are squashed; any other clean line is read again as it is. -/
theorem eccError_clean {s : State} {die line : Nat} {c : MgdCopy} (hs : s.phase = .run)
    (hc : tfind (die * 2 ^ 48 + line) s.copiesMgd = some c) (h0 : c.dirty = 0) (hh : s.held none (viewLines die [line]) = false) :
    execEccError true (.cleanLine die line) s = .next ((s.squashView die line).dropCopy die line) := by
  refine (event_done hs).trans (congrArg _ ?_)
  simp only [if_true, State.strike, State.dropClean, hc, h0, hh, ne_eq, not_true_eq_false, decide_false, Bool.or_self, Bool.false_eq_true,
    if_false]

theorem eccError_cached {s : State} {die line : Nat} (hs : s.phase = .run) (hc : tfind (die * 2 ^ 48 + line) s.copiesMgd = none) :
    execEccError true (.cleanLine die line) s = .next s := by
  refine (event_done hs).trans (congrArg _ ?_)
  simp only [if_true, State.strike, State.dropClean, hc]

/-- The data of a store that stands in a hub's buffer turn to poison, and any other request that does is answered as poisoned. -/
theorem eccError_hub {s : State} {id : Nat} {q : FabricReq} (hs : s.phase = .run) (hq : s.request id = some q) (h : q.Answerable)
    (hn : q.sent = true) :
    execEccError true (.hubBuffer id) s = .next (match q.op with
      | .store data _ => { s with fabric := s.fabric.map fun m => if m.id == id then { m with op := .poison data.length } else m }
      | .poison _ => s
      | _ => s.failRequest q 4) := by
  refine (event_done hs).trans (congrArg _ ?_)
  simp only [if_true, State.strike, State.strikeRequest, hq, h.1, h.2, hn, Option.isSome_none, Bool.not_true, Bool.or_self,
    Bool.false_eq_true, if_false]
  all_goals cases q.op <;> rfl

theorem eccError_register {s : State} {tid file reg index : Nat} (hs : s.phase = .run) (hf : file ≤ 4) (m : PoisonMark)
    (hm : m = { file, reg, index }) :
    execEccError true (.register tid file reg index) s = .next { s with threads := tmod tid (fun t =>
      { t with poison := hitBy m t.poison, chunk := t.chunk.map fun c => { c with poison := hitBy m c.poison } }) s.threads } := by
  subst hm
  refine (event_done hs).trans (congrArg _ ?_)
  have h : ¬ 4 < file := by omega
  simp only [State.strike, h, if_true, if_false, hitBy]

theorem eccError_scratch {s : State} {crew offset : Nat} (hs : s.phase = .run) (h1 : crew < 96) (h2 : offset < 2 ^ 23) :
    execEccError true (.scratch crew offset) s = .next
      { s with scratchPoison := mput ((crew * 2 ^ 23 + offset) / 8) s.scratchPoison } := by
  refine (event_done hs).trans (congrArg _ ?_)
  have h : (decide (crew < 96) && decide (offset < 2 ^ 23)) = true := by rw [decide_eq_true h1, decide_eq_true h2]; rfl
  simp only [State.strike, h, if_true]

theorem eccError_dram {s : State} {double : Bool} {line : Nat} {tags : TagCheck} (hs : s.phase = .run) (h1 : line < 2 ^ 32)
    (h2 : line / 32 ∈ s.live) : execEccError double (.dram line tags) s = .next (s.readLine line tags) := by
  refine (event_done hs).trans (congrArg _ ?_)
  have h : (decide (line < 2 ^ 32) && s.live.contains (line / 32)) = true := by rw [decide_eq_true h1]; simpa using h2
  simp only [h, if_true]

theorem coreFence_control {s : State} {core : Nat} {corrupt : List Nat} (hs : s.phase = .run) (hc : core < 384)
    (hf : (s.core core).fenced = false)
    (hp : s.pins none (fun t c => !([core].any (t.core == some ·)) && portionUser core 0 (2 ^ 21) t c) = false) :
    execCoreFence core .control corrupt s = .next (s.fence core corrupt) := by
  refine (event_done hs).trans (congrArg _ ?_)
  have h1 : ((FenceCause.control == FenceCause.matrixUnit) = true) = False := by simp
  have h2 : [core].filter (fun k => !(s.core k).fenced) = [core] := by simp [hf]
  have h3 : s.mayFence core .control = true := by simp [State.mayFence, hc, hf]
  simp only [h1, if_false, h2, h3, Bool.true_and]
  rw [if_pos]
  · rfl
  · rw [List.any_cons, List.any_nil, Bool.or_false, hp]; rfl

/-! ## Refresh and scrub -/

theorem refreshDue_done {s : State} {stack bank : Nat} (hs : s.phase = .run) :
    execRefreshDue stack bank false s = .next (s.setStack stack { s.stack stack with postponed := tset 0 bank 0 (s.stack stack).postponed }) :=
  (event_done hs).trans rfl

theorem refreshDue_burst {s : State} {stack bank n : Nat} (hs : s.phase = .run) (hn : n = tget 0 bank (s.stack stack).postponed)
    (h4 : n < 4) (h8 : stack < 8) :
    execRefreshDue stack bank true s = .next
      ((s.setStack stack { s.stack stack with postponed := tset 0 bank (n + 1) (s.stack stack).postponed }).count fun c =>
        { c with postponements := c.postponements + 1 }) := by
  subst hn
  refine (event_done hs).trans (congrArg _ ?_)
  simp only [Bool.not_true, Bool.false_eq_true, if_false, h4, h8, decide_true, Bool.and_self, if_true]

theorem refreshPostponeLimit_done {s : State} {stack bank : Nat} (hs : s.phase = .run)
    (hn : tget 0 bank (s.stack stack).postponed = 4) :
    execRefreshPostponeLimit stack bank s = .next
      (s.setStack stack { s.stack stack with postponed := tset 0 bank 0 (s.stack stack).postponed }) := by
  refine (event_done hs).trans (congrArg _ ?_)
  simp only [hn, if_true]

theorem scrubPassStart_done {s : State} {stack : Nat} {ps : Vector Parcel 64} (hs : s.phase = .run) (h8 : stack < 8)
    (hn : (s.stack stack).scrubbing = none)
    (ht : (s.stack stack).passStart + (s.stack stack).scrubHours * 3600000000 * microsecond ≤ s.time) (hp : ps = s.parcels.map Parcel.rotate) :
    execScrubPassStart stack s = .next (({ s with parcels := ps } : State).setStack stack { s.stack stack with
      passStart := s.time, scrubbing := some (stack * 2 ^ 29)
      rotating := (List.range 64).filter fun p => (ps[p]?.any fun q => q.toScrub.contains stack) }) := by
  subst hp
  refine (event_done hs).trans (congrArg _ ?_)
  have h1 : ¬ 8 ≤ stack := Nat.not_le.mpr h8
  have h2 : ¬ s.time < (s.stack stack).passStart + (s.stack stack).scrubHours * 3600000000 * microsecond := Nat.not_lt.mpr ht
  simp only [State.passStarts, decide_eq_false h1, decide_eq_false h2, hn, Option.isSome_none, Bool.or_self, Bool.false_eq_true, if_false]

theorem scrubLine_done {s : State} {stack line a : Nat} {tags : TagCheck} (hs : s.phase = .run)
    (ha : (s.stack stack).scrubbing = some a) (hl : s.nextLive stack a = some line) (u : State) (hu : u = s.readLine line tags) :
    execScrubLine stack tags s = .next (({ u with lineKver := tset 0 line (u.kverOf line) u.lineKver } : State).setStack stack
      { u.stack stack with scrubbing := some (line + 1) }) := by
  subst hu
  refine (event_done hs).trans (congrArg _ ?_)
  simp only [State.scrub, ha, Option.bind_some, hl]

theorem scrubPassEnd_done {s : State} {stack a : Nat} {e : StackSt} (hs : s.phase = .run) (ha : (s.stack stack).scrubbing = some a)
    (hl : s.nextLive stack a = none) (he : e = { s.stack stack with scrubbing := none, rotating := [] }) :
    execScrubPassEnd stack s = .next ((s.stack stack).rotating.foldl (fun s p => s.setParcel p ((s.parcel p).scrubbed stack))
      (s.setStack stack (if (s.stack stack).rotating.isEmpty then e else e.enter s.cycle (logEntry s.cycle 0 0 4 0)))) := by
  subst he
  refine (event_done hs).trans (congrArg _ ?_)
  simp only [State.passEnds, ha, hl, Option.isSome_none, Bool.false_eq_true, if_false]

theorem logWrapClear_done {s : State} {stack : Nat} (hs : s.phase = .run) :
    execLogWrapClear stack s = .next (s.setStack stack ((s.stack stack).clearWrap s.cycle)) := event_done hs

/-! ## Power and heat -/

theorem powerWindow_done {s : State} {watts : Nat} (hs : s.phase = .run) (ht : s.windowStart + 10000 * microsecond ≤ s.time) :
    execPowerWindow watts s = .next { s with
      windowStart := s.windowStart + 10000 * microsecond, clock := nextClock s.clock s.powerLimit watts s.thermalHold } := by
  refine (event_done hs).trans (congrArg _ ?_)
  exact if_pos ht

theorem crewClockGate_done {s : State} {crew : Nat} (hs : s.phase = .run) (hc : crew < 96)
    (hn : (s.threads.any fun e => e.2.core.any (crewOf · == crew)) = false) (ht : tget 0 crew s.busy + 2 ^ 16 ≤ s.cycle) :
    execCrewClockGate crew s = .next { s with gated := mput crew s.gated } := by
  refine (event_done hs).trans (congrArg _ ?_)
  refine if_pos ?_
  rw [hn, decide_eq_true hc, decide_eq_true ht]; rfl

theorem thermalThrottle_done {s : State} {die celsius : Nat} (hs : s.phase = .run) (hd : die < 8) (hc : 105 < celsius) :
    execThermalThrottle die celsius s = .next { s with clock := 875, thermalHold := true } := by
  refine (event_done hs).trans (congrArg _ ?_)
  simp only [hd, hc, decide_true, Bool.and_self, if_true]

theorem thermalRecovery_done {s : State} {celsius : List Nat} (hs : s.phase = .run) (hl : celsius.length = 8)
    (hc : ∀ c ∈ celsius, c < 100) : execThermalRecovery celsius s = .next { s with thermalHold := false } := by
  refine (event_done hs).trans (congrArg _ ?_)
  have : celsius.all (· < 100) = true := by simpa using hc
  simp only [hl, this, decide_true, Bool.and_self, if_true]

theorem thermalTrip_done {s : State} {die celsius : Nat} (hs : s.phase = .run) (hd : die < 8) (hc : 115 < celsius) :
    execThermalTrip die celsius s = .next
      { s.halt.send { code := 0x84, parcel := 0, seq := 0, status := 0, len := 8, payload := die } with phase := .tripped } := by
  refine (event_done hs).trans (congrArg _ ?_)
  simp only [hd, hc, decide_true, Bool.and_self, if_true]

/-! ## Bring-up -/

theorem resetPinAssert_done (s : State) : execResetPinAssert s = .next s.cold := rfl

theorem resetPinRelease_done {s : State} (hs : s.phase = .held) : execResetPinRelease s = .next { s with phase := .step 2 } := by
  simp only [execResetPinRelease, hs, beq_self_eq_true, if_true]

/-! ## The management path (R389 to R391) -/

theorem back_asking {s : State} {i : Instr} {code : Nat} (h : Posted s (headOf i) code) :
    (s.asking i).requests.erase (hubOf (headOf i), i, false) = s.requests := by
  have hn : (hubOf (headOf i), i, false) ∉ s.requests := by
    intro hm
    have := List.any_eq_false.mp h.first _ hm
    simp at this
  unfold State.asking
  rw [List.erase_append_right _ hn]
  simp

/-- An answer leaves the requests that waited before. -/
theorem answered_back {s u : State} {i : Instr} {code : Nat} (h : Posted s (headOf i) code) (hu : u.requests = (s.asking i).requests)
    (status : Nat) : u.answered i status = ({ u with requests := s.requests } : State).reply (headOf i) status := by
  unfold State.answered
  rw [hu, back_asking h]

/-- A request with others before it waits behind them. -/
theorem receive_queues {s : State} {i : Instr} {ok : Nat → Bool} (hk : ok (headOf i).code = true) (hp : ((headOf i).h0 || (headOf i).h1) = true)
    (hw : s.requests.any (·.1 == hubOf (headOf i)) = true) : receive ok i s = .next (s.asking i) := by
  unfold hubOf at hw
  simp only [receive, hk, hp, hw, Bool.not_true, Bool.or_self, Bool.false_eq_true, if_false, if_true]
  rfl

theorem serve_asking {s : State} {i : Instr} {ok : Nat → Bool} {code : Nat} (h : Posted s (headOf i) code) (hk : ok code = true) :
    receive ok i s = .next (match (s.asking i).takeUp false i with
      | .wait u => u.deferring i
      | .answer status u after => after (u.answered i status)) := by
  obtain ⟨h1, h2, h3, h4⟩ := h
  have hf : (s.asking i).requests.find? (·.1 == hubOf (headOf i)) = some (hubOf (headOf i), i, false) := by
    unfold State.asking
    rw [List.find?_append, List.find?_eq_none.mpr]
    · simp
    · exact fun x hx => List.any_eq_false.mp h3 x hx
  have hr : receive ok i s = .next ((s.asking i).serve (hubOf (headOf i))) := by
    unfold hubOf at h3 hf ⊢
    simp only [receive, h1, hk, h2, h3, Bool.not_true, Bool.or_self, Bool.false_eq_true, if_false]
    rfl
  rw [hr]
  unfold State.serve
  rw [hf]
  rfl

/-- A request that no other precedes is answered at once by its own rule, where it can be. -/
theorem receive_answered {s u : State} {i : Instr} {ok : Nat → Bool} {code status : Nat} {after : State → State}
    (h : Posted s (headOf i) code) (hk : ok code = true) (hr : readyFor code s.phase = true)
    (ho : (s.asking i).obey false (headOf i).parcel i = .answer status u after) :
    receive ok i s = .next (after (u.answered i status)) := by
  rw [serve_asking h hk]
  have hr' : readyFor (headOf i).code (s.asking i).phase = true := by rw [h.named]; exact hr
  have hl : lengthOk (headOf i).code (headOf i).len = true := by rw [h.named]; exact h.length
  simp only [State.takeUp, hr', hl, ho, Bool.not_true, Bool.false_eq_true, if_false]

theorem receive_waits {s u : State} {i : Instr} {ok : Nat → Bool} {code : Nat} (h : Posted s (headOf i) code) (hk : ok code = true)
    (hr : readyFor code s.phase = true) (ho : (s.asking i).obey false (headOf i).parcel i = .wait u) :
    receive ok i s = .next (u.deferring i) := by
  rw [serve_asking h hk]
  have hr' : readyFor (headOf i).code (s.asking i).phase = true := by rw [h.named]; exact hr
  have hl : lengthOk (headOf i).code (headOf i).len = true := by rw [h.named]; exact h.length
  simp only [State.takeUp, hr', hl, ho, Bool.not_true, Bool.false_eq_true, if_false]

/-- A request that changes the device in one go, its answer given. -/
theorem receive_back {s u : State} {i : Instr} {ok : Nat → Bool} {code status : Nat} (h : Posted s (headOf i) code) (hk : ok code = true)
    (hr : readyFor code s.phase = true) (ho : (s.asking i).obey false (headOf i).parcel i = .answer status u id)
    (hu : u.requests = (s.asking i).requests) :
    receive ok i s = .next (({ u with requests := s.requests } : State).reply (headOf i) status) := by
  rw [receive_answered h hk hr ho, ← answered_back h hu]
  rfl

/-- A request that comes before its phase is answered with status 2. -/
theorem receive_early {s : State} {i : Instr} {ok : Nat → Bool} {code : Nat} (h : Posted s (headOf i) code) (hk : ok code = true)
    (hr : readyFor code s.phase = false) : receive ok i s = .next (s.reply (headOf i) 2) := by
  rw [serve_asking h hk]
  have hr' : readyFor (headOf i).code (s.asking i).phase = false := by rw [h.named]; exact hr
  simp only [State.takeUp, hr', Bool.not_false, if_true, refused, id]
  rw [answered_back h rfl]
  rfl

/-- A request that has waited at its hub is taken up in the endpoint's turn. -/
theorem serve_answered {s u : State} {hub status : Nat} {e : Nat × Instr × Bool} {after : State → State}
    (hf : s.requests.find? (·.1 == hub) = some e) (ho : s.takeUp e.2.2 e.2.1 = .answer status u after) :
    s.serve hub = after (({ u with requests := u.requests.erase e } : State).reply (headOf e.2.1) status) := by
  simp only [State.serve, hf, ho]

theorem ready_run {code : Nat} {p : Phase} (hp : p = .run) (hc : code ≠ 1) (hf : code ≠ 15) : readyFor code p = true := by
  subst hp
  unfold readyFor
  split <;> first | rfl | (exfalso; first | exact hc rfl | exact hf rfl)

theorem ready_either {code : Nat} {p : Phase} (hp : p = .run ∨ p = .step 6) (hc : code = 6 ∨ code = 7 ∨ code = 8 ∨ code = 14) :
    readyFor code p = true := by
  rcases hp with rfl | rfl <;> rcases hc with rfl | rfl | rfl | rfl <;> rfl

theorem loadFirmwareImage_done {s : State} {h : ReqHead} {r : FirmwareReport} (hs : s.phase = .step 2) (hp : Posted s h 1)
    (h1 : r.crcOk = true) (h2 : r.versionOk = true) : execLoadFirmwareImage h r s = .next ((s.reply h 0).train r) := by
  refine (receive_answered (i := .loadFirmwareImage h r) (code := 1) (status := 0) (after := (·.train r)) (u := s.asking (.loadFirmwareImage h r)) hp rfl
    (by rw [hs]; rfl) ?_).trans ?_
  · show State.loadImage _ r = _
    simp only [State.loadImage, h1, h2, Bool.not_true, Bool.or_self, Bool.false_eq_true, if_false]
  · rw [answered_back (i := .loadFirmwareImage h r) hp rfl]
    rfl

theorem configurationComplete_done {s : State} {h : ReqHead} {r : LinkReport} {n : Nat} (hs : s.phase = .step 6) (hp : Posted s h 15)
    (hn : s.devnum = some n) : execConfigurationComplete h r s = .next ((s.reply h 0).finishReset r) := by
  refine (receive_answered (i := .configurationComplete h r) (code := 15) (status := 0) (after := (·.finishReset r)) (u := s.asking (.configurationComplete h r)) hp rfl
    (by rw [hs]; rfl) ?_).trans ?_
  · show State.complete _ r = _
    have : (s.asking (.configurationComplete h r)).devnum = some n := hn
    simp only [State.complete, this, Option.isNone_some, Bool.false_eq_true, if_false]
  · rw [answered_back (i := .configurationComplete h r) hp rfl]
    rfl

theorem configurationComplete_none {s : State} {h : ReqHead} {r : LinkReport} (hs : s.phase = .step 6) (hp : Posted s h 15)
    (hn : s.devnum = none) : execConfigurationComplete h r s = .next ((s.reply h 1).failStep 6) := by
  refine (receive_answered (i := .configurationComplete h r) (code := 15) (status := 1) (after := (·.failStep 6)) (u := s.asking (.configurationComplete h r)) hp rfl
    (by rw [hs]; rfl) ?_).trans ?_
  · show State.complete _ r = _
    have : (s.asking (.configurationComplete h r)).devnum = none := hn
    simp only [State.complete, this, Option.isNone_none, if_true]
  · rw [answered_back (i := .configurationComplete h r) hp rfl]
    rfl

/-- An unassigned code. -/
theorem unknownRequest_done {s : State} {h : ReqHead} {code : Nat} (hs : s.phase = .run) (hp : Posted s h code)
    (hc : assigned code = false) : execUnknownRequest h s = .next (s.reply h 3) := by
  have e1 : code ≠ 1 := by rintro rfl; cases hc
  have e2 : code ≠ 15 := by rintro rfl; cases hc
  exact receive_back (i := .unknownRequest h) (u := s.asking (.unknownRequest h)) (ok := (!assigned ·)) hp (by simp [hc]) (ready_run hs e1 e2) rfl rfl

theorem moveCrews_asking (s : State) (i : Instr) (p : Nat) (a b : BitVec 96) :
    (s.asking i).moveCrews p a b = { s.moveCrews p a b with requests := (s.asking i).requests } := by
  unfold State.moveCrews State.asking
  generalize List.range 96 = l
  rfl

theorem moveCrews_requests (s : State) (p : Nat) (a b : BitVec 96) : (s.moveCrews p a b).requests = s.requests := by
  unfold State.moveCrews
  generalize List.range 96 = l
  rfl

/-- The change of a descriptor, once its answer is given. -/
theorem moved_back (s : State) (i : Instr) (p : Nat) (a b : BitVec 96) (q : Parcel) :
    ({ ((s.asking i).moveCrews p a b).setParcel p q with requests := s.requests } : State) = (s.moveCrews p a b).setParcel p q := by
  rw [moveCrews_asking]
  have h := moveCrews_requests s p a b
  generalize s.moveCrews p a b = v at h ⊢
  rw [← h]
  rfl

theorem writeParcelDescriptor_done {s : State} {h : ReqHead} {desc : BitVec 512} {q : Parcel} (hs : s.phase = .run) (hp : Posted s h 2)
    (hn : (s.parcel h.parcel).state = 0) (hq : q = (s.parcel h.parcel).described desc.toNat) (hb : s.badDescriptor h.parcel q = false) :
    execWriteParcelDescriptor h desc s = .next
      (((s.moveCrews h.parcel (s.parcel h.parcel).crews q.crews).setParcel h.parcel q.created).reply h 0) := by
  refine (receive_back (i := .writeParcelDescriptor h desc) (code := 2) (status := 0)
    (u := ((s.asking (.writeParcelDescriptor h desc)).moveCrews h.parcel (s.parcel h.parcel).crews q.crews).setParcel h.parcel q.created)
    hp rfl (ready_run hs (by decide) (by decide)) ?_ (by rw [moveCrews_asking]; rfl)).trans (by rw [moved_back]; rfl)
  subst hq
  have hn' : ((s.asking (.writeParcelDescriptor h desc)).parcel h.parcel).state = 0 := hn
  have hb' : (s.asking (.writeParcelDescriptor h desc)).badDescriptor h.parcel
    (((s.asking (.writeParcelDescriptor h desc)).parcel h.parcel).described desc.toNat) = false := hb
  show State.describe _ h.parcel desc = _
  simp only [State.describe, hn', hb', Bool.false_eq_true, if_false, ne_eq, not_true_eq_false, decide_false, Bool.false_and, performed, if_true]
  rfl

theorem writeParcelDescriptor_active {s u : State} {h : ReqHead} {desc : BitVec 512} {q : Parcel} (hs : s.phase = .run)
    (hp : Posted s h 2) (hn : (s.parcel h.parcel).state ≠ 0) (hq : q = (s.parcel h.parcel).described desc.toNat)
    (hb : s.badDescriptor h.parcel q = false)
    (hu : u = if (s.parcel h.parcel).kfirst ≠ q.kfirst ∨ (s.parcel h.parcel).kcount ≠ q.kcount then s.clearKeys h.parcel else s) :
    execWriteParcelDescriptor h desc s = .next
      (((u.moveCrews h.parcel (s.parcel h.parcel).crews q.crews).setParcel h.parcel q).reply h 0) := by
  have hn' : ((s.asking (.writeParcelDescriptor h desc)).parcel h.parcel).state ≠ 0 := hn
  have hb' : (s.asking (.writeParcelDescriptor h desc)).badDescriptor h.parcel
    (((s.asking (.writeParcelDescriptor h desc)).parcel h.parcel).described desc.toNat) = false := by rw [hq] at hb; exact hb
  have ho : ∀ (v : State), (v = if (s.parcel h.parcel).kfirst ≠ q.kfirst ∨ (s.parcel h.parcel).kcount ≠ q.kcount then
      (s.asking (.writeParcelDescriptor h desc)).clearKeys h.parcel else s.asking (.writeParcelDescriptor h desc)) →
      (s.asking (.writeParcelDescriptor h desc)).describe h.parcel desc =
        .answer 0 ((v.moveCrews h.parcel (s.parcel h.parcel).crews q.crews).setParcel h.parcel q) id := by
    rintro v rfl
    subst hq
    simp only [State.describe, hn', hb', Bool.false_eq_true, if_false, ne_eq, not_false_eq_true, decide_true, Bool.true_and, performed,
      Bool.or_eq_true, decide_eq_true_eq]
    rfl
  by_cases hc : (s.parcel h.parcel).kfirst ≠ q.kfirst ∨ (s.parcel h.parcel).kcount ≠ q.kcount
  · rw [if_pos hc] at hu
    subst hu
    refine (receive_back (i := .writeParcelDescriptor h desc) (code := 2) (status := 0) hp rfl (ready_run hs (by decide) (by decide))
      (ho _ (if_pos hc).symm) ?_).trans ?_
    · rw [show (s.asking (.writeParcelDescriptor h desc)).clearKeys h.parcel =
        (s.clearKeys h.parcel).asking (.writeParcelDescriptor h desc) from rfl, moveCrews_asking]
      rfl
    · rw [show (s.asking (.writeParcelDescriptor h desc)).clearKeys h.parcel =
        (s.clearKeys h.parcel).asking (.writeParcelDescriptor h desc) from rfl,
        show s.requests = (s.clearKeys h.parcel).requests from rfl, moved_back]
      rfl
  · rw [if_neg hc] at hu
    subst hu
    refine (receive_back (i := .writeParcelDescriptor h desc) (code := 2) (status := 0) hp rfl (ready_run hs (by decide) (by decide))
      (ho _ (if_neg hc).symm) ?_).trans ?_
    · rw [moveCrews_asking]
      rfl
    · rw [moved_back]
      rfl

theorem createRootThread_done {s : State} {h : ReqHead} {entry args config : Word} {q : Parcel} {part : BitVec 32}
    (hs : s.phase = .run) (hp : Posted s h 3) (hc : config.extractLsb' 2 30 = 0) (hq : q = s.parcel h.parcel) (ha : q.state = 1)
    (hr : q.root = none) (hw : part = config.extractLsb' 32 32) (ho : part = 0 ∨ partOk part = true)
    (hk : s.pins none (s.crowds h.parcel 1) = false) (i : Instr) (hi : i = .createRootThread h entry args config) :
    execCreateRootThread h entry args config s = .next ((((({ s.asking i with nextLaunch := s.nextLaunch + 1 } : State).setParcel h.parcel
      { q with root := some (s.nextLaunch * 2 ^ 24) }).createLaunch s.nextLaunch
        (rootLaunch h.parcel q entry args (config.toNat % 4) part))).answered i 0) := by
  subst hi
  refine (receive_answered (i := .createRootThread h entry args config) (code := 3) (status := 0) (after := id) (u :=
    (({ s.asking (.createRootThread h entry args config) with nextLaunch := s.nextLaunch + 1 } : State).setParcel h.parcel
      { q with root := some (s.nextLaunch * 2 ^ 24) }).createLaunch s.nextLaunch
        (rootLaunch h.parcel q entry args (config.toNat % 4) part)) hp rfl (ready_run hs (by decide) (by decide)) ?_)
  subst hq hw
  have h2 : (decide (config.extractLsb' 32 32 ≠ (0 : BitVec 32)) && !partOk (config.extractLsb' 32 32)) = false := by
    rcases ho with h | h
    · simp [h]
    · simp [h]
  have ha' : ((s.asking (.createRootThread h entry args config)).parcel h.parcel).state = 1 := ha
  have hr' : ((s.asking (.createRootThread h entry args config)).parcel h.parcel).root = none := hr
  have hk' : (s.asking (.createRootThread h entry args config)).pins none
    ((s.asking (.createRootThread h entry args config)).crowds h.parcel 1) = false := hk
  show State.createRoot _ h.parcel entry args config = _
  unfold State.createRoot
  rw [if_neg (fun x => x hc)]
  dsimp only
  rw [if_neg, if_neg (ne_true_of_eq_false hk')]
  · rfl
  · refine ne_true_of_eq_false ?_
    rw [Bool.or_eq_false_iff, Bool.or_eq_false_iff]
    refine ⟨⟨decide_eq_false (fun x => x ha'), by rw [hr']; rfl⟩, h2⟩

theorem removeLaunch_done {s : State} {h : ReqHead} {launch : Nat} {tids : List Nat} (hs : s.phase = .run) (hp : Posted s h 4)
    (ht : tids = (s.tidsOf h.parcel).filter (launchOf · == launch))
    (hk : (s.traverses.any fun e => tids.contains e.2.tid && !s.mayEnd e.1 e.2) = false) (i : Instr) (hi : i = .removeLaunch h launch) :
    execRemoveLaunch h launch s = .next (((s.asking i).stopThreads tids).answered i 0) := by
  subst hi
  refine (receive_answered (i := .removeLaunch h launch) (code := 4) (status := 0) (after := id)
    (u := (s.asking (.removeLaunch h launch)).stopThreads tids) hp rfl (ready_run hs (by decide) (by decide)) ?_)
  subst ht
  show State.removeLaunch _ h.parcel launch = _
  unfold State.removeLaunch
  exact if_neg (ne_true_of_eq_false hk)

/-- A parcel's end begins: its descriptor says that it is ending, and the request waits at its hub (R299). -/
theorem endParcel_begun {s : State} {h : ReqHead} (hs : s.phase = .run) (hp : Posted s h 5) (ha : (s.parcel h.parcel).state = 1) (i : Instr)
    (hi : i = .endParcel h) : execEndParcel h s = .next (((s.asking i).beginEnd h.parcel).deferring i) := by
  subst hi
  refine receive_waits (i := .endParcel h) (code := 5) hp rfl (ready_run hs (by decide) (by decide)) ?_
  have ha' : ((s.asking (.endParcel h)).parcel h.parcel).state = 1 := ha
  show State.endRequest _ h.parcel false = _
  simp only [State.endRequest, ha', Bool.false_eq_true, if_false, ne_eq, not_true_eq_false]

/-- A parcel's end is completed and answered in a later turn of its hub's endpoint. -/
theorem endParcel_done {s : State} {h : ReqHead} {hub : Nat} (hs : s.phase = .run) (hc : h.code = 5) (hl : h.len = 0)
    (hf : s.requests.find? (·.1 == hub) = some (hub, .endParcel h, true)) :
    s.serve hub = ({ s.endParcel h.parcel with requests := (s.endParcel h.parcel).requests.erase (hub, .endParcel h, true) } : State).reply h 0 := by
  refine (serve_answered (u := s.endParcel h.parcel) (status := 0) (after := id) hf ?_).trans rfl
  have hc' : (headOf (.endParcel h)).code = 5 := hc
  have hl' : (headOf (.endParcel h)).len = 0 := hl
  simp only [State.takeUp, hc', hl', hs]
  rfl

theorem ownerFor_done {s : State} {owner : Nat} (ho : owner < 64) (ha : (s.parcel owner).state ≠ 2) : s.ownerFor owner = .ok (some owner) := by
  have h1 : ¬ owner = 0xFF := by omega
  have h2 : ¬ 64 ≤ owner := by omega
  simp only [State.ownerFor, h1, h2, ha, if_false]

theorem assignFrames_done {s : State} {h : ReqHead} {first count owner lo hi : Nat} {o : Option Nat}
    (hs : s.phase = .run ∨ s.phase = .step 6) (hp : Posted s h 6) (ho : s.ownerFor owner = .ok o) (hn : first + count ≤ 2 ^ 23)
    (hk : s.store.overlaps first count = false)
    (hb : (s.blockOwner.any fun b => b.1 * 8192 < first + count && first < b.1 * 8192 + 8192) = false) (hlo : lo = first * 65536)
    (hhi : hi = (first + count) * 65536) (hh : s.holdsPlace lo hi = false) (hpin : s.pinsPlace lo hi = false) (i : Instr)
    (hi' : i = .assignFrames h first count owner) :
    execAssignFrames h first count owner s = .next
      ((((s.asking i).dropRefill lo hi).setFrames ((List.range count).map (first + ·)) o).answered i 0) := by
  subst hi' hlo hhi
  refine (receive_answered (i := .assignFrames h first count owner) (code := 6) (status := 0) (after := id)
    (u := ((s.asking (.assignFrames h first count owner)).dropRefill (first * 65536) ((first + count) * 65536)).setFrames
      ((List.range count).map (first + ·)) o) hp rfl (ready_either hs (by decide)) ?_)
  show State.giveFrames _ first count owner = _
  have ho' : (s.asking (.assignFrames h first count owner)).ownerFor owner = .ok o := ho
  have h1 : ((s.asking (.assignFrames h first count owner)).store.overlaps first count ||
    (s.asking (.assignFrames h first count owner)).blockOwner.any fun b => b.1 * 8192 < first + count && first < b.1 * 8192 + 8192) = false := by
    rw [Bool.or_eq_false_iff]; exact ⟨hk, hb⟩
  have h2 : ((s.asking (.assignFrames h first count owner)).holdsPlace (first * 65536) ((first + count) * 65536) ||
    (s.asking (.assignFrames h first count owner)).pinsPlace (first * 65536) ((first + count) * 65536)) = false := by
    rw [Bool.or_eq_false_iff]; exact ⟨hh, hpin⟩
  simp only [State.giveFrames, ho']
  rw [if_neg (Nat.not_lt.mpr hn), if_neg (ne_true_of_eq_false h1), if_neg (ne_true_of_eq_false h2)]
  rfl

theorem assignBlocks_done {s : State} {h : ReqHead} {first count owner lo hi : Nat} {o : Option Nat} {blocks : List Nat}
    {mine : TlbEntry → Bool} (hs : s.phase = .run ∨ s.phase = .step 6) (hp : Posted s h 14) (ho : s.ownerFor owner = .ok o)
    (hn : first + count ≤ 1024) (hbs : blocks = (List.range count).map (first + ·))
    (hb : (o.any fun p => blocks.any fun b => !s.blockFull b p) = false) (hlo : lo = first * 2 ^ 29) (hhi : hi = (first + count) * 2 ^ 29)
    (hm : mine = fun e => e.big && e.maps lo hi) (hh : s.engineHolds mine = false) (hpin : s.pins none (fun _ c => c.pages.any mine) = false)
    (i : Instr) (hi' : i = .assignBlocks h first count owner) :
    execAssignBlocks h first count owner s = .next
      (((((s.asking i).dropRefill lo hi).dropTlb mine).setBlocks blocks o).answered i 0) := by
  subst hi'
  refine (receive_answered (i := .assignBlocks h first count owner) (code := 14) (status := 0) (after := id)
    (u := (((s.asking (.assignBlocks h first count owner)).dropRefill lo hi).dropTlb mine).setBlocks blocks o) hp rfl
    (ready_either hs (by decide)) ?_)
  subst hlo hhi hbs hm
  show State.giveBlocks _ first count owner = _
  have ho' : (s.asking (.assignBlocks h first count owner)).ownerFor owner = .ok o := ho
  simp only [State.giveBlocks, ho']
  have hb' : (o.any fun p => ((List.range count).map (first + ·)).any fun b =>
    !(s.asking (.assignBlocks h first count owner)).blockFull b p) = false := hb
  rw [if_neg (Nat.not_lt.mpr hn), if_neg (ne_true_of_eq_false hb'), if_neg]
  · rfl
  · refine ne_true_of_eq_false ?_
    rw [Bool.or_eq_false_iff]; exact ⟨hh, hpin⟩

theorem writeRouteEntry_done {s : State} {h : ReqHead} {dev : Nat} {entry : BitVec 32} (hs : s.phase = .run ∨ s.phase = .step 6)
    (hp : Posted s h 7) (hd : dev < 1024) : execWriteRouteEntry h dev entry s = .next
      (({ s with routes := tset 0 dev (entry &&& 0xC03FFFFF) s.routes } : State).reply h 0) := by
  refine (receive_back (i := .writeRouteEntry h dev entry) (code := 7) (status := 0)
    (u := { s.asking (.writeRouteEntry h dev entry) with routes := tset 0 dev (entry &&& 0xC03FFFFF) s.routes }) hp rfl
    (ready_either hs (by decide)) ?_ rfl).trans rfl
  exact if_neg (Nat.not_le.mpr hd)

theorem setDeviceNumber_done {s : State} {h : ReqHead} {n : Nat} (hs : s.phase = .step 6) (hp : Posted s h 8) (hn : n < 1024) :
    execSetDeviceNumber h n s = .next (({ s with devnum := some n } : State).reply h 0) := by
  refine (receive_back (i := .setDeviceNumber h n) (code := 8) (status := 0)
    (u := { s.asking (.setDeviceNumber h n) with devnum := some n }) hp rfl (ready_either (.inr hs) (by decide)) ?_ rfl).trans rfl
  have hs' : (s.asking (.setDeviceNumber h n)).phase = .step 6 := hs
  have h1 : ¬ 1024 ≤ n := Nat.not_le.mpr hn
  have h2 : ((Phase.step 6 == Phase.run) = true) = False := by simp
  show State.setNumber _ n = _
  simp only [State.setNumber, hs', h2, h1, if_false, performed]

theorem clearLostMark_done {s : State} {h : ReqHead} {dev : Nat} (hs : s.phase = .run) (hp : Posted s h 9) (hd : dev < 1024) :
    execClearLostMark h dev s = .next (({ s with lost := mdrop dev s.lost } : State).reply h 0) := by
  refine (receive_back (i := .clearLostMark h dev) (code := 9) (status := 0)
    (u := { s.asking (.clearLostMark h dev) with lost := mdrop dev s.lost }) hp rfl (ready_run hs (by decide) (by decide)) ?_ rfl).trans rfl
  exact if_neg (Nat.not_le.mpr hd)

theorem requestKeyRotation_done {s : State} {h : ReqHead} (hs : s.phase = .run) (hp : Posted s h 10) (ha : (s.parcel h.parcel).state = 1) :
    execRequestKeyRotation h s = .next ((s.setParcel h.parcel { s.parcel h.parcel with rotations := true }).reply h 0) := by
  refine (receive_back (i := .requestKeyRotation h) (code := 10) (status := 0)
    (u := (s.asking (.requestKeyRotation h)).setParcel h.parcel { s.parcel h.parcel with rotations := true }) hp rfl
    (ready_run hs (by decide) (by decide)) ?_ rfl).trans rfl
  exact if_neg (fun x => x ha)

theorem setScrubPeriod_done {s : State} {h : ReqHead} {hours : Nat} (hs : s.phase = .run) (hp : Posted s h 11) (h1 : hours ≠ 0)
    (h2 : hours ≤ 255) : execSetScrubPeriod h hours s = .next
      (({ s with hbm := s.hbm.map fun k => { k with scrubHours := hours } } : State).reply h 0) := by
  refine (receive_back (i := .setScrubPeriod h hours) (code := 11) (status := 0)
    (u := { s.asking (.setScrubPeriod h hours) with hbm := s.hbm.map fun k => { k with scrubHours := hours } }) hp rfl
    (ready_run hs (by decide) (by decide)) ?_ rfl).trans rfl
  have h3 : ¬ 255 < hours := Nat.not_lt.mpr h2
  show State.setPeriod _ hours = _
  simp only [State.setPeriod, h1, h3, decide_false, Bool.or_self, Bool.false_eq_true, if_false, performed]
  rfl

theorem setPowerLimit_done {s : State} {h : ReqHead} {watts : Nat} (hs : s.phase = .run) (hp : Posted s h 12) (h1 : 600 ≤ watts)
    (h2 : watts ≤ 2400) : execSetPowerLimit h watts s = .next (({ s with powerLimit := watts } : State).reply h 0) := by
  refine (receive_back (i := .setPowerLimit h watts) (code := 12) (status := 0)
    (u := { s.asking (.setPowerLimit h watts) with powerLimit := watts }) hp rfl (ready_run hs (by decide) (by decide)) ?_ rfl).trans rfl
  have h3 : ¬ watts < 600 := Nat.not_lt.mpr h1
  have h4 : ¬ 2400 < watts := Nat.not_lt.mpr h2
  show State.setPower _ watts = _
  simp only [State.setPower, h3, h4, decide_false, Bool.or_self, Bool.false_eq_true, if_false, performed]

theorem writeHostAperture_done {s : State} {h : ReqHead} {k : Nat} {a : Word} {mine : TlbEntry → Bool} (hs : s.phase = .run)
    (hp : Posted s h 13) (hk : k < 8) (ha : badAperture a = false) (hm : mine = fun e => e.parcel == h.parcel && e.maps (2 ^ 44) (2 ^ 45))
    (he : s.engineHolds mine = false) (ht : (s.traverses.any fun e => e.1 == h.parcel && ofHost e.2.cursorLoc) = false)
    (hn : s.pins none (fun _ c => c.pages.any mine) = false) (i : Instr) (hi : i = .writeHostAperture h k a) :
    execWriteHostAperture h k a s = .next (((((s.asking i).dropPages mine).dropTlb mine).setParcel h.parcel
      { s.parcel h.parcel with apertures := (s.parcel h.parcel).apertures.setIfInBounds k a }).answered i 0) := by
  subst hi
  refine (receive_answered (i := .writeHostAperture h k a) (code := 13) (status := 0) (after := id)
    (u := (((s.asking (.writeHostAperture h k a)).dropPages mine).dropTlb mine).setParcel h.parcel
      { s.parcel h.parcel with apertures := (s.parcel h.parcel).apertures.setIfInBounds k a }) hp rfl
    (ready_run hs (by decide) (by decide)) ?_)
  subst hm
  show State.setAperture _ h.parcel k a = _
  unfold State.setAperture
  rw [if_neg (Nat.not_le.mpr hk), if_neg (ne_true_of_eq_false ha), if_neg]
  · rfl
  · refine ne_true_of_eq_false ?_
    rw [Bool.or_eq_false_iff, Bool.or_eq_false_iff]
    exact ⟨⟨he, ht⟩, hn⟩

end Sys2Proof.Machine
end

