-- ==== Sys2Proof/Laws/Encoding.lean ====
section
/-! SUPPORT. The fields of an encoded word are the fields it was encoded from (02, R26). -/

set_option linter.unusedSimpArgs false
set_option Elab.async false

namespace Sys2Proof

/-- Bits that lie in the low part of an append. -/
theorem extract_low {m n k : Nat} (x : BitVec m) (y : BitVec n) (lo : Nat) (h : lo + k ≤ n) :
    (x ++ y).extractLsb' lo k = y.extractLsb' lo k := by
  apply BitVec.eq_of_getLsbD_eq
  intro i hi
  simp (disch := omega) only [BitVec.getLsbD_append, BitVec.getLsbD_extractLsb', if_pos]

/-- Bits that lie in the high part of an append. -/
theorem extract_high {m n k : Nat} (x : BitVec m) (y : BitVec n) (lo : Nat) (h : n ≤ lo) :
    (x ++ y).extractLsb' lo k = x.extractLsb' (lo - n) k := by
  apply BitVec.eq_of_getLsbD_eq
  intro i hi
  simp (disch := omega) only [BitVec.getLsbD_append, BitVec.getLsbD_extractLsb', if_neg]
  rw [show lo + i - n = lo - n + i by omega]

theorem extract_all {n : Nat} (x : BitVec n) : x.extractLsb' 0 n = x := BitVec.extractLsb'_eq_self

/-- Bits within a field. -/
theorem extract_within {n : Nat} (w : BitVec n) (a k b m : Nat) (h : b + m ≤ k) :
    (w.extractLsb' a k).extractLsb' b m = w.extractLsb' (a + b) m := by
  apply BitVec.eq_of_getLsbD_eq
  intro i hi
  have : b + i < k := by omega
  simp [BitVec.getLsbD_extractLsb', hi, this, Nat.add_assoc]

theorem bit_low {m n : Nat} (x : BitVec m) (y : BitVec n) (i : Nat) (h : i < n) : (x ++ y).getLsbD i = y.getLsbD i := by
  simp only [BitVec.getLsbD_append, if_pos h]

theorem bit_high {m n : Nat} (x : BitVec m) (y : BitVec n) (i : Nat) (h : n ≤ i) :
    (x ++ y).getLsbD i = x.getLsbD (i - n) := by
  simp (disch := omega) only [BitVec.getLsbD_append, if_neg]

theorem bit_ofBool (c : Bool) : (BitVec.ofBool c).getLsbD 0 = c := by cases c <;> rfl


section VS
variable (o d a b : BitVec 6) (c e : Bool) (n : BitVec 6)

@[simp] theorem fOp_encVS : fOp (encVS o d a b c e n) = o := by
  simp (disch := decide) only [fOp, encVS, bit_high, bit_low, bit_ofBool, extract_high, extract_low, extract_all,
    Nat.reduceSub]
@[simp] theorem fD_encVS : fD (encVS o d a b c e n) = d := by
  simp (disch := decide) only [fD, encVS, bit_high, bit_low, bit_ofBool, extract_high, extract_low, extract_all,
    Nat.reduceSub]
@[simp] theorem fA_encVS : fA (encVS o d a b c e n) = a := by
  simp (disch := decide) only [fA, encVS, bit_high, bit_low, bit_ofBool, extract_high, extract_low, extract_all,
    Nat.reduceSub]
@[simp] theorem fB_encVS : fB (encVS o d a b c e n) = b := by
  simp (disch := decide) only [fB, encVS, bit_high, bit_low, bit_ofBool, extract_high, extract_low, extract_all,
    Nat.reduceSub]
@[simp] theorem fC_encVS : fC (encVS o d a b c e n) = c := by
  simp (disch := decide) only [fC, encVS, bit_high, bit_low, bit_ofBool, extract_high, extract_low, extract_all,
    Nat.reduceSub]
@[simp] theorem fE_encVS : fE (encVS o d a b c e n) = e := by
  simp (disch := decide) only [fE, encVS, bit_high, bit_low, bit_ofBool, extract_high, extract_low, extract_all,
    Nat.reduceSub]
@[simp] theorem fFn_encVS : fFn (encVS o d a b c e n) = n := by
  simp (disch := decide) only [fFn, encVS, bit_high, bit_low, bit_ofBool, extract_high, extract_low, extract_all,
    Nat.reduceSub]

end VS

section I
variable (o d a : BitVec 6) (i : BitVec 14)

@[simp] theorem fOp_encI : fOp (encI o d a i) = o := by
  simp (disch := decide) only [fOp, encI, bit_high, bit_low, bit_ofBool, extract_high, extract_low, extract_all,
    Nat.reduceSub]
@[simp] theorem fD_encI : fD (encI o d a i) = d := by
  simp (disch := decide) only [fD, encI, bit_high, bit_low, bit_ofBool, extract_high, extract_low, extract_all,
    Nat.reduceSub]
@[simp] theorem fA_encI : fA (encI o d a i) = a := by
  simp (disch := decide) only [fA, encI, bit_high, bit_low, bit_ofBool, extract_high, extract_low, extract_all,
    Nat.reduceSub]
@[simp] theorem fImm14_encI : fImm14 (encI o d a i) = i := by
  simp (disch := decide) only [fImm14, encI, bit_high, bit_low, bit_ofBool, extract_high, extract_low, extract_all,
    Nat.reduceSub]

end I

section U
variable (o d : BitVec 6) (i : BitVec 20)

@[simp] theorem fOp_encU : fOp (encU o d i) = o := by
  simp (disch := decide) only [fOp, encU, bit_high, bit_low, bit_ofBool, extract_high, extract_low, extract_all,
    Nat.reduceSub]
@[simp] theorem fD_encU : fD (encU o d i) = d := by
  simp (disch := decide) only [fD, encU, bit_high, bit_low, bit_ofBool, extract_high, extract_low, extract_all,
    Nat.reduceSub]
@[simp] theorem fImm20_encU : fImm20 (encU o d i) = i := by
  simp (disch := decide) only [fImm20, encU, bit_high, bit_low, bit_ofBool, extract_high, extract_low, extract_all,
    Nat.reduceSub]

end U

section L
variable (o d : BitVec 6) (l : BitVec 12) (x : BitVec 8)

@[simp] theorem fOp_encL : fOp (encL o d l x) = o := by
  simp (disch := decide) only [fOp, encL, bit_high, bit_low, bit_ofBool, extract_high, extract_low, extract_all,
    Nat.reduceSub]
@[simp] theorem fD_encL : fD (encL o d l x) = d := by
  simp (disch := decide) only [fD, encL, bit_high, bit_low, bit_ofBool, extract_high, extract_low, extract_all,
    Nat.reduceSub]
@[simp] theorem fLen_encL : fLen (encL o d l x) = l := by
  simp (disch := decide) only [fLen, encL, bit_high, bit_low, bit_ofBool, extract_high, extract_low, extract_all,
    Nat.reduceSub]
@[simp] theorem fLow8_encL : fLow8 (encL o d l x) = x := by
  simp (disch := decide) only [fLow8, encL, bit_high, bit_low, bit_ofBool, extract_high, extract_low, extract_all,
    Nat.reduceSub]

end L

section F
variable (s : BitVec 2) (x : BitVec 24)

@[simp] theorem fOp_encF : fOp (encF s x) = 0x13#6 := by
  simp (disch := decide) only [fOp, encF, bit_high, bit_low, bit_ofBool, extract_high, extract_low, extract_all,
    Nat.reduceSub]
@[simp] theorem fSub_encF : fSub (encF s x) = s := by
  simp (disch := decide) only [fSub, encF, bit_high, bit_low, bit_ofBool, extract_high, extract_low, extract_all,
    Nat.reduceSub]
@[simp] theorem fLow24_encF : fLow24 (encF s x) = x := by
  simp (disch := decide) only [fLow24, encF, bit_high, bit_low, bit_ofBool, extract_high, extract_low, extract_all,
    Nat.reduceSub]

end F

section Mode
variable (g : BitVec 4) (s : BitVec 5) (r : BitVec 3) (t : Bool) (c : BitVec 6) (b : BitVec 2) (d : BitVec 5)

@[simp] theorem fOp_encMode : fOp (encMode g s r t c b d) = 0x01#6 := by
  simp (disch := decide) only [fOp, encMode, bit_high, bit_low, bit_ofBool, extract_high, extract_low, extract_all,
    Nat.reduceSub]
@[simp] theorem fGuard_encMode : fGuard (encMode g s r t c b d) = g := by
  simp (disch := decide) only [fGuard, encMode, bit_high, bit_low, bit_ofBool, extract_high, extract_low, extract_all,
    Nat.reduceSub]
@[simp] theorem fStype_encMode : fStype (encMode g s r t c b d) = s := by
  simp (disch := decide) only [fStype, encMode, bit_high, bit_low, bit_ofBool, extract_high, extract_low, extract_all,
    Nat.reduceSub]
@[simp] theorem fRnd_encMode : fRnd (encMode g s r t c b d) = r := by
  simp (disch := decide) only [fRnd, encMode, bit_high, bit_low, bit_ofBool, extract_high, extract_low, extract_all,
    Nat.reduceSub]
@[simp] theorem fSat_encMode : fSat (encMode g s r t c b d) = t := by
  simp (disch := decide) only [fSat, encMode, bit_high, bit_low, bit_ofBool, extract_high, extract_low, extract_all,
    Nat.reduceSub]
@[simp] theorem fScale_encMode : fScale (encMode g s r t c b d) = c := by
  simp (disch := decide) only [fScale, encMode, bit_high, bit_low, bit_ofBool, extract_high, extract_low, extract_all,
    Nat.reduceSub]
@[simp] theorem fBlk_encMode : fBlk (encMode g s r t c b d) = b := by
  simp (disch := decide) only [fBlk, encMode, bit_high, bit_low, bit_ofBool, extract_high, extract_low, extract_all,
    Nat.reduceSub]
@[simp] theorem fLow5_encMode : fLow5 (encMode g s r t c b d) = d := by
  simp (disch := decide) only [fLow5, encMode, bit_high, bit_low, bit_ofBool, extract_high, extract_low, extract_all,
    Nat.reduceSub]

end Mode

@[simp] theorem fK3_split (o d a : BitVec 6) (k : BitVec 3) (x : BitVec 11) : fK3 (encI o d a (k ++ x)) = k := by
  simp (disch := decide) only [fK3, fImm14_encI, extract_high, extract_low, extract_all, bit_high, bit_low, Nat.reduceSub]
@[simp] theorem fOff11_split (o d a : BitVec 6) (k : BitVec 3) (x : BitVec 11) : fOff11 (encI o d a (k ++ x)) = x := by
  simp (disch := decide) only [fOff11, fImm14_encI, extract_high, extract_low, extract_all, bit_high, bit_low, Nat.reduceSub]
@[simp] theorem fK2_split (o d a : BitVec 6) (k : BitVec 2) (x : BitVec 12) : fK2 (encI o d a (k ++ x)) = k := by
  simp (disch := decide) only [fK2, fImm14_encI, extract_high, extract_low, extract_all, bit_high, bit_low, Nat.reduceSub]
@[simp] theorem fNum_split (o d a : BitVec 6) (k : BitVec 2) (x : BitVec 12) : fNum (encI o d a (k ++ x)) = x := by
  simp (disch := decide) only [fNum, fImm14_encI, extract_high, extract_low, extract_all, bit_high, bit_low, Nat.reduceSub]
/-- The format number of a write to a format register lies in the register number. -/
theorem fLow3_eq_fNum (w : BitVec 32) : fLow3 w = (fNum w).extractLsb' 0 3 := by
  simp (disch := decide) only [fLow3, fFn, fNum, fImm14, extract_within, Nat.reduceAdd]
@[simp] theorem fLow3_format (o d a : BitVec 6) (k : BitVec 2) (x : BitVec 9) (f : BitVec 3) :
    fLow3 (encI o d a (k ++ (x ++ f))) = f := by
  rw [fLow3_eq_fNum, fNum_split, extract_low _ _ _ (by decide), extract_all]
@[simp] theorem fK2_shift (o d a : BitVec 6) (k : BitVec 2) (x n : BitVec 6) : fK2 (encI o d a (k ++ x ++ n)) = k := by
  simp (disch := decide) only [fK2, fImm14_encI, extract_high, extract_low, extract_all, bit_high, bit_low, Nat.reduceSub]
@[simp] theorem fR6_shift (o d a : BitVec 6) (k : BitVec 2) (x n : BitVec 6) : fR6 (encI o d a (k ++ x ++ n)) = x := by
  simp (disch := decide) only [fR6, fImm14_encI, extract_high, extract_low, extract_all, bit_high, bit_low, Nat.reduceSub]
@[simp] theorem fFn_shift (o d a : BitVec 6) (k : BitVec 2) (x n : BitVec 6) : fFn (encI o d a (k ++ x ++ n)) = n := by
  simp (disch := decide) only [fFn, encI, extract_high, extract_low, extract_all, bit_high, bit_low, Nat.reduceSub]
@[simp] theorem fN5_split (s : BitVec 2) (n : BitVec 5) (x : BitVec 19) : fN5 (encF s (n ++ x)) = n := by
  simp (disch := decide) only [fN5, fLow24_encF, extract_high, extract_low, extract_all, bit_high, bit_low, Nat.reduceSub]
@[simp] theorem fOff19_split (s : BitVec 2) (n : BitVec 5) (x : BitVec 19) : fOff19 (encF s (n ++ x)) = x := by
  simp (disch := decide) only [fOff19, fLow24_encF, extract_high, extract_low, extract_all, bit_high, bit_low, Nat.reduceSub]
@[simp] theorem fV_split (s : BitVec 2) (v : BitVec 6) (x : BitVec 18) : fV (encF s (v ++ x)) = v := by
  simp (disch := decide) only [fV, fLow24_encF, extract_high, extract_low, extract_all, bit_high, bit_low, Nat.reduceSub]
@[simp] theorem fOff18_split (s : BitVec 2) (v : BitVec 6) (x : BitVec 18) : fOff18 (encF s (v ++ x)) = x := by
  simp (disch := decide) only [fOff18, fLow24_encF, extract_high, extract_low, extract_all, bit_high, bit_low, Nat.reduceSub]
@[simp] theorem fHi4_split (o d a b : BitVec 6) (c e : Bool) (h : BitVec 4) (s : BitVec 2) : fHi4 (encVS o d a b c e (h ++ s)) = h := by
  simp (disch := decide) only [fHi4, fFn_encVS, extract_high, extract_low, extract_all, bit_high, bit_low, Nat.reduceSub]
@[simp] theorem fScope_split (o d a b : BitVec 6) (c e : Bool) (h : BitVec 4) (s : BitVec 2) : fScope (encVS o d a b c e (h ++ s)) = s := by
  simp (disch := decide) only [fScope, fFn_encVS, extract_high, extract_low, extract_all, bit_high, bit_low, Nat.reduceSub]
@[simp] theorem fComb_split (o d a b : BitVec 6) (c e : Bool) (k l : BitVec 3) : fComb (encVS o d a b c e (k ++ l)) = k := by
  simp (disch := decide) only [fComb, fFn_encVS, extract_high, extract_low, extract_all, bit_high, bit_low, Nat.reduceSub]
@[simp] theorem fLow3_split (o d a b : BitVec 6) (c e : Bool) (k l : BitVec 3) : fLow3 (encVS o d a b c e (k ++ l)) = l := by
  simp (disch := decide) only [fLow3, fFn_encVS, extract_high, extract_low, extract_all, bit_high, bit_low, Nat.reduceSub]
@[simp] theorem fP_tile (o a b : BitVec 6) (c e : Bool) (n : BitVec 6) (p : BitVec 4) (t : BitVec 2) : fP (encVS o (p ++ t) a b c e n) = p := by
  simp (disch := decide) only [fP, fD_encVS, extract_high, extract_low, extract_all, bit_high, bit_low, Nat.reduceSub]
@[simp] theorem fT_tile (o a b : BitVec 6) (c e : Bool) (n : BitVec 6) (p : BitVec 4) (t : BitVec 2) : fT (encVS o (p ++ t) a b c e n) = t := by
  simp (disch := decide) only [fT, fD_encVS, extract_high, extract_low, extract_all, bit_high, bit_low, Nat.reduceSub]
@[simp] theorem fTop3_tile (o a b : BitVec 6) (c e : Bool) (n : BitVec 6) (p : BitVec 4) (t : BitVec 2) : fTop3 (encVS o (p ++ t) a b c e n) = p.extractLsb' 1 3 := by
  simp (disch := decide) only [fTop3, fD_encVS, extract_high, extract_low, extract_all, bit_high, bit_low, Nat.reduceSub]
@[simp] theorem fMem_tile (o a b : BitVec 6) (c e : Bool) (n : BitVec 6) (p : BitVec 4) (t : BitVec 2) : fMem (encVS o (p ++ t) a b c e n) = p.getLsbD 0 := by
  simp (disch := decide) only [fMem, fD_encVS, extract_high, extract_low, extract_all, bit_high, bit_low, Nat.reduceSub]
/-- The guard field of a mode word, as the decoder reads it. -/
theorem fP_eq_fGuard (w : BitVec 32) : fP w = fGuard w := by
  simp (disch := decide) only [fP, fD, fGuard, extract_within, Nat.reduceAdd]

theorem want_ok {ok : Bool} {i : Instr} (h : ok = true) : want ok i = .ok i := by simp [want, h]

/-- A word of a major other than 0 is not the word of zeros. -/
theorem nonzero_of_op {w : BitVec 32} (h : fOp w ≠ 0#6) : w ≠ 0#32 := by
  rintro rfl
  exact h rfl

/-- A word with a minor other than 0 is not the word of zeros. -/
theorem nonzero_of_fn {w : BitVec 32} (h : fFn w ≠ 0#6) : w ≠ 0#32 := by
  rintro rfl
  exact h rfl

end Sys2Proof
end

