-- ==== Sys2Proof/Laws/Engines.lean ====
section
/-! SUPPORT. What the engines' own events do (07, 10, 17), where they can take place. -/

set_option linter.unusedSimpArgs false
set_option Elab.async false

namespace Sys2Proof.Machine

/-! ## The crew matrix unit -/

theorem tileOpPerform_done {s : State} {tid : Nat} {t : Thread} {op : TileOp} {rest : List TileOp} (hs : s.phase = .run)
    (ht : tfind tid s.threads = some t) (hq : t.tileQueue = op :: rest) (hc : t.core.isSome = true) :
    execTileOpPerform tid s = .next { s.setThread (performTile { t with tileQueue := rest } op).1 with
      drains := s.drains ++ (performTile { t with tileQueue := rest } op).2.toList } := by
  refine (event_done hs).trans (congrArg _ ?_)
  obtain ⟨k, hk⟩ := Option.isSome_iff_exists.mp hc
  simp only [State.tileOp, ht, hq, hk, Option.isNone_some, Bool.false_eq_true, if_false]

/-- The next tile operation of a thread that has left the device with a drain to come. -/
theorem tileOpPerform_departed {s : State} {tid : Nat} {t : Thread} {op : TileOp} {rest : List TileOp} (hs : s.phase = .run)
    (hn : tfind tid s.threads = none) (ht : tfind tid s.departed = some t) (hq : t.tileQueue = op :: rest) :
    execTileOpPerform tid s = .next { s with
      departed := if rest.isEmpty then tdrop tid s.departed else
        tput tid (performTile { t with tileQueue := rest } op).1 s.departed
      drains := s.drains ++ (performTile { t with tileQueue := rest } op).2.toList } := by
  refine (event_done hs).trans (congrArg _ ?_)
  simp only [State.tileOp, hn, ht, hq]

theorem drain_id {s : State} {id : Nat} {d : Drain} (hd : s.drains.find? (·.id == id) = some d) : d.id = id := by
  simpa using List.find?_some hd

theorem matrixDrain_empty {s : State} {id n : Nat} {d : Drain} (hs : s.phase = .run) (hd : s.drains.find? (·.id == id) = some d)
    (hr : d.rows = []) : execMatrixDrain id n s = .next (s.drainOver d none) := by
  refine (event_done hs).trans (congrArg _ ?_)
  obtain rfl := drain_id hd
  simp only [State.drainElem, hd, hr, List.getElem?_nil, List.isEmpty_nil, if_true, State.drainOver]

/-- An element of a drain that lies outside the portions ends it with a fault against its tag. -/
theorem matrixDrain_fault {s : State} {id n k : Nat} {d : Drain} {row : BitVec 8192} {bad : Bool}
    (hs : s.phase = .run) (hd : s.drains.find? (·.id == id) = some d) (hr : d.rows[n / 256]? = some (row, bad)) (hn : n ∉ d.done)
    (hk : (List.range 4).find? (fun k => !s.scratchOk d.crew (d.off n + k)) = some k) :
    execMatrixDrain id n s = .next (s.drainOver d (some { code := 5, sub := 0, val := BitVec.ofNat 64 (d.off n + k) })) := by
  refine (event_done hs).trans (congrArg _ ?_)
  obtain rfl := drain_id hd
  have hn' : d.done.contains n = false := by simpa using hn
  unfold Drain.off at hk ⊢
  simp only [State.drainElem, hd, hr, hn', hk, Bool.false_eq_true, if_false, State.drainOver]

/-- An element of a drain is written as one unit; the last one ends it. -/
theorem matrixDrain_done {s u : State} {id n loc : Nat} {d e : Drain} {row : BitVec 8192} {bad : Bool} (hs : s.phase = .run)
    (hd : s.drains.find? (·.id == id) = some d) (hr : d.rows[n / 256]? = some (row, bad)) (hn : n ∉ d.done)
    (hk : (List.range 4).find? (fun k => !s.scratchOk d.crew (d.off n + k)) = none) (hl : loc = scratchLoc d.crew (d.off n))
    (hh : s.held none (linesFrom loc 4) = false)
    (hu : u = s.engineUnit id (writesOf loc (bytesOfNat (rowCode row (n % 256)) 4)) bad) (he : e = { d with done := mput n d.done }) :
    execMatrixDrain id n s = .next (if e.done.length = e.size then u.drainOver d none
      else { u with drains := u.drains.map fun x => if x.id == id then e else x }) := by
  subst hl hu he
  refine (event_done hs).trans (congrArg _ ?_)
  obtain rfl := drain_id hd
  have hn' : d.done.contains n = false := by simpa using hn
  unfold Drain.off at hk hh ⊢
  simp only [State.drainElem, hd, hr, hn', hk, hh, Bool.false_eq_true, if_false, State.drainOver]

/-! ## Copies -/

theorem copyStart_small {s : State} {core : Nat} {c : Copy} (hs : s.phase = .run)
    (hc : ((s.copiesOf core).filter (·.forked)).find? (!·.started) = some c) (hn : c.slots ≤ copySlots)
    (hf : ((((s.copiesOf core).filter (·.forked)).filter (·.started)).map (·.slots)).sum + c.slots ≤ copySlots) :
    execCopyStart core s = .next (s.modCopy c.id fun c => { c with started := true }) := by
  refine (event_done hs).trans (congrArg _ ?_)
  have h1 : ¬ copySlots < c.slots := by omega
  simp only [State.copyStart, hc, h1, hf, if_true, if_false]

theorem copyStart_large {s : State} {core : Nat} {c : Copy} (hs : s.phase = .run)
    (hc : ((s.copiesOf core).filter (·.forked)).find? (!·.started) = some c) (hn : copySlots < c.slots)
    (hf : ((((s.copiesOf core).filter (·.forked)).filter (·.started)).map (·.slots)).sum = 0) :
    execCopyStart core s = .next (s.modCopy c.id fun c => { c with started := true }) := by
  refine (event_done hs).trans (congrArg _ ?_)
  simp only [State.copyStart, hc, hn, hf, if_true]

theorem copyElement_done {s : State} {id n : Nat} {c : Copy} (hs : s.phase = .run) (h : c.Moves s id n) :
    execCopyElement id n s = .next (c.move n s) := by
  refine (event_done hs).trans (congrArg _ ?_)
  simp only [State.copyElement, h.found, h.forked, h.started, h.fault, h.slot, h.undone, h.inside, Option.isNone_none, decide_true,
    Bool.not_false, Bool.and_self, if_true]

/-- An element that its masks leave out is performed without an access. -/
theorem move_none {s : State} {n : Nat} {c : Copy} (h : c.spot n = .none) :
    c.move n s = s.modCopy c.id fun c => { c with done := mput (pieceAt 0 (2 * n)) c.done } := by
  simp only [Copy.move, h]
  rfl

/-- The source of an element that lies in one piece of memory is read. -/
theorem move_read {s s' : State} {n va k l : Nat} {c : Copy} {a d : List Nat} (h : c.spot n = .move a d) (hsp : c.ssp = false)
    (hp : pieces (c.src.addr a).toNat (c.src.bytes a) = [(va, k)]) (hg : c.job.get s (2 * n) = none)
    (hq : s.asked (.copyRead c.id (2 * n)) = false) (hr : s.reach c.job.agent .load none va k = .ok (s', .loc l)) :
    c.move n s = (s'.countDead l).modCopy c.id fun c => { c with
      held := tput (2 * n) (if s'.poisonAt l k then poisonCode else s'.readObj l k) c.held } := by
  have hk : keyed n (pieces (c.src.addr a).toNat (c.src.bytes a)) = [(2 * n, va, k)] := by rw [hp]; rfl
  have hq' : s.asked (c.job.ask (2 * n)) = false := hq
  simp only [Copy.move, h, Job.value, hk, List.map_cons, List.map_nil, hg, Option.map_none, List.any_cons, List.any_nil,
    Option.isNone_none, Bool.or_false, if_true, hsp, Bool.false_eq_true, if_false, Job.read, Option.isSome_none, hq', Bool.or_self, hr]
  rfl

/-- An element that has been read is written to one piece of memory. -/
theorem move_write {s s' : State} {n va k m x va' k' l : Nat} {c : Copy} {a d : List Nat} (h : c.spot n = .move a d) (hsp : c.dsp = false)
    (hp : pieces (c.src.addr a).toNat (c.src.bytes a) = [(va, k)]) (hg : c.job.get s (2 * n) = some x)
    (bs : List (Byte × Byte)) (hm : m = x / 2 ^ (c.src.offset a).2 % 2 ^ c.src.width)
    (hb : bs = (writesOfBits 0 (c.dst.offset d).2 c.dst.width m).map (·.2))
    (hp' : pieces (c.dst.addr d).toNat bs.length = [(va', k')]) (hva : va' = (c.dst.addr d).toNat) (hk' : bs.take k' = bs)
    (hq : s.asked (.copyWrite c.id (pieceAt 0 (2 * n))) = false) (hd : pieceAt 0 (2 * n) ∉ c.done)
    (hf : s.copies.find? (·.id == c.id) = some c)
    (hr : s.reach c.job.agent .store none va' bs.length = .ok (s', .loc l)) (hh : s'.held none (linesFrom l bs.length) = false) :
    c.move n s = (s'.engineUnit c.id (((List.range bs.length).zip bs).map fun (i, m, b) => (l + i, m, b))
      (decide (poisonCode ≤ x))).modCopy c.id fun c => { c with done := mput (pieceAt 0 (2 * n)) c.done } := by
  subst hm
  have hk : keyed n (pieces (c.src.addr a).toNat (c.src.bytes a)) = [(2 * n, va, k)] := by rw [hp]; rfl
  have hk2 : keyed n (pieces (c.dst.addr d).toNat bs.length) = [(2 * n, va', k')] := by rw [hp']; rfl
  have hq' : s.asked (c.job.ack (pieceAt 0 (2 * n))) = false := hq
  have hdid : c.job.did s (pieceAt 0 (2 * n)) = false := by
    show (s.copies.find? (·.id == c.id)).any (fun c => c.done.contains (pieceAt 0 (2 * n))) = false
    rw [hf, Option.any_some]
    simpa using hd
  have hcr : c.crews = [none] := by simp [Copy.crews, hsp]
  have hz : (List.range [(none : Option Nat)].length).zip [(none : Option Nat)] = [(0, none)] := rfl
  have hd : bs.drop (va' - (c.dst.addr d).toNat) = bs := by rw [hva, Nat.sub_self, List.drop_zero]
  have hv : c.job.value n (c.src.offset a).2 c.src.width (pieces (c.src.addr a).toNat (c.src.bytes a)) s
      = some (decide (poisonCode ≤ x), x / 2 ^ (c.src.offset a).2 % 2 ^ c.src.width) := by
    simp [Job.value, hk, hg]
  simp only [Copy.move, h, hv, hcr, List.isEmpty_cons, Bool.false_eq_true, if_false, Job.write, ← hb, hz, List.foldl_cons, List.foldl_nil,
    hk2, hd, hk', Job.writePiece, hq', hdid, Bool.or_self, hr, hh]
  rfl

theorem barrierCredit_done {s : State} {id bytes l : Nat} {c : Copy} (hs : s.phase = .run)
    (hf : s.copies.find? (·.id == id) = some c) (h1 : c.forked = true) (h2 : c.started = true) (hl : c.bar = some l)
    (h3 : 0 < bytes) (h4 : c.credited + bytes ≤ c.creditable) (hh : s.held none [l / 128] = false) :
    execBarrierCredit id bytes s = .next
      ((s.credit l bytes []).modCopy id fun c => { c with credited := c.credited + bytes }) := by
  refine (event_done hs).trans (congrArg _ ?_)
  simp only [State.barrierCredit, hf, h1, h2, hl, h3, h4, hh, decide_true, Bool.not_false, Bool.and_self, if_true]

/-- What a credit writes: the barrier with its failures and its bytes. -/
theorem credit_done {s : State} {loc bytes : Nat} {fails : List Nat} (h : loc < scratchBase ∨ viewBase ≤ loc) :
    s.credit loc bytes fails = s.unitObj loc 16 (barCredit (fails.foldl barFail (s.readObj loc 16)) bytes) := by
  have h' : (scratchBase ≤ loc && loc < viewBase) = false := by simp only [Bool.and_eq_false_iff, decide_eq_false_iff_not]; omega
  simp only [State.credit, h', Bool.false_and, Bool.false_eq_true, if_false]

/-- A copy whose elements have all been performed, or that has stopped in error, with no failed member still to mark, ends. -/
theorem copyComplete_done {s : State} {id : Nat} {c : Copy} (hs : s.phase = .run) (hf : s.copies.find? (·.id == id) = some c)
    (h1 : c.forked = true) (h2 : c.started = true) (hq : s.fabric.any (·.isCopy id) = false)
    (hp : c.fault.isSome = true ∨ c.performed = c.slots) (hm : c.unmasked = []) :
    execCopyComplete id s = .next (s.copyEnd c) := by
  refine (event_done hs).trans (congrArg _ ?_)
  have hp' : (c.fault.isNone && decide (c.performed ≠ c.slots)) = false := by
    rcases hp with hp | hp
    · cases hc : c.fault <;> simp_all
    · simp [hp]
  simp only [State.copyComplete, hf, h1, h2, hq, hp', hm, Bool.not_true, Bool.or_self, Bool.false_eq_true, if_false, List.foldl_nil,
    List.isEmpty_nil, if_true]

/-- What a copy with a barrier has not credited is credited at its end, with its failures. -/
theorem copyEnd_bar {s : State} {c : Copy} {l : Nat} (hl : c.bar = some l) (hh : s.held none [l / 128] = false) (fails : List Nat)
    (hf : fails = c.failed ++ (if c.fault.isSome then [0xFFFFFF] else [])) (hr : 0 < c.total - c.credited ∨ fails ≠ []) :
    s.copyEnd c = (s.credit l (c.total - c.credited) fails).copyOver c := by
  subst hf
  have h : (decide (c.total - c.credited = 0) && (c.failed ++ (if c.fault.isSome then [0xFFFFFF] else [])).isEmpty) = false := by
    rcases hr with h | h
    · have : ¬ c.total - c.credited = 0 := by omega
      simp [this]
    · rw [Bool.and_eq_false_iff]
      exact .inr (by simpa using h)
  simp only [State.copyEnd, hl, hh, Option.any_some, h, Bool.false_eq_true, if_false, State.copyOver]

theorem copyEnd_bare {s : State} {c : Copy} (hl : c.bar = none) : s.copyEnd c = s.copyOver c := by
  simp only [State.copyEnd, hl, Option.any_none, Bool.false_eq_true, if_false, State.copyOver]

/-! ## Streams -/

/-- One further element of a stream, from memory. -/
theorem streamRefill_done {s s' : State} {tid v l : Nat} {t : Thread} {p : Stream} {q b : Nat} {got : List (Nat × Nat × Nat)}
    (hs : s.phase = .run) (ht : tfind tid s.threads = some t) (hp : tfind v t.ctx.streams = some p) (hc : t.core.isSome = true)
    (hn : t.chunk = none) (hg : got = (tfind v t.refill).getD []) (hq : q = (got.map (·.1)).foldl (fun m k => max m (k + 1)) p.pos)
    (hb : b = p.width / 8) (hl : q < p.length) (ha : (p.addr q).toNat % b = 0)
    (hr : s.reach { eng := p.id, core := t.core.getD 0, parcel := t.parcel, priv := p.priv } .load none (p.addr q).toNat b =
      .ok (s', .loc l))
    (ho : s'.poisonAt l b = false) (u : State) (hu : u = s'.countDead l) :
    execStreamRefill tid v 1 s = .next { u with threads := tmod t.tid (fun t => { t with
        refill := tput v (tput q (l, u.readObj l b) ((tfind v t.refill).getD [])) t.refill }) u.threads } := by
  subst hg hq hb hu
  refine (event_done hs).trans (congrArg _ ?_)
  obtain ⟨k, hk⟩ := Option.isSome_iff_exists.mp hc
  have h1 : List.range 1 = [0] := rfl
  have hl' : ¬ p.length ≤ ((((tfind v t.refill).getD []).map (·.1)).foldl (fun m k => max m (k + 1)) p.pos) := by omega
  simp only [State.streamRefill, ht, hp, hk, hn, Option.isNone_some, Option.all_none, Bool.not_true, Bool.or_self, Bool.false_eq_true,
    if_false, h1, List.foldl_cons, List.foldl_nil, Nat.add_zero, State.fetchElem, ha, ne_eq, not_true_eq_false, decide_false, hl']
  simp only [hk, Option.getD_some] at hr
  simp only [Option.getD_some, hr, ho, Bool.false_eq_true, if_false]

/-! ## Traverses -/

/-- A post of a traverse is started, in its parcel's turn. -/
theorem post_start {s : State} {parcel j : Nat} {v : Traverse} {p : PostOf} (hs : s.phase = .run) (hv : tfind parcel s.traverses = some v)
    (hi : v.inflight.find? (·.j == j) = none) (hp : v.postOf j = some p) (hj : v.startable j = true) (ht : s.nextPoster = some parcel) :
    execPost parcel j s = .next { s with
      lastPoster := parcel
      traverses := tmod parcel (fun v =>
        { v with inflight := v.inflight ++ [{ j := j, held := [], done := [], crediting := false, failed := false }] }) s.traverses } := by
  refine (event_done hs).trans (congrArg _ ?_)
  simp only [State.post, hv, hi, hp, hj, ht, beq_self_eq_true, Bool.and_self, if_true, State.modTraverse]

/-- A post's first element that is not on its way moves on. -/
theorem post_move {s : State} {parcel j n : Nat} {v : Traverse} {p : PostOf} {q : Post} (hs : s.phase = .run)
    (hv : tfind parcel s.traverses = some v) (hi : v.inflight.find? (·.j == j) = some q) (hp : v.postOf j = some p)
    (hq : q.failed = false)
    (hn : (List.range (cellCount p.cell)).find? (fun n => !v.elemDone p q n && !s.elemAsked parcel j n) = some n) :
    execPost parcel j s = .next (v.move parcel p j n s) := by
  refine (event_done hs).trans (congrArg _ ?_)
  simp only [State.post, hv, hi, hp, hq, hn, Bool.false_eq_true, if_false]

/-- A destination without a receive record. -/
theorem postCredit_none {s : State} {parcel j : Nat} {v : Traverse} {p : PostOf} {q : Post} (hs : s.phase = .run)
    (h : v.Performed s parcel j p q) (hr : (v.dstTable[p.rank]?.map (·.rrec)).getD 0 = 0) :
    execPostCredit parcel j s = .next { s with traverses := tmod parcel (·.complete j) s.traverses } := by
  refine (event_done hs).trans (congrArg _ ?_)
  simp only [State.postCredit, h.found, h.flying, h.post, h.standing, h.calm, h.done, hr, Bool.not_true, Bool.or_self, Bool.false_eq_true, if_false,
    if_true, State.modTraverse]

/-- A receive record of the device's own is credited. -/
theorem postCredit_own {s s' s'' : State} {parcel j l k : Nat} {v : Traverse} {p : PostOf} {q : Post} {rrec : Word} (hs : s.phase = .run)
    (h : v.Performed s parcel j p q) (hr : rrec = (v.dstTable[p.rank]?.map (·.rrec)).getD 0) (h0 : rrec ≠ 0)
    (h1 : s.reach (v.agent parcel) .amo none rrec.toNat 16 = .ok (s', .loc l))
    (h2 : s'.reach (v.agent parcel) .amo none (rrec.toNat + 16 + p.index / 8) 1 = .ok (s'', .loc k))
    (hh : s''.held none [l / 128, k / 128] = false) (u : State) (hu : u = s''.creditRecord l k (p.index % 8) (cellBytes v.src p.cell)) :
    execPostCredit parcel j s = .next { u with traverses := tmod parcel (·.complete j) u.traverses } := by
  subst hr hu
  refine (event_done hs).trans (congrArg _ ?_)
  simp only [State.postCredit, h.found, h.flying, h.post, h.standing, h.calm, h.done, h0, h1, h2, hh, Bool.not_true, Bool.or_self, Bool.false_eq_true,
    if_false, State.modTraverse]

/-- A receive record of another device is credited by a request. -/
theorem postCredit_far {s s' u : State} {parcel j dev off : Nat} {v : Traverse} {p : PostOf} {q : Post} {rrec : Word} (hs : s.phase = .run)
    (h : v.Performed s parcel j p q) (hr : rrec = (v.dstTable[p.rank]?.map (·.rrec)).getD 0) (h0 : rrec ≠ 0)
    (h1 : s.reach (v.agent parcel) .amo none rrec.toNat 16 = .ok (s', .fabric dev off))
    (hu : u = { s' with traverses := tmod parcel (·.modPost j fun q => { q with crediting := true }) s'.traverses }) :
    execPostCredit parcel j s = .next (u.sendReq ((v.agent parcel).request dev off (.credit p.index (cellBytes v.src p.cell)) rrec.toNat
      (.postCredit parcel j))) := by
  subst hr hu
  refine (event_done hs).trans (congrArg _ ?_)
  simp only [State.postCredit, h.found, h.flying, h.post, h.standing, h.calm, h.done, h0, h1, Bool.not_true, Bool.or_self, Bool.false_eq_true,
    if_false, State.modTraverse]

theorem traverseDone_done {s : State} {parcel : Nat} {v : Traverse} (hs : s.phase = .run) (hv : tfind parcel s.traverses = some v)
    (hn : v.stop = none) (hi : v.inflight = []) (hj : v.next = v.nout) (hh : s.mayEnd parcel v = true) :
    execTraverseDone parcel s = .next (s.finishTraverse parcel v) := by
  refine (event_done hs).trans (congrArg _ ?_)
  simp only [State.traverseDone, hv, hn, hi, hj, hh, Option.isNone_none, List.isEmpty_nil, decide_true, Bool.and_self, if_true]

theorem traverseStop_done {s : State} {parcel : Nat} {v : Traverse} {f : Trap} {va : Word} (hs : s.phase = .run)
    (hv : tfind parcel s.traverses = some v) (hn : v.stop = some (f, va)) (hi : v.inflight.all (·.failed) = true)
    (hq : s.fabric.any (·.isPost parcel) = false) (hh : s.mayEnd parcel v = true) :
    execTraverseStop parcel s = .next (s.stopTraverse parcel v f va) := by
  refine (event_done hs).trans (congrArg _ ?_)
  simp only [State.traverseStop, hv, hn, hi, hq, hh, Bool.not_false, Bool.and_self, if_true]

/-- What the end of a traverse does: its cursor's fields are written, chunks that have touched its slot squashed, the slot freed and the
tag completed (R370). -/
theorem endTraverse_done {s : State} {parcel : Nat} {v : Traverse} (fs : List (Nat × Nat × Nat)) (f : Option Trap)
    (hd : ofHost v.cursorLoc = false ∨ s.fyzWidth ≠ 0) (u : State)
    (hu : u = (s.unit none (cursorWrites v.cursorLoc fs)).squashIf fun _ c => c.meets [slotLine parcel]) :
    s.endTraverse parcel v fs f =
      ({ u with traverses := tdrop parcel u.traverses }.dropEngine (traverseEngine parcel)).tagDone v.tid v.tag f := by
  subst hu
  have h : (ofHost v.cursorLoc && decide (s.fyzWidth = 0)) = false := by
    rcases hd with h | h <;> simp [h]
  simp only [State.endTraverse, h, Bool.false_eq_true, if_false]

end Sys2Proof.Machine
end

