-- ==== Sys2Proof/Laws/Ends.lean ====
section
/-! SUPPORT. What is left of a parcel that ends (R299), what an arriving request is refused for (R326), and what a fence leaves (R358). -/

set_option linter.unusedSimpArgs false

namespace Sys2Proof.Machine

/-! ## Threads that are removed (R254, R299) -/

/-- Each entry of a table stands in another under the same name, with a thread of the same parcel; an order of the names is kept. -/
def Fewer (m0 m : Table Thread) : Prop :=
  (tsorted m0 = true → tsorted m = true) ∧ ∀ e ∈ m, ∃ e0 ∈ m0, e0.1 = e.1 ∧ e0.2.parcel = e.2.parcel

theorem mem_of_tfind {α : Type} {k : Nat} {v : α} : ∀ {m : Table α}, tfind k m = some v → (k, v) ∈ m
  | [], h => by simp [tfind] at h
  | (j, u) :: r, h => by
    unfold tfind at h
    split at h
    · rename_i e
      cases h
      subst e
      exact List.mem_cons_self
    · split at h
      · cases h
      · exact List.mem_cons_of_mem _ (mem_of_tfind h)

theorem tsorted_map {α : Type} (g : Nat × α → Nat × α) (hg : ∀ e, (g e).1 = e.1) : ∀ {m : Table α} {lo : Nat},
    sortedFrom lo m = true → sortedFrom lo (m.map g) = true
  | [], _, h => h
  | (k, v) :: r, lo, h => by
    simp only [sortedFrom, Bool.and_eq_true, decide_eq_true_eq] at h
    have e : g (k, v) = (k, (g (k, v)).2) := Prod.ext (hg _) rfl
    rw [List.map_cons, e]
    simp only [sortedFrom, Bool.and_eq_true, decide_eq_true_eq]
    exact ⟨h.1, tsorted_map g hg h.2⟩

/-- No entry is left under a name that is dropped. -/
theorem tdrop_gone {α : Type} {k : Nat} : ∀ {m : Table α} {lo : Nat}, sortedFrom lo m = true → ∀ e ∈ tdrop k m, e.1 ≠ k
  | [], _, _, e, h => by simp [tdrop] at h
  | (j, u) :: r, lo, hs, e, h => by
    simp only [sortedFrom, Bool.and_eq_true, decide_eq_true_eq] at hs
    have above : ∀ {m : Table α} {lo : Nat}, sortedFrom lo m = true → ∀ e ∈ m, lo ≤ e.1 := by
      intro m
      induction m with
      | nil => intro lo _ e h; cases h
      | cons x m ih =>
        intro lo hs e h
        obtain ⟨k', v'⟩ := x
        simp only [sortedFrom, Bool.and_eq_true, decide_eq_true_eq] at hs
        rcases List.mem_cons.1 h with h | h
        · rw [h]; exact hs.1
        · exact Nat.le_trans (Nat.le_succ_of_le hs.1) (ih hs.2 e h)
    unfold tdrop at h
    split at h
    · rcases List.mem_cons.1 h with h | h
      · rw [h]; simp only; omega
      · have := above hs.2 e h; omega
    · split at h
      · have := above hs.2 e h; omega
      · rcases List.mem_cons.1 h with h | h
        · rw [h]; assumption
        · exact tdrop_gone hs.2 e h

theorem fewer_stays (m0 : Table Thread) : Stays (Fewer m0) where
  map g hg ht h := by
    refine ⟨fun s => tsorted_map g hg (h.1 s), fun e he => ?_⟩
    obtain ⟨e1, h1, rfl⟩ := List.mem_map.1 he
    obtain ⟨e0, h0, h2, h3⟩ := h.2 e1 h1
    exact ⟨e0, h0, h2.trans (hg _).symm, h3.trans (ht _).2.symm⟩
  mod {m} k f hf h := by
    unfold tmod
    split
    · rename_i t ht
      refine ⟨fun s => sortedFrom_tput _ (h.1 s) (Nat.zero_le _), fun e he => ?_⟩
      rcases mem_tput he with rfl | he
      · obtain ⟨e0, h0, h2, h3⟩ := h.2 _ (mem_of_tfind ht)
        exact ⟨e0, h0, h2, h3.trans (hf t).2.symm⟩
      · exact h.2 e he
    · exact h

theorem Fewer.refl (m : Table Thread) : Fewer m m := ⟨id, fun e h => ⟨e, h, rfl, rfl⟩⟩

theorem Fewer.trans {a b c : Table Thread} (h : Fewer a b) (k : Fewer b c) : Fewer a c := by
  refine ⟨fun s => k.1 (h.1 s), fun e he => ?_⟩
  obtain ⟨e1, h1, h2, h3⟩ := k.2 e he
  obtain ⟨e0, g1, g2, g3⟩ := h.2 e1 h1
  exact ⟨e0, g1, g2.trans h2, g3.trans h3⟩

/-- A removal drops the thread's own entry; what it changes of the others stays in place. -/
theorem Stays.remove {P : Table Thread → Prop} (c : Stays P) {s : State} {tid : Nat} (h : P (tdrop tid s.threads)) (h0 : tfind tid s.threads = none → P s.threads) :
    P (s.removeThread tid).threads := by
  unfold State.removeThread
  split
  · rename_i hn
    exact h0 hn
  · rename_i t ht
    simp only
    have e : (((s.dropIssued [tid]).releaseTicket tid)).threads = s.threads := release_threads _ _
    generalize hs1 : (s.dropIssued [tid]).releaseTicket tid = s1 at e
    have h1 := c.modStands (s := { s1 with
      threads := tdrop tid s1.threads
      departed := if t.tileQueue.any (·.isDrain) then tput tid { t with chunk := none } s1.departed else s1.departed
      engines := s1.engines.filter fun e => !t.ctx.streams.any (·.2.id == e.1) }) (by rw [e]; exact h) (launchOf tid) (some tid) fun _ st => st.leave (indexOf tid)
    generalize State.modStands _ _ _ _ = s2 at h1 ⊢
    (repeat' split) <;> exact h1

theorem tdrop_none {α : Type} {k : Nat} : ∀ {m : Table α}, tfind k m = none → tdrop k m = m
  | [], _ => rfl
  | (j, u) :: r, h => by
    unfold tfind at h
    unfold tdrop
    split at h
    · cases h
    · split at h
      · rename_i hk
        rw [if_pos hk]
      · rename_i hj hk
        rw [if_neg hk, if_neg hj, tdrop_none h]

theorem tdrop_fewer (k : Nat) (m : Table Thread) : Fewer m (tdrop k m) :=
  ⟨fun s => sortedFrom_tdrop s, fun e he => ⟨e, mem_tdrop he, rfl, rfl⟩⟩

/-- Threads that are removed leave no entry, and the others keep their names and parcels. -/
theorem removed (tids : List Nat) : ∀ (s : State), tsorted s.threads = true →
    Fewer s.threads (tids.foldl State.removeThread s).threads ∧ ∀ e ∈ (tids.foldl State.removeThread s).threads, e.1 ∉ tids := by
  induction tids with
  | nil => exact fun s _ => ⟨Fewer.refl _, fun e _ h => by cases h⟩
  | cons k tids ih =>
    intro s hs
    have h1 : Fewer (tdrop k s.threads) (s.removeThread k).threads :=
      (fewer_stays _).remove (Fewer.refl _) fun h => by rw [tdrop_none h]; exact Fewer.refl _
    have h2 := ih (s.removeThread k) (h1.1 (sortedFrom_tdrop hs))
    refine ⟨(tdrop_fewer k _).trans (h1.trans h2.1), fun e he hm => ?_⟩
    rcases List.mem_cons.1 hm with h | h
    · obtain ⟨e0, g0, g1, -⟩ := (h1.trans h2.1).2 e he
      exact tdrop_gone hs e0 g0 (g1.trans h)
    · exact h2.2 e he h

theorem mem_distinct {k : Nat} (l : List Nat) : k ∈ l → k ∈ distinct l := by
  have put : ∀ (m : Marks) (j : Nat), k ∈ m ∨ k = j → k ∈ mput j m := by
    intro m j
    fun_induction mput j m <;> grind
  have all : ∀ (l : List Nat) (m : Marks), (k ∈ m ∨ k ∈ l) → k ∈ l.foldl (fun m k => mput k m) m := by
    intro l
    induction l with
    | nil => intro m h; simpa using h
    | cons j l ih =>
      intro m h
      refine ih _ ?_
      rcases h with h | h
      · exact .inl (put m j (.inl h))
      · exact (List.mem_cons.1 h).imp (fun h => put m j (.inr h)) id
  exact fun h => all l [] (.inr h)

theorem stop_threads (s : State) (tids : List Nat) (hs : tsorted s.threads = true) :
    Fewer s.threads (s.stopThreads tids).threads ∧ ∀ e ∈ (s.stopThreads tids).threads, e.1 ∉ tids := by
  obtain ⟨h1, h2⟩ := removed tids s hs
  have key : ∀ (vs : List (Nat × Traverse)) (u : State), Fewer (tids.foldl State.removeThread s).threads u.threads →
      Fewer (tids.foldl State.removeThread s).threads
        (vs.foldl (fun s e => s.stopTraverse e.1 e.2 { code := 0, sub := 0, val := 0 } 0) u).threads := by
    intro vs u hu
    refine foldl_inv (fun s => Fewer _ s.threads) _ (fun u e hu => ?_) vs hu
    exact (fewer_stays _).endTraverse hu _ _ _ _
  have h3 : Fewer (tids.foldl State.removeThread s).threads (s.stopThreads tids).threads := key _ _ (Fewer.refl _)
  refine ⟨h1.trans h3, fun e he hm => ?_⟩
  obtain ⟨e0, g0, g1, -⟩ := h3.2 e he
  exact h2 e0 g0 (g1 ▸ hm)

/-! ## A parcel that ends (R299) -/

theorem squashIf_parcels (s : State) (p : Thread → Chunk → Bool) : (s.squashIf p).parcels = s.parcels := by
  unfold State.squashIf
  simp only
  split <;> rfl

theorem unit_parcels (s : State) (who : Option Nat) (ws : List Write) : (s.unit who ws).parcels = s.parcels := by
  unfold State.unit
  simp only
  rw [show ∀ (s : State) (ls : Marks), (s.wake who ls).parcels = s.parcels from fun _ _ => rfl]
  rw [show ∀ s : State, ({ s with scratchPoison := s.scratchPoison.filter fun k =>
      (ws.filter fun (w : Write) => scratchBase + k * 8 ≤ w.1 && w.1 < scratchBase + k * 8 + 8 && w.2.1 == 255).length != 8 } :
        State).parcels = s.parcels from fun _ => rfl]
  rw [foldl_keep State.parcels _ (fun s l => lineWritten_keep _ (fun _ _ _ _ => rfl) s _ l),
    foldl_keep State.parcels _ (fun s w => putByte_keep _ (fun _ _ => rfl) (fun _ _ _ _ _ => rfl) s w), squashIf_parcels,
    heatFor_keep State.parcels (fun _ _ _ => rfl)]

theorem endTraverse_parcels (s : State) (parcel : Nat) (v : Traverse) (fs : List (Nat × Nat × Nat)) (f : Option Trap) :
    (s.endTraverse parcel v fs f).parcels = s.parcels := by
  unfold State.endTraverse
  simp only
  have h : (if (ofHost v.cursorLoc && decide (s.fyzWidth = 0)) = true then s else s.unit none (cursorWrites v.cursorLoc fs)).parcels = s.parcels := by
    split
    · rfl
    · exact unit_parcels _ _ _
  generalize (if (ofHost v.cursorLoc && decide (s.fyzWidth = 0)) = true then s else s.unit none (cursorWrites v.cursorLoc fs)) = u at h ⊢
  rw [← h, ← squashIf_parcels u fun _ c => c.meets [slotLine parcel]]
  generalize u.squashIf _ = w
  rfl

theorem modStands_parcels (s : State) (n : Nat) (who : Option Nat) (f : Nat → Stand → Stand) : (s.modStands n who f).parcels = s.parcels := by
  unfold State.modStands
  split
  · rfl
  · simp only
    split
    · rfl
    · exact squashIf_parcels _ _

theorem setParcel_self {s : State} {p : Nat} (hp : p < 64) (q : Parcel) : (s.setParcel p q).parcel p = q := by
  simp [State.setParcel, State.parcel, hp]

theorem setParcel_other {s : State} {p k : Nat} (h : k ≠ p) (q : Parcel) : (s.setParcel k q).parcel p = s.parcel p := by
  simp only [State.setParcel, State.parcel]
  by_cases hp : p < 64
  · rw [Vector.getElem?_setIfInBounds_ne h]
  · simp [hp]

theorem remove_state (s : State) (tid p : Nat) : ((s.removeThread tid).parcel p).state = (s.parcel p).state := by
  unfold State.removeThread
  split
  · rfl
  · rename_i t ht
    simp only
    have e : ((s.dropIssued [tid]).releaseTicket tid).parcels = s.parcels := by
      unfold State.releaseTicket
      simp only
      split <;> rfl
    generalize (s.dropIssued [tid]).releaseTicket tid = s1 at e
    have h2 := modStands_parcels { s1 with
      threads := tdrop tid s1.threads
      departed := if t.tileQueue.any (·.isDrain) then tput tid { t with chunk := none } s1.departed else s1.departed
      engines := s1.engines.filter fun e => !t.ctx.streams.any (·.2.id == e.1) } (launchOf tid) (some tid) fun _ st => st.leave (indexOf tid)
    have h2 := h2.trans e
    generalize State.modStands _ _ _ _ = s2 at h2 ⊢
    have h2 : s2.parcels = s.parcels := h2
    have h4 : (s2.parcel p).state = (s.parcel p).state := by unfold State.parcel; rw [h2]
    have h3 : ((s2.setParcel t.parcel { s2.parcel t.parcel with root := none }).parcel p).state = (s.parcel p).state := by
      by_cases hk : t.parcel = p
      · subst hk
        by_cases hp : t.parcel < 64
        · rw [setParcel_self hp]; exact h4
        · unfold State.setParcel State.parcel
          simp only [Vector.getElem?_setIfInBounds_self, hp, if_false]
          unfold State.parcel at h4
          simp [hp] at h4 ⊢
      · rw [setParcel_other hk]; exact h4
    (repeat' split) <;> first | exact h3 | exact h4

theorem stop_state (s : State) (tids : List Nat) (p : Nat) : ((s.stopThreads tids).parcel p).state = (s.parcel p).state := by
  have h1 : ∀ s : State, ((tids.foldl State.removeThread s).parcel p).state = (s.parcel p).state := fun s =>
    foldl_keep (fun s => (State.parcel s p).state) _ (fun s k => remove_state s k p) _ _
  have h2 : ∀ (vs : List (Nat × Traverse)) (u : State),
      ((vs.foldl (fun s e => s.stopTraverse e.1 e.2 { code := 0, sub := 0, val := 0 } 0) u).parcel p).state = (u.parcel p).state := fun vs u =>
    foldl_keep (fun s => (State.parcel s p).state) _ (fun s e => by
      unfold State.stopTraverse State.parcel
      rw [endTraverse_parcels]) _ _
  exact (h2 _ _).trans (h1 _)

/-- What the beginning of a parcel's end leaves of it on the device. -/
theorem ending_leaves (s u : State) (p : Nat) (hp : p < 64) (hs : tsorted s.threads = true) (hu : u = s.beginEnd p) :
    (u.parcel p).state = 2 ∧ (u.parcel p).outkey = 0 ∧ (∀ e ∈ u.threads, e.2.parcel ≠ p) ∧ (∀ c ∈ u.copies, c.parcel ≠ p) ∧
    (∀ rs ∈ u.regions, ∀ r ∈ rs, r.parcel ≠ p) ∧ (∀ e ∈ u.keys, e.2.localParcel ≠ p) ∧ (∀ e ∈ u.tlb, e.2.parcel ≠ p) ∧
    (∀ q ∈ u.fabric, q.parcel = p → q.reply = .combined) := by
  subst hu
  have hd : ∀ (v : State) (f : TlbEntry → Bool), (v.dropTlb f).parcels = v.parcels ∧ (∀ c ∈ (v.dropTlb f).copies, c ∈ v.copies) ∧
      (v.dropTlb f).regions = v.regions ∧ (v.dropTlb f).keys = v.keys ∧ (∀ q ∈ (v.dropTlb f).fabric, q ∈ v.fabric) ∧
      (∀ e ∈ (v.dropTlb f).tlb, f e.2 = false) ∧ Fewer v.threads (v.dropTlb f).threads := by
    intro v f
    unfold State.dropTlb
    refine ⟨squashIf_parcels _ _, squashIf_copies _ _, ?_, ?_, ?_, fun e he => by simpa using (List.mem_filter.1 he).2,
      (fewer_stays _).squashIf (Fewer.refl _) _⟩
    · unfold State.squashIf; simp only; split <;> rfl
    · unfold State.squashIf; simp only; split <;> rfl
    · unfold State.squashIf
      simp only
      split
      · exact fun q h => h
      · exact fun q h => (List.mem_filter.1 h).1
  obtain ⟨ht, hg⟩ := stop_threads (s.setParcel p { s.parcel p with state := 2 }) ((s.setParcel p { s.parcel p with state := 2 }).tidsOf p) hs
  have hst := stop_state (s.setParcel p { s.parcel p with state := 2 }) ((s.setParcel p { s.parcel p with state := 2 }).tidsOf p) p
  rw [setParcel_self hp] at hst
  unfold State.beginEnd
  simp only
  generalize htids : (s.setParcel p { s.parcel p with state := 2 }).tidsOf p = tids at *
  generalize (s.setParcel p { s.parcel p with state := 2 }).stopThreads tids = s1 at *
  generalize hs2 : ({ s1.freeRegions p with
    copies := (s1.freeRegions p).copies.filter (·.parcel != p)
    fabric := (s1.freeRegions p).fabric.map fun q => if q.parcel == p then { q with reply := .combined } else q } : State) = s2
  obtain ⟨d1, d2, d3, d4, d5, d6, d7⟩ := hd ((s2.clearKeys p).setParcel p { s2.parcel p with outkey := 0 }) fun e => e.parcel == p
  have b1 : (s2.parcel p).state = 2 := by rw [← hs2]; exact hst
  have b2 : s2.copies = s1.copies.filter (·.parcel != p) := by rw [← hs2]; rfl
  have b3 : s2.regions = s1.regions.map fun rs => rs.filter fun r => r.parcel != p := by rw [← hs2]; rfl
  have b4 : s2.fabric = s1.fabric.map fun q => if q.parcel == p then { q with reply := .combined } else q := by rw [← hs2]; rfl
  have b5 : s2.threads = s1.threads := by rw [← hs2]; rfl
  refine ⟨?_, ?_, ?_, ?_, ?_, ?_, ?_, ?_⟩
  · exact (congrArg (fun ps : Vector Parcel 64 => (ps[p]?.getD Parcel.free).state) d1).trans
      ((congrArg Parcel.state (setParcel_self hp _)).trans b1)
  · exact (congrArg (fun ps : Vector Parcel 64 => (ps[p]?.getD Parcel.free).outkey) d1).trans
      (congrArg Parcel.outkey (setParcel_self hp _))
  · intro e he hpar
    obtain ⟨e1, h1, h2, h3⟩ := d7.2 e he
    have h1 : e1 ∈ s2.threads := h1
    rw [b5] at h1
    obtain ⟨e0, g1, g2, g3⟩ := ht.2 e1 h1
    refine hg e1 h1 ?_
    rw [← htids]
    unfold State.tidsOf
    refine mem_distinct _ ?_
    simp only [List.mem_append, List.mem_map, List.mem_filter]
    exact .inl (.inl (.inl (.inl (.inl ⟨e0, ⟨g1, by simp [g3, h3, hpar]⟩, g2⟩))))
  · intro c hc
    have hc : c ∈ s2.copies := d2 c hc
    rw [b2] at hc
    simpa using (List.mem_filter.1 hc).2
  · intro rs hrs r hr
    have d3 : _ = s2.regions := d3
    rw [d3, b3] at hrs
    obtain ⟨rs0, -, rfl⟩ := Vector.mem_map.1 hrs
    simpa using (List.mem_filter.1 hr).2
  · intro e he
    rw [d4] at he
    simpa using (List.mem_filter.1 he).2
  · intro e he
    simpa using d6 e he
  · intro q hq hpar
    have hq : q ∈ s2.fabric := d5 q hq
    rw [b4] at hq
    obtain ⟨q0, -, rfl⟩ := List.mem_map.1 hq
    by_cases h : q0.parcel = p
    · simp [h]
    · simp [h] at hpar

/-- What threads that are stopped leave of themselves (R299, R356): no entry, no operation and no request that waits for them. -/
theorem stopped_leaves (s u : State) (tids : List Nat) (hs : tsorted s.threads = true) (hu : u = s.stopThreads tids) :
    (∀ e ∈ u.threads, e.1 ∉ tids ∧ ∃ e0 ∈ s.threads, e0.1 = e.1 ∧ e0.2.parcel = e.2.parcel) ∧ (∀ c ∈ u.copies, c.tid ∉ tids) ∧
    (∀ d ∈ u.drains, d.tid ∉ tids) ∧ (∀ e ∈ u.departed, e.1 ∉ tids) ∧ (∀ e ∈ u.farQueues, ∀ f ∈ e.2, f.2.1 ∉ tids) ∧
    ∀ q ∈ u.fabric, ∀ k, q.tid = some k → k ∉ tids := by
  subst hu
  obtain ⟨h1, h2⟩ := stop_threads s tids hs
  refine ⟨fun e he => ⟨h2 e he, h1.2 e he⟩, fun c hc => ?_, fun d hd => ?_, fun e he => ?_, fun e he f hf => ?_, fun q hq k hk hm => ?_⟩
  · simpa using (List.mem_filter.1 hc).2
  · simpa using (List.mem_filter.1 hd).2
  · simpa using (List.mem_filter.1 he).2
  · obtain ⟨e0, -, rfl⟩ := List.mem_map.1 he
    simpa using (List.mem_filter.1 hf).2
  · obtain ⟨q0, -, rfl⟩ := List.mem_map.1 hq
    split at hk
    · cases hk
    · rename_i h
      simp [hk, hm] at h

/-! ## The last step of a parcel's end -/

theorem tdrops_gone : ∀ (ks : List Nat) (m : Table Nat), tsorted m = true →
    ∀ e ∈ ks.foldl (fun m f => tdrop f m) m, e ∈ m ∧ e.1 ∉ ks
  | [], m, _, e, h => ⟨h, fun h => by cases h⟩
  | k :: ks, m, hs, e, h => by
    obtain ⟨h1, h2⟩ := tdrops_gone ks (tdrop k m) (sortedFrom_tdrop hs) e h
    refine ⟨mem_tdrop h1, fun hm => ?_⟩
    rcases List.mem_cons.1 hm with h | h
    · exact tdrop_gone hs e h1 h
    · exact h2 h

theorem wipe_keeps {β : Type} (get : State → β) (hq : ∀ (s : State) p, get (s.squashIf p) = get s)
    (h : ∀ (s : State) m q, get { s with mem := m, scratchPoison := q } = get s) (s : State) (core lo hi : Nat) : get (s.wipeScratch core lo hi) = get s :=
  (h _ _ _).trans (hq _ _)

theorem wipe_mem (s : State) (core lo hi : Nat) :
    (s.wipeScratch core lo hi).mem = tclear (scratchLoc (crewOf core) (core % 4 * 2 ^ 21 + lo)) (scratchLoc (crewOf core) (core % 4 * 2 ^ 21 + hi)) s.mem := by
  unfold State.wipeScratch
  simp only
  rw [squashIf_mem]

theorem byte_absent {m : Memory} {a : Nat} (h : ∀ e ∈ m, e.1 ≠ a) : m.byte a = 0 := by
  unfold Memory.byte tget
  cases hf : tfind a m with
  | none => rfl
  | some v => exact absurd rfl (h _ (mem_of_tfind hf))

/-- The portions of a crew are wiped one after another. -/
theorem wipe_crew (s : State) (crew : Nat) : ∀ e ∈ ((List.range 4).foldl (fun s k => s.wipeScratch (crew * 4 + k) 0 (2 ^ 21)) s).mem,
    e ∈ s.mem ∧ ∀ off < 2 ^ 23, e.1 ≠ scratchLoc crew off := by
  intro e he
  simp only [show List.range 4 = [0, 1, 2, 3] from rfl, List.foldl_cons, List.foldl_nil, wipe_mem, tclear, List.mem_filter, Bool.or_eq_true,
    decide_eq_true_eq, scratchLoc, crewOf] at he
  obtain ⟨⟨⟨⟨h, h0⟩, h1⟩, h2⟩, h3⟩ := he
  replace h0 := h0.imp of_decide_eq_true of_decide_eq_true
  replace h1 := h1.imp of_decide_eq_true of_decide_eq_true
  replace h2 := h2.imp of_decide_eq_true of_decide_eq_true
  replace h3 := h3.imp of_decide_eq_true of_decide_eq_true
  refine ⟨h, fun off ho => ?_⟩
  unfold scratchLoc
  omega

theorem wipe_crews (cs : List Nat) : ∀ (s : State), ∀ e ∈ (cs.foldl (fun s c => (List.range 4).foldl (fun s k => s.wipeScratch (c * 4 + k) 0 (2 ^ 21)) s) s).mem,
    e ∈ s.mem ∧ ∀ c ∈ cs, ∀ off < 2 ^ 23, e.1 ≠ scratchLoc c off := by
  induction cs with
  | nil => exact fun s e he => ⟨he, fun c hc => by cases hc⟩
  | cons c cs ih =>
    intro s e he
    obtain ⟨h1, h2⟩ := ih _ e he
    obtain ⟨h3, h4⟩ := wipe_crew s c e h1
    refine ⟨h3, fun k hk => ?_⟩
    rcases List.mem_cons.1 hk with h | h
    · subst h; exact h4
    · exact h2 k h

theorem squashIf_keep {β : Type} (get : State → β)
    (h : ∀ (s : State) c f t p k, get { s with copies := c, fabric := f, threads := t, persistent := p, counters := k } = get s) (s : State)
    (p : Thread → Chunk → Bool) : get (s.squashIf p) = get s := by
  unfold State.squashIf
  simp only
  split
  · rfl
  · exact h s _ _ _ _ _

/-- What the frames' translations, copies and chunks do not touch stays as frames change hands. -/
theorem frames_keep {β : Type} (get : State → β) (hq : ∀ (s : State) p, get (s.squashIf p) = get s)
    (hc : ∀ (s : State) k q, get (s.setCore k q) = get s)
    (h : ∀ (s : State) m l k c p w t b, get { s with mem := m, live := l, lineKver := k, copiesMgd := c, poisoned := p, writeBacks := w, threads := t, tlb := b } = get s)
    (s : State) (f : TlbEntry → Bool) (ls : List Nat) : get (((s.dropTlb f).forget ls).kill none none ls) = get s := by
  have h1 : get (s.dropTlb f) = get s :=
    (h _ _ _ _ _ _ _ _ _).trans (hq s fun _ c => c.pages.any f)
  have h2 : ∀ u : State, get (u.forget ls) = get u := by
    intro u
    unfold State.forget
    simp only
    refine (h _ _ _ _ _ _ _ _ _).trans (foldl_keep get _ (fun s e => ?_) _ _)
    exact (h _ _ _ _ _ _ _ _ _).trans (hq _ _)
  have h3 : ∀ u : State, get (u.kill none none ls) = get u := by
    intro u
    unfold State.kill State.wake
    simp only
    refine (h _ _ _ _ _ _ _ _ _).trans ((hq _ _).trans (heatFor_keep get hc _ _ _))
  exact (h3 _).trans ((h2 _).trans h1)

theorem kill_dead (s : State) (ls : List Nat) : ∀ l ∈ ls, (s.kill none none ls).live.contains (l / 32) = false := by
  intro l hl
  unfold State.kill State.wake
  simp only
  rw [Bool.eq_false_iff]
  intro h
  have h := (List.mem_filter.1 (List.contains_iff_mem.1 h)).2
  simp only [Bool.not_eq_true', List.any_eq_false, beq_iff_eq] at h
  exact h l hl rfl

theorem sets_keep {β : Type} (get : State → β) (h1 : ∀ (s : State) p, get (s.squashIf p) = get s) (h2 : ∀ (s : State) k q, get (s.setCore k q) = get s)
    (h3 : ∀ (s : State) m l k c p w t b, get { s with mem := m, live := l, lineKver := k, copiesMgd := c, poisoned := p, writeBacks := w, threads := t, tlb := b } = get s)
    (h4 : ∀ (s : State) o, get { s with frameOwner := o } = get s) (s : State) (fs : List Nat) (o : Option Nat) : get (s.setFrames fs o) = get s := by
  unfold State.setFrames
  exact (h4 _ _).trans (frames_keep get h1 h2 h3 _ _ _)

/-- Frames without an owner are dead (R247). -/
theorem setFrames_none (s : State) (fs : List Nat) :
    (s.setFrames fs none).frameOwner = fs.foldl (fun m f => tdrop f m) s.frameOwner ∧
    ∀ f ∈ fs, ∀ l, l / 512 = f → (s.setFrames fs none).live.contains (l / 32) = false := by
  unfold State.setFrames
  simp only
  refine ⟨congrArg (fun m => fs.foldl (fun m f => tdrop f m) m) (frames_keep State.frameOwner (squashIf_keep _ fun _ _ _ _ _ _ => rfl) (fun _ _ _ => rfl) (fun _ _ _ _ _ _ _ _ _ => rfl) _ _ _), fun f hfm l hl => ?_⟩
  refine kill_dead _ _ l ?_
  unfold frameLines
  exact List.mem_flatMap.2 ⟨f, hfm, List.mem_map.2 ⟨l % 512, List.mem_range.2 (Nat.mod_lt _ (by omega)), by omega⟩⟩

theorem release_keep {β : Type} (get : State → β) (hq : ∀ (s : State) q, get (s.squashIf q) = get s)
    (h : ∀ (s : State) m q, get { s with mem := m, scratchPoison := q } = get s) (hl : ∀ (s : State) l, get { s with leaving := l } = get s)
    (s : State) (p : Nat) (crews : BitVec 96) : get (s.releaseCrews p crews) = get s := by
  unfold State.releaseCrews
  exact (hl _ _).trans (foldl_keep get _ (fun s c => foldl_keep get _ (fun s k => wipe_keeps get hq h s _ _ _) _ _) _ _)

theorem release_leaves (s : State) (p : Nat) (crews : BitVec 96) : (∀ e ∈ (s.releaseCrews p crews).leaving, e.2 ≠ p) ∧
    ∀ c < 96, tfind c s.leaving = some p ∨ (tfind c s.leaving = none ∧ crews.getLsbD c = true) →
      ∀ off < 2 ^ 23, (s.releaseCrews p crews).mem.byte (scratchLoc c off) = 0 := by
  unfold State.releaseCrews
  simp only
  refine ⟨fun e he => by simpa using (List.mem_filter.1 he).2, fun c hc h off ho => ?_⟩
  refine byte_absent fun e he => (wipe_crews _ s e he).2 c ?_ off ho
  rw [List.mem_filter]
  refine ⟨List.mem_range.2 hc, ?_⟩
  rcases h with h | ⟨h, h2⟩
  · simp [h]
  · simp [h, h2]

/-- What the last step of a parcel's end leaves (R299, R300). -/
theorem ended_leaves (s u : State) (p : Nat) (hp : p < 64) (hs : tsorted s.frameOwner = true) (hu : u = s.endParcel p) :
    u.parcel p = Parcel.free ∧ (∀ e ∈ u.frameOwner, e.2 ≠ p) ∧ (∀ e ∈ u.blockOwner, e.2 ≠ p) ∧ (∀ e ∈ u.leaving, e.2 ≠ p) ∧
    (∀ e ∈ s.frameOwner, e.2 = p → ∀ l, l / 512 = e.1 → u.live.contains (l / 32) = false) ∧
    (∀ c < 96, tfind c s.leaving = some p ∨ (tfind c s.leaving = none ∧ (s.parcel p).crews.getLsbD c = true) →
      ∀ off < 2 ^ 23, u.mem.byte (scratchLoc c off) = 0) := by
  subst hu
  unfold State.endParcel
  simp only
  generalize hf : (s.frameOwner.filter fun e => e.2 == p).map (·.1) = frames
  obtain ⟨f1, f2⟩ := setFrames_none s frames
  have f3 : (s.setFrames frames none).leaving = s.leaving :=
    sets_keep State.leaving (squashIf_keep _ fun _ _ _ _ _ _ => rfl) (fun _ _ _ => rfl) (fun _ _ _ _ _ _ _ _ _ => rfl) (fun _ _ => rfl) _ _ _
  have f4 : (s.setFrames frames none).parcels = s.parcels :=
    sets_keep State.parcels (squashIf_keep _ fun _ _ _ _ _ _ => rfl) (fun _ _ _ => rfl) (fun _ _ _ _ _ _ _ _ _ => rfl) (fun _ _ => rfl) _ _ _
  generalize s.setFrames frames none = w at f1 f2 f3 f4
  generalize hs1 : ({ w with blockOwner := w.blockOwner.filter fun e => e.2 != p } : State) = s1
  have g1 : s1.frameOwner = frames.foldl (fun m f => tdrop f m) s.frameOwner := by rw [← hs1]; exact f1
  have g2 : ∀ e ∈ s1.blockOwner, e.2 ≠ p := by
    rw [← hs1]
    exact fun e he => by simpa using (List.mem_filter.1 he).2
  have g3 : s1.leaving = s.leaving := by rw [← hs1]; exact f3
  have g4 : s1.parcel p = s.parcel p := by rw [← hs1]; unfold State.parcel; simp only [f4]
  have g5 : ∀ f ∈ frames, ∀ l, l / 512 = f → s1.live.contains (l / 32) = false := by rw [← hs1]; exact f2
  obtain ⟨r1, r2⟩ := release_leaves s1 p (s1.parcel p).crews
  have k1 := release_keep State.frameOwner (squashIf_keep _ fun _ _ _ _ _ _ => rfl) (fun _ _ _ => rfl) (fun _ _ => rfl) s1 p (s1.parcel p).crews
  have k2 := release_keep State.blockOwner (squashIf_keep _ fun _ _ _ _ _ _ => rfl) (fun _ _ _ => rfl) (fun _ _ => rfl) s1 p (s1.parcel p).crews
  have k3 := release_keep State.live (squashIf_keep _ fun _ _ _ _ _ _ => rfl) (fun _ _ _ => rfl) (fun _ _ => rfl) s1 p (s1.parcel p).crews
  rw [g3, g4] at r2
  rw [g4] at r1 k1 k2 k3 ⊢
  generalize s1.releaseCrews p (s.parcel p).crews = u at r1 r2 k1 k2 k3 ⊢
  refine ⟨setParcel_self hp _, fun e he h => ?_, fun e he => g2 e (by rw [← k2]; exact he), r1, fun e he hep l hl => ?_, r2⟩
  · have he : e ∈ u.frameOwner := he
    rw [k1, g1] at he
    obtain ⟨h1, h2⟩ := tdrops_gone frames _ hs e he
    refine h2 ?_
    rw [← hf]
    exact List.mem_map.2 ⟨e, List.mem_filter.2 ⟨h1, by simpa using h⟩, rfl⟩
  · show u.live.contains (l / 32) = false
    rw [k3]
    exact g5 e.1 (by rw [← hf]; exact List.mem_map.2 ⟨e, List.mem_filter.2 ⟨he, by simpa using hep⟩, rfl⟩) l hl

/-! ## What arrives from other devices (R326, R327, R329) -/

/-- What a request for one frame is refused for, in this order; a refusal changes the counters alone. -/
theorem arrive_refused (s : State) (h : BitVec 160) (off : Nat) (op : ArrivingOp) (ho : ∀ post bytes, op ≠ .credit post bytes) :
    (∀ g : Option (BitVec 160), g.filter headerOk = none → s.arrive g off op = (s.countRefusal (tfind (off / 65536) s.frameOwner), 2, [])) ∧
    (headerOk h = true →
      (tfind (off / 65536) s.frameOwner = none → s.arrive (some h) off op = (s.countRefusal none, 1, [])) ∧
      ∀ q, tfind (off / 65536) s.frameOwner = some q →
        (s.lost.contains (headerSdev h) = true → s.arrive (some h) off op = (s.countRefusal (some q), 2, [])) ∧
        (s.lost.contains (headerSdev h) = false →
          (s.keys.find? (fun e => e.2.localParcel == q && e.2.sdev == headerSdev h && e.2.stag == headerStag h) = none →
            s.arrive (some h) off op = (s.countRefusal (some q), 2, [])) ∧
          ∀ e, s.keys.find? (fun e => e.2.localParcel == q && e.2.sdev == headerSdev h && e.2.stag == headerStag h) = some e →
            (e.2.key ≠ headerKey h → s.arrive (some h) off op = (s.countRefusal (some q), 3, [])) ∧
            (e.2.key = headerKey h → s.arrive (some h) off op = s.performArrival off op))) ∧
    ∀ q, (s.countRefusal q).mem = s.mem ∧ (s.countRefusal q).threads = s.threads ∧ { s.countRefusal q with counters := s.counters } = s := by
  have fr : arrivalFrames off op = [off / 65536] := by
    unfold arrivalFrames
    split
    · exact absurd rfl (ho _ _)
    · rfl
  have step : headerOk h = true → s.arrive (some h) off op =
      match s.refusal h (off / 65536) with
      | some (code, q) => (s.countRefusal q, code, [])
      | none => s.performArrival off op := by
    intro hh
    have hf : (some h).filter headerOk = some h := by simp [Option.filter, hh]
    simp only [State.arrive, hf, fr, List.findSome?_cons, List.findSome?_nil]
    cases s.refusal h (off / 65536) <;> rfl
  refine ⟨fun g hg => by simp only [State.arrive, hg], fun hh => ?_, fun q => ⟨rfl, rfl, rfl⟩⟩
  rw [step hh]
  unfold State.refusal
  refine ⟨fun h1 => by simp only [h1], fun q h1 => ?_⟩
  simp only [h1]
  refine ⟨fun h2 => by simp only [h2, if_true], fun h2 => ?_⟩
  simp only [h2, Bool.false_eq_true, if_false]
  refine ⟨fun h3 => by simp only [h3], fun e h3 => ?_⟩
  simp only [h3]
  exact ⟨fun h4 => by simp only [h4, ne_eq, not_false_eq_true, if_true], fun h4 => by simp only [h4, ne_eq, not_true_eq_false, if_false]⟩

/-- A packet's elements arrive one after another, each checked and answered for itself. -/
theorem packet_expands (p : ExtPacket) (n k : Nat) (s : State) :
    (packetExpand p n k s).2.1.length = n ∧ packetExpand p 0 k s = (s, [], []) ∧
    ∀ a b, a = s.arrive (some p.header) (p.element k).toNat (packetAccess p k) → b = packetExpand p n (k + 1) a.1 →
      packetExpand p (n + 1) k s = (b.1, a.2.1 :: b.2.1, (if p.op = .vamo then [] else a.2.2) ++ b.2.2) := by
  refine ⟨?_, rfl, fun a b ha hb => ?_⟩
  · induction n generalizing k s with
    | zero => rfl
    | succ n ih => simp only [packetExpand, List.length_cons, ih]
  · subst ha hb
    simp only [packetExpand, beq_iff_eq]

/-! ## Fences, reset and errors -/

/-- What a fence leaves of its core (R358). -/
theorem fence_leaves (s u : State) (core : Nat) (corrupt : List Nat) (hc : core < 384) (hu : u = s.fence core corrupt) :
    (u.core core).fenced = true ∧ (∀ c ∈ u.copies, c.core = core → c.fault.isSome = true ∧ c.started = true) ∧
    (∀ e ∈ u.traverses, e.2.core = core → e.2.stop.isSome = true) ∧
    (∀ off < 2 ^ 21, u.mem.byte (scratchLoc (crewOf core) (core % 4 * 2 ^ 21 + off)) = 0) ∧
    ∃ sent gone, u.sent = sent ++ [{ code := 0x81, parcel := s.tenantOf core, seq := 0, status := 0, len := 8 * (gone.length + 1), payload := packed (core :: gone) }] ∧
      ∀ k ∈ gone, ∃ t ∈ s.residents core, t.tid = k := by
  subst hu
  unfold State.fence
  simp only
  generalize (s.residents core).foldl (fun s t => s.fenceThread corrupt t.tid) s = w
  generalize hw : ({ w with
    copies := w.copies.map fun c => if c.core == core then { c.fail { code := 12, sub := 3, val := 0 } with started := true } else c
    traverses := w.traverses.map fun e : Nat × Traverse => (e.1, e.2.fenced core) } : State) = v
  have hcp : ∀ c ∈ v.copies, c.core = core → c.fault.isSome = true ∧ c.started = true := by
    rw [← hw]
    intro c hm he
    obtain ⟨c0, -, rfl⟩ := List.mem_map.1 hm
    by_cases h : c0.core = core
    · simp only [h, beq_self_eq_true, if_true]
      unfold Copy.fail
      split
      · exact ⟨by assumption, trivial⟩
      · exact ⟨rfl, trivial⟩
    · simp [h] at he
  have htr : ∀ e ∈ v.traverses, e.2.core = core → e.2.stop.isSome = true := by
    rw [← hw]
    intro e hm he
    obtain ⟨e0, -, rfl⟩ := List.mem_map.1 hm
    have he : (e0.2.fenced core).core = core := he
    show (e0.2.fenced core).stop.isSome = true
    unfold Traverse.fenced at he ⊢
    by_cases h : e0.2.core = core
    · cases hs : e0.2.stop <;> simp [h, hs]
    · simp [h] at he
  have hq : (v.wipeScratch core 0 (2 ^ 21)).traverses = v.traverses :=
    wipe_keeps State.traverses (squashIf_keep _ fun _ _ _ _ _ _ => rfl) (fun _ _ _ => rfl) _ _ _ _
  have hqc : ∀ c ∈ (v.wipeScratch core 0 (2 ^ 21)).copies, c ∈ v.copies := fun c h => squashIf_copies v (portionUser core 0 (2 ^ 21)) c h
  have hqm := wipe_mem v core 0 (2 ^ 21)
  generalize v.wipeScratch core 0 (2 ^ 21) = x at hq hqc hqm ⊢
  refine ⟨?_, fun c h => hcp c (hqc c h), fun e h => htr e (hq ▸ h), fun off ho => ?_, x.sent, _, rfl, fun k hk => ?_⟩
  · show ((x.setCore core { x.core core with fenced := true }).core core).fenced = true
    simp [State.setCore, State.core, hc]
  · refine byte_absent fun e he => ?_
    have he : e ∈ x.mem := he
    rw [hqm] at he
    have := (List.mem_filter.1 he).2
    simp only [Bool.or_eq_true, decide_eq_true_eq] at this
    unfold scratchLoc at this ⊢
    omega
  · obtain ⟨t, h1, h2⟩ := List.mem_map.1 (List.mem_filter.1 hk).1
    exact ⟨t, h1, h2⟩

/-- What cold reset leaves: the host's own memory and what was sent (R388). -/
theorem cold_leaves (s : State) (a : Nat) :
    (ofHost a = false → s.cold.mem.byte a = 0) ∧ s.cold.phase = .held ∧ s.cold.devnum = none ∧ s.cold.threads = [] ∧ s.cold.launches = [] ∧
    (∀ p, s.cold.parcel p = Parcel.free) ∧ s.cold.keys = [] ∧ s.cold.routes = [] ∧ s.cold.frameOwner = [] ∧ s.cold.live = [] ∧ s.cold.copies = [] ∧
    s.cold.fabric = [] ∧ s.cold.tlb = [] ∧ (∀ k, s.cold.portWidth k = 0) ∧ s.cold.fyzWidth = 0 := by
  refine ⟨fun h => byte_absent fun e he hea => ?_, rfl, rfl, rfl, rfl, fun p => ?_, rfl, rfl, rfl, rfl, rfl, rfl, rfl, fun k => ?_, rfl⟩
  · have := (List.mem_filter.1 he).2
    rw [hea, h] at this
    cases this
  · show (Vector.replicate 64 Parcel.free)[p]?.getD Parcel.free = Parcel.free
    by_cases h : p < 64 <;> simp [h]
  · show (Vector.replicate 32 0)[k]?.getD 0 = 0
    by_cases h : k < 32 <;> simp [h]

/-- The image's report decides which step bring-up comes to (R388). -/
theorem train_steps (s : State) (r : FirmwareReport) :
    (r.stacksOk = false → s.train r = { s with phase := .failed 3 }.send { code := 0x83, parcel := 0, seq := 0, status := 0, len := 8, payload := 3 }) ∧
    (r.stacksOk = true → r.linksOk = false →
      s.train r = { s with phase := .failed 4 }.send { code := 0x83, parcel := 0, seq := 0, status := 0, len := 8, payload := 4 }) ∧
    (r.stacksOk = true → r.linksOk = true → (s.train r).phase = .step 6 ∧ (s.train r).store = r.store ∧
      ∀ k < 384, ((s.train r).core k).fenced = (r.failedCores.contains k || r.failedUnits.contains (crewOf k))) := by
  unfold State.train
  refine ⟨fun h => by simp only [h]; rfl, fun h1 h2 => by simp only [h1, h2]; rfl, fun h1 h2 => ?_⟩
  simp only [h1, h2, Bool.not_true, Bool.false_eq_true, if_false]
  refine ⟨trivial, trivial, fun k hk => ?_⟩
  simp [State.core, State.selfTest, hk]

/-- The end of reset: the counts start at 0 and the links have the widths that training gave (R388, R323, R334). -/
theorem reset_finishes (s u : State) (r : LinkReport) (hu : u = s.finishReset r) :
    u.phase = .run ∧ u.cycle = 0 ∧ u.time = 0 ∧ (∀ k w, k < 32 → r.ports[k]? = some w → u.portWidth k = if w = 1 ∨ w = 2 ∨ w = 4 then w else 0) ∧
    u.fyzWidth = (if r.fyzozorVersion = 1 ∧ (r.fyzozorWidth = 8 ∨ r.fyzozorWidth = 16 ∨ r.fyzozorWidth = 32) then r.fyzozorWidth else 0) ∧
    ∃ m, u.sent = s.sent ++ [m] ∧ m.code = 0x85 := by
  subst hu
  refine ⟨rfl, rfl, rfl, fun k w hk hw => ?_, ?_, _, rfl, rfl⟩
  · simp [State.finishReset, State.portWidth, State.sendLinkStatus, State.send, hk, hw]
    congr 1
    simp [or_assoc]
  · simp [State.finishReset, State.sendLinkStatus, State.send, or_assoc]

/-- What the check bits of a line read in DRAM lead to (R246). -/
theorem line_read (s : State) (line k : Nat) (hk : k = line / 2 ^ 29) (e : Nat → BitVec 128)
    (he : e = fun kind => logEntry s.cycle (Config.pseudoChannel line % 160) (s.ownerOf line) kind line) :
    s.readLine line .good = s ∧ s.readLine line .corrected = s.setStack k ((s.stack k).enter s.cycle (e 1)) ∧
    s.readLine line .second = s.setStack k ((s.stack k).enter s.cycle (e 2)) ∧
    s.readLine line .bad = (s.poisonLine line).setStack k ((s.stack k).enter s.cycle (e 3)) ∧ (s.readLine line .bad).poisoned.contains line = true := by
  subst hk he
  refine ⟨rfl, rfl, rfl, rfl, ?_⟩
  show (mput line s.poisoned).contains line = true
  generalize s.poisoned = m
  rw [List.contains_iff_mem]
  fun_induction mput line m <;> simp_all

/-- A piece of a post is read at its source, and once it is there it is written at its destination (R365). -/
theorem cell_moves (v : Traverse) (parcel : Nat) (p : PostOf) (j n : Nat) (s : State) (w : Job) (hw : w = v.job parcel j) (a d : Nat × Nat × Nat)
    (h : v.element p n = (a, d)) :
    (w.value n a.2.1 v.src.width (pieces a.1 a.2.2) s = none → v.move parcel p j n s = w.read none a.1 (keyed n (pieces a.1 a.2.2)) s) ∧
    ∀ bad code, w.value n a.2.1 v.src.width (pieces a.1 a.2.2) s = some (bad, code) →
      v.move parcel p j n s = w.write [none] n d.1 d.2.1 v.dst.width bad code s := by
  subst hw
  refine ⟨fun hv => ?_, fun bad code hv => ?_⟩ <;> simp only [Traverse.move, h, hv]

/-- A reply is taken by what asked for it, or kept where it must be split among the parts of a combined request (R291, R292). -/
theorem reply_goes (s : State) (q : FabricReq) (code : Nat) (data : List Byte) :
    (q.parts = [] → s.replied q code data = s.finish q code data) ∧
    (q.parts ≠ [] → s.replied q code data =
      { s with fabric := s.fabric.map fun m => if m.id == q.id then { m with answer := some (code, data) } else m }) := by
  unfold State.replied
  refine ⟨fun h => by simp only [h, List.isEmpty_nil, if_true], fun h => ?_⟩
  have : q.parts.isEmpty = false := by simpa using h
  simp only [this, Bool.false_eq_true, if_false]

end Sys2Proof.Machine
end

