-- ==== Sys2Proof/Laws/PerInstr.lean ====
section
/-! SUPPORT. Statements about each instruction as syntax, with one lemma per constructor of Instr. -/

set_option linter.unusedSimpArgs false
set_option Elab.async false

namespace Sys2Proof

/-- Decoding the word of a well-formed instruction gives it back. -/
def Laws.Encodes.Statement (i : Instr) : Prop := i.wf = true → i.isEvent = false → decode (encode i) = .ok i

/-- What the register numbers of mfsr and mtsr leave to rows of their own (R37). -/
theorem sysRead_ne : ∀ r : BitVec 12, sysRead r = true → r ≠ 0x010#12 ∧ r ≠ 0x013#12 ∧ r ≠ 0x015#12 := by
  intro r h
  refine ⟨?_, ?_, ?_⟩ <;> (rintro rfl; revert h; decide)

theorem sysWrite_ne : ∀ r : BitVec 12, sysWrite r = true → r ≠ 0x002#12 ∧ r ≠ 0x010#12 ∧ r ≠ 0x012#12 ∧ r ≠ 0x013#12
    ∧ r ≠ 0x015#12 ∧ r ≠ 0x101#12 ∧ r ≠ 0x102#12 ∧ r ≠ 0x10B#12 := by
  intro r h
  refine ⟨?_, ?_, ?_, ?_, ?_, ?_, ?_, ?_⟩ <;> (rintro rfl; revert h; decide)

theorem sysWrite_hi : ∀ r : BitVec 12, sysWrite r = true → r.extractLsb' 3 9 ≠ 1#9 := by
  decide +kernel

theorem fmt_ne (f : BitVec 3) : (1#9 ++ f : BitVec 12) ≠ 2#12 := by revert f; decide

theorem fmt_hi (f : BitVec 3) : (1#9 ++ f : BitVec 12).extractLsb' 3 9 = 1#9 := by revert f; decide

theorem comb_ne (k : BitVec 3) (h : k < 6#3) : k ≠ 6#3 ∧ k ≠ 7#3 := by revert k; decide

theorem decode_00 (w : BitVec 32) (h : fOp w = 0x00#6) (n : fFn w ≠ 0#6) : decode w = decodeSystem w := by
  simp [decode, h, nonzero_of_fn n]

theorem decode_01 (w : BitVec 32) (h : fOp w = 0x01#6) : decode w = .ok (.mode (fP w) (fStype w) (fRnd w) (fSat w) (fScale w) (fBlk w) (fLow5 w)) := by
  have n : w ≠ 0#32 := nonzero_of_op (by rw [h]; decide)
  simp [decode, h, n]

theorem decode_02 (w : BitVec 32) (h : fOp w = 0x02#6) : decode w = decodeAlu w := by
  have n : w ≠ 0#32 := nonzero_of_op (by rw [h]; decide)
  simp [decode, h, n]

theorem decode_03 (w : BitVec 32) (h : fOp w = 0x03#6) : decode w = .ok (.addi (fD w) (fA w) (fImm14 w)) := by
  have n : w ≠ 0#32 := nonzero_of_op (by rw [h]; decide)
  simp [decode, h, n]

theorem decode_04 (w : BitVec 32) (h : fOp w = 0x04#6) : decode w = .ok (.andi (fD w) (fA w) (fImm14 w)) := by
  have n : w ≠ 0#32 := nonzero_of_op (by rw [h]; decide)
  simp [decode, h, n]

theorem decode_05 (w : BitVec 32) (h : fOp w = 0x05#6) : decode w = .ok (.ori (fD w) (fA w) (fImm14 w)) := by
  have n : w ≠ 0#32 := nonzero_of_op (by rw [h]; decide)
  simp [decode, h, n]

theorem decode_06 (w : BitVec 32) (h : fOp w = 0x06#6) : decode w = .ok (.xori (fD w) (fA w) (fImm14 w)) := by
  have n : w ≠ 0#32 := nonzero_of_op (by rw [h]; decide)
  simp [decode, h, n]

theorem decode_07 (w : BitVec 32) (h : fOp w = 0x07#6) : decode w = decodeShift w := by
  have n : w ≠ 0#32 := nonzero_of_op (by rw [h]; decide)
  simp [decode, h, n]

theorem decode_08 (w : BitVec 32) (h : fOp w = 0x08#6) : decode w = .ok (.lih (fD w) (fImm20 w)) := by
  have n : w ≠ 0#32 := nonzero_of_op (by rw [h]; decide)
  simp [decode, h, n]

theorem decode_09 (w : BitVec 32) (h : fOp w = 0x09#6) : decode w = .ok (.pcrel (fD w) (fImm20 w)) := by
  have n : w ≠ 0#32 := nonzero_of_op (by rw [h]; decide)
  simp [decode, h, n]

theorem decode_0a (w : BitVec 32) (h : fOp w = 0x0a#6) : decode w = .ok (.beq (fD w) (fA w) (fImm14 w)) := by
  have n : w ≠ 0#32 := nonzero_of_op (by rw [h]; decide)
  simp [decode, h, n]

theorem decode_0b (w : BitVec 32) (h : fOp w = 0x0b#6) : decode w = .ok (.bne (fD w) (fA w) (fImm14 w)) := by
  have n : w ≠ 0#32 := nonzero_of_op (by rw [h]; decide)
  simp [decode, h, n]

theorem decode_0c (w : BitVec 32) (h : fOp w = 0x0c#6) : decode w = .ok (.blt (fD w) (fA w) (fImm14 w)) := by
  have n : w ≠ 0#32 := nonzero_of_op (by rw [h]; decide)
  simp [decode, h, n]

theorem decode_0d (w : BitVec 32) (h : fOp w = 0x0d#6) : decode w = .ok (.bge (fD w) (fA w) (fImm14 w)) := by
  have n : w ≠ 0#32 := nonzero_of_op (by rw [h]; decide)
  simp [decode, h, n]

theorem decode_0e (w : BitVec 32) (h : fOp w = 0x0e#6) : decode w = .ok (.bltu (fD w) (fA w) (fImm14 w)) := by
  have n : w ≠ 0#32 := nonzero_of_op (by rw [h]; decide)
  simp [decode, h, n]

theorem decode_0f (w : BitVec 32) (h : fOp w = 0x0f#6) : decode w = .ok (.bgeu (fD w) (fA w) (fImm14 w)) := by
  have n : w ≠ 0#32 := nonzero_of_op (by rw [h]; decide)
  simp [decode, h, n]

theorem decode_10 (w : BitVec 32) (h : fOp w = 0x10#6) : decode w = .ok (.jal (fD w) (fImm20 w)) := by
  have n : w ≠ 0#32 := nonzero_of_op (by rw [h]; decide)
  simp [decode, h, n]

theorem decode_11 (w : BitVec 32) (h : fOp w = 0x11#6) : decode w = .ok (.jalr (fD w) (fA w) (fImm14 w)) := by
  have n : w ≠ 0#32 := nonzero_of_op (by rw [h]; decide)
  simp [decode, h, n]

theorem decode_12 (w : BitVec 32) (h : fOp w = 0x12#6) : decode w = decodeLoop w := by
  have n : w ≠ 0#32 := nonzero_of_op (by rw [h]; decide)
  simp [decode, h, n]

theorem decode_13 (w : BitVec 32) (h : fOp w = 0x13#6) : decode w = decodeVp w := by
  have n : w ≠ 0#32 := nonzero_of_op (by rw [h]; decide)
  simp [decode, h, n]

theorem decode_14 (w : BitVec 32) (h : fOp w = 0x14#6) : decode w = decodeLoad w := by
  have n : w ≠ 0#32 := nonzero_of_op (by rw [h]; decide)
  simp [decode, h, n]

theorem decode_15 (w : BitVec 32) (h : fOp w = 0x15#6) : decode w = decodeStore w := by
  have n : w ≠ 0#32 := nonzero_of_op (by rw [h]; decide)
  simp [decode, h, n]

theorem decode_16 (w : BitVec 32) (h : fOp w = 0x16#6) : decode w = decodeAmo w := by
  have n : w ≠ 0#32 := nonzero_of_op (by rw [h]; decide)
  simp [decode, h, n]

theorem decode_17 (w : BitVec 32) (h : fOp w = 0x17#6) : decode w = decodeFence w := by
  have n : w ≠ 0#32 := nonzero_of_op (by rw [h]; decide)
  simp [decode, h, n]

theorem decode_18 (w : BitVec 32) (h : fOp w = 0x18#6) : decode w = decodeVl w := by
  have n : w ≠ 0#32 := nonzero_of_op (by rw [h]; decide)
  simp [decode, h, n]

theorem decode_19 (w : BitVec 32) (h : fOp w = 0x19#6) : decode w = .ok (.vidx (fD w) (fLen w) (fLow8 w)) := by
  have n : w ≠ 0#32 := nonzero_of_op (by rw [h]; decide)
  simp [decode, h, n]

theorem decode_1a (w : BitVec 32) (h : fOp w = 0x1a#6) : decode w = decodeVAdd w := by
  have n : w ≠ 0#32 := nonzero_of_op (by rw [h]; decide)
  simp [decode, h, n]

theorem decode_1b (w : BitVec 32) (h : fOp w = 0x1b#6) : decode w = decodeVDiv w := by
  have n : w ≠ 0#32 := nonzero_of_op (by rw [h]; decide)
  simp [decode, h, n]

theorem decode_1c (w : BitVec 32) (h : fOp w = 0x1c#6) : decode w = decodeVMin w := by
  have n : w ≠ 0#32 := nonzero_of_op (by rw [h]; decide)
  simp [decode, h, n]

theorem decode_1d (w : BitVec 32) (h : fOp w = 0x1d#6) : decode w = decodeVLogic w := by
  have n : w ≠ 0#32 := nonzero_of_op (by rw [h]; decide)
  simp [decode, h, n]

theorem decode_1e (w : BitVec 32) (h : fOp w = 0x1e#6) : decode w = decodeVShift w := by
  have n : w ≠ 0#32 := nonzero_of_op (by rw [h]; decide)
  simp [decode, h, n]

theorem decode_1f (w : BitVec 32) (h : fOp w = 0x1f#6) : decode w = decodeVRng w := by
  have n : w ≠ 0#32 := nonzero_of_op (by rw [h]; decide)
  simp [decode, h, n]

theorem decode_20 (w : BitVec 32) (h : fOp w = 0x20#6) : decode w = decodeVFAdd w := by
  have n : w ≠ 0#32 := nonzero_of_op (by rw [h]; decide)
  simp [decode, h, n]

theorem decode_21 (w : BitVec 32) (h : fOp w = 0x21#6) : decode w = decodeVFma w := by
  have n : w ≠ 0#32 := nonzero_of_op (by rw [h]; decide)
  simp [decode, h, n]

theorem decode_22 (w : BitVec 32) (h : fOp w = 0x22#6) : decode w = decodeVFDiv w := by
  have n : w ≠ 0#32 := nonzero_of_op (by rw [h]; decide)
  simp [decode, h, n]

theorem decode_23 (w : BitVec 32) (h : fOp w = 0x23#6) : decode w = decodeVFMin w := by
  have n : w ≠ 0#32 := nonzero_of_op (by rw [h]; decide)
  simp [decode, h, n]

theorem decode_24 (w : BitVec 32) (h : fOp w = 0x24#6) : decode w = decodeVFRint w := by
  have n : w ≠ 0#32 := nonzero_of_op (by rw [h]; decide)
  simp [decode, h, n]

theorem decode_25 (w : BitVec 32) (h : fOp w = 0x25#6) : decode w = decodeVFClass w := by
  have n : w ≠ 0#32 := nonzero_of_op (by rw [h]; decide)
  simp [decode, h, n]

theorem decode_26 (w : BitVec 32) (h : fOp w = 0x26#6) : decode w = decodePred w := by
  have n : w ≠ 0#32 := nonzero_of_op (by rw [h]; decide)
  simp [decode, h, n]

theorem decode_27 (w : BitVec 32) (h : fOp w = 0x27#6) : decode w = decodeConvert w := by
  have n : w ≠ 0#32 := nonzero_of_op (by rw [h]; decide)
  simp [decode, h, n]

theorem decode_28 (w : BitVec 32) (h : fOp w = 0x28#6) : decode w = decodeReduce w := by
  have n : w ≠ 0#32 := nonzero_of_op (by rw [h]; decide)
  simp [decode, h, n]

theorem decode_29 (w : BitVec 32) (h : fOp w = 0x29#6) : decode w = decodePermute w := by
  have n : w ≠ 0#32 := nonzero_of_op (by rw [h]; decide)
  simp [decode, h, n]

theorem decode_2a (w : BitVec 32) (h : fOp w = 0x2a#6) : decode w = decodeVLoad w := by
  have n : w ≠ 0#32 := nonzero_of_op (by rw [h]; decide)
  simp [decode, h, n]

theorem decode_2b (w : BitVec 32) (h : fOp w = 0x2b#6) : decode w = decodeVStore w := by
  have n : w ≠ 0#32 := nonzero_of_op (by rw [h]; decide)
  simp [decode, h, n]

theorem decode_2c (w : BitVec 32) (h : fOp w = 0x2c#6) : decode w = decodeVAmo w := by
  have n : w ≠ 0#32 := nonzero_of_op (by rw [h]; decide)
  simp [decode, h, n]

theorem decode_2d (w : BitVec 32) (h : fOp w = 0x2d#6) : decode w = decodeVDrain w := by
  have n : w ≠ 0#32 := nonzero_of_op (by rw [h]; decide)
  simp [decode, h, n]

theorem decode_2e (w : BitVec 32) (h : fOp w = 0x2e#6) : decode w = decodeFibreMem w := by
  have n : w ≠ 0#32 := nonzero_of_op (by rw [h]; decide)
  simp [decode, h, n]

theorem decode_2f (w : BitVec 32) (h : fOp w = 0x2f#6) : decode w = decodeJoin w := by
  have n : w ≠ 0#32 := nonzero_of_op (by rw [h]; decide)
  simp [decode, h, n]

theorem decode_30 (w : BitVec 32) (h : fOp w = 0x30#6) : decode w = decodeFibreDense w := by
  have n : w ≠ 0#32 := nonzero_of_op (by rw [h]; decide)
  simp [decode, h, n]

theorem decode_31 (w : BitVec 32) (h : fOp w = 0x31#6) : decode w = decodeFibreHouse w := by
  have n : w ≠ 0#32 := nonzero_of_op (by rw [h]; decide)
  simp [decode, h, n]

theorem decode_32 (w : BitVec 32) (h : fOp w = 0x32#6) : decode w = decodeAttach w := by
  have n : w ≠ 0#32 := nonzero_of_op (by rw [h]; decide)
  simp [decode, h, n]

theorem decode_33 (w : BitVec 32) (h : fOp w = 0x33#6) : decode w = decodeMop w := by
  have n : w ≠ 0#32 := nonzero_of_op (by rw [h]; decide)
  simp [decode, h, n]

theorem decode_34 (w : BitVec 32) (h : fOp w = 0x34#6) : decode w = decodeTileMove w := by
  have n : w ≠ 0#32 := nonzero_of_op (by rw [h]; decide)
  simp [decode, h, n]

theorem decode_35 (w : BitVec 32) (h : fOp w = 0x35#6) : decode w = decodePrune w := by
  have n : w ≠ 0#32 := nonzero_of_op (by rw [h]; decide)
  simp [decode, h, n]

theorem decode_36 (w : BitVec 32) (h : fOp w = 0x36#6) : decode w = decodeCopy w := by
  have n : w ≠ 0#32 := nonzero_of_op (by rw [h]; decide)
  simp [decode, h, n]

theorem decode_37 (w : BitVec 32) (h : fOp w = 0x37#6) : decode w = decodeTags w := by
  have n : w ≠ 0#32 := nonzero_of_op (by rw [h]; decide)
  simp [decode, h, n]

theorem decode_38 (w : BitVec 32) (h : fOp w = 0x38#6) : decode w = decodeRange w := by
  have n : w ≠ 0#32 := nonzero_of_op (by rw [h]; decide)
  simp [decode, h, n]

theorem decode_39 (w : BitVec 32) (h : fOp w = 0x39#6) : decode w = decodeChunk w := by
  have n : w ≠ 0#32 := nonzero_of_op (by rw [h]; decide)
  simp [decode, h, n]

theorem decode_3a (w : BitVec 32) (h : fOp w = 0x3a#6) : decode w = decodeThread w := by
  have n : w ≠ 0#32 := nonzero_of_op (by rw [h]; decide)
  simp [decode, h, n]

theorem decode_3b (w : BitVec 32) (h : fOp w = 0x3b#6) : decode w = decodeBucking w := by
  have n : w ≠ 0#32 := nonzero_of_op (by rw [h]; decide)
  simp [decode, h, n]

theorem decode_3c (w : BitVec 32) (h : fOp w = 0x3c#6) : decode w = decodeFloat w := by
  have n : w ≠ 0#32 := nonzero_of_op (by rw [h]; decide)
  simp [decode, h, n]

theorem Laws.Encodes.chunkLimitEnd (tid : _) : Laws.Encodes.Statement (.chunkLimitEnd tid) := by
  intro _ h; simp [Instr.isEvent, encode] at h

theorem Laws.Encodes.chunkCommit (tid : _) : Laws.Encodes.Statement (.chunkCommit tid) := by
  intro _ h; simp [Instr.isEvent, encode] at h

theorem Laws.Encodes.priorityCommitRequest (tid : _) : Laws.Encodes.Statement (.priorityCommitRequest tid) := by
  intro _ h; simp [Instr.isEvent, encode] at h

theorem Laws.Encodes.priorityTicketPass : Laws.Encodes.Statement (.priorityTicketPass) := by
  intro _ h; simp [Instr.isEvent, encode] at h

theorem Laws.Encodes.persistentRequest (tid : _) (line : _) : Laws.Encodes.Statement (.persistentRequest tid line) := by
  intro _ h; simp [Instr.isEvent, encode] at h

theorem Laws.Encodes.farOpPerform (slice : _) : Laws.Encodes.Statement (.farOpPerform slice) := by
  intro _ h; simp [Instr.isEvent, encode] at h

theorem Laws.Encodes.deferredLoadReply (id : _) : Laws.Encodes.Statement (.deferredLoadReply id) := by
  intro _ h; simp [Instr.isEvent, encode] at h

theorem Laws.Encodes.fabricReply (id port codes data : _) : Laws.Encodes.Statement (.fabricReply id port codes data) := by
  intro _ h; simp [Instr.isEvent, encode] at h

theorem Laws.Encodes.asyncTrap (tid : _) : Laws.Encodes.Statement (.asyncTrap tid) := by
  intro _ h; simp [Instr.isEvent, encode] at h

theorem Laws.Encodes.trapEntry (tid : _) : Laws.Encodes.Statement (.trapEntry tid) := by
  intro _ h; simp [Instr.isEvent, encode] at h

theorem Laws.Encodes.tileOpPerform (tid : _) : Laws.Encodes.Statement (.tileOpPerform tid) := by
  intro _ h; simp [Instr.isEvent, encode] at h

theorem Laws.Encodes.matrixDrain (id n : _) : Laws.Encodes.Statement (.matrixDrain id n) := by
  intro _ h; simp [Instr.isEvent, encode] at h

theorem Laws.Encodes.copyStart (core : _) : Laws.Encodes.Statement (.copyStart core) := by
  intro _ h; simp [Instr.isEvent, encode] at h

theorem Laws.Encodes.copyElement (id : _) (n : _) : Laws.Encodes.Statement (.copyElement id n) := by
  intro _ h; simp [Instr.isEvent, encode] at h

theorem Laws.Encodes.copyComplete (id : _) : Laws.Encodes.Statement (.copyComplete id) := by
  intro _ h; simp [Instr.isEvent, encode] at h

theorem Laws.Encodes.barrierCredit (id : _) (bytes : _) : Laws.Encodes.Statement (.barrierCredit id bytes) := by
  intro _ h; simp [Instr.isEvent, encode] at h

theorem Laws.Encodes.streamRefill (tid : _) (v : _) (n : _) : Laws.Encodes.Statement (.streamRefill tid v n) := by
  intro _ h; simp [Instr.isEvent, encode] at h

theorem Laws.Encodes.post (parcel : _) (j : _) : Laws.Encodes.Statement (.post parcel j) := by
  intro _ h; simp [Instr.isEvent, encode] at h

theorem Laws.Encodes.postCredit (parcel : _) (j : _) : Laws.Encodes.Statement (.postCredit parcel j) := by
  intro _ h; simp [Instr.isEvent, encode] at h

theorem Laws.Encodes.traverseDone (parcel : _) : Laws.Encodes.Statement (.traverseDone parcel) := by
  intro _ h; simp [Instr.isEvent, encode] at h

theorem Laws.Encodes.traverseStop (parcel : _) : Laws.Encodes.Statement (.traverseStop parcel) := by
  intro _ h; simp [Instr.isEvent, encode] at h

theorem Laws.Encodes.placeThread (tids cores slots : _) : Laws.Encodes.Statement (.placeThread tids cores slots) := by
  intro _ h; simp [Instr.isEvent, encode] at h

theorem Laws.Encodes.preempt (tid : _) : Laws.Encodes.Statement (.preempt tid) := by
  intro _ h; simp [Instr.isEvent, encode] at h

theorem Laws.Encodes.placementAging (tid : _) : Laws.Encodes.Statement (.placementAging tid) := by
  intro _ h; simp [Instr.isEvent, encode] at h

theorem Laws.Encodes.blockedEvictionAge (tid : _) : Laws.Encodes.Statement (.blockedEvictionAge tid) := by
  intro _ h; simp [Instr.isEvent, encode] at h

theorem Laws.Encodes.stripGrant (core : _) (tid : _) : Laws.Encodes.Statement (.stripGrant core tid) := by
  intro _ h; simp [Instr.isEvent, encode] at h

theorem Laws.Encodes.stripAging (tid : _) : Laws.Encodes.Statement (.stripAging tid) := by
  intro _ h; simp [Instr.isEvent, encode] at h

theorem Laws.Encodes.waitSatisfied (tid : _) : Laws.Encodes.Statement (.waitSatisfied tid) := by
  intro _ h; simp [Instr.isEvent, encode] at h

theorem Laws.Encodes.pauseEnd (tid : _) : Laws.Encodes.Statement (.pauseEnd tid) := by
  intro _ h; simp [Instr.isEvent, encode] at h

theorem Laws.Encodes.cacheEviction (what : _) : Laws.Encodes.Statement (.cacheEviction what) := by
  intro _ h; simp [Instr.isEvent, encode] at h

theorem Laws.Encodes.mgdWritebackArrival (n : _) : Laws.Encodes.Statement (.mgdWritebackArrival n) := by
  intro _ h; simp [Instr.isEvent, encode] at h

theorem Laws.Encodes.pageWalk (die : _) (parcel : _) (va : _) (kind : _) : Laws.Encodes.Statement (.pageWalk die parcel va kind) := by
  intro _ h; simp [Instr.isEvent, encode] at h

theorem Laws.Encodes.fabricRequestArrival (r : _) : Laws.Encodes.Statement (.fabricRequestArrival r) := by
  intro _ h; simp [Instr.isEvent, encode] at h

theorem Laws.Encodes.extensionPacketArrival (p : _) : Laws.Encodes.Statement (.extensionPacketArrival p) := by
  intro _ h; simp [Instr.isEvent, encode] at h

theorem Laws.Encodes.fabricCombine (stage : _) (first : _) (second : _) : Laws.Encodes.Statement (.fabricCombine stage first second) := by
  intro _ h; simp [Instr.isEvent, encode] at h

theorem Laws.Encodes.combineWindowExpiry (id : _) : Laws.Encodes.Statement (.combineWindowExpiry id) := by
  intro _ h; simp [Instr.isEvent, encode] at h

theorem Laws.Encodes.replySplit (id : _) : Laws.Encodes.Statement (.replySplit id) := by
  intro _ h; simp [Instr.isEvent, encode] at h

theorem Laws.Encodes.idleFlit (port : _) : Laws.Encodes.Statement (.idleFlit port) := by
  intro _ h; simp [Instr.isEvent, encode] at h

theorem Laws.Encodes.linkDown (port : _) : Laws.Encodes.Statement (.linkDown port) := by
  intro _ h; simp [Instr.isEvent, encode] at h

theorem Laws.Encodes.linkTrained (link : _) (width : _) (version : _) : Laws.Encodes.Statement (.linkTrained link width version) := by
  intro _ h; simp [Instr.isEvent, encode] at h

theorem Laws.Encodes.heartbeat : Laws.Encodes.Statement (.heartbeat) := by
  intro _ h; simp [Instr.isEvent, encode] at h

theorem Laws.Encodes.peerLost (dev : _) : Laws.Encodes.Statement (.peerLost dev) := by
  intro _ h; simp [Instr.isEvent, encode] at h

theorem Laws.Encodes.downNoticeReceived (dev : _) : Laws.Encodes.Statement (.downNoticeReceived dev) := by
  intro _ h; simp [Instr.isEvent, encode] at h

theorem Laws.Encodes.hostWrite (pa : _) (data : _) : Laws.Encodes.Statement (.hostWrite pa data) := by
  intro _ h; simp [Instr.isEvent, encode] at h

theorem Laws.Encodes.hostAtomic (pa : _) (op : _) (dword : _) (value : _) (expected : _) : Laws.Encodes.Statement (.hostAtomic pa op dword value expected) := by
  intro _ h; simp [Instr.isEvent, encode] at h

theorem Laws.Encodes.hostRead (pa : _) (n : _) : Laws.Encodes.Statement (.hostRead pa n) := by
  intro _ h; simp [Instr.isEvent, encode] at h

theorem Laws.Encodes.eccError (double : _) (place : _) : Laws.Encodes.Statement (.eccError double place) := by
  intro _ h; simp [Instr.isEvent, encode] at h

theorem Laws.Encodes.coreFence (core : _) (cause : _) (corrupt : _) : Laws.Encodes.Statement (.coreFence core cause corrupt) := by
  intro _ h; simp [Instr.isEvent, encode] at h

theorem Laws.Encodes.refreshDue (stack : _) (bank : _) (burst : _) : Laws.Encodes.Statement (.refreshDue stack bank burst) := by
  intro _ h; simp [Instr.isEvent, encode] at h

theorem Laws.Encodes.refreshPostponeLimit (stack : _) (bank : _) : Laws.Encodes.Statement (.refreshPostponeLimit stack bank) := by
  intro _ h; simp [Instr.isEvent, encode] at h

theorem Laws.Encodes.scrubPassStart (stack : _) : Laws.Encodes.Statement (.scrubPassStart stack) := by
  intro _ h; simp [Instr.isEvent, encode] at h

theorem Laws.Encodes.scrubLine (stack tags : _) : Laws.Encodes.Statement (.scrubLine stack tags) := by
  intro _ h; simp [Instr.isEvent, encode] at h

theorem Laws.Encodes.scrubPassEnd (stack : _) : Laws.Encodes.Statement (.scrubPassEnd stack) := by
  intro _ h; simp [Instr.isEvent, encode] at h

theorem Laws.Encodes.logWrapClear (stack : _) : Laws.Encodes.Statement (.logWrapClear stack) := by
  intro _ h; simp [Instr.isEvent, encode] at h

theorem Laws.Encodes.powerWindow (watts : _) : Laws.Encodes.Statement (.powerWindow watts) := by
  intro _ h; simp [Instr.isEvent, encode] at h

theorem Laws.Encodes.crewClockGate (crew : _) : Laws.Encodes.Statement (.crewClockGate crew) := by
  intro _ h; simp [Instr.isEvent, encode] at h

theorem Laws.Encodes.thermalThrottle (die : _) (celsius : _) : Laws.Encodes.Statement (.thermalThrottle die celsius) := by
  intro _ h; simp [Instr.isEvent, encode] at h

theorem Laws.Encodes.thermalTrip (die : _) (celsius : _) : Laws.Encodes.Statement (.thermalTrip die celsius) := by
  intro _ h; simp [Instr.isEvent, encode] at h

theorem Laws.Encodes.resetPinRelease : Laws.Encodes.Statement (.resetPinRelease) := by
  intro _ h; simp [Instr.isEvent, encode] at h

theorem Laws.Encodes.resetPinAssert : Laws.Encodes.Statement (.resetPinAssert) := by
  intro _ h; simp [Instr.isEvent, encode] at h

theorem Laws.Encodes.loadFirmwareImage (h image : _) : Laws.Encodes.Statement (.loadFirmwareImage h image) := by
  intro _ h; simp [Instr.isEvent, encode] at h

theorem Laws.Encodes.writeParcelDescriptor (h desc : _) : Laws.Encodes.Statement (.writeParcelDescriptor h desc) := by
  intro _ h; simp [Instr.isEvent, encode] at h

theorem Laws.Encodes.createRootThread (h entry args config : _) : Laws.Encodes.Statement (.createRootThread h entry args config) := by
  intro _ h; simp [Instr.isEvent, encode] at h

theorem Laws.Encodes.removeLaunch (h launch : _) : Laws.Encodes.Statement (.removeLaunch h launch) := by
  intro _ h; simp [Instr.isEvent, encode] at h

theorem Laws.Encodes.endParcel (h : _) : Laws.Encodes.Statement (.endParcel h) := by
  intro _ h; simp [Instr.isEvent, encode] at h

theorem Laws.Encodes.assignFrames (h first count owner : _) : Laws.Encodes.Statement (.assignFrames h first count owner) := by
  intro _ h; simp [Instr.isEvent, encode] at h

theorem Laws.Encodes.writeRouteEntry (h dev entry : _) : Laws.Encodes.Statement (.writeRouteEntry h dev entry) := by
  intro _ h; simp [Instr.isEvent, encode] at h

theorem Laws.Encodes.setDeviceNumber (h number : _) : Laws.Encodes.Statement (.setDeviceNumber h number) := by
  intro _ h; simp [Instr.isEvent, encode] at h

theorem Laws.Encodes.clearLostMark (h dev : _) : Laws.Encodes.Statement (.clearLostMark h dev) := by
  intro _ h; simp [Instr.isEvent, encode] at h

theorem Laws.Encodes.requestKeyRotation (h : _) : Laws.Encodes.Statement (.requestKeyRotation h) := by
  intro _ h; simp [Instr.isEvent, encode] at h

theorem Laws.Encodes.setScrubPeriod (h hours : _) : Laws.Encodes.Statement (.setScrubPeriod h hours) := by
  intro _ h; simp [Instr.isEvent, encode] at h

theorem Laws.Encodes.setPowerLimit (h watts : _) : Laws.Encodes.Statement (.setPowerLimit h watts) := by
  intro _ h; simp [Instr.isEvent, encode] at h

theorem Laws.Encodes.writeHostAperture (h index aperture : _) : Laws.Encodes.Statement (.writeHostAperture h index aperture) := by
  intro _ h; simp [Instr.isEvent, encode] at h

theorem Laws.Encodes.assignBlocks (h first count owner : _) : Laws.Encodes.Statement (.assignBlocks h first count owner) := by
  intro _ h; simp [Instr.isEvent, encode] at h

theorem Laws.Encodes.configurationComplete (h links : _) : Laws.Encodes.Statement (.configurationComplete h links) := by
  intro _ h; simp [Instr.isEvent, encode] at h

theorem Laws.Encodes.illegalInstruction (w : _) : Laws.Encodes.Statement (.illegalInstruction w) := by
  intro _ h; simp [Instr.isEvent, encode] at h

theorem Laws.Encodes.mfsrCtags (d : _) : Laws.Encodes.Statement (.mfsrCtags d) := by
  intro _ _
  rw [encode]
  refine (decode_18 _ (fOp_encI ..)).trans ?_
  simp only [decodeVl, fOp_encI, fD_encI, fA_encI, fK3_split, fOff11_split, fK2_split, fNum_split, fNumHi, fLow3_format, fK2_shift, fR6_shift, fFn_shift]
  simp [want, extract_high, extract_all]

theorem Laws.Encodes.laneFailure (link : _) : Laws.Encodes.Statement (.laneFailure link) := by
  intro _ h; simp [Instr.isEvent, encode] at h

theorem Laws.Encodes.heartbeatReceived (dev : _) : Laws.Encodes.Statement (.heartbeatReceived dev) := by
  intro _ h; simp [Instr.isEvent, encode] at h

theorem Laws.Encodes.idleFlitReceived (port : _) : Laws.Encodes.Statement (.idleFlitReceived port) := by
  intro _ h; simp [Instr.isEvent, encode] at h

theorem Laws.Encodes.thermalRecovery (celsius : _) : Laws.Encodes.Statement (.thermalRecovery celsius) := by
  intro _ h; simp [Instr.isEvent, encode] at h

theorem Laws.Encodes.unknownRequest (h : _) : Laws.Encodes.Statement (.unknownRequest h) := by
  intro _ h; simp [Instr.isEvent, encode] at h

theorem Laws.Encodes.ecall : Laws.Encodes.Statement (.ecall) := by
  intro _ _
  rw [encode]
  refine (decode_00 _ (fOp_encVS ..) (by rw [fFn_encVS]; decide)).trans ?_
  simp [decodeSystem, want, fFlags7, fFlag]

theorem Laws.Encodes.eret : Laws.Encodes.Statement (.eret) := by
  intro _ _
  rw [encode]
  refine (decode_00 _ (fOp_encVS ..) (by rw [fFn_encVS]; decide)).trans ?_
  simp [decodeSystem, want, fFlags7, fFlag]

theorem Laws.Encodes.tlbi (a : _) : Laws.Encodes.Statement (.tlbi a) := by
  intro _ _
  rw [encode]
  refine (decode_00 _ (fOp_encVS ..) (by rw [fFn_encVS]; decide)).trans ?_
  simp [decodeSystem, want, fFlags7, fFlag]

theorem Laws.Encodes.tlbia : Laws.Encodes.Statement (.tlbia) := by
  intro _ _
  rw [encode]
  refine (decode_00 _ (fOp_encVS ..) (by rw [fFn_encVS]; decide)).trans ?_
  simp [decodeSystem, want, fFlags7, fFlag]

theorem Laws.Encodes.pkset : Laws.Encodes.Statement (.pkset) := by
  intro _ _
  rw [encode]
  refine (decode_00 _ (fOp_encVS ..) (by rw [fFn_encVS]; decide)).trans ?_
  simp [decodeSystem, want, fFlags7, fFlag]

theorem Laws.Encodes.pkclr : Laws.Encodes.Statement (.pkclr) := by
  intro _ _
  rw [encode]
  refine (decode_00 _ (fOp_encVS ..) (by rw [fFn_encVS]; decide)).trans ?_
  simp [decodeSystem, want, fFlags7, fFlag]

theorem Laws.Encodes.pause : Laws.Encodes.Statement (.pause) := by
  intro _ _
  rw [encode]
  refine (decode_00 _ (fOp_encVS ..) (by rw [fFn_encVS]; decide)).trans ?_
  simp [decodeSystem, want, fFlags7, fFlag]

theorem Laws.Encodes.nop : Laws.Encodes.Statement (.nop) := by
  intro _ _
  rw [encode]
  refine (decode_00 _ (fOp_encVS ..) (by rw [fFn_encVS]; decide)).trans ?_
  simp [decodeSystem, want, fFlags7, fFlag]

theorem Laws.Encodes.mode (g : _) (s : _) (r : _) (t : _) (c : _) (b : _) (d : _) : Laws.Encodes.Statement (.mode g s r t c b d) := by
  intro _ _
  rw [encode]
  refine (decode_01 _ (fOp_encMode ..)).trans ?_
  simp [fP_eq_fGuard]

theorem Laws.Encodes.add (d : _) (a : _) (b : _) : Laws.Encodes.Statement (.add d a b) := by
  intro _ _
  rw [encode]
  refine (decode_02 _ (fOp_encVS ..)).trans ?_
  simp [decodeAlu, want, fFlags7, fFlag]

theorem Laws.Encodes.sub (d : _) (a : _) (b : _) : Laws.Encodes.Statement (.sub d a b) := by
  intro _ _
  rw [encode]
  refine (decode_02 _ (fOp_encVS ..)).trans ?_
  simp [decodeAlu, want, fFlags7, fFlag]

theorem Laws.Encodes.and (d : _) (a : _) (b : _) : Laws.Encodes.Statement (.and d a b) := by
  intro _ _
  rw [encode]
  refine (decode_02 _ (fOp_encVS ..)).trans ?_
  simp [decodeAlu, want, fFlags7, fFlag]

theorem Laws.Encodes.or (d : _) (a : _) (b : _) : Laws.Encodes.Statement (.or d a b) := by
  intro _ _
  rw [encode]
  refine (decode_02 _ (fOp_encVS ..)).trans ?_
  simp [decodeAlu, want, fFlags7, fFlag]

theorem Laws.Encodes.xor (d : _) (a : _) (b : _) : Laws.Encodes.Statement (.xor d a b) := by
  intro _ _
  rw [encode]
  refine (decode_02 _ (fOp_encVS ..)).trans ?_
  simp [decodeAlu, want, fFlags7, fFlag]

theorem Laws.Encodes.sll (d : _) (a : _) (b : _) : Laws.Encodes.Statement (.sll d a b) := by
  intro _ _
  rw [encode]
  refine (decode_02 _ (fOp_encVS ..)).trans ?_
  simp [decodeAlu, want, fFlags7, fFlag]

theorem Laws.Encodes.srl (d : _) (a : _) (b : _) : Laws.Encodes.Statement (.srl d a b) := by
  intro _ _
  rw [encode]
  refine (decode_02 _ (fOp_encVS ..)).trans ?_
  simp [decodeAlu, want, fFlags7, fFlag]

theorem Laws.Encodes.sra (d : _) (a : _) (b : _) : Laws.Encodes.Statement (.sra d a b) := by
  intro _ _
  rw [encode]
  refine (decode_02 _ (fOp_encVS ..)).trans ?_
  simp [decodeAlu, want, fFlags7, fFlag]

theorem Laws.Encodes.slt (d : _) (a : _) (b : _) : Laws.Encodes.Statement (.slt d a b) := by
  intro _ _
  rw [encode]
  refine (decode_02 _ (fOp_encVS ..)).trans ?_
  simp [decodeAlu, want, fFlags7, fFlag]

theorem Laws.Encodes.sltu (d : _) (a : _) (b : _) : Laws.Encodes.Statement (.sltu d a b) := by
  intro _ _
  rw [encode]
  refine (decode_02 _ (fOp_encVS ..)).trans ?_
  simp [decodeAlu, want, fFlags7, fFlag]

theorem Laws.Encodes.mul (d : _) (a : _) (b : _) : Laws.Encodes.Statement (.mul d a b) := by
  intro _ _
  rw [encode]
  refine (decode_02 _ (fOp_encVS ..)).trans ?_
  simp [decodeAlu, want, fFlags7, fFlag]

theorem Laws.Encodes.mulh (d : _) (a : _) (b : _) : Laws.Encodes.Statement (.mulh d a b) := by
  intro _ _
  rw [encode]
  refine (decode_02 _ (fOp_encVS ..)).trans ?_
  simp [decodeAlu, want, fFlags7, fFlag]

theorem Laws.Encodes.mulhu (d : _) (a : _) (b : _) : Laws.Encodes.Statement (.mulhu d a b) := by
  intro _ _
  rw [encode]
  refine (decode_02 _ (fOp_encVS ..)).trans ?_
  simp [decodeAlu, want, fFlags7, fFlag]

theorem Laws.Encodes.div (d : _) (a : _) (b : _) : Laws.Encodes.Statement (.div d a b) := by
  intro _ _
  rw [encode]
  refine (decode_02 _ (fOp_encVS ..)).trans ?_
  simp [decodeAlu, want, fFlags7, fFlag]

theorem Laws.Encodes.divu (d : _) (a : _) (b : _) : Laws.Encodes.Statement (.divu d a b) := by
  intro _ _
  rw [encode]
  refine (decode_02 _ (fOp_encVS ..)).trans ?_
  simp [decodeAlu, want, fFlags7, fFlag]

theorem Laws.Encodes.rem (d : _) (a : _) (b : _) : Laws.Encodes.Statement (.rem d a b) := by
  intro _ _
  rw [encode]
  refine (decode_02 _ (fOp_encVS ..)).trans ?_
  simp [decodeAlu, want, fFlags7, fFlag]

theorem Laws.Encodes.remu (d : _) (a : _) (b : _) : Laws.Encodes.Statement (.remu d a b) := by
  intro _ _
  rw [encode]
  refine (decode_02 _ (fOp_encVS ..)).trans ?_
  simp [decodeAlu, want, fFlags7, fFlag]

theorem Laws.Encodes.min (d : _) (a : _) (b : _) : Laws.Encodes.Statement (.min d a b) := by
  intro _ _
  rw [encode]
  refine (decode_02 _ (fOp_encVS ..)).trans ?_
  simp [decodeAlu, want, fFlags7, fFlag]

theorem Laws.Encodes.max (d : _) (a : _) (b : _) : Laws.Encodes.Statement (.max d a b) := by
  intro _ _
  rw [encode]
  refine (decode_02 _ (fOp_encVS ..)).trans ?_
  simp [decodeAlu, want, fFlags7, fFlag]

theorem Laws.Encodes.minu (d : _) (a : _) (b : _) : Laws.Encodes.Statement (.minu d a b) := by
  intro _ _
  rw [encode]
  refine (decode_02 _ (fOp_encVS ..)).trans ?_
  simp [decodeAlu, want, fFlags7, fFlag]

theorem Laws.Encodes.maxu (d : _) (a : _) (b : _) : Laws.Encodes.Statement (.maxu d a b) := by
  intro _ _
  rw [encode]
  refine (decode_02 _ (fOp_encVS ..)).trans ?_
  simp [decodeAlu, want, fFlags7, fFlag]

theorem Laws.Encodes.addi (d : _) (a : _) (i : _) : Laws.Encodes.Statement (.addi d a i) := by
  intro _ _
  rw [encode]
  refine (decode_03 _ (fOp_encI ..)).trans ?_
  simp [want, fFlags7, fFlag]

theorem Laws.Encodes.andi (d : _) (a : _) (i : _) : Laws.Encodes.Statement (.andi d a i) := by
  intro _ _
  rw [encode]
  refine (decode_04 _ (fOp_encI ..)).trans ?_
  simp [want, fFlags7, fFlag]

theorem Laws.Encodes.ori (d : _) (a : _) (i : _) : Laws.Encodes.Statement (.ori d a i) := by
  intro _ _
  rw [encode]
  refine (decode_05 _ (fOp_encI ..)).trans ?_
  simp [want, fFlags7, fFlag]

theorem Laws.Encodes.xori (d : _) (a : _) (i : _) : Laws.Encodes.Statement (.xori d a i) := by
  intro _ _
  rw [encode]
  refine (decode_06 _ (fOp_encI ..)).trans ?_
  simp [want, fFlags7, fFlag]

theorem Laws.Encodes.slli (d : _) (a : _) (n : _) : Laws.Encodes.Statement (.slli d a n) := by
  intro _ _
  rw [encode]
  refine (decode_07 _ (fOp_encI ..)).trans ?_
  simp only [decodeShift, fOp_encI, fD_encI, fA_encI, fK3_split, fOff11_split, fK2_split, fNum_split, fNumHi, fLow3_format, fK2_shift, fR6_shift, fFn_shift]
  simp [want, extract_high, extract_all]

theorem Laws.Encodes.srli (d : _) (a : _) (n : _) : Laws.Encodes.Statement (.srli d a n) := by
  intro _ _
  rw [encode]
  refine (decode_07 _ (fOp_encI ..)).trans ?_
  simp only [decodeShift, fOp_encI, fD_encI, fA_encI, fK3_split, fOff11_split, fK2_split, fNum_split, fNumHi, fLow3_format, fK2_shift, fR6_shift, fFn_shift]
  simp [want, extract_high, extract_all]

theorem Laws.Encodes.srai (d : _) (a : _) (n : _) : Laws.Encodes.Statement (.srai d a n) := by
  intro _ _
  rw [encode]
  refine (decode_07 _ (fOp_encI ..)).trans ?_
  simp only [decodeShift, fOp_encI, fD_encI, fA_encI, fK3_split, fOff11_split, fK2_split, fNum_split, fNumHi, fLow3_format, fK2_shift, fR6_shift, fFn_shift]
  simp [want, extract_high, extract_all]

theorem Laws.Encodes.lih (d : _) (i : _) : Laws.Encodes.Statement (.lih d i) := by
  intro _ _
  rw [encode]
  refine (decode_08 _ (fOp_encU ..)).trans ?_
  simp [want, fFlags7, fFlag]

theorem Laws.Encodes.pcrel (d : _) (i : _) : Laws.Encodes.Statement (.pcrel d i) := by
  intro _ _
  rw [encode]
  refine (decode_09 _ (fOp_encU ..)).trans ?_
  simp [want, fFlags7, fFlag]

theorem Laws.Encodes.beq (a : _) (b : _) (o : _) : Laws.Encodes.Statement (.beq a b o) := by
  intro _ _
  rw [encode]
  refine (decode_0a _ (fOp_encI ..)).trans ?_
  simp [want, fFlags7, fFlag]

theorem Laws.Encodes.bne (a : _) (b : _) (o : _) : Laws.Encodes.Statement (.bne a b o) := by
  intro _ _
  rw [encode]
  refine (decode_0b _ (fOp_encI ..)).trans ?_
  simp [want, fFlags7, fFlag]

theorem Laws.Encodes.blt (a : _) (b : _) (o : _) : Laws.Encodes.Statement (.blt a b o) := by
  intro _ _
  rw [encode]
  refine (decode_0c _ (fOp_encI ..)).trans ?_
  simp [want, fFlags7, fFlag]

theorem Laws.Encodes.bge (a : _) (b : _) (o : _) : Laws.Encodes.Statement (.bge a b o) := by
  intro _ _
  rw [encode]
  refine (decode_0d _ (fOp_encI ..)).trans ?_
  simp [want, fFlags7, fFlag]

theorem Laws.Encodes.bltu (a : _) (b : _) (o : _) : Laws.Encodes.Statement (.bltu a b o) := by
  intro _ _
  rw [encode]
  refine (decode_0e _ (fOp_encI ..)).trans ?_
  simp [want, fFlags7, fFlag]

theorem Laws.Encodes.bgeu (a : _) (b : _) (o : _) : Laws.Encodes.Statement (.bgeu a b o) := by
  intro _ _
  rw [encode]
  refine (decode_0f _ (fOp_encI ..)).trans ?_
  simp [want, fFlags7, fFlag]

theorem Laws.Encodes.jal (d : _) (o : _) : Laws.Encodes.Statement (.jal d o) := by
  intro _ _
  rw [encode]
  refine (decode_10 _ (fOp_encU ..)).trans ?_
  simp [want, fFlags7, fFlag]

theorem Laws.Encodes.jalr (d : _) (a : _) (i : _) : Laws.Encodes.Statement (.jalr d a i) := by
  intro _ _
  rw [encode]
  refine (decode_11 _ (fOp_encI ..)).trans ?_
  simp [want, fFlags7, fFlag]

theorem Laws.Encodes.loop (c : _) (l : _) : Laws.Encodes.Statement (.loop c l) := by
  intro h _
  rw [encode]
  refine (decode_12 _ (fOp_encL ..)).trans ?_
  simp [decodeLoop, want, fFlags7, fFlag, Instr.wf] at h ⊢

theorem Laws.Encodes.loopr (c : _) (l : _) : Laws.Encodes.Statement (.loopr c l) := by
  intro h _
  rw [encode]
  refine (decode_12 _ (fOp_encL ..)).trans ?_
  simp [decodeLoop, want, fFlags7, fFlag, Instr.wf] at h ⊢

theorem Laws.Encodes.vfetch (n : _) (o : _) : Laws.Encodes.Statement (.vfetch n o) := by
  intro _ _
  rw [encode]
  refine (decode_13 _ (fOp_encF ..)).trans ?_
  simp only [decodeVp, fOp_encF, fSub_encF, fN5_split, fOff19_split, fV_split, fOff18_split]
  simp [want, extract_high, extract_all]

theorem Laws.Encodes.vpbr (v : _) (o : _) : Laws.Encodes.Statement (.vpbr v o) := by
  intro _ _
  rw [encode]
  refine (decode_13 _ (fOp_encF ..)).trans ?_
  simp only [decodeVp, fOp_encF, fSub_encF, fN5_split, fOff19_split, fV_split, fOff18_split]
  simp [want, extract_high, extract_all]

theorem Laws.Encodes.vpstop : Laws.Encodes.Statement (.vpstop) := by
  intro _ _
  rw [encode]
  refine (decode_13 _ (fOp_encF ..)).trans ?_
  simp [decodeVp, want, fFlags7, fFlag]

theorem Laws.Encodes.vpsync : Laws.Encodes.Statement (.vpsync) := by
  intro _ _
  rw [encode]
  refine (decode_13 _ (fOp_encF ..)).trans ?_
  simp [decodeVp, want, fFlags7, fFlag]

theorem Laws.Encodes.ldB (d : _) (a : _) (o : _) : Laws.Encodes.Statement (.ldB d a o) := by
  intro _ _
  rw [encode]
  refine (decode_14 _ (fOp_encI ..)).trans ?_
  simp only [decodeLoad, fOp_encI, fD_encI, fA_encI, fK3_split, fOff11_split, fK2_split, fNum_split, fNumHi, fLow3_format, fK2_shift, fR6_shift, fFn_shift]

theorem Laws.Encodes.ldH (d : _) (a : _) (o : _) : Laws.Encodes.Statement (.ldH d a o) := by
  intro _ _
  rw [encode]
  refine (decode_14 _ (fOp_encI ..)).trans ?_
  simp only [decodeLoad, fOp_encI, fD_encI, fA_encI, fK3_split, fOff11_split, fK2_split, fNum_split, fNumHi, fLow3_format, fK2_shift, fR6_shift, fFn_shift]

theorem Laws.Encodes.ldW (d : _) (a : _) (o : _) : Laws.Encodes.Statement (.ldW d a o) := by
  intro _ _
  rw [encode]
  refine (decode_14 _ (fOp_encI ..)).trans ?_
  simp only [decodeLoad, fOp_encI, fD_encI, fA_encI, fK3_split, fOff11_split, fK2_split, fNum_split, fNumHi, fLow3_format, fK2_shift, fR6_shift, fFn_shift]

theorem Laws.Encodes.ldD (d : _) (a : _) (o : _) : Laws.Encodes.Statement (.ldD d a o) := by
  intro _ _
  rw [encode]
  refine (decode_14 _ (fOp_encI ..)).trans ?_
  simp only [decodeLoad, fOp_encI, fD_encI, fA_encI, fK3_split, fOff11_split, fK2_split, fNum_split, fNumHi, fLow3_format, fK2_shift, fR6_shift, fFn_shift]

theorem Laws.Encodes.ldBu (d : _) (a : _) (o : _) : Laws.Encodes.Statement (.ldBu d a o) := by
  intro _ _
  rw [encode]
  refine (decode_14 _ (fOp_encI ..)).trans ?_
  simp only [decodeLoad, fOp_encI, fD_encI, fA_encI, fK3_split, fOff11_split, fK2_split, fNum_split, fNumHi, fLow3_format, fK2_shift, fR6_shift, fFn_shift]

theorem Laws.Encodes.ldHu (d : _) (a : _) (o : _) : Laws.Encodes.Statement (.ldHu d a o) := by
  intro _ _
  rw [encode]
  refine (decode_14 _ (fOp_encI ..)).trans ?_
  simp only [decodeLoad, fOp_encI, fD_encI, fA_encI, fK3_split, fOff11_split, fK2_split, fNum_split, fNumHi, fLow3_format, fK2_shift, fR6_shift, fFn_shift]

theorem Laws.Encodes.ldWu (d : _) (a : _) (o : _) : Laws.Encodes.Statement (.ldWu d a o) := by
  intro _ _
  rw [encode]
  refine (decode_14 _ (fOp_encI ..)).trans ?_
  simp only [decodeLoad, fOp_encI, fD_encI, fA_encI, fK3_split, fOff11_split, fK2_split, fNum_split, fNumHi, fLow3_format, fK2_shift, fR6_shift, fFn_shift]

theorem Laws.Encodes.stB (d : _) (a : _) (o : _) : Laws.Encodes.Statement (.stB d a o) := by
  intro _ _
  rw [encode]
  refine (decode_15 _ (fOp_encI ..)).trans ?_
  simp only [decodeStore, fOp_encI, fD_encI, fA_encI, fK3_split, fOff11_split, fK2_split, fNum_split, fNumHi, fLow3_format, fK2_shift, fR6_shift, fFn_shift]

theorem Laws.Encodes.stH (d : _) (a : _) (o : _) : Laws.Encodes.Statement (.stH d a o) := by
  intro _ _
  rw [encode]
  refine (decode_15 _ (fOp_encI ..)).trans ?_
  simp only [decodeStore, fOp_encI, fD_encI, fA_encI, fK3_split, fOff11_split, fK2_split, fNum_split, fNumHi, fLow3_format, fK2_shift, fR6_shift, fFn_shift]

theorem Laws.Encodes.stW (d : _) (a : _) (o : _) : Laws.Encodes.Statement (.stW d a o) := by
  intro _ _
  rw [encode]
  refine (decode_15 _ (fOp_encI ..)).trans ?_
  simp only [decodeStore, fOp_encI, fD_encI, fA_encI, fK3_split, fOff11_split, fK2_split, fNum_split, fNumHi, fLow3_format, fK2_shift, fR6_shift, fFn_shift]

theorem Laws.Encodes.stD (d : _) (a : _) (o : _) : Laws.Encodes.Statement (.stD d a o) := by
  intro _ _
  rw [encode]
  refine (decode_15 _ (fOp_encI ..)).trans ?_
  simp only [decodeStore, fOp_encI, fD_encI, fA_encI, fK3_split, fOff11_split, fK2_split, fNum_split, fNumHi, fLow3_format, fK2_shift, fR6_shift, fFn_shift]

theorem Laws.Encodes.amoAdd (d : _) (a : _) (b : _) (z : _) : Laws.Encodes.Statement (.amoAdd d a b z) := by
  intro _ _
  rw [encode]
  refine (decode_16 _ (fOp_encVS ..)).trans ?_
  simp [decodeAmo, want, fFlags7, fFlag]

theorem Laws.Encodes.amoAnd (d : _) (a : _) (b : _) (z : _) : Laws.Encodes.Statement (.amoAnd d a b z) := by
  intro _ _
  rw [encode]
  refine (decode_16 _ (fOp_encVS ..)).trans ?_
  simp [decodeAmo, want, fFlags7, fFlag]

theorem Laws.Encodes.amoOr (d : _) (a : _) (b : _) (z : _) : Laws.Encodes.Statement (.amoOr d a b z) := by
  intro _ _
  rw [encode]
  refine (decode_16 _ (fOp_encVS ..)).trans ?_
  simp [decodeAmo, want, fFlags7, fFlag]

theorem Laws.Encodes.amoXor (d : _) (a : _) (b : _) (z : _) : Laws.Encodes.Statement (.amoXor d a b z) := by
  intro _ _
  rw [encode]
  refine (decode_16 _ (fOp_encVS ..)).trans ?_
  simp [decodeAmo, want, fFlags7, fFlag]

theorem Laws.Encodes.amoMin (d : _) (a : _) (b : _) (z : _) : Laws.Encodes.Statement (.amoMin d a b z) := by
  intro _ _
  rw [encode]
  refine (decode_16 _ (fOp_encVS ..)).trans ?_
  simp [decodeAmo, want, fFlags7, fFlag]

theorem Laws.Encodes.amoMax (d : _) (a : _) (b : _) (z : _) : Laws.Encodes.Statement (.amoMax d a b z) := by
  intro _ _
  rw [encode]
  refine (decode_16 _ (fOp_encVS ..)).trans ?_
  simp [decodeAmo, want, fFlags7, fFlag]

theorem Laws.Encodes.amoMinu (d : _) (a : _) (b : _) (z : _) : Laws.Encodes.Statement (.amoMinu d a b z) := by
  intro _ _
  rw [encode]
  refine (decode_16 _ (fOp_encVS ..)).trans ?_
  simp [decodeAmo, want, fFlags7, fFlag]

theorem Laws.Encodes.amoMaxu (d : _) (a : _) (b : _) (z : _) : Laws.Encodes.Statement (.amoMaxu d a b z) := by
  intro _ _
  rw [encode]
  refine (decode_16 _ (fOp_encVS ..)).trans ?_
  simp [decodeAmo, want, fFlags7, fFlag]

theorem Laws.Encodes.amoSwap (d : _) (a : _) (b : _) (z : _) : Laws.Encodes.Statement (.amoSwap d a b z) := by
  intro _ _
  rw [encode]
  refine (decode_16 _ (fOp_encVS ..)).trans ?_
  simp [decodeAmo, want, fFlags7, fFlag]

theorem Laws.Encodes.amoFadd (d : _) (a : _) (b : _) (z : _) : Laws.Encodes.Statement (.amoFadd d a b z) := by
  intro _ _
  rw [encode]
  refine (decode_16 _ (fOp_encVS ..)).trans ?_
  simp [decodeAmo, want, fFlags7, fFlag]

theorem Laws.Encodes.cas (d : _) (a : _) (b : _) (z : _) : Laws.Encodes.Statement (.cas d a b z) := by
  intro _ _
  rw [encode]
  refine (decode_16 _ (fOp_encVS ..)).trans ?_
  simp [decodeAmo, want, fFlags7, fFlag]

theorem Laws.Encodes.fence (s : _) : Laws.Encodes.Statement (.fence s) := by
  intro _ _
  rw [encode]
  refine (decode_17 _ (fOp_encVS ..)).trans ?_
  simp only [decodeFence, fOp_encVS, fD_encVS, fA_encVS, fB_encVS, fC_encVS, fE_encVS, fFn_encVS, fHi4_split, fScope_split, fComb_split, fLow3_split, fP_tile, fT_tile, fTop3_tile, fMem_tile]
  simp [want, extract_high, extract_all]

theorem Laws.Encodes.acq (d : _) (a : _) (s : _) : Laws.Encodes.Statement (.acq d a s) := by
  intro h _
  rw [encode]
  refine (decode_17 _ (fOp_encVS ..)).trans ?_
  simp only [decodeFence, fOp_encVS, fD_encVS, fA_encVS, fB_encVS, fC_encVS, fE_encVS, fFn_encVS, fHi4_split, fScope_split, fComb_split, fLow3_split, fP_tile, fT_tile, fTop3_tile, fMem_tile]
  simp [want, extract_high, extract_all, Instr.wf] at h ⊢

theorem Laws.Encodes.rel (a : _) (b : _) (s : _) : Laws.Encodes.Statement (.rel a b s) := by
  intro h _
  rw [encode]
  refine (decode_17 _ (fOp_encVS ..)).trans ?_
  simp only [decodeFence, fOp_encVS, fD_encVS, fA_encVS, fB_encVS, fC_encVS, fE_encVS, fFn_encVS, fHi4_split, fScope_split, fComb_split, fLow3_split, fP_tile, fT_tile, fTop3_tile, fMem_tile]
  simp [want, extract_high, extract_all, Instr.wf] at h ⊢

theorem Laws.Encodes.pref (a : _) : Laws.Encodes.Statement (.pref a) := by
  intro _ _
  rw [encode]
  refine (decode_17 _ (fOp_encVS ..)).trans ?_
  simp [want, fHi4, fScope, decodeFence]

theorem Laws.Encodes.setvl (d : _) (a : _) : Laws.Encodes.Statement (.setvl d a) := by
  intro _ _
  rw [encode]
  refine (decode_18 _ (fOp_encI ..)).trans ?_
  simp only [decodeVl, fOp_encI, fD_encI, fA_encI, fK3_split, fOff11_split, fK2_split, fNum_split, fNumHi, fLow3_format, fK2_shift, fR6_shift, fFn_shift]
  simp [want, extract_high, extract_all]

theorem Laws.Encodes.setvli (d : _) (n : _) : Laws.Encodes.Statement (.setvli d n) := by
  intro _ _
  rw [encode]
  refine (decode_18 _ (fOp_encI ..)).trans ?_
  simp only [decodeVl, fOp_encI, fD_encI, fA_encI, fK3_split, fOff11_split, fK2_split, fNum_split, fNumHi, fLow3_format, fK2_shift, fR6_shift, fFn_shift]
  simp [want, extract_high, extract_all]

theorem Laws.Encodes.mfsr (d : _) (r : _) : Laws.Encodes.Statement (.mfsr d r) := by
  intro h _
  obtain ⟨h1, h2, h3⟩ := sysRead_ne r h
  rw [encode]
  refine (decode_18 _ (fOp_encI ..)).trans ?_
  simp only [decodeVl, fOp_encI, fD_encI, fA_encI, fK3_split, fOff11_split, fK2_split, fNum_split, fNumHi, fLow3_format, fK2_shift, fR6_shift, fFn_shift]
  simp [want, h1, h2, h3]

theorem Laws.Encodes.mfsrFflags (d : _) : Laws.Encodes.Statement (.mfsrFflags d) := by
  intro _ _
  rw [encode]
  refine (decode_18 _ (fOp_encI ..)).trans ?_
  simp only [decodeVl, fOp_encI, fD_encI, fA_encI, fK3_split, fOff11_split, fK2_split, fNum_split, fNumHi, fLow3_format, fK2_shift, fR6_shift, fFn_shift]
  simp [want, extract_high, extract_all]

theorem Laws.Encodes.mfsrMsat (d : _) : Laws.Encodes.Statement (.mfsrMsat d) := by
  intro _ _
  rw [encode]
  refine (decode_18 _ (fOp_encI ..)).trans ?_
  simp only [decodeVl, fOp_encI, fD_encI, fA_encI, fK3_split, fOff11_split, fK2_split, fNum_split, fNumHi, fLow3_format, fK2_shift, fR6_shift, fFn_shift]
  simp [want, extract_high, extract_all]

theorem Laws.Encodes.mtsr (a : _) (r : _) : Laws.Encodes.Statement (.mtsr a r) := by
  intro h _
  obtain ⟨h1, h2, h3, h4, h5, h6, h7, h8⟩ := sysWrite_ne r h
  have h9 := sysWrite_hi r h
  rw [encode]
  refine (decode_18 _ (fOp_encI ..)).trans ?_
  simp only [decodeVl, fOp_encI, fD_encI, fA_encI, fK3_split, fOff11_split, fK2_split, fNum_split, fNumHi, fLow3_format, fK2_shift, fR6_shift, fFn_shift]
  simp [want, h1, h2, h3, h4, h5, h6, h7, h8, h9]

theorem Laws.Encodes.mtsrMode (a : _) : Laws.Encodes.Statement (.mtsrMode a) := by
  intro _ _
  rw [encode]
  refine (decode_18 _ (fOp_encI ..)).trans ?_
  simp only [decodeVl, fOp_encI, fD_encI, fA_encI, fK3_split, fOff11_split, fK2_split, fNum_split, fNumHi, fLow3_format, fK2_shift, fR6_shift, fFn_shift]
  simp [want, extract_high, extract_all]

theorem Laws.Encodes.mtsrFmt (a : _) (f : _) : Laws.Encodes.Statement (.mtsrFmt a f) := by
  intro _ _
  rw [encode]
  refine (decode_18 _ (fOp_encI ..)).trans ?_
  simp only [decodeVl, fOp_encI, fD_encI, fA_encI, fK3_split, fOff11_split, fK2_split, fNum_split, fNumHi, fLow3_format, fK2_shift, fR6_shift, fFn_shift]
  simp [want, fmt_ne, fmt_hi]

theorem Laws.Encodes.mtsrFflags (a : _) : Laws.Encodes.Statement (.mtsrFflags a) := by
  intro _ _
  rw [encode]
  refine (decode_18 _ (fOp_encI ..)).trans ?_
  simp only [decodeVl, fOp_encI, fD_encI, fA_encI, fK3_split, fOff11_split, fK2_split, fNum_split, fNumHi, fLow3_format, fK2_shift, fR6_shift, fFn_shift]
  simp [want, extract_high, extract_all]

theorem Laws.Encodes.mtsrFprog (a : _) : Laws.Encodes.Statement (.mtsrFprog a) := by
  intro _ _
  rw [encode]
  refine (decode_18 _ (fOp_encI ..)).trans ?_
  simp only [decodeVl, fOp_encI, fD_encI, fA_encI, fK3_split, fOff11_split, fK2_split, fNum_split, fNumHi, fLow3_format, fK2_shift, fR6_shift, fFn_shift]
  simp [want, extract_high, extract_all]

theorem Laws.Encodes.mtsrCtags (a : _) : Laws.Encodes.Statement (.mtsrCtags a) := by
  intro _ _
  rw [encode]
  refine (decode_18 _ (fOp_encI ..)).trans ?_
  simp only [decodeVl, fOp_encI, fD_encI, fA_encI, fK3_split, fOff11_split, fK2_split, fNum_split, fNumHi, fLow3_format, fK2_shift, fR6_shift, fFn_shift]
  simp [want, extract_high, extract_all]

theorem Laws.Encodes.mtsrMsat (a : _) : Laws.Encodes.Statement (.mtsrMsat a) := by
  intro _ _
  rw [encode]
  refine (decode_18 _ (fOp_encI ..)).trans ?_
  simp only [decodeVl, fOp_encI, fD_encI, fA_encI, fK3_split, fOff11_split, fK2_split, fNum_split, fNumHi, fLow3_format, fK2_shift, fR6_shift, fFn_shift]
  simp [want, extract_high, extract_all]

theorem Laws.Encodes.mtsrPtroot (a : _) : Laws.Encodes.Statement (.mtsrPtroot a) := by
  intro _ _
  rw [encode]
  refine (decode_18 _ (fOp_encI ..)).trans ?_
  simp only [decodeVl, fOp_encI, fD_encI, fA_encI, fK3_split, fOff11_split, fK2_split, fNum_split, fNumHi, fLow3_format, fK2_shift, fR6_shift, fFn_shift]
  simp [want, extract_high, extract_all]

theorem Laws.Encodes.mtsrTrapvec (a : _) : Laws.Encodes.Statement (.mtsrTrapvec a) := by
  intro _ _
  rw [encode]
  refine (decode_18 _ (fOp_encI ..)).trans ?_
  simp only [decodeVl, fOp_encI, fD_encI, fA_encI, fK3_split, fOff11_split, fK2_split, fNum_split, fNumHi, fLow3_format, fK2_shift, fR6_shift, fFn_shift]
  simp [want, extract_high, extract_all]

theorem Laws.Encodes.mtsrPshare (a : _) : Laws.Encodes.Statement (.mtsrPshare a) := by
  intro _ _
  rw [encode]
  refine (decode_18 _ (fOp_encI ..)).trans ?_
  simp only [decodeVl, fOp_encI, fD_encI, fA_encI, fK3_split, fOff11_split, fK2_split, fNum_split, fNumHi, fLow3_format, fK2_shift, fR6_shift, fFn_shift]
  simp [want, extract_high, extract_all]

theorem Laws.Encodes.vidx (d : _) (s : _) (p : _) : Laws.Encodes.Statement (.vidx d s p) := by
  intro _ _
  rw [encode]
  refine (decode_19 _ (fOp_encL ..)).trans ?_
  simp [want, fFlags7, fFlag]

theorem Laws.Encodes.vadd (d : _) (a : _) (b : _) (c : _) (e : _) : Laws.Encodes.Statement (.vadd d a b c e) := by
  intro _ _
  rw [encode]
  refine (decode_1a _ (fOp_encVS ..)).trans ?_
  simp [decodeVAdd, want, fFlags7, fFlag]

theorem Laws.Encodes.vaddVx (d : _) (a : _) (b : _) (c : _) : Laws.Encodes.Statement (.vaddVx d a b c) := by
  intro _ _
  rw [encode]
  refine (decode_1a _ (fOp_encVS ..)).trans ?_
  simp [decodeVAdd, want, fFlags7, fFlag]

theorem Laws.Encodes.vsub (d : _) (a : _) (b : _) (c : _) (e : _) : Laws.Encodes.Statement (.vsub d a b c e) := by
  intro _ _
  rw [encode]
  refine (decode_1a _ (fOp_encVS ..)).trans ?_
  simp [decodeVAdd, want, fFlags7, fFlag]

theorem Laws.Encodes.vsubVx (d : _) (a : _) (b : _) (c : _) : Laws.Encodes.Statement (.vsubVx d a b c) := by
  intro _ _
  rw [encode]
  refine (decode_1a _ (fOp_encVS ..)).trans ?_
  simp [decodeVAdd, want, fFlags7, fFlag]

theorem Laws.Encodes.vmul (d : _) (a : _) (b : _) (c : _) (e : _) : Laws.Encodes.Statement (.vmul d a b c e) := by
  intro _ _
  rw [encode]
  refine (decode_1a _ (fOp_encVS ..)).trans ?_
  simp [decodeVAdd, want, fFlags7, fFlag]

theorem Laws.Encodes.vmulVx (d : _) (a : _) (b : _) (c : _) : Laws.Encodes.Statement (.vmulVx d a b c) := by
  intro _ _
  rw [encode]
  refine (decode_1a _ (fOp_encVS ..)).trans ?_
  simp [decodeVAdd, want, fFlags7, fFlag]

theorem Laws.Encodes.vmulh (d : _) (a : _) (b : _) (c : _) (e : _) : Laws.Encodes.Statement (.vmulh d a b c e) := by
  intro _ _
  rw [encode]
  refine (decode_1a _ (fOp_encVS ..)).trans ?_
  simp [decodeVAdd, want, fFlags7, fFlag]

theorem Laws.Encodes.vmulhVx (d : _) (a : _) (b : _) (c : _) : Laws.Encodes.Statement (.vmulhVx d a b c) := by
  intro _ _
  rw [encode]
  refine (decode_1a _ (fOp_encVS ..)).trans ?_
  simp [decodeVAdd, want, fFlags7, fFlag]

theorem Laws.Encodes.vmacc (d : _) (a : _) (b : _) (c : _) (e : _) : Laws.Encodes.Statement (.vmacc d a b c e) := by
  intro _ _
  rw [encode]
  refine (decode_1a _ (fOp_encVS ..)).trans ?_
  simp [decodeVAdd, want, fFlags7, fFlag]

theorem Laws.Encodes.vmaccVx (d : _) (a : _) (b : _) (c : _) : Laws.Encodes.Statement (.vmaccVx d a b c) := by
  intro _ _
  rw [encode]
  refine (decode_1a _ (fOp_encVS ..)).trans ?_
  simp [decodeVAdd, want, fFlags7, fFlag]

theorem Laws.Encodes.vdiv (d : _) (a : _) (b : _) (c : _) (e : _) : Laws.Encodes.Statement (.vdiv d a b c e) := by
  intro _ _
  rw [encode]
  refine (decode_1b _ (fOp_encVS ..)).trans ?_
  simp [decodeVDiv, want, fFlags7, fFlag]

theorem Laws.Encodes.vdivVx (d : _) (a : _) (b : _) (c : _) : Laws.Encodes.Statement (.vdivVx d a b c) := by
  intro _ _
  rw [encode]
  refine (decode_1b _ (fOp_encVS ..)).trans ?_
  simp [decodeVDiv, want, fFlags7, fFlag]

theorem Laws.Encodes.vrem (d : _) (a : _) (b : _) (c : _) (e : _) : Laws.Encodes.Statement (.vrem d a b c e) := by
  intro _ _
  rw [encode]
  refine (decode_1b _ (fOp_encVS ..)).trans ?_
  simp [decodeVDiv, want, fFlags7, fFlag]

theorem Laws.Encodes.vremVx (d : _) (a : _) (b : _) (c : _) : Laws.Encodes.Statement (.vremVx d a b c) := by
  intro _ _
  rw [encode]
  refine (decode_1b _ (fOp_encVS ..)).trans ?_
  simp [decodeVDiv, want, fFlags7, fFlag]

theorem Laws.Encodes.vmin (d : _) (a : _) (b : _) (c : _) (e : _) : Laws.Encodes.Statement (.vmin d a b c e) := by
  intro _ _
  rw [encode]
  refine (decode_1c _ (fOp_encVS ..)).trans ?_
  simp [decodeVMin, want, fFlags7, fFlag]

theorem Laws.Encodes.vminVx (d : _) (a : _) (b : _) (c : _) : Laws.Encodes.Statement (.vminVx d a b c) := by
  intro _ _
  rw [encode]
  refine (decode_1c _ (fOp_encVS ..)).trans ?_
  simp [decodeVMin, want, fFlags7, fFlag]

theorem Laws.Encodes.vmax (d : _) (a : _) (b : _) (c : _) (e : _) : Laws.Encodes.Statement (.vmax d a b c e) := by
  intro _ _
  rw [encode]
  refine (decode_1c _ (fOp_encVS ..)).trans ?_
  simp [decodeVMin, want, fFlags7, fFlag]

theorem Laws.Encodes.vmaxVx (d : _) (a : _) (b : _) (c : _) : Laws.Encodes.Statement (.vmaxVx d a b c) := by
  intro _ _
  rw [encode]
  refine (decode_1c _ (fOp_encVS ..)).trans ?_
  simp [decodeVMin, want, fFlags7, fFlag]

theorem Laws.Encodes.vand (d : _) (a : _) (b : _) (c : _) (e : _) : Laws.Encodes.Statement (.vand d a b c e) := by
  intro _ _
  rw [encode]
  refine (decode_1d _ (fOp_encVS ..)).trans ?_
  simp [decodeVLogic, want, fFlags7, fFlag]

theorem Laws.Encodes.vandVx (d : _) (a : _) (b : _) (c : _) : Laws.Encodes.Statement (.vandVx d a b c) := by
  intro _ _
  rw [encode]
  refine (decode_1d _ (fOp_encVS ..)).trans ?_
  simp [decodeVLogic, want, fFlags7, fFlag]

theorem Laws.Encodes.vor (d : _) (a : _) (b : _) (c : _) (e : _) : Laws.Encodes.Statement (.vor d a b c e) := by
  intro _ _
  rw [encode]
  refine (decode_1d _ (fOp_encVS ..)).trans ?_
  simp [decodeVLogic, want, fFlags7, fFlag]

theorem Laws.Encodes.vorVx (d : _) (a : _) (b : _) (c : _) : Laws.Encodes.Statement (.vorVx d a b c) := by
  intro _ _
  rw [encode]
  refine (decode_1d _ (fOp_encVS ..)).trans ?_
  simp [decodeVLogic, want, fFlags7, fFlag]

theorem Laws.Encodes.vxor (d : _) (a : _) (b : _) (c : _) (e : _) : Laws.Encodes.Statement (.vxor d a b c e) := by
  intro _ _
  rw [encode]
  refine (decode_1d _ (fOp_encVS ..)).trans ?_
  simp [decodeVLogic, want, fFlags7, fFlag]

theorem Laws.Encodes.vxorVx (d : _) (a : _) (b : _) (c : _) : Laws.Encodes.Statement (.vxorVx d a b c) := by
  intro _ _
  rw [encode]
  refine (decode_1d _ (fOp_encVS ..)).trans ?_
  simp [decodeVLogic, want, fFlags7, fFlag]

theorem Laws.Encodes.vsll (d : _) (a : _) (b : _) (c : _) (e : _) : Laws.Encodes.Statement (.vsll d a b c e) := by
  intro _ _
  rw [encode]
  refine (decode_1e _ (fOp_encVS ..)).trans ?_
  simp [decodeVShift, want, fFlags7, fFlag]

theorem Laws.Encodes.vsllVx (d : _) (a : _) (b : _) (c : _) : Laws.Encodes.Statement (.vsllVx d a b c) := by
  intro _ _
  rw [encode]
  refine (decode_1e _ (fOp_encVS ..)).trans ?_
  simp [decodeVShift, want, fFlags7, fFlag]

theorem Laws.Encodes.vsrl (d : _) (a : _) (b : _) (c : _) (e : _) : Laws.Encodes.Statement (.vsrl d a b c e) := by
  intro _ _
  rw [encode]
  refine (decode_1e _ (fOp_encVS ..)).trans ?_
  simp [decodeVShift, want, fFlags7, fFlag]

theorem Laws.Encodes.vsrlVx (d : _) (a : _) (b : _) (c : _) : Laws.Encodes.Statement (.vsrlVx d a b c) := by
  intro _ _
  rw [encode]
  refine (decode_1e _ (fOp_encVS ..)).trans ?_
  simp [decodeVShift, want, fFlags7, fFlag]

theorem Laws.Encodes.vsra (d : _) (a : _) (b : _) (c : _) (e : _) : Laws.Encodes.Statement (.vsra d a b c e) := by
  intro _ _
  rw [encode]
  refine (decode_1e _ (fOp_encVS ..)).trans ?_
  simp [decodeVShift, want, fFlags7, fFlag]

theorem Laws.Encodes.vsraVx (d : _) (a : _) (b : _) (c : _) : Laws.Encodes.Statement (.vsraVx d a b c) := by
  intro _ _
  rw [encode]
  refine (decode_1e _ (fOp_encVS ..)).trans ?_
  simp [decodeVShift, want, fFlags7, fFlag]

theorem Laws.Encodes.vrng (d : _) (a : _) : Laws.Encodes.Statement (.vrng d a) := by
  intro _ _
  rw [encode]
  refine (decode_1f _ (fOp_encVS ..)).trans ?_
  simp [decodeVRng, want, fFlags7, fFlag]

theorem Laws.Encodes.vfadd (d : _) (a : _) (b : _) (c : _) (e : _) : Laws.Encodes.Statement (.vfadd d a b c e) := by
  intro _ _
  rw [encode]
  refine (decode_20 _ (fOp_encVS ..)).trans ?_
  simp [decodeVFAdd, want, fFlags7, fFlag]

theorem Laws.Encodes.vfaddVx (d : _) (a : _) (b : _) (c : _) : Laws.Encodes.Statement (.vfaddVx d a b c) := by
  intro _ _
  rw [encode]
  refine (decode_20 _ (fOp_encVS ..)).trans ?_
  simp [decodeVFAdd, want, fFlags7, fFlag]

theorem Laws.Encodes.vfsub (d : _) (a : _) (b : _) (c : _) (e : _) : Laws.Encodes.Statement (.vfsub d a b c e) := by
  intro _ _
  rw [encode]
  refine (decode_20 _ (fOp_encVS ..)).trans ?_
  simp [decodeVFAdd, want, fFlags7, fFlag]

theorem Laws.Encodes.vfsubVx (d : _) (a : _) (b : _) (c : _) : Laws.Encodes.Statement (.vfsubVx d a b c) := by
  intro _ _
  rw [encode]
  refine (decode_20 _ (fOp_encVS ..)).trans ?_
  simp [decodeVFAdd, want, fFlags7, fFlag]

theorem Laws.Encodes.vfmul (d : _) (a : _) (b : _) (c : _) (e : _) : Laws.Encodes.Statement (.vfmul d a b c e) := by
  intro _ _
  rw [encode]
  refine (decode_20 _ (fOp_encVS ..)).trans ?_
  simp [decodeVFAdd, want, fFlags7, fFlag]

theorem Laws.Encodes.vfmulVx (d : _) (a : _) (b : _) (c : _) : Laws.Encodes.Statement (.vfmulVx d a b c) := by
  intro _ _
  rw [encode]
  refine (decode_20 _ (fOp_encVS ..)).trans ?_
  simp [decodeVFAdd, want, fFlags7, fFlag]

theorem Laws.Encodes.vfma (d : _) (a : _) (b : _) (c : _) (e : _) : Laws.Encodes.Statement (.vfma d a b c e) := by
  intro _ _
  rw [encode]
  refine (decode_21 _ (fOp_encVS ..)).trans ?_
  simp [decodeVFma, want, fFlags7, fFlag]

theorem Laws.Encodes.vfmaVx (d : _) (a : _) (b : _) (c : _) : Laws.Encodes.Statement (.vfmaVx d a b c) := by
  intro _ _
  rw [encode]
  refine (decode_21 _ (fOp_encVS ..)).trans ?_
  simp [decodeVFma, want, fFlags7, fFlag]

theorem Laws.Encodes.vfms (d : _) (a : _) (b : _) (c : _) (e : _) : Laws.Encodes.Statement (.vfms d a b c e) := by
  intro _ _
  rw [encode]
  refine (decode_21 _ (fOp_encVS ..)).trans ?_
  simp [decodeVFma, want, fFlags7, fFlag]

theorem Laws.Encodes.vfmsVx (d : _) (a : _) (b : _) (c : _) : Laws.Encodes.Statement (.vfmsVx d a b c) := by
  intro _ _
  rw [encode]
  refine (decode_21 _ (fOp_encVS ..)).trans ?_
  simp [decodeVFma, want, fFlags7, fFlag]

theorem Laws.Encodes.vfnma (d : _) (a : _) (b : _) (c : _) (e : _) : Laws.Encodes.Statement (.vfnma d a b c e) := by
  intro _ _
  rw [encode]
  refine (decode_21 _ (fOp_encVS ..)).trans ?_
  simp [decodeVFma, want, fFlags7, fFlag]

theorem Laws.Encodes.vfnmaVx (d : _) (a : _) (b : _) (c : _) : Laws.Encodes.Statement (.vfnmaVx d a b c) := by
  intro _ _
  rw [encode]
  refine (decode_21 _ (fOp_encVS ..)).trans ?_
  simp [decodeVFma, want, fFlags7, fFlag]

theorem Laws.Encodes.vfnms (d : _) (a : _) (b : _) (c : _) (e : _) : Laws.Encodes.Statement (.vfnms d a b c e) := by
  intro _ _
  rw [encode]
  refine (decode_21 _ (fOp_encVS ..)).trans ?_
  simp [decodeVFma, want, fFlags7, fFlag]

theorem Laws.Encodes.vfnmsVx (d : _) (a : _) (b : _) (c : _) : Laws.Encodes.Statement (.vfnmsVx d a b c) := by
  intro _ _
  rw [encode]
  refine (decode_21 _ (fOp_encVS ..)).trans ?_
  simp [decodeVFma, want, fFlags7, fFlag]

theorem Laws.Encodes.vfdiv (d : _) (a : _) (b : _) (c : _) (e : _) : Laws.Encodes.Statement (.vfdiv d a b c e) := by
  intro _ _
  rw [encode]
  refine (decode_22 _ (fOp_encVS ..)).trans ?_
  simp [decodeVFDiv, want, fFlags7, fFlag]

theorem Laws.Encodes.vfdivVx (d : _) (a : _) (b : _) (c : _) : Laws.Encodes.Statement (.vfdivVx d a b c) := by
  intro _ _
  rw [encode]
  refine (decode_22 _ (fOp_encVS ..)).trans ?_
  simp [decodeVFDiv, want, fFlags7, fFlag]

theorem Laws.Encodes.vfsqrt (d : _) (a : _) (c : _) : Laws.Encodes.Statement (.vfsqrt d a c) := by
  intro _ _
  rw [encode]
  refine (decode_22 _ (fOp_encVS ..)).trans ?_
  simp [decodeVFDiv, want, fFlags7, fFlag]

theorem Laws.Encodes.vfrec (d : _) (a : _) (c : _) : Laws.Encodes.Statement (.vfrec d a c) := by
  intro _ _
  rw [encode]
  refine (decode_22 _ (fOp_encVS ..)).trans ?_
  simp [decodeVFDiv, want, fFlags7, fFlag]

theorem Laws.Encodes.vfmin (d : _) (a : _) (b : _) (c : _) (e : _) : Laws.Encodes.Statement (.vfmin d a b c e) := by
  intro _ _
  rw [encode]
  refine (decode_23 _ (fOp_encVS ..)).trans ?_
  simp [decodeVFMin, want, fFlags7, fFlag]

theorem Laws.Encodes.vfminVx (d : _) (a : _) (b : _) (c : _) : Laws.Encodes.Statement (.vfminVx d a b c) := by
  intro _ _
  rw [encode]
  refine (decode_23 _ (fOp_encVS ..)).trans ?_
  simp [decodeVFMin, want, fFlags7, fFlag]

theorem Laws.Encodes.vfmax (d : _) (a : _) (b : _) (c : _) (e : _) : Laws.Encodes.Statement (.vfmax d a b c e) := by
  intro _ _
  rw [encode]
  refine (decode_23 _ (fOp_encVS ..)).trans ?_
  simp [decodeVFMin, want, fFlags7, fFlag]

theorem Laws.Encodes.vfmaxVx (d : _) (a : _) (b : _) (c : _) : Laws.Encodes.Statement (.vfmaxVx d a b c) := by
  intro _ _
  rw [encode]
  refine (decode_23 _ (fOp_encVS ..)).trans ?_
  simp [decodeVFMin, want, fFlags7, fFlag]

theorem Laws.Encodes.vfabs (d : _) (a : _) (c : _) : Laws.Encodes.Statement (.vfabs d a c) := by
  intro _ _
  rw [encode]
  refine (decode_23 _ (fOp_encVS ..)).trans ?_
  simp [decodeVFMin, want, fFlags7, fFlag]

theorem Laws.Encodes.vfneg (d : _) (a : _) (c : _) : Laws.Encodes.Statement (.vfneg d a c) := by
  intro _ _
  rw [encode]
  refine (decode_23 _ (fOp_encVS ..)).trans ?_
  simp [decodeVFMin, want, fFlags7, fFlag]

theorem Laws.Encodes.vfrint (d : _) (a : _) (c : _) : Laws.Encodes.Statement (.vfrint d a c) := by
  intro _ _
  rw [encode]
  refine (decode_24 _ (fOp_encVS ..)).trans ?_
  simp [decodeVFRint, want, fFlags7, fFlag]

theorem Laws.Encodes.vfexp2 (d : _) (a : _) (c : _) : Laws.Encodes.Statement (.vfexp2 d a c) := by
  intro _ _
  rw [encode]
  refine (decode_24 _ (fOp_encVS ..)).trans ?_
  simp [decodeVFRint, want, fFlags7, fFlag]

theorem Laws.Encodes.vfscale (d : _) (a : _) (b : _) (c : _) (e : _) : Laws.Encodes.Statement (.vfscale d a b c e) := by
  intro _ _
  rw [encode]
  refine (decode_24 _ (fOp_encVS ..)).trans ?_
  simp [decodeVFRint, want, fFlags7, fFlag]

theorem Laws.Encodes.vfscaleVx (d : _) (a : _) (b : _) (c : _) : Laws.Encodes.Statement (.vfscaleVx d a b c) := by
  intro _ _
  rw [encode]
  refine (decode_24 _ (fOp_encVS ..)).trans ?_
  simp [decodeVFRint, want, fFlags7, fFlag]

theorem Laws.Encodes.vfclass (d : _) (a : _) (c : _) : Laws.Encodes.Statement (.vfclass d a c) := by
  intro _ _
  rw [encode]
  refine (decode_25 _ (fOp_encVS ..)).trans ?_
  simp [decodeVFClass, want, fFlags7, fFlag]

theorem Laws.Encodes.vcmpEq (d : _) (a : _) (b : _) (c : _) (e : _) : Laws.Encodes.Statement (.vcmpEq d a b c e) := by
  intro h _
  rw [encode]
  refine (decode_26 _ (fOp_encVS ..)).trans ?_
  simp [decodePred, want, fFlags7, fFlag, Instr.wf] at h ⊢

theorem Laws.Encodes.vcmpNe (d : _) (a : _) (b : _) (c : _) (e : _) : Laws.Encodes.Statement (.vcmpNe d a b c e) := by
  intro h _
  rw [encode]
  refine (decode_26 _ (fOp_encVS ..)).trans ?_
  simp [decodePred, want, fFlags7, fFlag, Instr.wf] at h ⊢

theorem Laws.Encodes.vcmpLt (d : _) (a : _) (b : _) (c : _) (e : _) : Laws.Encodes.Statement (.vcmpLt d a b c e) := by
  intro h _
  rw [encode]
  refine (decode_26 _ (fOp_encVS ..)).trans ?_
  simp [decodePred, want, fFlags7, fFlag, Instr.wf] at h ⊢

theorem Laws.Encodes.vcmpLe (d : _) (a : _) (b : _) (c : _) (e : _) : Laws.Encodes.Statement (.vcmpLe d a b c e) := by
  intro h _
  rw [encode]
  refine (decode_26 _ (fOp_encVS ..)).trans ?_
  simp [decodePred, want, fFlags7, fFlag, Instr.wf] at h ⊢

theorem Laws.Encodes.vcmpGt (d : _) (a : _) (b : _) (c : _) (e : _) : Laws.Encodes.Statement (.vcmpGt d a b c e) := by
  intro h _
  rw [encode]
  refine (decode_26 _ (fOp_encVS ..)).trans ?_
  simp [decodePred, want, fFlags7, fFlag, Instr.wf] at h ⊢

theorem Laws.Encodes.vcmpGe (d : _) (a : _) (b : _) (c : _) (e : _) : Laws.Encodes.Statement (.vcmpGe d a b c e) := by
  intro h _
  rw [encode]
  refine (decode_26 _ (fOp_encVS ..)).trans ?_
  simp [decodePred, want, fFlags7, fFlag, Instr.wf] at h ⊢

theorem Laws.Encodes.vcmpUn (d : _) (a : _) (b : _) (c : _) (e : _) : Laws.Encodes.Statement (.vcmpUn d a b c e) := by
  intro h _
  rw [encode]
  refine (decode_26 _ (fOp_encVS ..)).trans ?_
  simp [decodePred, want, fFlags7, fFlag, Instr.wf] at h ⊢

theorem Laws.Encodes.pand (d : _) (a : _) (b : _) : Laws.Encodes.Statement (.pand d a b) := by
  intro h _
  rw [encode]
  refine (decode_26 _ (fOp_encVS ..)).trans ?_
  simp [decodePred, want, fFlags7, fFlag, Instr.wf] at h ⊢

theorem Laws.Encodes.por (d : _) (a : _) (b : _) : Laws.Encodes.Statement (.por d a b) := by
  intro h _
  rw [encode]
  refine (decode_26 _ (fOp_encVS ..)).trans ?_
  simp [decodePred, want, fFlags7, fFlag, Instr.wf] at h ⊢

theorem Laws.Encodes.pxor (d : _) (a : _) (b : _) : Laws.Encodes.Statement (.pxor d a b) := by
  intro h _
  rw [encode]
  refine (decode_26 _ (fOp_encVS ..)).trans ?_
  simp [decodePred, want, fFlags7, fFlag, Instr.wf] at h ⊢

theorem Laws.Encodes.pandn (d : _) (a : _) (b : _) : Laws.Encodes.Statement (.pandn d a b) := by
  intro h _
  rw [encode]
  refine (decode_26 _ (fOp_encVS ..)).trans ?_
  simp [decodePred, want, fFlags7, fFlag, Instr.wf] at h ⊢

theorem Laws.Encodes.pnot (d : _) (a : _) : Laws.Encodes.Statement (.pnot d a) := by
  intro h _
  rw [encode]
  refine (decode_26 _ (fOp_encVS ..)).trans ?_
  simp [decodePred, want, fFlags7, fFlag, Instr.wf] at h ⊢

theorem Laws.Encodes.pwhile (d : _) (a : _) (b : _) : Laws.Encodes.Statement (.pwhile d a b) := by
  intro h _
  rw [encode]
  refine (decode_26 _ (fOp_encVS ..)).trans ?_
  simp [decodePred, want, fFlags7, fFlag, Instr.wf] at h ⊢

theorem Laws.Encodes.pcnt (d : _) (a : _) : Laws.Encodes.Statement (.pcnt d a) := by
  intro h _
  rw [encode]
  refine (decode_26 _ (fOp_encVS ..)).trans ?_
  simp [decodePred, want, fFlags7, fFlag, Instr.wf] at h ⊢

theorem Laws.Encodes.pfirst (d : _) (a : _) : Laws.Encodes.Statement (.pfirst d a) := by
  intro h _
  rw [encode]
  refine (decode_26 _ (fOp_encVS ..)).trans ?_
  simp [decodePred, want, fFlags7, fFlag, Instr.wf] at h ⊢

theorem Laws.Encodes.vcvt (d : _) (a : _) (c : _) : Laws.Encodes.Statement (.vcvt d a c) := by
  intro _ _
  rw [encode]
  refine (decode_27 _ (fOp_encVS ..)).trans ?_
  simp [decodeConvert, want, fFlags7, fFlag]

theorem Laws.Encodes.vqnt (d : _) (a : _) (c : _) : Laws.Encodes.Statement (.vqnt d a c) := by
  intro _ _
  rw [encode]
  refine (decode_27 _ (fOp_encVS ..)).trans ?_
  simp [decodeConvert, want, fFlags7, fFlag]

theorem Laws.Encodes.vdqnt (d : _) (a : _) (c : _) : Laws.Encodes.Statement (.vdqnt d a c) := by
  intro _ _
  rw [encode]
  refine (decode_27 _ (fOp_encVS ..)).trans ?_
  simp [decodeConvert, want, fFlags7, fFlag]

theorem Laws.Encodes.vbscale (d : _) (a : _) (c : _) : Laws.Encodes.Statement (.vbscale d a c) := by
  intro _ _
  rw [encode]
  refine (decode_27 _ (fOp_encVS ..)).trans ?_
  simp [decodeConvert, want, fFlags7, fFlag]

theorem Laws.Encodes.vbsmax (d : _) (a : _) (c : _) : Laws.Encodes.Statement (.vbsmax d a c) := by
  intro _ _
  rw [encode]
  refine (decode_27 _ (fOp_encVS ..)).trans ?_
  simp [decodeConvert, want, fFlags7, fFlag]

theorem Laws.Encodes.vredo (d : _) (a : _) (b : _) (c : _) : Laws.Encodes.Statement (.vredo d a b c) := by
  intro _ _
  rw [encode]
  refine (decode_28 _ (fOp_encVS ..)).trans ?_
  simp [decodeReduce, want, fFlags7, fFlag]

theorem Laws.Encodes.vredt (d : _) (a : _) (b : _) (c : _) : Laws.Encodes.Statement (.vredt d a b c) := by
  intro _ _
  rw [encode]
  refine (decode_28 _ (fOp_encVS ..)).trans ?_
  simp [decodeReduce, want, fFlags7, fFlag]

theorem Laws.Encodes.vredmin (d : _) (a : _) (b : _) (c : _) : Laws.Encodes.Statement (.vredmin d a b c) := by
  intro _ _
  rw [encode]
  refine (decode_28 _ (fOp_encVS ..)).trans ?_
  simp [decodeReduce, want, fFlags7, fFlag]

theorem Laws.Encodes.vredmax (d : _) (a : _) (b : _) (c : _) : Laws.Encodes.Statement (.vredmax d a b c) := by
  intro _ _
  rw [encode]
  refine (decode_28 _ (fOp_encVS ..)).trans ?_
  simp [decodeReduce, want, fFlags7, fFlag]

theorem Laws.Encodes.vslideup (d : _) (a : _) (b : _) (c : _) : Laws.Encodes.Statement (.vslideup d a b c) := by
  intro _ _
  rw [encode]
  refine (decode_29 _ (fOp_encVS ..)).trans ?_
  simp [decodePermute, want, fFlags7, fFlag]

theorem Laws.Encodes.vslidedn (d : _) (a : _) (b : _) (c : _) : Laws.Encodes.Statement (.vslidedn d a b c) := by
  intro _ _
  rw [encode]
  refine (decode_29 _ (fOp_encVS ..)).trans ?_
  simp [decodePermute, want, fFlags7, fFlag]

theorem Laws.Encodes.vgath (d : _) (a : _) (b : _) (c : _) (e : _) : Laws.Encodes.Statement (.vgath d a b c e) := by
  intro _ _
  rw [encode]
  refine (decode_29 _ (fOp_encVS ..)).trans ?_
  simp [decodePermute, want, fFlags7, fFlag]

theorem Laws.Encodes.vcompress (d : _) (a : _) (b : _) (c : _) : Laws.Encodes.Statement (.vcompress d a b c) := by
  intro h _
  rw [encode]
  refine (decode_29 _ (fOp_encVS ..)).trans ?_
  simp [decodePermute, want, fFlags7, fFlag, Instr.wf] at h ⊢

theorem Laws.Encodes.vexpand (d : _) (a : _) (b : _) (c : _) : Laws.Encodes.Statement (.vexpand d a b c) := by
  intro h _
  rw [encode]
  refine (decode_29 _ (fOp_encVS ..)).trans ?_
  simp [decodePermute, want, fFlags7, fFlag, Instr.wf] at h ⊢

theorem Laws.Encodes.vbcast (d : _) (a : _) : Laws.Encodes.Statement (.vbcast d a) := by
  intro _ _
  rw [encode]
  refine (decode_29 _ (fOp_encVS ..)).trans ?_
  simp [decodePermute, want, fFlags7, fFlag]

theorem Laws.Encodes.vext (d : _) (a : _) (b : _) (c : _) : Laws.Encodes.Statement (.vext d a b c) := by
  intro _ _
  rw [encode]
  refine (decode_29 _ (fOp_encVS ..)).trans ?_
  simp [decodePermute, want, fFlags7, fFlag]

theorem Laws.Encodes.vins (d : _) (a : _) (b : _) : Laws.Encodes.Statement (.vins d a b) := by
  intro _ _
  rw [encode]
  refine (decode_29 _ (fOp_encVS ..)).trans ?_
  simp [decodePermute, want, fFlags7, fFlag]

theorem Laws.Encodes.vmv (d : _) (a : _) (c : _) : Laws.Encodes.Statement (.vmv d a c) := by
  intro _ _
  rw [encode]
  refine (decode_29 _ (fOp_encVS ..)).trans ?_
  simp [decodePermute, want, fFlags7, fFlag]

theorem Laws.Encodes.vld (d : _) (a : _) : Laws.Encodes.Statement (.vld d a) := by
  intro _ _
  rw [encode]
  refine (decode_2a _ (fOp_encVS ..)).trans ?_
  simp [decodeVLoad, want, fFlags7, fFlag]

theorem Laws.Encodes.vldS (d : _) (a : _) (b : _) : Laws.Encodes.Statement (.vldS d a b) := by
  intro _ _
  rw [encode]
  refine (decode_2a _ (fOp_encVS ..)).trans ?_
  simp [decodeVLoad, want, fFlags7, fFlag]

theorem Laws.Encodes.vldX (d : _) (a : _) (b : _) (e : _) : Laws.Encodes.Statement (.vldX d a b e) := by
  intro _ _
  rw [encode]
  refine (decode_2a _ (fOp_encVS ..)).trans ?_
  simp [decodeVLoad, want, fFlags7, fFlag]

theorem Laws.Encodes.vst (d : _) (a : _) : Laws.Encodes.Statement (.vst d a) := by
  intro _ _
  rw [encode]
  refine (decode_2b _ (fOp_encVS ..)).trans ?_
  simp [decodeVStore, want, fFlags7, fFlag]

theorem Laws.Encodes.vstS (d : _) (a : _) (b : _) : Laws.Encodes.Statement (.vstS d a b) := by
  intro _ _
  rw [encode]
  refine (decode_2b _ (fOp_encVS ..)).trans ?_
  simp [decodeVStore, want, fFlags7, fFlag]

theorem Laws.Encodes.vstX (d : _) (a : _) (b : _) (e : _) : Laws.Encodes.Statement (.vstX d a b e) := by
  intro _ _
  rw [encode]
  refine (decode_2b _ (fOp_encVS ..)).trans ?_
  simp [decodeVStore, want, fFlags7, fFlag]

theorem Laws.Encodes.vamoAdd (d : _) (a : _) (b : _) (e : _) : Laws.Encodes.Statement (.vamoAdd d a b e) := by
  intro _ _
  rw [encode]
  refine (decode_2c _ (fOp_encVS ..)).trans ?_
  simp [decodeVAmo, want, fFlags7, fFlag]

theorem Laws.Encodes.vamoAddRet (d : _) (a : _) (b : _) (e : _) : Laws.Encodes.Statement (.vamoAddRet d a b e) := by
  intro _ _
  rw [encode]
  refine (decode_2c _ (fOp_encVS ..)).trans ?_
  simp [decodeVAmo, want, fFlags7, fFlag]

theorem Laws.Encodes.vamoAnd (d : _) (a : _) (b : _) (e : _) : Laws.Encodes.Statement (.vamoAnd d a b e) := by
  intro _ _
  rw [encode]
  refine (decode_2c _ (fOp_encVS ..)).trans ?_
  simp [decodeVAmo, want, fFlags7, fFlag]

theorem Laws.Encodes.vamoAndRet (d : _) (a : _) (b : _) (e : _) : Laws.Encodes.Statement (.vamoAndRet d a b e) := by
  intro _ _
  rw [encode]
  refine (decode_2c _ (fOp_encVS ..)).trans ?_
  simp [decodeVAmo, want, fFlags7, fFlag]

theorem Laws.Encodes.vamoOr (d : _) (a : _) (b : _) (e : _) : Laws.Encodes.Statement (.vamoOr d a b e) := by
  intro _ _
  rw [encode]
  refine (decode_2c _ (fOp_encVS ..)).trans ?_
  simp [decodeVAmo, want, fFlags7, fFlag]

theorem Laws.Encodes.vamoOrRet (d : _) (a : _) (b : _) (e : _) : Laws.Encodes.Statement (.vamoOrRet d a b e) := by
  intro _ _
  rw [encode]
  refine (decode_2c _ (fOp_encVS ..)).trans ?_
  simp [decodeVAmo, want, fFlags7, fFlag]

theorem Laws.Encodes.vamoXor (d : _) (a : _) (b : _) (e : _) : Laws.Encodes.Statement (.vamoXor d a b e) := by
  intro _ _
  rw [encode]
  refine (decode_2c _ (fOp_encVS ..)).trans ?_
  simp [decodeVAmo, want, fFlags7, fFlag]

theorem Laws.Encodes.vamoXorRet (d : _) (a : _) (b : _) (e : _) : Laws.Encodes.Statement (.vamoXorRet d a b e) := by
  intro _ _
  rw [encode]
  refine (decode_2c _ (fOp_encVS ..)).trans ?_
  simp [decodeVAmo, want, fFlags7, fFlag]

theorem Laws.Encodes.vamoMin (d : _) (a : _) (b : _) (e : _) : Laws.Encodes.Statement (.vamoMin d a b e) := by
  intro _ _
  rw [encode]
  refine (decode_2c _ (fOp_encVS ..)).trans ?_
  simp [decodeVAmo, want, fFlags7, fFlag]

theorem Laws.Encodes.vamoMinRet (d : _) (a : _) (b : _) (e : _) : Laws.Encodes.Statement (.vamoMinRet d a b e) := by
  intro _ _
  rw [encode]
  refine (decode_2c _ (fOp_encVS ..)).trans ?_
  simp [decodeVAmo, want, fFlags7, fFlag]

theorem Laws.Encodes.vamoMax (d : _) (a : _) (b : _) (e : _) : Laws.Encodes.Statement (.vamoMax d a b e) := by
  intro _ _
  rw [encode]
  refine (decode_2c _ (fOp_encVS ..)).trans ?_
  simp [decodeVAmo, want, fFlags7, fFlag]

theorem Laws.Encodes.vamoMaxRet (d : _) (a : _) (b : _) (e : _) : Laws.Encodes.Statement (.vamoMaxRet d a b e) := by
  intro _ _
  rw [encode]
  refine (decode_2c _ (fOp_encVS ..)).trans ?_
  simp [decodeVAmo, want, fFlags7, fFlag]

theorem Laws.Encodes.vamoMinu (d : _) (a : _) (b : _) (e : _) : Laws.Encodes.Statement (.vamoMinu d a b e) := by
  intro _ _
  rw [encode]
  refine (decode_2c _ (fOp_encVS ..)).trans ?_
  simp [decodeVAmo, want, fFlags7, fFlag]

theorem Laws.Encodes.vamoMinuRet (d : _) (a : _) (b : _) (e : _) : Laws.Encodes.Statement (.vamoMinuRet d a b e) := by
  intro _ _
  rw [encode]
  refine (decode_2c _ (fOp_encVS ..)).trans ?_
  simp [decodeVAmo, want, fFlags7, fFlag]

theorem Laws.Encodes.vamoMaxu (d : _) (a : _) (b : _) (e : _) : Laws.Encodes.Statement (.vamoMaxu d a b e) := by
  intro _ _
  rw [encode]
  refine (decode_2c _ (fOp_encVS ..)).trans ?_
  simp [decodeVAmo, want, fFlags7, fFlag]

theorem Laws.Encodes.vamoMaxuRet (d : _) (a : _) (b : _) (e : _) : Laws.Encodes.Statement (.vamoMaxuRet d a b e) := by
  intro _ _
  rw [encode]
  refine (decode_2c _ (fOp_encVS ..)).trans ?_
  simp [decodeVAmo, want, fFlags7, fFlag]

theorem Laws.Encodes.vamoSwap (d : _) (a : _) (b : _) (e : _) : Laws.Encodes.Statement (.vamoSwap d a b e) := by
  intro _ _
  rw [encode]
  refine (decode_2c _ (fOp_encVS ..)).trans ?_
  simp [decodeVAmo, want, fFlags7, fFlag]

theorem Laws.Encodes.vamoSwapRet (d : _) (a : _) (b : _) (e : _) : Laws.Encodes.Statement (.vamoSwapRet d a b e) := by
  intro _ _
  rw [encode]
  refine (decode_2c _ (fOp_encVS ..)).trans ?_
  simp [decodeVAmo, want, fFlags7, fFlag]

theorem Laws.Encodes.vamoFadd (d : _) (a : _) (b : _) (e : _) : Laws.Encodes.Statement (.vamoFadd d a b e) := by
  intro _ _
  rw [encode]
  refine (decode_2c _ (fOp_encVS ..)).trans ?_
  simp [decodeVAmo, want, fFlags7, fFlag]

theorem Laws.Encodes.vamoFaddRet (d : _) (a : _) (b : _) (e : _) : Laws.Encodes.Statement (.vamoFaddRet d a b e) := by
  intro _ _
  rw [encode]
  refine (decode_2c _ (fOp_encVS ..)).trans ?_
  simp [decodeVAmo, want, fFlags7, fFlag]

theorem Laws.Encodes.vdrain : Laws.Encodes.Statement (.vdrain) := by
  intro _ _
  rw [encode]
  refine (decode_2d _ (fOp_encVS ..)).trans ?_
  simp [decodeVDrain, want, fFlags7, fFlag]

theorem Laws.Encodes.vpref (a : _) : Laws.Encodes.Statement (.vpref a) := by
  intro _ _
  rw [encode]
  refine (decode_2d _ (fOp_encVS ..)).trans ?_
  simp [decodeVDrain, want, fFlags7, fFlag]

theorem Laws.Encodes.fld (d : _) (a : _) (b : _) : Laws.Encodes.Statement (.fld d a b) := by
  intro h _
  rw [encode]
  refine (decode_2e _ (fOp_encVS ..)).trans ?_
  simp [decodeFibreMem, want, fFlags7, fFlag, Instr.wf] at h ⊢

theorem Laws.Encodes.fst (d : _) (a : _) : Laws.Encodes.Statement (.fst d a) := by
  intro h _
  rw [encode]
  refine (decode_2e _ (fOp_encVS ..)).trans ?_
  simp [decodeFibreMem, want, fFlags7, fFlag, Instr.wf] at h ⊢

theorem Laws.Encodes.fwalk (d : _) (a : _) (b : _) : Laws.Encodes.Statement (.fwalk d a b) := by
  intro h _
  rw [encode]
  refine (decode_2e _ (fOp_encVS ..)).trans ?_
  simp [decodeFibreMem, want, fFlags7, fFlag, Instr.wf] at h ⊢

theorem Laws.Encodes.finter (d : _) (a : _) (b : _) (k : _) : Laws.Encodes.Statement (.finter d a b k) := by
  intro h _
  rw [encode]
  refine (decode_2f _ (fOp_encVS ..)).trans ?_
  simp only [decodeJoin, fOp_encVS, fD_encVS, fA_encVS, fB_encVS, fC_encVS, fE_encVS, fFn_encVS, fHi4_split, fScope_split, fComb_split, fLow3_split, fP_tile, fT_tile, fTop3_tile, fMem_tile]
  have hk : k < 6#3 := by simp [Instr.wf] at h; exact h.2
  simp [want, comb_ne k hk] 

theorem Laws.Encodes.funion (d : _) (a : _) (b : _) (k : _) : Laws.Encodes.Statement (.funion d a b k) := by
  intro h _
  rw [encode]
  refine (decode_2f _ (fOp_encVS ..)).trans ?_
  simp only [decodeJoin, fOp_encVS, fD_encVS, fA_encVS, fB_encVS, fC_encVS, fE_encVS, fFn_encVS, fHi4_split, fScope_split, fComb_split, fLow3_split, fP_tile, fT_tile, fTop3_tile, fMem_tile]
  have hk : k < 6#3 := by simp [Instr.wf] at h; exact h.1.1.2
  simp [want, comb_ne k hk] 

theorem Laws.Encodes.fmerge (d : _) (a : _) (b : _) (k : _) : Laws.Encodes.Statement (.fmerge d a b k) := by
  intro h _
  rw [encode]
  refine (decode_2f _ (fOp_encVS ..)).trans ?_
  simp only [decodeJoin, fOp_encVS, fD_encVS, fA_encVS, fB_encVS, fC_encVS, fE_encVS, fFn_encVS, fHi4_split, fScope_split, fComb_split, fLow3_split, fP_tile, fT_tile, fTop3_tile, fMem_tile]
  have hk : k < 6#3 := by simp [Instr.wf] at h; exact h.1.1.1.2
  simp [want, comb_ne k hk] 

theorem Laws.Encodes.fcompact (d : _) (a : _) (b : _) (c : _) : Laws.Encodes.Statement (.fcompact d a b c) := by
  intro h _
  rw [encode]
  refine (decode_30 _ (fOp_encVS ..)).trans ?_
  simp [decodeFibreDense, want, fFlags7, fFlag, Instr.wf] at h ⊢

theorem Laws.Encodes.fexpand (d : _) (a : _) : Laws.Encodes.Statement (.fexpand d a) := by
  intro h _
  rw [encode]
  refine (decode_30 _ (fOp_encVS ..)).trans ?_
  simp [decodeFibreDense, want, fFlags7, fFlag, Instr.wf] at h ⊢

theorem Laws.Encodes.fgath (d : _) (a : _) : Laws.Encodes.Statement (.fgath d a) := by
  intro h _
  rw [encode]
  refine (decode_30 _ (fOp_encVS ..)).trans ?_
  simp [decodeFibreDense, want, fFlags7, fFlag, Instr.wf] at h ⊢

theorem Laws.Encodes.fscat (d : _) (a : _) : Laws.Encodes.Statement (.fscat d a) := by
  intro h _
  rw [encode]
  refine (decode_30 _ (fOp_encVS ..)).trans ?_
  simp [decodeFibreDense, want, fFlags7, fFlag, Instr.wf] at h ⊢

theorem Laws.Encodes.flen (d : _) (a : _) : Laws.Encodes.Statement (.flen d a) := by
  intro h _
  rw [encode]
  refine (decode_31 _ (fOp_encVS ..)).trans ?_
  simp [decodeFibreHouse, want, fFlags7, fFlag, Instr.wf] at h ⊢

theorem Laws.Encodes.fclr (d : _) : Laws.Encodes.Statement (.fclr d) := by
  intro h _
  rw [encode]
  refine (decode_31 _ (fOp_encVS ..)).trans ?_
  simp [decodeFibreHouse, want, fFlags7, fFlag, Instr.wf] at h ⊢

theorem Laws.Encodes.fcopy (d : _) (a : _) : Laws.Encodes.Statement (.fcopy d a) := by
  intro h _
  rw [encode]
  refine (decode_31 _ (fOp_encVS ..)).trans ?_
  simp [decodeFibreHouse, want, fFlags7, fFlag, Instr.wf] at h ⊢

theorem Laws.Encodes.mattach (d : _) (a : _) : Laws.Encodes.Statement (.mattach d a) := by
  intro _ _
  rw [encode]
  refine (decode_32 _ (fOp_encVS ..)).trans ?_
  simp [decodeAttach, want, fFlags7, fFlag]

theorem Laws.Encodes.mdetach : Laws.Encodes.Statement (.mdetach) := by
  intro _ _
  rw [encode]
  refine (decode_32 _ (fOp_encVS ..)).trans ?_
  simp [decodeAttach, want, fFlags7, fFlag]

theorem Laws.Encodes.mmode (d : _) (a : _) : Laws.Encodes.Statement (.mmode d a) := by
  intro _ _
  rw [encode]
  refine (decode_32 _ (fOp_encVS ..)).trans ?_
  simp [decodeAttach, want, fFlags7, fFlag]

theorem Laws.Encodes.mzero (t : _) : Laws.Encodes.Statement (.mzero t) := by
  intro _ _
  rw [encode]
  refine (decode_33 _ (fOp_encVS ..)).trans ?_
  simp only [decodeMop, fOp_encVS, fD_encVS, fA_encVS, fB_encVS, fC_encVS, fE_encVS, fFn_encVS, fHi4_split, fScope_split, fComb_split, fLow3_split, fP_tile, fT_tile, fTop3_tile, fMem_tile]
  simp [want, extract_high, extract_all]

theorem Laws.Encodes.mopVv (p : _) (t : _) (a : _) (b : _) (c : _) (e : _) : Laws.Encodes.Statement (.mopVv p t a b c e) := by
  intro _ _
  rw [encode]
  refine (decode_33 _ (fOp_encVS ..)).trans ?_
  simp only [decodeMop, fOp_encVS, fD_encVS, fA_encVS, fB_encVS, fC_encVS, fE_encVS, fFn_encVS, fHi4_split, fScope_split, fComb_split, fLow3_split, fP_tile, fT_tile, fTop3_tile, fMem_tile]
  simp [want, extract_high, extract_all]

theorem Laws.Encodes.mopSv (p : _) (t : _) (a : _) (b : _) (e : _) : Laws.Encodes.Statement (.mopSv p t a b e) := by
  intro h _
  rw [encode]
  refine (decode_33 _ (fOp_encVS ..)).trans ?_
  simp only [decodeMop, fOp_encVS, fD_encVS, fA_encVS, fB_encVS, fC_encVS, fE_encVS, fFn_encVS, fHi4_split, fScope_split, fComb_split, fLow3_split, fP_tile, fT_tile, fTop3_tile, fMem_tile]
  simp [want, extract_high, extract_all, Instr.wf] at h ⊢

theorem Laws.Encodes.mopSs (p : _) (t : _) (a : _) (b : _) : Laws.Encodes.Statement (.mopSs p t a b) := by
  intro h _
  rw [encode]
  refine (decode_33 _ (fOp_encVS ..)).trans ?_
  simp only [decodeMop, fOp_encVS, fD_encVS, fA_encVS, fB_encVS, fC_encVS, fE_encVS, fFn_encVS, fHi4_split, fScope_split, fComb_split, fLow3_split, fP_tile, fT_tile, fTop3_tile, fMem_tile]
  simp [want, extract_high, extract_all, Instr.wf] at h ⊢

theorem Laws.Encodes.mldaV (t : _) (a : _) (b : _) (c : _) : Laws.Encodes.Statement (.mldaV t a b c) := by
  intro _ _
  rw [encode]
  refine (decode_34 _ (fOp_encVS ..)).trans ?_
  simp only [decodeTileMove, fOp_encVS, fD_encVS, fA_encVS, fB_encVS, fC_encVS, fE_encVS, fFn_encVS, fHi4_split, fScope_split, fComb_split, fLow3_split, fP_tile, fT_tile, fTop3_tile, fMem_tile]
  simp [want, extract_high, extract_all]

theorem Laws.Encodes.mldaS (t : _) (a : _) (b : _) : Laws.Encodes.Statement (.mldaS t a b) := by
  intro _ _
  rw [encode]
  refine (decode_34 _ (fOp_encVS ..)).trans ?_
  simp only [decodeTileMove, fOp_encVS, fD_encVS, fA_encVS, fB_encVS, fC_encVS, fE_encVS, fFn_encVS, fHi4_split, fScope_split, fComb_split, fLow3_split, fP_tile, fT_tile, fTop3_tile, fMem_tile]
  simp [want, extract_high, extract_all]

theorem Laws.Encodes.mstaV (t : _) (a : _) (b : _) : Laws.Encodes.Statement (.mstaV t a b) := by
  intro _ _
  rw [encode]
  refine (decode_34 _ (fOp_encVS ..)).trans ?_
  simp only [decodeTileMove, fOp_encVS, fD_encVS, fA_encVS, fB_encVS, fC_encVS, fE_encVS, fFn_encVS, fHi4_split, fScope_split, fComb_split, fLow3_split, fP_tile, fT_tile, fTop3_tile, fMem_tile]
  simp [want, extract_high, extract_all]

theorem Laws.Encodes.mstaS (t : _) (a : _) (b : _) : Laws.Encodes.Statement (.mstaS t a b) := by
  intro _ _
  rw [encode]
  refine (decode_34 _ (fOp_encVS ..)).trans ?_
  simp only [decodeTileMove, fOp_encVS, fD_encVS, fA_encVS, fB_encVS, fC_encVS, fE_encVS, fFn_encVS, fHi4_split, fScope_split, fComb_split, fLow3_split, fP_tile, fT_tile, fTop3_tile, fMem_tile]
  simp [want, extract_high, extract_all]

theorem Laws.Encodes.mprune (d : _) (a : _) (b : _) (c : _) : Laws.Encodes.Statement (.mprune d a b c) := by
  intro h _
  rw [encode]
  refine (decode_35 _ (fOp_encVS ..)).trans ?_
  simp [decodePrune, want, fFlags7, fFlag, Instr.wf] at h ⊢

theorem Laws.Encodes.cpy (d : _) (a : _) (b : _) : Laws.Encodes.Statement (.cpy d a b) := by
  intro _ _
  rw [encode]
  refine (decode_36 _ (fOp_encVS ..)).trans ?_
  simp [decodeCopy, want, fFlags7, fFlag]

theorem Laws.Encodes.cpym (d : _) (a : _) (b : _) : Laws.Encodes.Statement (.cpym d a b) := by
  intro _ _
  rw [encode]
  refine (decode_36 _ (fOp_encVS ..)).trans ?_
  simp [decodeCopy, want, fFlags7, fFlag]

theorem Laws.Encodes.smode (d : _) (a : _) : Laws.Encodes.Statement (.smode d a) := by
  intro h _
  rw [encode]
  refine (decode_36 _ (fOp_encVS ..)).trans ?_
  simp [decodeCopy, want, fFlags7, fFlag, Instr.wf] at h ⊢

theorem Laws.Encodes.sstop (d : _) : Laws.Encodes.Statement (.sstop d) := by
  intro _ _
  rw [encode]
  refine (decode_36 _ (fOp_encVS ..)).trans ?_
  simp [decodeCopy, want, fFlags7, fFlag]

theorem Laws.Encodes.twaitAny (d : _) (a : _) : Laws.Encodes.Statement (.twaitAny d a) := by
  intro _ _
  rw [encode]
  refine (decode_37 _ (fOp_encVS ..)).trans ?_
  simp [decodeTags, want, fFlags7, fFlag]

theorem Laws.Encodes.twaitAll (d : _) (a : _) : Laws.Encodes.Statement (.twaitAll d a) := by
  intro _ _
  rw [encode]
  refine (decode_37 _ (fOp_encVS ..)).trans ?_
  simp [decodeTags, want, fFlags7, fFlag]

theorem Laws.Encodes.tffr (d : _) (a : _) : Laws.Encodes.Statement (.tffr d a) := by
  intro _ _
  rw [encode]
  refine (decode_37 _ (fOp_encVS ..)).trans ?_
  simp [decodeTags, want, fFlags7, fFlag]

theorem Laws.Encodes.barinit (a : _) (b : _) : Laws.Encodes.Statement (.barinit a b) := by
  intro _ _
  rw [encode]
  refine (decode_37 _ (fOp_encVS ..)).trans ?_
  simp [decodeTags, want, fFlags7, fFlag]

theorem Laws.Encodes.barexp (a : _) (b : _) : Laws.Encodes.Statement (.barexp a b) := by
  intro _ _
  rw [encode]
  refine (decode_37 _ (fOp_encVS ..)).trans ?_
  simp [decodeTags, want, fFlags7, fFlag]

theorem Laws.Encodes.bararr (d : _) (a : _) : Laws.Encodes.Statement (.bararr d a) := by
  intro _ _
  rw [encode]
  refine (decode_37 _ (fOp_encVS ..)).trans ?_
  simp [decodeTags, want, fFlags7, fFlag]

theorem Laws.Encodes.barwait (d : _) (a : _) (b : _) : Laws.Encodes.Statement (.barwait d a b) := by
  intro _ _
  rw [encode]
  refine (decode_37 _ (fOp_encVS ..)).trans ?_
  simp [decodeTags, want, fFlags7, fFlag]

theorem Laws.Encodes.rwb (a : _) (b : _) : Laws.Encodes.Statement (.rwb a b) := by
  intro _ _
  rw [encode]
  refine (decode_38 _ (fOp_encVS ..)).trans ?_
  simp [decodeRange, want, fFlags7, fFlag]

theorem Laws.Encodes.rinv (a : _) (b : _) : Laws.Encodes.Statement (.rinv a b) := by
  intro _ _
  rw [encode]
  refine (decode_38 _ (fOp_encVS ..)).trans ?_
  simp [decodeRange, want, fFlags7, fFlag]

theorem Laws.Encodes.rgndecl (d : _) (a : _) : Laws.Encodes.Statement (.rgndecl d a) := by
  intro _ _
  rw [encode]
  refine (decode_38 _ (fOp_encVS ..)).trans ?_
  simp [decodeRange, want, fFlags7, fFlag]

theorem Laws.Encodes.rgnfree (a : _) : Laws.Encodes.Statement (.rgnfree a) := by
  intro _ _
  rw [encode]
  refine (decode_38 _ (fOp_encVS ..)).trans ?_
  simp [decodeRange, want, fFlags7, fFlag]

theorem Laws.Encodes.cways (d : _) (a : _) : Laws.Encodes.Statement (.cways d a) := by
  intro _ _
  rw [encode]
  refine (decode_38 _ (fOp_encVS ..)).trans ?_
  simp [decodeRange, want, fFlags7, fFlag]

theorem Laws.Encodes.live (a : _) (b : _) : Laws.Encodes.Statement (.live a b) := by
  intro _ _
  rw [encode]
  refine (decode_38 _ (fOp_encVS ..)).trans ?_
  simp [decodeRange, want, fFlags7, fFlag]

theorem Laws.Encodes.dead (a : _) (b : _) : Laws.Encodes.Statement (.dead a b) := by
  intro _ _
  rw [encode]
  refine (decode_38 _ (fOp_encVS ..)).trans ?_
  simp [decodeRange, want, fFlags7, fFlag]

theorem Laws.Encodes.chkbeg : Laws.Encodes.Statement (.chkbeg) := by
  intro _ _
  rw [encode]
  refine (decode_39 _ (fOp_encVS ..)).trans ?_
  simp [decodeChunk, want, fFlags7, fFlag]

theorem Laws.Encodes.chkend : Laws.Encodes.Statement (.chkend) := by
  intro _ _
  rw [encode]
  refine (decode_39 _ (fOp_encVS ..)).trans ?_
  simp [decodeChunk, want, fFlags7, fFlag]

theorem Laws.Encodes.chkstat (d : _) : Laws.Encodes.Statement (.chkstat d) := by
  intro _ _
  rw [encode]
  refine (decode_39 _ (fOp_encVS ..)).trans ?_
  simp [decodeChunk, want, fFlags7, fFlag]

theorem Laws.Encodes.launch (d : _) (a : _) : Laws.Encodes.Statement (.launch d a) := by
  intro _ _
  rw [encode]
  refine (decode_3a _ (fOp_encVS ..)).trans ?_
  simp [decodeThread, want, fFlags7, fFlag]

theorem Laws.Encodes.texit : Laws.Encodes.Statement (.texit) := by
  intro _ _
  rw [encode]
  refine (decode_3a _ (fOp_encVS ..)).trans ?_
  simp [decodeThread, want, fFlags7, fFlag]

theorem Laws.Encodes.tyield : Laws.Encodes.Statement (.tyield) := by
  intro _ _
  rw [encode]
  refine (decode_3a _ (fOp_encVS ..)).trans ?_
  simp [decodeThread, want, fFlags7, fFlag]

theorem Laws.Encodes.sbar (d : _) (a : _) : Laws.Encodes.Statement (.sbar d a) := by
  intro _ _
  rw [encode]
  refine (decode_3a _ (fOp_encVS ..)).trans ?_
  simp [decodeThread, want, fFlags7, fFlag]

theorem Laws.Encodes.sarrive (d : _) (a : _) : Laws.Encodes.Statement (.sarrive d a) := by
  intro _ _
  rw [encode]
  refine (decode_3a _ (fOp_encVS ..)).trans ?_
  simp [decodeThread, want, fFlags7, fFlag]

theorem Laws.Encodes.swait (d : _) (a : _) (b : _) : Laws.Encodes.Statement (.swait d a b) := by
  intro _ _
  rw [encode]
  refine (decode_3a _ (fOp_encVS ..)).trans ?_
  simp [decodeThread, want, fFlags7, fFlag]

theorem Laws.Encodes.stest (d : _) (a : _) : Laws.Encodes.Statement (.stest d a) := by
  intro _ _
  rw [encode]
  refine (decode_3a _ (fOp_encVS ..)).trans ?_
  simp [decodeThread, want, fFlags7, fFlag]

theorem Laws.Encodes.bkstart (d : _) (a : _) (b : _) : Laws.Encodes.Statement (.bkstart d a b) := by
  intro _ _
  rw [encode]
  refine (decode_3b _ (fOp_encVS ..)).trans ?_
  simp [decodeBucking, want, fFlags7, fFlag]

theorem Laws.Encodes.bkresume (d : _) (a : _) (b : _) : Laws.Encodes.Statement (.bkresume d a b) := by
  intro _ _
  rw [encode]
  refine (decode_3b _ (fOp_encVS ..)).trans ?_
  simp [decodeBucking, want, fFlags7, fFlag]

theorem Laws.Encodes.bkstat (d : _) (a : _) : Laws.Encodes.Statement (.bkstat d a) := by
  intro _ _
  rw [encode]
  refine (decode_3b _ (fOp_encVS ..)).trans ?_
  simp [decodeBucking, want, fFlags7, fFlag]

theorem Laws.Encodes.fadd (d : _) (a : _) (b : _) : Laws.Encodes.Statement (.fadd d a b) := by
  intro _ _
  rw [encode]
  refine (decode_3c _ (fOp_encVS ..)).trans ?_
  simp [decodeFloat, want, fFlags7, fFlag]

theorem Laws.Encodes.fsub (d : _) (a : _) (b : _) : Laws.Encodes.Statement (.fsub d a b) := by
  intro _ _
  rw [encode]
  refine (decode_3c _ (fOp_encVS ..)).trans ?_
  simp [decodeFloat, want, fFlags7, fFlag]

theorem Laws.Encodes.fmul (d : _) (a : _) (b : _) : Laws.Encodes.Statement (.fmul d a b) := by
  intro _ _
  rw [encode]
  refine (decode_3c _ (fOp_encVS ..)).trans ?_
  simp [decodeFloat, want, fFlags7, fFlag]

theorem Laws.Encodes.fdiv (d : _) (a : _) (b : _) : Laws.Encodes.Statement (.fdiv d a b) := by
  intro _ _
  rw [encode]
  refine (decode_3c _ (fOp_encVS ..)).trans ?_
  simp [decodeFloat, want, fFlags7, fFlag]

theorem Laws.Encodes.fsqrt (d : _) (a : _) : Laws.Encodes.Statement (.fsqrt d a) := by
  intro _ _
  rw [encode]
  refine (decode_3c _ (fOp_encVS ..)).trans ?_
  simp [decodeFloat, want, fFlags7, fFlag]

theorem Laws.Encodes.fcvt (d : _) (a : _) (b : _) : Laws.Encodes.Statement (.fcvt d a b) := by
  intro h _
  rw [encode]
  refine (decode_3c _ (fOp_encVS ..)).trans ?_
  simp [decodeFloat, want, fFlags7, fFlag, Instr.wf] at h ⊢

end Sys2Proof
end

