-- ==== Sys2Proof/Laws/Places.lean ====
section
/-! SUPPORT. Accesses that do not stay in the chunk's own memory (09): DEV pages, the register window, other devices, loads that are
put off, and atomics placed far. -/

set_option linter.unusedSimpArgs false
set_option Elab.async false

namespace Sys2Proof.Machine

theorem alone_run {r : Running} {k : Chunk} (h : r.t.chunk = some k) (he : k.explicit = false) (hi : k.icount = 0) (va : Nat) :
    alone va r = .ok () { r with ends := true } := by
  simp only [alone, explicitChunk, begun, run_bind, run_getT, run_pure, run_ite, h, Option.any_some, he, hi, Nat.lt_irrefl, decide_false,
    Bool.false_eq_true, if_false]
  rfl

/-- The thread of a chunk of its own, after an access that stands alone. -/
theorem Idle.stands {s t} (q : Idle s t) (a : Access) : Bare ((opened s t).notePage a.entry) ∧
    ((opened s t).notePage a.entry).icount = 0 ∧ ((opened s t).notePage a.entry).reads = [] := by
  have b : Bare (opened s t) := opened_bare q.chunk
  have hi : (opened s t).icount = 0 := by simp [opened, q.chunk]
  have hr : (opened s t).reads = [] := by simp [opened, q.chunk]
  unfold Chunk.notePage
  split
  · exact ⟨b, hi, hr⟩
  · exact ⟨{ b with }, hi, hr⟩

/-- An access that stands alone at the opening of the thread's chunk. -/
theorem Idle.stood {s t} (q : Idle s t) (a : Access) (va : Nat) (w : State) :
    alone va (Running.mk w { t with chunk := some ((opened s t).notePage a.entry) } none [] false 0 (0, [])) =
      .ok () (Running.mk w { t with chunk := some ((opened s t).notePage a.entry) } none [] true 0 (0, [])) :=
  alone_run rfl (q.stands a).1.explicit (q.stands a).2.1 va

/-- An own part that stands alone and leaves its chunk empty: it commits. -/
theorem stands_alone {s t s'} (q : Idle s t) (qf : Free s t) {a : Access} {c : Ctx} {body : Exec Next}
    (h : body (atBody s t) = .ok .seq (Running.mk s' { t with ctx := c, chunk := some ((opened s t).notePage a.entry) } none [] true 0 (0, [])))
    (hs : s'.ticket = s.ticket) (hc : ∀ c ∈ s'.copies, c ∈ s.copies) :
    control {} body s = .next (settled s' { t.past with ctx := c.next } []) := by
  obtain ⟨b, -, hr⟩ := q.stands a
  rw [control_closes (u := { t with ctx := c }) (k := (opened s t).notePage a.entry) (g := (0, [])) q.toReady (.inl rfl) rfl h
    (qf.clear hs q.replies) b.toSpare q.deferred q.pend (fun c h e => q.forked c (hc c h) e) (by rw [b.writes]; exact held_nil _ _),
    settledWith_bare _ _ b, hr]
  rfl

theorem mayDefer_dev {r : Running} (pa : Nat) : mayDefer (.dev pa) r = .ok false r := by
  cases hx : r.t.chunk.any (·.explicit) <;>
    simp only [mayDefer, explicitChunk, run_bind, run_getS, run_getT, run_pure, run_ite, hx, if_true, Bool.false_eq_true, if_false]

theorem mayDefer_window {r : Running} (off : Nat) : mayDefer (.registers off) r = .ok false r := by
  cases hx : r.t.chunk.any (·.explicit) <;>
    simp only [mayDefer, explicitChunk, run_bind, run_getS, run_getT, run_pure, run_ite, hx, if_true, Bool.false_eq_true, if_false]

theorem countDead_ticket (s : State) (l : Nat) : (s.countDead l).ticket = s.ticket := by unfold State.countDead; split <;> rfl
theorem countDead_copies (s : State) (l : Nat) : (s.countDead l).copies = s.copies := by unfold State.countDead; split <;> rfl
theorem countDead_fabric (s : State) (l : Nat) : (s.countDead l).fabric = s.fabric := by unfold State.countDead; split <;> rfl

/-- A load of a DEV page (R195). -/
theorem loadDev_done {s t} (q : Idle s t) (qf : Free s t) (n : Nat) (ext : Ext) (d b : BitVec 6) (o : BitVec 11) (va : Word)
    (hva : va = scalarAddr (t.ctx.xAt b) o n) (hal : va.toNat % n = 0) {a : Access} {hit : Bool} {pa : Nat}
    (L : Lands s t .load va.toNat a hit (.dev pa)) (hp : s.poisonTrap va.toNat pa n = none) :
    loadAt n ext d b o s = .next (settled ((s.keepEntry t.coreNum a hit).countDead pa)
      { t.past with ctx := (t.ctx.put d (extend ext n (natOfBytes (s.mem.bytes pa n)))).next } []) := by
  subst hva
  obtain ⟨acc, r, hx, hpl⟩ := lands_steps q.toCalm L
  have h2 := q.toCalm.after a hit
  obtain ⟨b', hi, -⟩ := q.stands a
  have hm : ((s.keepEntry t.coreNum a hit).countDead pa).mem = s.mem :=
    (countDead_mem _ _).trans (keepEntry_keep State.mem (fun _ _ _ => rfl) _ _ _ _)
  refine stands_alone (a := a) q qf ?_ ((countDead_ticket _ _).trans (keep_ticket _ _ _ _))
    (fun c h => by rwa [countDead_copies, keep_copies] at h)
  have h3 := h2.toClean.keep (r' := Running.mk ((s.keepEntry t.coreNum a hit).countDead pa)
    { t with chunk := some ((opened s t).notePage a.entry) } none [] true 0 (0, [])) (countDead_fabric _ _) rfl rfl rfl rfl rfl
  simp only [run_seq, run_bind, rdX_clean q.toCalm.holds.toClean, loadX]
  rw [show (atBody s t).t.ctx = t.ctx from rfl]
  simp only [run_ite]
  rw [if_neg (fun h => h hal)]
  simp only [hx, hpl, run_bind, mayDefer_dev, Bool.false_eq_true, if_false, run_ite, run_pure, ↓q.stood a, run_getS, run_modS, keep_poison,
    hp, hm, wrX_clean h3]

/-- A store to a DEV page (R195). -/
theorem storeDev_done {s t} (q : Idle s t) (qf : Free s t) (n : Nat) (d b : BitVec 6) (o : BitVec 11) (va : Word)
    (hva : va = scalarAddr (t.ctx.xAt b) o n) (hal : va.toNat % n = 0) {a : Access} {hit : Bool} {pa : Nat}
    (L : Lands s t .store va.toNat a hit (.dev pa)) (ws : List Write) (hw : ws = writesOf pa (bytesOfNat (t.ctx.xAt d).toNat n))
    (hh : (s.keepEntry t.coreNum a hit).held (some t.tid) (ws.map (·.1 / 128)) = false) :
    storeAt n d b o s = .next (settled ((s.keepEntry t.coreNum a hit).unit (some t.tid) ws) { t.past with ctx := t.ctx.next } []) := by
  subst hva hw
  obtain ⟨acc, r, hx, hpl⟩ := lands_steps q.toCalm L
  have h2 := q.toCalm.after a hit
  refine stands_alone (a := a) q qf ?_ ((unit_ticket _ _ _).trans (keep_ticket _ _ _ _))
    (fun c h => by have := unit_copies _ _ _ c h; rwa [keep_copies] at this)
  simp only [run_seq, run_bind, rdX_clean q.toCalm.holds.toClean, storeX]
  rw [show (atBody s t).t.ctx = t.ctx from rfl]
  simp only [run_ite]
  rw [if_neg (fun h => h hal)]
  simp only [hx, hpl, run_bind, ↓q.stood a, ownUnit, run_getT, run_getS, hh, Bool.false_eq_true, if_false, run_ite, run_pure, run_modS]

/-- A load of a dword of the register window, at privileged level (R393). -/
theorem loadWindow_done {s t} (q : Idle s t) (qf : Free s t) (hu : t.ctx.priv = true) (d b : BitVec 6) (o : BitVec 11) (va : Word)
    (hva : va = scalarAddr (t.ctx.xAt b) o 8) (hal : va.toNat % 8 = 0) {a : Access} {hit : Bool} {off : Nat}
    (L : Lands s t .load va.toNat a hit (.registers off)) (ext : Ext) :
    loadAt 8 ext d b o s = .next (settled (s.keepEntry t.coreNum a hit)
      { t.past with ctx := (t.ctx.put d (BitVec.ofNat 64 ((s.keepEntry t.coreNum a hit).windowRead t.parcel off))).next } []) := by
  subst hva
  obtain ⟨acc, r, hx, hpl⟩ := lands_steps q.toCalm L
  have h2 := q.toCalm.after a hit
  refine stands_alone (a := a) q qf ?_ (keep_ticket _ _ _ _) (fun c h => by rwa [keep_copies] at h)
  have h3 := h2.toClean.keep (r' := Running.mk (s.keepEntry t.coreNum a hit)
    { t with chunk := some ((opened s t).notePage a.entry) } none [] true 0 (0, [])) rfl rfl rfl rfl rfl rfl
  simp only [run_seq, run_bind, rdX_clean q.toCalm.holds.toClean, loadX]
  rw [show (atBody s t).t.ctx = t.ctx from rfl]
  simp only [run_ite]
  rw [if_neg (fun h => h hal)]
  simp only [hx, hpl, run_bind, mayDefer_window, Bool.false_eq_true, if_false, run_ite, run_pure, ↓q.stood a, run_getS, run_getT, run_getC,
    hu, ne_eq, not_true_eq_false, decide_false, Bool.not_true, Bool.or_self, wrX_clean h3]

/-- A store to a dword of the register window, at privileged level (R393, R394). -/
theorem storeWindow_done {s t} (q : Idle s t) (qf : Free s t) (hu : t.ctx.priv = true) (d b : BitVec 6) (o : BitVec 11) (va : Word)
    (hva : va = scalarAddr (t.ctx.xAt b) o 8) (hal : va.toNat % 8 = 0) {a : Access} {hit : Bool} {off : Nat}
    (L : Lands s t .store va.toNat a hit (.registers off)) :
    storeAt 8 d b o s = .next (settled ((s.keepEntry t.coreNum a hit).windowWrite off (t.ctx.xAt d).toNat)
      { t.past with ctx := t.ctx.next } []) := by
  subst hva
  obtain ⟨acc, r, hx, hpl⟩ := lands_steps q.toCalm L
  have hw : ∀ {β : Type} (get : State → β), (∀ (s : State) x, get { s with hbm := x } = get s) →
      get ((s.keepEntry t.coreNum a hit).windowWrite off (t.ctx.xAt d).toNat) = get (s.keepEntry t.coreNum a hit) := by
    intro β get hg
    unfold State.windowWrite
    split
    · exact hg _ _
    · rfl
  refine stands_alone (a := a) q qf ?_ ((hw State.ticket (fun _ _ => rfl)).trans (keep_ticket _ _ _ _))
    (fun c h => by rwa [hw State.copies (fun _ _ => rfl), keep_copies] at h)
  simp only [run_seq, run_bind, rdX_clean q.toCalm.holds.toClean, storeX]
  rw [show (atBody s t).t.ctx = t.ctx from rfl]
  simp only [run_ite]
  rw [if_neg (fun h => h hal)]
  simp only [hx, hpl, run_bind, ↓q.stood a, run_getC, hu, ne_eq, not_true_eq_false, decide_false, Bool.not_true, Bool.or_self,
    Bool.false_eq_true, if_false, run_ite, run_pure, run_modS]

/-! ## Far placement (R208) -/

theorem placeAtomic_far {r : Running} {k : Chunk} (h : r.t.chunk = some k) (loc : Nat) (ret : Bool)
    (he : k.explicit = false) (hp : k.priority = false) (hc : 2 ≤ (r.s.core r.t.coreNum).predicted (loc / 128))
    (hl : loc < scratchBase ∨ viewBase ≤ loc) :
    placeAtomic loc ret r = .ok () { r with s := r.s.placedFar r.t.coreNum loc, ends := r.ends || ret,
                                            t := { r.t with chunk := some { k with farLines := k.farLines ++ [loc / 128] } } } := by
  have hf : (!(k.explicit || k.priority) && decide (2 ≤ (r.s.core (r.t.core.getD 0)).predicted (loc / 128))
      && (decide (loc < scratchBase) || decide (viewBase ≤ loc))) = true := by
    have hc : 2 ≤ (r.s.core (r.t.core.getD 0)).predicted (loc / 128) := hc
    simp [he, hp, hc, hl]
  cases ret <;>
    simp only [placeAtomic, run_bind, run_get, run_modS, h, Option.any_some, hf, if_true, run_modChunk, Option.map_some,
      Bool.false_eq_true, if_false, run_ite, run_pure, Bool.or_false, Bool.or_true] <;> rfl

/-- What an atomic placed far comes to before it retires. -/
theorem atomic_far {s t} (qc : Calm s t) (op : AmoOp) (d a b : BitVec 6) (dword : Bool) (n : Nat)
    (hn : n = if dword then 8 else 4) (hal : (t.ctx.xAt a).toNat % n = 0) {acc : Access} {hit : Bool} {l : Nat}
    (L : Lands s t .amo (t.ctx.xAt a).toNat acc hit (.loc l)) (hp : s.poisonTrap (t.ctx.xAt a).toNat l n = none)
    (free : (opened s t).explicit = false ∧ (opened s t).priority = false) (hc : 2 ≤ (s.core t.coreNum).predicted (l / 128))
    (hl : l < scratchBase ∨ viewBase ≤ l) (s' : State) (hs : s' = (s.keepEntry t.coreNum acc hit).noteRead l n) (m e : Nat)
    (hm : m = natOfBytes (((opened s t).notePage acc.entry).sees s' l n))
    (he : e = if op = .cas then (t.ctx.xAt d).toNat else 0) :
    (seq do atomicX op d a b dword) (atBody s t) = .ok .seq (Running.mk (s'.placedFar t.coreNum l) { t with
      ctx := amoCtx op n d m (t.ctx.xAt b).toNat e t.ctx
      chunk := some (amoFar op n l m (t.ctx.xAt b).toNat e ((opened s t).notePage acc.entry)) } none [] (d != 0) 0 (0, [])) := by
  have hfab : s'.fabric = s.fabric := by rw [hs, noteRead_fabric, keep_fabric]
  rw [atomic_at qc op d a b dword n hn hal L hp s' hs m e hm he]
  obtain ⟨h1, h2, h3⟩ := amoTouched_fields op n l m (t.ctx.xAt b).toNat e ((opened s t).notePage acc.entry)
  have hpn := placeAtomic_far (r := Running.mk s' { t with
          ctx := amoFlagged op n m (t.ctx.xAt b).toNat e t.ctx
          chunk := some (amoTouched op n l m (t.ctx.xAt b).toNat e ((opened s t).notePage acc.entry)) } none [] false 0 (0, []))
    rfl l (d != 0) (h1.trans ((notePage_explicit _ _).trans free.1)) (h2.trans ((notePage_priority _ _).trans free.2))
    (by rw [hs, noteRead_core, keep_core]; exact hc) hl
  have hcl : Clean (Running.mk (s'.placedFar t.coreNum l) { t with
          ctx := amoFlagged op n m (t.ctx.xAt b).toNat e t.ctx, chunk := some (amoFar op n l m (t.ctx.xAt b).toNat e
            ((opened s t).notePage acc.entry)) } none [] (false || d != 0) 0 (0, [])) :=
    qc.holds.toClean.keep hfab rfl rfl rfl rfl (congrArg some (h3.trans (notePage_out _ _)))
  simp only [run_seq, run_bind, hpn, amoCtx]
  exact congrArg (fun x => (match x with | .ok _ r => .ok Next.seq r | .error e r => .error e r : EStateM.Result _ _ _))
    (wrX_clean hcl d _)

/-- One that returns no value stays in its chunk. -/
theorem atomicFar_done {s t} (q : Ready s t) (qc : Calm s t) (qf : Free s t) (op : AmoOp) (a b : BitVec 6) (dword : Bool) (n : Nat)
    (hn : n = if dword then 8 else 4) (hal : (t.ctx.xAt a).toNat % n = 0) {acc : Access} {hit : Bool} {l : Nat}
    (L : Lands s t .amo (t.ctx.xAt a).toNat acc hit (.loc l)) (hp : s.poisonTrap (t.ctx.xAt a).toNat l n = none)
    (free : (opened s t).explicit = false ∧ (opened s t).priority = false) (hc : 2 ≤ (s.core t.coreNum).predicted (l / 128))
    (hl : l < scratchBase ∨ viewBase ≤ l) (s' : State) (hs : s' = (s.keepEntry t.coreNum acc hit).noteRead l n) (m : Nat)
    (hm : m = natOfBytes (((opened s t).notePage acc.entry).sees s' l n))
    (k : Chunk) (hk : k = amoFar op n l m (t.ctx.xAt b).toNat 0 ((opened s t).notePage acc.entry))
    (room : k.counted.goesOn t.limit = true) :
    control {} (seq do atomicX op 0 a b dword) s =
      .next (went (s'.placedFar t.coreNum l) t (amoCtx op n 0 m (t.ctx.xAt b).toNat 0 t.ctx).next k) := by
  have htk : (s'.placedFar t.coreNum l).ticket = s.ticket := by
    show s'.ticket = s.ticket
    rw [hs, noteRead_ticket, keep_ticket]
  subst hk
  exact control_leaves (u := t) (n := 0) q (.inl rfl) rfl rfl _ rfl
    (atomic_far qc op 0 a b dword n hn hal L hp free hc hl s' hs m 0 hm (by split <;> rfl)) (qf.clear htk qc.replies) room
    (went_free _ _ _ _)

theorem placedFar_held (s : State) (core loc : Nat) (who : Option Nat) (ls : Marks) : (s.placedFar core loc).held who ls = s.held who ls := by
  unfold State.held State.pins
  rfl

/-- One that returns its old value commits its chunk, and its operation queues at the line's home slice. -/
theorem atomicFar_ends {s t} (q : Ready s t) (qc : Calm s t) (qf : Free s t) (op : AmoOp) (d a b : BitVec 6) (hd : d ≠ 0) (dword : Bool)
    (n : Nat) (hn : n = if dword then 8 else 4) (hal : (t.ctx.xAt a).toNat % n = 0) {acc : Access} {hit : Bool} {l : Nat}
    (L : Lands s t .amo (t.ctx.xAt a).toNat acc hit (.loc l)) (hp : s.poisonTrap (t.ctx.xAt a).toNat l n = none)
    (free : (opened s t).explicit = false ∧ (opened s t).priority = false) (hc : 2 ≤ (s.core t.coreNum).predicted (l / 128))
    (hl : l < scratchBase ∨ viewBase ≤ l) (s' : State) (hs : s' = (s.keepEntry t.coreNum acc hit).noteRead l n) (m e : Nat)
    (hm : m = natOfBytes (((opened s t).notePage acc.entry).sees s' l n))
    (he : e = if op = .cas then (t.ctx.xAt d).toNat else 0)
    (k : Chunk) (hk : k = amoFar op n l m (t.ctx.xAt b).toNat e ((opened s t).notePage acc.entry))
    (sp : Spare k) (hf : ∀ c ∈ s.copies, c.tid = t.tid → c.forked = true) (hh : s'.held (some t.tid) k.writes = false) :
    control {} (seq do atomicX op d a b dword) s =
      .next (settledWith (s'.placedFar t.coreNum l)
        { t.past with ctx := (amoCtx op n d m (t.ctx.xAt b).toNat e t.ctx).next } k) := by
  have htk : (s'.placedFar t.coreNum l).ticket = s.ticket := by
    show s'.ticket = s.ticket
    rw [hs, noteRead_ticket, keep_ticket]
  have hcp : (s'.placedFar t.coreNum l).copies = s.copies := by
    show s'.copies = s.copies
    rw [hs, noteRead_keep State.copies (fun _ _ _ _ _ => rfl), keep_copies]
  subst hk
  have h := atomic_far qc op d a b dword n hn hal L hp free hc hl s' hs m e hm he
  rw [show (d != 0) = true by simpa using hd] at h
  rw [← placedFar_held s' t.coreNum l] at hh
  generalize s'.placedFar t.coreNum l = w at h htk hcp hh ⊢
  generalize amoCtx op n d m (t.ctx.xAt b).toNat e t.ctx = c at h ⊢
  generalize amoFar op n l m (t.ctx.xAt b).toNat e ((opened s t).notePage acc.entry) = k at h sp hh ⊢
  exact control_closes (s' := w) (g := (0, [])) (u := { t with ctx := c }) (n := .seq) q (.inl rfl) rfl h
    (qf.clear htk qc.replies) sp qc.deferred q.pend (by rw [hcp]; exact hf) hh

/-! ## Other devices (R188, R196) -/

theorem word_self (w : Word) : word w.toNat = w := by simp [word]

theorem fabricReq_run {r : Running} (dev off : Nat) (op : ArrivingOp) (va : Word) (reply : ReplyTo) :
    fabricReq dev off op va.toNat reply r = .ok (r.t.ask dev off op va reply) r := by
  simp only [fabricReq, run_bind, run_getT, run_pure, word_self]
  rfl

/-- A store to another device's memory enters the chunk and is sent at its commit. -/
theorem storeFabric_done {s t} (q : Ready s t) (qc : Calm s t) (qf : Free s t) (n : Nat) (d b : BitVec 6) (o : BitVec 11) (va : Word)
    (hva : va = scalarAddr (t.ctx.xAt b) o n) (hal : va.toNat % n = 0) {a : Access} {hit : Bool} {dev off : Nat}
    (L : Lands s t .store va.toNat a hit (.fabric dev off)) (he : (opened s t).explicit = false) (k k' : Chunk)
    (hk : k = (opened s t).notePage a.entry)
    (hk' : k' = { k with fabricOut := k.fabricOut ++
      [t.ask dev off (.store (bytesOfNat (t.ctx.xAt d).toNat n) (List.replicate n 255)) va (.ack t.tid false)] })
    (room : k'.counted.goesOn t.limit = true) :
    storeAt n d b o s = .next (went (s.keepEntry t.coreNum a hit) t t.ctx.next k') := by
  subst hva hk hk'
  obtain ⟨acc, r, hx, hpl⟩ := lands_steps qc L
  have hex : explicitChunk (Running.mk (s.keepEntry t.coreNum a hit) { t with chunk := some ((opened s t).notePage a.entry) } none [] false 0 (0, [])) =
      .ok false (Running.mk (s.keepEntry t.coreNum a hit) { t with chunk := some ((opened s t).notePage a.entry) } none [] false 0 (0, [])) := by
    simp only [explicitChunk, run_bind, run_getT, run_pure, Option.any_some, notePage_explicit, he]
  refine control_leaves (u := t) (n := 0) q (.inl rfl) rfl rfl
    (Running.mk (s.keepEntry t.coreNum a hit) { t with chunk := some { (opened s t).notePage a.entry with
      fabricOut := ((opened s t).notePage a.entry).fabricOut ++ [t.ask dev off (.store (bytesOfNat (t.ctx.xAt d).toNat n)
        (List.replicate n 255)) (scalarAddr (t.ctx.xAt b) o n) (.ack t.tid false)] } } none [] false 0 (0, [])) rfl ?_
    (qf.clear (keep_ticket _ _ _ _) qc.replies) room (went_free _ _ _ _)
  simp only [run_seq, run_bind, rdX_clean qc.holds.toClean, storeX]
  rw [show (atBody s t).t.ctx = t.ctx from rfl]
  simp only [run_ite]
  rw [if_neg (fun h => h hal)]
  simp only [hx, hpl, run_bind, hex, Bool.false_eq_true, if_false, run_getT, fabricReq_run, run_modChunk, Option.map_some, run_ite, run_pure]
  rfl

/-- No store or atomic of the thread to a line of another device is still to be answered, and none waits in its chunk (R196). -/
theorem fabricOrder_run {r : Running} {k : Chunk} (hk : r.t.chunk = some k) (dev off : Nat)
    (hc : (k.fabricOut.any fun q => q.dev == dev && q.off / 128 == off / 128) = false)
    (hf : (r.s.fabric.any fun q => q.isAfter r.t.tid && q.dev == dev && q.off / 128 == off / 128) = false) :
    fabricOrder dev off r = .ok () r := by
  simp only [fabricOrder, run_bind, run_get, hk, Option.any_some, hc, hf, Bool.false_eq_true, if_false, run_ite, run_pure]

theorem explicit_run {r : Running} {k : Chunk} (hk : r.t.chunk = some k) : explicitChunk r = .ok k.explicit r := by
  simp only [explicitChunk, run_bind, run_getT, run_pure, hk, Option.any_some]

/-- A read of another device's memory whose reply is still to be asked for. -/
theorem fabricRead_asks {r : Running} {k : Chunk} (hk : r.t.chunk = some k) (he : k.explicit = false) (dev off n : Nat) (va : Word)
    (ho : fabricOrder dev off r = .ok () r) (hr : r.t.replies = [])
    (hq : (r.s.fabric.any fun q => q.reply == .load r.t.tid r.vp && q.dev == dev && q.off == off) = false) :
    fabricRead dev off n va.toNat (fun q => pure [q]) r = .error (.request [r.t.ask dev off (.load n) va (.load r.t.tid r.vp)]) r := by
  simp only [fabricRead, run_bind, explicit_run hk, he, Bool.false_eq_true, if_false, run_ite, ho, run_get, hr, List.find?_nil, hq,
    fabricReq_run, run_pure]
  rfl

/-- One whose reply is at hand. -/
theorem fabricRead_answered {r : Running} {k : Chunk} (hk : r.t.chunk = some k) (he : k.explicit = false) (dev off n : Nat) (va : Word)
    (ho : fabricOrder dev off r = .ok () r) (p : Reply)
    (hp : r.t.replies.find? (fun p => p.vp == r.vp && p.pa == dev * 2 ^ 39 + off && p.n == n) = some p) (h0 : p.code = 0) :
    fabricRead dev off n va.toNat (fun q => pure [q]) r = .ok p.data r := by
  simp only [fabricRead, run_bind, explicit_run hk, he, Bool.false_eq_true, if_false, run_ite, ho, run_get, hp, h0, if_true, run_pure]

theorem mayDefer_fabric {r : Running} (dev off : Nat) (h : r.s.defer = false) : mayDefer (.fabric dev off) r = .ok false r := by
  cases hx : r.t.chunk.any (·.explicit) <;>
    simp only [mayDefer, explicitChunk, run_bind, run_getS, run_getT, run_pure, run_ite, hx, if_true, Bool.false_eq_true, if_false, h,
      Bool.false_and]

/-- A load of another device's memory sends its request, and its thread waits for the reply (R188). -/
theorem loadFabric_asks {s t} (q : Ready s t) (qc : Calm s t) (n : Nat) (ext : Ext) (d b : BitVec 6) (o : BitVec 11) (va : Word)
    (hva : va = scalarAddr (t.ctx.xAt b) o n) (hal : va.toNat % n = 0) {a : Access} {hit : Bool} {dev off : Nat}
    (L : Lands s t .load va.toNat a hit (.fabric dev off)) (he : (opened s t).explicit = false) (hd : s.defer = false)
    (hc : ((opened s t).fabricOut.any fun q => q.dev == dev && q.off / 128 == off / 128) = false)
    (hf : (s.fabric.any fun q => q.isAfter t.tid && q.dev == dev && q.off / 128 == off / 128) = false)
    (hq : (s.fabric.any fun q => q.reply == .load t.tid none && q.dev == dev && q.off == off) = false) :
    loadAt n ext d b o s = .next (s.sendReq (t.ask dev off (.load n) va (.load t.tid none))) := by
  subst hva
  obtain ⟨acc, r, hx, hpl⟩ := lands_steps qc L
  have h2 := qc.after a hit
  have hb : (seq do loadX d n ext (scalarAddr (← rdX b) o n)) (atBody s t) =
      .error (.request [t.ask dev off (.load n) (scalarAddr (t.ctx.xAt b) o n) (.load t.tid none)])
        (Running.mk (s.keepEntry t.coreNum a hit) { t with chunk := some ((opened s t).notePage a.entry) } none [] false 0 (0, [])) := by
    have hcl := fabricOrder_run (r := Running.mk (s.keepEntry t.coreNum a hit) { t with chunk := some ((opened s t).notePage a.entry) } none [] false 0 (0, []))
      rfl dev off (by rw [notePage_out]; exact hc) (by
        show ((s.keepEntry t.coreNum a hit).fabric.any _) = false
        rw [keep_fabric]; exact hf)
    have hask := fabricRead_asks (r := Running.mk (s.keepEntry t.coreNum a hit) { t with chunk := some ((opened s t).notePage a.entry) } none [] false 0 (0, []))
      rfl ((notePage_explicit _ _).trans he) dev off n (scalarAddr (t.ctx.xAt b) o n) hcl qc.replies (by
        show ((s.keepEntry t.coreNum a hit).fabric.any _) = false
        rw [keep_fabric]; exact hq)
    simp only [run_seq, run_bind, rdX_clean qc.holds.toClean, loadX]
    rw [show (atBody s t).t.ctx = t.ctx from rfl]
    simp only [run_ite]
    rw [if_neg (fun h => h hal)]
    simp only [hx, hpl, run_bind, mayDefer_fabric (r := Running.mk (s.keepEntry t.coreNum a hit) _ none [] false 0 (0, [])) dev off (by rw [keep_defer]; exact hd),
      Bool.false_eq_true, if_false, hask, run_ite, run_pure]
    rfl
  have hs : s.setThread t = s := setThread_self q.entry
  unfold loadAt
  simp only [control, q.acting, q.ended, Running.execute, Running.attempt, openChunk_of, hb, of_t, of_s, of_vp, of_ends, q.vps,
    Option.isSome_none, List.isEmpty_nil, Bool.not_true, Bool.and_false, Bool.false_and, Bool.false_eq_true, if_false, bne_self_eq_false, hs]
  rfl

/-- Its reply at hand, it completes, and the reply is used up (R195). -/
theorem loadFabric_done {s t} (q : Ready s t) (qf : Free s t) (n : Nat) (ext : Ext) (d b : BitVec 6) (o : BitVec 11) (va : Word)
    (hva : va = scalarAddr (t.ctx.xAt b) o n) (hal : va.toNat % n = 0) {a : Access} {hit : Bool} {dev off : Nat}
    (L : Lands s t .load va.toNat a hit (.fabric dev off)) (he : (opened s t).explicit = false) (hd : s.defer = false)
    (hc : ((opened s t).fabricOut.any fun q => q.dev == dev && q.off / 128 == off / 128) = false)
    (hf : (s.fabric.any fun q => q.isAfter t.tid && q.dev == dev && q.off / 128 == off / 128) = false) (data : List Byte)
    (hr : t.replies = [{ vp := none, pa := dev * 2 ^ 39 + off, n := n, code := 0, data := data }])
    (qc : Calm s { t with replies := [] }) (k : Chunk) (hk : k = (opened s t).notePage a.entry)
    (room : k.counted.goesOn t.limit = true) :
    loadAt n ext d b o s = .next (went (s.keepEntry t.coreNum a hit) { t with replies := [] }
      (t.ctx.put d (extend ext n (natOfBytes data))).next k) := by
  subst hva hk
  have hcl0 : Clean (atBody s t) := qc.clean.keep rfl rfl rfl rfl rfl rfl
  have h : Holds (atBody s t) (opened s t) := ⟨hcl0, rfl⟩
  have e0 := xlate_run h .load (scalarAddr (t.ctx.xAt b) o n).toNat a hit L.ok
  have hpl := placeA_run (r := Running.mk (s.keepEntry t.coreNum a hit) { t with chunk := some ((opened s t).notePage a.entry) } none [] false 0 (0, []))
    a (.fabric dev off) (fun hx => by rw [keep_fyz]; exact L.host hx) (by rw [placeOf_keep]; exact L.place)
  have e0 : xlate .load (scalarAddr (t.ctx.xAt b) o n).toNat (atBody s t) = .ok a
    (Running.mk (s.keepEntry t.coreNum a hit) { t with chunk := some ((opened s t).notePage a.entry) } none [] false 0 (0, [])) := e0
  have hcl := fabricOrder_run (r := Running.mk (s.keepEntry t.coreNum a hit) { t with chunk := some ((opened s t).notePage a.entry) } none [] false 0 (0, []))
    rfl dev off (by rw [notePage_out]; exact hc) (by
      show ((s.keepEntry t.coreNum a hit).fabric.any _) = false
      rw [keep_fabric]; exact hf)
  have hgot := fabricRead_answered (r := Running.mk (s.keepEntry t.coreNum a hit) { t with chunk := some ((opened s t).notePage a.entry) } none [] false 0 (0, []))
    rfl ((notePage_explicit _ _).trans he) dev off n (scalarAddr (t.ctx.xAt b) o n) hcl
    { vp := none, pa := dev * 2 ^ 39 + off, n := n, code := 0, data := data } (by
      show t.replies.find? _ = _
      rw [hr]; simp) rfl
  have hw : Clean (Running.mk (s.keepEntry t.coreNum a hit) { t with chunk := some ((opened s t).notePage a.entry) } none [] false 0 (0, [])) :=
    hcl0.keep (keep_fabric _ _ _ _) rfl rfl rfl rfl (congrArg some (notePage_out _ _))
  have hb : (seq do loadX d n ext (scalarAddr (← rdX b) o n)) (atBody s t) =
      .ok .seq (Running.mk (s.keepEntry t.coreNum a hit) { t with ctx := t.ctx.put d (extend ext n (natOfBytes data))
                                                                  chunk := some ((opened s t).notePage a.entry) } none [] false 0 (0, [])) := by
    simp only [run_seq, run_bind, rdX_clean hcl0, loadX]
    rw [show (atBody s t).t.ctx = t.ctx from rfl]
    simp only [run_ite]
    rw [if_neg (fun h => h hal)]
    simp only [e0, hpl, run_bind, mayDefer_fabric (r := Running.mk (s.keepEntry t.coreNum a hit) _ none [] false 0 (0, [])) dev off (by rw [keep_defer]; exact hd),
      Bool.false_eq_true, if_false, hgot, run_ite, run_pure, wrX_clean hw]
  have hy : ∀ ls ms, (s.keepEntry t.coreNum a hit).yieldTokens t.tid ls ms = s.keepEntry t.coreNum a hit := by
    intro ls ms
    unfold State.yieldTokens
    have e : ((s.keepEntry t.coreNum a hit).ticket != some t.tid) = true := by rw [keep_ticket]; simpa using qf.ticket
    exact if_pos e
  unfold loadAt
  simp only [control, q.acting, q.ended, Running.execute, Running.attempt, openChunk_of, hb, of_t, of_s, of_vp, of_ends, q.vps,
    Option.isSome_none, List.isEmpty_nil, Bool.not_true, Bool.and_false, Bool.false_and, Bool.false_eq_true, if_false, bne_self_eq_false,
    qf.claims, hy]
  rw [retire_open (k := (opened s t).notePage a.entry) rfl rfl room]
  have hu : t.replies.filter (fun x => x.vp != (none : Option Nat)) = [] := by rw [hr]; rfl
  refine congrArg (fun x => Host.Outcome.next ((s.keepEntry t.coreNum a hit).setThread x)) ?_
  show ({ t.past with ctx := (t.ctx.put d _).next, replies := t.replies.filter (fun x => x.vp != (none : Option Nat)),
                      deficit := t.deficit - ((0 : Nat) : Int), chunk := some _ } : Thread) = _
  rw [hu]
  simp [Thread.past]

/-! ## Loads that are put off (R189) -/

/-- A load that misses on its die is put off: the thread goes on, and the register waits for the reply. -/
theorem loadDeferred_done {s t} (q : Ready s t) (qc : Calm s t) (qf : Free s t) (n : Nat) (ext : Ext) (d b : BitVec 6) (o : BitVec 11)
    (va : Word) (hva : va = scalarAddr (t.ctx.xAt b) o n) (hal : va.toNat % n = 0) {a : Access} {hit : Bool} {l : Nat}
    (L : Lands s t .load va.toNat a hit (.loc l)) (he : (opened s t).explicit = false) (hd : s.defer = true) (hv : viewBase ≤ l)
    (hm : s.hasCopy (viewDie l) (viewPa l / 128) = false) (hw : (opened s t).writes.contains (l / 128) = false) (k : Chunk)
    (hk : k = ((opened s t).notePage a.entry).marked (l / 128)) (room : k.counted.goesOn t.limit = true) :
    loadAt n ext d b o s = .next (went { s.keepEntry t.coreNum a hit with nextId := s.nextId + 1 }
      { t with deferred := [{ id := s.nextId, dest := (if d = 0 then .none else .x d.toNat), va := va, pa := l, n := n, ext := ext,
                              vector := false, inChunk := true }] } t.ctx.next k) := by
  subst hva hk
  obtain ⟨acc, r, hx, hpl⟩ := lands_steps qc L
  have h2 := qc.after a hit
  have hnw : ((opened s t).notePage a.entry).writes = (opened s t).writes := by unfold Chunk.notePage; split <;> rfl
  have hmay : mayDefer (.loc l) (Running.mk (s.keepEntry t.coreNum a hit) { t with chunk := some ((opened s t).notePage a.entry) } none [] false 0 (0, [])) =
      .ok true (Running.mk (s.keepEntry t.coreNum a hit) { t with chunk := some ((opened s t).notePage a.entry) } none [] false 0 (0, [])) := by
    have hcp : (s.keepEntry t.coreNum a hit).hasCopy (viewDie l) (viewPa l / 128) = false :=
      (keepEntry_keep (fun s => s.hasCopy (viewDie l) (viewPa l / 128)) (fun _ _ _ => rfl) _ _ _ _).trans hm
    simp only [mayDefer, explicitChunk, run_bind, run_getS, run_getT, run_pure, run_ite, Option.any_some, notePage_explicit, he,
      Bool.false_eq_true, if_false, keep_defer, hd, hv, decide_true, hcp, hnw, hw, Bool.not_false, Bool.and_self]
  have hid : (s.keepEntry t.coreNum a hit).nextId = s.nextId := keepEntry_keep State.nextId (fun _ _ _ => rfl) _ _ _ _
  refine control_leaves (u := { t with
      deferred := [{ id := s.nextId, dest := (if d = 0 then .none else .x d.toNat), va := scalarAddr (t.ctx.xAt b) o n, pa := l, n := n,
                     ext := ext, vector := false, inChunk := true }] }) (n := 0) q (.inl rfl) rfl rfl
    (Running.mk { s.keepEntry t.coreNum a hit with nextId := s.nextId + 1 } { t with
      deferred := [{ id := s.nextId, dest := (if d = 0 then .none else .x d.toNat), va := scalarAddr (t.ctx.xAt b) o n, pa := l, n := n,
                     ext := ext, vector := false, inChunk := true }]
      chunk := some (((opened s t).notePage a.entry).marked (l / 128)) } none [] false 0 (0, []))
    rfl ?_ (qf.clear (keep_ticket _ _ _ _) qc.replies) room (went_free _ _ _ _)
  simp only [run_seq, run_bind, rdX_clean qc.holds.toClean, loadX]
  rw [show (atBody s t).t.ctx = t.ctx from rfl]
  simp only [run_ite]
  rw [if_neg (fun h => h hal)]
  simp only [hx, hpl, run_bind, hmay, if_true, awaitX_clean h2.toClean, deferLoad, run_get, run_modT, run_modS, run_modChunk, run_ite,
    run_pure, Option.map_some, hid, word_self]
  rw [show ∀ e : Deferred, e :: ({ t with chunk := some ((opened s t).notePage a.entry) } : Thread).deferred = [e] from
    fun e => congrArg (e :: ·) qc.deferred]
  rfl

end Sys2Proof.Machine
end

