-- ==== Sys2Proof/Laws/Rounding.lean ====
section
/-! SUPPORT. Rounding: what round_to, division and the square root compute (04, R74 to R88). -/

set_option linter.unusedSimpArgs false
set_option Elab.async false

namespace Sys2Proof.Machine

/-! ## The value grid -/

theorem two_cast (n : Nat) : (2 : ℝ) ^ (n : ℤ) = ((2 ^ n : Nat) : ℝ) := by push_cast; exact zpow_natCast _ _

theorem two_pos (q : ℤ) : (0 : ℝ) < 2 ^ q := zpow_pos (by norm_num) q

theorem two_add (p q : ℤ) : (2 : ℝ) ^ (p + q) = 2 ^ p * 2 ^ q := zpow_add₀ (by norm_num) p q

/-- The grid at the code that has u units above the start of binade j: u * 2^j of the least unit. -/
theorem grid_at (f : Fmt) (j u : Nat) (hj : j = 0 ∨ 2 ^ f.m ≤ u) (hu : u ≤ 2 ^ (f.m + 1)) :
    f.grid (j * 2 ^ f.m + u) = u * (2 : ℝ) ^ (1 - f.bias - f.m + j) := by
  have hp : 0 < 2 ^ f.m := Nat.two_pow_pos _
  have e2 : 2 ^ (f.m + 1) = 2 ^ f.m + 2 ^ f.m := by rw [Nat.pow_succ]; omega
  unfold Fmt.grid
  rcases Nat.lt_or_ge u (2 ^ f.m) with h | h
  · have j0 : j = 0 := by omega
    subst j0
    rw [Nat.zero_mul, Nat.zero_add, if_pos (Nat.div_eq_of_lt h), Nat.mod_eq_of_lt h]
    simp
  · rcases Nat.lt_or_ge u (2 ^ (f.m + 1)) with h2 | h2
    · have d : (j * 2 ^ f.m + u) / 2 ^ f.m = j + 1 := by
        rw [Nat.div_eq_iff (by omega)]
        rw [Nat.add_mul]
        omega
      have md : (j * 2 ^ f.m + u) % 2 ^ f.m = u - 2 ^ f.m := by
        have := Nat.div_add_mod (j * 2 ^ f.m + u) (2 ^ f.m)
        rw [d, Nat.mul_add, Nat.mul_comm (2 ^ f.m) j] at this
        omega
      rw [d, md, if_neg (by omega), Nat.add_sub_cancel' h]
      congr 2
      push_cast; ring
    · have u2 : u = 2 ^ f.m + 2 ^ f.m := by omega
      subst u2
      have d : (j * 2 ^ f.m + (2 ^ f.m + 2 ^ f.m)) / 2 ^ f.m = j + 2 := by
        rw [show j * 2 ^ f.m + (2 ^ f.m + 2 ^ f.m) = (j + 2) * 2 ^ f.m by ring]
        exact Nat.mul_div_cancel _ hp
      have md : (j * 2 ^ f.m + (2 ^ f.m + 2 ^ f.m)) % 2 ^ f.m = 0 := by
        rw [show j * 2 ^ f.m + (2 ^ f.m + 2 ^ f.m) = (j + 2) * 2 ^ f.m by ring]
        exact Nat.mul_mod_left _ _
      rw [d, md, if_neg (by omega), Nat.add_zero, show ((j + 2 : Nat) : ℤ) - f.bias - f.m = (1 - f.bias - f.m + j) + 1 by push_cast; ring,
        two_add]
      push_cast
      ring

/-- Every code has a binade and its units. -/
theorem grid_split (f : Fmt) (k : Nat) : ∃ j u, k = j * 2 ^ f.m + u ∧ (j = 0 ∨ 2 ^ f.m ≤ u) ∧ u < 2 ^ (f.m + 1) := by
  have hp : 0 < 2 ^ f.m := Nat.two_pow_pos _
  have e2 : 2 ^ (f.m + 1) = 2 ^ f.m + 2 ^ f.m := by rw [Nat.pow_succ]; omega
  rcases Nat.lt_or_ge k (2 ^ f.m) with h | h
  · exact ⟨0, k, by simp, .inl rfl, by omega⟩
  · have hd := Nat.div_add_mod k (2 ^ f.m)
    have hm := Nat.mod_lt k hp
    have h1 : 1 ≤ k / 2 ^ f.m := (Nat.one_le_div_iff hp).2 h
    refine ⟨k / 2 ^ f.m - 1, 2 ^ f.m + k % 2 ^ f.m, ?_, .inr (by omega), by omega⟩
    have := Nat.sub_add_cancel h1
    have e : k / 2 ^ f.m * 2 ^ f.m = (k / 2 ^ f.m - 1) * 2 ^ f.m + 2 ^ f.m := by
      conv_lhs => rw [← this]
      ring
    rw [Nat.mul_comm] at hd
    omega

theorem grid_step (f : Fmt) (j u : Nat) (hj : j = 0 ∨ 2 ^ f.m ≤ u) (hu : u < 2 ^ (f.m + 1)) :
    f.grid (j * 2 ^ f.m + u + 1) = (u + 1 : Nat) * (2 : ℝ) ^ (1 - f.bias - f.m + j) := by
  rw [Nat.add_assoc]
  exact grid_at f j (u + 1) (by omega) (by omega)

theorem grid_lt_succ (f : Fmt) (k : Nat) : f.grid k < f.grid (k + 1) := by
  obtain ⟨j, u, rfl, hj, hu⟩ := grid_split f k
  rw [grid_step f j u hj hu, grid_at f j u hj (by omega)]
  have := two_pos (1 - f.bias - f.m + j)
  push_cast
  nlinarith

theorem grid_mono (f : Fmt) : StrictMono f.grid := strictMono_nat_of_lt_succ (grid_lt_succ f)

theorem grid_zero (f : Fmt) : f.grid 0 = 0 := by
  have := grid_at f 0 0 (.inl rfl) (Nat.zero_le _)
  simpa using this

/-! ## The choice between two neighbours -/

/-- m * 2^e in units of 2^q. -/
theorem inUnits_spec (m : Nat) (e q : ℤ) : ∃ j : Nat, (inUnits m e q).2.2 = 2 ^ j ∧ (j : ℤ) = max 0 (q - e) ∧
    (inUnits m e q).2.1 < 2 ^ j ∧ (m : ℝ) * 2 ^ e = ((inUnits m e q).1 + ((inUnits m e q).2.1 : ℝ) / 2 ^ j) * 2 ^ q := by
  unfold inUnits
  split
  · rename_i h
    refine ⟨0, rfl, by simp; omega, by simp, ?_⟩
    have e1 : e = (e - q).toNat + q := by omega
    simp only [Nat.cast_mul, Nat.cast_zero, zero_div, add_zero]
    conv_lhs => rw [e1, two_add, two_cast]
    ring
  · rename_i h
    have hj : ((q - e).toNat : ℤ) = q - e := by omega
    refine ⟨(q - e).toNat, rfl, by omega, Nat.mod_lt _ (Nat.two_pow_pos _), ?_⟩
    have hd : (m : ℝ) = (2 ^ (q - e).toNat : Nat) * (m / 2 ^ (q - e).toNat : Nat) + (m % 2 ^ (q - e).toNat : Nat) := by
      exact_mod_cast (Nat.div_add_mod m (2 ^ (q - e).toNat)).symm
    have e1 : (2 : ℝ) ^ q = (2 ^ (q - e).toNat : Nat) * 2 ^ e := by rw [← two_cast, ← two_add, hj]; congr 1; ring
    have hp : ((2 ^ (q - e).toNat : Nat) : ℝ) ≠ 0 := by positivity
    simp only
    rw [e1]
    conv_lhs => rw [hd]
    push_cast at hp ⊢
    field_simp

/-- The 32 bits of a discarded fraction, r and a further part s < 1 of 2^j units (R88). -/
theorem floor_frac (r j : Nat) (s : ℝ) (sticky : Bool) (h0 : 0 ≤ s) (h1 : s < 1) (hs : sticky = true ↔ 0 < s) (hj : sticky = true → 32 ≤ j) :
    ⌊(r + s) / 2 ^ j * 2 ^ 32⌋₊ = r * 2 ^ 32 / 2 ^ j := by
  generalize hN : (2 : Nat) ^ 32 = N
  have hN' : (2 : ℝ) ^ 32 = N := by rw [← hN]; norm_num
  rw [hN']
  have hp : (0 : ℝ) < 2 ^ j := by positivity
  have key : ∀ a b : Nat, ∀ w : ℝ, 0 ≤ w → w < 1 → ⌊((a : ℝ) + w) / (2 ^ b : Nat)⌋₊ = a / 2 ^ b := by
    intro a b w hw hw1
    have hb : (0 : ℝ) < (2 ^ b : Nat) := by positivity
    rw [Nat.floor_eq_iff (by positivity), le_div_iff₀ hb, div_lt_iff₀ hb]
    have c1 : (a : ℝ) = (2 ^ b : Nat) * (a / 2 ^ b : Nat) + (a % 2 ^ b : Nat) := by exact_mod_cast (Nat.div_add_mod a (2 ^ b)).symm
    have c2 : ((a % 2 ^ b : Nat) : ℝ) + 1 ≤ (2 ^ b : Nat) := by exact_mod_cast Nat.mod_lt a (Nat.two_pow_pos b)
    have c3 : (0 : ℝ) ≤ (a % 2 ^ b : Nat) := Nat.cast_nonneg _
    generalize ((a / 2 ^ b : Nat) : ℝ) = d at *
    generalize ((a % 2 ^ b : Nat) : ℝ) = m at *
    generalize ((2 ^ b : Nat) : ℝ) = q at *
    constructor <;> nlinarith
  cases hst : sticky
  · have s0 : s = 0 := le_antisymm (not_lt.1 fun h => by simpa [hst] using hs.2 h) h0
    rw [s0, add_zero, ← key (r * N) j 0 le_rfl one_pos]
    congr 1
    push_cast
    ring
  · obtain ⟨i, rfl⟩ : ∃ i, j = i + 32 := ⟨j - 32, by have := hj hst; omega⟩
    have hn : 0 < N := by rw [← hN]; exact Nat.two_pow_pos 32
    have e : r * N / 2 ^ (i + 32) = r / 2 ^ i := by
      rw [Nat.pow_add, hN]; exact Nat.mul_div_mul_right _ _ hn
    rw [e, ← key r i s h0 h1]
    congr 1
    rw [pow_add, hN']
    have : (N : ℝ) ≠ 0 := by exact_mod_cast hn.ne'
    push_cast
    field_simp

/-- roundUp chooses as the mode says: r and a further part s < 1 of d discarded units. -/
theorem roundUp_spec (rnd : Rnd) (neg odd : Bool) (r j : Nat) (s : ℝ) (sticky : Bool) (z : Nat) (hr : r < 2 ^ j) (h0 : 0 ≤ s) (h1 : s < 1)
    (hs : sticky = true ↔ 0 < s) (hj : sticky = true → 32 ≤ j) :
    roundUp rnd neg odd r (2 ^ j) sticky z = true ↔ 0 < r + s ∧ PicksHi rnd (neg = true) (odd = true) z ((r + s) / 2 ^ j) := by
  have hp : (0 : ℝ) < 2 ^ j := by positivity
  by_cases hz : r = 0 ∧ sticky = false
  · obtain ⟨rfl, rfl⟩ := hz
    have : s = 0 := le_antisymm (not_lt.1 fun h => by simpa using hs.2 h) h0
    simp [roundUp, this]
  · have hz' : (decide (r = 0) && !sticky) = false := by
      cases sticky <;> simp_all
    have hpos : 0 < (r : ℝ) + s := by
      cases hst : sticky
      · have : r ≠ 0 := fun h => hz ⟨h, hst⟩
        have : (1 : ℝ) ≤ r := by exact_mod_cast Nat.one_le_iff_ne_zero.2 this
        linarith
      · have := hs.1 hst
        have : (0 : ℝ) ≤ r := Nat.cast_nonneg r
        linarith
    have half : ∀ c : ℝ, c = (r + s) / 2 ^ j → (1 / 2 < c ↔ (2 : ℝ) ^ j < 2 * (r + s)) ∧ (c = 1 / 2 ↔ (2 : ℝ) ^ j = 2 * (r + s)) := by
      rintro c rfl
      constructor
      · rw [lt_div_iff₀ hp]; constructor <;> intro h <;> linarith
      · rw [div_eq_iff hp.ne']; constructor <;> intro h <;> linarith
    obtain ⟨ha, ht⟩ := half _ rfl
    have hA : (1 / 2 : ℝ) < (r + s) / 2 ^ j ↔ (2 ^ j < 2 * r ∨ (2 ^ j = 2 * r ∧ sticky = true)) := by
      rw [ha]
      constructor
      · intro h
        by_contra hc
        push Not at hc
        obtain ⟨c1, c2⟩ := hc
        rcases Nat.lt_or_eq_of_le c1 with c1 | c1
        · cases j with
          | zero =>
            have : r = 0 := by omega
            subst this
            cases hst : sticky
            · have : ¬ 0 < s := fun h => by simpa [hst] using hs.2 h
              simp at h
              linarith
            · have := hj hst; omega
          | succ j =>
            have e : 2 ^ (j + 1) = 2 * 2 ^ j := by ring
            have : r + 1 ≤ 2 ^ j := by omega
            have : (r : ℝ) + 1 ≤ 2 ^ j := by exact_mod_cast this
            have e : (2 : ℝ) ^ (j + 1) = 2 * 2 ^ j := by ring
            linarith
        · have := c2 c1.symm
          have : ¬ 0 < s := fun h => this (hs.2 h)
          have : ((2 * r : Nat) : ℝ) = 2 ^ j := by exact_mod_cast c1
          push_cast at this
          linarith
      · rintro (h | ⟨h, hst⟩)
        · have : (2 : ℝ) ^ j < 2 * r := by exact_mod_cast h
          linarith
        · have : (2 : ℝ) ^ j = 2 * r := by exact_mod_cast h
          have := hs.1 hst
          linarith
    have hT : (r + s) / 2 ^ j = (1 / 2 : ℝ) ↔ (2 ^ j = 2 * r ∧ sticky = false) := by
      rw [ht]
      constructor
      · intro h
        have n1 : ¬ 2 ^ j < 2 * r := fun c => by
          have := hA.2 (.inl c); rw [ha] at this; linarith
        have hst : sticky = false := by
          cases hst : sticky
          · rfl
          · have j32 := hj hst
            obtain ⟨i, rfl⟩ : ∃ i, j = i + 1 := ⟨j - 1, by omega⟩
            have e : 2 ^ (i + 1) = 2 * 2 ^ i := by ring
            have e' : (2 : ℝ) ^ (i + 1) = 2 * 2 ^ i := by ring
            have hsp := hs.1 hst
            have : r < 2 ^ i := by
              by_contra hc
              have : (2 : ℝ) ^ i ≤ r := by exact_mod_cast not_lt.1 hc
              linarith
            have : (r : ℝ) + 1 ≤ 2 ^ i := by exact_mod_cast this
            linarith
        have s0 : s = 0 := le_antisymm (not_lt.1 fun h => by simpa [hst] using hs.2 h) h0
        rw [s0, add_zero] at h
        exact ⟨by exact_mod_cast h, hst⟩
      · rintro ⟨h, hst⟩
        have s0 : s = 0 := le_antisymm (not_lt.1 fun h => by simpa [hst] using hs.2 h) h0
        rw [s0, add_zero]
        exact_mod_cast h
    have hF := floor_frac r j s sticky h0 h1 hs hj
    unfold roundUp
    rw [if_neg (by rw [hz']; simp)]
    simp only [hpos, true_and]
    unfold PicksHi
    have hD : ∀ a b : Nat, decide (a = b) = true ↔ a = b := fun a b => decide_eq_true_iff
    split
    · rw [hA, hT]
      cases sticky <;> cases odd <;> simp
    · simp
    · rfl
    · simp
    · have : (1 / 2 : ℝ) ≤ (r + s) / 2 ^ j ↔ (1 / 2 : ℝ) < (r + s) / 2 ^ j ∨ (r + s) / 2 ^ j = (1 / 2 : ℝ) := by
        rw [le_iff_lt_or_eq, eq_comm (a := (1 / 2 : ℝ))]
      rw [this, hA, hT]
      cases sticky <;> simp
    · rename_i n0 n1 n2 n3 n4
      rw [hF]
      simp

/-! ## Rounding a finite value -/

/-- What is known of a magnitude: m * 2^e, and a little more where sticky, which m is then long enough to place. -/
structure Magnitude (f : Fmt) (m : Nat) (e : Int) (sticky : Bool) (x : ℝ) : Prop where
  same : sticky = false → x = m * (2 : ℝ) ^ e
  above : sticky = true → m * (2 : ℝ) ^ e < x
  below : sticky = true → x < (m + 1) * (2 : ℝ) ^ e
  long : sticky = true → 2 ^ (f.m + 32) ≤ m

/-- The value in units of 2^q: the whole units, the fraction p of one, and the choice that the mode makes. -/
theorem units_spec {f : Fmt} {m : Nat} {e : Int} {sticky : Bool} {x : ℝ} (h : Magnitude f m e sticky x) (q : Int)
    (hq : sticky = true → 32 ≤ q - e) : ∃ p : ℝ, 0 ≤ p ∧ p < 1 ∧ x = ((inUnits m e q).1 + p) * (2 : ℝ) ^ q ∧
    (p = 0 ↔ (inUnits m e q).2.1 = 0 ∧ sticky = false) ∧
    ∀ rnd neg odd z, roundUp rnd neg odd (inUnits m e q).2.1 (inUnits m e q).2.2 sticky z = true ↔
      0 < p ∧ PicksHi rnd (neg = true) (odd = true) z p := by
  obtain ⟨j, hd, hj, hr, hm⟩ := inUnits_spec m e q
  generalize (inUnits m e q).1 = u at *
  generalize (inUnits m e q).2.1 = r at *
  generalize (inUnits m e q).2.2 = d at *
  subst hd
  have pe := two_pos e
  have pj : (0 : ℝ) < 2 ^ j := by positivity
  obtain ⟨s, h0, h1, hs, hx, hsj⟩ : ∃ s : ℝ, 0 ≤ s ∧ s < 1 ∧ (sticky = true ↔ 0 < s) ∧ x = (m + s) * (2 : ℝ) ^ e ∧ s * (2 : ℝ) ^ e = s / 2 ^ j * (2 : ℝ) ^ q := by
    cases hst : sticky
    · exact ⟨0, le_rfl, one_pos, by simp, by rw [h.same hst, add_zero], by simp⟩
    · have ha := h.above hst
      have hb := h.below hst
      refine ⟨x / 2 ^ e - m, ?_, ?_, by simp; rw [lt_div_iff₀ pe]; exact ha, by field_simp; ring, ?_⟩
      · rw [sub_nonneg, le_div_iff₀ pe]; exact ha.le
      · rw [sub_lt_iff_lt_add', div_lt_iff₀ pe]; exact hb
      · have e1 : (j : ℤ) = q - e := by have := hq hst; omega
        have e2 : (2 : ℝ) ^ q = 2 ^ j * 2 ^ e := by
          rw [show q = (j : ℤ) + e by omega, two_add, zpow_natCast]
        rw [e2]
        field_simp
  have hr1 : (r : ℝ) + 1 ≤ 2 ^ j := by exact_mod_cast hr
  have r0 : (0 : ℝ) ≤ r := Nat.cast_nonneg _
  refine ⟨(r + s) / 2 ^ j, by positivity, by rw [div_lt_one pj]; linarith, ?_, ?_, ?_⟩
  · rw [hx, add_mul, hm, hsj]; ring
  · rw [div_eq_zero_iff]
    constructor
    · rintro (hc | hc)
      · have : (r : ℝ) = 0 := by linarith
        refine ⟨by exact_mod_cast this, ?_⟩
        cases hst : sticky
        · rfl
        · have := hs.1 hst; linarith
      · exact absurd hc pj.ne'
    · rintro ⟨rfl, hst⟩
      left
      have : ¬ 0 < s := fun hc => by simpa [hst] using hs.2 hc
      have : s = 0 := by linarith
      simp [this]
  · intro rnd neg odd z
    have := roundUp_spec rnd neg odd r j s sticky z hr h0 h1 hs (fun hst => by have := hq hst; omega)
    rw [this]
    have : 0 < ((r : ℝ) + s) / 2 ^ j ↔ 0 < (r : ℝ) + s := by rw [div_pos_iff_of_pos_right pj]
    rw [this]

theorem roundFin_rounds {f : Fmt} {m : Nat} {e : Int} {sticky : Bool} {x : ℝ} (h : Magnitude f m e sticky x) (rnd : Rnd) (sat : Bool) (z : Nat)
    (neg : Bool) : RoundsTo f rnd sat z neg x (f.roundFin rnd sat z neg m e sticky) := by
  have hfl : (fOF ||| fNX ≠ fNX) ∧ (fOF ||| fNX ≠ fNX ||| fUF) ∧ (0 ≠ fNX) ∧ (0 ≠ fNX ||| fUF) ∧ (fNV ≠ fNX) ∧ (fNV ≠ fNX ||| fUF) ∧ fNX ≠ fNX ||| fUF := by
    decide
  have hl := h.long
  by_cases hm : m = 0
  · subst hm
    have hst : sticky = false := by
      cases hs : sticky
      · rfl
      · have := hl hs; have := Nat.two_pow_pos (f.m + 32); omega
    have hx : x = 0 := by rw [h.same hst]; simp
    have hr : f.roundFin rnd sat z neg 0 e sticky = (f.sign neg, 0) := by simp [Fmt.roundFin, hst]
    rw [hr, hx]
    refine ⟨fun _ => rfl, fun hc => absurd rfl hc, fun _ _ hc => absurd rfl hc, fun k hk _ hc => ?_, fun k _ hc => ?_, fun hc => ?_⟩
    · have := grid_mono f (show 0 < k by omega)
      rw [grid_zero, ← hc] at this
      exact absurd this (lt_irrefl _)
    · have := (grid_mono f).monotone (Nat.zero_le k)
      rw [grid_zero] at this
      exact absurd hc (not_lt.2 this)
    · exact absurd hc (by push Not; exact ⟨hfl.2.2.1, hfl.2.2.2.1⟩)
  -- the binade of x
  have lo2 : (2 : ℝ) ^ (e + m.log2) ≤ x := by
    have h1 : ((2 ^ m.log2 : Nat) : ℝ) ≤ m := by exact_mod_cast Nat.log2_self_le hm
    have h2 : (2 : ℝ) ^ (e + m.log2) ≤ m * 2 ^ e := by
      rw [two_add, two_cast, mul_comm]
      exact mul_le_mul_of_nonneg_right h1 (two_pos e).le
    cases hst : sticky
    · rw [h.same hst]; exact h2
    · exact h2.trans (h.above hst).le
  have hi2 : x < (2 : ℝ) ^ (e + m.log2 + 1) := by
    have h1 : ((m + 1 : Nat) : ℝ) ≤ (2 ^ (m.log2 + 1) : Nat) := by exact_mod_cast Nat.lt_log2_self
    have h2 : ((m : ℝ) + 1) * 2 ^ e ≤ 2 ^ (e + m.log2 + 1) := by
      rw [show e + (m.log2 : ℤ) + 1 = ((m.log2 + 1 : Nat) : ℤ) + e by push_cast; ring, two_add, two_cast]
      refine mul_le_mul_of_nonneg_right ?_ (two_pos e).le
      exact_mod_cast h1
    cases hst : sticky
    · rw [h.same hst]
      refine lt_of_lt_of_le ?_ h2
      exact mul_lt_mul_of_pos_right (by linarith) (two_pos e)
    · exact lt_of_lt_of_le (h.below hst) h2
  have x0 : 0 < x := lt_of_lt_of_le (two_pos _) lo2
  have hlog : sticky = true → f.m + 32 ≤ m.log2 := by
    intro hst
    have := hl hst
    by_contra hc
    have h1 : m < 2 ^ (m.log2 + 1) := Nat.lt_log2_self
    have h2 : 2 ^ (m.log2 + 1) ≤ 2 ^ (f.m + 32) := Nat.pow_le_pow_right (by omega) (by omega)
    omega
  have hz : (decide (m = 0) && !sticky) = false := by simp [hm]
  by_cases hu : (!f.sgn && neg) = true
  · have hr : f.roundFin rnd sat z neg m e sticky = (0, fNV) := by
      unfold Fmt.roundFin
      rw [if_neg (by rw [hz]; simp), if_pos hu]
    have hb : ¬ (f.sgn = true ∨ neg = false) := by
      rintro (hc | hc) <;> simp [hc] at hu
    rw [hr]
    exact ⟨fun hc => absurd hc x0.ne', fun _ _ _ => rfl, fun _ _ _ hc => absurd hc hb, fun _ _ hc => absurd hc hb, fun _ hc => absurd hc hb,
      fun hc => absurd hc (by push Not; exact ⟨hfl.2.2.2.2.1, hfl.2.2.2.2.2.1⟩)⟩
  have hus : ¬ (f.sgn = false ∧ neg = true) := by rintro ⟨h1, h2⟩; simp [h1, h2] at hu
  unfold Fmt.roundFin
  rw [if_neg (by rw [hz]; simp), if_neg hu]
  simp only
  generalize htop : e + (m.log2 : ℤ) = top at *
  generalize hqm : 1 - f.bias - (f.m : ℤ) = qmin at *
  generalize hq : max qmin (top - (f.m : ℤ)) = q at *
  have hq1 : qmin ≤ q := by omega
  have hq2 : top - f.m ≤ q := by omega
  obtain ⟨p, p0, p1, hx, hp, hup⟩ := units_spec h q (fun hst => by have := hlog hst; omega)
  have pq := two_pos q
  have hu1 : (inUnits m e q).1 < 2 ^ (f.m + 1) := by
    have h1 : ((inUnits m e q).1 : ℝ) * 2 ^ q < 2 ^ (q + (f.m + 1 : Nat)) := by
      refine lt_of_le_of_lt ?_ (lt_of_lt_of_le hi2 (zpow_le_zpow_right₀ (by norm_num) (by push_cast; omega)))
      rw [hx]
      exact mul_le_mul_of_nonneg_right (by linarith) pq.le
    rw [two_add, two_cast, mul_comm] at h1
    exact_mod_cast lt_of_mul_lt_mul_left h1 pq.le
  have hu2 : q = qmin ∨ 2 ^ f.m ≤ (inUnits m e q).1 := by
    rcases Int.lt_or_le qmin (top - f.m) with hc | hc
    · right
      have e1 : top = q + (f.m : Nat) := by omega
      have h1 : (2 : ℝ) ^ (q + (f.m : Nat)) < ((inUnits m e q).1 + 1) * 2 ^ q := by
        rw [← e1]
        refine lt_of_le_of_lt lo2 ?_
        rw [hx]
        exact mul_lt_mul_of_pos_right (by linarith) pq
      rw [two_add, two_cast, mul_comm] at h1
      have h2 := lt_of_mul_lt_mul_right h1 pq.le
      have h3 : 2 ^ f.m < (inUnits m e q).1 + 1 := by exact_mod_cast h2
      omega
    · left; omega
  -- the neighbours
  have hj : qmin + ((q - qmin).toNat : ℤ) = q := by omega
  have hj2 : (q - qmin).toNat = 0 ∨ 2 ^ f.m ≤ (inUnits m e q).1 := by
    rcases hu2 with hc | hc
    · left; omega
    · exact .inr hc
  have gl := grid_at f (q - qmin).toNat (inUnits m e q).1 hj2 (by omega)
  have gh := grid_step f (q - qmin).toNat (inUnits m e q).1 hj2 hu1
  rw [hqm, hj] at gl gh
  generalize hlo : (q - qmin).toNat * 2 ^ f.m + (inUnits m e q).1 = lo at *
  have glx : f.grid lo ≤ x := by rw [gl, hx]; exact mul_le_mul_of_nonneg_right (by linarith) pq.le
  have ghx : x < f.grid (lo + 1) := by
    rw [gh, hx]; push_cast; exact mul_lt_mul_of_pos_right (by linarith) pq
  have here : ∀ k, f.grid k ≤ x → x < f.grid (k + 1) → k = lo := by
    intro k h1 h2
    have a1 : k < lo + 1 := (grid_mono f).lt_iff_lt.1 (lt_of_le_of_lt h1 ghx)
    have a2 : lo < k + 1 := (grid_mono f).lt_iff_lt.1 (lt_of_le_of_lt glx h2)
    omega
  have hpx : p = 0 ↔ x = f.grid lo := by
    rw [gl, hx]
    constructor
    · rintro rfl; rw [add_zero]
    · intro hc
      have := mul_right_cancel₀ pq.ne' hc
      linarith
  have hfrac : (x - f.grid lo) / (f.grid (lo + 1) - f.grid lo) = p := by
    rw [gl, gh, hx, div_eq_iff (by push_cast; nlinarith)]
    push_cast
    ring
  have hin : (decide ((inUnits m e q).2.1 ≠ 0) || sticky) = false ↔ p = 0 := by
    rw [hp]
    simp
  have hup := hup rnd neg (decide (lo % 2 = 1)) z
  generalize hcode : (if roundUp rnd neg (decide (lo % 2 = 1)) (inUnits m e q).2.1 (inUnits m e q).2.2 sticky z = true then lo + 1 else lo) = code
  have hc0 : p = 0 → code = lo := by
    intro hc
    rw [← hcode, if_neg]
    rw [hup, hc]
    exact fun hc => lt_irrefl _ hc.1
  have hc1 : ∀ c, (PicksHi rnd (neg = true) (lo % 2 = 1) z p → c = lo + 1) → (¬ PicksHi rnd (neg = true) (lo % 2 = 1) z p → c = lo) → p ≠ 0 → c = code := by
    intro c h1 h2 h3
    have hp0 : 0 < p := lt_of_le_of_ne p0 (Ne.symm h3)
    rw [← hcode]
    by_cases hP : PicksHi rnd (neg = true) (lo % 2 = 1) z p
    · rw [if_pos (hup.2 ⟨hp0, by simpa using hP⟩)]; exact h1 hP
    · rw [if_neg (fun hc => hP (by simpa using (hup.1 hc).2))]; exact h2 hP
  have hat : ∀ k, x = f.grid k → k = lo ∧ p = 0 := by
    intro k hk
    have : k = lo := here k hk.ge (hk ▸ grid_lt_succ f k)
    exact ⟨this, hpx.2 (this ▸ hk)⟩
  have hbetween : ∀ k, f.grid k < x → x < f.grid (k + 1) → k = lo ∧ p ≠ 0 := by
    intro k h1 h2
    have : k = lo := here k h1.le h2
    subst this
    exact ⟨rfl, fun hc => by rw [← hpx.1 hc] at h1; exact lt_irrefl _ h1⟩
  by_cases hov : f.maxCode < code
  · rw [if_pos hov]
    refine ⟨fun hc => absurd hc x0.ne', fun _ h1 h2 => absurd ⟨h1, h2⟩ hus, fun k hk _ _ he => ?_, fun _ _ _ _ => rfl, ?_,
      fun hc => absurd hc (by push Not; exact ⟨hfl.1, hfl.2.1⟩)⟩
    · obtain ⟨h1, h2⟩ := hat k he
      have := hc0 h2
      omega
    · intro k _ h1 h2 c h3 h4
      obtain ⟨rfl, hp⟩ := hbetween k h1 h2
      rw [hfrac] at h3 h4
      have := hc1 c h3 h4 hp
      exact ⟨fun _ => rfl, fun hc => by omega⟩
  · rw [if_neg hov]
    by_cases hex : p = 0
    · rw [if_pos (by rw [hin.2 hex]; rfl)]
      refine ⟨fun hc => absurd hc x0.ne', fun _ h1 h2 => absurd ⟨h1, h2⟩ hus, fun k hk _ _ he => ?_, fun k hk _ he => ?_, fun k _ h1 h2 => ?_,
        fun hc => absurd hc (by push Not; exact ⟨hfl.2.2.1, hfl.2.2.2.1⟩)⟩
      · obtain ⟨h1, h2⟩ := hat k he
        rw [hc0 h2, h1]
      · obtain ⟨h1, h2⟩ := hat k he
        have := hc0 h2
        omega
      · exact absurd hex (hbetween k h1 h2).2
    · have hin' : ¬ (!(decide ((inUnits m e q).2.1 ≠ 0) || sticky)) = true := by
        intro hc
        exact hex (hin.1 (by simpa using hc))
      rw [if_neg hin']
      refine ⟨fun hc => absurd hc x0.ne', fun _ h1 h2 => absurd ⟨h1, h2⟩ hus, fun k hk _ _ he => absurd (hat k he).2 hex,
        fun k hk _ he => absurd (hat k he).2 hex, fun k _ h1 h2 c h3 h4 => ?_, fun _ n p' hn1 hn2 hx1 hx2 c h3 h4 => ?_⟩
      · obtain ⟨rfl, hp⟩ := hbetween k h1 h2
        rw [hfrac] at h3 h4
        have := hc1 c h3 h4 hp
        subst this
        have hpair : ∀ P : Bool, (f.sign neg + c, if P = true then fNX ||| fUF else fNX) = (f.sign neg + c, fNX) ∨
            (f.sign neg + c, if P = true then fNX ||| fUF else fNX) = (f.sign neg + c, fNX ||| fUF) := by
          intro P; cases P <;> simp
        exact ⟨fun hc => absurd hc hov, fun _ => hpair _⟩
      · clear hup hin hin' hcode hc0 hc1 hov
        -- the same value in the unbounded binade
        have e1 : p' = top - f.m := by
          have a1 : (2 : ℝ) ^ (p' + (f.m : Nat)) ≤ x := by
            refine le_trans ?_ hx1
            rw [two_add, two_cast, mul_comm]
            exact mul_le_mul_of_nonneg_right (by exact_mod_cast hn1) (two_pos _).le
          have a2 : x < (2 : ℝ) ^ (p' + (f.m + 1 : Nat)) := by
            refine lt_of_lt_of_le hx2 ?_
            rw [two_add, two_cast, mul_comm]
            exact mul_le_mul_of_nonneg_left (by exact_mod_cast hn2) (two_pos _).le
          have b1 := (zpow_lt_zpow_iff_right₀ (by norm_num : (1 : ℝ) < 2)).1 (lt_of_le_of_lt a1 hi2)
          have b2 := (zpow_lt_zpow_iff_right₀ (by norm_num : (1 : ℝ) < 2)).1 (lt_of_le_of_lt lo2 a2)
          push_cast at b1 b2
          omega
        subst e1
        obtain ⟨v, v0, v1, hxv, hv, hvu⟩ := units_spec h (top - f.m) (fun hst => by have := hlog hst; omega)
        have pv := two_pos (top - f.m)
        have e2 : n = (inUnits m e (top - f.m)).1 := by
          rw [hxv] at hx1 hx2
          have a1 : (n : ℝ) ≤ (inUnits m e (top - f.m)).1 + v := le_of_mul_le_mul_right hx1 pv
          have a2 : ((inUnits m e (top - f.m)).1 : ℝ) + v < (n + 1 : Nat) := lt_of_mul_lt_mul_right hx2 pv.le
          have b1 : (n : ℝ) < ((inUnits m e (top - f.m)).1 + 1 : Nat) := by push_cast; linarith
          have b2 : ((inUnits m e (top - f.m)).1 : ℝ) < (n + 1 : Nat) := by linarith
          have b1 : n < (inUnits m e (top - f.m)).1 + 1 := by exact_mod_cast b1
          have b2 : (inUnits m e (top - f.m)).1 < n + 1 := by exact_mod_cast b2
          omega
        have hv2 : (x - n * (2 : ℝ) ^ (top - f.m)) / 2 ^ (top - f.m) = v := by
          rw [hxv, e2, div_eq_iff pv.ne']; ring
        have hv3 : x ≠ n * (2 : ℝ) ^ (top - f.m) ↔ 0 < v := by
          rw [hxv, e2]
          constructor
          · intro hc
            exact lt_of_le_of_ne v0 fun h0 => hc (by rw [← h0, add_zero])
          · intro h0 hc
            have := mul_right_cancel₀ pv.ne' hc
            linarith
        rw [hv2, hv3] at h3 h4
        have hodd : (decide (if f.m = 0 then (top + f.bias) % 2 = 1 else n % 2 = 1) = true) =
            (if f.m = 0 then (top - (f.m : ℤ) + f.bias) % 2 = 1 else n % 2 = 1) := by
          rw [decide_eq_true_iff]
          by_cases hm0 : f.m = 0
          · simp [hm0]
          · simp [hm0]
        have hvu := hvu rnd neg (decide (if f.m = 0 then (top + f.bias) % 2 = 1 else (inUnits m e (top - f.m)).1 % 2 = 1)) z
        rw [← e2, hodd] at hvu
        generalize hn' : (if roundUp rnd neg (decide (if f.m = 0 then (top + f.bias) % 2 = 1 else (inUnits m e (top - f.m)).1 % 2 = 1))
          (inUnits m e (top - f.m)).2.1 (inUnits m e (top - f.m)).2.2 sticky z = true then (inUnits m e (top - f.m)).1 + 1 else (inUnits m e (top - f.m)).1) = n'
        have hnc : c = n' := by
          rw [← hn', ← e2]
          by_cases hc : 0 < v ∧ PicksHi rnd (neg = true) (if f.m = 0 then (top - (f.m : ℤ) + f.bias) % 2 = 1 else n % 2 = 1) z v
          · rw [if_pos (hvu.2 hc)]; exact h3 hc
          · rw [if_neg (fun hd => hc (hvu.1 hd))]; exact h4 hc
        have htiny : ∀ P : Bool, (((if P = true then fNX ||| fUF else fNX) : Flags) = fNX ||| fUF) ↔ P = true := by
          intro P; cases P <;> simp [hfl]
        simp only
        rw [htiny, hnc, Bool.and_eq_true, decide_eq_true_iff]
        refine and_congr_right fun _ => ?_
        have hb := two_pos (1 - f.bias)
        split
        · rename_i hc
          have e3 : (2 : ℝ) ^ (top - (f.m : ℤ)) * 2 ^ (f.m : ℤ) = (2 ^ (top + f.bias - 1).toNat : Nat) * 2 ^ (1 - f.bias) := by
            rw [← two_add, ← two_cast, ← two_add]; congr 1; omega
          rw [decide_eq_true_iff]
          rw [two_cast] at e3
          have hpm : (0 : ℝ) < (2 ^ f.m : Nat) := by positivity
          have e4 : (n' : ℝ) * 2 ^ (top - (f.m : ℤ)) < 2 ^ (1 - f.bias) ↔ ((n' * 2 ^ (top + f.bias - 1).toNat : Nat) : ℝ) < (2 ^ f.m : Nat) := by
            rw [← mul_lt_mul_iff_left₀ hpm, mul_assoc, e3, ← mul_assoc, mul_comm ((2 : ℝ) ^ (1 - f.bias)), mul_lt_mul_iff_left₀ hb]
            push_cast; rfl
          rw [e4]
          exact Nat.cast_lt.symm
        · rename_i hc
          have e3 : (2 : ℝ) ^ (1 - f.bias) = (2 ^ (1 - f.bias - top).toNat : Nat) * 2 ^ (f.m : ℤ) * 2 ^ (top - (f.m : ℤ)) := by
            rw [← two_cast, ← two_add, ← two_add]; congr 1; omega
          rw [decide_eq_true_iff]
          rw [two_cast] at e3
          have e4 : (n' : ℝ) * 2 ^ (top - (f.m : ℤ)) < 2 ^ (1 - f.bias) ↔ (n' : ℝ) < (2 ^ f.m * 2 ^ (1 - f.bias - top).toNat : Nat) := by
            rw [e3, mul_lt_mul_iff_left₀ pv]
            push_cast
            rw [mul_comm]
          rw [e4]
          exact Nat.cast_lt.symm

/-- round_to of a finite value (R84 to R87). -/
theorem round_rounds (f : Fmt) (rnd : Rnd) (sat : Bool) (z : Nat) (neg : Bool) (m : Nat) (e : Int) :
    RoundsTo f rnd sat z neg (m * (2 : ℝ) ^ e) (f.round rnd sat z (.fin neg m e)) :=
  roundFin_rounds ⟨fun _ => rfl, fun h => (by simp at h), fun h => (by simp at h), fun h => (by simp at h)⟩ rnd sat z neg

/-- The quotient of finite values is the exact one, rounded once (R63). -/
theorem div_rounds (f : Fmt) (hf : f.m ≤ 64) (rnd : Rnd) (sat : Bool) (z : Nat) (s1 s2 : Bool) (m1 m2 : Nat) (e1 e2 : Int) (h : m2 ≠ 0) :
    RoundsTo f rnd sat z (s1 != s2) (m1 * (2 : ℝ) ^ e1 / (m2 * (2 : ℝ) ^ e2)) (f.div rnd sat z (.fin s1 m1 e1) (.fin s2 m2 e2)) := by
  unfold Fmt.div
  simp only [if_neg h]
  generalize hk : 192 + m2.log2 = k
  have hd := Nat.div_add_mod (m1 * 2 ^ k) m2
  have hm := Nat.mod_lt (m1 * 2 ^ k) (Nat.pos_of_ne_zero h)
  have hm2 : (0 : ℝ) < m2 := by exact_mod_cast Nat.pos_of_ne_zero h
  have c1 : (m1 : ℝ) * 2 ^ k = m2 * (m1 * 2 ^ k / m2 : Nat) + (m1 * 2 ^ k % m2 : Nat) := by exact_mod_cast hd.symm
  have c2 : ((m1 * 2 ^ k % m2 : Nat) : ℝ) < m2 := by exact_mod_cast hm
  have pe := two_pos (e1 - e2 - k)
  have hx : (m1 : ℝ) * 2 ^ e1 / (m2 * 2 ^ e2) = ((m1 * 2 ^ k / m2 : Nat) + (m1 * 2 ^ k % m2 : Nat) / m2) * 2 ^ (e1 - e2 - k) := by
    have e3 : (2 : ℝ) ^ e1 = 2 ^ (e1 - e2 - k) * 2 ^ e2 * 2 ^ k := by rw [← two_add, ← zpow_natCast, ← two_add]; congr 1; ring
    have := (two_pos e2).ne'
    rw [e3, div_eq_iff (by positivity), show ((m1 * 2 ^ k / m2 : Nat) + ((m1 * 2 ^ k % m2 : Nat) : ℝ) / m2) * 2 ^ (e1 - e2 - k) * (m2 * 2 ^ e2) =
      (m2 * (m1 * 2 ^ k / m2 : Nat) + (m1 * 2 ^ k % m2 : Nat) / m2 * m2) * 2 ^ (e1 - e2 - k) * 2 ^ e2 by ring, div_mul_cancel₀ _ hm2.ne', ← c1]
    ring
  refine roundFin_rounds ⟨fun hs => ?_, fun hs => ?_, fun hs => ?_, fun hs => ?_⟩ rnd sat z (s1 != s2)
  · have : m1 * 2 ^ k % m2 = 0 := by simpa using hs
    rw [hx, this]; simp
  · have : 0 < m1 * 2 ^ k % m2 := Nat.pos_of_ne_zero (by simpa using hs)
    have : (0 : ℝ) < (m1 * 2 ^ k % m2 : Nat) := by exact_mod_cast this
    rw [hx]
    refine mul_lt_mul_of_pos_right ?_ pe
    have : (0 : ℝ) < (m1 * 2 ^ k % m2 : Nat) / m2 := by positivity
    linarith
  · rw [hx]
    refine mul_lt_mul_of_pos_right ?_ pe
    have : ((m1 * 2 ^ k % m2 : Nat) : ℝ) / m2 < 1 := by rw [div_lt_one hm2]; exact c2
    linarith
  · have h1 : m1 ≠ 0 := by rintro rfl; simp at hs
    have h2 : m2 < 2 ^ (m2.log2 + 1) := Nat.lt_log2_self
    rw [Nat.le_div_iff_mul_le (Nat.pos_of_ne_zero h)]
    calc 2 ^ (f.m + 32) * m2 ≤ 2 ^ (f.m + 32) * 2 ^ (m2.log2 + 1) := Nat.mul_le_mul_left _ h2.le
      _ = 2 ^ (f.m + 32 + (m2.log2 + 1)) := (Nat.pow_add 2 _ _).symm
      _ ≤ 2 ^ k := Nat.pow_le_pow_right (by omega) (by omega)
      _ ≤ m1 * 2 ^ k := Nat.le_mul_of_pos_left _ (Nat.pos_of_ne_zero h1)

theorem isqrtFrom_spec (x : Nat) : ∀ i r, r * r ≤ x → x < (r + 2 ^ i) * (r + 2 ^ i) →
    isqrtFrom x i r * isqrtFrom x i r ≤ x ∧ x < (isqrtFrom x i r + 1) * (isqrtFrom x i r + 1)
  | 0, r, h1, h2 => ⟨h1, by simpa [isqrtFrom] using h2⟩
  | i + 1, r, h1, h2 => by
    have e : r + 2 ^ (i + 1) = r + 2 ^ i + 2 ^ i := by rw [Nat.pow_succ]; omega
    rw [e] at h2
    simp only [isqrtFrom]
    split
    · rename_i h
      exact isqrtFrom_spec x i _ h h2
    · rename_i h
      exact isqrtFrom_spec x i _ h1 (by omega)

/-- The integer square root. -/
theorem isqrt_spec (x : Nat) : isqrt x * isqrt x ≤ x ∧ x < (isqrt x + 1) * (isqrt x + 1) := by
  refine isqrtFrom_spec x _ 0 (by simp) ?_
  rw [Nat.zero_add, ← Nat.pow_add]
  exact lt_of_lt_of_le Nat.lt_log2_self (Nat.pow_le_pow_right (by omega) (by omega))

/-- The square root of a positive value is the exact one, rounded once (R63). -/
theorem sqrt_rounds (f : Fmt) (hf : f.m ≤ 64) (rnd : Rnd) (sat : Bool) (z m : Nat) (e : Int) (h : m ≠ 0) :
    RoundsTo f rnd sat z false (√(m * (2 : ℝ) ^ e)) (f.sqrt rnd sat z (.fin false m e)) := by
  unfold Fmt.sqrt
  simp only [if_neg h, Bool.false_eq_true, if_false]
  generalize hk : (if (e - 200) % 2 = 0 then (200 : Nat) else 201) = k
  have hk1 : 200 ≤ k ∧ (e - k) % 2 = 0 := by split at hk <;> omega
  generalize hX : m * 2 ^ k = X
  obtain ⟨l1, l2⟩ := isqrt_spec X
  generalize isqrt X = r at *
  have pe := two_pos ((e - k) / 2)
  have l1 : (r : ℝ) * r ≤ X := by exact_mod_cast l1
  have l2 : (X : ℝ) < (r + 1) * (r + 1) := by exact_mod_cast l2
  have r0 : (0 : ℝ) ≤ r := Nat.cast_nonneg _
  have hx : √(m * (2 : ℝ) ^ e) = √X * 2 ^ ((e - k) / 2) := by
    have e3 : (m : ℝ) * 2 ^ e = X * (2 ^ ((e - k) / 2) * 2 ^ ((e - k) / 2)) := by
      rw [← hX, ← two_add]
      push_cast
      rw [← zpow_natCast, mul_assoc, ← two_add]
      congr 2
      omega
    rw [e3, Real.sqrt_mul (Nat.cast_nonneg _), Real.sqrt_mul_self pe.le]
  have s1 : (r : ℝ) ≤ √X := by rw [Real.le_sqrt r0 (Nat.cast_nonneg _), sq]; exact l1
  have s2 : √(X : ℝ) < r + 1 := by rw [Real.sqrt_lt' (by positivity), sq]; exact l2
  have ss : √(X : ℝ) * √X = X := Real.mul_self_sqrt (Nat.cast_nonneg _)
  refine roundFin_rounds ⟨fun hs => ?_, fun hs => ?_, fun hs => ?_, fun hs => ?_⟩ rnd sat z false
  · have : r * r = X := by simpa using hs
    rw [hx, ← this]; push_cast; rw [Real.sqrt_mul_self r0]
  · have hne : r * r ≠ X := by simpa using hs
    rw [hx]
    refine mul_lt_mul_of_pos_right (lt_of_le_of_ne s1 fun hc => hne ?_) pe
    rw [← hc] at ss
    exact_mod_cast ss
  · rw [hx]; exact mul_lt_mul_of_pos_right s2 pe
  · have h1 : 2 ^ 200 ≤ X := by
      rw [← hX]
      exact le_trans (Nat.pow_le_pow_right (by omega) hk1.1) (Nat.le_mul_of_pos_left _ (Nat.pos_of_ne_zero h))
    have h2 : X < (r + 1) * (r + 1) := by exact_mod_cast l2
    by_contra hc
    have h3 : r + 1 ≤ 2 ^ 100 := by
      have : 2 ^ (f.m + 32) ≤ 2 ^ 100 := Nat.pow_le_pow_right (by omega) (by omega)
      omega
    have h4 : (r + 1) * (r + 1) ≤ 2 ^ 100 * 2 ^ 100 := Nat.mul_le_mul h3 h3
    rw [← Nat.pow_add] at h4
    omega

/-! ## Exact sums and products -/

theorem sint_real (s : Bool) (m : Nat) : ((sint s m : ℤ) : ℝ) = (if s then -1 else 1) * m := by cases s <;> simp [sint]

/-- The sum of finite values is exact. -/
theorem addFin_real (rnd : Rnd) (s1 s2 : Bool) (m1 m2 : Nat) (e1 e2 : Int) :
    (addFin rnd s1 m1 e1 s2 m2 e2).real = (Val.fin s1 m1 e1).real + (Val.fin s2 m2 e2).real := by
  unfold addFin
  split
  · rename_i h
    have h : m1 = 0 ∧ m2 = 0 := by simpa using h
    simp [Val.real, h.1, h.2]
  · split
    · rename_i h
      simp [Val.real, h]
    · split
      · rename_i h
        simp [Val.real, h]
      · simp only
        generalize he : min e1 e2 = e
        generalize hx : sint s1 (m1 * 2 ^ (e1 - e).toNat) + sint s2 (m2 * 2 ^ (e2 - e).toNat) = x
        have hr : (x : ℝ) * 2 ^ e = (Val.fin s1 m1 e1).real + (Val.fin s2 m2 e2).real := by
          have a1 : (2 : ℝ) ^ e1 = (2 ^ (e1 - e).toNat : Nat) * 2 ^ e := by rw [← two_cast, ← two_add]; congr 1; omega
          have a2 : (2 : ℝ) ^ e2 = (2 ^ (e2 - e).toNat : Nat) * 2 ^ e := by rw [← two_cast, ← two_add]; congr 1; omega
          rw [← hx]
          push_cast [sint_real]
          simp only [Val.real]
          rw [a1, a2]
          push_cast
          ring
        rw [← hr]
        split
        · rename_i h0
          simp [Val.real, h0]
        · simp only [Val.real]
          have : (if decide (x < 0) = true then (-1 : ℝ) else 1) * (x.natAbs : ℝ) = x := by
            rcases Int.lt_or_le x 0 with hl | hl
            · simp [hl, Nat.cast_natAbs, abs_of_neg hl]
            · simp [not_lt.2 hl, Nat.cast_natAbs, abs_of_nonneg hl]
          rw [← mul_assoc, this]

/-- The product of finite values is exact. -/
theorem mul_real (s1 s2 : Bool) (m1 m2 : Nat) (e1 e2 : Int) :
    (Val.fin (s1 != s2) (m1 * m2) (e1 + e2)).real = (Val.fin s1 m1 e1).real * (Val.fin s2 m2 e2).real := by
  simp only [Val.real]
  rw [two_add]
  push_cast
  cases s1 <;> cases s2 <;> simp <;> ring

/-! ## The codes of a format (R77) -/

theorem maxCode_lt (f : Fmt) : f.maxCode < 2 ^ (f.e + f.m) := by
  have h1 : 0 < 2 ^ f.m := Nat.two_pow_pos _
  have h2 : 0 < 2 ^ f.e := Nat.two_pow_pos _
  have h3 : 2 ^ (f.e + f.m) = 2 ^ f.e * 2 ^ f.m := Nat.pow_add ..
  have h4 : (2 ^ f.e - 1) * 2 ^ f.m ≤ 2 ^ f.e * 2 ^ f.m := Nat.mul_le_mul_right _ (Nat.sub_le _ _)
  have h5 : 0 < 2 ^ (f.e + f.m) := Nat.two_pow_pos _
  unfold Fmt.maxCode
  split
  · omega
  · split <;> omega

theorem value_fields (f : Fmt) (neg : Bool) (k : Nat) (h : k < 2 ^ (f.e + f.m)) :
    (f.sign neg + k) % 2 ^ (f.e + f.m) = k ∧
    (f.sgn && decide ((f.sign neg + k) / 2 ^ (f.e + f.m) % 2 = 1)) = (f.sgn && neg) := by
  have hp : 0 < 2 ^ (f.e + f.m) := Nat.two_pow_pos _
  unfold Fmt.sign
  cases hs : f.sgn
  · simp [Nat.mod_eq_of_lt h]
  · cases neg
    · simp [Nat.mod_eq_of_lt h, Nat.div_eq_of_lt h]
    · simp [Nat.mod_eq_of_lt h, Nat.add_div_left _ hp, Nat.div_eq_of_lt h]

/-- A code up to the largest finite one stands for its value of the grid, with its sign. -/
theorem value_finite (f : Fmt) (h : f.Sound) (neg : Bool) (k : Nat) (hk : k ≤ f.maxCode) :
    ∃ m e, f.value (f.sign neg + k) = .fin (f.sgn && neg) m e ∧ (m : ℝ) * 2 ^ e = f.grid k := by
  have hl := lt_of_le_of_lt hk (maxCode_lt f)
  obtain ⟨v1, v2⟩ := value_fields f neg k hl
  have hp : 0 < 2 ^ f.m := Nat.two_pow_pos _
  have hd := Nat.div_add_mod k (2 ^ f.m)
  have n1 : (f.nan = 1 && k = 2 ^ (f.e + f.m) - 1) = false := by
    rw [Bool.eq_false_iff]
    intro hc
    simp only [Bool.and_eq_true, decide_eq_true_eq] at hc
    rw [Fmt.maxCode, if_neg (by omega), if_pos hc.1] at hk
    have := (h.ones hc.1).2
    have : 2 ^ 2 ≤ 2 ^ (f.e + f.m) := Nat.pow_le_pow_right (by omega) this
    omega
  have n2 : f.nan = 2 → k / 2 ^ f.m ≠ 2 ^ f.e - 1 := by
    intro hn hc
    rw [Fmt.maxCode, if_pos hn] at hk
    rw [hc, Nat.mul_comm] at hd
    have h1 := (h.ieee hn).1
    have : 2 ^ 2 ≤ 2 ^ f.e := Nat.pow_le_pow_right (by omega) h1
    have : 1 * 1 ≤ (2 ^ f.e - 1) * 2 ^ f.m := Nat.mul_le_mul (by omega) hp
    omega
  have n3 : (f.nan = 2 && k / 2 ^ f.m = 2 ^ f.e - 1 && k % 2 ^ f.m ≠ 0) = false := by
    rw [Bool.eq_false_iff]
    intro hc
    simp only [Bool.and_eq_true, decide_eq_true_eq] at hc
    exact n2 hc.1.1 hc.1.2
  have n4 : (f.inf && k / 2 ^ f.m = 2 ^ f.e - 1 && k % 2 ^ f.m = 0) = false := by
    rw [Bool.eq_false_iff]
    intro hc
    simp only [Bool.and_eq_true, decide_eq_true_eq] at hc
    exact n2 (h.inf.1 hc.1.1) hc.1.2
  unfold Fmt.value Fmt.grid
  simp only [v1, v2, n1, n3, n4, Bool.false_eq_true, if_false]
  split
  · exact ⟨_, _, rfl, rfl⟩
  · exact ⟨_, _, rfl, rfl⟩

/-- A code beyond it is a NaN or an infinity, as the format encodes them. -/
theorem value_special (f : Fmt) (h : f.Sound) (neg : Bool) (k : Nat) (h1 : f.maxCode < k) (h2 : k < 2 ^ (f.e + f.m)) :
    (f.inf = true ∧ k = (2 ^ f.e - 1) * 2 ^ f.m ∧ f.value (f.sign neg + k) = .inf (f.sgn && neg)) ∨
    ((f.nan = 1 ∨ (f.nan = 2 ∧ k ≠ (2 ^ f.e - 1) * 2 ^ f.m)) ∧ (f.value (f.sign neg + k)).isNan = true) := by
  obtain ⟨v1, v2⟩ := value_fields f neg k h2
  have hp : 0 < 2 ^ f.m := Nat.two_pow_pos _
  have he : 0 < 2 ^ f.e := Nat.two_pow_pos _
  have hd := Nat.div_add_mod k (2 ^ f.m)
  have h3 : 2 ^ (f.e + f.m) = 2 ^ f.e * 2 ^ f.m := Nat.pow_add ..
  unfold Fmt.maxCode at h1
  split at h1
  · rename_i hn
    have hi : f.inf = true := h.inf.2 hn
    have hq : k / 2 ^ f.m = 2 ^ f.e - 1 := by
      rw [Nat.div_eq_iff hp]
      have : 2 ^ f.e * 2 ^ f.m = (2 ^ f.e - 1) * 2 ^ f.m + 2 ^ f.m := by
        conv_lhs => rw [← Nat.sub_add_cancel he]
        ring
      omega
    rw [hq, Nat.mul_comm] at hd
    by_cases hz : k % 2 ^ f.m = 0
    · left
      refine ⟨hi, by omega, ?_⟩
      unfold Fmt.value
      simp only [v1, v2, hq, hz, hi, hn]
      simp
    · right
      refine ⟨.inr ⟨hn, by omega⟩, ?_⟩
      unfold Fmt.value
      simp only [v1, v2, hq, hn]
      simp [hz, Val.isNan]
  · split at h1
    · rename_i hn
      right
      refine ⟨.inl hn, ?_⟩
      have : k = 2 ^ (f.e + f.m) - 1 := by omega
      unfold Fmt.value
      simp only [v1, v2, hn]
      rw [if_pos (by simp [this])]
      rfl
    · omega

/-! ## Rounding to an integer (R64) -/

theorem roundInt_rounds (rnd : Rnd) (z : Nat) (neg : Bool) (m : Nat) (e : Int) (x : ℝ) (hx : x = m * (2 : ℝ) ^ e) (n : Nat) (h1 : n ≤ x)
    (h2 : x < (n + 1 : Nat)) :
    (x = n → roundInt rnd z neg m e = (sint neg n, false)) ∧
    (x ≠ n → PicksHi rnd (neg = true) (n % 2 = 1) z (x - n) → roundInt rnd z neg m e = (sint neg (n + 1), true)) ∧
    (x ≠ n → ¬ PicksHi rnd (neg = true) (n % 2 = 1) z (x - n) → roundInt rnd z neg m e = (sint neg n, true)) := by
  obtain ⟨p, p0, p1, hp, hz, hu⟩ := units_spec (f := fp64) (m := m) (e := e) (sticky := false) (x := x)
    ⟨fun _ => hx, fun h => (by simp at h), fun h => (by simp at h), fun h => (by simp at h)⟩ 0 (fun h => by simp at h)
  simp only [zpow_zero, mul_one] at hp
  have hn : n = (inUnits m e 0).1 := by
    rw [hp] at h1 h2
    have a1 : (n : ℝ) < ((inUnits m e 0).1 + 1 : Nat) := by push_cast; linarith
    have a2 : ((inUnits m e 0).1 : ℝ) < (n + 1 : Nat) := by linarith
    have a1 : n < (inUnits m e 0).1 + 1 := by exact_mod_cast a1
    have a2 : (inUnits m e 0).1 < n + 1 := by exact_mod_cast a2
    omega
  have hpn : x - n = p := by rw [hp, hn]; ring
  have hu := hu rnd neg (decide ((inUnits m e 0).1 % 2 = 1)) z
  rw [← hn] at hu
  have hi : x = n ↔ p = 0 := by rw [← hpn, sub_eq_zero]
  unfold roundInt
  simp only [← hn]
  rw [hi, hpn]
  have hd : (decide (n % 2 = 1) = true) = (n % 2 = 1) := by simp
  rw [hd] at hu
  refine ⟨fun h => ?_, fun h hP => ?_, fun h hP => ?_⟩
  · have := hz.1 h
    rw [if_neg (fun hc => by rw [hu, h] at hc; exact lt_irrefl _ hc.1)]
    simp [this.1]
  · have h0 : p ≠ 0 := fun hc => h (hi.2 hc)
    have h' : (inUnits m e 0).2.1 ≠ 0 := fun hc => h0 (hz.2 ⟨hc, rfl⟩)
    rw [if_pos (hu.2 ⟨lt_of_le_of_ne p0 (Ne.symm h0), hP⟩)]
    simp [h']
  · have h' : (inUnits m e 0).2.1 ≠ 0 := fun hc => h (hi.2 (hz.2 ⟨hc, rfl⟩))
    rw [if_neg (fun hc => hP (hu.1 hc).2)]
    simp [h']

end Sys2Proof.Machine
end

