-- ==== Sys2Proof/Laws/Tiles.lean ====
section
/-! SUPPORT. What tile operations do to the rows of a tile, and what a K-group does to an element (04, R94 to R96; 07, R162, R166, R169). -/

set_option linter.unusedSimpArgs false
set_option Elab.async false

namespace Sys2Proof.Machine

/-! ## Rows -/

theorem setRow_sorted {t : Thread} (h : sortedFrom 0 t.rows = true) (i : Nat) (w : Row) : sortedFrom 0 (t.setRow i w).rows = true := by
  simp only [Thread.setRow, tset]
  split
  · exact sortedFrom_tdrop h
  · exact sortedFrom_tput w h (Nat.zero_le _)

theorem setRow_row {t : Thread} (h : sortedFrom 0 t.rows = true) (i j : Nat) (w : Row) : (t.setRow i w).row j = if j = i then w else t.row j := by
  simp only [Thread.setRow, Thread.row, tset, tget]
  split
  · rename_i hw
    split
    · rename_i hj
      rw [hj, tfind_tdrop_self h, hw]; rfl
    · rename_i hj
      rw [tfind_tdrop_other hj h]
  · split
    · rename_i hj
      rw [hj, tfind_tput_self]; rfl
    · rename_i hj
      rw [tfind_tput_other hj]

theorem setRows {t : Thread} (h : sortedFrom 0 t.rows = true) (base : Nat) (f : Nat → Row) (n : Nat) (u : Thread)
    (hu : u = (List.range n).foldl (fun t i => t.setRow (base + i) (f i)) t) :
    u = { t with rows := u.rows } ∧ sortedFrom 0 u.rows = true ∧ ∀ j, u.row j = if base ≤ j ∧ j < base + n then f (j - base) else t.row j := by
  induction n generalizing u with
  | zero => subst hu; exact ⟨rfl, h, fun j => by rw [if_neg (by omega)]⟩
  | succ n ih =>
    rw [List.range_succ, List.foldl_append] at hu
    obtain ⟨h1, h2, h3⟩ := ih _ rfl
    generalize (List.range n).foldl (fun t i => t.setRow (base + i) (f i)) t = v at *
    simp only [List.foldl_cons, List.foldl_nil] at hu
    subst hu
    refine ⟨?_, setRow_sorted h2 _ _, fun j => ?_⟩
    · rw [h1]; rfl
    · rw [setRow_row h2, h3]
      by_cases hj : j = base + n
      · rw [if_pos hj, if_pos (by omega), hj, Nat.add_sub_cancel_left]
      · rw [if_neg hj]
        by_cases hc : base ≤ j ∧ j < base + n
        · rw [if_pos hc, if_pos (by omega)]
        · rw [if_neg hc, if_neg (by omega)]

/-- mzero performed: every row of its tile is zeros, and no other row changes (R162). -/
theorem zero_performed {t : Thread} (h : sortedFrom 0 t.rows = true) (k H : Nat) (hH : H = t.mgrant / t.tiles) :
    ∃ rs, performTile t (.zero k) = (({ t with rows := rs } : Thread).cleanRows k 0 H, none) ∧
      ∀ j, tget 0 j rs = if k * H ≤ j ∧ j < k * H + H then 0 else t.row j := by
  subst hH
  obtain ⟨h1, _, h3⟩ := setRows h (k * (t.mgrant / t.tiles)) (fun _ => 0) (t.mgrant / t.tiles) _ rfl
  refine ⟨_, ?_, h3⟩
  simp only [performTile]
  rw [← h1]

/-- mlda performed: its rows hold what it read, and no other row changes (R169). -/
theorem load_performed {t : Thread} (h : sortedFrom 0 t.rows = true) (k row0 H : Nat) (rows : List Row) (hH : H = t.mgrant / t.tiles) :
    ∃ rs, performTile t (.load k row0 rows) = (({ t with rows := rs } : Thread).cleanRows k row0 rows.length, none) ∧
      ∀ j, tget 0 j rs = if k * H + row0 ≤ j ∧ j < k * H + row0 + rows.length then rows.getD (j - (k * H + row0)) 0 else t.row j := by
  subst hH
  obtain ⟨h1, _, h3⟩ := setRows h (k * (t.mgrant / t.tiles) + row0) (fun i => rows.getD i 0) rows.length _ rfl
  refine ⟨_, ?_, h3⟩
  have hz : (List.range rows.length).zip rows = (List.range rows.length).map fun i => (i, rows.getD i 0) := by
    apply List.ext_getElem
    · simp
    · intro i h1 h2
      have hi : i < rows.length := by simpa using h2
      simp [hi]
  simp only [performTile, hz, List.foldl_map]
  rw [← h1]

/-- A mop performed: row r of its tile holds what its K-groups make of it, the flags of all elements are raised and msat set where one
sets it, and no other row changes (R157, R166). -/
theorem mop_performed {t : Thread} (h : sortedFrom 0 t.rows = true) (k g H : Nat) (a b : Array Val) (keep : Option PReg) (kind : MopKind)
    (hH : H = t.mgrant / t.tiles) (es : Nat → List Entered) (he : es = fun r => mopRow g a b keep kind r (t.row (k * H + r))) :
    ∃ rs, performTile t (.mop k g a b keep kind) =
        (t.entered rs ((List.range H).flatMap es), none) ∧
      ∀ j, tget 0 j rs = if k * H ≤ j ∧ j < k * H + H then rowOf ((es (j - k * H)).map (·.code)) else t.row j := by
  subst hH
  have key : ∀ n, n ≤ t.mgrant / t.tiles → ∃ rs, (List.range n).foldl (fun u r =>
      let es := mopRow g a b keep kind r (u.row (k * (t.mgrant / t.tiles) + r))
      let v := (u.setRow (k * (t.mgrant / t.tiles) + r) (rowOf (es.map (·.code)))).raiseLate (es.foldl (fun fl e => fl ||| e.flags) 0)
      if es.any (·.msat) then v.satLate else v) t = t.entered rs ((List.range n).flatMap es) ∧ sortedFrom 0 rs = true ∧
      ∀ j, tget 0 j rs = if k * (t.mgrant / t.tiles) ≤ j ∧ j < k * (t.mgrant / t.tiles) + n
        then rowOf ((es (j - k * (t.mgrant / t.tiles))).map (·.code)) else t.row j := by
    intro n
    induction n with
    | zero =>
      intro _
      refine ⟨t.rows, ?_, h, fun j => by rw [if_neg (by omega)]; rfl⟩
      show t = _
      simp only [List.range_zero, List.flatMap_nil, Thread.entered, List.foldl_nil, List.any_nil, Bool.or_false, BitVec.or_zero]
      cases t with
      | mk => simp
    | succ n ih =>
      intro hn
      obtain ⟨rs, h1, h2, h3⟩ := ih (by omega)
      rw [List.range_succ, List.foldl_append, h1]
      simp only [List.foldl_cons, List.foldl_nil]
      have hrow : (t.entered rs ((List.range n).flatMap es)).row (k * (t.mgrant / t.tiles) + n) = t.row (k * (t.mgrant / t.tiles) + n) := by
        show tget 0 _ rs = _
        rw [h3, if_neg (by omega)]
      have hes : mopRow g a b keep kind n (t.row (k * (t.mgrant / t.tiles) + n)) = es n := by rw [he]
      rw [hrow, hes]
      have hs := setRow_sorted (t := t.entered rs ((List.range n).flatMap es)) h2 (k * (t.mgrant / t.tiles) + n) (rowOf ((es n).map (·.code)))
      have hr := fun j => setRow_row (t := t.entered rs ((List.range n).flatMap es)) h2 (k * (t.mgrant / t.tiles) + n) j (rowOf ((es n).map (·.code)))
      refine ⟨((t.entered rs ((List.range n).flatMap es)).setRow (k * (t.mgrant / t.tiles) + n) (rowOf ((es n).map (·.code)))).rows, ?_, hs, fun j => ?_⟩
      · have hor : ∀ (l : List Entered) (x : Flags), l.foldl (fun fl e => fl ||| e.flags) x = x ||| l.foldl (fun fl e => fl ||| e.flags) 0 := by
          intro l
          induction l with
          | nil => intro x; simp
          | cons e l ih => intro x; rw [List.foldl_cons, ih, List.foldl_cons, ih (0 ||| e.flags)]; simp [BitVec.or_assoc]
        rw [List.flatMap_append]
        simp only [List.flatMap_cons, List.flatMap_nil, List.append_nil]
        unfold Thread.entered
        rw [List.foldl_append, hor (es n) (List.foldl _ _ _), List.any_append]
        cases hm : (es n).any (·.msat)
        · simp only [Bool.false_eq_true, if_false, Bool.or_false]
          simp only [Thread.raiseLate, Thread.setRow, Option.map_map, Function.comp_def, BitVec.or_assoc, BitVec.zero_or]
        · simp only [if_true, Bool.or_true]
          simp only [Thread.raiseLate, Thread.setRow, Thread.satLate, Option.map_map, Function.comp_def, BitVec.or_assoc, BitVec.zero_or]
      · show ((t.entered rs ((List.range n).flatMap es)).setRow (k * (t.mgrant / t.tiles) + n) (rowOf ((es n).map (·.code)))).row j = _
        rw [hr]
        by_cases hj : j = k * (t.mgrant / t.tiles) + n
        · rw [if_pos hj, if_pos (by omega), hj, Nat.add_sub_cancel_left]
        · rw [if_neg hj]
          show tget 0 j rs = _
          rw [h3]
          by_cases hc : k * (t.mgrant / t.tiles) ≤ j ∧ j < k * (t.mgrant / t.tiles) + n
          · rw [if_pos hc, if_pos (by omega)]
          · rw [if_neg hc, if_neg (by omega)]
  obtain ⟨rs, h1, _, h3⟩ := key _ le_rfl
  exact ⟨rs, congrArg (·, none) h1, h3⟩

/-- A drain performed reads its rows, with their poison, and changes nothing (R169). -/
theorem drain_performed (t : Thread) (k row0 n H : Nat) (d : Drain) (hH : H = t.mgrant / t.tiles) :
    performTile t (.drain k row0 n d) =
      (t, some { d with rows := (List.range n).map fun i => (t.row (k * H + row0 + i), t.rowPoison k (row0 + i)) }) := by
  subst hH; rfl

/-- The codes of a row. -/
theorem rowCode_rowOf (l : List Nat) : ∀ (c : Nat), c < 256 → rowCode (rowOf l) c = (l.getD c 0) % 2 ^ 32 := by
  have key : ∀ (l : List Nat) (c : Nat), l.foldr (fun x acc => x % 2 ^ 32 + acc * 2 ^ 32) 0 / 2 ^ (32 * c) % 2 ^ 32 = (l.getD c 0) % 2 ^ 32 := by
    intro l
    induction l with
    | nil => intro c; simp
    | cons x l ih =>
      intro c
      rw [List.foldr_cons]
      generalize l.foldr (fun x acc => x % 2 ^ 32 + acc * 2 ^ 32) 0 = y at *
      have hx : x % 2 ^ 32 < 2 ^ 32 := Nat.mod_lt _ (by norm_num)
      cases c with
      | zero => simp
      | succ c =>
        rw [show 32 * (c + 1) = 32 + 32 * c by ring, Nat.pow_add, ← Nat.div_div_eq_div_mul]
        have : (x % 2 ^ 32 + y * 2 ^ 32) / 2 ^ 32 = y := by omega
        rw [this, ih]
        simp
  intro c hc
  unfold rowCode rowOf
  rw [BitVec.extractLsb'_toNat, BitVec.toNat_ofNat, Nat.shiftRight_eq_div_pow, ← key l c]
  have e : 8192 = c * 32 + (8192 - c * 32) := by omega
  rw [e, Nat.pow_add, Nat.mod_mul_right_div_self, Nat.mul_comm c 32]
  rw [Nat.mod_mod_of_dvd _ (Nat.pow_dvd_pow 2 (by omega))]

/-- The elements of a row of a mop (R166): each from its own code and the products of the row's positions with its column. -/
theorem mopRow_at (g : Nat) (a b : Array Val) (keep : Option PReg) (kind : MopKind) (r : Nat) (row : Row) (c : Nat) (hc : c < 256) :
    (mopRow g a b keep kind r row)[c]? = some (enterGroup kind (rowCode row c)
      ((keptOf g r keep).map fun k => (a.getD k.2 (.nan true), b.getD (k.1 * 256 + c) (.nan true)))) := by
  simp [mopRow, hc]

end Sys2Proof.Machine
end

