-- ==== Sys2Proof/Laws/Products.lean ====
section
/-! SUPPORT. What a K-group does to a tile element (04, R94 to R96). -/

set_option linter.unusedSimpArgs false
set_option Elab.async false

namespace Sys2Proof.Machine

/-- The fused multiply-add of finite values: the exact product and sum, rounded once (R63, R94). -/
theorem fma_exact (f : Fmt) (rnd : Rnd) (sat : Bool) (z : Nat) (s1 s2 s3 : Bool) (m1 m2 m3 : Nat) (e1 e2 e3 : Int) :
    ∃ neg m e, (Val.fin neg m e).real = (Val.fin s1 m1 e1).real * (Val.fin s2 m2 e2).real + (Val.fin s3 m3 e3).real ∧
      f.fma rnd sat z (.fin s1 m1 e1) (.fin s2 m2 e2) (.fin s3 m3 e3) = f.round rnd sat z (.fin neg m e) := by
  have hr := addFin_real rnd (s1 != s2) s3 (m1 * m2) m3 (e1 + e2) e3
  rw [mul_real] at hr
  have hf : ∃ neg m e, addFin rnd (s1 != s2) (m1 * m2) (e1 + e2) s3 m3 e3 = .fin neg m e := by
    unfold addFin
    split
    · exact ⟨_, _, _, rfl⟩
    · split
      · exact ⟨_, _, _, rfl⟩
      · split
        · exact ⟨_, _, _, rfl⟩
        · simp only
          split
          · exact ⟨_, _, _, rfl⟩
          · exact ⟨_, _, _, rfl⟩
  obtain ⟨neg, m, e, h⟩ := hf
  rw [h] at hr
  refine ⟨neg, m, e, hr, ?_⟩
  simp [Fmt.fma, Val.mul, Val.add, h, Val.snan]

/-- A fused group, product by product in ascending order (R94). -/
theorem fused_step (acc : Nat) (ps : List (Val × Val)) (p : Val × Val) (e : Entered) (he : e = enterFused acc ps) (r : Rounded)
    (hr : r = fp32.fma 0 false 0 p.1 p.2 (fp32.value e.code)) :
    enterFused acc [] = { code := acc, flags := 0, msat := false } ∧
    enterFused acc (ps ++ [p]) = { code := r.1, flags := e.flags ||| r.2, msat := e.msat } := by
  subst he hr
  refine ⟨rfl, ?_⟩
  simp [enterFused]

theorem int_fin_real (x : Int) (e : Int) : (Val.fin (decide (x < 0)) x.natAbs e).real = x * (2 : ℝ) ^ e := by
  have : (if decide (x < 0) = true then (-1 : ℝ) else 1) * (x.natAbs : ℝ) = x := by
    rcases Int.lt_or_le x 0 with hl | hl
    · simp [hl, Nat.cast_natAbs, abs_of_neg hl]
    · simp [not_lt.2 hl, Nat.cast_natAbs, abs_of_nonneg hl]
  simp only [Val.real]
  rw [← mul_assoc, this]

theorem abs_real (s : Bool) (m : Nat) (e : Int) : |(Val.fin s m e).real| = m * (2 : ℝ) ^ e := by
  have : (0 : ℝ) ≤ m * (2 : ℝ) ^ e := mul_nonneg (Nat.cast_nonneg _) (two_pos e).le
  cases s <;> simp [Val.real, abs_of_nonneg this]

theorem top_bounds (s : Bool) (m : Nat) (e : Int) (h : m ≠ 0) :
    (2 : ℝ) ^ (e + m.log2) ≤ |(Val.fin s m e).real| ∧ |(Val.fin s m e).real| < (2 : ℝ) ^ (e + m.log2 + 1) := by
  rw [abs_real]
  have h1 : ((2 ^ m.log2 : Nat) : ℝ) ≤ m := by exact_mod_cast Nat.log2_self_le h
  have h2 : (m : ℝ) < (2 ^ (m.log2 + 1) : Nat) := by exact_mod_cast Nat.lt_log2_self
  constructor
  · rw [two_add, two_cast, mul_comm]
    exact mul_le_mul_of_nonneg_right h1 (two_pos e).le
  · rw [show e + (m.log2 : ℤ) + 1 = ((m.log2 + 1 : Nat) : ℤ) + e by push_cast; ring, two_add, two_cast]
    exact mul_lt_mul_of_pos_right h2 (two_pos e)

theorem foldl_max_head (l : List Int) (h : l ≠ []) : l.foldl max (l.headD 0) ∈ l ∧ ∀ x ∈ l, x ≤ l.foldl max (l.headD 0) := by
  have key : ∀ (l : List Int) (i : Int), (l.foldl max i = i ∨ l.foldl max i ∈ l) ∧ i ≤ l.foldl max i ∧ ∀ x ∈ l, x ≤ l.foldl max i := by
    intro l
    induction l with
    | nil => intro i; simp
    | cons a l ih =>
      intro i
      obtain ⟨h1, h2, h3⟩ := ih (max i a)
      rw [List.foldl_cons]
      have a1 := le_max_left i a
      have a2 := le_max_right i a
      refine ⟨?_, by omega, fun x hx => ?_⟩
      · rcases h1 with h1 | h1
        · rw [h1]
          rcases max_choice i a with h | h <;> rw [h]
          · exact .inl rfl
          · exact .inr (by simp)
        · exact .inr (by simp [h1])
      · rw [List.mem_cons] at hx
        rcases hx with rfl | hx
        · omega
        · exact h3 x hx
  cases l with
  | nil => exact absurd rfl h
  | cons a l =>
    obtain ⟨h1, h2, h3⟩ := key (a :: l) a
    refine ⟨?_, h3⟩
    rcases h1 with h1 | h1
    · show (a :: l).foldl max a ∈ _
      rw [h1]; simp
    · exact h1

theorem foldl_sint {α : Type} (g : α → Int) (l : List α) : ∀ i : Int, l.foldl (fun acc u => acc + g u) i = i + (l.map g).sum := by
  induction l with
  | nil => intro i; simp
  | cons a l ih => intro i; rw [List.foldl_cons, ih, List.map_cons, List.sum_cons]; ring

/-- The window sum of a group of finite products, not all zero (R95). -/
theorem window_sum (ps : List Val) (hf : ∀ v ∈ ps, ∃ s m e, v = .fin s m e) (hz : ∃ v ∈ ps, v.isZero = false) (emax : Int)
    (hlow : ∃ v ∈ ps, (2 : ℝ) ^ emax ≤ |v.real|) (hhigh : ∀ v ∈ ps, |v.real| < (2 : ℝ) ^ (emax + 1)) (sticky : Bool)
    (hs : sticky = true ↔ ∃ v ∈ ps, windowCut emax v.real ≠ v.real) :
    ∃ neg m e, (Val.fin neg m e).real = windowTotal emax (ps.map Val.real) sticky ∧
      ∀ q, q = fp32.round 0 false 0 (.fin neg m e) → windowSum ps = (fp32.value q.1, q.2 ||| (if sticky then fNX else 0)) := by
  have hinf : ∀ b, (ps.any fun v => v == .inf b) = false := by
    intro b
    rw [Bool.eq_false_iff]
    intro hc
    obtain ⟨v, hv, he⟩ := List.any_eq_true.1 hc
    obtain ⟨s, m, e, rfl⟩ := hf v hv
    simp at he
  have hnan : (ps.any (·.isNan)) = false := by
    rw [Bool.eq_false_iff]
    intro hc
    obtain ⟨v, hv, he⟩ := List.any_eq_true.1 hc
    obtain ⟨s, m, e, rfl⟩ := hf v hv
    simp [Val.isNan] at he
  have hall : (ps.all (·.isZero)) = false := by
    rw [Bool.eq_false_iff]
    intro hc
    obtain ⟨v, hv, he⟩ := hz
    have := List.all_eq_true.1 hc v hv
    rw [he] at this
    exact absurd this (by simp)
  -- the window's place
  have htops : ((ps.filter (!·.isZero)).map windowSum.Val.top').foldl max (((ps.filter (!·.isZero)).map windowSum.Val.top').headD 0) = emax := by
    have hne : (ps.filter (!·.isZero)).map windowSum.Val.top' ≠ [] := by
      obtain ⟨v, hv, he⟩ := hz
      intro hc
      have : v ∈ ps.filter (!·.isZero) := List.mem_filter.2 ⟨hv, by simp [he]⟩
      rw [List.map_eq_nil_iff] at hc
      rw [hc] at this
      exact absurd this (by simp)
    obtain ⟨h1, h2⟩ := foldl_max_head _ hne
    generalize ((ps.filter (!·.isZero)).map windowSum.Val.top').foldl max (((ps.filter (!·.isZero)).map windowSum.Val.top').headD 0) = M at *
    obtain ⟨w, hw, hwM⟩ := List.mem_map.1 h1
    obtain ⟨hw1, hw2⟩ := List.mem_filter.1 hw
    obtain ⟨s, m, e, rfl⟩ := hf w hw1
    have hm : m ≠ 0 := by simpa [Val.isZero] using hw2
    have b1 := top_bounds s m e hm
    have c1 : (2 : ℝ) ^ M < 2 ^ (emax + 1) := by
      rw [← hwM]; exact lt_of_le_of_lt b1.1 (hhigh _ hw1)
    have c1 := (zpow_lt_zpow_iff_right₀ (by norm_num : (1 : ℝ) < 2)).1 c1
    obtain ⟨v, hv, hv2⟩ := hlow
    obtain ⟨s', m', e', rfl⟩ := hf v hv
    have hm' : m' ≠ 0 := by
      rintro rfl
      rw [abs_real] at hv2
      have := two_pos emax
      simp at hv2
      linarith
    have b2 := top_bounds s' m' e' hm'
    have c2 := (zpow_lt_zpow_iff_right₀ (by norm_num : (1 : ℝ) < 2)).1 (lt_of_le_of_lt hv2 b2.2)
    have c3 : e' + m'.log2 ≤ M := h2 _ (List.mem_map.2 ⟨_, List.mem_filter.2 ⟨hv, by simp [Val.isZero, hm']⟩, rfl⟩)
    omega
  -- each product in units
  generalize hu : (fun v : Val => match v with | .fin s m e => (s, inUnits m e (emax - 55)) | _ => (false, (0, 0, 1))) = un
  have each : ∀ v ∈ ps, windowCut emax v.real = (sint (un v).1 (un v).2.1 : Int) * (2 : ℝ) ^ (emax - 55) ∧
      (windowCut emax v.real ≠ v.real ↔ (un v).2.2.1 ≠ 0) := by
    intro v hv
    obtain ⟨s, m, e, rfl⟩ := hf v hv
    obtain ⟨j, hd, hj, hr, hm⟩ := inUnits_spec m e (emax - 55)
    have hun : un (.fin s m e) = (s, inUnits m e (emax - 55)) := by rw [← hu]
    rw [hun]
    have pq := two_pos (emax - 55)
    have hr1 : ((inUnits m e (emax - 55)).2.1 : ℝ) + 1 ≤ 2 ^ j := by exact_mod_cast hr
    have r0 : (0 : ℝ) ≤ (inUnits m e (emax - 55)).2.1 := Nat.cast_nonneg _
    have pj : (0 : ℝ) < 2 ^ j := by positivity
    have hfr : ((inUnits m e (emax - 55)).2.1 : ℝ) / 2 ^ j < 1 := by rw [div_lt_one pj]; linarith
    have hfr0 : (0 : ℝ) ≤ ((inUnits m e (emax - 55)).2.1 : ℝ) / 2 ^ j := by positivity
    have hfl : ⌊|(Val.fin s m e).real| / 2 ^ (emax - 55)⌋₊ = (inUnits m e (emax - 55)).1 := by
      rw [abs_real, hm, mul_div_cancel_right₀ _ pq.ne', Nat.floor_eq_iff (by positivity)]
      constructor <;> linarith
    have hcut : windowCut emax (Val.fin s m e).real = (sint s (inUnits m e (emax - 55)).1 : Int) * (2 : ℝ) ^ (emax - 55) := by
      unfold windowCut
      rw [hfl, sint_real]
      by_cases hm0 : (m : ℝ) * 2 ^ e = 0
      · have h0 : (Val.fin s m e).real = 0 := by simp only [Val.real, hm0, mul_zero]
        have : (inUnits m e (emax - 55)).1 = 0 := by
          rw [← hfl, h0]; simp
        rw [this]; simp
      · have hp : (0 : ℝ) < m * 2 ^ e := lt_of_le_of_ne (mul_nonneg (Nat.cast_nonneg _) (two_pos e).le) (Ne.symm hm0)
        cases s
        · have : (Val.fin false m e).real = m * 2 ^ e := by simp [Val.real]
          rw [this, Real.sign_of_pos hp]; simp [mul_comm]
        · have : (Val.fin true m e).real = -(m * 2 ^ e) := by simp [Val.real]
          rw [this, Real.sign_of_neg (by linarith)]; simp [mul_comm]
    refine ⟨hcut, ?_⟩
    rw [hcut, sint_real]
    have hre : (Val.fin s m e).real = (if s = true then -1 else 1) * (((inUnits m e (emax - 55)).1 + ((inUnits m e (emax - 55)).2.1 : ℝ) / 2 ^ j) * 2 ^ (emax - 55)) := by
      rw [← hm]; rfl
    rw [hre]
    constructor
    · intro hc h0
      have h0 : (inUnits m e (emax - 55)).2.1 = 0 := h0
      rw [h0] at hc
      apply hc
      simp
    · intro h0 hc
      have h1 : (1 : ℝ) ≤ (inUnits m e (emax - 55)).2.1 := by exact_mod_cast Nat.one_le_iff_ne_zero.2 h0
      have h2 : (0 : ℝ) < ((inUnits m e (emax - 55)).2.1 : ℝ) / 2 ^ j := by positivity
      have h3 : (0 : ℝ) < ((inUnits m e (emax - 55)).2.1 : ℝ) / 2 ^ j * 2 ^ (emax - 55) := by positivity
      cases s
      · simp only [Bool.false_eq_true, if_false, one_mul, add_mul] at hc
        linarith
      · simp only [if_true, neg_mul, one_mul, add_mul] at hc
        linarith
  have hst : ((ps.map un).any fun u => u.2.2.1 != 0) = sticky := by
    rw [Bool.eq_iff_iff, hs, List.any_map, List.any_eq_true]
    refine exists_congr fun v => ?_
    constructor
    · rintro ⟨hv, h⟩
      exact ⟨hv, (each v hv).2.2 (by simpa using h)⟩
    · rintro ⟨hv, h⟩
      exact ⟨hv, by simpa using (each v hv).2.1 h⟩
  have hS : ((ps.map Val.real).map (windowCut emax)).sum = (((ps.map un).foldl (fun acc u => acc + sint u.1 u.2.1) (0 : Int) : Int) : ℝ) * 2 ^ (emax - 55) := by
    rw [foldl_sint (fun u : Bool × Nat × Nat × Nat => sint u.1 u.2.1), zero_add]
    clear hst hs hhigh hlow hz hall hinf hnan htops
    induction ps with
    | nil => simp
    | cons v ps ih =>
      have := ih (fun v hv => hf v (by simp [hv])) (fun v hv => each v (by simp [hv]))
      simp only [List.map_cons, List.sum_cons]
      rw [this, (each v (by simp)).1]
      push_cast
      ring
  obtain ⟨S, hSd⟩ : ∃ S : Int, S = (ps.map un).foldl (fun acc u => acc + sint u.1 u.2.1) (0 : Int) := ⟨_, rfl⟩
  rw [← hSd] at hS
  refine ⟨decide ((if sticky = true then 2 * S + (if S < 0 then -1 else 1) else 2 * S) < 0),
    (if sticky = true then 2 * S + (if S < 0 then -1 else 1) else 2 * S).natAbs, emax - 56, ?_, ?_⟩
  rotate_left
  · intro q hq
    unfold windowSum
    simp only [hinf, hnan, hall, Bool.false_or, Bool.false_and, Bool.or_false, Bool.false_eq_true, if_false, htops]
    rw [hq, hSd, ← hst, ← hu]
    all_goals rfl
  · rw [int_fin_real]
    unfold windowTotal
    simp only
    rw [hS]
    have e1 : (2 : ℝ) ^ (emax - 55) = 2 * 2 ^ (emax - 56) := by rw [show emax - 55 = 1 + (emax - 56) by ring, two_add]; norm_num
    have hneg : (S : ℝ) * 2 ^ (emax - 55) < 0 ↔ S < 0 := by
      have := two_pos (emax - 55)
      constructor
      · intro h
        by_contra hc
        have : (0 : ℝ) ≤ S := by exact_mod_cast not_lt.1 hc
        nlinarith
      · intro h
        have : (S : ℝ) < 0 := by exact_mod_cast h
        nlinarith
    cases sticky
    · simp only [Bool.false_eq_true, if_false]
      rw [e1]; push_cast; ring
    · simp only [if_true, hneg]
      split <;> (rw [e1]; push_cast; ring)

/-- The other cases of a window group (R95). -/
theorem window_special (ps : List Val) :
    ((ps.any (·.isNan)) = true ∨ (.inf false ∈ ps ∧ .inf true ∈ ps) → windowSum ps = (.nan false, fNV)) ∧
    (∀ b, (ps.any (·.isNan)) = false → .inf b ∈ ps → .inf (!b) ∉ ps → windowSum ps = (.inf b, 0)) ∧
    ((∀ v ∈ ps, v.isZero = true) → windowSum ps = (.fin (ps.all (·.negative)) 0 0, 0)) := by
  have ha : ∀ b, (ps.any fun v => v == .inf b) = true ↔ .inf b ∈ ps := by
    intro b
    rw [List.any_eq_true]
    constructor
    · rintro ⟨v, hv, he⟩
      have : v = .inf b := by simpa using he
      exact this ▸ hv
    · intro h
      exact ⟨_, h, by simp⟩
  have ha' : ∀ b, .inf b ∉ ps → (ps.any fun v => v == .inf b) = false := fun b h => by
    rw [Bool.eq_false_iff, Ne, ha]; exact h
  refine ⟨?_, ?_, ?_⟩
  · intro h
    unfold windowSum
    rcases h with h | ⟨h1, h2⟩
    · simp [h]
    · simp only [(ha false).2 h1, (ha true).2 h2]; simp
  · intro b hn h1 h2
    unfold windowSum
    cases b
    · simp only [(ha false).2 h1, ha' true h2, hn]; simp
    · simp only [(ha true).2 h1, ha' false h2, hn]; simp
  · intro h
    have hn : (ps.any (·.isNan)) = false := by
      rw [Bool.eq_false_iff]
      intro hc
      obtain ⟨v, hv, he⟩ := List.any_eq_true.1 hc
      have := h v hv
      cases v <;> simp_all [Val.isNan, Val.isZero]
    have hi : ∀ b, .inf b ∉ ps := fun b hb => by simpa [Val.isZero] using h _ hb
    have hz : (ps.all (·.isZero)) = true := List.all_eq_true.2 h
    unfold windowSum
    simp only [ha' _ (hi _), hn, hz]
    simp

/-- The window's sum is added to the tile element and rounded once more (R95). -/
theorem window_enters (acc : Nat) (ps : List (Val × Val)) (q : Val × Flags) (hq : q = windowSum (ps.map fun p => (p.1.mul p.2).1)) (r : Rounded)
    (hr : r = roundVal fp32 0 false 0 ((fp32.value acc).add 0 q.1)) :
    enterWindow acc ps = { code := r.1, flags := q.2 ||| r.2, msat := false } := by
  subst hq hr; rfl

/-- The worked example of R95: 2^10, -2^10 and 2^-50 give 2^-46 with NX. -/
theorem window_example : windowSum [.fin false 1 10, .fin true 1 10, .fin false 1 (-50)] = (fp32.value (81 * 2 ^ 23), fNX) := by decide +kernel

theorem foldl_plus (l : List Int) : ∀ i : Int, l.foldl (· + ·) i = i + l.sum := by
  induction l with
  | nil => intro i; simp
  | cons a l ih => intro i; rw [List.foldl_cons, ih, List.sum_cons]; ring

/-- The sum of an integer group is exact, and rounded once to an integer, ties to even (R96). -/
theorem sumInt_exact (vs : List Val) : ∃ neg m e, (Val.fin neg m e).real = (vs.map Val.real).sum ∧ sumInt vs = (roundInt 0 0 neg m e).1 := by
  refine ⟨_, _, _, ?_, rfl⟩
  rw [int_fin_real, foldl_plus, zero_add]
  generalize hlow : (vs.map fun v => match v with | .fin _ _ e => e | _ => 0).foldl min 0 = low
  have key : ∀ (l : List Int) (i : Int), l.foldl min i ≤ i ∧ ∀ x ∈ l, l.foldl min i ≤ x := by
    intro l
    induction l with
    | nil => intro i; simp
    | cons a l ih =>
      intro i
      obtain ⟨h1, h2⟩ := ih (min i a)
      rw [List.foldl_cons]
      have a1 := min_le_left i a
      have a2 := min_le_right i a
      refine ⟨by omega, fun x hx => ?_⟩
      rw [List.mem_cons] at hx
      rcases hx with rfl | hx
      · omega
      · exact h2 x hx
  have hle : ∀ s m e, Val.fin s m e ∈ vs → low ≤ e := by
    intro s m e hv
    rw [← hlow]
    exact (key _ 0).2 e (List.mem_map.2 ⟨_, hv, rfl⟩)
  clear hlow key
  induction vs with
  | nil => simp
  | cons v vs ih =>
    have := ih (fun s m e hv => hle s m e (by simp [hv]))
    simp only [List.map_cons, List.sum_cons]
    rw [← this]
    push_cast
    rw [add_mul]
    congr 1
    cases v with
    | nan s => simp [Val.real]
    | inf s => simp [Val.real]
    | fin s m e =>
      have hl := hle s m e (by simp)
      have e1 : (2 : ℝ) ^ e = (2 ^ (e - low).toNat : Nat) * 2 ^ low := by rw [← two_cast, ← two_add]; congr 1; omega
      simp only [sint_real, Val.real]
      rw [e1]
      push_cast
      ring

/-- An integer group enters a tile element (R96): added to it once, wrapped or saturated; a product with a NaN scale sets msat, and so
does a saturated sum. -/
theorem int_enters (sat : Bool) (acc : Nat) (ps : List (Val × Val)) (vs : List Val) (hv : vs = ps.map fun p => (p.1.mul p.2).1) (x : Int)
    (hx : x = intValue 2 32 acc + sumInt vs) :
    enterInt sat acc ps =
      { code := narrow sat 2 32 x, flags := 0, msat := (vs.any (·.isNan)) || (sat && (x < -2 ^ 31 || 2 ^ 31 - 1 < x)) } := by
  subst hx
  have e1 : intMin 2 32 = -2 ^ 31 := by decide
  have e2 : intMax 2 32 = 2 ^ 31 - 1 := by decide
  unfold enterInt
  rw [← hv, e1, e2]

end Sys2Proof.Machine
end

