-- ==== Sys2Proof/Laws/Scalar.lean ====
section
/-! SUPPORT. What the scalar instructions do in a state where their thread is ready: one lemma for each shared operation. -/

set_option linter.unusedSimpArgs false
set_option Elab.async false

namespace Sys2Proof.Machine
theorem aluRR_done {s t} (q : Quiet s t) (f : Word → Word → Word) (d a b : BitVec 6) :
    aluRR f d a b s = .next (wrote s t (t.ctx.put d (f (t.ctx.xAt a) (t.ctx.xAt b)))) := by
  apply control_wrote q rfl rfl rfl
  have h := q.clean
  simp [rdX_clean h, wrX_clean h]

theorem aluRI_done {s t} (q : Quiet s t) (f : Word → Word) (d a : BitVec 6) :
    aluRI f d a s = .next (wrote s t (t.ctx.put d (f (t.ctx.xAt a)))) := by
  apply control_wrote q rfl rfl rfl
  have h := q.clean
  simp [rdX_clean h, wrX_clean h]

theorem lih_done {s t} (q : Quiet s t) (d : BitVec 6) (i : BitVec 20) :
    execLih d i s = .next (wrote s t (t.ctx.put d (word (i.toInt * 2 ^ 14)))) := by
  apply control_wrote q rfl rfl rfl
  simp [wrX_clean q.clean]

theorem pcrel_done {s t} (q : Quiet s t) (d : BitVec 6) (i : BitVec 20) :
    execPcrel d i s = .next (wrote s t (t.ctx.put d (t.ctx.pc + word (i.toInt * 2 ^ 14)))) := by
  apply control_wrote q rfl rfl rfl
  simp [wrX_clean q.clean]

theorem branch_taken {s t} (q : Quiet s t) (p : Word → Word → Bool) (a b : BitVec 6) (o : BitVec 14)
    (h : p (t.ctx.xAt a) (t.ctx.xAt b) = true) :
    branch p a b o s = .next (went s t (t.ctx.leave false (t.ctx.pc + word (o.toInt * 4))) (opened s t)) := by
  refine control_went q (c := { t.ctx with loops := popFor false t.ctx.pc (t.ctx.pc + word (o.toInt * 4)) t.ctx.loops }) rfl rfl rfl ?_
  simp [rdX_clean q.clean, h, transfer]

theorem branch_not {s t} (q : Quiet s t) (p : Word → Word → Bool) (a b : BitVec 6) (o : BitVec 14)
    (h : p (t.ctx.xAt a) (t.ctx.xAt b) = false) :
    branch p a b o s = .next (wrote s t t.ctx) := by
  apply control_wrote q rfl rfl rfl
  simp [rdX_clean q.clean, h]

theorem jal_done {s t} (q : Quiet s t) (d : BitVec 6) (o : BitVec 20) :
    execJal d o s =
      .next (went s t ((t.ctx.put d (t.ctx.pc + 4)).leave (d != 0) (t.ctx.pc + word (o.toInt * 4))) (opened s t)) := by
  refine Eq.trans (control_went q (pc := t.ctx.pc + word (o.toInt * 4))
    (c := { t.ctx.put d (t.ctx.pc + 4) with loops := popFor (d != 0) t.ctx.pc (t.ctx.pc + word (o.toInt * 4)) t.ctx.loops })
    rfl rfl rfl ?_) ?_
  · simp [wrX_clean q.clean, transfer]
  · simp [Ctx.leave]

theorem jalr_done {s t} (q : Quiet s t) (d a : BitVec 6) (i : BitVec 14) (h : (t.ctx.xAt a + i.signExtend 64) &&& 3 = 0) :
    execJalr d a i s =
      .next (went s t ((t.ctx.put d (t.ctx.pc + 4)).leave (d != 0) (t.ctx.xAt a + i.signExtend 64)) (opened s t)) := by
  refine Eq.trans (control_went q (pc := t.ctx.xAt a + i.signExtend 64)
    (c := { t.ctx.put d (t.ctx.pc + 4) with loops := popFor (d != 0) t.ctx.pc (t.ctx.xAt a + i.signExtend 64) t.ctx.loops })
    rfl rfl rfl ?_) ?_
  · have h : (t.ctx.xAt a + i.signExtend 64) &&& 3#64 = 0#64 := h
    simp [rdX_clean q.clean, wrX_clean q.clean, transfer, h]
  · simp [Ctx.leave]

theorem jalr_trap {s t} (q : Quiet s t) (d a : BitVec 6) (i : BitVec 14) (h : (t.ctx.xAt a + i.signExtend 64) &&& 3 ≠ 0) :
    execJalr d a i s = .next ((atBody s t).takeTrap { code := 3, sub := 0, val := t.ctx.xAt a + i.signExtend 64 }) := by
  refine control_trap q.toReady (.inl rfl) rfl ?_
  have h : ¬ (t.ctx.xAt a + i.signExtend 64) &&& 3#64 = 0#64 := h
  simp [rdX_clean q.clean, h]

theorem loop_skip {s t} (q : Quiet s t) (k : BitVec 6) (len : BitVec 12) (h : t.ctx.xAt k = 0) :
    execLoop k len s = .next (went s t { t.ctx with pc := t.ctx.pc + BitVec.ofNat 64 (4 * len.toNat) + 4 } (opened s t)) := by
  refine control_went q (c := t.ctx) rfl rfl rfl ?_
  simp [rdX_clean q.clean, h]

theorem loop_done {s t} (q : Quiet s t) (k : BitVec 6) (len : BitVec 12) (h : t.ctx.xAt k ≠ 0) 
    (ht : loopTrap false t.ctx.pc (t.ctx.pc + BitVec.ofNat 64 (4 * len.toNat)) t.ctx.loops = none) :
    execLoop k len s = .next (went s t
      { t.ctx with loops := { start := t.ctx.pc + 4, last := t.ctx.pc + BitVec.ofNat 64 (4 * len.toNat), left := (t.ctx.xAt k).toNat, rotating := false, n := 0, e := 0, done := 0 } :: t.ctx.loops, 
                   pc := t.ctx.pc + 4 } (opened s t)) := by
  refine control_went q (c := { t.ctx with loops := _ :: t.ctx.loops }) rfl rfl rfl ?_
  have : (t.ctx.xAt k).toNat ≠ 0 := fun e => h (BitVec.eq_of_toNat_eq (by simpa using e))
  simp [rdX_clean q.clean, this, ht]

theorem loop_trap {s t} (q : Quiet s t) (rotating : Bool) (k : BitVec 6) (len : BitVec 12) (v : Nat)
    (h : (if rotating then (t.ctx.xAt k).toNat % 2 ^ 48 + (t.ctx.xAt k).toNat / 2 ^ 48 % 8 else (t.ctx.xAt k).toNat) ≠ 0)
    (ht : loopTrap rotating t.ctx.pc (t.ctx.pc + BitVec.ofNat 64 (4 * len.toNat)) t.ctx.loops = some v) :
    pushLoop rotating k len s = .next ((atBody s t).takeTrap { code := 0x0E, sub := 0, val := BitVec.ofNat 64 v }) := by
  refine control_trap q.toReady (.inl rfl) rfl ?_
  cases rotating
  · simp only [Bool.false_eq_true, if_false] at h
    simp only [run_bind, rdX_clean q.clean, atBody_t, run_getC, Bool.false_eq_true, if_false, run_ite, if_neg h, run_pure, ht,
      run_trap]
  · simp only [if_true] at h
    simp only [run_bind, rdX_clean q.clean, atBody_t, run_getC, if_true, run_ite, if_neg h, run_pure, ht, run_trap]

theorem loopr_skip {s t} (q : Quiet s t) (k : BitVec 6) (len : BitVec 12)
    (h : (t.ctx.xAt k).toNat % 2 ^ 48 + (t.ctx.xAt k).toNat / 2 ^ 48 % 8 = 0) :
    execLoopr k len s = .next (went s t { t.ctx with pc := t.ctx.pc + BitVec.ofNat 64 (4 * len.toNat) + 4 } (opened s t)) := by
  refine control_went q (c := t.ctx) rfl rfl rfl ?_
  simp only [run_bind, rdX_clean q.clean, atBody_t, run_getC, if_true, run_ite, h, run_pure]
  rfl

theorem openPreds_eq (n : Nat) (c : Ctx) :
    ({ ([9, 10, 11, 12, 13, 14, 15].foldl (fun (c : Ctx) k => c.setP k 0) c).setP 8 (if 0 < n then allOnes else 0)
        with rrb := 0 } : Ctx) = { c with p := openPreds n c.p, rrb := 0 } := by
  simp only [List.foldl, Ctx.setP, openPreds]

theorem loopr_done {s t} (q : Quiet s t) (k : BitVec 6) (len : BitVec 12) (n e : Nat)
    (hn : n = (t.ctx.xAt k).toNat % 2 ^ 48) (he : e = (t.ctx.xAt k).toNat / 2 ^ 48 % 8) (h : n + e ≠ 0)
    (ht : loopTrap true t.ctx.pc (t.ctx.pc + BitVec.ofNat 64 (4 * len.toNat)) t.ctx.loops = none) :
    execLoopr k len s = .next (went s t
      { t.ctx with
          p := openPreds n t.ctx.p, rrb := 0
          loops := { start := t.ctx.pc + 4, last := t.ctx.pc + BitVec.ofNat 64 (4 * len.toNat), left := n + e,
                     rotating := true, n, e, done := 0 } :: t.ctx.loops
          pc := t.ctx.pc + 4 } (opened s t)) := by
  refine control_to q rfl rfl rfl t.ctx.pc ?_
  simp only [run_bind, rdX_clean q.clean, atBody_t, run_getC, if_true, ← hn, ← he, run_ite, if_neg h, ht, run_pure, run_modC,
    openPreds_eq]

end Sys2Proof.Machine
end

