-- ==== Sys2Proof/Laws/Sums.lean ====
section
/-! SUPPORT. The orders in which reductions sum (04, R91 to R93). -/

set_option linter.unusedSimpArgs false
set_option Elab.async false

namespace Sys2Proof.Machine

/-! ## The ascending order (R91) -/

theorem ordered_nil (o : Conv) (init : Nat) : reduceFloat .ordered o init [] = (init, 0) := rfl

theorem ordered_skip (o : Conv) (init : Nat) (xs : List (Option Val)) :
    reduceFloat .ordered o init (xs ++ [none]) = reduceFloat .ordered o init xs := by
  simp [reduceFloat]

theorem ordered_add (o : Conv) (init : Nat) (xs : List (Option Val)) (v : Val) (g : Fmt) (hg : g = floatFmt o.fmt o.u) (s q : Rounded)
    (hs : s = reduceFloat .ordered o init xs) (hq : q = roundVal g o.rnd false 0 ((g.value s.1).add o.rnd v)) :
    reduceFloat .ordered o init (xs ++ [some v]) = (q.1, s.2 ||| q.2) := by
  subst hg hs hq
  simp [reduceFloat, addTo]

/-! ## The tree over indices (R92) -/

/-- One level: node k is nodes 2k and 2k + 1 of the level below, absent where both are, the present one where one is, and their sum,
rounded, where both are. -/
theorem level_nodes (g : Fmt) (rnd : Rnd) : ∀ l : List (Option Val), (treeLevel g rnd l).1.length = (l.length + 1) / 2 ∧
    ∀ k, 2 * k < l.length → ∃ a b, a = l[2 * k]?.getD none ∧ b = l[2 * k + 1]?.getD none ∧
      (a = none → (treeLevel g rnd l).1[k]? = some b) ∧ (b = none → (treeLevel g rnd l).1[k]? = some a) ∧
      ∀ x y, a = some x → b = some y → (treeLevel g rnd l).1[k]? = some (some (g.value (roundVal g rnd false 0 (x.add rnd y)).1))
  | [] => ⟨by simp [treeLevel], fun k hk => by simp at hk⟩
  | [a] => by
    have h : treeLevel g rnd [a] = ([a], 0) := by unfold treeLevel; cases a <;> rfl
    rw [h]
    refine ⟨by simp, fun k hk => ?_⟩
    have : k = 0 := by simp at hk; omega
    subst this
    refine ⟨_, _, rfl, rfl, ?_⟩
    cases a <;> simp
  | a :: b :: r => by
    obtain ⟨ih1, ih2⟩ := level_nodes g rnd r
    have key : ∀ c, (treeLevel g rnd (a :: b :: r)).1 = c :: (treeLevel g rnd r).1 →
        (a = none → c = b) → (b = none → c = a) →
        (∀ x y, a = some x → b = some y → c = some (g.value (roundVal g rnd false 0 (x.add rnd y)).1)) →
        (treeLevel g rnd (a :: b :: r)).1.length = ((a :: b :: r).length + 1) / 2 ∧
        ∀ k, 2 * k < (a :: b :: r).length → ∃ a' b', a' = (a :: b :: r)[2 * k]?.getD none ∧ b' = (a :: b :: r)[2 * k + 1]?.getD none ∧
          (a' = none → (treeLevel g rnd (a :: b :: r)).1[k]? = some b') ∧ (b' = none → (treeLevel g rnd (a :: b :: r)).1[k]? = some a') ∧
          ∀ x y, a' = some x → b' = some y →
            (treeLevel g rnd (a :: b :: r)).1[k]? = some (some (g.value (roundVal g rnd false 0 (x.add rnd y)).1)) := by
      intro c h h1 h2 h3
      rw [h]
      refine ⟨by rw [List.length_cons, ih1]; simp only [List.length_cons]; omega, fun k hk => ?_⟩
      cases k with
      | zero =>
        refine ⟨a, b, rfl, rfl, fun e => by rw [h1 e]; rfl, fun e => by rw [h2 e]; rfl, fun x y ea eb => by rw [h3 x y ea eb]; rfl⟩
      | succ k =>
        obtain ⟨a', b', e1, e2, e3⟩ := ih2 k (by simp only [List.length_cons] at hk; omega)
        refine ⟨a', b', ?_, ?_, ?_⟩
        · rw [e1, show 2 * (k + 1) = 2 * k + 1 + 1 by ring]; rfl
        · rw [e2, show 2 * (k + 1) + 1 = 2 * k + 1 + 1 + 1 by ring]; rfl
        · simpa using e3
    cases a with
    | none => exact key b (by simp only [treeLevel]) (fun _ => rfl) (fun e => e) (fun x y e => by simp at e)
    | some a =>
      cases b with
      | none => exact key (some a) (by simp only [treeLevel]) (fun e => by simp at e) (fun _ => rfl) (fun x y _ e => by simp at e)
      | some b =>
        refine key (some (g.value (roundVal g rnd false 0 (a.add rnd b)).1)) (by simp only [treeLevel]) (fun e => by simp at e)
          (fun e => by simp at e) (fun x y e1 e2 => ?_)
        simp only [Option.some.injEq] at e1 e2
        rw [e1, e2]

theorem level_length (g : Fmt) (rnd : Rnd) (l : List (Option Val)) : (treeLevel g rnd l).1.length = (l.length + 1) / 2 := (level_nodes g rnd l).1

/-- The flags of a level: those of its sums. -/
theorem level_flags (g : Fmt) (rnd : Rnd) (a b : Option Val) (r : List (Option Val)) :
    (treeLevel g rnd (a :: b :: r)).2 =
      (match a, b with | some x, some y => (roundVal g rnd false 0 (x.add rnd y)).2 | _, _ => 0) ||| (treeLevel g rnd r).2 := by
  cases a with
  | none => simp [treeLevel]
  | some a => cases b <;> simp [treeLevel]

theorem tree_fuel (g : Fmt) (rnd : Rnd) : ∀ n l, l.length ≤ 2 ^ n → treeSum g rnd (n + 1) l = treeSum g rnd n l
  | 0, l, h => by
    have : l.length ≤ 1 := by simpa using h
    simp [treeSum, this]
  | n + 1, l, h => by
    rw [treeSum]
    conv_rhs => rw [treeSum]
    split
    · rfl
    · have := tree_fuel g rnd n (treeLevel g rnd l).1 (by rw [level_length]; rw [Nat.pow_succ] at h; omega)
      simp only [this]

/-- The whole tree: one level after another while more than one node is left. -/
theorem tree_levels (g : Fmt) (rnd : Rnd) (l : List (Option Val)) (h1 : 1 < l.length) (h2 : l.length ≤ 2 ^ 17) (t : List (Option Val) × Flags)
    (ht : t = treeLevel g rnd l) : treeSum g rnd 17 l = ((treeSum g rnd 17 t.1).1, t.2 ||| (treeSum g rnd 17 t.1).2) := by
  subst ht
  conv_lhs => rw [treeSum]
  rw [if_neg (by omega), tree_fuel g rnd 16 _ (by rw [level_length]; omega)]

theorem tree_top (g : Fmt) (rnd : Rnd) (a : Option Val) : treeSum g rnd 17 [a] = (a, 0) ∧ treeSum g rnd 17 [] = (none, 0) := by
  simp [treeSum]

theorem tree_none (o : Conv) (init : Nat) (xs : List (Option Val)) (fl : Flags) (h : treeSum (floatFmt o.fmt o.u) o.rnd 17 xs = (none, fl)) :
    reduceFloat .tree o init xs = (init, 0) := by
  simp [reduceFloat, h]

theorem tree_init (o : Conv) (init : Nat) (xs : List (Option Val)) (v : Val) (fl : Flags) (g : Fmt) (hg : g = floatFmt o.fmt o.u)
    (h : treeSum g o.rnd 17 xs = (some v, fl)) (q : Rounded) (hq : q = roundVal g o.rnd false 0 ((g.value init).add o.rnd v)) :
    reduceFloat .tree o init xs = (q.1, fl ||| q.2) := by
  subst hg hq
  simp [reduceFloat, h]

/-! ## Integers (R93) -/

theorem foldl_add (vs : List Int) : ∀ i : Int, vs.foldl (· + ·) i = i + vs.sum := by
  induction vs with
  | nil => intro i; simp
  | cons v vs ih => intro i; rw [List.foldl_cons, ih, List.sum_cons]; ring

theorem int_sum (o : Conv) (init : Nat) (xs : List Nat) (k : Red) (h : k = .ordered ∨ k = .tree) :
    reduceInt k o init xs = narrow o.sat o.u o.wd (intValue o.u o.wd init + (xs.map (intValue o.t o.w)).sum) := by
  rcases h with rfl | rfl <;> simp only [reduceInt, foldl_add]

theorem foldl_min (vs : List Int) : ∀ i : Int, (vs.foldl min i = i ∨ vs.foldl min i ∈ vs) ∧ vs.foldl min i ≤ i ∧ ∀ v ∈ vs, vs.foldl min i ≤ v := by
  induction vs with
  | nil => intro i; simp
  | cons v vs ih =>
    intro i
    obtain ⟨h1, h2, h3⟩ := ih (min i v)
    rw [List.foldl_cons]
    have a1 := min_le_left i v
    have a2 := min_le_right i v
    refine ⟨?_, by omega, fun x hx => ?_⟩
    · rcases h1 with h1 | h1
      · rw [h1]
        rcases min_choice i v with h | h <;> rw [h]
        · exact .inl rfl
        · exact .inr (by simp)
      · exact .inr (by simp [h1])
    · rw [List.mem_cons] at hx
      rcases hx with rfl | hx
      · omega
      · exact h3 x hx

theorem foldl_max (vs : List Int) : ∀ i : Int, (vs.foldl max i = i ∨ vs.foldl max i ∈ vs) ∧ i ≤ vs.foldl max i ∧ ∀ v ∈ vs, v ≤ vs.foldl max i := by
  induction vs with
  | nil => intro i; simp
  | cons v vs ih =>
    intro i
    obtain ⟨h1, h2, h3⟩ := ih (max i v)
    rw [List.foldl_cons]
    have a1 := le_max_left i v
    have a2 := le_max_right i v
    refine ⟨?_, by omega, fun x hx => ?_⟩
    · rcases h1 with h1 | h1
      · rw [h1]
        rcases max_choice i v with h | h <;> rw [h]
        · exact .inl rfl
        · exact .inr (by simp)
      · exact .inr (by simp [h1])
    · rw [List.mem_cons] at hx
      rcases hx with rfl | hx
      · omega
      · exact h3 x hx

/-- An integer minimum or maximum: the least or greatest of the initial value and the elements, narrowed. -/
theorem int_extreme (o : Conv) (init : Nat) (xs : List Nat) (all : List Int)
    (ha : all = intValue o.u o.wd init :: xs.map (intValue o.t o.w)) :
    (∃ v ∈ all, (∀ x ∈ all, v ≤ x) ∧ reduceInt .least o init xs = narrow o.sat o.u o.wd v) ∧
    (∃ v ∈ all, (∀ x ∈ all, x ≤ v) ∧ reduceInt .greatest o init xs = narrow o.sat o.u o.wd v) := by
  subst ha
  obtain ⟨a1, a2, a3⟩ := foldl_min (xs.map (intValue o.t o.w)) (intValue o.u o.wd init)
  obtain ⟨b1, b2, b3⟩ := foldl_max (xs.map (intValue o.t o.w)) (intValue o.u o.wd init)
  refine ⟨⟨_, ?_, ?_, rfl⟩, ⟨_, ?_, ?_, rfl⟩⟩
  · rw [List.mem_cons]; exact a1
  · intro x hx
    rw [List.mem_cons] at hx
    rcases hx with rfl | hx
    · exact a2
    · exact a3 x hx
  · rw [List.mem_cons]; exact b1
  · intro x hx
    rw [List.mem_cons] at hx
    rcases hx with rfl | hx
    · exact b2
    · exact b3 x hx

/-- The order of the elements makes no difference to an integer reduction. -/
theorem int_order (o : Conv) (init : Nat) (xs ys : List Nat) (h : xs.Perm ys) (k : Red) : reduceInt k o init xs = reduceInt k o init ys := by
  have hp := h.map (intValue o.t o.w)
  cases k
  · simp only [reduceInt]; rw [List.Perm.foldl_eq' hp (fun a _ b _ c => by omega)]
  · simp only [reduceInt]; rw [List.Perm.foldl_eq' hp (fun a _ b _ c => by omega)]
  · simp only [reduceInt]; rw [List.Perm.foldl_eq' hp (fun a _ b _ c => by omega)]
  · simp only [reduceInt]; rw [List.Perm.foldl_eq' hp (fun a _ b _ c => by omega)]

/-! ## Least and greatest (R107, R120) -/

theorem below_real (s1 s2 : Bool) (m1 m2 : Nat) (e1 e2 : Int) (h : ¬ (m1 = 0 ∧ m2 = 0)) :
    (Val.fin s1 m1 e1).below (.fin s2 m2 e2) = true ↔ (Val.fin s1 m1 e1).real < (Val.fin s2 m2 e2).real := by
  have h0 : (decide (m1 = 0) && decide (m2 = 0)) = false := by
    rw [Bool.eq_false_iff]; simpa using h
  simp only [Val.below]
  rw [h0]
  simp only [Bool.false_eq_true, if_false, decide_eq_true_eq]
  have pe := two_pos (min e1 e2)
  have a1 : (2 : ℝ) ^ e1 = (2 ^ (e1 - min e1 e2).toNat : Nat) * 2 ^ min e1 e2 := by rw [← two_cast, ← two_add]; congr 1; omega
  have a2 : (2 : ℝ) ^ e2 = (2 ^ (e2 - min e1 e2).toNat : Nat) * 2 ^ min e1 e2 := by rw [← two_cast, ← two_add]; congr 1; omega
  have b1 : (Val.fin s1 m1 e1).real = (sint s1 (m1 * 2 ^ (e1 - min e1 e2).toNat) : Int) * 2 ^ min e1 e2 := by
    rw [sint_real]; simp only [Val.real]; rw [a1]; push_cast; ring
  have b2 : (Val.fin s2 m2 e2).real = (sint s2 (m2 * 2 ^ (e2 - min e1 e2).toNat) : Int) * 2 ^ min e1 e2 := by
    rw [sint_real]; simp only [Val.real]; rw [a2]; push_cast; ring
  rw [b1, b2, mul_lt_mul_iff_left₀ pe]
  exact Int.cast_lt.symm

/-- The choice of vfmin and vfmax, and of the reductions: a NaN is set aside where the other is none; of two finite values the smaller or
the larger, -0 below +0. -/
theorem pick_values (x y : Val) (s1 s2 : Bool) (m1 m2 : Nat) (e1 e2 : Int) :
    (x.isNan = true → x.pick true y = y ∧ x.pick false y = y) ∧
    (x.isNan = false → y.isNan = true → x.pick true y = x ∧ x.pick false y = x) ∧
    ((Val.fin s1 m1 e1).pick true (.fin s2 m2 e2)).real = min (Val.fin s1 m1 e1).real (Val.fin s2 m2 e2).real ∧
    ((Val.fin s1 m1 e1).pick false (.fin s2 m2 e2)).real = max (Val.fin s1 m1 e1).real (Val.fin s2 m2 e2).real ∧
    (Val.fin s1 0 e1).pick true (.fin s2 0 e2) = (if s2 && !s1 then .fin s2 0 e2 else .fin s1 0 e1) ∧
    (Val.fin s1 0 e1).pick false (.fin s2 0 e2) = (if s1 && !s2 then .fin s2 0 e2 else .fin s1 0 e1) := by
  have hz : ∀ s e, (Val.fin s 0 e).real = 0 := fun s e => by simp [Val.real]
  refine ⟨fun h => by simp [Val.pick, h], fun h1 h2 => by simp [Val.pick, h1, h2], ?_, ?_, ?_, ?_⟩
  · by_cases h : m1 = 0 ∧ m2 = 0
    · obtain ⟨rfl, rfl⟩ := h
      simp only [Val.pick, Val.isNan, Bool.false_eq_true, if_false, if_true]
      split <;> simp [hz]
    · have hb := below_real s2 s1 m2 m1 e2 e1 (fun hc => h ⟨hc.2, hc.1⟩)
      simp only [Val.pick, Val.isNan, Bool.false_eq_true, if_false, if_true]
      split
      · rename_i hc
        rw [min_eq_right (hb.1 hc).le]
      · rename_i hc
        rw [min_eq_left (not_lt.1 fun hl => hc (hb.2 hl))]
  · by_cases h : m1 = 0 ∧ m2 = 0
    · obtain ⟨rfl, rfl⟩ := h
      simp only [Val.pick, Val.isNan, Bool.false_eq_true, if_false]
      split <;> simp [hz]
    · have hb := below_real s1 s2 m1 m2 e1 e2 h
      simp only [Val.pick, Val.isNan, Bool.false_eq_true, if_false]
      split
      · rename_i hc
        rw [max_eq_right (hb.1 hc).le]
      · rename_i hc
        rw [max_eq_left (not_lt.1 fun hl => hc (hb.2 hl))]
  · cases s1 <;> cases s2 <;> simp [Val.pick, Val.isNan, Val.below]
  · cases s1 <;> cases s2 <;> simp [Val.pick, Val.isNan, Val.below]

/-- A floating minimum or maximum: init where there is no element, else the pick of all, rounded; NV for a signalling NaN (R119, R120). -/
theorem float_extreme (o : Conv) (init : Nat) (xs : List (Option Val)) (vs : List Val) (hv : vs = xs.filterMap id) (i : Val) (g : Fmt)
    (hg : g = floatFmt o.fmt o.u) (hi : i = g.value init) (fl : Flags) (hf : fl = if i.snan || vs.any (·.snan) then fNV else 0)
    (k : Red) (least : Bool) (hk : k = .least ∧ least = true ∨ k = .greatest ∧ least = false) (best : Val) (hb : best = vs.foldl (Val.pick least) i) :
    (vs = [] → reduceFloat k o init xs = (init, fl)) ∧
    (vs ≠ [] → best.isNan = true → reduceFloat k o init xs = g.nanWith fl) ∧
    (vs ≠ [] → best.isNan = false → reduceFloat k o init xs = ((g.round o.rnd false 0 best).1, (g.round o.rnd false 0 best).2 ||| fl)) := by
  subst hv hg hi hf hb
  have he : ∀ l : List Val, l ≠ [] → l.isEmpty = false := fun l h => by cases l <;> simp_all
  rcases hk with ⟨rfl, rfl⟩ | ⟨rfl, rfl⟩
  · refine ⟨fun h => by unfold reduceFloat; simp only [h]; rfl, fun h hn => ?_, fun h hn => ?_⟩
    · unfold reduceFloat; simp only [he _ h]; rw [if_neg (by simp)]; exact if_pos hn
    · unfold reduceFloat; simp only [he _ h]; rw [if_neg (by simp)]; exact if_neg (by rw [show (Red.least == Red.least) = true from rfl, hn]; simp)
  · refine ⟨fun h => by unfold reduceFloat; simp only [h]; rfl, fun h hn => ?_, fun h hn => ?_⟩
    · unfold reduceFloat; simp only [he _ h]; rw [if_neg (by simp)]; exact if_pos hn
    · unfold reduceFloat; simp only [he _ h]; rw [if_neg (by simp)]; exact if_neg (by rw [show (Red.greatest == Red.least) = false from rfl, hn]; simp)

end Sys2Proof.Machine
end

