-- ==== Sys2Proof/Laws/Trap.lean ====
section
/-! SUPPORT. Taking a trap, returning from one, and the system instructions that stand alone (16, 14). -/

set_option linter.unusedSimpArgs false
set_option Elab.async false

namespace Sys2Proof.Machine

/-- A trap that waits for the commit of a chunk that holds nothing is entered. -/
theorem enterPending_bare {s : State} {u : Thread} {k : Chunk} {f : Trap} (hk : u.chunk = some k) (b : Bare k) (hd : u.deferred = [])
    (hp : u.pendTrap = some (f, none)) (hn : u.pending = none) (hf : ∀ c ∈ s.copies, c.tid = u.tid → c.forked = true) :
    s.enterPending u = (settled s u k.reads).enterTrap (u.settled k.reads) f u.ctx.pc false false false := by
  have hc := commit_bare (s := s) (u := { u with pendTrap := none }) hk b hd rfl hf
  have hs : (({ u with pendTrap := none } : Thread).settled k.reads).pending.isSome = false := by
    show u.pending.isSome = false
    rw [hn]; rfl
  simp only [State.enterPending, hp, hc, hs, Bool.false_eq_true, if_false]
  rfl

/-- A trap after which the truncated chunk holds nothing. -/
theorem takeTrap_bare {r : Running} {k : Chunk} (hk : r.t.chunk = some k) (b : Bare k) (hv : r.vp = none) (hd : r.t.deferred = [])
    (hn : r.t.pending = none) (hf : ∀ c ∈ r.s.copies, c.tid = r.t.tid → c.forked = true) (f : Trap) :
    r.takeTrap f = (settled r.s r.t k.reads).enterTrap (r.t.settled k.reads) f r.t.ctx.pc false false false := by
  unfold Running.takeTrap
  simp only [hk]
  rw [if_neg (by simp [b.explicit]), hv]
  exact enterPending_bare (u := { r.t with chunk := some { k with ended := true }, pendTrap := some (f, none) })
    (k := { k with ended := true }) rfl
    { b with } hd rfl hn hf

/-- A trap met with an implicit chunk open: the chunk is truncated and commits, and the trap is entered at the pc (R177, R340). -/
theorem takeTrap_truncates {r : Running} {k : Chunk} (hk : r.t.chunk = some k) (he : k.explicit = false) (b : Spare k) (hv : r.vp = none)
    (hd : r.t.deferred = []) (hn : r.t.pending = none) (hf : ∀ c ∈ r.s.copies, c.tid = r.t.tid → c.forked = true)
    (hh : r.s.held (some r.t.tid) k.writes = false) (f : Trap) :
    r.takeTrap f = (settledWith r.s r.t k).enterTrap (r.t.closed k) f r.t.ctx.pc false false false := by
  have hc := commit_stores (s := r.s) (u := { r.t with chunk := some { k with ended := true }, pendTrap := none })
    (k := { k with ended := true }) rfl { b with } hd rfl hf hh
  have hs : (({ r.t with chunk := some { k with ended := true }, pendTrap := none } : Thread).closed
      { k with ended := true }).pending.isSome = false := by
    show r.t.pending.isSome = false
    rw [hn]; rfl
  unfold Running.takeTrap
  simp only [hk]
  rw [if_neg (by simp [he])]
  simp only [State.enterPending, hv, hc, hs, Bool.false_eq_true, if_false]
  rfl

/-- A trap met inside an explicit chunk: the chunk is squashed whole and the trap is entered at its chkbeg (R183, R340). -/
theorem takeTrap_squashes {r : Running} {k : Chunk} (hk : r.t.chunk = some k) (he : k.explicit = true) (hn : r.t.pending = none) (f : Trap) :
    r.takeTrap f = (((r.s.setThread r.t).dropIssued [r.t.tid]).count fun k => { k with squashes := k.squashes + 1 }).enterTrap
      (r.t.squashed k) f k.start.pc false false false := by
  have hs : (r.t.squashed k).pending.isSome = false := by
    show r.t.pending.isSome = false
    rw [hn]; rfl
  simp only [Running.takeTrap, hk, he, if_true, State.abandon, hs, Bool.false_eq_true, if_false]
  rfl

/-- A trap of an instruction's own part, in a chunk that the instruction opened: the empty chunk commits and the trap is
entered at the instruction. -/
theorem takeTrap_idle {s t} (q : Idle s t) (f : Trap) :
    (atBody s t).takeTrap f = (settled s t []).enterTrap (t.settled []) f t.ctx.pc false false false := by
  have hr : (opened s t).reads = [] := by simp [opened, q.chunk]
  have h := takeTrap_bare (r := atBody s t) rfl (opened_bare q.chunk) rfl q.deferred q.pending q.forked f
  rw [hr] at h
  exact h

/-- A trap before an instruction's own part, with no chunk open. -/
theorem takeTrap_before {s t} (q : Ready s t) (hc : t.chunk = none) (hn : t.pending = none) (f : Trap) :
    (Running.of s t).takeTrap f = s.enterTrap t f t.ctx.pc false false false := by
  have : ({ t with chunk := none, pendTrap := none } : Thread) = t := by
    have h := q.pend
    cases t; simp_all
  have h : t.pending.isSome = false := by rw [hn]; rfl
  simp only [Running.takeTrap, of_t, hc, State.enterPending, State.commit, of_s, of_vp, this, h, Bool.false_eq_true, if_false]

/-- A word that is no assigned instruction traps 0x01 with the word (R34). -/
theorem illegal_trap {s t} (q : Ready s t) (w : BitVec 32) :
    execIllegalInstruction w s = .next ((atBody s t).takeTrap { code := 1, sub := 0, val := w.setWidth 64 }) :=
  shared_trap q (.inl rfl) rfl rfl

/-- A privileged instruction at user level traps 0x05 with its word (R32). -/
theorem control_priv {s t} {f : Form} {body : Exec Next} (q : Ready s t) (hp : f.priv = true) (hu : t.ctx.priv = false) :
    control f body s = .next ((Running.of s t).takeTrap { code := 5, sub := 0, val := s.fetched.setWidth 64 }) := by
  simp only [control, q.acting, q.ended, Running.execute, of_t, of_vp, of_s, q.vps, hp, hu, Option.isSome_none, List.isEmpty_nil,
    Bool.not_true, Bool.and_false, Bool.false_eq_true, if_false, Bool.not_false, Bool.and_true, if_true]

/-- An instruction that an explicit chunk forbids traps 0x0A with its reason (R183). -/
theorem control_ban {s t} {f : Form} {body : Exec Next} (q : Ready s t) (hp : f.priv = false ∨ t.ctx.priv = true)
    (hi : f.rule ≠ .inside) (he : t.chunk.any (·.explicit) = true) :
    control f body s = .next ((Running.of s t).takeTrap { code := 10, sub := 0, val := BitVec.ofNat 64 f.ban }) := by
  have hp' : (f.priv && !t.ctx.priv) = false := by rcases hp with h | h <;> simp [h]
  have hi' : (f.rule != .inside) = true := by simpa using hi
  simp only [control, q.acting, q.ended, Running.execute, of_t, of_vp, q.vps, hp', hi', he, Option.isSome_none, List.isEmpty_nil,
    Bool.not_true, Bool.and_false, Bool.false_eq_true, if_false, Bool.and_true, if_true]

/-- An instruction that stands alone and traps in its own part, with no chunk open before it: what its part did to the
thread stands, and stream positions do not move. -/
theorem alone_trap {s t u} {f : Form} {body : Exec Next} {c : Trap} (q : Idle s t)
    (hp : f.priv = false ∨ t.ctx.priv = true) (hi : f.rule = .alone)
    (h : body (atBody s t) = .error (.trap c) { atBody s t with t := { u with chunk := some (opened s t) } })
    (hx : u.ctx.streams = t.ctx.streams) (ht : u.tid = t.tid) (hd : u.deferred = []) (hn : u.pending = none) :
    control f body s = .next ((settled s u []).enterTrap (u.settled []) c u.ctx.pc false false false) := by
  have hp' : (f.priv && !t.ctx.priv) = false := by rcases hp with h | h <;> simp [h]
  have hne : (Rule.alone != Rule.inside) = true := rfl
  have he : (Running.of s t).ended = false := q.toReady.ended
  simp only [control, q.toReady.acting, he, Running.execute, Running.attempt, openChunk_of, h, hi, of_t, of_vp, of_ends, q.vps,
    hp', q.chunk, Option.isSome_none, List.isEmpty_nil, Bool.not_true, Bool.and_false, Bool.false_and, Bool.false_eq_true,
    if_false, hne, Bool.true_and, Option.any_none]
  have hr : (opened s t).reads = [] := by simp [opened, q.chunk]
  have e := takeTrap_bare (r := { atBody s t with t := { u with chunk := some (opened s t) } }) rfl
    (opened_bare q.chunk) rfl hd hn (by rw [show ({ u with chunk := some (opened s t) } : Thread).tid = t.tid from ht]; exact q.forked) c
  rw [hr] at e
  rw [← hx]
  exact congrArg _ e

/-- ecall completes and then traps 0x12 (R303). -/
theorem ecall_done {s t} (q : Idle s t) :
    execEcall s = .next ((settled s { t.past with ctx := t.ctx.next } []).enterTrap
      (({ t.past with ctx := t.ctx.next } : Thread).settled []) { code := 0x12, sub := 0, val := 0 } t.ctx.next.pc false false false) := by
  refine alone_trap (u := { t.past with ctx := t.ctx.next }) q (.inl rfl) rfl ?_ ?_ rfl q.deferred q.pending
  · simp only [run_bind, run_get, run_modify, run_trap]
    exact congrArg (EStateM.Result.error _) (congrArg (fun u => ({ atBody s t with t := u } : Running)) (goOn_seq rfl))
  have h : ∀ (l : List LoopEntry) (c : Ctx) (a : Word), (endTest a c l).streams = c.streams := by
    intro l
    induction l with
    | nil => intro c a; rfl
    | cons e r ih =>
      intro c a
      simp only [endTest]
      split
      · rfl
      · have hr : ∀ m, (c.rotate m).streams = c.streams := fun m => by simp only [Ctx.rotate, List.foldr, Ctx.setP_streams]
        split <;> split <;> simp [ih, hr]
  exact h _ _ _

theorem eret_done {s t} (q : Idle s t) (hp : t.ctx.priv = true) :
    execEret s = .next (settled s t.returned.past []) := by
  unfold execEret
  refine alone_to (u := t.returned) q (.inr hp) rfl rfl ?_ q.deferred q.replies q.pend q.forked
  simp only [run_bind, run_modC, run_modT, run_getC, run_pure, atBody_t]
  rfl

theorem pause_done {s t} (q : Idle s t) :
    execPause s = .next (settled s { t.past with ctx := t.ctx.next, pause := some { since := s.cycle, lines := t.lastReads } } []) :=
  alone_settled (u := { t with pause := some { since := s.cycle, lines := t.lastReads } }) (n := .seq) q (.inl rfl) rfl rfl rfl
    q.deferred q.replies q.pend q.forked

theorem dropPages_run {s t} (p : TlbEntry → Bool) (h : s.pins (some t.tid) (fun _ c => c.pages.any p) = false) :
    dropPages p (atBody s t) = .ok () { atBody s t with s := s.dropTlb p } := by
  have h : s.pins (some (atBody s t).t.tid) (fun _ c => c.pages.any p) = false := h
  simp only [dropPages, run_bind, run_getS, run_getT, atBody_s, run_ite, h, Bool.false_eq_true, if_false, run_pure, run_modS]

theorem tlbi_done {s t} (q : Idle s t) (hp : t.ctx.priv = true) (a : BitVec 6) (p : TlbEntry → Bool)
    (e : p = fun e => e.parcel == t.parcel && e.covers (t.ctx.xAt a).toNat)
    (h : s.pins (some t.tid) (fun _ c => c.pages.any p) = false) :
    execTlbi a s = .next (settled (s.dropTlb p) { t.past with ctx := t.ctx.next } []) := by
  subst e
  refine alone_settled (u := t) (n := .seq) q (.inr hp) rfl rfl ?_ q.deferred q.replies q.pend
    (fun c hc => q.forked c (squashIf_copies _ _ c hc))
  simp only [run_seq, run_bind, rdX_clean q.clean, run_getT]
  rw [show (atBody s t).t.ctx = t.ctx from rfl, show (atBody s t).t.parcel = t.parcel from rfl, dropPages_run _ h]
  rfl

theorem tlbia_done {s t} (q : Idle s t) (hp : t.ctx.priv = true) (p : TlbEntry → Bool) (e : p = fun e => e.parcel == t.parcel)
    (h : s.pins (some t.tid) (fun _ c => c.pages.any p) = false) :
    execTlbia s = .next (settled (s.dropTlb p) { t.past with ctx := t.ctx.next } []) := by
  subst e
  refine alone_settled (u := t) (n := .seq) q (.inr hp) rfl rfl ?_ q.deferred q.replies q.pend
    (fun c hc => q.forked c (squashIf_copies _ _ c hc))
  simp only [run_seq, run_bind, run_getT]
  rw [show (atBody s t).t.parcel = t.parcel from rfl, dropPages_run _ h]
  rfl

theorem pkset_out {s t} (q : Idle s t) (hp : t.ctx.priv = true) (h : pkOut t.ctx.pkidx = true) :
    execPkset s = .next (settled (s.setParcel t.parcel { s.parcel t.parcel with outkey := t.ctx.pkey }) { t.past with ctx := t.ctx.next } []) := by
  refine alone_settled (u := t) (n := .seq) q (.inr hp) rfl rfl ?_ q.deferred q.replies q.pend q.forked
  have h : pkOut (atBody s t).t.ctx.pkidx = true := h
  simp only [run_seq, run_bind, run_getC, run_getS, run_getT, run_ite, h, if_true, run_modS]
  rfl

theorem pkclr_out {s t} (q : Idle s t) (hp : t.ctx.priv = true) (h : pkOut t.ctx.pkidx = true) :
    execPkclr s = .next (settled (s.setParcel t.parcel { s.parcel t.parcel with outkey := 0 }) { t.past with ctx := t.ctx.next } []) := by
  refine alone_settled (u := t) (n := .seq) q (.inr hp) rfl rfl ?_ q.deferred q.replies q.pend q.forked
  have h : pkOut (atBody s t).t.ctx.pkidx = true := h
  simp only [run_seq, run_bind, run_getC, run_getS, run_getT, run_ite, h, if_true, run_modS]
  rfl

theorem pkclr_in {s t} (q : Idle s t) (hp : t.ctx.priv = true) (h : pkOut t.ctx.pkidx = false)
    (hk : pkSlot t.ctx.pkidx < (s.parcel t.parcel).kcount) :
    execPkclr s = .next (settled { s with keys := tdrop ((s.parcel t.parcel).kfirst + pkSlot t.ctx.pkidx) s.keys }
      { t.past with ctx := t.ctx.next } []) := by
  refine alone_settled (u := t) (n := .seq) q (.inr hp) rfl rfl ?_ q.deferred q.replies q.pend q.forked
  have h : pkOut (atBody s t).t.ctx.pkidx = false := h
  have hk : ¬ ((atBody s t).s.parcel (atBody s t).t.parcel).kcount ≤ pkSlot (atBody s t).t.ctx.pkidx := by simpa using hk
  simp only [run_seq, run_bind, run_getC, run_getS, run_getT, run_ite, h, Bool.false_eq_true, if_false, hk, run_pure, run_modS]
  rfl

theorem pkset_in {s t} (q : Idle s t) (hp : t.ctx.priv = true) (h : pkOut t.ctx.pkidx = false)
    (hk : pkSlot t.ctx.pkidx < (s.parcel t.parcel).kcount)
    (hu : ∀ j < (s.parcel t.parcel).kcount, j ≠ pkSlot t.ctx.pkidx →
      ∀ e, tfind ((s.parcel t.parcel).kfirst + j) s.keys = some e → ¬ (e.sdev = pkSdev t.ctx.pkidx ∧ e.stag = pkStag t.ctx.pkidx)) :
    execPkset s = .next (settled
      { s with keys := tput ((s.parcel t.parcel).kfirst + pkSlot t.ctx.pkidx) (KeyEntry.mk t.ctx.pkey t.parcel
          (pkStag t.ctx.pkidx) (pkSdev t.ctx.pkidx)) s.keys }
      { t.past with ctx := t.ctx.next } []) := by
  refine alone_settled (u := t) (n := .seq) q (.inr hp) rfl rfl ?_ q.deferred q.replies q.pend q.forked
  have h : pkOut (atBody s t).t.ctx.pkidx = false := h
  have hk : ¬ ((atBody s t).s.parcel (atBody s t).t.parcel).kcount ≤ pkSlot (atBody s t).t.ctx.pkidx := by simpa using hk
  have hf : (List.range ((atBody s t).s.parcel (atBody s t).t.parcel).kcount).find? (fun j =>
      j != pkSlot (atBody s t).t.ctx.pkidx && ((tfind (((atBody s t).s.parcel (atBody s t).t.parcel).kfirst + j) (atBody s t).s.keys).any
        fun e => e.sdev == pkSdev (atBody s t).t.ctx.pkidx && e.stag == pkStag (atBody s t).t.ctx.pkidx)) = none := by
    rw [List.find?_eq_none]
    intro j hj
    have hj : j < (s.parcel t.parcel).kcount := List.mem_range.mp hj
    by_cases e : j = pkSlot t.ctx.pkidx
    · simp [e]
    · have := hu j hj e
      cases hfind : tfind ((s.parcel t.parcel).kfirst + j) s.keys with
      | none => simp [hfind]
      | some x =>
        have := this x hfind
        simp only [atBody_s, atBody_t, hfind, Option.any_some, Bool.and_eq_true, bne_iff_ne, beq_iff_eq]
        exact fun ⟨_, y⟩ => this y
  simp only [run_seq, run_bind, run_getC, run_getS, run_getT, run_ite, h, Bool.false_eq_true, if_false, hk, run_pure, run_modS, hf]
  rfl

end Sys2Proof.Machine
end

