-- ==== Sys2Proof/Laws/Vp.lean ====
section
/-! SUPPORT. What the virtual processors do (05): their own instructions, and an elementwise instruction that a VP executes. -/

set_option linter.unusedSimpArgs false
set_option Elab.async false

namespace Sys2Proof.Machine

theorem vfetch_done {s t} (q : Quiet s t) (n : BitVec 5) (o : BitVec 19) (pc : Word) (hpc : pc = t.ctx.pc + word (o.toInt * 4)) :
    execVfetch n o s = .next (wrote s t { t.ctx with
      vps := t.ctx.active.map fun i => (i, { pc := pc, last := some (pc + BitVec.ofNat 64 (4 * n.toNat)) }) }) := by
  subst hpc
  apply control_wrote q rfl rfl rfl
  have ha : activeElems (atBody s t) = .ok t.ctx.active (atBody s t) := by
    simp only [activeElems, run_bind, run_get, atBody_vp, run_ite, checkPoisonP_clean q.clean]
    split <;> rfl
  simp only [run_seq, run_bind, ha, run_getC, run_modC]
  rfl

theorem vpsync_done {s t} (q : Quiet s t) : execVpsync s = .next (wrote s t t.ctx) := by
  apply control_wrote q rfl rfl rfl
  rfl

/-- A VP's thread as the VP's instruction finds it. -/
def atVp (s : State) (t : Thread) (i : Nat) : Running :=
  { s, t := { t with chunk := some (opened s t) }, vp := some i, popped := [], ends := false, beats := 0, group := (0, []) }

/-- The same, before its instruction opens a chunk. -/
def beforeVp (s : State) (t : Thread) (i : Nat) : Running :=
  { s, t, vp := some i, popped := [], ends := false, beats := 0, group := (0, []) }

@[simp] theorem beforeVp_s (s : State) (t : Thread) (i : Nat) : (beforeVp s t i).s = s := rfl
@[simp] theorem beforeVp_t (s : State) (t : Thread) (i : Nat) : (beforeVp s t i).t = t := rfl
@[simp] theorem beforeVp_vp (s : State) (t : Thread) (i : Nat) : (beforeVp s t i).vp = some i := rfl

theorem VpReady.acting {s t i e} (q : VpReady s t i e) : s.acting = some (beforeVp s t i) := by
  simp [State.acting, q.actor, q.entry, q.runs, q.core, q.pause, q.phase, q.slot, beforeVp]

theorem VpReady.clean {s t i} (q : Calm s t) : Clean (atVp s t i) := by
  have h := q.clean
  exact ⟨h.poison, h.deferred, h.failed, h.awaits⟩

theorem openChunk_vp (s : State) (t : Thread) (i : Nat) : (beforeVp s t i).openChunk false = atVp s t i := by
  unfold Running.openChunk atVp beforeVp opened
  cases hc : t.chunk <;> simp [hc]
  cases t; simp_all

theorem shared_vp {s t i e} {f : Form} {body : Exec Next} {n : Next} {c c' : Ctx} {r : Running} (q : VpReady s t i e)
    (hp : f.priv = false ∨ t.ctx.priv = true) (hi : f.rule = .inside) (hc : f.counts = true)
    (h : body (atVp s t i) = .ok n r) (e : r = { atVp s t i with t := { (atVp s t i).t with ctx := c } })
    (hr : t.replies = []) (hg : (r.goOnVp i n).t.ctx = c')
    (room : (opened s t).counted.goesOn t.limit = true) : shared f body s = .next (wentVp s t i c') := by
  have hp' : (f.priv && !t.ctx.priv) = false := by rcases hp with h | h <;> simp [h]
  have he : (beforeVp s t i).ended = false := by
    have h := q.unended
    cases hc : t.chunk <;> simp_all [Running.ended, beforeVp]
  have cl : Clear (beforeVp s t i) r := by
    subst e
    have cl := Clear.same (s := s) (t := t) (r := { atVp s t i with t := { (atVp s t i).t with ctx := c } }) rfl rfl rfl hr
    exact ⟨cl.claims, cl.tokens, cl.replies⟩
  have hv : r.vp = some i := by rw [e]; rfl
  have go : r.goOnVp i n = { atVp s t i with t := { t.pastVp i with ctx := c', chunk := some (opened s t) } } := by
    rw [← hg, e]
    unfold Running.goOnVp
    split <;> simp [Running.spent, Thread.pastVp, atVp]
  have h1 := cl.claims
  have h2 := cl.used
  simp only [beforeVp_t, beforeVp_s] at h1 h2
  simp only [shared, q.acting, he, Running.execute, Running.attempt, openChunk_vp, h, hi, hc, hp', beforeVp_s, beforeVp_t,
    beforeVp_vp, Option.isNone_some, Bool.false_and, Bool.false_eq_true, if_false, bne_self_eq_false, h1, h2]
  simp only [hv, go]
  exact congrArg Host.Outcome.next (retire_open (k := opened s t) rfl rfl room)

/-- An instruction of a VP that leaves the PC array to its own advance. -/
theorem shared_vpNext {s t i e} {f : Form} {body : Exec Next} {n : Next} {c : Ctx} (q : VpReady s t i e)
    (hp : f.priv = false ∨ t.ctx.priv = true) (hi : f.rule = .inside) (hc : f.counts = true)
    (h : body (atVp s t i) = .ok n { atVp s t i with t := { (atVp s t i).t with ctx := c } }) (hv : c.vps = t.ctx.vps)
    (hr : t.replies = []) (room : (opened s t).counted.goesOn t.limit = true) :
    shared f body s = .next (wentVp s t i (c.vpNext i e n)) := by
  refine shared_vp q hp hi hc h rfl hr ?_ room
  have hs : tfind i c.vps = some e := by rw [hv]; exact q.slot
  simp only [Running.goOnVp, hs, Ctx.vpNext]

theorem tfind_tdrop {α : Type} (k : Nat) (m : Table α) (hm : tsorted m = true) : tfind k (tdrop k m) = none := by
  have key : ∀ (m : Table α) (lo : Nat), sortedFrom lo m = true → tfind k (tdrop k m) = none := by
    intro m
    induction m with
    | nil => intro lo _; rfl
    | cons e r ih =>
      obtain ⟨j, u⟩ := e
      intro lo h
      simp only [sortedFrom, Bool.and_eq_true, decide_eq_true_eq] at h
      have low : ∀ (r : Table α) (b : Nat), sortedFrom b r = true → k < b → tfind k r = none := by
        intro r b hr hb
        cases r with
        | nil => rfl
        | cons e r =>
          obtain ⟨i, v⟩ := e
          simp only [sortedFrom, Bool.and_eq_true, decide_eq_true_eq] at hr
          have h1 : ¬ i = k := by omega
          have h2 : k < i := by omega
          simp [tfind, h1, h2]
      simp only [tdrop]
      split
      · rename_i h1
        have h2 : ¬ j = k := by omega
        simp [tfind, h1, h2]
      · split
        · rename_i h1 h2
          exact low r (j + 1) h.2 (by omega)
        · rename_i h1 h2
          simp only [tfind, h2, if_false, h1]
          exact ih (j + 1) h.2
  exact key m 0 hm

theorem vpstop_done {s t i e} (q : VpReady s t i e) (qc : Calm s t) (hm : tsorted t.ctx.vps = true)
    (room : (opened s t).counted.goesOn t.limit = true) :
    execVpstop s = .next (wentVp s t i { t.ctx with vps := tdrop i t.ctx.vps }) := by
  refine shared_vp (n := .seq) (c := { t.ctx with vps := tdrop i t.ctx.vps }) q (.inl rfl) rfl rfl rfl rfl qc.replies ?_ room
  have hs : tfind i (tdrop i t.ctx.vps) = none := tfind_tdrop i _ hm
  have hs : tfind i (tdrop ((atVp s t i).vp.getD 0) (atVp s t i).t.ctx.vps) = none := hs
  simp only [Running.goOnVp, hs]
  rfl

theorem vpbr_done {s t i e} (q : VpReady s t i e) (qc : Calm s t) (hs : t.ctx.streams = [])
    (room : (opened s t).counted.goesOn t.limit = true) (v : BitVec 6) (o : BitVec 18) (hv : t.vlFits t.ctx.sw = true) :
    execVpbr v o s = .next (wentVp s t i (t.ctx.vpNext i e
      (if getElem (t.ctx.vAt v) i t.ctx.sw = 0 then .seq else .goto (e.pc + word (o.toInt * 4))))) := by
  refine shared_vpNext (c := t.ctx) q (.inl rfl) rfl rfl ?_ rfl qc.replies room
  have hc : Clean (atVp s t i) := VpReady.clean qc
  have hst : (atVp s t i).t.ctx.streams = [] := hs
  have h1 : srcElems v t.ctx.sw t.ctx.vl [i] (atVp s t i) = .ok (t.ctx.vAt v) (atVp s t i) := by
    simp only [srcElems, srcV, run_bind, run_get, hst, tfind, awaitV_clean hc, run_pure, run_getC, Option.isSome_none,
      Bool.not_false, if_true, checkPoisonV_clean hc]
    rfl
  refine bind_ok (run_get _) ?_
  refine check_ok (by simp [atVp]) ?_
  refine bind_ok (r' := atVp s t i) (a := ()) ?_ ?_
  · simp [vpStreams, hst, tfind]
  refine bind_ok (run_getC _) ?_
  refine bind_ok (checkVl_run (r := atVp s t i) t.ctx.sw hv) ?_
  refine bind_ok (run_get _) ?_
  refine bind_ok h1 ?_
  have hp : ((tfind i t.ctx.vps).map (·.pc)).getD 0 = e.pc := by rw [q.slot]; rfl
  by_cases hx : getElem (t.ctx.vAt v) i t.ctx.sw = 0
  · rw [if_pos hx]
    exact if_pos hx ▸ rfl
  · rw [if_neg hx, ← hp]
    exact if_neg hx ▸ rfl

/-! ## An elementwise instruction of a VP -/

theorem zero_flags (f : Flags) : (0 ||| f : Flags) = f := by simp

theorem elementwise_vp {s t i} (qc : Calm s t) (hs : t.ctx.streams = []) (d : BitVec 6) (wd : Nat)
    (reads : Bool) (a : BitVec 6) (w : Nat) (b : Arg) (wb : Nat) (f : Nat → Nat → Nat → Nat → Rounded) :
    elementwise d wd reads a w b wb f (atVp s t i) = .ok () { atVp s t i with t := { (atVp s t i).t with
      ctx := t.ctx.putElem i d wd
        (f i (getElem (t.ctx.vAt d) i wd) (getElem (t.ctx.vAt a) i w) (t.ctx.argAt b wb i)) } } := by
  have h : Clean (atVp s t i) := VpReady.clean qc
  have hst : (atVp s t i).t.ctx.streams = [] := hs
  have hp : (atVp s t i).t.poison = [] := qc.poison
  have hd : dstV d (atVp s t i) = .ok (t.ctx.phys d.toNat) (atVp s t i) := by
    simp only [dstV, run_bind, run_get, hst, tfind, Option.isSome_none, Bool.false_eq_true, if_false, run_ite, run_pure,
      awaitV_clean h]
    rfl
  have hc : ∀ l, checkSrcs l (atVp s t i) = .ok () (atVp s t i) := by
    intro l
    simp only [checkSrcs, run_bind, run_getC, hst, tfind]
    induction l with
    | nil => rfl
    | cons e l ih =>
      simp only [List.forIn_cons, run_bind, run_pure] at ih ⊢
      exact ih
  have ha : activeElems (atVp s t i) = .ok [i] (atVp s t i) := rfl
  have hsrc : ∀ k w c es, srcElems k w c es (atVp s t i) = .ok (t.ctx.vAt k) (atVp s t i) := by
    intro k w c es
    simp only [srcElems, srcV, run_bind, run_get, hst, tfind, awaitV_clean h, run_pure, run_getC, Option.isSome_none,
      Bool.not_false, if_true, checkPoisonV_clean h]
    rfl
  have hw : ∀ n w es, wrElems n w es (atVp s t i) = .ok () { atVp s t i with t := { (atVp s t i).t with
      ctx := t.ctx.setV n (fill (t.ctx.v[n]?.getD 0) w es) } } := by
    intro n w es
    simp [wrElems, fill, hp]
    rfl
  cases b with
  | none =>
    simp only [elementwise, run_bind, run_pure, hd, hc, ha, run_getC, hsrc, run_ite, checkPoisonV_clean h, ite_self, hw, run_raise,
      List.map_cons, List.map_nil, List.foldl_cons, List.foldl_nil, fill, getElem_zero, zero_flags]
    rfl
  | v k =>
    simp only [elementwise, run_bind, run_pure, hd, hc, ha, run_getC, hsrc, run_ite, checkPoisonV_clean h, ite_self, hw, run_raise,
      List.map_cons, List.map_nil, List.foldl_cons, List.foldl_nil, fill, zero_flags]
    rfl
  | x k =>
    simp only [elementwise, run_bind, run_pure, rdX_clean h, hd, hc, ha, run_getC, hsrc, run_ite, checkPoisonV_clean h, ite_self,
      hw, run_raise, List.map_cons, List.map_nil, List.foldl_cons, List.foldl_nil, fill, zero_flags]
    rfl

theorem vecInt_vp {s t i e} (q : VpReady s t i e) (qc : Calm s t) (hs : t.ctx.streams = [])
    (room : (opened s t).counted.goesOn t.limit = true) (free reads : Bool) (f : IntOp → Int → Int → Int → Nat)
    (d a : BitVec 6) (b : Arg) (o : IntOp) (ho : o = t.ctx.intOp)
    (hm : (isInt o.t && isInt o.u && (free || o.t == o.u) && modeScale t.ctx.mode == 0) = true)
    (hv : t.vlFits (max o.w o.wd) = true) :
    vecInt free reads f d a b s = .next (wentVp s t i ((t.ctx.putElem i d o.wd
      (f o (intValue o.t o.w (getElem (t.ctx.vAt a) i o.w)) (intValue o.t o.w (t.ctx.argAt b o.w i))
        (intValue o.u o.wd (getElem (t.ctx.vAt d) i o.wd)), 0)).vpNext i e .seq)) := by
  subst ho
  refine shared_vpNext (n := .seq) q (.inl rfl) rfl rfl (seq_ok ?_) rfl qc.replies room
  refine bind_ok (run_getC _) ?_
  refine bind_ok (r' := atVp s t i) (a := ()) ?_ ?_
  · have hst : (atVp s t i).t.ctx.streams = [] := hs
    simp [vpStreams, hst, tfind]
  refine bind_ok (r' := atVp s t i) (a := ()) ?_ ?_
  · rw [run_needMode]
    exact if_pos hm
  refine bind_ok (checkVl_run (r := atVp s t i) _ hv) ?_
  exact elementwise_vp qc hs d _ _ a _ b _ _

end Sys2Proof.Machine
end

