-- ==== Sys2Proof/Tests/Slice0.lean ====
section
/-! SUPPORT. The model's own tests: instructions that are not well formed are refused as such, words written out from the
encodings of the manual decode to what they stand for, states and operands that meet the hypotheses of every statement, and
single steps whose results are worked out from the manual by hand. -/

set_option Elab.async false
set_option linter.unusedSimpArgs false
set_option linter.unusedVariables false

namespace Sys2Proof.Tests

open Sys2Proof.Machine

/-! ## States to test in -/

/-- The root thread of the loaded program (log entry 6), with a context and more of it changed. -/
def th (f : Ctx → Ctx := id) (g : Thread → Thread := id) : Thread :=
  let t := newThread 0 loadLaunch 0 0 0
  g { t with ctx := f t.ctx, state := .runReady, core := some 0, placed := true }

/-- The bytes of the loaded program's page tables: its page lies at 0x40000. -/
def tables : Memory :=
  [(0x10000, 1), (0x10002, 2), (0x20000, 1), (0x20002, 3), (0x30020, 0x3D), (0x30021, 1), (0x30022, 4)]

/-- A device with thread t alone, whose turn it is, and bytes in its page. -/
def dev (t : Thread) (l : Memory := []) : State :=
  { State.reset.loadProgram [] with actor := .thread t.tid, threads := [(t.tid, t)], mem := tables ++ l }

/-- A context with scalar registers set. -/
def xs (l : List (Nat × Word)) (c : Ctx) : Ctx := { c with x := l.foldl (fun x e => x.setIfInBounds e.1 e.2) c.x }

/-! ## Conditions to be decided -/

theorem ready_of {s : State} {t : Thread} (he : tfind t.tid s.threads = some t) (h : s.actor = .thread t.tid ∧ t.state = .runReady ∧
    t.core.isSome = true ∧ t.pause = none ∧ s.phase = .run ∧ t.ctx.vps = [] ∧ t.chunk.all (!·.ended) = true ∧ t.pendTrap = none) :
    Ready s t :=
  ⟨h.1, he, h.2.1, h.2.2.1, h.2.2.2.1, h.2.2.2.2.1, h.2.2.2.2.2.1, h.2.2.2.2.2.2.1, h.2.2.2.2.2.2.2⟩

theorem awaits_of {s : State} {t : Thread} (h : s.fabric = [] ∧ t.chunk.all (·.fabricOut.isEmpty) = true) :
    ∀ p, (Running.of s t).awaits p = false := by
  intro p
  show (s.fabric.any _ || t.chunk.any _) = false
  rw [h.1]
  have h5 := h.2
  cases e : t.chunk with
  | none => rfl
  | some c => rw [e] at h5; simp at h5; simp [h5]

theorem calm_of {s : State} {t : Thread} (h : t.poison = [] ∧ t.deferred = [] ∧ t.failedRegs = [] ∧ t.replies = [] ∧ s.fabric = [] ∧
    t.chunk.all (·.fabricOut.isEmpty) = true) : Calm s t :=
  ⟨h.1, h.2.1, h.2.2.1, h.2.2.2.1, awaits_of h.2.2.2.2⟩

theorem free_of {s : State} {t : Thread} (h : s.ticket = none ∧ s.persistent = []) : Free s t := by
  refine ⟨fun reads writes => ?_, by rw [h.1]; exact fun h => nomatch h⟩
  show (s.pins _ _ || (_ && List.any _ _)) = false
  have h1 : ∀ p, s.pins (some t.tid) p = false := by
    intro p
    unfold State.pins
    rw [h.1]
  rw [h1, Bool.false_or, h.2]
  have h2 : ∀ l : Marks, (l.any fun _ => false) = false := by
    intro l
    induction l with
    | nil => rfl
    | cons _ _ ih => exact ih
  exact (congrArg _ (h2 _)).trans (Bool.and_false _)

theorem vpReady_of {s : State} {t : Thread} {i : Nat} {e : VpPc} (he : tfind t.tid s.threads = some t) (h : s.actor = .vp t.tid i ∧
    t.state = .runReady ∧ t.core.isSome = true ∧ t.pause = none ∧ s.phase = .run ∧ t.chunk.all (!·.ended) = true ∧
    tfind i t.ctx.vps = some e) : VpReady s t i e :=
  ⟨h.1, he, h.2.1, h.2.2.1, h.2.2.2.1, h.2.2.2.2.1, h.2.2.2.2.2.1, h.2.2.2.2.2.2⟩

/-- Where an access of the thread comes to, if it is a byte of memory. -/
def landOf (s : State) (t : Thread) (need : Need) (va : Nat) : Option (Access × Bool × Nat) :=
  match s.translate t.coreNum t.parcel t.ctx.priv need va with
  | .ok (a, hit) =>
    match s.placeOf (some t.coreNum) (crewOf t.coreNum) t.parcel a with
    | .ok (.loc l) => if a.window = .host then none else some (a, hit, l)
    | _ => none
  | _ => none

theorem lands_of {s : State} {t : Thread} {need : Need} {va : Nat} (h : (landOf s t need va).isSome = true) :
    Lands s t need va ((landOf s t need va).get h).1 ((landOf s t need va).get h).2.1 (.loc ((landOf s t need va).get h).2.2) := by
  generalize hx : (landOf s t need va).get h = x
  have he : landOf s t need va = some x := by rw [← hx]; exact (Option.some_get h).symm
  unfold landOf at he
  split at he
  · rename_i a hit ht
    split at he
    · rename_i l hl
      split at he
      · cases he
      · rename_i hw
        cases he
        exact ⟨ht, hl, fun hh => absurd hh hw⟩
    · cases he
  · cases he

/-- Where an access comes to, if it is no byte of memory. -/
def spotOf (s : State) (t : Thread) (need : Need) (va : Nat) : Option (Access × Bool × Place) :=
  match s.translate t.coreNum t.parcel t.ctx.priv need va with
  | .ok (a, hit) =>
    match s.placeOf (some t.coreNum) (crewOf t.coreNum) t.parcel a with
    | .ok p => if a.window = .host then none else some (a, hit, p)
    | _ => none
  | _ => none

theorem spot_of {s : State} {t : Thread} {need : Need} {va : Nat} {p : Place} (h : (spotOf s t need va).isSome = true)
    (hp : (spotOf s t need va).map (·.2.2) = some p) :
    Lands s t need va ((spotOf s t need va).get h).1 ((spotOf s t need va).get h).2.1 p := by
  generalize hx : (spotOf s t need va).get h = x
  have he : spotOf s t need va = some x := by rw [← hx]; exact (Option.some_get h).symm
  rw [he] at hp
  cases hp
  unfold spotOf at he
  split at he
  · rename_i a hit ht
    split at he
    · rename_i l hl
      split at he
      · cases he
      · rename_i hw
        cases he
        exact ⟨ht, hl, fun hh => absurd hh hw⟩
    · cases he
  · cases he

theorem some_of {α : Type} {x : Option α} (h : x.isSome = true) : x = some (x.get h) := (Option.some_get h).symm

def okOf {ε α : Type} : Except ε α → Option α
  | .ok a => some a
  | _ => none

theorem ok_of {ε α : Type} {x : Except ε α} (h : (okOf x).isSome = true) : x = .ok ((okOf x).get h) := by
  cases x with
  | ok a => rfl
  | error e => cases h

def nextOf : Host.Outcome State Fault Refusal → Option State
  | .next s => some s
  | _ => none

theorem next_of {x : Host.Outcome State Fault Refusal} (h : (nextOf x).isSome = true) : x = .next ((nextOf x).get h) := by
  cases x with
  | next a => rfl
  | fault f => cases h
  | refused r => cases h

theorem turn_of {s : State} {m : Mover} (h : s.nextTurn.1 = some m) : s.nextTurn = (some m, s.nextTurn.2) := by
  rw [← h]

/-- What a read of the thread answers, with the device and the chunk after it. -/
def readOf {α : Type} (t : Thread) (m : Exec α) (s : State) (k : Chunk) : Option (α × State × Chunk) :=
  match m (t.on s t.ctx k) with
  | .ok a r => r.t.chunk.map fun k' => (a, r.s, k')
  | .error _ _ => none

theorem reads_of {α : Type} {t : Thread} {m : Exec α} {s : State} {k : Chunk} (R : Reader m) (h : (readOf t m s k).isSome = true) :
    t.reads m s k ((readOf t m s k).get h).1 ((readOf t m s k).get h).2.1 ((readOf t m s k).get h).2.2 := by
  generalize hx : (readOf t m s k).get h = x
  have he : readOf t m s k = some x := by rw [← hx]; exact (Option.some_get h).symm
  unfold readOf at he
  split at he
  · rename_i a r hr
    obtain ⟨s', k', rfl, -⟩ := R t s t.ctx k a r hr
    simp only [on_t, Option.map_some, Option.some.injEq] at he
    subst he
    exact hr
  · cases he

theorem inside_of {x : Option (List Int × List Int)} {P : List Int → List Int → Prop} {a b : List Int} (h : x = some (a, b))
    (hp : P a b) : ∀ lo hi, x = some (lo, hi) → P lo hi := by
  rintro lo hi e
  rw [h] at e
  cases e
  exact hp

theorem reader_copyBarrier (w : Word) : Reader (copyBarrier w) := by
  unfold copyBarrier
  exact reader_ite (reader_pure _) (reader_map (reader_barPlace _ _))

theorem some2_of {α β : Type} {x : Option (α × β)} (h : x.isSome = true) : x = some ((x.get h).1, (x.get h).2) := some_of h
theorem some3_of {α β γ : Type} {x : Option (α × β × γ)} (h : x.isSome = true) :
    x = some ((x.get h).1, (x.get h).2.1, (x.get h).2.2) := some_of h
theorem some4_of {α β γ δ : Type} {x : Option (α × β × γ × δ)} (h : x.isSome = true) :
    x = some ((x.get h).1, (x.get h).2.1, (x.get h).2.2.1, (x.get h).2.2.2) := some_of h
theorem some5_of {α β γ δ ε : Type} {x : Option (α × β × γ × δ × ε)} (h : x.isSome = true) :
    x = some ((x.get h).1, (x.get h).2.1, (x.get h).2.2.1, (x.get h).2.2.2.1, (x.get h).2.2.2.2) := some_of h

theorem reads2_of {α β : Type} {t : Thread} {m : Exec (α × β)} {s : State} {k : Chunk} (R : Reader m)
    (h : (readOf t m s k).isSome = true) :
    t.reads m s k (((readOf t m s k).get h).1.1, ((readOf t m s k).get h).1.2) ((readOf t m s k).get h).2.1
      ((readOf t m s k).get h).2.2 := reads_of R h

def locOf : Except Trap (State × Place) → Option (State × Nat)
  | .ok (s, .loc l) => some (s, l)
  | _ => none

theorem loc_of {x : Except Trap (State × Place)} (h : (locOf x).isSome = true) :
    x = .ok (((locOf x).get h).1, .loc ((locOf x).get h).2) := by
  match x with
  | .ok (s, .loc l) => rfl
  | .error _ => cases h

theorem isSome_of {α β : Type} {x : Option (α × β)} {a : α} (h : x.map (·.1) = some a) : x.isSome = true := by
  cases x with
  | none => cases h
  | some y => rfl

theorem get_fst {α β : Type} {x : Option (α × β)} {a : α} (h : x.map (·.1) = some a) (hs : x.isSome = true) : (x.get hs).1 = a := by
  cases x with
  | none => cases h
  | some y => exact Option.some.inj h

theorem reads_val {α : Type} {t : Thread} {m : Exec α} {s : State} {k : Chunk} {a : α} (R : Reader m)
    (h : (readOf t m s k).map (·.1) = some a) :
    t.reads m s k a ((readOf t m s k).get (isSome_of h)).2.1 ((readOf t m s k).get (isSome_of h)).2.2 := by
  have h1 := reads_of R (isSome_of h)
  have h2 := get_fst h (isSome_of h)
  rwa [h2] at h1

/-! ## Instructions that are not well formed (R27, R36, R37 and the instructions' own rules) -/

theorem test_ill_formed_loop_empty : Instr.wf (.loop 1 0) = false := by decide
theorem test_ill_formed_loopr_empty : Instr.wf (.loopr 1 0) = false := by decide
theorem test_ill_formed_acq_fence_with_destination : Instr.wf (.acq 1 0 0) = false := by decide
theorem test_ill_formed_rel_fence_with_data : Instr.wf (.rel 0 1 0) = false := by decide
theorem test_ill_formed_mfsr_003 : Instr.wf (.mfsr 1 0x003) = false := by decide
theorem test_ill_formed_mfsr_021 : Instr.wf (.mfsr 1 0x021) = false := by decide
theorem test_ill_formed_mfsr_106 : Instr.wf (.mfsr 1 0x106) = false := by decide
theorem test_ill_formed_mtsr_13F : Instr.wf (.mtsr 1 0x13F) = false := by decide
theorem test_ill_formed_mtsr_107 : Instr.wf (.mtsr 1 0x107) = false := by decide
theorem test_ill_formed_vcmpEq_p0 : Instr.wf (.vcmpEq 0 1 2 false false) = false := by decide
theorem test_ill_formed_vcmpNe_p0 : Instr.wf (.vcmpNe 0 1 2 false false) = false := by decide
theorem test_ill_formed_vcmpLt_p0 : Instr.wf (.vcmpLt 0 1 2 false false) = false := by decide
theorem test_ill_formed_vcmpLe_p0 : Instr.wf (.vcmpLe 0 1 2 false false) = false := by decide
theorem test_ill_formed_vcmpGt_p0 : Instr.wf (.vcmpGt 0 1 2 false false) = false := by decide
theorem test_ill_formed_vcmpGe_p0 : Instr.wf (.vcmpGe 0 1 2 false false) = false := by decide
theorem test_ill_formed_vcmpUn_p0 : Instr.wf (.vcmpUn 0 1 2 false false) = false := by decide
theorem test_ill_formed_vcmpEq_p16 : Instr.wf (.vcmpEq 16 1 2 false false) = false := by decide
theorem test_ill_formed_pand_p0 : Instr.wf (.pand 0 1 2) = false := by decide
theorem test_ill_formed_pand_source : Instr.wf (.pand 1 16 2) = false := by decide
theorem test_ill_formed_por_source : Instr.wf (.por 1 2 16) = false := by decide
theorem test_ill_formed_pxor_p0 : Instr.wf (.pxor 0 1 2) = false := by decide
theorem test_ill_formed_pandn_p16 : Instr.wf (.pandn 16 1 2) = false := by decide
theorem test_ill_formed_pnot_source : Instr.wf (.pnot 1 63) = false := by decide
theorem test_ill_formed_pwhile_p0 : Instr.wf (.pwhile 0 1 2) = false := by decide
theorem test_ill_formed_pcnt_p16 : Instr.wf (.pcnt 1 16) = false := by decide
theorem test_ill_formed_pfirst_p16 : Instr.wf (.pfirst 1 16) = false := by decide
theorem test_ill_formed_vcompress_p16 : Instr.wf (.vcompress 1 2 16 false) = false := by decide
theorem test_ill_formed_vexpand_p16 : Instr.wf (.vexpand 1 2 16 false) = false := by decide
theorem test_ill_formed_fld_f16 : Instr.wf (.fld 16 1 2) = false := by decide
theorem test_ill_formed_fst_f16 : Instr.wf (.fst 16 1) = false := by decide
theorem test_ill_formed_fwalk_f16 : Instr.wf (.fwalk 16 1 2) = false := by decide
theorem test_ill_formed_finter_f16 : Instr.wf (.finter 1 16 2 0) = false := by decide
theorem test_ill_formed_finter_combine : Instr.wf (.finter 1 2 3 6) = false := by decide
theorem test_ill_formed_funion_same : Instr.wf (.funion 1 1 2 0) = false := by decide
theorem test_ill_formed_funion_same_second : Instr.wf (.funion 2 1 2 0) = false := by decide
theorem test_ill_formed_fmerge_one_input : Instr.wf (.fmerge 0 4 4 1) = false := by decide
theorem test_ill_formed_fmerge_five_inputs : Instr.wf (.fmerge 0 4 8 1) = false := by decide
theorem test_ill_formed_fmerge_within : Instr.wf (.fmerge 5 4 7 1) = false := by decide
theorem test_ill_formed_fmerge_backwards : Instr.wf (.fmerge 0 7 4 1) = false := by decide
theorem test_ill_formed_fcompact_f16 : Instr.wf (.fcompact 16 1 2 false) = false := by decide
theorem test_ill_formed_fcompact_p16 : Instr.wf (.fcompact 1 1 16 false) = false := by decide
theorem test_ill_formed_fexpand_f16 : Instr.wf (.fexpand 1 16) = false := by decide
theorem test_ill_formed_fgath_f16 : Instr.wf (.fgath 16 1) = false := by decide
theorem test_ill_formed_fscat_f16 : Instr.wf (.fscat 16 1) = false := by decide
theorem test_ill_formed_flen_f16 : Instr.wf (.flen 1 16) = false := by decide
theorem test_ill_formed_fclr_f16 : Instr.wf (.fclr 16) = false := by decide
theorem test_ill_formed_fcopy_f16 : Instr.wf (.fcopy 1 16) = false := by decide
theorem test_ill_formed_mop_sv_pair : Instr.wf (.mopSv 0 0 63 1 false) = false := by decide
theorem test_ill_formed_mop_ss_pair : Instr.wf (.mopSs 0 0 1 63) = false := by decide
theorem test_ill_formed_mprune_p0 : Instr.wf (.mprune 1 2 0 false) = false := by decide
theorem test_ill_formed_fcvt_type_12 : Instr.wf (.fcvt 1 2 12) = false := by decide
theorem test_ill_formed_smode_v55 : Instr.wf (.smode 55 1) = false := by decide
theorem test_ill_formed_request_over_line : Instr.wf (.fabricRequestArrival { port := 3, header := none, offset := 120, op := .load 16 }) = false := by decide
theorem test_ill_formed_packet_indexed_stride : Instr.wf (.extensionPacketArrival
    { port := 3, header := 1, head := 0x0000000000000000_00000004_00020010, offsets := [0], data := [] }) = false := by decide
theorem test_ill_formed_packet_misaligned : Instr.wf (.extensionPacketArrival
    { port := 3, header := 1, head := 0x0000000000000000_00000002_00120000, offsets := [], data := [] }) = false := by decide

/-! ## Decoding: words written out in the manual, or from its encodings (R26, R32), and words that are refused (R34) -/

theorem test_word_ecall : decode 0x00000001#32 = .ok (.ecall) := rfl
theorem test_word_eret : decode 0x00000002#32 = .ok (.eret) := rfl
theorem test_word_tlbi : decode 0x00028003#32 = .ok (.tlbi 10) := rfl
theorem test_word_tlbia : decode 0x00000004#32 = .ok (.tlbia) := rfl
theorem test_word_pkset : decode 0x00000005#32 = .ok (.pkset) := rfl
theorem test_word_pkclr : decode 0x00000006#32 = .ok (.pkclr) := rfl
theorem test_word_pause : decode 0x00000007#32 = .ok (.pause) := rfl
theorem test_word_nop : decode 0x00000008#32 = .ok (.nop) := rfl
theorem test_word_mode : decode 0x04D2002A#32 = .ok (.mode 3 9 0 false 0 1 10) := rfl
theorem test_word_slli : decode 0x1C714002#32 = .ok (.slli 7 5 2) := rfl
theorem test_word_add : decode 0x08710700#32 = .ok (.add 7 4 7) := rfl
theorem test_word_st_w : decode 0x5451D000#32 = .ok (.stW 5 7 0) := rfl
theorem test_word_texit : decode 0xE8000001#32 = .ok (.texit) := rfl
theorem test_word_setvli : decode 0x60001040#32 = .ok (.setvli 0 64) := rfl
theorem test_word_mfsr_cycle : decode 0x6070201A#32 = .ok (.mfsr 7 0x01A) := rfl
theorem test_word_loopr : decode 0x48B00801#32 = .ok (.loopr 11 8) := rfl
theorem test_word_vadd_vx : decode 0x6A284AA0#32 = .ok (.vaddVx 34 33 10 true) := rfl
theorem test_word_addi : decode 0x0C924100#32 = .ok (.addi 9 9 256) := rfl
theorem test_word_vfma : decode 0x84108380#32 = .ok (.vfma 1 2 3 true false) := rfl
theorem test_word_vfadd_vx : decode 0x80610920#32 = .ok (.vfaddVx 6 4 9 false) := rfl
theorem test_word_vcmp_lt : decode 0x98210502#32 = .ok (.vcmpLt 2 4 5 false false) := rfl
theorem test_word_vqnt : decode 0x9D410001#32 = .ok (.vqnt 20 4 false) := rfl
theorem test_word_vredt : decode 0xA0720001#32 = .ok (.vredt 7 8 0 false) := rfl
theorem test_word_vidx : decode 0x649FFF02#32 = .ok (.vidx 9 0xFFF 2) := rfl
theorem test_word_vfetch : decode 0x4C100003#32 = .ok (.vfetch 2 3) := rfl
theorem test_word_vpbr : decode 0x4D0C0002#32 = .ok (.vpbr 3 2) := rfl
theorem test_word_vpstop : decode 0x4E000000#32 = .ok (.vpstop) := rfl
theorem test_word_vpsync : decode 0x4F000000#32 = .ok (.vpsync) := rfl
theorem test_word_fwalk : decode 0xB8220902#32 = .ok (.fwalk 2 8 9) := rfl
theorem test_word_fst : decode 0xB832C001#32 = .ok (.fst 3 11) := rfl
theorem test_word_funion_add : decode 0xBC304209#32 = .ok (.funion 3 1 2 1) := rfl
theorem test_word_fmerge_add : decode 0xBC01070A#32 = .ok (.fmerge 0 4 7 1) := rfl
theorem test_word_fcompact : decode 0xC0530380#32 = .ok (.fcompact 5 12 3 true) := rfl
theorem test_word_flen : decode 0xC470C000#32 = .ok (.flen 7 3) := rfl
theorem test_word_mattach : decode 0xC8920000#32 = .ok (.mattach 9 8) := rfl
theorem test_word_mmode : decode 0xC8A2C002#32 = .ok (.mmode 10 11) := rfl
theorem test_word_mzero : decode 0xCC200000#32 = .ok (.mzero 2) := rfl
theorem test_word_mop_vv : decode 0xCD5210C1#32 = .ok (.mopVv 5 1 8 16 true true) := rfl
theorem test_word_mop_ss : decode 0xCC051603#32 = .ok (.mopSs 0 0 20 22) := rfl
theorem test_word_mlda : decode 0xD0010C00#32 = .ok (.mldaV 0 4 12 false) := rfl
theorem test_word_msta_mem : decode 0xD0551501#32 = .ok (.mstaS 1 20 21) := rfl
theorem test_word_mprune : decode 0xD5410600#32 = .ok (.mprune 20 4 6 false) := rfl
theorem test_word_ld_w : decode 0x50729002#32 = .ok (.ldW 7 10 2) := rfl
theorem test_word_ld_d : decode 0x50809FFF#32 = .ok (.ldD 8 2 0x7FF) := rfl
theorem test_word_amo_add_d : decode 0x58928C80#32 = .ok (.amoAdd 9 10 12 true) := rfl
theorem test_word_cas_d : decode 0x58928C90#32 = .ok (.cas 9 10 12 true) := rfl
theorem test_word_fence_die : decode 0x5C000001#32 = .ok (.fence 1) := rfl
theorem test_word_acq_device : decode 0x5C728006#32 = .ok (.acq 7 10 2) := rfl
theorem test_word_rel_device : decode 0x5C02850A#32 = .ok (.rel 10 5 2) := rfl
theorem test_word_vld_x : decode 0xA8828942#32 = .ok (.vldX 8 10 9 true) := rfl
theorem test_word_vst_s : decode 0xAC828B01#32 = .ok (.vstS 8 10 11) := rfl
theorem test_word_vamo_add_ret : decode 0xB0328920#32 = .ok (.vamoAddRet 3 10 9 false) := rfl
theorem test_word_vdrain : decode 0xB4000000#32 = .ok (.vdrain) := rfl
theorem test_word_chkbeg : decode 0xE4000000#32 = .ok (.chkbeg) := rfl
theorem test_word_chkend : decode 0xE4000001#32 = .ok (.chkend) := rfl
theorem test_word_chkstat : decode 0xE4700002#32 = .ok (.chkstat 7) := rfl
theorem test_word_cpy : decode 0xD8D20C00#32 = .ok (.cpy 13 8 12) := rfl
theorem test_word_cpym : decode 0xD8D20C01#32 = .ok (.cpym 13 8 12) := rfl
theorem test_word_smode : decode 0xDB850002#32 = .ok (.smode 56 20) := rfl
theorem test_word_sstop : decode 0xDB800003#32 = .ok (.sstop 56) := rfl
theorem test_word_twait_all : decode 0xDCE24001#32 = .ok (.twaitAll 14 9) := rfl
theorem test_word_barexp : decode 0xDC025104#32 = .ok (.barexp 9 17) := rfl
theorem test_word_bararr : decode 0xDCE24005#32 = .ok (.bararr 14 9) := rfl
theorem test_word_barwait : decode 0xDCF24E06#32 = .ok (.barwait 15 9 14) := rfl
theorem test_word_rwb : decode 0xE0020900#32 = .ok (.rwb 8 9) := rfl
theorem test_word_rinv : decode 0xE0020901#32 = .ok (.rinv 8 9) := rfl
theorem test_word_rgndecl : decode 0xE0A20002#32 = .ok (.rgndecl 10 8) := rfl
theorem test_word_rgnfree : decode 0xE0028003#32 = .ok (.rgnfree 10) := rfl
theorem test_word_cways : decode 0xE0B30004#32 = .ok (.cways 11 12) := rfl
theorem test_word_live : decode 0xE0020905#32 = .ok (.live 8 9) := rfl
theorem test_word_dead : decode 0xE0020906#32 = .ok (.dead 8 9) := rfl
theorem test_word_launch : decode 0xE8920000#32 = .ok (.launch 9 8) := rfl
theorem test_word_tyield : decode 0xE8000002#32 = .ok (.tyield) := rfl
theorem test_word_sbar : decode 0xE8A2C003#32 = .ok (.sbar 10 11) := rfl
theorem test_word_sarrive : decode 0xE8A2C004#32 = .ok (.sarrive 10 11) := rfl
theorem test_word_swait : decode 0xE8A2CC05#32 = .ok (.swait 10 11 12) := rfl
theorem test_word_stest : decode 0xE8A2C006#32 = .ok (.stest 10 11) := rfl
theorem test_word_bkstart : decode 0xEC920A00#32 = .ok (.bkstart 9 8 10) := rfl
theorem test_word_bkresume : decode 0xEC920A01#32 = .ok (.bkresume 9 8 10) := rfl
theorem test_word_bkstat : decode 0xEC920002#32 = .ok (.bkstat 9 8) := rfl
theorem test_word_lih : decode (0b001000#6 ++ 0b000101#6 ++ 0b10000000000000000001#20) = .ok (.lih 5 0x80001) := rfl
theorem test_word_pcrel : decode (0b001001#6 ++ 0b000101#6 ++ 0b00000000000000000010#20) = .ok (.pcrel 5 2) := rfl
theorem test_word_blt : decode (0b001100#6 ++ 0b000001#6 ++ 0b000010#6 ++ 0b11111111111111#14) = .ok (.blt 1 2 0x3FFF) := rfl
theorem test_word_bgeu : decode (0b001111#6 ++ 0b000001#6 ++ 0b000010#6 ++ 0b00000000000011#14) = .ok (.bgeu 1 2 3) := rfl
theorem test_word_jal : decode (0b010000#6 ++ 0b000001#6 ++ 0b11111111111111111111#20) = .ok (.jal 1 0xFFFFF) := rfl
theorem test_word_jalr : decode (0b010001#6 ++ 0b000001#6 ++ 0b000010#6 ++ 0b00000000000100#14) = .ok (.jalr 1 2 4) := rfl
theorem test_word_loop : decode (0b010010#6 ++ 0b001011#6 ++ 0b000000001000#12 ++ 0b00000000#8) = .ok (.loop 11 8) := rfl
theorem test_word_srai : decode (0b000111#6 ++ 0b000001#6 ++ 0b000010#6 ++ 0b10#2 ++ 0b000000#6 ++ 0b111111#6) = .ok (.srai 1 2 63) := rfl
theorem test_word_xori : decode (0b000110#6 ++ 0b000001#6 ++ 0b000010#6 ++ 0b10000000000000#14) = .ok (.xori 1 2 0x2000) := rfl
theorem test_word_ld_bu : decode (0b010100#6 ++ 0b000001#6 ++ 0b000010#6 ++ 0b100#3 ++ 0b00000000001#11) = .ok (.ldBu 1 2 1) := rfl
theorem test_word_st_d : decode (0b010101#6 ++ 0b000001#6 ++ 0b000010#6 ++ 0b011#3 ++ 0b11111111111#11) = .ok (.stD 1 2 0x7FF) := rfl
theorem test_word_pref : decode (0b010111#6 ++ 0b000000#6 ++ 0b001010#6 ++ 0b000000#6 ++ 0b00#2 ++ 0b001100#6) = .ok (.pref 10) := rfl
theorem test_word_setvl : decode (0b011000#6 ++ 0b000001#6 ++ 0b000010#6 ++ 0b00#2 ++ 0b000000000000#12) = .ok (.setvl 1 2) := rfl
theorem test_word_mtsr_fmt3 : decode (0b011000#6 ++ 0b000000#6 ++ 0b000111#6 ++ 0b11#2 ++ 0b000000001011#12) = .ok (.mtsrFmt 7 3) := rfl
theorem test_word_mtsr_ptroot : decode (0b011000#6 ++ 0b000000#6 ++ 0b000111#6 ++ 0b11#2 ++ 0b000100000001#12) = .ok (.mtsrPtroot 7) := rfl
theorem test_word_mfsr_msat : decode (0b011000#6 ++ 0b000111#6 ++ 0b000000#6 ++ 0b10#2 ++ 0b000000010101#12) = .ok (.mfsrMsat 7) := rfl
theorem test_word_vrem_vx : decode (0b011011#6 ++ 0b000001#6 ++ 0b000010#6 ++ 0b000011#6 ++ 0b10#2 ++ 0b100001#6) = .ok (.vremVx 1 2 3 true) := rfl
theorem test_word_vmax : decode (0b011100#6 ++ 0b000001#6 ++ 0b000010#6 ++ 0b000011#6 ++ 0b01#2 ++ 0b000001#6) = .ok (.vmax 1 2 3 false true) := rfl
theorem test_word_vxor : decode (0b011101#6 ++ 0b000001#6 ++ 0b000010#6 ++ 0b000011#6 ++ 0b00#2 ++ 0b000010#6) = .ok (.vxor 1 2 3 false false) := rfl
theorem test_word_vsra_vx : decode (0b011110#6 ++ 0b000001#6 ++ 0b000010#6 ++ 0b000011#6 ++ 0b00#2 ++ 0b100010#6) = .ok (.vsraVx 1 2 3 false) := rfl
theorem test_word_vrng : decode (0b011111#6 ++ 0b000001#6 ++ 0b000010#6 ++ 0b000000#6 ++ 0b00#2 ++ 0b000000#6) = .ok (.vrng 1 2) := rfl
theorem test_word_vfrec : decode (0b100010#6 ++ 0b000001#6 ++ 0b000010#6 ++ 0b000000#6 ++ 0b10#2 ++ 0b000010#6) = .ok (.vfrec 1 2 true) := rfl
theorem test_word_vfneg : decode (0b100011#6 ++ 0b000001#6 ++ 0b000010#6 ++ 0b000000#6 ++ 0b00#2 ++ 0b000011#6) = .ok (.vfneg 1 2 false) := rfl
theorem test_word_vfexp2 : decode (0b100100#6 ++ 0b000001#6 ++ 0b000010#6 ++ 0b000000#6 ++ 0b00#2 ++ 0b000001#6) = .ok (.vfexp2 1 2 false) := rfl
theorem test_word_vfclass : decode (0b100101#6 ++ 0b000001#6 ++ 0b000010#6 ++ 0b000000#6 ++ 0b00#2 ++ 0b000000#6) = .ok (.vfclass 1 2 false) := rfl
theorem test_word_pwhile : decode (0b100110#6 ++ 0b000001#6 ++ 0b000010#6 ++ 0b000011#6 ++ 0b00#2 ++ 0b010101#6) = .ok (.pwhile 1 2 3) := rfl
theorem test_word_vbsmax : decode (0b100111#6 ++ 0b000001#6 ++ 0b000010#6 ++ 0b000000#6 ++ 0b00#2 ++ 0b000100#6) = .ok (.vbsmax 1 2 false) := rfl
theorem test_word_vredmax : decode (0b101000#6 ++ 0b000001#6 ++ 0b000010#6 ++ 0b000011#6 ++ 0b10#2 ++ 0b000011#6) = .ok (.vredmax 1 2 3 true) := rfl
theorem test_word_vgath : decode (0b101001#6 ++ 0b000001#6 ++ 0b000010#6 ++ 0b000011#6 ++ 0b11#2 ++ 0b000010#6) = .ok (.vgath 1 2 3 true true) := rfl
theorem test_word_vins : decode (0b101001#6 ++ 0b000001#6 ++ 0b000010#6 ++ 0b000011#6 ++ 0b00#2 ++ 0b000111#6) = .ok (.vins 1 2 3) := rfl
theorem test_word_vpref : decode (0b101101#6 ++ 0b000000#6 ++ 0b000010#6 ++ 0b000000#6 ++ 0b00#2 ++ 0b000001#6) = .ok (.vpref 2) := rfl
theorem test_word_finter_max : decode (0b101111#6 ++ 0b000001#6 ++ 0b000010#6 ++ 0b000011#6 ++ 0b00#2 ++ 0b011000#6) = .ok (.finter 1 2 3 3) := rfl
theorem test_word_fscat : decode (0b110000#6 ++ 0b000001#6 ++ 0b000010#6 ++ 0b000000#6 ++ 0b00#2 ++ 0b000011#6) = .ok (.fscat 1 2) := rfl
theorem test_word_fcopy : decode (0b110001#6 ++ 0b000001#6 ++ 0b000010#6 ++ 0b000000#6 ++ 0b00#2 ++ 0b000010#6) = .ok (.fcopy 1 2) := rfl
theorem test_word_mop_sv : decode (0b110011#6 ++ 0b0101#4 ++ 0b01#2 ++ 0b000010#6 ++ 0b000011#6 ++ 0b01#2 ++ 0b000010#6) = .ok (.mopSv 5 1 2 3 true) := rfl
theorem test_word_mlda_mem : decode (0b110100#6 ++ 0b000#3 ++ 0b1#1 ++ 0b01#2 ++ 0b000010#6 ++ 0b000011#6 ++ 0b00#2 ++ 0b000000#6) = .ok (.mldaS 1 2 3) := rfl
theorem test_word_barinit : decode (0b110111#6 ++ 0b000000#6 ++ 0b000010#6 ++ 0b000011#6 ++ 0b00#2 ++ 0b000011#6) = .ok (.barinit 2 3) := rfl
theorem test_word_fcvt : decode (0b111100#6 ++ 0b000001#6 ++ 0b000010#6 ++ 0b001011#6 ++ 0b00#2 ++ 0b000101#6) = .ok (.fcvt 1 2 11) := rfl
theorem test_word_fsqrt : decode (0b111100#6 ++ 0b000001#6 ++ 0b000010#6 ++ 0b000000#6 ++ 0b00#2 ++ 0b000100#6) = .ok (.fsqrt 1 2) := rfl
theorem test_refused_all_zero : decode (0b00000000000000000000000000000000#32) = .error .allZero := rfl
theorem test_refused_major_3d : decode (0b111101#6 ++ 0b00000000000000000000000000#26) = .error .reservedMajor := rfl
theorem test_refused_major_3e : decode (0b111110#6 ++ 0b00000000000000000000000001#26) = .error .reservedMajor := rfl
theorem test_refused_major_3f : decode (0b111111#6 ++ 0b00000000000000000000000000#26) = .error .permanentlyIllegal := rfl
theorem test_refused_add_minor : decode (0b000010#6 ++ 0b000001#6 ++ 0b000010#6 ++ 0b000011#6 ++ 0b00#2 ++ 0b010101#6) = .error .absentMinor := rfl
theorem test_refused_system_minor_zero : decode (0b000000#6 ++ 0b000001#6 ++ 0b000000#6 ++ 0b000000#6 ++ 0b00#2 ++ 0b000000#6) = .error .absentMinor := rfl
theorem test_refused_add_chain_bit : decode (0b000010#6 ++ 0b000001#6 ++ 0b000010#6 ++ 0b000011#6 ++ 0b10#2 ++ 0b000000#6) = .error .reservedField := rfl
theorem test_refused_vx_scalar_chain_bit : decode (0b011010#6 ++ 0b000001#6 ++ 0b000010#6 ++ 0b000011#6 ++ 0b01#2 ++ 0b100000#6) = .error .reservedField := rfl
theorem test_refused_slli_reserved : decode (0b000111#6 ++ 0b000001#6 ++ 0b000010#6 ++ 0b00#2 ++ 0b000001#6 ++ 0b000000#6) = .error .reservedField := rfl
theorem test_refused_loop_flags : decode (0b010010#6 ++ 0b001011#6 ++ 0b000000001000#12 ++ 0b00000010#8) = .error .reservedField := rfl
theorem test_refused_ld_kind_7 : decode (0b010100#6 ++ 0b000001#6 ++ 0b000010#6 ++ 0b111#3 ++ 0b00000000000#11) = .error .absentMinor := rfl
theorem test_refused_st_kind_4 : decode (0b010101#6 ++ 0b000001#6 ++ 0b000010#6 ++ 0b100#3 ++ 0b00000000000#11) = .error .absentMinor := rfl
theorem test_refused_combine_6 : decode (0b101111#6 ++ 0b000001#6 ++ 0b000010#6 ++ 0b000011#6 ++ 0b00#2 ++ 0b110000#6) = .error .absentMinor := rfl
theorem test_refused_mlda_tile_4 : decode (0b110100#6 ++ 0b001#3 ++ 0b0#1 ++ 0b00#2 ++ 0b000010#6 ++ 0b000011#6 ++ 0b00#2 ++ 0b000000#6) = .error .reservedField := rfl
theorem test_refused_mzero_predicate : decode (0b110011#6 ++ 0b0001#4 ++ 0b01#2 ++ 0b000000#6 ++ 0b000000#6 ++ 0b00#2 ++ 0b000000#6) = .error .reservedField := rfl
theorem test_refused_vfsqrt_vx : decode (0b100010#6 ++ 0b000001#6 ++ 0b000010#6 ++ 0b000000#6 ++ 0b00#2 ++ 0b100001#6) = .error .absentMinor := rfl

/-! ## States and operands for the statements -/

/-- A device whose next turn is its thread's. -/
def stepDev : State := { dev th with turns := [{ mover := .thread 0, cycles := 1, defer := false, cut := none, falseHits := [], refused := [] }] }

/-- A device whose next turn is an event's. -/
def eventDev : State :=
  { State.reset with turns := [{ mover := .event (.logWrapClear 0), cycles := 1, falseHits := [], refused := [], defer := false, cut := none }] }

/-- A thread that is a member of its launch's stand 0. -/
def tStand : Thread := th id fun t => { t with st := [0] }
def tStand2 : Thread := { tStand with arrivedIn := some (0, 0, 0x40000) }

/-- A launch with a stand of n members at a phase. -/
def standDev (n phase : Nat) (t : Thread := tStand) : State :=
  { dev t with launches := [(0, { loadLaunch with stands := [{ members := List.range n, live := n, arrived := 0, phase, bits := [] }] })] }

def tCpym : Thread := th (xs [(2, 0x40100), (3, 4)]) fun t => { t with st := [0] }

def cpymDev (l : Memory) : State :=
  { dev tCpym l with
    launches := [(0, { loadLaunch with stands := [{ members := [0, 1], live := 2, arrived := 0, phase := 0, bits := [] }] })] }

/-- A thread whose next instruction is a vector strip. -/
def tStrip : Thread := th (fun c => { c with mode := 0x40002, vl := 4 }) fun t => { t with deficit := 100, stripSince := some 0 }

def hostDev : State := State.reset

/-- Four 32-bit integers at an address, as a layout and as a plat. -/
def words4 (base : Word) : Layout := { base, width := 32, steps := [], ext := [4], zfill := false }
def plat4 (naxes : Nat) (base : Word) : Plat :=
  { etype := 2, width := 32, rank := 1, ovl := false, zfill := false, naxes, m := if naxes = 0 then [0, 0, 0, 0] else [1, 0, 0, 0],
    shard := [0, 0, 0, 0, 0, 0], ext := [4, 0, 0, 0, 0, 0], blk := [0, 0, 0, 0, 0, 0], pitch := 0, stride := [0, 0, 0, 0], base }

/-- What the two plats derive: one post of the four words. -/
def aDerived : Derived :=
  { src := plat4 0 0x41000, dst := plat4 0 0x42000, srcTable := [], dstTable := [], srank := some 0, drank := some 0,
    out := [{ cell := [(0, 4)], rank := 0, index := 0 }], inc := [[(0, 4)]] }

/-- A copy of them that has started, with a barrier. -/
def aCopy : Copy :=
  { id := 9, tid := 0, core := 0, parcel := 0, priv := false, cast := false, stand := 0, src := words4 0x41000, dst := words4 0x42000,
    ssp := false, dsp := false, scrd := [0], dcrd := [0], ext := [4], tag := 0, bar := some 0x40100, emask := 0, slots := 4, own := true,
    forked := true, started := true, members := [], failed := [], held := [], done := [], masked := [], credited := 0, fault := none }

def copyDev (c : Copy) : State := { dev th with copies := [c] }

/-- A traverse of one post from a plat to another, and its post once it has started. -/
def aTraverse (naxes : Nat) (rrec : Word) : Traverse :=
  { tid := 0, tag := 0, core := 0, priv := false, cursor := 0x40300, cursorLoc := 0x40300, src := plat4 naxes 0x41000,
    dst := plat4 naxes 0x42000, srcTable := [{ dev := 0, rrec := 0, addr := 0x41000 }], dstTable := [{ dev := 0, rrec, addr := 0x42000 }],
    srank := some 0, drank := some 0, nout := 1, nin := 1, next := 0, done := 0, inflight := [], stop := none }
def aPost (done : Marks) : Post := { j := 0, held := [], done, crediting := false, failed := false }

def posting (naxes : Nat) (rrec : Word) : Traverse := { aTraverse naxes rrec with inflight := [aPost [0, 2, 4, 6]] }

/-- A device with a traverse, and a page of device 1 at 0x50000. -/
def postDev (v : Traverse) : State :=
  { dev th [(0x30028, 0xED), (0x30029, 0x1), (0x3002C, 0x80), (0x3002E, 0x8)] with traverses := [(0, v)] }

def aDrain (base n : Nat) : Drain :=
  { id := 4, tid := 0, parcel := 0, crew := 0, base, pitch := 1024, tag := 3, rows := List.replicate n (7, false), done := [] }
def drainDev (d : Drain) : State := { dev th with drains := [d] }

/-- A fetch-and-add to a device on its way. -/
def anAdd (id dev : Nat) : FabricReq :=
  { id, parcel := 0, die := 0, dev, off := 0x100, header := 0, sent := true, lead := 0x100, waiting := true, first := (0, id), last := (0, id), op := .amo .add true 1 0, va := 0x50100, reply := .ack id false, port := 0,
    batch := none, parts := [], folded := false, issued := 0, stage := 0, answer := none }
def reqDev (l : List FabricReq) : State := { dev th with fabric := l, nextId := 100 }

def tStream : Thread :=
  th fun c => { c with streams := [(56, { id := 3, base := 0x40200, count := [4, 1, 1, 1], stride := [4, 0, 0, 0], type := 2, width := 32, pos := 0, priv := false })] }

/-- A device with no thread, at a cycle and a time. -/
def late (cycle time : Nat) : State := { State.reset with cycle, time }

/-- The conversions of a reduction of 32-bit signed integers, without saturation. -/
def redConv : Conv := { t := 2, u := 2, w := 32, wd := 32, rnd := 0, sat := false, fmt := fmtReset, key := 0 }

theorem sound_fp32 : fp32.Sound := ⟨by decide, by decide, by decide, by decide, by decide⟩
theorem sound_fp16 : fp16.Sound := ⟨by decide, by decide, by decide, by decide, by decide⟩

/-- A request of the host's (R390) at hub 0: its code, its length and its parcel. -/
def req (code len parcel : Nat) : ReqHead :=
  { h0 := true, h1 := false, word := BitVec.ofNat 64 (code + 7 * 2 ^ 24 + parcel * 2 ^ 32 + len * 2 ^ 48) }

/-- The header of a tenant of device 1 (R325), of parcel 0 and key 0. -/
def tenant : BitVec 160 := tenantHeader 0 0 1

/-- A device with a page at 0x50000: of device memory, of the registers, and of device 1. -/
def devPage (t : Thread) (l : Memory := []) : State := dev t ([(0x30028, 0xAD), (0x30029, 0x1), (0x3002A, 0x4)] ++ l)
def regPage (t : Thread) : State := dev t [(0x30028, 0xAD), (0x30029, 0x1), (0x3002D, 0x1)]
def farPage (t : Thread) : State := dev t [(0x30028, 0xED), (0x30029, 0x1), (0x3002C, 0x80), (0x3002E, 0x8)]

/-- A device with an MGD page at 0x50000 of a region of die 1, whose home is die 0. -/
def mgdPage (t : Thread) : State :=
  { dev t [(0x30028, 0x6D), (0x30029, 0x1), (0x3002A, 0x4)] with
    regions := State.reset.regions.set 1 [{ tid := 0, parcel := 0, num := 0, first := 0xA00, last := 0xA0F }], defer := true }

/-- A device whose core has seen contention on the line of its page's first byte. -/
def hot (t : Thread) (c : Chunk → Chunk := id) : State :=
  { dev { t with chunk := t.chunk.map c } with cores := State.reset.cores.set 0 { CoreSt.reset with predictor := [(0x800, 2)] } }

theorem one_real : (Val.fin false 1 0).real = 1 := by simp [Val.real]

theorem one_fin : ∀ v ∈ [Val.fin false 1 0], ∃ s m e, v = .fin s m e := by
  intro v hv
  rw [List.mem_singleton] at hv
  exact ⟨_, _, _, hv⟩

theorem one_low : ∃ v ∈ [Val.fin false 1 0], (2 : ℝ) ^ (0 : Int) ≤ |v.real| := ⟨_, .head _, by rw [one_real]; simp⟩

theorem one_high : ∀ v ∈ [Val.fin false 1 0], |v.real| < (2 : ℝ) ^ ((0 : Int) + 1) := by
  intro v hv
  rw [List.mem_singleton] at hv
  rw [hv, one_real]
  norm_num

theorem one_whole : (false = true) ↔ ∃ v ∈ [Val.fin false 1 0], windowCut 0 v.real ≠ v.real := by
  refine ⟨fun h => (Bool.false_ne_true h).elim, ?_⟩
  rintro ⟨v, hv, hne⟩
  rw [List.mem_singleton] at hv
  refine absurd ?_ hne
  have h1 : (2 : ℝ) ^ ((0 : Int) - 55) = (((2 ^ 55 : ℕ) : ℝ))⁻¹ := by norm_num
  have h2 : ⌊|(1 : ℝ)| / (((2 ^ 55 : ℕ) : ℝ))⁻¹⌋₊ = 2 ^ 55 := by
    rw [abs_one, one_div, inv_inv, Nat.floor_natCast]
  rw [hv, one_real, windowCut, Real.sign_of_pos one_pos, h1, h2]
  norm_num

/-! ## States and operands that meet the hypotheses of every statement -/

theorem meets_NewThread_newThread :
    ∃ (n : Nat) (l : Launch) (i now o : Nat),
      i < 2 ^ 24 :=
  ⟨0, loadLaunch, 0, 0, 0, by decide +kernel⟩

theorem meets_EncodeDecode_roundtrip :
    ∃ (i : Instr),
      i.wf = true ∧ i.isEvent = false :=
  ⟨Instr.add 1 2 3, by decide +kernel, by decide +kernel⟩

theorem meets_StepRuns_thread :
    ∃ (s u : State) (t : Thread) (w : BitVec 32) (a : Access) (hit : Bool) (l : Nat),
      s.nextTurn = (some (.thread t.tid), u) ∧ Ready { u with actor := .thread t.tid } t ∧
      (t.pending = none ∨ t.chunk.isSome = true) ∧ t.needsTicket = false ∧ t.ctx.pc.toNat % 4 = 0 ∧
      u.translate t.coreNum t.parcel t.ctx.priv Need.fetch t.ctx.pc.toNat = .ok (a, hit) ∧
      (a.window = .host → u.fyzWidth ≠ 0) ∧ u.placeOf t.core (crewOf t.coreNum) t.parcel a = .ok (.loc l) ∧
      u.poisonTrap t.ctx.pc.toNat l 4 = none ∧ (natOfBytes ((List.range 4).map fun k => u.byteAt (l + k)) = w.toNat) :=
  ⟨stepDev, _, th, 0, _, _, _, turn_of (by decide +kernel), ready_of rfl (by decide +kernel), by decide +kernel,
    by decide +kernel, (by decide +kernel), ok_of (by decide +kernel), by decide +kernel, ok_of (by decide +kernel),
    by decide +kernel, by decide +kernel⟩

theorem meets_StepRuns_event :
    ∃ (s u : State) (i : Instr),
      s.nextTurn = (some (.event i), u) :=
  ⟨eventDev, _, .logWrapClear 0, turn_of (by decide +kernel)⟩

theorem meets_StepRuns_serve :
    ∃ (s u : State) (hub : Nat),
      s.nextTurn = (some (.endpoint hub), u) :=
  ⟨{ State.reset with turns := [{ mover := .endpoint 0, cycles := 1, falseHits := [], defer := false, cut := none, refused := [] }] },
    _, 0, turn_of (by decide +kernel)⟩

theorem meets_TrapEntry_ctx :
    ∃ (c : Ctx) (tv : Word) (f : Trap) (pc : Word) (vp async more : Bool),
      f.code < 256 ∧ f.sub < 16 :=
  ⟨(newThread 0 loadLaunch 0 0 0).ctx, 0, { code := 1, sub := 0, val := 0 }, 0, false, false, false,
    by decide +kernel, by decide +kernel⟩

theorem meets_TrapEntry_dev :
    ∃ (s : State) (t : Thread) (f : Trap) (pc : Word) (vp async more : Bool),
      ¬ (t.ctx.priv = true ∧ pc = (s.parcel t.parcel).trapvec &&& ~~~3) :=
  ⟨State.reset, newThread 0 loadLaunch 0 0 0, { code := 1, sub := 0, val := 0 }, 0, false, false, false,
    by decide +kernel⟩

theorem meets_TrapEntry_takeTrap_truncates :
    ∃ (r : Running) (k : Chunk) (f : Trap),
      r.t.chunk = some k ∧ k.explicit = false ∧ Spare k ∧ r.vp = none ∧ r.t.deferred = [] ∧ r.t.pending = none ∧
      (∀ c ∈ r.s.copies, c.tid = r.t.tid → c.forked = true) ∧ r.s.held (some r.t.tid) k.writes = false :=
  ⟨Running.of (dev th) { th with chunk := some (opened (dev th) th) }, _, { code := 1, sub := 0, val := 0 },
    some_of (by decide +kernel), by decide +kernel,
    ⟨by decide +kernel, by decide +kernel, (by decide +kernel), by decide +kernel, by decide +kernel, (by decide +kernel)⟩,
    by decide +kernel, by decide +kernel, (by decide +kernel), by decide +kernel, by decide +kernel⟩

theorem meets_TrapEntry_takeTrap_squashes :
    ∃ (r : Running) (k : Chunk) (f : Trap),
      r.t.chunk = some k ∧ k.explicit = true ∧ r.t.pending = none :=
  ⟨Running.of (dev th) { th with chunk := some { opened (dev th) th with explicit := true } }, _,
    { code := 1, sub := 0, val := 0 }, some_of (by decide +kernel), by decide +kernel, by decide +kernel⟩

theorem meets_SystemCall_ecall_done :
    ∃ (s : State) (t : Thread),
      Idle s t :=
  ⟨dev th, th, ⟨ready_of rfl (by decide +kernel), calm_of (by decide +kernel), rfl, rfl, by decide +kernel⟩⟩

theorem meets_SystemCall_eret_done :
    ∃ (s : State) (t : Thread),
      Idle s t ∧ t.ctx.priv = true :=
  ⟨dev (th (fun c => { c with priv := true })), th (fun c => { c with priv := true }),
    ⟨ready_of rfl (by decide +kernel), calm_of (by decide +kernel), rfl, rfl, by decide +kernel⟩, by decide +kernel⟩

theorem meets_IllegalTraps_illegal_trap :
    ∃ (s : State) (t : Thread) (w : BitVec 32),
      Ready s t :=
  ⟨dev th, th, 0, ready_of rfl (by decide +kernel)⟩

theorem meets_IllegalTraps_idle :
    ∃ (s : State) (t : Thread) (f : Trap),
      Idle s t :=
  ⟨dev th, th, { code := 1, sub := 0, val := 0 },
    ⟨ready_of rfl (by decide +kernel), calm_of (by decide +kernel), rfl, rfl, by decide +kernel⟩⟩

theorem meets_IllegalTraps_poison :
    ∃ (s : State) (t : Thread) (d a b : BitVec 6) (i : BitVec 14) (k : BitVec 12) (o : BitVec 11) (e : Instr),
      Ready s t ∧ t.deferred = [] ∧ t.failedRegs = [] ∧ (∀ p, (Running.of s t).awaits p = false) ∧ a ≠ 0 ∧
      t.poison.contains { file := 0, reg := a.toNat, index := 0 } = true ∧
      e ∈ [.add d a b, .sub d a b, .and d a b, .or d a b, .xor d a b, .sll d a b, .srl d a b, .sra d a b, .slt d a b, .sltu d a b, .mul d a b, .mulh d a b,
      .mulhu d a b, .div d a b, .divu d a b, .rem d a b, .remu d a b, .min d a b, .max d a b, .minu d a b, .maxu d a b, .addi d a i, .andi d a i, .ori d a i,
      .xori d a i, .slli d a b, .srli d a b, .srai d a b, .beq a b i, .bne a b i, .blt a b i, .bge a b i, .bltu a b i, .bgeu a b i, .jalr d a i, .setvl d a,
      .loop a k, .loopr a k, .ldB d a o, .ldH d a o, .ldW d a o, .ldD d a o, .ldBu d a o, .ldHu d a o, .ldWu d a o, .stB d a o, .stH d a o, .stW d a o,
      .stD d a o] :=
  ⟨dev (th id fun t => { t with poison := [{ file := 0, reg := 2, index := 0 }] }),
    th id fun t => { t with poison := [{ file := 0, reg := 2, index := 0 }] }, 1, 2, 3, 0, 0, 0, _,
    ready_of rfl (by decide +kernel), by decide +kernel, by decide +kernel, awaits_of (by decide +kernel),
    by decide +kernel, by decide +kernel, .head _⟩

theorem meets_IllegalTraps_poison2 :
    ∃ (s : State) (t : Thread) (d a b : BitVec 6) (i : BitVec 14) (o : BitVec 11) (e : Instr),
      Ready s t ∧ t.deferred = [] ∧ t.failedRegs = [] ∧ (∀ p, (Running.of s t).awaits p = false) ∧
      (a = 0 ∨ t.poison.contains { file := 0, reg := a.toNat, index := 0 } = false) ∧ b ≠ 0 ∧
      t.poison.contains { file := 0, reg := b.toNat, index := 0 } = true ∧
      e ∈ [.add d a b, .sub d a b, .and d a b, .or d a b, .xor d a b, .sll d a b, .srl d a b, .sra d a b, .slt d a b, .sltu d a b, .mul d a b, .mulh d a b,
      .mulhu d a b, .div d a b, .divu d a b, .rem d a b, .remu d a b, .min d a b, .max d a b, .minu d a b, .maxu d a b, .beq a b i, .bne a b i, .blt a b i,
      .bge a b i, .bltu a b i, .bgeu a b i, .stB b a o, .stH b a o, .stW b a o, .stD b a o] :=
  ⟨dev (th id fun t => { t with poison := [{ file := 0, reg := 2, index := 0 }] }),
    th id fun t => { t with poison := [{ file := 0, reg := 2, index := 0 }] }, 1, 3, 2, 0, 0, _,
    ready_of rfl (by decide +kernel), by decide +kernel, by decide +kernel, awaits_of (by decide +kernel),
    by decide +kernel, by decide +kernel, (by decide +kernel), .head _⟩

theorem meets_IllegalTraps_read :
    ∃ (r : Running) (a : BitVec 6),
      r.t.deferred = [] ∧ r.t.failedRegs = [] ∧ (∀ p, r.awaits p = false) :=
  ⟨Running.of (dev th) th, 1, by decide +kernel, by decide +kernel, awaits_of (by decide +kernel)⟩

theorem meets_ScalarArithmetic_rr :
    ∃ (s : State) (t : Thread) (d a b : BitVec 6) (e : (BitVec 6 → BitVec 6 → BitVec 6 → Instr) × (Word → Word → Word)),
      Quiet s t ∧
      (e ∈ [
      (Instr.add, fun x y => word (x.toInt + y.toInt)), (Instr.sub, fun x y => word (x.toInt - y.toInt)),
      (Instr.and, fun x y => x &&& y), (Instr.or, fun x y => x ||| y), (Instr.xor, fun x y => x ^^^ y),
      (Instr.sll, fun x y => BitVec.ofNat 64 (x.toNat * 2 ^ (y.toNat % 64))), (Instr.srl, fun x y => BitVec.ofNat 64 (x.toNat / 2 ^ (y.toNat % 64))),
      (Instr.sra, fun x y => word (x.toInt / 2 ^ (y.toNat % 64))), (Instr.slt, fun x y => if x.toInt < y.toInt then 1 else 0),
      (Instr.sltu, fun x y => if x.toNat < y.toNat then 1 else 0), (Instr.mul, fun x y => word (x.toInt * y.toInt)),
      (Instr.mulh, fun x y => word (x.toInt * y.toInt / 2 ^ 64)), (Instr.mulhu, fun x y => BitVec.ofNat 64 (x.toNat * y.toNat / 2 ^ 64)),
      (Instr.min, fun x y => word (min x.toInt y.toInt)), (Instr.max, fun x y => word (max x.toInt y.toInt)),
      (Instr.minu, fun x y => BitVec.ofNat 64 (min x.toNat y.toNat)), (Instr.maxu, fun x y => BitVec.ofNat 64 (max x.toNat y.toNat))]) :=
  ⟨dev th, th, 1, 2, 3, _, ⟨ready_of rfl (by decide +kernel), calm_of (by decide +kernel), by decide +kernel⟩,
    .head _⟩

theorem meets_Division_div :
    ∃ (s : State) (t : Thread) (d a b : BitVec 6) (x y : Word),
      Quiet s t ∧ x = t.ctx.xAt a ∧ y = t.ctx.xAt b :=
  ⟨dev th, th, 1, 2, 3, _, _, ⟨ready_of rfl (by decide +kernel), calm_of (by decide +kernel), by decide +kernel⟩,
    rfl, rfl⟩

theorem meets_ScalarImmediates_ri :
    ∃ (s : State) (t : Thread) (d a : BitVec 6) (i : BitVec 14) (e : (BitVec 6 → BitVec 6 → BitVec 14 → Instr) × (Word → Word → Word)),
      Quiet s t ∧
      (e ∈ [
      (Instr.addi, fun x y => word (x.toInt + y.toInt)), (Instr.andi, fun x y => x &&& y), (Instr.ori, fun x y => x ||| y),
      (Instr.xori, fun x y => x ^^^ y)]) :=
  ⟨dev th, th, 1, 2, 0, _, ⟨ready_of rfl (by decide +kernel), calm_of (by decide +kernel), by decide +kernel⟩,
    .head _⟩

theorem meets_ScalarImmediates_sh :
    ∃ (s : State) (t : Thread) (d a n : BitVec 6),
      Quiet s t :=
  ⟨dev th, th, 1, 2, 3, ⟨ready_of rfl (by decide +kernel), calm_of (by decide +kernel), by decide +kernel⟩⟩

theorem meets_LihPcrel_lih :
    ∃ (s : State) (t : Thread) (d : BitVec 6) (i : BitVec 20),
      Quiet s t :=
  ⟨dev th, th, 1, 0, ⟨ready_of rfl (by decide +kernel), calm_of (by decide +kernel), by decide +kernel⟩⟩

theorem meets_RegisterFrame_frame :
    ∃ (s : State) (t : Thread) (d a b : BitVec 6) (i : BitVec 14) (j : BitVec 20) (e : Instr),
      Quiet s t ∧
      e ∈ [.add d a b, .sub d a b, .and d a b, .or d a b, .xor d a b, .sll d a b,
      .srl d a b, .sra d a b, .slt d a b, .sltu d a b, .mul d a b, .mulh d a b, .mulhu d a b, .div d a b, .divu d a b, .rem d a b, .remu d a b,
      .min d a b, .max d a b, .minu d a b, .maxu d a b, .addi d a i, .andi d a i, .ori d a i, .xori d a i, .slli d a b, .srli d a b, .srai d a b,
      .lih d j, .pcrel d j] :=
  ⟨dev th, th, 1, 2, 3, 0, 0, _, ⟨ready_of rfl (by decide +kernel), calm_of (by decide +kernel), by decide +kernel⟩,
    .head _⟩

theorem meets_Branches_taken :
    ∃ (s : State) (t : Thread) (a b : BitVec 6) (o : BitVec 14) (e : (BitVec 6 → BitVec 6 → BitVec 14 → Instr) × (Word → Word → Prop)),
      Quiet s t ∧
      (e ∈ [
      (Instr.beq, fun x y => x = y), (Instr.bne, fun x y => x ≠ y), (Instr.blt, fun x y => x.toInt < y.toInt), (Instr.bge, fun x y => y.toInt ≤ x.toInt), (Instr.bltu, fun x y => x.toNat < y.toNat), (Instr.bgeu, fun x y => y.toNat ≤ x.toNat)]) :=
  ⟨dev th, th, 1, 2, 0, _, ⟨ready_of rfl (by decide +kernel), calm_of (by decide +kernel), by decide +kernel⟩,
    .head _⟩

theorem meets_Jumps_jal_done :
    ∃ (s : State) (t : Thread) (d : BitVec 6) (o : BitVec 20),
      Quiet s t :=
  ⟨dev th, th, 1, 0, ⟨ready_of rfl (by decide +kernel), calm_of (by decide +kernel), by decide +kernel⟩⟩

theorem meets_Jumps_jalr_done :
    ∃ (s : State) (t : Thread) (d a : BitVec 6) (i : BitVec 14),
      Quiet s t ∧ (t.ctx.xAt a + i.signExtend 64) &&& 3 = 0 :=
  ⟨dev th, th, 1, 0, 8, ⟨ready_of rfl (by decide +kernel), calm_of (by decide +kernel), by decide +kernel⟩,
    by decide +kernel⟩

theorem meets_Jumps_jalr_trap :
    ∃ (s : State) (t : Thread) (d a : BitVec 6) (i : BitVec 14),
      Quiet s t ∧ (t.ctx.xAt a + i.signExtend 64) &&& 3 ≠ 0 :=
  ⟨dev th, th, 1, 0, 2, ⟨ready_of rfl (by decide +kernel), calm_of (by decide +kernel), by decide +kernel⟩,
    by decide +kernel⟩

theorem meets_Jumps_last :
    ∃ (call : Bool) (a target : Word) (e : LoopEntry) (rest : List LoopEntry),
      e.last = a :=
  ⟨false, 8, 0x50000, { start := 0x40000, last := 8, left := 2, rotating := false, n := 3, e := 0, done := 0 },
    [{ start := 0x40000, last := 8, left := 2, rotating := false, n := 3, e := 0, done := 0 }], by decide +kernel⟩

theorem meets_Jumps_call :
    ∃ (a target : Word) (l : List LoopEntry),
      (∀ e ∈ l.head?, e.last ≠ a) :=
  ⟨4, 0x50000, [{ start := 0x40000, last := 8, left := 2, rotating := false, n := 3, e := 0, done := 0 }],
    by decide +kernel⟩

theorem meets_Jumps_left :
    ∃ (a target : Word) (l : List LoopEntry) (leaves : LoopEntry → Prop),
      (∀ e ∈ l.head?, e.last ≠ a) ∧
      (leaves = fun e => (e.start ≤ a ∧ a ≤ e.last) ∧ ¬ (e.start ≤ target ∧ target ≤ e.last)) :=
  ⟨4, 0x50000, [{ start := 0x40000, last := 8, left := 2, rotating := false, n := 3, e := 0, done := 0 }], _,
    by decide +kernel, rfl⟩

theorem meets_Loops_loop_skip :
    ∃ (s : State) (t : Thread) (k : BitVec 6) (len : BitVec 12),
      Quiet s t ∧ t.ctx.xAt k = 0 :=
  ⟨dev th, th, 1, 0, ⟨ready_of rfl (by decide +kernel), calm_of (by decide +kernel), by decide +kernel⟩,
    by decide +kernel⟩

theorem meets_Loops_loop_done :
    ∃ (s : State) (t : Thread) (k : BitVec 6) (len : BitVec 12),
      Quiet s t ∧ t.ctx.xAt k ≠ 0 ∧
      loopTrap false t.ctx.pc (t.ctx.pc + BitVec.ofNat 64 (4 * len.toNat)) t.ctx.loops = none :=
  ⟨dev (th (xs [(1, 3)])), th (xs [(1, 3)]), 1, 4,
    ⟨ready_of rfl (by decide +kernel), calm_of (by decide +kernel), by decide +kernel⟩, by decide +kernel,
    by decide +kernel⟩

theorem meets_Loops_loopr_skip :
    ∃ (s : State) (t : Thread) (k : BitVec 6) (len : BitVec 12),
      Quiet s t ∧ (t.ctx.xAt k).toNat % 2 ^ 48 + (t.ctx.xAt k).toNat / 2 ^ 48 % 8 = 0 :=
  ⟨dev th, th, 1, 0, ⟨ready_of rfl (by decide +kernel), calm_of (by decide +kernel), by decide +kernel⟩,
    by decide +kernel⟩

theorem meets_Loops_loopr_done :
    ∃ (s : State) (t : Thread) (k : BitVec 6) (len : BitVec 12) (n e : Nat),
      Quiet s t ∧ n = (t.ctx.xAt k).toNat % 2 ^ 48 ∧ e = (t.ctx.xAt k).toNat / 2 ^ 48 % 8 ∧ n + e ≠ 0 ∧
      loopTrap true t.ctx.pc (t.ctx.pc + BitVec.ofNat 64 (4 * len.toNat)) t.ctx.loops = none :=
  ⟨dev (th (xs [(1, 3)])), th (xs [(1, 3)]), 1, 4, 3, 0,
    ⟨ready_of rfl (by decide +kernel), calm_of (by decide +kernel), by decide +kernel⟩, by decide +kernel,
    by decide +kernel, (by decide +kernel), by decide +kernel⟩

theorem meets_LoopTraps_loop :
    ∃ (s : State) (t : Thread) (k : BitVec 6) (len : BitVec 12) (v : Nat),
      Quiet s t ∧ t.ctx.xAt k ≠ 0 ∧
      loopTrap false t.ctx.pc (t.ctx.pc + BitVec.ofNat 64 (4 * len.toNat)) t.ctx.loops = some v :=
  ⟨dev (th fun c => { xs [(1, 3)] c with loops := List.replicate 4 { start := 0x40000, last := 0x40020, left := 3, rotating := false, n := 3, e := 0, done := 0 } }),
    th fun c => { xs [(1, 3)] c with loops := List.replicate 4 { start := 0x40000, last := 0x40020, left := 3, rotating := false, n := 3, e := 0, done := 0 } },
    1, 4, 4, ⟨ready_of rfl (by decide +kernel), calm_of (by decide +kernel), by decide +kernel⟩, by decide +kernel,
    by decide +kernel⟩

theorem meets_LoopTraps_loopr :
    ∃ (s : State) (t : Thread) (k : BitVec 6) (len : BitVec 12) (v : Nat),
      Quiet s t ∧ (t.ctx.xAt k).toNat % 2 ^ 48 + (t.ctx.xAt k).toNat / 2 ^ 48 % 8 ≠ 0 ∧
      loopTrap true t.ctx.pc (t.ctx.pc + BitVec.ofNat 64 (4 * len.toNat)) t.ctx.loops = some v :=
  ⟨dev (th fun c => { xs [(1, 3)] c with loops := List.replicate 4 { start := 0x40000, last := 0x40020, left := 3, rotating := false, n := 3, e := 0, done := 0 } }),
    th fun c => { xs [(1, 3)] c with loops := List.replicate 4 { start := 0x40000, last := 0x40020, left := 3, rotating := false, n := 3, e := 0, done := 0 } },
    1, 4, 4, ⟨ready_of rfl (by decide +kernel), calm_of (by decide +kernel), by decide +kernel⟩, by decide +kernel,
    by decide +kernel⟩

theorem meets_EndTest_other :
    ∃ (a : Word) (c : Ctx) (e : LoopEntry) (rest : List LoopEntry),
      e.last ≠ a :=
  ⟨4, th.ctx, { start := 0x40000, last := 8, left := 2, rotating := false, n := 3, e := 0, done := 0 }, [],
    by decide +kernel⟩

theorem meets_EndTest_back :
    ∃ (a : Word) (c : Ctx) (e : LoopEntry) (rest : List LoopEntry),
      e.last = a ∧ 1 < e.left ∧ e.rotating = false :=
  ⟨8, th.ctx, { start := 0x40000, last := 8, left := 2, rotating := false, n := 3, e := 0, done := 0 }, [],
    by decide +kernel, by decide +kernel, (by decide +kernel)⟩

theorem meets_EndTest_rotate :
    ∃ (a : Word) (c : Ctx) (e : LoopEntry) (rest : List LoopEntry),
      e.last = a ∧ 1 < e.left ∧ e.rotating = true :=
  ⟨8, th.ctx, { start := 0x40000, last := 8, left := 2, rotating := true, n := 3, e := 0, done := 0 }, [],
    by decide +kernel, by decide +kernel, (by decide +kernel)⟩

theorem meets_EndTest_pop :
    ∃ (a : Word) (c : Ctx) (e : LoopEntry) (rest : List LoopEntry),
      e.last = a ∧ e.left ≤ 1 :=
  ⟨8, th.ctx, { start := 0x40000, last := 8, left := 1, rotating := false, n := 3, e := 0, done := 0 }, [],
    by decide +kernel, by decide +kernel⟩

theorem meets_VectorLength_setvl_done :
    ∃ (s : State) (t : Thread) (d a : BitVec 6),
      Quiet s t :=
  ⟨dev th, th, 1, 2, ⟨ready_of rfl (by decide +kernel), calm_of (by decide +kernel), by decide +kernel⟩⟩

theorem meets_VectorLength_setvli_done :
    ∃ (s : State) (t : Thread) (d : BitVec 6) (n : BitVec 12),
      Quiet s t :=
  ⟨dev th, th, 1, 0, ⟨ready_of rfl (by decide +kernel), calm_of (by decide +kernel), by decide +kernel⟩⟩

theorem meets_ReadSystem_table :
    ∃ (s : State) (t : Thread) (d : BitVec 6) (e : BitVec 12 × Word),
      Quiet s t ∧
      e ∈ [
      (0x000#12, BitVec.ofNat 64 t.ctx.vl), (0x001#12, BitVec.ofNat 64 t.vlmax), (0x002#12, t.ctx.mode.setWidth 64), (0x011#12, t.ctx.estart),
      (0x012#12, t.ctx.fprog), (0x014#12, BitVec.ofNat 64 t.mgrant), (0x016#12, 0x0000080002000800), (0x017#12, BitVec.ofNat 64 t.tid),
      (0x018#12, BitVec.ofNat 64 (crewOf t.coreNum)), (0x019#12, BitVec.ofNat 64 t.die), (0x01B#12, t.ctx.rngkey), (0x01C#12, t.standWord 0),
      (0x01D#12, t.standWord 1), (0x01E#12, t.standWord 2), (0x01F#12, t.standWord 3), (0x020#12, 1),
      (0x100#12, BitVec.ofNat 64 t.parcel), (0x103#12, t.ctx.trapcause), (0x104#12, t.ctx.trappc), (0x105#12, t.ctx.trapval),
      (0x108#12, t.ctx.pkidx), (0x109#12, t.ctx.pkeylo), (0x10A#12, t.ctx.pkeyhi)] ∧
      (e.1 < 0x100#12 ∨ t.ctx.priv = true) :=
  ⟨dev (th (fun c => { c with priv := true })), th (fun c => { c with priv := true }), 1, _,
    ⟨ready_of rfl (by decide +kernel), calm_of (by decide +kernel), by decide +kernel⟩, .head _, by decide +kernel⟩

theorem meets_ReadSystem_fmt :
    ∃ (s : State) (t : Thread) (d : BitVec 6) (k : Fin 8),
      Quiet s t :=
  ⟨dev th, th, 1, 7, ⟨ready_of rfl (by decide +kernel), calm_of (by decide +kernel), by decide +kernel⟩⟩

theorem meets_ReadSystem_cycle :
    ∃ (s : State) (t : Thread) (d : BitVec 6),
      Quiet s t :=
  ⟨dev th, th, 1, ⟨ready_of rfl (by decide +kernel), calm_of (by decide +kernel), by decide +kernel⟩⟩

theorem meets_ReadSystem_parcel :
    ∃ (s : State) (t : Thread) (d : BitVec 6),
      Quiet s t ∧ t.ctx.priv = true ∧ (opened s t).parcelWrites = [] :=
  ⟨dev (th (fun c => { c with priv := true })), th (fun c => { c with priv := true }), 1,
    ⟨ready_of rfl (by decide +kernel), calm_of (by decide +kernel), by decide +kernel⟩, by decide +kernel,
    by decide +kernel⟩

theorem meets_ReadSystem_mfsrFflags_done :
    ∃ (s : State) (t : Thread) (d : BitVec 6),
      Quiet s t ∧ t.tilesDone = true :=
  ⟨dev th, th, 1, ⟨ready_of rfl (by decide +kernel), calm_of (by decide +kernel), by decide +kernel⟩,
    by decide +kernel⟩

theorem meets_ReadSystem_mfsrMsat_done :
    ∃ (s : State) (t : Thread) (d : BitVec 6),
      Quiet s t ∧ t.tilesDone = true :=
  ⟨dev th, th, 1, ⟨ready_of rfl (by decide +kernel), calm_of (by decide +kernel), by decide +kernel⟩,
    by decide +kernel⟩

theorem meets_ReadSystem_mfsrCtags_done :
    ∃ (s : State) (t : Thread) (d : BitVec 6),
      Quiet s t ∧ t.tagsClear (~~~0) = true :=
  ⟨dev th, th, 1, ⟨ready_of rfl (by decide +kernel), calm_of (by decide +kernel), by decide +kernel⟩,
    by decide +kernel⟩

theorem meets_WriteSystem_table :
    ∃ (s : State) (t : Thread) (a : BitVec 6) (w : Word) (e : BitVec 12 × Ctx),
      Quiet s t ∧ w = t.ctx.xAt a ∧
      e ∈ [
      (0x011#12, { t.ctx with estart := w }), (0x01B#12, { t.ctx with rngkey := w }),
      (0x103#12, { t.ctx with trapcause := w &&& causeMask }), (0x104#12, { t.ctx with trappc := w }),
      (0x105#12, { t.ctx with trapval := w }), (0x108#12, { t.ctx with pkidx := w &&& pkidxMask }),
      (0x109#12, { t.ctx with pkeylo := w }), (0x10A#12, { t.ctx with pkeyhi := w })] ∧
      (e.1 < 0x100#12 ∨ t.ctx.priv = true) :=
  ⟨dev (th (fun c => { c with priv := true })), th (fun c => { c with priv := true }), 1, _, _,
    ⟨ready_of rfl (by decide +kernel), calm_of (by decide +kernel), by decide +kernel⟩, rfl, .head _,
    by decide +kernel⟩

theorem meets_WriteSystem_ro :
    ∃ (s : State) (t : Thread) (a : BitVec 6) (n : BitVec 12),
      Quiet s t ∧
      n ∈ [0x000#12, 0x001#12, 0x014#12, 0x016#12, 0x017#12, 0x018#12, 0x019#12, 0x01A#12, 0x01C#12, 0x01D#12, 0x01E#12, 0x01F#12, 0x020#12, 0x100#12] ∧
      (n < 0x100#12 ∨ t.ctx.priv = true) :=
  ⟨dev (th (fun c => { c with priv := true })), th (fun c => { c with priv := true }), 1, 0,
    ⟨ready_of rfl (by decide +kernel), calm_of (by decide +kernel), by decide +kernel⟩, by decide +kernel,
    by decide +kernel⟩

theorem meets_WriteSystem_mtsrFmt_done :
    ∃ (s : State) (t : Thread) (a : BitVec 6) (f : BitVec 3),
      Quiet s t ∧ fmtOk (t.ctx.xAt a) = true :=
  ⟨dev (th (xs [(2, 0x70343)])), th (xs [(2, 0x70343)]), 2, 0,
    ⟨ready_of rfl (by decide +kernel), calm_of (by decide +kernel), by decide +kernel⟩, by decide +kernel⟩

theorem meets_WriteSystem_mtsrFmt_trap :
    ∃ (s : State) (t : Thread) (a : BitVec 6) (f : BitVec 3),
      Quiet s t ∧ fmtOk (t.ctx.xAt a) = false :=
  ⟨dev (th (xs [(2, ~~~0)])), th (xs [(2, ~~~0)]), 2, 0,
    ⟨ready_of rfl (by decide +kernel), calm_of (by decide +kernel), by decide +kernel⟩, by decide +kernel⟩

theorem meets_WriteSystem_mtsrFflags_done :
    ∃ (s : State) (t : Thread) (a : BitVec 6),
      Quiet s t ∧ t.tilesDone = true :=
  ⟨dev th, th, 1, ⟨ready_of rfl (by decide +kernel), calm_of (by decide +kernel), by decide +kernel⟩,
    by decide +kernel⟩

theorem meets_WriteSystem_mtsrMsat_done :
    ∃ (s : State) (t : Thread) (a : BitVec 6),
      Quiet s t ∧ t.tilesDone = true :=
  ⟨dev th, th, 1, ⟨ready_of rfl (by decide +kernel), calm_of (by decide +kernel), by decide +kernel⟩,
    by decide +kernel⟩

theorem meets_WriteSystem_mtsrFprog_done :
    ∃ (s : State) (t : Thread) (a : BitVec 6),
      Quiet s t :=
  ⟨dev th, th, 1, ⟨ready_of rfl (by decide +kernel), calm_of (by decide +kernel), by decide +kernel⟩⟩

theorem meets_WriteSystem_mtsrCtags_done :
    ∃ (s : State) (t : Thread) (a : BitVec 6),
      Quiet s t :=
  ⟨dev th, th, 1, ⟨ready_of rfl (by decide +kernel), calm_of (by decide +kernel), by decide +kernel⟩⟩

theorem meets_WriteSystem_parcel :
    ∃ (s : State) (t : Thread) (a : BitVec 6) (e : Instr × Nat × Word),
      Quiet s t ∧ t.ctx.priv = true ∧
      e ∈ [(.mtsrPtroot a, 0, ptrootMask), (.mtsrTrapvec a, 1, trapvecMask), (.mtsrPshare a, 2, 0xFF)] :=
  ⟨dev (th (fun c => { c with priv := true })), th (fun c => { c with priv := true }), 1, _,
    ⟨ready_of rfl (by decide +kernel), calm_of (by decide +kernel), by decide +kernel⟩, by decide +kernel, .head _⟩

theorem meets_PrivilegedTraps_numbers :
    ∃ (s : State) (t : Thread) (a : BitVec 6) (n : BitVec 12) (e : Instr),
      Quiet s t ∧ 0x100#12 ≤ n ∧ t.ctx.priv = false ∧
      e ∈ [.mfsr a n, .mtsr a n, .mtsrPtroot a, .mtsrTrapvec a, .mtsrPshare a] :=
  ⟨dev th, th, 1, 0x100, _, ⟨ready_of rfl (by decide +kernel), calm_of (by decide +kernel), by decide +kernel⟩,
    by decide +kernel, by decide +kernel, .head _⟩

theorem meets_PrivilegedTraps_instrs :
    ∃ (s : State) (t : Thread) (a : BitVec 6) (e : Instr),
      Ready s t ∧ t.ctx.priv = false ∧ e ∈ [.eret, .tlbi a, .tlbia, .pkset, .pkclr] :=
  ⟨dev th, th, 1, _, ready_of rfl (by decide +kernel), by decide +kernel, .head _⟩

theorem meets_ModeRegister_mode_done :
    ∃ (s : State) (t : Thread) (g : BitVec 4) (sc : BitVec 5) (r : BitVec 3) (z : Bool) (c : BitVec 6) (b : BitVec 2) (d : BitVec 5),
      Quiet s t ∧ modeOk (g ++ sc ++ r ++ BitVec.ofBool z ++ c ++ b ++ d) = true :=
  ⟨dev th, th, 0, 10, 0, false, 0, 0, 10,
    ⟨ready_of rfl (by decide +kernel), calm_of (by decide +kernel), by decide +kernel⟩, by decide +kernel⟩

theorem meets_ModeRegister_mode_trap :
    ∃ (s : State) (t : Thread) (g : BitVec 4) (sc : BitVec 5) (r : BitVec 3) (z : Bool) (c : BitVec 6) (b : BitVec 2) (d : BitVec 5),
      Quiet s t ∧ modeOk (g ++ sc ++ r ++ BitVec.ofBool z ++ c ++ b ++ d) = false :=
  ⟨dev th, th, 0, 10, 6, false, 0, 0, 10,
    ⟨ready_of rfl (by decide +kernel), calm_of (by decide +kernel), by decide +kernel⟩, by decide +kernel⟩

theorem meets_ModeRegister_mtsrMode_done :
    ∃ (s : State) (t : Thread) (a : BitVec 6),
      Quiet s t ∧ modeOk ((t.ctx.xAt a).setWidth 26) = true :=
  ⟨dev th, th, 5, ⟨ready_of rfl (by decide +kernel), calm_of (by decide +kernel), by decide +kernel⟩,
    by decide +kernel⟩

theorem meets_ModeRegister_mtsrMode_trap :
    ∃ (s : State) (t : Thread) (a : BitVec 6),
      Quiet s t ∧ modeOk ((t.ctx.xAt a).setWidth 26) = false :=
  ⟨dev (th (xs [(2, ~~~0)])), th (xs [(2, ~~~0)]), 2,
    ⟨ready_of rfl (by decide +kernel), calm_of (by decide +kernel), by decide +kernel⟩, by decide +kernel⟩

theorem meets_ScalarFloat_bin :
    ∃ (s : State) (t : Thread) (d a b : BitVec 6) (f : Fmt) (x y : Val) (r : Rnd) (e : Instr × Rounded),
      Quiet s t ∧ scalarFloatOk t.ctx.mode = true ∧ f = floatFmt t.ctx.fmt (modeDtype t.ctx.mode) ∧
      x = f.value ((t.ctx.xAt a).toNat % 2 ^ f.width) ∧ y = f.value ((t.ctx.xAt b).toNat % 2 ^ f.width) ∧
      r = modeRnd t.ctx.mode ∧
      e ∈ [
      (.fadd d a b, roundVal f r false 0 (x.add r y)), (.fsub d a b, roundVal f r false 0 (x.add r y.negate)),
      (.fmul d a b, roundVal f r false 0 (x.mul y)), (.fdiv d a b, f.div r false 0 x y), (.fsqrt d a, f.sqrt r false 0 x)] :=
  ⟨dev th, th, 1, 2, 3, _, _, _, _, _,
    ⟨ready_of rfl (by decide +kernel), calm_of (by decide +kernel), by decide +kernel⟩, by decide +kernel, rfl, rfl,
    rfl, rfl, .head _⟩

theorem meets_ScalarFloat_trap :
    ∃ (s : State) (t : Thread) (d a b : BitVec 6) (e : Instr),
      Quiet s t ∧ scalarFloatOk t.ctx.mode = false ∧ e ∈ [.fadd d a b, .fsub d a b, .fmul d a b, .fdiv d a b, .fsqrt d a] :=
  ⟨dev (th fun c => { c with mode := 0x15400A }), th fun c => { c with mode := 0x15400A }, 1, 2, 3, _,
    ⟨ready_of rfl (by decide +kernel), calm_of (by decide +kernel), by decide +kernel⟩, by decide +kernel, .head _⟩

theorem meets_ScalarFloat_fcvt_done :
    ∃ (s : State) (t : Thread) (d a b : BitVec 6) (v : Word × Flags),
      Quiet s t ∧
      (modeDtype t.ctx.mode < 12 && modeRnd t.ctx.mode != 5 && !(isInt b.toNat && isInt (modeDtype t.ctx.mode))) = true ∧
      v = convert t.ctx.fmt (modeRnd t.ctx.mode) b.toNat (modeDtype t.ctx.mode) (t.ctx.xAt a).toNat :=
  ⟨dev th, th, 1, 2, 3, _, ⟨ready_of rfl (by decide +kernel), calm_of (by decide +kernel), by decide +kernel⟩,
    by decide +kernel, rfl⟩

theorem meets_PrivilegedEffects_tlbi_done :
    ∃ (s : State) (t : Thread) (a : BitVec 6) (p : TlbEntry → Bool),
      Idle s t ∧ t.ctx.priv = true ∧ (p = fun e => e.parcel == t.parcel && e.covers (t.ctx.xAt a).toNat) ∧
      s.pins (some t.tid) (fun _ c => c.pages.any p) = false :=
  ⟨dev (th (fun c => { c with priv := true })), th (fun c => { c with priv := true }), 1, _,
    ⟨ready_of rfl (by decide +kernel), calm_of (by decide +kernel), rfl, rfl, by decide +kernel⟩, by decide +kernel,
    rfl, by decide +kernel⟩

theorem meets_PrivilegedEffects_tlbia_done :
    ∃ (s : State) (t : Thread) (p : TlbEntry → Bool),
      Idle s t ∧ t.ctx.priv = true ∧ (p = fun e => e.parcel == t.parcel) ∧
      s.pins (some t.tid) (fun _ c => c.pages.any p) = false :=
  ⟨dev (th (fun c => { c with priv := true })), th (fun c => { c with priv := true }), _,
    ⟨ready_of rfl (by decide +kernel), calm_of (by decide +kernel), rfl, rfl, by decide +kernel⟩, by decide +kernel,
    rfl, by decide +kernel⟩

theorem meets_PrivilegedEffects_pkset_out :
    ∃ (s : State) (t : Thread),
      Idle s t ∧ t.ctx.priv = true ∧ pkOut t.ctx.pkidx = true :=
  ⟨dev (th fun c => { c with priv := true, pkidx := 0x100 }), th fun c => { c with priv := true, pkidx := 0x100 },
    ⟨ready_of rfl (by decide +kernel), calm_of (by decide +kernel), rfl, rfl, by decide +kernel⟩, by decide +kernel,
    by decide +kernel⟩

theorem meets_PrivilegedEffects_pkclr_out :
    ∃ (s : State) (t : Thread),
      Idle s t ∧ t.ctx.priv = true ∧ pkOut t.ctx.pkidx = true :=
  ⟨dev (th fun c => { c with priv := true, pkidx := 0x100 }), th fun c => { c with priv := true, pkidx := 0x100 },
    ⟨ready_of rfl (by decide +kernel), calm_of (by decide +kernel), rfl, rfl, by decide +kernel⟩, by decide +kernel,
    by decide +kernel⟩

theorem meets_PrivilegedEffects_pkset_in :
    ∃ (s : State) (t : Thread),
      Idle s t ∧ t.ctx.priv = true ∧ pkOut t.ctx.pkidx = false ∧ pkSlot t.ctx.pkidx < (s.parcel t.parcel).kcount ∧
      (∀ j < (s.parcel t.parcel).kcount, j ≠ pkSlot t.ctx.pkidx →
      ∀ e, tfind ((s.parcel t.parcel).kfirst + j) s.keys = some e → ¬ (e.sdev = pkSdev t.ctx.pkidx ∧ e.stag = pkStag t.ctx.pkidx)) :=
  ⟨dev (th (fun c => { c with priv := true })), th (fun c => { c with priv := true }),
    ⟨ready_of rfl (by decide +kernel), calm_of (by decide +kernel), rfl, rfl, by decide +kernel⟩, by decide +kernel,
    by decide +kernel, (by decide +kernel),
    fun _ _ _ _ h => absurd h (by simp [dev, State.loadProgram, State.reset, tfind])⟩

theorem meets_PrivilegedEffects_pkclr_in :
    ∃ (s : State) (t : Thread),
      Idle s t ∧ t.ctx.priv = true ∧ pkOut t.ctx.pkidx = false ∧ pkSlot t.ctx.pkidx < (s.parcel t.parcel).kcount :=
  ⟨dev (th (fun c => { c with priv := true })), th (fun c => { c with priv := true }),
    ⟨ready_of rfl (by decide +kernel), calm_of (by decide +kernel), rfl, rfl, by decide +kernel⟩, by decide +kernel,
    by decide +kernel, (by decide +kernel)⟩

theorem meets_PrivilegedEffects_range :
    ∃ (s : State) (t : Thread) (e : Instr),
      Idle s t ∧ t.ctx.priv = true ∧ pkOut t.ctx.pkidx = false ∧ (s.parcel t.parcel).kcount ≤ pkSlot t.ctx.pkidx ∧
      e ∈ [.pkset, .pkclr] :=
  ⟨dev (th fun c => { c with priv := true, pkidx := 8 }), th fun c => { c with priv := true, pkidx := 8 }, _,
    ⟨ready_of rfl (by decide +kernel), calm_of (by decide +kernel), rfl, rfl, by decide +kernel⟩, by decide +kernel,
    by decide +kernel, (by decide +kernel), .head _⟩

theorem meets_LoadsAndStores_load :
    ∃ (s : State) (t : Thread) (d b : BitVec 6) (o : BitVec 11) (e : (BitVec 6 → BitVec 6 → BitVec 11 → Instr) × Nat × (Nat → Word)) (va : Word) (a : Access) (hit : Bool) (l : Nat) (k : Chunk) (u : State),
      Ready s t ∧ Calm s t ∧ Free s t ∧
      (e ∈ [
      (Instr.ldB, 1, fun x => word (sextNat x 8)), (Instr.ldH, 2, fun x => word (sextNat x 16)), (Instr.ldW, 4, fun x => word (sextNat x 32)), (Instr.ldD, 8, fun x => BitVec.ofNat 64 x),
      (Instr.ldBu, 1, fun x => BitVec.ofNat 64 x), (Instr.ldHu, 2, fun x => BitVec.ofNat 64 x), (Instr.ldWu, 4, fun x => BitVec.ofNat 64 x)]) ∧
      va = t.ctx.xAt b + word (o.toInt * e.2.1) ∧ va.toNat % e.2.1 = 0 ∧ Lands s t .load va.toNat a hit (.loc l) ∧
      (s.defer = false ∨ l < viewBase) ∧ s.poisonTrap va.toNat l e.2.1 = none ∧ k = (opened s t).notePage a.entry ∧
      (k.noteRead l e.2.1).counted.goesOn t.limit = true ∧ u = (s.keepEntry t.coreNum a hit).noteRead l e.2.1 :=
  ⟨dev (th (xs [(3, 0x40100)])) [(0x40100, 0x80)], th (xs [(3, 0x40100)]), 1, 3, 0, _, _, _, false, _, _, _,
    ready_of rfl (by decide +kernel), calm_of (by decide +kernel), free_of (by decide +kernel), .head _, rfl,
    by decide +kernel, lands_of (by decide +kernel), by decide +kernel, by decide +kernel, rfl, by decide +kernel,
    rfl⟩

theorem meets_LoadsAndStores_store :
    ∃ (s : State) (t : Thread) (d b : BitVec 6) (o : BitVec 11) (e : (BitVec 6 → BitVec 6 → BitVec 11 → Instr) × Nat) (va : Word) (a : Access) (hit : Bool) (l : Nat) (k : Chunk),
      Ready s t ∧ Calm s t ∧ Free s t ∧ e ∈ [(Instr.stB, 1), (Instr.stH, 2), (Instr.stW, 4), (Instr.stD, 8)] ∧
      va = t.ctx.xAt b + word (o.toInt * e.2) ∧ va.toNat % e.2 = 0 ∧ Lands s t .store va.toNat a hit (.loc l) ∧
      k = ((opened s t).notePage a.entry).store (writesOf l (bytesOfNat (t.ctx.xAt d).toNat e.2)) ∧
      k.counted.goesOn t.limit = true :=
  ⟨dev (th (xs [(3, 0x40100)])), th (xs [(3, 0x40100)]), 1, 3, 0, _, _, _, false, _, _,
    ready_of rfl (by decide +kernel), calm_of (by decide +kernel), free_of (by decide +kernel), .head _, rfl,
    by decide +kernel, lands_of (by decide +kernel), rfl, by decide +kernel⟩

theorem meets_LoadsAndStores_mis :
    ∃ (s : State) (t : Thread) (d b : BitVec 6) (o : BitVec 11) (e : (BitVec 6 → BitVec 6 → BitVec 11 → Instr) × Nat) (va : Word),
      Quiet s t ∧
      e ∈ [(Instr.ldH, 2), (Instr.ldW, 4), (Instr.ldD, 8),
      (Instr.ldHu, 2), (Instr.ldWu, 4), (Instr.stH, 2), (Instr.stW, 4), (Instr.stD, 8)] ∧
      va = t.ctx.xAt b + word (o.toInt * e.2) ∧ va.toNat % e.2 ≠ 0 :=
  ⟨dev (th (xs [(3, 0x40101)])), th (xs [(3, 0x40101)]), 1, 3, 0, _, _,
    ⟨ready_of rfl (by decide +kernel), calm_of (by decide +kernel), by decide +kernel⟩, .head _, rfl,
    by decide +kernel⟩

theorem meets_LoadsAndStores_loadDev :
    ∃ (s : State) (t : Thread) (d b : BitVec 6) (o : BitVec 11) (e : (BitVec 6 → BitVec 6 → BitVec 11 → Instr) × Nat × (Nat → Word)) (va : Word) (a : Access) (hit : Bool) (pa : Nat),
      Idle s t ∧ Free s t ∧
      (e ∈ [
      (Instr.ldB, 1, fun x => word (sextNat x 8)), (Instr.ldH, 2, fun x => word (sextNat x 16)), (Instr.ldW, 4, fun x => word (sextNat x 32)), (Instr.ldD, 8, fun x => BitVec.ofNat 64 x),
      (Instr.ldBu, 1, fun x => BitVec.ofNat 64 x), (Instr.ldHu, 2, fun x => BitVec.ofNat 64 x), (Instr.ldWu, 4, fun x => BitVec.ofNat 64 x)]) ∧
      va = t.ctx.xAt b + word (o.toInt * e.2.1) ∧ va.toNat % e.2.1 = 0 ∧ Lands s t .load va.toNat a hit (.dev pa) ∧
      s.poisonTrap va.toNat pa e.2.1 = none :=
  ⟨devPage (th (xs [(2, 0x50100)])), th (xs [(2, 0x50100)]), 1, 2, 0, _, _, _, _, 0x40100,
    ⟨ready_of rfl (by decide +kernel), calm_of (by decide +kernel), rfl, rfl, by decide +kernel⟩,
    free_of (by decide +kernel), .head _, rfl, by decide +kernel, spot_of (by decide +kernel) (by decide +kernel),
    by decide +kernel⟩

theorem meets_LoadsAndStores_storeDev :
    ∃ (s : State) (t : Thread) (d b : BitVec 6) (o : BitVec 11) (e : (BitVec 6 → BitVec 6 → BitVec 11 → Instr) × Nat) (va : Word) (a : Access) (hit : Bool) (pa : Nat) (ws : List Write),
      Idle s t ∧ Free s t ∧ e ∈ [(Instr.stB, 1), (Instr.stH, 2), (Instr.stW, 4), (Instr.stD, 8)] ∧
      va = t.ctx.xAt b + word (o.toInt * e.2) ∧ va.toNat % e.2 = 0 ∧ Lands s t .store va.toNat a hit (.dev pa) ∧
      ws = writesOf pa (bytesOfNat (t.ctx.xAt d).toNat e.2) ∧
      (s.keepEntry t.coreNum a hit).held (some t.tid) (ws.map (·.1 / 128)) = false :=
  ⟨devPage (th (xs [(2, 0x50100)])), th (xs [(2, 0x50100)]), 1, 2, 0, _, _, _, _, 0x40100, _,
    ⟨ready_of rfl (by decide +kernel), calm_of (by decide +kernel), rfl, rfl, by decide +kernel⟩,
    free_of (by decide +kernel), .head _, rfl, by decide +kernel, spot_of (by decide +kernel) (by decide +kernel),
    rfl, by decide +kernel⟩

theorem meets_LoadsAndStores_loadWindow :
    ∃ (s : State) (t : Thread) (d b : BitVec 6) (o : BitVec 11) (va : Word) (a : Access) (hit : Bool) (off : Nat),
      Idle s t ∧ Free s t ∧ t.ctx.priv = true ∧ va = t.ctx.xAt b + word (o.toInt * 8) ∧ va.toNat % 8 = 0 ∧
      Lands s t .load va.toNat a hit (.registers off) :=
  ⟨regPage (th fun c => { xs [(2, 0x50100)] c with priv := true }),
    th fun c => { xs [(2, 0x50100)] c with priv := true }, 1, 2, 0, _, _, _, 0x100,
    ⟨ready_of rfl (by decide +kernel), calm_of (by decide +kernel), rfl, rfl, by decide +kernel⟩,
    free_of (by decide +kernel), by decide +kernel, rfl, by decide +kernel,
    spot_of (by decide +kernel) (by decide +kernel)⟩

theorem meets_LoadsAndStores_storeWindow :
    ∃ (s : State) (t : Thread) (d b : BitVec 6) (o : BitVec 11) (va : Word) (a : Access) (hit : Bool) (off : Nat),
      Idle s t ∧ Free s t ∧ t.ctx.priv = true ∧ va = t.ctx.xAt b + word (o.toInt * 8) ∧ va.toNat % 8 = 0 ∧
      Lands s t .store va.toNat a hit (.registers off) :=
  ⟨regPage (th fun c => { xs [(2, 0x50100)] c with priv := true }),
    th fun c => { xs [(2, 0x50100)] c with priv := true }, 1, 2, 0, _, _, _, 0x100,
    ⟨ready_of rfl (by decide +kernel), calm_of (by decide +kernel), rfl, rfl, by decide +kernel⟩,
    free_of (by decide +kernel), by decide +kernel, rfl, by decide +kernel,
    spot_of (by decide +kernel) (by decide +kernel)⟩

theorem meets_LoadsAndStores_storeFar :
    ∃ (s : State) (t : Thread) (d b : BitVec 6) (o : BitVec 11) (e : (BitVec 6 → BitVec 6 → BitVec 11 → Instr) × Nat) (va : Word) (a : Access) (hit : Bool) (dev off : Nat) (k k2 : Chunk),
      Ready s t ∧ Calm s t ∧ Free s t ∧ e ∈ [(Instr.stB, 1), (Instr.stH, 2), (Instr.stW, 4), (Instr.stD, 8)] ∧
      va = t.ctx.xAt b + word (o.toInt * e.2) ∧ va.toNat % e.2 = 0 ∧ Lands s t .store va.toNat a hit (.fabric dev off) ∧
      (opened s t).explicit = false ∧ k = (opened s t).notePage a.entry ∧
      k2 = { k with fabricOut := k.fabricOut ++ [t.ask dev off (.store (bytesOfNat (t.ctx.xAt d).toNat e.2) (List.replicate e.2 255)) va (.ack t.tid false)] } ∧
      k2.counted.goesOn t.limit = true :=
  ⟨farPage (th (xs [(2, 0x50100)])), th (xs [(2, 0x50100)]), 1, 2, 0, _, _, _, _, 1, 0x100, _, _,
    ready_of rfl (by decide +kernel), calm_of (by decide +kernel), free_of (by decide +kernel), .head _, rfl,
    by decide +kernel, spot_of (by decide +kernel) (by decide +kernel), by decide +kernel, rfl, rfl,
    by decide +kernel⟩

theorem meets_LoadsAndStores_askFar :
    ∃ (s : State) (t : Thread) (d b : BitVec 6) (o : BitVec 11) (e : (BitVec 6 → BitVec 6 → BitVec 11 → Instr) × Nat × (Nat → Word)) (va : Word) (a : Access) (hit : Bool) (dev off : Nat),
      Ready s t ∧ Calm s t ∧
      (e ∈ [
      (Instr.ldB, 1, fun x => word (sextNat x 8)), (Instr.ldH, 2, fun x => word (sextNat x 16)), (Instr.ldW, 4, fun x => word (sextNat x 32)), (Instr.ldD, 8, fun x => BitVec.ofNat 64 x),
      (Instr.ldBu, 1, fun x => BitVec.ofNat 64 x), (Instr.ldHu, 2, fun x => BitVec.ofNat 64 x), (Instr.ldWu, 4, fun x => BitVec.ofNat 64 x)]) ∧
      va = t.ctx.xAt b + word (o.toInt * e.2.1) ∧ va.toNat % e.2.1 = 0 ∧ Lands s t .load va.toNat a hit (.fabric dev off) ∧
      (opened s t).explicit = false ∧ s.defer = false ∧
      (((opened s t).fabricOut.any fun q => q.dev == dev && q.off / 128 == off / 128) = false) ∧
      ((s.fabric.any fun q => q.isAfter t.tid && q.dev == dev && q.off / 128 == off / 128) = false) ∧
      ((s.fabric.any fun q => q.reply == .load t.tid none && q.dev == dev && q.off == off) = false) :=
  ⟨farPage (th (xs [(2, 0x50100)])), th (xs [(2, 0x50100)]), 1, 2, 0, _, _, _, _, 1, 0x100,
    ready_of rfl (by decide +kernel), calm_of (by decide +kernel), .head _, rfl, by decide +kernel,
    spot_of (by decide +kernel) (by decide +kernel), by decide +kernel, by decide +kernel, (by decide +kernel),
    by decide +kernel, by decide +kernel⟩

theorem meets_LoadsAndStores_loadFar :
    ∃ (s : State) (t : Thread) (d b : BitVec 6) (o : BitVec 11) (e : (BitVec 6 → BitVec 6 → BitVec 11 → Instr) × Nat × (Nat → Word)) (va : Word) (a : Access) (hit : Bool) (dev off : Nat) (data : List Byte) (k : Chunk),
      Ready s t ∧ Free s t ∧
      (e ∈ [
      (Instr.ldB, 1, fun x => word (sextNat x 8)), (Instr.ldH, 2, fun x => word (sextNat x 16)), (Instr.ldW, 4, fun x => word (sextNat x 32)), (Instr.ldD, 8, fun x => BitVec.ofNat 64 x),
      (Instr.ldBu, 1, fun x => BitVec.ofNat 64 x), (Instr.ldHu, 2, fun x => BitVec.ofNat 64 x), (Instr.ldWu, 4, fun x => BitVec.ofNat 64 x)]) ∧
      va = t.ctx.xAt b + word (o.toInt * e.2.1) ∧ va.toNat % e.2.1 = 0 ∧ Lands s t .load va.toNat a hit (.fabric dev off) ∧
      (opened s t).explicit = false ∧ s.defer = false ∧
      (((opened s t).fabricOut.any fun q => q.dev == dev && q.off / 128 == off / 128) = false) ∧
      ((s.fabric.any fun q => q.isAfter t.tid && q.dev == dev && q.off / 128 == off / 128) = false) ∧
      t.replies = [{ vp := none, pa := dev * 2 ^ 39 + off, n := e.2.1, code := 0, data := data }] ∧
      Calm s { t with replies := [] } ∧ k = (opened s t).notePage a.entry ∧ k.counted.goesOn t.limit = true :=
  ⟨farPage (th (xs [(2, 0x50100)]) fun t => { t with replies := [{ vp := none, pa := 2 ^ 39 + 0x100, n := 1, code := 0, data := [5] }] }),
    th (xs [(2, 0x50100)]) fun t => { t with replies := [{ vp := none, pa := 2 ^ 39 + 0x100, n := 1, code := 0, data := [5] }] },
    1, 2, 0, _, _, _, _, 1, 0x100, [5], _, ready_of rfl (by decide +kernel), free_of (by decide +kernel), .head _,
    rfl, by decide +kernel, spot_of (by decide +kernel) (by decide +kernel), by decide +kernel, by decide +kernel,
    (by decide +kernel), by decide +kernel, by decide +kernel, calm_of (by decide +kernel), rfl, by decide +kernel⟩

theorem meets_LoadsAndStores_loadLate :
    ∃ (s : State) (t : Thread) (d b : BitVec 6) (o : BitVec 11) (e : (BitVec 6 → BitVec 6 → BitVec 11 → Instr) × Nat × Ext) (va : Word) (a : Access) (hit : Bool) (l : Nat) (k : Chunk),
      Ready s t ∧ Calm s t ∧ Free s t ∧
      e ∈ [(Instr.ldB, 1, Ext.sign), (Instr.ldH, 2, Ext.sign), (Instr.ldW, 4, Ext.sign), (Instr.ldD, 8, Ext.zero),
      (Instr.ldBu, 1, Ext.zero), (Instr.ldHu, 2, Ext.zero), (Instr.ldWu, 4, Ext.zero)] ∧
      va = t.ctx.xAt b + word (o.toInt * e.2.1) ∧ va.toNat % e.2.1 = 0 ∧ Lands s t .load va.toNat a hit (.loc l) ∧
      (opened s t).explicit = false ∧ s.defer = true ∧ viewBase ≤ l ∧ s.hasCopy (viewDie l) (viewPa l / 128) = false ∧
      (opened s t).writes.contains (l / 128) = false ∧ k = ((opened s t).notePage a.entry).marked (l / 128) ∧
      k.counted.goesOn t.limit = true :=
  ⟨mgdPage (th (xs [(2, 0x50100)]) fun t => { t with core := some 48 }),
    th (xs [(2, 0x50100)]) fun t => { t with core := some 48 }, 1, 2, 0, _, _, _, _, viewLoc 1 0x40100, _,
    ready_of rfl (by decide +kernel), calm_of (by decide +kernel), free_of (by decide +kernel), .head _, rfl,
    by decide +kernel, lands_of (by decide +kernel), by decide +kernel, by decide +kernel, (by decide +kernel),
    by decide +kernel, by decide +kernel, rfl, by decide +kernel⟩

theorem meets_Atomics_amo :
    ∃ (s : State) (t : Thread) (d a b : BitVec 6) (z : Bool) (e : (BitVec 6 → BitVec 6 → BitVec 6 → Bool → Instr) × AmoOp) (n : Nat) (acc : Access) (hit : Bool) (l : Nat) (u : State) (m x : Nat) (k : Chunk),
      Ready s t ∧ Calm s t ∧ Free s t ∧
      e ∈ [
      (Instr.amoAdd, AmoOp.add), (Instr.amoAnd, AmoOp.and), (Instr.amoOr, AmoOp.or), (Instr.amoXor, AmoOp.xor), (Instr.amoMin, AmoOp.min),
      (Instr.amoMax, AmoOp.max), (Instr.amoMinu, AmoOp.minu), (Instr.amoMaxu, AmoOp.maxu), (Instr.amoSwap, AmoOp.swap), (Instr.amoFadd, AmoOp.fadd), (Instr.cas, AmoOp.cas)] ∧
      (n = if z then 8 else 4) ∧ (t.ctx.xAt a).toNat % n = 0 ∧ Lands s t .amo (t.ctx.xAt a).toNat acc hit (.loc l) ∧
      s.poisonTrap (t.ctx.xAt a).toNat l n = none ∧ (opened s t).near s t.coreNum l = true ∧
      u = (s.keepEntry t.coreNum acc hit).noteRead l n ∧ m = natOfBytes (((opened s t).notePage acc.entry).sees u l n) ∧
      (x = if e.2 = .cas then (t.ctx.xAt d).toNat else 0) ∧
      k = amoChunk e.2 n l m (t.ctx.xAt b).toNat x ((opened s t).notePage acc.entry) ∧ k.counted.goesOn t.limit = true :=
  ⟨dev (th (xs [(2, 0x40100), (3, 5)])), th (xs [(2, 0x40100), (3, 5)]), 1, 2, 3, false, _, _, _, false, _, _, _, _,
    _, ready_of rfl (by decide +kernel), calm_of (by decide +kernel), free_of (by decide +kernel), .head _, rfl,
    by decide +kernel, lands_of (by decide +kernel), by decide +kernel, by decide +kernel, rfl, rfl, rfl, rfl,
    by decide +kernel⟩

theorem meets_Atomics_far :
    ∃ (s : State) (t : Thread) (a b : BitVec 6) (z : Bool) (e : (BitVec 6 → BitVec 6 → BitVec 6 → Bool → Instr) × AmoOp) (n : Nat) (acc : Access) (hit : Bool) (l : Nat) (u : State) (m : Nat) (k : Chunk),
      Ready s t ∧ Calm s t ∧ Free s t ∧
      e ∈ [
      (Instr.amoAdd, AmoOp.add), (Instr.amoAnd, AmoOp.and), (Instr.amoOr, AmoOp.or), (Instr.amoXor, AmoOp.xor), (Instr.amoMin, AmoOp.min),
      (Instr.amoMax, AmoOp.max), (Instr.amoMinu, AmoOp.minu), (Instr.amoMaxu, AmoOp.maxu), (Instr.amoSwap, AmoOp.swap), (Instr.amoFadd, AmoOp.fadd), (Instr.cas, AmoOp.cas)] ∧
      (n = if z then 8 else 4) ∧ (t.ctx.xAt a).toNat % n = 0 ∧ Lands s t .amo (t.ctx.xAt a).toNat acc hit (.loc l) ∧
      s.poisonTrap (t.ctx.xAt a).toNat l n = none ∧ ((opened s t).explicit = false ∧ (opened s t).priority = false) ∧
      2 ≤ (s.core t.coreNum).predicted (l / 128) ∧ (l < scratchBase ∨ viewBase ≤ l) ∧
      u = (s.keepEntry t.coreNum acc hit).noteRead l n ∧ m = natOfBytes (((opened s t).notePage acc.entry).sees u l n) ∧
      k = amoFar e.2 n l m (t.ctx.xAt b).toNat 0 ((opened s t).notePage acc.entry) ∧ k.counted.goesOn t.limit = true :=
  ⟨hot (th (xs [(2, 0x40000), (3, 5)])), th (xs [(2, 0x40000), (3, 5)]), 2, 3, false, _, 4, _, _, 0x40000, _, _, _,
    ready_of rfl (by decide +kernel), calm_of (by decide +kernel), free_of (by decide +kernel), .head _,
    by decide +kernel, by decide +kernel, lands_of (by decide +kernel), by decide +kernel, by decide +kernel,
    (by decide +kernel), by decide +kernel, rfl, rfl, rfl, by decide +kernel⟩

theorem meets_Atomics_farReturns :
    ∃ (s : State) (t : Thread) (d a b : BitVec 6) (z : Bool) (e : (BitVec 6 → BitVec 6 → BitVec 6 → Bool → Instr) × AmoOp) (n : Nat) (acc : Access) (hit : Bool) (l : Nat) (u : State) (m x : Nat) (k : Chunk),
      Ready s t ∧ Calm s t ∧ Free s t ∧ d ≠ 0 ∧
      e ∈ [
      (Instr.amoAdd, AmoOp.add), (Instr.amoAnd, AmoOp.and), (Instr.amoOr, AmoOp.or), (Instr.amoXor, AmoOp.xor), (Instr.amoMin, AmoOp.min),
      (Instr.amoMax, AmoOp.max), (Instr.amoMinu, AmoOp.minu), (Instr.amoMaxu, AmoOp.maxu), (Instr.amoSwap, AmoOp.swap), (Instr.amoFadd, AmoOp.fadd), (Instr.cas, AmoOp.cas)] ∧
      (n = if z then 8 else 4) ∧ (t.ctx.xAt a).toNat % n = 0 ∧ Lands s t .amo (t.ctx.xAt a).toNat acc hit (.loc l) ∧
      s.poisonTrap (t.ctx.xAt a).toNat l n = none ∧ ((opened s t).explicit = false ∧ (opened s t).priority = false) ∧
      2 ≤ (s.core t.coreNum).predicted (l / 128) ∧ (l < scratchBase ∨ viewBase ≤ l) ∧
      u = (s.keepEntry t.coreNum acc hit).noteRead l n ∧ m = natOfBytes (((opened s t).notePage acc.entry).sees u l n) ∧
      (x = if e.2 = .cas then (t.ctx.xAt d).toNat else 0) ∧
      k = amoFar e.2 n l m (t.ctx.xAt b).toNat x ((opened s t).notePage acc.entry) ∧ Spare k ∧
      (∀ c ∈ s.copies, c.tid = t.tid → c.forked = true) ∧ u.held (some t.tid) k.writes = false :=
  ⟨hot (th (xs [(2, 0x40000), (3, 5)])), th (xs [(2, 0x40000), (3, 5)]), 1, 2, 3, false, _, 4, _, _, 0x40000, _, _,
    _, _, ready_of rfl (by decide +kernel), calm_of (by decide +kernel), free_of (by decide +kernel),
    by decide +kernel, .head _, by decide +kernel, by decide +kernel, lands_of (by decide +kernel),
    by decide +kernel, by decide +kernel, (by decide +kernel), by decide +kernel, rfl, rfl, rfl, rfl,
    ⟨by decide +kernel, by decide +kernel, (by decide +kernel), by decide +kernel, by decide +kernel, (by decide +kernel)⟩,
    by decide +kernel, by decide +kernel⟩

theorem meets_Atomics_fadd :
    ∃ (n m v : Nat) (f : Fmt),
      (f = if n = 8 then fp64 else fp32) :=
  ⟨4, 0, 0, fp32, by decide +kernel⟩

theorem meets_Atomics_new :
    ∃ (n m v : Nat) (x y : Int),
      (n = 4 ∨ n = 8) ∧ m < 2 ^ (8 * n) ∧ v < 2 ^ (8 * n) ∧ x = sextNat m (8 * n) ∧ y = sextNat v (8 * n) :=
  ⟨4, 1, 2, 1, 2, by decide +kernel, by decide +kernel, (by decide +kernel), by decide +kernel, by decide +kernel⟩

theorem meets_OrderingInstructions_fence_done :
    ∃ (s : State) (t : Thread) (sc : BitVec 2),
      Idle s t ∧ (s.fabric.any (·.isVectorOf t.tid)) = false ∧ ScopeFree s t sc true true :=
  ⟨dev th, th, 1, ⟨ready_of rfl (by decide +kernel), calm_of (by decide +kernel), rfl, rfl, by decide +kernel⟩,
    by decide +kernel, ⟨by decide +kernel, by decide +kernel⟩⟩

theorem meets_OrderingInstructions_acq_bare :
    ∃ (s : State) (t : Thread) (d : BitVec 6) (sc : BitVec 2),
      Idle s t ∧ ScopeFree s t sc true false :=
  ⟨dev th, th, 1, 1, ⟨ready_of rfl (by decide +kernel), calm_of (by decide +kernel), rfl, rfl, by decide +kernel⟩,
    ⟨by decide +kernel, by decide +kernel⟩⟩

theorem meets_OrderingInstructions_acq_done :
    ∃ (s : State) (t : Thread) (d a : BitVec 6) (sc : BitVec 2) (acc : Access) (hit : Bool) (l : Nat) (s' : State) (k : Chunk),
      Idle s t ∧ Free s t ∧ a ≠ 0 ∧ (t.ctx.xAt a).toNat % 8 = 0 ∧ Lands s t .load (t.ctx.xAt a).toNat acc hit (.loc l) ∧
      s.poisonTrap (t.ctx.xAt a).toNat l 8 = none ∧ s' = (s.keepEntry t.coreNum acc hit).noteRead l 8 ∧
      ScopeFree s' t sc true false ∧ k = (opened s t).notePage acc.entry :=
  ⟨dev (th (xs [(2, 0x40100), (3, 5)])), th (xs [(2, 0x40100), (3, 5)]), 1, 2, 1, _, false, _, _, _,
    ⟨ready_of rfl (by decide +kernel), calm_of (by decide +kernel), rfl, rfl, by decide +kernel⟩,
    free_of (by decide +kernel), by decide +kernel, by decide +kernel, lands_of (by decide +kernel),
    by decide +kernel, rfl, ⟨by decide +kernel, by decide +kernel⟩, rfl⟩

theorem meets_OrderingInstructions_rel_bare :
    ∃ (s : State) (t : Thread) (b : BitVec 6) (sc : BitVec 2),
      Idle s t ∧ (s.fabric.any (·.isVectorOf t.tid)) = false ∧ ScopeFree s t sc false true :=
  ⟨dev th, th, 1, 1, ⟨ready_of rfl (by decide +kernel), calm_of (by decide +kernel), rfl, rfl, by decide +kernel⟩,
    by decide +kernel, ⟨by decide +kernel, by decide +kernel⟩⟩

theorem meets_OrderingInstructions_rel_done :
    ∃ (s : State) (t : Thread) (a b : BitVec 6) (sc : BitVec 2) (acc : Access) (hit : Bool) (l : Nat) (s' : State) (k : Chunk),
      Idle s t ∧ Free s t ∧ a ≠ 0 ∧ (t.ctx.xAt a).toNat % 8 = 0 ∧ Lands s t .store (t.ctx.xAt a).toNat acc hit (.loc l) ∧
      (s.fabric.any (·.isVectorOf t.tid)) = false ∧ ScopeFree (s.keepEntry t.coreNum acc hit) t sc false true ∧
      s' = (s.keepEntry t.coreNum acc hit).scoped t.die sc false ∧
      k = ((opened s t).notePage acc.entry).store (writesOf l (bytesOfNat (t.ctx.xAt b).toNat 8)) ∧
      s'.held (some t.tid) k.writes = false :=
  ⟨dev (th (xs [(2, 0x40100), (3, 5)])), th (xs [(2, 0x40100), (3, 5)]), 2, 3, 1, _, false, _, _, _,
    ⟨ready_of rfl (by decide +kernel), calm_of (by decide +kernel), rfl, rfl, by decide +kernel⟩,
    free_of (by decide +kernel), by decide +kernel, by decide +kernel, lands_of (by decide +kernel),
    by decide +kernel, ⟨by decide +kernel, by decide +kernel⟩, rfl, rfl, by decide +kernel⟩

theorem meets_OrderingInstructions_pref_done :
    ∃ (s : State) (t : Thread) (a : BitVec 6),
      Quiet s t :=
  ⟨dev th, th, 1, ⟨ready_of rfl (by decide +kernel), calm_of (by decide +kernel), by decide +kernel⟩⟩

theorem meets_OrderingInstructions_vdrain_done :
    ∃ (s : State) (t : Thread),
      Quiet s t ∧ ((opened s t).late = false ∨ (opened s t).explicit = true) ∧
      (s.fabric.any (·.isVectorOf t.tid)) = false :=
  ⟨dev th, th, ⟨ready_of rfl (by decide +kernel), calm_of (by decide +kernel), by decide +kernel⟩,
    by decide +kernel, by decide +kernel⟩

theorem meets_OrderingInstructions_nop_done :
    ∃ (s : State) (t : Thread),
      Quiet s t :=
  ⟨dev th, th, ⟨ready_of rfl (by decide +kernel), calm_of (by decide +kernel), by decide +kernel⟩⟩

theorem meets_OrderingInstructions_pause_done :
    ∃ (s : State) (t : Thread),
      Idle s t :=
  ⟨dev th, th, ⟨ready_of rfl (by decide +kernel), calm_of (by decide +kernel), rfl, rfl, by decide +kernel⟩⟩

theorem meets_ExplicitChunks_chkbeg_done :
    ∃ (s : State) (t : Thread),
      Idle s t :=
  ⟨dev th, th, ⟨ready_of rfl (by decide +kernel), calm_of (by decide +kernel), rfl, rfl, by decide +kernel⟩⟩

theorem meets_ExplicitChunks_chkend_done :
    ∃ (s : State) (t : Thread) (k : Chunk),
      Ready s t ∧ t.replies = [] ∧ k = opened s t ∧ Spare k ∧ t.deferred = [] ∧
      (∀ c ∈ s.copies, c.tid = t.tid → c.forked = true) ∧ s.held (some t.tid) k.writes = false :=
  ⟨dev (th id fun t => { t with chunk := some { opened (dev th) th with explicit := true } }),
    th id fun t => { t with chunk := some { opened (dev th) th with explicit := true } }, _,
    ready_of rfl (by decide +kernel), by decide +kernel, rfl,
    ⟨by decide +kernel, by decide +kernel, (by decide +kernel), by decide +kernel, by decide +kernel, (by decide +kernel)⟩,
    by decide +kernel, by decide +kernel, (by decide +kernel)⟩

theorem meets_ExplicitChunks_chkend_all :
    ∃ (s : State) (t : Thread) (k : Chunk),
      Ready s t ∧ t.replies = [] ∧ k = opened s t ∧ k.exits = false ∧ k.yields = false ∧ t.deferred = [] ∧
      s.letsCommit t k = true :=
  ⟨dev (th id fun t => { t with chunk := some { opened (dev th) th with explicit := true } }),
    th id fun t => { t with chunk := some { opened (dev th) th with explicit := true } }, _,
    ready_of rfl (by decide +kernel), by decide +kernel, rfl, by decide +kernel, by decide +kernel,
    (by decide +kernel), by decide +kernel⟩

theorem meets_ExplicitChunks_launch_made :
    ∃ (s : State) (n : Nat) (l m : Launch),
      (m = { l with stands := l.stands.map fun (st : Stand) => { st with live := st.members.length } }) :=
  ⟨dev th, 1, loadLaunch, _, rfl⟩

theorem meets_ExplicitChunks_request_sent :
    ∃ (s : State) (q r : FabricReq) (u : State),
      r = { q with
      id := s.nextId, header := tenantHeader (s.parcel q.parcel).outkey q.parcel (s.devnum.getD 0), port := s.portFor q.dev q.lead } ∧
      u = { s with nextId := s.nextId + 1 } :=
  ⟨dev th, anAdd 7 1, _, _, rfl, rfl⟩

theorem meets_ExplicitChunks_chkstat_done :
    ∃ (s : State) (t : Thread) (d : BitVec 6),
      Quiet s t :=
  ⟨dev th, th, 1, ⟨ready_of rfl (by decide +kernel), calm_of (by decide +kernel), by decide +kernel⟩⟩

theorem meets_UnitsOfTheOrder_other :
    ∃ (s : State) (who : Option Nat) (ws : List Write),
      s.mem.wf = true :=
  ⟨State.reset, none, [(0, 255, 1)], by decide +kernel⟩

theorem meets_UnitsOfTheOrder_one :
    ∃ (s : State) (l : Nat) (mask b : Byte),
      s.mem.wf = true ∧ l < viewBase :=
  ⟨State.reset, 0, 255, 1, by decide +kernel, by decide +kernel⟩

theorem meets_UnitsOfTheOrder_rest :
    ∃ (s : State) (k : Chunk) (l p n : Nat) (b : List Byte),
      (p + n ≤ l ∨ l + b.length ≤ p) :=
  ⟨State.reset, opened State.reset (newThread 0 loadLaunch 0 0 0), 8, 0, 4, [1], by decide +kernel⟩

theorem meets_UnitsOfTheOrder_set :
    ∃ (m : Memory) (a : Nat) (b : Byte),
      m.wf = true :=
  ⟨[], 5, 7, by decide +kernel⟩

theorem meets_UnitsOfTheOrder_one_2 :
    ∃ (m n : Memory),
      m.wf = true ∧ n.wf = true ∧ (∀ a, m.byte a = n.byte a) :=
  ⟨[], [], by decide +kernel, by decide +kernel, fun _ => rfl⟩

theorem meets_StepKeepsMemory_keeps :
    ∃ (s u : State),
      s.mem.wf = true ∧ step s = .next u :=
  ⟨dev th, _, by decide +kernel, next_of (by decide +kernel)⟩

theorem meets_VectorInteger_vv :
    ∃ (s : State) (t : Thread) (d a b : BitVec 6) (c g : Bool) (e : (BitVec 6 → BitVec 6 → BitVec 6 → Bool → Bool → Instr) × (BitVec 6 → BitVec 6 → BitVec 6 → Bool → Instr) × Bool × (IntOp → Int → Int → Int → Nat)) (o : IntOp),
      VecQuiet s t ∧
      (e ∈ [
      (Instr.vadd, Instr.vaddVx, true, fun o x y _ => o.narrow (x + y)),
      (Instr.vsub, Instr.vsubVx, true, fun o x y _ => o.narrow (x - y)),
      (Instr.vmul, Instr.vmulVx, true, fun o x y _ => o.narrow (x * y)),
      (Instr.vmacc, Instr.vmaccVx, true, fun o x y z => o.narrow (z + x * y)),
      (Instr.vmulh, Instr.vmulhVx, false, fun o x y _ => wrapTo o.w (x * y / 2 ^ o.w)),
      (Instr.vdiv, Instr.vdivVx, false, fun o x y _ => if y = 0 then 2 ^ o.wd - 1 else o.narrow (x.tdiv y)),
      (Instr.vrem, Instr.vremVx, false, fun o x y _ => wrapTo o.wd (if y = 0 then x else x.tmod y)),
      (Instr.vmin, Instr.vminVx, false, fun o x y _ => wrapTo o.w (min x y)),
      (Instr.vmax, Instr.vmaxVx, false, fun o x y _ => wrapTo o.w (max x y)),
      (Instr.vand, Instr.vandVx, false, fun o x y _ => wrapTo o.w x &&& wrapTo o.w y),
      (Instr.vor, Instr.vorVx, false, fun o x y _ => wrapTo o.w x ||| wrapTo o.w y),
      (Instr.vxor, Instr.vxorVx, false, fun o x y _ => wrapTo o.w x ^^^ wrapTo o.w y),
      (Instr.vsll, Instr.vsllVx, false, fun o x y _ => wrapTo o.w (x * (2 ^ (wrapTo o.w y % o.w) : Nat))),
      (Instr.vsrl, Instr.vsrlVx, false, fun o x y _ => wrapTo o.w x / 2 ^ (wrapTo o.w y % o.w)),
      (Instr.vsra, Instr.vsraVx, false, fun o x y _ => wrapTo o.w (sextNat (wrapTo o.w x) o.w / (2 ^ (wrapTo o.w y % o.w) : Nat)))]) ∧
      o = t.ctx.intOp ∧ (isInt o.t && isInt o.u && (e.2.2.1 || o.t == o.u) && modeScale t.ctx.mode == 0) = true ∧
      t.vlFits (max o.w o.wd) = true :=
  ⟨dev (th fun c => { c with mode := 0x40002, vl := 4 }), th fun c => { c with mode := 0x40002, vl := 4 }, 1, 2, 3,
    false, false, _, _, ⟨⟨ready_of rfl (by decide +kernel), calm_of (by decide +kernel), by decide +kernel⟩, rfl⟩,
    .head _, rfl, by decide +kernel, by decide +kernel⟩

theorem meets_VectorInteger_trap :
    ∃ (s : State) (t : Thread) (d a b : BitVec 6) (c g : Bool) (e : (BitVec 6 → BitVec 6 → BitVec 6 → Bool → Bool → Instr) × (BitVec 6 → BitVec 6 → BitVec 6 → Bool → Instr) × Bool × (IntOp → Int → Int → Int → Nat)) (o : IntOp) (w : Word),
      VecQuiet s t ∧
      (e ∈ [
      (Instr.vadd, Instr.vaddVx, true, fun o x y _ => o.narrow (x + y)),
      (Instr.vsub, Instr.vsubVx, true, fun o x y _ => o.narrow (x - y)),
      (Instr.vmul, Instr.vmulVx, true, fun o x y _ => o.narrow (x * y)),
      (Instr.vmacc, Instr.vmaccVx, true, fun o x y z => o.narrow (z + x * y)),
      (Instr.vmulh, Instr.vmulhVx, false, fun o x y _ => wrapTo o.w (x * y / 2 ^ o.w)),
      (Instr.vdiv, Instr.vdivVx, false, fun o x y _ => if y = 0 then 2 ^ o.wd - 1 else o.narrow (x.tdiv y)),
      (Instr.vrem, Instr.vremVx, false, fun o x y _ => wrapTo o.wd (if y = 0 then x else x.tmod y)),
      (Instr.vmin, Instr.vminVx, false, fun o x y _ => wrapTo o.w (min x y)),
      (Instr.vmax, Instr.vmaxVx, false, fun o x y _ => wrapTo o.w (max x y)),
      (Instr.vand, Instr.vandVx, false, fun o x y _ => wrapTo o.w x &&& wrapTo o.w y),
      (Instr.vor, Instr.vorVx, false, fun o x y _ => wrapTo o.w x ||| wrapTo o.w y),
      (Instr.vxor, Instr.vxorVx, false, fun o x y _ => wrapTo o.w x ^^^ wrapTo o.w y),
      (Instr.vsll, Instr.vsllVx, false, fun o x y _ => wrapTo o.w (x * (2 ^ (wrapTo o.w y % o.w) : Nat))),
      (Instr.vsrl, Instr.vsrlVx, false, fun o x y _ => wrapTo o.w x / 2 ^ (wrapTo o.w y % o.w)),
      (Instr.vsra, Instr.vsraVx, false, fun o x y _ => wrapTo o.w (sextNat (wrapTo o.w x) o.w / (2 ^ (wrapTo o.w y % o.w) : Nat)))]) ∧
      o = t.ctx.intOp ∧
      ¬ ((isInt o.t && isInt o.u && (e.2.2.1 || o.t == o.u) && modeScale t.ctx.mode == 0) = true ∧ t.vlFits (max o.w o.wd) = true) ∧
      (w = if (isInt o.t && isInt o.u && (e.2.2.1 || o.t == o.u) && modeScale t.ctx.mode == 0) then BitVec.ofNat 64 t.ctx.vl else t.ctx.mode.setWidth 64) :=
  ⟨dev (th fun c => { c with mode := 0x14000A, vl := 4 }), th fun c => { c with mode := 0x14000A, vl := 4 }, 1, 2,
    3, false, false, _, _, _,
    ⟨⟨ready_of rfl (by decide +kernel), calm_of (by decide +kernel), by decide +kernel⟩, rfl⟩, .head _, rfl,
    by decide +kernel, rfl⟩

theorem meets_VectorInteger_vidx_done :
    ∃ (s : State) (t : Thread) (d : BitVec 6) (st : BitVec 12) (p : BitVec 8),
      VecQuiet s t ∧ (isInt (modeDtype t.ctx.mode) && modeScale t.ctx.mode == 0) = true ∧ t.vlFits t.ctx.dw = true :=
  ⟨dev (th fun c => { c with mode := 0x40002, vl := 4 }), th fun c => { c with mode := 0x40002, vl := 4 }, 1, 0, 0,
    ⟨⟨ready_of rfl (by decide +kernel), calm_of (by decide +kernel), by decide +kernel⟩, rfl⟩, by decide +kernel,
    by decide +kernel⟩

theorem meets_VectorInteger_vrng_done :
    ∃ (s : State) (t : Thread) (d a : BitVec 6),
      VecQuiet s t ∧
      ((modeDtype t.ctx.mode == 2 || modeDtype t.ctx.mode == 6 || modeDtype t.ctx.mode == 3 || modeDtype t.ctx.mode == 7)
      && modeScale t.ctx.mode == 0) = true ∧
      t.vlFits t.ctx.dw = true :=
  ⟨dev (th fun c => { c with mode := 0x40002, vl := 4 }), th fun c => { c with mode := 0x40002, vl := 4 }, 1, 2,
    ⟨⟨ready_of rfl (by decide +kernel), calm_of (by decide +kernel), by decide +kernel⟩, rfl⟩, by decide +kernel,
    by decide +kernel⟩

theorem meets_VectorFloat_bin :
    ∃ (s : State) (t : Thread) (d a b : BitVec 6) (c g : Bool) (e : (BitVec 6 → BitVec 6 → BitVec 6 → Bool → Bool → Instr) × (BitVec 6 → BitVec 6 → BitVec 6 → Bool → Instr) × Bool × (FloatOp → Nat → Val → Val → Val → Rounded)) (o : FloatOp),
      VecQuiet s t ∧
      (e ∈ [
      (Instr.vfadd, Instr.vfaddVx, false, fun o i x y _ => o.out i (x.add o.rnd y)),
      (Instr.vfsub, Instr.vfsubVx, false, fun o i x y _ => o.out i (x.add o.rnd y.negate)),
      (Instr.vfmul, Instr.vfmulVx, false, fun o i x y _ => o.out i (x.mul y)),
      (Instr.vfma, Instr.vfmaVx, true, fun o i x y c => o.g.fma o.rnd false (o.draw i) x y c),
      (Instr.vfms, Instr.vfmsVx, true, fun o i x y c => o.g.fma o.rnd false (o.draw i) x y c.negate),
      (Instr.vfnma, Instr.vfnmaVx, true, fun o i x y c => o.g.fma o.rnd false (o.draw i) x.negate y c.negate),
      (Instr.vfnms, Instr.vfnmsVx, true, fun o i x y c => o.g.fma o.rnd false (o.draw i) x.negate y c),
      (Instr.vfdiv, Instr.vfdivVx, false, fun o i x y _ => o.g.div o.rnd false (o.draw i) x y),
      (Instr.vfmin, Instr.vfminVx, false, fun o i x y c => opVfmin o i x y c 0),
      (Instr.vfmax, Instr.vfmaxVx, false, fun o i x y c => opVfmax o i x y c 0)]) ∧
      (isFloat (modeStype t.ctx.mode) && isFloat (modeDtype t.ctx.mode) && t.ctx.sw ≤ t.ctx.dw && modeScale t.ctx.mode == 0) = true ∧
      t.vlFits (max t.ctx.sw t.ctx.dw) = true ∧ o = t.ctx.floatOp :=
  ⟨dev (th fun c => { c with mode := 0x14000A, vl := 4 }), th fun c => { c with mode := 0x14000A, vl := 4 }, 1, 2,
    3, false, false, _, _, ⟨⟨ready_of rfl (by decide +kernel), calm_of (by decide +kernel), by decide +kernel⟩, rfl⟩,
    .head _, by decide +kernel, by decide +kernel, rfl⟩

theorem meets_VectorFloat_un :
    ∃ (s : State) (t : Thread) (d a : BitVec 6) (c : Bool) (e : (BitVec 6 → BitVec 6 → Bool → Instr) × (FloatOp → Nat → Val → Rounded)) (o : FloatOp),
      VecQuiet s t ∧
      (e ∈ [
      (Instr.vfsqrt, fun o i x => o.g.sqrt o.rnd false (o.draw i) x),
      (Instr.vfrec, fun o i x => o.g.div o.rnd false (o.draw i) (.fin false 1 0) x),
      (Instr.vfabs, fun o i x => signRounded o i (if x.negative then x.negate else x)),
      (Instr.vfneg, fun o i x => signRounded o i x.negate),
      (Instr.vfrint, fun o i x => opVfrint o i x x x 0),
      (Instr.vfexp2, fun o i x => opVfexp2 o i x x x 0)]) ∧
      (isFloat (modeStype t.ctx.mode) && isFloat (modeDtype t.ctx.mode) && t.ctx.sw ≤ t.ctx.dw && modeScale t.ctx.mode == 0) = true ∧
      t.vlFits (max t.ctx.sw t.ctx.dw) = true ∧ o = t.ctx.floatOp :=
  ⟨dev (th fun c => { c with mode := 0x14000A, vl := 4 }), th fun c => { c with mode := 0x14000A, vl := 4 }, 1, 2,
    false, _, _, ⟨⟨ready_of rfl (by decide +kernel), calm_of (by decide +kernel), by decide +kernel⟩, rfl⟩, .head _,
    by decide +kernel, by decide +kernel, rfl⟩

theorem meets_VectorFloat_scale :
    ∃ (s : State) (t : Thread) (d a b : BitVec 6) (c g : Bool) (o : FloatOp),
      VecQuiet s t ∧
      (isFloat (modeStype t.ctx.mode) && isFloat (modeDtype t.ctx.mode) && t.ctx.sw ≤ t.ctx.dw && modeScale t.ctx.mode == 0) = true ∧
      t.vlFits (max t.ctx.sw t.ctx.dw) = true ∧ o = t.ctx.floatOp :=
  ⟨dev (th fun c => { c with mode := 0x14000A, vl := 4 }), th fun c => { c with mode := 0x14000A, vl := 4 }, 1, 2,
    3, false, false, _, ⟨⟨ready_of rfl (by decide +kernel), calm_of (by decide +kernel), by decide +kernel⟩, rfl⟩,
    by decide +kernel, by decide +kernel, rfl⟩

theorem meets_VectorFloat_vfclass_done :
    ∃ (s : State) (t : Thread) (d a : BitVec 6) (c : Bool),
      VecQuiet s t ∧
      (isFloat (modeStype t.ctx.mode) && isInt (modeDtype t.ctx.mode) && 16 ≤ t.ctx.dw && modeScale t.ctx.mode == 0) = true ∧
      t.vlFits (max t.ctx.sw t.ctx.dw) = true :=
  ⟨dev (th fun c => { c with mode := 0x140002, vl := 4 }), th fun c => { c with mode := 0x140002, vl := 4 }, 1, 2,
    false, ⟨⟨ready_of rfl (by decide +kernel), calm_of (by decide +kernel), by decide +kernel⟩, rfl⟩,
    by decide +kernel, by decide +kernel⟩

theorem meets_VectorCompare_cmp :
    ∃ (s : State) (t : Thread) (d a b : BitVec 6) (c g : Bool) (e : (BitVec 6 → BitVec 6 → BitVec 6 → Bool → Bool → Instr) × Cmp),
      VecQuiet s t ∧
      (e ∈ [
      (Instr.vcmpEq, { int := fun x y => x == y, float := fun _ eq _ => eq, quietNV := false, needsFloat := false }),
      (Instr.vcmpNe, { int := fun x y => x != y, float := fun _ eq _ => !eq, quietNV := false, needsFloat := false }),
      (Instr.vcmpLt, { int := fun x y => x < y, float := fun lt _ _ => lt, quietNV := true, needsFloat := false }),
      (Instr.vcmpLe, { int := fun x y => x ≤ y, float := fun lt eq _ => lt || eq, quietNV := true, needsFloat := false }),
      (Instr.vcmpGt, { int := fun x y => x > y, float := fun lt eq un => !lt && !eq && !un, quietNV := true, needsFloat := false }),
      (Instr.vcmpGe, { int := fun x y => x ≥ y, float := fun lt _ un => !lt && !un, quietNV := true, needsFloat := false }),
      (Instr.vcmpUn, { int := fun _ _ => false, float := fun _ _ un => un, quietNV := false, needsFloat := true })]) ∧
      (modeScale t.ctx.mode == 0 && (!e.2.needsFloat || isFloat (modeStype t.ctx.mode))) = true ∧
      t.vlFits t.ctx.sw = true :=
  ⟨dev (th fun c => { c with mode := 0x40002, vl := 4 }), th fun c => { c with mode := 0x40002, vl := 4 }, 1, 2, 3,
    false, false, _, ⟨⟨ready_of rfl (by decide +kernel), calm_of (by decide +kernel), by decide +kernel⟩, rfl⟩,
    .head _, by decide +kernel, by decide +kernel⟩

theorem meets_Predicates_logic :
    ∃ (s : State) (t : Thread) (d a b : BitVec 6) (e : (BitVec 6 → BitVec 6 → BitVec 6 → Instr) × (Bool → Bool → Bool)),
      VecQuiet s t ∧
      (e ∈ [(Instr.pand, fun x y => x && y), (Instr.por, fun x y => x || y), (Instr.pxor, fun x y => x != y), (Instr.pandn, fun x y => x && !y)]) :=
  ⟨dev (th fun c => { c with mode := 0x40002, vl := 4 }), th fun c => { c with mode := 0x40002, vl := 4 }, 1, 2, 3,
    _, ⟨⟨ready_of rfl (by decide +kernel), calm_of (by decide +kernel), by decide +kernel⟩, rfl⟩, .head _⟩

theorem meets_Predicates_pwhile_done :
    ∃ (s : State) (t : Thread) (d a b : BitVec 6),
      VecQuiet s t :=
  ⟨dev (th fun c => { c with mode := 0x40002, vl := 4 }), th fun c => { c with mode := 0x40002, vl := 4 }, 1, 2, 3,
    ⟨⟨ready_of rfl (by decide +kernel), calm_of (by decide +kernel), by decide +kernel⟩, rfl⟩⟩

theorem meets_Predicates_pcnt_done :
    ∃ (s : State) (t : Thread) (d a : BitVec 6),
      VecQuiet s t :=
  ⟨dev (th fun c => { c with mode := 0x40002, vl := 4 }), th fun c => { c with mode := 0x40002, vl := 4 }, 1, 2,
    ⟨⟨ready_of rfl (by decide +kernel), calm_of (by decide +kernel), by decide +kernel⟩, rfl⟩⟩

theorem meets_Predicates_pfirst_done :
    ∃ (s : State) (t : Thread) (d a : BitVec 6),
      VecQuiet s t :=
  ⟨dev (th fun c => { c with mode := 0x40002, vl := 4 }), th fun c => { c with mode := 0x40002, vl := 4 }, 1, 2,
    ⟨⟨ready_of rfl (by decide +kernel), calm_of (by decide +kernel), by decide +kernel⟩, rfl⟩⟩

theorem meets_Conversions_vcvt_done :
    ∃ (s : State) (t : Thread) (d a : BitVec 6) (c : Bool),
      VecQuiet s t ∧ (modeScale t.ctx.mode == 0) = true ∧ t.vlFits (max t.ctx.sw t.ctx.dw) = true :=
  ⟨dev (th fun c => { c with mode := 0x40002, vl := 4 }), th fun c => { c with mode := 0x40002, vl := 4 }, 1, 2,
    false, ⟨⟨ready_of rfl (by decide +kernel), calm_of (by decide +kernel), by decide +kernel⟩, rfl⟩,
    by decide +kernel, by decide +kernel⟩

theorem meets_Conversions_vqnt_done :
    ∃ (s : State) (t : Thread) (d a : BitVec 6) (c : Bool),
      VecQuiet s t ∧
      (wideFloat (modeStype t.ctx.mode) && scalable (modeDtype t.ctx.mode) && modeScale t.ctx.mode != 0) = true ∧
      t.vlFits (max t.ctx.sw t.ctx.dw) = true :=
  ⟨dev (th fun c => { c with mode := 0x14008D, vl := 4 }), th fun c => { c with mode := 0x14008D, vl := 4 }, 1, 2,
    false, ⟨⟨ready_of rfl (by decide +kernel), calm_of (by decide +kernel), by decide +kernel⟩, rfl⟩,
    by decide +kernel, by decide +kernel⟩

theorem meets_Conversions_vdqnt_done :
    ∃ (s : State) (t : Thread) (d a : BitVec 6) (c : Bool),
      VecQuiet s t ∧
      (scalable (modeStype t.ctx.mode) && wideFloat (modeDtype t.ctx.mode) && modeScale t.ctx.mode != 0) = true ∧
      t.vlFits (max t.ctx.sw t.ctx.dw) = true :=
  ⟨dev (th fun c => { c with mode := 0x1A008A, vl := 4 }), th fun c => { c with mode := 0x1A008A, vl := 4 }, 1, 2,
    false, ⟨⟨ready_of rfl (by decide +kernel), calm_of (by decide +kernel), by decide +kernel⟩, rfl⟩,
    by decide +kernel, by decide +kernel⟩

theorem meets_Conversions_vbscale_done :
    ∃ (s : State) (t : Thread) (d a : BitVec 6) (c : Bool) (val : Nat → Val) (bs : List (Nat × List Nat)),
      VecQuiet s t ∧
      (wideFloat (modeStype t.ctx.mode) && scalable (modeDtype t.ctx.mode) && modeScale t.ctx.mode != 0) = true ∧
      t.vlFits (max t.ctx.sw t.ctx.dw) = true ∧ (val = fun i => t.ctx.conv.value (getElem (t.ctx.vAt a) i t.ctx.sw)) ∧
      bs = (blocksOf (modeBlk t.ctx.mode) t.ctx.vl t.ctx.active).filter (!·.2.isEmpty) :=
  ⟨dev (th fun c => { c with mode := 0x14008D, vl := 4 }), th fun c => { c with mode := 0x14008D, vl := 4 }, 1, 2,
    false, _, _, ⟨⟨ready_of rfl (by decide +kernel), calm_of (by decide +kernel), by decide +kernel⟩, rfl⟩,
    by decide +kernel, by decide +kernel, rfl, rfl⟩

theorem meets_Conversions_vbsmax_done :
    ∃ (s : State) (t : Thread) (d a : BitVec 6) (c : Bool) (out : List (Nat × Rounded)),
      VecQuiet s t ∧
      (isFloat (modeStype t.ctx.mode) && isFloat (modeDtype t.ctx.mode) && modeScale t.ctx.mode == 0) = true ∧
      t.vlFits (max t.ctx.sw t.ctx.dw) = true ∧
      (out = (blocksOf (modeBlk t.ctx.mode) t.ctx.vl t.ctx.active).map fun b =>
      (b.1, blockMax (floatFmt t.ctx.fmt (modeDtype t.ctx.mode)) (modeRnd t.ctx.mode) (t.ctx.conv.draw b.1)
        (b.2.map fun i => t.ctx.conv.value (getElem (t.ctx.vAt a) i t.ctx.sw)))) :=
  ⟨dev (th fun c => { c with mode := 0x14000A, vl := 4 }), th fun c => { c with mode := 0x14000A, vl := 4 }, 1, 2,
    false, _, ⟨⟨ready_of rfl (by decide +kernel), calm_of (by decide +kernel), by decide +kernel⟩, rfl⟩,
    by decide +kernel, by decide +kernel, rfl⟩

theorem meets_Reductions_int :
    ∃ (s : State) (t : Thread) (d a b : BitVec 6) (c : Bool) (e : (BitVec 6 → BitVec 6 → BitVec 6 → Bool → Instr) × Red) (o : Conv),
      VecQuiet s t ∧
      e ∈ [(Instr.vredo, Red.ordered), (Instr.vredt, Red.tree),
      (Instr.vredmin, Red.least), (Instr.vredmax, Red.greatest)] ∧
      o = t.ctx.conv ∧ isInt o.u = true ∧
      (isInt o.t == isInt o.u && o.w ≤ o.wd && o.rnd != 5 && modeScale t.ctx.mode == 0) = true ∧
      t.vlFits (max o.w o.wd) = true :=
  ⟨dev (th fun c => { c with mode := 0x40002, vl := 4 }), th fun c => { c with mode := 0x40002, vl := 4 }, 1, 2, 3,
    false, _, _, ⟨⟨ready_of rfl (by decide +kernel), calm_of (by decide +kernel), by decide +kernel⟩, rfl⟩, .head _,
    rfl, by decide +kernel, by decide +kernel, (by decide +kernel)⟩

theorem meets_Reductions_float :
    ∃ (s : State) (t : Thread) (d a b : BitVec 6) (c : Bool) (e : (BitVec 6 → BitVec 6 → BitVec 6 → Bool → Instr) × Red) (o : Conv) (v : Rounded),
      VecQuiet s t ∧
      e ∈ [(Instr.vredo, Red.ordered), (Instr.vredt, Red.tree),
      (Instr.vredmin, Red.least), (Instr.vredmax, Red.greatest)] ∧
      o = t.ctx.conv ∧ isInt o.u = false ∧
      (isInt o.t == isInt o.u && o.w ≤ o.wd && o.rnd != 5 && modeScale t.ctx.mode == 0) = true ∧
      t.vlFits (max o.w o.wd) = true ∧
      (v = reduceFloat e.2 o ((t.ctx.xAt b).toNat % 2 ^ o.wd) ((List.range t.ctx.vl).map fun i =>
      if t.ctx.active.contains i then some (o.value (getElem (t.ctx.vAt a) i o.w)) else none)) :=
  ⟨dev (th fun c => { c with mode := 0x14000A, vl := 4 }), th fun c => { c with mode := 0x14000A, vl := 4 }, 1, 2,
    3, false, _, _, _, ⟨⟨ready_of rfl (by decide +kernel), calm_of (by decide +kernel), by decide +kernel⟩, rfl⟩,
    .head _, rfl, by decide +kernel, by decide +kernel, (by decide +kernel), rfl⟩

theorem meets_Reductions_ordered_add :
    ∃ (o : Conv) (init : Nat) (xs : List (Option Val)) (v : Val) (g : Fmt) (s q : Rounded),
      g = floatFmt o.fmt o.u ∧ s = reduceFloat .ordered o init xs ∧
      q = roundVal g o.rnd false 0 ((g.value s.1).add o.rnd v) :=
  ⟨redConv, 0, [], .fin false 1 0, _, _, _, rfl, rfl, rfl⟩

theorem meets_Reductions_level :
    ∃ (g : Fmt) (rnd : Rnd) (l : List (Option Val)) (k : Nat) (a b : Option Val),
      2 * k < l.length ∧ a = l[2 * k]?.getD none ∧ b = l[2 * k + 1]?.getD none :=
  ⟨fp32, 0, [none, none], 0, _, _, by decide +kernel, rfl, rfl⟩

theorem meets_Reductions_tree_levels :
    ∃ (g : Fmt) (rnd : Rnd) (l : List (Option Val)) (t : List (Option Val) × Flags),
      1 < l.length ∧ l.length ≤ 2 ^ 17 ∧ t = treeLevel g rnd l :=
  ⟨fp32, 0, [none, none], _, by decide +kernel, by decide +kernel, rfl⟩

theorem meets_Reductions_tree_none :
    ∃ (o : Conv) (init : Nat) (xs : List (Option Val)) (fl : Flags),
      treeSum (floatFmt o.fmt o.u) o.rnd 17 xs = (none, fl) :=
  ⟨redConv, 0, [], 0, by decide +kernel⟩

theorem meets_Reductions_tree_init :
    ∃ (o : Conv) (init : Nat) (xs : List (Option Val)) (v : Val) (fl : Flags) (g : Fmt) (q : Rounded),
      g = floatFmt o.fmt o.u ∧ treeSum g o.rnd 17 xs = (some v, fl) ∧
      q = roundVal g o.rnd false 0 ((g.value init).add o.rnd v) :=
  ⟨redConv, 0, [some (.fin false 1 0)], .fin false 1 0, 0, _, _, rfl, by decide +kernel, rfl⟩

theorem meets_Reductions_int_sum :
    ∃ (o : Conv) (init : Nat) (xs : List Nat) (k : Red),
      (k = .ordered ∨ k = .tree) :=
  ⟨redConv, 0, [], .ordered, .inl rfl⟩

theorem meets_Reductions_int_extreme :
    ∃ (o : Conv) (init : Nat) (xs : List Nat) (all : List Int),
      all = intValue o.u o.wd init :: xs.map (intValue o.t o.w) :=
  ⟨redConv, 0, [], _, rfl⟩

theorem meets_Reductions_int_order :
    ∃ (o : Conv) (init : Nat) (xs ys : List Nat) (k : Red),
      xs.Perm ys :=
  ⟨redConv, 0, [], [], .ordered, .refl _⟩

theorem meets_Reductions_float_extreme :
    ∃ (o : Conv) (init : Nat) (xs : List (Option Val)) (vs : List Val) (i : Val) (g : Fmt) (fl : Flags) (k : Red) (least : Bool) (best : Val),
      vs = xs.filterMap id ∧ g = floatFmt o.fmt o.u ∧ i = g.value init ∧
      (fl = if i.snan || vs.any (·.snan) then fNV else 0) ∧ (k = .least ∧ least = true ∨ k = .greatest ∧ least = false) ∧
      best = vs.foldl (Val.pick least) i :=
  ⟨redConv, 0, [], _, _, _, _, .least, true, _, rfl, rfl, rfl, rfl, .inl ⟨rfl, rfl⟩, rfl⟩

theorem meets_Permutes_slide :
    ∃ (s : State) (t : Thread) (d a b : BitVec 6) (c : Bool) (n : Nat),
      VecQuiet s t ∧ modeScale t.ctx.mode = 0 ∧ t.vlFits t.ctx.sw = true ∧ n = (t.ctx.xAt b).toNat :=
  ⟨dev (th fun c => { c with mode := 0x40002, vl := 4 }), th fun c => { c with mode := 0x40002, vl := 4 }, 1, 2, 3,
    false, _, ⟨⟨ready_of rfl (by decide +kernel), calm_of (by decide +kernel), by decide +kernel⟩, rfl⟩,
    by decide +kernel, by decide +kernel, rfl⟩

theorem meets_Permutes_pack :
    ∃ (s : State) (t : Thread) (d a b : BitVec 6) (c : Bool) (l : List Nat),
      VecQuiet s t ∧ modeScale t.ctx.mode = 0 ∧ t.vlFits t.ctx.sw = true ∧ modeGuard t.ctx.mode = 0 ∧
      l = (List.range t.ctx.vl).filter (t.ctx.pAt b.toNat).getLsbD :=
  ⟨dev (th fun c => { c with mode := 0x40002, vl := 4 }), th fun c => { c with mode := 0x40002, vl := 4 }, 1, 2, 3,
    false, _, ⟨⟨ready_of rfl (by decide +kernel), calm_of (by decide +kernel), by decide +kernel⟩, rfl⟩,
    by decide +kernel, by decide +kernel, (by decide +kernel), rfl⟩

theorem meets_Permutes_vgath_done :
    ∃ (s : State) (t : Thread) (d a b : BitVec 6) (c e : Bool),
      VecQuiet s t ∧ (4 ≤ modeDtype t.ctx.mode && modeDtype t.ctx.mode ≤ 7 && modeScale t.ctx.mode == 0) = true ∧
      t.vlFits (max t.ctx.sw t.ctx.dw) = true :=
  ⟨dev (th fun c => { c with mode := 0x40006, vl := 4 }), th fun c => { c with mode := 0x40006, vl := 4 }, 1, 2, 3,
    false, false, ⟨⟨ready_of rfl (by decide +kernel), calm_of (by decide +kernel), by decide +kernel⟩, rfl⟩,
    by decide +kernel, by decide +kernel⟩

theorem meets_Permutes_vbcast_done :
    ∃ (s : State) (t : Thread) (d a : BitVec 6),
      VecQuiet s t ∧ modeScale t.ctx.mode = 0 ∧ t.vlFits t.ctx.sw = true :=
  ⟨dev (th fun c => { c with mode := 0x40002, vl := 4 }), th fun c => { c with mode := 0x40002, vl := 4 }, 1, 2,
    ⟨⟨ready_of rfl (by decide +kernel), calm_of (by decide +kernel), by decide +kernel⟩, rfl⟩, by decide +kernel,
    by decide +kernel⟩

theorem meets_Permutes_vext_done :
    ∃ (s : State) (t : Thread) (d a b : BitVec 6) (c : Bool) (x : Nat),
      VecQuiet s t ∧ modeScale t.ctx.mode = 0 ∧ t.vlFits t.ctx.sw = true ∧
      (x = if (t.ctx.xAt b).toNat < t.ctx.vl then getElem (t.ctx.vAt a) (t.ctx.xAt b).toNat t.ctx.sw else 0) :=
  ⟨dev (th fun c => { c with mode := 0x40002, vl := 4 }), th fun c => { c with mode := 0x40002, vl := 4 }, 1, 2, 3,
    false, _, ⟨⟨ready_of rfl (by decide +kernel), calm_of (by decide +kernel), by decide +kernel⟩, rfl⟩,
    by decide +kernel, by decide +kernel, rfl⟩

theorem meets_Permutes_vins_done :
    ∃ (s : State) (t : Thread) (d a b : BitVec 6),
      VecQuiet s t ∧ modeScale t.ctx.mode = 0 ∧ t.vlFits t.ctx.sw = true :=
  ⟨dev (th fun c => { c with mode := 0x40002, vl := 4 }), th fun c => { c with mode := 0x40002, vl := 4 }, 1, 2, 3,
    ⟨⟨ready_of rfl (by decide +kernel), calm_of (by decide +kernel), by decide +kernel⟩, rfl⟩, by decide +kernel,
    by decide +kernel⟩

theorem meets_Rounding_div_rounds :
    ∃ (f : Fmt) (rnd : Rnd) (sat : Bool) (z : Nat) (s1 s2 : Bool) (m1 m2 : Nat) (e1 e2 : Int),
      f.m ≤ 64 ∧ m2 ≠ 0 :=
  ⟨fp32, 0, false, 0, false, false, 1, 3, 0, 0, by decide +kernel, by decide +kernel⟩

theorem meets_Rounding_sqrt_rounds :
    ∃ (f : Fmt) (rnd : Rnd) (sat : Bool) (z m : Nat) (e : Int),
      f.m ≤ 64 ∧ m ≠ 0 :=
  ⟨fp32, 0, false, 0, 2, 0, by decide +kernel, by decide +kernel⟩

theorem meets_Rounding_zeros :
    ∃ (rnd : Rnd) (s1 s2 : Bool) (m : Nat) (e1 e2 : Int),
      m ≠ 0 :=
  ⟨0, false, false, 1, 0, 0, by decide +kernel⟩

theorem meets_Rounding_specials :
    ∃ (f : Fmt) (rnd : Rnd) (sat : Bool) (z : Nat) (x : Val) (s t g : Bool) (m : Nat) (e : Int),
      x.isNan = false ∧ m ≠ 0 :=
  ⟨fp32, 0, false, 0, .inf false, false, false, false, 1, 0, by decide +kernel, by decide +kernel⟩

theorem meets_Rounding_overflow :
    ∃ (f : Fmt) (neg sat up : Bool) (rnd : Rnd),
      f.Sound ∧ (up = true ↔ rnd = 0 ∨ 4 ≤ rnd ∨ (rnd = 2 ∧ neg = true) ∨ (rnd = 3 ∧ neg = false)) :=
  ⟨fp32, false, false, true, 0, sound_fp32, by decide +kernel⟩

theorem meets_Rounding_value_finite :
    ∃ (f : Fmt) (neg : Bool) (k : Nat),
      f.Sound ∧ k ≤ f.maxCode :=
  ⟨fp32, false, 0, sound_fp32, Nat.zero_le _⟩

theorem meets_Rounding_value_special :
    ∃ (f : Fmt) (neg : Bool) (k : Nat),
      f.Sound ∧ f.maxCode < k ∧ k < 2 ^ (f.e + f.m) :=
  ⟨fp16, false, 0x7C00, sound_fp16, by decide +kernel, by decide +kernel⟩

theorem meets_Rounding_sound :
    ∃ (w : Word),
      fmtOk w = true :=
  ⟨0x70343, by decide +kernel⟩

theorem meets_Rounding_roundInt_rounds :
    ∃ (rnd : Rnd) (z : Nat) (neg : Bool) (m : Nat) (e : Int) (x : ℝ) (n : Nat),
      x = m * (2 : ℝ) ^ e ∧ n ≤ x ∧ x < (n + 1 : Nat) :=
  ⟨0, 0, false, 3, -1, 1.5, 1, by norm_num, by norm_num, by norm_num⟩

theorem meets_Rounding_toint :
    ∃ (rnd : Rnd) (z : Nat) (t : TypeCode) (w : Nat) (s : Bool) (m : Nat) (e n : Int) (nx : Bool),
      roundInt rnd z s m e = (n, nx) :=
  ⟨0, 0, 0, 8, false, 1, 0, 1, false, by decide +kernel⟩

theorem meets_VirtualProcessors_vfetch_done :
    ∃ (s : State) (t : Thread) (n : BitVec 5) (o : BitVec 19) (pc : Word),
      Quiet s t ∧ pc = t.ctx.pc + word (o.toInt * 4) :=
  ⟨dev (th fun c => { c with mode := 0x40002, vl := 4 }), th fun c => { c with mode := 0x40002, vl := 4 }, 0, 0, _,
    ⟨ready_of rfl (by decide +kernel), calm_of (by decide +kernel), by decide +kernel⟩, rfl⟩

theorem meets_VirtualProcessors_vpsync_done :
    ∃ (s : State) (t : Thread),
      Quiet s t :=
  ⟨dev th, th, ⟨ready_of rfl (by decide +kernel), calm_of (by decide +kernel), by decide +kernel⟩⟩

theorem meets_VirtualProcessors_vpstop_done :
    ∃ (s : State) (t : Thread) (i : Nat) (e : VpPc),
      VpReady s t i e ∧ Calm s t ∧ tsorted t.ctx.vps = true ∧ (opened s t).counted.goesOn t.limit = true :=
  ⟨{ dev (th fun c => { c with mode := 0x40002, vl := 4, vps := [(1, { pc := 0x40100, last := some 0x40110 })] }) with actor := .vp 0 1 },
    th fun c => { c with mode := 0x40002, vl := 4, vps := [(1, { pc := 0x40100, last := some 0x40110 })] }, 1,
    { pc := 0x40100, last := some 0x40110 }, vpReady_of rfl (by decide +kernel), calm_of (by decide +kernel),
    by decide +kernel, by decide +kernel⟩

theorem meets_VirtualProcessors_vpbr_done :
    ∃ (s : State) (t : Thread) (i : Nat) (e : VpPc) (v : BitVec 6) (o : BitVec 18),
      VpReady s t i e ∧ Calm s t ∧ t.ctx.streams = [] ∧ (opened s t).counted.goesOn t.limit = true ∧
      t.vlFits t.ctx.sw = true :=
  ⟨{ dev (th fun c => { c with mode := 0x40002, vl := 4, vps := [(1, { pc := 0x40100, last := some 0x40110 })] }) with actor := .vp 0 1 },
    th fun c => { c with mode := 0x40002, vl := 4, vps := [(1, { pc := 0x40100, last := some 0x40110 })] }, 1,
    { pc := 0x40100, last := some 0x40110 }, 1, 0, vpReady_of rfl (by decide +kernel), calm_of (by decide +kernel),
    by decide +kernel, by decide +kernel, (by decide +kernel)⟩

theorem meets_VirtualProcessors_elem :
    ∃ (s : State) (t : Thread) (i : Nat) (e : VpPc) (d a b : BitVec 6) (c g : Bool) (o : IntOp),
      VpReady s t i e ∧ Calm s t ∧ t.ctx.streams = [] ∧ (opened s t).counted.goesOn t.limit = true ∧ o = t.ctx.intOp ∧
      (isInt o.t && isInt o.u && modeScale t.ctx.mode == 0) = true ∧ t.vlFits (max o.w o.wd) = true :=
  ⟨{ dev (th fun c => { c with mode := 0x40002, vl := 4, vps := [(1, { pc := 0x40100, last := some 0x40110 })] }) with actor := .vp 0 1 },
    th fun c => { c with mode := 0x40002, vl := 4, vps := [(1, { pc := 0x40100, last := some 0x40110 })] }, 1,
    { pc := 0x40100, last := some 0x40110 }, 1, 2, 3, false, false, _, vpReady_of rfl (by decide +kernel),
    calm_of (by decide +kernel), by decide +kernel, by decide +kernel, rfl, by decide +kernel, by decide +kernel⟩

theorem meets_VirtualProcessors_control :
    ∃ (s : State) (t : Thread) (i : Nat) (e : VpPc) (d a b : BitVec 6) (x : Instr),
      VpReady s t i e ∧ x ∈ [.add d a b, .setvl d a, .ecall, .jal d 0, .vfetch 1 0, .vmv d a false] :=
  ⟨{ dev (th fun c => { c with mode := 0x40002, vl := 4, vps := [(1, { pc := 0x40100, last := some 0x40110 })] }) with actor := .vp 0 1 },
    th fun c => { c with mode := 0x40002, vl := 4, vps := [(1, { pc := 0x40100, last := some 0x40110 })] }, 1,
    { pc := 0x40100, last := some 0x40110 }, 1, 2, 3, _, vpReady_of rfl (by decide +kernel), .head _⟩

theorem meets_VirtualProcessors_thread :
    ∃ (s : State) (t : Thread) (v : BitVec 6) (o : BitVec 18) (x : Instr),
      Ready s t ∧ x ∈ [.vpstop, .vpbr v o] :=
  ⟨dev th, th, 1, 0, _, ready_of rfl (by decide +kernel), .head _⟩

theorem meets_VectorLoads_vld :
    ∃ (s : State) (t : Thread) (d a b : BitVec 6) (g : Bool) (e : Instr × VForm) (es : List Nat) (bs : List (List Byte)) (s' : State) (k : Chunk) (g' : Group),
      Ready s t ∧ Calm s t ∧ Free s t ∧ Whole s ∧
      e ∈ [(.vld d a, VForm.unit), (.vldS d a b, VForm.strided b), (.vldX d a b g, VForm.indexed b)] ∧
      (t.memReady e.2 fun _ => true) ∧ es = t.ctx.fromEstart ∧
      (∀ i ∈ es, t.ctx.sw < 8 ∨ (t.ctx.elemAt e.2 a i).1.toNat % (t.ctx.sw / 8) = 0) ∧
      (t.seeAll .load (es.map fun i => (i, elemPieces t.ctx.sw (t.ctx.elemAt e.2 a i).1 (t.ctx.elemAt e.2 a i).2)) s (opened s t) (0, []) =
      some (bs, s', k, g')) ∧
      k.counted.goesOn t.limit = true :=
  ⟨dev (th fun c => { xs [(2, 0x40100)] c with mode := 0x40002, vl := 4 }),
    th fun c => { xs [(2, 0x40100)] c with mode := 0x40002, vl := 4 }, 1, 2, 3, false, _, _, _, _, _, (_),
    ready_of rfl (by decide +kernel), calm_of (by decide +kernel), free_of (by decide +kernel), ⟨rfl, rfl⟩, .head _,
    ⟨by decide +kernel, by decide +kernel, (by decide +kernel), by decide +kernel⟩, rfl, by decide +kernel,
    some4_of (by decide +kernel), by decide +kernel⟩

theorem meets_VectorLoads_vpref_done :
    ∃ (s : State) (t : Thread) (a : BitVec 6),
      Quiet s t ∧ (modeScale t.ctx.mode == 0) = true ∧ t.vlFits t.ctx.sw = true :=
  ⟨dev (th fun c => { c with mode := 0x40002, vl := 4 }), th fun c => { c with mode := 0x40002, vl := 4 }, 1,
    ⟨ready_of rfl (by decide +kernel), calm_of (by decide +kernel), by decide +kernel⟩, by decide +kernel,
    by decide +kernel⟩

theorem meets_VectorStores_vst :
    ∃ (s : State) (t : Thread) (d a b : BitVec 6) (g : Bool) (e : Instr × VForm) (es : List Nat) (s' : State) (k : Chunk) (g' : Group),
      Ready s t ∧ Calm s t ∧ Free s t ∧ Whole s ∧
      e ∈ [(.vst d a, VForm.unit), (.vstS d a b, VForm.strided b), (.vstX d a b g, VForm.indexed b)] ∧
      (t.memReady e.2 fun _ => true) ∧ es = t.ctx.fromEstart ∧
      (∀ i ∈ es, t.ctx.sw < 8 ∨ (t.ctx.elemAt e.2 a i).1.toNat % (t.ctx.sw / 8) = 0) ∧
      (t.putAll t.ctx.sw (es.map fun i => (i, (t.ctx.elemAt e.2 a i).1, (t.ctx.elemAt e.2 a i).2, getElem (t.ctx.vAt d) i t.ctx.sw)) s (opened s t) (0, []) = some (s', k, g')) ∧
      k.counted.goesOn t.limit = true :=
  ⟨dev (th fun c => { xs [(2, 0x40100)] c with mode := 0x40002, vl := 4 }),
    th fun c => { xs [(2, 0x40100)] c with mode := 0x40002, vl := 4 }, 1, 2, 3, false, _, _, _, _, _,
    ready_of rfl (by decide +kernel), calm_of (by decide +kernel), free_of (by decide +kernel), ⟨rfl, rfl⟩, .head _,
    ⟨by decide +kernel, by decide +kernel, (by decide +kernel), by decide +kernel⟩, rfl, by decide +kernel,
    some3_of (by decide +kernel), by decide +kernel⟩

theorem meets_VectorAtomics_stays :
    ∃ (s : State) (t : Thread) (d a b : BitVec 6) (g : Bool) (e : (BitVec 6 → BitVec 6 → BitVec 6 → Bool → Instr) × AmoOp × Bool) (ms : List (Nat × Nat)) (f : Flags) (s' : State) (k : Chunk) (g' : Group),
      Ready s t ∧ Calm s t ∧ Free s t ∧ Whole s ∧
      e ∈ [
      (Instr.vamoAdd, AmoOp.add, false), (Instr.vamoAddRet, AmoOp.add, true), (Instr.vamoAnd, AmoOp.and, false), (Instr.vamoAndRet, AmoOp.and, true),
      (Instr.vamoOr, AmoOp.or, false), (Instr.vamoOrRet, AmoOp.or, true), (Instr.vamoXor, AmoOp.xor, false), (Instr.vamoXorRet, AmoOp.xor, true),
      (Instr.vamoMin, AmoOp.min, false), (Instr.vamoMinRet, AmoOp.min, true), (Instr.vamoMax, AmoOp.max, false), (Instr.vamoMaxRet, AmoOp.max, true),
      (Instr.vamoMinu, AmoOp.minu, false), (Instr.vamoMinuRet, AmoOp.minu, true), (Instr.vamoMaxu, AmoOp.maxu, false), (Instr.vamoMaxuRet, AmoOp.maxu, true),
      (Instr.vamoSwap, AmoOp.swap, false), (Instr.vamoSwapRet, AmoOp.swap, true), (Instr.vamoFadd, AmoOp.fadd, false), (Instr.vamoFaddRet, AmoOp.fadd, true)] ∧
      t.memReady (.indexed b) (vamoType e.2.1) ∧ (∀ x ∈ t.ctx.amoElems d a b, x.2.1.toNat % (t.ctx.sw / 8) = 0) ∧
      t.amoAll e.2.1 (t.ctx.sw / 8) (t.ctx.amoElems d a b) s (opened s t) (0, []) = some (ms, f, s', k, g') ∧
      (t.ctx.atHome k d a b && e.2.2) = false ∧ k.counted.goesOn t.limit = true :=
  ⟨dev (th fun c => { xs [(2, 0x40100)] c with mode := 0x40002, vl := 8 }),
    th fun c => { xs [(2, 0x40100)] c with mode := 0x40002, vl := 8 }, 1, 2, 3, false, _, _, _, _, _, (_),
    ready_of rfl (by decide +kernel), calm_of (by decide +kernel), free_of (by decide +kernel), ⟨rfl, rfl⟩, .head _,
    ⟨by decide +kernel, by decide +kernel, (by decide +kernel), by decide +kernel⟩, by decide +kernel,
    some5_of (by decide +kernel), by decide +kernel, by decide +kernel⟩

theorem meets_VectorAtomics_ends :
    ∃ (s : State) (t : Thread) (d a b : BitVec 6) (g : Bool) (e : (BitVec 6 → BitVec 6 → BitVec 6 → Bool → Instr) × AmoOp × Bool) (ms : List (Nat × Nat)) (f : Flags) (s' : State) (k : Chunk) (g' : Group),
      Ready s t ∧ Calm s t ∧ Free s t ∧ Whole s ∧
      e ∈ [
      (Instr.vamoAdd, AmoOp.add, false), (Instr.vamoAddRet, AmoOp.add, true), (Instr.vamoAnd, AmoOp.and, false), (Instr.vamoAndRet, AmoOp.and, true),
      (Instr.vamoOr, AmoOp.or, false), (Instr.vamoOrRet, AmoOp.or, true), (Instr.vamoXor, AmoOp.xor, false), (Instr.vamoXorRet, AmoOp.xor, true),
      (Instr.vamoMin, AmoOp.min, false), (Instr.vamoMinRet, AmoOp.min, true), (Instr.vamoMax, AmoOp.max, false), (Instr.vamoMaxRet, AmoOp.max, true),
      (Instr.vamoMinu, AmoOp.minu, false), (Instr.vamoMinuRet, AmoOp.minu, true), (Instr.vamoMaxu, AmoOp.maxu, false), (Instr.vamoMaxuRet, AmoOp.maxu, true),
      (Instr.vamoSwap, AmoOp.swap, false), (Instr.vamoSwapRet, AmoOp.swap, true), (Instr.vamoFadd, AmoOp.fadd, false), (Instr.vamoFaddRet, AmoOp.fadd, true)] ∧
      t.memReady (.indexed b) (vamoType e.2.1) ∧ (∀ x ∈ t.ctx.amoElems d a b, x.2.1.toNat % (t.ctx.sw / 8) = 0) ∧
      t.amoAll e.2.1 (t.ctx.sw / 8) (t.ctx.amoElems d a b) s (opened s t) (0, []) = some (ms, f, s', k, g') ∧
      e.2.2 = true ∧ t.ctx.atHome k d a b = true ∧ Spare (opened s t) ∧ (∀ c ∈ s.copies, c.tid = t.tid → c.forked = true) ∧
      s'.held (some t.tid) k.writes = false :=
  ⟨dev (th fun c => { xs [(2, 0x40100)] c with mode := 0x40002, vl := 4 }),
    th fun c => { xs [(2, 0x40100)] c with mode := 0x40002, vl := 4 }, 1, 2, 3, false, _, _, _, _, _, (_),
    ready_of rfl (by decide +kernel), calm_of (by decide +kernel), free_of (by decide +kernel), ⟨rfl, rfl⟩,
    .tail _ (.head _), ⟨by decide +kernel, by decide +kernel, (by decide +kernel), by decide +kernel⟩,
    by decide +kernel, some5_of (by decide +kernel), by decide +kernel, by decide +kernel,
    ⟨by decide +kernel, by decide +kernel, (by decide +kernel), by decide +kernel, by decide +kernel, (by decide +kernel)⟩,
    by decide +kernel, by decide +kernel⟩

theorem meets_FibreMemory_fld_done :
    ∃ (s : State) (t : Thread) (d a b : BitVec 6) (n : Nat) (bs : List (List Byte)) (s' : State) (k : Chunk) (g : Group) (f : Fibre),
      Ready s t ∧ Calm s t ∧ Free s t ∧ partFib t.part ≠ 0 ∧ (t.ctx.xAt a).toNat % 8 = 0 ∧ n = (t.ctx.xAt b).toNat ∧
      n ≤ fcapOf t.part ∧
      (t.seeAll .load ((List.range n).map fun j => (j, 8, [(t.ctx.xAt a + BitVec.ofNat 64 (8 * j)).toNat])) s (opened s t) (0, []) =
      some (bs, s', k, g)) ∧
      (f = bs.map fun b => (BitVec.ofNat 32 (natOfBytes b), BitVec.ofNat 32 (natOfBytes b / 2 ^ 32))) ∧
      (f.map (·.1)).Pairwise (· < ·) ∧ k.counted.goesOn t.limit = true :=
  ⟨dev (th fun c => { xs [(2, 0x40100), (3, 2)] c with mode := 0x14000A, vl := 0, f := c.f.set 1 [(1, 5), (2, 6)] }) [(0x40100, 0x1), (0x40104, 0x5), (0x40108, 0x2), (0x4010C, 0x6)],
    th fun c => { xs [(2, 0x40100), (3, 2)] c with mode := 0x14000A, vl := 0, f := c.f.set 1 [(1, 5), (2, 6)] }, 1,
    2, 3, _, _, _, _, _, (_), ready_of rfl (by decide +kernel), calm_of (by decide +kernel),
    free_of (by decide +kernel), by decide +kernel, by decide +kernel, rfl, by decide +kernel,
    some4_of (by decide +kernel), rfl, by decide +kernel, by decide +kernel⟩

theorem meets_FibreMemory_fst_done :
    ∃ (s : State) (t : Thread) (d a : BitVec 6) (f : Fibre) (s' : State) (k : Chunk) (g : Group),
      Ready s t ∧ Calm s t ∧ Free s t ∧ Whole s ∧ partFib t.part ≠ 0 ∧ (t.ctx.xAt a).toNat % 8 = 0 ∧
      f = t.ctx.fAt d.toNat ∧ t.ctx.startsIn f.length ∧
      (t.putAll 64 ((t.ctx.pairsFrom f.length).map fun j => (j, t.ctx.xAt a + BitVec.ofNat 64 (8 * j), 0,
      (f[j]?.getD (0, 0)).2.toNat * 2 ^ 32 + (f[j]?.getD (0, 0)).1.toNat)) s (opened s t) (0, []) = some (s', k, g)) ∧
      k.counted.goesOn t.limit = true :=
  ⟨dev (th fun c => { xs [(2, 0x40100), (3, 2)] c with mode := 0x14000A, vl := 0, f := c.f.set 1 [(1, 5), (2, 6)] }) [(0x40100, 0x1), (0x40104, 0x5), (0x40108, 0x2), (0x4010C, 0x6)],
    th fun c => { xs [(2, 0x40100), (3, 2)] c with mode := 0x14000A, vl := 0, f := c.f.set 1 [(1, 5), (2, 6)] }, 1,
    2, _, _, _, _, ready_of rfl (by decide +kernel), calm_of (by decide +kernel), free_of (by decide +kernel),
    ⟨rfl, rfl⟩, by decide +kernel, by decide +kernel, rfl, Or.inl (by decide +kernel), some3_of (by decide +kernel),
    by decide +kernel⟩

theorem meets_FibreMemory_fgath_done :
    ∃ (s : State) (t : Thread) (d a : BitVec 6) (f : Fibre) (bs : List (List Byte)) (s' : State) (k : Chunk) (g : Group),
      Ready s t ∧ Calm s t ∧ Free s t ∧ Whole s ∧ partFib t.part ≠ 0 ∧ t.ctx.arrays = true ∧
      (t.ctx.xAt a).toNat % (t.ctx.sw / 8) = 0 ∧ f = t.ctx.fAt d.toNat ∧ t.ctx.startsIn f.length ∧
      (t.seeAll .load ((t.ctx.pairsFrom f.length).map fun j =>
      (j, t.ctx.sw / 8, [(t.ctx.xAt a + BitVec.ofNat 64 ((f[j]?.getD (0, 0)).1.toNat * (t.ctx.sw / 8))).toNat])) s (opened s t)
      (0, []) = some (bs, s', k, g)) ∧
      k.counted.goesOn t.limit = true :=
  ⟨dev (th fun c => { xs [(2, 0x40100), (3, 2)] c with mode := 0x14000A, vl := 0, f := c.f.set 1 [(1, 5), (2, 6)] }) [(0x40100, 0x1), (0x40104, 0x5), (0x40108, 0x2), (0x4010C, 0x6)],
    th fun c => { xs [(2, 0x40100), (3, 2)] c with mode := 0x14000A, vl := 0, f := c.f.set 1 [(1, 5), (2, 6)] }, 1,
    2, _, _, _, _, _, ready_of rfl (by decide +kernel), calm_of (by decide +kernel), free_of (by decide +kernel),
    ⟨rfl, rfl⟩, by decide +kernel, by decide +kernel, (by decide +kernel), rfl, Or.inl (by decide +kernel),
    some4_of (by decide +kernel), by decide +kernel⟩

theorem meets_FibreMemory_fscat_done :
    ∃ (s : State) (t : Thread) (d a : BitVec 6) (f : Fibre) (s' : State) (k : Chunk) (g : Group),
      Ready s t ∧ Calm s t ∧ Free s t ∧ Whole s ∧ partFib t.part ≠ 0 ∧ t.ctx.arrays = true ∧
      (t.ctx.xAt a).toNat % (t.ctx.sw / 8) = 0 ∧ f = t.ctx.fAt d.toNat ∧ t.ctx.startsIn f.length ∧
      (∀ j ∈ t.ctx.pairsFrom f.length,
      (t.ctx.xAt a + BitVec.ofNat 64 ((f[j]?.getD (0, 0)).1.toNat * (t.ctx.sw / 8))).toNat % (t.ctx.sw / 8) = 0) ∧
      (t.putAll t.ctx.sw ((t.ctx.pairsFrom f.length).map fun j =>
      (j, t.ctx.xAt a + BitVec.ofNat 64 ((f[j]?.getD (0, 0)).1.toNat * (t.ctx.sw / 8)), 0, (f[j]?.getD (0, 0)).2.toNat)) s
      (opened s t) (0, []) = some (s', k, g)) ∧
      k.counted.goesOn t.limit = true :=
  ⟨dev (th fun c => { xs [(2, 0x40100), (3, 2)] c with mode := 0x14000A, vl := 0, f := c.f.set 1 [(1, 5), (2, 6)] }) [(0x40100, 0x1), (0x40104, 0x5), (0x40108, 0x2), (0x4010C, 0x6)],
    th fun c => { xs [(2, 0x40100), (3, 2)] c with mode := 0x14000A, vl := 0, f := c.f.set 1 [(1, 5), (2, 6)] }, 1,
    2, _, _, _, _, ready_of rfl (by decide +kernel), calm_of (by decide +kernel), free_of (by decide +kernel),
    ⟨rfl, rfl⟩, by decide +kernel, by decide +kernel, (by decide +kernel), rfl, Or.inl (by decide +kernel),
    by decide +kernel, some3_of (by decide +kernel), by decide +kernel⟩

theorem meets_FibreMemory_fwalk_done :
    ∃ (s : State) (t : Thread) (d a b : BitVec 6) (o : List Byte) (s1 : State) (k1 : Chunk) (g1 : Group) (l : Level) (p : Word) (bl bh : List Byte) (s2 s3 : State) (k2 k3 : Chunk) (g2 g3 : Group) (lo hi kk : Nat) (prev : List (List Byte)) (s4 : State) (k4 : Chunk) (g4 : Group) (m : Nat) (f : Fibre) (s' : State) (k : Chunk) (g : Group),
      Ready s t ∧ Calm s t ∧ Free s t ∧ partFib t.part ≠ 0 ∧ (t.ctx.xAt a).toNat % 32 = 0 ∧
      t.see .load 0 32 [(t.ctx.xAt a).toNat] s (opened s t) (0, []) = some (o, s1, k1, g1) ∧
      field 255 192 (natOfBytes o) = 0 ∧ l = Level.of (natOfBytes o) ∧ l.ok t.ctx ∧ t.ctx.passes 1 ∧ p = t.ctx.xAt b ∧
      t.see .load 0 4 [(l.ptr + 4 * p).toNat] s1 k1 g1 = some (bl, s2, k2, g2) ∧
      t.see .load 0 4 [(l.ptr + 4 * p + 4).toNat] s2 k2 g2 = some (bh, s3, k3, g3) ∧ lo = natOfBytes bl ∧
      hi = natOfBytes bh ∧ lo ≤ hi ∧ (kk = if t.ctx.goingOn then field 31 0 t.ctx.fprog.toNat else 0) ∧ kk ≤ hi - lo ∧
      t.seeAll .load (if kk = 0 then [] else [(0, 4, [(l.crd + BitVec.ofNat 64 (4 * (lo + kk - 1))).toNat])]) s3 k3 g3 =
      some (prev, s4, k4, g4) ∧
      m = min (fcapOf t.part) (hi - lo - kk) ∧
      (t.walkAll l.crd l.val (t.ctx.sw / 8) ((List.range m).map fun n => (n, lo + kk + n)) s4 k4 g4 = some (f, s', k, g)) ∧
      (prev.map (fun b => BitVec.ofNat 32 (natOfBytes b)) ++ f.map (·.1)).Pairwise (· < ·) ∧
      k.counted.goesOn t.limit = true :=
  ⟨dev (th fun c => { xs [(2, 0x40200)] c with mode := 0x14000A, vl := 0 }) [(0x40201, 0x3), (0x40202, 0x4), (0x40208, 0x40), (0x40209, 0x3), (0x4020A, 0x4), (0x40210, 0x80), (0x40211, 0x3), (0x40212, 0x4), (0x40304, 0x2), (0x40340, 0x1), (0x40344, 0x3), (0x40380, 0x7), (0x40384, 0x8)],
    th fun c => { xs [(2, 0x40200)] c with mode := 0x14000A, vl := 0 }, 1, 2, 3, _, _, _, _, _, (_), _, _, _, _, _, (_),
    _, _, _, _, _, (_), _, _, _, _, _, (_), _, _, ready_of rfl (by decide +kernel), calm_of (by decide +kernel),
    free_of (by decide +kernel), by decide +kernel, by decide +kernel, some4_of (by decide +kernel),
    by decide +kernel, rfl, ⟨by decide +kernel, by decide +kernel, (by decide +kernel), by decide +kernel⟩,
    Or.inl (by decide +kernel), rfl, some4_of (by decide +kernel), some4_of (by decide +kernel), rfl, rfl,
    by decide +kernel, rfl, by decide +kernel, some4_of (by decide +kernel), rfl, some4_of (by decide +kernel),
    by decide +kernel, by decide +kernel⟩

theorem meets_FibreJoins_finter_done :
    ∃ (s : State) (t : Thread) (d a b : BitVec 6) (k : BitVec 3) (out : List (BitVec 32 × Rounded)),
      Quiet s t ∧ partFib t.part ≠ 0 ∧ t.ctx.joins = true ∧
      (out = (t.ctx.fAt a.toNat).filterMap fun e => ((t.ctx.fAt b.toNat).find? (·.1 == e.1)).map fun e' =>
      (e.1, t.ctx.conv.combine k.toNat (t.ctx.conv.source e.2) (t.ctx.conv.source e'.2))) :=
  ⟨dev th, th, 1, 2, 3, 0, _, ⟨ready_of rfl (by decide +kernel), calm_of (by decide +kernel), by decide +kernel⟩,
    by decide +kernel, by decide +kernel, rfl⟩

theorem meets_FibreJoins_funion_done :
    ∃ (s : State) (t : Thread) (d a b : BitVec 6) (k : BitVec 3) (ia ib oc : Nat) (m : Fibre × Flags × List Fibre) (w : Word),
      Quiet s t ∧ partFib t.part ≠ 0 ∧ t.ctx.joins = true ∧ t.ctx.passes 2 ∧
      (ia = if t.ctx.goingOn then field 11 0 t.ctx.fprog.toNat else 0) ∧
      (ib = if t.ctx.goingOn then field 23 12 t.ctx.fprog.toNat else 0) ∧
      (oc = if t.ctx.goingOn then field 60 48 t.ctx.fprog.toNat else 0) ∧ ia ≤ (t.ctx.fAt a.toNat).length ∧
      ib ≤ (t.ctx.fAt b.toNat).length ∧
      m = mergePass t.ctx.conv k.toNat (fcapOf t.part) [(t.ctx.fAt a.toNat).drop ia, (t.ctx.fAt b.toNat).drop ib] ∧
      (w = if m.2.2.all (·.isEmpty) then 0 else
      progress 2 ((oc + fcapOf t.part) % 2 ^ 13 * 2 ^ 48 + ((t.ctx.fAt b.toNat).length - (m.2.2.getD 1 []).length) * 2 ^ 12
        + ((t.ctx.fAt a.toNat).length - (m.2.2.getD 0 []).length))) :=
  ⟨dev th, th, 1, 2, 3, 0, _, _, _, _, _,
    ⟨ready_of rfl (by decide +kernel), calm_of (by decide +kernel), by decide +kernel⟩, by decide +kernel,
    by decide +kernel, Or.inl (by decide +kernel), rfl, rfl, rfl, by decide +kernel, by decide +kernel, rfl, rfl⟩

theorem meets_FibreJoins_fmerge_done :
    ∃ (s : State) (t : Thread) (d a b : BitVec 6) (k : BitVec 3) (n oc : Nat) (cur : Nat → Nat) (ins : List (Fibre × Nat)) (m : Fibre × Flags × List Fibre) (w : Word),
      Quiet s t ∧ partFib t.part ≠ 0 ∧ t.ctx.joins = true ∧ t.ctx.passes 3 ∧ n = b.toNat - a.toNat + 1 ∧
      (cur = fun j => if t.ctx.goingOn then field (12 * j + 11) (12 * j) t.ctx.fprog.toNat else 0) ∧
      (oc = if t.ctx.goingOn then field 60 48 t.ctx.fprog.toNat else 0) ∧
      (ins = ((List.range n).map fun j => t.ctx.fAt (a + BitVec.ofNat 6 j).toNat).zip ((List.range n).map cur)) ∧
      (∀ e ∈ ins, e.2 ≤ e.1.length) ∧ (∀ j, n ≤ j → j < 4 → cur j = 0) ∧
      (m = mergePass t.ctx.conv k.toNat (fcapOf t.part) (ins.map fun e => e.1.drop e.2)) ∧
      (w = if m.2.2.all (·.isEmpty) then 0 else
      progress 3 ((oc + fcapOf t.part) % 2 ^ 13 * 2 ^ 48
        + ((ins.zip m.2.2).map fun e => e.1.1.length - e.2.length).foldr (fun c acc => c + acc * 2 ^ 12) 0)) :=
  ⟨dev th, th, 1, 2, 3, 0, _, _, _, _, _, (_),
    ⟨ready_of rfl (by decide +kernel), calm_of (by decide +kernel), by decide +kernel⟩, by decide +kernel,
    by decide +kernel, Or.inl (by decide +kernel), rfl, rfl, rfl, rfl, by decide +kernel,
    fun _ _ _ => if_neg (by decide +kernel), rfl, rfl⟩

theorem meets_FibreJoins_fcompact_done :
    ∃ (s : State) (t : Thread) (d a b : BitVec 6) (c : Bool) (i oc : Nat) (es : List Nat) (w : Word),
      VecQuiet s t ∧ partFib t.part ≠ 0 ∧ t.denseReady = true ∧ t.ctx.passes 4 ∧
      (i = if t.ctx.goingOn then field 15 0 t.ctx.fprog.toNat else 0) ∧
      (oc = if t.ctx.goingOn then field 31 16 t.ctx.fprog.toNat else 0) ∧ i ≤ t.ctx.vl ∧
      (es = t.ctx.active.filter fun e => i ≤ e && (t.ctx.pAt b.toNat).getLsbD e) ∧
      (w = match es.drop (fcapOf t.part) with
      | [] => 0
      | e :: _ => progress 4 ((oc + fcapOf t.part) % 2 ^ 16 * 2 ^ 16 + e)) :=
  ⟨dev (th fun c => { c with mode := 0x40002, vl := 4 }), th fun c => { c with mode := 0x40002, vl := 4 }, 1, 2, 3,
    false, _, _, _, _, ⟨⟨ready_of rfl (by decide +kernel), calm_of (by decide +kernel), by decide +kernel⟩, rfl⟩,
    by decide +kernel, by decide +kernel, Or.inl (by decide +kernel), rfl, rfl, by decide +kernel, rfl, rfl⟩

theorem meets_FibreJoins_fexpand_done :
    ∃ (s : State) (t : Thread) (d a : BitVec 6),
      VecQuiet s t ∧ partFib t.part ≠ 0 ∧ t.denseReady = true :=
  ⟨dev (th fun c => { c with mode := 0x40002, vl := 4 }), th fun c => { c with mode := 0x40002, vl := 4 }, 1, 2,
    ⟨⟨ready_of rfl (by decide +kernel), calm_of (by decide +kernel), by decide +kernel⟩, rfl⟩, by decide +kernel,
    by decide +kernel⟩

theorem meets_FibreJoins_flen_done :
    ∃ (s : State) (t : Thread) (d a : BitVec 6),
      Quiet s t ∧ partFib t.part ≠ 0 :=
  ⟨dev th, th, 1, 2, ⟨ready_of rfl (by decide +kernel), calm_of (by decide +kernel), by decide +kernel⟩,
    by decide +kernel⟩

theorem meets_FibreJoins_fclr_done :
    ∃ (s : State) (t : Thread) (d : BitVec 6),
      Quiet s t ∧ partFib t.part ≠ 0 :=
  ⟨dev th, th, 1, ⟨ready_of rfl (by decide +kernel), calm_of (by decide +kernel), by decide +kernel⟩,
    by decide +kernel⟩

theorem meets_FibreJoins_fcopy_done :
    ∃ (s : State) (t : Thread) (d a : BitVec 6),
      Quiet s t ∧ partFib t.part ≠ 0 :=
  ⟨dev th, th, 1, 2, ⟨ready_of rfl (by decide +kernel), calm_of (by decide +kernel), by decide +kernel⟩,
    by decide +kernel⟩

theorem meets_FibreJoins_absent :
    ∃ (s : State) (t : Thread) (d a : BitVec 6) (x : Instr),
      Quiet s t ∧ partFib t.part = 0 ∧ x ∈ [.flen d a, .fclr d, .fcopy d a] :=
  ⟨dev (th id fun t => { t with part := 0x00C41008 }), th id fun t => { t with part := 0x00C41008 }, 1, 2, _,
    ⟨ready_of rfl (by decide +kernel), calm_of (by decide +kernel), by decide +kernel⟩, by decide +kernel, .head _⟩

theorem meets_TileOperations_mattach_done :
    ∃ (s : State) (t : Thread) (d a : BitVec 6) (g : Nat),
      Idle s t ∧ attachOk (t.ctx.xAt a) = true ∧ t.mgrant = 0 ∧
      g = s.grantFor t (attachMost (t.ctx.xAt a)) (attachLeast (t.ctx.xAt a)) (2 ^ attachCode (t.ctx.xAt a)) :=
  ⟨dev (th (xs [(2, 0x0208)])), th (xs [(2, 0x0208)]), 1, 2, _,
    ⟨ready_of rfl (by decide +kernel), calm_of (by decide +kernel), rfl, rfl, by decide +kernel⟩, by decide +kernel,
    by decide +kernel, rfl⟩

theorem meets_TileOperations_mdetach_done :
    ∃ (s : State) (t : Thread),
      Idle s t ∧ t.tileQueue = [] :=
  ⟨dev th, th, ⟨ready_of rfl (by decide +kernel), calm_of (by decide +kernel), rfl, rfl, by decide +kernel⟩,
    by decide +kernel⟩

theorem meets_TileOperations_mmode_done :
    ∃ (s : State) (t : Thread) (d a : BitVec 6),
      Quiet s t ∧
      (field 63 10 (t.ctx.xAt a).toNat == 0 && !(t.ctx.xAt a).getLsbD 2
      && !(mmBsep (t.ctx.xAt a) && 21 ≤ mmBtype (t.ctx.xAt a))) = true :=
  ⟨dev th, th, 1, 2, ⟨ready_of rfl (by decide +kernel), calm_of (by decide +kernel), by decide +kernel⟩,
    by decide +kernel⟩

theorem meets_TileOperations_mzero_done :
    ∃ (s : State) (t : Thread) (k : BitVec 2),
      Quiet s t ∧ t.hasTile k = true :=
  ⟨dev (th (xs [(2, 0x10000)]) fun t => { t with mgrant := 8, tiles := 1 }),
    th (xs [(2, 0x10000)]) fun t => { t with mgrant := 8, tiles := 1 }, 0,
    ⟨ready_of rfl (by decide +kernel), calm_of (by decide +kernel), by decide +kernel⟩, by decide +kernel⟩

theorem meets_TileOperations_mldaV_done :
    ∃ (s : State) (t : Thread) (k : BitVec 2) (a b : BitVec 6) (c : Bool) (w : Word),
      VecQuiet s t ∧ t.hasTile k = true ∧ w = t.ctx.xAt b ∧ moveOk w false t.tileHeight = true ∧ moveN w * 256 ≤ t.vlmax :=
  ⟨dev (th (xs [(2, 0x10000)]) fun t => { t with mgrant := 8, tiles := 1 }),
    th (xs [(2, 0x10000)]) fun t => { t with mgrant := 8, tiles := 1 }, 0, 1, 2, false, _,
    ⟨⟨ready_of rfl (by decide +kernel), calm_of (by decide +kernel), by decide +kernel⟩, rfl⟩, by decide +kernel,
    rfl, by decide +kernel, by decide +kernel⟩

theorem meets_TileOperations_mldaS_done :
    ∃ (s : State) (t : Thread) (k : BitVec 2) (a b : BitVec 6) (w v : Word) (xs : List Nat) (s' : State) (k' : Chunk),
      Ready s t ∧ Calm s t ∧ Free s t ∧ t.hasTile k = true ∧ w = t.ctx.xAt b ∧ moveOk w false t.tileHeight = true ∧
      v = t.ctx.xAt a ∧ spanOk v = true ∧ (∀ i < moveN w, t.scratchFits s (spanBase v + i * spanPitch v) 1024) ∧
      (t.scratchAll ((List.range (moveN w)).map fun i => (spanBase v + i * spanPitch v, 1024)) s (opened s t) = some (xs, s', k')) ∧
      k'.counted.goesOn t.limit = true :=
  ⟨dev (th (xs [(3, 0x10000)]) fun t => { t with mgrant := 8, tiles := 1 }),
    th (xs [(3, 0x10000)]) fun t => { t with mgrant := 8, tiles := 1 }, 0, 2, 3, _, _, _, _, _,
    ready_of rfl (by decide +kernel), calm_of (by decide +kernel), free_of (by decide +kernel), by decide +kernel,
    rfl, by decide +kernel, rfl, by decide +kernel, (by unfold Thread.scratchFits; decide +kernel),
    some3_of (by decide +kernel), by decide +kernel⟩

theorem meets_TileOperations_mstaV_done :
    ∃ (s : State) (t : Thread) (k : BitVec 2) (a b : BitVec 6) (w : Word),
      VecQuiet s t ∧ t.tilesDone = true ∧ t.hasTile k = true ∧ w = t.ctx.xAt b ∧ moveOk w false t.tileHeight = true ∧
      moveN w * 256 ≤ t.vlmax :=
  ⟨dev (th (xs [(2, 0x10000)]) fun t => { t with mgrant := 8, tiles := 1 }),
    th (xs [(2, 0x10000)]) fun t => { t with mgrant := 8, tiles := 1 }, 0, 1, 2, _,
    ⟨⟨ready_of rfl (by decide +kernel), calm_of (by decide +kernel), by decide +kernel⟩, rfl⟩, by decide +kernel,
    by decide +kernel, rfl, by decide +kernel, by decide +kernel⟩

theorem meets_TileOperations_mstaS_done :
    ∃ (s : State) (t : Thread) (k : BitVec 2) (a b : BitVec 6) (w v : Word),
      Ready s t ∧ Calm s t ∧ t.hasTile k = true ∧ w = t.ctx.xAt b ∧ moveOk w true t.tileHeight = true ∧ v = t.ctx.xAt a ∧
      spanOk v = true ∧ (∀ i < moveN w, t.scratchFits s (spanBase v + i * spanPitch v) 1024) ∧
      (moveN w ≤ 1 ∨ 1024 ≤ spanPitch v) ∧ (opened s t).counted.goesOn t.limit = true :=
  ⟨dev (th (xs [(3, 0x10000)]) fun t => { t with mgrant := 8, tiles := 1 }),
    th (xs [(3, 0x10000)]) fun t => { t with mgrant := 8, tiles := 1 }, 0, 2, 3, _, _,
    ready_of rfl (by decide +kernel), calm_of (by decide +kernel), by decide +kernel, rfl, by decide +kernel, rfl,
    by decide +kernel, (by unfold Thread.scratchFits; decide +kernel), .inl (by decide +kernel), by decide +kernel⟩

theorem meets_TileOperations_mop :
    ∃ (s : State) (t : Thread) (pm : BitVec 4) (k : BitVec 2) (x y : BitVec 6) (c g : Bool) (e : Instr × MopArg × MopArg) (m : MopType) (na nb : Nat) (xs ys : List Nat) (s1 s2 : State) (k1 k2 : Chunk),
      Ready s t ∧ Calm s t ∧ Free s t ∧
      e ∈ [(.mopVv pm k x y c g, .v x, .v y), (.mopSv pm k x y g, .s x, .v y), (.mopSs pm k x y, .s x, .s y)] ∧
      t.mopReady s pm k e.2.1 e.2.2 m na nb ∧
      t.argCodes e.2.1 (typeWidth t.ctx.fmt m.ta) na s (opened s t) = some (xs, s1, k1) ∧
      t.argCodes e.2.2 (typeWidth t.ctx.fmt m.tb) nb s1 k1 = some (ys, s2, k2) ∧ k2.counted.goesOn t.limit = true :=
  ⟨dev (th (fun c => { c with mode := 0x10000A }) fun t => { t with mgrant := 8, tiles := 1 }),
    th (fun c => { c with mode := 0x10000A }) fun t => { t with mgrant := 8, tiles := 1 }, 0, 0, 1, 2, false, false,
    _, { ta := 8, tb := 8, g := 1, kind := .fused }, 8, 256, _, _, _, _, _, (_), ready_of rfl (by decide +kernel),
    calm_of (by decide +kernel), free_of (by decide +kernel), .head _,
    ⟨by decide +kernel, by decide +kernel, (by decide +kernel), by decide +kernel, by decide +kernel, (by decide +kernel), (by decide +kernel : 8 * 16 ≤ _), (by decide +kernel : 256 * 16 ≤ _), by decide +kernel, by decide +kernel, rfl⟩,
    some3_of (by decide +kernel), some3_of (by decide +kernel), by decide +kernel⟩

theorem meets_TileOperations_mprune_done :
    ∃ (s : State) (t : Thread) (d a b : BitVec 6) (c : Bool) (val : Nat → Val) (kept : List Nat),
      VecQuiet s t ∧ modeGuard t.ctx.mode = 0 ∧ t.ctx.sw ≤ 32 ∧ modeScale t.ctx.mode = 0 ∧ t.ctx.vl % 8 = 0 ∧
      t.vlFits t.ctx.sw = true ∧
      (val = fun i => operandValue t.ctx.fmt (modeStype t.ctx.mode) t.ctx.sw (getElem (t.ctx.vAt a) i t.ctx.sw) none) ∧
      (kept = (List.range (t.ctx.vl / 8)).flatMap fun g => keepFour val (8 * g)) :=
  ⟨dev (th fun c => { c with mode := 0x40002, vl := 8 }), th fun c => { c with mode := 0x40002, vl := 8 }, 1, 2, 3,
    false, _, _, ⟨⟨ready_of rfl (by decide +kernel), calm_of (by decide +kernel), by decide +kernel⟩, rfl⟩,
    by decide +kernel, by decide +kernel, (by decide +kernel), by decide +kernel, by decide +kernel, rfl, rfl⟩

theorem meets_TileOperations_zero_performed :
    ∃ (t : Thread) (k H : Nat),
      sortedFrom 0 t.rows = true ∧ H = t.mgrant / t.tiles :=
  ⟨th id fun t => { t with tileQueue := [.zero 0] }, 0, _, by decide +kernel, rfl⟩

theorem meets_TileOperations_load_performed :
    ∃ (t : Thread) (k row0 H : Nat) (rows : List Row),
      sortedFrom 0 t.rows = true ∧ H = t.mgrant / t.tiles :=
  ⟨th id fun t => { t with tileQueue := [.zero 0] }, 0, 0, _, [], by decide +kernel, rfl⟩

theorem meets_TileOperations_mop_performed :
    ∃ (t : Thread) (k g H : Nat) (a b : Array Val) (keep : Option PReg) (kind : MopKind) (es : Nat → List Entered),
      sortedFrom 0 t.rows = true ∧ H = t.mgrant / t.tiles ∧ (es = fun r => mopRow g a b keep kind r (t.row (k * H + r))) :=
  ⟨th id fun t => { t with tileQueue := [.zero 0] }, 0, 1, _, #[], #[], none, .fused, _, by decide +kernel, rfl,
    rfl⟩

theorem meets_TileOperations_drain_performed :
    ∃ (t : Thread) (k row0 n H : Nat) (d : Drain),
      H = t.mgrant / t.tiles :=
  ⟨th id fun t => { t with tileQueue := [.zero 0] }, 0, 0, 1, _, aDrain 0 1, rfl⟩

theorem meets_TileOperations_mopRow_at :
    ∃ (g : Nat) (a b : Array Val) (keep : Option PReg) (kind : MopKind) (r : Nat) (row : Row) (c : Nat),
      c < 256 :=
  ⟨1, #[], #[], none, .fused, 0, 0, 0, by decide +kernel⟩

theorem meets_TileOperations_kept :
    ∃ (g r : Nat) (p : PReg) (ks : List Nat),
      (ks = (List.range g).filter fun k => p.getLsbD (r * g + k)) :=
  ⟨1, 0, 0, _, rfl⟩

theorem meets_TileOperations_fused_step :
    ∃ (acc : Nat) (ps : List (Val × Val)) (p : Val × Val) (e : Entered) (r : Rounded),
      e = enterFused acc ps ∧ r = fp32.fma 0 false 0 p.1 p.2 (fp32.value e.code) :=
  ⟨0, [], (.fin false 1 0, .fin false 1 0), _, _, rfl, rfl⟩

theorem meets_TileOperations_window_sum :
    ∃ (ps : List Val) (emax : Int) (sticky : Bool),
      (∀ v ∈ ps, ∃ s m e, v = .fin s m e) ∧ (∃ v ∈ ps, v.isZero = false) ∧ (∃ v ∈ ps, (2 : ℝ) ^ emax ≤ |v.real|) ∧
      (∀ v ∈ ps, |v.real| < (2 : ℝ) ^ (emax + 1)) ∧ (sticky = true ↔ ∃ v ∈ ps, windowCut emax v.real ≠ v.real) :=
  ⟨[.fin false 1 0], 0, false, one_fin, ⟨_, .head _, rfl⟩, one_low, one_high, one_whole⟩

theorem meets_TileOperations_window_enters :
    ∃ (acc : Nat) (ps : List (Val × Val)) (q : Val × Flags) (r : Rounded),
      (q = windowSum (ps.map fun p => (p.1.mul p.2).1)) ∧ r = roundVal fp32 0 false 0 ((fp32.value acc).add 0 q.1) :=
  ⟨0, [], _, _, rfl, rfl⟩

theorem meets_TileOperations_int_enters :
    ∃ (sat : Bool) (acc : Nat) (ps : List (Val × Val)) (vs : List Val) (x : Int),
      (vs = ps.map fun p => (p.1.mul p.2).1) ∧ x = intValue 2 32 acc + sumInt vs :=
  ⟨false, 0, [], _, _, rfl, rfl⟩

theorem meets_Copies_cpy_done :
    ∃ (s : State) (t : Thread) (own : Bool) (d a b : BitVec 6) (va req : Word) (o : Nat) (sp dp : Plat) (sbase dbase : Word) (bar : Option Nat) (s1 s2 s3 s4 : State) (k1 k2 k3 k4 : Chunk),
      Ready s t ∧ Calm s t ∧ Free s t ∧ va = t.ctx.xAt a ∧ req = t.ctx.xAt b ∧ CopyTakes false va req o sp dp sbase dbase ∧
      t.reads (readRec va.toNat 128) s (opened s t) o s1 k1 ∧
      t.reads (readLocal false (copySplat o)) s1 k1 (sp, sbase) s2 k2 ∧
      t.reads (readLocal true (copyDplat o)) s2 k2 (dp, dbase) s3 k3 ∧ t.reads (copyBarrier (copyBar o)) s3 k3 bar s4 k4 ∧
      s4.copyEntry t.coreNum t.tid = some own ∧ (k4.issued (copyTag req)).counted.goesOn t.limit = true :=
  ⟨dev (th (xs [(2, 0x40100), (3, 4)])) [(0x40100, 0x80), (0x40101, 0x1), (0x40102, 0x4), (0x40109, 0x2), (0x4010A, 0x4), (0x40180, 0x1), (0x40181, 0x22), (0x401A8, 0x4), (0x401F9, 0x10), (0x401FA, 0x4), (0x40200, 0x1), (0x40201, 0x22), (0x40228, 0x4), (0x40279, 0x20), (0x4027A, 0x4)],
    th (xs [(2, 0x40100), (3, 4)]), true, 1, 2, 3, _, _, 0x40180 + 0x40200 * 2 ^ 64, plat4 0 0x41000,
    plat4 0 0x42000, 0x41000, 0x42000, none, _, _, _, _, _, (_), _, _, ready_of rfl (by decide +kernel),
    calm_of (by decide +kernel), free_of (by decide +kernel), rfl, rfl,
    ⟨by decide +kernel, by decide +kernel, (by decide +kernel), by decide +kernel, by decide +kernel, (by decide +kernel), by decide +kernel, by decide +kernel, (by decide +kernel), inside_of (a := [0]) (b := [3]) (by decide +kernel) ⟨⟨by decide +kernel, by decide +kernel, (by decide +kernel)⟩, ⟨by decide +kernel, by decide +kernel, (by decide +kernel)⟩⟩⟩,
    reads_val (reader_readRec _ _) (by decide +kernel), reads_val (reader_readLocal _ _) (by decide +kernel),
    reads_val (reader_readLocal _ _) (by decide +kernel), reads_val (reader_copyBarrier _) (by decide +kernel),
    by decide +kernel, by decide +kernel⟩

theorem meets_Copies_cpym_done :
    ∃ (s : State) (t : Thread) (own : Bool) (d a b : BitVec 6) (va req : Word) (o : Nat) (sp dp : Plat) (sbase dbase : Word) (bar : Option Nat) (s1 s2 s3 s4 : State) (k1 k2 k3 k4 : Chunk),
      Ready s t ∧ Calm s t ∧ Free s t ∧ va = t.ctx.xAt a ∧ req = t.ctx.xAt b ∧ CopyTakes true va req o sp dp sbase dbase ∧
      t.reads (readRec va.toNat 128) s (opened s t) o s1 k1 ∧
      t.reads (readLocal false (copySplat o)) s1 k1 (sp, sbase) s2 k2 ∧
      t.reads (readLocal true (copyDplat o)) s2 k2 (dp, dbase) s3 k3 ∧ t.reads (copyBarrier (copyBar o)) s3 k3 bar s4 k4 ∧
      standCount s4 t.tid (copyStand req) ≠ 0 ∧ s4.copyEntry t.coreNum t.tid = some own ∧
      (k4.issued (copyTag req)).counted.goesOn t.limit = true :=
  ⟨cpymDev [(0x40100, 0x80), (0x40101, 0x1), (0x40102, 0x4), (0x40109, 0x2), (0x4010A, 0x4), (0x40180, 0x1), (0x40181, 0x22), (0x401A8, 0x4), (0x401F9, 0x10), (0x401FA, 0x4), (0x40200, 0x1), (0x40201, 0x22), (0x40228, 0x4), (0x40279, 0x20), (0x4027A, 0x4)],
    tCpym, true, 1, 2, 3, _, _, 0x40180 + 0x40200 * 2 ^ 64, plat4 0 0x41000, plat4 0 0x42000, 0x41000, 0x42000, none,
    _, _, _, _, _, (_), _, _, ready_of rfl (by decide +kernel), calm_of (by decide +kernel),
    free_of (by decide +kernel), rfl, rfl,
    ⟨by decide +kernel, by decide +kernel, (by decide +kernel), by decide +kernel, by decide +kernel, (by decide +kernel), by decide +kernel, by decide +kernel, (by decide +kernel), inside_of (a := [0]) (b := [3]) (by decide +kernel) ⟨⟨by decide +kernel, by decide +kernel, (by decide +kernel)⟩, ⟨by decide +kernel, by decide +kernel, (by decide +kernel)⟩⟩⟩,
    reads_val (reader_readRec _ _) (by decide +kernel), reads_val (reader_readLocal _ _) (by decide +kernel),
    reads_val (reader_readLocal _ _) (by decide +kernel), reads_val (reader_copyBarrier _) (by decide +kernel),
    by decide +kernel, by decide +kernel, (by decide +kernel)⟩

theorem meets_Copies_smode_done :
    ∃ (s : State) (t : Thread) (d a : BitVec 6) (n : Nat) (va : Word) (o : Nat) (s1 : State) (k1 : Chunk) (p : Stream),
      Ready s t ∧ Calm s t ∧ Free s t ∧ n = t.ctx.phys d.toNat ∧ 56 ≤ n ∧ va = t.ctx.xAt a ∧ va.toNat % 64 = 0 ∧
      t.reads (readRec va.toNat 64) s (opened s t) o s1 k1 ∧
      p = Stream.decode s1.nextId (typeWidth t.ctx.fmt (field 324 320 o)) t.ctx.priv o ∧ streamTaken t.ctx.fmt p o = true ∧
      k1.counted.goesOn t.limit = true :=
  ⟨dev (th (xs [(2, 0x40100)])) [(0x40101, 0x2), (0x40102, 0x4), (0x40108, 0x4), (0x4010C, 0x4), (0x40110, 0x1), (0x40118, 0x1), (0x40120, 0x1), (0x40128, 0x2)],
    th (xs [(2, 0x40100)]), 56, 2, _, _, _, _, _, (_), ready_of rfl (by decide +kernel), calm_of (by decide +kernel),
    free_of (by decide +kernel), rfl, by decide +kernel, rfl, by decide +kernel,
    reads_of (reader_readRec _ _) (by decide +kernel), rfl, by decide +kernel, by decide +kernel⟩

theorem meets_Copies_sstop_done :
    ∃ (s : State) (t : Thread) (d : BitVec 6) (n : Nat),
      Quiet s t ∧ n = t.ctx.phys d.toNat ∧ (tfind n t.ctx.streams).isSome = true :=
  ⟨dev (th fun c => { c with streams := [(56, { id := 3, base := 0x40200, count := [4, 1, 1, 1], stride := [4, 0, 0, 0], type := 2, width := 32, pos := 0, priv := false })] }),
    th fun c => { c with streams := [(56, { id := 3, base := 0x40200, count := [4, 1, 1, 1], stride := [4, 0, 0, 0], type := 2, width := 32, pos := 0, priv := false })] },
    56, _, ⟨ready_of rfl (by decide +kernel), calm_of (by decide +kernel), by decide +kernel⟩, rfl,
    by decide +kernel⟩

theorem meets_TagsAndBarriers_twaitAny_done :
    ∃ (s : State) (t : Thread) (d a : BitVec 6) (m : Word),
      Quiet s t ∧ Opening s t ∧ m = t.ctx.xAt a ∧ m ≠ 0 ∧ t.tagsClear m = true ∧ t.ctags &&& m ≠ 0 :=
  ⟨dev (th (xs [(2, 1)]) fun t => { t with ctags := 1 }), th (xs [(2, 1)]) fun t => { t with ctags := 1 }, 1, 2, _,
    ⟨ready_of rfl (by decide +kernel), calm_of (by decide +kernel), by decide +kernel⟩,
    ⟨by decide +kernel, by decide +kernel⟩, rfl, by decide +kernel, by decide +kernel, (by decide +kernel)⟩

theorem meets_TagsAndBarriers_twaitAll_done :
    ∃ (s : State) (t : Thread) (d a : BitVec 6) (m : Word),
      Quiet s t ∧ Opening s t ∧ m = t.ctx.xAt a ∧ t.tagsClear m = true ∧ t.ctags &&& m = m :=
  ⟨dev th, th, 1, 2, _, ⟨ready_of rfl (by decide +kernel), calm_of (by decide +kernel), by decide +kernel⟩,
    ⟨by decide +kernel, by decide +kernel⟩, rfl, by decide +kernel, by decide +kernel⟩

theorem meets_TagsAndBarriers_tffr_done :
    ∃ (s : State) (t : Thread) (d a : BitVec 6) (m : Word),
      Quiet s t ∧ m = t.ctx.xAt a ∧ t.tagsClear m = true :=
  ⟨dev th, th, 1, 2, _, ⟨ready_of rfl (by decide +kernel), calm_of (by decide +kernel), by decide +kernel⟩, rfl,
    by decide +kernel⟩

theorem meets_TagsAndBarriers_barinit_done :
    ∃ (s : State) (t : Thread) (a b : BitVec 6) (va m : Word) (l : Nat) (s1 : State) (k1 : Chunk),
      Ready s t ∧ Calm s t ∧ Free s t ∧ va = t.ctx.xAt a ∧ m = t.ctx.xAt b ∧
      t.reads (barPlace .amo va) s (opened s t) l s1 k1 ∧ m.toNat < 2 ^ 16 ∧ m ≠ 0 ∧
      (((k1.marked (l / 128)).store (writesOf l (bytesOfNat (barNew m.toNat) 16))).counted.goesOn t.limit) = true :=
  ⟨dev (th (xs [(1, 0x40100), (2, 1)])), th (xs [(1, 0x40100), (2, 1)]), 1, 2, _, _, _, _, _,
    ready_of rfl (by decide +kernel), calm_of (by decide +kernel), free_of (by decide +kernel), rfl, rfl,
    reads_of (reader_barPlace _ _) (by decide +kernel), by decide +kernel, by decide +kernel, (by decide +kernel)⟩

theorem meets_TagsAndBarriers_barexp_done :
    ∃ (s : State) (t : Thread) (a b : BitVec 6) (va n : Word) (l o : Nat) (s1 s2 : State) (k1 k2 : Chunk) (x : Nat),
      Ready s t ∧ Calm s t ∧ Free s t ∧ va = t.ctx.xAt a ∧ n = t.ctx.xAt b ∧
      t.reads (barPlace .amo va) s (opened s t) l s1 k1 ∧ n.toNat < 2 ^ 47 ∧ t.reads (readBar va l) s1 k1 o s2 k2 ∧
      x = barBalance o (sextNat o 64 + n.toNat) ∧
      ((k2.store (writesOf l (bytesOfNat x 16))).counted.goesOn t.limit) = true :=
  ⟨dev (th (xs [(1, 0x40100), (2, 1)])), th (xs [(1, 0x40100), (2, 1)]), 1, 2, _, _, _, _, _, (_), _, _, _,
    ready_of rfl (by decide +kernel), calm_of (by decide +kernel), free_of (by decide +kernel), rfl, rfl,
    reads_of (reader_barPlace _ _) (by decide +kernel), by decide +kernel,
    reads_of (reader_readBar _ _) (by decide +kernel), rfl, by decide +kernel⟩

theorem meets_TagsAndBarriers_bararr_done :
    ∃ (s : State) (t : Thread) (d a : BitVec 6) (va : Word) (l o : Nat) (s1 s2 : State) (k1 k2 : Chunk) (x : Nat),
      Ready s t ∧ Calm s t ∧ Free s t ∧ va = t.ctx.xAt a ∧ t.reads (barPlace .amo va) s (opened s t) l s1 k1 ∧
      t.reads (readBar va l) s1 k1 o s2 k2 ∧ 0 < barOwed o ∧ x = barBalance o (sextNat o 64 - 2 ^ 48) ∧
      ((k2.store (writesOf l (bytesOfNat x 16))).counted.goesOn t.limit) = true :=
  ⟨dev (th (xs [(2, 0x40100)])) [(0x40106, 0x1), (0x40108, 0x1)], th (xs [(2, 0x40100)]), 1, 2, _, _, _, _, _, (_), _,
    _, ready_of rfl (by decide +kernel), calm_of (by decide +kernel), free_of (by decide +kernel), rfl,
    reads_of (reader_barPlace _ _) (by decide +kernel), reads_of (reader_readBar _ _) (by decide +kernel),
    by decide +kernel, rfl, by decide +kernel⟩

theorem meets_TagsAndBarriers_barwait_done :
    ∃ (s : State) (t : Thread) (d a b : BitVec 6) (va v : Word) (l o : Nat) (s1 s2 : State) (k1 k2 : Chunk),
      Ready s t ∧ Calm s t ∧ Free s t ∧ Opening s t ∧ va = t.ctx.xAt a ∧ v = t.ctx.xAt b ∧
      t.reads (barPlace .load va) s (opened s t) l s1 k1 ∧ t.reads (readBar va l) s1 k1 o s2 k2 ∧
      barRound o ≠ v.toNat % 2 ^ 16 ∧ k2.counted.goesOn t.limit = true :=
  ⟨dev (th (xs [(2, 0x40100), (3, 1)])), th (xs [(2, 0x40100), (3, 1)]), 1, 2, 3, _, _, _, _, _, (_), _, _,
    ready_of rfl (by decide +kernel), calm_of (by decide +kernel), free_of (by decide +kernel),
    ⟨by decide +kernel, by decide +kernel⟩, rfl, rfl, reads_of (reader_barPlace _ _) (by decide +kernel),
    reads_of (reader_readBar _ _) (by decide +kernel), by decide +kernel, by decide +kernel⟩

theorem meets_Regions_rwb_done :
    ∃ (s : State) (t : Thread) (a b : BitVec 6) (ps : List (Access × Nat)) (s1 : State) (k1 : Chunk) (ls : List Nat) (s2 : State),
      Idle s t ∧ Free s t ∧ t.reads (rangePages .load false (t.ctx.xAt a) (t.ctx.xAt b)) s (opened s t) ps s1 k1 ∧
      ls = deviceLines ps ∧ s1.held (some t.tid) (ls ++ viewLines t.die ls) = false ∧ s2 = s1.settleCopies t.die ls :=
  ⟨dev (th (xs [(1, 0x40000), (2, 0x1000)])), th (xs [(1, 0x40000), (2, 0x1000)]), 1, 2, _, _, _, _, _,
    ⟨ready_of rfl (by decide +kernel), calm_of (by decide +kernel), rfl, rfl, by decide +kernel⟩,
    free_of (by decide +kernel), reads_of (reader_rangePages _ _ _ _) (by decide +kernel), rfl, by decide +kernel,
    rfl⟩

theorem meets_Regions_rinv_done :
    ∃ (s : State) (t : Thread) (a b : BitVec 6) (ps : List (Access × Nat)) (s1 : State) (k1 : Chunk) (ls : List Nat) (s2 : State),
      Idle s t ∧ Free s t ∧ t.reads (rangePages .load false (t.ctx.xAt a) (t.ctx.xAt b)) s (opened s t) ps s1 k1 ∧
      ls = deviceLines ps ∧ s1.held (some t.tid) (ls ++ viewLines t.die ls) = false ∧ s2 = s1.settleCopies t.die ls :=
  ⟨dev (th (xs [(1, 0x40000), (2, 0x1000)])), th (xs [(1, 0x40000), (2, 0x1000)]), 1, 2, _, _, _, _, _,
    ⟨ready_of rfl (by decide +kernel), calm_of (by decide +kernel), rfl, rfl, by decide +kernel⟩,
    free_of (by decide +kernel), reads_of (reader_rangePages _ _ _ _) (by decide +kernel), rfl, by decide +kernel,
    rfl⟩

theorem meets_Regions_rgndecl_done :
    ∃ (s : State) (t : Thread) (d a : BitVec 6) (va : Word) (p : Plat) (base : Word) (s1 : State) (k1 : Chunk) (first last : Nat) (own : List Region) (num : Nat),
      Idle s t ∧ Free s t ∧ va = t.ctx.xAt a ∧ t.reads (readLocal false va) s (opened s t) (p, base) s1 k1 ∧ p.ranks = 1 ∧
      p.spanEnd base < 2 ^ 55 ∧ first = base.toNat / 128 ∧ last = p.spanEnd base / 128 ∧
      own = (s1.regionsOf t.die).filter (·.parcel == t.parcel) ∧ own.all (fun r => !r.meets first last) = true ∧
      own.length < (s1.parcel t.parcel).rquota ∧ s1.pins (some t.tid) (spanUser t.tid t.die t.parcel first last) = false ∧
      num = lowestFree (own.map (·.num)) :=
  ⟨dev (th (xs [(2, 0x40180)])) [(0x40180, 0x1), (0x40181, 0x22), (0x401A8, 0x4), (0x401F9, 0x10), (0x401FA, 0x4)],
    th (xs [(2, 0x40180)]), 1, 2, _, plat4 0 0x41000, 0x41000, _, _, _, _, _, (_),
    ⟨ready_of rfl (by decide +kernel), calm_of (by decide +kernel), rfl, rfl, by decide +kernel⟩,
    free_of (by decide +kernel), rfl, reads_val (reader_readLocal _ _) (by decide +kernel), by decide +kernel,
    by decide +kernel, rfl, rfl, rfl, by decide +kernel, by decide +kernel, (by decide +kernel), rfl⟩

theorem meets_Regions_rgnfree_done :
    ∃ (s : State) (t : Thread) (a : BitVec 6) (r : Region) (ls : List Nat) (s1 : State),
      Idle s t ∧ Free s t ∧
      (((s.regionsOf t.die).find? fun r => r.parcel == t.parcel && r.num == (t.ctx.xAt a).toNat) = some r) ∧
      ls = s.regionCopies t.die t.parcel r.num ∧ s.held (some t.tid) (ls ++ viewLines t.die ls) = false ∧
      s.pins (some t.tid) (spanUser t.tid t.die t.parcel r.first r.last) = false ∧
      (s1 = (ls.foldl (fun s l => (s.squashView t.die l).writeBack t.die l true)
      (s.settle fun w => w.die == t.die)).squashSpan t.tid t.die t.parcel r.first r.last) :=
  ⟨{ dev th with regions := State.reset.regions.set 0 [{ tid := 0, parcel := 0, num := 0, first := 0x800, last := 0x80F }] },
    th, 1, _, _, _, ⟨ready_of rfl (by decide +kernel), calm_of (by decide +kernel), rfl, rfl, by decide +kernel⟩,
    free_of (by decide +kernel), some_of (by decide +kernel), rfl, by decide +kernel, by decide +kernel, rfl⟩

theorem meets_Regions_cways_done :
    ∃ (s : State) (t : Thread) (d a : BitVec 6) (l : Nat) (part : BitVec 32) (new lo hi : Nat) (s1 : State),
      Idle s t ∧ Free s t ∧ l = (t.ctx.xAt a).toNat ∧ part = (s.core t.coreNum).part ∧ 4 ≤ l ∧
      l ≤ partL1 part + partScr part ∧ new = partL1 part + partScr part - l ∧ lo = min (partScr part) new * 65536 ∧
      hi = max (partScr part) new * 65536 ∧ s.pins (some t.tid) (portionUser t.coreNum lo hi) = false ∧
      s1 = s.wipeScratch t.coreNum lo hi :=
  ⟨dev (th (xs [(2, 9)])), th (xs [(2, 9)]), 1, 2, _, _, _, _, _, (_),
    ⟨ready_of rfl (by decide +kernel), calm_of (by decide +kernel), rfl, rfl, by decide +kernel⟩,
    free_of (by decide +kernel), rfl, rfl, by decide +kernel, by decide +kernel, rfl, rfl, rfl, by decide +kernel,
    rfl⟩

theorem meets_Regions_dead_done :
    ∃ (s : State) (t : Thread) (a b : BitVec 6) (ps : List (Access × Nat)) (s1 : State) (k1 : Chunk) (ls : List Nat),
      Idle s t ∧ Free s t ∧ t.reads (rangePages .store true (t.ctx.xAt a) (t.ctx.xAt b)) s (opened s t) ps s1 k1 ∧
      ls = deviceLines ps ∧ s1.held (some t.tid) (ls ++ viewLines t.die ls) = false :=
  ⟨dev (th (xs [(1, 0x40000), (2, 0x1000)])), th (xs [(1, 0x40000), (2, 0x1000)]), 1, 2, _, _, _, _,
    ⟨ready_of rfl (by decide +kernel), calm_of (by decide +kernel), rfl, rfl, by decide +kernel⟩,
    free_of (by decide +kernel), reads_of (reader_rangePages _ _ _ _) (by decide +kernel), rfl, by decide +kernel⟩

theorem meets_Regions_live_done :
    ∃ (s : State) (t : Thread) (a b : BitVec 6) (ps : List (Access × Nat)) (s1 : State) (k1 : Chunk),
      Idle s t ∧ Free s t ∧ t.reads (rangePages .store true (t.ctx.xAt a) (t.ctx.xAt b)) s (opened s t) ps s1 k1 :=
  ⟨dev (th (xs [(1, 0x40000), (2, 0x1000)])), th (xs [(1, 0x40000), (2, 0x1000)]), 1, 2, _, _, _,
    ⟨ready_of rfl (by decide +kernel), calm_of (by decide +kernel), rfl, rfl, by decide +kernel⟩,
    free_of (by decide +kernel), reads_of (reader_rangePages _ _ _ _) (by decide +kernel)⟩

theorem meets_ThreadsAndStands_launch_done :
    ∃ (s : State) (t : Thread) (d a : BitVec 6) (va : Word) (o : Nat) (members : List Marks) (s1 s2 : State) (k1 k2 : Chunk),
      Ready s t ∧ Free s t ∧ Calm s t ∧ va = t.ctx.xAt a ∧ va.toNat % 64 = 0 ∧
      t.reads (readRec va.toNat 64) s (opened s t) o s1 k1 ∧
      t.reads (readStands (launchTable o).toNat (launchCount o) (field 25 17 o)) s1 k1 members s2 k2 ∧
      LaunchTakes s2 t o members ∧ s2.queued t.parcel + k2.launches.length < 4096 ∧
      (k2.launching s2.nextLaunch (launchIssued s2 t o members)).counted.goesOn t.limit = true :=
  ⟨dev (th (xs [(2, 0x40100)])) [(0x40100, 0x1), (0x40104, 0x1), (0x40112, 0x4)], th (xs [(2, 0x40100)]), 1, 2, _,
    1 + 2 ^ 32 + 0x40000 * 2 ^ 128, [], _, _, _, _, ready_of rfl (by decide +kernel), free_of (by decide +kernel),
    calm_of (by decide +kernel), rfl, by decide +kernel, reads_val (reader_readRec _ _) (by decide +kernel),
    reads_val (reader_readStands _ _ _) (by decide +kernel),
    ⟨by decide +kernel, by decide +kernel, (by decide +kernel), by decide +kernel, by decide +kernel, (by decide +kernel)⟩,
    by decide +kernel, by decide +kernel⟩

theorem meets_ThreadsAndStands_texit_done :
    ∃ (s : State) (t : Thread) (k : Chunk) (s' : State) (u : Thread),
      Ready s t ∧ t.replies = [] ∧ k = opened s t ∧ k.explicit = false ∧ t.tagsClear (~~~0) = true ∧ k.fabricOut = [] ∧
      k.tileOps = [] ∧ s.fabric.any (·.isOf t.tid) = false ∧ t.tileQueue = [] ∧ t.pending = none ∧
      s.commit { t.past with ctx := t.ctx.next, chunk := some { k.counted with exits := true, ended := true } } = some (s', u) :=
  ⟨dev th, th, _, _, _, ready_of rfl (by decide +kernel), by decide +kernel, rfl, by decide +kernel,
    by decide +kernel, (by decide +kernel), by decide +kernel, by decide +kernel, (by decide +kernel), by decide +kernel,
    some2_of (by decide +kernel)⟩

theorem meets_ThreadsAndStands_tyield_done :
    ∃ (s : State) (t : Thread) (k : Chunk) (s' : State) (u : Thread),
      Ready s t ∧ t.replies = [] ∧ k = opened s t ∧ k.explicit = false ∧ k.exits = false ∧ k.tileOps = [] ∧
      t.tileQueue = [] ∧
      s.commit { t.past with ctx := t.ctx.next, chunk := some { k.counted with yields := true, ended := true } } = some (s', u) :=
  ⟨dev th, th, _, _, _, ready_of rfl (by decide +kernel), by decide +kernel, rfl, by decide +kernel,
    by decide +kernel, (by decide +kernel), by decide +kernel, some2_of (by decide +kernel)⟩

theorem meets_ThreadsAndStands_sarrive_done :
    ∃ (s : State) (t : Thread) (d a : BitVec 6) (j : Nat) (st : Stand) (k : Chunk),
      Ready s t ∧ Free s t ∧ Calm s t ∧ j = (t.ctx.xAt a).toNat ∧ StandIs s t j st ∧
      t.hasArrived (opened s t) j st = false ∧
      k = { (opened s t).marked (standLine (launchOf t.tid) j) with arrivals := (opened s t).arrivals ++ [j] } ∧
      k.counted.goesOn t.limit = true :=
  ⟨standDev 2 0, tStand, 1, 2, _, { members := [0, 1], live := 2, arrived := 0, phase := 0, bits := [] }, _,
    ready_of rfl (by decide +kernel), free_of (by decide +kernel), calm_of (by decide +kernel), rfl,
    ⟨by decide +kernel, by decide +kernel⟩, by decide +kernel, rfl, by decide +kernel⟩

theorem meets_ThreadsAndStands_stest_done :
    ∃ (s : State) (t : Thread) (d a : BitVec 6) (j : Nat) (st : Stand),
      Ready s t ∧ Free s t ∧ Calm s t ∧ j = (t.ctx.xAt a).toNat ∧ StandIs s t j st ∧
      ((opened s t).marked (standLine (launchOf t.tid) j)).counted.goesOn t.limit = true :=
  ⟨standDev 2 0, tStand, 1, 2, _, { members := [0, 1], live := 2, arrived := 0, phase := 0, bits := [] },
    ready_of rfl (by decide +kernel), free_of (by decide +kernel), calm_of (by decide +kernel), rfl,
    ⟨by decide +kernel, by decide +kernel⟩, by decide +kernel⟩

theorem meets_ThreadsAndStands_swait_done :
    ∃ (s : State) (t : Thread) (d a b : BitVec 6) (j : Nat) (st : Stand),
      Ready s t ∧ Free s t ∧ Calm s t ∧ Opening s t ∧ j = (t.ctx.xAt a).toNat ∧ StandIs s t j st ∧
      st.phase ≠ (t.ctx.xAt b).toNat % 2 ^ 16 ∧
      ((opened s t).marked (standLine (launchOf t.tid) j)).counted.goesOn t.limit = true :=
  ⟨standDev 2 1, tStand, 1, 2, 3, _, { members := [0, 1], live := 2, arrived := 0, phase := 1, bits := [] },
    ready_of rfl (by decide +kernel), free_of (by decide +kernel), calm_of (by decide +kernel),
    ⟨by decide +kernel, by decide +kernel⟩, rfl, ⟨by decide +kernel, by decide +kernel⟩, by decide +kernel,
    by decide +kernel⟩

theorem meets_ThreadsAndStands_sbar_last :
    ∃ (s : State) (t : Thread) (d a : BitVec 6) (j : Nat) (st st' : Stand) (s1 : State),
      Idle s t ∧ Opening s t ∧ j = (t.ctx.xAt a).toNat ∧ StandIs s t j st ∧ t.hasArrived (opened s t) j st = false ∧
      t.arrivedIn = none ∧ s.held (some t.tid) [standLine (launchOf t.tid) j] = false ∧ s1 = s.arriveAt t.tid [j] ∧
      StandIs s1 t j st' ∧ st'.phase ≠ st.phase :=
  ⟨standDev 1 0, tStand, 1, 2, _, { members := [0], live := 1, arrived := 0, phase := 0, bits := [] },
    { members := [0], live := 1, arrived := 0, phase := 1, bits := [] }, _,
    ⟨ready_of rfl (by decide +kernel), calm_of (by decide +kernel), rfl, rfl, by decide +kernel⟩,
    ⟨by decide +kernel, by decide +kernel⟩, rfl, ⟨by decide +kernel, by decide +kernel⟩, by decide +kernel,
    by decide +kernel, (by decide +kernel), rfl, ⟨by decide +kernel, by decide +kernel⟩, by decide +kernel⟩

theorem meets_ThreadsAndStands_sbar_after :
    ∃ (s : State) (t : Thread) (d a : BitVec 6) (j ph : Nat) (st : Stand),
      Idle s t ∧ Opening s t ∧ j = (t.ctx.xAt a).toNat ∧ StandIs s t j st ∧ t.arrivedIn = some (j, ph, t.ctx.pc) ∧
      st.phase ≠ ph :=
  ⟨{ standDev 2 1 with threads := [(0, tStand2)] }, tStand2, 1, 2, 0, 0,
    { members := [0, 1], live := 2, arrived := 0, phase := 1, bits := [] },
    ⟨ready_of rfl (by decide +kernel), calm_of (by decide +kernel), rfl, rfl, by decide +kernel⟩,
    ⟨by decide +kernel, by decide +kernel⟩, by decide +kernel, ⟨by decide +kernel, by decide +kernel⟩,
    by decide +kernel, by decide +kernel⟩

theorem meets_Bucking_bkstart_done :
    ∃ (s : State) (t : Thread) (d a b : BitVec 6) (va req : Word) (o loc : Nat) (v : Derived) (s1 s2 s3 s4 : State) (k1 k2 k3 k4 : Chunk) (ann : Option (Nat × Nat)) (k : Chunk),
      Ready s t ∧ Free s t ∧ Calm s t ∧ va = t.ctx.xAt a ∧ req = t.ctx.xAt b ∧ va.toNat % 128 = 0 ∧
      (field 63 38 req.toNat = 0 ∧ field 31 1 req.toNat = 0) ∧ req.getLsbD 0 = false ∧
      t.reads (readRec va.toNat 128) s (opened s t) o s1 k1 ∧
      t.reads (deriveTraverse (cursorSplat o) (cursorDplat o)) s1 k1 v s2 k2 ∧ SlotFree s2 t k2 ∧ v.inbytes < 2 ^ 47 ∧
      t.reads (recPlace .store va.toNat) s2 (k2.marked (slotLine t.parcel)) loc s3 k3 ∧
      t.reads (announceTo (v.inbytes != 0 && v.rrec != 0) v.rrec) s3 k3 ann s4 k4 ∧
      k = ((((k4.announced v.inbytes ann).store (cursorWrites loc (cursorState 1 :: cursorClear ++ v.fields))).issued
      (field 37 32 req.toNat)).claiming t.parcel (claimed t v (field 37 32 req.toNat) va loc 0 0)) ∧
      k.counted.goesOn t.limit = true :=
  ⟨dev (th (xs [(2, 0x40100), (3, 2 ^ 32)])) [(0x40100, 0x80), (0x40101, 0x1), (0x40102, 0x4), (0x40109, 0x2), (0x4010A, 0x4), (0x40180, 0x1), (0x40181, 0x22), (0x401A8, 0x4), (0x401F9, 0x10), (0x401FA, 0x4), (0x40200, 0x1), (0x40201, 0x22), (0x40228, 0x4), (0x40279, 0x20), (0x4027A, 0x4)],
    th (xs [(2, 0x40100), (3, 2 ^ 32)]), 1, 2, 3, _, _, 0x40180 + 0x40200 * 2 ^ 64, 0x40100, aDerived, _, _, _, _, _,
    (_), _, _, none, _, ready_of rfl (by decide +kernel), free_of (by decide +kernel), calm_of (by decide +kernel),
    rfl, rfl, by decide +kernel, by decide +kernel, (by decide +kernel),
    reads_val (reader_readRec _ _) (by decide +kernel), reads_val (reader_deriveTraverse _ _) (by decide +kernel),
    ⟨by decide +kernel, by decide +kernel⟩, by decide +kernel, reads_val (reader_recPlace _ _) (by decide +kernel),
    reads_val (reader_announceTo _ _) (by decide +kernel), rfl, by decide +kernel⟩

theorem meets_Bucking_bkstart_plan :
    ∃ (s : State) (t : Thread) (d a b : BitVec 6) (va req : Word) (o loc : Nat) (v : Derived) (s1 s2 s3 : State) (k1 k2 k3 k : Chunk),
      Ready s t ∧ Free s t ∧ Calm s t ∧ va = t.ctx.xAt a ∧ req = t.ctx.xAt b ∧ va.toNat % 128 = 0 ∧
      (field 63 38 req.toNat = 0 ∧ field 31 1 req.toNat = 0) ∧ req.getLsbD 0 = true ∧
      t.reads (readRec va.toNat 128) s (opened s t) o s1 k1 ∧
      t.reads (deriveTraverse (cursorSplat o) (cursorDplat o)) s1 k1 v s2 k2 ∧
      t.reads (recPlace .store va.toNat) s2 k2 loc s3 k3 ∧
      k = k3.store (cursorWrites loc (cursorState 4 :: cursorClear ++ v.fields)) ∧ k.counted.goesOn t.limit = true :=
  ⟨dev (th (xs [(2, 0x40100), (3, 1)])) [(0x40100, 0x80), (0x40101, 0x1), (0x40102, 0x4), (0x40109, 0x2), (0x4010A, 0x4), (0x40180, 0x1), (0x40181, 0x22), (0x401A8, 0x4), (0x401F9, 0x10), (0x401FA, 0x4), (0x40200, 0x1), (0x40201, 0x22), (0x40228, 0x4), (0x40279, 0x20), (0x4027A, 0x4)],
    th (xs [(2, 0x40100), (3, 1)]), 1, 2, 3, _, _, 0x40180 + 0x40200 * 2 ^ 64, 0x40100, aDerived, _, _, _, _, _, (_),
    _, ready_of rfl (by decide +kernel), free_of (by decide +kernel), calm_of (by decide +kernel), rfl, rfl,
    by decide +kernel, by decide +kernel, (by decide +kernel), reads_val (reader_readRec _ _) (by decide +kernel),
    reads_val (reader_deriveTraverse _ _) (by decide +kernel), reads_val (reader_recPlace _ _) (by decide +kernel),
    rfl, by decide +kernel⟩

theorem meets_Bucking_bkresume_done :
    ∃ (s : State) (t : Thread) (d a b : BitVec 6) (va req : Word) (o loc : Nat) (v : Derived) (s1 s2 s3 : State) (k1 k2 k3 k : Chunk),
      Ready s t ∧ Free s t ∧ Calm s t ∧ va = t.ctx.xAt a ∧ req = t.ctx.xAt b ∧ va.toNat % 128 = 0 ∧
      (field 63 38 req.toNat = 0 ∧ field 31 0 req.toNat = 0) ∧ t.reads (readRec va.toNat 128) s (opened s t) o s1 k1 ∧
      t.reads (deriveTraverse (cursorSplat o) (cursorDplat o)) s1 k1 v s2 k2 ∧ resumable o v ∧ SlotFree s2 t k2 ∧
      t.reads (recPlace .store va.toNat) s2 (k2.marked (slotLine t.parcel)) loc s3 k3 ∧
      k = (((k3.store (cursorWrites loc (cursorState 1 :: cursorClear))).issued (field 37 32 req.toNat)).claiming t.parcel
      (claimed t v (field 37 32 req.toNat) va loc (field 151 128 o) (BitVec.ofNat 64 (field 319 256 o)))) ∧
      k.counted.goesOn t.limit = true :=
  ⟨dev (th (xs [(2, 0x40100), (3, 2 ^ 32)])) [(0x40100, 0x80), (0x40101, 0x1), (0x40102, 0x4), (0x40109, 0x2), (0x4010A, 0x4), (0x40113, 0x3), (0x40114, 0x1), (0x40118, 0x1), (0x40180, 0x1), (0x40181, 0x22), (0x401A8, 0x4), (0x401F9, 0x10), (0x401FA, 0x4), (0x40200, 0x1), (0x40201, 0x22), (0x40228, 0x4), (0x40279, 0x20), (0x4027A, 0x4)],
    th (xs [(2, 0x40100), (3, 2 ^ 32)]), 1, 2, 3, _, _, 0x40180 + 0x40200 * 2 ^ 64 + 3 * 2 ^ 152 + 2 ^ 160 + 2 ^ 192,
    0x40100, aDerived, _, _, _, _, _, (_), _, ready_of rfl (by decide +kernel), free_of (by decide +kernel),
    calm_of (by decide +kernel), rfl, rfl, by decide +kernel, by decide +kernel,
    reads_val (reader_readRec _ _) (by decide +kernel), reads_val (reader_deriveTraverse _ _) (by decide +kernel),
    ⟨by decide +kernel, by decide +kernel, (by decide +kernel), by decide +kernel, by decide +kernel, (by decide +kernel), by decide +kernel⟩,
    ⟨by decide +kernel, by decide +kernel⟩, reads_val (reader_recPlace _ _) (by decide +kernel), rfl,
    by decide +kernel⟩

theorem meets_Bucking_bkstat_done :
    ∃ (s : State) (t : Thread) (d a : BitVec 6),
      Ready s t ∧ Free s t ∧ Calm s t ∧ ((opened s t).marked (slotLine t.parcel)).counted.goesOn t.limit = true :=
  ⟨dev th, th, 1, 2, ready_of rfl (by decide +kernel), free_of (by decide +kernel), calm_of (by decide +kernel),
    by decide +kernel⟩

theorem meets_ChunkEvents_chunkLimitEnd_done :
    ∃ (s : State) (tid : Nat) (t : Thread) (c : Chunk),
      s.phase = .run ∧ tfind tid s.threads = some t ∧ t.ready = true ∧ t.chunk = some c ∧ c.explicit = false :=
  ⟨dev (th id fun t => { t with chunk := some { opened (dev th) th with icount := 4 } }), 0,
    th id fun t => { t with chunk := some { opened (dev th) th with icount := 4 } }, _, by decide +kernel, rfl,
    by decide +kernel, some_of (by decide +kernel), by decide +kernel⟩

theorem meets_ChunkEvents_chunkCommit_done :
    ∃ (s s' : State) (tid : Nat) (t u : Thread) (c : Chunk),
      s.phase = .run ∧ tfind tid s.threads = some t ∧ t.ready = true ∧ t.chunk = some c ∧ c.ended = true ∧
      t.pendTrap = none ∧ s.commit t = some (s', u) ∧ c.exits = false ∧ c.yields = false :=
  ⟨dev (th id fun t => { t with chunk := some { opened (dev th) th with ended := true } }), _, 0,
    th id fun t => { t with chunk := some { opened (dev th) th with ended := true } }, _, _, by decide +kernel, rfl,
    by decide +kernel, some_of (by decide +kernel), by decide +kernel, by decide +kernel,
    some2_of (by decide +kernel), by decide +kernel, by decide +kernel⟩

theorem meets_ChunkEvents_priorityCommitRequest_done :
    ∃ (s : State) (tid d : Nat) (t : Thread) (q : List Nat),
      s.phase = .run ∧ tfind tid s.threads = some t ∧ t.ready = true ∧ t.needsTicket = true ∧ s.ticket ≠ some tid ∧
      d = dieOf (t.core.getD 0) ∧ q = s.priorityQueues[d]?.getD [] ∧ tid ∉ q ∧ q.length < 48 :=
  ⟨dev (th id fun t => { t with limit := 1, squashesAtOne := 4 }), 0, _,
    th id fun t => { t with limit := 1, squashesAtOne := 4 }, _, by decide +kernel, rfl, by decide +kernel,
    by decide +kernel, (by decide +kernel), rfl, rfl, by decide +kernel, by decide +kernel⟩

theorem meets_ChunkEvents_priorityTicketPass_on :
    ∃ (s : State),
      s.phase = .run ∧ s.ticket = none ∧ s.priorityQueues[s.ticketDie]?.getD [] = [] :=
  ⟨State.reset, by decide +kernel, by decide +kernel, (by decide +kernel)⟩

theorem meets_ChunkEvents_priorityTicketPass_grant :
    ∃ (s : State) (tid : Nat) (rest : List Nat),
      s.phase = .run ∧ s.ticket = none ∧ s.priorityQueues[s.ticketDie]?.getD [] = tid :: rest :=
  ⟨{ State.reset with priorityQueues := State.reset.priorityQueues.set 0 [5] }, 5, [], by decide +kernel,
    by decide +kernel, (by decide +kernel)⟩

theorem meets_ChunkEvents_persistentRequest_done :
    ∃ (s : State) (tid line die : Nat) (t : Thread),
      s.phase = .run ∧ tfind tid s.threads = some t ∧ s.mayPersist line t = true ∧ die = dieOf (t.core.getD 0) ∧
      (s.persistent.filter (·.die == die)).length < 48 ∧ s.persistent.contains { die, tid, line } = false :=
  ⟨dev (th id fun t => { t with failures := [(0x800, 4)] }), 0, 0x800, _,
    th id fun t => { t with failures := [(0x800, 4)] }, by decide +kernel, rfl, by decide +kernel, rfl,
    by decide +kernel, by decide +kernel⟩

theorem meets_ChunkEvents_farOpPerform_cool :
    ∃ (s : State) (slice line core x : Nat) (rest : List (Nat × Nat × Nat)) (u : State),
      s.phase = .run ∧ tget [] slice s.farQueues = (line, x, core) :: rest ∧ s.farOthers slice line core rest = false ∧
      u = s.admitFar slice rest :=
  ⟨{ State.reset with farQueues := [(3, [(7, 0, 1)])] }, 3, 7, 1, 0, [], _, by decide +kernel, by decide +kernel,
    (by decide +kernel), rfl⟩

theorem meets_ChunkEvents_farOpPerform_hot :
    ∃ (s : State) (slice line core x : Nat) (rest : List (Nat × Nat × Nat)),
      s.phase = .run ∧ tget [] slice s.farQueues = (line, x, core) :: rest ∧ s.farOthers slice line core rest = true :=
  ⟨{ State.reset with farQueues := [(3, [(7, 0, 1), (7, 1, 2)])] }, 3, 7, 1, 0, [(7, 1, 2)], by decide +kernel,
    by decide +kernel, (by decide +kernel)⟩

theorem meets_ChunkEvents_deferredLoadReply_done :
    ∃ (s : State) (id : Nat) (d : Deferred),
      s.phase = .run ∧ (((s.threads.flatMap (·.2.deferred)).find? fun d => d.id == id && viewBase ≤ d.pa) = some d) :=
  ⟨dev (th id fun t => { t with deferred := [{ id := 3, dest := .x 5, va := 0x40100, pa := viewBase + 0x40100, n := 8, ext := .zero, vector := false, inChunk := false }] }),
    3, _, by decide +kernel, some_of (by decide +kernel)⟩

theorem meets_ChunkEvents_trapEntry_done :
    ∃ (s s' : State) (tid : Nat) (t u : Thread) (f : Trap),
      s.phase = .run ∧ tfind tid s.threads = some t ∧ t.ready = true ∧ t.pendTrap = some (f, none) ∧
      s.commit { t with pendTrap := none } = some (s', u) ∧ u.pending = none :=
  ⟨dev (th id fun t => { t with pendTrap := some ({ code := 1, sub := 0, val := 0 }, none) }), _, 0,
    th id fun t => { t with pendTrap := some ({ code := 1, sub := 0, val := 0 }, none) }, _,
    { code := 1, sub := 0, val := 0 }, by decide +kernel, rfl, by decide +kernel, by decide +kernel,
    some2_of (by decide +kernel), by decide +kernel⟩

theorem meets_ChunkEvents_trapEntry_vp :
    ∃ (s s' : State) (tid i : Nat) (t u : Thread) (f : Trap) (e : VpPc),
      s.phase = .run ∧ tfind tid s.threads = some t ∧ t.ready = true ∧ t.pendTrap = some (f, some i) ∧
      s.commit { t with pendTrap := none } = some (s', u) ∧ u.pending = none ∧ tfind i u.ctx.vps = some e :=
  ⟨dev (th (fun c => { c with vps := [(2, { pc := 0x40100, last := none })] }) fun t => { t with pendTrap := some ({ code := 1, sub := 0, val := 0 }, some 2) }),
    _, 0, 2,
    th (fun c => { c with vps := [(2, { pc := 0x40100, last := none })] }) fun t => { t with pendTrap := some ({ code := 1, sub := 0, val := 0 }, some 2) },
    _, { code := 1, sub := 0, val := 0 }, { pc := 0x40100, last := none }, by decide +kernel, rfl, by decide +kernel,
    by decide +kernel, some2_of (by decide +kernel), by decide +kernel, (by decide +kernel)⟩

theorem meets_ChunkEvents_asyncTrap_done :
    ∃ (s : State) (tid : Nat) (t : Thread) (p : Pending),
      s.phase = .run ∧ tfind tid s.threads = some t ∧ t.ready = true ∧ t.chunk = none ∧ t.pending = some p :=
  ⟨dev (th id fun t => { t with pending := some { trap := { code := 1, sub := 0, val := 0 }, more := false } }), 0,
    th id fun t => { t with pending := some { trap := { code := 1, sub := 0, val := 0 }, more := false } },
    { trap := { code := 1, sub := 0, val := 0 }, more := false }, by decide +kernel, rfl, by decide +kernel,
    by decide +kernel, (by decide +kernel)⟩

theorem meets_SchedulingEvents_placeThread_done :
    ∃ (s u : State) (tid : Nat) (r cores slots : List Nat) (t : Thread),
      s.phase = .run ∧ tfind tid s.threads = some t ∧ distinct (s.gangOf t) = distinct (tid :: r) ∧
      (tid :: r).length = cores.length ∧ (tid :: r).length = slots.length ∧ s.served (tid :: r) = true ∧
      ((((tid :: r).zip (cores.zip slots)).foldl
      (fun (o : Option State) (e : Nat × Nat × Nat) => o.bind fun s => s.placeOne e.1 e.2.1 e.2.2) (some s)) = some u) :=
  ⟨dev (th id fun t => { t with core := none, state := .placementReady }), _, 0, [], [1], [0],
    th id fun t => { t with core := none, state := .placementReady }, by decide +kernel, rfl, by decide +kernel,
    by decide +kernel, (by decide +kernel), by decide +kernel, some_of (by decide +kernel)⟩

theorem meets_SchedulingEvents_preempt_done :
    ∃ (s : State) (tid : Nat) (t : Thread),
      s.phase = .run ∧ tfind tid s.threads = some t ∧ t.core.isSome = true ∧ (s.victim t || s.stray t) = true ∧
      (((s.gangOf t).filter fun k => (tfind k s.threads).any (·.core.isSome)).all (fun k => (tfind k s.threads).any s.takable) = true) ∧
      (s.hasRoom ((s.gangOf t).filter fun k => (tfind k s.threads).any (·.core.isSome)).length = true) :=
  ⟨dev (th id fun t => { t with core := some 300 }), 0, th id fun t => { t with core := some 300 },
    by decide +kernel, rfl, by decide +kernel, by decide +kernel, (by decide +kernel), by decide +kernel⟩

theorem meets_SchedulingEvents_placementAging_done :
    ∃ (s : State) (tid : Nat) (t : Thread),
      s.phase = .run ∧ tfind tid s.threads = some t ∧ t.state = .placementReady ∧ t.waitSince + 2 ^ 20 < s.cycle :=
  ⟨{ dev (th id fun t => { t with core := none, state := .placementReady }) with cycle := 1048577 }, 0,
    th id fun t => { t with core := none, state := .placementReady }, by decide +kernel, rfl, by decide +kernel,
    by decide +kernel⟩

theorem meets_SchedulingEvents_blockedEvictionAge_done :
    ∃ (s : State) (tid : Nat) (t : Thread) (w : Wait),
      s.phase = .run ∧ tfind tid s.threads = some t ∧ t.core.isSome = true ∧ t.state = .runBlocked w ∧
      t.waitSince + 2 ^ 16 < s.cycle :=
  ⟨{ dev (th id fun t => { t with state := .runBlocked (.tagsAll 1) }) with cycle := 65537 }, 0,
    th id fun t => { t with state := .runBlocked (.tagsAll 1) }, .tagsAll 1, by decide +kernel, rfl,
    by decide +kernel, by decide +kernel, (by decide +kernel)⟩

theorem meets_SchedulingEvents_stripGrant_done :
    ∃ (s : State) (core top : Nat) (ws es : List Thread) (t : Thread) (w : BitVec 32),
      s.phase = .run ∧
      (ws = ((s.residents core).filter fun t => t.ready && t.pause.isNone).filter fun t => (s.nextStrip t).isSome) ∧
      top = ws.foldl (fun m t => max m t.stripBand) 0 ∧ (es = ws.filter fun t => t.stripBand == top && 0 < t.deficit) ∧
      es.isEmpty = false ∧ nextAfter (s.core core).lastGranted es = some t ∧ s.nextStrip t = some w :=
  ⟨dev tStrip [(0x40000, 0xA0), (0x40001, 0x4A), (0x40002, 0x28), (0x40003, 0x6A)], 0, _, _, _, tStrip, 0x6A284AA0,
    by decide +kernel, rfl, rfl, rfl, by decide +kernel, by decide +kernel, (by decide +kernel)⟩

theorem meets_SchedulingEvents_stripAging_done :
    ∃ (s : State) (tid n : Nat) (t : Thread),
      s.phase = .run ∧ tfind tid s.threads = some t ∧ (s.nextStrip t).isSome = true ∧ t.stripSince = some n ∧
      n + 2 ^ 20 < s.cycle :=
  ⟨{ dev tStrip [(0x40000, 0xA0), (0x40001, 0x4A), (0x40002, 0x28), (0x40003, 0x6A)] with cycle := 1048577 }, 0, 0,
    tStrip, by decide +kernel, rfl, by decide +kernel, by decide +kernel, (by decide +kernel)⟩

theorem meets_SchedulingEvents_waitSatisfied_run :
    ∃ (s : State) (tid : Nat) (t : Thread) (w : Wait),
      s.phase = .run ∧ tfind tid s.threads = some t ∧ t.state = .runBlocked w ∧ s.satisfied t w = true :=
  ⟨dev (th id fun t => { t with state := .runBlocked (.tagsAll 1), ctags := 1 }), 0,
    th id fun t => { t with state := .runBlocked (.tagsAll 1), ctags := 1 }, .tagsAll 1, by decide +kernel, rfl,
    by decide +kernel, by decide +kernel⟩

theorem meets_SchedulingEvents_waitSatisfied_saved :
    ∃ (s : State) (tid : Nat) (t : Thread) (w : Wait),
      s.phase = .run ∧ tfind tid s.threads = some t ∧ t.state = .savedBlocked w ∧ s.satisfied t w = true :=
  ⟨dev (th id fun t => { t with core := none, state := .savedBlocked (.tagsAll 1), ctags := 1 }), 0,
    th id fun t => { t with core := none, state := .savedBlocked (.tagsAll 1), ctags := 1 }, .tagsAll 1,
    by decide +kernel, rfl, by decide +kernel, by decide +kernel⟩

theorem meets_SchedulingEvents_pauseEnd_done :
    ∃ (s : State) (tid : Nat) (t : Thread) (q : Pause),
      s.phase = .run ∧ tfind tid s.threads = some t ∧ t.pause = some q ∧ q.since + 1024 ≤ s.cycle :=
  ⟨{ dev (th id fun t => { t with pause := some { since := 0, lines := [] } }) with cycle := 1024 }, 0,
    th id fun t => { t with pause := some { since := 0, lines := [] } }, { since := 0, lines := [] },
    by decide +kernel, rfl, by decide +kernel, by decide +kernel⟩

theorem meets_MemoryEvents_cacheEviction_mgd :
    ∃ (s : State) (die line : Nat) (c : MgdCopy) (s' : State),
      s.phase = .run ∧ tfind (die * 2 ^ 48 + line) s.copiesMgd = some c ∧ s.held none (viewLines die [line]) = false ∧
      s' = s.squashView die line :=
  ⟨{ State.reset with copiesMgd := [(2 ^ 48 + 0x800, { data := 5, dirty := 1 })] }, 1, 0x800,
    { data := 5, dirty := 1 }, _, by decide +kernel, by decide +kernel, (by decide +kernel), rfl⟩

theorem meets_MemoryEvents_cacheEviction_tracked :
    ∃ (s : State) (a b : Nat),
      s.phase = .run :=
  ⟨State.reset, 0, 0, by decide +kernel⟩

theorem meets_MemoryEvents_cacheEviction_cascade :
    ∃ (s : State) (line lines : Nat),
      s.phase = .run ∧ 1 ≤ lines ∧ lines ≤ 3 :=
  ⟨State.reset, 0, 3, by decide +kernel, by decide +kernel, (by decide +kernel)⟩

theorem meets_MemoryEvents_cacheEviction_coordinate :
    ∃ (s : State) (core hits : Nat),
      s.phase = .run :=
  ⟨State.reset, 0, 5, by decide +kernel⟩

theorem meets_MemoryEvents_cacheEviction_translation :
    ∃ (s : State) (unit : TlbUnit) (parcel page : Nat),
      s.phase = .run :=
  ⟨State.reset, .die 0, 0, 4, by decide +kernel⟩

theorem meets_MemoryEvents_mgdWritebackArrival_done :
    ∃ (s : State) (n : Nat) (w : WriteBack),
      s.phase = .run ∧ s.writeBacks[n]? = some w ∧
      (s.writeBacks.take n).any (fun v => v.die == w.die && v.line == w.line) = false ∧ s.held none [w.line] = false :=
  ⟨{ State.reset with writeBacks := [{ die := 1, line := 0x800, data := 5, mask := 1, poison := false }] }, 0,
    { die := 1, line := 0x800, data := 5, mask := 1, poison := false }, by decide +kernel, by decide +kernel,
    (by decide +kernel), by decide +kernel⟩

theorem meets_MemoryEvents_pageWalk_done :
    ∃ (s : State) (die parcel : Nat) (va : Word) (kind : AccessKind) (e : TlbEntry),
      s.phase = .run ∧ die < 8 ∧ (s.parcel parcel).state = 1 ∧ s.lookup parcel va.toNat (.die die) = none ∧
      s.walk parcel va.toNat (kindSub kind) = .ok e :=
  ⟨dev th, 0, 0, 0x40000, .execute, _, by decide +kernel, by decide +kernel, (by decide +kernel), by decide +kernel,
    ok_of (by decide +kernel)⟩

theorem meets_MemoryEvents_hostWrite_done :
    ∃ (s : State) (pa : Nat) (data : List (BitVec 8)),
      s.phase = .run ∧ s.hostReach pa data.length = true ∧ s.held none [pa / 128] = false :=
  ⟨hostDev, 0x100, [1, 2], by decide +kernel, by decide +kernel, (by decide +kernel)⟩

theorem meets_MemoryEvents_hostAtomic_done :
    ∃ (s u : State) (pa n : Nat) (op : AmoOp) (dword : Bool) (value expected : Word),
      s.phase = .run ∧ (n = if dword then 8 else 4) ∧ s.hostReach pa n = true ∧ pa % n = 0 ∧ pa < 2 ^ 39 ∧
      s.held none [pa / 128] = false ∧ u = (s.performArrival pa (.amo op dword value expected)).1 :=
  ⟨hostDev, _, 0x100, _, .add, true, 1, 0, by decide +kernel, rfl, by decide +kernel, by decide +kernel,
    (by decide +kernel), by decide +kernel, rfl⟩

theorem meets_MemoryEvents_hostRead_done :
    ∃ (s : State) (pa n : Nat),
      s.phase = .run ∧ s.hostReach pa n = true :=
  ⟨hostDev, 0x100, 8, by decide +kernel, by decide +kernel⟩

theorem meets_EngineEvents_tileOpPerform_done :
    ∃ (s : State) (tid : Nat) (t : Thread) (op : TileOp) (rest : List TileOp),
      s.phase = .run ∧ tfind tid s.threads = some t ∧ t.tileQueue = op :: rest ∧ t.core.isSome = true :=
  ⟨dev (th id fun t => { t with mgrant := 8, tiles := 1, tileQueue := [.zero 0] }), 0,
    th id fun t => { t with mgrant := 8, tiles := 1, tileQueue := [.zero 0] }, .zero 0, [], by decide +kernel, rfl,
    by decide +kernel, by decide +kernel⟩

theorem meets_EngineEvents_tileOpPerform_departed :
    ∃ (s : State) (tid : Nat) (t : Thread) (op : TileOp) (rest : List TileOp),
      s.phase = .run ∧ tfind tid s.threads = none ∧ tfind tid s.departed = some t ∧ t.tileQueue = op :: rest :=
  ⟨{ State.reset with departed := [(0, th id fun t => { t with tileQueue := [.zero 0] })] }, 0,
    th id fun t => { t with tileQueue := [.zero 0] }, .zero 0, [], by decide +kernel, by decide +kernel,
    (by decide +kernel), by decide +kernel⟩

theorem meets_EngineEvents_matrixDrain_empty :
    ∃ (s : State) (id n : Nat) (d : Drain),
      s.phase = .run ∧ s.drains.find? (·.id == id) = some d ∧ d.rows = [] :=
  ⟨drainDev (aDrain 0 0), 4, 0, aDrain 0 0, by decide +kernel, by decide +kernel, (by decide +kernel)⟩

theorem meets_EngineEvents_matrixDrain_fault :
    ∃ (s : State) (id n k : Nat) (d : Drain) (row : BitVec 8192) (bad : Bool),
      s.phase = .run ∧ s.drains.find? (·.id == id) = some d ∧ d.rows[n / 256]? = some (row, bad) ∧ n ∉ d.done ∧
      (List.range 4).find? (fun k => !s.scratchOk d.crew (d.off n + k)) = some k :=
  ⟨drainDev (aDrain 0x7FFC00 1), 4, 0, 0, aDrain 0x7FFC00 1, 7, false, by decide +kernel, by decide +kernel,
    (by decide +kernel), by decide +kernel, by decide +kernel⟩

theorem meets_EngineEvents_matrixDrain_done :
    ∃ (s u : State) (id n loc : Nat) (d e : Drain) (row : BitVec 8192) (bad : Bool),
      s.phase = .run ∧ s.drains.find? (·.id == id) = some d ∧ d.rows[n / 256]? = some (row, bad) ∧ n ∉ d.done ∧
      (List.range 4).find? (fun k => !s.scratchOk d.crew (d.off n + k)) = none ∧ loc = scratchLoc d.crew (d.off n) ∧
      s.held none (linesFrom loc 4) = false ∧
      u = s.engineUnit id (writesOf loc (bytesOfNat (rowCode row (n % 256)) 4)) bad ∧
      e = { d with done := mput n d.done } :=
  ⟨drainDev (aDrain 0 1), _, 4, 5, _, aDrain 0 1, _, 7, false, by decide +kernel, by decide +kernel,
    (by decide +kernel), by decide +kernel, by decide +kernel, rfl, by decide +kernel, rfl, rfl⟩

theorem meets_EngineEvents_copyStart_small :
    ∃ (s : State) (core : Nat) (c : Copy),
      s.phase = .run ∧ ((s.copiesOf core).filter (·.forked)).find? (!·.started) = some c ∧ c.slots ≤ copySlots ∧
      ((((s.copiesOf core).filter (·.forked)).filter (·.started)).map (·.slots)).sum + c.slots ≤ copySlots :=
  ⟨copyDev { aCopy with started := false }, 0, { aCopy with started := false }, by decide +kernel,
    by decide +kernel, (by decide +kernel), by decide +kernel⟩

theorem meets_EngineEvents_copyStart_large :
    ∃ (s : State) (core : Nat) (c : Copy),
      s.phase = .run ∧ ((s.copiesOf core).filter (·.forked)).find? (!·.started) = some c ∧ copySlots < c.slots ∧
      ((((s.copiesOf core).filter (·.forked)).filter (·.started)).map (·.slots)).sum = 0 :=
  ⟨copyDev { aCopy with started := false, slots := copySlots + 1 }, 0,
    { aCopy with started := false, slots := copySlots + 1 }, by decide +kernel, by decide +kernel, (by decide +kernel),
    by decide +kernel⟩

theorem meets_EngineEvents_copyElement_done :
    ∃ (s : State) (id n : Nat) (c : Copy),
      s.phase = .run ∧ c.Moves s id n :=
  ⟨copyDev aCopy, 9, 3, aCopy, by decide +kernel,
    ⟨by decide +kernel, by decide +kernel, (by decide +kernel), by decide +kernel, by decide +kernel, (by decide +kernel), by decide +kernel⟩⟩

theorem meets_EngineEvents_move_none :
    ∃ (s : State) (n : Nat) (c : Copy),
      c.spot n = .none :=
  ⟨copyDev { aCopy with dcrd := [1] }, 3, { aCopy with dcrd := [1] }, by decide +kernel⟩

theorem meets_EngineEvents_move_read :
    ∃ (s s' : State) (n va k l : Nat) (c : Copy) (a d : List Nat),
      c.spot n = .move a d ∧ c.ssp = false ∧ pieces (c.src.addr a).toNat (c.src.bytes a) = [(va, k)] ∧
      c.job.get s (2 * n) = none ∧ s.asked (.copyRead c.id (2 * n)) = false ∧
      s.reach c.job.agent .load none va k = .ok (s', .loc l) :=
  ⟨copyDev aCopy, _, 3, 0x4100C, 4, _, aCopy, [3], [3], by decide +kernel, by decide +kernel, (by decide +kernel),
    by decide +kernel, by decide +kernel, ok_of (by decide +kernel)⟩

theorem meets_EngineEvents_move_write :
    ∃ (s s' : State) (n va k m x va' k' l : Nat) (c : Copy) (a d : List Nat) (bs : List (Byte × Byte)),
      c.spot n = .move a d ∧ c.dsp = false ∧ pieces (c.src.addr a).toNat (c.src.bytes a) = [(va, k)] ∧
      c.job.get s (2 * n) = some x ∧ m = x / 2 ^ (c.src.offset a).2 % 2 ^ c.src.width ∧
      bs = (writesOfBits 0 (c.dst.offset d).2 c.dst.width m).map (·.2) ∧
      pieces (c.dst.addr d).toNat bs.length = [(va', k')] ∧ va' = (c.dst.addr d).toNat ∧ bs.take k' = bs ∧
      s.asked (.copyWrite c.id (pieceAt 0 (2 * n))) = false ∧ pieceAt 0 (2 * n) ∉ c.done ∧
      s.copies.find? (·.id == c.id) = some c ∧ s.reach c.job.agent .store none va' bs.length = .ok (s', .loc l) ∧
      s'.held none (linesFrom l bs.length) = false :=
  ⟨copyDev { aCopy with held := [(6, 0x11223344)] }, _, 3, 0x4100C, 4, _, 0x11223344, 0x4200C, 4, _,
    { aCopy with held := [(6, 0x11223344)] }, [3], [3], _, by decide +kernel, by decide +kernel, (by decide +kernel),
    by decide +kernel, rfl, rfl, by decide +kernel, by decide +kernel, (by decide +kernel), by decide +kernel,
    by decide +kernel, (by decide +kernel), ok_of (by decide +kernel), by decide +kernel⟩

theorem meets_EngineEvents_barrierCredit_done :
    ∃ (s : State) (id bytes l : Nat) (c : Copy),
      s.phase = .run ∧ s.copies.find? (·.id == id) = some c ∧ c.forked = true ∧ c.started = true ∧ c.bar = some l ∧
      0 < bytes ∧ c.credited + bytes ≤ c.creditable ∧ s.held none [l / 128] = false :=
  ⟨copyDev { aCopy with done := [0, 2, 4, 6] }, 9, 16, 0x40100, { aCopy with done := [0, 2, 4, 6] },
    by decide +kernel, by decide +kernel, (by decide +kernel), by decide +kernel, by decide +kernel, (by decide +kernel),
    by decide +kernel, by decide +kernel⟩

theorem meets_EngineEvents_copyComplete_done :
    ∃ (s : State) (id : Nat) (c : Copy),
      s.phase = .run ∧ s.copies.find? (·.id == id) = some c ∧ c.forked = true ∧ c.started = true ∧
      s.fabric.any (·.isCopy id) = false ∧ (c.fault.isSome = true ∨ c.performed = c.slots) ∧ c.unmasked = [] :=
  ⟨copyDev { aCopy with done := [0, 2, 4, 6] }, 9, { aCopy with done := [0, 2, 4, 6] }, by decide +kernel,
    by decide +kernel, (by decide +kernel), by decide +kernel, by decide +kernel, (by decide +kernel), by decide +kernel⟩

theorem meets_EngineEvents_copyEnd_bar :
    ∃ (s : State) (c : Copy) (l : Nat) (fails : List Nat),
      c.bar = some l ∧ s.held none [l / 128] = false ∧ fails = c.failed ++ (if c.fault.isSome then [0xFFFFFF] else []) ∧
      (0 < c.total - c.credited ∨ fails ≠ []) :=
  ⟨copyDev aCopy, aCopy, 0x40100, _, by decide +kernel, by decide +kernel, rfl, by decide +kernel⟩

theorem meets_EngineEvents_copyEnd_bare :
    ∃ (s : State) (c : Copy),
      c.bar = none :=
  ⟨copyDev aCopy, { aCopy with bar := none }, by decide +kernel⟩

theorem meets_EngineEvents_streamRefill_done :
    ∃ (s s' : State) (tid v l : Nat) (t : Thread) (p : Stream) (q b : Nat) (got : List (Nat × Nat × Nat)) (u : State),
      s.phase = .run ∧ tfind tid s.threads = some t ∧ tfind v t.ctx.streams = some p ∧ t.core.isSome = true ∧
      t.chunk = none ∧ got = (tfind v t.refill).getD [] ∧ q = (got.map (·.1)).foldl (fun m k => max m (k + 1)) p.pos ∧
      b = p.width / 8 ∧ q < p.length ∧ (p.addr q).toNat % b = 0 ∧
      s.reach { eng := p.id, core := t.core.getD 0, parcel := t.parcel, priv := p.priv } .load none (p.addr q).toNat b =
      .ok (s', .loc l) ∧
      s'.poisonAt l b = false ∧ u = s'.countDead l :=
  ⟨dev tStream, _, 0, 56, _, tStream, _, _, _, _, _, by decide +kernel, rfl, some_of (by decide +kernel),
    by decide +kernel, by decide +kernel, rfl, rfl, rfl, by decide +kernel, by decide +kernel,
    loc_of (by decide +kernel), by decide +kernel, rfl⟩

theorem meets_EngineEvents_post_start :
    ∃ (s : State) (parcel j : Nat) (v : Traverse) (p : PostOf),
      s.phase = .run ∧ tfind parcel s.traverses = some v ∧ v.inflight.find? (·.j == j) = none ∧ v.postOf j = some p ∧
      v.startable j = true ∧ s.nextPoster = some parcel :=
  ⟨postDev (aTraverse 0 0), 0, 0, aTraverse 0 0, { cell := [(0, 4)], rank := 0, index := 0 }, by decide +kernel,
    by decide +kernel, (by decide +kernel), by decide +kernel, by decide +kernel, (by decide +kernel)⟩

theorem meets_EngineEvents_post_move :
    ∃ (s : State) (parcel j n : Nat) (v : Traverse) (p : PostOf) (q : Post),
      s.phase = .run ∧ tfind parcel s.traverses = some v ∧ v.inflight.find? (·.j == j) = some q ∧ v.postOf j = some p ∧
      q.failed = false ∧
      (List.range (cellCount p.cell)).find? (fun n => !v.elemDone p q n && !s.elemAsked parcel j n) = some n :=
  ⟨postDev { aTraverse 0 0 with inflight := [aPost [0]] }, 0, 0, 1, { aTraverse 0 0 with inflight := [aPost [0]] },
    { cell := [(0, 4)], rank := 0, index := 0 }, aPost [0], by decide +kernel, by decide +kernel, (by decide +kernel),
    by decide +kernel, by decide +kernel, (by decide +kernel)⟩

theorem meets_EngineEvents_postCredit_none :
    ∃ (s : State) (parcel j : Nat) (v : Traverse) (p : PostOf) (q : Post),
      s.phase = .run ∧ v.Performed s parcel j p q ∧ (v.dstTable[p.rank]?.map (·.rrec)).getD 0 = 0 :=
  ⟨postDev (posting 0 0), 0, 0, posting 0 0, { cell := [(0, 4)], rank := 0, index := 0 }, aPost [0, 2, 4, 6],
    by decide +kernel,
    ⟨by decide +kernel, by decide +kernel, (by decide +kernel), by decide +kernel, by decide +kernel, (by decide +kernel)⟩,
    by decide +kernel⟩

theorem meets_EngineEvents_postCredit_own :
    ∃ (s s' s'' : State) (parcel j l k : Nat) (v : Traverse) (p : PostOf) (q : Post) (rrec : Word) (u : State),
      s.phase = .run ∧ v.Performed s parcel j p q ∧ rrec = (v.dstTable[p.rank]?.map (·.rrec)).getD 0 ∧ rrec ≠ 0 ∧
      s.reach (v.agent parcel) .amo none rrec.toNat 16 = .ok (s', .loc l) ∧
      s'.reach (v.agent parcel) .amo none (rrec.toNat + 16 + p.index / 8) 1 = .ok (s'', .loc k) ∧
      s''.held none [l / 128, k / 128] = false ∧ u = s''.creditRecord l k (p.index % 8) (cellBytes v.src p.cell) :=
  ⟨postDev (posting 1 0x40400), _, _, 0, 0, _, _, posting 1 0x40400, { cell := [(0, 4)], rank := 0, index := 0 },
    aPost [0, 2, 4, 6], _, _, by decide +kernel,
    ⟨by decide +kernel, by decide +kernel, (by decide +kernel), by decide +kernel, by decide +kernel, (by decide +kernel)⟩,
    rfl, by decide +kernel, ok_of (by decide +kernel), ok_of (by decide +kernel), by decide +kernel, rfl⟩

theorem meets_EngineEvents_postCredit_far :
    ∃ (s s' u : State) (parcel j dev off : Nat) (v : Traverse) (p : PostOf) (q : Post) (rrec : Word),
      s.phase = .run ∧ v.Performed s parcel j p q ∧ rrec = (v.dstTable[p.rank]?.map (·.rrec)).getD 0 ∧ rrec ≠ 0 ∧
      s.reach (v.agent parcel) .amo none rrec.toNat 16 = .ok (s', .fabric dev off) ∧
      (u = { s' with traverses := tmod parcel (·.modPost j fun q => { q with crediting := true }) s'.traverses }) :=
  ⟨postDev (posting 1 0x50400), _, _, 0, 0, _, _, posting 1 0x50400, { cell := [(0, 4)], rank := 0, index := 0 },
    aPost [0, 2, 4, 6], _, by decide +kernel,
    ⟨by decide +kernel, by decide +kernel, (by decide +kernel), by decide +kernel, by decide +kernel, (by decide +kernel)⟩,
    rfl, by decide +kernel, ok_of (by decide +kernel), rfl⟩

theorem meets_EngineEvents_traverseDone_done :
    ∃ (s : State) (parcel : Nat) (v : Traverse),
      s.phase = .run ∧ tfind parcel s.traverses = some v ∧ v.stop = none ∧ v.inflight = [] ∧ v.next = v.nout ∧
      s.mayEnd parcel v = true :=
  ⟨postDev { aTraverse 0 0 with next := 1 }, 0, { aTraverse 0 0 with next := 1 }, by decide +kernel,
    by decide +kernel, (by decide +kernel), by decide +kernel, by decide +kernel, (by decide +kernel)⟩

theorem meets_EngineEvents_traverseStop_done :
    ∃ (s : State) (parcel : Nat) (v : Traverse) (f : Trap) (va : Word),
      s.phase = .run ∧ tfind parcel s.traverses = some v ∧ v.stop = some (f, va) ∧ v.inflight.all (·.failed) = true ∧
      s.fabric.any (·.isPost parcel) = false ∧ s.mayEnd parcel v = true :=
  ⟨postDev { aTraverse 0 0 with stop := some ({ code := 1, sub := 0, val := 0 }, 0) }, 0,
    { aTraverse 0 0 with stop := some ({ code := 1, sub := 0, val := 0 }, 0) }, { code := 1, sub := 0, val := 0 }, 0,
    by decide +kernel, by decide +kernel, (by decide +kernel), by decide +kernel, by decide +kernel, (by decide +kernel)⟩

theorem meets_EngineEvents_endTraverse_done :
    ∃ (s : State) (parcel : Nat) (v : Traverse) (fs : List (Nat × Nat × Nat)) (f : Option Trap) (u : State),
      (ofHost v.cursorLoc = false ∨ s.fyzWidth ≠ 0) ∧
      (u = (s.unit none (cursorWrites v.cursorLoc fs)).squashIf fun _ c => c.meets [slotLine parcel]) :=
  ⟨postDev (aTraverse 0 0), 0, aTraverse 0 0, [(1, 2, 3)], none, _, by decide +kernel, rfl⟩

theorem meets_EngineEvents_cell_moves :
    ∃ (v : Traverse) (parcel : Nat) (p : PostOf) (j n : Nat) (s : State) (w : Job) (a d : Nat × Nat × Nat),
      w = v.job parcel j ∧ v.element p n = (a, d) :=
  ⟨aTraverse 0 0, 0, { cell := [(0, 4)], rank := 0, index := 0 }, 0, 1, dev th, _,
    ((aTraverse 0 0).element { cell := [(0, 4)], rank := 0, index := 0 } 1).1,
    ((aTraverse 0 0).element { cell := [(0, 4)], rank := 0, index := 0 } 1).2, rfl, rfl⟩

theorem meets_FabricEvents_fabricReply_leaves :
    ∃ (s : State) (id port : Nat) (codes : List Nat) (data : List Byte) (q : FabricReq) (mates : List FabricReq),
      s.phase = .run ∧ s.request id = some q ∧ q.Answerable ∧ mates = s.mates q ∧ mates.any (!·.sent) = true ∧
      mates.any s.waitsToLeave = false :=
  ⟨reqDev [{ anAdd 7 1 with sent := false }], 7, 0, [0], [], { anAdd 7 1 with sent := false }, _, by decide +kernel,
    by decide +kernel, ⟨by decide +kernel, by decide +kernel⟩, rfl, by decide +kernel, by decide +kernel⟩

theorem meets_FabricEvents_fabricReply_answered :
    ∃ (s u : State) (id port : Nat) (codes : List Nat) (data : List Byte) (q : FabricReq) (mates : List FabricReq),
      s.phase = .run ∧ s.request id = some q ∧ q.Answerable ∧ mates = s.mates q ∧ mates.any (!·.sent) = false ∧
      (s.waitsFor (mates.flatMap s.family)).isEmpty = true ∧ s.devnum ≠ some q.dev ∧ s.portWidth port ≠ 0 ∧
      (s.heard port).packetReplies mates (spreadCodes mates codes) data = some u :=
  ⟨reqDev [anAdd 7 1], _, 7, 0, [0], [], anAdd 7 1, _, by decide +kernel, by decide +kernel,
    ⟨by decide +kernel, by decide +kernel⟩, rfl, by decide +kernel, by decide +kernel, (by decide +kernel),
    by decide +kernel, some_of (by decide +kernel)⟩

theorem meets_FabricEvents_packetReplies_one :
    ∃ (s : State) (q : FabricReq) (code : Nat) (data : List Byte),
      code ≤ 4 ∧ (data.length = if code = 0 then s.sizeOf q else 0) :=
  ⟨reqDev [anAdd 7 1], anAdd 7 1, 4, [], by decide +kernel, by decide +kernel⟩

theorem meets_FabricEvents_fabricReply_own :
    ∃ (s : State) (id port : Nat) (codes : List Nat) (data : List Byte) (q : FabricReq) (mates : List FabricReq),
      s.phase = .run ∧ s.request id = some q ∧ q.Answerable ∧ mates = s.mates q ∧ mates.any (!·.sent) = false ∧
      (s.waitsFor (mates.flatMap s.family)).isEmpty = true ∧ s.devnum = some q.dev ∧
      (s.held none (mates.flatMap fun m => arrivalLines m.off m.op) = false) :=
  ⟨reqDev [anAdd 7 0], 7, 0, [], [], anAdd 7 0, _, by decide +kernel, by decide +kernel,
    ⟨by decide +kernel, by decide +kernel⟩, rfl, by decide +kernel, by decide +kernel, (by decide +kernel),
    by decide +kernel⟩

theorem meets_FabricEvents_fabricRequestArrival_done :
    ∃ (s : State) (r : Arriving) (a : State × Nat × List Byte),
      s.phase = .run ∧ r.wf = true ∧ s.portWidth r.port ≠ 0 ∧ s.held none (arrivalLines r.offset r.op) = false ∧
      a = (s.heard r.port).arrive r.header r.offset r.op :=
  ⟨State.reset, { port := 3, header := some tenant, offset := 0x100, op := .load 8 }, _, by decide +kernel,
    by decide +kernel, (by decide +kernel), by decide +kernel, rfl⟩

theorem meets_FabricEvents_extensionPacketArrival_done :
    ∃ (s : State) (p : ExtPacket) (a : State × List Nat × List Byte),
      s.phase = .run ∧ p.wf = true ∧ s.portWidth p.port ≠ 0 ∧
      (s.held none (distinct ((List.range p.n).flatMap fun k => arrivalLines (p.element k).toNat (packetAccess p k))) = false) ∧
      a = packetExpand p p.n 0 (s.heard p.port) :=
  ⟨State.reset,
    { port := 31, header := tenant, head := BitVec.ofNat 128 (0x100 * 2 ^ 64 + 8 * 2 ^ 32 + 63 * 2 ^ 20 + 3 * 2 ^ 16), offsets := [], data := [] },
    _, by decide +kernel, by decide +kernel, (by decide +kernel), by decide +kernel, rfl⟩

theorem meets_FabricEvents_fabricCombine_done :
    ∃ (s u : State) (stage first second x y : Nat) (a b q : FabricReq) (dword : Bool),
      s.phase = .run ∧ s.request first = some a ∧ s.request second = some b ∧ a.addend = some (dword, x) ∧
      b.addend = some (dword, y) ∧ s.mayFold stage a b = true ∧
      q = a.fold b s.nextId dword ((x + y) % 2 ^ (if dword then 64 else 32)) ∧
      (u = { s with nextId := s.nextId + 1, fabric :=
      (s.fabric.map fun m => if m.id == first || m.id == second then { m with folded := true } else m) ++ [q] }) ∧
      u.circular (u.fabric.length + 1) (u.family q) = false :=
  ⟨reqDev [anAdd 7 1, { anAdd 8 1 with die := 1 }], _, 0, 7, 8, 1, 1, anAdd 7 1, { anAdd 8 1 with die := 1 }, _,
    true, by decide +kernel, by decide +kernel, (by decide +kernel), by decide +kernel, by decide +kernel,
    (by decide +kernel), rfl, rfl, by decide +kernel⟩

theorem meets_FabricEvents_combineWindowExpiry_done :
    ∃ (s : State) (id : Nat) (q : FabricReq) (place : Nat × Nat),
      s.phase = .run ∧ s.request id = some q ∧ q.standsAt q.stage = true ∧ (q.waiting = false ∨ q.issued + 64 ≤ s.cycle) ∧
      place = (stageInput (q.stage + 1) q.first.1 q.port, s.nextId) :=
  ⟨{ reqDev [anAdd 7 1] with cycle := 64 }, 7, anAdd 7 1, _, by decide +kernel, by decide +kernel,
    (by decide +kernel), by decide +kernel, rfl⟩

theorem meets_FabricEvents_replySplit_done :
    ∃ (s : State) (id code x : Nat) (data : List Byte) (q : FabricReq) (dword : Bool),
      s.phase = .run ∧ s.request id = some q ∧ q.answer = some (code, data) ∧ q.addend = some (dword, x) :=
  ⟨reqDev [{ anAdd 7 1 with answer := some (0, List.replicate 8 0) }], 7, 0, 1, List.replicate 8 0,
    { anAdd 7 1 with answer := some (0, List.replicate 8 0) }, true, by decide +kernel, by decide +kernel,
    (by decide +kernel), by decide +kernel⟩

theorem meets_FabricEvents_arrive_refused :
    ∃ (s : State) (h : BitVec 160) (off : Nat) (op : ArrivingOp),
      (∀ post bytes, op ≠ .credit post bytes) :=
  ⟨dev th, tenant, 0x100, .load 8, fun _ _ h => ArrivingOp.noConfusion h⟩

theorem meets_LinkEvents_idleFlit_done :
    ∃ (s : State) (port : Nat),
      s.phase = .run ∧ s.portWidth port ≠ 0 ∧ (s.portSent[port]?.getD 0) + microsecond ≤ s.time :=
  ⟨late 0 microsecond, 31, by decide +kernel, by decide +kernel, (by decide +kernel)⟩

theorem meets_LinkEvents_idleFlitReceived_done :
    ∃ (s : State) (port : Nat),
      s.phase = .run :=
  ⟨State.reset, 31, by decide +kernel⟩

theorem meets_LinkEvents_linkDown_done :
    ∃ (s : State) (port : Nat),
      s.phase = .run ∧ s.portWidth port ≠ 0 ∧ (s.portHeard[port]?.getD 0) + 8 * microsecond ≤ s.time :=
  ⟨late 0 (8 * microsecond), 31, by decide +kernel, by decide +kernel, (by decide +kernel)⟩

theorem meets_LinkEvents_linkTrained_port :
    ∃ (s : State) (k width version : Nat),
      s.phase = .run ∧ k < 32 ∧ s.portWidth k = 0 ∧ (width = 1 ∨ width = 2 ∨ width = 4) :=
  ⟨{ State.reset with ports := State.reset.ports.set 31 0 }, 31, 4, 1, by decide +kernel, by decide +kernel,
    (by decide +kernel), by decide +kernel⟩

theorem meets_LinkEvents_linkTrained_fyzozor :
    ∃ (s : State) (width : Nat),
      s.phase = .run ∧ s.fyzWidth = 0 ∧ (width = 8 ∨ width = 16 ∨ width = 32) ∧ width ≤ s.fyzMax :=
  ⟨{ State.reset with fyzWidth := 0 }, 32, by decide +kernel, by decide +kernel, (by decide +kernel),
    by decide +kernel⟩

theorem meets_LinkEvents_laneFailure_fyzozor :
    ∃ (s : State),
      s.phase = .run ∧ s.fyzWidth ≠ 0 :=
  ⟨State.reset, by decide +kernel, by decide +kernel⟩

theorem meets_LinkEvents_heartbeat_done :
    ∃ (s : State),
      s.phase = .run ∧ s.beatSent + microsecond ≤ s.time :=
  ⟨late 0 microsecond, by decide +kernel, by decide +kernel⟩

theorem meets_LinkEvents_heartbeatReceived_done :
    ∃ (s : State) (dev : Nat),
      s.phase = .run ∧ dev < 1024 :=
  ⟨State.reset, 1023, by decide +kernel, by decide +kernel⟩

theorem meets_LinkEvents_peerLost_done :
    ∃ (s : State) (dev : Nat),
      s.phase = .run ∧ dev < 1024 ∧ s.devnum ≠ some dev ∧ dev ∉ s.lost ∧
      tget 0 dev s.beatHeard + 8 * microsecond ≤ s.time :=
  ⟨late 0 (8 * microsecond), 1023, by decide +kernel, by decide +kernel, (by decide +kernel), by decide +kernel,
    by decide +kernel⟩

theorem meets_LinkEvents_downNoticeReceived_done :
    ∃ (s : State) (dev : Nat),
      s.phase = .run ∧ dev < 1024 ∧ s.devnum ≠ some dev ∧ dev ∉ s.lost :=
  ⟨State.reset, 1023, by decide +kernel, by decide +kernel, (by decide +kernel), by decide +kernel⟩

theorem meets_UpkeepEvents_eccError_single :
    ∃ (s : State) (place : EccPlace),
      s.phase = .run ∧ (∀ line tags, place ≠ .dram line tags) :=
  ⟨State.reset, .dirtyLine 5, by decide +kernel, fun _ _ h => EccPlace.noConfusion h⟩

theorem meets_UpkeepEvents_eccError_dirty :
    ∃ (s : State) (line : Nat),
      s.phase = .run :=
  ⟨State.reset, 5, by decide +kernel⟩

theorem meets_UpkeepEvents_eccError_clean :
    ∃ (s : State) (die line : Nat) (c : MgdCopy),
      s.phase = .run ∧ tfind (die * 2 ^ 48 + line) s.copiesMgd = some c ∧ c.dirty = 0 ∧
      s.held none (viewLines die [line]) = false :=
  ⟨{ State.reset with copiesMgd := [(2 ^ 48 + 0x800, { data := 5, dirty := 0 })] }, 1, 0x800, _, by decide +kernel,
    some_of (by decide +kernel), by decide +kernel, by decide +kernel⟩

theorem meets_UpkeepEvents_eccError_cached :
    ∃ (s : State) (die line : Nat),
      s.phase = .run ∧ tfind (die * 2 ^ 48 + line) s.copiesMgd = none :=
  ⟨State.reset, 1, 0x800, by decide +kernel, by decide +kernel⟩

theorem meets_UpkeepEvents_eccError_hub :
    ∃ (s : State) (id : Nat) (q : FabricReq),
      s.phase = .run ∧ s.request id = some q ∧ q.Answerable ∧ q.sent = true :=
  ⟨reqDev [anAdd 7 1], 7, anAdd 7 1, by decide +kernel, by decide +kernel, ⟨by decide +kernel, by decide +kernel⟩,
    by decide +kernel⟩

theorem meets_UpkeepEvents_eccError_register :
    ∃ (s : State) (tid file reg index : Nat) (m : PoisonMark),
      s.phase = .run ∧ file ≤ 4 ∧ m = { file, reg, index } :=
  ⟨dev th, 0, 4, 0, 0, _, by decide +kernel, by decide +kernel, rfl⟩

theorem meets_UpkeepEvents_eccError_scratch :
    ∃ (s : State) (crew offset : Nat),
      s.phase = .run ∧ crew < 96 ∧ offset < 2 ^ 23 :=
  ⟨State.reset, 95, 8388607, by decide +kernel, by decide +kernel, (by decide +kernel)⟩

theorem meets_UpkeepEvents_eccError_dram :
    ∃ (s : State) (double : Bool) (line : Nat) (tags : TagCheck),
      s.phase = .run ∧ line < 2 ^ 32 ∧ line / 32 ∈ s.live :=
  ⟨dev th, true, 0x800, .good, by decide +kernel, by decide +kernel, (by decide +kernel)⟩

theorem meets_UpkeepEvents_coreFence_control :
    ∃ (s : State) (core : Nat) (corrupt : List Nat),
      s.phase = .run ∧ core < 384 ∧ (s.core core).fenced = false ∧
      s.pins none (fun t c => !([core].any (t.core == some ·)) && portionUser core 0 (2 ^ 21) t c) = false :=
  ⟨dev th, 383, [], by decide +kernel, by decide +kernel, (by decide +kernel), by decide +kernel⟩

theorem meets_UpkeepEvents_refreshDue_done :
    ∃ (s : State) (stack bank : Nat),
      s.phase = .run :=
  ⟨State.reset, 0, 0, by decide +kernel⟩

theorem meets_UpkeepEvents_refreshDue_burst :
    ∃ (s : State) (stack bank n : Nat),
      s.phase = .run ∧ n = tget 0 bank (s.stack stack).postponed ∧ n < 4 ∧ stack < 8 :=
  ⟨State.reset, 7, 0, _, by decide +kernel, rfl, by decide +kernel, by decide +kernel⟩

theorem meets_UpkeepEvents_refreshPostponeLimit_done :
    ∃ (s : State) (stack bank : Nat),
      s.phase = .run ∧ tget 0 bank (s.stack stack).postponed = 4 :=
  ⟨{ State.reset with hbm := State.reset.hbm.map fun k => { k with postponed := [(2, 4)] } }, 7, 2,
    by decide +kernel, by decide +kernel⟩

theorem meets_UpkeepEvents_scrubPassStart_done :
    ∃ (s : State) (stack : Nat) (ps : Vector Parcel 64),
      s.phase = .run ∧ stack < 8 ∧ (s.stack stack).scrubbing = none ∧
      (s.stack stack).passStart + (s.stack stack).scrubHours * 3600000000 * microsecond ≤ s.time ∧
      ps = s.parcels.map Parcel.rotate :=
  ⟨late 0 (255 * 3600000000 * microsecond), 7, _, by decide +kernel, by decide +kernel, (by decide +kernel),
    by decide +kernel, rfl⟩

theorem meets_UpkeepEvents_scrubLine_done :
    ∃ (s : State) (stack line a : Nat) (tags : TagCheck) (u : State),
      s.phase = .run ∧ (s.stack stack).scrubbing = some a ∧ s.nextLive stack a = some line ∧ u = s.readLine line tags :=
  ⟨{ dev th with hbm := State.reset.hbm.map fun k => { k with scrubbing := some 0x201 } }, 0, _, 0x201, .good, _,
    by decide +kernel, by decide +kernel, some_of (by decide +kernel), rfl⟩

theorem meets_UpkeepEvents_scrubPassEnd_done :
    ∃ (s : State) (stack a : Nat) (e : StackSt),
      s.phase = .run ∧ (s.stack stack).scrubbing = some a ∧ s.nextLive stack a = none ∧
      e = { s.stack stack with scrubbing := none, rotating := [] } :=
  ⟨{ dev th with hbm := State.reset.hbm.map fun k => { k with scrubbing := some 0xFFFFFF } }, 0, 0xFFFFFF, _,
    by decide +kernel, by decide +kernel, (by decide +kernel), rfl⟩

theorem meets_UpkeepEvents_logWrapClear_done :
    ∃ (s : State) (stack : Nat),
      s.phase = .run :=
  ⟨State.reset, 0, by decide +kernel⟩

theorem meets_UpkeepEvents_fence_leaves :
    ∃ (s u : State) (core : Nat) (corrupt : List Nat),
      core < 384 ∧ u = s.fence core corrupt :=
  ⟨dev th, _, 383, [], by decide +kernel, rfl⟩

theorem meets_UpkeepEvents_line_read :
    ∃ (s : State) (line k : Nat) (e : Nat → BitVec 128),
      k = line / 2 ^ 29 ∧ (e = fun kind => logEntry s.cycle (Config.pseudoChannel line % 160) (s.ownerOf line) kind line) :=
  ⟨dev th, 0x800, _, _, rfl, rfl⟩

theorem meets_PowerAndBringUp_powerWindow_done :
    ∃ (s : State) (watts : Nat),
      s.phase = .run ∧ s.windowStart + 10000 * microsecond ≤ s.time :=
  ⟨late 0 (10000 * microsecond), 2500, by decide +kernel, by decide +kernel⟩

theorem meets_PowerAndBringUp_crewClockGate_done :
    ∃ (s : State) (crew : Nat),
      s.phase = .run ∧ crew < 96 ∧ ((s.threads.any fun e => e.2.core.any (crewOf · == crew)) = false) ∧
      tget 0 crew s.busy + 2 ^ 16 ≤ s.cycle :=
  ⟨late 65536 0, 95, by decide +kernel, by decide +kernel, (by decide +kernel), by decide +kernel⟩

theorem meets_PowerAndBringUp_thermalThrottle_done :
    ∃ (s : State) (die celsius : Nat),
      s.phase = .run ∧ die < 8 ∧ 105 < celsius :=
  ⟨State.reset, 7, 106, by decide +kernel, by decide +kernel, (by decide +kernel)⟩

theorem meets_PowerAndBringUp_thermalRecovery_done :
    ∃ (s : State) (celsius : List Nat),
      s.phase = .run ∧ celsius.length = 8 ∧ (∀ c ∈ celsius, c < 100) :=
  ⟨State.reset, List.replicate 8 99, by decide +kernel, by decide +kernel, (by decide +kernel)⟩

theorem meets_PowerAndBringUp_thermalTrip_done :
    ∃ (s : State) (die celsius : Nat),
      s.phase = .run ∧ die < 8 ∧ 115 < celsius :=
  ⟨State.reset, 7, 116, by decide +kernel, by decide +kernel, (by decide +kernel)⟩

theorem meets_PowerAndBringUp_resetPinRelease_done :
    ∃ (s : State),
      s.phase = .held :=
  ⟨{ State.reset with phase := .held }, by decide +kernel⟩

theorem meets_PowerAndBringUp_loadFirmwareImage_done :
    ∃ (s : State) (h : ReqHead) (r : FirmwareReport),
      s.phase = .step 2 ∧ Posted s h 1 ∧ r.crcOk = true ∧ r.versionOk = true :=
  ⟨{ State.reset with phase := .step 2 }, req 1 64 0,
    { crcOk := true, versionOk := true, stacksOk := true, linksOk := true, failedCores := [], failedUnits := [], store := { first := 0, frames := 0, room := 0 } },
    by decide +kernel, ⟨by decide +kernel, by decide +kernel, (by decide +kernel), by decide +kernel⟩,
    by decide +kernel, by decide +kernel⟩

theorem meets_PowerAndBringUp_configurationComplete_done :
    ∃ (s : State) (h : ReqHead) (r : LinkReport) (n : Nat),
      s.phase = .step 6 ∧ Posted s h 15 ∧ s.devnum = some n :=
  ⟨{ State.reset with phase := .step 6 }, req 15 0 0, { ports := [], fyzozorWidth := 0, fyzozorVersion := 1 }, 0,
    by decide +kernel, ⟨by decide +kernel, by decide +kernel, (by decide +kernel), by decide +kernel⟩,
    by decide +kernel⟩

theorem meets_PowerAndBringUp_configurationComplete_none :
    ∃ (s : State) (h : ReqHead) (r : LinkReport),
      s.phase = .step 6 ∧ Posted s h 15 ∧ s.devnum = none :=
  ⟨{ State.reset with phase := .step 6, devnum := none }, req 15 0 0,
    { ports := [], fyzozorWidth := 0, fyzozorVersion := 1 }, by decide +kernel,
    ⟨by decide +kernel, by decide +kernel, (by decide +kernel), by decide +kernel⟩, by decide +kernel⟩

theorem meets_PowerAndBringUp_reset_finishes :
    ∃ (s u : State) (r : LinkReport),
      u = s.finishReset r :=
  ⟨dev th, _, { ports := [], fyzozorWidth := 0, fyzozorVersion := 1 }, rfl⟩

theorem meets_ManagementRequests_unknownRequest_done :
    ∃ (s : State) (h : ReqHead) (code : Nat),
      s.phase = .run ∧ Posted s h code ∧ assigned code = false :=
  ⟨State.reset, req 255 0 63, 255, by decide +kernel,
    ⟨by decide +kernel, by decide +kernel, (by decide +kernel), by decide +kernel⟩, by decide +kernel⟩

theorem meets_ManagementRequests_writeParcelDescriptor_done :
    ∃ (s : State) (h : ReqHead) (desc : BitVec 512) (q : Parcel),
      s.phase = .run ∧ Posted s h 2 ∧ (s.parcel h.parcel).state = 0 ∧ q = (s.parcel h.parcel).described desc.toNat ∧
      s.badDescriptor h.parcel q = false :=
  ⟨State.reset, req 2 64 63, 1 + 47 * 2 ^ 12 + 2 ^ 192 * 0x10000 + 2 ^ 256 * 0x40800 + 2 ^ 320 * 1, _,
    by decide +kernel, ⟨by decide +kernel, by decide +kernel, (by decide +kernel), by decide +kernel⟩,
    by decide +kernel, rfl, by decide +kernel⟩

theorem meets_ManagementRequests_writeParcelDescriptor_active :
    ∃ (s u : State) (h : ReqHead) (desc : BitVec 512) (q : Parcel),
      s.phase = .run ∧ Posted s h 2 ∧ (s.parcel h.parcel).state ≠ 0 ∧ q = (s.parcel h.parcel).described desc.toNat ∧
      s.badDescriptor h.parcel q = false ∧
      (u = if (s.parcel h.parcel).kfirst ≠ q.kfirst ∨ (s.parcel h.parcel).kcount ≠ q.kcount then s.clearKeys h.parcel else s) :=
  ⟨dev th, _, req 2 64 0, 1 + 47 * 2 ^ 12 + 2 ^ 192 * 0x10000 + 2 ^ 256 * 0x40800 + 2 ^ 320 * 1, _,
    by decide +kernel, ⟨by decide +kernel, by decide +kernel, (by decide +kernel), by decide +kernel⟩,
    by decide +kernel, rfl, by decide +kernel, rfl⟩

theorem meets_ManagementRequests_createRootThread_done :
    ∃ (s : State) (h : ReqHead) (entry args config : Word) (q : Parcel) (part : BitVec 32) (i : Instr),
      s.phase = .run ∧ Posted s h 3 ∧ config.extractLsb' 2 30 = 0 ∧ q = s.parcel h.parcel ∧ q.state = 1 ∧ q.root = none ∧
      part = config.extractLsb' 32 32 ∧ (part = 0 ∨ partOk part = true) ∧ s.pins none (s.crowds h.parcel 1) = false ∧
      i = .createRootThread h entry args config :=
  ⟨{ dev th with parcels := (dev th).parcels.set 0 { loadParcel with root := none } }, req 3 24 0, 0x40000, 0, 3, _,
    _, _, by decide +kernel, ⟨by decide +kernel, by decide +kernel, (by decide +kernel), by decide +kernel⟩,
    by decide +kernel, rfl, by decide +kernel, by decide +kernel, rfl, .inl (by decide +kernel), by decide +kernel,
    rfl⟩

theorem meets_ManagementRequests_removeLaunch_done :
    ∃ (s : State) (h : ReqHead) (launch : Nat) (tids : List Nat) (i : Instr),
      s.phase = .run ∧ Posted s h 4 ∧ tids = (s.tidsOf h.parcel).filter (launchOf · == launch) ∧
      ((s.traverses.any fun e => tids.contains e.2.tid && !s.mayEnd e.1 e.2) = false) ∧ i = .removeLaunch h launch :=
  ⟨dev th, req 4 8 0, 0, _, _, by decide +kernel,
    ⟨by decide +kernel, by decide +kernel, (by decide +kernel), by decide +kernel⟩, rfl, by decide +kernel, rfl⟩

theorem meets_ManagementRequests_endParcel_begun :
    ∃ (s : State) (h : ReqHead) (i : Instr),
      s.phase = .run ∧ Posted s h 5 ∧ (s.parcel h.parcel).state = 1 ∧ i = .endParcel h :=
  ⟨dev th, req 5 0 0, _, by decide +kernel,
    ⟨by decide +kernel, by decide +kernel, (by decide +kernel), by decide +kernel⟩, by decide +kernel, rfl⟩

theorem meets_ManagementRequests_endParcel_done :
    ∃ (s : State) (h : ReqHead) (hub : Nat),
      s.phase = .run ∧ h.code = 5 ∧ h.len = 0 ∧ s.requests.find? (·.1 == hub) = some (hub, .endParcel h, true) :=
  ⟨(dev th).asking (.endParcel (req 5 0 0)) |> fun s => { s with requests := [(0, .endParcel (req 5 0 0), true)] },
    req 5 0 0, 0, by decide +kernel, by decide +kernel, (by decide +kernel), by decide +kernel⟩

theorem meets_ManagementRequests_assignFrames_done :
    ∃ (s : State) (h : ReqHead) (first count owner lo hi : Nat) (o : Option Nat) (i : Instr),
      (s.phase = .run ∨ s.phase = .step 6) ∧ Posted s h 6 ∧ s.ownerFor owner = .ok o ∧ first + count ≤ 2 ^ 23 ∧
      s.store.overlaps first count = false ∧
      ((s.blockOwner.any fun b => b.1 * 8192 < first + count && first < b.1 * 8192 + 8192) = false) ∧ lo = first * 65536 ∧
      hi = (first + count) * 65536 ∧ s.holdsPlace lo hi = false ∧ s.pinsPlace lo hi = false ∧
      i = .assignFrames h first count owner :=
  ⟨State.reset, req 6 24 0, 0x100, 1, 63, _, _, some 63, _, by decide +kernel,
    ⟨by decide +kernel, by decide +kernel, (by decide +kernel), by decide +kernel⟩, rfl, by decide +kernel,
    by decide +kernel, (by decide +kernel), rfl, rfl, by decide +kernel, by decide +kernel, rfl⟩

theorem meets_ManagementRequests_assignBlocks_done :
    ∃ (s : State) (h : ReqHead) (first count owner lo hi : Nat) (o : Option Nat) (blocks : List Nat) (mine : TlbEntry → Bool) (i : Instr),
      (s.phase = .run ∨ s.phase = .step 6) ∧ Posted s h 14 ∧ s.ownerFor owner = .ok o ∧ first + count ≤ 1024 ∧
      blocks = (List.range count).map (first + ·) ∧ ((o.any fun p => blocks.any fun b => !s.blockFull b p) = false) ∧
      lo = first * 2 ^ 29 ∧ hi = (first + count) * 2 ^ 29 ∧ (mine = fun e => e.big && e.maps lo hi) ∧
      s.engineHolds mine = false ∧ s.pins none (fun _ c => c.pages.any mine) = false ∧
      i = .assignBlocks h first count owner :=
  ⟨State.reset, req 14 24 0, 1023, 1, 0xFF, _, _, none, _, _, _, by decide +kernel,
    ⟨by decide +kernel, by decide +kernel, (by decide +kernel), by decide +kernel⟩, rfl, by decide +kernel, rfl,
    by decide +kernel, rfl, rfl, rfl, by decide +kernel, by decide +kernel, rfl⟩

theorem meets_ManagementRequests_writeRouteEntry_done :
    ∃ (s : State) (h : ReqHead) (dev : Nat) (entry : BitVec 32),
      (s.phase = .run ∨ s.phase = .step 6) ∧ Posted s h 7 ∧ dev < 1024 :=
  ⟨State.reset, req 7 16 0, 1023, 1, by decide +kernel,
    ⟨by decide +kernel, by decide +kernel, (by decide +kernel), by decide +kernel⟩, by decide +kernel⟩

theorem meets_ManagementRequests_setDeviceNumber_done :
    ∃ (s : State) (h : ReqHead) (n : Nat),
      s.phase = .step 6 ∧ Posted s h 8 ∧ n < 1024 :=
  ⟨{ State.reset with phase := .step 6 }, req 8 8 0, 1023, by decide +kernel,
    ⟨by decide +kernel, by decide +kernel, (by decide +kernel), by decide +kernel⟩, by decide +kernel⟩

theorem meets_ManagementRequests_clearLostMark_done :
    ∃ (s : State) (h : ReqHead) (dev : Nat),
      s.phase = .run ∧ Posted s h 9 ∧ dev < 1024 :=
  ⟨State.reset, req 9 8 0, 1023, by decide +kernel,
    ⟨by decide +kernel, by decide +kernel, (by decide +kernel), by decide +kernel⟩, by decide +kernel⟩

theorem meets_ManagementRequests_requestKeyRotation_done :
    ∃ (s : State) (h : ReqHead),
      s.phase = .run ∧ Posted s h 10 ∧ (s.parcel h.parcel).state = 1 :=
  ⟨dev th, req 10 0 0, by decide +kernel,
    ⟨by decide +kernel, by decide +kernel, (by decide +kernel), by decide +kernel⟩, by decide +kernel⟩

theorem meets_ManagementRequests_setScrubPeriod_done :
    ∃ (s : State) (h : ReqHead) (hours : Nat),
      s.phase = .run ∧ Posted s h 11 ∧ hours ≠ 0 ∧ hours ≤ 255 :=
  ⟨State.reset, req 11 8 0, 255, by decide +kernel,
    ⟨by decide +kernel, by decide +kernel, (by decide +kernel), by decide +kernel⟩, by decide +kernel,
    by decide +kernel⟩

theorem meets_ManagementRequests_setPowerLimit_done :
    ∃ (s : State) (h : ReqHead) (watts : Nat),
      s.phase = .run ∧ Posted s h 12 ∧ 600 ≤ watts ∧ watts ≤ 2400 :=
  ⟨State.reset, req 12 8 0, 600, by decide +kernel,
    ⟨by decide +kernel, by decide +kernel, (by decide +kernel), by decide +kernel⟩, by decide +kernel,
    by decide +kernel⟩

theorem meets_ManagementRequests_writeHostAperture_done :
    ∃ (s : State) (h : ReqHead) (k : Nat) (a : Word) (mine : TlbEntry → Bool) (i : Instr),
      s.phase = .run ∧ Posted s h 13 ∧ k < 8 ∧ badAperture a = false ∧
      (mine = fun e => e.parcel == h.parcel && e.maps (2 ^ 44) (2 ^ 45)) ∧ s.engineHolds mine = false ∧
      ((s.traverses.any fun e => e.1 == h.parcel && ofHost e.2.cursorLoc) = false) ∧
      s.pins none (fun _ c => c.pages.any mine) = false ∧ i = .writeHostAperture h k a :=
  ⟨State.reset, req 13 16 63, 7, 0x8000000010000000, _, _, by decide +kernel,
    ⟨by decide +kernel, by decide +kernel, (by decide +kernel), by decide +kernel⟩, by decide +kernel,
    by decide +kernel, rfl, by decide +kernel, by decide +kernel, (by decide +kernel), rfl⟩

theorem meets_ManagementRequests_stopped_leaves :
    ∃ (s u : State) (tids : List Nat),
      tsorted s.threads = true ∧ u = s.stopThreads tids :=
  ⟨dev th, _, [0], by decide +kernel, rfl⟩

theorem meets_ManagementRequests_ending_leaves :
    ∃ (s u : State) (p : Nat),
      p < 64 ∧ tsorted s.threads = true ∧ u = s.beginEnd p :=
  ⟨dev th, _, 0, by decide +kernel, by decide +kernel, rfl⟩

theorem meets_ManagementRequests_ended_leaves :
    ∃ (s u : State) (p : Nat),
      p < 64 ∧ tsorted s.frameOwner = true ∧ u = s.endParcel p :=
  ⟨dev th, _, 0, by decide +kernel, by decide +kernel, rfl⟩

/-! ## Single steps, with results worked out by hand from the manual -/

/-- The loaded program's memory holds the page tables that the states above write out. -/
theorem test_tables : (State.reset.loadProgram []).mem = tables := by decide +kernel

/-- Thread 0 after an instruction in a state. -/
def after (i : Instr) (s : State) : Option Thread := (nextOf (exec i s)).bind fun s' => tfind 0 s'.threads

/-- What the context of thread 0 shows after an instruction that it executes alone. -/
def shows {α : Type} (i : Instr) (f : Ctx → α) (c : Ctx → Ctx := id) (l : Memory := []) : Option α :=
  (after i (dev (th c) l)).map fun t => f t.ctx

/-- Scalar register 1 afterwards. -/
def x1 (i : Instr) (c : Ctx → Ctx := id) (l : Memory := []) : Option Word := shows i (fun c => c.xAt 1) c l

/-- Registers 2 and 3 set. -/
def two (a b : Word) : Ctx → Ctx := xs [(2, a), (3, b)]

/-- Vector registers set, with a vector length and 32-bit signed integers as both types. -/
def vs (vl : Nat) (l : List (Nat × VReg)) (c : Ctx) : Ctx :=
  { c with vl, mode := 0x40002, v := l.foldl (fun v e => v.setIfInBounds e.1 e.2) c.v }

/-- Register 1 as a vector afterwards. -/
def v1 (i : Instr) (c : Ctx → Ctx) (l : Memory := []) : Option Nat := shows i (fun c => c.v[1].toNat) c l

/-! Scalar arithmetic (R50 to R55). -/

theorem test_add_wraps : x1 (.add 1 2 3) (two (-1) 2) = some 1 := by decide +kernel
theorem test_sub_borrows : x1 (.sub 1 2 3) (two 0 1) = some 0xFFFFFFFFFFFFFFFF := by decide +kernel
theorem test_mulh_signed : x1 (.mulh 1 2 3) (two 0x8000000000000000 0x8000000000000000) = some 0x4000000000000000 := by decide +kernel
theorem test_mulhu_unsigned : x1 (.mulhu 1 2 3) (two (-1) (-1)) = some 0xFFFFFFFFFFFFFFFE := by decide +kernel
theorem test_div_of_least : x1 (.div 1 2 3) (two 0x8000000000000000 (-1)) = some 0x8000000000000000 := by decide +kernel
theorem test_div_truncates : x1 (.div 1 2 3) (two (-7) 2) = some (-3) := by decide +kernel
theorem test_rem_by_zero : x1 (.rem 1 2 3) (two 7 0) = some 7 := by decide +kernel
theorem test_divu_by_zero : x1 (.divu 1 2 3) (two 7 0) = some 0xFFFFFFFFFFFFFFFF := by decide +kernel
theorem test_slt_signed : x1 (.slt 1 2 3) (two (-1) 1) = some 1 := by decide +kernel
theorem test_sltu_unsigned : x1 (.sltu 1 2 3) (two (-1) 1) = some 0 := by decide +kernel
theorem test_sll_low_bits : x1 (.sll 1 2 3) (two 1 65) = some 2 := by decide +kernel
theorem test_srai_sign : x1 (.srai 1 2 4) (two 0x8000000000000000 0) = some 0xF800000000000000 := by decide +kernel
theorem test_addi_to_x0 : shows (.addi 0 2 5) (fun c => c.xAt 0) (two 1 0) = some 0 := by decide +kernel
theorem test_xori_extends : x1 (.xori 1 2 0x2000) (two 0 0) = some 0xFFFFFFFFFFFFE000 := by decide +kernel
theorem test_lih_negative : x1 (.lih 1 0x80001) = some 0xFFFFFFFE00004000 := by decide +kernel
theorem test_pcrel : x1 (.pcrel 1 1) = some 0x44000 := by decide +kernel

/-! Control (R56, R57, R66, R67). -/

theorem test_blt_backward : shows (.blt 2 3 0x3FFF) (·.pc) (two (-1) 0) = some 0x3FFFC := by decide +kernel
theorem test_bltu_not_taken : shows (.bltu 2 3 0x3FFF) (·.pc) (two (-1) 0) = some 0x40004 := by decide +kernel
theorem test_jal_links : shows (.jal 1 0xFFFFF) (fun c => (c.pc, c.xAt 1)) = some (0x3FFFC, 0x40004) := by decide +kernel
theorem test_jalr_through_itself : shows (.jalr 2 2 8) (fun c => (c.pc, c.xAt 2)) (two 0x40100 0) = some (0x40108, 0x40004) := by
  decide +kernel
theorem test_jalr_misaligned :
    shows (.jalr 1 2 2) (fun c => (c.pc, c.trapval, c.trappc, c.xAt 1)) (two 0x40100 0) = some (0x40800, 0x40102, 0x40000, 0) := by
  decide +kernel
theorem test_loop_skips : shows (.loop 2 8) (fun c => (c.pc, c.loops.length)) (two 0 0) = some (0x40024, 0) := by decide +kernel
theorem test_loopr_counts_epilogue :
    shows (.loopr 2 8) (fun c => (c.pc, c.loops.map (fun e => (e.start, e.last, e.left)))) (two (2 ^ 48 + 3) 0)
      = some (0x40004, [(0x40004, 0x40020, 4)]) := by decide +kernel
theorem test_end_test_returns :
    shows (.addi 1 1 1) (fun c => (c.pc, c.loops.map (·.left)))
      (fun c => { c with loops := [{ start := 0x40000, last := 0x40000, left := 2, rotating := false, n := 0, e := 0, done := 0 }] })
      = some (0x40000, [1]) := by decide +kernel

/-! Scalar floating point (R62 to R64): 1.5 + 2.5, 1 ÷ 3, the root of −1 and −3 as fp32. -/

theorem test_fadd : x1 (.fadd 1 2 3) (two 0x3FC00000 0x40200000) = some 0x40800000 := by decide +kernel
theorem test_fdiv_inexact :
    shows (.fdiv 1 2 3) (fun c => (c.xAt 1, c.fflags)) (two 0x3F800000 0x40400000) = some (0x3EAAAAAB, 1) := by decide +kernel
theorem test_fsqrt_invalid :
    shows (.fsqrt 1 2) (fun c => (c.xAt 1, c.fflags)) (two 0xBF800000 0) = some (0x7FC00000, 16) := by decide +kernel
theorem test_fcvt_from_s64 : x1 (.fcvt 1 2 3) (two (-3) 0) = some 0xC0400000 := by decide +kernel
/-- −128.6 into s8 rounds to −129 and gives −128 with NV (R64). -/
theorem test_fcvt_saturates :
    shows (.fcvt 1 2 10) (fun c => (c.xAt 1, c.fflags)) (fun c => { two 0xC300999A 0 c with mode := 0x140000 })
      = some (0xFFFFFFFFFFFFFF80, 16) := by decide +kernel

/-! System registers (R29, R37, R59). -/

theorem test_setvl_limits : shows (.setvl 1 2) (fun c => (c.vl, c.xAt 1)) (two 5000 0) = some (2048, 2048) := by decide +kernel
theorem test_setvli_bytes : shows (.setvli 1 4095) (·.vl) (fun c => { c with mode := 0 }) = some 4095 := by decide +kernel
theorem test_mode_word : shows (.mode 3 9 0 false 0 1 10) (·.mode) = some 0xD2002A := by decide +kernel
theorem test_mode_reserved_blk :
    shows (.mode 0 10 0 false 0 3 10) (fun c => (c.pc, c.mode, c.trapval)) = some (0x40800, 0x14000A, 0x414006A) := by decide +kernel
theorem test_mfsr_isalevel : x1 (.mfsr 1 0x020) = some 1 := by decide +kernel
theorem test_mfsr_chkcap : x1 (.mfsr 1 0x016) = some 0x0000080002000800 := by decide +kernel
theorem test_mfsr_privileged : shows (.mfsr 1 0x103) (fun c => (c.pc, c.priv)) = some (0x40800, true) := by decide +kernel
theorem test_mtsr_fmt_refused :
    shows (.mtsrFmt 2 0) (fun c => (c.pc, c.fmt[0], c.trapval)) (two 0x3000 0) = some (0x40800, 0x70343, 0x3000) := by decide +kernel

/-! Scalar memory (R5, R194, R205). -/

theorem test_ld_b_sign : x1 (.ldB 1 2 0) (two 0x40100 0) [(0x40100, 0x80)] = some 0xFFFFFFFFFFFFFF80 := by decide +kernel
theorem test_ld_hu_order : x1 (.ldHu 1 2 0x7FF) (two 0x40102 0) [(0x40100, 0x34), (0x40101, 0x92)] = some 0x9234 := by decide +kernel
theorem test_ld_misaligned :
    shows (.ldW 1 2 0) (fun c => (c.pc, c.trapval)) (two 0x40102 0) = some (0x40800, 0x40102) := by decide +kernel
theorem test_st_h_bytes :
    ((after (.stH 3 2 1) (dev (th (two 0x40100 0x9ABCD)))).bind (·.chunk)).map
        (fun k => (k.stores.map fun e => (e.1, e.2.2), (k.stores.map (·.2.1)).all (· == 255)))
      = some ([(0x40102, 0xCD), (0x40103, 0xAB)], true) := by decide +kernel
theorem test_amo_min_signed :
    ((after (.amoMin 1 2 3 false) (dev (th (two 0x40100 0xFFFFFFFF)) [(0x40100, 5)])).bind fun t => t.chunk.map fun k =>
        (t.ctx.xAt 1, k.stores.map fun e => (e.1, e.2.2)))
      = some (5, [(0x40100, 0xFF), (0x40101, 0xFF), (0x40102, 0xFF), (0x40103, 0xFF)]) := by decide +kernel
theorem test_cas_differs :
    ((after (.cas 1 2 3 false) (dev (th (xs [(1, 6), (2, 0x40100), (3, 9)])) [(0x40100, 5)])).bind fun t => t.chunk.map fun k =>
        (t.ctx.xAt 1, k.stores.length)) = some (5, 0) := by decide +kernel
/-- The expected value's high bits are ignored by a word cas. -/
theorem test_cas_word_compares_low_bits :
    ((after (.cas 1 2 3 false) (dev (th (xs [(1, 0xFFFFFFFF00000005), (2, 0x40100), (3, 9)])) [(0x40100, 5)])).bind fun t =>
        t.chunk.map fun k => (t.ctx.xAt 1, k.stores.map fun e => (e.1, e.2.2)))
      = some (5, [(0x40100, 9), (0x40101, 0), (0x40102, 0), (0x40103, 0)]) := by decide +kernel

/-! Vectors of 32-bit integers (R96, R100, R104, R114, R115, R119, R121). -/

theorem test_vadd_keeps_tail :
    v1 (.vadd 1 2 3 false false) (vs 2 [(1, 7 * 2 ^ 64), (2, 0xFFFFFFFF + 5 * 2 ^ 32), (3, 1 + 6 * 2 ^ 32)])
      = some (0 + 11 * 2 ^ 32 + 7 * 2 ^ 64) := by decide +kernel
theorem test_vsub_vx :
    v1 (.vsubVx 1 2 3 false) (fun c => vs 2 [(2, 4 + 5 * 2 ^ 32)] (xs [(3, 5)] c)) = some (0xFFFFFFFF + 0 * 2 ^ 32) := by decide +kernel
theorem test_vidx : v1 (.vidx 1 0xFFF 2) (vs 3 []) = some (0xFFFFFFFF + 1 * 2 ^ 32 + 3 * 2 ^ 64) := by decide +kernel
theorem test_guard :
    v1 (.vadd 1 2 3 false false)
      (fun c => { vs 2 [(2, 1 + 2 * 2 ^ 32), (3, 1 + 1 * 2 ^ 32)] c with mode := 0x440002, p := c.p.setIfInBounds 1 2 })
      = some (3 * 2 ^ 32) := by decide +kernel
theorem test_vredt : x1 (.vredt 1 2 3 false) (fun c => vs 3 [(2, 1 + 2 * 2 ^ 32 + 0xFFFFFFF0 * 2 ^ 64)] (xs [(3, 4)] c)) = some (-9) := by
  decide +kernel
theorem test_vredmax_signed : x1 (.vredmax 1 2 3 false) (fun c => vs 2 [(2, 0xFFFFFFFF + 2 * 2 ^ 32)] (xs [(3, 1)] c)) = some 2 := by
  decide +kernel
theorem test_vslidedn : v1 (.vslidedn 1 2 3 false) (fun c => vs 3 [(2, 1 + 2 * 2 ^ 32 + 3 * 2 ^ 64)] (xs [(3, 1)] c))
    = some (2 + 3 * 2 ^ 32) := by decide +kernel
theorem test_vcompress :
    v1 (.vcompress 1 2 1 false)
      (fun c => { vs 3 [(1, 9 * 2 ^ 32), (2, 1 + 2 * 2 ^ 32 + 3 * 2 ^ 64)] c with p := c.p.setIfInBounds 1 4 })
      = some (3 + 9 * 2 ^ 32) := by decide +kernel
theorem test_vcmp_lt_signed :
    shows (.vcmpLt 1 2 3 false false) (fun c => c.p[1].toNat) (vs 2 [(2, 0xFFFFFFFF + 2 * 2 ^ 32), (3, 1 + 2 * 2 ^ 32)])
      = some 1 := by decide +kernel
theorem test_pwhile : shows (.pwhile 1 2 3) (fun c => c.p[1].toNat) (fun c => vs 8 [] (two 5 9 c)) = some 15 := by decide +kernel
theorem test_pfirst_none : x1 (.pfirst 1 2) (vs 4 []) = some 0xFFFFFFFFFFFFFFFF := by decide +kernel
theorem test_vext_beyond : x1 (.vext 1 2 3 false) (fun c => vs 1 [(2, 1 + 2 * 2 ^ 32)] (xs [(3, 1)] c)) = some 0 := by decide +kernel
theorem test_vld :
    v1 (.vld 1 2) (fun c => vs 2 [] (xs [(2, 0x40100)] c)) [(0x40100, 1), (0x40107, 0x80)] = some (1 + 0x80000000 * 2 ^ 32) := by
  decide +kernel

/-! Chunks, tags and stands (R182, R183, R224, R257). -/

theorem test_chkbeg_opens :
    ((after .chkbeg (dev th)).bind (·.chunk)).map (fun k => (k.explicit, k.icount)) = some (true, 0) := by decide +kernel
theorem test_chkend_alone : shows .chkend (fun c => (c.pc, c.priv)) = some (0x40004, false) := by decide +kernel
theorem test_twait_any_of_none :
    shows (.twaitAny 1 2) (fun c => (c.pc, c.trapval, c.trappc)) (two 0 0) = some (0x40800, 0, 0x40000) := by decide +kernel
theorem test_twait_all_of_none : shows (.twaitAll 1 2) (fun c => (c.pc, c.xAt 1)) (two 0 0) = some (0x40004, 0) := by
  decide +kernel

/-! The number formats' own examples (R77 to R87). -/

/-- E4M3 as the reset value of fmt0 gives it. -/
def e4m3 : Fmt := fmtOf 0x70343

/-- 450 rounds to 448, 464 is a tie to 448 under rne and overflows to the NaN under rna, and 500 saturates to 448. -/
theorem test_e4m3_rounding :
    e4m3.round 0 false 0 (Val.ofInt 450) = (0x7E, fNX) ∧ e4m3.round 0 false 0 (Val.ofInt 464) = (0x7E, fNX) ∧
    e4m3.round 4 false 0 (Val.ofInt 464) = (0x7F, fOF ||| fNX) ∧ e4m3.round 0 false 0 (Val.ofInt 500) = (0x7F, fOF ||| fNX) ∧
    e4m3.round 0 true 0 (Val.ofInt 500) = (0x7E, fOF ||| fNX) := by decide +kernel
/-- Code 0x7E is 448: the rounding of 448 is exact and is that code. -/
theorem test_e4m3_largest : e4m3.round 0 false 0 (Val.ofInt 448) = (0x7E, 0) := by decide +kernel
/-- A counter of 0 under a key of 0 mixes to 0 (R108). -/
theorem test_mix_zero : mix 0 0 = 0 := by decide +kernel

/-! The worked examples of the chapters. -/

/-- Byte 2,591 of the scale register serves element 1,000 of v21, of E2M1 elements in blocks of 32 (R83). -/
theorem test_scale_lookup : scaleSlot (th fun c => { c with mode := 0x1C002E }) 21 4 1000 = 2591 := by decide +kernel
/-- Entry 0xC020_5124 sends offset 0x12_3456_7880 of device 37 by port 9, to its die 1 (R320, R322). -/
theorem test_route :
    ({ State.reset with routes := [(37, 0xC0205124)] } : State).portFor 37 0x1234567880 = 9 ∧ homeDie 0x1234567880 = some 1 := by
  decide +kernel

/-- The union of the worked example of the fibres, where FCAP is 4, at an fprog: register 3 and fprog afterwards (R136, R145). -/
noncomputable def union (fprog : Word) : Option (Fibre × Word) :=
  (after (.funion 3 1 2 1) (dev (th (fun c =>
    { c with
      mode := 0x40002, fprog
      f := (c.f.setIfInBounds 1 [(2, 10), (5, 20), (9, 30)]).setIfInBounds 2 [(1, 1), (5, 2), (7, 3), (12, 4)] })
    fun t => { t with part := 0x00841088 }))).map fun t => (t.ctx.f[3], t.ctx.fprog)

theorem test_union_first : union 0 = some ([(1, 1), (2, 10), (5, 22), (7, 3)], 0x4004000000003002) := by decide +kernel
theorem test_union_second : union 0x4004000000003002 = some ([(9, 30), (12, 4)], 0) := by decide +kernel

/-! A step of the device (R26, R34): the word of addi x9, x9, 256, and the all-zero word, fetched and run. -/

/-- Thread 0 after a step that fetches a word. -/
noncomputable def fetched (w : Nat) : Option Thread := (nextOf (step (State.reset.withFetchWord 32 w))).bind fun s => tfind 0 s.threads

theorem test_step_addi : (fetched 0x0C924100).map (fun t => (t.ctx.xAt 9, t.ctx.pc)) = some (256, 0x40004) := by decide +kernel
theorem test_step_illegal : (fetched 0).map (fun t => (t.ctx.pc, t.ctx.trappc, t.ctx.priv)) = some (0x40800, 0x40000, true) := by
  decide +kernel

end Sys2Proof.Tests
end

section
/-! The fibre instructions on registers, as the dispatch reaches them: what each does with fibre storage present, and the trap
that they share without it (R15, R131, R143 to R148). -/

namespace Sys2Proof.Machine

/-! ## The dispatch -/

theorem exec_finter (d a b : BitVec 6) (k : BitVec 3) (s : State) : exec (.finter d a b k) s = execFinter d a b k s := rfl
theorem exec_funion (d a b : BitVec 6) (k : BitVec 3) (s : State) : exec (.funion d a b k) s = execFunion d a b k s := rfl
theorem exec_fmerge (d a b : BitVec 6) (k : BitVec 3) (s : State) : exec (.fmerge d a b k) s = execFmerge d a b k s := rfl
theorem exec_fcompact (d a b : BitVec 6) (c : Bool) (s : State) : exec (.fcompact d a b c) s = execFcompact d a b c s := rfl
theorem exec_fexpand (d a : BitVec 6) (s : State) : exec (.fexpand d a) s = execFexpand d a s := rfl
theorem exec_flen (d a : BitVec 6) (s : State) : exec (.flen d a) s = execFlen d a s := rfl
theorem exec_fclr (d : BitVec 6) (s : State) : exec (.fclr d) s = execFclr d s := rfl
theorem exec_fcopy (d a : BitVec 6) (s : State) : exec (.fcopy d a) s = execFcopy d a s := rfl

/-! ## Without fibre storage (R15, R131) -/

/-- The trap of a fibre instruction in a partition with no fibre registers: 0x01 with the word. -/
def State.noFibresTrap (s : State) : Trap := { code := 1, sub := 0, val := s.fetched.setWidth 64 }

theorem fibreCap_traps {r : Running} (h : partFib r.t.part = 0) : fibreCap r = .error (.trap r.s.noFibresTrap) r := by
  unfold fibreCap
  refine bind_ok (run_get r) ?_
  rw [if_pos h]
  rfl

/-- Every meaning that begins by asking for the fibre capacity takes that trap, whatever the rest of it does. -/
theorem control_noFibres {s : State} {t : Thread} (q : Ready s t) (h : partFib t.part = 0) (rest : Nat → Exec Unit) :
    control {} (seq (fibreCap >>= rest)) s = .next ((atBody s t).takeTrap s.noFibresTrap) := by
  have hcap : fibreCap (atBody s t) = .error (.trap s.noFibresTrap) (atBody s t) := fibreCap_traps h
  refine control_trap q (.inl rfl) rfl ?_
  rw [run_seq, run_bind, hcap]

theorem flen_traps {s : State} {t : Thread} (q : Ready s t) (h : partFib t.part = 0) (d a : BitVec 6) :
    execFlen d a s = .next ((atBody s t).takeTrap s.noFibresTrap) := control_noFibres q h _

theorem fclr_traps {s : State} {t : Thread} (q : Ready s t) (h : partFib t.part = 0) (d : BitVec 6) :
    execFclr d s = .next ((atBody s t).takeTrap s.noFibresTrap) := control_noFibres q h _

theorem fcopy_traps {s : State} {t : Thread} (q : Ready s t) (h : partFib t.part = 0) (d a : BitVec 6) :
    execFcopy d a s = .next ((atBody s t).takeTrap s.noFibresTrap) := control_noFibres q h _

/-- Settles O45: each completing clause is the instruction's law behind the dispatch, and the trap is the one that every fibre
instruction takes where fibreCap finds no storage. -/
theorem fibreJoins : Obligations.FibreJoins := by
  unfold Obligations.FibreJoins
  refine ⟨?finter, ?funion, ?fmerge, ?fcompact, ?fexpand, ?flen, ?fclr, ?fcopy, ?absent⟩
  case finter =>
    intro s t d a b k out q hf hm ho
    rw [exec_finter]
    exact finter_done q hf hm d a b k out ho
  case funion =>
    intro s t d a b k ia ib oc m w q hf hm hp hia hib hoc ha hb hme hw
    rw [exec_funion]
    exact funion_done q hf hm d a b k hp ia ib oc hia hib hoc ha hb m hme w hw
  case fmerge =>
    intro s t d a b k n oc cur ins m w q hf hm hp hn hcur hoc hins hin hout hme hw
    rw [exec_fmerge]
    exact fmerge_done q hf hm d a b k hp n oc hn cur hcur hoc ins hins hin hout m hme w hw
  case fcompact =>
    intro s t d a b c i oc es w q hf hm hp hi hoc hvl hes hw
    rw [exec_fcompact]
    exact fcompact_done q hf hm d a b c hp i oc hi hoc hvl es hes w hw
  case fexpand =>
    intro s t d a q hf hm
    rw [exec_fexpand]
    exact fexpand_done q hf hm d a
  case flen =>
    intro s t d a q hf
    rw [exec_flen]
    exact flen_done q hf d a
  case fclr =>
    intro s t d q hf
    rw [exec_fclr]
    exact fclr_done q hf d
  case fcopy =>
    intro s t d a q hf
    rw [exec_fcopy]
    exact fcopy_done q hf d a
  case absent =>
    intro s t d a x q hf hx
    simp only [List.mem_cons, List.not_mem_nil, or_false] at hx
    obtain rfl | rfl | rfl := hx
    · rw [exec_flen]
      exact flen_traps q.toReady hf d a
    · rw [exec_fclr]
      exact fclr_traps q.toReady hf d
    · rw [exec_fcopy]
      exact fcopy_traps q.toReady hf d a

end Sys2Proof.Machine
end

section
/-! The round trip of the encoding (R26, R27, R28, R32), from the law of each row of the opcode table. -/

namespace Sys2Proof

/-- Every row of the opcode table: the word of a well-formed instruction decodes to it. -/
theorem decode_encode : ∀ i : Instr, Laws.Encodes.Statement i
  | .chunkLimitEnd tid => Laws.Encodes.chunkLimitEnd tid  | .chunkCommit tid => Laws.Encodes.chunkCommit tid
  | .priorityCommitRequest tid => Laws.Encodes.priorityCommitRequest tid  | .priorityTicketPass => Laws.Encodes.priorityTicketPass
  | .persistentRequest tid line => Laws.Encodes.persistentRequest tid line  | .farOpPerform slice => Laws.Encodes.farOpPerform slice
  | .deferredLoadReply id => Laws.Encodes.deferredLoadReply id
  | .fabricReply id port codes data => Laws.Encodes.fabricReply id port codes data  | .asyncTrap tid => Laws.Encodes.asyncTrap tid
  | .trapEntry tid => Laws.Encodes.trapEntry tid  | .tileOpPerform tid => Laws.Encodes.tileOpPerform tid
  | .matrixDrain id n => Laws.Encodes.matrixDrain id n  | .copyStart core => Laws.Encodes.copyStart core
  | .copyElement id n => Laws.Encodes.copyElement id n  | .copyComplete id => Laws.Encodes.copyComplete id
  | .barrierCredit id bytes => Laws.Encodes.barrierCredit id bytes  | .streamRefill tid v n => Laws.Encodes.streamRefill tid v n
  | .post parcel j => Laws.Encodes.post parcel j  | .postCredit parcel j => Laws.Encodes.postCredit parcel j
  | .traverseDone parcel => Laws.Encodes.traverseDone parcel  | .traverseStop parcel => Laws.Encodes.traverseStop parcel
  | .placeThread tids cores slots => Laws.Encodes.placeThread tids cores slots  | .preempt tid => Laws.Encodes.preempt tid
  | .placementAging tid => Laws.Encodes.placementAging tid  | .blockedEvictionAge tid => Laws.Encodes.blockedEvictionAge tid
  | .stripGrant core tid => Laws.Encodes.stripGrant core tid  | .stripAging tid => Laws.Encodes.stripAging tid
  | .waitSatisfied tid => Laws.Encodes.waitSatisfied tid  | .pauseEnd tid => Laws.Encodes.pauseEnd tid
  | .cacheEviction what => Laws.Encodes.cacheEviction what  | .mgdWritebackArrival n => Laws.Encodes.mgdWritebackArrival n
  | .pageWalk die parcel va kind => Laws.Encodes.pageWalk die parcel va kind
  | .fabricRequestArrival r => Laws.Encodes.fabricRequestArrival r  | .extensionPacketArrival p => Laws.Encodes.extensionPacketArrival p
  | .fabricCombine stage first second => Laws.Encodes.fabricCombine stage first second
  | .combineWindowExpiry id => Laws.Encodes.combineWindowExpiry id  | .replySplit id => Laws.Encodes.replySplit id
  | .idleFlit port => Laws.Encodes.idleFlit port  | .linkDown port => Laws.Encodes.linkDown port
  | .linkTrained link width version => Laws.Encodes.linkTrained link width version  | .heartbeat => Laws.Encodes.heartbeat
  | .peerLost dev => Laws.Encodes.peerLost dev  | .downNoticeReceived dev => Laws.Encodes.downNoticeReceived dev
  | .hostWrite pa data => Laws.Encodes.hostWrite pa data
  | .hostAtomic pa op dword value expected => Laws.Encodes.hostAtomic pa op dword value expected
  | .hostRead pa n => Laws.Encodes.hostRead pa n  | .eccError double place => Laws.Encodes.eccError double place
  | .coreFence core cause corrupt => Laws.Encodes.coreFence core cause corrupt
  | .refreshDue stack bank burst => Laws.Encodes.refreshDue stack bank burst
  | .refreshPostponeLimit stack bank => Laws.Encodes.refreshPostponeLimit stack bank
  | .scrubPassStart stack => Laws.Encodes.scrubPassStart stack  | .scrubLine stack tags => Laws.Encodes.scrubLine stack tags
  | .scrubPassEnd stack => Laws.Encodes.scrubPassEnd stack  | .logWrapClear stack => Laws.Encodes.logWrapClear stack
  | .powerWindow watts => Laws.Encodes.powerWindow watts  | .crewClockGate crew => Laws.Encodes.crewClockGate crew
  | .thermalThrottle die celsius => Laws.Encodes.thermalThrottle die celsius
  | .thermalTrip die celsius => Laws.Encodes.thermalTrip die celsius  | .resetPinRelease => Laws.Encodes.resetPinRelease
  | .resetPinAssert => Laws.Encodes.resetPinAssert  | .loadFirmwareImage h image => Laws.Encodes.loadFirmwareImage h image
  | .writeParcelDescriptor h desc => Laws.Encodes.writeParcelDescriptor h desc
  | .createRootThread h entry args config => Laws.Encodes.createRootThread h entry args config
  | .removeLaunch h launch => Laws.Encodes.removeLaunch h launch  | .endParcel h => Laws.Encodes.endParcel h
  | .assignFrames h first count owner => Laws.Encodes.assignFrames h first count owner
  | .writeRouteEntry h dev entry => Laws.Encodes.writeRouteEntry h dev entry
  | .setDeviceNumber h number => Laws.Encodes.setDeviceNumber h number  | .clearLostMark h dev => Laws.Encodes.clearLostMark h dev
  | .requestKeyRotation h => Laws.Encodes.requestKeyRotation h  | .setScrubPeriod h hours => Laws.Encodes.setScrubPeriod h hours
  | .setPowerLimit h watts => Laws.Encodes.setPowerLimit h watts
  | .writeHostAperture h index aperture => Laws.Encodes.writeHostAperture h index aperture
  | .assignBlocks h first count owner => Laws.Encodes.assignBlocks h first count owner
  | .configurationComplete h links => Laws.Encodes.configurationComplete h links
  | .illegalInstruction w => Laws.Encodes.illegalInstruction w  | .mfsrCtags d => Laws.Encodes.mfsrCtags d
  | .laneFailure link => Laws.Encodes.laneFailure link  | .heartbeatReceived dev => Laws.Encodes.heartbeatReceived dev
  | .idleFlitReceived port => Laws.Encodes.idleFlitReceived port  | .thermalRecovery celsius => Laws.Encodes.thermalRecovery celsius
  | .unknownRequest h => Laws.Encodes.unknownRequest h  | .ecall => Laws.Encodes.ecall  | .eret => Laws.Encodes.eret
  | .tlbi a => Laws.Encodes.tlbi a  | .tlbia => Laws.Encodes.tlbia  | .pkset => Laws.Encodes.pkset  | .pkclr => Laws.Encodes.pkclr
  | .pause => Laws.Encodes.pause  | .nop => Laws.Encodes.nop  | .mode g s r t c b d => Laws.Encodes.mode g s r t c b d
  | .add d a b => Laws.Encodes.add d a b  | .sub d a b => Laws.Encodes.sub d a b  | .and d a b => Laws.Encodes.and d a b
  | .or d a b => Laws.Encodes.or d a b  | .xor d a b => Laws.Encodes.xor d a b  | .sll d a b => Laws.Encodes.sll d a b
  | .srl d a b => Laws.Encodes.srl d a b  | .sra d a b => Laws.Encodes.sra d a b  | .slt d a b => Laws.Encodes.slt d a b
  | .sltu d a b => Laws.Encodes.sltu d a b  | .mul d a b => Laws.Encodes.mul d a b  | .mulh d a b => Laws.Encodes.mulh d a b
  | .mulhu d a b => Laws.Encodes.mulhu d a b  | .div d a b => Laws.Encodes.div d a b  | .divu d a b => Laws.Encodes.divu d a b
  | .rem d a b => Laws.Encodes.rem d a b  | .remu d a b => Laws.Encodes.remu d a b  | .min d a b => Laws.Encodes.min d a b
  | .max d a b => Laws.Encodes.max d a b  | .minu d a b => Laws.Encodes.minu d a b  | .maxu d a b => Laws.Encodes.maxu d a b
  | .addi d a i => Laws.Encodes.addi d a i  | .andi d a i => Laws.Encodes.andi d a i  | .ori d a i => Laws.Encodes.ori d a i
  | .xori d a i => Laws.Encodes.xori d a i  | .slli d a n => Laws.Encodes.slli d a n  | .srli d a n => Laws.Encodes.srli d a n
  | .srai d a n => Laws.Encodes.srai d a n  | .lih d i => Laws.Encodes.lih d i  | .pcrel d i => Laws.Encodes.pcrel d i
  | .beq a b o => Laws.Encodes.beq a b o  | .bne a b o => Laws.Encodes.bne a b o  | .blt a b o => Laws.Encodes.blt a b o
  | .bge a b o => Laws.Encodes.bge a b o  | .bltu a b o => Laws.Encodes.bltu a b o  | .bgeu a b o => Laws.Encodes.bgeu a b o
  | .jal d o => Laws.Encodes.jal d o  | .jalr d a i => Laws.Encodes.jalr d a i  | .loop c l => Laws.Encodes.loop c l
  | .loopr c l => Laws.Encodes.loopr c l  | .vfetch n o => Laws.Encodes.vfetch n o  | .vpbr v o => Laws.Encodes.vpbr v o
  | .vpstop => Laws.Encodes.vpstop  | .vpsync => Laws.Encodes.vpsync  | .ldB d a o => Laws.Encodes.ldB d a o
  | .ldH d a o => Laws.Encodes.ldH d a o  | .ldW d a o => Laws.Encodes.ldW d a o  | .ldD d a o => Laws.Encodes.ldD d a o
  | .ldBu d a o => Laws.Encodes.ldBu d a o  | .ldHu d a o => Laws.Encodes.ldHu d a o  | .ldWu d a o => Laws.Encodes.ldWu d a o
  | .stB d a o => Laws.Encodes.stB d a o  | .stH d a o => Laws.Encodes.stH d a o  | .stW d a o => Laws.Encodes.stW d a o
  | .stD d a o => Laws.Encodes.stD d a o  | .amoAdd d a b z => Laws.Encodes.amoAdd d a b z  | .amoAnd d a b z => Laws.Encodes.amoAnd d a b z
  | .amoOr d a b z => Laws.Encodes.amoOr d a b z  | .amoXor d a b z => Laws.Encodes.amoXor d a b z
  | .amoMin d a b z => Laws.Encodes.amoMin d a b z  | .amoMax d a b z => Laws.Encodes.amoMax d a b z
  | .amoMinu d a b z => Laws.Encodes.amoMinu d a b z  | .amoMaxu d a b z => Laws.Encodes.amoMaxu d a b z
  | .amoSwap d a b z => Laws.Encodes.amoSwap d a b z  | .amoFadd d a b z => Laws.Encodes.amoFadd d a b z
  | .cas d a b z => Laws.Encodes.cas d a b z  | .fence s => Laws.Encodes.fence s  | .acq d a s => Laws.Encodes.acq d a s
  | .rel a b s => Laws.Encodes.rel a b s  | .pref a => Laws.Encodes.pref a  | .setvl d a => Laws.Encodes.setvl d a
  | .setvli d n => Laws.Encodes.setvli d n  | .mfsr d r => Laws.Encodes.mfsr d r  | .mfsrFflags d => Laws.Encodes.mfsrFflags d
  | .mfsrMsat d => Laws.Encodes.mfsrMsat d  | .mtsr a r => Laws.Encodes.mtsr a r  | .mtsrMode a => Laws.Encodes.mtsrMode a
  | .mtsrFmt a f => Laws.Encodes.mtsrFmt a f  | .mtsrFflags a => Laws.Encodes.mtsrFflags a  | .mtsrFprog a => Laws.Encodes.mtsrFprog a
  | .mtsrCtags a => Laws.Encodes.mtsrCtags a  | .mtsrMsat a => Laws.Encodes.mtsrMsat a  | .mtsrPtroot a => Laws.Encodes.mtsrPtroot a
  | .mtsrTrapvec a => Laws.Encodes.mtsrTrapvec a  | .mtsrPshare a => Laws.Encodes.mtsrPshare a  | .vidx d s p => Laws.Encodes.vidx d s p
  | .vadd d a b c e => Laws.Encodes.vadd d a b c e  | .vaddVx d a b c => Laws.Encodes.vaddVx d a b c
  | .vsub d a b c e => Laws.Encodes.vsub d a b c e  | .vsubVx d a b c => Laws.Encodes.vsubVx d a b c
  | .vmul d a b c e => Laws.Encodes.vmul d a b c e  | .vmulVx d a b c => Laws.Encodes.vmulVx d a b c
  | .vmulh d a b c e => Laws.Encodes.vmulh d a b c e  | .vmulhVx d a b c => Laws.Encodes.vmulhVx d a b c
  | .vmacc d a b c e => Laws.Encodes.vmacc d a b c e  | .vmaccVx d a b c => Laws.Encodes.vmaccVx d a b c
  | .vdiv d a b c e => Laws.Encodes.vdiv d a b c e  | .vdivVx d a b c => Laws.Encodes.vdivVx d a b c
  | .vrem d a b c e => Laws.Encodes.vrem d a b c e  | .vremVx d a b c => Laws.Encodes.vremVx d a b c
  | .vmin d a b c e => Laws.Encodes.vmin d a b c e  | .vminVx d a b c => Laws.Encodes.vminVx d a b c
  | .vmax d a b c e => Laws.Encodes.vmax d a b c e  | .vmaxVx d a b c => Laws.Encodes.vmaxVx d a b c
  | .vand d a b c e => Laws.Encodes.vand d a b c e  | .vandVx d a b c => Laws.Encodes.vandVx d a b c
  | .vor d a b c e => Laws.Encodes.vor d a b c e  | .vorVx d a b c => Laws.Encodes.vorVx d a b c
  | .vxor d a b c e => Laws.Encodes.vxor d a b c e  | .vxorVx d a b c => Laws.Encodes.vxorVx d a b c
  | .vsll d a b c e => Laws.Encodes.vsll d a b c e  | .vsllVx d a b c => Laws.Encodes.vsllVx d a b c
  | .vsrl d a b c e => Laws.Encodes.vsrl d a b c e  | .vsrlVx d a b c => Laws.Encodes.vsrlVx d a b c
  | .vsra d a b c e => Laws.Encodes.vsra d a b c e  | .vsraVx d a b c => Laws.Encodes.vsraVx d a b c  | .vrng d a => Laws.Encodes.vrng d a
  | .vfadd d a b c e => Laws.Encodes.vfadd d a b c e  | .vfaddVx d a b c => Laws.Encodes.vfaddVx d a b c
  | .vfsub d a b c e => Laws.Encodes.vfsub d a b c e  | .vfsubVx d a b c => Laws.Encodes.vfsubVx d a b c
  | .vfmul d a b c e => Laws.Encodes.vfmul d a b c e  | .vfmulVx d a b c => Laws.Encodes.vfmulVx d a b c
  | .vfma d a b c e => Laws.Encodes.vfma d a b c e  | .vfmaVx d a b c => Laws.Encodes.vfmaVx d a b c
  | .vfms d a b c e => Laws.Encodes.vfms d a b c e  | .vfmsVx d a b c => Laws.Encodes.vfmsVx d a b c
  | .vfnma d a b c e => Laws.Encodes.vfnma d a b c e  | .vfnmaVx d a b c => Laws.Encodes.vfnmaVx d a b c
  | .vfnms d a b c e => Laws.Encodes.vfnms d a b c e  | .vfnmsVx d a b c => Laws.Encodes.vfnmsVx d a b c
  | .vfdiv d a b c e => Laws.Encodes.vfdiv d a b c e  | .vfdivVx d a b c => Laws.Encodes.vfdivVx d a b c
  | .vfsqrt d a c => Laws.Encodes.vfsqrt d a c  | .vfrec d a c => Laws.Encodes.vfrec d a c
  | .vfmin d a b c e => Laws.Encodes.vfmin d a b c e  | .vfminVx d a b c => Laws.Encodes.vfminVx d a b c
  | .vfmax d a b c e => Laws.Encodes.vfmax d a b c e  | .vfmaxVx d a b c => Laws.Encodes.vfmaxVx d a b c
  | .vfabs d a c => Laws.Encodes.vfabs d a c  | .vfneg d a c => Laws.Encodes.vfneg d a c  | .vfrint d a c => Laws.Encodes.vfrint d a c
  | .vfexp2 d a c => Laws.Encodes.vfexp2 d a c  | .vfscale d a b c e => Laws.Encodes.vfscale d a b c e
  | .vfscaleVx d a b c => Laws.Encodes.vfscaleVx d a b c  | .vfclass d a c => Laws.Encodes.vfclass d a c
  | .vcmpEq d a b c e => Laws.Encodes.vcmpEq d a b c e  | .vcmpNe d a b c e => Laws.Encodes.vcmpNe d a b c e
  | .vcmpLt d a b c e => Laws.Encodes.vcmpLt d a b c e  | .vcmpLe d a b c e => Laws.Encodes.vcmpLe d a b c e
  | .vcmpGt d a b c e => Laws.Encodes.vcmpGt d a b c e  | .vcmpGe d a b c e => Laws.Encodes.vcmpGe d a b c e
  | .vcmpUn d a b c e => Laws.Encodes.vcmpUn d a b c e  | .pand d a b => Laws.Encodes.pand d a b  | .por d a b => Laws.Encodes.por d a b
  | .pxor d a b => Laws.Encodes.pxor d a b  | .pandn d a b => Laws.Encodes.pandn d a b  | .pnot d a => Laws.Encodes.pnot d a
  | .pwhile d a b => Laws.Encodes.pwhile d a b  | .pcnt d a => Laws.Encodes.pcnt d a  | .pfirst d a => Laws.Encodes.pfirst d a
  | .vcvt d a c => Laws.Encodes.vcvt d a c  | .vqnt d a c => Laws.Encodes.vqnt d a c  | .vdqnt d a c => Laws.Encodes.vdqnt d a c
  | .vbscale d a c => Laws.Encodes.vbscale d a c  | .vbsmax d a c => Laws.Encodes.vbsmax d a c
  | .vredo d a b c => Laws.Encodes.vredo d a b c  | .vredt d a b c => Laws.Encodes.vredt d a b c
  | .vredmin d a b c => Laws.Encodes.vredmin d a b c  | .vredmax d a b c => Laws.Encodes.vredmax d a b c
  | .vslideup d a b c => Laws.Encodes.vslideup d a b c  | .vslidedn d a b c => Laws.Encodes.vslidedn d a b c
  | .vgath d a b c e => Laws.Encodes.vgath d a b c e  | .vcompress d a b c => Laws.Encodes.vcompress d a b c
  | .vexpand d a b c => Laws.Encodes.vexpand d a b c  | .vbcast d a => Laws.Encodes.vbcast d a  | .vext d a b c => Laws.Encodes.vext d a b c
  | .vins d a b => Laws.Encodes.vins d a b  | .vmv d a c => Laws.Encodes.vmv d a c  | .vld d a => Laws.Encodes.vld d a
  | .vldS d a b => Laws.Encodes.vldS d a b  | .vldX d a b e => Laws.Encodes.vldX d a b e  | .vst d a => Laws.Encodes.vst d a
  | .vstS d a b => Laws.Encodes.vstS d a b  | .vstX d a b e => Laws.Encodes.vstX d a b e  | .vamoAdd d a b e => Laws.Encodes.vamoAdd d a b e
  | .vamoAddRet d a b e => Laws.Encodes.vamoAddRet d a b e  | .vamoAnd d a b e => Laws.Encodes.vamoAnd d a b e
  | .vamoAndRet d a b e => Laws.Encodes.vamoAndRet d a b e  | .vamoOr d a b e => Laws.Encodes.vamoOr d a b e
  | .vamoOrRet d a b e => Laws.Encodes.vamoOrRet d a b e  | .vamoXor d a b e => Laws.Encodes.vamoXor d a b e
  | .vamoXorRet d a b e => Laws.Encodes.vamoXorRet d a b e  | .vamoMin d a b e => Laws.Encodes.vamoMin d a b e
  | .vamoMinRet d a b e => Laws.Encodes.vamoMinRet d a b e  | .vamoMax d a b e => Laws.Encodes.vamoMax d a b e
  | .vamoMaxRet d a b e => Laws.Encodes.vamoMaxRet d a b e  | .vamoMinu d a b e => Laws.Encodes.vamoMinu d a b e
  | .vamoMinuRet d a b e => Laws.Encodes.vamoMinuRet d a b e  | .vamoMaxu d a b e => Laws.Encodes.vamoMaxu d a b e
  | .vamoMaxuRet d a b e => Laws.Encodes.vamoMaxuRet d a b e  | .vamoSwap d a b e => Laws.Encodes.vamoSwap d a b e
  | .vamoSwapRet d a b e => Laws.Encodes.vamoSwapRet d a b e  | .vamoFadd d a b e => Laws.Encodes.vamoFadd d a b e
  | .vamoFaddRet d a b e => Laws.Encodes.vamoFaddRet d a b e  | .vdrain => Laws.Encodes.vdrain  | .vpref a => Laws.Encodes.vpref a
  | .fld d a b => Laws.Encodes.fld d a b  | .fst d a => Laws.Encodes.fst d a  | .fwalk d a b => Laws.Encodes.fwalk d a b
  | .finter d a b k => Laws.Encodes.finter d a b k  | .funion d a b k => Laws.Encodes.funion d a b k
  | .fmerge d a b k => Laws.Encodes.fmerge d a b k  | .fcompact d a b c => Laws.Encodes.fcompact d a b c
  | .fexpand d a => Laws.Encodes.fexpand d a  | .fgath d a => Laws.Encodes.fgath d a  | .fscat d a => Laws.Encodes.fscat d a
  | .flen d a => Laws.Encodes.flen d a  | .fclr d => Laws.Encodes.fclr d  | .fcopy d a => Laws.Encodes.fcopy d a
  | .mattach d a => Laws.Encodes.mattach d a  | .mdetach => Laws.Encodes.mdetach  | .mmode d a => Laws.Encodes.mmode d a
  | .mzero t => Laws.Encodes.mzero t  | .mopVv p t a b c e => Laws.Encodes.mopVv p t a b c e
  | .mopSv p t a b e => Laws.Encodes.mopSv p t a b e  | .mopSs p t a b => Laws.Encodes.mopSs p t a b
  | .mldaV t a b c => Laws.Encodes.mldaV t a b c  | .mldaS t a b => Laws.Encodes.mldaS t a b  | .mstaV t a b => Laws.Encodes.mstaV t a b
  | .mstaS t a b => Laws.Encodes.mstaS t a b  | .mprune d a b c => Laws.Encodes.mprune d a b c  | .cpy d a b => Laws.Encodes.cpy d a b
  | .cpym d a b => Laws.Encodes.cpym d a b  | .smode d a => Laws.Encodes.smode d a  | .sstop d => Laws.Encodes.sstop d
  | .twaitAny d a => Laws.Encodes.twaitAny d a  | .twaitAll d a => Laws.Encodes.twaitAll d a  | .tffr d a => Laws.Encodes.tffr d a
  | .barinit a b => Laws.Encodes.barinit a b  | .barexp a b => Laws.Encodes.barexp a b  | .bararr d a => Laws.Encodes.bararr d a
  | .barwait d a b => Laws.Encodes.barwait d a b  | .rwb a b => Laws.Encodes.rwb a b  | .rinv a b => Laws.Encodes.rinv a b
  | .rgndecl d a => Laws.Encodes.rgndecl d a  | .rgnfree a => Laws.Encodes.rgnfree a  | .cways d a => Laws.Encodes.cways d a
  | .live a b => Laws.Encodes.live a b  | .dead a b => Laws.Encodes.dead a b  | .chkbeg => Laws.Encodes.chkbeg
  | .chkend => Laws.Encodes.chkend  | .chkstat d => Laws.Encodes.chkstat d  | .launch d a => Laws.Encodes.launch d a
  | .texit => Laws.Encodes.texit  | .tyield => Laws.Encodes.tyield  | .sbar d a => Laws.Encodes.sbar d a
  | .sarrive d a => Laws.Encodes.sarrive d a  | .swait d a b => Laws.Encodes.swait d a b  | .stest d a => Laws.Encodes.stest d a
  | .bkstart d a b => Laws.Encodes.bkstart d a b  | .bkresume d a b => Laws.Encodes.bkresume d a b  | .bkstat d a => Laws.Encodes.bkstat d a
  | .fadd d a b => Laws.Encodes.fadd d a b  | .fsub d a b => Laws.Encodes.fsub d a b  | .fmul d a b => Laws.Encodes.fmul d a b
  | .fdiv d a b => Laws.Encodes.fdiv d a b  | .fsqrt d a => Laws.Encodes.fsqrt d a  | .fcvt d a b => Laws.Encodes.fcvt d a b

/-- Settles O4: the round trip holds row by row. -/
theorem encodeDecode : Obligations.EncodeDecode := decode_encode

end Sys2Proof
end

section
/-! Words written out bit by bit: those of instructions are their encodings, and the words that R34 lists are no instruction. -/

namespace Sys2Proof

/-- A word that is the encoding of a well-formed instruction decodes to it. -/
theorem decode_of_encode {w : BitVec 32} {i : Instr} (hw : w = encode i) (h : i.wf = true) (e : i.isEvent = false) :
    decode w = .ok i := by
  rw [hw]
  exact decode_encode i h e

theorem fOp_append (o : BitVec 6) (x : BitVec 26) : fOp (o ++ x) = o := by
  rw [fOp, extract_high o x 26 (le_refl 26)]
  exact extract_all o

theorem decode_zero : decode 0#32 = .error .allZero := by simp [decode]

theorem decode_3d (w : BitVec 32) (h : fOp w = 0x3d#6) : decode w = .error .reservedMajor := by
  have n : w ≠ 0#32 := nonzero_of_op (by rw [h]; decide)
  simp [decode, h, n]

theorem decode_3e (w : BitVec 32) (h : fOp w = 0x3e#6) : decode w = .error .reservedMajor := by
  have n : w ≠ 0#32 := nonzero_of_op (by rw [h]; decide)
  simp [decode, h, n]

theorem decode_3f (w : BitVec 32) (h : fOp w = 0x3f#6) : decode w = .error .permanentlyIllegal := by
  have n : w ≠ 0#32 := nonzero_of_op (by rw [h]; decide)
  simp [decode, h, n]

/-- Settles O3: the ten words are encodings, and the other four fall to the decoder's rejecting arms. -/
theorem decodeWords : Obligations.DecodeWords := by
  unfold Obligations.DecodeWords
  refine ⟨decode_of_encode rfl rfl rfl, decode_of_encode rfl rfl rfl, decode_of_encode rfl rfl rfl, decode_of_encode rfl rfl rfl,
    decode_of_encode rfl rfl rfl, decode_of_encode rfl rfl rfl, decode_of_encode rfl rfl rfl, decode_of_encode rfl rfl rfl,
    decode_of_encode rfl rfl rfl, decode_of_encode rfl rfl rfl, ⟨_, decode_zero⟩, fun x => ?_⟩
  exact ⟨⟨_, decode_3d _ (fOp_append ..)⟩, ⟨_, decode_3e _ (fOp_append ..)⟩, ⟨_, decode_3f _ (fOp_append ..)⟩⟩

end Sys2Proof
end

section
/-! The scalar register and immediate instructions: the manual's arithmetic (R51), and what they leave unchanged (R36, R50). -/

namespace Sys2Proof.Machine

section
variable {s : State} {t : Thread}

/-! ## The operations of R51 as exact arithmetic, reduced to 64 bits -/

theorem word_toInt (x : Word) : word x.toInt = x := BitVec.ofInt_toInt

theorem add_eq_word (x y : Word) : x + y = word (x.toInt + y.toInt) := by
  rw [word, BitVec.ofInt_add, BitVec.ofInt_toInt, BitVec.ofInt_toInt]

theorem mul_eq_word (x y : Word) : x * y = word (x.toInt * y.toInt) := by
  rw [word, BitVec.ofInt_mul, BitVec.ofInt_toInt, BitVec.ofInt_toInt]

theorem sub_eq_word (x y : Word) : x - y = word (x.toInt - y.toInt) := by
  rw [word, Int.sub_eq_add_neg, BitVec.ofInt_add, BitVec.ofInt_neg, BitVec.ofInt_toInt, BitVec.ofInt_toInt, BitVec.sub_eq_add_neg]

theorem shiftLeft_eq_ofNat (x : Word) (n : Nat) : x <<< n = BitVec.ofNat 64 (x.toNat * 2 ^ n) :=
  BitVec.eq_of_toNat_eq (by rw [BitVec.toNat_shiftLeft, Nat.shiftLeft_eq, BitVec.toNat_ofNat])

theorem ushiftRight_eq_ofNat (x : Word) (n : Nat) : x >>> n = BitVec.ofNat 64 (x.toNat / 2 ^ n) := by
  apply BitVec.eq_of_toNat_eq
  rw [BitVec.toNat_ushiftRight, Nat.shiftRight_eq_div_pow, BitVec.toNat_ofNat,
    Nat.mod_eq_of_lt (lt_of_le_of_lt (Nat.div_le_self _ _) x.isLt)]

theorem sshiftRight_eq_word (x : Word) (n : Nat) : x.sshiftRight n = word (x.toInt / 2 ^ n) := by
  rw [BitVec.sshiftRight, Int.shiftRight_eq_div_pow, word, Nat.cast_pow, Nat.cast_ofNat]

theorem slt_eq_ite (x y : Word) : (if x.slt y then 1 else 0 : Word) = if x.toInt < y.toInt then 1 else 0 := by
  simp only [BitVec.slt_iff_toInt_lt]

theorem ult_eq_ite (x y : Word) : (if x.ult y then 1 else 0 : Word) = if x.toNat < y.toNat then 1 else 0 := by
  simp only [BitVec.ult_iff_toNat_lt]

theorem smin_eq_word (x y : Word) : (if x.slt y then x else y) = word (min x.toInt y.toInt) := by
  simp only [BitVec.slt_iff_toInt_lt]
  split
  · rw [min_eq_left (by omega), word_toInt]
  · rw [min_eq_right (by omega), word_toInt]

theorem smax_eq_word (x y : Word) : (if x.slt y then y else x) = word (max x.toInt y.toInt) := by
  simp only [BitVec.slt_iff_toInt_lt]
  split
  · rw [max_eq_right (by omega), word_toInt]
  · rw [max_eq_left (by omega), word_toInt]

theorem umin_eq_ofNat (x y : Word) : (if x.ult y then x else y) = BitVec.ofNat 64 (min x.toNat y.toNat) := by
  simp only [BitVec.ult_iff_toNat_lt]
  split
  · rw [min_eq_left (by omega), BitVec.ofNat_toNat, BitVec.setWidth_eq]
  · rw [min_eq_right (by omega), BitVec.ofNat_toNat, BitVec.setWidth_eq]

theorem umax_eq_ofNat (x y : Word) : (if x.ult y then y else x) = BitVec.ofNat 64 (max x.toNat y.toNat) := by
  simp only [BitVec.ult_iff_toNat_lt]
  split
  · rw [max_eq_right (by omega), BitVec.ofNat_toNat, BitVec.setWidth_eq]
  · rw [max_eq_left (by omega), BitVec.ofNat_toNat, BitVec.setWidth_eq]

/-- The register form under an operation that computes g. -/
theorem aluRR_computes {f g : Word → Word → Word} (h : ∀ x y, f x y = g x y) (q : Quiet s t) (d a b : BitVec 6) :
    aluRR f d a b s = .next (wrote s t (t.ctx.put d (g (t.ctx.xAt a) (t.ctx.xAt b)))) := by
  rw [aluRR_done q, h]

/-! ## The frame of an instruction that writes one scalar register -/

theorem foldr_setP_frame (f : Nat → PReg) (c : Ctx) : ∀ ks : List Nat, ∃ p, ks.foldr (fun k (d : Ctx) => d.setP k (f k)) c = { c with p }
  | [] => ⟨c.p, rfl⟩
  | k :: ks => by
    obtain ⟨p, h⟩ := foldr_setP_frame f c ks
    exact ⟨p.setIfInBounds k (f k), by rw [List.foldr_cons, h]; rfl⟩

/-- What a rotation leaves of a context (R70). -/
theorem rotate_frame (c : Ctx) (more : Bool) : ∃ rrb p, c.rotate more = { c with rrb, p } := by
  obtain ⟨p, h⟩ := foldr_setP_frame (fun k => c.pAt (k - 1)) c [9, 10, 11, 12, 13, 14, 15]
  exact ⟨_, _, by rw [Ctx.rotate, h]; rfl⟩

/-- What the end test leaves of a context: it moves the pc, the loop stack, rrb and the predicates alone (R67, R70). -/
theorem endTest_frame (a : Word) (l : List LoopEntry) : ∀ c : Ctx, ∃ pc loops rrb p, endTest a c l = { c with pc, loops, rrb, p } := by
  induction l with
  | nil => exact fun c => ⟨_, _, _, _, rfl⟩
  | cons e rest ih =>
    intro c
    by_cases hl : (e.last != a) = true
    · exact ⟨_, _, _, _, by rw [endTest, if_pos hl]⟩
    · obtain ⟨rrb, p, h⟩ : ∃ rrb p, (if e.rotating then c.rotate (e.done + 1 < e.n) else c) = { c with rrb, p } := by
        split
        · exact rotate_frame c _
        · exact ⟨_, _, rfl⟩
      rw [endTest, if_neg hl]
      simp only [h]
      split
      · exact ⟨_, _, _, _, rfl⟩
      · obtain ⟨pc, loops, rrb', p', h'⟩ := ih { c with rrb, p }
        exact ⟨_, _, _, _, h'⟩

/-- Where the top loop entry does not end at the pc, the instruction goes on to the next word and the loops stay as they are (R67). -/
theorem next_of_no_end {c : Ctx} (h : ∀ l ∈ c.loops.head?, l.last ≠ c.pc) : c.next = { c with pc := c.pc + 4 } := by
  unfold Ctx.next
  cases hl : c.loops with
  | nil => rw [endTest, ← hl]
  | cons e rest =>
    have he : (e.last != c.pc) = true := bne_iff_ne.mpr (h e (by simp [hl]))
    rw [endTest, if_pos he, ← hl]

theorem xAt_put_of_ne (c : Ctx) {d k : BitVec 6} (w : Word) (h : k ≠ d) : (c.put d w).xAt k = c.xAt k := by
  by_cases hk : k = 0
  · subst hk
    rfl
  · rw [Ctx.put_xAt, if_neg hk, if_neg h]

/-! ## The instructions -/

/-- Every scalar register and immediate instruction writes its destination, and does nothing else (R51 to R55). -/
theorem scalar_writes (q : Quiet s t) (d a b : BitVec 6) (i : BitVec 14) (j : BitVec 20) :
    ∀ e ∈ [Instr.add d a b, .sub d a b, .and d a b, .or d a b, .xor d a b, .sll d a b, .srl d a b, .sra d a b, .slt d a b, .sltu d a b,
      .mul d a b, .mulh d a b, .mulhu d a b, .div d a b, .divu d a b, .rem d a b, .remu d a b, .min d a b, .max d a b, .minu d a b,
      .maxu d a b, .addi d a i, .andi d a i, .ori d a i, .xori d a i, .slli d a b, .srli d a b, .srai d a b, .lih d j, .pcrel d j],
      ∃ w, exec e s = .next (wrote s t (t.ctx.put d w)) := by
  have rr (f : Word → Word → Word) : ∃ w, aluRR f d a b s = .next (wrote s t (t.ctx.put d w)) := ⟨_, aluRR_done q f d a b⟩
  have ri (f : Word → Word) : ∃ w, aluRI f d a s = .next (wrote s t (t.ctx.put d w)) := ⟨_, aluRI_done q f d a⟩
  simp only [List.forall_mem_cons]
  exact ⟨rr _, rr _, rr _, rr _, rr _, rr _, rr _, rr _, rr _, rr _, rr _, rr _, rr _, rr _, rr _, rr _, rr _, rr _, rr _, rr _, rr _,
    ri _, ri _, ri _, ri _, ri _, ri _, ri _, ⟨_, lih_done q d j⟩, ⟨_, pcrel_done q d j⟩, fun _ h => nomatch h⟩

end

/-- Settles O9: each operation is the model's, written as the exact arithmetic of R51. -/
theorem scalarArithmetic : Obligations.ScalarArithmetic := by
  unfold Obligations.ScalarArithmetic
  intro s t d a b e q he
  revert e
  simp only [List.forall_mem_cons]
  exact ⟨aluRR_computes add_eq_word q d a b, aluRR_computes sub_eq_word q d a b, aluRR_done q _ d a b, aluRR_done q _ d a b,
    aluRR_done q _ d a b, aluRR_computes (fun x y => shiftLeft_eq_ofNat x (y.toNat % 64)) q d a b,
    aluRR_computes (fun x y => ushiftRight_eq_ofNat x (y.toNat % 64)) q d a b,
    aluRR_computes (fun x y => sshiftRight_eq_word x (y.toNat % 64)) q d a b, aluRR_computes slt_eq_ite q d a b,
    aluRR_computes ult_eq_ite q d a b, aluRR_computes mul_eq_word q d a b, aluRR_done q _ d a b, aluRR_done q _ d a b,
    aluRR_computes smin_eq_word q d a b, aluRR_computes smax_eq_word q d a b, aluRR_computes umin_eq_ofNat q d a b,
    aluRR_computes umax_eq_ofNat q d a b, fun _ h => nomatch h⟩

/-- Settles O13: the instruction writes xd alone (scalar_writes), and of what follows only the end test touches the context. -/
theorem registerFrame : Obligations.RegisterFrame := by
  unfold Obligations.RegisterFrame
  intro s t d a b i j e q he
  obtain ⟨w, hw⟩ := scalar_writes q d a b i j e he
  refine ⟨_, { t.past with ctx := (t.ctx.put d w).next, chunk := some (opened s t).counted }, hw, fun _ => rfl,
    fun n h => tfind_tput_other h _ _, tfind_tput_self _ _ _, ?_⟩
  obtain ⟨pc, loops, rrb, p, hn⟩ : ∃ pc loops rrb p, (t.ctx.put d w).next = { t.ctx.put d w with pc, loops, rrb, p } := endTest_frame _ _ _
  have hend : (∀ l ∈ t.ctx.loops.head?, l.last ≠ t.ctx.pc) → (t.ctx.put d w).next = { t.ctx.put d w with pc := t.ctx.pc + 4 } := by
    intro h
    rw [next_of_no_end (by simpa using h), Ctx.put_pc]
  have hread : ∀ k, k ≠ d → (t.ctx.put d w).next.xAt k = t.ctx.xAt k := by
    intro k hk
    rw [hn]
    exact xAt_put_of_ne t.ctx w hk
  refine ⟨hread, rfl, ?_, ?_, ?_, ?_, ?_, ?_, ?_, ?_, ?_, ?_, ?_, ?_, ?_, ?_, ?_, ?_, ?_, ?_, ?_, ?_, rfl, rfl, ?_, ?_,
    fun h => ?next⟩
  case next => simp only [hend h, Ctx.put_loops, Ctx.put_rrb, Ctx.put_p, and_self]
  all_goals simp only [hn, Ctx.put_vl, Ctx.put_mode, Ctx.put_fflags, Ctx.put_estart, Ctx.put_fprog, Ctx.put_fmt, Ctx.put_v, Ctx.put_f,
    Ctx.put_trapcause, Ctx.put_trappc, Ctx.put_trapval, Ctx.put_priv, Ctx.put_userFrame, Ctx.put_privFrame, Ctx.put_pkidx, Ctx.put_pkeylo,
    Ctx.put_pkeyhi, Ctx.put_rngkey, Ctx.put_msat, Ctx.put_streams, Ctx.put_vps, Ctx.put_mmode]

end Sys2Proof.Machine
end

section
/-! An illegal word (R34), and the read of a poisoned scalar register (R351) by the instructions that have scalar sources. -/

namespace Sys2Proof.Machine

section
variable {s : State} {t : Thread} {r : Running}

/-- No value of a register of the running thread is still to come. -/
structure Arrived (r : Running) : Prop where
  deferred : r.t.deferred = []
  failed : r.t.failedRegs = []
  awaits : ∀ p, r.awaits p = false

/-- The trap of a read of scalar register a, poisoned (R351). -/
def poisonedX (a : BitVec 6) : Trap := { code := 12, sub := 1, val := BitVec.ofNat 64 (2 ^ 63 + a.toNat) }

/-- The mark of a poisoned scalar register. -/
def markX (a : BitVec 6) : PoisonMark := { file := 0, reg := a.toNat, index := 0 }

theorem awaitX_arrived (h : Arrived r) (k : Nat) : awaitX k r = .ok () r := by
  simp [awaitX, h.deferred, h.awaits, h.failed]

theorem rdX_poisoned (h : Arrived r) {a : BitVec 6} (ha : a ≠ 0) (hp : r.t.poison.contains (markX a) = true) :
    rdX a r = .error (.trap (poisonedX a)) r := by
  have hp : r.t.poison.contains { file := 0, reg := a.toNat, index := 0 } = true := hp
  unfold rdX
  rw [if_neg ha]
  simp only [run_bind, awaitX_arrived h, run_getT, hp, if_true, run_trapOf, poisonVal, poisonedX, Nat.zero_mul, Nat.add_zero]

theorem rdX_sound (h : Arrived r) {a : BitVec 6} (ha : a = 0 ∨ r.t.poison.contains (markX a) = false) :
    rdX a r = .ok (r.t.ctx.xAt a) r := by
  by_cases h0 : a = 0
  · subst h0
    rfl
  · have hp : r.t.poison.contains { file := 0, reg := a.toNat, index := 0 } = false := ha.resolve_left h0
    unfold rdX
    rw [if_neg h0]
    simp only [run_bind, awaitX_arrived h, run_getT, hp, Bool.false_eq_true, if_false, run_pure]

theorem awaits_atBody (p : Dest → Bool) : (atBody s t).awaits p = (Running.of s t).awaits p := by
  unfold Running.awaits
  cases hc : t.chunk <;> simp [Running.of, atBody, opened, hc]

theorem arrived_atBody (h : Arrived (Running.of s t)) : Arrived (atBody s t) :=
  ⟨h.deferred, h.failed, fun p => (awaits_atBody p).trans (h.awaits p)⟩

/-! ## A part of a meaning that stops -/

theorem bind_error {α β : Type} {m : Exec α} {r' : Running} {e : Halt} (h : m r = .error e r') (f : α → Exec β) :
    (m >>= f) r = .error e r' := by rw [run_bind, h]

theorem seq_error {m : Exec Unit} {r' : Running} {e : Halt} (h : m r = .error e r') : seq m r = .error e r' := by rw [run_seq, h]

end

/-- Settles O8: every instruction listed begins with the reads of its sources, and rdX traps before anything else is done. -/
theorem illegalTraps : Obligations.IllegalTraps := by
  unfold Obligations.IllegalTraps
  refine ⟨fun s t w q => illegal_trap q w, fun s t f q => takeTrap_idle q f, ?first, ?second,
    fun r a hd hf hw => ⟨rdX_poisoned ⟨hd, hf, hw⟩, rdX_sound ⟨hd, hf, hw⟩⟩⟩
  case first =>
    intro s t d a b i k o e q hd hf hw ha hp he
    have first : rdX a (atBody s t) = .error (.trap (poisonedX a)) (atBody s t) := rdX_poisoned (arrived_atBody ⟨hd, hf, hw⟩) ha hp
    have rr (g) : aluRR g d a b s = _ := control_trap q (.inl rfl) rfl (seq_error (bind_error first _))
    have ri (g) : aluRI g d a s = _ := control_trap q (.inl rfl) rfl (seq_error (bind_error first _))
    have br (g) : branch g a b i s = _ := control_trap q (.inl rfl) rfl (bind_error first _)
    have jr : execJalr d a i s = _ := control_trap q (.inl rfl) rfl (bind_error first _)
    have vl : execSetvl d a s = _ := control_trap q (.inl rfl) rfl (seq_error (bind_error first _))
    have lp (rot) : pushLoop rot a k s = _ := control_trap q (.inl rfl) rfl (bind_error first _)
    have ld (n x) : loadAt n x d a o s = _ := control_trap q (.inl rfl) rfl (seq_error (bind_error first _))
    have st (n) : storeAt n d a o s = _ := control_trap q (.inl rfl) rfl (seq_error (bind_error first _))
    revert e
    simp only [List.forall_mem_cons]
    exact ⟨rr _, rr _, rr _, rr _, rr _, rr _, rr _, rr _, rr _, rr _, rr _, rr _, rr _, rr _, rr _, rr _, rr _, rr _, rr _, rr _, rr _,
      ri _, ri _, ri _, ri _, ri _, ri _, ri _, br _, br _, br _, br _, br _, br _, jr, vl, lp _, lp _,
      ld _ _, ld _ _, ld _ _, ld _ _, ld _ _, ld _ _, ld _ _, st _, st _, st _, st _, fun _ h => nomatch h⟩
  case second =>
    intro s t d a b i o e q hd hf hw ha hb hp he
    have h : Arrived (atBody s t) := arrived_atBody ⟨hd, hf, hw⟩
    have second {α} (f : Word → Word → Exec α) :
        (rdX a >>= fun x => rdX b >>= f x) (atBody s t) = .error (.trap (poisonedX b)) (atBody s t) :=
      bind_ok (rdX_sound h ha) (bind_error (rdX_poisoned h hb hp) _)
    have rr (g) : aluRR g d a b s = _ := control_trap q (.inl rfl) rfl (seq_error (second _))
    have br (g) : branch g a b i s = _ := control_trap q (.inl rfl) rfl (second _)
    have st (n) : storeAt n b a o s = _ := control_trap q (.inl rfl) rfl (seq_error (second _))
    revert e
    simp only [List.forall_mem_cons]
    exact ⟨rr _, rr _, rr _, rr _, rr _, rr _, rr _, rr _, rr _, rr _, rr _, rr _, rr _, rr _, rr _, rr _, rr _, rr _, rr _, rr _, rr _,
      br _, br _, br _, br _, br _, br _, st _, st _, st _, st _, fun _ h => nomatch h⟩

end Sys2Proof.Machine
end

section
/-! The system registers and the mode register, read and written by number (R29 to R31, R37, R38, R61, R301). -/

namespace Sys2Proof.Machine

section
variable {s : State} {t : Thread}

/-- A number below the privileged ones, or used at privileged level, may be used (R38). -/
theorem number_open {n : BitVec 12} (h : n < 0x100#12 ∨ t.ctx.priv = true) : privNumber n = false ∨ t.ctx.priv = true :=
  h.imp_left fun h => by simpa [privNumber] using h

theorem parcelReg_unwritten (h : (opened s t).parcelWrites = []) (k : Nat) :
    parcelReg k (atBody s t) = .ok
      (if k = 0 then (s.parcel t.parcel).ptroot else if k = 1 then (s.parcel t.parcel).trapvec else (s.parcel t.parcel).pshare)
      (atBody s t) :=
  parcelReg_run s t k (by rw [h]; rfl)

theorem readSys_fmt (k : Fin 8) : readSys (0x008#12 + BitVec.ofNat 12 k.val) (atBody s t) = .ok t.ctx.fmt[k] (atBody s t) := by
  fin_cases k <;> rfl

/-- The cycle counter of a die is ahead of the device's by at most 2 (R37, log entry 1). -/
theorem dieCycle_skew (s : State) (die : Nat) : ∃ k ≤ 2, s.dieCycle die = BitVec.ofNat 64 (s.cycle + k) :=
  ⟨min (Config.cycleSkew die % 3) s.cycle, by omega, rfl⟩

end

/-- Settles O20: mfsr of a number writes what readSys finds there (mfsr_done), and the numbers with rows of their own wait as R61 says. -/
theorem readSystem : Obligations.ReadSystem := by
  unfold Obligations.ReadSystem
  refine ⟨?plain, ?formats, ?cycle, ?parcel, fun s t d q h => mfsrFflags_done q h d, fun s t d q h => mfsrMsat_done q h d,
    fun s t d q h => mfsrCtags_done q d h⟩
  case plain =>
    intro s t d e q he
    have rd {n : BitVec 12} {w : Word} (hw : readSys n (atBody s t) = .ok w (atBody s t)) (h : n < 0x100#12 ∨ t.ctx.priv = true) :
        exec (.mfsr d n) s = .next (wrote s t (t.ctx.put d w)) := mfsr_done q d n (number_open h) w hw
    revert e
    simp only [List.forall_mem_cons]
    exact ⟨rd rfl, rd rfl, rd rfl, rd rfl, rd rfl, rd rfl, rd rfl, rd rfl, rd rfl, rd rfl, rd rfl, rd rfl, rd rfl, rd rfl, rd rfl, rd rfl,
      rd rfl, rd rfl, rd rfl, rd rfl, rd rfl, rd rfl, rd rfl, fun _ h => nomatch h⟩
  case formats =>
    intro s t d k q
    exact mfsr_done q d _ (.inl (by revert k; decide)) _ (readSys_fmt k)
  case cycle =>
    intro s t d q
    obtain ⟨k, hk, hw⟩ := dieCycle_skew s (dieOf (t.core.getD 0))
    exact ⟨k, hk, mfsr_done q d _ (.inl rfl) _ (congrArg (EStateM.Result.ok · (atBody s t)) hw)⟩
  case parcel =>
    intro s t d q hp hw
    exact ⟨mfsr_done q d _ (.inr hp) _ (parcelReg_unwritten hw 0), mfsr_done q d _ (.inr hp) _ (parcelReg_unwritten hw 1),
      mfsr_done q d _ (.inr hp) _ (parcelReg_unwritten hw 2)⟩

/-- Settles O21: each write is the law of its row, under the number's mask. -/
theorem writeSystem : Obligations.WriteSystem := by
  unfold Obligations.WriteSystem
  refine ⟨?plain, ?readOnly, fun s t a f q h => mtsrFmt_done q a f h, fun s t a f q h => mtsrFmt_trap q a f h,
    fun s t a q h => mtsrFflags_done q h a, fun s t a q h => mtsrMsat_done q h a, fun s t a q => mtsrFprog_done q a,
    fun s t a q => mtsrCtags_done q a, ?parcel⟩
  case plain =>
    intro s t a w e q hw he
    subst hw
    revert e
    simp only [List.forall_mem_cons]
    have wr {n : BitVec 12} {c : Ctx} := fun h hc => mtsr_done q a n (number_open h) c hc
    exact ⟨fun h => wr h rfl, fun h => wr h rfl, fun h => wr h rfl, fun h => wr h rfl, fun h => wr h rfl, fun h => wr h rfl,
      fun h => wr h rfl, fun h => wr h rfl, fun _ h => nomatch h⟩
  case readOnly =>
    intro s t a n q hn
    revert n
    simp only [List.forall_mem_cons]
    have wr {n : BitVec 12} {c : Ctx} := fun h hc => mtsr_done q a n (number_open h) c hc
    exact ⟨fun h => wr h rfl, fun h => wr h rfl, fun h => wr h rfl, fun h => wr h rfl, fun h => wr h rfl, fun h => wr h rfl,
      fun h => wr h rfl, fun h => wr h rfl, fun h => wr h rfl, fun h => wr h rfl, fun h => wr h rfl, fun h => wr h rfl,
      fun h => wr h rfl, fun h => wr h rfl, fun _ h => nomatch h⟩
  case parcel =>
    intro s t a e q hp he
    revert e
    simp only [List.forall_mem_cons]
    exact ⟨parcelWrite_done q _ _ _ a hp _ rfl, parcelWrite_done q _ _ _ a hp _ rfl, parcelWrite_done q _ _ _ a hp _ rfl,
      fun _ h => nomatch h⟩

/-- Settles O22: the number's check comes first in mfsr and mtsr, and the privilege check first of all in the others. -/
theorem privilegedTraps : Obligations.PrivilegedTraps := by
  unfold Obligations.PrivilegedTraps
  refine ⟨?numbers, ?instructions⟩
  case numbers =>
    intro s t a n e q hn hu he
    have hp : privNumber n = true := by simpa [privNumber] using hn
    revert e
    simp only [List.forall_mem_cons]
    exact ⟨mfsr_trap q a n hp hu, mtsr_trap q a n hp hu, parcelWrite_trap q _ _ _ a rfl hu, parcelWrite_trap q _ _ _ a rfl hu,
      parcelWrite_trap q _ _ _ a rfl hu, fun _ h => nomatch h⟩
  case instructions =>
    intro s t a e q hu he
    revert e
    simp only [List.forall_mem_cons]
    exact ⟨control_priv q rfl hu, control_priv q rfl hu, control_priv q rfl hu, control_priv q rfl hu, control_priv q rfl hu,
      fun _ h => nomatch h⟩

end Sys2Proof.Machine
end

section
/-! The mode register: its fields (R29), and its writes (R31, R61). -/

namespace Sys2Proof.Machine

/-- The fields of a mode word stand where R29 puts them, and it is valid where none of the four coded ones is reserved. -/
theorem mode_fields (g : BitVec 4) (sc : BitVec 5) (r : BitVec 3) (z : Bool) (c : BitVec 6) (b : BitVec 2) (d : BitVec 5) (m : BitVec 26)
    (hm : m = g ++ sc ++ r ++ BitVec.ofBool z ++ c ++ b ++ d) :
    m.extractLsb' 22 4 = g ∧ m.extractLsb' 17 5 = sc ∧ m.extractLsb' 14 3 = r ∧ m.getLsbD 13 = z ∧ m.extractLsb' 7 6 = c ∧
      m.extractLsb' 5 2 = b ∧ m.extractLsb' 0 5 = d := by
  subst hm
  simp (disch := decide) only [bit_high, bit_low, bit_ofBool, extract_high, extract_low, extract_all, Nat.reduceSub, and_self]

theorem blk_valid : ∀ b : BitVec 2, (b != 3#2) = true ↔ b.toNat < 3 := by decide

/-- Settles O23: the writes are the laws of the mode word and of mtsr, and the fields are those of the concatenation. -/
theorem modeRegister : Obligations.ModeRegister := by
  unfold Obligations.ModeRegister
  refine ⟨fun s t g sc r z c b d q h => mode_done q g sc r z c b d h, fun s t g sc r z c b d q h => mode_trap q g sc r z c b d h,
    fun s t a q h => mtsrMode_done q a h, fun s t a q h => mtsrMode_trap q a h, fun g sc r z c b d => ⟨_, rfl, ?_⟩⟩
  obtain ⟨hg, hs, hr, hz, hc, hb, hd⟩ := mode_fields g sc r z c b d _ rfl
  simp only [modeGuard, modeStype, modeRnd, modeSat, modeScale, modeBlk, modeDtype, modeOk, hg, hs, hr, hz, hc, hb, hd, true_and]
  simp only [Bool.and_eq_true, decide_eq_true_eq, BitVec.le_def, blk_valid, BitVec.ofNat_eq_ofNat, BitVec.reduceToNat]
  omega

end Sys2Proof.Machine
end

section
/-! The vector integer, floating and predicate instructions (R97 to R115): what they write, and what they trap on (R31, R60). -/

namespace Sys2Proof.Machine

/-! ## Where the mode or vl does not fit -/

theorem checkVl_over {r : Running} {w : Nat} (h : r.t.vlFits w = false) :
    checkVl w r = .error (.trap { code := 2, sub := 0, val := BitVec.ofNat 64 r.t.ctx.vl }) r := by
  have : vlLimit r.t.vlmax w < r.t.ctx.vl := by simpa [Thread.vlFits] using h
  simp [checkVl, this]

/-- The checks of a mode and then of vl, where one of the two fails (R31, R60). -/
theorem needMode_checkVl_trap {r : Running} {ok : Bool} {w : Nat} (h : ¬ (ok = true ∧ r.t.vlFits w = true)) (rest : Unit → Exec Unit) :
    (needMode ok >>= fun _ => checkVl w >>= rest) r = .error (.trap
      { code := 2, sub := 0, val := if ok then BitVec.ofNat 64 r.t.ctx.vl else r.t.ctx.mode.setWidth 64 }) r := by
  cases ok with
  | false => exact bind_error (run_needMode false r) _
  | true =>
    have hv : r.t.vlFits w = false := by simpa using h
    exact bind_ok (run_needMode true r) (bind_error (checkVl_over hv) _)

/-- A vector integer instruction whose mode or vl does not fit it traps 0x02. -/
theorem vecInt_trap {s : State} {t : Thread} (q : VecQuiet s t) (free reads : Bool) (f : IntOp → Int → Int → Int → Nat)
    (d a : BitVec 6) (b : Arg) (o : IntOp) (ho : o = t.ctx.intOp) (ok : Bool)
    (hk : ok = (isInt o.t && isInt o.u && (free || o.t == o.u) && modeScale t.ctx.mode == 0))
    (h : ¬ (ok = true ∧ t.vlFits (max o.w o.wd) = true)) (w : Word)
    (hw : w = if ok then BitVec.ofNat 64 t.ctx.vl else t.ctx.mode.setWidth 64) :
    vecInt free reads f d a b s = .next ((atBody s t).takeTrap { code := 2, sub := 0, val := w }) := by
  subst ho hk hw
  refine shared_trap q.toReady (.inl rfl) rfl ?_
  exact seq_error (bind_ok (run_getC _) (bind_ok (vpStreams_plain q.plain _) (needMode_checkVl_trap h _)))

/-! ## The vector integer instructions, row by row (R102, R103) -/

/-- Each instruction's two forms, whether its types may differ, and its operation. -/
def intRows : List ((BitVec 6 → BitVec 6 → BitVec 6 → Bool → Bool → Instr) × (BitVec 6 → BitVec 6 → BitVec 6 → Bool → Instr) ×
    Bool × (IntOp → Int → Int → Int → Nat)) :=
  [(.vadd, .vaddVx, true, opVadd), (.vsub, .vsubVx, true, opVsub), (.vmul, .vmulVx, true, opVmul), (.vmacc, .vmaccVx, true, opVmacc),
    (.vmulh, .vmulhVx, false, opVmulh), (.vdiv, .vdivVx, false, opVdiv), (.vrem, .vremVx, false, opVrem), (.vmin, .vminVx, false, opVmin),
    (.vmax, .vmaxVx, false, opVmax), (.vand, .vandVx, false, opVand), (.vor, .vorVx, false, opVor), (.vxor, .vxorVx, false, opVxor),
    (.vsll, .vsllVx, false, opVsll), (.vsrl, .vsrlVx, false, opVsrl), (.vsra, .vsraVx, false, opVsra)]

/-- A row's two forms run its operation on an element of vs2 or on the scalar (R33); only vmacc reads vd. -/
theorem intRows_run : ∀ e ∈ intRows, ∃ reads, ∀ d a b c g s,
    exec (e.1 d a b c g) s = vecInt e.2.2.1 reads e.2.2.2 d a (.v b) s ∧
      exec (e.2.1 d a b c) s = vecInt e.2.2.1 reads e.2.2.2 d a (.x b) s := by
  simp only [intRows, List.forall_mem_cons]
  refine ⟨⟨false, ?_⟩, ⟨false, ?_⟩, ⟨false, ?_⟩, ⟨true, ?_⟩,
    ⟨false, ?_⟩, ⟨false, ?_⟩, ⟨false, ?_⟩, ⟨false, ?_⟩, ⟨false, ?_⟩, ⟨false, ?_⟩,
    ⟨false, ?_⟩, ⟨false, ?_⟩, ⟨false, ?_⟩, ⟨false, ?_⟩, ⟨false, ?_⟩, fun _ h => nomatch h⟩
  all_goals exact fun _ _ _ _ _ _ => ⟨rfl, rfl⟩

/-- Settles O32: each row is vecInt at its own operation, in its two forms; vidx and vrng have laws of their own. -/
theorem vectorInteger : Obligations.VectorInteger := by
  unfold Obligations.VectorInteger
  refine ⟨?done, ?traps, fun s t d st p q hm hv => vidx_done q d st p hm hv, fun s t d a q hm hv => vrng_done q d a hm hv⟩
  case done =>
    intro s t d a b c g e o q he ho hm hv
    obtain ⟨reads, run⟩ := intRows_run e he
    rw [(run d a b c g s).1, (run d a b c g s).2]
    exact ⟨vecInt_done q _ reads _ d a (.v b) o ho hm hv, vecInt_done q _ reads _ d a (.x b) o ho hm hv⟩
  case traps =>
    intro s t d a b c g e o w q he ho h hw
    obtain ⟨reads, run⟩ := intRows_run e he
    rw [(run d a b c g s).1, (run d a b c g s).2]
    exact ⟨vecInt_trap q _ reads _ d a (.v b) o ho _ rfl h w hw, vecInt_trap q _ reads _ d a (.x b) o ho _ rfl h w hw⟩

/-- Settles O33: each instruction is the shared operation of its family at its own result. -/
theorem vectorFloat : Obligations.VectorFloat := by
  unfold Obligations.VectorFloat
  refine ⟨?two, ?one, ?scale, fun s t d a c q hm hv => vfclass_done q d a c hm hv⟩
  case two =>
    intro s t d a b c g e o q he hm hv ho
    have both (reads f) := And.intro (vecFloat_done q reads f d a (.v b) hm hv o ho) (vecFloat_done q reads f d a (.x b) hm hv o ho)
    revert e
    simp only [List.forall_mem_cons]
    exact ⟨both false opVfadd, both false opVfsub, both false opVfmul, both true opVfma, both true opVfms, both true opVfnma,
      both true opVfnms, both false opVfdiv, both false opVfmin, both false opVfmax, fun _ h => nomatch h⟩
  case one =>
    intro s t d a c e o q he hm hv ho
    have one (f) := vecFloat_done q false f d a .none hm hv o ho
    revert e
    simp only [List.forall_mem_cons]
    exact ⟨one opVfsqrt, one opVfrec, one opVfabs, one opVfneg, one opVfrint, one opVfexp2, fun _ h => nomatch h⟩
  case scale =>
    intro s t d a b c g o q hm hv ho
    refine ⟨vecFloat_done q false opVfscale d a (.v b) hm hv o ho false, ?_⟩
    rw [ho]
    exact vfscaleVx_done q d a b c hm hv

/-- Settles O35: each instruction's law, behind the dispatch. -/
theorem predicates : Obligations.Predicates := by
  unfold Obligations.Predicates
  refine ⟨?logic, fun s t d a b q => pwhile_done q d a b, fun s t d a q => pcnt_done q d a,
    fun s t d a q => (pfirst_done q d a).trans rfl⟩
  intro s t d a b e q he
  refine ⟨?_, predLogic_done q (fun p _ => !p) d a a⟩
  revert e
  simp only [List.forall_mem_cons]
  exact ⟨predLogic_done q (· && ·) d a b, predLogic_done q (· || ·) d a b, predLogic_done q (· != ·) d a b,
    predLogic_done q (fun x y => x && !y) d a b, fun _ h => nomatch h⟩

end Sys2Proof.Machine
end

section
/-! The registers of a created thread (R36, R37, R40, R65, R79, R257). -/

namespace Sys2Proof.Machine

/-- Every scalar register of a created thread but x4 to x6 is 0 (R40). -/
theorem fresh_xAt_other (entry args : Word) (i n : Nat) {k : BitVec 6} (h4 : k ≠ 4) (h5 : k ≠ 5) (h6 : k ≠ 6) :
    (Ctx.fresh entry args i n).xAt k = 0 := by
  have ne {j : Nat} (hj : j < 64) (h : k ≠ BitVec.ofNat 6 j) : j ≠ k.toNat := by
    rintro rfl
    exact h (by simp)
  unfold Ctx.xAt Ctx.fresh
  split
  · rfl
  · simp only [Vector.getElem_set, if_neg (ne (j := 4) (by decide) h4), if_neg (ne (j := 5) (by decide) h5),
      if_neg (ne (j := 6) (by decide) h6), Vector.getElem_replicate]

/-- A zero register file reads 0 at every number. -/
theorem zeros_getD {w n : Nat} (k : Nat) : (Vector.replicate n (0 : BitVec w))[k]?.getD 0 = 0 := by
  simp only [Vector.getElem?_replicate]
  split <;> rfl

/-- p1 to p15 of a created thread are 0 (R40). -/
theorem fresh_pAt (entry args : Word) (i n : Nat) {k : BitVec 4} (h : k ≠ 0) : (Ctx.fresh entry args i n).pAt k.toNat = 0 := by
  have hk : k.toNat ≠ 0 := fun e => h (BitVec.eq_of_toNat_eq e)
  unfold Ctx.pAt
  rw [if_neg hk]
  exact zeros_getD _

/-- Settles O2: the thread is created with the fresh context, and its tid packs its launch and its index. -/
theorem newThreadRegisters : Obligations.NewThread := by
  unfold Obligations.NewThread
  intro n l i now o hi
  have launch : launchOf (n * 2 ^ 24 + i) = n := by unfold launchOf; omega
  have index : indexOf (n * 2 ^ 24 + i) = i := by unfold indexOf; omega
  refine ⟨_, rfl, rfl, rfl, rfl, rfl, rfl, fun k => fresh_xAt_other _ _ _ _, fun k => zeros_getD _, fun k h => fresh_pAt _ _ _ _ h,
    fun k => Vector.getElem_replicate _, rfl, rfl, rfl, rfl, rfl, rfl, rfl, rfl, rfl, rfl, rfl, rfl, rfl, rfl, rfl, rfl, rfl, rfl, rfl, rfl,
    launch, index⟩

end Sys2Proof.Machine
end

section
/-! The step of the device: the turn of a ready thread, of an event and of a hub (R26, R34, R271, R313, R391). -/

namespace Sys2Proof.Machine

section
variable {s u : State} {t : Thread} {w : BitVec 32} {a : Access} {hit : Bool} {l : Nat}

/-- The device whose next instruction is thread tid's. -/
def State.actingBy (s : State) (tid : Nat) : State := { s with actor := .thread tid }

/-- The device, and the thread with its open chunk, once the word at its pc has been fetched (R313, R318). -/
def State.afterFetch (s : State) (t : Thread) (w : BitVec 32) (a : Access) (hit : Bool) (l : Nat) : State :=
  { ((s.keepEntry t.coreNum a hit).countDead l).setThread { t with chunk := t.chunk.map fun (c : Chunk) => c.notePage a.entry } with
    fetched := w, fetchPage := some a.entry }

/-- The fetch of a word: a word address that translates to bytes of memory without poison (R26, R313, R351). -/
theorem fetch_ok {pc : Word} (hpc : pc.toNat % 4 = 0) (ht : s.translate t.coreNum t.parcel t.ctx.priv Need.fetch pc.toNat = .ok (a, hit))
    (hh : a.window = .host → s.fyzWidth ≠ 0) (hl : s.placeOf t.core (crewOf t.coreNum) t.parcel a = .ok (.loc l))
    (hp : s.poisonTrap pc.toNat l 4 = none) (hw : natOfBytes ((List.range 4).map fun k => s.byteAt (l + k)) = w.toNat) :
    s.fetch t pc = .ok (w, l, a, hit) := by
  have hh : (a.window == .host && decide (s.fyzWidth = 0)) = false := by
    by_cases h : a.window = .host
    · simp [hh h]
    · simp [h]
  have ht : s.translate (t.core.getD 0) t.parcel t.ctx.priv Need.fetch pc.toNat = .ok (a, hit) := ht
  have hl : s.placeOf t.core (crewOf (t.core.getD 0)) t.parcel a = .ok (.loc l) := hl
  simp only [State.fetch, hpc, ne_eq, not_true_eq_false, if_false, ht, hh, Bool.false_eq_true, hl, hp, hw, BitVec.ofNat_toNat,
    BitVec.setWidth_eq]

/-- The turn of a ready thread whose word has been fetched: a strip without a grant begins to wait (R271), and any other word runs. -/
theorem turnOf_ready (q : Ready (u.actingBy t.tid) t) (hp : t.pending = none ∨ t.chunk.isSome = true) (hn : t.needsTicket = false)
    (hf : (u.actingBy t.tid).fetch t t.ctx.pc = .ok (w, l, a, hit)) :
    (u.actingBy t.tid).turnOf (.thread t.tid) =
      if isStrip (major w) = true ∧ t.strip = none then .over ((u.actingBy t.tid).noteStrip t)
      else .run w ((u.actingBy t.tid).afterFetch t w a hit l) := by
  have hact : ({ u.actingBy t.tid with actor := .thread t.tid } : State).acting = some (Running.of (u.actingBy t.tid) t) := q.acting
  have hp : (t.pending.isSome && t.chunk.isNone) = false := by
    rcases hp with h | h
    · rw [h]; rfl
    · rw [Option.isNone_eq_false_iff.mpr h, Bool.and_false]
  have hpt : t.pendTrap.isSome = false := by rw [q.pend]; rfl
  simp only [State.turnOf, hact, of_t, of_s, of_vp, hpt, hp, hn, q.ended, hf, q.vps, Bool.false_eq_true, if_false,
    Bool.false_and, Option.any_none, Option.isNone_none, List.isEmpty_nil, Bool.true_and, Bool.and_true, Bool.and_eq_true,
    Option.isNone_iff_eq_none]
  rfl

theorem move_of_thread (hu : s.nextTurn = (some (.thread t.tid), u)) : s.move = (u.actingBy t.tid).turnOf (.thread t.tid) := by
  rw [State.move, hu]
  rfl

theorem step_of_over {v : State} (h : s.move = .over v) : step s = .next v := by rw [step, h]

theorem step_of_run {v : State} (h : s.move = .run w v) : step s = exec (instrOf w) v := by rw [step, h]

theorem instrOf_wf {i : Instr} (hd : decode w = .ok i) (h : i.wf = true) : instrOf w = i := by
  simp only [instrOf, hd, h, if_true]

/-- A word that decodes to nothing, or to an instruction that is not well formed, is illegal (R34). -/
theorem instrOf_illegal (h : ∀ i, decode w = .ok i → i.wf = false) : instrOf w = .illegalInstruction w := by
  unfold instrOf
  cases hd : decode w with
  | error e => rfl
  | ok i => simp only [h i hd, Bool.false_eq_true, if_false]

end

/-- Settles O5: a thread's turn is its strip's wait or the word that it fetches (turnOf_ready), and the turns of events and hubs are the
step's own cases. -/
theorem stepRuns : Obligations.StepRuns := by
  unfold Obligations.StepRuns
  refine ⟨?thread, fun s u i h => ?event, fun s u hub h => ?endpoint⟩
  case event => rw [step, State.move, h]
  case endpoint => rw [step, State.move, h]
  case thread =>
    intro s u t w a hit l hu q hp hn hpc ht hh hl hpo hw
    have hf : (u.actingBy t.tid).fetch t t.ctx.pc = .ok (w, l, a, hit) := fetch_ok hpc ht hh hl hpo hw
    have hm := (move_of_thread hu).trans (turnOf_ready q hp hn hf)
    refine ⟨fun h => step_of_over (by rw [hm, if_pos h]; rfl), fun h => ⟨(u.actingBy t.tid).afterFetch t w a hit l, rfl, ?_⟩⟩
    rw [if_neg h] at hm
    exact ⟨fun i hd hi => by rw [step_of_run hm, instrOf_wf hd hi], fun hd => by rw [step_of_run hm, instrOf_illegal hd]⟩

end Sys2Proof.Machine
end

section
/-! Division (R52), the immediate forms (R53, R54), and lih and pcrel (R55). -/

namespace Sys2Proof.Machine

section
variable {s : State} {t : Thread} {x y : Word}

/-! ## Division -/

theorem divU_zero (x : Word) : (divU x 0).toNat = 2 ^ 64 - 1 := by
  rw [divU, if_pos rfl]
  decide

theorem divS_zero (x : Word) : (divS x 0).toInt = -1 := by
  rw [divS, if_pos rfl]
  decide

theorem remU_zero (x : Word) : remU x 0 = x := if_pos rfl

theorem remS_zero (x : Word) : remS x 0 = x := if_pos rfl

theorem divU_toNat (h : y ≠ 0) : (divU x y).toNat = x.toNat / y.toNat := by
  rw [divU, if_neg h, BitVec.toNat_ofNat, Nat.mod_eq_of_lt (lt_of_le_of_lt (Nat.div_le_self _ _) x.isLt)]

theorem remU_toNat (h : y ≠ 0) : (remU x y).toNat = x.toNat % y.toNat := by
  rw [remU, if_neg h, BitVec.toNat_ofNat, Nat.mod_eq_of_lt (lt_of_le_of_lt (Nat.mod_le _ _) x.isLt)]

/-- -2^63 by -1, the one quotient that 64 bits do not hold (R52). -/
theorem division_overflow (hx : x.toInt = -2 ^ 63) (hy : y.toInt = -1) : (divS x y).toInt = -2 ^ 63 ∧ remS x y = 0 := by
  have h0 : y ≠ 0 := by
    rintro rfl
    simp at hy
  rw [divS, remS, if_neg h0, if_neg h0, hx, hy]
  decide

/-- The signed quotient is the truncated one wherever 64 bits hold it. -/
theorem divS_toInt (h : y ≠ 0) (ho : ¬ (x.toInt = -2 ^ 63 ∧ y.toInt = -1)) : (divS x y).toInt = x.toInt.tdiv y.toInt := by
  have hne : x ≠ BitVec.intMin 64 ∨ y ≠ -1#64 := by
    by_contra hc
    obtain ⟨hx, hy⟩ : x = BitVec.intMin 64 ∧ y = -1#64 := by simpa only [not_or, not_not] using hc
    exact ho ⟨by rw [hx]; decide, by rw [hy]; decide⟩
  rw [divS, if_neg h, word, BitVec.toInt_ofInt, ← BitVec.toInt_sdiv, BitVec.toInt_sdiv_of_ne_or_ne x y hne]

theorem remS_toInt (h : y ≠ 0) : (remS x y).toInt = x.toInt.tmod y.toInt := by
  rw [remS, if_neg h, ← BitVec.toInt_srem, word_toInt]

theorem tmod_neg_iff {a b : ℤ} (h : a.tmod b ≠ 0) : a.tmod b < 0 ↔ a < 0 := by
  have hs : (a.tmod b).sign = a.sign := by
    rw [Int.sign_tmod, if_neg fun hd => h (Int.tmod_eq_zero_of_dvd hd)]
  rw [← Int.sign_eq_neg_one_iff_neg, hs, Int.sign_eq_neg_one_iff_neg]

/-- A truncated quotient is 0 or has the sign of the exact one. -/
theorem tdiv_mul_nonneg (a b : ℤ) : 0 ≤ a.tdiv b * (a * b) := by
  rw [← Int.sign_nonneg_iff, Int.sign_mul, Int.sign_mul, Int.sign_tdiv]
  split
  · rw [Int.zero_mul]
  · exact mul_self_nonneg _

/-- Signed division where 64 bits hold the quotient (R52): truncated toward zero, the remainder with the sign of the dividend. -/
theorem signed_division (h : y ≠ 0) (ho : ¬ (x.toInt = -2 ^ 63 ∧ y.toInt = -1)) :
    x.toInt = (divS x y).toInt * y.toInt + (remS x y).toInt ∧ (remS x y).toInt.natAbs < y.toInt.natAbs ∧
      (remS x y ≠ 0 → ((remS x y).toInt < 0 ↔ x.toInt < 0)) ∧
      (divS x y).toInt.natAbs = x.toInt.natAbs / y.toInt.natAbs ∧ 0 ≤ (divS x y).toInt * (x.toInt * y.toInt) := by
  have hy : y.toInt ≠ 0 := fun e => h (BitVec.toInt_inj.mp (e.trans BitVec.toInt_zero.symm))
  have hr : remS x y ≠ 0 → x.toInt.tmod y.toInt ≠ 0 := fun hn e =>
    hn (BitVec.toInt_inj.mp ((remS_toInt h).trans (e.trans BitVec.toInt_zero.symm)))
  rw [divS_toInt h ho, remS_toInt h]
  refine ⟨(Int.tdiv_mul_add_tmod _ _).symm, ?_, fun hn => tmod_neg_iff (hr hn), Int.natAbs_tdiv _ _, tdiv_mul_nonneg _ _⟩
  rw [Int.natAbs_tmod]
  exact Nat.mod_lt _ (Int.natAbs_pos.mpr hy)

theorem unsigned_division (h : y ≠ 0) :
    x.toNat = (divU x y).toNat * y.toNat + (remU x y).toNat ∧ (remU x y).toNat < y.toNat := by
  have hy : 0 < y.toNat := Nat.pos_of_ne_zero fun e => h (BitVec.eq_of_toNat_eq e)
  rw [divU_toNat h, remU_toNat h]
  exact ⟨(Nat.div_add_mod' _ _).symm, Nat.mod_lt _ hy⟩

/-! ## Immediates -/

/-- The immediate form under an operation that computes g. -/
theorem aluRI_computes {f g : Word → Word} (h : ∀ x, f x = g x) (q : Quiet s t) (d a : BitVec 6) :
    aluRI f d a s = .next (wrote s t (t.ctx.put d (g (t.ctx.xAt a)))) := by
  rw [aluRI_done q, h]

theorem add_signExtend_eq_word (i : BitVec 14) (x : Word) : x + i.signExtend 64 = word (x.toInt + (word i.toInt).toInt) :=
  add_eq_word x _

end

/-- Settles O10: the quotients and remainders are those of divS, divU, remS and remU, which the lemmas above relate to the exact ones. -/
theorem division : Obligations.Division := by
  unfold Obligations.Division
  intro s t d a b x y q hx hy
  subst hx hy
  refine ⟨_, _, _, _, aluRR_done q divS d a b, aluRR_done q divU d a b, aluRR_done q remS d a b, aluRR_done q remU d a b,
    fun h => ?zero, fun h h' => division_overflow h h', unsigned_division, signed_division⟩
  rw [h]
  exact ⟨divS_zero _, divU_zero _, remS_zero _, remU_zero _⟩

/-- Settles O11: each operation is the model's, on the sign-extended immediate or the encoded count. -/
theorem scalarImmediates : Obligations.ScalarImmediates := by
  unfold Obligations.ScalarImmediates
  refine ⟨fun s t d a i e q => ?arithmetic, fun s t d a n q => ?shifts⟩
  case arithmetic =>
    revert e
    simp only [List.forall_mem_cons]
    exact ⟨aluRI_computes (add_signExtend_eq_word i) q d a, aluRI_done q _ d a, aluRI_done q _ d a, aluRI_done q _ d a, fun _ h => nomatch h⟩
  case shifts =>
    exact ⟨aluRI_computes (fun x => shiftLeft_eq_ofNat x n.toNat) q d a, aluRI_computes (fun x => ushiftRight_eq_ofNat x n.toNat) q d a,
      aluRI_computes (fun x => sshiftRight_eq_word x n.toNat) q d a⟩

/-- Settles O12: lih_done and pcrel_done, the sum with the pc written as exact arithmetic. -/
theorem lihPcrel : Obligations.LihPcrel := by
  unfold Obligations.LihPcrel
  intro s t d i q
  have hsum : t.ctx.pc + word (i.toInt * 2 ^ 14) = word (t.ctx.pc.toInt + i.toInt * 2 ^ 14) := by
    rw [word, word, BitVec.ofInt_add, BitVec.ofInt_toInt]
  exact ⟨lih_done q d i, by rw [← hsum]; exact pcrel_done q d i⟩

end Sys2Proof.Machine
end

section
/-! Branches and jumps (R56, R57), and hardware loops (R65 to R70). -/

namespace Sys2Proof.Machine

section
variable {s : State} {t : Thread}

/-! ## Transfers -/

/-- A branch under a test that decides P goes to its target where P holds, and on to the next word where not (R56). -/
theorem branch_goes {p : Word → Word → Bool} {P : Word → Word → Prop} (h : ∀ x y, p x y = true ↔ P x y) (q : Quiet s t) (a b : BitVec 6)
    (o : BitVec 14) :
    (P (t.ctx.xAt a) (t.ctx.xAt b) → branch p a b o s =
      .next (went s t (t.ctx.leave false (t.ctx.pc + word (o.toInt * 4))) (opened s t))) ∧
    (¬ P (t.ctx.xAt a) (t.ctx.xAt b) → branch p a b o s = .next (wrote s t t.ctx)) :=
  ⟨fun hp => branch_taken q p a b o ((h _ _).mpr hp),
    fun hp => branch_not q p a b o (Bool.eq_false_iff.mpr fun hc => hp ((h _ _).mp hc))⟩

theorem not_slt_iff (x y : Word) : (!x.slt y) = true ↔ y.toInt ≤ x.toInt := by
  rw [Bool.not_eq_true', Bool.eq_false_iff, ne_eq, BitVec.slt_iff_toInt_lt, not_lt]

theorem not_ult_iff (x y : Word) : (!x.ult y) = true ↔ y.toNat ≤ x.toNat := by
  rw [Bool.not_eq_true', Bool.eq_false_iff, ne_eq, BitVec.ult_iff_toNat_lt, not_lt]

/-! ## The loop stack after a transfer (R68) -/

variable {a target : Word} {l : List LoopEntry}

/-- In the last slot every entry that ends there is popped. -/
theorem popFor_last_slot (call : Bool) {e : LoopEntry} (h : e.last = a) (rest : List LoopEntry) :
    popFor call a target (e :: rest) = rest.filter (·.last != a) := by
  have top : ((e :: rest).head?.any (·.last == a)) = true := beq_iff_eq.mpr h
  have out : ¬ (e.last != a) = true := by simp [h]
  rw [popFor, if_pos top, popLast]
  exact List.filter_cons_of_neg (p := fun e : LoopEntry => e.last != a) out

/-- Elsewhere a call pops nothing, and another transfer pops as popLeft does. -/
theorem popFor_elsewhere (call : Bool) (h : ∀ e ∈ l.head?, e.last ≠ a) : popFor call a target l = if call then l else popLeft a target l := by
  refine if_neg ?_
  simpa only [Option.any_eq_true, beq_iff_eq, not_exists, not_and, Option.mem_def] using h

/-- popLeft drops the longest run of entries, from the top, whose body holds the transfer and not its target. -/
theorem popLeft_longest_run (a target : Word) (leaves : LoopEntry → Prop)
    (hl : leaves = fun e => (e.start ≤ a ∧ a ≤ e.last) ∧ ¬ (e.start ≤ target ∧ target ≤ e.last)) (l : List LoopEntry) :
    ∃ k, popLeft a target l = l.drop k ∧ (∀ e ∈ l.take k, leaves e) ∧ ∀ e ∈ (l.drop k).head?, ¬ leaves e := by
  induction l with
  | nil => exact ⟨0, rfl, by simp, by simp⟩
  | cons e rest ih =>
    have test : (e.start ≤ a && a ≤ e.last && !(e.start ≤ target && target ≤ e.last)) = true ↔ leaves e := by
      simp only [hl, Bool.and_eq_true, decide_eq_true_eq, Bool.not_eq_true', ← Bool.not_eq_true]
    by_cases he : leaves e
    · obtain ⟨k, hk, below, top⟩ := ih
      exact ⟨k + 1, by rw [popLeft, if_pos (test.mpr he)]; exact hk, List.forall_mem_cons.mpr ⟨he, below⟩, top⟩
    · refine ⟨0, by rw [popLeft, if_neg (mt test.mp he)]; rfl, by simp, fun e' h => ?_⟩
      obtain rfl : e = e' := Option.some.inj h
      exact he

/-! ## The end test (R67, R70) -/

theorem endTest_elsewhere {e : LoopEntry} (h : e.last ≠ a) (c : Ctx) (rest : List LoopEntry) :
    endTest a c (e :: rest) = { c with loops := e :: rest, pc := a + 4 } := by
  rw [endTest, if_pos (bne_iff_ne.mpr h)]

/-- At the last word of the top entry: back to its start while iterations are left, else it is popped and the next is tested. -/
theorem endTest_at_last {e : LoopEntry} (h : e.last = a) (c d : Ctx) (hd : d = if e.rotating then c.rotate (e.done + 1 < e.n) else c)
    (rest : List LoopEntry) :
    (1 < e.left → endTest a c (e :: rest) = { d with loops := { e with left := e.left - 1, done := e.done + 1 } :: rest, pc := e.start }) ∧
      (e.left ≤ 1 → endTest a c (e :: rest) = endTest a d rest) := by
  have hl : ¬ (e.last != a) = true := by simp [h]
  subst hd
  constructor
  · intro hleft
    rw [endTest, if_neg hl]
    exact if_pos hleft
  · intro hleft
    rw [endTest, if_neg hl]
    exact if_neg (Nat.not_lt.mpr hleft)

theorem pAt_setP (c : Ctx) {k : Nat} (h0 : k ≠ 0) (hk : k < 16) (v : PReg) (j : Nat) :
    (c.setP k v).pAt j = if j = k then v else c.pAt j := by
  unfold Ctx.pAt Ctx.setP
  by_cases hj : j = k
  · subst hj
    rw [if_neg h0, if_pos rfl, Vector.getElem?_setIfInBounds_self_of_lt hk, Option.getD_some]
  · rw [if_neg hj, Vector.getElem?_setIfInBounds_ne (Ne.symm hj)]

/-- A run of writes of predicates reads back the last value at each number written. -/
theorem pAt_foldr_setP (f : Nat → PReg) (c : Ctx) (j : Nat) : ∀ ks : List Nat, (∀ k ∈ ks, k ≠ 0 ∧ k < 16) →
    (ks.foldr (fun k (d : Ctx) => d.setP k (f k)) c).pAt j = if j ∈ ks then f j else c.pAt j
  | [], _ => rfl
  | k :: ks, h => by
    obtain ⟨⟨h0, hk⟩, hks⟩ := List.forall_mem_cons.mp h
    rw [List.foldr_cons, pAt_setP _ h0 hk, pAt_foldr_setP f c j ks hks]
    by_cases hj : j = k <;> simp [hj]

theorem pAt_congr {c d : Ctx} (h : c.p = d.p) (j : Nat) : c.pAt j = d.pAt j := by
  unfold Ctx.pAt
  rw [h]

/-- The predicates after a rotation (R70). -/
theorem rotate_pAt (c : Ctx) (more : Bool) (j : Nat) :
    (c.rotate more).pAt j = if j = 8 then (if more then allOnes else 0) else if 9 ≤ j ∧ j < 16 then c.pAt (j - 1) else c.pAt j := by
  have e : (c.rotate more).pAt j =
      (([9, 10, 11, 12, 13, 14, 15].foldr (fun k (d : Ctx) => d.setP k (c.pAt (k - 1))) c).setP 8 (if more then allOnes else 0)).pAt j := by
    rw [Ctx.rotate]
    exact pAt_congr (by dsimp only) j
  have hmem : j ∈ [9, 10, 11, 12, 13, 14, 15] ↔ 9 ≤ j ∧ j < 16 := by
    simp only [List.mem_cons, List.not_mem_nil, or_false]
    omega
  rw [e, pAt_setP _ (by decide) (by decide), pAt_foldr_setP _ _ _ _ (by decide)]
  simp only [hmem]

/-- A rotation leaves the scalar and vector registers and the pc. -/
theorem rotate_registers (c : Ctx) (more : Bool) : (c.rotate more).x = c.x ∧ (c.rotate more).v = c.v ∧ (c.rotate more).pc = c.pc := by
  obtain ⟨rrb, p, h⟩ := rotate_frame c more
  rw [h]
  exact ⟨rfl, rfl, rfl⟩

/-! ## The conditions of R69 -/

theorem loopTrap_nested_loopr {rot : Bool} (h : rot = true ∧ ∃ e ∈ l, e.rotating = true) (pc last : Word) : loopTrap rot pc last l = some 1 :=
  if_pos (by simpa using h)

/-- The loop's own word lies in the body of the top entry, and its end beyond that entry's. -/
def Straddles (pc last : Word) (l : List LoopEntry) : Prop := ∃ e rest, l = e :: rest ∧ e.start ≤ pc ∧ pc ≤ e.last ∧ e.last < last

theorem straddles_iff (pc last : Word) (l : List LoopEntry) :
    (l.head?.any fun e => e.start ≤ pc && pc ≤ e.last && e.last < last) = true ↔ Straddles pc last l := by
  cases l with
  | nil => simp [Straddles]
  | cons e rest => simp [Straddles, and_assoc]

theorem loopTrap_straddling {rot : Bool} {pc last : Word} (h1 : ¬ (rot = true ∧ ∃ e ∈ l, e.rotating = true)) (h2 : Straddles pc last l) :
    loopTrap rot pc last l = some 2 := by
  rw [loopTrap, if_neg (by simpa using h1), if_pos ((straddles_iff pc last l).mpr h2)]

theorem loopTrap_depth {rot : Bool} {pc last : Word} (h1 : ¬ (rot = true ∧ ∃ e ∈ l, e.rotating = true)) (h2 : ¬ Straddles pc last l) :
    loopTrap rot pc last l = if 4 ≤ l.length then some 4 else none := by
  rw [loopTrap, if_neg (by simpa using h1), if_neg (mt (straddles_iff pc last l).mp h2)]

end

/-- Settles O14: each branch is the shared one at its own condition. -/
theorem branches : Obligations.Branches := by
  unfold Obligations.Branches
  intro s t a b o e q he
  revert e
  simp only [List.forall_mem_cons]
  have goes {p : Word → Word → Bool} (P : Word → Word → Prop) (h : ∀ x y, p x y = true ↔ P x y) := branch_goes h q a b o
  exact ⟨goes (fun x y => x = y) fun _ _ => beq_iff_eq, goes (fun x y => x ≠ y) fun _ _ => bne_iff_ne,
    goes (fun x y => x.toInt < y.toInt) fun _ _ => BitVec.slt_iff_toInt_lt, goes (fun x y => y.toInt ≤ x.toInt) not_slt_iff,
    goes (fun x y => x.toNat < y.toNat) fun _ _ => BitVec.ult_iff_toNat_lt, goes (fun x y => y.toNat ≤ x.toNat) not_ult_iff,
    fun _ h => nomatch h⟩

/-- Settles O15: the laws of jal and jalr, and what popFor leaves of the loop stack. -/
theorem jumps : Obligations.Jumps := by
  unfold Obligations.Jumps
  refine ⟨fun s t d o q => jal_done q d o, fun s t d a i q h => jalr_done q d a i h, fun s t d a i q h => jalr_trap q d a i h,
    fun c call target => rfl, fun call a target e rest h => popFor_last_slot call h rest,
    fun a target l h => popFor_elsewhere true h, fun a target l leaves h hl => ?_⟩
  rw [popFor_elsewhere false h]
  exact popLeft_longest_run a target leaves hl l

/-- Settles O16: the laws of loop and loopr. -/
theorem loops : Obligations.Loops := by
  unfold Obligations.Loops
  exact ⟨fun s t k len q h => loop_skip q k len h, fun s t k len q h ht => loop_done q k len h ht,
    fun s t k len q h => loopr_skip q k len h, fun s t k len n e q hn he h ht => loopr_done q k len n e hn he h ht⟩

/-- Settles O17: the conditions are tested in the order of their trapvals, and before the push. -/
theorem loopTraps : Obligations.LoopTraps := by
  unfold Obligations.LoopTraps
  refine ⟨fun rot pc last l => ⟨fun h => loopTrap_nested_loopr h pc last, loopTrap_straddling, loopTrap_depth⟩,
    fun s t k len v q h ht => loop_trap q false k len v (fun e => h (BitVec.eq_of_toNat_eq e)) ht,
    fun s t k len v q h ht => loop_trap q true k len v h ht⟩

/-- Settles O18: the end test, case by case, and the predicates after a rotation. -/
theorem loopEndTest : Obligations.EndTest := by
  unfold Obligations.EndTest
  refine ⟨fun a c => rfl, fun a c e rest h => endTest_elsewhere h c rest, fun a c e rest h hleft hr => ?_, fun a c e rest h hleft hr => ?_,
    fun a c e rest h hleft => (endTest_at_last h c _ rfl rest).2 hleft, fun c more => ?rotation⟩
  · exact (endTest_at_last h c c (by rw [hr]; rfl) rest).1 hleft
  · exact (endTest_at_last h c _ (by rw [hr]; rfl) rest).1 hleft
  case rotation =>
    refine ⟨_, rfl, rfl, (rotate_pAt c more 8).trans (if_pos rfl), fun k h9 h16 => ?_, fun k h8 => ?_, rotate_registers c more⟩
    · rw [rotate_pAt, if_neg (by omega), if_pos ⟨h9, h16⟩]
    · rw [rotate_pAt, if_neg (by omega), if_neg (by omega)]

end Sys2Proof.Machine
end

section
/-! The vector length (R59), and the scalar floating instructions (R62 to R64). -/

namespace Sys2Proof.Machine

section
variable {s : State} {t : Thread}

/-- slotWidth is the least slot that holds a width (R59). -/
theorem slotWidth_least (w : Nat) (h : w ≤ 64) :
    w ≤ slotWidth w ∧ slotWidth w ∈ [4, 8, 16, 32, 64] ∧ ∀ u ∈ [4, 8, 16, 32, 64], w ≤ u → slotWidth w ≤ u := by
  unfold slotWidth
  split_ifs
  all_goals
    refine ⟨by omega, by decide, fun u hu hw => ?_⟩
    simp only [List.mem_cons, List.not_mem_nil, or_false] at hu
    omega

/-! ## Modes that scalar floating instructions refuse (R62) -/

/-- The trap of an instruction that the mode does not fit (R31). -/
def badMode (c : Ctx) : Trap := { code := 2, sub := 0, val := c.mode.setWidth 64 }

theorem scalarMode_trap {r : Running} (h : scalarFloatOk r.t.ctx.mode = false) : scalarMode r = .error (.trap (badMode r.t.ctx)) r :=
  bind_ok (run_getC r) (bind_error ((run_needMode (scalarFloatOk r.t.ctx.mode) r).trans (by rw [h]; rfl)) _)

theorem scalarBin_trap (q : Quiet s t) (h : scalarFloatOk t.ctx.mode = false) (op : Fmt → Rnd → Val → Val → Rounded) (d a b : BitVec 6) :
    scalarBin op d a b s = .next ((atBody s t).takeTrap (badMode t.ctx)) :=
  control_trap q.toReady (.inl rfl) rfl (seq_error (bind_error (scalarMode_trap (r := atBody s t) h) _))

theorem fsqrt_trap (q : Quiet s t) (h : scalarFloatOk t.ctx.mode = false) (d a : BitVec 6) :
    execFsqrt d a s = .next ((atBody s t).takeTrap (badMode t.ctx)) :=
  control_trap q.toReady (.inl rfl) rfl (seq_error (bind_error (scalarMode_trap (r := atBody s t) h) _))

/-! ## The conversions of fcvt (R64) -/

variable (fmt : Vector Word 8) (r : Rnd) {T u : TypeCode} (x : Nat)

theorem convert_from_int (h : isInt T = true) : convert fmt r T u x =
    (BitVec.ofNat 64 ((floatFmt fmt u).round r false 0 (Val.ofInt (intValue T (typeWidth fmt T) x))).1,
      ((floatFmt fmt u).round r false 0 (Val.ofInt (intValue T (typeWidth fmt T) x))).2) := by
  unfold convert
  rw [if_pos h]

theorem convert_float_float (h : isInt T = false) (h' : isInt u = false) : convert fmt r T u x =
    (BitVec.ofNat 64 ((floatFmt fmt u).round r false 0 ((floatFmt fmt T).value (x % 2 ^ typeWidth fmt T))).1,
      ((floatFmt fmt u).round r false 0 ((floatFmt fmt T).value (x % 2 ^ typeWidth fmt T))).2) := by
  unfold convert
  simp only [h, h', Bool.false_eq_true, if_false]

theorem convert_float_int (h : isInt T = false) (h' : isInt u = true) : convert fmt r T u x =
    (word (intValue u (typeWidth fmt u) (toIntSat r 0 u (typeWidth fmt u) ((floatFmt fmt T).value (x % 2 ^ typeWidth fmt T))).1),
      (toIntSat r 0 u (typeWidth fmt u) ((floatFmt fmt T).value (x % 2 ^ typeWidth fmt T))).2) := by
  unfold convert
  simp only [h, h', Bool.false_eq_true, if_false, if_true]

end

/-- Settles O19: the laws of setvl and setvli, and the least slot of R59. -/
theorem vectorLength : Obligations.VectorLength := by
  unfold Obligations.VectorLength
  exact ⟨fun s t d a q => setvl_done q d a, fun s t d n q => setvli_done q d n, fun t => ⟨rfl, slotWidth_least⟩⟩

/-- Settles O24: each instruction under a mode that fits it and one that does not, and the three conversions of fcvt. -/
theorem scalarFloat : Obligations.ScalarFloat := by
  unfold Obligations.ScalarFloat
  refine ⟨fun s t d a b f x y r e q h hf hx hy hr => ?computes, fun s t d a b e q h => ?traps,
    fun s t d a b v q h hv => fcvt_done q d a b h v hv,
    fun fmt r T u x => ⟨convert_from_int fmt r x, convert_float_float fmt r x, convert_float_int fmt r x⟩⟩
  case computes =>
    subst hx hy hr
    revert e
    simp only [List.forall_mem_cons]
    have bin (op : Fmt → Rnd → Val → Val → Rounded) := scalarBin_done q h op d a b f hf _ rfl
    exact ⟨bin fun f r x y => roundVal f r false 0 (x.add r y), bin fun f r x y => roundVal f r false 0 (x.add r y.negate),
      bin fun f r x y => roundVal f r false 0 (x.mul y), bin fun f r x y => f.div r false 0 x y, fsqrt_done q h d a f hf _ rfl,
      fun _ h => nomatch h⟩
  case traps =>
    revert e
    simp only [List.forall_mem_cons]
    have bin (op : Fmt → Rnd → Val → Val → Rounded) := scalarBin_trap q h op d a b
    exact ⟨bin fun f r x y => roundVal f r false 0 (x.add r y), bin fun f r x y => roundVal f r false 0 (x.add r y.negate),
      bin fun f r x y => roundVal f r false 0 (x.mul y), bin fun f r x y => f.div r false 0 x y, fsqrt_trap q h d a, fun _ h => nomatch h⟩

end Sys2Proof.Machine
end

section
/-! Vector compares (R113), conversions and block scales (R116 to R118), reductions (R91 to R93, R119, R120) and permutes (R121). -/

namespace Sys2Proof.Machine

/-! ## A node of the tree of R92 -/

/-- Node k of a level: the present one of nodes 2k and 2k + 1 below it, or their rounded sum. -/
theorem treeLevel_node (g : Fmt) (rnd : Rnd) (l : List (Option Val)) (k : Nat) (a b : Option Val) (hk : 2 * k < l.length)
    (ha : a = l[2 * k]?.getD none) (hb : b = l[2 * k + 1]?.getD none) :
    (a = none → (treeLevel g rnd l).1[k]? = some b) ∧ (b = none → (treeLevel g rnd l).1[k]? = some a) ∧
      ∀ x y, a = some x → b = some y → (treeLevel g rnd l).1[k]? = some (some (g.value (roundVal g rnd false 0 (x.add rnd y)).1)) := by
  obtain ⟨a', b', ha', hb', node⟩ := (level_nodes g rnd l).2 k hk
  rw [← ha] at ha'
  rw [← hb] at hb'
  subst ha' hb'
  exact node

/-- A level raises the flags of its sums, and no others. -/
theorem treeLevel_flags (g : Fmt) (rnd : Rnd) (a b : Option Val) (r : List (Option Val)) :
    (a = none ∨ b = none → (treeLevel g rnd (a :: b :: r)).2 = (treeLevel g rnd r).2) ∧
      ∀ x y, a = some x → b = some y →
        (treeLevel g rnd (a :: b :: r)).2 = (roundVal g rnd false 0 (x.add rnd y)).2 ||| (treeLevel g rnd r).2 := by
  rw [level_flags]
  refine ⟨fun h => ?_, fun x y ha hb => by rw [ha, hb]⟩
  rcases h with rfl | rfl
  · exact BitVec.zero_or
  · cases a <;> exact BitVec.zero_or

theorem treeLevel_flags_single (g : Fmt) (rnd : Rnd) (a : Option Val) : (treeLevel g rnd [a]).2 = 0 := by
  cases a <;> rfl

/-- Settles O34: each compare is the shared one at its own relation. -/
theorem vectorCompare : Obligations.VectorCompare := by
  unfold Obligations.VectorCompare
  intro s t d a b c g e q he
  revert e
  simp only [List.forall_mem_cons]
  refine ⟨?_, ?_, ?_, ?_, ?_, ?_, ?_, fun _ h => nomatch h⟩
  all_goals exact fun hm hv => vecCmp_done q _ d a b hm hv

/-- Settles O36: each instruction's law, behind the dispatch. -/
theorem conversions : Obligations.Conversions := by
  unfold Obligations.Conversions
  exact ⟨fun s t d a c q hm hv => vcvt_done q d a c hm hv, fun s t d a c q hm hv => vqnt_done q d a c hm hv,
    fun s t d a c q hm hv => vdqnt_done q d a c hm hv, fun s t d a c val bs q hm hv hval hbs => vbscale_done q d a c hm hv val hval bs hbs,
    fun s t d a c out q hm hv ho => vbsmax_done q d a c hm hv out ho⟩

/-- Settles O37: the four instructions are one meaning at four kinds, whose sums, extremes and orders the laws of Sums give. -/
theorem reductions : Obligations.Reductions := by
  unfold Obligations.Reductions
  refine ⟨fun s t d a b c e o q he ho hi hm hv => ?integers, fun s t d a b c e o v q he ho hi hm hv h => ?floats,
    ordered_nil, ordered_skip, fun o init xs v g s q hg hs hq => ordered_add o init xs v g hg s q hs hq,
    fun g rnd l k a b hk ha hb => ⟨level_length g rnd l, treeLevel_node g rnd l k a b hk ha hb⟩,
    fun g rnd a b r => ⟨(treeLevel_flags g rnd a b r).1, (treeLevel_flags g rnd a b r).2, treeLevel_flags_single g rnd a, rfl⟩,
    fun g rnd l t h1 h2 ht => tree_levels g rnd l h1 h2 t ht, tree_top, tree_none,
    fun o init xs v fl g q hg h hq => tree_init o init xs v fl g hg h q hq, int_sum, int_extreme,
    fun o init xs ys k h => int_order o init xs ys h k,
    fun o init xs vs i g fl k least best hv hg hi hf hk hb => float_extreme o init xs vs hv i g hg hi fl hf k least hk best hb,
    pick_values⟩
  case integers =>
    have all (k) := reduceInt_done q k d a b o ho hi hm hv
    revert e
    simp only [List.forall_mem_cons]
    exact ⟨all .ordered, all .tree, all .least, all .greatest, fun _ h => nomatch h⟩
  case floats =>
    revert h
    revert e
    simp only [List.forall_mem_cons]
    exact ⟨reduceFloat_done q .ordered d a b o ho hi hm hv v, reduceFloat_done q .tree d a b o ho hi hm hv v,
      reduceFloat_done q .least d a b o ho hi hm hv v, reduceFloat_done q .greatest d a b o ho hi hm hv v, fun _ h => nomatch h⟩

/-- Settles O38: the slides, the moves and the two that pack are one shared permute at their own elements; the others have laws of
their own. -/
theorem permutes : Obligations.Permutes := by
  unfold Obligations.Permutes
  refine ⟨fun s t d a b c n q hm hv hn => ?slides, fun s t d a b c l q hm hv hg hl => ?packs,
    fun s t d a b c e q hm hv => vgath_done q d a b c e hm hv, fun s t d a q hm hv => vbcast_done q d a hm hv,
    fun s t d a b c x q hm hv hx => vext_done q d a b c hm hv x hx, fun s t d a b q hm hv => vins_done q d a b hm hv⟩
  case slides =>
    subst hn
    have index := rdNat_clean q.toQuiet.clean b
    exact ⟨permute_done q false d a (rdNat b) _ _ hm (.inl rfl) hv index, permute_done q false d a (rdNat b) _ _ hm (.inl rfl) hv index,
      permute_done q false d a (pure ()) () _ hm (.inl rfl) hv rfl⟩
  case packs =>
    subst hl
    have selects := rdP_clean q.toQuiet.clean b.toNat
    exact ⟨permute_done q true d a (rdP b.toNat) _ _ hm (.inr hg) hv selects, permute_done q true d a (rdP b.toNat) _ _ hm (.inr hg) hv selects⟩

end Sys2Proof.Machine
end

section
/-! Rounding (R63, R64, R74 to R78, R84 to R87): the invalid and infinite cases, and the formats that the registers describe. -/

namespace Sys2Proof.Machine

section
variable (f : Fmt) (rnd : Rnd) (sat : Bool) (z : Nat) {x : Val} {m : Nat}

/-! ## Sums and products of finite values -/

/-- The exact sum of finite values is finite. -/
theorem addFin_fin (s1 s2 : Bool) (m1 m2 : Nat) (e1 e2 : Int) : ∃ neg m e, addFin rnd s1 m1 e1 s2 m2 e2 = .fin neg m e := by
  unfold addFin
  split
  · exact ⟨_, _, _, rfl⟩
  split
  · exact ⟨_, _, _, rfl⟩
  split
  · exact ⟨_, _, _, rfl⟩
  dsimp only
  split <;> exact ⟨_, _, _, rfl⟩

/-- The exact product and sum of finite values is finite, and the fused multiply-add rounds it once (R63). -/
theorem fma_rounds_once (s1 s2 s3 : Bool) (m1 m2 m3 : Nat) (e1 e2 e3 : Int) :
    ∃ neg m e, (Val.fin neg m e).real = (Val.fin s1 m1 e1).real * (Val.fin s2 m2 e2).real + (Val.fin s3 m3 e3).real ∧
      f.fma rnd sat z (.fin s1 m1 e1) (.fin s2 m2 e2) (.fin s3 m3 e3) = f.round rnd sat z (.fin neg m e) := by
  obtain ⟨neg, m, e, h⟩ := addFin_fin rnd (s1 != s2) s3 (m1 * m2) m3 (e1 + e2) e3
  refine ⟨neg, m, e, by rw [← h, addFin_real, mul_real], ?_⟩
  have no_more (fl : Flags) : fl ||| 0 = fl := BitVec.or_zero
  simp only [Fmt.fma, Val.mul, Val.add, h, Val.snan, Bool.false_eq_true, if_false, no_more]

/-- A sum of zeros, or of opposites, is a zero whose sign is that of both, or follows the mode (R75). -/
theorem add_to_zero (s1 s2 : Bool) (e1 e2 : Int) (hm : m ≠ 0) :
    (Val.fin s1 0 e1).add rnd (.fin s2 0 e2) = (.fin (if s1 = s2 then s1 else decide (rnd = 2)) 0 0, 0) ∧
      (Val.fin s1 m e1).add rnd (.fin (!s1) m e1) = (.fin (decide (rnd = 2)) 0 0, 0) := by
  have opposites : sint s1 m + sint (!s1) m = 0 := by
    cases s1 <;> simp [sint]
  constructor
  · simp [Val.add, addFin, beq_eq_decide]
  · simp [Val.add, addFin, hm, opposites, beq_eq_decide]

/-! ## NaNs and infinities as operands (R63, R75) -/

theorem snan_of_not_nan (h : x.isNan = false) : x.snan = false := by
  cases x with
  | nan g => cases h
  | inf s => rfl
  | fin s m e => rfl

/-- A NaN operand gives the quiet NaN, with NV where it is signalling. -/
theorem add_mul_nan (h : x.isNan = false) (g : Bool) :
    (Val.nan g).add rnd x = (.nan false, if g then fNV else 0) ∧ x.add rnd (.nan g) = (.nan false, if g then fNV else 0) ∧
      (Val.nan g).mul x = (.nan false, if g then fNV else 0) ∧ x.mul (.nan g) = (.nan false, if g then fNV else 0) := by
  have hs := snan_of_not_nan h
  cases x with
  | nan g => cases h
  | inf s => simp [Val.add, Val.mul, Val.snan]
  | fin s m e => simp [Val.add, Val.mul, Val.snan]

theorem add_infinities (s t : Bool) (m : Nat) (e : Int) :
    (Val.inf s).add rnd (.inf s) = (.inf s, 0) ∧ (Val.inf s).add rnd (.inf (!s)) = (.nan false, fNV) ∧
      (Val.inf s).add rnd (.fin t m e) = (.inf s, 0) ∧ (Val.fin t m e).add rnd (.inf s) = (.inf s, 0) := by
  refine ⟨?_, ?_, rfl, rfl⟩ <;> cases s <;> rfl

theorem mul_infinities (s t : Bool) (e : Int) (hm : m ≠ 0) :
    (Val.inf s).mul (.fin t 0 e) = (.nan false, fNV) ∧ (Val.fin t 0 e).mul (.inf s) = (.nan false, fNV) ∧
      (Val.inf s).mul (.inf t) = (.inf (s != t), 0) ∧ (Val.inf s).mul (.fin t m e) = (.inf (s != t), 0) ∧
      (Val.fin t m e).mul (.inf s) = (.inf (t != s), 0) := by
  have hz : (m == 0) = false := beq_eq_false_iff_ne.mpr hm
  refine ⟨rfl, rfl, rfl, ?_, ?_⟩ <;> simp only [Val.mul, Val.isZero, Val.negative, hz, Bool.false_eq_true, if_false]

theorem div_special (s t : Bool) (e : Int) (hm : m ≠ 0) :
    f.div rnd sat z (.inf s) (.inf t) = f.nanWith fNV ∧ f.div rnd sat z (.fin s 0 e) (.fin t 0 e) = f.nanWith fNV ∧
      f.div rnd sat z (.fin s m e) (.fin t 0 e) = ((f.infinity (s != t) sat).1, (f.infinity (s != t) sat).2 ||| fDZ) ∧
      f.div rnd sat z (.inf s) (.fin t m e) = f.infinity (s != t) sat ∧ f.div rnd sat z (.fin s m e) (.inf t) = (f.sign (s != t), 0) :=
  ⟨rfl, by simp only [Fmt.div, if_true], by simp only [Fmt.div, if_true, if_neg hm], rfl, rfl⟩

theorem sqrt_special (s : Bool) (e : Int) (hm : m ≠ 0) :
    f.sqrt rnd sat z (.fin s 0 e) = (f.sign s, 0) ∧ f.sqrt rnd sat z (.fin true m e) = f.nanWith fNV ∧
      f.sqrt rnd sat z (.inf true) = f.nanWith fNV ∧ f.sqrt rnd sat z (.inf false) = f.infinity false sat :=
  ⟨rfl, if_neg hm, rfl, rfl⟩

/-! ## Results that are no finite value (R75, R77, R85, R86) -/

theorem nanWith_cases (fl : Flags) :
    (f.nan = 0 → f.nanWith fl = (0, fNV ||| fl)) ∧ (f.nan = 1 → f.nanWith fl = (2 ^ (f.e + f.m) - 1, fl)) ∧
      (f.nan = 2 → f.nanWith fl = ((2 ^ f.e - 1) * 2 ^ f.m + 2 ^ (f.m - 1), fl)) := by
  refine ⟨fun h => ?_, fun h => ?_, fun h => ?_⟩ <;> simp [Fmt.nanWith, Fmt.canonicalNan, h]

theorem infinity_cases (neg : Bool) :
    (f.sgn = false → f.infinity true sat = (0, fNV)) ∧ (f.sgn = true ∨ neg = false →
      (f.inf = true → f.infinity neg sat = (f.sign neg + (2 ^ f.e - 1) * 2 ^ f.m, 0)) ∧
      (f.inf = false → f.nan = 1 → f.infinity neg sat = if sat || f.satc then (f.sign neg + f.maxCode, 0) else f.nanWith fNV) ∧
      (f.inf = false → f.nan = 0 → f.infinity neg sat = (f.sign neg + f.maxCode, fNV))) := by
  refine ⟨fun h => by simp [Fmt.infinity, h], fun h => ?_⟩
  have signed : (!f.sgn && neg) = false := by rcases h with h | h <;> simp [h]
  refine ⟨fun hi => ?_, fun hi hn => ?_, fun hi hn => ?_⟩
  · simp [Fmt.infinity, signed, hi]
  · simp [Fmt.infinity, signed, hi, hn]
  · simp [Fmt.infinity, signed, hi, hn]

/-- The result of an overflow: the largest finite value, or what lies beyond it where the mode rounds away and the target does not
saturate. -/
theorem overflow_cases (h : f.Sound) (neg up : Bool)
    (hup : up = true ↔ rnd = 0 ∨ 4 ≤ rnd ∨ (rnd = 2 ∧ neg = true) ∨ (rnd = 3 ∧ neg = false)) :
    ((sat || f.satc) = true → f.overflow rnd neg sat = f.sign neg + f.maxCode) ∧
      (up = false → f.overflow rnd neg sat = f.sign neg + f.maxCode) ∧
      ((sat || f.satc) = false → up = true →
        (f.nan = 2 → f.overflow rnd neg sat = f.sign neg + (2 ^ f.e - 1) * 2 ^ f.m) ∧
        (f.nan = 1 → f.overflow rnd neg sat = 2 ^ (f.e + f.m) - 1) ∧
        (f.nan = 0 → f.overflow rnd neg sat = f.sign neg + f.maxCode)) := by
  have away : (rnd = 0 || 4 ≤ rnd || (rnd = 2 && neg) || (rnd = 3 && !neg)) = up := by
    rw [Bool.eq_iff_iff, hup]
    simp [or_assoc]
  have plain (hn : f.nan ≠ 2) : f.inf = false := Bool.eq_false_iff.mpr (mt h.inf.mp hn)
  unfold Fmt.overflow
  simp only [away]
  refine ⟨fun hs => if_pos hs, fun hu => by simp [hu], fun hs hu => ⟨fun hn => ?_, fun hn => ?_, fun hn => ?_⟩⟩
  · simp [hs, hu, h.inf.mpr hn]
  · simp [hs, hu, hn, plain (by omega), Fmt.canonicalNan]
  · simp [hs, hn, plain (by omega)]

/-! ## The formats of the registers (R74, R76, R78) -/

theorem field_lt (hi lo x : Nat) : field hi lo x < 2 ^ (hi + 1 - lo) := Nat.mod_lt _ (Nat.two_pow_pos _)

/-- A format register that obeys R78 describes a sound format. -/
theorem fmtOf_sound {w : Word} (h : fmtOk w = true) : (fmtOf w).Sound := by
  have nan_lt : (fmtOf w).nan < 4 := field_lt 10 9 w.toNat
  simp only [fmtOk, Bool.and_eq_true, Bool.or_eq_true, decide_eq_true_eq, bne_iff_ne, beq_iff_eq] at h
  obtain ⟨⟨⟨⟨⟨bits, -⟩, nan⟩, inf⟩, ieee⟩, ones⟩ := h
  refine ⟨by omega, by rw [inf, beq_iff_eq], fun e => ?_, fun e => ?_, bits⟩
  · exact ieee.resolve_left fun hc => hc e
  · exact ones.resolve_left fun hc => hc e

theorem fmtOf_mantissa (w : Word) : (fmtOf w).m ≤ 64 := by
  have : (fmtOf w).m < 8 := field_lt 2 0 w.toNat
  omega

/-- The format of fmt0 at reset, E4M3: its largest finite value, the next value of its grid, and its roundings about them (R79, R85). -/
theorem e4m3_roundings : ∃ f, f = fmtOf 0x70343 ∧ f.grid 0x7E = 448 ∧ f.grid 0x7F = 480 ∧
    f.round 0 false 0 (.fin false 450 0) = (0x7E, fNX) ∧ f.round 0 false 0 (.fin false 464 0) = (0x7E, fNX) ∧
    f.round 0 false 0 (.fin false 500 0) = (0x7F, fOF ||| fNX) ∧ f.round 4 false 0 (.fin false 464 0) = (0x7F, fOF ||| fNX) ∧
    f.round 0 true 0 (.fin false 500 0) = (0x7E, fOF ||| fNX) := by
  have fields : (fmtOf 0x70343).m = 3 ∧ (fmtOf 0x70343).bias = 7 := by decide
  obtain ⟨hm, hb⟩ := fields
  refine ⟨_, rfl, ?_, ?_, by decide, by decide, by decide, by decide, by decide⟩
  · rw [Fmt.grid, hm, hb]
    norm_num
  · rw [Fmt.grid, hm, hb]
    norm_num

/-! ## To an integer (R64) -/

/-- A value to an integer type: the rounded integer, clamped with NV where the type does not hold it. -/
theorem toIntSat_cases (t : TypeCode) (w : Nat) (s : Bool) (m : Nat) (e n : Int) (nx : Bool) (h : roundInt rnd z s m e = (n, nx)) :
    toIntSat rnd z t w (.nan s) = (0, fNV) ∧ toIntSat rnd z t w (.inf s) = (wrapTo w (if s then intMin t w else intMax t w), fNV) ∧
      (n < intMin t w → toIntSat rnd z t w (.fin s m e) = (saturateTo t w n, fNV)) ∧
      (intMax t w < n → toIntSat rnd z t w (.fin s m e) = (saturateTo t w n, fNV)) ∧
      (intMin t w ≤ n → n ≤ intMax t w → toIntSat rnd z t w (.fin s m e) = (wrapTo w n, if nx then fNX else 0)) := by
  have run : toIntSat rnd z t w (.fin s m e) =
      if n < intMin t w || intMax t w < n then (saturateTo t w n, fNV) else (wrapTo w n, if nx then fNX else 0) := by
    rw [toIntSat, h]
  refine ⟨rfl, rfl, fun hl => ?_, fun hl => ?_, fun h1 h2 => ?_⟩
  · rw [run, if_pos (by simp [hl])]
  · rw [run, if_pos (by simp [hl])]
  · rw [run, if_neg (by simp [h1, h2])]

end

/-- Settles O39: finite results are the laws of Rounding, and the other cases are those above. -/
theorem rounding : Obligations.Rounding := by
  unfold Obligations.Rounding
  refine ⟨round_rounds, fun f rnd sat z s1 s2 m1 m2 e1 e2 hf h => div_rounds f hf rnd sat z s1 s2 m1 m2 e1 e2 h,
    fun f rnd sat z m e hf h => sqrt_rounds f hf rnd sat z m e h,
    fun rnd s1 s2 m1 m2 e1 e2 => ⟨⟨_, rfl, addFin_real rnd s1 s2 m1 m2 e1 e2⟩, ⟨_, rfl, mul_real s1 s2 m1 m2 e1 e2⟩⟩,
    fma_rounds_once, fun rnd s1 s2 m e1 e2 hm => add_to_zero rnd s1 s2 e1 e2 hm, fun f rnd sat z x s t g m e hx hm => ?special,
    fun f neg sat fl => ?noFinite, fun f neg sat up rnd hf hup => overflow_cases f rnd sat hf neg up hup,
    fun f neg k hf hk => value_finite f hf neg k hk, fun f neg k hf h1 h2 => value_special f hf neg k h1 h2,
    fun w hw => ⟨fmtOf_sound hw, fmtOf_mantissa w, ?fp64, ?fp32, ?fp16, ?bf16⟩, e4m3_roundings, fun f rnd sat z v => rfl,
    fun rnd z neg m e x n hx h1 h2 => roundInt_rounds rnd z neg m e x hx n h1 h2, toIntSat_cases⟩
  case special =>
    obtain ⟨add1, add2, mul1, mul2⟩ := add_mul_nan rnd hx g
    obtain ⟨add3, add4, add5, add6⟩ := add_infinities rnd s t m e
    obtain ⟨mul3, mul4, mul5, mul6, mul7⟩ := mul_infinities s t e hm
    obtain ⟨div1, div2, div3, div4, div5⟩ := div_special f rnd sat z s t e hm
    obtain ⟨sqrt1, sqrt2, sqrt3, sqrt4⟩ := sqrt_special f rnd sat z s e hm
    exact ⟨add1, add2, mul1, mul2, add3, add4, add5, add6, mul3, mul4, mul5, mul6, mul7, div1, div2, div3, div4, div5, sqrt1, sqrt2, sqrt3,
      sqrt4, rfl, rfl⟩
  case noFinite =>
    obtain ⟨nan0, nan1, nan2⟩ := nanWith_cases f fl
    obtain ⟨unsigned, signed⟩ := infinity_cases f sat neg
    exact ⟨nan0, nan1, nan2, unsigned, signed⟩
  all_goals exact ⟨by decide, by decide, by decide, by decide, by decide⟩

end Sys2Proof.Machine
end

section
/-! Vector loads and stores (R196, R198 to R201). -/

namespace Sys2Proof.Machine

section
variable {t : Thread} {need : Need} {i : Nat} {s s' : State} {k k' : Chunk} {g g' : Group}

/-! ## Finding where elements lie leaves memory as it was -/

theorem keepEntry_byteAt (s : State) (n : Nat) (a : Access) (hit : Bool) (p : Nat) : (s.keepEntry n a hit).byteAt p = s.byteAt p :=
  keepEntry_keep (fun s => s.byteAt p) (fun _ _ _ => rfl) s n a hit

theorem reach_byteAt {va : Nat} {a : Access} (h : t.reach need i va s k g = some (a, s', k', g')) (p : Nat) : s'.byteAt p = s.byteAt p := by
  simp only [Thread.reach] at h
  split at h
  · split at h
    · obtain ⟨-, rfl, -, -⟩ := by simpa only [Option.some.injEq, Prod.mk.injEq] using h
      rfl
    · cases h
  · split at h
    · obtain ⟨-, rfl, -, -⟩ := by simpa only [Option.some.injEq, Prod.mk.injEq] using h
      exact keepEntry_byteAt _ _ _ _ p
    · cases h

theorem reachEach_byteAt {vas : List Nat} {as : List Access} (h : t.reachEach need i vas s k g = some (as, s', k', g')) (p : Nat) :
    s'.byteAt p = s.byteAt p := by
  induction vas generalizing s k g as with
  | nil =>
    simp only [Thread.reachEach, Option.some.injEq, Prod.mk.injEq] at h
    obtain ⟨-, rfl, -, -⟩ := h
    rfl
  | cons va rest ih =>
    simp only [Thread.reachEach, Option.bind_eq_some_iff, Option.map_eq_some_iff, Prod.mk.injEq] at h
    obtain ⟨⟨a, s1, k1, g1⟩, first, ⟨as1, s2, k2, g2⟩, others, -, rfl, rfl, rfl⟩ := h
    exact (ih others).trans (reach_byteAt first p)

theorem land_byteAt {vas ls : List Nat} (h : t.land need i vas s k g = some (ls, s', k', g')) (p : Nat) : s'.byteAt p = s.byteAt p := by
  simp only [Thread.land, Option.bind_eq_some_iff, Option.map_eq_some_iff, Prod.mk.injEq] at h
  obtain ⟨⟨as, s1, k1, g1⟩, reached, ls1, -, -, rfl, -, -⟩ := h
  exact reachEach_byteAt reached p

/-- The elements of a store enter the chunk alone: every byte of memory is as it was (R175). -/
theorem putAll_byteAt {w : Nat} {es : List (Nat × Word × Nat × Nat)} (h : t.putAll w es s k g = some (s', k', g')) (p : Nat) :
    s'.byteAt p = s.byteAt p := by
  induction es generalizing s k g with
  | nil =>
    simp only [Thread.putAll, Option.some.injEq, Prod.mk.injEq] at h
    rw [h.1]
  | cons e es ih =>
    simp only [Thread.putAll, Option.bind_eq_some_iff] at h
    obtain ⟨⟨ls, s1, k1, g1⟩, landed, others⟩ := h
    rw [ih others, land_byteAt landed]

end

/-- Settles O41: the three forms are one load at their own addresses, and its reads leave what reads leave. -/
theorem vectorLoads : Obligations.VectorLoads := by
  unfold Obligations.VectorLoads
  refine ⟨fun s t d a b g e es bs s' k g' q qc qf w he m hes ha h room => ⟨?_, seeAll_looked h⟩,
    fun s t a q hm hv => vpref_done q a hm hv⟩
  have done := vecLoad_done q qc qf w e.2 d a m es hes ha h room
  have run : exec e.1 s = vecLoad e.2 d a s := by
    revert he
    simp only [List.mem_cons, List.not_mem_nil, or_false]
    rintro (rfl | rfl | rfl) <;> rfl
  rw [run, done]

/-- Settles O42: the three forms are one store at their own addresses, and its elements enter the chunk alone. -/
theorem vectorStores : Obligations.VectorStores := by
  unfold Obligations.VectorStores
  intro s t d a b g e es s' k g' q qc qf w he m hes ha h room
  have run : exec e.1 s = vecStore e.2 d a s := by
    revert he
    simp only [List.mem_cons, List.not_mem_nil, or_false]
    rintro (rfl | rfl | rfl) <;> rfl
  exact ⟨run.trans (vecStore_done q qc qf w e.2 d a m es hes ha h room), fun p => putAll_byteAt h p⟩

end Sys2Proof.Machine
end

section
/-! Fibre loads and stores, gathers and scatters, and walks of a level (R132, R135 to R142, R149): the laws of Sys2Proof/Laws/Fibres.lean
behind the dispatch. -/

namespace Sys2Proof.Machine

theorem exec_fld (d a b : BitVec 6) (s : State) : exec (.fld d a b) s = execFld d a b s := rfl
theorem exec_fst (d a : BitVec 6) (s : State) : exec (.fst d a) s = execFst d a s := rfl
theorem exec_fgath (d a : BitVec 6) (s : State) : exec (.fgath d a) s = execFgath d a s := rfl
theorem exec_fscat (d a : BitVec 6) (s : State) : exec (.fscat d a) s = execFscat d a s := rfl
theorem exec_fwalk (d a b : BitVec 6) (s : State) : exec (.fwalk d a b) s = execFwalk d a b s := rfl

/-- Settles O44: each clause is the instruction's law. A fibre load and a walk read all their pairs and check the order of their
coordinates before they write fd; fst, fgath and fscat run over the pairs from estart up. -/
theorem fibreMemory : Obligations.FibreMemory := by
  unfold Obligations.FibreMemory
  refine ⟨?fld, ?fst, ?fgath, ?fscat, ?fwalk⟩
  case fld =>
    intro s t d a b n bs s' k g f q calm free fibres aligned count fits reads pairs rising room
    rw [exec_fld]
    exact fld_done q calm free fibres d a b aligned n count fits reads f pairs rising room
  case fst =>
    intro s t d a f s' k g q calm free whole fibres aligned hf starts puts room
    rw [exec_fst]
    exact fst_done q calm free whole fibres d a aligned f hf starts puts room
  case fgath =>
    intro s t d a f bs s' k g q calm free whole fibres mode aligned hf starts reads room
    rw [exec_fgath]
    exact fgath_done q calm free whole fibres mode d a aligned f hf starts reads room
  case fscat =>
    intro s t d a f s' k g q calm free whole fibres mode aligned hf starts elements puts room
    rw [exec_fscat]
    exact fscat_done q calm free whole fibres mode d a aligned f hf starts elements puts room
  case fwalk =>
    intro s t d a b o s1 k1 g1 l p bl bh s2 s3 k2 k3 g2 g3 lo hi kk prev s4 k4 g4 m f s' k g q calm free fibres aligned record reserved
      hl ok passes hp first last hlo hhi segment hkk within before hm pairs rising room
    rw [exec_fwalk]
    exact fwalk_done q calm free fibres d a b aligned record reserved l hl ok passes p hp first last lo hi hlo hhi segment kk hkk within
      before m hm pairs rising room

end Sys2Proof.Machine
end

section
/-! Evictions, write-backs, page walks and the accesses of the host, as events (R150, R186, R187, R243, R312, R335): the laws of
Sys2Proof/Laws/Events.lean and Links.lean behind the dispatch. -/

namespace Sys2Proof.Machine

theorem exec_cacheEviction (e : Evicted) (s : State) : exec (.cacheEviction e) s = execCacheEviction e s := rfl
theorem exec_mgdWritebackArrival (n : Nat) (s : State) : exec (.mgdWritebackArrival n) s = execMgdWritebackArrival n s := rfl
theorem exec_pageWalk (die parcel : Nat) (va : Word) (kind : AccessKind) (s : State) :
    exec (.pageWalk die parcel va kind) s = execPageWalk die parcel va kind s := rfl
theorem exec_hostWrite (pa : Nat) (data : List (BitVec 8)) (s : State) : exec (.hostWrite pa data) s = execHostWrite pa data s := rfl
theorem exec_hostAtomic (pa : Nat) (op : AmoOp) (dword : Bool) (value expected : Word) (s : State) :
    exec (.hostAtomic pa op dword value expected) s = execHostAtomic pa op dword value expected s := rfl
theorem exec_hostRead (pa n : Nat) (s : State) : exec (.hostRead pa n) s = execHostRead pa n s := rfl

/-- Settles O54: each clause is the event's law; the five kinds of eviction are the cases of State.evict. -/
theorem memoryEvents : Obligations.MemoryEvents := by
  unfold Obligations.MemoryEvents
  refine ⟨?managed, ?tracked, ?cascade, ?coordinate, ?translation, ?writeBack, ?walk, ?hostWrite, ?hostAtomic, ?hostRead⟩
  case managed =>
    intro s die line c s' run copy unheld squashed
    rw [exec_cacheEviction]
    exact cacheEviction_mgd run copy unheld s' squashed
  case tracked =>
    intro s a b run
    rw [exec_cacheEviction]
    exact cacheEviction_tracked run
  case cascade =>
    intro s line lines run least most
    rw [exec_cacheEviction]
    exact cacheEviction_cascade run least most
  case coordinate =>
    intro s core hits run
    rw [exec_cacheEviction]
    exact cacheEviction_coordinate run
  case translation =>
    intro s unit parcel page run
    rw [exec_cacheEviction]
    exact cacheEviction_translation run
  case writeBack =>
    intro s n w run next first unheld
    rw [exec_mgdWritebackArrival]
    exact mgdWritebackArrival_done run next first unheld
  case walk =>
    intro s die parcel va kind e run hdie active miss walked
    rw [exec_pageWalk]
    exact pageWalk_done run hdie active miss walked
  case hostWrite =>
    intro s pa data run reach unheld
    rw [exec_hostWrite]
    exact hostWrite_done run reach unheld
  case hostAtomic =>
    intro s u pa n op dword value expected run size reach aligned device unheld result
    rw [exec_hostAtomic]
    exact hostAtomic_done run size reach aligned device unheld result
  case hostRead =>
    intro s pa n run reach
    rw [exec_hostRead]
    exact hostRead_done run reach

end Sys2Proof.Machine
end

section
/-! The matrix unit (R152 to R169): the instructions that queue tile operations and what each operation does once it is performed, by
the laws of Sys2Proof/Laws/Matrix.lean, Tiles.lean and Products.lean. -/

namespace Sys2Proof.Machine

/-! ## The dispatch -/

theorem exec_mattach (d a : BitVec 6) (s : State) : exec (.mattach d a) s = execMattach d a s := rfl
theorem exec_mdetach (s : State) : exec .mdetach s = execMdetach s := rfl
theorem exec_mmode (d a : BitVec 6) (s : State) : exec (.mmode d a) s = execMmode d a s := rfl
theorem exec_mzero (k : BitVec 2) (s : State) : exec (.mzero k) s = execMzero k s := rfl
theorem exec_mldaV (k : BitVec 2) (a b : BitVec 6) (c : Bool) (s : State) : exec (.mldaV k a b c) s = execMldaV k a b c s := rfl
theorem exec_mldaS (k : BitVec 2) (a b : BitVec 6) (s : State) : exec (.mldaS k a b) s = execMldaS k a b s := rfl
theorem exec_mstaV (k : BitVec 2) (a b : BitVec 6) (s : State) : exec (.mstaV k a b) s = execMstaV k a b s := rfl
theorem exec_mstaS (k : BitVec 2) (a b : BitVec 6) (s : State) : exec (.mstaS k a b) s = execMstaS k a b s := rfl
theorem exec_mprune (d a b : BitVec 6) (c : Bool) (s : State) : exec (.mprune d a b c) s = execMprune d a b c s := rfl

/-- The three forms of mop are one, on a vector register or a span where the form has it (R161). -/
theorem mopForms_run (pm : BitVec 4) (k : BitVec 2) (x y : BitVec 6) (c g : Bool) (s : State) :
    ∀ e ∈ [(Instr.mopVv pm k x y c g, MopArg.v x, MopArg.v y), (.mopSv pm k x y g, .s x, .v y), (.mopSs pm k x y, .s x, .s y)],
      exec e.1 s = mopInto pm k e.2.1 e.2.2 s := by
  simp only [List.forall_mem_cons]
  exact ⟨rfl, rfl, rfl, fun _ h => nomatch h⟩

/-! ## The positions of a row (R165, R166) -/

/-- A row takes all the positions of its group, or under a predicate those that it keeps, with the elements of A packed. -/
theorem keptOf_positions (g r : Nat) (p : PReg) (ks : List Nat) (h : ks = (List.range g).filter fun k => p.getLsbD (r * g + k)) :
    keptOf g r none = (List.range g).map (fun k => (k, r * g + k)) ∧
      keptOf g r (some p) = ks.zip ((List.range ks.length).map (· + r * (g / 2))) := by
  subst h
  exact ⟨rfl, rfl⟩

/-- Settles O46: each instruction's law behind the dispatch, the three forms of mop being one (mopForms_run); the operations performed
are the laws of Tiles, and the groups those of Products. -/
theorem tileOperations : Obligations.TileOperations := by
  unfold Obligations.TileOperations
  refine ⟨?mattach, ?mdetach, ?mmode, ?mzero, ?mldaV, ?mldaS, ?mstaV, ?mstaS, ?mop, ?mprune,
    fun t k H sorted hH => zero_performed sorted k H hH,
    fun t k row0 H rows sorted hH => load_performed sorted k row0 H rows hH,
    fun t k g H a b keep kind es sorted hH hes => mop_performed sorted k g H a b keep kind hH es hes,
    drain_performed, rowCode_rowOf, mopRow_at, keptOf_positions, fun acc ps p e r he hr => fused_step acc ps p e he r hr,
    fun ps emax sticky finite nonzero low high cut => window_sum ps finite nonzero emax low high sticky cut,
    window_special, fun acc ps q r hq hr => window_enters acc ps q hq r hr, window_example, sumInt_exact,
    fun sat acc ps vs x hvs hx => int_enters sat acc ps vs hvs x hx⟩
  case mattach =>
    intro s t d a g q request ungranted hg
    rw [exec_mattach]
    exact mattach_done q d a request ungranted g hg
  case mdetach =>
    intro s t q performed
    rw [exec_mdetach]
    exact mdetach_done q performed
  case mmode =>
    intro s t d a q legal
    rw [exec_mmode]
    exact mmode_done q d a legal
  case mzero =>
    intro s t k q tile
    rw [exec_mzero]
    exact mzero_done q k tile
  case mldaV =>
    intro s t k a b c w q tile hw fields capacity
    rw [exec_mldaV]
    exact mldaV_done q k a b c tile w hw fields capacity
  case mldaS =>
    intro s t k a b w v xs s' k' q calm free tile hw fields hv span fits reads room
    rw [exec_mldaS]
    exact mldaS_done q calm free k a b tile w v hw fields hv span fits reads room
  case mstaV =>
    intro s t k a b w q performed tile hw fields capacity
    rw [exec_mstaV]
    exact mstaV_done q performed k a b tile w hw fields capacity
  case mstaS =>
    intro s t k a b w v q calm tile hw fields hv span fits apart room
    rw [exec_mstaS]
    exact mstaS_done q calm k a b tile w v hw fields hv span fits apart room
  case mop =>
    intro s t pm k x y c g e m na nb xs ys s1 s2 k1 k2 q calm free form ready first second room
    rw [mopForms_run pm k x y c g s e form]
    exact mop_done q calm free pm k e.2.1 e.2.2 m na nb ready first second room
  case mprune =>
    intro s t d a b c val kept q guard width unscaled eights fits hval hkept
    rw [exec_mprune]
    exact mprune_done q d a b c guard width unscaled eights fits val hval kept hkept

end Sys2Proof.Machine
end

section
/-! The engines' events (R155, R169, R219, R224, R229, R230, R284, R365, R366, R370): the laws of Sys2Proof/Laws/Engines.lean and Ends.lean
behind the dispatch. -/

namespace Sys2Proof.Machine

theorem exec_tileOpPerform (tid : Nat) (s : State) : exec (.tileOpPerform tid) s = execTileOpPerform tid s := rfl
theorem exec_matrixDrain (id n : Nat) (s : State) : exec (.matrixDrain id n) s = execMatrixDrain id n s := rfl
theorem exec_copyStart (core : Nat) (s : State) : exec (.copyStart core) s = execCopyStart core s := rfl
theorem exec_copyElement (id n : Nat) (s : State) : exec (.copyElement id n) s = execCopyElement id n s := rfl
theorem exec_copyComplete (id : Nat) (s : State) : exec (.copyComplete id) s = execCopyComplete id s := rfl
theorem exec_barrierCredit (id bytes : Nat) (s : State) : exec (.barrierCredit id bytes) s = execBarrierCredit id bytes s := rfl
theorem exec_streamRefill (tid v n : Nat) (s : State) : exec (.streamRefill tid v n) s = execStreamRefill tid v n s := rfl
theorem exec_post (parcel j : Nat) (s : State) : exec (.post parcel j) s = execPost parcel j s := rfl
theorem exec_postCredit (parcel j : Nat) (s : State) : exec (.postCredit parcel j) s = execPostCredit parcel j s := rfl
theorem exec_traverseDone (parcel : Nat) (s : State) : exec (.traverseDone parcel) s = execTraverseDone parcel s := rfl
theorem exec_traverseStop (parcel : Nat) (s : State) : exec (.traverseStop parcel) s = execTraverseStop parcel s := rfl

/-- Settles O55: each clause is the law of its event, or of the copy's or traverse's own step that the event makes. -/
theorem engineEvents : Obligations.EngineEvents := by
  unfold Obligations.EngineEvents
  refine ⟨?tileOp, ?departed, ?drainEmpty, ?drainFault, ?drainElement, ?copySmall, ?copyLarge, ?copyElement, fun s n c => move_none,
    fun s s' n va k l c a d => move_read, ?elementWrite, ?credit, ?copyComplete,
    fun s c l fails bar unheld hfails rest => copyEnd_bar bar unheld fails hfails rest, fun s c => copyEnd_bare, ?refill, ?postStart,
    ?postMove, ?creditNone, ?creditOwn, ?creditFar, ?traverseDone, ?traverseStop,
    fun s parcel v fs f u written hu => endTraverse_done fs f written u hu,
    fun v parcel p j n s w a d hw places => cell_moves v parcel p j n s w hw a d places⟩
  case tileOp =>
    intro s tid t op rest run thread queue resident
    rw [exec_tileOpPerform]
    exact tileOpPerform_done run thread queue resident
  case departed =>
    intro s tid t op rest run gone thread queue
    rw [exec_tileOpPerform]
    exact tileOpPerform_departed run gone thread queue
  case drainEmpty =>
    intro s id n d run drain noRows
    rw [exec_matrixDrain]
    exact matrixDrain_empty run drain noRows
  case drainFault =>
    intro s id n k d row bad run drain hrow undone outside
    rw [exec_matrixDrain]
    exact matrixDrain_fault run drain hrow undone outside
  case drainElement =>
    intro s u id n loc d e row bad run drain hrow undone inside hloc unheld hu he
    rw [exec_matrixDrain]
    exact matrixDrain_done run drain hrow undone inside hloc unheld hu he
  case copySmall =>
    intro s core c run next small room
    rw [exec_copyStart]
    exact copyStart_small run next small room
  case copyLarge =>
    intro s core c run next large alone
    rw [exec_copyStart]
    exact copyStart_large run next large alone
  case copyElement =>
    intro s id n c run moves
    rw [exec_copyElement]
    exact copyElement_done run moves
  case elementWrite =>
    intro s s' n va k m x va' k' l c a d bs spot shared piece held hm hbs piece' hva hk unasked undone copy reach unheld
    exact move_write spot shared piece held bs hm hbs piece' hva hk unasked undone copy reach unheld
  case credit =>
    intro s id bytes l c run copy forked started bar some within unheld
    rw [exec_barrierCredit]
    exact barrierCredit_done run copy forked started bar some within unheld
  case copyComplete =>
    intro s id c run copy forked started answered ended marked
    rw [exec_copyComplete]
    exact copyComplete_done run copy forked started answered ended marked
  case refill =>
    intro s s' tid v l t p q b got u run thread stream resident noChunk hgot hq hb within aligned reach sound hu
    rw [exec_streamRefill]
    exact streamRefill_done run thread stream resident noChunk hgot hq hb within aligned reach sound u hu
  case postStart =>
    intro s parcel j v p run traverse unstarted post startable turn
    rw [exec_post]
    exact post_start run traverse unstarted post startable turn
  case postMove =>
    intro s parcel j n v p q run traverse flying post standing next
    rw [exec_post]
    exact post_move run traverse flying post standing next
  case creditNone =>
    intro s parcel j v p q run performed noRecord
    rw [exec_postCredit]
    exact postCredit_none run performed noRecord
  case creditOwn =>
    intro s s' s'' parcel j l k v p q rrec u run performed hrec record reach bit unheld hu
    rw [exec_postCredit]
    exact postCredit_own run performed hrec record reach bit unheld u hu
  case creditFar =>
    intro s s' u parcel j dev off v p q rrec run performed hrec record reach hu
    rw [exec_postCredit]
    exact postCredit_far run performed hrec record reach hu
  case traverseDone =>
    intro s parcel v run traverse unstopped noneFlying all mayEnd
    rw [exec_traverseDone]
    exact traverseDone_done run traverse unstopped noneFlying all mayEnd
  case traverseStop =>
    intro s parcel v f va run traverse stopped failed unasked mayEnd
    rw [exec_traverseStop]
    exact traverseStop_done run traverse stopped failed unasked mayEnd

end Sys2Proof.Machine
end

section
/-! The ordering and chunk instructions and the events of the device order (R176 to R191, R211 to R214, R277 to R282, R306, R340, R345): the
laws of Sys2Proof/Laws/Sync.lean, Commits.lean and Events.lean behind the dispatch. -/

namespace Sys2Proof.Machine

/-! ## The dispatch -/

theorem exec_fence (sc : BitVec 2) (s : State) : exec (.fence sc) s = execFence sc s := rfl
theorem exec_acq (d a : BitVec 6) (sc : BitVec 2) (s : State) : exec (.acq d a sc) s = execAcq d a sc s := rfl
theorem exec_rel (a b : BitVec 6) (sc : BitVec 2) (s : State) : exec (.rel a b sc) s = execRel a b sc s := rfl
theorem exec_pref (a : BitVec 6) (s : State) : exec (.pref a) s = execPref a s := rfl
theorem exec_vdrain (s : State) : exec .vdrain s = execVdrain s := rfl
theorem exec_nop (s : State) : exec .nop s = execNop s := rfl
theorem exec_pause (s : State) : exec .pause s = execPause s := rfl
theorem exec_chkbeg (s : State) : exec .chkbeg s = execChkbeg s := rfl
theorem exec_chkend (s : State) : exec .chkend s = execChkend s := rfl
theorem exec_chkstat (d : BitVec 6) (s : State) : exec (.chkstat d) s = execChkstat d s := rfl
theorem exec_chunkLimitEnd (tid : Nat) (s : State) : exec (.chunkLimitEnd tid) s = execChunkLimitEnd tid s := rfl
theorem exec_chunkCommit (tid : Nat) (s : State) : exec (.chunkCommit tid) s = execChunkCommit tid s := rfl
theorem exec_priorityCommitRequest (tid : Nat) (s : State) :
    exec (.priorityCommitRequest tid) s = execPriorityCommitRequest tid s := rfl
theorem exec_priorityTicketPass (s : State) : exec .priorityTicketPass s = execPriorityTicketPass s := rfl
theorem exec_persistentRequest (tid line : Nat) (s : State) :
    exec (.persistentRequest tid line) s = execPersistentRequest tid line s := rfl
theorem exec_farOpPerform (slice : Nat) (s : State) : exec (.farOpPerform slice) s = execFarOpPerform slice s := rfl
theorem exec_deferredLoadReply (id : Nat) (s : State) : exec (.deferredLoadReply id) s = execDeferredLoadReply id s := rfl
theorem exec_trapEntry (tid : Nat) (s : State) : exec (.trapEntry tid) s = execTrapEntry tid s := rfl
theorem exec_asyncTrap (tid : Nat) (s : State) : exec (.asyncTrap tid) s = execAsyncTrap tid s := rfl

/-- Settles O28: each clause is the instruction's law. acq loads before its scope action, rel acts before it stores, and the forms with x0
make no access. -/
theorem orderingInstructions : Obligations.OrderingInstructions := by
  unfold Obligations.OrderingInstructions
  refine ⟨?fence, ?acqBare, ?acq, ?relBare, ?rel, ?pref, ?vdrain, ?nop, ?pause⟩
  case fence =>
    intro s t sc q drained free
    rw [exec_fence]
    exact fence_done q sc drained free
  case acqBare =>
    intro s t d sc q free
    rw [exec_acq]
    exact acq_bare q d sc free
  case acq =>
    intro s t d a sc acc hit l s' k q unclaimed ha aligned lands sound hs free hk
    rw [exec_acq]
    exact acq_done q unclaimed d a ha sc aligned lands sound s' hs free k hk
  case relBare =>
    intro s t b sc q drained free
    rw [exec_rel]
    exact rel_bare q b sc drained free
  case rel =>
    intro s t a b sc acc hit l s' k q unclaimed ha aligned lands drained free hs hk unheld
    rw [exec_rel]
    exact rel_done q unclaimed a b ha sc aligned lands drained free s' hs k hk unheld
  case pref =>
    intro s t a q
    rw [exec_pref]
    exact pref_done q a
  case vdrain =>
    intro s t q early drained
    rw [exec_vdrain]
    exact vdrain_done q early drained
  case nop =>
    intro s t q
    rw [exec_nop]
    exact nop_done q
  case pause =>
    intro s t q
    rw [exec_pause]
    exact pause_done q

/-- Settles O29: chkbeg, chkend and chkstat by their laws, and what a commit does with a launch, an arrival and a request by the laws of
those three. -/
theorem explicitChunks : Obligations.ExplicitChunks := by
  unfold Obligations.ExplicitChunks
  refine ⟨?chkbeg, ?stores, ?everything, fun s n l m hm => launch_made s n l m hm, stand_arrives,
    fun s q r u hr hu => request_sent s q r hr u hu, ?chkstat⟩
  case chkbeg =>
    intro s t q
    rw [exec_chkbeg]
    exact chkbeg_done q
  case stores =>
    intro s t k q replies hk spare deferred forked unheld
    rw [exec_chkend]
    exact chkend_done q replies k hk spare deferred forked unheld
  case everything =>
    intro s t k q replies hk stays keeps deferred commits
    rw [exec_chkend]
    exact chkend_all q replies k hk stays keeps deferred commits
  case chkstat =>
    intro s t d q
    rw [exec_chkstat]
    exact chkstat_done q d

/-- Settles O52: each clause is the law of its event, the ticket's pass and the far operation with one law for each of their two cases. -/
theorem chunkEvents : Obligations.ChunkEvents := by
  unfold Obligations.ChunkEvents
  refine ⟨?limit, ?landing, ?ticketAsked, ?ticketOn, ?ticketGranted, ?persistent, ?farCool, ?farHot, ?reply, ?trap, ?trapVp, ?async⟩
  case limit =>
    intro s tid t c run thread ready chunk implicit
    rw [exec_chunkLimitEnd]
    exact chunkLimitEnd_done run thread ready chunk implicit
  case landing =>
    intro s s' tid t u c run thread ready chunk ended untrapped commits stays keeps
    rw [exec_chunkCommit]
    exact chunkCommit_done run thread ready chunk ended untrapped commits stays keeps
  case ticketAsked =>
    intro s tid d t q run thread ready needs unheld hd hq unqueued room
    rw [exec_priorityCommitRequest]
    exact priorityCommitRequest_done run thread ready needs unheld hd hq unqueued room
  case ticketOn =>
    intro s run noHolder empty
    rw [exec_priorityTicketPass]
    exact priorityTicketPass_on run noHolder empty
  case ticketGranted =>
    intro s tid rest run noHolder queue
    rw [exec_priorityTicketPass]
    exact priorityTicketPass_grant run noHolder queue
  case persistent =>
    intro s tid line die t run thread may hdie room fresh
    rw [exec_persistentRequest]
    exact persistentRequest_done run thread may hdie room fresh
  case farCool =>
    intro s slice line core x rest u run queue noOther hu
    rw [exec_farOpPerform]
    exact farOpPerform_cool run queue noOther u hu
  case farHot =>
    intro s slice line core x rest run queue others
    rw [exec_farOpPerform]
    exact farOpPerform_hot run queue others
  case reply =>
    intro s id d run found
    rw [exec_deferredLoadReply]
    exact deferredLoadReply_done run found
  case trap =>
    intro s s' tid t u f run thread ready trapped commits unrecorded
    rw [exec_trapEntry]
    exact trapEntry_done run thread ready trapped commits unrecorded
  case trapVp =>
    intro s s' tid i t u f e run thread ready trapped commits unrecorded vp
    rw [exec_trapEntry]
    exact trapEntry_vp run thread ready trapped commits unrecorded vp
  case async =>
    intro s tid t p run thread ready noChunk recorded
    rw [exec_asyncTrap]
    exact asyncTrap_done run thread ready noChunk recorded

end Sys2Proof.Machine
end

section
/-! Trap entry (R177, R183, R268, R277, R280, R338, R340, R342, R343). -/

namespace Sys2Proof.Machine

/-! ## The cause register (R338) -/

/-- The four flags of a cause, from bit 14 up. -/
def causeFlags (vp async prev more : Bool) : Nat := async.toNat + 2 * vp.toNat + 4 * prev.toNat + 8 * more.toNat

theorem causeFlags_lt (vp async prev more : Bool) : causeFlags vp async prev more < 16 := by
  have := async.toNat_lt
  have := vp.toNat_lt
  have := prev.toNat_lt
  have := more.toNat_lt
  unfold causeFlags
  omega

/-- The flags in their order, as bits of one number. -/
theorem causeFlags_testBit (vp async prev more : Bool) : (causeFlags vp async prev more).testBit 0 = async ∧
    (causeFlags vp async prev more).testBit 1 = vp ∧ (causeFlags vp async prev more).testBit 2 = prev ∧
    (causeFlags vp async prev more).testBit 3 = more := by
  revert vp async prev more
  decide

/-- The cause register holds the code, the subcode above it and the flags above both. -/
theorem causeWord_toNat {f : Trap} (hc : f.code < 256) (hs : f.sub < 16) (vp async prev more : Bool) :
    (causeWord f vp async prev more).toNat = 2 ^ 14 * causeFlags vp async prev more + (f.code + 256 * f.sub) := by
  have bit : ∀ (x : Bool) (k : Nat), (if x = true then 2 ^ k else 0) = 2 ^ k * x.toNat := by
    intro x k
    cases x <;> simp
  have := causeFlags_lt vp async prev more
  unfold causeFlags at this ⊢
  simp only [causeWord, bit, BitVec.toNat_ofNat]
  omega

theorem causeWord_flag {f : Trap} (hc : f.code < 256) (hs : f.sub < 16) (vp async prev more : Bool) (k : Nat) :
    (causeWord f vp async prev more).getLsbD (14 + k) = (causeFlags vp async prev more).testBit k := by
  have low : f.code + 256 * f.sub < 2 ^ 14 := by omega
  rw [← BitVec.testBit_toNat, causeWord_toNat hc hs, Nat.testBit_two_pow_mul_add _ low, if_neg (by omega), Nat.add_sub_cancel_left]

/-! ## Entry of a thread -/

/-- A trap away from the handler's own entry changes the thread alone, which gives the priority ticket back (R268, R277, R280, R343). -/
theorem enterTrap_single {s : State} {t : Thread} {pc : Word} (h : ¬ (t.ctx.priv = true ∧ pc = (s.parcel t.parcel).trapvec &&& ~~~3))
    (f : Trap) (vp async more : Bool) : s.enterTrap t f pc vp async more = (s.setThread { t with
      ctx := t.ctx.enterTrap (s.parcel t.parcel).trapvec f pc vp async more, squashes := 0, limit := baseLimit t.chunkhint, squashesAtOne := 0,
      statFresh := true, failures := [], strip := none, stripSince := none, arrivedIn := none,
      userArrived := if t.ctx.priv then t.userArrived else t.arrivedIn,
      privArrived := if t.ctx.priv then t.arrivedIn else t.privArrived }).releaseTicket t.tid := by
  have single : ¬ doubleFault (s.parcel t.parcel).trapvec t.ctx pc = true := by
    rwa [doubleFault, Bool.and_eq_true, beq_iff_eq]
  exact if_neg single

/-- Settles O6: the cause register by its fields (causeWord_toNat, causeWord_flag), the entry of a thread by enterTrap_single, and the two
ways of a synchronous trap by the laws of Running.takeTrap. -/
theorem trapEntry : Obligations.TrapEntry := by
  unfold Obligations.TrapEntry
  refine ⟨?context, fun s t f pc vp async more h => enterTrap_single h f vp async more,
    fun r k f chunk implicit spare noVp deferred pending forked unheld =>
      takeTrap_truncates chunk implicit spare noVp deferred pending forked unheld f,
    fun r k f chunk explicit pending => takeTrap_squashes chunk explicit pending f⟩
  intro c tv f pc vp async more hc hs
  have word := causeWord_toNat hc hs vp async c.priv more
  have flag := causeWord_flag hc hs vp async c.priv more
  have flags := causeFlags_lt vp async c.priv more
  obtain ⟨hasync, hvp, hprev, hmore⟩ := causeFlags_testBit vp async c.priv more
  have code : (causeWord f vp async c.priv more).toNat % 256 = f.code := by omega
  have sub : (causeWord f vp async c.priv more).toNat / 256 % 16 = f.sub := by omega
  have reserved : (causeWord f vp async c.priv more).toNat < 2 ^ 18 := by omega
  have fromUser : c.priv = false → (c.enterTrap tv f pc vp async more).userFrame = { loops := c.loops, rrb := c.rrb, vps := c.vps } ∧
      (c.enterTrap tv f pc vp async more).privFrame = c.privFrame := by
    intro user
    simp only [Ctx.enterTrap, user, Bool.false_eq_true, if_false, and_self]
  have fromPriv : c.priv = true → (c.enterTrap tv f pc vp async more).privFrame = { loops := c.loops, rrb := c.rrb, vps := c.vps } ∧
      (c.enterTrap tv f pc vp async more).userFrame = c.userFrame := by
    intro priv
    simp only [Ctx.enterTrap, priv, if_true, and_self]
  exact ⟨_, rfl, rfl, rfl, code, sub, (flag 0).trans hasync, (flag 1).trans hvp, (flag 2).trans hprev, (flag 3).trans hmore, reserved,
    rfl, rfl, rfl, rfl, rfl, fromUser, fromPriv,
    rfl, rfl, rfl, rfl, rfl, rfl, rfl, rfl, rfl, rfl, rfl, rfl, rfl, rfl, rfl, rfl, rfl⟩

end Sys2Proof.Machine
end

section
/-! Scalar loads and stores (R175, R186, R188, R189, R194, R195, R196, R340, R393). -/

namespace Sys2Proof.Machine

/-! ## The forms and their dispatch -/

/-- The scalar loads, each with its width in bytes and the extension of what it reads (R194). -/
def scalarLoads : List ((BitVec 6 → BitVec 6 → BitVec 11 → Instr) × Nat × Ext) :=
  [(.ldB, 1, .sign), (.ldH, 2, .sign), (.ldW, 4, .sign), (.ldD, 8, .zero), (.ldBu, 1, .zero), (.ldHu, 2, .zero), (.ldWu, 4, .zero)]

/-- The scalar stores, each with its width in bytes. -/
def scalarStores : List ((BitVec 6 → BitVec 6 → BitVec 11 → Instr) × Nat) := [(.stB, 1), (.stH, 2), (.stW, 4), (.stD, 8)]

/-- The loads and stores of two bytes or more, whose address can be misaligned. -/
def wideForms : List ((BitVec 6 → BitVec 6 → BitVec 11 → Instr) × Nat) :=
  (scalarLoads.map (fun e => (e.1, e.2.1)) ++ scalarStores).filter (1 < ·.2)

/-- The loads with their extensions written out as functions of the bytes. -/
def extendingLoads : List ((BitVec 6 → BitVec 6 → BitVec 11 → Instr) × Nat × (Nat → Word)) :=
  scalarLoads.map fun e => (e.1, e.2.1, extend e.2.2 e.2.1)

theorem scalarLoads_run (d b : BitVec 6) (o : BitVec 11) (s : State) :
    ∀ e ∈ scalarLoads, exec (e.1 d b o) s = loadAt e.2.1 e.2.2 d b o s := by
  simp only [scalarLoads, List.forall_mem_cons]
  exact ⟨rfl, rfl, rfl, rfl, rfl, rfl, rfl, fun _ h => nomatch h⟩

theorem scalarStores_run (d b : BitVec 6) (o : BitVec 11) (s : State) :
    ∀ e ∈ scalarStores, exec (e.1 d b o) s = storeAt e.2 d b o s := by
  simp only [scalarStores, List.forall_mem_cons]
  exact ⟨rfl, rfl, rfl, rfl, fun _ h => nomatch h⟩

/-- Each load is one meaning at its width, under the extension that its function is. -/
theorem extendingLoads_run {e : (BitVec 6 → BitVec 6 → BitVec 11 → Instr) × Nat × (Nat → Word)} (he : e ∈ extendingLoads) :
    ∃ ext, e.2.2 = extend ext e.2.1 ∧ ∀ d b o s, exec (e.1 d b o) s = loadAt e.2.1 ext d b o s := by
  obtain ⟨f, hf, rfl⟩ := List.mem_map.1 he
  exact ⟨f.2.2, rfl, fun d b o s => scalarLoads_run d b o s f hf⟩

/-! ## Misaligned accesses (R194, R340) -/

section
variable {s : State} {t : Thread} {n : Nat} {d b : BitVec 6} {o : BitVec 11} {va : Word}

theorem load_misaligned (q : Quiet s t) (ext : Ext) (hva : va = scalarAddr (t.ctx.xAt b) o n) (h : va.toNat % n ≠ 0) :
    loadAt n ext d b o s = .next ((atBody s t).takeTrap { code := 3, sub := 0, val := va }) := by
  subst hva
  refine control_trap q.toReady (.inl rfl) rfl ?_
  have base : rdX b (atBody s t) = .ok (t.ctx.xAt b) (atBody s t) := rdX_clean q.clean b
  simp only [run_seq, run_bind, base, loadX, run_ite, if_pos h, run_trap]

theorem store_misaligned (q : Quiet s t) (hva : va = scalarAddr (t.ctx.xAt b) o n) (h : va.toNat % n ≠ 0) :
    storeAt n d b o s = .next ((atBody s t).takeTrap { code := 3, sub := 0, val := va }) := by
  subst hva
  refine control_trap q.toReady (.inl rfl) rfl ?_
  have base : rdX b (atBody s t) = .ok (t.ctx.xAt b) (atBody s t) := rdX_clean q.clean b
  have data : rdX d (atBody s t) = .ok (t.ctx.xAt d) (atBody s t) := rdX_clean q.clean d
  simp only [run_seq, run_bind, base, data, storeX, if_pos h, run_trap]

theorem wide_misaligned (q : Quiet s t) {e : (BitVec 6 → BitVec 6 → BitVec 11 → Instr) × Nat} (he : e ∈ wideForms)
    (hva : va = scalarAddr (t.ctx.xAt b) o e.2) (h : va.toNat % e.2 ≠ 0) :
    exec (e.1 d b o) s = .next ((atBody s t).takeTrap { code := 3, sub := 0, val := va }) := by
  rcases List.mem_append.1 (List.mem_of_mem_filter he) with load | store
  · obtain ⟨f, hf, rfl⟩ := List.mem_map.1 load
    exact (scalarLoads_run d b o s f hf).trans (load_misaligned q f.2.2 hva h)
  · exact (scalarStores_run d b o s e store).trans (store_misaligned q hva h)

end

/-- Settles O26: the forms are one load and one store at their widths (scalarLoads_run, scalarStores_run), and each clause is the law of
the place that the access lands on. -/
theorem loadsAndStores : Obligations.LoadsAndStores := by
  unfold Obligations.LoadsAndStores
  refine ⟨?load, ?store, ?misaligned, ?loadDev, ?storeDev, ?loadWindow, ?storeWindow, ?storeFabric, ?loadFabricAsks, ?loadFabric, ?late⟩
  case load =>
    intro s t d b o e va a hit l k u q calm free form hva aligned lands now sound hk room hu
    obtain ⟨ext, hext, run⟩ := extendingLoads_run form
    rw [run, hext]
    exact load_done q calm free e.2.1 ext d b o va hva aligned lands now sound k hk room u hu
  case store =>
    intro s t d b o e va a hit l k q calm free form hva aligned lands hk room
    rw [scalarStores_run d b o s e form]
    exact ⟨store_done q calm free e.2 d b o va hva aligned lands k hk room, keepEntry_byteAt s t.coreNum a hit⟩
  case misaligned =>
    intro s t d b o e va q form hva misaligned
    exact wide_misaligned q form hva misaligned
  case loadDev =>
    intro s t d b o e va a hit pa q free form hva aligned lands sound
    obtain ⟨ext, hext, run⟩ := extendingLoads_run form
    rw [run, hext]
    exact loadDev_done q free e.2.1 ext d b o va hva aligned lands sound
  case storeDev =>
    intro s t d b o e va a hit pa ws q free form hva aligned lands hws unheld
    rw [scalarStores_run d b o s e form]
    exact storeDev_done q free e.2 d b o va hva aligned lands ws hws unheld
  case loadWindow =>
    intro s t d b o va a hit off q free priv hva aligned lands
    exact loadWindow_done q free priv d b o va hva aligned lands .zero
  case storeWindow =>
    intro s t d b o va a hit off q free priv hva aligned lands
    exact storeWindow_done q free priv d b o va hva aligned lands
  case storeFabric =>
    intro s t d b o e va a hit dev off k k2 q calm free form hva aligned lands implicit hk hk2 room
    rw [scalarStores_run d b o s e form]
    exact storeFabric_done q calm free e.2 d b o va hva aligned lands implicit k k2 hk hk2 room
  case loadFabricAsks =>
    intro s t d b o e va a hit dev off q calm form hva aligned lands implicit now noneInChunk noneOut unasked
    obtain ⟨ext, -, run⟩ := extendingLoads_run form
    rw [run]
    exact loadFabric_asks q calm e.2.1 ext d b o va hva aligned lands implicit now noneInChunk noneOut unasked
  case loadFabric =>
    intro s t d b o e va a hit dev off data k q free form hva aligned lands implicit now noneInChunk noneOut reply calm hk room
    obtain ⟨ext, hext, run⟩ := extendingLoads_run form
    rw [run, hext]
    exact loadFabric_done q free e.2.1 ext d b o va hva aligned lands implicit now noneInChunk noneOut data reply calm k hk room
  case late =>
    intro s t d b o e va a hit l k q calm free form hva aligned lands implicit deferred managed missing unwritten hk room
    rw [scalarLoads_run d b o s e form]
    exact loadDeferred_done q calm free e.2.1 e.2.2 d b o va hva aligned lands implicit deferred managed missing unwritten k hk room

end Sys2Proof.Machine
end

section
/-! Atomics, scalar and vector (R205, R206, R208 to R210). -/

namespace Sys2Proof.Machine

/-! ## The forms and their dispatch -/

/-- The scalar atomics, each with its operation (R205). -/
def atomicForms : List ((BitVec 6 → BitVec 6 → BitVec 6 → Bool → Instr) × AmoOp) :=
  [(.amoAdd, .add), (.amoAnd, .and), (.amoOr, .or), (.amoXor, .xor), (.amoMin, .min), (.amoMax, .max), (.amoMinu, .minu),
    (.amoMaxu, .maxu), (.amoSwap, .swap), (.amoFadd, .fadd), (.cas, .cas)]

theorem atomicForms_run (d a b : BitVec 6) (z : Bool) (s : State) :
    ∀ e ∈ atomicForms, exec (e.1 d a b z) s = control {} (seq do atomicX e.2 d a b z) s := by
  simp only [atomicForms, List.forall_mem_cons]
  exact ⟨rfl, rfl, rfl, rfl, rfl, rfl, rfl, rfl, rfl, rfl, rfl, fun _ h => nomatch h⟩

/-- The vector atomics, each with its operation and whether it returns the old values (R209); noncomputable because Lean's compiled
code has no tag for a constructor past the 244th. -/
noncomputable def vectorAtomicForms : List ((BitVec 6 → BitVec 6 → BitVec 6 → Bool → Instr) × AmoOp × Bool) :=
  [(.vamoAdd, .add, false), (.vamoAddRet, .add, true), (.vamoAnd, .and, false), (.vamoAndRet, .and, true),
    (.vamoOr, .or, false), (.vamoOrRet, .or, true), (.vamoXor, .xor, false), (.vamoXorRet, .xor, true),
    (.vamoMin, .min, false), (.vamoMinRet, .min, true), (.vamoMax, .max, false), (.vamoMaxRet, .max, true),
    (.vamoMinu, .minu, false), (.vamoMinuRet, .minu, true), (.vamoMaxu, .maxu, false), (.vamoMaxuRet, .maxu, true),
    (.vamoSwap, .swap, false), (.vamoSwapRet, .swap, true), (.vamoFadd, .fadd, false), (.vamoFaddRet, .fadd, true)]

theorem vectorAtomicForms_run (d a b : BitVec 6) (g : Bool) (s : State) :
    ∀ e ∈ vectorAtomicForms, exec (e.1 d a b g) s = vecAtomic e.2.1 e.2.2 d a b s := by
  simp only [vectorAtomicForms, List.forall_mem_cons]
  exact ⟨rfl, rfl, rfl, rfl, rfl, rfl, rfl, rfl, rfl, rfl, rfl, rfl, rfl, rfl, rfl, rfl, rfl, rfl, rfl, rfl, fun _ h => nomatch h⟩

/-- No vector atomic compares and swaps. -/
theorem vectorAtomicForms_ne_cas : ∀ e ∈ vectorAtomicForms, e.2.1 ≠ .cas := by
  simp [vectorAtomicForms]

/-! ## The operations (R205, R206) -/

section
variable (n m v : Nat)

/-- cas writes where the old value is the expected one, every other operation always. -/
theorem amoWrites_cas (x : Nat) : amoWrites .cas n m x = decide (m = x % 2 ^ (8 * n)) := rfl

theorem amoWrites_of_ne_cas (x : Nat) {op : AmoOp} (h : op ≠ .cas) : amoWrites op n m x = true := by
  rw [amoWrites, bne_iff_ne.2 h, Bool.true_or]

/-- min and max choose by the operands' signed order. -/
theorem amoApply_min_signed : sextNat (amoApply .min n m v).1 (8 * n) = min (sextNat m (8 * n)) (sextNat v (8 * n)) := by
  rw [min_def]
  exact apply_ite (sextNat · (8 * n)) _ m v

theorem amoApply_max_signed : sextNat (amoApply .max n m v).1 (8 * n) = max (sextNat m (8 * n)) (sextNat v (8 * n)) := by
  rw [max_def]
  exact apply_ite (sextNat · (8 * n)) _ v m

theorem amoApply_picks_operand {op : AmoOp} (h : op ∈ [AmoOp.min, .max]) : (amoApply op n m v).1 = m ∨ (amoApply op n m v).1 = v := by
  rcases List.mem_pair.1 h with rfl | rfl
  · exact ite_eq_or_eq _ m v
  · exact (ite_eq_or_eq _ v m).symm

/-- fadd is the rne sum in the format of its width. -/
theorem amoApply_fadd {f : Fmt} (hf : f = if n = 8 then fp64 else fp32) :
    amoApply .fadd n m v = roundVal f 0 false 0 ((f.value m).add 0 (f.value v)) := by
  simp only [amoApply, addRne, roundVal, hf, beq_iff_eq]

end

/-- A sum of finite values is their exact sum, rounded once. -/
theorem roundVal_add_rounds (f : Fmt) (rnd : Rnd) (sat : Bool) (z : Nat) (s1 s2 : Bool) (m1 m2 : Nat) (e1 e2 : Int) :
    ∃ neg x, RoundsTo f rnd sat z neg x (roundVal f rnd sat z ((Val.fin s1 m1 e1).add rnd (.fin s2 m2 e2))) ∧
      (if neg then -1 else 1) * x = (Val.fin s1 m1 e1).real + (Val.fin s2 m2 e2).real := by
  obtain ⟨neg, m, e, sum⟩ := addFin_fin rnd s1 s2 m1 m2 e1 e2
  have no_more (fl : Flags) : fl ||| 0 = fl := BitVec.or_zero
  have once : roundVal f rnd sat z ((Val.fin s1 m1 e1).add rnd (.fin s2 m2 e2)) = f.round rnd sat z (.fin neg m e) := by
    simp only [roundVal, Val.add, sum, no_more]
  refine ⟨neg, m * (2 : ℝ) ^ e, once ▸ round_rounds f rnd sat z neg m e, ?_⟩
  rw [← addFin_real rnd, sum, Val.real]

/-- Settles O27: the forms are one atomic at their operations (atomicForms_run), placed by the law of its place, near or far; what they
compute is said of the operation alone. -/
theorem atomics : Obligations.Atomics := by
  unfold Obligations.Atomics
  refine ⟨?near, ?farBare, ?far, ?cas, ?fadd, ?integers⟩
  case near =>
    intro s t d a b z e n acc hit l u m x k q calm free form width aligned lands sound near hu hm hx hk room
    rw [atomicForms_run d a b z s e form]
    exact atomic_done q calm free e.2 d a b z n width aligned lands sound near u hu m x hm hx k hk room
  case farBare =>
    intro s t a b z e n acc hit l u m k q calm free form width aligned lands sound implicit hot place hu hm hk room
    rw [atomicForms_run 0 a b z s e form]
    exact atomicFar_done q calm free e.2 a b z n width aligned lands sound implicit hot place u hu m hm k hk room
  case far =>
    intro s t d a b z e n acc hit l u m x k q calm free hd form width aligned lands sound implicit hot place hu hm hx hk spare forked unheld
    rw [atomicForms_run d a b z s e form]
    exact atomicFar_ends q calm free e.2 d a b hd z n width aligned lands sound implicit hot place u hu m x hm hx k hk spare forked unheld
  case cas =>
    intro n m v x
    exact ⟨rfl, amoWrites_cas n m x, fun op h => amoWrites_of_ne_cas n m x h⟩
  case fadd =>
    intro n m v f hf
    have sum := amoApply_fadd n m v hf
    refine ⟨sum, fun s1 s2 m1 m2 e1 e2 old operand => ?_⟩
    rw [sum, old, operand]
    exact roundVal_add_rounds f 0 false 0 s1 s2 m1 m2 e1 e2
  case integers =>
    intro n m v x y width hm hv hx hy
    subst hx hy
    refine ⟨rfl, rfl, rfl, rfl, rfl, rfl, rfl, amoApply_min_signed n m v, amoApply_max_signed n m v, ?_⟩
    rintro w op h rfl
    exact amoApply_picks_operand n m v h

/-- Settles O43: the twenty forms are one vector atomic (vectorAtomicForms_run), which stays in its chunk unless it returns values from
home. -/
theorem vectorAtomics : Obligations.VectorAtomics := by
  unfold Obligations.VectorAtomics
  refine ⟨?stays, ?ends⟩
  case stays =>
    intro s t d a b g e ms f s' k g' q calm free whole form ready aligned performed stays room
    rw [vectorAtomicForms_run d a b g s e form]
    exact vecAtomic_done q calm free whole (vectorAtomicForms_ne_cas e form) e.2.2 d a b ready aligned performed stays room
  case ends =>
    intro s t d a b g e ms f s' k g' q calm free whole form ready aligned performed returns home spare forked unheld
    rw [vectorAtomicForms_run d a b g s e form, returns]
    exact vecAtomic_ends q calm free whole (vectorAtomicForms_ne_cas e form) d a b ready aligned performed home spare forked unheld

end Sys2Proof.Machine
end

section
/-! Copies, streams, tags and transaction barriers (R215 to R218, R221 to R228, R230 to R232): the laws of Sys2Proof/Laws/Copies.lean
behind the dispatch. -/

namespace Sys2Proof.Machine

/-! ## The dispatch -/

theorem exec_cpy (d a b : BitVec 6) (s : State) : exec (.cpy d a b) s = execCpy d a b s := rfl
theorem exec_cpym (d a b : BitVec 6) (s : State) : exec (.cpym d a b) s = execCpym d a b s := rfl
theorem exec_smode (d a : BitVec 6) (s : State) : exec (.smode d a) s = execSmode d a s := rfl
theorem exec_sstop (d : BitVec 6) (s : State) : exec (.sstop d) s = execSstop d s := rfl
theorem exec_twaitAny (d a : BitVec 6) (s : State) : exec (.twaitAny d a) s = execTwaitAny d a s := rfl
theorem exec_twaitAll (d a : BitVec 6) (s : State) : exec (.twaitAll d a) s = execTwaitAll d a s := rfl
theorem exec_tffr (d a : BitVec 6) (s : State) : exec (.tffr d a) s = execTffr d a s := rfl
theorem exec_barinit (a b : BitVec 6) (s : State) : exec (.barinit a b) s = execBarinit a b s := rfl
theorem exec_barexp (a b : BitVec 6) (s : State) : exec (.barexp a b) s = execBarexp a b s := rfl
theorem exec_bararr (d a : BitVec 6) (s : State) : exec (.bararr d a) s = execBararr d a s := rfl
theorem exec_barwait (d a b : BitVec 6) (s : State) : exec (.barwait d a b) s = execBarwait d a b s := rfl

/-- Settles O47: cpy and cpym are one issue (copy_done), whose checks the record passes and whose reads are the thread's own, cpym with a
stand of members besides; smode opens a stream and sstop ends one by their laws. -/
theorem copies : Obligations.Copies := by
  unfold Obligations.Copies
  refine ⟨?cpy, ?cpym, ?smode, ?sstop⟩
  case cpy =>
    intro s t own d a b va req o sp dp sbase dbase bar s1 s2 s3 s4 k1 k2 k3 k4 q calm free hva hreq takes record source target barrier
      entry room
    rw [exec_cpy]
    exact cpy_done q calm free own d a b va req hva hreq takes record source target barrier entry room
  case cpym =>
    intro s t own d a b va req o sp dp sbase dbase bar s1 s2 s3 s4 k1 k2 k3 k4 q calm free hva hreq takes record source target barrier
      members entry room
    rw [exec_cpym]
    exact cpym_done q calm free own d a b va req hva hreq takes record source target barrier members entry room
  case smode =>
    intro s t d a n va o s1 k1 p q calm free hn streamable hva aligned record hp taken room
    rw [exec_smode]
    exact smode_done q calm free d a n hn streamable va hva aligned record p hp taken room
  case sstop =>
    intro s t d n q hn streaming
    rw [exec_sstop]
    exact sstop_done q d n hn streaming

/-- Settles O48: each clause is its instruction's law. The waits and the test read ctags once no fault stands on a tag they name
(observe_run); the barrier instructions read the barrier's place and word as the thread's own reads and store in the chunk (store_run). -/
theorem tagsAndBarriers : Obligations.TagsAndBarriers := by
  unfold Obligations.TagsAndBarriers
  refine ⟨?twaitAny, ?twaitAll, ?tffr, ?barinit, ?barexp, ?bararr, ?barwait⟩
  case twaitAny =>
    intro s t d a m q opening hm nonzero unfaulted someSet
    rw [exec_twaitAny]
    exact twaitAny_done q opening d a m hm nonzero unfaulted someSet
  case twaitAll =>
    intro s t d a m q opening hm unfaulted allSet
    rw [exec_twaitAll]
    exact twaitAll_done q opening d a m hm unfaulted allSet
  case tffr =>
    intro s t d a m q hm unfaulted
    rw [exec_tffr]
    exact tffr_done q d a m hm unfaulted
  case barinit =>
    intro s t a b va m l s1 k1 q calm free hva hm place small nonzero room
    rw [exec_barinit]
    exact barinit_done q calm free a b va m hva hm place small nonzero room
  case barexp =>
    intro s t a b va n l o s1 s2 k1 k2 x q calm free hva hn place small word hx room
    rw [exec_barexp]
    exact barexp_done q calm free a b va n hva hn place small word x hx room
  case bararr =>
    intro s t d a va l o s1 s2 k1 k2 x q calm free hva place word owed hx room
    rw [exec_bararr]
    exact bararr_done q calm free d a va hva place word owed x hx room
  case barwait =>
    intro s t d a b va v l o s1 s2 k1 k2 q calm free opening hva hv place word otherRound room
    rw [exec_barwait]
    exact barwait_done q calm free opening d a b va v hva hv place word otherRound room

end Sys2Proof.Machine
end

section
/-! The device out of reset (R247, R388, 14, 21). -/

namespace Sys2Proof.Machine

/-- The empty memory reads as zeros at any length (R247). -/
theorem natOfBytes_bytes_nil (n : Nat) : ∀ a, natOfBytes (Memory.bytes [] a n) = 0 := by
  induction n with
  | zero => exact fun _ => rfl
  | succ n ih =>
    intro a
    show (0 : Byte).toNat + 256 * natOfBytes (Memory.bytes [] (a + 1) n) = 0
    rw [ih]
    rfl

/-- With no copies and no write-backs, a die's view of a line is what an unwritten home holds. -/
theorem reset_copyOf (die line : Nat) : State.reset.copyOf die line = { data := 0, dirty := 0 } := by
  have fill : State.reset.fillData die line = 0 := by
    show BitVec.ofNat 1024 (natOfBytes (Memory.bytes [] (line * 128) 128)) = 0
    rw [natOfBytes_bytes_nil]
    rfl
  show ({ data := State.reset.fillData die line, dirty := 0 } : MgdCopy) = _
  rw [fill]

/-- Home memory, the scratchpads and every die's view read 0 out of reset. -/
theorem reset_byteAt (a : Nat) : State.reset.byteAt a = 0 := by
  unfold State.byteAt
  split
  · rfl
  · rw [reset_copyOf]
    exact BitVec.extractLsb'_zero

/-- Every entry of the parcel table out of reset, and every number beyond it, reads as the free descriptor. -/
theorem reset_parcel (k : Nat) : State.reset.parcel k = Parcel.free := by
  show (Vector.replicate 64 Parcel.free)[k]?.getD Parcel.free = Parcel.free
  rw [Vector.getElem?_replicate]
  split <;> rfl

theorem reset_core (k : Nat) : State.reset.core k = CoreSt.reset := by
  show (Vector.replicate 384 CoreSt.reset)[k]?.getD CoreSt.reset = CoreSt.reset
  rw [Vector.getElem?_replicate]
  split <;> rfl

/-- Settles O1: memory holds no entry, every parcel is free, and every core is as CoreSt.reset has it. -/
theorem resetDevice : Obligations.ResetDevice := by
  unfold Obligations.ResetDevice
  have parcels : ∀ k < 64, (State.reset.parcel k).state = 0 ∧ (State.reset.parcel k).crews = 0 ∧
      (State.reset.parcel k).apertures = Vector.replicate 8 0 := by
    intro k _
    rw [reset_parcel]
    exact ⟨rfl, rfl, rfl⟩
  have cores : ∀ k < 384, (State.reset.core k).part = 0x12841088 ∧ (State.reset.core k).fenced = false := by
    intro k _
    rw [reset_core]
    exact ⟨rfl, rfl⟩
  exact ⟨reset_byteAt, fun _ => rfl, reset_wf, parcels, rfl, rfl, rfl, rfl, rfl, rfl, rfl, rfl, rfl, rfl, rfl, rfl, rfl, cores⟩

end Sys2Proof.Machine
end

section
/-! Regions, ranges and partitions (R237 to R242, R247, R248): the laws of Sys2Proof/Laws/Regions.lean behind the dispatch. -/

namespace Sys2Proof.Machine

/-! ## The dispatch -/

theorem exec_rwb (a b : BitVec 6) (s : State) : exec (.rwb a b) s = execRwb a b s := rfl
theorem exec_rinv (a b : BitVec 6) (s : State) : exec (.rinv a b) s = execRinv a b s := rfl
theorem exec_rgndecl (d a : BitVec 6) (s : State) : exec (.rgndecl d a) s = execRgndecl d a s := rfl
theorem exec_rgnfree (a : BitVec 6) (s : State) : exec (.rgnfree a) s = execRgnfree a s := rfl
theorem exec_cways (d a : BitVec 6) (s : State) : exec (.cways d a) s = execCways d a s := rfl
theorem exec_dead (a b : BitVec 6) (s : State) : exec (.dead a b) s = execDead a b s := rfl
theorem exec_live (a b : BitVec 6) (s : State) : exec (.live a b) s = execLive a b s := rfl

/-- Settles O49: each clause is its instruction's law. Each stands alone in its chunk (alone_read): its reads are the thread's own, and
what it does to the die or core neither passes the ticket nor enters a copy. -/
theorem regions : Obligations.Regions := by
  unfold Obligations.Regions
  refine ⟨?rwb, ?rinv, ?rgndecl, ?rgnfree, ?cways, ?dead, ?live⟩
  case rwb =>
    intro s t a b ps s1 k1 ls s2 q free pages hls unheld settles
    rw [exec_rwb]
    exact rwb_done q free a b pages ls hls unheld s2 settles
  case rinv =>
    intro s t a b ps s1 k1 ls s2 q free pages hls unheld settles
    rw [exec_rinv]
    exact rinv_done q free a b pages ls hls unheld s2 settles
  case rgndecl =>
    intro s t d a va p base s1 k1 first last own num q free hva plat ranks span hfirst hlast hown apart quota unpinned hnum
    rw [exec_rgndecl]
    exact rgndecl_done q free d a va hva plat ranks span first last hfirst hlast own hown apart quota unpinned num hnum
  case rgnfree =>
    intro s t a r ls s1 q free region hls unheld unpinned hs1
    rw [exec_rgnfree]
    exact rgnfree_done q free a r region ls hls unheld unpinned s1 hs1
  case cways =>
    intro s t d a l part new lo hi s1 q free hl hpart least most hnew hlo hhi unpinned wiped
    rw [exec_cways]
    exact cways_done q free d a l hl part hpart least most new hnew lo hi hlo hhi unpinned s1 wiped
  case dead =>
    intro s t a b ps s1 k1 ls q free pages hls unheld
    rw [exec_dead]
    exact dead_done q free a b pages ls hls unheld
  case live =>
    intro s t a b ps s1 k1 q free pages
    rw [exec_live]
    exact live_done q free a b pages

end Sys2Proof.Machine
end

section
/-! Launching, leaving, yielding and the stand barriers (R254 to R268): the laws of Sys2Proof/Laws/Threads.lean behind the dispatch. -/

namespace Sys2Proof.Machine

/-! ## The dispatch -/

theorem exec_launch (d a : BitVec 6) (s : State) : exec (.launch d a) s = execLaunch d a s := rfl
theorem exec_texit (s : State) : exec .texit s = execTexit s := rfl
theorem exec_tyield (s : State) : exec .tyield s = execTyield s := rfl
theorem exec_sarrive (d a : BitVec 6) (s : State) : exec (.sarrive d a) s = execSarrive d a s := rfl
theorem exec_stest (d a : BitVec 6) (s : State) : exec (.stest d a) s = execStest d a s := rfl
theorem exec_swait (d a b : BitVec 6) (s : State) : exec (.swait d a b) s = execSwait d a b s := rfl
theorem exec_sbar (d a : BitVec 6) (s : State) : exec (.sbar d a) s = execSbar d a s := rfl

/-- Settles O50: each clause is its instruction's law, sbar with one law for each of its two ways on: its own arrival was the last, or the
phase has advanced since it arrived. -/
theorem threadsAndStands : Obligations.ThreadsAndStands := by
  unfold Obligations.ThreadsAndStands
  refine ⟨?launch, ?texit, ?tyield, ?sarrive, ?stest, ?swait, ?sbarLast, ?sbarAfter⟩
  case launch =>
    intro s t d a va o members s1 s2 k1 k2 q free calm hva aligned record stands takes queue room
    rw [exec_launch]
    exact launch_done q free calm d a va hva aligned record stands takes queue room
  case texit =>
    intro s t k s' u q replies hk implicit clear noRequest noTile answered tilesDone untrapped commits
    rw [exec_texit]
    exact texit_done q replies k hk implicit clear noRequest noTile answered tilesDone untrapped commits
  case tyield =>
    intro s t k s' u q replies hk implicit stays noTile tilesDone commits
    rw [exec_tyield]
    exact tyield_done q replies k hk implicit stays noTile tilesDone commits
  case sarrive =>
    intro s t d a j st k q free calm hj stand absent hk room
    rw [exec_sarrive]
    exact sarrive_done q free calm d a hj stand absent k hk room
  case stest =>
    intro s t d a j st q free calm hj stand room
    rw [exec_stest]
    exact stest_done q free calm d a hj stand room
  case swait =>
    intro s t d a b j st q free calm opening hj stand otherPhase room
    rw [exec_swait]
    exact swait_done q free calm opening d a b hj stand otherPhase room
  case sbarLast =>
    intro s t d a j st st' s1 q opening hj stand absent fresh unheld arrives after advanced
    rw [exec_sbar]
    exact sbar_last q opening d a hj stand absent fresh unheld s1 arrives after advanced
  case sbarAfter =>
    intro s t d a j ph st q opening hj stand waited advanced
    rw [exec_sbar]
    exact sbar_after q opening d a hj stand waited advanced

end Sys2Proof.Machine
end

section
/-! Memory upkeep (R245, R246, R249, R250, R349, R358, R394): the laws of Sys2Proof/Laws/Device.lean and Ends.lean behind the dispatch. -/

namespace Sys2Proof.Machine

/-! ## The dispatch -/

theorem exec_eccError (double : Bool) (place : EccPlace) (s : State) : exec (.eccError double place) s = execEccError double place s := rfl
theorem exec_coreFence (core : Nat) (cause : FenceCause) (corrupt : List Nat) (s : State) :
    exec (.coreFence core cause corrupt) s = execCoreFence core cause corrupt s := rfl
theorem exec_refreshDue (stack bank : Nat) (postponed : Bool) (s : State) :
    exec (.refreshDue stack bank postponed) s = execRefreshDue stack bank postponed s := rfl
theorem exec_refreshPostponeLimit (stack bank : Nat) (s : State) :
    exec (.refreshPostponeLimit stack bank) s = execRefreshPostponeLimit stack bank s := rfl
theorem exec_scrubPassStart (stack : Nat) (s : State) : exec (.scrubPassStart stack) s = execScrubPassStart stack s := rfl
theorem exec_scrubLine (stack : Nat) (tags : TagCheck) (s : State) : exec (.scrubLine stack tags) s = execScrubLine stack tags s := rfl
theorem exec_scrubPassEnd (stack : Nat) (s : State) : exec (.scrubPassEnd stack) s = execScrubPassEnd stack s := rfl
theorem exec_logWrapClear (stack : Nat) (s : State) : exec (.logWrapClear stack) s = execLogWrapClear stack s := rfl

/-- Settles O58: a single error by the law that every place but DRAM shares, a double one by the law of its place; a refresh by one law
for each of its two answers; what a fence leaves and what a read of DRAM leads to are fence_leaves and line_read. -/
theorem upkeepEvents : Obligations.UpkeepEvents := by
  unfold Obligations.UpkeepEvents
  refine ⟨?single, ?dirty, ?clean, ?cached, ?hub, ?register, ?scratch, ?dram, ?fence, ?refresh, ?postpone, ?limit, ?passStart, ?scrub,
    ?passEnd, ?wrap, fun s u core corrupt hcore hu => fence_leaves s u core corrupt hcore hu,
    fun s line k e hk he => line_read s line k hk e he⟩
  case single =>
    intro s place run notDram
    rw [exec_eccError]
    exact eccError_single run notDram
  case dirty =>
    intro s line run
    rw [exec_eccError]
    exact eccError_dirty run
  case clean =>
    intro s die line c run copy clean unheld
    rw [exec_eccError]
    exact eccError_clean run copy clean unheld
  case cached =>
    intro s die line run noCopy
    rw [exec_eccError]
    exact eccError_cached run noCopy
  case hub =>
    intro s id q run request answerable sent
    rw [exec_eccError]
    exact eccError_hub run request answerable sent
  case register =>
    intro s tid file reg index m run hfile hm
    rw [exec_eccError]
    exact eccError_register run hfile m hm
  case scratch =>
    intro s crew offset run hcrew hoffset
    rw [exec_eccError]
    exact eccError_scratch run hcrew hoffset
  case dram =>
    intro s double line tags run hline live
    rw [exec_eccError]
    exact eccError_dram run hline live
  case fence =>
    intro s core corrupt run hcore unfenced unpinned
    rw [exec_coreFence]
    exact coreFence_control run hcore unfenced unpinned
  case refresh =>
    intro s stack bank run
    rw [exec_refreshDue]
    exact refreshDue_done run
  case postpone =>
    intro s stack bank n run hn few hstack
    rw [exec_refreshDue]
    exact refreshDue_burst run hn few hstack
  case limit =>
    intro s stack bank run four
    rw [exec_refreshPostponeLimit]
    exact refreshPostponeLimit_done run four
  case passStart =>
    intro s stack ps run hstack idle due hps
    rw [exec_scrubPassStart]
    exact scrubPassStart_done run hstack idle due hps
  case scrub =>
    intro s stack line a tags u run scrubbing next hu
    rw [exec_scrubLine]
    exact scrubLine_done run scrubbing next u hu
  case passEnd =>
    intro s stack a e run scrubbing noLine he
    rw [exec_scrubPassEnd]
    exact scrubPassEnd_done run scrubbing noLine he
  case wrap =>
    intro s stack run
    rw [exec_logWrapClear]
    exact logWrapClear_done run

end Sys2Proof.Machine
end

section
/-! Placement, pre-emption, the vector sequencer and waits (R255, R263, R265, R266, R272, R273, R306): the laws of
Sys2Proof/Laws/Events.lean behind the dispatch. -/

namespace Sys2Proof.Machine

/-! ## The dispatch -/

theorem exec_placeThread (tids cores slots : List Nat) (s : State) :
    exec (.placeThread tids cores slots) s = execPlaceThread tids cores slots s := rfl
theorem exec_preempt (tid : Nat) (s : State) : exec (.preempt tid) s = execPreempt tid s := rfl
theorem exec_placementAging (tid : Nat) (s : State) : exec (.placementAging tid) s = execPlacementAging tid s := rfl
theorem exec_blockedEvictionAge (tid : Nat) (s : State) : exec (.blockedEvictionAge tid) s = execBlockedEvictionAge tid s := rfl
theorem exec_stripGrant (core tid : Nat) (s : State) : exec (.stripGrant core tid) s = execStripGrant core tid s := rfl
theorem exec_stripAging (tid : Nat) (s : State) : exec (.stripAging tid) s = execStripAging tid s := rfl
theorem exec_waitSatisfied (tid : Nat) (s : State) : exec (.waitSatisfied tid) s = execWaitSatisfied tid s := rfl
theorem exec_pauseEnd (tid : Nat) (s : State) : exec (.pauseEnd tid) s = execPauseEnd tid s := rfl

/-- Settles O53: each clause is the event's law; a wait that is satisfied has one law for a thread on its core and one for a saved
thread. -/
theorem schedulingEvents : Obligations.SchedulingEvents := by
  unfold Obligations.SchedulingEvents
  refine ⟨?place, ?preempt, ?placementAging, ?evictionAge, ?grant, ?stripAging, ?onCore, ?saved, ?pause⟩
  case place =>
    intro s u tid r cores slots t run thread gang oneCore oneSlot served placed
    rw [exec_placeThread]
    exact placeThread_done run thread gang oneCore oneSlot served placed
  case preempt =>
    intro s tid t run thread resident chosen takable room
    rw [exec_preempt]
    exact preempt_done run thread resident chosen takable room
  case placementAging =>
    intro s tid t run thread waits long
    rw [exec_placementAging]
    exact placementAging_done run thread waits long
  case evictionAge =>
    intro s tid t w run thread resident blocked long
    rw [exec_blockedEvictionAge]
    exact blockedEvictionAge_done run thread resident blocked long
  case grant =>
    intro s core top ws es t w run hws htop hes eligible next strip
    rw [exec_stripGrant]
    exact stripGrant_done run hws htop hes eligible next strip
  case stripAging =>
    intro s tid n t run thread waits since long
    rw [exec_stripAging]
    exact stripAging_done run thread waits since long
  case onCore =>
    intro s tid t w run thread blocked satisfied
    rw [exec_waitSatisfied]
    exact waitSatisfied_run run thread blocked satisfied
  case saved =>
    intro s tid t w run thread blocked satisfied
    rw [exec_waitSatisfied]
    exact waitSatisfied_saved run thread blocked satisfied
  case pause =>
    intro s tid t q run thread paused long
    rw [exec_pauseEnd]
    exact pauseEnd_done run thread paused long

end Sys2Proof.Machine
end

section
/-! The management requests (R260, R296, R298, R299, R314, R320, R321, R356, R388, R390): the laws of Sys2Proof/Laws/Device.lean and
Ends.lean behind the dispatch. -/

namespace Sys2Proof.Machine

/-! ## The dispatch -/

theorem exec_unknownRequest (h : ReqHead) (s : State) : exec (.unknownRequest h) s = execUnknownRequest h s := rfl
theorem exec_writeParcelDescriptor (h : ReqHead) (desc : BitVec 512) (s : State) :
    exec (.writeParcelDescriptor h desc) s = execWriteParcelDescriptor h desc s := rfl
theorem exec_createRootThread (h : ReqHead) (entry args config : Word) (s : State) :
    exec (.createRootThread h entry args config) s = execCreateRootThread h entry args config s := rfl
theorem exec_removeLaunch (h : ReqHead) (launch : Nat) (s : State) : exec (.removeLaunch h launch) s = execRemoveLaunch h launch s := rfl
theorem exec_endParcel (h : ReqHead) (s : State) : exec (.endParcel h) s = execEndParcel h s := rfl
theorem exec_assignFrames (h : ReqHead) (first count owner : Nat) (s : State) :
    exec (.assignFrames h first count owner) s = execAssignFrames h first count owner s := rfl
theorem exec_assignBlocks (h : ReqHead) (first count owner : Nat) (s : State) :
    exec (.assignBlocks h first count owner) s = execAssignBlocks h first count owner s := rfl
theorem exec_writeRouteEntry (h : ReqHead) (dev : Nat) (entry : BitVec 32) (s : State) :
    exec (.writeRouteEntry h dev entry) s = execWriteRouteEntry h dev entry s := rfl
theorem exec_setDeviceNumber (h : ReqHead) (n : Nat) (s : State) : exec (.setDeviceNumber h n) s = execSetDeviceNumber h n s := rfl
theorem exec_clearLostMark (h : ReqHead) (dev : Nat) (s : State) : exec (.clearLostMark h dev) s = execClearLostMark h dev s := rfl
theorem exec_requestKeyRotation (h : ReqHead) (s : State) : exec (.requestKeyRotation h) s = execRequestKeyRotation h s := rfl
theorem exec_setScrubPeriod (h : ReqHead) (hours : Nat) (s : State) : exec (.setScrubPeriod h hours) s = execSetScrubPeriod h hours s := rfl
theorem exec_setPowerLimit (h : ReqHead) (watts : Nat) (s : State) : exec (.setPowerLimit h watts) s = execSetPowerLimit h watts s := rfl
theorem exec_writeHostAperture (h : ReqHead) (k : Nat) (a : Word) (s : State) :
    exec (.writeHostAperture h k a) s = execWriteHostAperture h k a s := rfl

/-- Settles O60: each request by its law, which rests on the one turn of a hub's endpoint (receive_answered, receive_waits); what stopped
threads, an ending and an ended parcel leave is stopped_leaves, ending_leaves and ended_leaves. -/
theorem managementRequests : Obligations.ManagementRequests := by
  unfold Obligations.ManagementRequests
  refine ⟨?unknown, ?descriptor, ?descriptorAgain, ?rootThread, ?launch, ?endBegun, fun s h hub => endParcel_done, ?frames, ?blocks, ?route,
    ?number, ?lostMark, ?rotation, ?scrub, ?power, ?aperture, fun s u tids sorted hu => stopped_leaves s u tids sorted hu,
    fun s u p hp sorted hu => ending_leaves s u p hp sorted hu, fun s u p hp sorted hu => ended_leaves s u p hp sorted hu⟩
  case unknown =>
    intro s h code run posted unassigned
    rw [exec_unknownRequest]
    exact unknownRequest_done run posted unassigned
  case descriptor =>
    intro s h desc q run posted free hq good
    rw [exec_writeParcelDescriptor]
    exact writeParcelDescriptor_done run posted free hq good
  case descriptorAgain =>
    intro s u h desc q run posted inUse hq good hu
    rw [exec_writeParcelDescriptor]
    exact writeParcelDescriptor_active run posted inUse hq good hu
  case rootThread =>
    intro s h entry args config q part i run posted reserved hq active noRoot hpart legal unpinned hi
    rw [exec_createRootThread]
    exact createRootThread_done run posted reserved hq active noRoot hpart legal unpinned i hi
  case launch =>
    intro s h launch tids i run posted htids mayEnd hi
    rw [exec_removeLaunch]
    exact removeLaunch_done run posted htids mayEnd i hi
  case endBegun =>
    intro s h i run posted active hi
    rw [exec_endParcel]
    exact endParcel_begun run posted active i hi
  case frames =>
    intro s h first count owner lo hi o i phase posted howner fits store blocks hlo hhi unheld unpinned hi'
    rw [exec_assignFrames]
    exact assignFrames_done phase posted howner fits store blocks hlo hhi unheld unpinned i hi'
  case blocks =>
    intro s h first count owner lo hi o blocks mine i phase posted howner fits hblocks full hlo hhi hmine unheld unpinned hi'
    rw [exec_assignBlocks]
    exact assignBlocks_done phase posted howner fits hblocks full hlo hhi hmine unheld unpinned i hi'
  case route =>
    intro s h dev entry phase posted hdev
    rw [exec_writeRouteEntry]
    exact writeRouteEntry_done phase posted hdev
  case number =>
    intro s h n phase posted hn
    rw [exec_setDeviceNumber]
    exact setDeviceNumber_done phase posted hn
  case lostMark =>
    intro s h dev run posted hdev
    rw [exec_clearLostMark]
    exact clearLostMark_done run posted hdev
  case rotation =>
    intro s h run posted active
    rw [exec_requestKeyRotation]
    exact requestKeyRotation_done run posted active
  case scrub =>
    intro s h hours run posted least most
    rw [exec_setScrubPeriod]
    exact setScrubPeriod_done run posted least most
  case power =>
    intro s h watts run posted least most
    rw [exec_setPowerLimit]
    exact setPowerLimit_done run posted least most
  case aperture =>
    intro s h k a mine i run posted hk good hmine unheld noTraverse unpinned hi
    rw [exec_writeHostAperture]
    exact writeHostAperture_done run posted hk good hmine unheld noTraverse unpinned i hi

end Sys2Proof.Machine
end

section
/-! ecall, eret, and the privileged effects on translations and keys (R296, R303 to R305, R307, R308, R318, R342): the laws of
Sys2Proof/Laws/Trap.lean behind the dispatch. -/

namespace Sys2Proof.Machine

/-! ## The dispatch -/

theorem exec_ecall (s : State) : exec .ecall s = execEcall s := rfl
theorem exec_eret (s : State) : exec .eret s = execEret s := rfl
theorem exec_tlbi (a : BitVec 6) (s : State) : exec (.tlbi a) s = execTlbi a s := rfl
theorem exec_tlbia (s : State) : exec .tlbia s = execTlbia s := rfl
theorem exec_pkset (s : State) : exec .pkset s = execPkset s := rfl
theorem exec_pkclr (s : State) : exec .pkclr s = execPkclr s := rfl

/-! ## A slot beyond the parcel's range (R308) -/

/-- The trap of pkset and pkclr on a slot that the parcel does not have: 0x02 with the slot. -/
def Ctx.slotTrap (c : Ctx) : Trap := { code := 2, sub := 0, val := BitVec.ofNat 64 (pkSlot c.pkidx) }

/-- Where pkset and pkclr choose between the outgoing key and a slot, a slot out of range stops them before they write. -/
theorem slot_traps {c : Ctx} {n : Nat} (incoming : pkOut c.pkidx = false) (beyond : n ≤ pkSlot c.pkidx) (outgoing : Exec Unit)
    (write : Unit → Exec Unit) (r : Running) :
    (if pkOut c.pkidx = true then outgoing
      else if n ≤ pkSlot c.pkidx then trap 2 (BitVec.ofNat 64 (pkSlot c.pkidx)) >>= write else write ()) r =
      .error (.trap c.slotTrap) r := by
  rw [if_neg (by simp [incoming]), if_pos beyond]
  rfl

section
variable {s : State} {t : Thread} (q : Idle s t) (priv : t.ctx.priv = true) (incoming : pkOut t.ctx.pkidx = false)
  (beyond : (s.parcel t.parcel).kcount ≤ pkSlot t.ctx.pkidx)
include q priv incoming beyond

theorem pkset_beyond :
    execPkset s = .next ((settled s t []).enterTrap (t.settled []) t.ctx.slotTrap t.ctx.pc false false false) :=
  alone_trap (u := t) q (.inr priv) rfl (seq_error (bind_ok (run_getC _) (bind_ok (run_getS _) (bind_ok (run_getT _)
    (slot_traps incoming beyond _ _ _))))) rfl rfl q.deferred q.pending

theorem pkclr_beyond :
    execPkclr s = .next ((settled s t []).enterTrap (t.settled []) t.ctx.slotTrap t.ctx.pc false false false) :=
  alone_trap (u := t) q (.inr priv) rfl (seq_error (bind_ok (run_getC _) (bind_ok (run_getT _) (bind_ok (run_getS _)
    (slot_traps incoming beyond _ _ _))))) rfl rfl q.deferred q.pending

end

/-! ## The statements -/

/-- Settles O7: ecall and eret by their laws, and what eret leaves of a context field by field. -/
theorem systemCall : Obligations.SystemCall := by
  unfold Obligations.SystemCall
  refine ⟨?ecall, ?eret, ?context⟩
  case ecall =>
    intro s t q
    rw [exec_ecall]
    exact ecall_done q
  case eret =>
    intro s t q priv
    rw [exec_eret]
    exact eret_done q priv
  case context =>
    intro c
    have frame : ∀ fr, fr = (if c.trapcause.getLsbD 16 then c.privFrame else c.userFrame) →
        c.eret.loops = fr.loops ∧ c.eret.rrb = fr.rrb ∧ c.eret.vps = fr.vps := by
      rintro fr rfl
      exact ⟨rfl, rfl, rfl⟩
    exact ⟨_, rfl, rfl, rfl, frame, rfl, rfl, rfl, rfl, rfl, rfl, rfl, rfl, rfl, rfl, rfl, rfl, rfl, rfl, rfl, rfl, rfl, rfl, rfl, rfl,
      rfl, rfl⟩

/-- Settles O25: each effect is its instruction's law, and a slot beyond the parcel's range has one law for each of the two that name
slots. -/
theorem privilegedEffects : Obligations.PrivilegedEffects := by
  unfold Obligations.PrivilegedEffects
  refine ⟨?tlbi, ?tlbia, ?setOut, ?clearOut, ?setIn, ?clearIn, ?beyond⟩
  case tlbi =>
    intro s t a p q priv hp unpinned
    rw [exec_tlbi]
    exact tlbi_done q priv a p hp unpinned
  case tlbia =>
    intro s t p q priv hp unpinned
    rw [exec_tlbia]
    exact tlbia_done q priv p hp unpinned
  case setOut =>
    intro s t q priv outgoing
    rw [exec_pkset]
    exact pkset_out q priv outgoing
  case clearOut =>
    intro s t q priv outgoing
    rw [exec_pkclr]
    exact pkclr_out q priv outgoing
  case setIn =>
    intro s t q priv incoming inRange apart
    rw [exec_pkset]
    exact pkset_in q priv incoming inRange apart
  case clearIn =>
    intro s t q priv incoming inRange
    rw [exec_pkclr]
    exact pkclr_in q priv incoming inRange
  case beyond =>
    intro s t e q priv incoming beyond he
    simp only [List.mem_cons, List.not_mem_nil, or_false] at he
    obtain rfl | rfl := he
    · rw [exec_pkset]
      exact pkset_beyond q priv incoming beyond
    · rw [exec_pkclr]
      exact pkclr_beyond q priv incoming beyond

end Sys2Proof.Machine
end

section
/-! The bucking instructions (R361 to R363, R367 to R369, R371, R372): the laws of Sys2Proof/Laws/Bucking.lean behind the dispatch. -/

namespace Sys2Proof.Machine

/-! ## The dispatch -/

theorem exec_bkstart (d a b : BitVec 6) (s : State) : exec (.bkstart d a b) s = execBkstart d a b s := rfl
theorem exec_bkresume (d a b : BitVec 6) (s : State) : exec (.bkresume d a b) s = execBkresume d a b s := rfl
theorem exec_bkstat (d a : BitVec 6) (s : State) : exec (.bkstat d a) s = execBkstat d a s := rfl

/-- Settles O51: each clause is its instruction's law, bkstart with one law for the traverse and one for the plan alone. -/
theorem bucking : Obligations.Bucking := by
  unfold Obligations.Bucking
  refine ⟨?start, ?plan, ?resume, ?stat⟩
  case start =>
    intro s t d a b va req o loc v s1 s2 s3 s4 k1 k2 k3 k4 ann k q free calm hva hreq aligned reserved traverse record derived slot fits
      place announces hk room
    rw [exec_bkstart]
    exact bkstart_done q free calm d a b va req hva hreq aligned reserved traverse record derived slot fits place announces k hk room
  case plan =>
    intro s t d a b va req o loc v s1 s2 s3 k1 k2 k3 k q free calm hva hreq aligned reserved plan record derived place hk room
    rw [exec_bkstart]
    exact bkstart_plan q free calm d a b va req hva hreq aligned reserved plan record derived place k hk room
  case resume =>
    intro s t d a b va req o loc v s1 s2 s3 k1 k2 k3 k q free calm hva hreq aligned reserved record derived resumes slot place hk room
    rw [exec_bkresume]
    exact bkresume_done q free calm d a b va req hva hreq aligned reserved record derived resumes slot place k hk room
  case stat =>
    intro s t d a q free calm room
    rw [exec_bkstat]
    exact bkstat_done q free calm d a room

end Sys2Proof.Machine
end

section
/-! Requests to and from other devices, and their combining (R291, R292, R324 to R327, R329): the laws of Sys2Proof/Laws/Links.lean and
Ends.lean behind the dispatch. -/

namespace Sys2Proof.Machine

/-! ## The dispatch -/

theorem exec_fabricReply (id port : Nat) (codes : List Nat) (data : List Byte) (s : State) :
    exec (.fabricReply id port codes data) s = execFabricReply id port codes data s := rfl
theorem exec_fabricRequestArrival (r : Arriving) (s : State) : exec (.fabricRequestArrival r) s = execFabricRequestArrival r s := rfl
theorem exec_extensionPacketArrival (p : ExtPacket) (s : State) :
    exec (.extensionPacketArrival p) s = execExtensionPacketArrival p s := rfl
theorem exec_fabricCombine (stage first second : Nat) (s : State) :
    exec (.fabricCombine stage first second) s = execFabricCombine stage first second s := rfl
theorem exec_combineWindowExpiry (id : Nat) (s : State) : exec (.combineWindowExpiry id) s = execCombineWindowExpiry id s := rfl
theorem exec_replySplit (id : Nat) (s : State) : exec (.replySplit id) s = execReplySplit id s := rfl

/-- Settles O56: each event by its law, a reply with one law for each way on: the request leaves first, another device answers it, or the
device performs its own; what an arriving request is refused for, how a packet expands and where a reply goes are arrive_refused,
packet_expands and reply_goes. -/
theorem fabricEvents : Obligations.FabricEvents := by
  unfold Obligations.FabricEvents
  refine ⟨?leaves, ?answered, fun s q code data hcode hdata => packetReplies_one hcode hdata, ?own, ?request, ?packet, ?combine, ?expiry,
    ?split, arrive_refused, packet_expands, reply_goes⟩
  case leaves =>
    intro s id port codes data q mates run request answerable hmates unsent leaves
    rw [exec_fabricReply]
    exact fabricReply_leaves run request answerable hmates unsent leaves
  case answered =>
    intro s u id port codes data q mates run request answerable hmates sent free other width replies
    rw [exec_fabricReply]
    exact fabricReply_answered run request answerable hmates sent free other width replies
  case own =>
    intro s id port codes data q mates run request answerable hmates sent free own unheld
    rw [exec_fabricReply]
    exact fabricReply_own run request answerable hmates sent free own unheld
  case request =>
    intro s r a run wf width unheld ha
    rw [exec_fabricRequestArrival]
    exact fabricRequestArrival_done run wf width unheld a ha
  case packet =>
    intro s p a run wf width unheld ha
    rw [exec_extensionPacketArrival]
    exact extensionPacketArrival_done run wf width unheld a ha
  case combine =>
    intro s u stage first second x y a b q dword run ha hb addA addB folds hq hu straight
    rw [exec_fabricCombine]
    exact fabricCombine_done run ha hb addA addB folds hq hu straight
  case expiry =>
    intro s id q place run request stands expired hplace
    rw [exec_combineWindowExpiry]
    exact combineWindowExpiry_done run request stands expired place hplace
  case split =>
    intro s id code x data q dword run request answer addend
    rw [exec_replySplit]
    exact replySplit_done run request answer addend

end Sys2Proof.Machine
end

section
/-! Links and silence (R323, R334, R353, R354): the laws of Sys2Proof/Laws/Links.lean behind the dispatch. -/

namespace Sys2Proof.Machine

/-! ## The dispatch -/

theorem exec_idleFlit (port : Nat) (s : State) : exec (.idleFlit port) s = execIdleFlit port s := rfl
theorem exec_idleFlitReceived (port : Nat) (s : State) : exec (.idleFlitReceived port) s = execIdleFlitReceived port s := rfl
theorem exec_linkDown (port : Nat) (s : State) : exec (.linkDown port) s = execLinkDown port s := rfl
theorem exec_linkTrained (link : Link) (width version : Nat) (s : State) :
    exec (.linkTrained link width version) s = execLinkTrained link width version s := rfl
theorem exec_laneFailure (link : Link) (s : State) : exec (.laneFailure link) s = execLaneFailure link s := rfl
theorem exec_heartbeat (s : State) : exec .heartbeat s = execHeartbeat s := rfl
theorem exec_heartbeatReceived (dev : Nat) (s : State) : exec (.heartbeatReceived dev) s = execHeartbeatReceived dev s := rfl
theorem exec_peerLost (dev : Nat) (s : State) : exec (.peerLost dev) s = execPeerLost dev s := rfl
theorem exec_downNoticeReceived (dev : Nat) (s : State) : exec (.downNoticeReceived dev) s = execDownNoticeReceived dev s := rfl

/-- Settles O57: each clause is its event's law, training with one law for a port and one for the Fyzozor link. -/
theorem linkEvents : Obligations.LinkEvents := by
  unfold Obligations.LinkEvents
  refine ⟨?idle, ?idleReceived, ?down, ?port, ?fyzozor, ?lane, ?beat, ?beatReceived, ?lost, ?notice⟩
  case idle =>
    intro s port run width due
    rw [exec_idleFlit]
    exact idleFlit_done run width due
  case idleReceived =>
    intro s port run
    rw [exec_idleFlitReceived]
    exact idleFlitReceived_done run
  case down =>
    intro s port run width silent
    rw [exec_linkDown]
    exact linkDown_done run width silent
  case port =>
    intro s k width version run hk untrained hwidth
    rw [exec_linkTrained]
    exact linkTrained_port run hk untrained hwidth
  case fyzozor =>
    intro s width run untrained hwidth most
    rw [exec_linkTrained]
    exact linkTrained_fyzozor run untrained hwidth most
  case lane =>
    intro s run width
    rw [exec_laneFailure]
    exact laneFailure_fyzozor run width
  case beat =>
    intro s run due
    rw [exec_heartbeat]
    exact heartbeat_done run due
  case beatReceived =>
    intro s dev run hdev
    rw [exec_heartbeatReceived]
    exact heartbeatReceived_done run hdev
  case lost =>
    intro s dev run hdev other unmarked silent
    rw [exec_peerLost]
    exact peerLost_done run hdev other unmarked silent
  case notice =>
    intro s dev run hdev other unmarked
    rw [exec_downNoticeReceived]
    exact downNoticeReceived_done run hdev other unmarked

end Sys2Proof.Machine
end

section
/-! Power, heat and bring-up (R388 to R390, R395, R396): the laws of Sys2Proof/Laws/Device.lean and Ends.lean behind the dispatch. -/

namespace Sys2Proof.Machine

/-! ## The dispatch -/

theorem exec_powerWindow (watts : Nat) (s : State) : exec (.powerWindow watts) s = execPowerWindow watts s := rfl
theorem exec_crewClockGate (crew : Nat) (s : State) : exec (.crewClockGate crew) s = execCrewClockGate crew s := rfl
theorem exec_thermalThrottle (die celsius : Nat) (s : State) :
    exec (.thermalThrottle die celsius) s = execThermalThrottle die celsius s := rfl
theorem exec_thermalRecovery (celsius : List Nat) (s : State) : exec (.thermalRecovery celsius) s = execThermalRecovery celsius s := rfl
theorem exec_thermalTrip (die celsius : Nat) (s : State) : exec (.thermalTrip die celsius) s = execThermalTrip die celsius s := rfl
theorem exec_resetPinAssert (s : State) : exec .resetPinAssert s = execResetPinAssert s := rfl
theorem exec_resetPinRelease (s : State) : exec .resetPinRelease s = execResetPinRelease s := rfl
theorem exec_loadFirmwareImage (h : ReqHead) (r : FirmwareReport) (s : State) :
    exec (.loadFirmwareImage h r) s = execLoadFirmwareImage h r s := rfl
theorem exec_configurationComplete (h : ReqHead) (r : LinkReport) (s : State) :
    exec (.configurationComplete h r) s = execConfigurationComplete h r s := rfl

/-- Settles O59: each event by its law, request 0x0F with one law for each of its two answers; what the reset leaves, which step the image's
report comes to and what stands at the end of reset are cold_leaves, train_steps and reset_finishes. -/
theorem powerAndBringUp : Obligations.PowerAndBringUp := by
  unfold Obligations.PowerAndBringUp
  refine ⟨?window, ?gate, ?throttle, ?recovery, ?trip, ?assert, ?release, ?image, ?complete, ?numberless, cold_leaves, train_steps,
    reset_finishes⟩
  case window =>
    intro s watts run due
    rw [exec_powerWindow]
    exact powerWindow_done run due
  case gate =>
    intro s crew run hcrew unused idle
    rw [exec_crewClockGate]
    exact crewClockGate_done run hcrew unused idle
  case throttle =>
    intro s die celsius run hdie hot
    rw [exec_thermalThrottle]
    exact thermalThrottle_done run hdie hot
  case recovery =>
    intro s celsius run dies cool
    rw [exec_thermalRecovery]
    exact thermalRecovery_done run dies cool
  case trip =>
    intro s die celsius run hdie hot
    rw [exec_thermalTrip]
    exact thermalTrip_done run hdie hot
  case assert =>
    intro s
    rw [exec_resetPinAssert]
    exact resetPinAssert_done s
  case release =>
    intro s held
    rw [exec_resetPinRelease]
    exact resetPinRelease_done held
  case image =>
    intro s h r phase posted crc version
    rw [exec_loadFirmwareImage]
    exact loadFirmwareImage_done phase posted crc version
  case complete =>
    intro s h r n phase posted number
    rw [exec_configurationComplete]
    exact configurationComplete_done phase posted number
  case numberless =>
    intro s h r phase posted numberless
    rw [exec_configurationComplete]
    exact configurationComplete_none phase posted numberless

end Sys2Proof.Machine
end
section

/-! ## A unit of the order and a chunk's own stores (O30)

A chunk's buffer holds, per location, a mask and a byte, and `overlay` lays them over what the device holds. What a whole-byte write
does to the overlay of a location is said once, then for a run of whole bytes, then for what the chunk reads. -/

namespace Sys2Proof.Machine

theorem chunk_store_cons (k : Chunk) (w : Write) (ws : List Write) : k.store (w :: ws) = (k.store [w]).store ws := rfl

/-- A whole byte under the all-ones mask replaces whatever the buffer and the device held. -/
theorem overlay_store_same (k : Chunk) (l : Nat) (d x : Byte) : overlay (k.store [(l, 255, d)]).stores l x = d := by
  simp only [Chunk.store, List.foldl, overlay, tfind_tput_self]
  simp only [show (255 : Byte) = BitVec.allOnes 8 from rfl, BitVec.or_allOnes, BitVec.not_allOnes, BitVec.and_allOnes, BitVec.and_zero,
    BitVec.zero_or]

theorem overlay_store_other (k : Chunk) {w : Write} {a : Nat} (ha : a ≠ w.1) (x : Byte) :
    overlay (k.store [w]).stores a x = overlay k.stores a x := by
  simp only [Chunk.store, List.foldl, overlay, tfind_tput_other ha]

/-- Outside the run of bytes the overlay stays as it was. -/
theorem overlay_store_outside (b : List Byte) (k : Chunk) {l a : Nat} (ha : a < l ∨ l + b.length ≤ a) (x : Byte) :
    overlay (k.store (writesOf l b)).stores a x = overlay k.stores a x := by
  induction b generalizing k l with
  | nil => rfl
  | cons d r ih =>
    rw [List.length_cons] at ha
    rw [writesOf, chunk_store_cons, ih _ (by omega), overlay_store_other k (by simp only; omega)]

/-- Inside it each location shows the byte stored there, whatever the device holds. -/
theorem overlay_store_inside (b : List Byte) (k : Chunk) (l : Nat) {i : Nat} (hi : i < b.length) (x : Byte) :
    overlay (k.store (writesOf l b)).stores (l + i) x = b[i] := by
  induction b generalizing k l i with
  | nil => simp at hi
  | cons d r ih =>
    rw [writesOf, chunk_store_cons]
    cases i with
    | zero => exact (overlay_store_outside r _ (.inl l.lt_succ_self) x).trans (overlay_store_same k l d x)
    | succ j =>
      rw [show l + (j + 1) = l + 1 + j by omega, ih _ _ (Nat.lt_of_succ_lt_succ hi)]
      rfl

theorem sees_store_same (s : State) (k : Chunk) (l : Nat) (b : List Byte) : (k.store (writesOf l b)).sees s l b.length = b := by
  refine List.ext_getElem (by simp [Chunk.sees]) fun i _ hi => ?_
  simpa [Chunk.sees] using overlay_store_inside b k l hi _

theorem sees_store_outside (s : State) (k : Chunk) {l p n : Nat} {b : List Byte} (h : p + n ≤ l ∨ l + b.length ≤ p) :
    (k.store (writesOf l b)).sees s p n = k.sees s p n := by
  refine List.map_congr_left fun i hi => overlay_store_outside b k ?_ _
  have hi := List.mem_range.mp hi
  omega

/-- Settles O30: the laws of units and of canonical memory are those of `putByte` and `setByte`; what a chunk reads is the overlay of
its stores, byte by byte. -/
theorem unitsOfTheOrder : Obligations.UnitsOfTheOrder := by
  refine ⟨fun s who ws h => ⟨unit_wf h who ws, fun _ ha => unit_other h ha⟩, fun s l mask b h hl => ?_, sees_store_same,
    fun s k l p n b h => sees_store_outside s k h,
    fun m a b h => ⟨Memory.byte_setByte h a b, fun _ hc => Memory.byte_setByte_other h hc b, Memory.wf_setByte h a b⟩,
    fun _ _ => Memory.canonical⟩
  rw [putByte_byte h hl, if_pos rfl]

end Sys2Proof.Machine
end

section

/-! ## Canonical memory (O31): operations of the state

An operation either leaves the bytes of memory as they are (a lemma `_mem`, tagged for `simp`) or writes them through `unit` and `tclear`,
which keep the canonical form (a lemma `_wf`). One lemma for each operation, in the order of the definitions; the steps of the device are
made of these. -/

namespace Sys2Proof.Machine

/-! ### Operations that leave the bytes of memory alone -/

@[simp] theorem dropIssued_mem (s : State) (tids : List Nat) : (s.dropIssued tids).mem = s.mem := rfl
@[simp] theorem dropCopy_mem (s : State) (die line : Nat) : (s.dropCopy die line).mem = s.mem := rfl
@[simp] theorem wake_mem (s : State) (who : Option Nat) (lines : Marks) : (s.wake who lines).mem = s.mem := rfl
@[simp] theorem modCopy_mem (s : State) (id : Nat) (f : Copy → Copy) : (s.modCopy id f).mem = s.mem := rfl
@[simp] theorem dropEngine_mem (s : State) (eng : Nat) : (s.dropEngine eng).mem = s.mem := rfl
@[simp] theorem tagDone_mem (s : State) (tid tag : Nat) (f : Option Trap) : (s.tagDone tid tag f).mem = s.mem := rfl
@[simp] theorem writeParcel_mem (s : State) (parcel : Nat) (w : ParcelWrite) : (s.writeParcel parcel w).mem = s.mem := rfl
@[simp] theorem enqueue_mem (s : State) (t : Thread) : (s.enqueue t).mem = s.mem := rfl
@[simp] theorem abandon_mem (s : State) (t : Thread) (c : Chunk) : (s.abandon t c).1.mem = s.mem := by simp [State.abandon]
@[simp] theorem squashView_mem (s : State) (die line : Nat) : (s.squashView die line).mem = s.mem := squashIf_mem _ _
@[simp] theorem dropTlb_mem (s : State) (p : TlbEntry → Bool) : (s.dropTlb p).mem = s.mem := squashIf_mem _ _
@[simp] theorem createLaunch_mem (s : State) (n : Nat) (l : Launch) : (s.createLaunch n l).mem = s.mem := squashIf_mem _ _

@[simp] theorem yieldTokens_mem (s : State) (tid : Nat) (reads writes : Marks) : (s.yieldTokens tid reads writes).mem = s.mem := by
  unfold State.yieldTokens
  split
  · rfl
  · exact squashIf_mem _ _

@[simp] theorem revive_mem (s : State) (block : Nat) : (s.revive block).mem = s.mem := by
  unfold State.revive
  split <;> rfl

@[simp] theorem missed_mem (s : State) (core parcel va : Nat) : (s.missed core parcel va).mem = s.mem := by
  unfold State.missed
  split <;> rfl

@[simp] theorem keepEntry_mem (s : State) (core : Nat) (a : Access) (hit : Bool) : (s.keepEntry core a hit).mem = s.mem := by
  have h : ((tlbChain core).foldl
      (fun s u => if (s.lookup a.entry.parcel a.va u).isSome then s else s.enterTlb u a.entry) s).mem = s.mem :=
    foldl_mem (fun s u => by split <;> rfl) _ s
  unfold State.keepEntry
  split <;> exact h

@[simp] theorem refuse_mem (s : State) (tid line : Nat) : (s.refuse tid line).mem = s.mem := by
  unfold State.refuse
  split
  · rfl
  · dsimp only
    split
    · rfl
    · simp only [apply_ite State.mem, squashIf_mem, State.setThread_mem, State.setCore_mem, ite_self]

@[simp] theorem windowWrite_mem (s : State) (off x : Nat) : (s.windowWrite off x).mem = s.mem := by
  unfold State.windowWrite
  split <;> rfl

/-! #### Requests of the fabric -/

@[simp] theorem finish_mem (s : State) (q : FabricReq) (code : Nat) (data : List Byte) : (s.finish q code data).mem = s.mem := by
  unfold State.finish
  dsimp only
  split
  all_goals simp only [apply_ite State.mem, modCopy_mem, ite_self]

@[simp] theorem depart_mem (s : State) (q : FabricReq) : (s.depart q).mem = s.mem := by
  unfold State.depart
  dsimp only
  split
  · exact finish_mem _ _ _ _
  · rfl

@[simp] theorem sendReq_mem (s : State) (q : FabricReq) : (s.sendReq q).mem = s.mem := by
  unfold State.sendReq
  dsimp only
  split
  · rfl
  · exact depart_mem _ _

@[simp] theorem sendAll_mem (s : State) (qs : List FabricReq) : (s.sendAll qs).mem = s.mem := foldl_mem sendReq_mem _ s

/-! #### Threads, stands and the priority ticket -/

@[simp] theorem modStands_mem (s : State) (n : Nat) (who : Option Nat) (f : Nat → Stand → Stand) : (s.modStands n who f).mem = s.mem := by
  unfold State.modStands
  split
  · rfl
  · dsimp only
    split
    · rfl
    · exact squashIf_mem _ _

@[simp] theorem arriveAt_mem (s : State) (tid : Nat) (ks : List Nat) : (s.arriveAt tid ks).mem = s.mem := by
  unfold State.arriveAt
  split
  · rfl
  · exact modStands_mem _ _ _ _

@[simp] theorem releaseTicket_mem (s : State) (tid : Nat) : (s.releaseTicket tid).mem = s.mem := by
  unfold State.releaseTicket
  dsimp only
  split <;> rfl

@[simp] theorem removeThread_mem (s : State) (tid : Nat) : (s.removeThread tid).mem = s.mem := by
  unfold State.removeThread
  split
  · rfl
  · simp [apply_ite State.mem]

@[simp] theorem forkAll_mem (s : State) (tid : Nat) : (s.forkAll tid).mem = s.mem := by
  unfold State.forkAll
  dsimp only
  split <;> rfl

@[simp] theorem queueFar_mem (s : State) (tid core line : Nat) : (s.queueFar tid core line).mem = s.mem := by
  unfold State.queueFar
  dsimp only
  split <;> rfl

@[simp] theorem takeOff_mem (s : State) (tid : Nat) : (s.takeOff tid).mem = s.mem := by
  unfold State.takeOff
  split
  · rfl
  · simp [squashIf_mem]

@[simp] theorem preempt_mem (s : State) (tid : Nat) : (s.preempt tid).mem = s.mem := by
  unfold State.preempt
  split
  · rfl
  · dsimp only
    split
    · exact foldl_mem takeOff_mem _ s
    · rfl

/-! ### Units of the order and what is made of them -/

theorem unitObj_wf {s : State} (h : s.mem.wf = true) (loc n x : Nat) : (s.unitObj loc n x).mem.wf = true := unit_wf h _ _

theorem settle_wf {s : State} (h : s.mem.wf = true) (p : WriteBack → Bool) : (s.settle p).mem.wf = true :=
  foldl_wf (fun _ w hs => arriveHome_wf hs w) _ h

theorem writeBack_wf {s : State} (h : s.mem.wf = true) (die line : Nat) (drop : Bool) : (s.writeBack die line drop).mem.wf = true := by
  unfold State.writeBack
  split
  · exact h
  · rename_i c _
    have home : (if c.dirty = 0 then s else s.arriveHome (s.outgoing die line c)).mem.wf = true := by
      split
      · exact h
      · exact arriveHome_wf h _
    dsimp only
    split
    · exact home
    · exact home

theorem performArrival_wf {s : State} (h : s.mem.wf = true) (off : Nat) (op : ArrivingOp) :
    (s.performArrival off op).1.mem.wf = true := by
  unfold State.performArrival
  cases op with
  | load n =>
    dsimp only
    split
    · exact h
    · simpa only [countDead_mem] using h
  | store data mask => exact unit_wf h _ _
  | poison n => exact unit_wf h _ _
  | amo op dword value expected =>
    have read : (s.countDead off).mem.wf = true := by simpa only [countDead_mem] using h
    dsimp only
    generalize (if dword = true then 8 else 4) = n
    split
    · exact h
    · dsimp only
      split
      · exact unitObj_wf read _ _ _
      · exact read
  | credit post bytes =>
    dsimp only
    split
    · exact h
    · exact unit_wf h _ _

theorem arrive_wf {s : State} (h : s.mem.wf = true) (header : Option (BitVec 160)) (off : Nat) (op : ArrivingOp) :
    (s.arrive header off op).1.mem.wf = true := by
  unfold State.arrive
  split
  · exact h
  · split
    · exact h
    · exact performArrival_wf h _ _

theorem endTraverse_wf {s : State} (h : s.mem.wf = true) (parcel : Nat) (v : Traverse) (fs : List (Nat × Nat × Nat)) (f : Option Trap) :
    (s.endTraverse parcel v fs f).mem.wf = true := by
  have cursor : (if (ofHost v.cursorLoc && s.fyzWidth = 0) = true then s
      else s.unit none (cursorWrites v.cursorLoc fs)).mem.wf = true := by
    split
    · exact h
    · exact unit_wf h _ _
  simpa only [State.endTraverse, tagDone_mem, dropEngine_mem, squashIf_mem] using cursor

theorem forkTraverse_wf {s : State} (h : s.mem.wf = true) (tid parcel : Nat) (v : Option Traverse) :
    (s.forkTraverse tid parcel v).mem.wf = true := by
  cases v with
  | none => exact h
  | some v =>
    have hs := (squashIf_mem s fun t c => t.tid != tid && c.meets [slotLine parcel]).symm ▸ h
    unfold State.forkTraverse
    dsimp only
    split
    · exact endTraverse_wf hs _ _ _ _
    · exact hs

/-! ### Commit, traps and the end of a chunk -/

theorem commit_wf {s u : State} {t v : Thread} (h : s.mem.wf = true) (hc : s.commit t = some (u, v)) : u.mem.wf = true := by
  unfold State.commit at hc
  split at hc
  case h_1 =>
    cases hc
    exact h
  case h_2 c _ =>
    extract_lets stands slot t' s₁ stored counted launched parcels forked traversed arrived queued sent last at hc
    have hstored : stored.mem.wf = true := unit_wf (s := s₁) h _ _
    have hforked : forked.mem = stored.mem := calc
      forked.mem = parcels.mem := forkAll_mem _ _
      _ = launched.mem := foldl_mem (fun s w => writeParcel_mem s _ w) _ _
      _ = stored.mem := foldl_mem (fun s e => createLaunch_mem s _ _) _ _
    have htraversed : traversed.mem.wf = true := forkTraverse_wf (hforked ▸ hstored) _ _ _
    have hlast : last.mem = traversed.mem := calc
      last.mem = sent.mem := releaseTicket_mem _ _
      _ = queued.mem := foldl_mem sendReq_mem _ _
      _ = arrived.mem := foldl_mem (fun s l => queueFar_mem s _ _ l) _ _
      _ = traversed.mem := arriveAt_mem _ _ _
    have hwf : last.mem.wf = true := hlast ▸ htraversed
    split at hc
    · cases hc
    · have left : last = u := by
        split at hc <;> exact congrArg Prod.fst (Option.some.inj hc)
      exact left ▸ hwf

/-! ### A core's room and what leaves it -/

theorem reconfigure_wf {s : State} (h : s.mem.wf = true) (core : Nat) (part : BitVec 32) : (s.reconfigure core part).mem.wf = true := by
  unfold State.reconfigure
  dsimp only
  split
  · exact h
  · exact wipeScratch_wf h _ _ _

theorem wipeCrew_wf {s : State} (h : s.mem.wf = true) (crew : Nat) :
    ((List.range 4).foldl (fun s k => s.wipeScratch (crew * 4 + k) 0 (2 ^ 21)) s).mem.wf = true :=
  foldl_wf (fun _ _ hs => wipeScratch_wf hs _ _ _) _ h

theorem clearCrew_wf {s u : State} (h : s.mem.wf = true) {crew parcel : Nat} (hu : s.clearCrew crew parcel = some u) :
    u.mem.wf = true := by
  unfold State.clearCrew at hu
  split at hu
  · cases hu
    exact h
  · extract_lets w at hu
    split at hu
    · exact Option.some.inj hu ▸ h
    · split at hu
      · cases hu
      · exact Option.some.inj hu ▸ wipeCrew_wf (s := w) h crew

theorem placeOne_wf {s u : State} (h : s.mem.wf = true) {tid core slot : Nat} (hu : s.placeOne tid core slot = some u) :
    u.mem.wf = true := by
  unfold State.placeOne at hu
  split at hu
  case h_1 => cases hu
  case h_2 t _ =>
    extract_lets p here c at hu
    split at hu
    · cases hu
    · obtain ⟨v, hv, rfl⟩ := Option.map_eq_some_iff.mp hu
      extract_lets ungated fitted
      have cleared : v.mem.wf = true := clearCrew_wf h hv
      have settled : fitted.mem.wf = true := by
        unfold fitted
        split
        · exact reconfigure_wf (s := ungated) cleared _ _
        · exact cleared
      split <;> exact settled

theorem placeAt_wf {s u : State} (h : s.mem.wf = true) {tid core : Nat} (hu : s.placeAt tid core = some u) : u.mem.wf = true := by
  obtain ⟨_, _, hk⟩ := List.exists_of_findSome?_eq_some hu
  exact placeOne_wf h hk

theorem placeAll_wf {tids : List Nat} {s u : State} (h : s.mem.wf = true) (hu : State.placeAll tids s = some u) : u.mem.wf = true := by
  induction tids generalizing s with
  | nil =>
    cases hu
    exact h
  | cons tid rest ih =>
    obtain ⟨v, hv, hrest⟩ := Option.bind_eq_some_iff.mp hu
    obtain ⟨_, _, hcore⟩ := List.exists_of_findSome?_eq_some hv
    exact ih (placeAt_wf h hcore) hrest

theorem fill_wf {s u : State} {t : Thread} (h : s.mem.wf = true) {core : Nat} (hu : s.fill core t = some u) : u.mem.wf = true := by
  obtain ⟨v, hv, hrest⟩ := Option.bind_eq_some_iff.mp hu
  exact placeAll_wf (placeAt_wf h hv) hrest

theorem favoured_wf {s u : State} (h : s.mem.wf = true) {t : Thread} {core : Nat} (hu : s.favoured t core = some u) :
    u.mem.wf = true := by
  obtain ⟨_, _, hfill⟩ := Option.bind_eq_some_iff.mp hu
  exact fill_wf h hfill

theorem getD_wf {o : Option State} {s : State} (h : s.mem.wf = true) (ho : ∀ u, o = some u → u.mem.wf = true) :
    (o.getD s).mem.wf = true := by
  cases o with
  | none => exact h
  | some u => exact ho u rfl

theorem yield_wf {s : State} (h : s.mem.wf = true) (t : Thread) : (s.yield t).mem.wf = true := by
  unfold State.yield
  extract_lets rival w
  have kept : w.mem.wf = true := h
  split
  · exact kept
  · split
    · exact getD_wf kept fun u hu => favoured_wf (s := w.preempt t.tid) ((preempt_mem w t.tid).symm ▸ kept) hu
    · exact kept

/-! ### Traps and the end of a chunk -/

@[simp] theorem enterTrap_mem (s : State) (t : Thread) (f : Trap) (pc : Word) (vp async more : Bool) :
    (s.enterTrap t f pc vp async more).mem = s.mem := by
  unfold State.enterTrap
  dsimp only
  split
  · simp
  · simp

@[simp] theorem takeAsync_mem (s : State) (t : Thread) : (s.takeAsync t).mem = s.mem := by
  unfold State.takeAsync
  split
  · rfl
  · exact enterTrap_mem _ _ _ _ _ _ _

theorem enterPending_wf {s : State} (h : s.mem.wf = true) (t : Thread) : (s.enterPending t).mem.wf = true := by
  unfold State.enterPending
  split
  · exact h
  · split
    · exact h
    · rename_i hc
      have committed := commit_wf h hc
      split
      · simpa using committed
      · split
        · simpa using committed
        · simpa using committed

theorem takeTrap_wf {r : Running} (h : r.s.mem.wf = true) (f : Trap) : (r.takeTrap f).mem.wf = true := by
  unfold Running.takeTrap
  dsimp only
  split
  · split
    · split
      · simpa using h
      · simpa using h
    · exact enterPending_wf h _
  · exact enterPending_wf h _

theorem close_wf {s u : State} (h : s.mem.wf = true) {t : Thread} (hu : s.close t = some u) : u.mem.wf = true := by
  unfold State.close at hu
  split at hu
  case h_1 => cases hu
  case h_2 w v hc =>
    have committed := commit_wf h hc
    split at hu
    · split at hu
      · cases hu
        simpa using committed
      · split at hu
        · cases hu
          exact yield_wf committed v
        · cases hu
          exact committed
    · cases hu
      exact committed

theorem resume_wf {s : State} (h : s.mem.wf = true) (t : Thread) : (s.resume t).mem.wf = true := by
  unfold State.resume
  split
  · exact enterPending_wf h t
  · exact getD_wf h fun _ => close_wf h

theorem retire_wf {r : Running} (h : r.s.mem.wf = true) (counts : Bool) : (r.retire counts).mem.wf = true := by
  unfold Running.retire
  split
  · exact h
  · extract_lets c t
    split
    · split
      · refine takeTrap_wf ?_ _
        exact h
      · exact h
    · split
      · exact getD_wf h fun _ => close_wf h
      · exact h

theorem boundary_wf {r r' : Running} (h : r.s.mem.wf = true) (hb : r.boundary = some r') : r'.s.mem.wf = true := by
  unfold Running.boundary at hb
  split at hb
  case h_1 hc =>
    cases hb
    exact commit_wf h hc
  case h_2 => cases hb

theorem report_wf {r : Running} (h : r.s.mem.wf = true) : r.report.mem.wf = true := by
  unfold Running.report
  split
  · split
    · simpa using h
    · split
      · rename_i hb
        simpa using boundary_wf h hb
      · exact h
  · simpa using h

@[simp] theorem openChunk_s (r : Running) (explicit : Bool) : (r.openChunk explicit).s = r.s := by
  unfold Running.openChunk
  split <;> rfl

@[simp] theorem goOn_s (r : Running) (n : Next) : (r.goOn n).s = r.s := by
  cases n <;> rfl

@[simp] theorem goOnVp_s (r : Running) (i : Nat) (n : Next) : (r.goOnVp i n).s = r.s := by
  unfold Running.goOnVp
  split <;> rfl

theorem acting_s {s : State} {r : Running} (h : s.acting = some r) : r.s = s := by
  unfold State.acting at h
  grind

end Sys2Proof.Machine
end

section

/-! ## Canonical memory (O31): the engines

A copy's and a traverse's elements are moved by jobs. What a job notes of its progress lies outside memory, so that only `engineUnit` and
`credit` write. -/

namespace Sys2Proof.Machine

/-! ### What engines do to memory's neighbours -/

@[simp] theorem takePage_mem (s : State) (eng : Nat) (e : TlbEntry) : (s.takePage eng e).mem = s.mem := by
  unfold State.takePage
  dsimp only
  split <;> rfl

@[simp] theorem unreached_mem (s : State) (g : Agent) (scratch : Option Nat) (va : Nat) : (s.unreached g scratch va).mem = s.mem := by
  unfold State.unreached
  split
  · rfl
  · exact missed_mem _ _ _ _

@[simp] theorem modTraverse_mem (s : State) (p : Nat) (f : Traverse → Traverse) : (s.modTraverse p f).mem = s.mem := rfl
@[simp] theorem uncover_mem (s : State) (eng line : Nat) (bits : BitVec 1024) : (s.uncover eng line bits).mem = s.mem := rfl

@[simp] theorem coverLine_mem (s : State) (eng line : Nat) (bits : BitVec 1024) : (s.coverLine eng line bits).mem = s.mem := by
  unfold State.coverLine
  dsimp only
  split
  · rfl
  · split <;> rfl

theorem engineXlate_mem {s u : State} {g : Agent} {need : Need} {va : Nat} {a : Access} (h : s.engineXlate g need va = .ok (u, a)) :
    u.mem = s.mem := by
  unfold State.engineXlate at h
  split at h
  · cases hc : s.checkLeaf g.priv need va ‹TlbEntry› with
    | error => simp [hc, Except.map] at h
    | ok => 
      simp only [hc, Except.map, Except.ok.injEq, Prod.mk.injEq] at h
      rw [← h.1]
  · split at h
    · cases h
    · cases h
      simp

/-- Reaching a place only takes a translation. -/
theorem reach_mem {s u : State} {g : Agent} {need : Need} {scratch : Option Nat} {va n : Nat} {p : Place}
    (h : s.reach g need scratch va n = .ok (u, p)) : u.mem = s.mem := by
  unfold State.reach at h
  split at h
  · split at h
    · cases h
    · cases h
      rfl
  · split at h
    · cases h
    · rename_i hx
      split at h
      · cases h
      · split at h
        · cases h
        · cases h
          exact engineXlate_mem hx
        · cases h
          exact engineXlate_mem hx
        · cases h

/-- An engine's own record is all that its job's notes change. -/
structure Job.OffMemory (w : Job) : Prop where
  put : ∀ k x s, (w.put k x s).mem = s.mem
  mark : ∀ k s, (w.mark k s).mem = s.mem
  fail : ∀ f va s, (w.fail f va s).mem = s.mem

theorem copyJob_offMemory (c : Copy) : c.job.OffMemory := ⟨fun _ _ _ => rfl, fun _ _ => rfl, fun _ _ _ => rfl⟩

theorem traverseJob_offMemory (v : Traverse) (parcel j : Nat) : (v.job parcel j).OffMemory :=
  ⟨fun _ _ _ => rfl, fun _ _ => rfl, fun _ _ _ => rfl⟩

theorem jobRead_mem {w : Job} (hw : w.OffMemory) (scratch : Option Nat) (elem : Nat) (l : List (Nat × Nat × Nat)) (s : State) :
    (w.read scratch elem l s).mem = s.mem := by
  fun_induction Job.read w scratch elem l s with
  | case1 => rfl
  | case2 _ _ _ _ _ _ ih => exact ih
  | case3 => rw [hw.fail, unreached_mem]
  | case4 _ _ _ _ _ _ _ _ hr ih => rw [ih, hw.put, countDead_mem, reach_mem hr]
  | case5 _ _ _ _ _ _ _ _ _ hr ih => rw [ih, sendReq_mem, reach_mem hr]
  | case6 _ _ _ _ _ _ _ _ _ _ hr => exact reach_mem hr

/-! ### What engines write -/

theorem engineUnit_wf {s : State} (h : s.mem.wf = true) (eng : Nat) (ws : List Write) (bad : Bool) :
    (s.engineUnit eng ws bad).mem.wf = true := by
  unfold State.engineUnit
  extract_lets lines u v
  have hu : u.mem.wf = true := unit_wf h _ _
  have hv : v.mem = u.mem := foldl_mem (fun s l => uncover_mem s _ _ _) _ _
  split
  · rw [foldl_mem (fun s w => by split <;> rfl), hv]
    exact hu
  · rw [foldl_mem (fun s l => by split; exact coverLine_mem _ _ _ _; rfl)]
    exact hu

theorem jobWritePiece_wf {w : Job} (hw : w.OffMemory) {s : State} (h : s.mem.wf = true) (scratch : Option Nat) (elem : Nat) (bad : Bool)
    (key va : Nat) (bs : List (Byte × Byte)) : (w.writePiece scratch elem bad key va bs s).mem.wf = true := by
  fun_cases Job.writePiece w scratch elem bad key va bs s
  case case1 => exact h
  case case2 => rwa [hw.fail, unreached_mem]
  case case3 hr _ => rwa [reach_mem hr]
  case case4 hr _ =>
    rw [hw.mark]
    exact engineUnit_wf ((reach_mem hr).symm ▸ h) _ _ _
  case case5 hr _ => rwa [sendReq_mem, reach_mem hr]
  case case6 hr => rwa [reach_mem hr]

theorem jobWrite_wf {w : Job} (hw : w.OffMemory) (crews : List (Option Nat)) (n va bit width : Nat) (bad : Bool) (code : Nat) {s : State}
    (h : s.mem.wf = true) : (w.write crews n va bit width bad code s).mem.wf = true :=
  foldl_wf (fun _ _ hs => foldl_wf (fun _ _ hu => jobWritePiece_wf hw hu _ _ _ _ _ _) _ hs) _ h

theorem drainElem_wf {s : State} (h : s.mem.wf = true) (id n : Nat) : (s.drainElem id n).mem.wf = true := by
  fun_cases State.drainElem s id n
  case case7 => exact engineUnit_wf h _ _ _
  case case8 => exact engineUnit_wf h _ _ _
  all_goals exact h

theorem copyMove_wf {s : State} (h : s.mem.wf = true) (c : Copy) (n : Nat) : (c.move n s).mem.wf = true := by
  have hw := copyJob_offMemory c
  unfold Copy.move
  extract_lets w write
  have hwrite (d : List Nat) (bad : Bool) (code : Nat) : (write d bad code s).mem.wf = true := by
    unfold write
    split
    · exact foldl_wf (fun _ _ hs => (hw.mark _ _).symm ▸ hs) _ h
    · exact jobWrite_wf hw _ _ _ _ _ _ _ h
  split
  · exact (hw.mark _ s).symm ▸ h
  · exact hwrite _ _ _
  · extract_lets ps
    split
    · exact (jobRead_mem hw _ _ _ s).symm ▸ h
    · exact hwrite _ _ _

theorem copyElement_wf {s : State} (h : s.mem.wf = true) (id n : Nat) : (s.copyElement id n).mem.wf = true := by
  unfold State.copyElement
  split
  · split
    · exact copyMove_wf h _ _
    · exact h
  · exact h

@[simp] theorem copyStart_mem (s : State) (core : Nat) : (s.copyStart core).mem = s.mem := by
  unfold State.copyStart
  dsimp only
  split
  · rfl
  · split <;> split <;> rfl

theorem credit_wf {s : State} (h : s.mem.wf = true) (loc bytes : Nat) (fails : List Nat) : (s.credit loc bytes fails).mem.wf = true := by
  unfold State.credit
  split
  · exact h
  · exact unitObj_wf h _ _ _

theorem barrierCredit_wf {s : State} (h : s.mem.wf = true) (id bytes : Nat) : (s.barrierCredit id bytes).mem.wf = true := by
  fun_cases State.barrierCredit s id bytes
  case case1 => exact credit_wf h _ _ _
  all_goals exact h

theorem maskMember_wf {s : State} (h : s.mem.wf = true) (c : Copy) (t : Nat) : (s.maskMember c t).mem.wf = true := by
  fun_cases State.maskMember s c t
  case case1 => exact h
  case case2 => exact (unreached_mem _ _ _ _).symm ▸ h
  case case3 hr _ => rwa [reach_mem hr]
  case case4 hr _ => exact unit_wf ((reach_mem hr).symm ▸ h) _ _
  case case5 hr => rwa [sendReq_mem, reach_mem hr]
  case case6 hr => rwa [reach_mem hr]

theorem copyEnd_wf {s : State} (h : s.mem.wf = true) (c : Copy) : (s.copyEnd c).mem.wf = true := by
  unfold State.copyEnd
  extract_lets fails credited
  have hc : credited.mem.wf = true := by
    unfold credited
    split
    · split
      · exact h
      · exact credit_wf h _ _ _
    · exact h
  split
  · exact h
  · exact hc

theorem copyComplete_wf {s : State} (h : s.mem.wf = true) (id : Nat) : (s.copyComplete id).mem.wf = true := by
  unfold State.copyComplete
  split
  · exact h
  · extract_lets u
    have hu : u.mem.wf = true := foldl_wf (fun _ _ hs => maskMember_wf hs _ _) _ h
    split
    · exact h
    · split
      · split
        · exact copyEnd_wf hu _
        · exact hu
      · exact hu

@[simp] theorem fetchElem_mem (s : State) (t : Thread) (v : Nat) (p : Stream) (q : Nat) : (s.fetchElem t v p q).mem = s.mem := by
  fun_cases State.fetchElem s t v p q
  case case1 => rfl
  case case2 hr _ => exact reach_mem hr
  case case3 hr _ _ => exact (countDead_mem _ _).trans (reach_mem hr)
  case case4 => rfl

@[simp] theorem streamRefill_mem (s : State) (tid v n : Nat) : (s.streamRefill tid v n).mem = s.mem := by
  unfold State.streamRefill
  split
  · rfl
  · split
    · rfl
    · split
      · rfl
      · exact foldl_mem (fun s _ => fetchElem_mem s _ _ _ _) _ s

theorem traverseMove_wf {s : State} (h : s.mem.wf = true) (v : Traverse) (parcel : Nat) (p : PostOf) (j n : Nat) :
    (v.move parcel p j n s).mem.wf = true := by
  have hw := traverseJob_offMemory v parcel j
  unfold Traverse.move
  extract_lets w
  split
  split
  · exact (jobRead_mem hw _ _ _ s).symm ▸ h
  · exact jobWrite_wf hw _ _ _ _ _ _ _ h

theorem post_wf {s : State} (h : s.mem.wf = true) (parcel j : Nat) : (s.post parcel j).mem.wf = true := by
  fun_cases State.post s parcel j
  case case5 => exact traverseMove_wf h _ _ _ _ _
  all_goals exact h

theorem creditRecord_wf {s : State} (h : s.mem.wf = true) (bar byte bit bytes : Nat) :
    (s.creditRecord bar byte bit bytes).mem.wf = true := by
  unfold State.creditRecord
  split
  · exact h
  · exact unit_wf h _ _

theorem postCredit_wf {s : State} (h : s.mem.wf = true) (parcel j : Nat) : (s.postCredit parcel j).mem.wf = true := by
  fun_cases State.postCredit s parcel j
  case case5 hl _ _ hk _ => rwa [reach_mem hk, reach_mem hl]
  case case6 hl _ _ hk _ => exact creditRecord_wf ((reach_mem hk).trans (reach_mem hl) ▸ h) _ _ _ _
  case case9 hr _ => rwa [sendReq_mem, modTraverse_mem, reach_mem hr]
  all_goals exact h

theorem traverseDone_wf {s : State} (h : s.mem.wf = true) (parcel : Nat) : (s.traverseDone parcel).mem.wf = true := by
  unfold State.traverseDone
  split
  · split
    · exact endTraverse_wf h _ _ _ _
    · exact h
  · exact h

theorem traverseStop_wf {s : State} (h : s.mem.wf = true) (parcel : Nat) : (s.traverseStop parcel).mem.wf = true := by
  fun_cases State.traverseStop s parcel
  case case1 => exact endTraverse_wf h _ _ _ _
  all_goals exact h

@[simp] theorem tileOp_mem (s : State) (tid : Nat) : (s.tileOp tid).mem = s.mem := by
  fun_cases State.tileOp s tid <;> rfl

end Sys2Proof.Machine
end

section

/-! ## Canonical memory (O31): the fabric, the schedule, the device's own steps and bring-up -/

namespace Sys2Proof.Machine

/-! ### The fabric and the host -/

@[simp] theorem failRequest_mem (s : State) (q : FabricReq) (code : Nat) : (s.failRequest q code).mem = s.mem :=
  foldl_mem (fun s l => finish_mem s l code []) _ s

@[simp] theorem failAll_mem (s : State) (code : Nat) (p : FabricReq → Bool) : (s.failAll code p).mem = s.mem :=
  foldl_mem (fun s q => failRequest_mem s q code) _ s

@[simp] theorem replied_mem (s : State) (q : FabricReq) (code : Nat) (data : List Byte) : (s.replied q code data).mem = s.mem := by
  unfold State.replied
  split
  · exact finish_mem _ _ _ _
  · rfl

theorem packetReplies_mem {s u : State} {qs : List FabricReq} {codes : List Nat} {data : List Byte}
    (h : s.packetReplies qs codes data = some u) : u.mem = s.mem := by
  fun_induction State.packetReplies s qs codes data with
  | case1 => exact congrArg State.mem (Option.some.inj h).symm
  | case2 => cases h
  | case3 _ _ _ _ _ _ _ _ ih => exact (ih h).trans (replied_mem _ _ _ _)
  | case4 => cases h

@[simp] theorem heard_mem (s : State) (port : Nat) : (s.heard port).mem = s.mem := rfl

theorem turnRound_wf {s : State} (h : s.mem.wf = true) (qs : List FabricReq) : (s.turnRound qs).mem.wf = true :=
  foldl_wf (fun _ _ hs => (replied_mem _ _ _ _).symm ▸ arrive_wf hs _ _ _) _ h

theorem fabricReply_wf {s : State} (h : s.mem.wf = true) (id port : Nat) (codes : List Nat) (data : List Byte) :
    (s.fabricReply id port codes data).mem.wf = true := by
  unfold State.fabricReply
  split
  · exact h
  · extract_lets mates
    split
    · exact h
    · split
      · split
        · exact h
        · exact (foldl_mem depart_mem _ s).symm ▸ h
      · split
        · exact h
        · split
          · split
            · exact h
            · exact turnRound_wf h _
          · split
            · exact h
            · exact getD_wf h fun _ hu => packetReplies_mem hu ▸ h

theorem arrival_wf {s : State} (h : s.mem.wf = true) (r : Arriving) : (s.arrival r).mem.wf = true := by
  unfold State.arrival
  split
  · exact h
  · exact arrive_wf (s := s.heard r.port) h _ _ _

theorem packetExpand_wf {s : State} (h : s.mem.wf = true) (p : ExtPacket) (fuel k : Nat) : (packetExpand p fuel k s).1.mem.wf = true := by
  fun_induction packetExpand p fuel k s with
  | case1 => exact h
  | case2 _ _ _ _ _ _ ih => exact ih (arrive_wf h _ _ _)

theorem packet_wf {s : State} (h : s.mem.wf = true) (p : ExtPacket) : (s.packet p).mem.wf = true := by
  unfold State.packet
  split
  · exact h
  · exact packetExpand_wf (s := s.heard p.port) h _ _ _

@[simp] theorem combine_mem (s : State) (stage first second : Nat) : (s.combine stage first second).mem = s.mem := by
  fun_cases State.combine s stage first second <;> rfl

@[simp] theorem passStage_mem (s : State) (id : Nat) : (s.passStage id).mem = s.mem := by
  fun_cases State.passStage s id <;> rfl

@[simp] theorem split_mem (s : State) (code : Nat) (dword : Bool) (running : Nat) (ids : List Nat) :
    (s.split code dword running ids).mem = s.mem := by
  fun_induction State.split s code dword running ids with
  | case1 => rfl
  | case2 _ _ _ _ _ ih => exact ih
  | case3 _ _ _ _ _ _ _ _ _ ih => exact ih.trans (replied_mem _ _ _ _)

@[simp] theorem splitReply_mem (s : State) (id : Nat) : (s.splitReply id).mem = s.mem := by
  fun_cases State.splitReply s id
  case case2 => exact split_mem _ _ _ _ _
  all_goals rfl

@[simp] theorem portDown_mem (s : State) (port : Nat) : (s.portDown port).mem = s.mem := by
  unfold State.portDown
  split
  · exact failAll_mem _ _ _
  · rfl

@[simp] theorem trained_mem (s : State) (link : Link) (width version : Nat) : (s.trained link width version).mem = s.mem := by
  fun_cases State.trained s link width version <;> rfl

@[simp] theorem laneFails_mem (s : State) (link : Link) : (s.laneFails link).mem = s.mem := by
  fun_cases State.laneFails s link
  case case3 => exact squashIf_mem _ _
  all_goals rfl

@[simp] theorem markLost_mem (s : State) (dev : Nat) : (s.markLost dev).mem = s.mem := failAll_mem _ _ _

theorem hostAmo_wf {s : State} (h : s.mem.wf = true) (pa : Nat) (op : AmoOp) (dword : Bool) (value expected : Word) :
    (s.hostAmo pa op dword value expected).mem.wf = true := by
  unfold State.hostAmo
  extract_lets n
  split
  · exact h
  · exact performArrival_wf h _ _

/-! ### Regions and blocks -/

@[simp] theorem squashSpan_mem (s : State) (tid die parcel first last : Nat) : (s.squashSpan tid die parcel first last).mem = s.mem :=
  squashIf_mem _ _

theorem tclearLines_wf {m : Memory} (h : m.wf = true) (lines : List Nat) :
    Memory.wf (lines.foldl (fun m l => tclear (l * 128) (l * 128 + 128) m) m) = true := by
  induction lines generalizing m with
  | nil => exact h
  | cons l rest ih => exact ih (Memory.wf_tclear h _ _)

theorem kill_wf {s : State} (h : s.mem.wf = true) (who die : Option Nat) (lines : List Nat) : (s.kill who die lines).mem.wf = true := by
  unfold State.kill
  extract_lets dropped heated squashed killed
  have hdropped : dropped.mem.wf = true := by
    unfold dropped
    split
    · rw [foldl_mem (fun s l => dropCopy_mem s _ l), foldl_mem (fun s l => squashView_mem s _ l)]
      exact settle_wf h _
    · exact h
  have hsquashed : squashed.mem = dropped.mem := (squashIf_mem _ _).trans (heatFor_mem _ _ _)
  rw [wake_mem]
  exact tclearLines_wf (hsquashed ▸ hdropped) lines

/-! ### Turns of the schedule -/

@[simp] theorem missedFetch_mem (s : State) (t : Thread) (pc : Word) : (s.missedFetch t pc).mem = s.mem := by
  unfold State.missedFetch
  split
  · rfl
  · exact missed_mem _ _ _ _

@[simp] theorem noteStrip_mem (s : State) (t : Thread) : (s.noteStrip t).mem = s.mem := by
  unfold State.noteStrip
  split <;> rfl

@[simp] theorem falseHit_mem (s : State) (tids : List Nat) : (s.falseHit tids).mem = s.mem := squashIf_mem _ _
@[simp] theorem nextTurn_mem (s : State) : s.nextTurn.2.mem = s.mem := by
  unfold State.nextTurn
  split
  · exact (foldl_mem (fun s e => refuse_mem s _ _) _ _).trans (falseHit_mem _ _)
  · dsimp only
    split <;> rfl

/-- The state in which a move leaves the device, or which it hands to what it names. -/
def Move.state : Move → State
  | .over s => s
  | .event _ s => s
  | .run _ s => s
  | .endpoint _ s => s

/-- Who acts is a field of the state that memory does not depend on. -/
theorem turnOf_wf {s : State} (h : s.mem.wf = true) (a : Actor) : (s.turnOf a).state.mem.wf = true := by
  have acts {r : Running} (hr : { s with actor := a }.acting = some r) : r.s.mem.wf = true := by
    rw [acting_s hr]
    exact h
  fun_cases State.turnOf s a
  case case5 hr _ _ _ _ => exact resume_wf (acts hr) _
  case case6 hr _ _ _ _ _ => exact (noteStrip_mem _ _).symm ▸ acts hr
  case case7 hr _ _ _ _ _ _ _ _ =>
    refine takeTrap_wf ?_ _
    exact (missedFetch_mem _ _ _).symm ▸ acts hr
  case case8 hr _ _ _ _ _ _ _ _ _ _ _ _ => exact (noteStrip_mem _ _).symm ▸ acts hr
  case case9 hr _ _ _ _ _ _ _ _ _ _ _ _ _ _ => exact ((countDead_mem _ _).trans (keepEntry_mem _ _ _ _)).symm ▸ acts hr
  all_goals exact h

theorem move_wf {s : State} (h : s.mem.wf = true) : s.move.state.mem.wf = true := by
  have turned {o : Option Mover} {u : State} (hu : s.nextTurn = (o, u)) : u.mem.wf = true := by
    have hm := nextTurn_mem s
    rw [hu] at hm
    exact hm ▸ h
  unfold State.move
  split
  case h_1 hu => exact turned hu
  case h_2 hu => exact turned hu
  case h_3 hu => exact turned hu
  case h_4 hu =>
    have hs := turned hu
    refine turnOf_wf ?_ _
    exact hs
  case h_5 hu =>
    have hs := turned hu
    refine turnOf_wf ?_ _
    exact hs

/-! ### The device's own steps for its threads -/

theorem onThread_wf {s : State} (h : s.mem.wf = true) {f : Thread → State} (hf : ∀ t, (f t).mem.wf = true) (tid : Nat)
    (p : Thread → Bool) :
    (s.onThread tid p f).mem.wf = true := by
  unfold State.onThread
  split
  · split
    · exact hf _
    · exact h
  · exact h

@[simp] theorem passTicket_mem (s : State) : s.passTicket.mem = s.mem := by
  fun_cases State.passTicket s <;> rfl

@[simp] theorem persist_mem (s : State) (tid line : Nat) (t : Thread) : (s.persist tid line t).mem = s.mem := by
  fun_cases State.persist s tid line t <;> rfl

@[simp] theorem admitFar_mem (s : State) (slice : Nat) (q : List (Nat × Nat × Nat)) : (s.admitFar slice q).mem = s.mem := by
  fun_cases State.admitFar s slice q <;> rfl

@[simp] theorem farOp_mem (s : State) (slice : Nat) : (s.farOp slice).mem = s.mem := by
  unfold State.farOp
  split
  · rfl
  · dsimp only
    split
    · exact admitFar_mem _ _ _
    · exact admitFar_mem _ _ _

@[simp] theorem deferredReply_mem (s : State) (id : Nat) : (s.deferredReply id).mem = s.mem := by
  unfold State.deferredReply
  split
  · rfl
  · exact fillCopy_mem _ _ _

@[simp] theorem grant_mem (s : State) (core tid : Nat) : (s.grant core tid).mem = s.mem := by
  unfold State.grant
  extract_lets ready waiting top E refilled
  have hr : refilled.mem = s.mem := by
    unfold refilled
    split
    · exact foldl_mem (fun s t => State.setThread_mem s _) _ s
    · rfl
  split
  · exact hr
  · split
    · exact hr
    · split
      · exact hr
      · exact hr

@[simp] theorem evict_mem (s : State) (e : Evicted) : (s.evict e).mem = s.mem := by
  fun_cases State.evict s e
  case case3 => exact squashView_mem _ _ _
  all_goals rfl

theorem writeBackArrives_wf {s : State} (h : s.mem.wf = true) (n : Nat) : (s.writeBackArrives n).mem.wf = true := by
  unfold State.writeBackArrives
  split
  · exact h
  · split
    · exact h
    · refine arriveHome_wf ?_ _
      exact h

@[simp] theorem pageWalk_mem (s : State) (die parcel : Nat) (va : Word) (kind : AccessKind) :
    (s.pageWalk die parcel va kind).mem = s.mem := by
  unfold State.pageWalk
  split
  · rfl
  · split <;> rfl

/-! ### Memory's own events -/

@[simp] theorem readLine_mem (s : State) (line : Nat) (tags : TagCheck) : (s.readLine line tags).mem = s.mem := by
  cases tags <;> rfl

@[simp] theorem dropClean_mem (s : State) (die line : Nat) : (s.dropClean die line).mem = s.mem := by
  unfold State.dropClean
  split
  · rfl
  · split
    · rfl
    · exact squashView_mem _ _ _

@[simp] theorem strikeRequest_mem (s : State) (id : Nat) : (s.strikeRequest id).mem = s.mem := by
  unfold State.strikeRequest
  split
  · rfl
  · split
    · rfl
    · split
      · rfl
      · rfl
      · exact failRequest_mem _ _ _

@[simp] theorem strike_mem (s : State) (place : EccPlace) : (s.strike place).mem = s.mem := by
  fun_cases State.strike s place
  case case1 => exact dropClean_mem _ _ _
  case case2 => exact strikeRequest_mem _ _
  all_goals rfl

@[simp] theorem runTiles_mem (s : State) (tid n : Nat) : (s.runTiles tid n).mem = s.mem := by
  induction n generalizing s with
  | zero => rfl
  | succ n ih => exact (ih _).trans (tileOp_mem _ _)

@[simp] theorem fenceThread_mem (s : State) (corrupt : List Nat) (tid : Nat) : (s.fenceThread corrupt tid).mem = s.mem := by
  unfold State.fenceThread
  split
  · rfl
  · split
    · exact removeThread_mem _ _
    · exact (takeOff_mem _ _).trans (runTiles_mem _ _ _)

theorem fence_wf {s : State} (h : s.mem.wf = true) (core : Nat) (corrupt : List Nat) : (s.fence core corrupt).mem.wf = true := by
  unfold State.fence
  extract_lets here parcel fenced gone stop stopped wiped done
  have hfenced : fenced.mem = s.mem := foldl_mem (fun s t => fenceThread_mem s _ _) _ s
  have hwiped : wiped.mem.wf = true := wipeScratch_wf (s := stopped) (hfenced ▸ h) _ _ _
  exact hwiped

@[simp] theorem passStarts_mem (s : State) (stack : Nat) : (s.passStarts stack).mem = s.mem := by
  unfold State.passStarts
  dsimp only
  split <;> rfl

@[simp] theorem scrub_mem (s : State) (stack : Nat) (tags : TagCheck) : (s.scrub stack tags).mem = s.mem := by
  unfold State.scrub
  dsimp only
  split
  · rfl
  · exact readLine_mem _ _ _

@[simp] theorem passEnds_mem (s : State) (stack : Nat) : (s.passEnds stack).mem = s.mem := by
  unfold State.passEnds
  dsimp only
  split
  · rfl
  · split
    · rfl
    · exact foldl_mem (fun s p => State.setParcel_mem s p _) _ _

theorem place_wf {s : State} (h : s.mem.wf = true) (tids cores slots : List Nat) : (s.place tids cores slots).mem.wf = true := by
  have placed (l : List (Nat × Nat × Nat)) (o : Option State) (ho : ∀ u, o = some u → u.mem.wf = true) :
      ∀ u, l.foldl (fun o e => o.bind fun s => s.placeOne e.1 e.2.1 e.2.2) o = some u → u.mem.wf = true := by
    induction l generalizing o with
    | nil => exact ho
    | cons e rest ih =>
      refine ih _ fun u hu => ?_
      obtain ⟨v, hv, hone⟩ := Option.bind_eq_some_iff.mp hu
      exact placeOne_wf (ho v hv) hone
  unfold State.place
  extract_lets whole
  split
  · exact h
  · exact getD_wf h (placed _ _ fun u hu => Option.some.inj hu ▸ h)

/-! ### Bring-up and management -/

@[simp] theorem moveCrews_mem (s : State) (p : Nat) (old new : BitVec 96) : (s.moveCrews p old new).mem = s.mem := rfl
@[simp] theorem clearKeys_mem (s : State) (p : Nat) : (s.clearKeys p).mem = s.mem := rfl
@[simp] theorem dropPages_mem (s : State) (p : TlbEntry → Bool) : (s.dropPages p).mem = s.mem := rfl
@[simp] theorem dropRefill_mem (s : State) (lo hi : Nat) : (s.dropRefill lo hi).mem = s.mem := rfl
@[simp] theorem setBlocks_mem (s : State) (blocks : List Nat) (owner : Option Nat) : (s.setBlocks blocks owner).mem = s.mem := rfl
@[simp] theorem freeRegions_mem (s : State) (p : Nat) : (s.freeRegions p).mem = s.mem := rfl

@[simp] theorem train_mem (s : State) (r : FirmwareReport) : (s.train r).mem = s.mem := by
  fun_cases State.train s r <;> rfl

theorem cold_wf {s : State} (h : s.mem.wf = true) : s.cold.mem.wf = true := Memory.wf_filter h _

@[simp] theorem forget_mem (s : State) (lines : List Nat) : (s.forget lines).mem = s.mem := by
  unfold State.forget
  exact foldl_mem (fun s e => (dropCopy_mem _ _ _).trans (squashView_mem s _ _)) _ s

theorem setFrames_wf {s : State} (h : s.mem.wf = true) (frames : List Nat) (owner : Option Nat) :
    (s.setFrames frames owner).mem.wf = true := by
  unfold State.setFrames
  extract_lets lines dropped killed
  have hkilled : killed.mem.wf = true := kill_wf (((forget_mem _ _).trans (dropTlb_mem _ _)).symm ▸ h) _ _ _
  exact hkilled

theorem stopThreads_wf {s : State} (h : s.mem.wf = true) (tids : List Nat) : (s.stopThreads tids).mem.wf = true := by
  unfold State.stopThreads
  extract_lets mine copies slots dead removed stopped ended
  have hremoved : removed.mem = s.mem := foldl_mem removeThread_mem _ s
  have hstopped : stopped.mem.wf = true := foldl_wf (fun _ _ hs => endTraverse_wf hs _ _ _ _) _ (hremoved ▸ h)
  exact hstopped

theorem releaseCrews_wf {s : State} (h : s.mem.wf = true) (p : Nat) (crews : BitVec 96) : (s.releaseCrews p crews).mem.wf = true := by
  unfold State.releaseCrews
  extract_lets mine cleared
  have hcleared : cleared.mem.wf = true := foldl_wf (fun _ c hs => wipeCrew_wf hs c) _ h
  exact hcleared

theorem beginEnd_wf {s : State} (h : s.mem.wf = true) (p : Nat) : (s.beginEnd p).mem.wf = true := by
  unfold State.beginEnd
  extract_lets _ ending stopped silent quiet _ keyless
  have hstopped : stopped.mem.wf = true := by
    rw [freeRegions_mem]
    exact stopThreads_wf (s := ending) h _
  rw [dropTlb_mem, State.setParcel_mem, clearKeys_mem]
  exact hstopped

theorem endParcel_wf {s : State} (h : s.mem.wf = true) (p : Nat) : (s.endParcel p).mem.wf = true := by
  unfold State.endParcel
  extract_lets frames freed unowned
  have hfreed : freed.mem.wf = true := setFrames_wf h _ _
  rw [State.setParcel_mem]
  exact releaseCrews_wf (s := unowned) hfreed _ _

end Sys2Proof.Machine
end

section

/-! ## Canonical memory (O31): a meaning and what is made of it

A meaning runs in `Exec`, which can stop at any point. `KeepsMemory` is a Hoare triple of that monad: from canonical memory it leaves
canonical memory, in the result and in what a stop hands on. `execute`, `control` and `shared` then take a meaning to a step. -/

open Std.Do
set_option mvcgen.warning false

namespace Sys2Proof.Machine

variable {α β : Type}

/-- Memory in canonical form, whether a part of a meaning completes or not. -/
abbrev memoryKept : PostCond α (.except Halt (.arg Running .pure)) :=
  post⟨fun _ r => ⌜r.s.mem.wf = true⌝, fun _ r => ⌜r.s.mem.wf = true⌝⟩

/-- A part of a meaning keeps the canonical form of memory. -/
abbrev KeepsMemory (m : Exec α) : Prop := ⦃fun r => ⌜r.s.mem.wf = true⌝⦄ m ⦃memoryKept⦄

/-- Memory is in canonical form in what a part of a meaning leaves. -/
def Kept : EStateM.Result Halt Running α → Prop
  | .ok _ r => r.s.mem.wf = true
  | .error _ r => r.s.mem.wf = true

theorem KeepsMemory.run {m : Exec α} (h : KeepsMemory m) {r : Running} (hr : r.s.mem.wf = true) : Kept (m r) :=
  EStateM.of_wp_run_eq rfl Kept fun _ => h r hr

theorem KeepsMemory.ok {m : Exec α} (h : KeepsMemory m) {r r' : Running} {a : α} (hr : r.s.mem.wf = true) (e : m r = .ok a r') :
    r'.s.mem.wf = true := by
  have kept := h.run hr
  rwa [e] at kept

theorem KeepsMemory.error {m : Exec α} (h : KeepsMemory m) {r r' : Running} {c : Halt} (hr : r.s.mem.wf = true)
    (e : m r = .error c r') : r'.s.mem.wf = true := by
  have kept := h.run hr
  rwa [e] at kept

theorem attempt_wf {body : Exec Next} (hb : KeepsMemory body) (f : Form) (fuel : Nat) {r : Running} (h : r.s.mem.wf = true) :
    (Running.attempt body f fuel r).mem.wf = true := by
  have opened {r : Running} (h : r.s.mem.wf = true) : (r.openChunk false).s.mem.wf = true := by rwa [openChunk_s]
  fun_induction Running.attempt body f fuel r with
  | case1 => exact h
  | case2 _ _ _ _ e =>
    refine retire_wf ?_ _
    rw [goOnVp_s]
    exact (yieldTokens_mem _ _ _ _).symm ▸ hb.ok (opened h) e
  | case3 _ _ _ _ e =>
    refine retire_wf ?_ _
    rw [goOn_s]
    exact (yieldTokens_mem _ _ _ _).symm ▸ hb.ok (opened h) e
  | case4 _ _ _ _ e =>
    have kept := hb.error (opened h) e
    refine takeTrap_wf ?_ _
    exact kept
  | case5 => exact report_wf h
  | case6 => exact h
  | case7 =>
    rw [sendAll_mem]
    exact h
  | case8 _ _ _ _ e => exact hb.error (opened h) e
  | case9 => exact takeTrap_wf h _
  | case10 => exact h
  | case11 _ _ _ _ _ _ _ he =>
    rw [takeAsync_mem]
    exact boundary_wf h he
  | case12 _ _ _ _ _ _ _ he _ ih => exact ih (boundary_wf h he)
  | case13 => exact h

theorem execute_wf {r : Running} (h : r.s.mem.wf = true) (f : Form) {body : Exec Next} (hb : KeepsMemory body) :
    (r.execute f body).mem.wf = true := by
  fun_cases Running.execute r f body
  case case1 => exact takeTrap_wf h _
  case case2 => exact takeTrap_wf h _
  case case3 he _ =>
    rw [takeAsync_mem]
    exact boundary_wf h he
  case case4 he _ => exact attempt_wf hb f 1 (boundary_wf h he)
  case case5 => exact h
  case case6 => exact attempt_wf hb f 1 h

/-- A meaning, or an event, takes memory in canonical form to memory in canonical form. -/
def StepKeeps (f : State → Result) : Prop := ∀ ⦃s u : State⦄, s.mem.wf = true → f s = .next u → u.mem.wf = true

theorem control_keeps {f : Form} {body : Exec Next} (hb : KeepsMemory body) : StepKeeps (control f body) := by
  intro s u h hu
  unfold control at hu
  split at hu
  case h_1 => cases hu
  case h_2 r hr =>
    have hs : r.s.mem.wf = true := acting_s hr ▸ h
    split at hu
    · cases hu
      exact resume_wf h _
    · split at hu
      · cases hu
        exact takeTrap_wf hs _
      · split at hu
        · cases hu
          exact h
        · cases hu
          exact execute_wf hs f hb

theorem shared_keeps {f : Form} {body : Exec Next} (hb : KeepsMemory body) : StepKeeps (shared f body) := by
  intro s u h hu
  unfold shared at hu
  split at hu
  case h_1 => cases hu
  case h_2 r hr =>
    have hs : r.s.mem.wf = true := acting_s hr ▸ h
    split at hu
    · cases hu
      exact resume_wf h _
    · split at hu
      · cases hu
        exact h
      · cases hu
        exact execute_wf hs f hb

theorem event_keeps {f : State → State} (hf : ∀ s, s.mem.wf = true → (f s).mem.wf = true) : StepKeeps (event f) := by
  intro s u h hu
  cases hu
  split
  · exact hf s h
  · exact h

end Sys2Proof.Machine
end

section

/-! ## Canonical memory (O31): the parts that meanings are made of

Each part of a meaning keeps memory because its own parts do; `mvcgen` takes the part apart with their triples. A change of the device
itself (`modS`) brings its law from the operations of the state. -/

open Std.Do
set_option mvcgen.warning false

namespace Sys2Proof.Machine

variable {α β : Type}

/-! ### What runs: registers, the thread, its chunk, the device -/

theorem getC_keeps : KeepsMemory getC := by mvcgen [getC]
theorem getT_keeps : KeepsMemory getT := by mvcgen [getT]
theorem getS_keeps : KeepsMemory getS := by mvcgen [getS]
theorem modC_keeps (f : Ctx → Ctx) : KeepsMemory (modC f) := by mvcgen [modC]
theorem modT_keeps (f : Thread → Thread) : KeepsMemory (modT f) := by mvcgen [modT]
theorem modChunk_keeps (f : Chunk → Chunk) : KeepsMemory (modChunk f) := by mvcgen [modChunk, modT_keeps]
theorem endAfter_keeps : KeepsMemory endAfter := by mvcgen [endAfter]
theorem explicitChunk_keeps : KeepsMemory explicitChunk := by mvcgen [explicitChunk, getT_keeps]
theorem begun_keeps : KeepsMemory begun := by mvcgen [begun, getT_keeps]

/-- A change of the device keeps memory as its own law says. -/
theorem modS_keeps {f : State → State} (hf : ∀ s, s.mem.wf = true → (f s).mem.wf = true) : KeepsMemory (modS f) := by
  mvcgen [modS]
  exact hf _ ‹_›

theorem wf_of_mem {f : State → State} (hf : ∀ s, (f s).mem = s.mem) (s : State) (h : s.mem.wf = true) : (f s).mem.wf = true := by
  rwa [hf]

theorem seq_keeps {m : Exec Unit} (h : KeepsMemory m) : KeepsMemory (seq m) := by
  mvcgen [seq, h]

theorem bind_keeps {m : Exec α} {f : α → Exec β} (hm : KeepsMemory m) (hf : ∀ a, KeepsMemory (f a)) : KeepsMemory (m >>= f) := by
  mvcgen [hm, hf]

theorem pure_keeps (a : α) : KeepsMemory (pure a : Exec α) := by
  mvcgen

/-- What holds before and after every turn of a loop. -/
abbrev loopKept {l : List α} : Invariant l β (.except Halt (.arg Running .pure)) :=
  post⟨fun _ r => ⌜r.s.mem.wf = true⌝, fun _ r => ⌜r.s.mem.wf = true⌝⟩

theorem mapM_keeps {f : α → Exec β} (hf : ∀ a, KeepsMemory (f a)) (l : List α) : KeepsMemory (l.mapM f) := by
  induction l with
  | nil =>
    rw [List.mapM_nil]
    mvcgen
  | cons a l ih =>
    rw [List.mapM_cons]
    mvcgen [hf, ih]

theorem foldlM_keeps {f : β → α → Exec β} (hf : ∀ b a, KeepsMemory (f b a)) (l : List α) (b : β) : KeepsMemory (l.foldlM f b) := by
  induction l generalizing b with
  | nil => exact pure_keeps b
  | cons a l ih =>
    rw [List.foldlM_cons]
    exact bind_keeps (hf b a) ih

theorem anyM_keeps {f : α → Exec Bool} (hf : ∀ a, KeepsMemory (f a)) (l : List α) : KeepsMemory (l.anyM f) := by
  induction l with
  | nil => exact pure_keeps false
  | cons a l ih => mvcgen [List.anyM, hf, ih]

/-! ### Translations and places -/

theorem xlateAt_keeps (priv : Bool) (need : Need) (va : Nat) : KeepsMemory (xlateAt priv need va) := by
  have miss (core parcel va : Nat) : KeepsMemory (modS (·.missed core parcel va)) := modS_keeps (wf_of_mem fun s => missed_mem s _ _ _)
  have keep (core : Nat) (a : Access) (hit : Bool) : KeepsMemory (modS (·.keepEntry core a hit)) :=
    modS_keeps (wf_of_mem fun s => keepEntry_mem s _ _ _)
  mvcgen [xlateAt, miss, keep, trapOf, modChunk_keeps]

theorem xlate_keeps (need : Need) (va : Nat) : KeepsMemory (xlate need va) := by
  mvcgen [xlate, getC_keeps, xlateAt_keeps]

theorem groupXlate_keeps (i : Nat) (need : Need) (va : Nat) : KeepsMemory (groupXlate i need va) := by
  mvcgen [groupXlate, trapOf, xlate_keeps]

theorem placeFor_keeps (engine : Bool) (a : Access) : KeepsMemory (placeFor engine a) := by
  mvcgen [placeFor, trapOf]

theorem placeA_keeps (a : Access) : KeepsMemory (placeA a) := by
  mvcgen [placeA, placeFor_keeps]

theorem afterLate_keeps (lines : List Nat) : KeepsMemory (afterLate lines) := by
  mvcgen [afterLate, getT]

theorem arrived_keeps (k : Nat) (st : Stand) : KeepsMemory (arrived k st) := by
  mvcgen [arrived, getT_keeps]

theorem atOpening_keeps (why : Nat) : KeepsMemory (atOpening why) := by
  mvcgen [atOpening, explicitChunk_keeps, begun_keeps]

theorem coreNum_keeps : KeepsMemory coreNum := by
  mvcgen [coreNum, getT_keeps]

theorem dieNum_keeps : KeepsMemory dieNum := by
  mvcgen [dieNum, coreNum_keeps]

theorem crewNum_keeps : KeepsMemory crewNum := by
  mvcgen [crewNum, coreNum_keeps]

/-! ### Scalar registers -/

theorem awaitX_keeps (r : Nat) : KeepsMemory (awaitX r) := by
  mvcgen [awaitX, getT_keeps]

theorem rdX_keeps (r : BitVec 6) : KeepsMemory (rdX r) := by
  mvcgen [rdX, awaitX_keeps, getT_keeps, trapOf]

theorem wrX_keeps (r : BitVec 6) (w : Word) : KeepsMemory (wrX r w) := by
  mvcgen [wrX, awaitX_keeps, modT_keeps]

theorem raise_keeps (f : BitVec 5) : KeepsMemory (raise f) := by
  mvcgen [raise, modC_keeps]

/-! ### Accesses at a location and on the fabric -/

theorem countDeadS_keeps (loc : Nat) : KeepsMemory (modS (·.countDead loc)) := modS_keeps (wf_of_mem fun s => countDead_mem s loc)

theorem readLoc_keeps (va loc n : Nat) : KeepsMemory (readLoc va loc n) := by
  have fill (die line : Nat) : KeepsMemory (modS (·.fillCopy die line)) := modS_keeps (wf_of_mem fun s => fillCopy_mem s _ _)
  mvcgen [readLoc, afterLate_keeps, fill, countDeadS_keeps, modChunk_keeps, trapOf] invariants
  · loopKept
  · loopKept

theorem writeLoc_keeps (ws : List Write) : KeepsMemory (writeLoc ws) := by
  mvcgen [writeLoc, afterLate_keeps, modChunk_keeps]

theorem alone_keeps (va : Nat) : KeepsMemory (alone va) := by
  mvcgen [alone, explicitChunk_keeps, begun_keeps, endAfter_keeps, trap]

theorem fabricReq_keeps (dev off : Nat) (op : ArrivingOp) (va : Nat) (reply : ReplyTo) : KeepsMemory (fabricReq dev off op va reply) := by
  mvcgen [fabricReq, getT_keeps]

theorem fabricOrder_keeps (dev off : Nat) : KeepsMemory (fabricOrder dev off) := by
  mvcgen [fabricOrder]

theorem fabricRead_keeps (dev off n va : Nat) {ask : FabricReq → Exec (List FabricReq)} (hask : ∀ q, KeepsMemory (ask q)) :
    KeepsMemory (fabricRead dev off n va ask) := by
  mvcgen [fabricRead, explicitChunk_keeps, fabricOrder_keeps, trapOf, fabricReq_keeps, hask]

theorem fabricRead_alone_keeps (dev off n va : Nat) : KeepsMemory (fabricRead dev off n va) :=
  fabricRead_keeps dev off n va fun _ => pure_keeps _

theorem nextIdS_keeps (n : Nat) : KeepsMemory (modS fun s => { s with nextId := n }) := modS_keeps fun _ h => h

theorem deferLoad_keeps (d : Dest) (va pa n : Nat) (ext : Ext) (fabric : Option (Nat × Nat)) (vector : Bool)
    {join : FabricReq → Exec FabricReq} (hjoin : ∀ q, KeepsMemory (join q)) :
    KeepsMemory (deferLoad d va pa n ext fabric vector join) := by
  have send (q : FabricReq) : KeepsMemory (modS fun s => s.sendReq q) := modS_keeps (wf_of_mem fun s => sendReq_mem s q)
  mvcgen [deferLoad, modT_keeps, nextIdS_keeps, fabricOrder_keeps, fabricReq_keeps, modChunk_keeps, hjoin, send]

theorem deferLoad_alone_keeps (d : Dest) (va pa n : Nat) (ext : Ext) (fabric : Option (Nat × Nat)) (vector : Bool) :
    KeepsMemory (deferLoad d va pa n ext fabric vector) :=
  deferLoad_keeps d va pa n ext fabric vector pure_keeps

theorem mayDefer_keeps (p : Place) : KeepsMemory (mayDefer p) := by
  mvcgen [mayDefer, getS_keeps, explicitChunk_keeps, getT_keeps]

theorem loadX_keeps (rd : BitVec 6) (n : Nat) (ext : Ext) (va : Word) : KeepsMemory (loadX rd n ext va) := by
  mvcgen [loadX, xlate_keeps, placeA_keeps, mayDefer_keeps, awaitX_keeps, deferLoad_alone_keeps, readLoc_keeps, wrX_keeps, alone_keeps,
    getS_keeps, trapOf, countDeadS_keeps, getC_keeps, getT_keeps, trap, fabricRead_alone_keeps]

theorem ownUnit_keeps (ws : List Write) : KeepsMemory (ownUnit ws) := by
  have write (who : Option Nat) : KeepsMemory (modS (·.unit who ws)) := modS_keeps fun _ h => unit_wf h who ws
  mvcgen [ownUnit, getT_keeps, getS_keeps, write]

theorem storeX_keeps (n : Nat) (x : Word) (va : Word) : KeepsMemory (storeX n x va) := by
  have window (off x : Nat) : KeepsMemory (modS (·.windowWrite off x)) := modS_keeps (wf_of_mem fun s => windowWrite_mem s off x)
  mvcgen [storeX, xlate_keeps, placeA_keeps, writeLoc_keeps, alone_keeps, ownUnit_keeps, getC_keeps, window, trap, explicitChunk_keeps,
    getT_keeps, fabricReq_keeps, modChunk_keeps]

theorem readPages_keeps (fuel va n : Nat) : KeepsMemory (readPages fuel va n) := by
  induction fuel generalizing va n with
  | zero => mvcgen [readPages]
  | succ fuel ih => mvcgen [readPages, placeFor_keeps, xlate_keeps, readLoc_keeps, trap, ih]

theorem readRec_keeps (va n : Nat) : KeepsMemory (readRec va n) := by
  mvcgen [readRec, readPages_keeps]

theorem recPlace_keeps (need : Need) (va : Nat) : KeepsMemory (recPlace need va) := by
  mvcgen [recPlace, xlate_keeps, placeA_keeps, trap]

/-! ### Operands and results of vectors -/

theorem getMode_keeps : KeepsMemory getMode := by
  mvcgen [getMode, getC_keeps]

theorem modeWord_keeps : KeepsMemory modeWord := by
  mvcgen [modeWord, getMode_keeps]

theorem modeTrap_keeps : KeepsMemory (modeTrap : Exec α) := by
  mvcgen [modeTrap, modeWord_keeps, trap]

theorem needMode_keeps (ok : Bool) : KeepsMemory (needMode ok) := by
  mvcgen [needMode, modeTrap_keeps]

theorem widthOf_keeps (t : TypeCode) : KeepsMemory (widthOf t) := by
  mvcgen [widthOf, getC_keeps]

theorem checkVl_keeps (w : Nat) : KeepsMemory (checkVl w) := by
  mvcgen [checkVl, getT_keeps, trap]

theorem checkPoisonP_keeps (k : Nat) : KeepsMemory (checkPoisonP k) := by
  mvcgen [checkPoisonP, getT_keeps, trapOf]

theorem activeElems_keeps : KeepsMemory activeElems := by
  mvcgen [activeElems, checkPoisonP_keeps]

theorem awaitV_keeps (k : Nat) : KeepsMemory (awaitV k) := by
  mvcgen [awaitV, getT_keeps]

theorem checkPoisonV_keeps (k w : Nat) (es : List Nat) : KeepsMemory (checkPoisonV k w es) := by
  mvcgen [checkPoisonV, getT_keeps, trapOf]

theorem popElem_keeps (n : Nat) (p : Stream) (b q : Nat) : KeepsMemory (popElem n p b q) := by
  mvcgen [popElem, getT_keeps, modChunk_keeps, xlateAt_keeps, placeFor_keeps, readLoc_keeps, fabricRead_alone_keeps, trap]

theorem srcV_keeps (k : BitVec 6) (w c : Nat) : KeepsMemory (srcV k w c) := by
  have pops (n : Nat) (p : Stream) (b : Nat) (q : Nat) (l : List Nat) : KeepsMemory (l.mapM fun i => popElem n p b (q + i)) :=
    mapM_keeps (fun _ => popElem_keeps _ _ _ _) l
  mvcgen [srcV, awaitV_keeps, pops, modC_keeps, trap]

theorem srcElems_keeps (k : BitVec 6) (w c : Nat) (es : List Nat) : KeepsMemory (srcElems k w c es) := by
  mvcgen [srcElems, getC_keeps, srcV_keeps, checkPoisonV_keeps]

theorem vpStreams_keeps (ks : List (BitVec 6)) : KeepsMemory (vpStreams ks) := by
  mvcgen [vpStreams, trap]

theorem checkSrcs_keeps (srcs : List (BitVec 6 × Nat)) : KeepsMemory (checkSrcs srcs) := by
  mvcgen [checkSrcs, getC_keeps, trap] invariants
  · loopKept

theorem dstV_keeps (k : BitVec 6) : KeepsMemory (dstV k) := by
  mvcgen [dstV, awaitV_keeps, trap]

theorem wrElems_keeps (n w : Nat) (es : List (Nat × Nat)) : KeepsMemory (wrElems n w es) := by
  mvcgen [wrElems, getC_keeps, modT_keeps]

theorem modify_keeps {f : Running → Running} (hf : ∀ r, (f r).s = r.s) : KeepsMemory (modify f) := by
  mvcgen
  rename_i r h _
  exact (congrArg (fun s => s.mem.wf = true) (hf r)).mpr h

theorem chargePasses_keeps (c : Ctx) (es : List Nat) (srcs dst : List (Arg × TypeCode)) (ds : List Nat) :
    KeepsMemory (chargePasses c es srcs dst ds) :=
  modify_keeps fun r => by
    dsimp only
    split <;> rfl

theorem elementwise_keeps (d : BitVec 6) (wd : Nat) (reads : Bool) (a : BitVec 6) (w : Nat) (b : Arg) (wb : Nat)
    (f : Nat → Nat → Nat → Nat → Rounded) :
    KeepsMemory (elementwise d wd reads a w b wb f) := by
  mvcgen [elementwise, dstV_keeps, checkSrcs_keeps, activeElems_keeps, getC_keeps, srcElems_keeps, wrElems_keeps, raise_keeps,
    checkPoisonV_keeps, rdX_keeps]

theorem rdP_keeps (k : Nat) : KeepsMemory (rdP k) := by
  mvcgen [rdP, getC_keeps, checkPoisonP_keeps]

theorem wrP_keeps (k : Nat) (v : PReg) : KeepsMemory (wrP k v) := by
  mvcgen [wrP, modT_keeps]

theorem scaleReg_keeps : KeepsMemory scaleReg := by
  mvcgen [scaleReg, getC_keeps, awaitV_keeps, modeTrap_keeps]

theorem parcelReg_keeps (which : Nat) : KeepsMemory (parcelReg which) := by
  mvcgen [parcelReg]

/-! ### System registers, fences and atomics -/

theorem readSys_keeps (r : BitVec 12) : KeepsMemory (readSys r) := by
  mvcgen [readSys, parcelReg_keeps]

theorem awaitScalars_keeps : KeepsMemory awaitScalars := by
  mvcgen [awaitScalars, getT_keeps]

theorem drainVectors_keeps : KeepsMemory drainVectors := by
  mvcgen [drainVectors]

theorem awaitFabric_keeps : KeepsMemory awaitFabric := by
  mvcgen [awaitFabric]

theorem flushDie_wf {s : State} (h : s.mem.wf = true) (die : Nat) (drop : Bool) : (s.flushDie die drop).mem.wf = true := by
  refine foldl_wf (fun s l hs => ?_) _ (settle_wf h _)
  refine writeBack_wf ?_ _ _ _
  split
  · rwa [squashView_mem]
  · exact hs

theorem scopeAction_keeps (sc : BitVec 2) (drop release : Bool) : KeepsMemory (scopeAction sc drop release) := by
  have flush (die : Nat) : KeepsMemory (modS (·.flushDie die drop)) := modS_keeps fun _ h => flushDie_wf h die drop
  mvcgen [scopeAction, awaitFabric_keeps, flush]

theorem syncPlace_keeps (need : Need) (va : Word) : KeepsMemory (syncPlace need va) := by
  mvcgen [syncPlace, xlate_keeps, placeA_keeps, trap]

theorem placeAtomic_keeps (loc : Nat) (returns : Bool) : KeepsMemory (placeAtomic loc returns) := by
  have note (k : Nat) (line : Nat) (f : Counters → Counters) :
      KeepsMemory (modS fun s => (s.setCore k ((s.core k).touch line)).count f) :=
    modS_keeps fun _ h => h
  mvcgen [placeAtomic, note, modChunk_keeps, endAfter_keeps]

theorem atomicLoc_keeps (op : AmoOp) (n va loc v expected : Nat) : KeepsMemory (atomicLoc op n va loc v expected) := by
  mvcgen [atomicLoc, readLoc_keeps, writeLoc_keeps, raise_keeps]

theorem checkExt_keeps (op : AmoOp) (dev va : Nat) : KeepsMemory (checkExt op dev va) := by
  mvcgen [checkExt, getS_keeps, trap]

theorem atomicX_keeps (op : AmoOp) (d a b : BitVec 6) (dword : Bool) : KeepsMemory (atomicX op d a b dword) := by
  mvcgen [atomicX, rdX_keeps, placeA_keeps, xlate_keeps, awaitScalars_keeps, awaitX_keeps, atomicLoc_keeps, placeAtomic_keeps, wrX_keeps,
    alone_keeps, getS_keeps, trapOf, countDeadS_keeps, ownUnit_keeps, raise_keeps, trap, checkExt_keeps, explicitChunk_keeps, getT_keeps,
    fabricReq_keeps, modChunk_keeps, endAfter_keeps]

theorem scalarMode_keeps : KeepsMemory scalarMode := by
  mvcgen [scalarMode, getC_keeps, needMode_keeps]

theorem wrRounded_keeps (d : BitVec 6) (r : Rounded) : KeepsMemory (wrRounded d r) := by
  mvcgen [wrRounded, wrX_keeps, raise_keeps]

theorem dropPages_keeps (p : TlbEntry → Bool) : KeepsMemory (dropPages p) := by
  have drop : KeepsMemory (modS (·.dropTlb p)) := modS_keeps (wf_of_mem fun s => dropTlb_mem s p)
  mvcgen [dropPages, getS_keeps, getT_keeps, drop]

theorem modeLimit_keeps : KeepsMemory modeLimit := by
  mvcgen [modeLimit, getT_keeps]

theorem setVl_keeps (d : BitVec 6) (n : Nat) : KeepsMemory (setVl d n) := by
  mvcgen [setVl, modeLimit_keeps, modC_keeps, wrX_keeps]

theorem checkNumber_keeps (r : BitVec 12) : KeepsMemory (checkNumber r) := by
  mvcgen [checkNumber, getC_keeps, getS_keeps, trap]

/-! ### Tiles -/

theorem observeTiles_keeps : KeepsMemory observeTiles := by
  mvcgen [observeTiles, getT_keeps]

theorem tileRows_keeps (t : BitVec 2) : KeepsMemory (tileRows t) := by
  mvcgen [tileRows, getT_keeps, trap]

theorem queueTile_keeps (op : TileOp) : KeepsMemory (queueTile op) := by
  mvcgen [queueTile, modChunk_keeps]

theorem spanFirst_keeps (w : Word) : KeepsMemory (spanFirst w) := by
  mvcgen [spanFirst, trap]

theorem aligned4_keeps (x : Nat) : KeepsMemory (aligned4 x) := by
  mvcgen [aligned4, trap]

theorem readSpan_keeps (k : BitVec 6) : KeepsMemory (readSpan k) := by
  mvcgen [readSpan, rdX_keeps, spanFirst_keeps, aligned4_keeps, trap]

theorem checkScratch_keeps (off n : Nat) : KeepsMemory (checkScratch off n) := by
  mvcgen [checkScratch, trap]

theorem scratchRead_keeps (off n : Nat) : KeepsMemory (scratchRead off n) := by
  mvcgen [scratchRead, crewNum_keeps, readLoc_keeps]

theorem checkSpan_keeps (d : Span) (w count : Nat) : KeepsMemory (checkSpan d w count) := by
  mvcgen [checkSpan, checkScratch_keeps] invariants
  · loopKept

theorem readSpanCodes_keeps (d : Span) (w count : Nat) : KeepsMemory (readSpanCodes d w count) :=
  mapM_keeps (fun _ => by mvcgen [scratchRead_keeps]) _

theorem checkCapacity_keeps (arg : MopArg) (w count : Nat) : KeepsMemory (checkCapacity arg w count) := by
  mvcgen [checkCapacity, getT_keeps, trap]

theorem operandScales_keeps (arg : MopArg) (w count : Nat) : KeepsMemory (operandScales arg w count) := by
  mvcgen [operandScales, scaleReg_keeps, getT_keeps, checkPoisonV_keeps]

theorem readOperand_keeps (arg : MopArg) (span : Option Span) (t : TypeCode) (w count pop : Nat) :
    KeepsMemory (readOperand arg span t w count pop) := by
  mvcgen [readOperand, getC_keeps, operandScales_keeps, srcElems_keeps, readSpanCodes_keeps]

theorem argSpan_keeps (arg : MopArg) : KeepsMemory (argSpan arg) := by
  mvcgen [argSpan, readSpan_keeps]

theorem moveFields_keeps (b : BitVec 6) (tagged : Bool) (H : Nat) : KeepsMemory (moveFields b tagged H) := by
  mvcgen [moveFields, rdX_keeps, trap]

theorem vectorRows_keeps (n : Nat) : KeepsMemory (vectorRows n) := by
  mvcgen [vectorRows, getT_keeps, trap]

theorem moveSpan_keeps (a : BitVec 6) (n : Nat) : KeepsMemory (moveSpan a n) := by
  mvcgen [moveSpan, rdX_keeps, spanFirst_keeps, aligned4_keeps, checkScratch_keeps] invariants
  · loopKept

/-! ### Tags, platforms, barriers and traverses -/

theorem takeTag_keeps (tag : Nat) : KeepsMemory (takeTag tag) := by
  mvcgen [takeTag, modT_keeps, modChunk_keeps]

theorem readPlat_keeps (va : Word) : KeepsMemory (readPlat va) := by
  mvcgen [readPlat, readRec_keeps, getC_keeps, trap]

theorem readEntry_keeps (p : Plat) (r : Nat) : KeepsMemory (readEntry p r) := by
  mvcgen [readEntry, readRec_keeps]

theorem readLocal_keeps (dest : Bool) (va : Word) : KeepsMemory (readLocal dest va) := by
  mvcgen [readLocal, readPlat_keeps, readEntry_keeps, trap]

theorem observeTags_keeps (mask : Word) : KeepsMemory (observeTags mask) := by
  mvcgen [observeTags, getT_keeps, explicitChunk_keeps, begun_keeps, modT_keeps, trapOf]

theorem barPlace_keeps (need : Need) (va : Word) : KeepsMemory (barPlace need va) := by
  mvcgen [barPlace, xlate_keeps, trap]

theorem readBar_keeps (va : Word) (loc : Nat) : KeepsMemory (readBar va loc) := by
  mvcgen [readBar, readLoc_keeps, trap]

theorem writeBar_keeps (loc o : Nat) : KeepsMemory (writeBar loc o) := by
  mvcgen [writeBar, writeLoc_keeps]

theorem checkCorners_keeps (va : Word) (l : Layout) (lo hi : List Nat) : KeepsMemory (checkCorners va l lo hi) := by
  mvcgen [checkCorners, trap]

theorem checkOffsets_keeps (scratch : Bool) (l : Layout) (lo hi : List Nat) : KeepsMemory (checkOffsets scratch l lo hi) := by
  mvcgen [checkOffsets, trap]

theorem readMesh_keeps (dest : Bool) (va : Word) : KeepsMemory (readMesh dest va) := by
  mvcgen [readMesh, readPlat_keeps, readEntry_keeps, trap] invariants
  · loopKept

theorem deriveTraverse_keeps (splat dplat : Word) : KeepsMemory (deriveTraverse splat dplat) := by
  mvcgen [deriveTraverse, readMesh_keeps, getS_keeps, trap]

theorem slotOf_keeps : KeepsMemory slotOf := by
  mvcgen [slotOf, modChunk_keeps]

theorem slotFree_keeps : KeepsMemory slotFree := by
  mvcgen [slotFree, slotOf_keeps, trap]

theorem claim_keeps (d : Derived) (tag : Nat) (cursor : Word) (loc next : Nat) (done : BitVec 64) :
    KeepsMemory (claim d tag cursor loc next done) := by
  mvcgen [claim, getT_keeps, takeTag_keeps, modChunk_keeps]

/-! ### Transfers and conversions -/

theorem transfer_keeps (call : Bool) (target : Word) : KeepsMemory (transfer call target) := by
  mvcgen [transfer, getC_keeps, modC_keeps]

theorem getConv_keeps : KeepsMemory getConv := by
  mvcgen [getConv, getC_keeps]

theorem scaleOf_keeps (n w : Nat) (es : List Nat) : KeepsMemory (scaleOf n w es) := by
  mvcgen [scaleOf, scaleReg_keeps, modeTrap_keeps, getT_keeps, checkPoisonV_keeps]

/-! ### Memory accesses of vectors -/

theorem vmemTypes_keeps (form : VForm) (ok : TypeCode → Bool) : KeepsMemory (vmemTypes form ok) := by
  mvcgen [vmemTypes, getC_keeps, needMode_keeps, checkVl_keeps]

theorem vmemElems_keeps : KeepsMemory vmemElems := by
  mvcgen [vmemElems, activeElems_keeps, trap]

theorem cutPoint_keeps (es : List Nat) : KeepsMemory (cutPoint es) := by
  mvcgen [cutPoint]

theorem runElems_keeps (streams : Table Stream) (es : List Nat) {perform : Nat → Exec Unit} (hp : ∀ i, KeepsMemory (perform i))
    (whole : Bool) : KeepsMemory (runElems streams es perform whole) := by
  unfold runElems
  refine bind_keeps (by mvcgen) fun r => ?_
  extract_lets control rest
  have hrest (cut : Option Nat) : KeepsMemory (rest cut) := by
    cases cut with
    | none =>
      mvcgen [rest, modC_keeps, hp] invariants
      · loopKept
    | some k =>
      mvcgen [rest, modC_keeps, endAfter_keeps, getC_keeps, hp] invariants
      · loopKept
  clear_value rest
  mvcgen [cutPoint_keeps, hrest]

theorem elemAt_keeps (acc : Access) (elem : Word) : KeepsMemory (elemAt acc elem) := by
  mvcgen [elemAt, placeA_keeps, trap]

theorem elemPlace_keeps (i : Nat) (need : Need) (va elem : Word) : KeepsMemory (elemPlace i need va elem) := by
  mvcgen [elemPlace, groupXlate_keeps, elemAt_keeps]

theorem subPlaces_keeps (i : Nat) (need : Need) (a : Word) (n : Nat) : KeepsMemory (subPlaces i need a n) :=
  bind_keeps (mapM_keeps (fun _ => groupXlate_keeps _ _ _) _) fun _ => mapM_keeps (fun _ => by mvcgen [elemAt_keeps]) _

theorem wholePlace_keeps (i : Nat) (need : Need) (a : Word) (n : Nat) : KeepsMemory (wholePlace i need a n) := by
  mvcgen [wholePlace, elemPlace_keeps, trap]

theorem readPlace_keeps (va : Nat) (p : Place) (n : Nat) {ask : FabricReq → Exec (List FabricReq)} (hask : ∀ q, KeepsMemory (ask q)) :
    KeepsMemory (readPlace va p n ask) := by
  have far (dev off : Nat) : KeepsMemory (fabricRead dev off n va ask) := fabricRead_keeps dev off n va hask
  mvcgen [readPlace, readLoc_keeps, far, trap]

theorem pendingOut_keeps : KeepsMemory pendingOut := by
  mvcgen [pendingOut, getT_keeps]

theorem setPendingOut_keeps (qs : List FabricReq) : KeepsMemory (setPendingOut qs) := by
  mvcgen [setPendingOut, modChunk_keeps]

theorem freshId_keeps : KeepsMemory freshId := by
  mvcgen [freshId, getS_keeps, modS_keeps]

theorem usesExt_keeps (dev : Nat) : KeepsMemory (usesExt dev) := by
  mvcgen [usesExt, getS_keeps]

theorem sendElem_keeps (form : VForm) (stride : Word) (since i : Nat) (prev : Option Nat) (dev off : Nat) (op : ArrivingOp) (va : Nat)
    (reply : ReplyTo) :
    KeepsMemory (sendElem form stride since i prev dev off op va reply) := by
  mvcgen [sendElem, fabricReq_keeps, pendingOut_keeps, usesExt_keeps, freshId_keeps, setPendingOut_keeps]

theorem storeLine_keeps (since dev off va : Nat) (data mask : List Byte) : KeepsMemory (storeLine since dev off va data mask) := by
  mvcgen [storeLine, pendingOut_keeps, setPendingOut_keeps, getT_keeps, fabricReq_keeps]

theorem writePlace_keeps (form : VForm) (stride : Word) (since i : Nat) (prev : Option Nat) (va : Nat) (p : Place)
    (data mask : List Byte) :
    KeepsMemory (writePlace form stride since i prev va p data mask) := by
  mvcgen [writePlace, writeLoc_keeps, explicitChunk_keeps, usesExt_keeps, getT_keeps, sendElem_keeps, storeLine_keeps]

theorem Fetching.ask_keeps (l : Fetching) (i va : Nat) (q : FabricReq) : KeepsMemory (Fetching.ask l i va q) := by
  mvcgen [Fetching.ask, usesExt_keeps]

theorem Fetching.join_keeps (l : Fetching) (i : Nat) (q : FabricReq) : KeepsMemory (Fetching.join l i q) := by
  mvcgen [Fetching.join, usesExt_keeps, getS_keeps, getT_keeps]

theorem loadElem_keeps (l : Fetching) (n w : Nat) (a : Word) (bit i : Nat) : KeepsMemory (loadElem l n w a bit i) := by
  have place (va : Nat) (p : Place) (k : Nat) : KeepsMemory (readPlace va p k (l.ask i va)) :=
    readPlace_keeps va p k (Fetching.ask_keeps l i va)
  have places (ps : List (Nat × Place)) : KeepsMemory (ps.mapM fun e => readPlace e.1 e.2 1 (l.ask i e.1)) :=
    mapM_keeps (fun _ => place _ _ _) ps
  have later (d : Dest) (va pa k : Nat) (ext : Ext) (f : Option (Nat × Nat)) : KeepsMemory (deferLoad d va pa k ext f true (l.join i)) :=
    deferLoad_keeps d va pa k ext f true (Fetching.join_keeps l i)
  mvcgen [loadElem, subPlaces_keeps, places, wrElems_keeps, wholePlace_keeps, mayDefer_keeps, later, place]

theorem storeElem_keeps (form : VForm) (stride : Word) (es : List Nat) (since w : Nat) (a : Word) (bit x i : Nat) :
    KeepsMemory (storeElem form stride es since w a bit x i) := by
  mvcgen [storeElem, subPlaces_keeps, writePlace_keeps, wholePlace_keeps] invariants
  · loopKept

theorem formOperands_keeps (form : VForm) (wi : Nat) (es : List Nat) : KeepsMemory (formOperands form wi es) := by
  mvcgen [formOperands, rdX_keeps, getC_keeps, srcElems_keeps]

theorem vamoElem_keeps (op : AmoOp) (ret : Bool) (form : VForm) (es : List Nat) (since n w : Nat) (a : Word) (x i : Nat) :
    KeepsMemory (vamoElem op ret form es since n w a x i) := by
  mvcgen [vamoElem, wholePlace_keeps, atomicLoc_keeps, wrElems_keeps, checkExt_keeps, explicitChunk_keeps, getT_keeps, sendElem_keeps,
    endAfter_keeps]

theorem performedAtHome_keeps (lines vl : Nat) : KeepsMemory (performedAtHome lines vl) := by
  mvcgen [performedAtHome, getT_keeps]

theorem reachesFabric_keeps (need : Need) (va : Word) : KeepsMemory (reachesFabric need va) := by
  mvcgen [reachesFabric]

/-! ### Fibres -/

theorem fibreCap_keeps : KeepsMemory fibreCap := by
  mvcgen [fibreCap, trap]

theorem checkPoisonF_keeps (k : Nat) : KeepsMemory (checkPoisonF k) := by
  mvcgen [checkPoisonF, getT_keeps, trapOf]

theorem rdF_keeps (k : BitVec 6) : KeepsMemory (rdF k) := by
  mvcgen [rdF, checkPoisonF_keeps, getC_keeps]

theorem wrF_keeps (k : BitVec 6) (f : Fibre) : KeepsMemory (wrF k f) := by
  mvcgen [wrF, modT_keeps]

theorem fibreRead_keeps (i : Nat) (va : Word) (n : Nat) (pieces : List (Nat × Nat × Nat)) : KeepsMemory (fibreRead i va n pieces) := by
  mvcgen [fibreRead, elemPlace_keeps, readPlace_keeps, Fetching.ask_keeps]

theorem chargePairs_keeps (n : Nat) : KeepsMemory (chargePairs n) := by
  mvcgen [chargePairs]

theorem walkRun_keeps (es : List Nat) (each : Nat) {perform : Nat → Exec Unit} (hp : ∀ i, KeepsMemory (perform i)) :
    KeepsMemory (walkRun es each perform) := by
  have run (now : Table Stream) (whole : Bool) : KeepsMemory (runElems now es perform whole) := runElems_keeps now es hp whole
  mvcgen [walkRun, getC_keeps, run, chargePairs_keeps]

theorem walkPairs_keeps (occ : Nat) : KeepsMemory (walkPairs occ) := by
  mvcgen [walkPairs, getC_keeps, trap]

theorem passStart_keeps (tag : Nat) : KeepsMemory (passStart tag) := by
  mvcgen [passStart, getC_keeps, trap]

theorem setProgress_keeps (w : Word) : KeepsMemory (setProgress w) := by
  mvcgen [setProgress, modC_keeps]

theorem joinMode_keeps : KeepsMemory joinMode := by
  mvcgen [joinMode, getConv_keeps, getMode_keeps, needMode_keeps]

theorem joinPass_keeps (o : Conv) (k cap : Nat) (d : BitVec 6) (ins : List (Fibre × Nat)) : KeepsMemory (joinPass o k cap d ins) := by
  mvcgen [joinPass, wrF_keeps, chargePairs_keeps, raise_keeps]

theorem denseMode_keeps : KeepsMemory denseMode := by
  mvcgen [denseMode, getC_keeps, needMode_keeps, checkVl_keeps]

theorem arrayBase_keeps (a : BitVec 6) : KeepsMemory (arrayBase a) := by
  mvcgen [arrayBase, getC_keeps, needMode_keeps, rdX_keeps, trap]

/-! ### Ranges, regions and stands -/

theorem rangePages_keeps (need : Need) (blocks : Bool) (a n : Word) : KeepsMemory (rangePages need blocks a n) := by
  have pages (l : List (Nat × Nat)) : KeepsMemory (l.mapM fun e => do return (← xlate need e.1, e.2)) :=
    mapM_keeps (fun _ => by mvcgen [xlate_keeps]) l
  mvcgen [rangePages, pages, trap]

theorem awaitHeld_keeps (lines : List Nat) : KeepsMemory (awaitHeld lines) := by
  mvcgen [awaitHeld, getS_keeps, getT_keeps]

theorem awaitPinned_keeps (p : Thread → Chunk → Bool) : KeepsMemory (awaitPinned p) := by
  mvcgen [awaitPinned, getS_keeps, getT_keeps]

theorem heldCopies_keeps (a b : BitVec 6) : KeepsMemory (heldCopies a b) := by
  have settle (p : WriteBack → Bool) : KeepsMemory (modS fun s => s.settle p) := modS_keeps fun _ h => settle_wf h p
  mvcgen [heldCopies, rdX_keeps, rangePages_keeps, dieNum_keeps, awaitHeld_keeps, settle, getS_keeps]

theorem readStands_keeps (base count n : Nat) : KeepsMemory (readStands base count n) :=
  foldlM_keeps (fun _ _ => by mvcgen [readRec_keeps, trap]) _ _

theorem readStand_keeps (a : BitVec 6) : KeepsMemory (readStand a) := by
  mvcgen [readStand, rdX_keeps, getT_keeps, getS_keeps, trap]

theorem touchStand_keeps (k : Nat) : KeepsMemory (touchStand k) := by
  mvcgen [touchStand, getT_keeps, modChunk_keeps]

theorem arriveOnce_fresh_keeps (k : Nat) (st : Stand) (t : Thread) : KeepsMemory (arriveOnce.fresh k st t) := by
  have arrive (tid : Nat) (ks : List Nat) : KeepsMemory (modS fun s => s.arriveAt tid ks) :=
    modS_keeps (wf_of_mem fun s => arriveAt_mem s tid ks)
  mvcgen [arriveOnce.fresh, arrived_keeps, getS_keeps, modT_keeps, arrive, trap]

theorem arriveOnce_keeps (k : Nat) (st : Stand) : KeepsMemory (arriveOnce k st) := by
  mvcgen [arriveOnce, getT_keeps, arriveOnce_fresh_keeps]

/-! ### Permutes and predicates -/

theorem permType_keeps (ok : TypeCode → TypeCode → Bool) : KeepsMemory (permType ok) := by
  mvcgen [permType, getC_keeps, needMode_keeps]

theorem permute_keeps (p0 : Bool) (d a : BitVec 6) {x : Exec α} (hx : KeepsMemory x)
    (f : α → (Nat → Nat) → Nat → List Nat → List (Nat × Nat)) : KeepsMemory (permute p0 d a x f) := by
  mvcgen [permute, permType_keeps, checkVl_keeps, hx, dstV_keeps, checkSrcs_keeps, activeElems_keeps, getC_keeps, srcElems_keeps,
    wrElems_keeps, getMode_keeps, needMode_keeps]

theorem rdNat_keeps (b : BitVec 6) : KeepsMemory (rdNat b) := by
  mvcgen [rdNat, rdX_keeps]

theorem wrPred_keeps (d : BitVec 6) (es on : List Nat) : KeepsMemory (wrPred d es on) := by
  mvcgen [wrPred, modC_keeps, wrP_keeps]

theorem allElems_keeps : KeepsMemory allElems := by
  mvcgen [allElems]

theorem setElems_keeps (a : BitVec 6) : KeepsMemory (setElems a) := by
  mvcgen [setElems, rdP_keeps, activeElems_keeps]

theorem fillElems_keeps (d : BitVec 6) (w : Nat) (f : Nat → Nat) : KeepsMemory (fillElems d w f) := by
  mvcgen [fillElems, dstV_keeps, activeElems_keeps, wrElems_keeps]

end Sys2Proof.Machine
end

section

/-! ## Canonical memory (O31): the management path -/

namespace Sys2Proof.Machine

/-- What serving a request leaves is canonical, and so is what follows its response. -/
def Served.Keeps : Served → Prop
  | .answer _ s after => s.mem.wf = true ∧ ∀ u, u.mem.wf = true → (after u).mem.wf = true
  | .wait s => s.mem.wf = true

theorem refused_keeps {s : State} (h : s.mem.wf = true) (status : Nat) : (refused s status).Keeps := ⟨h, fun _ hu => hu⟩
theorem performed_keeps {s : State} (h : s.mem.wf = true) : (performed s).Keeps := ⟨h, fun _ hu => hu⟩
theorem served_ite_keeps {c : Prop} [Decidable c] {a b : Served} (ha : a.Keeps) (hb : b.Keeps) : (if c then a else b).Keeps := by
  split
  · exact ha
  · exact hb

theorem wait_keeps {s : State} (h : s.mem.wf = true) : (Served.wait s).Keeps := h

theorem describe_keeps {s : State} (h : s.mem.wf = true) (p : Nat) (desc : BitVec 512) : (s.describe p desc).Keeps := by
  unfold State.describe
  extract_lets old q keyed
  refine served_ite_keeps (refused_keeps h _) (performed_keeps ?_)
  have hkeyed : keyed.mem = s.mem := by
    unfold keyed
    split
    · exact clearKeys_mem _ _
    · rfl
  rwa [State.setParcel_mem, moveCrews_mem, hkeyed]

theorem createRoot_keeps {s : State} (h : s.mem.wf = true) (p : Nat) (entry args config : Word) :
    (s.createRoot p entry args config).Keeps := by
  fun_cases State.createRoot s p entry args config
  case case3 => exact wait_keeps h
  case case4 =>
    refine performed_keeps ?_
    rwa [createLaunch_mem]
  all_goals exact refused_keeps h _

theorem removeLaunch_keeps {s : State} (h : s.mem.wf = true) (parcel launch : Nat) : (s.removeLaunch parcel launch).Keeps := by
  fun_cases State.removeLaunch s parcel launch
  · exact wait_keeps h
  · exact performed_keeps (stopThreads_wf h _)

theorem giveFrames_keeps {s : State} (h : s.mem.wf = true) (first count owner : Nat) : (s.giveFrames first count owner).Keeps := by
  fun_cases State.giveFrames s first count owner
  case case4 => exact wait_keeps h
  case case5 => exact performed_keeps (setFrames_wf ((dropRefill_mem _ _ _).symm ▸ h) _ _)
  all_goals exact refused_keeps h _

theorem giveBlocks_keeps {s : State} (h : s.mem.wf = true) (first count owner : Nat) : (s.giveBlocks first count owner).Keeps := by
  fun_cases State.giveBlocks s first count owner
  case case4 => exact wait_keeps h
  case case5 =>
    refine performed_keeps ?_
    rwa [setBlocks_mem, dropTlb_mem, dropRefill_mem]
  all_goals exact refused_keeps h _

theorem endRequest_keeps {s : State} (h : s.mem.wf = true) (p : Nat) (begun : Bool) : (s.endRequest p begun).Keeps :=
  served_ite_keeps (performed_keeps (endParcel_wf h p)) (served_ite_keeps (refused_keeps h _) (wait_keeps (beginEnd_wf h p)))

theorem setRoute_keeps {s : State} (h : s.mem.wf = true) (dev : Nat) (entry : BitVec 32) : (s.setRoute dev entry).Keeps :=
  served_ite_keeps (refused_keeps h _) (performed_keeps h)

theorem setNumber_keeps {s : State} (h : s.mem.wf = true) (number : Nat) : (s.setNumber number).Keeps :=
  served_ite_keeps (refused_keeps h _) (served_ite_keeps (refused_keeps h _) (performed_keeps h))

theorem clearLost_keeps {s : State} (h : s.mem.wf = true) (dev : Nat) : (s.clearLost dev).Keeps :=
  served_ite_keeps (refused_keeps h _) (performed_keeps h)

theorem askRotation_keeps {s : State} (h : s.mem.wf = true) (parcel : Nat) : (s.askRotation parcel).Keeps :=
  served_ite_keeps (refused_keeps h _) (performed_keeps h)

theorem setPeriod_keeps {s : State} (h : s.mem.wf = true) (hours : Nat) : (s.setPeriod hours).Keeps :=
  served_ite_keeps (refused_keeps h _) (performed_keeps h)

theorem setPower_keeps {s : State} (h : s.mem.wf = true) (watts : Nat) : (s.setPower watts).Keeps :=
  served_ite_keeps (refused_keeps h _) (performed_keeps h)

theorem setAperture_keeps {s : State} (h : s.mem.wf = true) (p k : Nat) (a : Word) : (s.setAperture p k a).Keeps := by
  fun_cases State.setAperture s p k a
  case case3 => exact wait_keeps h
  case case4 =>
    refine performed_keeps ?_
    rwa [State.setParcel_mem, dropTlb_mem, dropPages_mem]
  all_goals exact refused_keeps h _

theorem loadImage_keeps {s : State} (h : s.mem.wf = true) (image : FirmwareReport) : (s.loadImage image).Keeps :=
  served_ite_keeps (refused_keeps h _) ⟨h, fun _ hu => (train_mem _ _).symm ▸ hu⟩

theorem complete_keeps {s : State} (h : s.mem.wf = true) (links : LinkReport) : (s.complete links).Keeps :=
  served_ite_keeps ⟨h, fun _ hu => hu⟩ ⟨h, fun _ hu => hu⟩

theorem obey_keeps {s : State} (h : s.mem.wf = true) (begun : Bool) (p : Nat) (i : Instr) : (s.obey begun p i).Keeps := by
  fun_cases State.obey s begun p i
  case case1 => exact loadImage_keeps h _
  case case2 => exact describe_keeps h _ _
  case case3 => exact createRoot_keeps h _ _ _ _
  case case4 => exact removeLaunch_keeps h _ _
  case case5 => exact endRequest_keeps h _ _
  case case6 => exact giveFrames_keeps h _ _ _
  case case7 => exact setRoute_keeps h _ _
  case case8 => exact setNumber_keeps h _
  case case9 => exact clearLost_keeps h _
  case case10 => exact askRotation_keeps h _
  case case11 => exact setPeriod_keeps h _
  case case12 => exact setPower_keeps h _
  case case13 => exact setAperture_keeps h _ _ _
  case case14 => exact giveBlocks_keeps h _ _ _
  case case15 => exact complete_keeps h _
  case case16 => exact refused_keeps h _

theorem takeUp_keeps {s : State} (h : s.mem.wf = true) (begun : Bool) (i : Instr) : (s.takeUp begun i).Keeps :=
  served_ite_keeps (refused_keeps h _) (served_ite_keeps (refused_keeps h _) (obey_keeps h _ _ _))

theorem serve_wf {s : State} (h : s.mem.wf = true) (hub : Nat) : (s.serve hub).mem.wf = true := by
  unfold State.serve
  split
  · exact h
  · rename_i e _
    have kept := takeUp_keeps h e.2.2 e.2.1
    split
    · rename_i hu
      rw [hu] at kept
      exact kept
    · rename_i hu
      rw [hu] at kept
      exact kept.2 _ kept.1

theorem receive_keeps (ok : Nat → Bool) (i : Instr) : StepKeeps (receive ok i) := by
  intro s u h hu
  unfold receive at hu
  extract_lets head hub at hu
  cases hu
  split
  · exact h
  · split
    · exact h
    · refine serve_wf ?_ _
      exact h

end Sys2Proof.Machine
end

section

/-! ## Canonical memory (O31): meanings of instructions

A family of instructions is one lemma over what its members vary in. -/

open Std.Do
set_option mvcgen.warning false

namespace Sys2Proof.Machine

theorem loadAt_keeps (n : Nat) (ext : Ext) (d a : BitVec 6) (o : BitVec 11) : StepKeeps (loadAt n ext d a o) :=
  control_keeps (seq_keeps (by mvcgen [rdX_keeps, loadX_keeps]))

theorem storeAt_keeps (n : Nat) (d a : BitVec 6) (o : BitVec 11) : StepKeeps (storeAt n d a o) :=
  control_keeps (seq_keeps (by mvcgen [rdX_keeps, storeX_keeps]))

theorem execFence_keeps (sc : BitVec 2) : StepKeeps (execFence sc) :=
  control_keeps (seq_keeps (by mvcgen [awaitScalars_keeps, drainVectors_keeps, scopeAction_keeps]))

theorem execAcq_keeps (d a : BitVec 6) (sc : BitVec 2) : StepKeeps (execAcq d a sc) :=
  control_keeps (seq_keeps (by
    mvcgen [awaitScalars_keeps, scopeAction_keeps, rdX_keeps, syncPlace_keeps, readLoc_keeps, wrX_keeps, fabricRead_keeps]))

theorem execRel_keeps (a b : BitVec 6) (sc : BitVec 2) : StepKeeps (execRel a b sc) :=
  control_keeps (seq_keeps (by
    mvcgen [awaitScalars_keeps, drainVectors_keeps, scopeAction_keeps, rdX_keeps, syncPlace_keeps, writeLoc_keeps, getT_keeps,
      fabricReq_keeps, modChunk_keeps]))

theorem execPref_keeps (a : BitVec 6) : StepKeeps (execPref a) :=
  control_keeps (seq_keeps (by mvcgen [rdX_keeps]))

/-- The eleven scalar atomics differ in their operation alone. -/
theorem atomic_keeps (op : AmoOp) (d a b : BitVec 6) (z : Bool) : StepKeeps (control {} (seq (atomicX op d a b z))) :=
  control_keeps (seq_keeps (atomicX_keeps op d a b z))

theorem execChkbeg_keeps : StepKeeps execChkbeg :=
  control_keeps (seq_keeps (by mvcgen [atOpening_keeps, modChunk_keeps, modT_keeps]))

theorem execChkend_keeps : StepKeeps execChkend :=
  control_keeps (seq_keeps (by mvcgen [endAfter_keeps]))

theorem execChkstat_keeps (d : BitVec 6) : StepKeeps (execChkstat d) :=
  control_keeps (seq_keeps (by mvcgen [getT_keeps, wrX_keeps]))

theorem scalarBin_keeps (op : Fmt → Rnd → Val → Val → Rounded) (d a b : BitVec 6) : StepKeeps (scalarBin op d a b) :=
  control_keeps (seq_keeps (by mvcgen [scalarMode_keeps, rdX_keeps, wrRounded_keeps]))

theorem execFsqrt_keeps (d a : BitVec 6) : StepKeeps (execFsqrt d a) :=
  control_keeps (seq_keeps (by mvcgen [scalarMode_keeps, rdX_keeps, wrRounded_keeps]))

theorem execFcvt_keeps (d a b : BitVec 6) : StepKeeps (execFcvt d a b) :=
  control_keeps (seq_keeps (by mvcgen [getC_keeps, needMode_keeps, rdX_keeps, wrX_keeps, raise_keeps]))

theorem vecFloat_keeps (reads : Bool) (f : FloatOp → Nat → Val → Val → Val → Nat → Rounded) (d a : BitVec 6) (b : Arg) (num : Bool) :
    StepKeeps (vecFloat reads f d a b · num) :=
  shared_keeps (seq_keeps (by
    mvcgen [getC_keeps, vpStreams_keeps, needMode_keeps, checkVl_keeps, elementwise_keeps, activeElems_keeps, chargePasses_keeps]))

theorem execVfscaleVx_keeps (d a b : BitVec 6) (c : Bool) : StepKeeps (execVfscaleVx d a b c) :=
  shared_keeps (seq_keeps (by
    mvcgen [getC_keeps, vpStreams_keeps, needMode_keeps, checkVl_keeps, rdX_keeps, elementwise_keeps, activeElems_keeps,
      chargePasses_keeps]))

theorem execVfclass_keeps (d a : BitVec 6) (c : Bool) : StepKeeps (execVfclass d a c) :=
  shared_keeps (seq_keeps (by
    mvcgen [getC_keeps, vpStreams_keeps, needMode_keeps, checkVl_keeps, elementwise_keeps, activeElems_keeps, chargePasses_keeps]))

theorem execIllegalInstruction_keeps (w : BitVec 32) : StepKeeps (execIllegalInstruction w) :=
  shared_keeps (by mvcgen [trap])

theorem execEret_keeps : StepKeeps execEret :=
  control_keeps (by mvcgen [modC_keeps, modT_keeps, getC_keeps])

theorem execTlbi_keeps (a : BitVec 6) : StepKeeps (execTlbi a) :=
  control_keeps (seq_keeps (by mvcgen [rdX_keeps, getT_keeps, dropPages_keeps]))

theorem execTlbia_keeps : StepKeeps execTlbia :=
  control_keeps (seq_keeps (by mvcgen [getT_keeps, dropPages_keeps]))

theorem execPause_keeps : StepKeeps execPause :=
  control_keeps (seq_keeps (by mvcgen [getS_keeps, modT_keeps]))

theorem execNop_keeps : StepKeeps execNop :=
  control_keeps (seq_keeps (by mvcgen))

theorem execMode_keeps (g : BitVec 4) (sc : BitVec 5) (r : BitVec 3) (t : Bool) (c : BitVec 6) (b : BitVec 2) (d : BitVec 5) :
    StepKeeps (execMode g sc r t c b d) :=
  control_keeps (seq_keeps (by mvcgen [modC_keeps, trap]))

theorem execSetvl_keeps (d a : BitVec 6) : StepKeeps (execSetvl d a) :=
  control_keeps (seq_keeps (by mvcgen [rdX_keeps, setVl_keeps]))

theorem execSetvli_keeps (d : BitVec 6) (n : BitVec 12) : StepKeeps (execSetvli d n) :=
  control_keeps (seq_keeps (by mvcgen [setVl_keeps]))

theorem execMfsr_keeps (d : BitVec 6) (r : BitVec 12) : StepKeeps (execMfsr d r) :=
  control_keeps (seq_keeps (by mvcgen [checkNumber_keeps, readSys_keeps, wrX_keeps]))

theorem execMfsrFflags_keeps (d : BitVec 6) : StepKeeps (execMfsrFflags d) :=
  control_keeps (seq_keeps (by mvcgen [observeTiles_keeps, readSys_keeps, wrX_keeps]))

theorem execMfsrMsat_keeps (d : BitVec 6) : StepKeeps (execMfsrMsat d) :=
  control_keeps (seq_keeps (by mvcgen [observeTiles_keeps, readSys_keeps, wrX_keeps]))

theorem execMtsr_keeps (a : BitVec 6) (r : BitVec 12) : StepKeeps (execMtsr a r) :=
  control_keeps (seq_keeps (by mvcgen [checkNumber_keeps, rdX_keeps, modC_keeps]))

theorem execMtsrMode_keeps (a : BitVec 6) : StepKeeps (execMtsrMode a) :=
  control_keeps (seq_keeps (by mvcgen [rdX_keeps, modC_keeps, trap]))

theorem execMtsrFmt_keeps (a : BitVec 6) (f : BitVec 3) : StepKeeps (execMtsrFmt a f) :=
  control_keeps (seq_keeps (by mvcgen [rdX_keeps, modC_keeps, trap]))

theorem execMtsrFflags_keeps (a : BitVec 6) : StepKeeps (execMtsrFflags a) :=
  control_keeps (seq_keeps (by mvcgen [observeTiles_keeps, rdX_keeps, modC_keeps]))

theorem execMtsrFprog_keeps (a : BitVec 6) : StepKeeps (execMtsrFprog a) :=
  control_keeps (seq_keeps (by mvcgen [rdX_keeps, modC_keeps]))

theorem execMtsrCtags_keeps (a : BitVec 6) : StepKeeps (execMtsrCtags a) :=
  control_keeps (seq_keeps (by mvcgen [rdX_keeps, getS_keeps, modT_keeps]))

theorem execMtsrMsat_keeps (a : BitVec 6) : StepKeeps (execMtsrMsat a) :=
  control_keeps (seq_keeps (by mvcgen [observeTiles_keeps, rdX_keeps, modC_keeps]))

theorem parcelWrite_keeps (which : Nat) (r : BitVec 12) (mask : Word) (a : BitVec 6) : StepKeeps (parcelWrite which r mask a) :=
  control_keeps (seq_keeps (by mvcgen [checkNumber_keeps, rdX_keeps, modChunk_keeps]))

theorem execMattach_keeps (d a : BitVec 6) : StepKeeps (execMattach d a) :=
  control_keeps (seq_keeps (by mvcgen [rdX_keeps, getT_keeps, getS_keeps, modT_keeps, wrX_keeps, trap]))

theorem execMdetach_keeps : StepKeeps execMdetach :=
  control_keeps (seq_keeps (by mvcgen [getT_keeps, modT_keeps]))

theorem execMmode_keeps (d a : BitVec 6) : StepKeeps (execMmode d a) :=
  control_keeps (seq_keeps (by mvcgen [rdX_keeps, getC_keeps, modC_keeps, wrX_keeps, trap]))

theorem execMzero_keeps (t : BitVec 2) : StepKeeps (execMzero t) :=
  control_keeps (seq_keeps (by mvcgen [tileRows_keeps, queueTile_keeps]))

theorem mopInto_keeps (pm : BitVec 4) (t : BitVec 2) (a b : MopArg) : StepKeeps (mopInto pm t a b) :=
  control_keeps (seq_keeps (by
    mvcgen [getC_keeps, modeTrap_keeps, needMode_keeps, tileRows_keeps, checkCapacity_keeps, getT_keeps, argSpan_keeps, checkSpan_keeps,
      rdP_keeps, checkSrcs_keeps, readOperand_keeps, queueTile_keeps, trap]))

theorem execMldaV_keeps (t : BitVec 2) (a b : BitVec 6) (c : Bool) : StepKeeps (execMldaV t a b c) :=
  control_keeps (seq_keeps (by
    mvcgen [tileRows_keeps, moveFields_keeps, vectorRows_keeps, checkSrcs_keeps, srcElems_keeps, queueTile_keeps]))

theorem execMstaV_keeps (t : BitVec 2) (a b : BitVec 6) : StepKeeps (execMstaV t a b) :=
  control_keeps (seq_keeps (by
    mvcgen [observeTiles_keeps, tileRows_keeps, moveFields_keeps, vectorRows_keeps, dstV_keeps, getT_keeps, trapOf, wrElems_keeps]))

theorem execMprune_keeps (d a b : BitVec 6) (c : Bool) : StepKeeps (execMprune d a b c) :=
  control_keeps (seq_keeps (by
    mvcgen [getC_keeps, needMode_keeps, checkVl_keeps, dstV_keeps, checkSrcs_keeps, srcElems_keeps, wrElems_keeps, wrP_keeps, trap]))

theorem execMfsrCtags_keeps (d : BitVec 6) : StepKeeps (execMfsrCtags d) :=
  control_keeps (seq_keeps (by mvcgen [observeTags_keeps, getT_keeps, wrX_keeps]))

theorem execTwaitAny_keeps (d a : BitVec 6) : StepKeeps (execTwaitAny d a) :=
  control_keeps (seq_keeps (by mvcgen [atOpening_keeps, rdX_keeps, awaitScalars_keeps, observeTags_keeps, getT_keeps, wrX_keeps, trap]))

theorem execTwaitAll_keeps (d a : BitVec 6) : StepKeeps (execTwaitAll d a) :=
  control_keeps (seq_keeps (by mvcgen [atOpening_keeps, rdX_keeps, awaitScalars_keeps, observeTags_keeps, getT_keeps, wrX_keeps]))

theorem execTffr_keeps (d a : BitVec 6) : StepKeeps (execTffr d a) :=
  control_keeps (seq_keeps (by mvcgen [rdX_keeps, observeTags_keeps, getT_keeps, wrX_keeps]))

theorem execBarinit_keeps (a b : BitVec 6) : StepKeeps (execBarinit a b) :=
  control_keeps (seq_keeps (by mvcgen [rdX_keeps, barPlace_keeps, modChunk_keeps, writeBar_keeps, trap]))

theorem execBarexp_keeps (a b : BitVec 6) : StepKeeps (execBarexp a b) :=
  control_keeps (seq_keeps (by mvcgen [rdX_keeps, barPlace_keeps, readBar_keeps, writeBar_keeps, trap]))

theorem execBararr_keeps (d a : BitVec 6) : StepKeeps (execBararr d a) :=
  control_keeps (seq_keeps (by mvcgen [rdX_keeps, barPlace_keeps, readBar_keeps, writeBar_keeps, wrX_keeps, trap]))

theorem execBarwait_keeps (d a b : BitVec 6) : StepKeeps (execBarwait d a b) :=
  control_keeps (seq_keeps (by mvcgen [atOpening_keeps, rdX_keeps, barPlace_keeps, awaitScalars_keeps, readBar_keeps, wrX_keeps]))

theorem execSstop_keeps (d : BitVec 6) : StepKeeps (execSstop d) :=
  control_keeps (seq_keeps (by mvcgen [getC_keeps, awaitV_keeps, modT_keeps]))

theorem execBkstart_keeps (d a b : BitVec 6) : StepKeeps (execBkstart d a b) :=
  control_keeps (seq_keeps (by
    mvcgen [rdX_keeps, readRec_keeps, deriveTraverse_keeps, recPlace_keeps, writeLoc_keeps, wrX_keeps, claim_keeps, readBar_keeps,
      writeBar_keeps, trap, barPlace_keeps, slotFree_keeps]))

theorem execBkresume_keeps (d a b : BitVec 6) : StepKeeps (execBkresume d a b) :=
  control_keeps (seq_keeps (by
    mvcgen [rdX_keeps, readRec_keeps, deriveTraverse_keeps, slotFree_keeps, recPlace_keeps, writeLoc_keeps, claim_keeps, wrX_keeps,
      trap]))

theorem execBkstat_keeps (d a : BitVec 6) : StepKeeps (execBkstat d a) :=
  control_keeps (seq_keeps (by mvcgen [rdX_keeps, slotOf_keeps, wrX_keeps]))

theorem branch_keeps (p : Word → Word → Bool) (a b : BitVec 6) (o : BitVec 14) : StepKeeps (branch p a b o) :=
  control_keeps (by mvcgen [rdX_keeps, getC_keeps, transfer_keeps])

theorem execJal_keeps (d : BitVec 6) (o : BitVec 20) : StepKeeps (execJal d o) :=
  control_keeps (by mvcgen [getC_keeps, wrX_keeps, transfer_keeps])

theorem execJalr_keeps (d a : BitVec 6) (i : BitVec 14) : StepKeeps (execJalr d a i) :=
  control_keeps (by mvcgen [rdX_keeps, getC_keeps, wrX_keeps, transfer_keeps, trap])

theorem pushLoop_keeps (rotating : Bool) (c : BitVec 6) (len : BitVec 12) : StepKeeps (pushLoop rotating c len) :=
  control_keeps (by mvcgen [rdX_keeps, getC_keeps, trap, modC_keeps])

theorem execVcvt_keeps (d a : BitVec 6) (c : Bool) : StepKeeps (execVcvt d a c) :=
  shared_keeps (seq_keeps (by
    mvcgen [getConv_keeps, getC_keeps, vpStreams_keeps, needMode_keeps, checkVl_keeps, elementwise_keeps, activeElems_keeps,
      chargePasses_keeps]))

theorem execVqnt_keeps (d a : BitVec 6) (c : Bool) : StepKeeps (execVqnt d a c) :=
  shared_keeps (seq_keeps (by
    mvcgen [getConv_keeps, getC_keeps, vpStreams_keeps, needMode_keeps, checkVl_keeps, dstV_keeps, activeElems_keeps, scaleOf_keeps,
      elementwise_keeps, chargePasses_keeps]))

theorem execVdqnt_keeps (d a : BitVec 6) (c : Bool) : StepKeeps (execVdqnt d a c) :=
  shared_keeps (seq_keeps (by
    mvcgen [getConv_keeps, getC_keeps, vpStreams_keeps, needMode_keeps, checkVl_keeps, activeElems_keeps, scaleOf_keeps,
      elementwise_keeps, chargePasses_keeps]))

theorem execVbscale_keeps (d a : BitVec 6) (c : Bool) : StepKeeps (execVbscale d a c) :=
  shared_keeps (seq_keeps (by
    mvcgen [getConv_keeps, vpStreams_keeps, getMode_keeps, needMode_keeps, checkVl_keeps, scaleReg_keeps, checkSrcs_keeps,
      activeElems_keeps, getC_keeps, srcElems_keeps, getT_keeps, wrElems_keeps, raise_keeps, chargePasses_keeps]))

theorem execVbsmax_keeps (d a : BitVec 6) (c : Bool) : StepKeeps (execVbsmax d a c) :=
  shared_keeps (seq_keeps (by
    mvcgen [getConv_keeps, vpStreams_keeps, getMode_keeps, needMode_keeps, checkVl_keeps, dstV_keeps, checkSrcs_keeps, activeElems_keeps,
      getC_keeps, srcElems_keeps, wrElems_keeps, raise_keeps, chargePasses_keeps]))

theorem execVdrain_keeps : StepKeeps execVdrain :=
  control_keeps (seq_keeps (by mvcgen [getT_keeps, drainVectors_keeps]))

theorem execVpref_keeps (a : BitVec 6) : StepKeeps (execVpref a) :=
  control_keeps (seq_keeps (by mvcgen [vmemTypes_keeps, rdX_keeps]))

theorem execFlen_keeps (d a : BitVec 6) : StepKeeps (execFlen d a) :=
  control_keeps (seq_keeps (by mvcgen [fibreCap_keeps, getC_keeps, wrX_keeps]))

theorem execFclr_keeps (d : BitVec 6) : StepKeeps (execFclr d) :=
  control_keeps (seq_keeps (by mvcgen [fibreCap_keeps, wrF_keeps]))

theorem execFcopy_keeps (d a : BitVec 6) : StepKeeps (execFcopy d a) :=
  control_keeps (seq_keeps (by mvcgen [fibreCap_keeps, rdF_keeps, wrF_keeps, chargePairs_keeps]))

theorem execFinter_keeps (d a b : BitVec 6) (k : BitVec 3) : StepKeeps (execFinter d a b k) :=
  control_keeps (seq_keeps (by mvcgen [fibreCap_keeps, joinMode_keeps, rdF_keeps, wrF_keeps, chargePairs_keeps, raise_keeps]))

theorem execFunion_keeps (d a b : BitVec 6) (k : BitVec 3) : StepKeeps (execFunion d a b k) :=
  control_keeps (seq_keeps (by
    mvcgen [fibreCap_keeps, joinMode_keeps, passStart_keeps, getC_keeps, rdF_keeps, joinPass_keeps, setProgress_keeps, trap]))

theorem execFcompact_keeps (d a b : BitVec 6) (c : Bool) : StepKeeps (execFcompact d a b c) :=
  control_keeps (seq_keeps (by
    mvcgen [fibreCap_keeps, denseMode_keeps, passStart_keeps, getC_keeps, rdP_keeps, checkSrcs_keeps, activeElems_keeps, srcElems_keeps,
      wrF_keeps, chargePairs_keeps, setProgress_keeps, trap]))

theorem execFexpand_keeps (d a : BitVec 6) : StepKeeps (execFexpand d a) :=
  control_keeps (seq_keeps (by
    mvcgen [fibreCap_keeps, denseMode_keeps, rdF_keeps, dstV_keeps, activeElems_keeps, wrElems_keeps, chargePairs_keeps]))

theorem execTexit_keeps : StepKeeps execTexit :=
  control_keeps (seq_keeps (by mvcgen [explicitChunk_keeps, observeTags_keeps, modChunk_keeps, endAfter_keeps]))

theorem execTyield_keeps : StepKeeps execTyield :=
  control_keeps (seq_keeps (by mvcgen [explicitChunk_keeps, getT_keeps, modChunk_keeps, endAfter_keeps]))

theorem execSarrive_keeps (d a : BitVec 6) : StepKeeps (execSarrive d a) :=
  control_keeps (seq_keeps (by mvcgen [readStand_keeps, touchStand_keeps, arrived_keeps, modChunk_keeps, wrX_keeps, trap]))

theorem execStest_keeps (d a : BitVec 6) : StepKeeps (execStest d a) :=
  control_keeps (seq_keeps (by mvcgen [readStand_keeps, touchStand_keeps, arrived_keeps, wrX_keeps]))

theorem execSwait_keeps (d a b : BitVec 6) : StepKeeps (execSwait d a b) :=
  control_keeps (seq_keeps (by mvcgen [atOpening_keeps, readStand_keeps, rdX_keeps, awaitScalars_keeps, touchStand_keeps, wrX_keeps]))

theorem execSbar_keeps (d a : BitVec 6) : StepKeeps (execSbar d a) :=
  control_keeps (seq_keeps (by
    mvcgen [atOpening_keeps, readStand_keeps, awaitScalars_keeps, arriveOnce_keeps, modT_keeps, wrX_keeps, endAfter_keeps]))

theorem execVgath_keeps (d a b : BitVec 6) (c e : Bool) : StepKeeps (execVgath d a b c e) :=
  control_keeps (seq_keeps (by
    mvcgen [permType_keeps, getMode_keeps, widthOf_keeps, checkVl_keeps, dstV_keeps, checkSrcs_keeps, activeElems_keeps, getC_keeps,
      srcElems_keeps, wrElems_keeps]))

theorem execVbcast_keeps (d a : BitVec 6) : StepKeeps (execVbcast d a) :=
  control_keeps (seq_keeps (by mvcgen [permType_keeps, checkVl_keeps, rdX_keeps, dstV_keeps, activeElems_keeps, wrElems_keeps]))

theorem execVext_keeps (d a b : BitVec 6) (c : Bool) : StepKeeps (execVext d a b c) :=
  control_keeps (seq_keeps (by mvcgen [permType_keeps, checkVl_keeps, rdX_keeps, checkSrcs_keeps, getC_keeps, srcElems_keeps, wrX_keeps]))

theorem execVins_keeps (d a b : BitVec 6) : StepKeeps (execVins d a b) :=
  control_keeps (seq_keeps (by mvcgen [permType_keeps, checkVl_keeps, rdX_keeps, dstV_keeps, getC_keeps, wrElems_keeps]))

theorem vecCmp_keeps (k : Cmp) (d a b : BitVec 6) : StepKeeps (vecCmp k d a b) :=
  shared_keeps (seq_keeps (by
    mvcgen [getC_keeps, vpStreams_keeps, needMode_keeps, checkVl_keeps, checkSrcs_keeps, activeElems_keeps, srcElems_keeps, wrPred_keeps,
      raise_keeps, chargePasses_keeps]))

theorem predLogic_keeps (f : Bool → Bool → Bool) (d a b : BitVec 6) : StepKeeps (predLogic f d a b) :=
  shared_keeps (seq_keeps (by mvcgen [rdP_keeps, allElems_keeps, wrPred_keeps]))

theorem execPwhile_keeps (d a b : BitVec 6) : StepKeeps (execPwhile d a b) :=
  shared_keeps (seq_keeps (by mvcgen [rdX_keeps, allElems_keeps, wrPred_keeps]))

theorem execPcnt_keeps (d a : BitVec 6) : StepKeeps (execPcnt d a) :=
  control_keeps (seq_keeps (by mvcgen [setElems_keeps, wrX_keeps]))

theorem execPfirst_keeps (d a : BitVec 6) : StepKeeps (execPfirst d a) :=
  control_keeps (seq_keeps (by mvcgen [setElems_keeps, wrX_keeps]))

theorem reduce_keeps (k : Red) (d a b : BitVec 6) : StepKeeps (reduce k d a b) :=
  control_keeps (seq_keeps (by
    mvcgen [getConv_keeps, getMode_keeps, needMode_keeps, checkVl_keeps, rdX_keeps, checkSrcs_keeps, activeElems_keeps, getC_keeps,
      srcElems_keeps, wrX_keeps, raise_keeps, chargePasses_keeps]))

theorem aluRR_keeps (f : Word → Word → Word) (d a b : BitVec 6) : StepKeeps (aluRR f d a b) :=
  control_keeps (seq_keeps (by mvcgen [rdX_keeps, wrX_keeps]))

theorem aluRI_keeps (f : Word → Word) (d a : BitVec 6) : StepKeeps (aluRI f d a) :=
  control_keeps (seq_keeps (by mvcgen [rdX_keeps, wrX_keeps]))

theorem execLih_keeps (d : BitVec 6) (i : BitVec 20) : StepKeeps (execLih d i) :=
  control_keeps (seq_keeps (by mvcgen [wrX_keeps]))

theorem execPcrel_keeps (d : BitVec 6) (i : BitVec 20) : StepKeeps (execPcrel d i) :=
  control_keeps (seq_keeps (by mvcgen [getC_keeps, wrX_keeps]))

theorem vecInt_keeps (free reads : Bool) (f : IntOp → Int → Int → Int → Nat) (d a : BitVec 6) (b : Arg) :
    StepKeeps (vecInt free reads f d a b) :=
  shared_keeps (seq_keeps (by mvcgen [getC_keeps, vpStreams_keeps, needMode_keeps, checkVl_keeps, elementwise_keeps]))

theorem execVidx_keeps (d : BitVec 6) (st : BitVec 12) (p : BitVec 8) : StepKeeps (execVidx d st p) :=
  shared_keeps (seq_keeps (by mvcgen [getC_keeps, vpStreams_keeps, needMode_keeps, checkVl_keeps, fillElems_keeps]))

theorem execVrng_keeps (d a : BitVec 6) : StepKeeps (execVrng d a) :=
  shared_keeps (seq_keeps (by mvcgen [getC_keeps, vpStreams_keeps, needMode_keeps, checkVl_keeps, rdX_keeps, fillElems_keeps]))

theorem execVfetch_keeps (n : BitVec 5) (o : BitVec 19) : StepKeeps (execVfetch n o) :=
  control_keeps (seq_keeps (by mvcgen [activeElems_keeps, getC_keeps, modC_keeps]))

theorem execVpsync_keeps : StepKeeps execVpsync :=
  control_keeps (seq_keeps (by mvcgen))

/-! ### Meanings that change the device or run element by element -/

theorem revive_keeps (blocks : List Nat) : KeepsMemory (modS fun s => blocks.foldl State.revive s) :=
  modS_keeps (wf_of_mem fun s => foldl_mem revive_mem blocks s)

theorem setParcelS_keeps (n : Nat) (q : Parcel) : KeepsMemory (modS (·.setParcel n q)) :=
  modS_keeps (wf_of_mem fun s => State.setParcel_mem s n q)

theorem dropLines_keeps (die : Nat) (ls : List Nat) :
    KeepsMemory (modS fun s => ls.foldl (fun s l => (s.squashView die l).writeBack die l true) s) :=
  modS_keeps fun _ h => foldl_wf (fun s l hs => writeBack_wf ((squashView_mem s die l).symm ▸ hs) die l true) ls h

theorem squashSpanS_keeps (tid die parcel first last : Nat) : KeepsMemory (modS (·.squashSpan tid die parcel first last)) :=
  modS_keeps (wf_of_mem fun s => squashSpan_mem s _ _ _ _ _)

theorem execEcall_keeps : StepKeeps execEcall := control_keeps (by mvcgen [trap])

theorem execPkset_keeps : StepKeeps execPkset :=
  control_keeps (seq_keeps (by
    have key (k : Nat) (e : KeyEntry) : KeepsMemory (modS fun s => { s with keys := tput k e s.keys }) := modS_keeps fun _ h => h
    mvcgen [getC_keeps, getS_keeps, getT_keeps, setParcelS_keeps, key, trap]))

theorem execPkclr_keeps : StepKeeps execPkclr :=
  control_keeps (seq_keeps (by
    have key (k : Nat) : KeepsMemory (modS fun s => { s with keys := tdrop k s.keys }) := modS_keeps fun _ h => h
    mvcgen [getC_keeps, getS_keeps, getT_keeps, setParcelS_keeps, key, trap]))

theorem execRwb_keeps (a b : BitVec 6) : StepKeeps (execRwb a b) :=
  control_keeps (seq_keeps (by
    have back (die : Nat) (ls : List Nat) : KeepsMemory (modS fun s => ls.foldl (fun s l => s.writeBack die l false) s) :=
      modS_keeps fun _ h => foldl_wf (fun _ l hs => writeBack_wf hs die l false) ls h
    mvcgen [heldCopies_keeps, back]))

theorem execRinv_keeps (a b : BitVec 6) : StepKeeps (execRinv a b) :=
  control_keeps (seq_keeps (by mvcgen [heldCopies_keeps, dropLines_keeps]))

theorem execRgndecl_keeps (d a : BitVec 6) : StepKeeps (execRgndecl d a) :=
  control_keeps (seq_keeps (by
    have region (die : Nat) (r : Region) : KeepsMemory (modS fun s => s.setRegions die (r :: s.regionsOf die)) :=
      modS_keeps (wf_of_mem fun s => State.setRegions_mem s _ _)
    mvcgen [rdX_keeps, readLocal_keeps, dieNum_keeps, getT_keeps, getS_keeps, awaitPinned_keeps, squashSpanS_keeps, region, wrX_keeps,
      trap]))

theorem execRgnfree_keeps (a : BitVec 6) : StepKeeps (execRgnfree a) :=
  control_keeps (seq_keeps (by
    have settle (p : WriteBack → Bool) : KeepsMemory (modS (·.settle p)) := modS_keeps fun _ h => settle_wf h p
    have region (die : Nat) (r : Region) : KeepsMemory (modS fun s => s.setRegions die ((s.regionsOf die).filter (· != r))) :=
      modS_keeps (wf_of_mem fun s => State.setRegions_mem s _ _)
    mvcgen [rdX_keeps, dieNum_keeps, getT_keeps, getS_keeps, awaitHeld_keeps, awaitPinned_keeps, settle, dropLines_keeps,
      squashSpanS_keeps, region, trap]))

theorem execCways_keeps (d a : BitVec 6) : StepKeeps (execCways d a) :=
  control_keeps (seq_keeps (by
    have wipe (core lo hi : Nat) : KeepsMemory (modS (·.wipeScratch core lo hi)) := modS_keeps fun _ h => wipeScratch_wf h _ _ _
    have core (k : Nat) (part : BitVec 32) : KeepsMemory (modS fun s => s.setCore k { s.core k with part := part }) :=
      modS_keeps (wf_of_mem fun s => State.setCore_mem s _ _)
    mvcgen [rdX_keeps, coreNum_keeps, getS_keeps, awaitPinned_keeps, wipe, core, wrX_keeps, trap]))

theorem execDead_keeps (a b : BitVec 6) : StepKeeps (execDead a b) :=
  control_keeps (seq_keeps (by
    have kill (who die : Option Nat) (ls : List Nat) : KeepsMemory (modS (·.kill who die ls)) := modS_keeps fun _ h => kill_wf h _ _ _
    mvcgen [rdX_keeps, rangePages_keeps, dieNum_keeps, awaitHeld_keeps, getT_keeps, kill]))

theorem execLive_keeps (a b : BitVec 6) : StepKeeps (execLive a b) :=
  control_keeps (seq_keeps (by mvcgen [rdX_keeps, rangePages_keeps, revive_keeps]))

theorem execMstaS_keeps (t : BitVec 2) (a b : BitVec 6) : StepKeeps (execMstaS t a b) :=
  control_keeps (seq_keeps (by
    mvcgen [observeTiles_keeps, tileRows_keeps, moveFields_keeps, moveSpan_keeps, rdX_keeps, takeTag_keeps, getS_keeps, nextIdS_keeps,
      getT_keeps, crewNum_keeps, queueTile_keeps, trap]))

theorem execMldaS_keeps (t : BitVec 2) (a b : BitVec 6) : StepKeeps (execMldaS t a b) :=
  control_keeps (seq_keeps (by
    have rows (l : List Nat) (base pitch : Nat) :
        KeepsMemory (l.mapM fun i => do return BitVec.ofNat 8192 (natOfBytes (← scratchRead (base + i * pitch) 1024))) :=
      mapM_keeps (fun i => by mvcgen [scratchRead_keeps]) l
    mvcgen [tileRows_keeps, moveFields_keeps, moveSpan_keeps, rows, queueTile_keeps]))

theorem execSmode_keeps (d a : BitVec 6) : StepKeeps (execSmode d a) :=
  control_keeps (seq_keeps (by mvcgen [getC_keeps, rdX_keeps, readRec_keeps, getS_keeps, nextIdS_keeps, modT_keeps, trap]))

theorem execLaunch_keeps (d a : BitVec 6) : StepKeeps (execLaunch d a) :=
  control_keeps (seq_keeps (by
    have number (n : Nat) : KeepsMemory (modS fun s => { s with nextLaunch := n }) := modS_keeps fun _ h => h
    mvcgen [rdX_keeps, readRec_keeps, readStands_keeps, getT_keeps, getS_keeps, atOpening_keeps, number, modChunk_keeps, wrX_keeps,
      trap]))

theorem issueCopy_keeps (cast : Bool) (d a b : BitVec 6) : StepKeeps (issueCopy cast d a b) :=
  control_keeps (seq_keeps (by
    have queued (c : Copy) : KeepsMemory (modS fun s => { s with nextId := s.nextId + 1, copies := s.copies ++ [c] }) :=
      modS_keeps fun _ h => h
    mvcgen -trivial [rdX_keeps, readRec_keeps, readLocal_keeps, getT_keeps, getS_keeps, coreNum_keeps, atOpening_keeps, queued,
      takeTag_keeps, wrX_keeps, modC_keeps, barPlace_keeps, checkCorners_keeps, checkOffsets_keeps, trap]
    all_goals assumption))

theorem vecLoad_keeps (form : VForm) (d a : BitVec 6) : StepKeeps (vecLoad form d a) :=
  shared_keeps (by
    mvcgen [vpStreams_keeps, vmemTypes_keeps, getC_keeps, rdX_keeps, dstV_keeps, checkSrcs_keeps, vmemElems_keeps, formOperands_keeps,
      getS_keeps, runElems_keeps, loadElem_keeps, modT_keeps])

theorem vecStore_keeps (form : VForm) (d a : BitVec 6) : StepKeeps (vecStore form d a) :=
  shared_keeps (by
    mvcgen [vpStreams_keeps, vmemTypes_keeps, getC_keeps, rdX_keeps, checkSrcs_keeps, vmemElems_keeps, srcElems_keeps,
      formOperands_keeps, pendingOut_keeps, runElems_keeps, storeElem_keeps])

theorem vecAtomic_keeps (op : AmoOp) (ret : Bool) (d a b : BitVec 6) : StepKeeps (vecAtomic op ret d a b) :=
  shared_keeps (by
    mvcgen [vpStreams_keeps, vmemTypes_keeps, getC_keeps, rdX_keeps, dstV_keeps, checkSrcs_keeps, vmemElems_keeps, srcElems_keeps,
      getT_keeps, pendingOut_keeps, anyM_keeps, reachesFabric_keeps, runElems_keeps, vamoElem_keeps, performedAtHome_keeps,
      modChunk_keeps, endAfter_keeps])

theorem execFld_keeps (d a b : BitVec 6) : StepKeeps (execFld d a b) :=
  control_keeps (seq_keeps (by
    mvcgen [fibreCap_keeps, rdX_keeps, mapM_keeps, fibreRead_keeps, wrF_keeps, chargePairs_keeps, trap]))

theorem execFst_keeps (d a : BitVec 6) : StepKeeps (execFst d a) :=
  control_keeps (by
    mvcgen [fibreCap_keeps, rdX_keeps, rdF_keeps, walkPairs_keeps, pendingOut_keeps, walkRun_keeps, wholePlace_keeps, writePlace_keeps,
      trap])

theorem execFwalk_keeps (d a b : BitVec 6) : StepKeeps (execFwalk d a b) :=
  control_keeps (seq_keeps (by
    mvcgen [fibreCap_keeps, rdX_keeps, fibreRead_keeps, getC_keeps, needMode_keeps, passStart_keeps, mapM_keeps, wrF_keeps,
      chargePairs_keeps, setProgress_keeps, trap]))

theorem execFmerge_keeps (d a b : BitVec 6) (k : BitVec 3) : StepKeeps (execFmerge d a b k) :=
  control_keeps (seq_keeps (by
    mvcgen [fibreCap_keeps, joinMode_keeps, passStart_keeps, getC_keeps, mapM_keeps, rdF_keeps, joinPass_keeps, setProgress_keeps, trap]))

theorem execFgath_keeps (d a : BitVec 6) : StepKeeps (execFgath d a) :=
  control_keeps (by
    mvcgen [fibreCap_keeps, arrayBase_keeps, rdF_keeps, walkPairs_keeps, walkRun_keeps, fibreRead_keeps, modC_keeps])

theorem execFscat_keeps (d a : BitVec 6) : StepKeeps (execFscat d a) :=
  control_keeps (by
    mvcgen [fibreCap_keeps, arrayBase_keeps, rdF_keeps, walkPairs_keeps, pendingOut_keeps, walkRun_keeps, wholePlace_keeps,
      writePlace_keeps])

theorem execVslideup_keeps (d a b : BitVec 6) (c : Bool) : StepKeeps (execVslideup d a b c) :=
  control_keeps (seq_keeps (permute_keeps _ _ _ (rdNat_keeps b) _))

theorem execVslidedn_keeps (d a b : BitVec 6) (c : Bool) : StepKeeps (execVslidedn d a b c) :=
  control_keeps (seq_keeps (permute_keeps _ _ _ (rdNat_keeps b) _))

theorem execVcompress_keeps (d a b : BitVec 6) (c : Bool) : StepKeeps (execVcompress d a b c) :=
  control_keeps (seq_keeps (permute_keeps _ _ _ (rdP_keeps _) _))

theorem execVexpand_keeps (d a b : BitVec 6) (c : Bool) : StepKeeps (execVexpand d a b c) :=
  control_keeps (seq_keeps (permute_keeps _ _ _ (rdP_keeps _) _))

theorem execVmv_keeps (d a : BitVec 6) (c : Bool) : StepKeeps (execVmv d a c) :=
  control_keeps (seq_keeps (permute_keeps _ _ _ (pure_keeps ()) _))

theorem vpOnly_keeps {body : Exec Next} (hb : KeepsMemory body) : StepKeeps (vpOnly body) :=
  shared_keeps (by mvcgen [getS_keeps, trap, hb])

theorem execVpbr_keeps (v : BitVec 6) (o : BitVec 18) : StepKeeps (execVpbr v o) :=
  vpOnly_keeps (by mvcgen [vpStreams_keeps, getC_keeps, checkVl_keeps, srcElems_keeps])

theorem execVpstop_keeps : StepKeeps execVpstop :=
  vpOnly_keeps (by mvcgen [modC_keeps])

end Sys2Proof.Machine
end

section

/-! ## Canonical memory (O31): events -/

namespace Sys2Proof.Machine

theorem event_mem_keeps {f : State → State} (hf : ∀ s, (f s).mem = s.mem) : StepKeeps (event f) := event_keeps (wf_of_mem hf)

/-- An event that changes a state under a guard, and leaves memory as it was. -/
theorem event_ite_keeps {c : State → Prop} [∀ s, Decidable (c s)] {f : State → State} (hf : ∀ s, (f s).mem = s.mem) :
    StepKeeps (event fun s => if c s then f s else s) := by
  refine event_mem_keeps fun s => ?_
  split
  · exact hf s
  · rfl

theorem onThread_mem {s : State} {f : Thread → State} (hf : ∀ t, (f t).mem = s.mem) (tid : Nat) (p : Thread → Bool) :
    (s.onThread tid p f).mem = s.mem := by
  unfold State.onThread
  split
  · split
    · exact hf _
    · rfl
  · rfl

/-- An event that changes one thread. -/
theorem event_setThread_keeps (tid : Nat) (p : State → Thread → Bool) (g : State → Thread → Thread) :
    StepKeeps (event fun s => s.onThread tid (p s) fun t => s.setThread (g s t)) :=
  event_mem_keeps fun s => onThread_mem (fun _ => State.setThread_mem s _) _ _

/-! ### Threads -/

theorem execChunkLimitEnd_keeps (tid : Nat) : StepKeeps (execChunkLimitEnd tid) := event_setThread_keeps _ _ _

theorem execChunkCommit_keeps (tid : Nat) : StepKeeps (execChunkCommit tid) :=
  event_keeps fun _ h => onThread_wf h (resume_wf h) _ _

theorem execTrapEntry_keeps (tid : Nat) : StepKeeps (execTrapEntry tid) :=
  event_keeps fun _ h => onThread_wf h (enterPending_wf h) _ _

theorem execAsyncTrap_keeps (tid : Nat) : StepKeeps (execAsyncTrap tid) := event_mem_keeps fun s => onThread_mem (takeAsync_mem s) _ _

theorem execPriorityCommitRequest_keeps (tid : Nat) : StepKeeps (execPriorityCommitRequest tid) :=
  event_mem_keeps fun s => onThread_mem (fun t => by dsimp only; split <;> rfl) _ _

theorem execPersistentRequest_keeps (tid line : Nat) : StepKeeps (execPersistentRequest tid line) :=
  event_mem_keeps fun s => onThread_mem (persist_mem s tid line) _ _

theorem execPlacementAging_keeps (tid : Nat) : StepKeeps (execPlacementAging tid) := event_setThread_keeps _ _ _

theorem execPreempt_keeps (tid : Nat) :
    StepKeeps (execPreempt tid) := event_mem_keeps fun s => onThread_mem (fun _ => preempt_mem s tid) _ _

theorem execBlockedEvictionAge_keeps (tid : Nat) : StepKeeps (execBlockedEvictionAge tid) :=
  event_setThread_keeps _ _ _

theorem execStripAging_keeps (tid : Nat) : StepKeeps (execStripAging tid) := event_setThread_keeps _ _ _

theorem execWaitSatisfied_keeps (tid : Nat) : StepKeeps (execWaitSatisfied tid) :=
  event_mem_keeps fun s => onThread_mem (fun t => by
    split
    · split <;> rfl
    · split <;> rfl
    · rfl) _ _

theorem execPauseEnd_keeps (tid : Nat) : StepKeeps (execPauseEnd tid) := event_setThread_keeps _ _ _

/-! ### Links and the host -/

theorem execIdleFlit_keeps (port : Nat) : StepKeeps (execIdleFlit port) := event_ite_keeps fun _ => rfl
theorem execHeartbeat_keeps : StepKeeps execHeartbeat := event_ite_keeps fun _ => rfl
theorem execHeartbeatReceived_keeps (dev : Nat) : StepKeeps (execHeartbeatReceived dev) := event_ite_keeps fun _ => rfl
theorem execPeerLost_keeps (dev : Nat) : StepKeeps (execPeerLost dev) := event_ite_keeps fun s => markLost_mem s dev
theorem execDownNoticeReceived_keeps (dev : Nat) : StepKeeps (execDownNoticeReceived dev) := event_ite_keeps fun s => markLost_mem s dev

theorem execHostWrite_keeps (pa : Nat) (data : List Byte) : StepKeeps (execHostWrite pa data) :=
  event_keeps fun s h => by
    split
    · exact unit_wf h _ _
    · exact h

theorem execHostRead_keeps (pa n : Nat) : StepKeeps (execHostRead pa n) := event_ite_keeps fun s => countDead_mem s pa

/-! ### Memory, power and bring-up -/

theorem execEccError_keeps (double : Bool) (place : EccPlace) : StepKeeps (execEccError double place) :=
  event_mem_keeps fun s => by
    split
    · split
      · exact readLine_mem _ _ _
      · rfl
    · split
      · exact strike_mem _ _
      · rfl

theorem execCoreFence_keeps (core : Nat) (cause : FenceCause) (corrupt : List Nat) : StepKeeps (execCoreFence core cause corrupt) :=
  event_keeps fun s h => by
    extract_lets all cores
    split
    · exact foldl_wf (fun _ k hs => fence_wf hs k corrupt) _ h
    · exact h

theorem execRefreshDue_keeps (stack bank : Nat) (burst : Bool) : StepKeeps (execRefreshDue stack bank burst) :=
  event_mem_keeps fun s => by
    extract_lets k n
    split
    · rfl
    · split <;> rfl

theorem execRefreshPostponeLimit_keeps (stack bank : Nat) :
    StepKeeps (execRefreshPostponeLimit stack bank) := event_ite_keeps fun _ => rfl
theorem execLogWrapClear_keeps (stack : Nat) : StepKeeps (execLogWrapClear stack) := event_mem_keeps fun _ => rfl
theorem execPowerWindow_keeps (watts : Nat) : StepKeeps (execPowerWindow watts) := event_ite_keeps fun _ => rfl
theorem execCrewClockGate_keeps (crew : Nat) : StepKeeps (execCrewClockGate crew) := event_ite_keeps fun _ => rfl

theorem execThermalThrottle_keeps (die celsius : Nat) : StepKeeps (execThermalThrottle die celsius) := event_ite_keeps fun _ => rfl
theorem execThermalRecovery_keeps (celsius : List Nat) : StepKeeps (execThermalRecovery celsius) := event_ite_keeps fun _ => rfl
theorem execThermalTrip_keeps (die celsius : Nat) : StepKeeps (execThermalTrip die celsius) := event_ite_keeps fun _ => rfl

theorem execResetPinAssert_keeps : StepKeeps execResetPinAssert := by
  intro s u h hu
  cases hu
  exact cold_wf h

theorem execResetPinRelease_keeps : StepKeeps execResetPinRelease := by
  intro s u h hu
  cases hu
  split <;> exact h

end Sys2Proof.Machine
end

section

/-! ## Canonical memory (O31): every step

`exec_keeps` is the dispatch's table: each constructor of `Instr` by the lemma of its meaning or event. -/

namespace Sys2Proof.Machine

theorem exec_keeps (i : Instr) : StepKeeps (exec i) := by
  cases i
  case chunkLimitEnd tid => exact execChunkLimitEnd_keeps tid
  case chunkCommit tid => exact execChunkCommit_keeps tid
  case priorityCommitRequest tid => exact execPriorityCommitRequest_keeps tid
  case priorityTicketPass => exact event_mem_keeps passTicket_mem
  case persistentRequest tid line => exact execPersistentRequest_keeps tid line
  case farOpPerform => exact event_mem_keeps fun s => farOp_mem s _
  case deferredLoadReply => exact event_mem_keeps fun s => deferredReply_mem s _
  case fabricReply => exact event_keeps fun _ h => fabricReply_wf h _ _ _ _
  case asyncTrap tid => exact execAsyncTrap_keeps tid
  case trapEntry tid => exact execTrapEntry_keeps tid
  case tileOpPerform => exact event_mem_keeps fun s => tileOp_mem s _
  case matrixDrain => exact event_keeps fun _ h => drainElem_wf h _ _
  case copyStart => exact event_mem_keeps fun s => copyStart_mem s _
  case copyElement => exact event_keeps fun _ h => copyElement_wf h _ _
  case copyComplete => exact event_keeps fun _ h => copyComplete_wf h _
  case barrierCredit => exact event_keeps fun _ h => barrierCredit_wf h _ _
  case streamRefill => exact event_mem_keeps fun s => streamRefill_mem s _ _ _
  case post => exact event_keeps fun _ h => post_wf h _ _
  case postCredit => exact event_keeps fun _ h => postCredit_wf h _ _
  case traverseDone => exact event_keeps fun _ h => traverseDone_wf h _
  case traverseStop => exact event_keeps fun _ h => traverseStop_wf h _
  case placeThread => exact event_keeps fun _ h => place_wf h _ _ _
  case preempt tid => exact execPreempt_keeps tid
  case placementAging tid => exact execPlacementAging_keeps tid
  case blockedEvictionAge tid => exact execBlockedEvictionAge_keeps tid
  case stripGrant => exact event_mem_keeps fun s => grant_mem s _ _
  case stripAging tid => exact execStripAging_keeps tid
  case waitSatisfied tid => exact execWaitSatisfied_keeps tid
  case pauseEnd tid => exact execPauseEnd_keeps tid
  case cacheEviction => exact event_mem_keeps fun s => evict_mem s _
  case mgdWritebackArrival => exact event_keeps fun _ h => writeBackArrives_wf h _
  case pageWalk => exact event_mem_keeps fun s => pageWalk_mem s _ _ _ _
  case fabricRequestArrival => exact event_keeps fun _ h => arrival_wf h _
  case extensionPacketArrival => exact event_keeps fun _ h => packet_wf h _
  case fabricCombine => exact event_mem_keeps fun s => combine_mem s _ _ _
  case combineWindowExpiry => exact event_mem_keeps fun s => passStage_mem s _
  case replySplit => exact event_mem_keeps fun s => splitReply_mem s _
  case idleFlit port => exact execIdleFlit_keeps port
  case linkDown => exact event_mem_keeps fun s => portDown_mem s _
  case linkTrained => exact event_mem_keeps fun s => trained_mem s _ _ _
  case heartbeat => exact execHeartbeat_keeps
  case peerLost dev => exact execPeerLost_keeps dev
  case downNoticeReceived dev => exact execDownNoticeReceived_keeps dev
  case hostWrite pa data => exact execHostWrite_keeps pa data
  case hostAtomic => exact event_keeps fun _ h => hostAmo_wf h _ _ _ _ _
  case hostRead pa n => exact execHostRead_keeps pa n
  case eccError double place => exact execEccError_keeps double place
  case coreFence core cause corrupt => exact execCoreFence_keeps core cause corrupt
  case refreshDue stack bank burst => exact execRefreshDue_keeps stack bank burst
  case refreshPostponeLimit stack bank => exact execRefreshPostponeLimit_keeps stack bank
  case scrubPassStart => exact event_mem_keeps fun s => passStarts_mem s _
  case scrubLine => exact event_mem_keeps fun s => scrub_mem s _ _
  case scrubPassEnd => exact event_mem_keeps fun s => passEnds_mem s _
  case logWrapClear stack => exact execLogWrapClear_keeps stack
  case powerWindow watts => exact execPowerWindow_keeps watts
  case crewClockGate crew => exact execCrewClockGate_keeps crew
  case thermalThrottle die celsius => exact execThermalThrottle_keeps die celsius
  case thermalTrip die celsius => exact execThermalTrip_keeps die celsius
  case resetPinRelease => exact execResetPinRelease_keeps
  case resetPinAssert => exact execResetPinAssert_keeps
  case loadFirmwareImage => exact receive_keeps (· == 1) _
  case writeParcelDescriptor => exact receive_keeps (· == 2) _
  case createRootThread => exact receive_keeps (· == 3) _
  case removeLaunch => exact receive_keeps (· == 4) _
  case endParcel => exact receive_keeps (· == 5) _
  case assignFrames => exact receive_keeps (· == 6) _
  case writeRouteEntry => exact receive_keeps (· == 7) _
  case setDeviceNumber => exact receive_keeps (· == 8) _
  case clearLostMark => exact receive_keeps (· == 9) _
  case requestKeyRotation => exact receive_keeps (· == 10) _
  case setScrubPeriod => exact receive_keeps (· == 11) _
  case setPowerLimit => exact receive_keeps (· == 12) _
  case writeHostAperture => exact receive_keeps (· == 13) _
  case assignBlocks => exact receive_keeps (· == 14) _
  case configurationComplete => exact receive_keeps (· == 15) _
  case illegalInstruction w => exact execIllegalInstruction_keeps w
  case laneFailure => exact event_mem_keeps fun s => laneFails_mem s _
  case heartbeatReceived dev => exact execHeartbeatReceived_keeps dev
  case idleFlitReceived => exact event_mem_keeps fun s => heard_mem s _
  case thermalRecovery celsius => exact execThermalRecovery_keeps celsius
  case unknownRequest => exact receive_keeps (!assigned ·) _
  case ecall => exact execEcall_keeps
  case eret => exact execEret_keeps
  case tlbi a => exact execTlbi_keeps a
  case tlbia => exact execTlbia_keeps
  case pkset => exact execPkset_keeps
  case pkclr => exact execPkclr_keeps
  case pause => exact execPause_keeps
  case nop => exact execNop_keeps
  case mode g sc r t c b d => exact execMode_keeps g sc r t c b d
  case add | sub | and | or | xor | sll | srl | sra | slt | sltu | mul | mulh | mulhu | div | divu | rem | remu | min | max |
      minu | maxu => exact aluRR_keeps _ _ _ _
  case addi | andi | ori | xori | slli | srli | srai => exact aluRI_keeps _ _ _
  case lih d imm => exact execLih_keeps d imm
  case pcrel d imm => exact execPcrel_keeps d imm
  case beq | bne | blt | bge | bltu | bgeu => exact branch_keeps _ _ _ _
  case jal d o => exact execJal_keeps d o
  case jalr d a imm => exact execJalr_keeps d a imm
  case loop | loopr => exact pushLoop_keeps _ _ _
  case vfetch n o => exact execVfetch_keeps n o
  case vpbr v o => exact execVpbr_keeps v o
  case vpstop => exact execVpstop_keeps
  case vpsync => exact execVpsync_keeps
  case ldB | ldH | ldW | ldD | ldBu | ldHu | ldWu => exact loadAt_keeps _ _ _ _ _
  case stB | stH | stW | stD => exact storeAt_keeps _ _ _ _
  case amoAdd | amoAnd | amoOr | amoXor | amoMin | amoMax | amoMinu | amoMaxu | amoSwap | amoFadd | cas => exact atomic_keeps _ _ _ _ _
  case fence sc => exact execFence_keeps sc
  case acq d a sc => exact execAcq_keeps d a sc
  case rel a b sc => exact execRel_keeps a b sc
  case pref a => exact execPref_keeps a
  case setvl d a => exact execSetvl_keeps d a
  case setvli d n => exact execSetvli_keeps d n
  case mfsr d r => exact execMfsr_keeps d r
  case mfsrFflags d => exact execMfsrFflags_keeps d
  case mfsrMsat d => exact execMfsrMsat_keeps d
  case mtsr a r => exact execMtsr_keeps a r
  case mtsrMode a => exact execMtsrMode_keeps a
  case mtsrFmt a f => exact execMtsrFmt_keeps a f
  case mtsrFflags a => exact execMtsrFflags_keeps a
  case mtsrFprog a => exact execMtsrFprog_keeps a
  case mtsrCtags a => exact execMtsrCtags_keeps a
  case mtsrMsat a => exact execMtsrMsat_keeps a
  case mtsrPtroot | mtsrTrapvec | mtsrPshare => exact parcelWrite_keeps _ _ _ _
  case vidx d sc p => exact execVidx_keeps d sc p
  case vadd | vaddVx | vsub | vsubVx | vmul | vmulVx | vmulh | vmulhVx | vmacc | vmaccVx | vdiv | vdivVx | vrem | vremVx | vmin |
      vminVx | vmax | vmaxVx | vand | vandVx | vor | vorVx | vxor | vxorVx | vsll | vsllVx | vsrl | vsrlVx | vsra | vsraVx =>
    exact vecInt_keeps _ _ _ _ _ _
  case vrng d a => exact execVrng_keeps d a
  case vfadd | vfaddVx | vfsub | vfsubVx | vfmul | vfmulVx | vfma | vfmaVx | vfms | vfmsVx | vfnma | vfnmaVx | vfnms | vfnmsVx |
      vfdiv | vfdivVx | vfsqrt | vfrec | vfmin | vfminVx | vfmax | vfmaxVx | vfabs | vfneg | vfrint | vfexp2 | vfscale =>
    exact vecFloat_keeps _ _ _ _ _ _
  case vfscaleVx d a b c => exact execVfscaleVx_keeps d a b c
  case vfclass d a c => exact execVfclass_keeps d a c
  case vcmpEq | vcmpNe | vcmpLt | vcmpLe | vcmpGt | vcmpGe | vcmpUn => exact vecCmp_keeps _ _ _ _
  case pand | por | pxor => exact predLogic_keeps _ _ _ _
  case pandn d a b => exact predLogic_keeps (fun p q => p && !q) d a b
  case pnot d a => exact predLogic_keeps (fun p _ => !p) d a a
  case pwhile d a b => exact execPwhile_keeps d a b
  case pcnt d a => exact execPcnt_keeps d a
  case pfirst d a => exact execPfirst_keeps d a
  case vcvt d a c => exact execVcvt_keeps d a c
  case vqnt d a c => exact execVqnt_keeps d a c
  case vdqnt d a c => exact execVdqnt_keeps d a c
  case vbscale d a c => exact execVbscale_keeps d a c
  case vbsmax d a c => exact execVbsmax_keeps d a c
  case vredo | vredt | vredmin | vredmax => exact reduce_keeps _ _ _ _
  case vslideup d a b c => exact execVslideup_keeps d a b c
  case vslidedn d a b c => exact execVslidedn_keeps d a b c
  case vgath d a b c e => exact execVgath_keeps d a b c e
  case vcompress d a b c => exact execVcompress_keeps d a b c
  case vexpand d a b c => exact execVexpand_keeps d a b c
  case vbcast d a => exact execVbcast_keeps d a
  case vext d a b c => exact execVext_keeps d a b c
  case vins d a b => exact execVins_keeps d a b
  case vmv d a c => exact execVmv_keeps d a c
  case vld | vldS | vldX => exact vecLoad_keeps _ _ _
  case vst | vstS | vstX => exact vecStore_keeps _ _ _
  case vamoAdd | vamoAddRet | vamoAnd | vamoAndRet | vamoOr | vamoOrRet | vamoXor | vamoXorRet | vamoMin | vamoMinRet | vamoMax |
      vamoMaxRet | vamoMinu | vamoMinuRet | vamoMaxu | vamoMaxuRet | vamoSwap | vamoSwapRet | vamoFadd | vamoFaddRet =>
    exact vecAtomic_keeps _ _ _ _ _
  case vdrain => exact execVdrain_keeps
  case vpref a => exact execVpref_keeps a
  case fld d a b => exact execFld_keeps d a b
  case fst d a => exact execFst_keeps d a
  case fwalk d a b => exact execFwalk_keeps d a b
  case finter d a b k => exact execFinter_keeps d a b k
  case funion d a b k => exact execFunion_keeps d a b k
  case fmerge d a b k => exact execFmerge_keeps d a b k
  case fcompact d a b c => exact execFcompact_keeps d a b c
  case fexpand d a => exact execFexpand_keeps d a
  case fgath d a => exact execFgath_keeps d a
  case fscat d a => exact execFscat_keeps d a
  case flen d a => exact execFlen_keeps d a
  case fclr d => exact execFclr_keeps d
  case fcopy d a => exact execFcopy_keeps d a
  case mattach d a => exact execMattach_keeps d a
  case mdetach => exact execMdetach_keeps
  case mmode d a => exact execMmode_keeps d a
  case mzero t => exact execMzero_keeps t
  case mopVv p t a b _ _ => exact mopInto_keeps p t (.v a) (.v b)
  case mopSv p t a b _ => exact mopInto_keeps p t (.s a) (.v b)
  case mopSs p t a b => exact mopInto_keeps p t (.s a) (.s b)
  case mldaV t a b c => exact execMldaV_keeps t a b c
  case mldaS t a b => exact execMldaS_keeps t a b
  case mstaV t a b => exact execMstaV_keeps t a b
  case mstaS t a b => exact execMstaS_keeps t a b
  case mprune d a b c => exact execMprune_keeps d a b c
  case cpy | cpym => exact issueCopy_keeps _ _ _ _
  case smode d a => exact execSmode_keeps d a
  case sstop d => exact execSstop_keeps d
  case twaitAny d a => exact execTwaitAny_keeps d a
  case twaitAll d a => exact execTwaitAll_keeps d a
  case tffr d a => exact execTffr_keeps d a
  case barinit a b => exact execBarinit_keeps a b
  case barexp a b => exact execBarexp_keeps a b
  case bararr d a => exact execBararr_keeps d a
  case barwait d a b => exact execBarwait_keeps d a b
  case rwb a b => exact execRwb_keeps a b
  case rinv a b => exact execRinv_keeps a b
  case rgndecl d a => exact execRgndecl_keeps d a
  case rgnfree a => exact execRgnfree_keeps a
  case cways d a => exact execCways_keeps d a
  case live a b => exact execLive_keeps a b
  case dead a b => exact execDead_keeps a b
  case chkbeg => exact execChkbeg_keeps
  case chkend => exact execChkend_keeps
  case chkstat d => exact execChkstat_keeps d
  case launch d a => exact execLaunch_keeps d a
  case texit => exact execTexit_keeps
  case tyield => exact execTyield_keeps
  case sbar d a => exact execSbar_keeps d a
  case sarrive d a => exact execSarrive_keeps d a
  case swait d a b => exact execSwait_keeps d a b
  case stest d a => exact execStest_keeps d a
  case bkstart d a b => exact execBkstart_keeps d a b
  case bkresume d a b => exact execBkresume_keeps d a b
  case bkstat d a => exact execBkstat_keeps d a
  case fadd d a b => exact scalarBin_keeps (fun f rnd x y => roundVal f rnd false 0 (x.add rnd y)) d a b
  case fsub d a b => exact scalarBin_keeps (fun f rnd x y => roundVal f rnd false 0 (x.add rnd y.negate)) d a b
  case fmul d a b => exact scalarBin_keeps (fun f rnd x y => roundVal f rnd false 0 (x.mul y)) d a b
  case fdiv d a b => exact scalarBin_keeps (fun f rnd x y => f.div rnd false 0 x y) d a b
  case fsqrt d a => exact execFsqrt_keeps d a
  case fcvt d a b => exact execFcvt_keeps d a b
  case mfsrCtags d => exact execMfsrCtags_keeps d

theorem step_keeps : StepKeeps step := by
  intro s u h hu
  have moved := move_wf h
  unfold step at hu
  split at hu
  case h_1 hm =>
    cases hu
    rwa [hm] at moved
  case h_2 hm =>
    rw [hm] at moved
    exact exec_keeps _ moved hu
  case h_3 hm =>
    rw [hm] at moved
    cases hu
    exact serve_wf moved _
  case h_4 hm =>
    rw [hm] at moved
    exact exec_keeps _ moved hu

/-- Settles O31: a turn's move leaves memory canonical, and so does every instruction and event that the turn may execute. -/
theorem stepKeepsMemory : Obligations.StepKeepsMemory := ⟨fun _ _ h hu => step_keeps h hu, reset_wf⟩

end Sys2Proof.Machine
end
